-- ==== Sys2Proof/Word.lean ====
section
/-!
DEFINITION. The word types of the Ifeolet instruction set (R26, R67, R101): register names, instruction words,
64-bit register contents, bytes.
-/
namespace Sys2Proof

/-- A 6-bit register field: v0–v63 or s0–s63 (R30). -/
abbrev Reg := BitVec 6
/-- One 32-bit instruction word (R26). -/
abbrev IWord := BitVec 32
/-- A 64-bit register value (R101). -/
abbrev W64 := BitVec 64
/-- One half of a lane register (R101). -/
abbrev W32 := BitVec 32
/-- A byte of memory. -/
abbrev Byte := BitVec 8

end Sys2Proof
end

