-- ==== Sys2Proof/Syntax.lean ====
section
/-!
DEFINITION. The instruction set as syntax: one constructor per row of the opcode table (R53–R58). The first 323 are
the encoded forms of the lane and the uniform set; the rest are the steps that the part takes outside the issue slots
(a load completing, a copy span, a host write, a launch accepted and so on).
-/
namespace Sys2Proof

/-- Rounding codes of R60 (code 111 is reserved and has no constructor). -/
inductive Rm where
  | rne | rtz | rup | rdn | rna | rsr | dyn
  deriving DecidableEq, Repr

/-- Type codes of R62. -/
inductive Ty where
  | i32 | n32 | i64 | n64 | b32 | b64 | f32 | f64 | bf16 | f16 | e4m3 | e5m2 | hb8 | hb4 | q8 | q4 | q2
  deriving DecidableEq, Repr

/-- Scope codes of R63. -/
inductive Scope where
  | lane | core | quad | die | pkg | pod
  deriving DecidableEq, Repr

/-- Operations of LRED and LSCAN (R123). -/
inductive RedOp where
  | add | min | max | and | or | xor
  deriving DecidableEq, Repr

/-- Operations of ATOM and RED (R235). -/
inductive AtomOp where
  | add | min | max | and | or | xor | exch | cas
  deriving DecidableEq, Repr

/-- The three collective forms (R377). -/
inductive CollForm where
  | red | maxe | bcst
  deriving DecidableEq, Repr

/-- What a participant on another module brings to a collective instance (R378): its module, its rank, the form, the
k field, the control word, N, its elements as bytes and one green flag for each element (for each line in
COLL.BCST). -/
structure Contribution where
  module : BitVec 11
  rank   : Nat
  form   : CollForm
  k      : BitVec 4
  ctrl   : BitVec 64
  n      : Nat
  bytes  : List Byte
  greens : List Bool
  deriving DecidableEq, Repr

/-- What a brick of another module does to a pod barrier (R9, R269–R272): it arrives, it ends (`killed`: it is killed), or it
initialises the barrier. -/
inductive BarAct where
  | arrive
  | ends (killed : Bool)
  | init (e : Nat)
  deriving DecidableEq, Repr

/-- What reaches this module from another one (R374): a load of n bytes from a home here, a store of bytes, a whole
posted line, an atomic with its operation, type, rounding mode, data and compare value; an act of a brick on pod barrier k (R9);
what a line of the other module's own memory has come to hold, with its tag and whether it is poisoned, which this module's
remote accesses will find there; and that the fabric manager has assigned the request's key, with its partition, to that module. -/
inductive RemoteKind where
  | load (n : Nat)
  | store (bytes : List Byte)
  | line (bytes : List Byte)
  | atomic (op : AtomOp) (ty : Ty) (rm : Rm) (v : W64) (v2 : W64)
  | barrier (k brick : Nat) (act : BarAct)
  | theirs (bytes : List Byte) (poison : Bool)
  | assigned (part : BitVec 16)
  deriving DecidableEq, Repr

/-- A packet that reaches this module over a fabric link (R370, R374): the source module and its key, the address in
this module's memory, whether its data or addresses are green, and what it asks. -/
structure RemoteReq where
  module : BitVec 11
  key    : BitVec 16
  pa     : BitVec 56
  green  : Bool
  kind   : RemoteKind
  deriving DecidableEq, Repr

/-- The structures whose control-state words are checked (R363, R364): a brick's split stacks or saved context, a
partition scheduler of a core, the hod state of a wall, the array queue of a core, a semaphore's queue, a barrier's
state. -/
inductive FaultyStructure where
  | brickState (b : Nat)
  | partition (core part : Nat)
  | hodState (wall : Nat)
  | arrayQueue (core : Nat)
  | semaphoreQueue (die n : Nat)
  deriving DecidableEq, Repr

/-- A storage or datapath fault as the check that meets it sees it (R363): in a half of a lane register, a uniform register, a
bank, a line of memory (physical, or of a core's local memory) by the bits that are wrong, a buffered tape line; in one of the three
copies of a core barrier, a network barrier or a semaphore, by what that copy now holds; in an entry of a translation cache; in the two
lanes of the copy engine that runs a command; in a datapath, which makes a write of a brick's next result wrong in one bit (R360). `double` marks an error that cannot be corrected. -/
inductive StorageFault where
  | half (b r t e : Nat) (double : Bool)
  | uniform (b r : Nat)
  | bank (core bank : Nat) (double : Bool)
  | line (pa : Nat) (bits : List Nat)
  | localLine (core off : Nat) (bits : List Nat)
  | tapeLine (b i : Nat) (double : Bool)
  | coreBarrier (wall k copy e a : Nat) (p ab : Bool)
  | netBarrier (sp : Scope) (place k copy e a : Nat) (p ab : Bool)
  | semaphore (die n copy count : Nat)
  | translation (i : Nat)
  | copyLanes (copy : Nat) (twice : Bool)
  | datapath (b write bit : Nat)
  deriving DecidableEq, Repr

/-- The instructions and steps of the opcode table. `st` is the stall count ST of R34. -/
inductive Instr where
  /-- Adds a and b per element modulo 2^W (R112). -/
  | iadd (d : Reg) (a : Reg) (b : Reg) (w : Bool) (st : BitVec 3)
  /-- Subtracts b from a per element modulo 2^W (R112). -/
  | isub (d : Reg) (a : Reg) (b : Reg) (w : Bool) (st : BitVec 3)
  /-- Writes the low W bits of a times b (R112). -/
  | imul (d : Reg) (a : Reg) (b : Reg) (w : Bool) (st : BitVec 3)
  /-- Writes the high W bits of the signed 2W-bit product (R112). -/
  | imulh (d : Reg) (a : Reg) (b : Reg) (w : Bool) (st : BitVec 3)
  /-- Adds a times b into d modulo 2^W (R112). -/
  | imad (d : Reg) (a : Reg) (b : Reg) (w : Bool) (st : BitVec 3)
  /-- Writes the carry out of the unsigned sum a + b (R112). -/
  | iaddc (d : Reg) (a : Reg) (b : Reg) (w : Bool) (st : BitVec 3)
  /-- Writes the signed smaller of a and b (R112). -/
  | imin (d : Reg) (a : Reg) (b : Reg) (w : Bool) (st : BitVec 3)
  /-- Writes the signed larger of a and b (R112). -/
  | imax (d : Reg) (a : Reg) (b : Reg) (w : Bool) (st : BitVec 3)
  /-- Writes the absolute value of a (R112). -/
  | iabs (d : Reg) (a : Reg) (w : Bool) (st : BitVec 3)
  /-- Writes 0 − a modulo 2^W (R112). -/
  | ineg (d : Reg) (a : Reg) (w : Bool) (st : BitVec 3)
  /-- Writes the bitwise AND of a and b (R112). -/
  | and (d : Reg) (a : Reg) (b : Reg) (w : Bool) (st : BitVec 3)
  /-- Writes the bitwise OR of a and b (R112). -/
  | or (d : Reg) (a : Reg) (b : Reg) (w : Bool) (st : BitVec 3)
  /-- Writes the bitwise XOR of a and b (R112). -/
  | xor (d : Reg) (a : Reg) (b : Reg) (w : Bool) (st : BitVec 3)
  /-- Writes a AND NOT b (R112). -/
  | andn (d : Reg) (a : Reg) (b : Reg) (w : Bool) (st : BitVec 3)
  /-- Writes NOT a (R112). -/
  | not (d : Reg) (a : Reg) (w : Bool) (st : BitVec 3)
  /-- Shifts a left by the count in b (R112). -/
  | shl (d : Reg) (a : Reg) (b : Reg) (w : Bool) (st : BitVec 3)
  /-- Shifts a logically right by the count in b (R112). -/
  | shr (d : Reg) (a : Reg) (b : Reg) (w : Bool) (st : BitVec 3)
  /-- Shifts a arithmetically right by the count in b (R112). -/
  | sar (d : Reg) (a : Reg) (b : Reg) (w : Bool) (st : BitVec 3)
  /-- Rotates a left by the count in b (R112). -/
  | rot (d : Reg) (a : Reg) (b : Reg) (w : Bool) (st : BitVec 3)
  /-- Writes the number of one bits of a (R112). -/
  | popc (d : Reg) (a : Reg) (w : Bool) (st : BitVec 3)
  /-- Writes the number of leading zero bits of a (R112). -/
  | clz (d : Reg) (a : Reg) (w : Bool) (st : BitVec 3)
  /-- Writes a with its bits reversed (R112). -/
  | brev (d : Reg) (a : Reg) (w : Bool) (st : BitVec 3)
  /-- Copies a to d with its tags and U bits (R112). -/
  | mov (d : Reg) (a : Reg) (w : Bool) (st : BitVec 3)
  /-- Writes the unsigned smaller of a and b (R112). -/
  | iminUnsigned (d : Reg) (a : Reg) (b : Reg) (w : Bool) (st : BitVec 3)
  /-- Writes the unsigned larger of a and b (R112). -/
  | imaxUnsigned (d : Reg) (a : Reg) (b : Reg) (w : Bool) (st : BitVec 3)
  /-- Writes the high W bits of the unsigned 2W-bit product (R112). -/
  | imulhUnsigned (d : Reg) (a : Reg) (b : Reg) (w : Bool) (st : BitVec 3)
  /-- Adds a 9-bit immediate to a in 64-bit operation (R113). -/
  | iaddI64Imm9 (d : Reg) (a : Reg) (imm : BitVec 9) (st : BitVec 3)
  /-- Adds a 9-bit immediate to each 32-bit half of a (R113). -/
  | iaddI32Imm9 (d : Reg) (a : Reg) (imm : BitVec 9) (st : BitVec 3)
  /-- Multiplies a by a 9-bit immediate in 64-bit operation (R113). -/
  | imulI64Imm9 (d : Reg) (a : Reg) (imm : BitVec 9) (st : BitVec 3)
  /-- Multiplies each half of a by a 9-bit immediate (R113). -/
  | imulI32Imm9 (d : Reg) (a : Reg) (imm : BitVec 9) (st : BitVec 3)
  /-- ANDs a with a 9-bit immediate (R113). -/
  | andB64Imm9 (d : Reg) (a : Reg) (imm : BitVec 9) (st : BitVec 3)
  /-- ORs a with a 9-bit immediate (R113). -/
  | orB64Imm9 (d : Reg) (a : Reg) (imm : BitVec 9) (st : BitVec 3)
  /-- XORs a with a 9-bit immediate (R113). -/
  | xorB64Imm9 (d : Reg) (a : Reg) (imm : BitVec 9) (st : BitVec 3)
  /-- Shifts a left by an immediate count (R113). -/
  | shlB64Imm9 (d : Reg) (a : Reg) (imm : BitVec 9) (st : BitVec 3)
  /-- Shifts a logically right by an immediate count (R113). -/
  | shrN64Imm9 (d : Reg) (a : Reg) (imm : BitVec 9) (st : BitVec 3)
  /-- Shifts a arithmetically right by an immediate count (R113). -/
  | sarI64Imm9 (d : Reg) (a : Reg) (imm : BitVec 9) (st : BitVec 3)
  /-- Writes a sign-extended 9-bit immediate to d (R113). -/
  | moviI64 (d : Reg) (imm : BitVec 9) (st : BitVec 3)
  /-- Writes a zero-extended 9-bit immediate to d (R113). -/
  | moviN64 (d : Reg) (imm : BitVec 9) (st : BitVec 3)
  /-- Writes a sign-extended 9-bit immediate to each half of d (R113). -/
  | moviI32 (d : Reg) (imm : BitVec 9) (st : BitVec 3)
  /-- Writes the signed smaller of a and an immediate (R113). -/
  | iminI64Imm9 (d : Reg) (a : Reg) (imm : BitVec 9) (st : BitVec 3)
  /-- Writes the signed larger of a and an immediate (R113). -/
  | imaxI64Imm9 (d : Reg) (a : Reg) (imm : BitVec 9) (st : BitVec 3)
  /-- Adds a 32-bit immediate to a in 64-bit operation (R113). -/
  | iaddI64Imm32 (d : Reg) (a : Reg) (imm : BitVec 32) (st : BitVec 3)
  /-- Adds a 32-bit immediate to each half of a (R113). -/
  | iaddI32Imm32 (d : Reg) (a : Reg) (imm : BitVec 32) (st : BitVec 3)
  /-- Multiplies a by a 32-bit immediate (R113). -/
  | imulI64Imm32 (d : Reg) (a : Reg) (imm : BitVec 32) (st : BitVec 3)
  /-- Multiplies each half of a by a 32-bit immediate (R113). -/
  | imulI32Imm32 (d : Reg) (a : Reg) (imm : BitVec 32) (st : BitVec 3)
  /-- ANDs a with a 32-bit immediate (R113). -/
  | andB64Imm32 (d : Reg) (a : Reg) (imm : BitVec 32) (st : BitVec 3)
  /-- ORs a with a 32-bit immediate (R113). -/
  | orB64Imm32 (d : Reg) (a : Reg) (imm : BitVec 32) (st : BitVec 3)
  /-- XORs a with a 32-bit immediate (R113). -/
  | xorB64Imm32 (d : Reg) (a : Reg) (imm : BitVec 32) (st : BitVec 3)
  /-- Shifts a left by a 32-bit immediate count (R113). -/
  | shlB64Imm32 (d : Reg) (a : Reg) (imm : BitVec 32) (st : BitVec 3)
  /-- Shifts a logically right by a 32-bit immediate count (R113). -/
  | shrN64Imm32 (d : Reg) (a : Reg) (imm : BitVec 32) (st : BitVec 3)
  /-- Shifts a arithmetically right by a 32-bit immediate count (R113). -/
  | sarI64Imm32 (d : Reg) (a : Reg) (imm : BitVec 32) (st : BitVec 3)
  /-- Writes a sign-extended 32-bit immediate to d (R113). -/
  | moviI64Imm32 (d : Reg) (imm : BitVec 32) (st : BitVec 3)
  /-- Writes a zero-extended 32-bit immediate to d (R113). -/
  | moviN64Imm32 (d : Reg) (imm : BitVec 32) (st : BitVec 3)
  /-- Writes a 32-bit immediate to each half of d (R113). -/
  | moviI32Imm32 (d : Reg) (imm : BitVec 32) (st : BitVec 3)
  /-- Writes the signed smaller of a and a 32-bit immediate (R113). -/
  | iminI64Imm32 (d : Reg) (a : Reg) (imm : BitVec 32) (st : BitVec 3)
  /-- Writes the signed larger of a and a 32-bit immediate (R113). -/
  | imaxI64Imm32 (d : Reg) (a : Reg) (imm : BitVec 32) (st : BitVec 3)
  /-- Adds FP32 pairs with one rounding (R129). -/
  | faddF32 (d : Reg) (a : Reg) (b : Reg) (rm : Rm) (st : BitVec 3)
  /-- Subtracts FP32 pairs with one rounding (R129). -/
  | fsubF32 (d : Reg) (a : Reg) (b : Reg) (rm : Rm) (st : BitVec 3)
  /-- Multiplies FP32 pairs with one rounding (R129). -/
  | fmulF32 (d : Reg) (a : Reg) (b : Reg) (rm : Rm) (st : BitVec 3)
  /-- Computes a×b + d in FP32 with one rounding (R129). -/
  | ffmaF32 (d : Reg) (a : Reg) (b : Reg) (rm : Rm) (st : BitVec 3)
  /-- Computes a×b − d in FP32 with one rounding (R129). -/
  | ffmsF32 (d : Reg) (a : Reg) (b : Reg) (rm : Rm) (st : BitVec 3)
  /-- Computes d − a×b in FP32 with one rounding (R129). -/
  | fnmaF32 (d : Reg) (a : Reg) (b : Reg) (rm : Rm) (st : BitVec 3)
  /-- Writes the IEEE minimumNumber of FP32 pairs (R129). -/
  | fminF32 (d : Reg) (a : Reg) (b : Reg) (rm : Rm) (st : BitVec 3)
  /-- Writes the IEEE maximumNumber of FP32 pairs (R129). -/
  | fmaxF32 (d : Reg) (a : Reg) (b : Reg) (rm : Rm) (st : BitVec 3)
  /-- Divides FP32 pairs, correctly rounded (R130). -/
  | fdivF32 (d : Reg) (a : Reg) (b : Reg) (rm : Rm) (st : BitVec 3)
  /-- Writes the correctly rounded FP32 square root (R130). -/
  | fsqrtF32 (d : Reg) (a : Reg) (rm : Rm) (st : BitVec 3)
  /-- Writes the correctly rounded FP32 reciprocal (R130). -/
  | frcpF32 (d : Reg) (a : Reg) (rm : Rm) (st : BitVec 3)
  /-- Writes the correctly rounded FP32 reciprocal square root (R130). -/
  | frsqF32 (d : Reg) (a : Reg) (rm : Rm) (st : BitVec 3)
  /-- Writes the correctly rounded FP32 e^a (R130). -/
  | fexpF32 (d : Reg) (a : Reg) (rm : Rm) (st : BitVec 3)
  /-- Writes the correctly rounded FP32 2^a (R130). -/
  | fex2F32 (d : Reg) (a : Reg) (rm : Rm) (st : BitVec 3)
  /-- Writes the correctly rounded FP32 natural logarithm (R130). -/
  | flogF32 (d : Reg) (a : Reg) (rm : Rm) (st : BitVec 3)
  /-- Writes the correctly rounded FP32 error function (R130). -/
  | ferfF32 (d : Reg) (a : Reg) (rm : Rm) (st : BitVec 3)
  /-- Adds FP64 values with one rounding (R129). -/
  | faddF64 (d : Reg) (a : Reg) (b : Reg) (rm : Rm) (st : BitVec 3)
  /-- Subtracts FP64 values with one rounding (R129). -/
  | fsubF64 (d : Reg) (a : Reg) (b : Reg) (rm : Rm) (st : BitVec 3)
  /-- Multiplies FP64 values with one rounding (R129). -/
  | fmulF64 (d : Reg) (a : Reg) (b : Reg) (rm : Rm) (st : BitVec 3)
  /-- Computes a×b + d in FP64 with one rounding (R129). -/
  | ffmaF64 (d : Reg) (a : Reg) (b : Reg) (rm : Rm) (st : BitVec 3)
  /-- Computes a×b − d in FP64 with one rounding (R129). -/
  | ffmsF64 (d : Reg) (a : Reg) (b : Reg) (rm : Rm) (st : BitVec 3)
  /-- Computes d − a×b in FP64 with one rounding (R129). -/
  | fnmaF64 (d : Reg) (a : Reg) (b : Reg) (rm : Rm) (st : BitVec 3)
  /-- Writes the IEEE minimumNumber of FP64 values (R129). -/
  | fminF64 (d : Reg) (a : Reg) (b : Reg) (rm : Rm) (st : BitVec 3)
  /-- Writes the IEEE maximumNumber of FP64 values (R129). -/
  | fmaxF64 (d : Reg) (a : Reg) (b : Reg) (rm : Rm) (st : BitVec 3)
  /-- Divides FP64 values, correctly rounded (R130). -/
  | fdivF64 (d : Reg) (a : Reg) (b : Reg) (rm : Rm) (st : BitVec 3)
  /-- Writes the correctly rounded FP64 square root (R130). -/
  | fsqrtF64 (d : Reg) (a : Reg) (rm : Rm) (st : BitVec 3)
  /-- Writes the correctly rounded FP64 reciprocal (R130). -/
  | frcpF64 (d : Reg) (a : Reg) (rm : Rm) (st : BitVec 3)
  /-- Writes the correctly rounded FP64 reciprocal square root (R130). -/
  | frsqF64 (d : Reg) (a : Reg) (rm : Rm) (st : BitVec 3)
  /-- Writes the correctly rounded FP64 e^a (R130). -/
  | fexpF64 (d : Reg) (a : Reg) (rm : Rm) (st : BitVec 3)
  /-- Writes the correctly rounded FP64 2^a (R130). -/
  | fex2F64 (d : Reg) (a : Reg) (rm : Rm) (st : BitVec 3)
  /-- Writes the correctly rounded FP64 natural logarithm (R130). -/
  | flogF64 (d : Reg) (a : Reg) (rm : Rm) (st : BitVec 3)
  /-- Writes the correctly rounded FP64 error function (R130). -/
  | ferfF64 (d : Reg) (a : Reg) (rm : Rm) (st : BitVec 3)
  /-- Loads 8 bytes of local memory into each active thread, counted on fc0 (R202). -/
  | ldB64 (d : Reg) (x : Reg) (sb : Reg) (sc : BitVec 2) (st : BitVec 3)
  /-- Stores 8 bytes of each active thread into local memory (R202). -/
  | stB64 (d : Reg) (x : Reg) (sb : Reg) (sc : BitVec 2) (st : BitVec 3)
  /-- Reads whole lines per group of eight threads from local or global space (R203). -/
  | ldt (d : Reg) (x : Reg) (sb : Reg) (sc : BitVec 2) (q : Bool) (st : BitVec 3)
  /-- Writes whole local lines per fully active group of eight threads (R203). -/
  | stt (d : Reg) (x : Reg) (sb : Reg) (sc : BitVec 2) (st : BitVec 3)
  /-- Writes whole lines of one versioned tile all-or-nothing under its version word (R242). -/
  | sttAon (d : Reg) (x : Reg) (sb : Reg) (sc : BitVec 2) (st : BitVec 3)
  /-- Loads 8 bytes from the launch's space into each active thread, counted on fc1 (R233). -/
  | ldgB64 (d : Reg) (x : Reg) (sb : Reg) (sc : BitVec 2) (st : BitVec 3)
  /-- Stores 8 bytes of each active thread to the launch's space, counted on fc2 (R233). -/
  | stgB64 (d : Reg) (x : Reg) (sb : Reg) (sc : BitVec 2) (st : BitVec 3)
  /-- Reads versioned tile lines only from a moment when no versioned write was in progress (R241). -/
  | ldtv (d : Reg) (x : Reg) (sb : Reg) (sc : BitVec 2) (st : BitVec 3)
  /-- Writes a 32×32 square and its transpose under the plain tile's version (R243). -/
  | stp (d : Reg) (x : Reg) (sb : Reg) (sc : BitVec 2) (st : BitVec 3)
  /-- Makes a cell tentative with a new value held in a pair slot (R245). -/
  | tst (m : BitVec 2) (d : Reg) (x : Reg) (sb : Reg) (st : BitVec 3)
  /-- Commits the writer's tentative cell and frees its slot (R247). -/
  | tcom (m : BitVec 2) (x : Reg) (sb : Reg) (st : BitVec 3)
  /-- Retracts an unobserved tentative cell to its old value (R247). -/
  | retr (m : BitVec 2) (x : Reg) (sb : Reg) (st : BitVec 3)
  /-- Brings near- or far-memory lines into mortar without any visible effect (R234). -/
  | pref (x : Reg) (sb : Reg) (sc : BitVec 2) (st : BitVec 3)
  /-- Stores 64-bit values only when value, address and split are all cured (R186). -/
  | stc (d : Reg) (x : Reg) (sb : Reg) (sc : BitVec 2) (q : Bool) (st : BitVec 3)
  /-- Writes the address a load with the same operand would use (R116). -/
  | lea (d : Reg) (x : Reg) (sb : Reg) (sc : BitVec 2) (q : Bool) (st : BitVec 3)
  /-- Loads 4 bytes of local memory into half 0 of each active thread (R202). -/
  | ldB32 (d : Reg) (x : Reg) (sb : Reg) (sc : BitVec 2) (st : BitVec 3)
  /-- Loads 4 bytes from the launch's space into half 0 of each active thread (R233). -/
  | ldgB32 (d : Reg) (x : Reg) (sb : Reg) (sc : BitVec 2) (st : BitVec 3)
  /-- Stores half 0 of each active thread into local memory (R202). -/
  | stB32 (d : Reg) (x : Reg) (sb : Reg) (sc : BitVec 2) (st : BitVec 3)
  /-- Stores half 0 of each active thread to the launch's space (R233). -/
  | stgB32 (d : Reg) (x : Reg) (sb : Reg) (sc : BitVec 2) (st : BitVec 3)
  /-- Displaced form of LD.b64 with a MEM payload (R202). -/
  | ldB64Disp (d : Reg) (x : Reg) (sb : Reg) (sc : BitVec 2) (disp : BitVec 30) (st : BitVec 3)
  /-- Displaced form of ST.b64 with a MEM payload (R202). -/
  | stB64Disp (d : Reg) (x : Reg) (sb : Reg) (sc : BitVec 2) (disp : BitVec 30) (st : BitVec 3)
  /-- Displaced form of LDT with a MEM payload (R203). -/
  | ldtDisp (d : Reg) (x : Reg) (sb : Reg) (sc : BitVec 2) (disp : BitVec 30) (q : Bool) (st : BitVec 3)
  /-- Displaced form of STT with a MEM payload (R203). -/
  | sttDisp (d : Reg) (x : Reg) (sb : Reg) (sc : BitVec 2) (disp : BitVec 30) (st : BitVec 3)
  /-- Displaced form of STT.aon with a MEM payload (R242). -/
  | sttAonDisp (d : Reg) (x : Reg) (sb : Reg) (sc : BitVec 2) (disp : BitVec 30) (st : BitVec 3)
  /-- Displaced form of LDG.b64 with a MEM payload (R233). -/
  | ldgB64Disp (d : Reg) (x : Reg) (sb : Reg) (sc : BitVec 2) (disp : BitVec 30) (st : BitVec 3)
  /-- Displaced form of STG.b64 with a MEM payload (R233). -/
  | stgB64Disp (d : Reg) (x : Reg) (sb : Reg) (sc : BitVec 2) (disp : BitVec 30) (st : BitVec 3)
  /-- Displaced form of LDTV with a MEM payload (R241). -/
  | ldtvDisp (d : Reg) (x : Reg) (sb : Reg) (sc : BitVec 2) (disp : BitVec 30) (st : BitVec 3)
  /-- Displaced form of STP with a MEM payload (R243). -/
  | stpDisp (d : Reg) (x : Reg) (sb : Reg) (sc : BitVec 2) (disp : BitVec 30) (st : BitVec 3)
  /-- Displaced form of TST with a MEM payload (R245). -/
  | tstDisp (m : BitVec 2) (d : Reg) (x : Reg) (sb : Reg) (disp : BitVec 30) (st : BitVec 3)
  /-- Displaced form of TCOM with a MEM payload (R247). -/
  | tcomDisp (m : BitVec 2) (x : Reg) (sb : Reg) (disp : BitVec 30) (st : BitVec 3)
  /-- Displaced form of RETR with a MEM payload (R247). -/
  | retrDisp (m : BitVec 2) (x : Reg) (sb : Reg) (disp : BitVec 30) (st : BitVec 3)
  /-- Displaced form of PREF with a MEM payload (R234). -/
  | prefDisp (x : Reg) (sb : Reg) (sc : BitVec 2) (disp : BitVec 30) (st : BitVec 3)
  /-- Displaced form of STC with a MEM payload (R186). -/
  | stcDisp (d : Reg) (x : Reg) (sb : Reg) (sc : BitVec 2) (disp : BitVec 30) (q : Bool) (st : BitVec 3)
  /-- Displaced form of LEA with a MEM payload (R116). -/
  | leaDisp (d : Reg) (x : Reg) (sb : Reg) (sc : BitVec 2) (disp : BitVec 30) (q : Bool) (st : BitVec 3)
  /-- Displaced form of LD.b32 with a MEM payload (R202). -/
  | ldB32Disp (d : Reg) (x : Reg) (sb : Reg) (sc : BitVec 2) (disp : BitVec 30) (st : BitVec 3)
  /-- Displaced form of LDG.b32 with a MEM payload (R233). -/
  | ldgB32Disp (d : Reg) (x : Reg) (sb : Reg) (sc : BitVec 2) (disp : BitVec 30) (st : BitVec 3)
  /-- Displaced form of ST.b32 with a MEM payload (R202). -/
  | stB32Disp (d : Reg) (x : Reg) (sb : Reg) (sc : BitVec 2) (disp : BitVec 30) (st : BitVec 3)
  /-- Displaced form of STG.b32 with a MEM payload (R233). -/
  | stgB32Disp (d : Reg) (x : Reg) (sb : Reg) (sc : BitVec 2) (disp : BitVec 30) (st : BitVec 3)
  /-- Writes mask bits where a equals b (R114). -/
  | icmpEq (m : BitVec 3) (a : Reg) (b : Reg) (q : Bool) (st : BitVec 3)
  /-- Writes mask bits where a differs from b (R114). -/
  | icmpNe (m : BitVec 3) (a : Reg) (b : Reg) (q : Bool) (st : BitVec 3)
  /-- Writes mask bits where a is signed-less than b (R114). -/
  | icmpLt (m : BitVec 3) (a : Reg) (b : Reg) (q : Bool) (st : BitVec 3)
  /-- Writes mask bits where a is signed-less or equal to b (R114). -/
  | icmpLe (m : BitVec 3) (a : Reg) (b : Reg) (q : Bool) (st : BitVec 3)
  /-- Writes mask bits where a is unsigned-less than b (R114). -/
  | icmpLtu (m : BitVec 3) (a : Reg) (b : Reg) (q : Bool) (st : BitVec 3)
  /-- Writes mask bits where a is unsigned-less or equal to b (R114). -/
  | icmpLeu (m : BitVec 3) (a : Reg) (b : Reg) (q : Bool) (st : BitVec 3)
  /-- Writes mask bits where the floating values are equal (R131). -/
  | fcmpEq (m : BitVec 3) (a : Reg) (b : Reg) (q : Bool) (st : BitVec 3)
  /-- Writes mask bits where the floating values differ or are unordered (R131). -/
  | fcmpNe (m : BitVec 3) (a : Reg) (b : Reg) (q : Bool) (st : BitVec 3)
  /-- Writes mask bits where a is less than b (R131). -/
  | fcmpLt (m : BitVec 3) (a : Reg) (b : Reg) (q : Bool) (st : BitVec 3)
  /-- Writes mask bits where a is less or equal to b (R131). -/
  | fcmpLe (m : BitVec 3) (a : Reg) (b : Reg) (q : Bool) (st : BitVec 3)
  /-- Writes mask bits where the operands are unordered (R131). -/
  | fcmpUn (m : BitVec 3) (a : Reg) (b : Reg) (q : Bool) (st : BitVec 3)
  /-- Writes a one-hot class of each floating element (R131). -/
  | fclass (d : Reg) (a : Reg) (q : Bool) (st : BitVec 3)
  /-- Clears the sign bit of each floating element (R131). -/
  | fabs (d : Reg) (a : Reg) (q : Bool) (st : BitVec 3)
  /-- Inverts the sign bit of each floating element (R131). -/
  | fneg (d : Reg) (a : Reg) (q : Bool) (st : BitVec 3)
  /-- Writes a uniform register's value into every active thread (R118). -/
  | vfroms (d : Reg) (a : Reg) (q : Bool) (st : BitVec 3)
  /-- Writes a uniform value plus the lane index into every active lane (R118). -/
  | vfromsIdx (d : Reg) (a : Reg) (q : Bool) (st : BitVec 3)
  /-- Copies one thread's lane value into a uniform register (R119). -/
  | sfromv (d : Reg) (a : Reg) (lane : Reg) (q : Bool) (st : BitVec 3)
  /-- Each active lane reads a from the lane its index names (R122). -/
  | lshfl (d : Reg) (a : Reg) (b : Reg) (q : Bool) (st : BitVec 3)
  /-- Each active lane sends a to the lane its index names (R122). -/
  | lpush (d : Reg) (a : Reg) (b : Reg) (q : Bool) (st : BitVec 3)
  /-- Broadcasts one lane's element to every active lane (R122). -/
  | lbcst (d : Reg) (a : Reg) (lane : Reg) (q : Bool) (st : BitVec 3)
  /-- Writes the mask ANDed with the active bits to a uniform register (R122). -/
  | lvoteBallot (d : Reg) (m : BitVec 3) (st : BitVec 3)
  /-- Writes 1 when the mask bit is set for some active thread (R122). -/
  | lvoteAny (d : Reg) (m : BitVec 3) (st : BitVec 3)
  /-- Writes 1 when the mask bit is set for every active thread (R122). -/
  | lvoteAll (d : Reg) (m : BitVec 3) (st : BitVec 3)
  /-- Writes the lowest active lane whose mask bit is set (R122). -/
  | lfirst (d : Reg) (m : BitVec 3) (q : Bool) (st : BitVec 3)
  /-- ANDs two masks at the active threads' bits (R120). -/
  | mopAnd (m : BitVec 3) (ma : BitVec 3) (mb : BitVec 3) (st : BitVec 3)
  /-- ORs two masks at the active threads' bits (R120). -/
  | mopOr (m : BitVec 3) (ma : BitVec 3) (mb : BitVec 3) (st : BitVec 3)
  /-- XORs two masks at the active threads' bits (R120). -/
  | mopXor (m : BitVec 3) (ma : BitVec 3) (mb : BitVec 3) (st : BitVec 3)
  /-- Writes a AND NOT b into a mask at the active threads' bits (R120). -/
  | mopAndn (m : BitVec 3) (ma : BitVec 3) (mb : BitVec 3) (st : BitVec 3)
  /-- Writes NOT a into a mask at the active threads' bits (R120). -/
  | mopNot (m : BitVec 3) (ma : BitVec 3) (st : BitVec 3)
  /-- Counts set mask bits of the active threads into a uniform register (R120). -/
  | mpop (d : Reg) (m : BitVec 3) (q : Bool) (st : BitVec 3)
  /-- Marks register halves or mask bits green, or cured with the privileged .clr (R184). -/
  | tagset (d : Reg) (b : Reg) (q : Bool) (st : BitVec 3)
  /-- Writes the tags of a lane register's halves into a mask (R185). -/
  | tagrd (m : BitVec 3) (a : Reg) (st : BitVec 3)
  /-- Reads the G bits of the lines each thread addresses into a mask (R185). -/
  | tagrdLine (m : BitVec 3) (a : Reg) (g : Bool) (st : BitVec 3)
  /-- Resets each active thread's cure state (R183). -/
  | cureRst (st : BitVec 3)
  /-- Reads each thread's LAST residual magnitude (R183). -/
  | cureRstRdlast (d : Reg) (st : BitVec 3)
  /-- Reads each thread's cure counts word (R183). -/
  | cureRstRdcnt (d : Reg) (st : BitVec 3)
  /-- Reads each thread's IEEE flags after earlier flag writes land (R140). -/
  | fxrd (d : Reg) (st : BitVec 3)
  /-- Clears the named IEEE flags of each active thread (R140). -/
  | fxclr (k : BitVec 5) (st : BitVec 3)
  /-- Zeroes a bank, validates its checksums and takes ownership (R222). -/
  | accz (k : BitVec 4) (st : BitVec 3)
  /-- Queues a core-form matrix multiply-accumulate into a bank (R223). -/
  | mmaC (k : BitVec 4) (a : Reg) (b : Reg) (st : BitVec 3)
  /-- Queues a quad-form matrix multiply-accumulate that meets its three partners (R216). -/
  | mmaQ (k : BitVec 4) (a : Reg) (b : Reg) (st : BitVec 3)
  /-- Queues a multiply-accumulate that also forms row and column checksums (R223). -/
  | mmas (k : BitVec 4) (a : Reg) (b : Reg) (st : BitVec 3)
  /-- Queues an accumulation of squared differences between rows of A and columns of B (R223). -/
  | dist (k : BitVec 4) (a : Reg) (b : Reg) (st : BitVec 3)
  /-- Writes the indices of the j smallest or largest entries of each bank row (R224). -/
  | topk (k : BitVec 4) (d : Reg) (n : BitVec 2) (max : Bool) (st : BitVec 3)
  /-- Reads a run of bank entries into lane registers with one rounding (R225). -/
  | accrd (k : BitVec 4) (d : Reg) (a : Reg) (st : BitVec 3)
  /-- Writes the whole bank tile to local memory with one rounding per entry (R225). -/
  | accwb (k : BitVec 4) (a : Reg) (st : BitVec 3)
  /-- Adds one lane value into one entry without touching the checksums (R226). -/
  | accadj (k : BitVec 4) (v : Reg) (a : Reg) (st : BitVec 3)
  /-- Compares the bank with its checksums and writes mismatch masks and differences (R227). -/
  | accchk (k : BitVec 4) (d : Reg) (v : Reg) (st : BitVec 3)
  /-- Records up to four registers as one value entry on the split's path (R324). -/
  | tapeRec (a : Reg) (n : BitVec 2) (lbl : BitVec 8) (st : BitVec 3)
  /-- Records an explicit-mask entry from a mask register (R325). -/
  | tapeBr (m : BitVec 3) (lbl : BitVec 8) (st : BitVec 3)
  /-- Pops a matching value entry back into registers during replay (R324). -/
  | tapePop (d : Reg) (n : BitVec 2) (lbl : BitVec 8) (st : BitVec 3)
  /-- Pops a frame or explicit-mask entry into a mask during replay (R325). -/
  | tapePopbr (m : BitVec 3) (lbl : BitVec 8) (st : BitVec 3)
  /-- Extracts a bit field, sign- or zero-extended (R115). -/
  | bfx (d : Reg) (a : Reg) (pos : BitVec 6) (len1 : BitVec 6) (ty : Ty) (st : BitVec 3)
  /-- Inserts the low bits of a into a field of d (R115). -/
  | bfi (d : Reg) (a : Reg) (pos : BitVec 6) (len1 : BitVec 6) (ty : Ty) (st : BitVec 3)
  /-- Selects a or b per element by a mask bit (R115). -/
  | sel (d : Reg) (a : Reg) (b : Reg) (m : BitVec 3) (ty : Ty) (st : BitVec 3)
  /-- Converts one element into one element of another type (R134). -/
  | cvt (d : Reg) (a : Reg) (c : Reg) (rm : Rm) (t1 : Ty) (t2 : Ty) (hi : Bool) (st : BitVec 3)
  /-- Narrows several values into one register (R136). -/
  | cvtn (d : Reg) (a : Reg) (b : Reg) (rm : Rm) (t1 : Ty) (t2 : Ty) (hi : Bool) (st : BitVec 3)
  /-- Packs floating values into block elements with computed or given scales (R137). -/
  | packhb (d : Reg) (a : Reg) (sb : Reg) (rm : Rm) (t1 : Ty) (t2 : Ty) (given : Bool) (gap : BitVec 4) (st : BitVec 3)
  /-- Writes the correctly rounded base-2 logarithm (R132). -/
  | flg2 (d : Reg) (a : Reg) (rm : Rm) (ty : Ty) (st : BitVec 3)
  /-- Multiplies a by 2^n with one rounding (R132). -/
  | fscale (d : Reg) (a : Reg) (b : Reg) (rm : Rm) (ty : Ty) (st : BitVec 3)
  /-- Writes the rounded sum and its exact error (R133). -/
  | ftwos (d : Reg) (a : Reg) (b : Reg) (c : Reg) (ty : Ty) (st : BitVec 3)
  /-- Writes the rounded product and its exact error (R133). -/
  | ftwop (d : Reg) (a : Reg) (b : Reg) (c : Reg) (ty : Ty) (st : BitVec 3)
  /-- Rounds a to an integral value in mode rm (R132). -/
  | frnd (d : Reg) (a : Reg) (rm : Rm) (ty : Ty) (st : BitVec 3)
  /-- Reduces the active lanes' elements over the fixed pairwise tree (R124). -/
  | lred (d : Reg) (a : Reg) (op : RedOp) (rm : Rm) (ty : Ty) (st : BitVec 3)
  /-- Forms inclusive or exclusive prefixes over the fixed tree (R125). -/
  | lscan (d : Reg) (a : Reg) (op : RedOp) (excl : Bool) (rm : Rm) (ty : Ty) (st : BitVec 3)
  /-- Applies an indivisible read-modify-write at each thread's home and returns the old value (R237). -/
  | atom (d : Reg) (x : Reg) (sb : Reg) (c : Reg) (op : AtomOp) (ty : Ty) (rm : Rm) (sc : BitVec 2) (sp : Scope) (st : BitVec 3)
  /-- Applies an indivisible reduction at each thread's home without a return (R237). -/
  | red (x : Reg) (sb : Reg) (c : Reg) (op : AtomOp) (ty : Ty) (rm : Rm) (sc : BitVec 2) (sp : Scope) (st : BitVec 3)
  /-- Tests a residual against the policy, updates CST and writes the corrected value or traps (R181). -/
  | cure (d : Reg) (a : Reg) (b : Reg) (g : Reg) (rm : Rm) (ty : Ty) (hi : Bool) (sp : Reg) (st : BitVec 3)
  /-- Adds two uniform registers (R117). -/
  | sadd (d : Reg) (a : Reg) (b : Reg) (w : Bool) (st : BitVec 3)
  /-- Subtracts two uniform registers (R117). -/
  | ssub (d : Reg) (a : Reg) (b : Reg) (w : Bool) (st : BitVec 3)
  /-- Multiplies two uniform registers, low bits (R117). -/
  | smul (d : Reg) (a : Reg) (b : Reg) (w : Bool) (st : BitVec 3)
  /-- ANDs two uniform registers (R117). -/
  | sand (d : Reg) (a : Reg) (b : Reg) (w : Bool) (st : BitVec 3)
  /-- ORs two uniform registers (R117). -/
  | sor (d : Reg) (a : Reg) (b : Reg) (w : Bool) (st : BitVec 3)
  /-- XORs two uniform registers (R117). -/
  | sxor (d : Reg) (a : Reg) (b : Reg) (w : Bool) (st : BitVec 3)
  /-- Shifts a uniform register left (R117). -/
  | sshl (d : Reg) (a : Reg) (b : Reg) (w : Bool) (st : BitVec 3)
  /-- Shifts a uniform register logically right (R117). -/
  | sshr (d : Reg) (a : Reg) (b : Reg) (w : Bool) (st : BitVec 3)
  /-- Shifts a uniform register arithmetically right (R117). -/
  | ssar (d : Reg) (a : Reg) (b : Reg) (w : Bool) (st : BitVec 3)
  /-- Writes the signed smaller of two uniform registers (R117). -/
  | smin (d : Reg) (a : Reg) (b : Reg) (w : Bool) (st : BitVec 3)
  /-- Writes the signed larger of two uniform registers (R117). -/
  | smax (d : Reg) (a : Reg) (b : Reg) (w : Bool) (st : BitVec 3)
  /-- Writes the unsigned smaller of two uniform registers (R117). -/
  | sminUnsigned (d : Reg) (a : Reg) (b : Reg) (w : Bool) (st : BitVec 3)
  /-- Writes the unsigned larger of two uniform registers (R117). -/
  | smaxUnsigned (d : Reg) (a : Reg) (b : Reg) (w : Bool) (st : BitVec 3)
  /-- Writes a when d is non-zero on entry, else b (R117). -/
  | ssel (d : Reg) (a : Reg) (b : Reg) (w : Bool) (st : BitVec 3)
  /-- Copies a uniform register (R117). -/
  | smov (d : Reg) (a : Reg) (w : Bool) (st : BitVec 3)
  /-- Writes a plus a scaled b (R117). -/
  | slea (d : Reg) (a : Reg) (b : Reg) (w : Bool) (st : BitVec 3)
  /-- Writes 1 when two uniform registers are equal (R117). -/
  | scmpEq (d : Reg) (a : Reg) (b : Reg) (w : Bool) (st : BitVec 3)
  /-- Writes 1 when two uniform registers differ (R117). -/
  | scmpNe (d : Reg) (a : Reg) (b : Reg) (w : Bool) (st : BitVec 3)
  /-- Writes 1 when a is signed-less than b (R117). -/
  | scmpLt (d : Reg) (a : Reg) (b : Reg) (w : Bool) (st : BitVec 3)
  /-- Writes 1 when a is signed-less or equal to b (R117). -/
  | scmpLe (d : Reg) (a : Reg) (b : Reg) (w : Bool) (st : BitVec 3)
  /-- Writes 1 when a is unsigned-less than b (R117). -/
  | scmpLtu (d : Reg) (a : Reg) (b : Reg) (w : Bool) (st : BitVec 3)
  /-- Writes 1 when a is unsigned-less or equal to b (R117). -/
  | scmpLeu (d : Reg) (a : Reg) (b : Reg) (w : Bool) (st : BitVec 3)
  /-- Adds a 9-bit immediate to a uniform register (R117). -/
  | saddI64Imm9 (d : Reg) (a : Reg) (imm : BitVec 9) (st : BitVec 3)
  /-- Multiplies a uniform register by a 9-bit immediate (R117). -/
  | smulI64Imm9 (d : Reg) (a : Reg) (imm : BitVec 9) (st : BitVec 3)
  /-- ANDs a uniform register with a 9-bit immediate (R117). -/
  | sandB64Imm9 (d : Reg) (a : Reg) (imm : BitVec 9) (st : BitVec 3)
  /-- ORs a uniform register with a 9-bit immediate (R117). -/
  | sorB64Imm9 (d : Reg) (a : Reg) (imm : BitVec 9) (st : BitVec 3)
  /-- XORs a uniform register with a 9-bit immediate (R117). -/
  | sxorB64Imm9 (d : Reg) (a : Reg) (imm : BitVec 9) (st : BitVec 3)
  /-- Shifts a uniform register left by an immediate (R117). -/
  | sshlB64Imm9 (d : Reg) (a : Reg) (imm : BitVec 9) (st : BitVec 3)
  /-- Shifts a uniform register logically right by an immediate (R117). -/
  | sshrN64Imm9 (d : Reg) (a : Reg) (imm : BitVec 9) (st : BitVec 3)
  /-- Shifts a uniform register arithmetically right by an immediate (R117). -/
  | ssarI64Imm9 (d : Reg) (a : Reg) (imm : BitVec 9) (st : BitVec 3)
  /-- Writes the signed smaller of a and an immediate (R117). -/
  | sminI64Imm9 (d : Reg) (a : Reg) (imm : BitVec 9) (st : BitVec 3)
  /-- Writes the signed larger of a and an immediate (R117). -/
  | smaxI64Imm9 (d : Reg) (a : Reg) (imm : BitVec 9) (st : BitVec 3)
  /-- Writes the unsigned smaller of a and an immediate (R117). -/
  | sminN64Imm9 (d : Reg) (a : Reg) (imm : BitVec 9) (st : BitVec 3)
  /-- Writes the unsigned larger of a and an immediate (R117). -/
  | smaxN64Imm9 (d : Reg) (a : Reg) (imm : BitVec 9) (st : BitVec 3)
  /-- Writes a sign-extended immediate to a uniform register (R117). -/
  | smoviI64 (d : Reg) (imm : BitVec 9) (st : BitVec 3)
  /-- Writes a zero-extended immediate to a uniform register (R117). -/
  | smoviN64 (d : Reg) (imm : BitVec 9) (st : BitVec 3)
  /-- Adds a 32-bit immediate to a uniform register (R117). -/
  | saddI64Imm32 (d : Reg) (a : Reg) (imm : BitVec 32) (st : BitVec 3)
  /-- Multiplies a uniform register by a 32-bit immediate (R117). -/
  | smulI64Imm32 (d : Reg) (a : Reg) (imm : BitVec 32) (st : BitVec 3)
  /-- ANDs a uniform register with a 32-bit immediate (R117). -/
  | sandB64Imm32 (d : Reg) (a : Reg) (imm : BitVec 32) (st : BitVec 3)
  /-- ORs a uniform register with a 32-bit immediate (R117). -/
  | sorB64Imm32 (d : Reg) (a : Reg) (imm : BitVec 32) (st : BitVec 3)
  /-- XORs a uniform register with a 32-bit immediate (R117). -/
  | sxorB64Imm32 (d : Reg) (a : Reg) (imm : BitVec 32) (st : BitVec 3)
  /-- Shifts a uniform register left by a 32-bit immediate (R117). -/
  | sshlB64Imm32 (d : Reg) (a : Reg) (imm : BitVec 32) (st : BitVec 3)
  /-- Shifts a uniform register logically right by a 32-bit immediate (R117). -/
  | sshrN64Imm32 (d : Reg) (a : Reg) (imm : BitVec 32) (st : BitVec 3)
  /-- Shifts a uniform register arithmetically right by a 32-bit immediate (R117). -/
  | ssarI64Imm32 (d : Reg) (a : Reg) (imm : BitVec 32) (st : BitVec 3)
  /-- Writes the signed smaller of a and a 32-bit immediate (R117). -/
  | sminI64Imm32 (d : Reg) (a : Reg) (imm : BitVec 32) (st : BitVec 3)
  /-- Writes the signed larger of a and a 32-bit immediate (R117). -/
  | smaxI64Imm32 (d : Reg) (a : Reg) (imm : BitVec 32) (st : BitVec 3)
  /-- Writes the unsigned smaller of a and a 32-bit immediate (R117). -/
  | sminN64Imm32 (d : Reg) (a : Reg) (imm : BitVec 32) (st : BitVec 3)
  /-- Writes the unsigned larger of a and a 32-bit immediate (R117). -/
  | smaxN64Imm32 (d : Reg) (a : Reg) (imm : BitVec 32) (st : BitVec 3)
  /-- Writes a sign-extended 32-bit immediate to a uniform register (R117). -/
  | smoviI64Imm32 (d : Reg) (imm : BitVec 32) (st : BitVec 3)
  /-- Writes a zero-extended 32-bit immediate to a uniform register (R117). -/
  | smoviN64Imm32 (d : Reg) (imm : BitVec 32) (st : BitVec 3)
  /-- Branches the split to a relative target (R163). -/
  | bra (off : BitVec 15) (st : BitVec 3)
  /-- Branches when a uniform register is zero or non-zero (R163). -/
  | brc (z : Bool) (a : BitVec 5) (off : BitVec 15) (st : BitVec 3)
  /-- Branches per thread on a mask bit, pushing a divergence entry and creating splits (R152). -/
  | brl (neg : Bool) (m : BitVec 3) (off : BitVec 15) (st : BitVec 3)
  /-- Pushes a return entry and branches to the target (R165). -/
  | call (off : BitVec 15) (st : BitVec 3)
  /-- Pops a return entry and branches to its address (R165). -/
  | ret (st : BitVec 3)
  /-- Closes the top divergence entry, re-dispatching, popping or parking the split (R154). -/
  | join (st : BitVec 3)
  /-- Acts only as a switch point between splits (R166). -/
  | yield (st : BitVec 3)
  /-- Removes the split's active threads from the brick and unwinds an emptied split (R156). -/
  | exit (st : BitVec 3)
  /-- Marks a valid indirect target and otherwise does nothing (R164). -/
  | land (st : BitVec 3)
  /-- Jumps the whole split to the address in a uniform register (R164). -/
  | jmpiUniform (a : Reg) (st : BitVec 3)
  /-- Jumps each thread to the address in its lane register, sorting threads into splits (R153). -/
  | jmpiLane (a : Reg) (st : BitVec 3)
  /-- Sets a barrier's expected count and resets its phase state (R273). -/
  | barInit (d : Reg) (a : Reg) (k : BitVec 5) (sp : Scope) (st : BitVec 3)
  /-- Marks the split's arrival at a barrier (R269). -/
  | barArr (a : Reg) (k : BitVec 5) (sp : Scope) (st : BitVec 3)
  /-- Parks until the phase of the brick's last arrival completes (R273). -/
  | barWait (d : Reg) (a : Reg) (k : BitVec 5) (sp : Scope) (st : BitVec 3)
  /-- Arrives at a barrier and waits for that phase (R273). -/
  | barSync (cum : Bool) (r : BitVec 5) (a : Reg) (k : BitVec 5) (sp : Scope) (st : BitVec 3)
  /-- Writes a barrier's status word without parking (R274). -/
  | barQ (d : Reg) (a : Reg) (k : BitVec 5) (sp : Scope) (st : BitVec 3)
  /-- Sets a semaphore's count and serves queued acquires (R276). -/
  | semInit (d : Reg) (a : Reg) (k : BitVec 5) (st : BitVec 3)
  /-- Queues and parks until a semaphore unit can be taken (R276). -/
  | semAcq (d : Reg) (a : Reg) (k : BitVec 5) (sp : Scope) (st : BitVec 3)
  /-- Adds a unit to a semaphore after the brick's writes are performed (R276). -/
  | semRel (a : Reg) (k : BitVec 5) (sp : Scope) (st : BitVec 3)
  /-- Takes a semaphore unit when one is free, never parking (R276). -/
  | semTry (d : Reg) (a : Reg) (k : BitVec 5) (sp : Scope) (st : BitVec 3)
  /-- Opens a hod and resets its indices when it is idle (R280). -/
  | hodInit (a : Reg) (k : BitVec 5) (st : BitVec 3)
  /-- Reserves a hod slot, parking while full, and fills it from a source (R278). -/
  | hodPut (d : Reg) (a : Reg) (k : BitVec 5) (st : BitVec 3)
  /-- Takes the head slot of a hod, parking while it is empty and open (R279). -/
  | hodGet (d : Reg) (a : Reg) (k : BitVec 5) (st : BitVec 3)
  /-- Takes the head slot of a hod when one is ready, never parking (R279). -/
  | hodTry (d : Reg) (a : Reg) (k : BitVec 5) (st : BitVec 3)
  /-- Sets a hod's closed bit (R280). -/
  | hodClose (a : Reg) (k : BitVec 5) (st : BitVec 3)
  /-- Orders the brick's accesses around one point as acquire, release or both (R260). -/
  | fence (cum : Bool) (kind : BitVec 2) (sp : Scope) (st : BitVec 3)
  /-- Parks the split until a flight counter falls to the threshold (R199). -/
  | wait (n : BitVec 3) (a : Reg) (k : BitVec 5) (st : BitVec 3)
  /-- Asks the core's dynamic pool for n accumulator banks, parking in issue order (R209). -/
  | accalloc (d : Reg) (a : Reg) (k : BitVec 5) (st : BitVec 3)
  /-- Returns accumulator banks to the pool once the array has finished with them (R209). -/
  | accfree (a : Reg) (k : BitVec 5) (st : BitVec 3)
  /-- Loads 8 bytes into a uniform register from local or virtual space (R204). -/
  | lds (d : Reg) (sb : Reg) (imm : BitVec 9) (st : BitVec 3)
  /-- Stores a uniform register to local or virtual space (R204). -/
  | sts (d : Reg) (sb : Reg) (imm : BitVec 9) (st : BitVec 3)
  /-- Installs a binding of a range to a synchronisation object on every die (R261). -/
  | bind (d : Reg) (sb : Reg) (imm : BitVec 9) (st : BitVec 3)
  /-- Removes the binding in a slot on every die (R262). -/
  | unbind (d : Reg) (st : BitVec 3)
  /-- Displaced form of LDS with a MEM payload (R204). -/
  | ldsDisp (d : Reg) (sb : Reg) (disp : BitVec 30) (st : BitVec 3)
  /-- Displaced form of STS with a MEM payload (R204). -/
  | stsDisp (d : Reg) (sb : Reg) (disp : BitVec 30) (st : BitVec 3)
  /-- Displaced form of BIND with a MEM payload (R261). -/
  | bindDisp (d : Reg) (sb : Reg) (disp : BitVec 30) (st : BitVec 3)
  /-- Two-word form of UNBIND with every payload field reserved (R262). -/
  | unbindDisp (d : Reg) (st : BitVec 3)
  /-- Has no effect beyond its stall count (R358). -/
  | nop (st : BitVec 3)
  /-- Reads a system register into a uniform register (R359). -/
  | sysr (d : Reg) (y : BitVec 7) (st : BitVec 3)
  /-- Writes a uniform register to a system register that has no behaviour of its own (R359). -/
  | sysw (a : Reg) (y : BitVec 7) (st : BitVec 3)
  /-- Sets the dynamic rounding mode from an immediate (R141). -/
  | modeRm (d : Reg) (code : Rm) (st : BitVec 3)
  /-- Sets trap enable bits (R141). -/
  | modeTenSet (d : Reg) (mask : BitVec 5) (st : BitVec 3)
  /-- Clears trap enable bits (R141). -/
  | modeTenClr (d : Reg) (mask : BitVec 5) (st : BitVec 3)
  /-- Sets rounding mode and trap enables from a register (R141). -/
  | modeReg (d : Reg) (a : Reg) (st : BitVec 3)
  /-- Writes the stochastic rounding state (R142). -/
  | srseed (a : Reg) (st : BitVec 3)
  /-- Writes the issuing split's state word (R167). -/
  | splitq (d : Reg) (st : BitVec 3)
  /-- Takes the software trap cause with n recorded (R358). -/
  | trap (n : BitVec 7) (st : BitVec 3)
  /-- Ends the handler and resumes the brick's splits (R358). -/
  | rte (st : BitVec 3)
  /-- Ends the handler by killing the brick (R358). -/
  | rteKill (st : BitVec 3)
  /-- Stops for an attached debugger or takes the breakpoint cause (R358). -/
  | bkpt (n : BitVec 7) (st : BitVec 3)
  /-- Stops every split of the brick until the site processor acts (R358). -/
  | halt (st : BitVec 3)
  /-- Reads the status word of a copy command by ticket (R344). -/
  | copyq (d : Reg) (a : Reg) (st : BitVec 3)
  /-- Reads the bytes a copy command has written (R344). -/
  | copyqBytes (d : Reg) (a : Reg) (st : BitVec 3)
  /-- Invalidates translations of an ASID over a range and completes when drained (R338). -/
  | tlbiRange (a : Reg) (sp : Scope) (st : BitVec 3)
  /-- Invalidates every translation of an ASID and completes when drained (R338). -/
  | tlbiAll (a : Reg) (sp : Scope) (st : BitVec 3)
  /-- Takes a tape context with its first segment and starts recording (R326). -/
  | tapeOpen (d : Reg) (a : Reg) (br : Bool) (st : BitVec 3)
  /-- Seals the tape and writes its line count (R326). -/
  | tapeSeal (d : Reg) (st : BitVec 3)
  /-- Starts replay after earlier tape operations complete (R318). -/
  | tapeRev (st : BitVec 3)
  /-- Writes remaining tape lines and frees the context (R326). -/
  | tapeClose (st : BitVec 3)
  /-- Submits a launch record and parks until its status is known (R302). -/
  | launch (d : Reg) (a : Reg) (st : BitVec 3)
  /-- Sets the brick's base priority and returns the old one (R303). -/
  | prio (d : Reg) (a : Reg) (k : BitVec 4) (st : BitVec 3)
  /-- Reads the brick's logical clock (R304). -/
  | courseRd (d : Reg) (st : BitVec 3)
  /-- Ends the current course by padding the logical clock (R304). -/
  | courseEnd (d : Reg) (st : BitVec 3)
  /-- Writes a role's status word (R305). -/
  | roleq (d : Reg) (a : Reg) (k : BitVec 2) (st : BitVec 3)
  /-- Gives granules of the brick's rows to a role's pool (R110). -/
  | rqmovGive (d : Reg) (a : Reg) (role : BitVec 2) (st : BitVec 3)
  /-- Takes granules from the brick's role pool (R110). -/
  | rqmovTake (d : Reg) (a : Reg) (st : BitVec 3)
  /-- Contributes to a reduction collective instance (R379). -/
  | collRed (d : Reg) (a : Reg) (bin : Bool) (n : BitVec 2) (st : BitVec 3)
  /-- Contributes to a maximum-exponent collective instance (R380). -/
  | collMaxe (d : Reg) (a : Reg) (st : BitVec 3)
  /-- Contributes to a broadcast collective instance (R381). -/
  | collBcst (d : Reg) (a : Reg) (st : BitVec 3)
  /-- Posts a block write to any address in the launch's space (R375). -/
  | putw (d : Reg) (a : Reg) (st : BitVec 3)
  /-- Writes a payload then sets a flag at its home (R263). -/
  | sigwSet (d : Reg) (a : Reg) (st : BitVec 3)
  /-- Writes a payload then adds to a flag at its home (R263). -/
  | sigwAdd (d : Reg) (a : Reg) (st : BitVec 3)
  /-- Parks until the brick's posted lines are performed, confirmed by switch fence counters (R376). -/
  | rfenceRel (st : BitVec 3)
  /-- Submits a copy command to a copy engine and writes its ticket (R341). -/
  | copy (d : Reg) (a : Reg) (b : Reg) (c : Reg) (chain : Bool) (ck : Bool) (cmp : Bool) (hod : Bool) (st : BitVec 3)
  /-- A read of SY_FLTREC claims and returns the oldest unclaimed fault record (R336). -/
  | fltrecClaim (d : Reg) (st : BitVec 3)
  /-- A write of SY_FLTDONE answers a record so waiting accesses walk again or fail (R336). -/
  | fltdoneAnswer (a : Reg) (st : BitVec 3)
  /-- A read of SY_RLOG claims and returns the oldest reliability log entry (R365). -/
  | rlogClaim (d : Reg) (st : BitVec 3)
  /-- A write of SY_TAPESEG appends a checked segment to the open tape (R310). -/
  | tapesegAppend (a : Reg) (st : BitVec 3)
  /-- A write of SY_INJECT with KIND 0 disarms any armed event (R366). -/
  | injectDisarm
  /-- SY_INJECT KIND 1 flips a bit of a held bank entry with its check bits (R366). -/
  | injectAccEntry (bank : BitVec 4) (row : BitVec 6) (col : BitVec 7) (bit : BitVec 9)
  /-- SY_INJECT KIND 2 flips a bit of a lane register half (R366). -/
  | injectLaneReg (r : Reg) (t : BitVec 5) (bit : BitVec 9)
  /-- SY_INJECT KIND 3 flips a bit of a local line with its check bits (R366). -/
  | injectLocalLine (line : BitVec 14) (bit : BitVec 9)
  /-- SY_INJECT KIND 4 arms a flip in the next checksummed COPY (R366). -/
  | injectCopyArm (byte : BitVec 31) (bit : BitVec 9)
  /-- SY_INJECT KIND 5 arms a shadow divergence in the next floating-point form (R366). -/
  | injectFpArm (t : BitVec 5)
  /-- SY_INJECT KIND 6 arms one or two residue failures in the next matrix instruction (R366). -/
  | injectMatrixArm (col : BitVec 7) (twice : Bool)
  /-- SY_INJECT KIND 7 flips two bits of a local line without its check bits (R366). -/
  | injectLocalDouble (line : BitVec 14) (bit : BitVec 9)
  /-- SY_INJECT KIND 8 flips one bit of the line at SY_INJADDR without its check bits (R366). -/
  | injectAddrLine (bit : BitVec 9)
  /-- A privileged write of SY_ATTEST requests a signed quote at the given block (R391). -/
  | attestRequest (a : Reg) (st : BitVec 3)
  /-- Die 0's site processor writes the quote and then its done word (R391). -/
  | attestQuote
  /-- A host write of LREC submits a launch record to die 0's site processor (R384). -/
  | lrecSubmit (v : BitVec 64)
  /-- A host write of 1 clears BAD or LOST in WSTAT (R384). -/
  | wstatClear (v : BitVec 3)
  /-- A host write through the aperture is performed at its home with cured data (R383). -/
  | hostWrite (pa : BitVec 56) (bytes : List (BitVec 8))
  /-- A host read through the aperture returns bytes without tags (R383). -/
  | hostRead (pa : BitVec 56) (n : Nat)
  /-- A load's data and tags are written and its flight counter falls in order (R198). -/
  | loadComplete (b : Nat)
  /-- A store or engine write is performed at its home and its counter falls (R233). -/
  | storePerformed (b : Nat)
  /-- A form's flags are written once its datapath checks pass (R139). -/
  | fxFlagWrite (b : Nat)
  /-- The collection window closes 16 cycles after opening and the brick enters the trap slot (R143). -/
  | collectionWindowClose (b : Nat)
  /-- A datapath check detects a divergence and the brick stops for cause 0x04A (R360). -/
  | shadowDivergence (b : Nat)
  /-- A trap-pending brick enters its partition's free trap slot and starts its handler (R350). -/
  | trapSlotEntry (b : Nat)
  /-- A debugger single-steps the focus split by one instruction (R160). -/
  | debugStep (b : Nat) (k : Nat)
  /-- The site processor resumes a halted brick after its HALT (R358). -/
  | haltResume (b : Nat)
  /-- The array takes the oldest queued matrix instruction and runs it on its bank (R212). -/
  | arrayRun (core : Nat)
  /-- The four MMA.q of a quad operation run together once all are present (R216). -/
  | quadRendezvous (quad : Nat)
  /-- The dynamic pool serves the oldest waiting bank request (R209). -/
  | accallocGrant (core : Nat)
  /-- A versioned read or acquire retries after its 128-cycle wait, trapping after 65 failures (R241). -/
  | ldtvAttempt (b : Nat)
  /-- A brick's arrival is counted once its writes are performed, possibly completing the phase (R269). -/
  | arrivalCounted (b : Nat)
  /-- A filled hod slot is performed and the count rises in slot order (R278). -/
  | hodSlotPerformed (b : Nat)
  /-- A copy engine accepts a hod-destined command once a slot can be reserved (R281). -/
  | copyHodAccept (b : Nat)
  /-- A copy engine translates, reads, checks and writes one 64-byte span (R341). -/
  | copySpan (b : Nat)
  /-- An invalidation completes when every access through removed entries has drained (R338). -/
  | tlbiComplete (b : Nat)
  /-- Every tape line is performed in its segment and the seal's counter falls (R322). -/
  | tapeSealComplete (b : Nat)
  /-- Once every payload line is performed, the flag is updated as one atomic (R263). -/
  | sigwFlagUpdate (b : Nat)
  /-- Every switch reports its count of older posted lines at zero and RFENCE completes (R376). -/
  | rfenceMarkerDone (b : Nat)
  /-- An instance with P contributions combines them and writes each result (R378). -/
  | collectiveComplete (inst : Nat) (remote : List Contribution)
  /-- A remote access receives a revoked or unreachable response and traps imprecisely (R372). -/
  | negativeResponse (b : Nat) (revoked : Bool)
  /-- A flit that fails its CRC is sent again and logged (R368). -/
  | flitCrcRetry (link : Nat)
  /-- The fabric manager marks a key not valid in every switch (R371). -/
  | keyRevoke (key : BitVec 16)
  /-- The fabric manager assigns this module's partition key through the site processors (R370). -/
  | keyAssign (key : BitVec 16) (part : BitVec 16)
  /-- A site processor checks a launch record and writes its status (R290). -/
  | launchAccept (die : Nat)
  /-- An accepted launch is admitted once its window, semaphores and barriers can be given (R291). -/
  | launchAdmit (lid : Nat)
  /-- A die places its next wall on the lowest core that can hold it (R292). -/
  | wallPlace (die : Nat)
  /-- Lower-priority walls are stopped and their context saved to let a waiting wall fit (R295). -/
  | preempt (die : Nat)
  /-- A pre-empted wall returns to its core and partitions when they are free (R293). -/
  | wallRestore (wall : Nat)
  /-- When every brick and engine operation has ended, DONE rises by 1 as a cumulative release (R287). -/
  | launchDone (lid : Nat)
  /-- A course's buffers are applied once every live brick has reached its end time (R298). -/
  | courseCommit (lid : Nat)
  /-- A synchronising operation evaluates its condition against committed state (R299). -/
  | syncOpEvaluate (b : Nat) (k : Nat)
  /-- A brick is killed, abandoning its barriers and releasing its resources (R361). -/
  | brickKill (b : Nat)
  /-- Every control-state word is scrubbed each 1,600 ns (R363). -/
  | controlScrub
  /-- A control-state fault kills every brick whose state the structure holds (R364). -/
  | machineCheck (what : FaultyStructure)
  /-- Die 0's boot ROM verifies firmware, starts the other dies and forms measurements (R387). -/
  | powerOnBoot
  /-- A supply-sag detector trips and stretches its quad's clock to 9/8 (R393). -/
  | sagTrip (quad : Nat)
  /-- After 1 µs without a trip the quad's sag stretch is released (R393). -/
  | sagRelease (quad : Nat)
  /-- Every 10 µs the site processors measure power and step the power period (R394). -/
  | powerSample (watt : Nat)
  /-- Above 100 °C a die's share of PLIM is lowered by 5% per degree (R395). -/
  | thermalThrottle (die : Nat) (tj : Nat)
  /-- At 115 °C every brick on the die is killed by a machine check (R395). -/
  | thermalShutdown (die : Nat) (tj : Nat)
  /-- A die below 90 °C takes walls again (R395). -/
  | thermalRecover (die : Nat) (tj : Nat)
  /-- A word with an unassigned opcode, a non-zero reserved field or a reserved code is issued and traps by the first failing check of R52 (R65). -/
  | unassignedEncoding (cause : BitVec 9) (two : Bool)
  /-- The fabric manager restores a link that left service, and its plane becomes usable again (R368). -/
  | linkRestore (link : Nat)
  /-- The debugger resumes a brick it had stopped at BKPT or was stepping (R160). -/
  | debugResume (b : Nat)
  /-- A TAPE.REC, TAPE.BR or frame entry stands in the tape buffer and fc4 falls (R322). -/
  | tapeRecordComplete (b : Nat)
  /-- A remote load, store or atomic from another module arrives over a fabric link and is performed at its home bank (R374). -/
  | fabricRequestArrival (req : RemoteReq)
  deriving DecidableEq, Repr

end Sys2Proof
end

