-- ==== Sys2Proof/WellFormed.lean ====
section
/-!
DEFINITION. Which instructions have an encoding: the operand checks of R52 that are not already in the operand types
(a reserved bit, a type or scope that the form does not accept, a rounding code that the form does not accept), the
code tables of R60–R63 and the value classes of types.
-/
namespace Sys2Proof

/-- The integer types of R62: i, n and b. -/
def Ty.isInt : Ty → Bool
  | .i32 | .n32 | .i64 | .n64 | .b32 | .b64 => true
  | _ => false
/-- The i and n types. -/
def Ty.isInOrNat : Ty → Bool
  | .i32 | .n32 | .i64 | .n64 => true
  | _ => false
/-- The b types. -/
def Ty.isBits : Ty → Bool
  | .b32 | .b64 => true
  | _ => false
/-- The two types of the class-2 and class-3 forms. -/
def Ty.isFloat : Ty → Bool
  | .f32 | .f64 => true
  | _ => false
/-- The five block types of R72–R74. -/
def Ty.isBlock : Ty → Bool
  | .hb8 | .hb4 | .q8 | .q4 | .q2 => true
  | _ => false
/-- The types whose element is 64 bits wide. -/
def Ty.is64 : Ty → Bool
  | .i64 | .n64 | .b64 | .f64 => true
  | _ => false
/-- Width of an element in bits (R67–R75). -/
def Ty.width : Ty → Nat
  | .i32 | .n32 | .b32 | .f32 => 32
  | .i64 | .n64 | .b64 | .f64 => 64
  | .bf16 | .f16 => 16
  | .e4m3 | .e5m2 | .hb8 | .q8 => 8
  | .hb4 | .q4 => 4
  | .q2 => 2
/-- Scopes of SEM.ACQ, SEM.REL and SEM.TRY (R276). -/
def Scope.isSem : Scope → Bool
  | .core | .quad | .die => true
  | _ => false
/-- Scopes of TLBI (R338). -/
def Scope.isTlbi : Scope → Bool
  | .die | .pkg => true
  | _ => false
/-- Every rounding code but the stochastic one (R60). -/
def Rm.isDet : Rm → Bool
  | .rsr => false
  | _ => true
/-- The codes that the rounding field of SY_MODE may hold (R61). -/
def rmModeOk : Rm → Bool
  | .rsr | .dyn => false
  | _ => true
/-- An even register from s2 to s62: the first of a descriptor pair. -/
def evenPair (r : Reg) : Bool := !r.getLsbD 0 && r != 0#6
/-- TAGSET: b[5:3] reserved, b[1:0] by q, and a mask number for q = 1 (R184). -/
def tagsetOk (d b : Reg) (q : Bool) : Bool :=
  b.extractLsb' 3 3 == 0#3 &&
    (if q then b.extractLsb' 0 2 == 0#2 && d.extractLsb' 3 3 == 0#3 else b.extractLsb' 0 2 != 0#2)
/-- BFX and BFI: pos + len within the element (R115). -/
def bfOk (ty : Ty) (pos len1 : BitVec 6) : Bool := decide (pos.toNat + len1.toNat + 1 ≤ ty.width)
/-- CVT: the types, the scale register c and the hi bit (R134). -/
def cvtOk (t1 t2 : Ty) (c : Reg) (hi : Bool) : Bool :=
  !t1.isBits && !t2.isBits && !t1.isBlock && (t2.isBlock || c == 0#6) && (!hi || t1.is64 != t2.is64)
/-- CVTN: the types and the hi bit (R136). -/
def cvtnOk (t1 t2 : Ty) (hi : Bool) : Bool :=
  match t2 with
  | .f32 => match t1 with
    | .bf16 | .f16 => !hi
    | .e4m3 | .e5m2 => true
    | _ => false
  | .f64 => match t1 with
    | .f32 => !hi
    | .bf16 | .f16 | .e4m3 | .e5m2 => true
    | _ => false
  | _ => false
/-- PACKHB: the types; the gap is for computed HB scales alone (R137). -/
def packOk (t1 t2 : Ty) (given : Bool) (gap : BitVec 4) : Bool :=
  t1.isBlock && t2.isFloat && (gap == 0#4 || (!given && (t1 == .hb8 || t1 == .hb4)))
/-- LRED and LSCAN: the combinations of R123. -/
def redOk (op : RedOp) (ty : Ty) : Bool :=
  match op with
  | .add | .min | .max => ty.isInOrNat || ty.isFloat
  | .and | .or | .xor => ty.isInt
/-- LRED and LSCAN: a floating-point add rounds (R123). -/
def redRounds (op : RedOp) (ty : Ty) : Bool := op == .add && ty.isFloat
/-- ATOM and RED: the types of R236. -/
def atomOk (op : AtomOp) (ty : Ty) : Bool :=
  match op with
  | .add => ty.isInOrNat || ty.isFloat || ty == .bf16
  | .min | .max => ty.isInOrNat
  | .and | .or | .xor | .exch | .cas => ty.isInt
/-- ATOM and RED: a floating-point add rounds (R235). -/
def atomRounds (op : AtomOp) (ty : Ty) : Bool := op == .add && (ty.isFloat || ty == .bf16)

/-- The form has an encoding of its own words (R52 checks 1 and 2 pass). The rows that are steps outside the issue
slots have no words, and nothing is asked of them. -/
def wellFormed : Instr → Bool
  | .iadd _ _ _ _ _ => true
  | .isub _ _ _ _ _ => true
  | .imul _ _ _ _ _ => true
  | .imulh _ _ _ _ _ => true
  | .imad _ _ _ _ _ => true
  | .iaddc _ _ _ _ _ => true
  | .imin _ _ _ _ _ => true
  | .imax _ _ _ _ _ => true
  | .iabs _ _ _ _ => true
  | .ineg _ _ _ _ => true
  | .and _ _ _ _ _ => true
  | .or _ _ _ _ _ => true
  | .xor _ _ _ _ _ => true
  | .andn _ _ _ _ _ => true
  | .not _ _ _ _ => true
  | .shl _ _ _ _ _ => true
  | .shr _ _ _ _ _ => true
  | .sar _ _ _ _ _ => true
  | .rot _ _ _ _ _ => true
  | .popc _ _ _ _ => true
  | .clz _ _ _ _ => true
  | .brev _ _ _ _ => true
  | .mov _ _ _ _ => true
  | .iminUnsigned _ _ _ _ _ => true
  | .imaxUnsigned _ _ _ _ _ => true
  | .imulhUnsigned _ _ _ _ _ => true
  | .iaddI64Imm9 _ _ _ _ => true
  | .iaddI32Imm9 _ _ _ _ => true
  | .imulI64Imm9 _ _ _ _ => true
  | .imulI32Imm9 _ _ _ _ => true
  | .andB64Imm9 _ _ _ _ => true
  | .orB64Imm9 _ _ _ _ => true
  | .xorB64Imm9 _ _ _ _ => true
  | .shlB64Imm9 _ _ _ _ => true
  | .shrN64Imm9 _ _ _ _ => true
  | .sarI64Imm9 _ _ _ _ => true
  | .moviI64 _ _ _ => true
  | .moviN64 _ _ _ => true
  | .moviI32 _ _ _ => true
  | .iminI64Imm9 _ _ _ _ => true
  | .imaxI64Imm9 _ _ _ _ => true
  | .iaddI64Imm32 _ _ _ _ => true
  | .iaddI32Imm32 _ _ _ _ => true
  | .imulI64Imm32 _ _ _ _ => true
  | .imulI32Imm32 _ _ _ _ => true
  | .andB64Imm32 _ _ _ _ => true
  | .orB64Imm32 _ _ _ _ => true
  | .xorB64Imm32 _ _ _ _ => true
  | .shlB64Imm32 _ _ _ _ => true
  | .shrN64Imm32 _ _ _ _ => true
  | .sarI64Imm32 _ _ _ _ => true
  | .moviI64Imm32 _ _ _ => true
  | .moviN64Imm32 _ _ _ => true
  | .moviI32Imm32 _ _ _ => true
  | .iminI64Imm32 _ _ _ _ => true
  | .imaxI64Imm32 _ _ _ _ => true
  | .faddF32 _ _ _ rm _ => rm.isDet
  | .fsubF32 _ _ _ rm _ => rm.isDet
  | .fmulF32 _ _ _ rm _ => rm.isDet
  | .ffmaF32 _ _ _ rm _ => rm.isDet
  | .ffmsF32 _ _ _ rm _ => rm.isDet
  | .fnmaF32 _ _ _ rm _ => rm.isDet
  | .fminF32 _ _ _ rm _ => rm.isDet
  | .fmaxF32 _ _ _ rm _ => rm.isDet
  | .fdivF32 _ _ _ rm _ => rm.isDet
  | .fsqrtF32 _ _ rm _ => rm.isDet
  | .frcpF32 _ _ rm _ => rm.isDet
  | .frsqF32 _ _ rm _ => rm.isDet
  | .fexpF32 _ _ rm _ => rm.isDet
  | .fex2F32 _ _ rm _ => rm.isDet
  | .flogF32 _ _ rm _ => rm.isDet
  | .ferfF32 _ _ rm _ => rm.isDet
  | .faddF64 _ _ _ rm _ => rm.isDet
  | .fsubF64 _ _ _ rm _ => rm.isDet
  | .fmulF64 _ _ _ rm _ => rm.isDet
  | .ffmaF64 _ _ _ rm _ => rm.isDet
  | .ffmsF64 _ _ _ rm _ => rm.isDet
  | .fnmaF64 _ _ _ rm _ => rm.isDet
  | .fminF64 _ _ _ rm _ => rm.isDet
  | .fmaxF64 _ _ _ rm _ => rm.isDet
  | .fdivF64 _ _ _ rm _ => rm.isDet
  | .fsqrtF64 _ _ rm _ => rm.isDet
  | .frcpF64 _ _ rm _ => rm.isDet
  | .frsqF64 _ _ rm _ => rm.isDet
  | .fexpF64 _ _ rm _ => rm.isDet
  | .fex2F64 _ _ rm _ => rm.isDet
  | .flogF64 _ _ rm _ => rm.isDet
  | .ferfF64 _ _ rm _ => rm.isDet
  | .ldB64 _ _ _ _ _ => true
  | .stB64 _ _ _ _ _ => true
  | .ldt _ _ _ _ _ _ => true
  | .stt _ _ _ _ _ => true
  | .sttAon _ _ _ _ _ => true
  | .ldgB64 _ _ _ _ _ => true
  | .stgB64 _ _ _ _ _ => true
  | .ldtv _ _ _ _ _ => true
  | .stp _ _ _ _ _ => true
  | .tst _ _ _ _ _ => true
  | .tcom _ _ _ _ => true
  | .retr _ _ _ _ => true
  | .pref _ _ _ _ => true
  | .stc _ _ _ _ _ _ => true
  | .lea _ _ _ _ _ _ => true
  | .ldB32 _ _ _ _ _ => true
  | .ldgB32 _ _ _ _ _ => true
  | .stB32 _ _ _ _ _ => true
  | .stgB32 _ _ _ _ _ => true
  | .ldB64Disp _ _ _ _ _ _ => true
  | .stB64Disp _ _ _ _ _ _ => true
  | .ldtDisp _ _ _ _ _ _ _ => true
  | .sttDisp _ _ _ _ _ _ => true
  | .sttAonDisp _ _ _ _ _ _ => true
  | .ldgB64Disp _ _ _ _ _ _ => true
  | .stgB64Disp _ _ _ _ _ _ => true
  | .ldtvDisp _ _ _ _ _ _ => true
  | .stpDisp _ _ _ _ _ _ => true
  | .tstDisp _ _ _ _ _ _ => true
  | .tcomDisp _ _ _ _ _ => true
  | .retrDisp _ _ _ _ _ => true
  | .prefDisp _ _ _ _ _ => true
  | .stcDisp _ _ _ _ _ _ _ => true
  | .leaDisp _ _ _ _ _ _ _ => true
  | .ldB32Disp _ _ _ _ _ _ => true
  | .ldgB32Disp _ _ _ _ _ _ => true
  | .stB32Disp _ _ _ _ _ _ => true
  | .stgB32Disp _ _ _ _ _ _ => true
  | .icmpEq _ _ _ _ _ => true
  | .icmpNe _ _ _ _ _ => true
  | .icmpLt _ _ _ _ _ => true
  | .icmpLe _ _ _ _ _ => true
  | .icmpLtu _ _ _ _ _ => true
  | .icmpLeu _ _ _ _ _ => true
  | .fcmpEq _ _ _ _ _ => true
  | .fcmpNe _ _ _ _ _ => true
  | .fcmpLt _ _ _ _ _ => true
  | .fcmpLe _ _ _ _ _ => true
  | .fcmpUn _ _ _ _ _ => true
  | .fclass _ _ _ _ => true
  | .fabs _ _ _ _ => true
  | .fneg _ _ _ _ => true
  | .vfroms _ _ _ _ => true
  | .vfromsIdx _ _ _ _ => true
  | .sfromv _ _ lane q _ => (q || !lane.getLsbD 5)
  | .lshfl _ _ _ _ _ => true
  | .lpush _ _ _ _ _ => true
  | .lbcst _ _ lane q _ => (q || !lane.getLsbD 5)
  | .lvoteBallot _ _ _ => true
  | .lvoteAny _ _ _ => true
  | .lvoteAll _ _ _ => true
  | .lfirst _ _ _ _ => true
  | .mopAnd _ _ _ _ => true
  | .mopOr _ _ _ _ => true
  | .mopXor _ _ _ _ => true
  | .mopAndn _ _ _ _ => true
  | .mopNot _ _ _ => true
  | .mpop _ _ _ _ => true
  | .tagset d b q _ => tagsetOk d b q
  | .tagrd _ _ _ => true
  | .tagrdLine _ _ _ _ => true
  | .cureRst _ => true
  | .cureRstRdlast _ _ => true
  | .cureRstRdcnt _ _ => true
  | .fxrd _ _ => true
  | .fxclr _ _ => true
  | .accz _ _ => true
  | .mmaC _ _ _ _ => true
  | .mmaQ _ _ _ _ => true
  | .mmas _ _ _ _ => true
  | .dist _ _ _ _ => true
  | .topk _ _ _ _ _ => true
  | .accrd _ _ a _ => evenPair a
  | .accwb _ a _ => evenPair a
  | .accadj _ _ _ _ => true
  | .accchk _ d v _ => (decide (1 ≤ d.toNat) && decide (d.toNat ≤ 61) && decide (v.toNat ≤ 61))
  | .tapeRec a n _ _ => decide (a.toNat + n.toNat ≤ 63)
  | .tapeBr _ _ _ => true
  | .tapePop d n _ _ => decide (d.toNat + n.toNat ≤ 63)
  | .tapePopbr _ _ _ => true
  | .bfx _ _ pos len1 ty _ => (ty.isInOrNat && bfOk ty pos len1)
  | .bfi _ _ pos len1 ty _ => (ty.isBits && bfOk ty pos len1)
  | .sel _ _ _ _ ty _ => ty.isInt
  | .cvt _ _ c _ t1 t2 hi _ => cvtOk t1 t2 c hi
  | .cvtn _ _ _ _ t1 t2 hi _ => cvtnOk t1 t2 hi
  | .packhb _ _ _ _ t1 t2 given gap _ => packOk t1 t2 given gap
  | .flg2 _ _ rm ty _ => ty.isFloat && rm.isDet
  | .fscale _ _ _ rm ty _ => ty.isFloat && rm.isDet
  | .ftwos _ _ _ _ ty _ => ty.isFloat
  | .ftwop _ _ _ _ ty _ => ty.isFloat
  | .frnd _ _ rm ty _ => ty.isFloat && rm.isDet
  | .lred _ _ op rm ty _ => (redOk op ty && (redRounds op ty || rm == .rne)) && rm.isDet
  | .lscan _ _ op _ rm ty _ => (redOk op ty && (redRounds op ty || rm == .rne)) && rm.isDet
  | .atom _ _ _ c op ty rm _ sp _ => (atomOk op ty && (op != .cas || c != 63#6) && (atomRounds op ty || rm == .rne) && sp != .lane) && rm.isDet
  | .red _ _ _ op ty rm _ sp _ => (atomOk op ty && op != .exch && op != .cas && (atomRounds op ty || rm == .rne) && sp != .lane) && rm.isDet
  | .cure _ _ b _ rm ty hi sp _ => (ty.isFloat && evenPair sp && (ty == .f32 || (!hi && b != 63#6))) && rm.isDet
  | .sadd _ _ _ _ _ => true
  | .ssub _ _ _ _ _ => true
  | .smul _ _ _ _ _ => true
  | .sand _ _ _ _ _ => true
  | .sor _ _ _ _ _ => true
  | .sxor _ _ _ _ _ => true
  | .sshl _ _ _ _ _ => true
  | .sshr _ _ _ _ _ => true
  | .ssar _ _ _ _ _ => true
  | .smin _ _ _ _ _ => true
  | .smax _ _ _ _ _ => true
  | .sminUnsigned _ _ _ _ _ => true
  | .smaxUnsigned _ _ _ _ _ => true
  | .ssel _ _ _ _ _ => true
  | .smov _ _ _ _ => true
  | .slea _ _ _ _ _ => true
  | .scmpEq _ _ _ _ _ => true
  | .scmpNe _ _ _ _ _ => true
  | .scmpLt _ _ _ _ _ => true
  | .scmpLe _ _ _ _ _ => true
  | .scmpLtu _ _ _ _ _ => true
  | .scmpLeu _ _ _ _ _ => true
  | .saddI64Imm9 _ _ _ _ => true
  | .smulI64Imm9 _ _ _ _ => true
  | .sandB64Imm9 _ _ _ _ => true
  | .sorB64Imm9 _ _ _ _ => true
  | .sxorB64Imm9 _ _ _ _ => true
  | .sshlB64Imm9 _ _ _ _ => true
  | .sshrN64Imm9 _ _ _ _ => true
  | .ssarI64Imm9 _ _ _ _ => true
  | .sminI64Imm9 _ _ _ _ => true
  | .smaxI64Imm9 _ _ _ _ => true
  | .sminN64Imm9 _ _ _ _ => true
  | .smaxN64Imm9 _ _ _ _ => true
  | .smoviI64 _ _ _ => true
  | .smoviN64 _ _ _ => true
  | .saddI64Imm32 _ _ _ _ => true
  | .smulI64Imm32 _ _ _ _ => true
  | .sandB64Imm32 _ _ _ _ => true
  | .sorB64Imm32 _ _ _ _ => true
  | .sxorB64Imm32 _ _ _ _ => true
  | .sshlB64Imm32 _ _ _ _ => true
  | .sshrN64Imm32 _ _ _ _ => true
  | .ssarI64Imm32 _ _ _ _ => true
  | .sminI64Imm32 _ _ _ _ => true
  | .smaxI64Imm32 _ _ _ _ => true
  | .sminN64Imm32 _ _ _ _ => true
  | .smaxN64Imm32 _ _ _ _ => true
  | .smoviI64Imm32 _ _ _ => true
  | .smoviN64Imm32 _ _ _ => true
  | .bra _ _ => true
  | .brc _ _ _ _ => true
  | .brl _ _ _ _ => true
  | .call _ _ => true
  | .ret _ => true
  | .join _ => true
  | .yield _ => true
  | .exit _ => true
  | .land _ => true
  | .jmpiUniform _ _ => true
  | .jmpiLane _ _ => true
  | .barInit _ a k sp _ => ((a == 0#6 || k == 0#5) && sp != .lane)
  | .barArr a k sp _ => ((a == 0#6 || k == 0#5) && sp != .lane)
  | .barWait _ a k sp _ => ((a == 0#6 || k == 0#5) && sp != .lane)
  | .barSync _ _ a k sp _ => ((a == 0#6 || k == 0#5) && sp != .lane)
  | .barQ _ a k sp _ => ((a == 0#6 || k == 0#5) && sp != .lane)
  | .semInit _ a k _ => (a == 0#6 || k == 0#5)
  | .semAcq _ a k sp _ => ((a == 0#6 || k == 0#5) && sp.isSem)
  | .semRel a k sp _ => ((a == 0#6 || k == 0#5) && sp.isSem)
  | .semTry _ a k sp _ => ((a == 0#6 || k == 0#5) && sp.isSem)
  | .hodInit a k _ => (a == 0#6 || k == 0#5)
  | .hodPut _ a k _ => (a == 0#6 || k == 0#5)
  | .hodGet _ a k _ => (a == 0#6 || k == 0#5)
  | .hodTry _ a k _ => (a == 0#6 || k == 0#5)
  | .hodClose a k _ => (a == 0#6 || k == 0#5)
  | .fence cum kind sp _ => (kind != 0#2 && (!cum || kind != 1#2) && sp != .lane)
  | .wait _ a k _ => (a == 0#6 || k == 0#5)
  | .accalloc _ a k _ => (a == 0#6 || k == 0#5)
  | .accfree a k _ => ((a == 0#6 || k == 0#5) && !k.getLsbD 4)
  | .lds _ _ _ _ => true
  | .sts _ _ _ _ => true
  | .bind _ _ _ _ => true
  | .unbind _ _ => true
  | .ldsDisp _ _ _ _ => true
  | .stsDisp _ _ _ _ => true
  | .bindDisp _ _ _ _ => true
  | .unbindDisp _ _ => true
  | .nop _ => true
  | .sysr _ y _ => (y != 0x0C#7 && y != 0x19#7)
  | .sysw _ y _ => (y != 0x0D#7 && y != 0x09#7 && y != 0x24#7)
  | .modeRm _ code _ => rmModeOk code
  | .modeTenSet _ _ _ => true
  | .modeTenClr _ _ _ => true
  | .modeReg _ _ _ => true
  | .srseed _ _ => true
  | .splitq _ _ => true
  | .trap _ _ => true
  | .rte _ => true
  | .rteKill _ => true
  | .bkpt _ _ => true
  | .halt _ => true
  | .copyq _ _ _ => true
  | .copyqBytes _ _ _ => true
  | .tlbiRange a sp _ => (evenPair a && sp.isTlbi)
  | .tlbiAll a sp _ => (evenPair a && sp.isTlbi)
  | .tapeOpen _ a _ _ => evenPair a
  | .tapeSeal _ _ => true
  | .tapeRev _ => true
  | .tapeClose _ => true
  | .launch _ _ _ => true
  | .prio _ a k _ => (a == 0#6 || k == 0#4)
  | .courseRd _ _ => true
  | .courseEnd _ _ => true
  | .roleq _ a k _ => (a == 0#6 || k == 0#2)
  | .rqmovGive _ _ _ _ => true
  | .rqmovTake _ _ _ => true
  | .collRed d a bin n _ => (evenPair d && evenPair a && n != 3#2 && (!bin || n == 0#2))
  | .collMaxe d a _ => (evenPair d && evenPair a)
  | .collBcst d a _ => (evenPair d && evenPair a)
  | .putw d a _ => (d != 0#6 && evenPair a)
  | .sigwSet d a _ => (evenPair d && evenPair a)
  | .sigwAdd d a _ => (evenPair d && evenPair a)
  | .rfenceRel _ => true
  | .copy _ _ _ _ _ _ _ _ _ => true
  | .fltrecClaim _ _ => true
  | .fltdoneAnswer _ _ => true
  | .rlogClaim _ _ => true
  | .tapesegAppend _ _ => true
  | .injectDisarm => true
  | .injectAccEntry _ _ _ _ => true
  | .injectLaneReg _ _ _ => true
  | .injectLocalLine _ _ => true
  | .injectCopyArm _ _ => true
  | .injectFpArm _ => true
  | .injectMatrixArm _ _ => true
  | .injectLocalDouble _ _ => true
  | .injectAddrLine _ => true
  | .attestRequest _ _ => true
  | .attestQuote => true
  | .lrecSubmit _ => true
  | .wstatClear _ => true
  | .hostWrite _ _ => true
  | .hostRead _ _ => true
  | .loadComplete _ => true
  | .storePerformed _ => true
  | .fxFlagWrite _ => true
  | .collectionWindowClose _ => true
  | .shadowDivergence _ => true
  | .trapSlotEntry _ => true
  | .debugStep _ _ => true
  | .haltResume _ => true
  | .arrayRun _ => true
  | .quadRendezvous _ => true
  | .accallocGrant _ => true
  | .ldtvAttempt _ => true
  | .arrivalCounted _ => true
  | .hodSlotPerformed _ => true
  | .copyHodAccept _ => true
  | .copySpan _ => true
  | .tlbiComplete _ => true
  | .tapeSealComplete _ => true
  | .sigwFlagUpdate _ => true
  | .rfenceMarkerDone _ => true
  | .collectiveComplete _ _ => true
  | .negativeResponse _ _ => true
  | .flitCrcRetry _ => true
  | .keyRevoke _ => true
  | .keyAssign _ _ => true
  | .launchAccept _ => true
  | .launchAdmit _ => true
  | .wallPlace _ => true
  | .preempt _ => true
  | .wallRestore _ => true
  | .launchDone _ => true
  | .courseCommit _ => true
  | .syncOpEvaluate _ _ => true
  | .brickKill _ => true
  | .controlScrub => true
  | .machineCheck _ => true
  | .powerOnBoot => true
  | .sagTrip _ => true
  | .sagRelease _ => true
  | .powerSample _ => true
  | .thermalThrottle _ _ => true
  | .thermalShutdown _ _ => true
  | .thermalRecover _ _ => true
  | .unassignedEncoding _ _ => true
  | .linkRestore _ => true
  | .debugResume _ => true
  | .tapeRecordComplete _ => true
  | .fabricRequestArrival _ => true

/-- The rows of the opcode table that are words of one of the two issue slots. -/
def Instr.isEncoded : Instr → Bool
  | .iadd _ _ _ _ _ => true
  | .isub _ _ _ _ _ => true
  | .imul _ _ _ _ _ => true
  | .imulh _ _ _ _ _ => true
  | .imad _ _ _ _ _ => true
  | .iaddc _ _ _ _ _ => true
  | .imin _ _ _ _ _ => true
  | .imax _ _ _ _ _ => true
  | .iabs _ _ _ _ => true
  | .ineg _ _ _ _ => true
  | .and _ _ _ _ _ => true
  | .or _ _ _ _ _ => true
  | .xor _ _ _ _ _ => true
  | .andn _ _ _ _ _ => true
  | .not _ _ _ _ => true
  | .shl _ _ _ _ _ => true
  | .shr _ _ _ _ _ => true
  | .sar _ _ _ _ _ => true
  | .rot _ _ _ _ _ => true
  | .popc _ _ _ _ => true
  | .clz _ _ _ _ => true
  | .brev _ _ _ _ => true
  | .mov _ _ _ _ => true
  | .iminUnsigned _ _ _ _ _ => true
  | .imaxUnsigned _ _ _ _ _ => true
  | .imulhUnsigned _ _ _ _ _ => true
  | .iaddI64Imm9 _ _ _ _ => true
  | .iaddI32Imm9 _ _ _ _ => true
  | .imulI64Imm9 _ _ _ _ => true
  | .imulI32Imm9 _ _ _ _ => true
  | .andB64Imm9 _ _ _ _ => true
  | .orB64Imm9 _ _ _ _ => true
  | .xorB64Imm9 _ _ _ _ => true
  | .shlB64Imm9 _ _ _ _ => true
  | .shrN64Imm9 _ _ _ _ => true
  | .sarI64Imm9 _ _ _ _ => true
  | .moviI64 _ _ _ => true
  | .moviN64 _ _ _ => true
  | .moviI32 _ _ _ => true
  | .iminI64Imm9 _ _ _ _ => true
  | .imaxI64Imm9 _ _ _ _ => true
  | .iaddI64Imm32 _ _ _ _ => true
  | .iaddI32Imm32 _ _ _ _ => true
  | .imulI64Imm32 _ _ _ _ => true
  | .imulI32Imm32 _ _ _ _ => true
  | .andB64Imm32 _ _ _ _ => true
  | .orB64Imm32 _ _ _ _ => true
  | .xorB64Imm32 _ _ _ _ => true
  | .shlB64Imm32 _ _ _ _ => true
  | .shrN64Imm32 _ _ _ _ => true
  | .sarI64Imm32 _ _ _ _ => true
  | .moviI64Imm32 _ _ _ => true
  | .moviN64Imm32 _ _ _ => true
  | .moviI32Imm32 _ _ _ => true
  | .iminI64Imm32 _ _ _ _ => true
  | .imaxI64Imm32 _ _ _ _ => true
  | .faddF32 _ _ _ _ _ => true
  | .fsubF32 _ _ _ _ _ => true
  | .fmulF32 _ _ _ _ _ => true
  | .ffmaF32 _ _ _ _ _ => true
  | .ffmsF32 _ _ _ _ _ => true
  | .fnmaF32 _ _ _ _ _ => true
  | .fminF32 _ _ _ _ _ => true
  | .fmaxF32 _ _ _ _ _ => true
  | .fdivF32 _ _ _ _ _ => true
  | .fsqrtF32 _ _ _ _ => true
  | .frcpF32 _ _ _ _ => true
  | .frsqF32 _ _ _ _ => true
  | .fexpF32 _ _ _ _ => true
  | .fex2F32 _ _ _ _ => true
  | .flogF32 _ _ _ _ => true
  | .ferfF32 _ _ _ _ => true
  | .faddF64 _ _ _ _ _ => true
  | .fsubF64 _ _ _ _ _ => true
  | .fmulF64 _ _ _ _ _ => true
  | .ffmaF64 _ _ _ _ _ => true
  | .ffmsF64 _ _ _ _ _ => true
  | .fnmaF64 _ _ _ _ _ => true
  | .fminF64 _ _ _ _ _ => true
  | .fmaxF64 _ _ _ _ _ => true
  | .fdivF64 _ _ _ _ _ => true
  | .fsqrtF64 _ _ _ _ => true
  | .frcpF64 _ _ _ _ => true
  | .frsqF64 _ _ _ _ => true
  | .fexpF64 _ _ _ _ => true
  | .fex2F64 _ _ _ _ => true
  | .flogF64 _ _ _ _ => true
  | .ferfF64 _ _ _ _ => true
  | .ldB64 _ _ _ _ _ => true
  | .stB64 _ _ _ _ _ => true
  | .ldt _ _ _ _ _ _ => true
  | .stt _ _ _ _ _ => true
  | .sttAon _ _ _ _ _ => true
  | .ldgB64 _ _ _ _ _ => true
  | .stgB64 _ _ _ _ _ => true
  | .ldtv _ _ _ _ _ => true
  | .stp _ _ _ _ _ => true
  | .tst _ _ _ _ _ => true
  | .tcom _ _ _ _ => true
  | .retr _ _ _ _ => true
  | .pref _ _ _ _ => true
  | .stc _ _ _ _ _ _ => true
  | .lea _ _ _ _ _ _ => true
  | .ldB32 _ _ _ _ _ => true
  | .ldgB32 _ _ _ _ _ => true
  | .stB32 _ _ _ _ _ => true
  | .stgB32 _ _ _ _ _ => true
  | .ldB64Disp _ _ _ _ _ _ => true
  | .stB64Disp _ _ _ _ _ _ => true
  | .ldtDisp _ _ _ _ _ _ _ => true
  | .sttDisp _ _ _ _ _ _ => true
  | .sttAonDisp _ _ _ _ _ _ => true
  | .ldgB64Disp _ _ _ _ _ _ => true
  | .stgB64Disp _ _ _ _ _ _ => true
  | .ldtvDisp _ _ _ _ _ _ => true
  | .stpDisp _ _ _ _ _ _ => true
  | .tstDisp _ _ _ _ _ _ => true
  | .tcomDisp _ _ _ _ _ => true
  | .retrDisp _ _ _ _ _ => true
  | .prefDisp _ _ _ _ _ => true
  | .stcDisp _ _ _ _ _ _ _ => true
  | .leaDisp _ _ _ _ _ _ _ => true
  | .ldB32Disp _ _ _ _ _ _ => true
  | .ldgB32Disp _ _ _ _ _ _ => true
  | .stB32Disp _ _ _ _ _ _ => true
  | .stgB32Disp _ _ _ _ _ _ => true
  | .icmpEq _ _ _ _ _ => true
  | .icmpNe _ _ _ _ _ => true
  | .icmpLt _ _ _ _ _ => true
  | .icmpLe _ _ _ _ _ => true
  | .icmpLtu _ _ _ _ _ => true
  | .icmpLeu _ _ _ _ _ => true
  | .fcmpEq _ _ _ _ _ => true
  | .fcmpNe _ _ _ _ _ => true
  | .fcmpLt _ _ _ _ _ => true
  | .fcmpLe _ _ _ _ _ => true
  | .fcmpUn _ _ _ _ _ => true
  | .fclass _ _ _ _ => true
  | .fabs _ _ _ _ => true
  | .fneg _ _ _ _ => true
  | .vfroms _ _ _ _ => true
  | .vfromsIdx _ _ _ _ => true
  | .sfromv _ _ _ _ _ => true
  | .lshfl _ _ _ _ _ => true
  | .lpush _ _ _ _ _ => true
  | .lbcst _ _ _ _ _ => true
  | .lvoteBallot _ _ _ => true
  | .lvoteAny _ _ _ => true
  | .lvoteAll _ _ _ => true
  | .lfirst _ _ _ _ => true
  | .mopAnd _ _ _ _ => true
  | .mopOr _ _ _ _ => true
  | .mopXor _ _ _ _ => true
  | .mopAndn _ _ _ _ => true
  | .mopNot _ _ _ => true
  | .mpop _ _ _ _ => true
  | .tagset _ _ _ _ => true
  | .tagrd _ _ _ => true
  | .tagrdLine _ _ _ _ => true
  | .cureRst _ => true
  | .cureRstRdlast _ _ => true
  | .cureRstRdcnt _ _ => true
  | .fxrd _ _ => true
  | .fxclr _ _ => true
  | .accz _ _ => true
  | .mmaC _ _ _ _ => true
  | .mmaQ _ _ _ _ => true
  | .mmas _ _ _ _ => true
  | .dist _ _ _ _ => true
  | .topk _ _ _ _ _ => true
  | .accrd _ _ _ _ => true
  | .accwb _ _ _ => true
  | .accadj _ _ _ _ => true
  | .accchk _ _ _ _ => true
  | .tapeRec _ _ _ _ => true
  | .tapeBr _ _ _ => true
  | .tapePop _ _ _ _ => true
  | .tapePopbr _ _ _ => true
  | .bfx _ _ _ _ _ _ => true
  | .bfi _ _ _ _ _ _ => true
  | .sel _ _ _ _ _ _ => true
  | .cvt _ _ _ _ _ _ _ _ => true
  | .cvtn _ _ _ _ _ _ _ _ => true
  | .packhb _ _ _ _ _ _ _ _ _ => true
  | .flg2 _ _ _ _ _ => true
  | .fscale _ _ _ _ _ _ => true
  | .ftwos _ _ _ _ _ _ => true
  | .ftwop _ _ _ _ _ _ => true
  | .frnd _ _ _ _ _ => true
  | .lred _ _ _ _ _ _ => true
  | .lscan _ _ _ _ _ _ _ => true
  | .atom _ _ _ _ _ _ _ _ _ _ => true
  | .red _ _ _ _ _ _ _ _ _ => true
  | .cure _ _ _ _ _ _ _ _ _ => true
  | .sadd _ _ _ _ _ => true
  | .ssub _ _ _ _ _ => true
  | .smul _ _ _ _ _ => true
  | .sand _ _ _ _ _ => true
  | .sor _ _ _ _ _ => true
  | .sxor _ _ _ _ _ => true
  | .sshl _ _ _ _ _ => true
  | .sshr _ _ _ _ _ => true
  | .ssar _ _ _ _ _ => true
  | .smin _ _ _ _ _ => true
  | .smax _ _ _ _ _ => true
  | .sminUnsigned _ _ _ _ _ => true
  | .smaxUnsigned _ _ _ _ _ => true
  | .ssel _ _ _ _ _ => true
  | .smov _ _ _ _ => true
  | .slea _ _ _ _ _ => true
  | .scmpEq _ _ _ _ _ => true
  | .scmpNe _ _ _ _ _ => true
  | .scmpLt _ _ _ _ _ => true
  | .scmpLe _ _ _ _ _ => true
  | .scmpLtu _ _ _ _ _ => true
  | .scmpLeu _ _ _ _ _ => true
  | .saddI64Imm9 _ _ _ _ => true
  | .smulI64Imm9 _ _ _ _ => true
  | .sandB64Imm9 _ _ _ _ => true
  | .sorB64Imm9 _ _ _ _ => true
  | .sxorB64Imm9 _ _ _ _ => true
  | .sshlB64Imm9 _ _ _ _ => true
  | .sshrN64Imm9 _ _ _ _ => true
  | .ssarI64Imm9 _ _ _ _ => true
  | .sminI64Imm9 _ _ _ _ => true
  | .smaxI64Imm9 _ _ _ _ => true
  | .sminN64Imm9 _ _ _ _ => true
  | .smaxN64Imm9 _ _ _ _ => true
  | .smoviI64 _ _ _ => true
  | .smoviN64 _ _ _ => true
  | .saddI64Imm32 _ _ _ _ => true
  | .smulI64Imm32 _ _ _ _ => true
  | .sandB64Imm32 _ _ _ _ => true
  | .sorB64Imm32 _ _ _ _ => true
  | .sxorB64Imm32 _ _ _ _ => true
  | .sshlB64Imm32 _ _ _ _ => true
  | .sshrN64Imm32 _ _ _ _ => true
  | .ssarI64Imm32 _ _ _ _ => true
  | .sminI64Imm32 _ _ _ _ => true
  | .smaxI64Imm32 _ _ _ _ => true
  | .sminN64Imm32 _ _ _ _ => true
  | .smaxN64Imm32 _ _ _ _ => true
  | .smoviI64Imm32 _ _ _ => true
  | .smoviN64Imm32 _ _ _ => true
  | .bra _ _ => true
  | .brc _ _ _ _ => true
  | .brl _ _ _ _ => true
  | .call _ _ => true
  | .ret _ => true
  | .join _ => true
  | .yield _ => true
  | .exit _ => true
  | .land _ => true
  | .jmpiUniform _ _ => true
  | .jmpiLane _ _ => true
  | .barInit _ _ _ _ _ => true
  | .barArr _ _ _ _ => true
  | .barWait _ _ _ _ _ => true
  | .barSync _ _ _ _ _ _ => true
  | .barQ _ _ _ _ _ => true
  | .semInit _ _ _ _ => true
  | .semAcq _ _ _ _ _ => true
  | .semRel _ _ _ _ => true
  | .semTry _ _ _ _ _ => true
  | .hodInit _ _ _ => true
  | .hodPut _ _ _ _ => true
  | .hodGet _ _ _ _ => true
  | .hodTry _ _ _ _ => true
  | .hodClose _ _ _ => true
  | .fence _ _ _ _ => true
  | .wait _ _ _ _ => true
  | .accalloc _ _ _ _ => true
  | .accfree _ _ _ => true
  | .lds _ _ _ _ => true
  | .sts _ _ _ _ => true
  | .bind _ _ _ _ => true
  | .unbind _ _ => true
  | .ldsDisp _ _ _ _ => true
  | .stsDisp _ _ _ _ => true
  | .bindDisp _ _ _ _ => true
  | .unbindDisp _ _ => true
  | .nop _ => true
  | .sysr _ _ _ => true
  | .sysw _ _ _ => true
  | .modeRm _ _ _ => true
  | .modeTenSet _ _ _ => true
  | .modeTenClr _ _ _ => true
  | .modeReg _ _ _ => true
  | .srseed _ _ => true
  | .splitq _ _ => true
  | .trap _ _ => true
  | .rte _ => true
  | .rteKill _ => true
  | .bkpt _ _ => true
  | .halt _ => true
  | .copyq _ _ _ => true
  | .copyqBytes _ _ _ => true
  | .tlbiRange _ _ _ => true
  | .tlbiAll _ _ _ => true
  | .tapeOpen _ _ _ _ => true
  | .tapeSeal _ _ => true
  | .tapeRev _ => true
  | .tapeClose _ => true
  | .launch _ _ _ => true
  | .prio _ _ _ _ => true
  | .courseRd _ _ => true
  | .courseEnd _ _ => true
  | .roleq _ _ _ _ => true
  | .rqmovGive _ _ _ _ => true
  | .rqmovTake _ _ _ => true
  | .collRed _ _ _ _ _ => true
  | .collMaxe _ _ _ => true
  | .collBcst _ _ _ => true
  | .putw _ _ _ => true
  | .sigwSet _ _ _ => true
  | .sigwAdd _ _ _ => true
  | .rfenceRel _ => true
  | .copy _ _ _ _ _ _ _ _ _ => true
  | .fltrecClaim _ _ => true
  | .fltdoneAnswer _ _ => true
  | .rlogClaim _ _ => true
  | .tapesegAppend _ _ => true
  | .injectDisarm => false
  | .injectAccEntry _ _ _ _ => false
  | .injectLaneReg _ _ _ => false
  | .injectLocalLine _ _ => false
  | .injectCopyArm _ _ => false
  | .injectFpArm _ => false
  | .injectMatrixArm _ _ => false
  | .injectLocalDouble _ _ => false
  | .injectAddrLine _ => false
  | .attestRequest _ _ => true
  | .attestQuote => false
  | .lrecSubmit _ => false
  | .wstatClear _ => false
  | .hostWrite _ _ => false
  | .hostRead _ _ => false
  | .loadComplete _ => false
  | .storePerformed _ => false
  | .fxFlagWrite _ => false
  | .collectionWindowClose _ => false
  | .shadowDivergence _ => false
  | .trapSlotEntry _ => false
  | .debugStep _ _ => false
  | .haltResume _ => false
  | .arrayRun _ => false
  | .quadRendezvous _ => false
  | .accallocGrant _ => false
  | .ldtvAttempt _ => false
  | .arrivalCounted _ => false
  | .hodSlotPerformed _ => false
  | .copyHodAccept _ => false
  | .copySpan _ => false
  | .tlbiComplete _ => false
  | .tapeSealComplete _ => false
  | .sigwFlagUpdate _ => false
  | .rfenceMarkerDone _ => false
  | .collectiveComplete _ _ => false
  | .negativeResponse _ _ => false
  | .flitCrcRetry _ => false
  | .keyRevoke _ => false
  | .keyAssign _ _ => false
  | .launchAccept _ => false
  | .launchAdmit _ => false
  | .wallPlace _ => false
  | .preempt _ => false
  | .wallRestore _ => false
  | .launchDone _ => false
  | .courseCommit _ => false
  | .syncOpEvaluate _ _ => false
  | .brickKill _ => false
  | .controlScrub => false
  | .machineCheck _ => false
  | .powerOnBoot => false
  | .sagTrip _ => false
  | .sagRelease _ => false
  | .powerSample _ => false
  | .thermalThrottle _ _ => false
  | .thermalShutdown _ _ => false
  | .thermalRecover _ _ => false
  | .unassignedEncoding _ _ => false
  | .linkRestore _ => false
  | .debugResume _ => false
  | .tapeRecordComplete _ => false
  | .fabricRequestArrival _ => false

end Sys2Proof
end

