-- ==== Sys2Proof/Decode.lean ====
section
/-!
DEFINITION. The decoder (R26–R31, R51–R66): total on any two words, it gives an instruction or the cause of the first
failing check of R52, checks 1 and 2. After it the encoder, from the same tables.
-/
namespace Sys2Proof

/-- What a first word and the word after it decode to: an instruction, or a cause (0x001 or 0x002, R52) with the
length of the word (R51: class 7 is two words long even when its opcode is unassigned). -/
inductive Decoded where
  | instr (i : Instr)
  | bad (cause : BitVec 9) (two : Bool)
  deriving DecidableEq, Repr

/-- The one or two words of an instruction (R27). -/
structure Words where
  first  : IWord
  second : Option IWord
  deriving DecidableEq, Repr

/-! ### Field layouts (R28, R29, R31, R64) -/

/-- Fields of classes LI, LX, LW, UI and UW: x is w, q or f. -/
structure RawA where
  op : BitVec 6
  d : BitVec 6
  a : BitVec 6
  b : BitVec 6
  x : BitVec 1
  deriving DecidableEq, Repr

/-- The fields read from the bits. -/
def RawA.ofBits (v : BitVec 25) : RawA :=
  ⟨v.extractLsb' 19 6, v.extractLsb' 13 6, v.extractLsb' 7 6, v.extractLsb' 1 6, v.extractLsb' 0 1⟩
/-- The bits of the fields. -/
def RawA.toBits (r : RawA) : BitVec 25 := r.op ++ (r.d ++ (r.a ++ (r.b ++ r.x)))

/-- Fields of classes LK, UK and UM. -/
structure RawK where
  op : BitVec 4
  d : BitVec 6
  a : BitVec 6
  imm : BitVec 9
  deriving DecidableEq, Repr

/-- The fields read from the bits. -/
def RawK.ofBits (v : BitVec 25) : RawK :=
  ⟨v.extractLsb' 21 4, v.extractLsb' 15 6, v.extractLsb' 9 6, v.extractLsb' 0 9⟩
/-- The bits of the fields. -/
def RawK.toBits (r : RawK) : BitVec 25 := r.op ++ (r.d ++ (r.a ++ r.imm))

/-- Fields of classes LF and LD. -/
structure RawF where
  op : BitVec 4
  d : BitVec 6
  a : BitVec 6
  b : BitVec 6
  rm : BitVec 3
  deriving DecidableEq, Repr

/-- The fields read from the bits. -/
def RawF.ofBits (v : BitVec 25) : RawF :=
  ⟨v.extractLsb' 21 4, v.extractLsb' 15 6, v.extractLsb' 9 6, v.extractLsb' 3 6, v.extractLsb' 0 3⟩
/-- The bits of the fields. -/
def RawF.toBits (r : RawF) : BitVec 25 := r.op ++ (r.d ++ (r.a ++ (r.b ++ r.rm)))

/-- Fields of class LM. -/
structure RawM where
  op : BitVec 4
  d : BitVec 6
  x : BitVec 6
  sb : BitVec 6
  sc : BitVec 2
  q : BitVec 1
  deriving DecidableEq, Repr

/-- The fields read from the bits. -/
def RawM.ofBits (v : BitVec 25) : RawM :=
  ⟨v.extractLsb' 21 4, v.extractLsb' 15 6, v.extractLsb' 9 6, v.extractLsb' 3 6, v.extractLsb' 1 2, v.extractLsb' 0 1⟩
/-- The bits of the fields. -/
def RawM.toBits (r : RawM) : BitVec 25 := r.op ++ (r.d ++ (r.x ++ (r.sb ++ (r.sc ++ r.q))))

/-- Fields of class UB. -/
structure RawB where
  op : BitVec 4
  c : BitVec 6
  off : BitVec 15
  deriving DecidableEq, Repr

/-- The fields read from the bits. -/
def RawB.ofBits (v : BitVec 25) : RawB :=
  ⟨v.extractLsb' 21 4, v.extractLsb' 15 6, v.extractLsb' 0 15⟩
/-- The bits of the fields. -/
def RawB.toBits (r : RawB) : BitVec 25 := r.op ++ (r.c ++ r.off)

/-- Fields of class US. -/
structure RawS where
  op : BitVec 5
  d : BitVec 6
  a : BitVec 6
  k : BitVec 5
  sp : BitVec 3
  deriving DecidableEq, Repr

/-- The fields read from the bits. -/
def RawS.ofBits (v : BitVec 25) : RawS :=
  ⟨v.extractLsb' 20 5, v.extractLsb' 14 6, v.extractLsb' 8 6, v.extractLsb' 3 5, v.extractLsb' 0 3⟩
/-- The bits of the fields. -/
def RawS.toBits (r : RawS) : BitVec 25 := r.op ++ (r.d ++ (r.a ++ (r.k ++ r.sp)))

/-- Fields of class UY. -/
structure RawY where
  op : BitVec 6
  d : BitVec 6
  a : BitVec 6
  y : BitVec 7
  deriving DecidableEq, Repr

/-- The fields read from the bits. -/
def RawY.ofBits (v : BitVec 25) : RawY :=
  ⟨v.extractLsb' 19 6, v.extractLsb' 13 6, v.extractLsb' 7 6, v.extractLsb' 0 7⟩
/-- The bits of the fields. -/
def RawY.toBits (r : RawY) : BitVec 25 := r.op ++ (r.d ++ (r.a ++ r.y))

/-- Fields of class UL. -/
structure RawL where
  op : BitVec 6
  d : BitVec 6
  a : BitVec 6
  sp : BitVec 3
  k : BitVec 4
  deriving DecidableEq, Repr

/-- The fields read from the bits. -/
def RawL.ofBits (v : BitVec 25) : RawL :=
  ⟨v.extractLsb' 19 6, v.extractLsb' 13 6, v.extractLsb' 7 6, v.extractLsb' 4 3, v.extractLsb' 0 4⟩
/-- The bits of the fields. -/
def RawL.toBits (r : RawL) : BitVec 25 := r.op ++ (r.d ++ (r.a ++ (r.sp ++ r.k)))

/-- Fields of class LE. -/
structure RawE where
  op : BitVec 6
  rest : BitVec 19
  deriving DecidableEq, Repr

/-- The fields read from the bits. -/
def RawE.ofBits (v : BitVec 25) : RawE :=
  ⟨v.extractLsb' 19 6, v.extractLsb' 0 19⟩
/-- The bits of the fields. -/
def RawE.toBits (r : RawE) : BitVec 25 := r.op ++ r.rest

/-- Fields of LE forms that name a bank. -/
structure RawEm where
  bank : BitVec 4
  x : BitVec 6
  y : BitVec 6
  z : BitVec 3
  deriving DecidableEq, Repr

/-- The fields read from the bits. -/
def RawEm.ofBits (v : BitVec 19) : RawEm :=
  ⟨v.extractLsb' 15 4, v.extractLsb' 9 6, v.extractLsb' 3 6, v.extractLsb' 0 3⟩
/-- The bits of the fields. -/
def RawEm.toBits (r : RawEm) : BitVec 19 := r.bank ++ (r.x ++ (r.y ++ r.z))

/-- Fields of LE forms that name a register run and a label. -/
structure RawEt where
  first : BitVec 6
  n : BitVec 2
  lbl : BitVec 8
  z : BitVec 3
  deriving DecidableEq, Repr

/-- The fields read from the bits. -/
def RawEt.ofBits (v : BitVec 19) : RawEt :=
  ⟨v.extractLsb' 13 6, v.extractLsb' 11 2, v.extractLsb' 3 8, v.extractLsb' 0 3⟩
/-- The bits of the fields. -/
def RawEt.toBits (r : RawEt) : BitVec 19 := r.first ++ (r.n ++ (r.lbl ++ r.z))

/-- Fields of LE forms that name a mask and a label. -/
structure RawEb where
  m : BitVec 3
  r : BitVec 5
  lbl : BitVec 8
  z : BitVec 3
  deriving DecidableEq, Repr

/-- The fields read from the bits. -/
def RawEb.ofBits (v : BitVec 19) : RawEb :=
  ⟨v.extractLsb' 16 3, v.extractLsb' 11 5, v.extractLsb' 3 8, v.extractLsb' 0 3⟩
/-- The bits of the fields. -/
def RawEb.toBits (r : RawEb) : BitVec 19 := r.m ++ (r.r ++ (r.lbl ++ r.z))

/-- Fields of the MEM payload of R31. -/
structure PayMem where
  sc : BitVec 2
  disp : BitVec 30
  deriving DecidableEq, Repr

/-- The fields read from the bits. -/
def PayMem.ofBits (v : BitVec 32) : PayMem :=
  ⟨v.extractLsb' 30 2, v.extractLsb' 0 30⟩
/-- The bits of the fields. -/
def PayMem.toBits (r : PayMem) : BitVec 32 := r.sc ++ r.disp

/-- Fields of the OPX payload of R64. -/
structure PayOpx where
  c : BitVec 6
  rm : BitVec 3
  t1 : BitVec 5
  t2 : BitVec 5
  lo : BitVec 13
  deriving DecidableEq, Repr

/-- The fields read from the bits. -/
def PayOpx.ofBits (v : BitVec 32) : PayOpx :=
  ⟨v.extractLsb' 26 6, v.extractLsb' 23 3, v.extractLsb' 18 5, v.extractLsb' 13 5, v.extractLsb' 0 13⟩
/-- The bits of the fields. -/
def PayOpx.toBits (r : PayOpx) : BitVec 32 := r.c ++ (r.rm ++ (r.t1 ++ (r.t2 ++ r.lo)))

/-! ### Code tables (R60, R62, R63, R123, R235) -/

/-- Rounding code (R60); code 111 is reserved. -/
def Rm.ofCode (c : BitVec 3) : Option Rm :=
  match c.toNat with
  | 0 => some .rne
  | 1 => some .rtz
  | 2 => some .rup
  | 3 => some .rdn
  | 4 => some .rna
  | 5 => some .rsr
  | 6 => some .dyn
  | _ => none
/-- Its code. -/
def Rm.code : Rm → BitVec 3
  | .rne => 0#3
  | .rtz => 1#3
  | .rup => 2#3
  | .rdn => 3#3
  | .rna => 4#3
  | .rsr => 5#3
  | .dyn => 6#3

/-- Type code (R62); 0x11 to 0x1F are reserved. -/
def Ty.ofCode (c : BitVec 5) : Option Ty :=
  match c.toNat with
  | 0 => some .i32
  | 1 => some .n32
  | 2 => some .i64
  | 3 => some .n64
  | 4 => some .b32
  | 5 => some .b64
  | 6 => some .f32
  | 7 => some .f64
  | 8 => some .bf16
  | 9 => some .f16
  | 10 => some .e4m3
  | 11 => some .e5m2
  | 12 => some .hb8
  | 13 => some .hb4
  | 14 => some .q8
  | 15 => some .q4
  | 16 => some .q2
  | _ => none
/-- Its code. -/
def Ty.code : Ty → BitVec 5
  | .i32 => 0#5
  | .n32 => 1#5
  | .i64 => 2#5
  | .n64 => 3#5
  | .b32 => 4#5
  | .b64 => 5#5
  | .f32 => 6#5
  | .f64 => 7#5
  | .bf16 => 8#5
  | .f16 => 9#5
  | .e4m3 => 10#5
  | .e5m2 => 11#5
  | .hb8 => 12#5
  | .hb4 => 13#5
  | .q8 => 14#5
  | .q4 => 15#5
  | .q2 => 16#5

/-- Scope code (R63); 110 and 111 are reserved. -/
def Scope.ofCode (c : BitVec 3) : Option Scope :=
  match c.toNat with
  | 0 => some .lane
  | 1 => some .core
  | 2 => some .quad
  | 3 => some .die
  | 4 => some .pkg
  | 5 => some .pod
  | _ => none
/-- Its code. -/
def Scope.code : Scope → BitVec 3
  | .lane => 0#3
  | .core => 1#3
  | .quad => 2#3
  | .die => 3#3
  | .pkg => 4#3
  | .pod => 5#3

/-- Operation code of LRED and LSCAN (R123). -/
def RedOp.ofCode (c : BitVec 3) : Option RedOp :=
  match c.toNat with
  | 0 => some .add
  | 1 => some .min
  | 2 => some .max
  | 3 => some .and
  | 4 => some .or
  | 5 => some .xor
  | _ => none
/-- Its code. -/
def RedOp.code : RedOp → BitVec 3
  | .add => 0#3
  | .min => 1#3
  | .max => 2#3
  | .and => 3#3
  | .or => 4#3
  | .xor => 5#3

/-- Operation code of ATOM and RED (R235). -/
def AtomOp.ofCode (c : BitVec 4) : Option AtomOp :=
  match c.toNat with
  | 0 => some .add
  | 1 => some .min
  | 2 => some .max
  | 3 => some .and
  | 4 => some .or
  | 5 => some .xor
  | 6 => some .exch
  | 7 => some .cas
  | _ => none
/-- Its code. -/
def AtomOp.code : AtomOp → BitVec 4
  | .add => 0#4
  | .min => 1#4
  | .max => 2#4
  | .and => 3#4
  | .or => 4#4
  | .xor => 5#4
  | .exch => 6#4
  | .cas => 7#4

/-- A one-bit field as a truth value. -/
def bitB (x : BitVec 1) : Bool := x == 1#1

/-- The class, with S as its top bit (R26). -/
def wordClass (w : IWord) : BitVec 4 := w.extractLsb' 28 4
/-- Bits 27:3 (R26). -/
def wordBody (w : IWord) : BitVec 25 := w.extractLsb' 3 25
/-- The stall count ST (R26). -/
def wordSt (w : IWord) : BitVec 3 := w.extractLsb' 0 3
/-- A word from its class, body and stall count. -/
def mkWord (c : BitVec 4) (body : BitVec 25) (st : BitVec 3) : IWord := c ++ (body ++ st)
/-- Class 7 of either set is two words long (R51). -/
def isTwoWord (w : IWord) : Bool := w.extractLsb' 28 3 == 7#3

/-- A rounding field that has no reserved code (check 2 of R52: cause 0x002 for 111). -/
def rmCheck (c : BitVec 3) (two : Bool) (k : Rm → Decoded) : Decoded :=
  match Rm.ofCode c with
  | none => .bad 0x002#9 two
  | some rm => k rm

/-- A type, scope or operation field that has no reserved code (check 1 of R52: cause 0x001). -/
def codeCheck {α : Type} (c : Option α) (two : Bool) (k : α → Decoded) : Decoded :=
  match c with
  | none => .bad 0x001#9 two
  | some x => k x

/-- Lane class 0, LI (R53). -/
noncomputable def decLI (r : RawA) (st : BitVec 3) : Decoded :=
  match r.op.toNat with
  | 1 => .instr (.iadd r.d r.a r.b (bitB r.x) st)
  | 2 => .instr (.isub r.d r.a r.b (bitB r.x) st)
  | 3 => .instr (.imul r.d r.a r.b (bitB r.x) st)
  | 4 => .instr (.imulh r.d r.a r.b (bitB r.x) st)
  | 5 => .instr (.imad r.d r.a r.b (bitB r.x) st)
  | 6 => .instr (.iaddc r.d r.a r.b (bitB r.x) st)
  | 7 => .instr (.imin r.d r.a r.b (bitB r.x) st)
  | 8 => .instr (.imax r.d r.a r.b (bitB r.x) st)
  | 9 => if r.b == 0#6 then .instr (.iabs r.d r.a (bitB r.x) st) else .bad 0x001#9 false
  | 10 => if r.b == 0#6 then .instr (.ineg r.d r.a (bitB r.x) st) else .bad 0x001#9 false
  | 11 => .instr (.and r.d r.a r.b (bitB r.x) st)
  | 12 => .instr (.or r.d r.a r.b (bitB r.x) st)
  | 13 => .instr (.xor r.d r.a r.b (bitB r.x) st)
  | 14 => .instr (.andn r.d r.a r.b (bitB r.x) st)
  | 15 => if r.b == 0#6 then .instr (.not r.d r.a (bitB r.x) st) else .bad 0x001#9 false
  | 16 => .instr (.shl r.d r.a r.b (bitB r.x) st)
  | 17 => .instr (.shr r.d r.a r.b (bitB r.x) st)
  | 18 => .instr (.sar r.d r.a r.b (bitB r.x) st)
  | 19 => .instr (.rot r.d r.a r.b (bitB r.x) st)
  | 20 => if r.b == 0#6 then .instr (.popc r.d r.a (bitB r.x) st) else .bad 0x001#9 false
  | 21 => if r.b == 0#6 then .instr (.clz r.d r.a (bitB r.x) st) else .bad 0x001#9 false
  | 22 => if r.b == 0#6 then .instr (.brev r.d r.a (bitB r.x) st) else .bad 0x001#9 false
  | 23 => if r.b == 0#6 then .instr (.mov r.d r.a (bitB r.x) st) else .bad 0x001#9 false
  | 24 => .instr (.iminUnsigned r.d r.a r.b (bitB r.x) st)
  | 25 => .instr (.imaxUnsigned r.d r.a r.b (bitB r.x) st)
  | 26 => .instr (.imulhUnsigned r.d r.a r.b (bitB r.x) st)
  | _ => .bad 0x001#9 false

/-- Lane class 1, LK (R54). -/
noncomputable def decLK (r : RawK) (st : BitVec 3) : Decoded :=
  match r.op.toNat with
  | 0 => .instr (.iaddI64Imm9 r.d r.a r.imm st)
  | 1 => .instr (.iaddI32Imm9 r.d r.a r.imm st)
  | 2 => .instr (.imulI64Imm9 r.d r.a r.imm st)
  | 3 => .instr (.imulI32Imm9 r.d r.a r.imm st)
  | 4 => .instr (.andB64Imm9 r.d r.a r.imm st)
  | 5 => .instr (.orB64Imm9 r.d r.a r.imm st)
  | 6 => .instr (.xorB64Imm9 r.d r.a r.imm st)
  | 7 => .instr (.shlB64Imm9 r.d r.a r.imm st)
  | 8 => .instr (.shrN64Imm9 r.d r.a r.imm st)
  | 9 => .instr (.sarI64Imm9 r.d r.a r.imm st)
  | 10 => if r.a == 0#6 then .instr (.moviI64 r.d r.imm st) else .bad 0x001#9 false
  | 11 => if r.a == 0#6 then .instr (.moviN64 r.d r.imm st) else .bad 0x001#9 false
  | 12 => if r.a == 0#6 then .instr (.moviI32 r.d r.imm st) else .bad 0x001#9 false
  | 13 => .instr (.iminI64Imm9 r.d r.a r.imm st)
  | 14 => .instr (.imaxI64Imm9 r.d r.a r.imm st)
  | _ => .bad 0x001#9 false

/-- Lane class 2, LF (R54). -/
noncomputable def decLF (r : RawF) (st : BitVec 3) : Decoded :=
  match r.op.toNat with
  | 0 => rmCheck r.rm false (fun rm => if rm.isDet then .instr (.faddF32 r.d r.a r.b rm st) else .bad 0x002#9 false)
  | 1 => rmCheck r.rm false (fun rm => if rm.isDet then .instr (.fsubF32 r.d r.a r.b rm st) else .bad 0x002#9 false)
  | 2 => rmCheck r.rm false (fun rm => if rm.isDet then .instr (.fmulF32 r.d r.a r.b rm st) else .bad 0x002#9 false)
  | 3 => rmCheck r.rm false (fun rm => if rm.isDet then .instr (.ffmaF32 r.d r.a r.b rm st) else .bad 0x002#9 false)
  | 4 => rmCheck r.rm false (fun rm => if rm.isDet then .instr (.ffmsF32 r.d r.a r.b rm st) else .bad 0x002#9 false)
  | 5 => rmCheck r.rm false (fun rm => if rm.isDet then .instr (.fnmaF32 r.d r.a r.b rm st) else .bad 0x002#9 false)
  | 6 => rmCheck r.rm false (fun rm => if rm.isDet then .instr (.fminF32 r.d r.a r.b rm st) else .bad 0x002#9 false)
  | 7 => rmCheck r.rm false (fun rm => if rm.isDet then .instr (.fmaxF32 r.d r.a r.b rm st) else .bad 0x002#9 false)
  | 8 => rmCheck r.rm false (fun rm => if rm.isDet then .instr (.fdivF32 r.d r.a r.b rm st) else .bad 0x002#9 false)
  | 9 => if r.b == 0#6 then rmCheck r.rm false (fun rm => if rm.isDet then .instr (.fsqrtF32 r.d r.a rm st) else .bad 0x002#9 false) else .bad 0x001#9 false
  | 10 => if r.b == 0#6 then rmCheck r.rm false (fun rm => if rm.isDet then .instr (.frcpF32 r.d r.a rm st) else .bad 0x002#9 false) else .bad 0x001#9 false
  | 11 => if r.b == 0#6 then rmCheck r.rm false (fun rm => if rm.isDet then .instr (.frsqF32 r.d r.a rm st) else .bad 0x002#9 false) else .bad 0x001#9 false
  | 12 => if r.b == 0#6 then rmCheck r.rm false (fun rm => if rm.isDet then .instr (.fexpF32 r.d r.a rm st) else .bad 0x002#9 false) else .bad 0x001#9 false
  | 13 => if r.b == 0#6 then rmCheck r.rm false (fun rm => if rm.isDet then .instr (.fex2F32 r.d r.a rm st) else .bad 0x002#9 false) else .bad 0x001#9 false
  | 14 => if r.b == 0#6 then rmCheck r.rm false (fun rm => if rm.isDet then .instr (.flogF32 r.d r.a rm st) else .bad 0x002#9 false) else .bad 0x001#9 false
  | 15 => if r.b == 0#6 then rmCheck r.rm false (fun rm => if rm.isDet then .instr (.ferfF32 r.d r.a rm st) else .bad 0x002#9 false) else .bad 0x001#9 false
  | _ => .bad 0x001#9 false

/-- Lane class 3, LD (R54). -/
noncomputable def decLD (r : RawF) (st : BitVec 3) : Decoded :=
  match r.op.toNat with
  | 0 => rmCheck r.rm false (fun rm => if rm.isDet then .instr (.faddF64 r.d r.a r.b rm st) else .bad 0x002#9 false)
  | 1 => rmCheck r.rm false (fun rm => if rm.isDet then .instr (.fsubF64 r.d r.a r.b rm st) else .bad 0x002#9 false)
  | 2 => rmCheck r.rm false (fun rm => if rm.isDet then .instr (.fmulF64 r.d r.a r.b rm st) else .bad 0x002#9 false)
  | 3 => rmCheck r.rm false (fun rm => if rm.isDet then .instr (.ffmaF64 r.d r.a r.b rm st) else .bad 0x002#9 false)
  | 4 => rmCheck r.rm false (fun rm => if rm.isDet then .instr (.ffmsF64 r.d r.a r.b rm st) else .bad 0x002#9 false)
  | 5 => rmCheck r.rm false (fun rm => if rm.isDet then .instr (.fnmaF64 r.d r.a r.b rm st) else .bad 0x002#9 false)
  | 6 => rmCheck r.rm false (fun rm => if rm.isDet then .instr (.fminF64 r.d r.a r.b rm st) else .bad 0x002#9 false)
  | 7 => rmCheck r.rm false (fun rm => if rm.isDet then .instr (.fmaxF64 r.d r.a r.b rm st) else .bad 0x002#9 false)
  | 8 => rmCheck r.rm false (fun rm => if rm.isDet then .instr (.fdivF64 r.d r.a r.b rm st) else .bad 0x002#9 false)
  | 9 => if r.b == 0#6 then rmCheck r.rm false (fun rm => if rm.isDet then .instr (.fsqrtF64 r.d r.a rm st) else .bad 0x002#9 false) else .bad 0x001#9 false
  | 10 => if r.b == 0#6 then rmCheck r.rm false (fun rm => if rm.isDet then .instr (.frcpF64 r.d r.a rm st) else .bad 0x002#9 false) else .bad 0x001#9 false
  | 11 => if r.b == 0#6 then rmCheck r.rm false (fun rm => if rm.isDet then .instr (.frsqF64 r.d r.a rm st) else .bad 0x002#9 false) else .bad 0x001#9 false
  | 12 => if r.b == 0#6 then rmCheck r.rm false (fun rm => if rm.isDet then .instr (.fexpF64 r.d r.a rm st) else .bad 0x002#9 false) else .bad 0x001#9 false
  | 13 => if r.b == 0#6 then rmCheck r.rm false (fun rm => if rm.isDet then .instr (.fex2F64 r.d r.a rm st) else .bad 0x002#9 false) else .bad 0x001#9 false
  | 14 => if r.b == 0#6 then rmCheck r.rm false (fun rm => if rm.isDet then .instr (.flogF64 r.d r.a rm st) else .bad 0x002#9 false) else .bad 0x001#9 false
  | 15 => if r.b == 0#6 then rmCheck r.rm false (fun rm => if rm.isDet then .instr (.ferfF64 r.d r.a rm st) else .bad 0x002#9 false) else .bad 0x001#9 false
  | _ => .bad 0x001#9 false

/-- Lane class 4, LM (R55). -/
noncomputable def decLM (r : RawM) (st : BitVec 3) : Decoded :=
  match r.op.toNat with
  | 0 => if r.q == 0#1 then .instr (.ldB64 r.d r.x r.sb r.sc st) else .bad 0x001#9 false
  | 1 => if r.q == 0#1 then .instr (.stB64 r.d r.x r.sb r.sc st) else .bad 0x001#9 false
  | 2 => .instr (.ldt r.d r.x r.sb r.sc (bitB r.q) st)
  | 3 => if r.q == 0#1 then if r.q == 0#1 then .instr (.stt r.d r.x r.sb r.sc st) else .bad 0x001#9 false
      else if r.q == 1#1 then if r.q == 1#1 then .instr (.sttAon r.d r.x r.sb r.sc st) else .bad 0x001#9 false
      else .bad 0x001#9 false
  | 4 => if r.q == 1#1 then .instr (.ldgB64 r.d r.x r.sb r.sc st) else .bad 0x001#9 false
  | 5 => if r.q == 1#1 then .instr (.stgB64 r.d r.x r.sb r.sc st) else .bad 0x001#9 false
  | 6 => if r.q == 1#1 then .instr (.ldtv r.d r.x r.sb r.sc st) else .bad 0x001#9 false
  | 7 => if r.q == 1#1 then .instr (.stp r.d r.x r.sb r.sc st) else .bad 0x001#9 false
  | 8 => if r.q == 1#1 then .instr (.tst r.sc r.d r.x r.sb st) else .bad 0x001#9 false
  | 9 => if r.d == 0#6 && r.q == 1#1 then .instr (.tcom r.sc r.x r.sb st) else .bad 0x001#9 false
  | 10 => if r.d == 0#6 && r.q == 1#1 then .instr (.retr r.sc r.x r.sb st) else .bad 0x001#9 false
  | 11 => if r.d == 0#6 && r.q == 1#1 then .instr (.pref r.x r.sb r.sc st) else .bad 0x001#9 false
  | 12 => .instr (.stc r.d r.x r.sb r.sc (bitB r.q) st)
  | 13 => .instr (.lea r.d r.x r.sb r.sc (bitB r.q) st)
  | 14 => if r.q == 0#1 then if r.q == 0#1 then .instr (.ldB32 r.d r.x r.sb r.sc st) else .bad 0x001#9 false
      else if r.q == 1#1 then if r.q == 1#1 then .instr (.ldgB32 r.d r.x r.sb r.sc st) else .bad 0x001#9 false
      else .bad 0x001#9 false
  | 15 => if r.q == 0#1 then if r.q == 0#1 then .instr (.stB32 r.d r.x r.sb r.sc st) else .bad 0x001#9 false
      else if r.q == 1#1 then if r.q == 1#1 then .instr (.stgB32 r.d r.x r.sb r.sc st) else .bad 0x001#9 false
      else .bad 0x001#9 false
  | _ => .bad 0x001#9 false

/-- Lane class 5, LX (R55). -/
noncomputable def decLX (r : RawA) (st : BitVec 3) : Decoded :=
  match r.op.toNat with
  | 1 => if r.d.extractLsb' 3 3 == 0#3 then .instr (.icmpEq (r.d.extractLsb' 0 3) r.a r.b (bitB r.x) st) else .bad 0x001#9 false
  | 2 => if r.d.extractLsb' 3 3 == 0#3 then .instr (.icmpNe (r.d.extractLsb' 0 3) r.a r.b (bitB r.x) st) else .bad 0x001#9 false
  | 3 => if r.d.extractLsb' 3 3 == 0#3 then .instr (.icmpLt (r.d.extractLsb' 0 3) r.a r.b (bitB r.x) st) else .bad 0x001#9 false
  | 4 => if r.d.extractLsb' 3 3 == 0#3 then .instr (.icmpLe (r.d.extractLsb' 0 3) r.a r.b (bitB r.x) st) else .bad 0x001#9 false
  | 5 => if r.d.extractLsb' 3 3 == 0#3 then .instr (.icmpLtu (r.d.extractLsb' 0 3) r.a r.b (bitB r.x) st) else .bad 0x001#9 false
  | 6 => if r.d.extractLsb' 3 3 == 0#3 then .instr (.icmpLeu (r.d.extractLsb' 0 3) r.a r.b (bitB r.x) st) else .bad 0x001#9 false
  | 7 => if r.d.extractLsb' 3 3 == 0#3 then .instr (.fcmpEq (r.d.extractLsb' 0 3) r.a r.b (bitB r.x) st) else .bad 0x001#9 false
  | 8 => if r.d.extractLsb' 3 3 == 0#3 then .instr (.fcmpNe (r.d.extractLsb' 0 3) r.a r.b (bitB r.x) st) else .bad 0x001#9 false
  | 9 => if r.d.extractLsb' 3 3 == 0#3 then .instr (.fcmpLt (r.d.extractLsb' 0 3) r.a r.b (bitB r.x) st) else .bad 0x001#9 false
  | 10 => if r.d.extractLsb' 3 3 == 0#3 then .instr (.fcmpLe (r.d.extractLsb' 0 3) r.a r.b (bitB r.x) st) else .bad 0x001#9 false
  | 11 => if r.d.extractLsb' 3 3 == 0#3 then .instr (.fcmpUn (r.d.extractLsb' 0 3) r.a r.b (bitB r.x) st) else .bad 0x001#9 false
  | 12 => if r.b == 0#6 then .instr (.fclass r.d r.a (bitB r.x) st) else .bad 0x001#9 false
  | 13 => if r.b == 0#6 then .instr (.fabs r.d r.a (bitB r.x) st) else .bad 0x001#9 false
  | 14 => if r.b == 0#6 then .instr (.fneg r.d r.a (bitB r.x) st) else .bad 0x001#9 false
  | 15 => if r.b == 0#6 then if r.b == 0#6 then .instr (.vfroms r.d r.a (bitB r.x) st) else .bad 0x001#9 false
      else if r.b == 1#6 then if r.b == 1#6 then .instr (.vfromsIdx r.d r.a (bitB r.x) st) else .bad 0x001#9 false
      else .bad 0x001#9 false
  | 16 => if ((bitB r.x) || !r.b.getLsbD 5) then .instr (.sfromv r.d r.a r.b (bitB r.x) st) else .bad 0x001#9 false
  | 17 => .instr (.lshfl r.d r.a r.b (bitB r.x) st)
  | 18 => .instr (.lpush r.d r.a r.b (bitB r.x) st)
  | 19 => if ((bitB r.x) || !r.b.getLsbD 5) then .instr (.lbcst r.d r.a r.b (bitB r.x) st) else .bad 0x001#9 false
  | 20 => if r.b == 0#6 then if r.a.extractLsb' 3 3 == 0#3 && r.b == 0#6 && r.x == 0#1 then .instr (.lvoteBallot r.d (r.a.extractLsb' 0 3) st) else .bad 0x001#9 false
      else if r.b == 1#6 then if r.a.extractLsb' 3 3 == 0#3 && r.b == 1#6 && r.x == 0#1 then .instr (.lvoteAny r.d (r.a.extractLsb' 0 3) st) else .bad 0x001#9 false
      else if r.b == 2#6 then if r.a.extractLsb' 3 3 == 0#3 && r.b == 2#6 && r.x == 0#1 then .instr (.lvoteAll r.d (r.a.extractLsb' 0 3) st) else .bad 0x001#9 false
      else .bad 0x001#9 false
  | 21 => if r.a.extractLsb' 3 3 == 0#3 && r.b == 0#6 then .instr (.lfirst r.d (r.a.extractLsb' 0 3) (bitB r.x) st) else .bad 0x001#9 false
  | 22 => if r.d.extractLsb' 3 3 == 0#3 && r.a.extractLsb' 3 3 == 0#3 && r.b.extractLsb' 3 3 == 0#3 && r.x == 0#1 then .instr (.mopAnd (r.d.extractLsb' 0 3) (r.a.extractLsb' 0 3) (r.b.extractLsb' 0 3) st) else .bad 0x001#9 false
  | 23 => if r.d.extractLsb' 3 3 == 0#3 && r.a.extractLsb' 3 3 == 0#3 && r.b.extractLsb' 3 3 == 0#3 && r.x == 0#1 then .instr (.mopOr (r.d.extractLsb' 0 3) (r.a.extractLsb' 0 3) (r.b.extractLsb' 0 3) st) else .bad 0x001#9 false
  | 24 => if r.d.extractLsb' 3 3 == 0#3 && r.a.extractLsb' 3 3 == 0#3 && r.b.extractLsb' 3 3 == 0#3 && r.x == 0#1 then .instr (.mopXor (r.d.extractLsb' 0 3) (r.a.extractLsb' 0 3) (r.b.extractLsb' 0 3) st) else .bad 0x001#9 false
  | 25 => if r.d.extractLsb' 3 3 == 0#3 && r.a.extractLsb' 3 3 == 0#3 && r.b.extractLsb' 3 3 == 0#3 && r.x == 0#1 then .instr (.mopAndn (r.d.extractLsb' 0 3) (r.a.extractLsb' 0 3) (r.b.extractLsb' 0 3) st) else .bad 0x001#9 false
  | 26 => if r.d.extractLsb' 3 3 == 0#3 && r.a.extractLsb' 3 3 == 0#3 && r.b == 0#6 && r.x == 0#1 then .instr (.mopNot (r.d.extractLsb' 0 3) (r.a.extractLsb' 0 3) st) else .bad 0x001#9 false
  | 27 => if r.a.extractLsb' 3 3 == 0#3 && r.b == 0#6 then .instr (.mpop r.d (r.a.extractLsb' 0 3) (bitB r.x) st) else .bad 0x001#9 false
  | 28 => if r.a == 0#6 && tagsetOk r.d r.b (bitB r.x) then .instr (.tagset r.d r.b (bitB r.x) st) else .bad 0x001#9 false
  | 29 => if !bitB r.x then if r.d.extractLsb' 3 3 == 0#3 && r.b == 0#6 && r.x == 0#1 then .instr (.tagrd (r.d.extractLsb' 0 3) r.a st) else .bad 0x001#9 false
      else if bitB r.x then if r.d.extractLsb' 3 3 == 0#3 && r.b.extractLsb' 1 5 == 0#5 && r.x == 1#1 then .instr (.tagrdLine (r.d.extractLsb' 0 3) r.a (bitB (r.b.extractLsb' 0 1)) st) else .bad 0x001#9 false
      else .bad 0x001#9 false
  | 30 => if r.b == 0#6 then if r.d == 0#6 && r.a == 0#6 && r.b == 0#6 && r.x == 0#1 then .instr (.cureRst st) else .bad 0x001#9 false
      else if r.b == 1#6 then if r.a == 0#6 && r.b == 1#6 && r.x == 0#1 then .instr (.cureRstRdlast r.d st) else .bad 0x001#9 false
      else if r.b == 2#6 then if r.a == 0#6 && r.b == 2#6 && r.x == 0#1 then .instr (.cureRstRdcnt r.d st) else .bad 0x001#9 false
      else .bad 0x001#9 false
  | 31 => if r.a == 0#6 && r.b == 0#6 && r.x == 0#1 then .instr (.fxrd r.d st) else .bad 0x001#9 false
  | 32 => if r.d == 0#6 && r.a == 0#6 && r.b.extractLsb' 5 1 == 0#1 && r.x == 0#1 then .instr (.fxclr (r.b.extractLsb' 0 5) st) else .bad 0x001#9 false
  | _ => .bad 0x001#9 false

/-- Lane class 6, LE (R56). -/
noncomputable def decLE (r : RawE) (st : BitVec 3) : Decoded :=
  match r.op.toNat with
  | 1 =>
      let e := RawEm.ofBits r.rest
      if e.x == 0#6 && e.y == 0#6 && e.z == 0#3 then .instr (.accz e.bank st) else .bad 0x001#9 false
  | 2 =>
      let e := RawEm.ofBits r.rest
      if e.z == 0#3 then if e.z == 0#3 then .instr (.mmaC e.bank e.x e.y st) else .bad 0x001#9 false
      else if e.z == 4#3 then if e.z == 4#3 then .instr (.mmaQ e.bank e.x e.y st) else .bad 0x001#9 false
      else .bad 0x001#9 false
  | 3 =>
      let e := RawEm.ofBits r.rest
      if e.z == 0#3 then .instr (.mmas e.bank e.x e.y st) else .bad 0x001#9 false
  | 4 =>
      let e := RawEm.ofBits r.rest
      if e.z == 0#3 then .instr (.dist e.bank e.x e.y st) else .bad 0x001#9 false
  | 5 =>
      let e := RawEm.ofBits r.rest
      if e.y.extractLsb' 0 3 == 0#3 && e.z == 0#3 then .instr (.topk e.bank e.x (e.y.extractLsb' 4 2) (bitB (e.y.extractLsb' 3 1)) st) else .bad 0x001#9 false
  | 6 =>
      let e := RawEm.ofBits r.rest
      if e.z == 0#3 && evenPair e.y then .instr (.accrd e.bank e.x e.y st) else .bad 0x001#9 false
  | 7 =>
      let e := RawEm.ofBits r.rest
      if e.x == 0#6 && e.z == 0#3 && evenPair e.y then .instr (.accwb e.bank e.y st) else .bad 0x001#9 false
  | 8 =>
      let e := RawEm.ofBits r.rest
      if e.z == 0#3 then .instr (.accadj e.bank e.x e.y st) else .bad 0x001#9 false
  | 9 =>
      let e := RawEm.ofBits r.rest
      if e.z == 0#3 && (decide (1 ≤ e.x.toNat) && decide (e.x.toNat ≤ 61) && decide (e.y.toNat ≤ 61)) then .instr (.accchk e.bank e.x e.y st) else .bad 0x001#9 false
  | 10 =>
      let e := RawEt.ofBits r.rest
      if e.z == 0#3 && decide (e.first.toNat + e.n.toNat ≤ 63) then .instr (.tapeRec e.first e.n e.lbl st) else .bad 0x001#9 false
  | 11 =>
      let e := RawEb.ofBits r.rest
      if e.r == 0#5 && e.z == 0#3 then .instr (.tapeBr e.m e.lbl st) else .bad 0x001#9 false
  | 12 =>
      let e := RawEt.ofBits r.rest
      if e.z == 0#3 && decide (e.first.toNat + e.n.toNat ≤ 63) then .instr (.tapePop e.first e.n e.lbl st) else .bad 0x001#9 false
  | 13 =>
      let e := RawEb.ofBits r.rest
      if e.r == 0#5 && e.z == 0#3 then .instr (.tapePopbr e.m e.lbl st) else .bad 0x001#9 false
  | _ => .bad 0x001#9 false

/-- Op 0x00 of Lane class 7, LW (R56). -/
noncomputable def decLW00 (r : RawA) (p : IWord) (st : BitVec 3) : Decoded :=
  let mem := PayMem.ofBits p
  if r.x == 0#1 then .instr (.ldB64Disp r.d r.a r.b mem.sc mem.disp st) else .bad 0x001#9 true

/-- Op 0x01 of Lane class 7, LW (R56). -/
noncomputable def decLW01 (r : RawA) (p : IWord) (st : BitVec 3) : Decoded :=
  let mem := PayMem.ofBits p
  if r.x == 0#1 then .instr (.stB64Disp r.d r.a r.b mem.sc mem.disp st) else .bad 0x001#9 true

/-- Op 0x02 of Lane class 7, LW (R56). -/
noncomputable def decLW02 (r : RawA) (p : IWord) (st : BitVec 3) : Decoded :=
  let mem := PayMem.ofBits p
  .instr (.ldtDisp r.d r.a r.b mem.sc mem.disp (bitB r.x) st)

/-- Op 0x03 of Lane class 7, LW (R56). -/
noncomputable def decLW03 (r : RawA) (p : IWord) (st : BitVec 3) : Decoded :=
  let mem := PayMem.ofBits p
  if r.x == 0#1 then if r.x == 0#1 then .instr (.sttDisp r.d r.a r.b mem.sc mem.disp st) else .bad 0x001#9 true
      else if r.x == 1#1 then if r.x == 1#1 then .instr (.sttAonDisp r.d r.a r.b mem.sc mem.disp st) else .bad 0x001#9 true
      else .bad 0x001#9 true

/-- Op 0x04 of Lane class 7, LW (R56). -/
noncomputable def decLW04 (r : RawA) (p : IWord) (st : BitVec 3) : Decoded :=
  let mem := PayMem.ofBits p
  if r.x == 1#1 then .instr (.ldgB64Disp r.d r.a r.b mem.sc mem.disp st) else .bad 0x001#9 true

/-- Op 0x05 of Lane class 7, LW (R56). -/
noncomputable def decLW05 (r : RawA) (p : IWord) (st : BitVec 3) : Decoded :=
  let mem := PayMem.ofBits p
  if r.x == 1#1 then .instr (.stgB64Disp r.d r.a r.b mem.sc mem.disp st) else .bad 0x001#9 true

/-- Op 0x06 of Lane class 7, LW (R56). -/
noncomputable def decLW06 (r : RawA) (p : IWord) (st : BitVec 3) : Decoded :=
  let mem := PayMem.ofBits p
  if r.x == 1#1 then .instr (.ldtvDisp r.d r.a r.b mem.sc mem.disp st) else .bad 0x001#9 true

/-- Op 0x07 of Lane class 7, LW (R56). -/
noncomputable def decLW07 (r : RawA) (p : IWord) (st : BitVec 3) : Decoded :=
  let mem := PayMem.ofBits p
  if r.x == 1#1 then .instr (.stpDisp r.d r.a r.b mem.sc mem.disp st) else .bad 0x001#9 true

/-- Op 0x08 of Lane class 7, LW (R56). -/
noncomputable def decLW08 (r : RawA) (p : IWord) (st : BitVec 3) : Decoded :=
  let mem := PayMem.ofBits p
  if r.x == 1#1 then .instr (.tstDisp mem.sc r.d r.a r.b mem.disp st) else .bad 0x001#9 true

/-- Op 0x09 of Lane class 7, LW (R56). -/
noncomputable def decLW09 (r : RawA) (p : IWord) (st : BitVec 3) : Decoded :=
  let mem := PayMem.ofBits p
  if r.d == 0#6 && r.x == 1#1 then .instr (.tcomDisp mem.sc r.a r.b mem.disp st) else .bad 0x001#9 true

/-- Op 0x0A of Lane class 7, LW (R56). -/
noncomputable def decLW0A (r : RawA) (p : IWord) (st : BitVec 3) : Decoded :=
  let mem := PayMem.ofBits p
  if r.d == 0#6 && r.x == 1#1 then .instr (.retrDisp mem.sc r.a r.b mem.disp st) else .bad 0x001#9 true

/-- Op 0x0B of Lane class 7, LW (R56). -/
noncomputable def decLW0B (r : RawA) (p : IWord) (st : BitVec 3) : Decoded :=
  let mem := PayMem.ofBits p
  if r.d == 0#6 && r.x == 1#1 then .instr (.prefDisp r.a r.b mem.sc mem.disp st) else .bad 0x001#9 true

/-- Op 0x0C of Lane class 7, LW (R56). -/
noncomputable def decLW0C (r : RawA) (p : IWord) (st : BitVec 3) : Decoded :=
  let mem := PayMem.ofBits p
  .instr (.stcDisp r.d r.a r.b mem.sc mem.disp (bitB r.x) st)

/-- Op 0x0D of Lane class 7, LW (R56). -/
noncomputable def decLW0D (r : RawA) (p : IWord) (st : BitVec 3) : Decoded :=
  let mem := PayMem.ofBits p
  .instr (.leaDisp r.d r.a r.b mem.sc mem.disp (bitB r.x) st)

/-- Op 0x0E of Lane class 7, LW (R56). -/
noncomputable def decLW0E (r : RawA) (p : IWord) (st : BitVec 3) : Decoded :=
  let mem := PayMem.ofBits p
  if r.x == 0#1 then if r.x == 0#1 then .instr (.ldB32Disp r.d r.a r.b mem.sc mem.disp st) else .bad 0x001#9 true
      else if r.x == 1#1 then if r.x == 1#1 then .instr (.ldgB32Disp r.d r.a r.b mem.sc mem.disp st) else .bad 0x001#9 true
      else .bad 0x001#9 true

/-- Op 0x0F of Lane class 7, LW (R56). -/
noncomputable def decLW0F (r : RawA) (p : IWord) (st : BitVec 3) : Decoded :=
  let mem := PayMem.ofBits p
  if r.x == 0#1 then if r.x == 0#1 then .instr (.stB32Disp r.d r.a r.b mem.sc mem.disp st) else .bad 0x001#9 true
      else if r.x == 1#1 then if r.x == 1#1 then .instr (.stgB32Disp r.d r.a r.b mem.sc mem.disp st) else .bad 0x001#9 true
      else .bad 0x001#9 true

/-- Op 0x10 of Lane class 7, LW (R56). -/
noncomputable def decLW10 (r : RawA) (p : IWord) (st : BitVec 3) : Decoded :=
  if r.b == 0#6 && r.x == 0#1 then .instr (.iaddI64Imm32 r.d r.a p st) else .bad 0x001#9 true

/-- Op 0x11 of Lane class 7, LW (R56). -/
noncomputable def decLW11 (r : RawA) (p : IWord) (st : BitVec 3) : Decoded :=
  if r.b == 0#6 && r.x == 0#1 then .instr (.iaddI32Imm32 r.d r.a p st) else .bad 0x001#9 true

/-- Op 0x12 of Lane class 7, LW (R56). -/
noncomputable def decLW12 (r : RawA) (p : IWord) (st : BitVec 3) : Decoded :=
  if r.b == 0#6 && r.x == 0#1 then .instr (.imulI64Imm32 r.d r.a p st) else .bad 0x001#9 true

/-- Op 0x13 of Lane class 7, LW (R56). -/
noncomputable def decLW13 (r : RawA) (p : IWord) (st : BitVec 3) : Decoded :=
  if r.b == 0#6 && r.x == 0#1 then .instr (.imulI32Imm32 r.d r.a p st) else .bad 0x001#9 true

/-- Op 0x14 of Lane class 7, LW (R56). -/
noncomputable def decLW14 (r : RawA) (p : IWord) (st : BitVec 3) : Decoded :=
  if r.b == 0#6 && r.x == 0#1 then .instr (.andB64Imm32 r.d r.a p st) else .bad 0x001#9 true

/-- Op 0x15 of Lane class 7, LW (R56). -/
noncomputable def decLW15 (r : RawA) (p : IWord) (st : BitVec 3) : Decoded :=
  if r.b == 0#6 && r.x == 0#1 then .instr (.orB64Imm32 r.d r.a p st) else .bad 0x001#9 true

/-- Op 0x16 of Lane class 7, LW (R56). -/
noncomputable def decLW16 (r : RawA) (p : IWord) (st : BitVec 3) : Decoded :=
  if r.b == 0#6 && r.x == 0#1 then .instr (.xorB64Imm32 r.d r.a p st) else .bad 0x001#9 true

/-- Op 0x17 of Lane class 7, LW (R56). -/
noncomputable def decLW17 (r : RawA) (p : IWord) (st : BitVec 3) : Decoded :=
  if r.b == 0#6 && r.x == 0#1 then .instr (.shlB64Imm32 r.d r.a p st) else .bad 0x001#9 true

/-- Op 0x18 of Lane class 7, LW (R56). -/
noncomputable def decLW18 (r : RawA) (p : IWord) (st : BitVec 3) : Decoded :=
  if r.b == 0#6 && r.x == 0#1 then .instr (.shrN64Imm32 r.d r.a p st) else .bad 0x001#9 true

/-- Op 0x19 of Lane class 7, LW (R56). -/
noncomputable def decLW19 (r : RawA) (p : IWord) (st : BitVec 3) : Decoded :=
  if r.b == 0#6 && r.x == 0#1 then .instr (.sarI64Imm32 r.d r.a p st) else .bad 0x001#9 true

/-- Op 0x1A of Lane class 7, LW (R56). -/
noncomputable def decLW1A (r : RawA) (p : IWord) (st : BitVec 3) : Decoded :=
  if r.a == 0#6 && r.b == 0#6 && r.x == 0#1 then .instr (.moviI64Imm32 r.d p st) else .bad 0x001#9 true

/-- Op 0x1B of Lane class 7, LW (R56). -/
noncomputable def decLW1B (r : RawA) (p : IWord) (st : BitVec 3) : Decoded :=
  if r.a == 0#6 && r.b == 0#6 && r.x == 0#1 then .instr (.moviN64Imm32 r.d p st) else .bad 0x001#9 true

/-- Op 0x1C of Lane class 7, LW (R56). -/
noncomputable def decLW1C (r : RawA) (p : IWord) (st : BitVec 3) : Decoded :=
  if r.a == 0#6 && r.b == 0#6 && r.x == 0#1 then .instr (.moviI32Imm32 r.d p st) else .bad 0x001#9 true

/-- Op 0x1D of Lane class 7, LW (R56). -/
noncomputable def decLW1D (r : RawA) (p : IWord) (st : BitVec 3) : Decoded :=
  if r.b == 0#6 && r.x == 0#1 then .instr (.iminI64Imm32 r.d r.a p st) else .bad 0x001#9 true

/-- Op 0x1E of Lane class 7, LW (R56). -/
noncomputable def decLW1E (r : RawA) (p : IWord) (st : BitVec 3) : Decoded :=
  if r.b == 0#6 && r.x == 0#1 then .instr (.imaxI64Imm32 r.d r.a p st) else .bad 0x001#9 true

/-- Op 0x20 of Lane class 7, LW (R56). -/
noncomputable def decLW20 (r : RawA) (p : IWord) (st : BitVec 3) : Decoded :=
  let opx := PayOpx.ofBits p
  codeCheck (Ty.ofCode opx.t1) true (fun ty => if r.b == 0#6 && r.x == 0#1 && opx.c == 0#6 && opx.rm == 0#3 && opx.t2 == 0#5 && opx.lo.extractLsb' 12 1 == 0#1 && (ty.isInOrNat && bfOk ty (opx.lo.extractLsb' 6 6) (opx.lo.extractLsb' 0 6)) then .instr (.bfx r.d r.a (opx.lo.extractLsb' 6 6) (opx.lo.extractLsb' 0 6) ty st) else .bad 0x001#9 true)

/-- Op 0x21 of Lane class 7, LW (R56). -/
noncomputable def decLW21 (r : RawA) (p : IWord) (st : BitVec 3) : Decoded :=
  let opx := PayOpx.ofBits p
  codeCheck (Ty.ofCode opx.t1) true (fun ty => if r.b == 0#6 && r.x == 0#1 && opx.c == 0#6 && opx.rm == 0#3 && opx.t2 == 0#5 && opx.lo.extractLsb' 12 1 == 0#1 && (ty.isBits && bfOk ty (opx.lo.extractLsb' 6 6) (opx.lo.extractLsb' 0 6)) then .instr (.bfi r.d r.a (opx.lo.extractLsb' 6 6) (opx.lo.extractLsb' 0 6) ty st) else .bad 0x001#9 true)

/-- Op 0x22 of Lane class 7, LW (R56). -/
noncomputable def decLW22 (r : RawA) (p : IWord) (st : BitVec 3) : Decoded :=
  let opx := PayOpx.ofBits p
  codeCheck (Ty.ofCode opx.t1) true (fun ty => if r.x == 0#1 && opx.c.extractLsb' 3 3 == 0#3 && opx.rm == 0#3 && opx.t2 == 0#5 && opx.lo == 0#13 && ty.isInt then .instr (.sel r.d r.a r.b (opx.c.extractLsb' 0 3) ty st) else .bad 0x001#9 true)

/-- Op 0x23 of Lane class 7, LW (R56). -/
noncomputable def decLW23 (r : RawA) (p : IWord) (st : BitVec 3) : Decoded :=
  let opx := PayOpx.ofBits p
  codeCheck (Ty.ofCode opx.t1) true (fun t1 => codeCheck (Ty.ofCode opx.t2) true (fun t2 => if r.b == 0#6 && r.x == 0#1 && opx.lo.extractLsb' 0 12 == 0#12 && cvtOk t1 t2 opx.c (bitB (opx.lo.extractLsb' 12 1)) then rmCheck opx.rm true (fun rm => .instr (.cvt r.d r.a opx.c rm t1 t2 (bitB (opx.lo.extractLsb' 12 1)) st)) else .bad 0x001#9 true))

/-- Op 0x24 of Lane class 7, LW (R56). -/
noncomputable def decLW24 (r : RawA) (p : IWord) (st : BitVec 3) : Decoded :=
  let opx := PayOpx.ofBits p
  codeCheck (Ty.ofCode opx.t1) true (fun t1 => codeCheck (Ty.ofCode opx.t2) true (fun t2 => if r.x == 0#1 && opx.c == 0#6 && opx.lo.extractLsb' 0 12 == 0#12 && cvtnOk t1 t2 (bitB (opx.lo.extractLsb' 12 1)) then rmCheck opx.rm true (fun rm => .instr (.cvtn r.d r.a r.b rm t1 t2 (bitB (opx.lo.extractLsb' 12 1)) st)) else .bad 0x001#9 true))

/-- Op 0x25 of Lane class 7, LW (R56). -/
noncomputable def decLW25 (r : RawA) (p : IWord) (st : BitVec 3) : Decoded :=
  let opx := PayOpx.ofBits p
  codeCheck (Ty.ofCode opx.t1) true (fun t1 => codeCheck (Ty.ofCode opx.t2) true (fun t2 => if r.x == 0#1 && opx.c == 0#6 && opx.lo.extractLsb' 0 8 == 0#8 && packOk t1 t2 (bitB (opx.lo.extractLsb' 12 1)) (opx.lo.extractLsb' 8 4) then rmCheck opx.rm true (fun rm => .instr (.packhb r.d r.a r.b rm t1 t2 (bitB (opx.lo.extractLsb' 12 1)) (opx.lo.extractLsb' 8 4) st)) else .bad 0x001#9 true))

/-- Op 0x26 of Lane class 7, LW (R56). -/
noncomputable def decLW26 (r : RawA) (p : IWord) (st : BitVec 3) : Decoded :=
  let opx := PayOpx.ofBits p
  codeCheck (Ty.ofCode opx.t1) true (fun ty => if r.b == 0#6 && r.x == 0#1 && opx.c == 0#6 && opx.t2 == 0#5 && opx.lo == 0#13 && ty.isFloat then rmCheck opx.rm true (fun rm => if rm.isDet then .instr (.flg2 r.d r.a rm ty st) else .bad 0x002#9 true) else .bad 0x001#9 true)

/-- Op 0x27 of Lane class 7, LW (R56). -/
noncomputable def decLW27 (r : RawA) (p : IWord) (st : BitVec 3) : Decoded :=
  let opx := PayOpx.ofBits p
  codeCheck (Ty.ofCode opx.t1) true (fun ty => if r.x == 0#1 && opx.c == 0#6 && opx.t2 == 0#5 && opx.lo == 0#13 && ty.isFloat then rmCheck opx.rm true (fun rm => if rm.isDet then .instr (.fscale r.d r.a r.b rm ty st) else .bad 0x002#9 true) else .bad 0x001#9 true)

/-- Op 0x28 of Lane class 7, LW (R56). -/
noncomputable def decLW28 (r : RawA) (p : IWord) (st : BitVec 3) : Decoded :=
  let opx := PayOpx.ofBits p
  codeCheck (Ty.ofCode opx.t1) true (fun ty => if r.x == 0#1 && opx.rm == 0#3 && opx.t2 == 0#5 && opx.lo == 0#13 && ty.isFloat then .instr (.ftwos r.d r.a r.b opx.c ty st) else .bad 0x001#9 true)

/-- Op 0x29 of Lane class 7, LW (R56). -/
noncomputable def decLW29 (r : RawA) (p : IWord) (st : BitVec 3) : Decoded :=
  let opx := PayOpx.ofBits p
  codeCheck (Ty.ofCode opx.t1) true (fun ty => if r.x == 0#1 && opx.rm == 0#3 && opx.t2 == 0#5 && opx.lo == 0#13 && ty.isFloat then .instr (.ftwop r.d r.a r.b opx.c ty st) else .bad 0x001#9 true)

/-- Op 0x2A of Lane class 7, LW (R56). -/
noncomputable def decLW2A (r : RawA) (p : IWord) (st : BitVec 3) : Decoded :=
  let opx := PayOpx.ofBits p
  codeCheck (Ty.ofCode opx.t1) true (fun ty => if r.b == 0#6 && r.x == 0#1 && opx.c == 0#6 && opx.t2 == 0#5 && opx.lo == 0#13 && ty.isFloat then rmCheck opx.rm true (fun rm => if rm.isDet then .instr (.frnd r.d r.a rm ty st) else .bad 0x002#9 true) else .bad 0x001#9 true)

/-- Op 0x2B of Lane class 7, LW (R56). -/
noncomputable def decLW2B (r : RawA) (p : IWord) (st : BitVec 3) : Decoded :=
  let opx := PayOpx.ofBits p
  codeCheck (Ty.ofCode opx.t1) true (fun ty => codeCheck (RedOp.ofCode ((opx.lo.extractLsb' 10 3))) true (fun op => if r.b == 0#6 && r.x == 0#1 && opx.c == 0#6 && (redRounds op ty || opx.rm == 0#3) && opx.t2 == 0#5 && opx.lo.extractLsb' 0 10 == 0#10 && (redOk op ty && (redRounds op ty || opx.rm == 0#3)) then rmCheck opx.rm true (fun rm => if rm.isDet then .instr (.lred r.d r.a op rm ty st) else .bad 0x002#9 true) else .bad 0x001#9 true))

/-- Op 0x2C of Lane class 7, LW (R56). -/
noncomputable def decLW2C (r : RawA) (p : IWord) (st : BitVec 3) : Decoded :=
  let opx := PayOpx.ofBits p
  codeCheck (Ty.ofCode opx.t1) true (fun ty => codeCheck (RedOp.ofCode ((opx.lo.extractLsb' 10 3))) true (fun op => if r.b == 0#6 && r.x == 0#1 && opx.c == 0#6 && (redRounds op ty || opx.rm == 0#3) && opx.t2 == 0#5 && opx.lo.extractLsb' 0 9 == 0#9 && (redOk op ty && (redRounds op ty || opx.rm == 0#3)) then rmCheck opx.rm true (fun rm => if rm.isDet then .instr (.lscan r.d r.a op (bitB (opx.lo.extractLsb' 9 1)) rm ty st) else .bad 0x002#9 true) else .bad 0x001#9 true))

/-- Op 0x2D of Lane class 7, LW (R56). -/
noncomputable def decLW2D (r : RawA) (p : IWord) (st : BitVec 3) : Decoded :=
  let opx := PayOpx.ofBits p
  codeCheck (Ty.ofCode opx.t1) true (fun ty => codeCheck (AtomOp.ofCode ((opx.lo.extractLsb' 9 4))) true (fun op => codeCheck (Scope.ofCode ((opx.lo.extractLsb' 4 3))) true (fun sp => if r.x == 0#1 && (atomRounds op ty || opx.rm == 0#3) && opx.t2 == 0#5 && opx.lo.extractLsb' 0 4 == 0#4 && (atomOk op ty && (op != .cas || opx.c != 63#6) && (atomRounds op ty || opx.rm == 0#3) && sp != .lane) then rmCheck opx.rm true (fun rm => if rm.isDet then .instr (.atom r.d r.a r.b opx.c op ty rm (opx.lo.extractLsb' 7 2) sp st) else .bad 0x002#9 true) else .bad 0x001#9 true)))

/-- Op 0x2E of Lane class 7, LW (R56). -/
noncomputable def decLW2E (r : RawA) (p : IWord) (st : BitVec 3) : Decoded :=
  let opx := PayOpx.ofBits p
  codeCheck (Ty.ofCode opx.t1) true (fun ty => codeCheck (AtomOp.ofCode ((opx.lo.extractLsb' 9 4))) true (fun op => codeCheck (Scope.ofCode ((opx.lo.extractLsb' 4 3))) true (fun sp => if r.d == 0#6 && r.x == 0#1 && (atomRounds op ty || opx.rm == 0#3) && opx.t2 == 0#5 && opx.lo.extractLsb' 0 4 == 0#4 && (atomOk op ty && op != .exch && op != .cas && (atomRounds op ty || opx.rm == 0#3) && sp != .lane) then rmCheck opx.rm true (fun rm => if rm.isDet then .instr (.red r.a r.b opx.c op ty rm (opx.lo.extractLsb' 7 2) sp st) else .bad 0x002#9 true) else .bad 0x001#9 true)))

/-- Op 0x2F of Lane class 7, LW (R56). -/
noncomputable def decLW2F (r : RawA) (p : IWord) (st : BitVec 3) : Decoded :=
  let opx := PayOpx.ofBits p
  codeCheck (Ty.ofCode opx.t1) true (fun ty => if r.x == 0#1 && opx.t2 == 0#5 && opx.lo.extractLsb' 0 6 == 0#6 && (ty.isFloat && evenPair (opx.lo.extractLsb' 6 6) && (ty == .f32 || (!(bitB (opx.lo.extractLsb' 12 1)) && r.b != 63#6))) then rmCheck opx.rm true (fun rm => if rm.isDet then .instr (.cure r.d r.a r.b opx.c rm ty (bitB (opx.lo.extractLsb' 12 1)) (opx.lo.extractLsb' 6 6) st) else .bad 0x002#9 true) else .bad 0x001#9 true)

/-- Lane class 7, LW (R56). -/
noncomputable def decLW (r : RawA) (p : IWord) (st : BitVec 3) : Decoded :=
  match r.op.toNat with
  | 0x00 => decLW00 r p st
  | 0x01 => decLW01 r p st
  | 0x02 => decLW02 r p st
  | 0x03 => decLW03 r p st
  | 0x04 => decLW04 r p st
  | 0x05 => decLW05 r p st
  | 0x06 => decLW06 r p st
  | 0x07 => decLW07 r p st
  | 0x08 => decLW08 r p st
  | 0x09 => decLW09 r p st
  | 0x0A => decLW0A r p st
  | 0x0B => decLW0B r p st
  | 0x0C => decLW0C r p st
  | 0x0D => decLW0D r p st
  | 0x0E => decLW0E r p st
  | 0x0F => decLW0F r p st
  | 0x10 => decLW10 r p st
  | 0x11 => decLW11 r p st
  | 0x12 => decLW12 r p st
  | 0x13 => decLW13 r p st
  | 0x14 => decLW14 r p st
  | 0x15 => decLW15 r p st
  | 0x16 => decLW16 r p st
  | 0x17 => decLW17 r p st
  | 0x18 => decLW18 r p st
  | 0x19 => decLW19 r p st
  | 0x1A => decLW1A r p st
  | 0x1B => decLW1B r p st
  | 0x1C => decLW1C r p st
  | 0x1D => decLW1D r p st
  | 0x1E => decLW1E r p st
  | 0x20 => decLW20 r p st
  | 0x21 => decLW21 r p st
  | 0x22 => decLW22 r p st
  | 0x23 => decLW23 r p st
  | 0x24 => decLW24 r p st
  | 0x25 => decLW25 r p st
  | 0x26 => decLW26 r p st
  | 0x27 => decLW27 r p st
  | 0x28 => decLW28 r p st
  | 0x29 => decLW29 r p st
  | 0x2A => decLW2A r p st
  | 0x2B => decLW2B r p st
  | 0x2C => decLW2C r p st
  | 0x2D => decLW2D r p st
  | 0x2E => decLW2E r p st
  | 0x2F => decLW2F r p st
  | _ => .bad 0x001#9 true

/-- Uniform class 0, UI (R57). -/
noncomputable def decUI (r : RawA) (st : BitVec 3) : Decoded :=
  match r.op.toNat with
  | 1 => .instr (.sadd r.d r.a r.b (bitB r.x) st)
  | 2 => .instr (.ssub r.d r.a r.b (bitB r.x) st)
  | 3 => .instr (.smul r.d r.a r.b (bitB r.x) st)
  | 4 => .instr (.sand r.d r.a r.b (bitB r.x) st)
  | 5 => .instr (.sor r.d r.a r.b (bitB r.x) st)
  | 6 => .instr (.sxor r.d r.a r.b (bitB r.x) st)
  | 7 => .instr (.sshl r.d r.a r.b (bitB r.x) st)
  | 8 => .instr (.sshr r.d r.a r.b (bitB r.x) st)
  | 9 => .instr (.ssar r.d r.a r.b (bitB r.x) st)
  | 10 => .instr (.smin r.d r.a r.b (bitB r.x) st)
  | 11 => .instr (.smax r.d r.a r.b (bitB r.x) st)
  | 12 => .instr (.sminUnsigned r.d r.a r.b (bitB r.x) st)
  | 13 => .instr (.smaxUnsigned r.d r.a r.b (bitB r.x) st)
  | 14 => .instr (.ssel r.d r.a r.b (bitB r.x) st)
  | 15 => if r.b == 0#6 then .instr (.smov r.d r.a (bitB r.x) st) else .bad 0x001#9 false
  | 16 => .instr (.slea r.d r.a r.b (bitB r.x) st)
  | 17 => .instr (.scmpEq r.d r.a r.b (bitB r.x) st)
  | 18 => .instr (.scmpNe r.d r.a r.b (bitB r.x) st)
  | 19 => .instr (.scmpLt r.d r.a r.b (bitB r.x) st)
  | 20 => .instr (.scmpLe r.d r.a r.b (bitB r.x) st)
  | 21 => .instr (.scmpLtu r.d r.a r.b (bitB r.x) st)
  | 22 => .instr (.scmpLeu r.d r.a r.b (bitB r.x) st)
  | _ => .bad 0x001#9 false

/-- Uniform class 1, UK (R57). -/
noncomputable def decUK (r : RawK) (st : BitVec 3) : Decoded :=
  match r.op.toNat with
  | 0 => .instr (.saddI64Imm9 r.d r.a r.imm st)
  | 1 => .instr (.smulI64Imm9 r.d r.a r.imm st)
  | 2 => .instr (.sandB64Imm9 r.d r.a r.imm st)
  | 3 => .instr (.sorB64Imm9 r.d r.a r.imm st)
  | 4 => .instr (.sxorB64Imm9 r.d r.a r.imm st)
  | 5 => .instr (.sshlB64Imm9 r.d r.a r.imm st)
  | 6 => .instr (.sshrN64Imm9 r.d r.a r.imm st)
  | 7 => .instr (.ssarI64Imm9 r.d r.a r.imm st)
  | 8 => .instr (.sminI64Imm9 r.d r.a r.imm st)
  | 9 => .instr (.smaxI64Imm9 r.d r.a r.imm st)
  | 10 => .instr (.sminN64Imm9 r.d r.a r.imm st)
  | 11 => .instr (.smaxN64Imm9 r.d r.a r.imm st)
  | 12 => if r.a == 0#6 then .instr (.smoviI64 r.d r.imm st) else .bad 0x001#9 false
  | 13 => if r.a == 0#6 then .instr (.smoviN64 r.d r.imm st) else .bad 0x001#9 false
  | _ => .bad 0x001#9 false

/-- Uniform class 2, UB (R57). -/
noncomputable def decUB (r : RawB) (st : BitVec 3) : Decoded :=
  match r.op.toNat with
  | 0 => if r.c == 0#6 then .instr (.bra r.off st) else .bad 0x001#9 false
  | 1 => .instr (.brc (bitB (r.c.extractLsb' 5 1)) (r.c.extractLsb' 0 5) r.off st)
  | 2 => if r.c.extractLsb' 4 2 == 0#2 then .instr (.brl (bitB (r.c.extractLsb' 3 1)) (r.c.extractLsb' 0 3) r.off st) else .bad 0x001#9 false
  | 3 => if r.c == 0#6 then .instr (.call r.off st) else .bad 0x001#9 false
  | 4 => if r.c == 0#6 && r.off == 0#15 then .instr (.ret st) else .bad 0x001#9 false
  | 5 => if r.c == 0#6 && r.off == 0#15 then .instr (.join st) else .bad 0x001#9 false
  | 6 => if r.c == 0#6 && r.off == 0#15 then .instr (.yield st) else .bad 0x001#9 false
  | 7 => if r.c == 0#6 && r.off == 0#15 then .instr (.exit st) else .bad 0x001#9 false
  | 8 => if r.c == 0#6 && r.off == 0#15 then .instr (.land st) else .bad 0x001#9 false
  | 9 => if r.off == 0#15 then .instr (.jmpiUniform r.c st) else .bad 0x001#9 false
  | 10 => if r.off == 0#15 then .instr (.jmpiLane r.c st) else .bad 0x001#9 false
  | _ => .bad 0x001#9 false

/-- Uniform class 3, US (R57). -/
noncomputable def decUS (r : RawS) (st : BitVec 3) : Decoded :=
  match r.op.toNat with
  | 1 => codeCheck (Scope.ofCode r.sp) false (fun sp => if ((r.a == 0#6 || r.k == 0#5) && sp != .lane) then .instr (.barInit r.d r.a r.k sp st) else .bad 0x001#9 false)
  | 2 => codeCheck (Scope.ofCode r.sp) false (fun sp => if r.d == 0#6 && ((r.a == 0#6 || r.k == 0#5) && sp != .lane) then .instr (.barArr r.a r.k sp st) else .bad 0x001#9 false)
  | 3 => codeCheck (Scope.ofCode r.sp) false (fun sp => if ((r.a == 0#6 || r.k == 0#5) && sp != .lane) then .instr (.barWait r.d r.a r.k sp st) else .bad 0x001#9 false)
  | 4 => codeCheck (Scope.ofCode r.sp) false (fun sp => if ((r.a == 0#6 || r.k == 0#5) && sp != .lane) then .instr (.barSync (bitB (r.d.extractLsb' 5 1)) (r.d.extractLsb' 0 5) r.a r.k sp st) else .bad 0x001#9 false)
  | 5 => codeCheck (Scope.ofCode r.sp) false (fun sp => if ((r.a == 0#6 || r.k == 0#5) && sp != .lane) then .instr (.barQ r.d r.a r.k sp st) else .bad 0x001#9 false)
  | 6 => if r.sp == 0#3 && (r.a == 0#6 || r.k == 0#5) then .instr (.semInit r.d r.a r.k st) else .bad 0x001#9 false
  | 7 => codeCheck (Scope.ofCode r.sp) false (fun sp => if ((r.a == 0#6 || r.k == 0#5) && sp.isSem) then .instr (.semAcq r.d r.a r.k sp st) else .bad 0x001#9 false)
  | 8 => codeCheck (Scope.ofCode r.sp) false (fun sp => if r.d == 0#6 && ((r.a == 0#6 || r.k == 0#5) && sp.isSem) then .instr (.semRel r.a r.k sp st) else .bad 0x001#9 false)
  | 9 => codeCheck (Scope.ofCode r.sp) false (fun sp => if ((r.a == 0#6 || r.k == 0#5) && sp.isSem) then .instr (.semTry r.d r.a r.k sp st) else .bad 0x001#9 false)
  | 10 => if r.d == 0#6 && r.sp == 0#3 && (r.a == 0#6 || r.k == 0#5) then .instr (.hodInit r.a r.k st) else .bad 0x001#9 false
  | 11 => if r.sp == 0#3 && (r.a == 0#6 || r.k == 0#5) then .instr (.hodPut r.d r.a r.k st) else .bad 0x001#9 false
  | 12 => if r.sp == 0#3 && (r.a == 0#6 || r.k == 0#5) then .instr (.hodGet r.d r.a r.k st) else .bad 0x001#9 false
  | 13 => if r.sp == 0#3 && (r.a == 0#6 || r.k == 0#5) then .instr (.hodTry r.d r.a r.k st) else .bad 0x001#9 false
  | 14 => if r.d == 0#6 && r.sp == 0#3 && (r.a == 0#6 || r.k == 0#5) then .instr (.hodClose r.a r.k st) else .bad 0x001#9 false
  | 15 => codeCheck (Scope.ofCode r.sp) false (fun sp => if r.d == 0#6 && r.a == 0#6 && r.k.extractLsb' 3 2 == 0#2 && ((r.k.extractLsb' 0 2) != 0#2 && (!(bitB (r.k.extractLsb' 2 1)) || (r.k.extractLsb' 0 2) != 1#2) && sp != .lane) then .instr (.fence (bitB (r.k.extractLsb' 2 1)) (r.k.extractLsb' 0 2) sp st) else .bad 0x001#9 false)
  | 16 => if r.d.extractLsb' 3 3 == 0#3 && r.sp == 0#3 && (r.a == 0#6 || r.k == 0#5) then .instr (.wait (r.d.extractLsb' 0 3) r.a r.k st) else .bad 0x001#9 false
  | 17 => if r.sp == 0#3 && (r.a == 0#6 || r.k == 0#5) then .instr (.accalloc r.d r.a r.k st) else .bad 0x001#9 false
  | 18 => if r.d == 0#6 && r.sp == 0#3 && ((r.a == 0#6 || r.k == 0#5) && !r.k.getLsbD 4) then .instr (.accfree r.a r.k st) else .bad 0x001#9 false
  | _ => .bad 0x001#9 false

/-- Uniform class 4, UM (R57). -/
noncomputable def decUM (r : RawK) (st : BitVec 3) : Decoded :=
  match r.op.toNat with
  | 0 => .instr (.lds r.d r.a r.imm st)
  | 1 => .instr (.sts r.d r.a r.imm st)
  | 2 => .instr (.bind r.d r.a r.imm st)
  | 3 => if r.a == 0#6 && r.imm == 0#9 then .instr (.unbind r.d st) else .bad 0x001#9 false
  | _ => .bad 0x001#9 false

/-- Uniform class 5, UY (R57). -/
noncomputable def decUY (r : RawY) (st : BitVec 3) : Decoded :=
  match r.op.toNat with
  | 0 => if r.d == 0#6 && r.a == 0#6 && r.y == 0#7 then .instr (.nop st) else .bad 0x001#9 false
  | 1 => if r.y == 12#7 then if r.a == 0#6 && r.y == 12#7 then .instr (.fltrecClaim r.d st) else .bad 0x001#9 false
      else if r.y == 25#7 then if r.a == 0#6 && r.y == 25#7 then .instr (.rlogClaim r.d st) else .bad 0x001#9 false
      else if r.a == 0#6 && (r.y != 0x0C#7 && r.y != 0x19#7) then .instr (.sysr r.d r.y st) else .bad 0x001#9 false
  | 2 => if r.y == 13#7 then if r.d == 0#6 && r.y == 13#7 then .instr (.fltdoneAnswer r.a st) else .bad 0x001#9 false
      else if r.y == 9#7 then if r.d == 0#6 && r.y == 9#7 then .instr (.tapesegAppend r.a st) else .bad 0x001#9 false
      else if r.y == 36#7 then if r.d == 0#6 && r.y == 36#7 then .instr (.attestRequest r.a st) else .bad 0x001#9 false
      else if r.d == 0#6 && (r.y != 0x0D#7 && r.y != 0x09#7 && r.y != 0x24#7) then .instr (.sysw r.a r.y st) else .bad 0x001#9 false
  | 3 => if r.y.extractLsb' 5 2 == 0#2 then if r.a == 0#6 && r.y.extractLsb' 3 4 == 0#4 then rmCheck ((r.y.extractLsb' 0 3)) false (fun code => if rmModeOk code then .instr (.modeRm r.d code st) else .bad 0x002#9 false) else .bad 0x001#9 false
      else if r.y.extractLsb' 5 2 == 1#2 then if r.a == 0#6 then .instr (.modeTenSet r.d (r.y.extractLsb' 0 5) st) else .bad 0x001#9 false
      else if r.y.extractLsb' 5 2 == 2#2 then if r.a == 0#6 then .instr (.modeTenClr r.d (r.y.extractLsb' 0 5) st) else .bad 0x001#9 false
      else if r.y.extractLsb' 5 2 == 3#2 then if r.y == 96#7 then .instr (.modeReg r.d r.a st) else .bad 0x001#9 false
      else .bad 0x001#9 false
  | 4 => if r.d == 0#6 && r.y == 0#7 then .instr (.srseed r.a st) else .bad 0x001#9 false
  | 5 => if r.a == 0#6 && r.y == 0#7 then .instr (.splitq r.d st) else .bad 0x001#9 false
  | 6 => if r.d == 0#6 && r.a == 0#6 then .instr (.trap r.y st) else .bad 0x001#9 false
  | 7 => if r.y == 0#7 then if r.d == 0#6 && r.a == 0#6 && r.y == 0#7 then .instr (.rte st) else .bad 0x001#9 false
      else if r.y == 1#7 then if r.d == 0#6 && r.a == 0#6 && r.y == 1#7 then .instr (.rteKill st) else .bad 0x001#9 false
      else .bad 0x001#9 false
  | 8 => if r.d == 0#6 && r.a == 0#6 then .instr (.bkpt r.y st) else .bad 0x001#9 false
  | 9 => if r.d == 0#6 && r.a == 0#6 && r.y == 0#7 then .instr (.halt st) else .bad 0x001#9 false
  | 10 => if r.y == 0#7 then if r.y == 0#7 then .instr (.copyq r.d r.a st) else .bad 0x001#9 false
      else if r.y == 1#7 then if r.y == 1#7 then .instr (.copyqBytes r.d r.a st) else .bad 0x001#9 false
      else .bad 0x001#9 false
  | 11 => if r.y.extractLsb' 3 1 == 0#1 then codeCheck (Scope.ofCode ((r.y.extractLsb' 0 3))) false (fun sp => if r.d == 0#6 && r.y.extractLsb' 4 3 == 0#3 && (evenPair r.a && sp.isTlbi) then .instr (.tlbiRange r.a sp st) else .bad 0x001#9 false)
      else if r.y.extractLsb' 3 1 == 1#1 then codeCheck (Scope.ofCode ((r.y.extractLsb' 0 3))) false (fun sp => if r.d == 0#6 && r.y.extractLsb' 4 3 == 0#3 && (evenPair r.a && sp.isTlbi) then .instr (.tlbiAll r.a sp st) else .bad 0x001#9 false)
      else .bad 0x001#9 false
  | 12 => if r.y.extractLsb' 1 6 == 0#6 && evenPair r.a then .instr (.tapeOpen r.d r.a (bitB (r.y.extractLsb' 0 1)) st) else .bad 0x001#9 false
  | 13 => if r.a == 0#6 && r.y == 0#7 then .instr (.tapeSeal r.d st) else .bad 0x001#9 false
  | 14 => if r.d == 0#6 && r.a == 0#6 && r.y == 0#7 then .instr (.tapeRev st) else .bad 0x001#9 false
  | 15 => if r.d == 0#6 && r.a == 0#6 && r.y == 0#7 then .instr (.tapeClose st) else .bad 0x001#9 false
  | _ => .bad 0x001#9 false

/-- Uniform class 6, UL (R57). -/
noncomputable def decUL (r : RawL) (st : BitVec 3) : Decoded :=
  match r.op.toNat with
  | 1 => if r.sp == 0#3 && r.k == 0#4 then .instr (.launch r.d r.a st) else .bad 0x001#9 false
  | 2 => if r.sp == 0#3 && (r.a == 0#6 || r.k == 0#4) then .instr (.prio r.d r.a r.k st) else .bad 0x001#9 false
  | 3 => if r.k == 0#4 then if r.a == 0#6 && r.sp == 0#3 && r.k == 0#4 then .instr (.courseRd r.d st) else .bad 0x001#9 false
      else if r.k == 1#4 then if r.a == 0#6 && r.sp == 0#3 && r.k == 1#4 then .instr (.courseEnd r.d st) else .bad 0x001#9 false
      else .bad 0x001#9 false
  | 4 => if r.sp == 0#3 && r.k.extractLsb' 2 2 == 0#2 && (r.a == 0#6 || (r.k.extractLsb' 0 2) == 0#2) then .instr (.roleq r.d r.a (r.k.extractLsb' 0 2) st) else .bad 0x001#9 false
  | 5 => if r.k.extractLsb' 3 1 == 0#1 then if r.sp == 0#3 && r.k.extractLsb' 2 2 == 0#2 then .instr (.rqmovGive r.d r.a (r.k.extractLsb' 0 2) st) else .bad 0x001#9 false
      else if r.k.extractLsb' 3 1 == 1#1 then if r.sp == 0#3 && r.k == 8#4 then .instr (.rqmovTake r.d r.a st) else .bad 0x001#9 false
      else .bad 0x001#9 false
  | 6 => if r.sp == 0#3 && r.k.extractLsb' 3 1 == 0#1 && (evenPair r.d && evenPair r.a && (r.k.extractLsb' 0 2) != 3#2 && (!(bitB (r.k.extractLsb' 2 1)) || (r.k.extractLsb' 0 2) == 0#2)) then .instr (.collRed r.d r.a (bitB (r.k.extractLsb' 2 1)) (r.k.extractLsb' 0 2) st) else .bad 0x001#9 false
  | 7 => if r.sp == 0#3 && r.k == 0#4 && (evenPair r.d && evenPair r.a) then .instr (.collMaxe r.d r.a st) else .bad 0x001#9 false
  | 8 => if r.sp == 0#3 && r.k == 0#4 && (evenPair r.d && evenPair r.a) then .instr (.collBcst r.d r.a st) else .bad 0x001#9 false
  | 9 => if r.sp == 0#3 && r.k == 0#4 && (r.d != 0#6 && evenPair r.a) then .instr (.putw r.d r.a st) else .bad 0x001#9 false
  | 10 => if r.k == 0#4 then if r.sp == 0#3 && r.k == 0#4 && (evenPair r.d && evenPair r.a) then .instr (.sigwSet r.d r.a st) else .bad 0x001#9 false
      else if r.k == 1#4 then if r.sp == 0#3 && r.k == 1#4 && (evenPair r.d && evenPair r.a) then .instr (.sigwAdd r.d r.a st) else .bad 0x001#9 false
      else .bad 0x001#9 false
  | 11 => if r.d == 0#6 && r.a == 0#6 && r.sp == 0#3 && r.k == 1#4 then .instr (.rfenceRel st) else .bad 0x001#9 false
  | _ => .bad 0x001#9 false

/-- Op 0x00 of Uniform class 7, UW (R57). -/
noncomputable def decUW00 (r : RawA) (p : IWord) (st : BitVec 3) : Decoded :=
  if r.b == 0#6 && r.x == 0#1 then .instr (.saddI64Imm32 r.d r.a p st) else .bad 0x001#9 true

/-- Op 0x01 of Uniform class 7, UW (R57). -/
noncomputable def decUW01 (r : RawA) (p : IWord) (st : BitVec 3) : Decoded :=
  if r.b == 0#6 && r.x == 0#1 then .instr (.smulI64Imm32 r.d r.a p st) else .bad 0x001#9 true

/-- Op 0x02 of Uniform class 7, UW (R57). -/
noncomputable def decUW02 (r : RawA) (p : IWord) (st : BitVec 3) : Decoded :=
  if r.b == 0#6 && r.x == 0#1 then .instr (.sandB64Imm32 r.d r.a p st) else .bad 0x001#9 true

/-- Op 0x03 of Uniform class 7, UW (R57). -/
noncomputable def decUW03 (r : RawA) (p : IWord) (st : BitVec 3) : Decoded :=
  if r.b == 0#6 && r.x == 0#1 then .instr (.sorB64Imm32 r.d r.a p st) else .bad 0x001#9 true

/-- Op 0x04 of Uniform class 7, UW (R57). -/
noncomputable def decUW04 (r : RawA) (p : IWord) (st : BitVec 3) : Decoded :=
  if r.b == 0#6 && r.x == 0#1 then .instr (.sxorB64Imm32 r.d r.a p st) else .bad 0x001#9 true

/-- Op 0x05 of Uniform class 7, UW (R57). -/
noncomputable def decUW05 (r : RawA) (p : IWord) (st : BitVec 3) : Decoded :=
  if r.b == 0#6 && r.x == 0#1 then .instr (.sshlB64Imm32 r.d r.a p st) else .bad 0x001#9 true

/-- Op 0x06 of Uniform class 7, UW (R57). -/
noncomputable def decUW06 (r : RawA) (p : IWord) (st : BitVec 3) : Decoded :=
  if r.b == 0#6 && r.x == 0#1 then .instr (.sshrN64Imm32 r.d r.a p st) else .bad 0x001#9 true

/-- Op 0x07 of Uniform class 7, UW (R57). -/
noncomputable def decUW07 (r : RawA) (p : IWord) (st : BitVec 3) : Decoded :=
  if r.b == 0#6 && r.x == 0#1 then .instr (.ssarI64Imm32 r.d r.a p st) else .bad 0x001#9 true

/-- Op 0x08 of Uniform class 7, UW (R57). -/
noncomputable def decUW08 (r : RawA) (p : IWord) (st : BitVec 3) : Decoded :=
  if r.b == 0#6 && r.x == 0#1 then .instr (.sminI64Imm32 r.d r.a p st) else .bad 0x001#9 true

/-- Op 0x09 of Uniform class 7, UW (R57). -/
noncomputable def decUW09 (r : RawA) (p : IWord) (st : BitVec 3) : Decoded :=
  if r.b == 0#6 && r.x == 0#1 then .instr (.smaxI64Imm32 r.d r.a p st) else .bad 0x001#9 true

/-- Op 0x0A of Uniform class 7, UW (R57). -/
noncomputable def decUW0A (r : RawA) (p : IWord) (st : BitVec 3) : Decoded :=
  if r.b == 0#6 && r.x == 0#1 then .instr (.sminN64Imm32 r.d r.a p st) else .bad 0x001#9 true

/-- Op 0x0B of Uniform class 7, UW (R57). -/
noncomputable def decUW0B (r : RawA) (p : IWord) (st : BitVec 3) : Decoded :=
  if r.b == 0#6 && r.x == 0#1 then .instr (.smaxN64Imm32 r.d r.a p st) else .bad 0x001#9 true

/-- Op 0x0C of Uniform class 7, UW (R57). -/
noncomputable def decUW0C (r : RawA) (p : IWord) (st : BitVec 3) : Decoded :=
  if r.a == 0#6 && r.b == 0#6 && r.x == 0#1 then .instr (.smoviI64Imm32 r.d p st) else .bad 0x001#9 true

/-- Op 0x0D of Uniform class 7, UW (R57). -/
noncomputable def decUW0D (r : RawA) (p : IWord) (st : BitVec 3) : Decoded :=
  if r.a == 0#6 && r.b == 0#6 && r.x == 0#1 then .instr (.smoviN64Imm32 r.d p st) else .bad 0x001#9 true

/-- Op 0x10 of Uniform class 7, UW (R57). -/
noncomputable def decUW10 (r : RawA) (p : IWord) (st : BitVec 3) : Decoded :=
  let mem := PayMem.ofBits p
  if r.b == 0#6 && r.x == 0#1 && mem.sc == 0#2 then .instr (.ldsDisp r.d r.a mem.disp st) else .bad 0x001#9 true

/-- Op 0x11 of Uniform class 7, UW (R57). -/
noncomputable def decUW11 (r : RawA) (p : IWord) (st : BitVec 3) : Decoded :=
  let mem := PayMem.ofBits p
  if r.b == 0#6 && r.x == 0#1 && mem.sc == 0#2 then .instr (.stsDisp r.d r.a mem.disp st) else .bad 0x001#9 true

/-- Op 0x12 of Uniform class 7, UW (R57). -/
noncomputable def decUW12 (r : RawA) (p : IWord) (st : BitVec 3) : Decoded :=
  let mem := PayMem.ofBits p
  if r.b == 0#6 && r.x == 0#1 && mem.sc == 0#2 then .instr (.bindDisp r.d r.a mem.disp st) else .bad 0x001#9 true

/-- Op 0x13 of Uniform class 7, UW (R57). -/
noncomputable def decUW13 (r : RawA) (p : IWord) (st : BitVec 3) : Decoded :=
  let mem := PayMem.ofBits p
  if r.a == 0#6 && r.b == 0#6 && r.x == 0#1 && mem.sc == 0#2 && mem.disp == 0#30 then .instr (.unbindDisp r.d st) else .bad 0x001#9 true

/-- Op 0x20 of Uniform class 7, UW (R57). -/
noncomputable def decUW20 (r : RawA) (p : IWord) (st : BitVec 3) : Decoded :=
  let opx := PayOpx.ofBits p
  if r.x == 0#1 && opx.rm == 0#3 && opx.t1 == 0#5 && opx.t2 == 0#5 && opx.lo.extractLsb' 0 9 == 0#9 then .instr (.copy r.d r.a r.b opx.c (bitB (opx.lo.extractLsb' 12 1)) (bitB (opx.lo.extractLsb' 11 1)) (bitB (opx.lo.extractLsb' 10 1)) (bitB (opx.lo.extractLsb' 9 1)) st) else .bad 0x001#9 true

/-- Uniform class 7, UW (R57). -/
noncomputable def decUW (r : RawA) (p : IWord) (st : BitVec 3) : Decoded :=
  match r.op.toNat with
  | 0x00 => decUW00 r p st
  | 0x01 => decUW01 r p st
  | 0x02 => decUW02 r p st
  | 0x03 => decUW03 r p st
  | 0x04 => decUW04 r p st
  | 0x05 => decUW05 r p st
  | 0x06 => decUW06 r p st
  | 0x07 => decUW07 r p st
  | 0x08 => decUW08 r p st
  | 0x09 => decUW09 r p st
  | 0x0A => decUW0A r p st
  | 0x0B => decUW0B r p st
  | 0x0C => decUW0C r p st
  | 0x0D => decUW0D r p st
  | 0x10 => decUW10 r p st
  | 0x11 => decUW11 r p st
  | 0x12 => decUW12 r p st
  | 0x13 => decUW13 r p st
  | 0x20 => decUW20 r p st
  | _ => .bad 0x001#9 true

/-- The instruction that a first word and the word after it stand for (R51, R52). The second word counts only in
class 7. -/
noncomputable def decodeWords (w p : IWord) : Decoded :=
  let v := wordBody w
  let st := wordSt w
  match (wordClass w).toNat with
  | 0 => decLI (RawA.ofBits v) st
  | 1 => decLK (RawK.ofBits v) st
  | 2 => decLF (RawF.ofBits v) st
  | 3 => decLD (RawF.ofBits v) st
  | 4 => decLM (RawM.ofBits v) st
  | 5 => decLX (RawA.ofBits v) st
  | 6 => decLE (RawE.ofBits v) st
  | 7 => decLW (RawA.ofBits v) p st
  | 8 => decUI (RawA.ofBits v) st
  | 9 => decUK (RawK.ofBits v) st
  | 10 => decUB (RawB.ofBits v) st
  | 11 => decUS (RawS.ofBits v) st
  | 12 => decUM (RawK.ofBits v) st
  | 13 => decUY (RawY.ofBits v) st
  | 14 => decUL (RawL.ofBits v) st
  | 15 => decUW (RawA.ofBits v) p st
  | _ => .bad 0x001#9 false

/-! ### The encoder -/

/-- The words of an instruction, from the same tables. A row that is a step outside the issue slots has no words. -/
def encode : Instr → Option Words
  | .iadd d a b w st => some ⟨mkWord 0#4 (RawA.toBits ⟨1#6, d, a, b, BitVec.ofBool w⟩) st, none⟩
  | .isub d a b w st => some ⟨mkWord 0#4 (RawA.toBits ⟨2#6, d, a, b, BitVec.ofBool w⟩) st, none⟩
  | .imul d a b w st => some ⟨mkWord 0#4 (RawA.toBits ⟨3#6, d, a, b, BitVec.ofBool w⟩) st, none⟩
  | .imulh d a b w st => some ⟨mkWord 0#4 (RawA.toBits ⟨4#6, d, a, b, BitVec.ofBool w⟩) st, none⟩
  | .imad d a b w st => some ⟨mkWord 0#4 (RawA.toBits ⟨5#6, d, a, b, BitVec.ofBool w⟩) st, none⟩
  | .iaddc d a b w st => some ⟨mkWord 0#4 (RawA.toBits ⟨6#6, d, a, b, BitVec.ofBool w⟩) st, none⟩
  | .imin d a b w st => some ⟨mkWord 0#4 (RawA.toBits ⟨7#6, d, a, b, BitVec.ofBool w⟩) st, none⟩
  | .imax d a b w st => some ⟨mkWord 0#4 (RawA.toBits ⟨8#6, d, a, b, BitVec.ofBool w⟩) st, none⟩
  | .iabs d a w st => some ⟨mkWord 0#4 (RawA.toBits ⟨9#6, d, a, 0#6, BitVec.ofBool w⟩) st, none⟩
  | .ineg d a w st => some ⟨mkWord 0#4 (RawA.toBits ⟨10#6, d, a, 0#6, BitVec.ofBool w⟩) st, none⟩
  | .and d a b w st => some ⟨mkWord 0#4 (RawA.toBits ⟨11#6, d, a, b, BitVec.ofBool w⟩) st, none⟩
  | .or d a b w st => some ⟨mkWord 0#4 (RawA.toBits ⟨12#6, d, a, b, BitVec.ofBool w⟩) st, none⟩
  | .xor d a b w st => some ⟨mkWord 0#4 (RawA.toBits ⟨13#6, d, a, b, BitVec.ofBool w⟩) st, none⟩
  | .andn d a b w st => some ⟨mkWord 0#4 (RawA.toBits ⟨14#6, d, a, b, BitVec.ofBool w⟩) st, none⟩
  | .not d a w st => some ⟨mkWord 0#4 (RawA.toBits ⟨15#6, d, a, 0#6, BitVec.ofBool w⟩) st, none⟩
  | .shl d a b w st => some ⟨mkWord 0#4 (RawA.toBits ⟨16#6, d, a, b, BitVec.ofBool w⟩) st, none⟩
  | .shr d a b w st => some ⟨mkWord 0#4 (RawA.toBits ⟨17#6, d, a, b, BitVec.ofBool w⟩) st, none⟩
  | .sar d a b w st => some ⟨mkWord 0#4 (RawA.toBits ⟨18#6, d, a, b, BitVec.ofBool w⟩) st, none⟩
  | .rot d a b w st => some ⟨mkWord 0#4 (RawA.toBits ⟨19#6, d, a, b, BitVec.ofBool w⟩) st, none⟩
  | .popc d a w st => some ⟨mkWord 0#4 (RawA.toBits ⟨20#6, d, a, 0#6, BitVec.ofBool w⟩) st, none⟩
  | .clz d a w st => some ⟨mkWord 0#4 (RawA.toBits ⟨21#6, d, a, 0#6, BitVec.ofBool w⟩) st, none⟩
  | .brev d a w st => some ⟨mkWord 0#4 (RawA.toBits ⟨22#6, d, a, 0#6, BitVec.ofBool w⟩) st, none⟩
  | .mov d a w st => some ⟨mkWord 0#4 (RawA.toBits ⟨23#6, d, a, 0#6, BitVec.ofBool w⟩) st, none⟩
  | .iminUnsigned d a b w st => some ⟨mkWord 0#4 (RawA.toBits ⟨24#6, d, a, b, BitVec.ofBool w⟩) st, none⟩
  | .imaxUnsigned d a b w st => some ⟨mkWord 0#4 (RawA.toBits ⟨25#6, d, a, b, BitVec.ofBool w⟩) st, none⟩
  | .imulhUnsigned d a b w st => some ⟨mkWord 0#4 (RawA.toBits ⟨26#6, d, a, b, BitVec.ofBool w⟩) st, none⟩
  | .iaddI64Imm9 d a imm st => some ⟨mkWord 1#4 (RawK.toBits ⟨0#4, d, a, imm⟩) st, none⟩
  | .iaddI32Imm9 d a imm st => some ⟨mkWord 1#4 (RawK.toBits ⟨1#4, d, a, imm⟩) st, none⟩
  | .imulI64Imm9 d a imm st => some ⟨mkWord 1#4 (RawK.toBits ⟨2#4, d, a, imm⟩) st, none⟩
  | .imulI32Imm9 d a imm st => some ⟨mkWord 1#4 (RawK.toBits ⟨3#4, d, a, imm⟩) st, none⟩
  | .andB64Imm9 d a imm st => some ⟨mkWord 1#4 (RawK.toBits ⟨4#4, d, a, imm⟩) st, none⟩
  | .orB64Imm9 d a imm st => some ⟨mkWord 1#4 (RawK.toBits ⟨5#4, d, a, imm⟩) st, none⟩
  | .xorB64Imm9 d a imm st => some ⟨mkWord 1#4 (RawK.toBits ⟨6#4, d, a, imm⟩) st, none⟩
  | .shlB64Imm9 d a imm st => some ⟨mkWord 1#4 (RawK.toBits ⟨7#4, d, a, imm⟩) st, none⟩
  | .shrN64Imm9 d a imm st => some ⟨mkWord 1#4 (RawK.toBits ⟨8#4, d, a, imm⟩) st, none⟩
  | .sarI64Imm9 d a imm st => some ⟨mkWord 1#4 (RawK.toBits ⟨9#4, d, a, imm⟩) st, none⟩
  | .moviI64 d imm st => some ⟨mkWord 1#4 (RawK.toBits ⟨10#4, d, 0#6, imm⟩) st, none⟩
  | .moviN64 d imm st => some ⟨mkWord 1#4 (RawK.toBits ⟨11#4, d, 0#6, imm⟩) st, none⟩
  | .moviI32 d imm st => some ⟨mkWord 1#4 (RawK.toBits ⟨12#4, d, 0#6, imm⟩) st, none⟩
  | .iminI64Imm9 d a imm st => some ⟨mkWord 1#4 (RawK.toBits ⟨13#4, d, a, imm⟩) st, none⟩
  | .imaxI64Imm9 d a imm st => some ⟨mkWord 1#4 (RawK.toBits ⟨14#4, d, a, imm⟩) st, none⟩
  | .iaddI64Imm32 d a imm st => some ⟨mkWord 7#4 (RawA.toBits ⟨16#6, d, a, 0#6, 0#1⟩) st, (some imm)⟩
  | .iaddI32Imm32 d a imm st => some ⟨mkWord 7#4 (RawA.toBits ⟨17#6, d, a, 0#6, 0#1⟩) st, (some imm)⟩
  | .imulI64Imm32 d a imm st => some ⟨mkWord 7#4 (RawA.toBits ⟨18#6, d, a, 0#6, 0#1⟩) st, (some imm)⟩
  | .imulI32Imm32 d a imm st => some ⟨mkWord 7#4 (RawA.toBits ⟨19#6, d, a, 0#6, 0#1⟩) st, (some imm)⟩
  | .andB64Imm32 d a imm st => some ⟨mkWord 7#4 (RawA.toBits ⟨20#6, d, a, 0#6, 0#1⟩) st, (some imm)⟩
  | .orB64Imm32 d a imm st => some ⟨mkWord 7#4 (RawA.toBits ⟨21#6, d, a, 0#6, 0#1⟩) st, (some imm)⟩
  | .xorB64Imm32 d a imm st => some ⟨mkWord 7#4 (RawA.toBits ⟨22#6, d, a, 0#6, 0#1⟩) st, (some imm)⟩
  | .shlB64Imm32 d a imm st => some ⟨mkWord 7#4 (RawA.toBits ⟨23#6, d, a, 0#6, 0#1⟩) st, (some imm)⟩
  | .shrN64Imm32 d a imm st => some ⟨mkWord 7#4 (RawA.toBits ⟨24#6, d, a, 0#6, 0#1⟩) st, (some imm)⟩
  | .sarI64Imm32 d a imm st => some ⟨mkWord 7#4 (RawA.toBits ⟨25#6, d, a, 0#6, 0#1⟩) st, (some imm)⟩
  | .moviI64Imm32 d imm st => some ⟨mkWord 7#4 (RawA.toBits ⟨26#6, d, 0#6, 0#6, 0#1⟩) st, (some imm)⟩
  | .moviN64Imm32 d imm st => some ⟨mkWord 7#4 (RawA.toBits ⟨27#6, d, 0#6, 0#6, 0#1⟩) st, (some imm)⟩
  | .moviI32Imm32 d imm st => some ⟨mkWord 7#4 (RawA.toBits ⟨28#6, d, 0#6, 0#6, 0#1⟩) st, (some imm)⟩
  | .iminI64Imm32 d a imm st => some ⟨mkWord 7#4 (RawA.toBits ⟨29#6, d, a, 0#6, 0#1⟩) st, (some imm)⟩
  | .imaxI64Imm32 d a imm st => some ⟨mkWord 7#4 (RawA.toBits ⟨30#6, d, a, 0#6, 0#1⟩) st, (some imm)⟩
  | .faddF32 d a b rm st => some ⟨mkWord 2#4 (RawF.toBits ⟨0#4, d, a, b, rm.code⟩) st, none⟩
  | .fsubF32 d a b rm st => some ⟨mkWord 2#4 (RawF.toBits ⟨1#4, d, a, b, rm.code⟩) st, none⟩
  | .fmulF32 d a b rm st => some ⟨mkWord 2#4 (RawF.toBits ⟨2#4, d, a, b, rm.code⟩) st, none⟩
  | .ffmaF32 d a b rm st => some ⟨mkWord 2#4 (RawF.toBits ⟨3#4, d, a, b, rm.code⟩) st, none⟩
  | .ffmsF32 d a b rm st => some ⟨mkWord 2#4 (RawF.toBits ⟨4#4, d, a, b, rm.code⟩) st, none⟩
  | .fnmaF32 d a b rm st => some ⟨mkWord 2#4 (RawF.toBits ⟨5#4, d, a, b, rm.code⟩) st, none⟩
  | .fminF32 d a b rm st => some ⟨mkWord 2#4 (RawF.toBits ⟨6#4, d, a, b, rm.code⟩) st, none⟩
  | .fmaxF32 d a b rm st => some ⟨mkWord 2#4 (RawF.toBits ⟨7#4, d, a, b, rm.code⟩) st, none⟩
  | .fdivF32 d a b rm st => some ⟨mkWord 2#4 (RawF.toBits ⟨8#4, d, a, b, rm.code⟩) st, none⟩
  | .fsqrtF32 d a rm st => some ⟨mkWord 2#4 (RawF.toBits ⟨9#4, d, a, 0#6, rm.code⟩) st, none⟩
  | .frcpF32 d a rm st => some ⟨mkWord 2#4 (RawF.toBits ⟨10#4, d, a, 0#6, rm.code⟩) st, none⟩
  | .frsqF32 d a rm st => some ⟨mkWord 2#4 (RawF.toBits ⟨11#4, d, a, 0#6, rm.code⟩) st, none⟩
  | .fexpF32 d a rm st => some ⟨mkWord 2#4 (RawF.toBits ⟨12#4, d, a, 0#6, rm.code⟩) st, none⟩
  | .fex2F32 d a rm st => some ⟨mkWord 2#4 (RawF.toBits ⟨13#4, d, a, 0#6, rm.code⟩) st, none⟩
  | .flogF32 d a rm st => some ⟨mkWord 2#4 (RawF.toBits ⟨14#4, d, a, 0#6, rm.code⟩) st, none⟩
  | .ferfF32 d a rm st => some ⟨mkWord 2#4 (RawF.toBits ⟨15#4, d, a, 0#6, rm.code⟩) st, none⟩
  | .faddF64 d a b rm st => some ⟨mkWord 3#4 (RawF.toBits ⟨0#4, d, a, b, rm.code⟩) st, none⟩
  | .fsubF64 d a b rm st => some ⟨mkWord 3#4 (RawF.toBits ⟨1#4, d, a, b, rm.code⟩) st, none⟩
  | .fmulF64 d a b rm st => some ⟨mkWord 3#4 (RawF.toBits ⟨2#4, d, a, b, rm.code⟩) st, none⟩
  | .ffmaF64 d a b rm st => some ⟨mkWord 3#4 (RawF.toBits ⟨3#4, d, a, b, rm.code⟩) st, none⟩
  | .ffmsF64 d a b rm st => some ⟨mkWord 3#4 (RawF.toBits ⟨4#4, d, a, b, rm.code⟩) st, none⟩
  | .fnmaF64 d a b rm st => some ⟨mkWord 3#4 (RawF.toBits ⟨5#4, d, a, b, rm.code⟩) st, none⟩
  | .fminF64 d a b rm st => some ⟨mkWord 3#4 (RawF.toBits ⟨6#4, d, a, b, rm.code⟩) st, none⟩
  | .fmaxF64 d a b rm st => some ⟨mkWord 3#4 (RawF.toBits ⟨7#4, d, a, b, rm.code⟩) st, none⟩
  | .fdivF64 d a b rm st => some ⟨mkWord 3#4 (RawF.toBits ⟨8#4, d, a, b, rm.code⟩) st, none⟩
  | .fsqrtF64 d a rm st => some ⟨mkWord 3#4 (RawF.toBits ⟨9#4, d, a, 0#6, rm.code⟩) st, none⟩
  | .frcpF64 d a rm st => some ⟨mkWord 3#4 (RawF.toBits ⟨10#4, d, a, 0#6, rm.code⟩) st, none⟩
  | .frsqF64 d a rm st => some ⟨mkWord 3#4 (RawF.toBits ⟨11#4, d, a, 0#6, rm.code⟩) st, none⟩
  | .fexpF64 d a rm st => some ⟨mkWord 3#4 (RawF.toBits ⟨12#4, d, a, 0#6, rm.code⟩) st, none⟩
  | .fex2F64 d a rm st => some ⟨mkWord 3#4 (RawF.toBits ⟨13#4, d, a, 0#6, rm.code⟩) st, none⟩
  | .flogF64 d a rm st => some ⟨mkWord 3#4 (RawF.toBits ⟨14#4, d, a, 0#6, rm.code⟩) st, none⟩
  | .ferfF64 d a rm st => some ⟨mkWord 3#4 (RawF.toBits ⟨15#4, d, a, 0#6, rm.code⟩) st, none⟩
  | .ldB64 d x sb sc st => some ⟨mkWord 4#4 (RawM.toBits ⟨0#4, d, x, sb, sc, 0#1⟩) st, none⟩
  | .stB64 d x sb sc st => some ⟨mkWord 4#4 (RawM.toBits ⟨1#4, d, x, sb, sc, 0#1⟩) st, none⟩
  | .ldt d x sb sc q st => some ⟨mkWord 4#4 (RawM.toBits ⟨2#4, d, x, sb, sc, BitVec.ofBool q⟩) st, none⟩
  | .stt d x sb sc st => some ⟨mkWord 4#4 (RawM.toBits ⟨3#4, d, x, sb, sc, 0#1⟩) st, none⟩
  | .sttAon d x sb sc st => some ⟨mkWord 4#4 (RawM.toBits ⟨3#4, d, x, sb, sc, 1#1⟩) st, none⟩
  | .ldgB64 d x sb sc st => some ⟨mkWord 4#4 (RawM.toBits ⟨4#4, d, x, sb, sc, 1#1⟩) st, none⟩
  | .stgB64 d x sb sc st => some ⟨mkWord 4#4 (RawM.toBits ⟨5#4, d, x, sb, sc, 1#1⟩) st, none⟩
  | .ldtv d x sb sc st => some ⟨mkWord 4#4 (RawM.toBits ⟨6#4, d, x, sb, sc, 1#1⟩) st, none⟩
  | .stp d x sb sc st => some ⟨mkWord 4#4 (RawM.toBits ⟨7#4, d, x, sb, sc, 1#1⟩) st, none⟩
  | .tst m d x sb st => some ⟨mkWord 4#4 (RawM.toBits ⟨8#4, d, x, sb, m, 1#1⟩) st, none⟩
  | .tcom m x sb st => some ⟨mkWord 4#4 (RawM.toBits ⟨9#4, 0#6, x, sb, m, 1#1⟩) st, none⟩
  | .retr m x sb st => some ⟨mkWord 4#4 (RawM.toBits ⟨10#4, 0#6, x, sb, m, 1#1⟩) st, none⟩
  | .pref x sb sc st => some ⟨mkWord 4#4 (RawM.toBits ⟨11#4, 0#6, x, sb, sc, 1#1⟩) st, none⟩
  | .stc d x sb sc q st => some ⟨mkWord 4#4 (RawM.toBits ⟨12#4, d, x, sb, sc, BitVec.ofBool q⟩) st, none⟩
  | .lea d x sb sc q st => some ⟨mkWord 4#4 (RawM.toBits ⟨13#4, d, x, sb, sc, BitVec.ofBool q⟩) st, none⟩
  | .ldB32 d x sb sc st => some ⟨mkWord 4#4 (RawM.toBits ⟨14#4, d, x, sb, sc, 0#1⟩) st, none⟩
  | .ldgB32 d x sb sc st => some ⟨mkWord 4#4 (RawM.toBits ⟨14#4, d, x, sb, sc, 1#1⟩) st, none⟩
  | .stB32 d x sb sc st => some ⟨mkWord 4#4 (RawM.toBits ⟨15#4, d, x, sb, sc, 0#1⟩) st, none⟩
  | .stgB32 d x sb sc st => some ⟨mkWord 4#4 (RawM.toBits ⟨15#4, d, x, sb, sc, 1#1⟩) st, none⟩
  | .ldB64Disp d x sb sc disp st => some ⟨mkWord 7#4 (RawA.toBits ⟨0#6, d, x, sb, 0#1⟩) st, (some (PayMem.toBits ⟨sc, disp⟩))⟩
  | .stB64Disp d x sb sc disp st => some ⟨mkWord 7#4 (RawA.toBits ⟨1#6, d, x, sb, 0#1⟩) st, (some (PayMem.toBits ⟨sc, disp⟩))⟩
  | .ldtDisp d x sb sc disp q st => some ⟨mkWord 7#4 (RawA.toBits ⟨2#6, d, x, sb, BitVec.ofBool q⟩) st, (some (PayMem.toBits ⟨sc, disp⟩))⟩
  | .sttDisp d x sb sc disp st => some ⟨mkWord 7#4 (RawA.toBits ⟨3#6, d, x, sb, 0#1⟩) st, (some (PayMem.toBits ⟨sc, disp⟩))⟩
  | .sttAonDisp d x sb sc disp st => some ⟨mkWord 7#4 (RawA.toBits ⟨3#6, d, x, sb, 1#1⟩) st, (some (PayMem.toBits ⟨sc, disp⟩))⟩
  | .ldgB64Disp d x sb sc disp st => some ⟨mkWord 7#4 (RawA.toBits ⟨4#6, d, x, sb, 1#1⟩) st, (some (PayMem.toBits ⟨sc, disp⟩))⟩
  | .stgB64Disp d x sb sc disp st => some ⟨mkWord 7#4 (RawA.toBits ⟨5#6, d, x, sb, 1#1⟩) st, (some (PayMem.toBits ⟨sc, disp⟩))⟩
  | .ldtvDisp d x sb sc disp st => some ⟨mkWord 7#4 (RawA.toBits ⟨6#6, d, x, sb, 1#1⟩) st, (some (PayMem.toBits ⟨sc, disp⟩))⟩
  | .stpDisp d x sb sc disp st => some ⟨mkWord 7#4 (RawA.toBits ⟨7#6, d, x, sb, 1#1⟩) st, (some (PayMem.toBits ⟨sc, disp⟩))⟩
  | .tstDisp m d x sb disp st => some ⟨mkWord 7#4 (RawA.toBits ⟨8#6, d, x, sb, 1#1⟩) st, (some (PayMem.toBits ⟨m, disp⟩))⟩
  | .tcomDisp m x sb disp st => some ⟨mkWord 7#4 (RawA.toBits ⟨9#6, 0#6, x, sb, 1#1⟩) st, (some (PayMem.toBits ⟨m, disp⟩))⟩
  | .retrDisp m x sb disp st => some ⟨mkWord 7#4 (RawA.toBits ⟨10#6, 0#6, x, sb, 1#1⟩) st, (some (PayMem.toBits ⟨m, disp⟩))⟩
  | .prefDisp x sb sc disp st => some ⟨mkWord 7#4 (RawA.toBits ⟨11#6, 0#6, x, sb, 1#1⟩) st, (some (PayMem.toBits ⟨sc, disp⟩))⟩
  | .stcDisp d x sb sc disp q st => some ⟨mkWord 7#4 (RawA.toBits ⟨12#6, d, x, sb, BitVec.ofBool q⟩) st, (some (PayMem.toBits ⟨sc, disp⟩))⟩
  | .leaDisp d x sb sc disp q st => some ⟨mkWord 7#4 (RawA.toBits ⟨13#6, d, x, sb, BitVec.ofBool q⟩) st, (some (PayMem.toBits ⟨sc, disp⟩))⟩
  | .ldB32Disp d x sb sc disp st => some ⟨mkWord 7#4 (RawA.toBits ⟨14#6, d, x, sb, 0#1⟩) st, (some (PayMem.toBits ⟨sc, disp⟩))⟩
  | .ldgB32Disp d x sb sc disp st => some ⟨mkWord 7#4 (RawA.toBits ⟨14#6, d, x, sb, 1#1⟩) st, (some (PayMem.toBits ⟨sc, disp⟩))⟩
  | .stB32Disp d x sb sc disp st => some ⟨mkWord 7#4 (RawA.toBits ⟨15#6, d, x, sb, 0#1⟩) st, (some (PayMem.toBits ⟨sc, disp⟩))⟩
  | .stgB32Disp d x sb sc disp st => some ⟨mkWord 7#4 (RawA.toBits ⟨15#6, d, x, sb, 1#1⟩) st, (some (PayMem.toBits ⟨sc, disp⟩))⟩
  | .icmpEq m a b q st => some ⟨mkWord 5#4 (RawA.toBits ⟨1#6, 0#3 ++ m, a, b, BitVec.ofBool q⟩) st, none⟩
  | .icmpNe m a b q st => some ⟨mkWord 5#4 (RawA.toBits ⟨2#6, 0#3 ++ m, a, b, BitVec.ofBool q⟩) st, none⟩
  | .icmpLt m a b q st => some ⟨mkWord 5#4 (RawA.toBits ⟨3#6, 0#3 ++ m, a, b, BitVec.ofBool q⟩) st, none⟩
  | .icmpLe m a b q st => some ⟨mkWord 5#4 (RawA.toBits ⟨4#6, 0#3 ++ m, a, b, BitVec.ofBool q⟩) st, none⟩
  | .icmpLtu m a b q st => some ⟨mkWord 5#4 (RawA.toBits ⟨5#6, 0#3 ++ m, a, b, BitVec.ofBool q⟩) st, none⟩
  | .icmpLeu m a b q st => some ⟨mkWord 5#4 (RawA.toBits ⟨6#6, 0#3 ++ m, a, b, BitVec.ofBool q⟩) st, none⟩
  | .fcmpEq m a b q st => some ⟨mkWord 5#4 (RawA.toBits ⟨7#6, 0#3 ++ m, a, b, BitVec.ofBool q⟩) st, none⟩
  | .fcmpNe m a b q st => some ⟨mkWord 5#4 (RawA.toBits ⟨8#6, 0#3 ++ m, a, b, BitVec.ofBool q⟩) st, none⟩
  | .fcmpLt m a b q st => some ⟨mkWord 5#4 (RawA.toBits ⟨9#6, 0#3 ++ m, a, b, BitVec.ofBool q⟩) st, none⟩
  | .fcmpLe m a b q st => some ⟨mkWord 5#4 (RawA.toBits ⟨10#6, 0#3 ++ m, a, b, BitVec.ofBool q⟩) st, none⟩
  | .fcmpUn m a b q st => some ⟨mkWord 5#4 (RawA.toBits ⟨11#6, 0#3 ++ m, a, b, BitVec.ofBool q⟩) st, none⟩
  | .fclass d a q st => some ⟨mkWord 5#4 (RawA.toBits ⟨12#6, d, a, 0#6, BitVec.ofBool q⟩) st, none⟩
  | .fabs d a q st => some ⟨mkWord 5#4 (RawA.toBits ⟨13#6, d, a, 0#6, BitVec.ofBool q⟩) st, none⟩
  | .fneg d a q st => some ⟨mkWord 5#4 (RawA.toBits ⟨14#6, d, a, 0#6, BitVec.ofBool q⟩) st, none⟩
  | .vfroms d a q st => some ⟨mkWord 5#4 (RawA.toBits ⟨15#6, d, a, 0#6, BitVec.ofBool q⟩) st, none⟩
  | .vfromsIdx d a q st => some ⟨mkWord 5#4 (RawA.toBits ⟨15#6, d, a, 1#6, BitVec.ofBool q⟩) st, none⟩
  | .sfromv d a lane q st => some ⟨mkWord 5#4 (RawA.toBits ⟨16#6, d, a, lane, BitVec.ofBool q⟩) st, none⟩
  | .lshfl d a b q st => some ⟨mkWord 5#4 (RawA.toBits ⟨17#6, d, a, b, BitVec.ofBool q⟩) st, none⟩
  | .lpush d a b q st => some ⟨mkWord 5#4 (RawA.toBits ⟨18#6, d, a, b, BitVec.ofBool q⟩) st, none⟩
  | .lbcst d a lane q st => some ⟨mkWord 5#4 (RawA.toBits ⟨19#6, d, a, lane, BitVec.ofBool q⟩) st, none⟩
  | .lvoteBallot d m st => some ⟨mkWord 5#4 (RawA.toBits ⟨20#6, d, 0#3 ++ m, 0#6, 0#1⟩) st, none⟩
  | .lvoteAny d m st => some ⟨mkWord 5#4 (RawA.toBits ⟨20#6, d, 0#3 ++ m, 1#6, 0#1⟩) st, none⟩
  | .lvoteAll d m st => some ⟨mkWord 5#4 (RawA.toBits ⟨20#6, d, 0#3 ++ m, 2#6, 0#1⟩) st, none⟩
  | .lfirst d m q st => some ⟨mkWord 5#4 (RawA.toBits ⟨21#6, d, 0#3 ++ m, 0#6, BitVec.ofBool q⟩) st, none⟩
  | .mopAnd m ma mb st => some ⟨mkWord 5#4 (RawA.toBits ⟨22#6, 0#3 ++ m, 0#3 ++ ma, 0#3 ++ mb, 0#1⟩) st, none⟩
  | .mopOr m ma mb st => some ⟨mkWord 5#4 (RawA.toBits ⟨23#6, 0#3 ++ m, 0#3 ++ ma, 0#3 ++ mb, 0#1⟩) st, none⟩
  | .mopXor m ma mb st => some ⟨mkWord 5#4 (RawA.toBits ⟨24#6, 0#3 ++ m, 0#3 ++ ma, 0#3 ++ mb, 0#1⟩) st, none⟩
  | .mopAndn m ma mb st => some ⟨mkWord 5#4 (RawA.toBits ⟨25#6, 0#3 ++ m, 0#3 ++ ma, 0#3 ++ mb, 0#1⟩) st, none⟩
  | .mopNot m ma st => some ⟨mkWord 5#4 (RawA.toBits ⟨26#6, 0#3 ++ m, 0#3 ++ ma, 0#6, 0#1⟩) st, none⟩
  | .mpop d m q st => some ⟨mkWord 5#4 (RawA.toBits ⟨27#6, d, 0#3 ++ m, 0#6, BitVec.ofBool q⟩) st, none⟩
  | .tagset d b q st => some ⟨mkWord 5#4 (RawA.toBits ⟨28#6, d, 0#6, b, BitVec.ofBool q⟩) st, none⟩
  | .tagrd m a st => some ⟨mkWord 5#4 (RawA.toBits ⟨29#6, 0#3 ++ m, a, 0#6, 0#1⟩) st, none⟩
  | .tagrdLine m a g st => some ⟨mkWord 5#4 (RawA.toBits ⟨29#6, 0#3 ++ m, a, 0#5 ++ BitVec.ofBool g, 1#1⟩) st, none⟩
  | .cureRst st => some ⟨mkWord 5#4 (RawA.toBits ⟨30#6, 0#6, 0#6, 0#6, 0#1⟩) st, none⟩
  | .cureRstRdlast d st => some ⟨mkWord 5#4 (RawA.toBits ⟨30#6, d, 0#6, 1#6, 0#1⟩) st, none⟩
  | .cureRstRdcnt d st => some ⟨mkWord 5#4 (RawA.toBits ⟨30#6, d, 0#6, 2#6, 0#1⟩) st, none⟩
  | .fxrd d st => some ⟨mkWord 5#4 (RawA.toBits ⟨31#6, d, 0#6, 0#6, 0#1⟩) st, none⟩
  | .fxclr k st => some ⟨mkWord 5#4 (RawA.toBits ⟨32#6, 0#6, 0#6, 0#1 ++ k, 0#1⟩) st, none⟩
  | .accz k st => some ⟨mkWord 6#4 (RawE.toBits ⟨1#6, RawEm.toBits ⟨k, 0#6, 0#6, 0#3⟩⟩) st, none⟩
  | .mmaC k a b st => some ⟨mkWord 6#4 (RawE.toBits ⟨2#6, RawEm.toBits ⟨k, a, b, 0#3⟩⟩) st, none⟩
  | .mmaQ k a b st => some ⟨mkWord 6#4 (RawE.toBits ⟨2#6, RawEm.toBits ⟨k, a, b, 4#3⟩⟩) st, none⟩
  | .mmas k a b st => some ⟨mkWord 6#4 (RawE.toBits ⟨3#6, RawEm.toBits ⟨k, a, b, 0#3⟩⟩) st, none⟩
  | .dist k a b st => some ⟨mkWord 6#4 (RawE.toBits ⟨4#6, RawEm.toBits ⟨k, a, b, 0#3⟩⟩) st, none⟩
  | .topk k d n max st => some ⟨mkWord 6#4 (RawE.toBits ⟨5#6, RawEm.toBits ⟨k, d, n ++ (BitVec.ofBool max ++ 0#3), 0#3⟩⟩) st, none⟩
  | .accrd k d a st => some ⟨mkWord 6#4 (RawE.toBits ⟨6#6, RawEm.toBits ⟨k, d, a, 0#3⟩⟩) st, none⟩
  | .accwb k a st => some ⟨mkWord 6#4 (RawE.toBits ⟨7#6, RawEm.toBits ⟨k, 0#6, a, 0#3⟩⟩) st, none⟩
  | .accadj k v a st => some ⟨mkWord 6#4 (RawE.toBits ⟨8#6, RawEm.toBits ⟨k, v, a, 0#3⟩⟩) st, none⟩
  | .accchk k d v st => some ⟨mkWord 6#4 (RawE.toBits ⟨9#6, RawEm.toBits ⟨k, d, v, 0#3⟩⟩) st, none⟩
  | .tapeRec a n lbl st => some ⟨mkWord 6#4 (RawE.toBits ⟨10#6, RawEt.toBits ⟨a, n, lbl, 0#3⟩⟩) st, none⟩
  | .tapeBr m lbl st => some ⟨mkWord 6#4 (RawE.toBits ⟨11#6, RawEb.toBits ⟨m, 0#5, lbl, 0#3⟩⟩) st, none⟩
  | .tapePop d n lbl st => some ⟨mkWord 6#4 (RawE.toBits ⟨12#6, RawEt.toBits ⟨d, n, lbl, 0#3⟩⟩) st, none⟩
  | .tapePopbr m lbl st => some ⟨mkWord 6#4 (RawE.toBits ⟨13#6, RawEb.toBits ⟨m, 0#5, lbl, 0#3⟩⟩) st, none⟩
  | .bfx d a pos len1 ty st => some ⟨mkWord 7#4 (RawA.toBits ⟨32#6, d, a, 0#6, 0#1⟩) st, (some (PayOpx.toBits ⟨0#6, 0#3, ty.code, 0#5, 0#1 ++ (pos ++ len1)⟩))⟩
  | .bfi d a pos len1 ty st => some ⟨mkWord 7#4 (RawA.toBits ⟨33#6, d, a, 0#6, 0#1⟩) st, (some (PayOpx.toBits ⟨0#6, 0#3, ty.code, 0#5, 0#1 ++ (pos ++ len1)⟩))⟩
  | .sel d a b m ty st => some ⟨mkWord 7#4 (RawA.toBits ⟨34#6, d, a, b, 0#1⟩) st, (some (PayOpx.toBits ⟨0#3 ++ m, 0#3, ty.code, 0#5, 0#13⟩))⟩
  | .cvt d a c rm t1 t2 hi st => some ⟨mkWord 7#4 (RawA.toBits ⟨35#6, d, a, 0#6, 0#1⟩) st, (some (PayOpx.toBits ⟨c, rm.code, t1.code, t2.code, BitVec.ofBool hi ++ 0#12⟩))⟩
  | .cvtn d a b rm t1 t2 hi st => some ⟨mkWord 7#4 (RawA.toBits ⟨36#6, d, a, b, 0#1⟩) st, (some (PayOpx.toBits ⟨0#6, rm.code, t1.code, t2.code, BitVec.ofBool hi ++ 0#12⟩))⟩
  | .packhb d a sb rm t1 t2 given gap st => some ⟨mkWord 7#4 (RawA.toBits ⟨37#6, d, a, sb, 0#1⟩) st, (some (PayOpx.toBits ⟨0#6, rm.code, t1.code, t2.code, BitVec.ofBool given ++ (gap ++ 0#8)⟩))⟩
  | .flg2 d a rm ty st => some ⟨mkWord 7#4 (RawA.toBits ⟨38#6, d, a, 0#6, 0#1⟩) st, (some (PayOpx.toBits ⟨0#6, rm.code, ty.code, 0#5, 0#13⟩))⟩
  | .fscale d a b rm ty st => some ⟨mkWord 7#4 (RawA.toBits ⟨39#6, d, a, b, 0#1⟩) st, (some (PayOpx.toBits ⟨0#6, rm.code, ty.code, 0#5, 0#13⟩))⟩
  | .ftwos d a b c ty st => some ⟨mkWord 7#4 (RawA.toBits ⟨40#6, d, a, b, 0#1⟩) st, (some (PayOpx.toBits ⟨c, 0#3, ty.code, 0#5, 0#13⟩))⟩
  | .ftwop d a b c ty st => some ⟨mkWord 7#4 (RawA.toBits ⟨41#6, d, a, b, 0#1⟩) st, (some (PayOpx.toBits ⟨c, 0#3, ty.code, 0#5, 0#13⟩))⟩
  | .frnd d a rm ty st => some ⟨mkWord 7#4 (RawA.toBits ⟨42#6, d, a, 0#6, 0#1⟩) st, (some (PayOpx.toBits ⟨0#6, rm.code, ty.code, 0#5, 0#13⟩))⟩
  | .lred d a op rm ty st => some ⟨mkWord 7#4 (RawA.toBits ⟨43#6, d, a, 0#6, 0#1⟩) st, (some (PayOpx.toBits ⟨0#6, rm.code, ty.code, 0#5, op.code ++ 0#10⟩))⟩
  | .lscan d a op excl rm ty st => some ⟨mkWord 7#4 (RawA.toBits ⟨44#6, d, a, 0#6, 0#1⟩) st, (some (PayOpx.toBits ⟨0#6, rm.code, ty.code, 0#5, op.code ++ (BitVec.ofBool excl ++ 0#9)⟩))⟩
  | .atom d x sb c op ty rm sc sp st => some ⟨mkWord 7#4 (RawA.toBits ⟨45#6, d, x, sb, 0#1⟩) st, (some (PayOpx.toBits ⟨c, rm.code, ty.code, 0#5, op.code ++ (sc ++ (sp.code ++ 0#4))⟩))⟩
  | .red x sb c op ty rm sc sp st => some ⟨mkWord 7#4 (RawA.toBits ⟨46#6, 0#6, x, sb, 0#1⟩) st, (some (PayOpx.toBits ⟨c, rm.code, ty.code, 0#5, op.code ++ (sc ++ (sp.code ++ 0#4))⟩))⟩
  | .cure d a b g rm ty hi sp st => some ⟨mkWord 7#4 (RawA.toBits ⟨47#6, d, a, b, 0#1⟩) st, (some (PayOpx.toBits ⟨g, rm.code, ty.code, 0#5, BitVec.ofBool hi ++ (sp ++ 0#6)⟩))⟩
  | .sadd d a b w st => some ⟨mkWord 8#4 (RawA.toBits ⟨1#6, d, a, b, BitVec.ofBool w⟩) st, none⟩
  | .ssub d a b w st => some ⟨mkWord 8#4 (RawA.toBits ⟨2#6, d, a, b, BitVec.ofBool w⟩) st, none⟩
  | .smul d a b w st => some ⟨mkWord 8#4 (RawA.toBits ⟨3#6, d, a, b, BitVec.ofBool w⟩) st, none⟩
  | .sand d a b w st => some ⟨mkWord 8#4 (RawA.toBits ⟨4#6, d, a, b, BitVec.ofBool w⟩) st, none⟩
  | .sor d a b w st => some ⟨mkWord 8#4 (RawA.toBits ⟨5#6, d, a, b, BitVec.ofBool w⟩) st, none⟩
  | .sxor d a b w st => some ⟨mkWord 8#4 (RawA.toBits ⟨6#6, d, a, b, BitVec.ofBool w⟩) st, none⟩
  | .sshl d a b w st => some ⟨mkWord 8#4 (RawA.toBits ⟨7#6, d, a, b, BitVec.ofBool w⟩) st, none⟩
  | .sshr d a b w st => some ⟨mkWord 8#4 (RawA.toBits ⟨8#6, d, a, b, BitVec.ofBool w⟩) st, none⟩
  | .ssar d a b w st => some ⟨mkWord 8#4 (RawA.toBits ⟨9#6, d, a, b, BitVec.ofBool w⟩) st, none⟩
  | .smin d a b w st => some ⟨mkWord 8#4 (RawA.toBits ⟨10#6, d, a, b, BitVec.ofBool w⟩) st, none⟩
  | .smax d a b w st => some ⟨mkWord 8#4 (RawA.toBits ⟨11#6, d, a, b, BitVec.ofBool w⟩) st, none⟩
  | .sminUnsigned d a b w st => some ⟨mkWord 8#4 (RawA.toBits ⟨12#6, d, a, b, BitVec.ofBool w⟩) st, none⟩
  | .smaxUnsigned d a b w st => some ⟨mkWord 8#4 (RawA.toBits ⟨13#6, d, a, b, BitVec.ofBool w⟩) st, none⟩
  | .ssel d a b w st => some ⟨mkWord 8#4 (RawA.toBits ⟨14#6, d, a, b, BitVec.ofBool w⟩) st, none⟩
  | .smov d a w st => some ⟨mkWord 8#4 (RawA.toBits ⟨15#6, d, a, 0#6, BitVec.ofBool w⟩) st, none⟩
  | .slea d a b w st => some ⟨mkWord 8#4 (RawA.toBits ⟨16#6, d, a, b, BitVec.ofBool w⟩) st, none⟩
  | .scmpEq d a b w st => some ⟨mkWord 8#4 (RawA.toBits ⟨17#6, d, a, b, BitVec.ofBool w⟩) st, none⟩
  | .scmpNe d a b w st => some ⟨mkWord 8#4 (RawA.toBits ⟨18#6, d, a, b, BitVec.ofBool w⟩) st, none⟩
  | .scmpLt d a b w st => some ⟨mkWord 8#4 (RawA.toBits ⟨19#6, d, a, b, BitVec.ofBool w⟩) st, none⟩
  | .scmpLe d a b w st => some ⟨mkWord 8#4 (RawA.toBits ⟨20#6, d, a, b, BitVec.ofBool w⟩) st, none⟩
  | .scmpLtu d a b w st => some ⟨mkWord 8#4 (RawA.toBits ⟨21#6, d, a, b, BitVec.ofBool w⟩) st, none⟩
  | .scmpLeu d a b w st => some ⟨mkWord 8#4 (RawA.toBits ⟨22#6, d, a, b, BitVec.ofBool w⟩) st, none⟩
  | .saddI64Imm9 d a imm st => some ⟨mkWord 9#4 (RawK.toBits ⟨0#4, d, a, imm⟩) st, none⟩
  | .smulI64Imm9 d a imm st => some ⟨mkWord 9#4 (RawK.toBits ⟨1#4, d, a, imm⟩) st, none⟩
  | .sandB64Imm9 d a imm st => some ⟨mkWord 9#4 (RawK.toBits ⟨2#4, d, a, imm⟩) st, none⟩
  | .sorB64Imm9 d a imm st => some ⟨mkWord 9#4 (RawK.toBits ⟨3#4, d, a, imm⟩) st, none⟩
  | .sxorB64Imm9 d a imm st => some ⟨mkWord 9#4 (RawK.toBits ⟨4#4, d, a, imm⟩) st, none⟩
  | .sshlB64Imm9 d a imm st => some ⟨mkWord 9#4 (RawK.toBits ⟨5#4, d, a, imm⟩) st, none⟩
  | .sshrN64Imm9 d a imm st => some ⟨mkWord 9#4 (RawK.toBits ⟨6#4, d, a, imm⟩) st, none⟩
  | .ssarI64Imm9 d a imm st => some ⟨mkWord 9#4 (RawK.toBits ⟨7#4, d, a, imm⟩) st, none⟩
  | .sminI64Imm9 d a imm st => some ⟨mkWord 9#4 (RawK.toBits ⟨8#4, d, a, imm⟩) st, none⟩
  | .smaxI64Imm9 d a imm st => some ⟨mkWord 9#4 (RawK.toBits ⟨9#4, d, a, imm⟩) st, none⟩
  | .sminN64Imm9 d a imm st => some ⟨mkWord 9#4 (RawK.toBits ⟨10#4, d, a, imm⟩) st, none⟩
  | .smaxN64Imm9 d a imm st => some ⟨mkWord 9#4 (RawK.toBits ⟨11#4, d, a, imm⟩) st, none⟩
  | .smoviI64 d imm st => some ⟨mkWord 9#4 (RawK.toBits ⟨12#4, d, 0#6, imm⟩) st, none⟩
  | .smoviN64 d imm st => some ⟨mkWord 9#4 (RawK.toBits ⟨13#4, d, 0#6, imm⟩) st, none⟩
  | .saddI64Imm32 d a imm st => some ⟨mkWord 15#4 (RawA.toBits ⟨0#6, d, a, 0#6, 0#1⟩) st, (some imm)⟩
  | .smulI64Imm32 d a imm st => some ⟨mkWord 15#4 (RawA.toBits ⟨1#6, d, a, 0#6, 0#1⟩) st, (some imm)⟩
  | .sandB64Imm32 d a imm st => some ⟨mkWord 15#4 (RawA.toBits ⟨2#6, d, a, 0#6, 0#1⟩) st, (some imm)⟩
  | .sorB64Imm32 d a imm st => some ⟨mkWord 15#4 (RawA.toBits ⟨3#6, d, a, 0#6, 0#1⟩) st, (some imm)⟩
  | .sxorB64Imm32 d a imm st => some ⟨mkWord 15#4 (RawA.toBits ⟨4#6, d, a, 0#6, 0#1⟩) st, (some imm)⟩
  | .sshlB64Imm32 d a imm st => some ⟨mkWord 15#4 (RawA.toBits ⟨5#6, d, a, 0#6, 0#1⟩) st, (some imm)⟩
  | .sshrN64Imm32 d a imm st => some ⟨mkWord 15#4 (RawA.toBits ⟨6#6, d, a, 0#6, 0#1⟩) st, (some imm)⟩
  | .ssarI64Imm32 d a imm st => some ⟨mkWord 15#4 (RawA.toBits ⟨7#6, d, a, 0#6, 0#1⟩) st, (some imm)⟩
  | .sminI64Imm32 d a imm st => some ⟨mkWord 15#4 (RawA.toBits ⟨8#6, d, a, 0#6, 0#1⟩) st, (some imm)⟩
  | .smaxI64Imm32 d a imm st => some ⟨mkWord 15#4 (RawA.toBits ⟨9#6, d, a, 0#6, 0#1⟩) st, (some imm)⟩
  | .sminN64Imm32 d a imm st => some ⟨mkWord 15#4 (RawA.toBits ⟨10#6, d, a, 0#6, 0#1⟩) st, (some imm)⟩
  | .smaxN64Imm32 d a imm st => some ⟨mkWord 15#4 (RawA.toBits ⟨11#6, d, a, 0#6, 0#1⟩) st, (some imm)⟩
  | .smoviI64Imm32 d imm st => some ⟨mkWord 15#4 (RawA.toBits ⟨12#6, d, 0#6, 0#6, 0#1⟩) st, (some imm)⟩
  | .smoviN64Imm32 d imm st => some ⟨mkWord 15#4 (RawA.toBits ⟨13#6, d, 0#6, 0#6, 0#1⟩) st, (some imm)⟩
  | .bra off st => some ⟨mkWord 10#4 (RawB.toBits ⟨0#4, 0#6, off⟩) st, none⟩
  | .brc z a off st => some ⟨mkWord 10#4 (RawB.toBits ⟨1#4, BitVec.ofBool z ++ a, off⟩) st, none⟩
  | .brl neg m off st => some ⟨mkWord 10#4 (RawB.toBits ⟨2#4, 0#2 ++ (BitVec.ofBool neg ++ m), off⟩) st, none⟩
  | .call off st => some ⟨mkWord 10#4 (RawB.toBits ⟨3#4, 0#6, off⟩) st, none⟩
  | .ret st => some ⟨mkWord 10#4 (RawB.toBits ⟨4#4, 0#6, 0#15⟩) st, none⟩
  | .join st => some ⟨mkWord 10#4 (RawB.toBits ⟨5#4, 0#6, 0#15⟩) st, none⟩
  | .yield st => some ⟨mkWord 10#4 (RawB.toBits ⟨6#4, 0#6, 0#15⟩) st, none⟩
  | .exit st => some ⟨mkWord 10#4 (RawB.toBits ⟨7#4, 0#6, 0#15⟩) st, none⟩
  | .land st => some ⟨mkWord 10#4 (RawB.toBits ⟨8#4, 0#6, 0#15⟩) st, none⟩
  | .jmpiUniform a st => some ⟨mkWord 10#4 (RawB.toBits ⟨9#4, a, 0#15⟩) st, none⟩
  | .jmpiLane a st => some ⟨mkWord 10#4 (RawB.toBits ⟨10#4, a, 0#15⟩) st, none⟩
  | .barInit d a k sp st => some ⟨mkWord 11#4 (RawS.toBits ⟨1#5, d, a, k, sp.code⟩) st, none⟩
  | .barArr a k sp st => some ⟨mkWord 11#4 (RawS.toBits ⟨2#5, 0#6, a, k, sp.code⟩) st, none⟩
  | .barWait d a k sp st => some ⟨mkWord 11#4 (RawS.toBits ⟨3#5, d, a, k, sp.code⟩) st, none⟩
  | .barSync cum r a k sp st => some ⟨mkWord 11#4 (RawS.toBits ⟨4#5, BitVec.ofBool cum ++ r, a, k, sp.code⟩) st, none⟩
  | .barQ d a k sp st => some ⟨mkWord 11#4 (RawS.toBits ⟨5#5, d, a, k, sp.code⟩) st, none⟩
  | .semInit d a k st => some ⟨mkWord 11#4 (RawS.toBits ⟨6#5, d, a, k, 0#3⟩) st, none⟩
  | .semAcq d a k sp st => some ⟨mkWord 11#4 (RawS.toBits ⟨7#5, d, a, k, sp.code⟩) st, none⟩
  | .semRel a k sp st => some ⟨mkWord 11#4 (RawS.toBits ⟨8#5, 0#6, a, k, sp.code⟩) st, none⟩
  | .semTry d a k sp st => some ⟨mkWord 11#4 (RawS.toBits ⟨9#5, d, a, k, sp.code⟩) st, none⟩
  | .hodInit a k st => some ⟨mkWord 11#4 (RawS.toBits ⟨10#5, 0#6, a, k, 0#3⟩) st, none⟩
  | .hodPut d a k st => some ⟨mkWord 11#4 (RawS.toBits ⟨11#5, d, a, k, 0#3⟩) st, none⟩
  | .hodGet d a k st => some ⟨mkWord 11#4 (RawS.toBits ⟨12#5, d, a, k, 0#3⟩) st, none⟩
  | .hodTry d a k st => some ⟨mkWord 11#4 (RawS.toBits ⟨13#5, d, a, k, 0#3⟩) st, none⟩
  | .hodClose a k st => some ⟨mkWord 11#4 (RawS.toBits ⟨14#5, 0#6, a, k, 0#3⟩) st, none⟩
  | .fence cum kind sp st => some ⟨mkWord 11#4 (RawS.toBits ⟨15#5, 0#6, 0#6, 0#2 ++ (BitVec.ofBool cum ++ kind), sp.code⟩) st, none⟩
  | .wait n a k st => some ⟨mkWord 11#4 (RawS.toBits ⟨16#5, 0#3 ++ n, a, k, 0#3⟩) st, none⟩
  | .accalloc d a k st => some ⟨mkWord 11#4 (RawS.toBits ⟨17#5, d, a, k, 0#3⟩) st, none⟩
  | .accfree a k st => some ⟨mkWord 11#4 (RawS.toBits ⟨18#5, 0#6, a, k, 0#3⟩) st, none⟩
  | .lds d sb imm st => some ⟨mkWord 12#4 (RawK.toBits ⟨0#4, d, sb, imm⟩) st, none⟩
  | .sts d sb imm st => some ⟨mkWord 12#4 (RawK.toBits ⟨1#4, d, sb, imm⟩) st, none⟩
  | .bind d sb imm st => some ⟨mkWord 12#4 (RawK.toBits ⟨2#4, d, sb, imm⟩) st, none⟩
  | .unbind d st => some ⟨mkWord 12#4 (RawK.toBits ⟨3#4, d, 0#6, 0#9⟩) st, none⟩
  | .ldsDisp d sb disp st => some ⟨mkWord 15#4 (RawA.toBits ⟨16#6, d, sb, 0#6, 0#1⟩) st, (some (PayMem.toBits ⟨0#2, disp⟩))⟩
  | .stsDisp d sb disp st => some ⟨mkWord 15#4 (RawA.toBits ⟨17#6, d, sb, 0#6, 0#1⟩) st, (some (PayMem.toBits ⟨0#2, disp⟩))⟩
  | .bindDisp d sb disp st => some ⟨mkWord 15#4 (RawA.toBits ⟨18#6, d, sb, 0#6, 0#1⟩) st, (some (PayMem.toBits ⟨0#2, disp⟩))⟩
  | .unbindDisp d st => some ⟨mkWord 15#4 (RawA.toBits ⟨19#6, d, 0#6, 0#6, 0#1⟩) st, (some (PayMem.toBits ⟨0#2, 0#30⟩))⟩
  | .nop st => some ⟨mkWord 13#4 (RawY.toBits ⟨0#6, 0#6, 0#6, 0#7⟩) st, none⟩
  | .sysr d y st => some ⟨mkWord 13#4 (RawY.toBits ⟨1#6, d, 0#6, y⟩) st, none⟩
  | .sysw a y st => some ⟨mkWord 13#4 (RawY.toBits ⟨2#6, 0#6, a, y⟩) st, none⟩
  | .modeRm d code st => some ⟨mkWord 13#4 (RawY.toBits ⟨3#6, d, 0#6, 0#4 ++ code.code⟩) st, none⟩
  | .modeTenSet d mask st => some ⟨mkWord 13#4 (RawY.toBits ⟨3#6, d, 0#6, 1#2 ++ mask⟩) st, none⟩
  | .modeTenClr d mask st => some ⟨mkWord 13#4 (RawY.toBits ⟨3#6, d, 0#6, 2#2 ++ mask⟩) st, none⟩
  | .modeReg d a st => some ⟨mkWord 13#4 (RawY.toBits ⟨3#6, d, a, 96#7⟩) st, none⟩
  | .srseed a st => some ⟨mkWord 13#4 (RawY.toBits ⟨4#6, 0#6, a, 0#7⟩) st, none⟩
  | .splitq d st => some ⟨mkWord 13#4 (RawY.toBits ⟨5#6, d, 0#6, 0#7⟩) st, none⟩
  | .trap n st => some ⟨mkWord 13#4 (RawY.toBits ⟨6#6, 0#6, 0#6, n⟩) st, none⟩
  | .rte st => some ⟨mkWord 13#4 (RawY.toBits ⟨7#6, 0#6, 0#6, 0#7⟩) st, none⟩
  | .rteKill st => some ⟨mkWord 13#4 (RawY.toBits ⟨7#6, 0#6, 0#6, 1#7⟩) st, none⟩
  | .bkpt n st => some ⟨mkWord 13#4 (RawY.toBits ⟨8#6, 0#6, 0#6, n⟩) st, none⟩
  | .halt st => some ⟨mkWord 13#4 (RawY.toBits ⟨9#6, 0#6, 0#6, 0#7⟩) st, none⟩
  | .copyq d a st => some ⟨mkWord 13#4 (RawY.toBits ⟨10#6, d, a, 0#7⟩) st, none⟩
  | .copyqBytes d a st => some ⟨mkWord 13#4 (RawY.toBits ⟨10#6, d, a, 1#7⟩) st, none⟩
  | .tlbiRange a sp st => some ⟨mkWord 13#4 (RawY.toBits ⟨11#6, 0#6, a, 0#3 ++ (0#1 ++ sp.code)⟩) st, none⟩
  | .tlbiAll a sp st => some ⟨mkWord 13#4 (RawY.toBits ⟨11#6, 0#6, a, 0#3 ++ (1#1 ++ sp.code)⟩) st, none⟩
  | .tapeOpen d a br st => some ⟨mkWord 13#4 (RawY.toBits ⟨12#6, d, a, 0#6 ++ BitVec.ofBool br⟩) st, none⟩
  | .tapeSeal d st => some ⟨mkWord 13#4 (RawY.toBits ⟨13#6, d, 0#6, 0#7⟩) st, none⟩
  | .tapeRev st => some ⟨mkWord 13#4 (RawY.toBits ⟨14#6, 0#6, 0#6, 0#7⟩) st, none⟩
  | .tapeClose st => some ⟨mkWord 13#4 (RawY.toBits ⟨15#6, 0#6, 0#6, 0#7⟩) st, none⟩
  | .launch d a st => some ⟨mkWord 14#4 (RawL.toBits ⟨1#6, d, a, 0#3, 0#4⟩) st, none⟩
  | .prio d a k st => some ⟨mkWord 14#4 (RawL.toBits ⟨2#6, d, a, 0#3, k⟩) st, none⟩
  | .courseRd d st => some ⟨mkWord 14#4 (RawL.toBits ⟨3#6, d, 0#6, 0#3, 0#4⟩) st, none⟩
  | .courseEnd d st => some ⟨mkWord 14#4 (RawL.toBits ⟨3#6, d, 0#6, 0#3, 1#4⟩) st, none⟩
  | .roleq d a k st => some ⟨mkWord 14#4 (RawL.toBits ⟨4#6, d, a, 0#3, 0#2 ++ k⟩) st, none⟩
  | .rqmovGive d a role st => some ⟨mkWord 14#4 (RawL.toBits ⟨5#6, d, a, 0#3, 0#2 ++ role⟩) st, none⟩
  | .rqmovTake d a st => some ⟨mkWord 14#4 (RawL.toBits ⟨5#6, d, a, 0#3, 8#4⟩) st, none⟩
  | .collRed d a bin n st => some ⟨mkWord 14#4 (RawL.toBits ⟨6#6, d, a, 0#3, 0#1 ++ (BitVec.ofBool bin ++ n)⟩) st, none⟩
  | .collMaxe d a st => some ⟨mkWord 14#4 (RawL.toBits ⟨7#6, d, a, 0#3, 0#4⟩) st, none⟩
  | .collBcst d a st => some ⟨mkWord 14#4 (RawL.toBits ⟨8#6, d, a, 0#3, 0#4⟩) st, none⟩
  | .putw d a st => some ⟨mkWord 14#4 (RawL.toBits ⟨9#6, d, a, 0#3, 0#4⟩) st, none⟩
  | .sigwSet d a st => some ⟨mkWord 14#4 (RawL.toBits ⟨10#6, d, a, 0#3, 0#4⟩) st, none⟩
  | .sigwAdd d a st => some ⟨mkWord 14#4 (RawL.toBits ⟨10#6, d, a, 0#3, 1#4⟩) st, none⟩
  | .rfenceRel st => some ⟨mkWord 14#4 (RawL.toBits ⟨11#6, 0#6, 0#6, 0#3, 1#4⟩) st, none⟩
  | .copy d a b c chain ck cmp hod st => some ⟨mkWord 15#4 (RawA.toBits ⟨32#6, d, a, b, 0#1⟩) st, (some (PayOpx.toBits ⟨c, 0#3, 0#5, 0#5, BitVec.ofBool chain ++ (BitVec.ofBool ck ++ (BitVec.ofBool cmp ++ (BitVec.ofBool hod ++ 0#9)))⟩))⟩
  | .fltrecClaim d st => some ⟨mkWord 13#4 (RawY.toBits ⟨1#6, d, 0#6, 12#7⟩) st, none⟩
  | .fltdoneAnswer a st => some ⟨mkWord 13#4 (RawY.toBits ⟨2#6, 0#6, a, 13#7⟩) st, none⟩
  | .rlogClaim d st => some ⟨mkWord 13#4 (RawY.toBits ⟨1#6, d, 0#6, 25#7⟩) st, none⟩
  | .tapesegAppend a st => some ⟨mkWord 13#4 (RawY.toBits ⟨2#6, 0#6, a, 9#7⟩) st, none⟩
  | .injectDisarm => none
  | .injectAccEntry _ _ _ _ => none
  | .injectLaneReg _ _ _ => none
  | .injectLocalLine _ _ => none
  | .injectCopyArm _ _ => none
  | .injectFpArm _ => none
  | .injectMatrixArm _ _ => none
  | .injectLocalDouble _ _ => none
  | .injectAddrLine _ => none
  | .attestRequest a st => some ⟨mkWord 13#4 (RawY.toBits ⟨2#6, 0#6, a, 36#7⟩) st, none⟩
  | .attestQuote => none
  | .lrecSubmit _ => none
  | .wstatClear _ => none
  | .hostWrite _ _ => none
  | .hostRead _ _ => none
  | .loadComplete _ => none
  | .storePerformed _ => none
  | .fxFlagWrite _ => none
  | .collectionWindowClose _ => none
  | .shadowDivergence _ => none
  | .trapSlotEntry _ => none
  | .debugStep _ _ => none
  | .haltResume _ => none
  | .arrayRun _ => none
  | .quadRendezvous _ => none
  | .accallocGrant _ => none
  | .ldtvAttempt _ => none
  | .arrivalCounted _ => none
  | .hodSlotPerformed _ => none
  | .copyHodAccept _ => none
  | .copySpan _ => none
  | .tlbiComplete _ => none
  | .tapeSealComplete _ => none
  | .sigwFlagUpdate _ => none
  | .rfenceMarkerDone _ => none
  | .collectiveComplete _ _ => none
  | .negativeResponse _ _ => none
  | .flitCrcRetry _ => none
  | .keyRevoke _ => none
  | .keyAssign _ _ => none
  | .launchAccept _ => none
  | .launchAdmit _ => none
  | .wallPlace _ => none
  | .preempt _ => none
  | .wallRestore _ => none
  | .launchDone _ => none
  | .courseCommit _ => none
  | .syncOpEvaluate _ _ => none
  | .brickKill _ => none
  | .controlScrub => none
  | .machineCheck _ => none
  | .powerOnBoot => none
  | .sagTrip _ => none
  | .sagRelease _ => none
  | .powerSample _ => none
  | .thermalThrottle _ _ => none
  | .thermalShutdown _ _ => none
  | .thermalRecover _ _ => none
  | .unassignedEncoding _ _ => none
  | .linkRestore _ => none
  | .debugResume _ => none
  | .tapeRecordComplete _ => none
  | .fabricRequestArrival _ => none

/-- An instruction's words as the hardware lays them out: 4 bytes a word, least significant first, the first word at
the lower address (R27). -/
def wordBytes (w : IWord) : List Byte := [w.extractLsb' 0 8, w.extractLsb' 8 8, w.extractLsb' 16 8, w.extractLsb' 24 8]

/-- A word from four bytes (R27). -/
def wordOfBytes (b0 b1 b2 b3 : Byte) : IWord := b3 ++ (b2 ++ (b1 ++ b0))

/-- Decoding bytes as they stand in memory: the first word, and the word after it when the class calls for one; the
rest of the bytes. Fewer bytes than the instruction needs give nothing. -/
noncomputable def decodeBytes : List Byte → Option (Decoded × List Byte)
  | b0 :: b1 :: b2 :: b3 :: rest =>
    let w := wordOfBytes b0 b1 b2 b3
    if isTwoWord w then
      match rest with
      | c0 :: c1 :: c2 :: c3 :: rest' => some (decodeWords w (wordOfBytes c0 c1 c2 c3), rest')
      | _ => none
    else some (decodeWords w 0#32, rest)
  | _ => none

/-- The instruction that the decoder reads from the bits of an opcode-table row: bit 0 is the least significant bit of
the first word, and the payload's bits count on from bit 32. -/
noncomputable def decodeTableWord (_nbits w : Nat) : Option Instr :=
  match decodeBytes (wordBytes (BitVec.ofNat 32 w) ++ wordBytes (BitVec.ofNat 32 (w / 2 ^ 32))) with
  | some (.instr i, _) => some i
  | _ => none

end Sys2Proof
end

