-- ==== Sys2Proof/Config.lean ====
section
/-!
DEFINITION. What an implementation fixes and what the spec leaves open: constants without a body. Nothing in Lean can
evaluate one or prove a value of one, so a statement about the machine holds whatever they are.
-/
namespace Sys2Proof.Config

/-- Cycles that an operation of variable latency takes beyond the next one (R99: forms not listed are
variable-latency); applied to the counter of free values. -/
opaque latency : Nat → Nat
/-- A choice that the spec allows either way (R334: a cached translation or a new walk; R361: an operation in flight at
a kill is performed or dropped), applied to the counter of free values. -/
opaque choice : Nat → Bool

/-- The sign, exponent and leading bits that a diverging shadow unit formed (R355, R366), applied to the counter of free
values. -/
opaque shadow : Nat → BitVec 32

/-- A value that the spec leaves open (the packing of a location in the reliability log, R365; a measurement), applied to
the counter of free values. -/
opaque word : Nat → BitVec 64

/-- Silicon stepping and firmware release of SY_HKID (R396). -/
opaque stepping : BitVec 8
opaque firmware : BitVec 8
/-- Brynay's root public key, which is fused into every die (R387). -/
opaque rootKey : List Byte
/-- A die's copy of the firmware image and its signature, its defect map and the map's signature (R387, R388). -/
opaque image : Nat → List Byte
opaque imageSignature : Nat → List Byte
opaque defectMap : Nat → List Byte
opaque mapSignature : Nat → List Byte
/-- The public keys that the firmware installs in the four slots (R390). -/
opaque keySlot : Nat → Option (List Byte)
/-- The 32 bytes derived from fused secrets that the identity key comes from (R391). -/
opaque identitySecret : List Byte

end Sys2Proof.Config
end

