-- ==== Sys2Proof/Machine/Float.lean ====
section
/-!
DEFINITION. Floating-point values as exact numbers and the one rounding of R78, R81 and R84: the formats of R68 and R69,
unpacking, rounding to a format with the five flags of R139, and the IEEE operations of R129 and R131 on exact values.
-/
namespace Sys2Proof.Machine

/-- The five flags of R139: bit 0 invalid, 1 divide by zero, 2 overflow, 3 underflow, 4 inexact. -/
abbrev Flags := BitVec 5
def flagInvalid : Flags := 1#5
def flagDivZero : Flags := 2#5
def flagOverflow : Flags := 4#5
def flagUnderflow : Flags := 8#5
def flagInexact : Flags := 16#5
def flagNone : Flags := 0#5

/-- An exact value: a NaN (signalling or not), an infinity, or (−1)^neg · m · 2^e; m = 0 is a zero of that sign. -/
inductive FVal where
  | nan (signalling : Bool)
  | inf (neg : Bool)
  | fin (neg : Bool) (m : Nat) (e : Int)
  deriving DecidableEq, Repr

/-- A floating-point format (R68, R69): exponent and fraction widths, the exponent of the least subnormal, the
encoding of the largest finite value, the canonical NaN of R71, and whether it has infinities. -/
structure Fmt where
  ebits   : Nat
  fbits   : Nat
  qmin    : Int
  maxBits : Nat
  nanBits : Nat
  hasInf  : Bool
  deriving DecidableEq, Repr

def fmtF64 : Fmt := ⟨11, 52, -1074, 0x7FEFFFFFFFFFFFFF, 0x7FF8000000000000, true⟩
def fmtF32 : Fmt := ⟨8, 23, -149, 0x7F7FFFFF, 0x7FC00000, true⟩
def fmtF16 : Fmt := ⟨5, 10, -24, 0x7BFF, 0x7E00, true⟩
def fmtBf16 : Fmt := ⟨8, 7, -133, 0x7F7F, 0x7FC0, true⟩
def fmtE5m2 : Fmt := ⟨5, 2, -16, 0x7B, 0x7E, true⟩
def fmtE4m3 : Fmt := ⟨4, 3, -9, 0x7E, 0x7F, false⟩

/-- Width of the format in bits. -/
def Fmt.width (f : Fmt) : Nat := 1 + f.ebits + f.fbits

/-- The exact value of an encoding (R68, R69). -/
def fUnpack (f : Fmt) (bits : Nat) : FVal :=
  let frac := bits % 2 ^ f.fbits
  let ex := bits / 2 ^ f.fbits % 2 ^ f.ebits
  let neg := bits / 2 ^ (f.fbits + f.ebits) % 2 == 1
  if f.hasInf && ex == 2 ^ f.ebits - 1 then
    (if frac == 0 then .inf neg else .nan (frac < 2 ^ (f.fbits - 1)))
  else if !f.hasInf && bits % 2 ^ (f.fbits + f.ebits) == f.nanBits then .nan false
  else if ex == 0 then .fin neg frac f.qmin
  else .fin neg (frac + 2 ^ f.fbits) (f.qmin + (ex - 1 : Nat))

/-- How a magnitude rounds (R60, R81): one of the five deterministic modes, or stochastically with a 16-bit draw. -/
inductive Rounding where
  | det (rm : Rm)
  | stoch (r : Nat)
  deriving DecidableEq, Repr

/-- Whether the magnitude k.rest goes away from zero to k + 1: `half` compares the dropped part with one half, `f` is
⌊frac · 2^16⌋, and the dropped part is not zero (R78, R81). -/
def roundsAway (rd : Rounding) (neg odd : Bool) (half : Ordering) (f : Nat) : Bool :=
  match rd with
  | .stoch r => decide (f + r ≥ 65536)
  | .det .rtz => false
  | .det .rup => !neg
  | .det .rdn => neg
  | .det .rna => half != .lt
  | .det _ => half == .gt || (half == .eq && odd)

/-- m · 2^e (with more below the last bit when sticky) as a whole number of units 2^q, rounded once; and whether the
result differs from the exact value. -/
def roundAt (rd : Rounding) (neg : Bool) (m : Nat) (e : Int) (sticky : Bool) (q : Int) : Nat × Bool :=
  if q ≤ e then
    let k := m <<< (e - q).toNat
    if sticky then ((if roundsAway rd neg (k % 2 == 1) .lt 0 then k + 1 else k), true) else (k, false)
  else
    let s := (q - e).toNat
    if s > m.log2 + 20 then
      (if m == 0 && !sticky then (0, false)
       else ((if roundsAway rd neg false .lt 0 then 1 else 0), true))
    else
      let k := m >>> s
      let rem := m % 2 ^ s
      if rem == 0 && !sticky then (k, false)
      else
        let half := if 2 * rem < 2 ^ s then Ordering.lt else if 2 * rem == 2 ^ s && !sticky then .eq else .gt
        ((if roundsAway rd neg (k % 2 == 1) half ((rem <<< 16) >>> s) then k + 1 else k), true)

/-- The sign bit over a magnitude's encoding. -/
def signedBits (f : Fmt) (neg : Bool) (mag : Nat) : Nat := if neg then mag + 2 ^ (f.ebits + f.fbits) else mag

/-- Overflow by mode (R78; E4M3 saturates in every mode, R84; stochastic rounding gives the largest magnitude, R81). -/
def overflowMag (f : Fmt) (rd : Rounding) (neg : Bool) : Nat :=
  if !f.hasInf then f.maxBits
  else match rd with
    | .stoch _ => f.maxBits
    | .det .rtz => f.maxBits
    | .det .rup => if neg then f.maxBits else f.maxBits + 1
    | .det .rdn => if neg then f.maxBits + 1 else f.maxBits
    | .det _ => f.maxBits + 1

/-- Rounds (−1)^neg · m · 2^e once to the format, with tininess detected after rounding (R70, R78, R81). A sticky value
is more than m and less than m + 1 in its last place; its m is then long enough that the last place is below the
rounding position. -/
def fRound (f : Fmt) (rd : Rounding) (neg : Bool) (m : Nat) (e : Int) (sticky : Bool := false) : Nat × Flags :=
  if m == 0 && !sticky then (signedBits f neg 0, flagNone)
  else
    let top : Int := e + m.log2
    let qn := top - f.fbits
    let q := max qn f.qmin
    let (k, inexact) := roundAt rd neg m e sticky q
    let mag := k + (q - f.qmin).toNat * 2 ^ f.fbits
    if mag > f.maxBits then (signedBits f neg (overflowMag f rd neg), flagOverflow ||| flagInexact)
    else
      let emin := f.qmin + f.fbits
      let tiny := decide (top < emin) &&
        (let (k', _) := roundAt rd neg m e sticky qn
         !(decide (top + 1 = emin) && decide (k' ≥ 2 ^ (f.fbits + 1))))
      (signedBits f neg mag,
        (if inexact then flagInexact else flagNone) ||| (if inexact && tiny then flagUnderflow else flagNone))

/-- The infinity of a format with a sign. -/
def fInf (f : Fmt) (neg : Bool) : Nat := signedBits f neg (f.maxBits + 1)

/-- Invalid for a signalling NaN operand (R71). -/
def sigInvalid : FVal → Flags
  | .nan true => flagInvalid
  | _ => flagNone

def isNaN : FVal → Bool
  | .nan _ => true
  | _ => false

/-- The value is zero. -/
def isZero : FVal → Bool
  | .fin _ 0 _ => true
  | _ => false

/-- The sign of a value that is not a NaN. -/
def signOf : FVal → Bool
  | .nan _ => false
  | .inf n => n
  | .fin n _ _ => n

def negate : FVal → FVal
  | .nan s => .nan s
  | .inf n => .inf !n
  | .fin n m e => .fin (!n) m e

/-- The signed integer of a finite value at the scale 2^e'; e' is at most its own exponent. -/
def scaledInt (neg : Bool) (m : Nat) (e e' : Int) : Int :=
  let v : Int := (m <<< (e - e').toNat : Nat)
  if neg then -v else v

/-- The exact sum of two finite values; the sign of an exact zero is `zneg` unless both are zeros of one sign. -/
def addFin (n1 : Bool) (m1 : Nat) (e1 : Int) (n2 : Bool) (m2 : Nat) (e2 : Int) (zneg : Bool) : Bool × Nat × Int :=
  if m1 == 0 && m2 == 0 then ((if n1 == n2 then n1 else zneg), 0, 0)
  else if m1 == 0 then (n2, m2, e2)
  else if m2 == 0 then (n1, m1, e1)
  else
    let e := min e1 e2
    let s := scaledInt n1 m1 e1 e + scaledInt n2 m2 e2 e
    if s == 0 then (zneg, 0, 0) else (decide (s < 0), s.natAbs, e)

/-- The mode of an exact cancellation: −0 only when rounding down (IEEE), +0 always in the sum-forming engines (R87). -/
def cancelNeg (rd : Rounding) (sums : Bool) : Bool := !sums && rd == .det .rdn

/-- a + b rounded once (R129); `sums` selects the signed zeros of R87. -/
def fAdd (f : Fmt) (rd : Rounding) (sums : Bool) (a b : FVal) : Nat × Flags :=
  match a, b with
  | .nan _, _ => (f.nanBits, sigInvalid a ||| sigInvalid b)
  | _, .nan _ => (f.nanBits, sigInvalid b)
  | .inf n, .inf n' => if n == n' then (fInf f n, flagNone) else (f.nanBits, flagInvalid)
  | .inf n, _ => (fInf f n, flagNone)
  | _, .inf n => (fInf f n, flagNone)
  | .fin n1 m1 e1, .fin n2 m2 e2 =>
    let (n, m, e) := addFin n1 m1 e1 n2 m2 e2 (cancelNeg rd sums)
    fRound f rd n m e

/-- The exact product; ∞ × 0 is a NaN whose invalid the second component raises. -/
def mulExact (a b : FVal) : FVal × Flags :=
  match a, b with
  | .nan _, _ => (.nan false, sigInvalid a ||| sigInvalid b)
  | _, .nan _ => (.nan false, sigInvalid b)
  | .inf n, b => if isZero b then (.nan false, flagInvalid) else (.inf (n != signOf b), flagNone)
  | a, .inf n => if isZero a then (.nan false, flagInvalid) else (.inf (signOf a != n), flagNone)
  | .fin n1 m1 e1, .fin n2 m2 e2 => (.fin (n1 != n2) (m1 * m2) (e1 + e2), flagNone)

/-- An exact value delivered in a format. -/
def fDeliver (f : Fmt) (rd : Rounding) (v : FVal) : Nat × Flags :=
  match v with
  | .nan _ => (f.nanBits, flagNone)
  | .inf n => (fInf f n, flagNone)
  | .fin n m e => fRound f rd n m e

/-- a × b rounded once (R129). -/
def fMul (f : Fmt) (rd : Rounding) (a b : FVal) : Nat × Flags :=
  let (p, fl) := mulExact a b
  let (r, fl') := fDeliver f rd p
  (r, fl ||| fl')

/-- a × b + c rounded once on the exact value; ∞ × 0 plus any addend raises invalid, a quiet NaN addend included
(R129). -/
def fFma (f : Fmt) (rd : Rounding) (a b c : FVal) : Nat × Flags :=
  let (p, fl) := mulExact a b
  let (r, fl') := fAdd f rd false p c
  (r, fl ||| fl' ||| sigInvalid c)

/-- IEEE minimumNumber and maximumNumber; −0 is below +0 (R129). -/
def fLess (a b : FVal) : Bool :=
  match a, b with
  | .inf n, .inf n' => n && !n'
  | .inf n, .fin _ _ _ => n
  | .fin _ _ _, .inf n => !n
  | .fin n1 m1 e1, .fin n2 m2 e2 =>
    let e := min e1 e2
    decide (scaledInt n1 m1 e1 e < scaledInt n2 m2 e2 e)
  | _, _ => false

/-- Numerical equality; −0 equals +0, a NaN equals nothing. -/
def fEqual (a b : FVal) : Bool := !isNaN a && !isNaN b && !fLess a b && !fLess b a

/-- FMIN and FMAX on the encodings, by R129: the operand that is not a NaN when just one is, the canonical NaN when
both are. -/
def fMinMax (f : Fmt) (isMax : Bool) (x y : Nat) : Nat × Flags :=
  let a := fUnpack f x
  let b := fUnpack f y
  let fl := sigInvalid a ||| sigInvalid b
  if isNaN a && isNaN b then (f.nanBits, fl)
  else if isNaN a then (y, fl)
  else if isNaN b then (x, fl)
  else
    let aFirst := fLess a b || (fEqual a b && signOf a && !signOf b)
    ((if aFirst != isMax then x else y), fl)

/-- a / b rounded once (R129, R130). -/
def fDiv (f : Fmt) (rd : Rounding) (a b : FVal) : Nat × Flags :=
  match a, b with
  | .nan _, _ => (f.nanBits, sigInvalid a ||| sigInvalid b)
  | _, .nan _ => (f.nanBits, sigInvalid b)
  | .inf _, .inf _ => (f.nanBits, flagInvalid)
  | .inf n, .fin n' _ _ => (fInf f (n != n'), flagNone)
  | .fin n _ _, .inf n' => (signedBits f (n != n') 0, flagNone)
  | .fin n1 m1 e1, .fin n2 m2 e2 =>
    let n := n1 != n2
    if m2 == 0 then
      (if m1 == 0 then (f.nanBits, flagInvalid) else (fInf f n, flagDivZero))
    else if m1 == 0 then (signedBits f n 0, flagNone)
    else
      let s := f.fbits + 4 + m2.log2
      let num := m1 <<< s
      fRound f rd n (num / m2) (e1 - e2 - s) (num % m2 != 0)

/-- One digit of the integer square root, from the top bit down. -/
def isqrtStep (n r : Nat) (k : Nat) : Nat := if (r + 2 ^ k) * (r + 2 ^ k) ≤ n then r + 2 ^ k else r

/-- ⌊√n⌋, one bit at a time: `k` bits are still open. -/
def isqrtGo (n : Nat) : Nat → Nat → Nat
  | 0, r => r
  | k + 1, r => isqrtGo n k (isqrtStep n r k)

/-- ⌊√n⌋. -/
def isqrt (n : Nat) : Nat := isqrtGo n (n.log2 / 2 + 1) 0

/-- √a rounded once (R130). -/
def fSqrt (f : Fmt) (rd : Rounding) (a : FVal) : Nat × Flags :=
  match a with
  | .nan _ => (f.nanBits, sigInvalid a)
  | .inf n => if n then (f.nanBits, flagInvalid) else (fInf f false, flagNone)
  | .fin n m e =>
    if m == 0 then (signedBits f n 0, flagNone)
    else if n then (f.nanBits, flagInvalid)
    else
      let s := 2 * (f.fbits + 4)
      let odd := e % 2 != 0
      let x := m <<< (if odd then s + 1 else s)
      let e' := if odd then (e - 1 - s) / 2 else (e - s) / 2
      let r := isqrt x
      fRound f rd false r e' (r * r != x)

/-- 1/√a rounded once (R130). -/
def fRsqrt (f : Fmt) (rd : Rounding) (a : FVal) : Nat × Flags :=
  match a with
  | .nan _ => (f.nanBits, sigInvalid a)
  | .inf n => if n then (f.nanBits, flagInvalid) else (signedBits f false 0, flagNone)
  | .fin n m e =>
    if m == 0 then (fInf f n, flagDivZero)
    else if n then (f.nanBits, flagInvalid)
    else
      let odd := e % 2 != 0
      let m' := if odd then 2 * m else m
      let h := (if odd then e - 1 else e) / 2
      let k := f.fbits + 4 + m'.log2
      let r := isqrt (2 ^ (2 * k) / m')
      fRound f rd false r (-h - k) (r * r * m' != 2 ^ (2 * k))

/-- 1 / a rounded once (R130). -/
def fRcp (f : Fmt) (rd : Rounding) (a : FVal) : Nat × Flags := fDiv f rd (.fin false 1 0) a

/-- a × 2^n rounded once; NaN and ∞ pass, ±0 stays (R132). -/
def fScale (f : Fmt) (rd : Rounding) (a : FVal) (n : Int) : Nat × Flags :=
  match a with
  | .nan _ => (f.nanBits, sigInvalid a)
  | .inf s => (fInf f s, flagNone)
  | .fin s m e => fRound f rd s m (e + n)

/-- a rounded to an integral value; inexact when it changes (R132). -/
def fRnd (f : Fmt) (rd : Rounding) (a : FVal) : Nat × Flags :=
  match a with
  | .nan _ => (f.nanBits, sigInvalid a)
  | .inf s => (fInf f s, flagNone)
  | .fin s m e =>
    if 0 ≤ e then fRound f rd s m e
    else
      let (k, inexact) := roundAt rd s m e false 0
      ((fRound f rd s k 0).1, if inexact then flagInexact else flagNone)

/-- The one-hot class of R131. -/
def fClass (f : Fmt) (bits : Nat) : Nat :=
  let sub (m : Nat) : Bool := m < 2 ^ f.fbits
  match fUnpack f bits with
  | .nan true => 1
  | .nan false => 2
  | .inf true => 4
  | .inf false => 512
  | .fin true m _ => if m == 0 then 32 else if sub m then 16 else 8
  | .fin false m _ => if m == 0 then 64 else if sub m then 128 else 256

/-- FABS and FNEG on an encoding: a NaN gives the canonical NaN, no flag (R131). -/
def fAbsBits (f : Fmt) (bits : Nat) : Nat :=
  if isNaN (fUnpack f bits) then f.nanBits else bits % 2 ^ (f.ebits + f.fbits)
def fNegBits (f : Fmt) (bits : Nat) : Nat :=
  if isNaN (fUnpack f bits) then f.nanBits
  else if bits ≥ 2 ^ (f.ebits + f.fbits) then bits - 2 ^ (f.ebits + f.fbits) else bits + 2 ^ (f.ebits + f.fbits)

/-- s := round_rne(a + b) and e := (a + b) − s; e is the canonical NaN when s is not finite (R132, R133). -/
def fTwoSum (f : Fmt) (x y : Nat) : Nat × Nat × Flags :=
  let a := fUnpack f x
  let b := fUnpack f y
  let (s, fl) := fAdd f (.det .rne) false a b
  match a, b, fUnpack f s with
  | .fin n1 m1 e1, .fin n2 m2 e2, .fin n3 m3 e3 =>
    let (n, m, e) := addFin n1 m1 e1 n2 m2 e2 false
    let (n', m', e') := addFin n m e (!n3) m3 e3 false
    (s, (fRound f (.det .rne) n' m' e').1, fl)
  | _, _, _ => (s, f.nanBits, fl)

/-- The exponent below which the error of a product is rounded (R133): 2^−969 in FP64, 2^−102 in FP32. -/
def twoProdFloor (f : Fmt) : Int := if f.fbits == 52 then -969 else -102

/-- p := round_rne(a × b) and e := a × b − p, with the rounded remainder and its flags in the range of R133. -/
def fTwoProd (f : Fmt) (x y : Nat) : Nat × Nat × Flags :=
  let a := fUnpack f x
  let b := fUnpack f y
  let (p, fl) := fMul f (.det .rne) a b
  match a, b, fUnpack f p with
  | .fin n1 m1 e1, .fin n2 m2 e2, .fin n3 m3 e3 =>
    let (n', m', e') := addFin (n1 != n2) (m1 * m2) (e1 + e2) (!n3) m3 e3 false
    let (r, fl') := fRound f (.det .rne) n' m' e'
    let low := decide (m1 * m2 ≠ 0) && decide ((m1 * m2).log2 + (e1 + e2) < twoProdFloor f)
    (p, r, if low then fl ||| (fl' &&& (flagUnderflow ||| flagInexact)) else fl)
  | _, _, _ => (p, f.nanBits, fl)

end Sys2Proof.Machine
end

