-- ==== Sys2Proof/Machine/Transcend.lean ====
section
/-!
DEFINITION. The correctly rounded functions of R130 and R132: e^x, 2^x, ln x, log2 x and erf x. Each is enclosed
between two fixed-point integers at a working precision; when both ends round to the same encoding with the same flags,
that is the result, else the precision doubles. The exact cases of R130 and R132 are taken out first, so every value
enclosed here is irrational and the two ends meet.
-/
namespace Sys2Proof.Machine

/-- An enclosure: the value lies strictly between lo · 2^e and hi · 2^e. -/
structure Encl where
  lo : Nat
  hi : Nat
  e  : Int
  deriving DecidableEq, Repr

/-- Rounds both ends; the result when they agree. -/
def enclRound (f : Fmt) (rd : Rounding) (neg : Bool) (x : Encl) : Option (Nat × Flags) :=
  let a := fRound f rd neg x.lo x.e true
  let b := fRound f rd neg (x.hi - 1) x.e true
  if x.hi > 0 && a == b then some a else none

/-- Doubles the working precision until the enclosure decides; after the last, its lower end. -/
def ziv (f : Fmt) (rd : Rounding) (neg : Bool) (g : Nat → Encl) : Nat → Nat → Nat × Flags
  | 0, p => fRound f rd neg (g p).lo (g p).e true
  | k + 1, p =>
    match enclRound f rd neg (g p) with
    | some r => r
    | none => ziv f rd neg g k (2 * p)

/-- Lower sum of the series Σ z^(2i+1)/(2i+1) at scale 2^p, `n` terms from index i; `t` is z^(2i+1), `z2` is z². -/
def atanhLo (p z2 : Nat) : Nat → Nat → Nat → Nat
  | 0, _, _ => 0
  | n + 1, i, t => t / (2 * i + 1) + atanhLo p z2 n (i + 1) ((t * z2) >>> p)

/-- Upper sum of the same series. -/
def atanhHi (p z2 : Nat) : Nat → Nat → Nat → Nat
  | 0, _, _ => 2
  | n + 1, i, t => t / (2 * i + 1) + 1 + atanhHi p z2 n (i + 1) (((t * z2) >>> p) + 1)

/-- The alternating series of arctan, lower and upper: (even terms, odd terms) with floors. -/
def atanSums (p q : Nat) : Nat → Nat → Nat → Nat × Nat
  | 0, _, _ => (0, 0)
  | n + 1, i, t =>
    let (a, b) := atanSums p q n (i + 1) (t / (q * q))
    if i % 2 == 0 then (a + t / (2 * i + 1), b) else (a, b + t / (2 * i + 1))

/-- Enclosure of arctan(1/q) at scale 2^p. -/
def atanInv (p q : Nat) : Nat × Nat :=
  let (a, b) := atanSums p q p 0 (2 ^ p / q)
  (a - b - 2 * p, a - b + 2 * p)

/-- Enclosure of ln 2 at scale 2^p: 2 · artanh(1/3). -/
def ln2Encl (p : Nat) : Nat × Nat :=
  let zl := 2 ^ p / 3
  let zh := zl + 1
  (2 * atanhLo p ((zl * zl) >>> p) p 0 zl, 2 * atanhHi p (((zh * zh) >>> p) + 1) p 0 zh)

/-- Enclosure of π at scale 2^p: 16 arctan(1/5) − 4 arctan(1/239). -/
def piEncl (p : Nat) : Nat × Nat :=
  let (al, ah) := atanInv p 5
  let (bl, bh) := atanInv p 239
  (16 * al - 4 * bh, 16 * ah - 4 * bl)

/-- Lower sum of Σ r^i/i! at scale 2^p. -/
def expLo (p r : Nat) : Nat → Nat → Nat → Nat
  | 0, _, t => t
  | n + 1, i, t => t + expLo p r n (i + 1) (t * r / (2 ^ p * (i + 1)))

/-- Upper sum of the same series; the remainder after n terms is below two units when n is the precision. -/
def expHi (p r : Nat) : Nat → Nat → Nat → Nat
  | 0, _, t => t + 4
  | n + 1, i, t => t + expHi p r n (i + 1) (t * r / (2 ^ p * (i + 1)) + 1)

/-- Enclosure of e^r · 2^k for r between rl and rh at scale 2^p, both below one. -/
def expEncl (p rl rh : Nat) (k : Int) : Encl :=
  ⟨expLo p rl p 0 (2 ^ p), expHi p rh p 0 (2 ^ p) + 1, k - p⟩

/-- m · 2^e at scale 2^p, rounded down. -/
def fixFloor (p m : Nat) (e : Int) : Nat :=
  let s := e + p
  if 0 ≤ s then m <<< s.toNat else m >>> (-s).toNat

/-- Whether the fixed-point value at scale 2^p is exact. -/
def fixExact (p m : Nat) (e : Int) : Bool :=
  let s := e + p
  decide (0 ≤ s) || (fixFloor p m e) <<< (-s).toNat == m

/-- Enclosure of e^x for x = ±m · 2^e below 2^11 in magnitude: x = k ln 2 + r with 0 ≤ r < 1. -/
def expOf (neg : Bool) (m : Nat) (e : Int) (p0 : Nat) : Encl :=
  let p := p0 + 64
  let (l, h) := ln2Encl p
  let xl := fixFloor p m e
  let xh := if fixExact p m e then xl else xl + 1
  if neg then
    let k := xh / l + 1
    expEncl p (k * l - xh) (k * h - xl) (-(k : Int))
  else
    let k := xl / h
    expEncl p (xl - k * h) (xh - k * l) k

/-- Enclosure of 2^x: x = k + f with 0 ≤ f < 1. -/
def exp2Of (neg : Bool) (m : Nat) (e : Int) (p0 : Nat) : Encl :=
  let p := p0 + 64
  let (l, h) := ln2Encl p
  let x := fixFloor p m e
  let xh := if fixExact p m e then x else x + 1
  let one := 2 ^ p
  if neg then
    let k := xh / one + 1
    let fl := k * one - xh
    let fh := k * one - x
    expEncl p ((fl * l) >>> p) (((fh * h) >>> p) + 1) (-(k : Int))
  else
    let k := x / one
    let fl := x - k * one
    let fh := xh - k * one
    expEncl p ((fl * l) >>> p) (((fh * h) >>> p) + 1) k

/-- The value of e^x or 2^x next to one: between 1 and 1 + 2^−60 or between 1 − 2^−60 and 1. -/
def nearOne (f : Fmt) (rd : Rounding) (below : Bool) : Nat × Flags :=
  fRound f rd false (if below then 2 ^ 70 - 1 else 2 ^ 70) (-70) true

/-- e^x or 2^x (base2) rounded once (R130). -/
def fExp (f : Fmt) (rd : Rounding) (base2 : Bool) (a : FVal) : Nat × Flags :=
  match a with
  | .nan _ => (f.nanBits, sigInvalid a)
  | .inf n => (if n then signedBits f false 0 else fInf f false, flagNone)
  | .fin n m e =>
    if m == 0 then fRound f rd false 1 0
    else
      let top := e + m.log2
      let isInt := decide (0 ≤ e) || (m >>> (-e).toNat) <<< (-e).toNat == m
      if decide (12 ≤ top) then
        fRound f rd false (2 ^ 70) (if n then -5000 else 5000) true
      else if decide (top < -66) then nearOne f rd n
      else if base2 && isInt then
        let k : Int := if decide (0 ≤ e) then ((m <<< e.toNat : Nat) : Int) else ((m >>> (-e).toNat : Nat) : Int)
        fRound f rd false 1 (if n then -k else k)
      else ziv f rd false (if base2 then exp2Of n m e else expOf n m e) 6 128

/-- Lower and upper ends of 2 artanh(num/den) at scale 2^p, for num/den at most 1/3. -/
def lnRatio (p num den : Nat) : Nat × Nat :=
  let zl := (num <<< p) / den
  let zh := zl + 1
  (2 * atanhLo p ((zl * zl) >>> p) p 0 zl, 2 * atanhHi p (((zh * zh) >>> p) + 1) p 0 zh)

/-- Enclosure of |ln x| for x = m · 2^e, x ≠ 1, with its sign: x = y · 2^k with y between 2/3 and 4/3. -/
def lnOf (m : Nat) (e : Int) (p : Nat) : Bool × Nat × Nat :=
  let lg := m.log2
  let one := 2 ^ lg
  -- y = m / one is between 1 and 2; above 4/3 take y/2
  let big := decide (3 * m > 4 * one)
  let den := if big then 2 * one else one
  let k : Int := e + lg + (if big then 1 else 0)
  let yNeg := decide (m < den)
  let (rl, rh) := lnRatio p (if yNeg then den - m else m - den) (m + den)
  let (l, h) := ln2Encl p
  let kn := k.natAbs
  let kNeg := decide (k < 0)
  let (kl, kh) := (kn * l, kn * h)
  if k == 0 then (yNeg, rl, rh)
  else if kNeg == yNeg then (kNeg, kl + rl, kh + rh)
  else (kNeg, kl - rh, kh - rl)

/-- ln x rounded once (R130); log2 x when base2 (R132). -/
def fLog (f : Fmt) (rd : Rounding) (base2 : Bool) (a : FVal) : Nat × Flags :=
  match a with
  | .nan _ => (f.nanBits, sigInvalid a)
  | .inf n => if n then (f.nanBits, flagInvalid) else (fInf f false, flagNone)
  | .fin n m e =>
    if m == 0 then (fInf f true, flagDivZero)
    else if n then (f.nanBits, flagInvalid)
    else
      let pow2 := 2 ^ m.log2 == m
      let k : Int := e + m.log2
      if pow2 && k == 0 then (signedBits f false 0, flagNone)
      else if base2 && pow2 then fRound f rd (decide (k < 0)) k.natAbs 0
      else
        let (neg, _, _) := lnOf m e 192
        ziv f rd neg (fun p =>
          let (_, lo, hi) := lnOf m e p
          if base2 then
            let (l, h) := ln2Encl p
            ⟨(lo <<< p) / h, (hi <<< p) / l + 1, -(p : Int)⟩
          else ⟨lo, hi, -(p : Int)⟩) 6 192

/-- The series Σ (−t)^n/(n!(2n+1)) at scale 2^p as (even terms, odd terms), with floors; `u` is t^n/n!. -/
def erfLo (p t : Nat) : Nat → Nat → Nat → Nat × Nat
  | 0, _, _ => (0, 0)
  | n + 1, i, u =>
    let (a, b) := erfLo p t n (i + 1) (u * t / (2 ^ p * (i + 1)))
    if i % 2 == 0 then (a + u / (2 * i + 1), b) else (a, b + u / (2 * i + 1))

/-- The same with ceilings. -/
def erfHi (p t : Nat) : Nat → Nat → Nat → Nat × Nat
  | 0, _, u => (u + 2, u + 2)
  | n + 1, i, u =>
    let (a, b) := erfHi p t n (i + 1) (u * t / (2 ^ p * (i + 1)) + 1)
    if i % 2 == 0 then (a + u / (2 * i + 1) + 1, b) else (a, b + u / (2 * i + 1) + 1)

/-- Enclosure of erf x for x = m · 2^e with 0 < x < 8: m · 2^e · (2/√π) · Σ (−x²)^n/(n!(2n+1)). -/
def erfOf (m : Nat) (e : Int) (p0 : Nat) : Encl :=
  let p := p0 + 200
  let tl := fixFloor p (m * m) (2 * e)
  let th := tl + 1
  let n := p + 256
  let (al, bl) := erfLo p tl n 0 (2 ^ p)
  let (ah, bh) := erfHi p th n 0 (2 ^ p)
  let gl := al - bh
  let gh := ah - bl
  let (pl, ph) := piEncl p
  -- 2/√π at scale 2^p: 2 · 2^p · √(2^p) / √π', with π' at scale 2^p
  let cl := (2 ^ (2 * p + 1)) / (isqrt (ph <<< p) + 1)
  let ch := (2 ^ (2 * p + 1)) / (isqrt (pl <<< p)) + 1
  ⟨m * (gl * cl), m * (gh * ch), e - 2 * p⟩

/-- erf x rounded once (R130). -/
def fErf (f : Fmt) (rd : Rounding) (a : FVal) : Nat × Flags :=
  match a with
  | .nan _ => (f.nanBits, sigInvalid a)
  | .inf n => fRound f rd n 1 0
  | .fin n m e =>
    if m == 0 then (signedBits f n 0, flagNone)
    else if decide (3 ≤ e + m.log2) then fRound f rd n (2 ^ 90 - 1) (-90) true
    else ziv f rd n (erfOf m e) 5 192

end Sys2Proof.Machine
end

