-- ==== Sys2Proof/Machine/Convert.lean ====
section
/-!
DEFINITION. Conversions between the number formats (R72–R77, R81, R84–R86) and the scales of PACKHB (R138), on exact
values; the stochastic generator's step and draws (R80–R82).
-/
namespace Sys2Proof.Machine

/-- The floating-point format of a type. -/
def fmtOf : Ty → Option Fmt
  | .f32 => some fmtF32
  | .f64 => some fmtF64
  | .bf16 => some fmtBf16
  | .f16 => some fmtF16
  | .e4m3 => some fmtE4m3
  | .e5m2 => some fmtE5m2
  | _ => none

/-- The signed integer that the low `w` bits of a number stand for in two's complement. -/
def asSigned (w x : Nat) : Int := if x % 2 ^ w < 2 ^ (w - 1) then (x % 2 ^ w : Nat) else (x % 2 ^ w : Nat) - (2 ^ w : Nat)

/-- The low `w` bits of an integer in two's complement. -/
def toBits (w : Nat) (v : Int) : Nat := (v % (2 ^ w : Nat)).toNat

/-- An integer as an exact value. -/
def intVal (v : Int) : FVal := .fin (decide (v < 0)) v.natAbs 0

/-- The exact value of an element that is not of a block type (R67–R69). -/
def elemVal (ty : Ty) (bits : Nat) : FVal :=
  match fmtOf ty with
  | some f => fUnpack f bits
  | none =>
    match ty with
    | .i32 => intVal (asSigned 32 bits)
    | .i64 => intVal (asSigned 64 bits)
    | .n32 | .b32 => .fin false (bits % 2 ^ 32) 0
    | _ => .fin false (bits % 2 ^ 64) 0

/-- The exact value of a block element with its 16-bit pair: X0 or X and, above it, X1 or z (R72–R76). -/
def blockVal (ty : Ty) (code pair : Nat) : FVal :=
  let p0 := pair % 256
  let p1 := pair / 256 % 256
  match ty with
  | .hb8 | .hb4 =>
    let mw := if ty == .hb8 then 6 else 2
    let m := code % 2 ^ mw
    let s := code / 2 ^ mw % 2 == 1
    let x := if code / 2 ^ (mw + 1) % 2 == 1 then p1 else p0
    if x == 255 then .nan false else .fin s m ((x : Int) - 127)
  | _ =>
    let d : Int := (code % 2 ^ ty.width : Nat) - (p1 : Int)
    if p0 == 255 then .nan false else .fin (decide (d < 0)) d.natAbs ((p0 : Int) - 127)

/-- A zero point above 2^n − 1 (R74): cause 0x142. -/
def zeroPointBad (ty : Ty) (pair : Nat) : Bool :=
  match ty with
  | .q8 | .q4 | .q2 => decide (pair / 256 % 256 ≥ 2 ^ ty.width)
  | _ => false

/-- Least and greatest value of an integer type. -/
def intRange : Ty → Int × Int
  | .i32 => (-(2 ^ 31 : Nat), (2 ^ 31 - 1 : Nat))
  | .i64 => (-(2 ^ 63 : Nat), (2 ^ 63 - 1 : Nat))
  | .n32 => (0, (2 ^ 32 - 1 : Nat))
  | _ => (0, (2 ^ 64 - 1 : Nat))

/-- An exact value converted to an integer type (R84): the bits and the flags. -/
def cvtInt (ty : Ty) (rd : Rounding) (v : FVal) : Nat × Flags :=
  let (lo, hi) := intRange ty
  match v with
  | .nan _ => (0, flagInvalid)
  | .inf n => (toBits ty.width (if n then lo else hi), flagInvalid)
  | .fin n m e =>
    -- far out of range for every integer type
    if decide (0 ≤ e) && decide (m ≠ 0) && decide (e > 80) then (toBits ty.width (if n then lo else hi), flagInvalid)
    else
      let (k, inexact) := roundAt rd n m e false 0
      let x : Int := if n then -(k : Int) else k
      if x < lo then (toBits ty.width lo, flagInvalid)
      else if x > hi then (toBits ty.width hi, flagInvalid)
      else (toBits ty.width x, if inexact then flagInexact else flagNone)

/-- An exact value converted to a floating-point format (R84). -/
def cvtFloat (f : Fmt) (rd : Rounding) (v : FVal) : Nat × Flags :=
  match v with
  | .nan _ => (f.nanBits, sigInvalid v)
  | .inf n => if f.hasInf then (fInf f n, flagNone) else (f.nanBits, flagInvalid)
  | .fin n m e => fRound f rd n m e

/-- An exact value converted to a type that is not a block type (R84). -/
def cvtElem (ty : Ty) (rd : Rounding) (v : FVal) : Nat × Flags :=
  match fmtOf ty with
  | some f => cvtFloat f rd v
  | none => cvtInt ty rd v

/-- The types whose presence makes a conversion's result green (R86). -/
def narrowTy : Ty → Bool
  | .e4m3 | .e5m2 | .hb8 | .hb4 | .q8 | .q4 | .q2 => true
  | _ => false

/-- The tag of a converted element (R86). -/
def cvtTag (dst src : Ty) (fl : Flags) (srcGreen : Bool) : Bool :=
  srcGreen || narrowTy dst || narrowTy src || ((dst == .f16 || dst == .bf16) && fl.getLsbD 4)

/-- |v| ≤ c · 2^e. -/
def magLe (m : Nat) (e : Int) (c : Nat) (e' : Int) : Bool :=
  let lo := min e e'
  decide (m <<< (e - lo).toNat ≤ c <<< (e' - lo).toNat)

/-- Largest magnitude of an HB type (R73). -/
def hbMax (ty : Ty) : Nat := if ty == .hb8 then 63 else 3

/-- The HB code of a finite value with the given scales (R85): selector, sign and magnitude. -/
def hbEncode (ty : Ty) (x0 x1 : Nat) (rd : Rounding) (n : Bool) (m : Nat) (e : Int) : Nat × Flags :=
  let mw := if ty == .hb8 then 6 else 2
  let xf := min x0 x1
  let useF := xf != 255 && magLe m e (hbMax ty) ((xf : Int) - 127)
  let x := if useF then xf else max x0 x1
  let sel := if x == x0 then 0 else 1
  if x == 255 then (sel * 2 ^ (mw + 1), flagNone)
  else
    let (k, inexact) := roundAt rd n m e false ((x : Int) - 127)
    let code (k : Nat) : Nat := sel * 2 ^ (mw + 1) + (if n then 2 ^ mw else 0) + k
    if k > hbMax ty then (code (hbMax ty), flagOverflow ||| flagInexact)
    else (code k, if inexact then flagInexact else flagNone)

/-- The Q code of a finite value with the given scale and zero point (R85). -/
def qEncode (ty : Ty) (x z : Nat) (rd : Rounding) (n : Bool) (m : Nat) (e : Int) : Nat × Flags :=
  let (k, inexact) := roundAt rd n m e false ((x : Int) - 127)
  let c : Int := (z : Int) + (if n then -(k : Int) else k)
  let top := 2 ^ ty.width - 1
  if c < 0 then (0, flagOverflow ||| flagInexact)
  else if c > (top : Nat) then (top, flagOverflow ||| flagInexact)
  else (c.toNat, if inexact then flagInexact else flagNone)

/-- The zero point that PACKHB computes: 2^(n−1) (R138). -/
def qMid (ty : Ty) : Nat := 2 ^ (ty.width - 1)

/-- The flags of a NaN or infinite element of a block (R84, R138). -/
def blockSpecialFlags : FVal → Flags
  | .nan s => if s then flagInvalid else flagNone
  | .inf _ => flagInvalid
  | _ => flagNone

/-- A value that no block element holds. -/
def isSpecial : FVal → Bool
  | .fin _ _ _ => false
  | _ => true

/-- Least e from `e` on, at most 254, with m · 2^ev ≤ c · 2^(e − 127); `fuel` codes are left. -/
def scaleFrom (m : Nat) (ev : Int) (c : Nat) : Nat → Nat → Nat
  | 0, _ => 254
  | fuel + 1, e => if magLe m ev c ((e : Int) - 127) then e else scaleFrom m ev c fuel (e + 1)

/-- The 16-bit pair that PACKHB computes for a block from its active elements (R138). -/
def packScales (ty : Ty) (gap : Nat) (vs : List FVal) : Nat :=
  let hb := ty == .hb8 || ty == .hb4
  if vs.any isSpecial then
    (if hb then 255 + 256 * 255 else 255 + 256 * qMid ty)
  else
    let big := vs.foldl (fun (acc : Nat × Int) v =>
      match v with
      | .fin _ m e => if magLe m e acc.1 acc.2 then acc else (m, e)
      | _ => acc) (0, 0)
    if big.1 == 0 then (if hb then 127 + 256 * 127 else 127 + 256 * qMid ty)
    else
      let c := if hb then hbMax ty else 2 ^ (ty.width - 1) - 1
      let x := scaleFrom big.1 big.2 c 255 0
      if hb then (x - gap) + 256 * x else x + 256 * qMid ty

/-- One active element of PACKHB against its block's pair; `nanBlock` when computed scales are NaN (R138). -/
def packElem (ty : Ty) (pair : Nat) (given : Bool) (rd : Rounding) (v : FVal) : Nat × Flags :=
  let hb := ty == .hb8 || ty == .hb4
  let p0 := pair % 256
  let p1 := pair / 256 % 256
  let nanPair := if hb then p0 == 255 && p1 == 255 else p0 == 255
  let z := if hb then 0 else p1
  if nanPair then ((if given then 0 else z), blockSpecialFlags v)
  else
    match v with
    | .fin n m e => if hb then hbEncode ty p0 p1 rd n m e else qEncode ty p0 z rd n m e
    | _ => (z, blockSpecialFlags v)

/-! ### The stochastic generator -/

/-- The constant of R83. -/
def srConst : W64 := 0x5A17C3E90B6D24F1#64

/-- One step of the generator (R80). -/
def srStep (x : W64) : W64 :=
  let x := x ^^^ (x <<< 13)
  let x := x ^^^ (x >>> 7)
  x ^^^ (x <<< 17)

/-- A written state of zero is replaced (R83). -/
def srSeed (x : W64) : W64 := if x == 0#64 then srConst else x

/-- r(t,e): bits 15:0 of the state rotated left by 7(2t+e) mod 64 (R81). -/
def srDraw (x : W64) (i : Nat) : Nat := (x.rotateLeft (7 * i % 64)).toNat % 65536

/-- Bits 31:16 of the same rotation (R136). -/
def srDrawHi (x : W64) (i : Nat) : Nat := (x.rotateLeft (7 * i % 64)).toNat / 65536 % 65536

/-- How an element rounds under a code of R60 with the mode of SY_MODE and the draw of its place. -/
def roundingOf (rm : Rm) (mode : Rm) (draw : Nat) : Rounding :=
  match rm with
  | .rsr => .stoch draw
  | .dyn => .det mode
  | r => .det r

end Sys2Proof.Machine
end

