-- ==== Sys2Proof/Machine/IntOps.lean ====
section
/-!
DEFINITION. Integer work on one element of width W (R67, R111, R112, R115, R117): arithmetic modulo 2^W, products,
comparisons, shifts, bit counts and bit fields. The lane and the uniform forms share these.
-/
namespace Sys2Proof.Machine

/-- High W bits of the signed 2W-bit product (R112). -/
def mulHighS {w : Nat} (a b : BitVec w) : BitVec w := (a.signExtend (2 * w) * b.signExtend (2 * w)).extractLsb' w w
/-- High W bits of the unsigned 2W-bit product. -/
def mulHighU {w : Nat} (a b : BitVec w) : BitVec w := (a.setWidth (2 * w) * b.setWidth (2 * w)).extractLsb' w w
/-- 1 when the unsigned sum reaches 2^W (R112). -/
def addCarry {w : Nat} (a b : BitVec w) : BitVec w := if a.toNat + b.toNat ≥ 2 ^ w then BitVec.ofNat w 1 else 0
def minS {w : Nat} (a b : BitVec w) : BitVec w := if a.sle b then a else b
def maxS {w : Nat} (a b : BitVec w) : BitVec w := if a.sle b then b else a
def minU {w : Nat} (a b : BitVec w) : BitVec w := if a.ule b then a else b
def maxU {w : Nat} (a b : BitVec w) : BitVec w := if a.ule b then b else a
/-- |a|; the most negative value is returned unchanged (R112). -/
def absW {w : Nat} (a : BitVec w) : BitVec w := if a.msb then -a else a
/-- The count of a shift or rotate: b mod W (R112). -/
def shiftCount {w : Nat} (b : BitVec w) : Nat := b.toNat % w
def shlW {w : Nat} (a b : BitVec w) : BitVec w := a <<< shiftCount b
def shrW {w : Nat} (a b : BitVec w) : BitVec w := a >>> shiftCount b
def sarW {w : Nat} (a b : BitVec w) : BitVec w := a.sshiftRight (shiftCount b)
def rotW {w : Nat} (a b : BitVec w) : BitVec w := a.rotateLeft (shiftCount b)
/-- Number of one bits among the lowest n. -/
def popCount {w : Nat} (a : BitVec w) : Nat → Nat
  | 0 => 0
  | n + 1 => popCount a n + (if a.getLsbD n then 1 else 0)
/-- POPC. -/
def popW {w : Nat} (a : BitVec w) : BitVec w := BitVec.ofNat w (popCount a w)
/-- Leading zeros of the lowest n bits. -/
def leadZeros {w : Nat} (a : BitVec w) : Nat → Nat
  | 0 => 0
  | n + 1 => if a.getLsbD n then 0 else leadZeros a n + 1
/-- CLZ: W for a = 0. -/
def clzW {w : Nat} (a : BitVec w) : BitVec w := BitVec.ofNat w (leadZeros a w)
/-- BREV: bit i moves to bit W−1−i. -/
def brevW {w : Nat} (a : BitVec w) : BitVec w := a.reverse
/-- A 9-bit or 32-bit immediate at 64 bits (R32). -/
def immS {n : Nat} (imm : BitVec n) : BitVec 64 := imm.signExtend 64
def immU {n : Nat} (imm : BitVec n) : BitVec 64 := imm.setWidth 64
/-- An immediate in each half of a paired 32-bit form (R32). -/
def immHalf {n : Nat} (imm : BitVec n) : BitVec 32 := imm.signExtend 32

/-- The six comparison conditions of ICMP and SCMP (R114, R117). -/
inductive Cond where
  | eq | ne | lt | le | ltu | leu
  deriving DecidableEq, Repr

def condHolds {w : Nat} (c : Cond) (a b : BitVec w) : Bool :=
  match c with
  | .eq => a == b
  | .ne => a != b
  | .lt => a.slt b
  | .le => a.sle b
  | .ltu => a.ult b
  | .leu => a.ule b

/-- BFX: bits pos+len−1 : pos of a, sign- or zero-extended (R115); len is at least one. -/
def bfxW {w : Nat} (signed : Bool) (pos len : Nat) (a : BitVec w) : BitVec w :=
  let f := a.extractLsb' pos len
  if signed then f.signExtend w else f.setWidth w

/-- BFI: d with bits pos+len−1 : pos replaced by a[len−1 : 0] (R115). -/
def bfiW {w : Nat} (pos len : Nat) (a d : BitVec w) : BitVec w :=
  let m : BitVec w := BitVec.ofNat w ((2 ^ len - 1) * 2 ^ pos)
  (d &&& ~~~m) ||| ((a <<< pos) &&& m)

/-- The integer binary and unary operations of R112. -/
inductive IOp where
  | add | sub | mul | mulhS | mulhU | addc | minS | maxS | minU | maxU
  | and | or | xor | andn | shl | shr | sar | rot
  deriving DecidableEq, Repr

def iop {w : Nat} (o : IOp) (a b : BitVec w) : BitVec w :=
  match o with
  | .add => a + b
  | .sub => a - b
  | .mul => a * b
  | .mulhS => mulHighS a b
  | .mulhU => mulHighU a b
  | .addc => addCarry a b
  | .minS => minS a b
  | .maxS => maxS a b
  | .minU => minU a b
  | .maxU => maxU a b
  | .and => a &&& b
  | .or => a ||| b
  | .xor => a ^^^ b
  | .andn => a &&& ~~~b
  | .shl => shlW a b
  | .shr => shrW a b
  | .sar => sarW a b
  | .rot => rotW a b

/-- The unary operations of R112. -/
inductive UOp where
  | abs | neg | not | popc | clz | brev
  deriving DecidableEq, Repr

def uop {w : Nat} (o : UOp) (a : BitVec w) : BitVec w :=
  match o with
  | .abs => absW a
  | .neg => -a
  | .not => ~~~a
  | .popc => popW a
  | .clz => clzW a
  | .brev => brevW a

end Sys2Proof.Machine
end

