-- ==== Sys2Proof/Machine/Tab.lean ====
section
/-!
DEFINITION. Tables: lists of key and value in strictly rising key order, with no entry equal to the value that an
unlisted key reads as. Equal tables are equal lists. Memory (Host.Cell pairs), line state, registers and every other
indexed piece of state are tables.
-/
namespace Sys2Proof.Machine

/-- A table of values by key. -/
abbrev Tab (α : Type) := List (Nat × α)

/-- The value at a key, if listed. -/
def tabGet? {α : Type} : Tab α → Nat → Option α
  | [], _ => none
  | (k, v) :: t, i => if i = k then some v else tabGet? t i

/-- The value at a key, or what an unlisted key reads as. -/
def tabGetD {α : Type} (t : Tab α) (i : Nat) (d : α) : α := (tabGet? t i).getD d

/-- Lists a value at a key, in key order. -/
def tabPut {α : Type} : Tab α → Nat → α → Tab α
  | [], i, x => [(i, x)]
  | (k, v) :: t, i, x =>
    if i < k then (i, x) :: (k, v) :: t
    else if i = k then (i, x) :: t
    else (k, v) :: tabPut t i x

/-- Takes a key out. -/
def tabDel {α : Type} : Tab α → Nat → Tab α
  | [], _ => []
  | (k, v) :: t, i => if i = k then tabDel t i else (k, v) :: tabDel t i

/-- Writes a value; writing what an unlisted key reads as takes the key out. -/
def tabSet {α : Type} [DecidableEq α] (t : Tab α) (i : Nat) (d x : α) : Tab α :=
  if x = d then tabDel t i else tabPut t i x

/-- Keys rise strictly. -/
def tabSorted {α : Type} : Tab α → Bool
  | [] => true
  | [_] => true
  | (k, _) :: (k', v') :: t => decide (k < k') && tabSorted ((k', v') :: t)

/-- The canonical form: keys rise strictly and no entry holds the default. -/
def tabWf {α : Type} [DecidableEq α] (d : α) (t : Tab α) : Bool := tabSorted t && t.all (fun p => decide (p.2 ≠ d))

/-- Changes the value at a key that is listed. -/
def tabMod {α : Type} (t : Tab α) (i : Nat) (f : α → α) : Tab α :=
  match tabGet? t i with
  | none => t
  | some x => tabPut t i (f x)

/-- The keys. -/
def tabKeys {α : Type} (t : Tab α) : List Nat := t.map (·.1)

/-- The first key and value that meet a condition. -/
def tabFind? {α : Type} (t : Tab α) (p : Nat → α → Bool) : Option (Nat × α) := t.find? (fun x => p x.1 x.2)

end Sys2Proof.Machine
end

