-- ==== Sys2Proof/Machine/State.lean ====
section
/-!
DEFINITION. The state of one HLM-2400 module: every piece of state that the spec names, as plain data, and
State.reset. Register files, memory and every other indexed store are tables (Machine/Tab.lean) whose unlisted keys
read as the value at reset.
-/
namespace Sys2Proof.Machine

/-! ### Why a step can stop -/

/-- Model-internal stops. No instruction of a brick raises one. -/
inductive Fault where
  /-- An issuing form ran in a state in which no brick and split holds the issue slot (`focus` names no live split).
  The machine never reaches it, because `step` sets the focus before it runs a form. Safe. -/
  | noIssuer
  /-- A step outside the issue slots (an event row) ran with an argument that names nothing in the state: a brick, a
  launch, a wall, a link that does not exist. The hardware raises no such step. Safe. -/
  | noTarget
  deriving DecidableEq, Repr

/-- Rejections by name. -/
inductive Refusal where
  /-- Raised by an arm of Machine/Dispatch.lean whose instruction has no meaning in this model yet. Safe. -/
  | notModelled (mnemonic : String)
  deriving DecidableEq, Repr

/-! ### Registers -/

/-- One half of a lane register: its bits, its G bit, its unwritten bit U and its poison bit (R101, R103, R362). -/
structure Half where
  bits : W32
  g    : Bool
  u    : Bool
  p    : Bool
  deriving DecidableEq, Repr

/-- A half at brick start: unwritten, cured (R101). -/
def Half.start : Half := ⟨0, false, true, false⟩

/-- A uniform register and its G bit (R101). -/
structure UReg where
  v : W64
  g : Bool
  deriving DecidableEq, Repr

def UReg.start : UReg := ⟨0, false⟩

/-- A mask register and the G bit of each of its bits (R101). -/
structure MReg where
  v : W64
  g : W64
  deriving DecidableEq, Repr

def MReg.start : MReg := ⟨0, 0⟩

/-- The cure state of a thread (R180). -/
structure Cst where
  last : W64
  pass : Nat
  fail : Nat
  v    : Bool
  deriving DecidableEq, Repr

def Cst.start : Cst := ⟨0, 0, 0, false⟩

/-- A register by its physical number: lane, uniform or mask. The banked v56–v63 and s56–s63 of the trap slot are
64 to 71 (R352). -/
inductive RName where
  | lane (r : Nat)
  | uni (r : Nat)
  | msk (r : Nat)
  deriving DecidableEq, Repr

/-- One write to a register file. A lane half is keyed 64 · register + 2t + e; `sel` selects the mask bits written. `tag`
and `mtag` change tags alone (R184). -/
inductive RegWrite where
  | lane (key : Nat) (h : Half)
  | tag (key : Nat) (g : Bool)
  | mtag (r : Nat) (sel g : W64)
  | uni (r : Nat) (v : W64) (g : Bool)
  | msk (r : Nat) (sel v g : W64)
  deriving DecidableEq, Repr

/-- A fixed-latency result that has not landed (R35): the splits that it pends for, the split whose uniform result it is (none of
them when that split has retired, R157), the cycle in which it lands, the registers read and written, the writes, the flags that
follow it, and what a trap on it reports. -/
structure Pend where
  owners  : List Nat
  writer  : Nat
  lands   : Nat
  seq     : Nat
  reads   : List RName
  names   : List RName
  writes  : List RegWrite
  fx      : List (Nat × Flags)
  split   : Nat
  pc      : Nat
  two     : Bool
  ten     : Flags
  isFp    : Bool
  deriving DecidableEq, Repr

/-- Flags of a form whose result has landed, not yet written to FX (R139). -/
structure FxPend where
  due   : Nat
  seq   : Nat
  fx    : List (Nat × Flags)
  split : Nat
  pc    : Nat
  two   : Bool
  ten   : Flags
  deriving DecidableEq, Repr

/-- A shadow divergence waiting for its detection (R360): the cycle in which it issued and the one in which it is
detected, and whether a later instruction has made it fatal. -/
structure Diverged where
  issued  : Nat
  due     : Nat
  seq     : Nat
  thread  : Nat
  split   : Nat
  pc      : Nat
  two     : Bool
  main    : W64
  shadow  : W32
  mask    : BitVec 32
  reads   : List RName
  names   : List RName
  fatal   : Bool
  deriving DecidableEq, Repr

/-! ### Memory -/

/-- A place in memory: an offset in the local memory of a core, or a physical address. -/
inductive Loc where
  | loc (core off : Nat)
  | phys (pa : Nat)
  deriving DecidableEq, Repr

/-- The state of a 64-byte line besides its bytes: its G bit (R174), whether it is poisoned (R362), and the bits that
an error has flipped in storage without the check bits (R366). -/
structure LineMeta where
  g   : Bool
  psn : Bool
  err : List Nat
  deriving DecidableEq, Repr

def LineMeta.start : LineMeta := ⟨false, false, []⟩

/-- A tentative cell (R245): the old and new values, their tags, the writing brick and whether it was observed. -/
structure PairSlot where
  old      : W64
  oldG     : Bool
  writer   : Nat
  observed : Bool
  deriving DecidableEq, Repr

/-! ### Operations in flight -/

/-- Where a load delivers (R202, R204, R233). -/
inductive LoadDst where
  | lane64 (r : Nat)
  | lane32 (r : Nat)
  | uni (r : Nat)
  | lineG (m : Nat)
  deriving DecidableEq, Repr

/-- One thread's access: thread, place, virtual address, size, and whether its address is green. -/
structure Acc where
  t    : Nat
  loc  : Loc
  va   : Nat
  n    : Nat
  aG   : Bool
  deriving DecidableEq, Repr

/-- One thread's store: the access, its bytes and whether its data is green. -/
structure Put where
  acc   : Acc
  bytes : List Byte
  dG    : Bool
  deriving DecidableEq, Repr

/-- One thread's atomic: the access, its data (for cas the compare value) and its new value, and their tags. -/
structure AtomReq where
  acc : Acc
  v   : W64
  v2  : W64
  dG  : Bool
  g2  : Bool
  deriving DecidableEq, Repr

/-- A synchronisation object, resolved (R266, R267): a core barrier of a wall, a network barrier at a level's place, a
semaphore of a die, a hod of a wall. -/
inductive ObjRef where
  | coreBar (wall k : Nat)
  | netBar (sp : Scope) (place k : Nat)
  | sem (die n : Nat)
  | hod (wall k : Nat)
  deriving DecidableEq, Repr

/-- A trap that an operation reports when it completes (R362, R372): cause, thread, count and data. -/
structure LateTrap where
  cause  : BitVec 9
  thread : Nat
  count  : Nat
  aux0   : W64
  aux1   : W64
  deriving DecidableEq, Repr

/-- What an operation in flight does when it is performed. -/
inductive FlightKind where
  /-- registers to write, read when it issued (a load from local memory, a load of a deterministic launch, a tape pop),
  or the trap that takes their place -/
  | regs (writes : List RegWrite) (late : Option LateTrap)
  /-- a load from the launch's space -/
  | load (accs : List Acc) (dst : LoadDst) (gov : Bool)
  /-- a store to the launch's space or, in a deterministic launch, to local memory -/
  | store (puts : List Put) (gov : Bool)
  /-- an atomic or reduction -/
  | atom (reqs : List AtomReq) (op : AtomOp) (ty : Ty) (rm : Rm) (dst : Option Nat) (gov : Bool)
  /-- an ATOM of a deterministic launch, which its parked split performs -/
  | syncAtom
  /-- a versioned read: governing head, accesses, destination, governance, failed attempts -/
  | ldtv (head : Nat) (headVa : Nat) (accs : List Acc) (dst : Nat) (gov : Bool) (attempts : Nat)
  /-- an all-or-nothing store, or a paired store with the twin's head and the stores to it; the head's physical and
  virtual address; failed attempts; the stage: 0 to acquire, 1 to write the lines, 2 to write the twin, 3 to release -/
  | aon (head : Nat) (headVa : Nat) (twin : Option (Nat × Nat)) (puts twinPuts : List Put) (gov : Bool) (attempts stage : Nat)
  /-- tentative stores, commits and retractions -/
  | tst (puts : List Put) (m : Nat) (gov : Bool)
  | tcom (accs : List Acc) (m : Nat) (gov : Bool)
  | retr (accs : List Acc) (m : Nat) (gov : Bool)
  /-- a hod fill: hod, slot sequence number (none while it has no slot), source lines, green -/
  | hodPut (hod : ObjRef) (seqNo : Option Nat) (src : List Loc) (green : Bool)
  /-- a copy command, by its number in State.copies -/
  | copy (id : Nat)
  /-- a copy command of a deterministic launch that has no slot of its hod yet -/
  | copyWait (id : Nat)
  /-- an invalidation -/
  | tlbi (all : Bool) (base len asid : Nat) (sp : Scope) (removed : Bool) (waits : List (Nat × Nat))
  /-- a posted block write: lines still to send (source, destination with its place), and what they hold once the source is read -/
  | putw (lines : List (Loc × Nat × Loc)) (data : Option (List (List Byte × Bool))) (green : Bool)
  /-- a write-then-signal -/
  | sigw (lines : List (Loc × Nat × Loc)) (data : Option (List (List Byte × Bool))) (flagVa : Nat) (flag : Loc) (add : Bool) (v : BitVec 32) (green : Bool) (anyG : Bool)
  /-- a collective contribution, by its instance -/
  | coll (inst : Nat)
  /-- a tape record that stands in the buffer when it completes -/
  | tapeRec
  /-- a tape seal: lines that remain to be performed -/
  | tapeSeal
  /-- buffered forms of a deterministic launch; an arrival stays, with no end time, until its phase counts it -/
  | barInit (bar : ObjRef) (e : Nat)
  | barArr (bar : ObjRef) (cum : Bool)
  | semInit (sem : ObjRef) (v : Nat)
  | semRel (sem : ObjRef)
  | hodInit (hod : ObjRef)
  | hodClose (hod : ObjRef)
  | give (role rows : Nat)
  /-- a write-back that waits for its turn in the array -/
  | accwb
  /-- the exit (or, with true, the kill) of the brick, which takes effect at the commit -/
  | gone (killed : Bool)
  deriving DecidableEq, Repr

/-- An operation in flight (R198): its number in the brick's issue order, its flight counter (none for a buffered form
that uses none) and its number among the operations on it, the issuing split and address, the earliest cycle in which it can be performed, its end time when it is
buffered in a deterministic launch (R297), and whether it has completed behind an older one. -/
structure Flight where
  seq   : Nat
  fc    : Option Nat
  ord   : Nat
  split : Nat
  pc    : Nat
  two   : Bool
  due   : Nat
  tEnd  : Option Nat
  done  : Bool
  kind  : FlightKind
  deriving DecidableEq, Repr

/-- A pending mark of a load (R200): the register, the threads (one bit each; all for a uniform register), the split that
issued it (none of them when it has retired, R157) and the operation. -/
structure Mark where
  name    : RName
  threads : BitVec 32
  split   : Nat
  seq     : Nat
  fc      : Nat
  ord     : Nat
  deriving DecidableEq, Repr

/-- An installed binding (R252): its object by place and number. -/
structure Binding where
  base : Nat
  len  : Nat
  kind : Nat
  obj  : Nat
  sp   : Scope
  deriving DecidableEq, Repr

/-! ### Splits -/

/-- A stack entry (R151): a return entry or a divergence entry with its fields; whether governance ends when it is
popped (R158); the tape frame it opened and the path that PM runs on (R315, R316). -/
inductive Entry where
  | ret (ra : Nat) (gov : Bool)
  | dvg (e pm : BitVec 32) (pa : Nat) (rd : Bool) (ja : Option Nat) (gr : Option Nat) (gov : Bool)
      (frame : Option Nat) (pmPath : Nat)
  deriving DecidableEq, Repr

/-- What a parked split waits for, with all that its completion needs. `d` is a physical uniform register (0 discards). -/
inductive WaitOp where
  /-- a flight counter, its threshold, and the last operation on it that the WAIT covers -/
  | fc (n k upTo : Nat)
  | join (gr : Nat)
  /-- served: the value and the tag for the destination -/
  | give (d : Nat) (v : W64) (g : Bool)
  /-- ends in a trap at the form -/
  | fail (cause : BitVec 9)
  /-- ends in the trap of a poisoned line of the slot that it was to take -/
  | lost (line : Loc)
  /-- a phase of a barrier; none until as many more of the brick's arrivals there are counted -/
  | barWait (bar : ObjRef) (phase : Option Nat) (ahead d : Nat) (green : Bool)
  | barQ (bar : ObjRef) (d : Nat) (green : Bool)
  | semAcq (sem : ObjRef) (d : Nat) (green : Bool)
  | semTry (sem : ObjRef) (d : Nat) (green : Bool)
  | semRel (sem : ObjRef) (upTo : Nat)
  /-- a slot for the fill with this number among the brick's operations -/
  | hodPut (hod : ObjRef) (seq : Nat)
  /-- a slot; the slot that the brick held when it looked first -/
  | hodGet (hod : ObjRef) (d : Nat) (green : Bool) (freed : Option Nat)
  | hodTry (hod : ObjRef) (d : Nat) (green : Bool)
  /-- a slot for a command into a hod, and the register of its ticket -/
  | hodCopy (copy : Nat) (d : Nat)
  | accalloc (n : Nat) (d : Nat) (green : Bool)
  | accfree (banks : List Nat)
  | accz (bank : Nat)
  | fence (upTo : Nat) (cum : Bool)
  | rfence (seqs : List Nat)
  | launch (va : Nat) (d : Nat) (lid : Option Nat)
  | bind (slot : Nat) (x : Binding)
  | unbind (slot : Nat)
  | atom (seq : Nat) (reqs : List AtomReq) (op : AtomOp) (ty : Ty) (rm : Rm) (dst : Nat) (gov : Bool)
  | copyq (ticket : Nat) (bytes : Bool) (d : Nat) (green : Bool)
  | roleq (role : Nat) (d : Nat) (green : Bool)
  | take (n : Nat) (d : Nat)
  | tapeRev (upTo : Nat)
  | tapeClose (upTo : Nat)
  /-- the brick's last threads exit when its arrivals are counted -/
  | exit
  deriving DecidableEq, Repr

/-- A parked instruction: what it waits for, its end time T when it is a synchronising operation of a deterministic
launch (R299), its address and length, and whether the logical clock has already counted it (R166, R199). -/
structure Wait where
  op      : WaitOp
  sync    : Option Nat
  pc      : Nat
  two     : Bool
  counted : Bool
  deriving DecidableEq, Repr

/-- The frame that a TAPE.POPBR left pending (R320): the recorded taken mask and the pointers of its arms. -/
structure PendFrame where
  taken : BitVec 32
  arm0  : Nat
  arm1  : Nat
  deriving DecidableEq, Repr

/-- A split (R150): program counter, mask, stack, governance from outside any entry (R158), re-dispatch state (R153),
first cycle in which its stall count lets it issue (R34), first cycle in which a form that could not go on is tried again, what it is parked on, its tape path, the frame that a POPBR left pending
(R320), and whether the unwinding left a tape divergence to report (R320). -/
structure Split where
  pc        : Nat
  mask      : BitVec 32
  stack     : List Entry
  gov       : Bool
  redisp    : Bool
  ready     : Nat
  held      : Nat
  wait      : Option Wait
  path      : Nat
  pendFrame : Option PendFrame
  tapeFault : Bool
  deriving DecidableEq, Repr

/-- A rejoin group (R151): its owner, the members in the order in which they parked (R155), and the JOIN at which threads of a member
that has left stand dormant (R156). -/
structure Group where
  owner : Nat
  order : List Nat
  ja    : Option Nat
  deriving DecidableEq, Repr

/-! ### The tape -/

/-- A frame of a tape (R316, R320): the line it stands in, the parent path, the arms' paths, the branch's taken mask and
threads, the parent pointer at the branch, its depth, whether its condition was green, whether its split was governed
before the branch, and whether it is a replay frame. -/
structure TFrame where
  line   : Nat
  parent : Nat
  arm0   : Nat
  arm1   : Nat
  taken  : BitVec 32
  mask   : BitVec 32
  prev   : Nat
  depth  : Nat
  grn    : Bool
  gov    : Bool
  replay : Bool
  deriving DecidableEq, Repr

/-- A segment of a tape (R309): base, length in bytes, first line index, and whether an invalidation asks for a new walk
of its pages. -/
structure Seg where
  base  : Nat
  len   : Nat
  first : Nat
  stale : Bool
  deriving DecidableEq, Repr

/-- The tape of a brick (R307–R320): state 0 closed, 1 recording, 2 sealed, 3 replay; branch recording; segments; LINES
and NEED; path pointers; frames; the pointer at the seal; buffered lines (index, bytes, green) not yet performed, with no bytes where an
error has made one unreadable (R363); the
page whose fault record a line to be performed waits for, and the pages whose record was answered with FAIL (R335, R336); the
headers of the entries placed, by the pointer past each (R319); and the lines of an earlier tape of the brick, at their virtual
addresses, that its seal has still to write (R322). -/
structure Tape where
  state    : Nat
  br       : Bool
  segs     : List Seg
  lines    : Nat
  need     : Nat
  paths    : Tab Nat
  nextPath : Nat
  frames   : Tab TFrame
  sealPtr  : Nat
  buf      : List (Nat × List Byte × Bool)
  waits    : Option Nat
  denied   : List Nat
  heads    : Tab Nat
  left     : List (Nat × List Byte × Bool)
  deriving DecidableEq, Repr

def Tape.closed : Tape := ⟨0, false, [], 0, 0, [], 1, [], 0, [], none, [], [], []⟩

/-! ### Traps -/

/-- A trap that a brick has taken and that waits for the slot (R350): the cycle, the words of R354, and whether a form has raised
it at its issue (R143, R351). -/
structure TrapRec where
  cycle  : Nat
  cause  : BitVec 9
  two    : Bool
  prec   : Bool
  more   : Bool
  fatal  : Bool
  reg    : BitVec 6
  split  : Nat
  count  : Nat
  thread : Nat
  addr   : Nat
  mask   : BitVec 32
  aux0   : W64
  aux1   : W64
  ret    : Nat
  atIssue : Bool := false
  deriving DecidableEq, Repr

/-- An exception that a collection window has gathered (R143, R144): address, length, split, threads with their flags,
enables. -/
structure WinExc where
  pc    : Nat
  two   : Bool
  split : Nat
  fx    : List (Nat × Flags)
  ten   : Flags
  seq   : Nat
  deriving DecidableEq, Repr

/-- An armed injection (R366): a copy byte and bit, a floating-point thread, a matrix column with the number of
failures. -/
inductive Armed where
  | copy (byte bit : Nat)
  | fp (t : Nat)
  | matrix (col : Nat) (twice : Bool)
  deriving DecidableEq, Repr

/-- The translation fault that a brick waits on (R335): the split, the virtual address, whether the wait was refused
(R336), and the record that was open for it, if an entry of the fault buffer was free. -/
structure TFault where
  split   : Nat
  va      : Nat
  refused : Bool
  entry   : Bool
  deriving DecidableEq, Repr

/-- The status of a copy command by its number among the brick's (R343, R344). -/
structure CopyStat where
  num    : Nat
  code   : Nat
  sum    : BitVec 32
  bytes  : Nat
  deriving DecidableEq, Repr

/-- An arrival of a brick that is not counted yet (R269): the barrier, the marked splits, the operations that must be
performed before it counts, the address and split of the latest mark, and whether it is cumulative (R256). -/
structure ArrMark where
  bar   : ObjRef
  marks : List Nat
  upTo  : Nat
  pc    : Nat
  split : Nat
  cum   : Bool
  deriving DecidableEq, Repr

/-! ### Bricks -/

/-- One brick (R101, R104, R296): its place and names, its age and the cycle in which it was placed (R147, R210), its registers, its modes, its splits, its operations in flight, its
tape, its traps, and its deterministic state; `readouts` are the read-outs that the array has still to run and `prio` is the base priority
from the next cycle on (R303); `dpFault` is a fault that a datapath is about to make: a write of the brick's next
result and the bit in which it will be wrong (R360). -/
structure Brick where
  id       : Nat
  launch   : Nat
  wall     : Nat
  role     : Nat
  core     : Nat
  part     : Nat
  slot     : Nat
  age      : Nat
  placed   : Nat
  gran     : Nat
  unis     : Nat
  emask    : BitVec 5
  bprio    : Nat
  prio     : Nat
  det      : Bool
  prv      : Bool
  threads  : BitVec 32
  lane     : Tab Half
  uni      : Tab UReg
  msk      : Tab MReg
  fx       : Tab Flags
  cst      : Tab Cst
  rm       : Rm
  ten      : Flags
  sbc      : Bool
  sr       : W64
  L        : Nat
  splits   : Tab Split
  cur      : Nat
  groups   : Tab Group
  nextGr   : Nat
  pend     : List Pend
  fxq      : List FxPend
  divq     : List Diverged
  marks    : List Mark
  issued   : Tab Nat
  ilock    : List RName
  flights  : List Flight
  seq      : Nat
  cumRel   : Bool
  acqs     : List Nat
  tape     : Tape
  tapeLen  : W64
  chain    : Option (BitVec 32)
  copies   : Nat
  readouts : List Nat
  cstats   : List CopyStat
  banks    : Tab Nat
  held     : Tab Nat
  arrMarks : List ArrMark
  lastArr  : List (ObjRef × Nat)
  window   : Option Nat
  winExc   : List WinExc
  trap     : Option TrapRec
  late     : List TrapRec
  owed     : List TrapRec
  inSlot   : Bool
  info     : W64
  addr     : W64
  tmask    : W64
  aux0     : W64
  aux1     : W64
  vec      : W64
  ret      : W64
  repSplit : Nat
  inject   : W64
  injAddr  : W64
  armed    : Option Armed
  dpFault  : Option (Nat × Nat)
  halted   : Bool
  debug    : Bool
  focusSp  : Nat
  stepping : Bool
  since    : Nat
  eligible : Nat
  killed   : Bool
  tfault   : Option TFault
  deriving DecidableEq, Repr

/-! ### Cores -/

/-- One accumulator entry (R89). -/
structure AccEntry where
  f : Int
  g : Bool
  n : Bool
  v : Bool
  deriving DecidableEq, Repr

def AccEntry.zero : AccEntry := ⟨0, false, false, false⟩

/-- An accumulator bank (R89, R208). Entry (row, column) is keyed 128 · row + column. -/
structure Bank where
  e        : Tab AccEntry
  A        : Int
  lb       : Int
  tb       : Int
  anchored : Bool
  revent   : Bool
  rs       : Tab W32
  cs       : Tab W32
  ckv      : Bool
  psn      : Bool
  own      : Option Nat
  deriving DecidableEq, Repr

/-- A bank as ACCZ leaves it, with no owner (R207, R222). -/
def Bank.zero : Bank := ⟨[], 0, 0, 0, false, false, [], [], true, false, none⟩

/-- What a queued matrix instruction does (R222–R227), with the operands it captured: the A tile's lines and its metadata,
B's bytes by column with their tags, B's metadata, and the column that is about to be summed wrong with how often (R366). -/
inductive ArrOp where
  | accz
  | mma (checks dist quad : Bool) (ty : Ty) (col : Bool) (aLines : List (List Byte)) (aG : List Bool)
      (aMeta : List (BitVec 128)) (aMetaG : List Bool) (b : List (List Byte)) (bG : List (List Bool))
      (bMeta : List (BitVec 128)) (bMetaG : List Bool) (fault : Option (Nat × Nat))
  | topk (vd n : Nat) (max : Bool)
  | accrd (vd : Nat) (s c : W32) (sG : Bool) (clp tr dd : Bool) (rm : Rm) (ty : Ty) (row col : Nat)
  | accwb (base : Nat) (s c : W32) (sG : Bool) (clp : Bool) (rm : Rm) (ty : Ty)
  | accadj (row col : Nat) (dbl : Bool) (v : W64) (g : Bool)
  | accchk (sd vd : Nat) (tol : W32)
  deriving DecidableEq, Repr

/-- An entry of a core's array queue (R212). -/
structure ArrEntry where
  brick : Nat
  seq   : Nat
  split : Nat
  pc    : Nat
  gov   : Bool
  ten   : Flags
  mask  : BitVec 32
  bank  : Nat
  lbank : Nat
  names : List RName
  tEnd  : Option Nat
  op    : ArrOp
  deriving DecidableEq, Repr

/-- A waiting request for dynamic banks (R209). -/
structure AccReq where
  brick : Nat
  split : Nat
  n     : Nat
  deriving DecidableEq, Repr

/-- One core (R207, R209, R212): the 16 physical banks (an unlisted one is zero), the array queue, the cycle from which the
array is free, the queue of requests for banks, and the launches whose next quad form here belongs to an operation that has failed
(R216). -/
structure Core where
  banks   : Tab Bank
  queue   : List ArrEntry
  busy    : Nat
  reqs    : List AccReq
  qfail   : List Nat
  deriving DecidableEq, Repr

def Core.start : Core := ⟨[], [], 0, [], []⟩

/-- A scheduler partition (R83, R146, R350): the stochastic state of one that has stepped or been seeded, the brick in
the trap slot, and the last cycles in which the two slots issued. -/
structure Part where
  sr      : Option W64
  slot    : Option Nat
  laneAt  : Option Nat
  uniAt   : Option Nat
  deriving DecidableEq, Repr

def Part.start : Part := ⟨none, none, none, none⟩

/-! ### Synchronisation objects -/

/-- What a barrier holds in three copies (R268): E, A, P and AB. -/
structure BarWord where
  e  : Nat
  a  : Nat
  p  : Bool
  ab : Bool
  deriving DecidableEq, Repr

/-- A barrier (R268): E, A, P, AB, members, those arrived in the current phase, how many of these have ended since (R270),
the number of completed phases, whether it is poisoned, and what those of the three copies of E, A, P and AB hold that a fault
has changed (copy 0 to 2; one that is not listed holds what the fields say). -/
structure Barrier where
  e       : Nat
  a       : Nat
  p       : Bool
  ab      : Bool
  members : List Nat
  arrived : List Nat
  exits   : Nat
  phase   : Nat
  psn     : Bool
  odd     : List (Nat × BarWord)
  deriving DecidableEq, Repr

def Barrier.start (e : Nat) : Barrier := ⟨e, 0, false, false, [], [], 0, 0, false, []⟩

/-- A semaphore (R275): count, the queue of acquires (brick, split), whether it is poisoned, and what those of the three copies
of the count hold that a fault has changed. -/
structure Sem where
  count : Nat
  queue : List (Nat × Nat)
  psn   : Bool
  odd   : List (Nat × Nat)
  deriving DecidableEq, Repr

def Sem.start : Sem := ⟨0, [], false, []⟩

/-- A hod (R277): slots, bytes a slot, ring offset, sequence numbers of the next take and the next reservation, the fills
that are performed, whether it is closed, slots held (brick, slot), the queues of parked producers and consumers, and
the roles marked as producers and consumers (R294), as their bricks issued the forms and as committed state holds them (R305). -/
structure Hod where
  n      : Nat
  s      : Nat
  off    : Nat
  head   : Nat
  tail   : Nat
  filled : List Nat
  closed : Bool
  heldBy : List (Nat × Nat)
  prods  : List (Nat × Nat)
  cons   : List (Nat × Nat)
  prole  : List Nat
  crole  : List Nat
  pcom   : List Nat
  ccom   : List Nat
  deriving DecidableEq, Repr

/-! ### Launches and walls -/

/-- A role of a launch header (R288). -/
structure Role where
  entry  : Nat
  lgran  : Nat
  ureg   : Nat
  bricks : Nat
  emask  : BitVec 5
  bpri   : Nat
  deriving DecidableEq, Repr

/-- A network barrier entry of a launch record (R286). -/
structure NetEntry where
  sp : Scope
  k  : Nat
  e  : Nat
  deriving DecidableEq, Repr

/-- A launch (R286–R291): the record's fields, the address space that the record was read in, the header's fields, its
bindings, the address of its text, the bytes of its code that a die's variant changes (keyed 2^57 · die + address), the
units of the mortar window given on each die, the walls placed on each die, whether it is admitted, and its place in
the order of acceptance. -/
structure Launch where
  lid      : Nat
  asid     : Nat
  recAsid  : Nat
  pri      : Nat
  prv      : Bool
  dies     : List Nat
  walls    : Nat
  mwin     : Nat
  mbase    : Nat
  nsem     : Nat
  semb     : Nat
  args     : List W64
  nets     : List NetEntry
  done     : Nat
  donePrv  : Bool
  det      : Bool
  q        : Nat
  accDyn   : Bool
  nacc     : Nat
  bars     : List Nat
  hods     : List (Nat × Nat)
  lbytes   : Nat
  roles    : List Role
  binds    : Tab Binding
  text     : Nat
  patch    : Tab Byte
  wins     : Tab (List Nat)
  placed   : Tab Nat
  admitted : Bool
  order    : Nat
  debugger : Bool
  deriving DecidableEq, Repr

/-- A wall (R189, R292): its launch, identifier, core, local base, physical banks, row pools (keyed 4 · partition + role),
core barriers, hods, the bricks it started with their roles and partitions, whether it is saved (R296), the saved local
bytes and line state, the saved banks, and what the hods added to each role's priority at the last clock (R294). -/
structure Wall where
  launch  : Nat
  wid     : Nat
  die     : Nat
  core    : Nat
  lbase   : Nat
  banks   : List Nat
  pools   : Tab Nat
  bars    : Tab Barrier
  hods    : Tab Hod
  bricks  : List (Nat × Nat × Nat)
  stop    : Bool
  saved   : Bool
  sBytes  : Tab Byte
  sMeta   : Tab LineMeta
  sBanks  : Tab Bank
  ended   : Bool
  adj     : Tab Int
  deriving DecidableEq, Repr

/-! ### Engines, translation, the module and its outside -/

/-- A copy command in progress (R341): its brick, its number among the brick's commands, the operation in the brick's flights, the source and the
destination (true: virtual), what is left, its checksum and its flags, and the page whose fault it waits on, with whether
the wait was refused (R336) and whether it has an entry of the fault buffer (R335), how often its two datapath lanes will differ in the next span (R341, R363), and the cycle from
which the next span can move. -/
structure Copy where
  brick   : Nat
  wall    : Nat
  asid    : Nat
  prv     : Bool
  num     : Nat
  seq     : Nat
  src     : Bool × Nat
  dst     : Bool × Nat
  hod     : Option (ObjRef × Option Nat)
  len     : Nat
  pos     : Nat
  chain   : Bool
  ck      : Bool
  cmp     : Bool
  expect  : BitVec 32
  sum     : Option (BitVec 32)
  green   : Bool
  buf     : List (List Byte × Bool)
  flip    : Option (Nat × Nat)
  started : Bool
  page    : Option Nat
  refused : Bool
  entry   : Bool
  lane    : Nat
  due     : Nat
  deriving DecidableEq, Repr

/-- A cached table entry (R334), leaf or pointer: the cache (a core, or a die as 128 + die), the address space, the
level by its index's lowest address bit (R330), the virtual address from that bit up, and the entry. -/
structure TlbEntry where
  cache : Nat
  asid  : Nat
  shift : Nat
  tag   : Nat
  entry : W64
  deriving DecidableEq, Repr

/-- A pending translation fault record (R335, R336): ASID, page, kind of the first access, whether an engine made it, and
whether system software has claimed it. -/
structure FaultRec where
  asid    : Nat
  vpn     : Nat
  kind    : Nat
  eng     : Bool
  claimed : Bool
  deriving DecidableEq, Repr

/-- One participant of a collective instance (R377, R378): its brick, its operation, the issuing split and its threads,
what it contributes, its source and destination in pieces that end at lines, whether its registers are green and
whether its split is governed, whether it has joined, and then its bytes and its green flags. -/
structure Party where
  brick  : Nat
  seq    : Nat
  split  : Nat
  mask   : BitVec 32
  rank   : Nat
  form   : CollForm
  k      : BitVec 4
  ctrl   : W64
  n      : Nat
  src    : List (Loc × Nat)
  dst    : List (Loc × Nat)
  dstVa  : Nat
  green  : Bool
  gov    : Bool
  joined : Bool
  bytes  : List Byte
  greens : List Bool
  deriving DecidableEq, Repr

/-- A collective instance (R378): its partition, group, index, those who joined, the cause with which it failed, and the
result, with its flags, that the network holds for participants whose walls are saved (R296). -/
structure Coll where
  part    : Nat
  group   : Nat
  index   : Nat
  parties : List Party
  failed  : Option (BitVec 9)
  result  : Option (List (List Byte × Bool) × Flags)
  deriving DecidableEq, Repr

/-- A die: its boot state, its measurement, its reliability log with the dropped count, its fault records, its thermal
shutdown and junction temperature (R387–R395). -/
structure Die where
  booted : Bool
  ok     : Bool
  m      : List Byte
  rlog   : List W64
  lost   : Nat
  faults : List FaultRec
  hot    : Bool
  tj     : Nat
  deriving DecidableEq, Repr

def Die.start : Die := ⟨false, true, List.replicate 64 0, [], 0, [], false, 0⟩

/-- A fabric link (R368): retries in a row and whether it is out of service. -/
structure Link where
  retries : Nat
  out     : Bool
  deriving DecidableEq, Repr

/-- A core quad's clock (R393): whether the sag stretch is on. -/
structure Quad where
  sag : Bool
  deriving DecidableEq, Repr

/-- A launch record waiting for die 0's or another die's site processor (R290, R302, R384): address, address space,
submitter (a brick and split, or the host), its die, the launcher's privilege and priority, and the cycle from which it can
be handled. -/
structure Submit where
  va   : Nat
  asid : Nat
  by_  : Option (Nat × Nat)
  die  : Nat
  prv  : Bool
  pri  : Nat
  due  : Nat
  deriving DecidableEq, Repr

/-- What the module sends outside: host reads, fabric responses, and its own accesses to homes on other modules (R374: the plane
that each leaves on, R369): the model's own list. -/
inductive Sent where
  | fabricRead (plane : Nat) (pa n : Nat)
  | fabricWrite (plane : Nat) (pa : Nat) (bytes : List Byte) (green : Bool)
  | fabricAtomic (plane : Nat) (pa : Nat) (op : AtomOp) (ty : Ty) (v v2 : W64) (green : Bool)
  | hostData (pa : Nat) (bytes : List Byte)
  | fabricData (module : BitVec 11) (pa : Nat) (bytes : List Byte) (green : Bool)
  | fabricDone (module : BitVec 11) (pa : Nat)
  | fabricPoison (module : BitVec 11) (pa : Nat)
  | fabricRefused (module : BitVec 11) (revoked : Bool)
  deriving DecidableEq, Repr

/-- The whole machine. -/
structure State where
  clk      : Nat
  free     : Nat
  focus    : Option (Nat × Nat)
  inputs   : List (Nat × Instr)
  faultsIn : List (List StorageFault)
  sent     : List Sent
  mem      : Tab Byte
  mmeta    : Tab LineMeta
  lmem     : Tab Byte
  lmeta    : Tab LineMeta
  pairs    : Tab PairSlot
  tlb      : List TlbEntry
  asidTab  : W64
  plim     : Nat
  reqSig   : Bool
  bricks   : Tab Brick
  nextB    : Nat
  walls    : Tab Wall
  nextW    : Nat
  launches : Tab Launch
  nextL    : Nat
  submits  : List Submit
  cores    : Tab Core
  parts    : Tab Part
  sems     : Tab Sem
  nets     : Tab Barrier
  copies   : Tab Copy
  nextC    : Nat
  colls    : Tab Coll
  collIdx  : Tab Nat
  dies     : Tab Die
  links    : Tab Link
  quads    : Tab Quad
  pstep    : Nat
  pover    : Nat
  watt     : Nat
  module   : BitVec 11
  key      : BitVec 16
  keyPart  : BitVec 16
  badKeys  : List (BitVec 16)
  keyMap   : Tab (BitVec 16)
  modKeys  : Tab (BitVec 16)
  lasid    : BitVec 16
  acc      : BitVec 32
  bad      : Bool
  lost     : Bool
  attest   : Option (Nat × Nat)
  deriving DecidableEq, Repr

/-- The module right after reset: nothing placed, nothing in flight, memory with nothing listed. -/
def State.reset : State where
  clk := 0
  free := 0
  focus := none
  inputs := []
  faultsIn := []
  sent := []
  mem := []
  mmeta := []
  lmem := []
  lmeta := []
  pairs := []
  tlb := []
  asidTab := 0
  plim := 2900
  reqSig := true
  bricks := []
  nextB := 0
  walls := []
  nextW := 0
  launches := []
  nextL := 0
  submits := []
  cores := []
  parts := []
  sems := []
  nets := []
  copies := []
  nextC := 0
  colls := []
  collIdx := []
  dies := []
  links := []
  quads := []
  pstep := 8
  pover := 0
  watt := 0
  module := 0
  key := 0
  keyPart := 0
  badKeys := []
  keyMap := []
  modKeys := []
  lasid := 0
  acc := 0
  bad := false
  lost := false
  attest := none

end Sys2Proof.Machine
end

