-- ==== Sys2Proof/Machine/Ops.lean ====
section
/-!
DEFINITION. The named operations over registers and memory, the reliability log, the checks that every form passes
before it acts (R52, R108, R35, R103), the issue of one form, its retirement, and taking a trap (R350) with the return
from it (R358).
-/
namespace Sys2Proof.Machine

/-! ### Places -/

/-- Die, quad and core-in-quad of a package core number (R10). -/
def dieOfCore (core : Nat) : Nat := core / 32
def quadOfCore (core : Nat) : Nat := core / 4
/-- Key of a core's partition in State.parts. -/
def partKey (core part : Nat) : Nat := 16 * core + part
/-- Number of the split that runs a trap handler (R352). -/
def handlerSplit : Nat := 4

/-! ### Looking things up -/

/-- What issues in this step: the brick and the split that hold the issue slot. -/
structure Ctx where
  b  : Nat
  k  : Nat
  br : Brick
  sp : Split
  deriving DecidableEq, Repr

/-- The issuing brick and split, when they exist. -/
def focusOf (s : State) : Option Ctx :=
  match s.focus with
  | none => none
  | some (b, k) =>
    match tabGet? s.bricks b with
    | none => none
    | some br =>
      match tabGet? br.splits k with
      | none => none
      | some sp => some ⟨b, k, br, sp⟩

def setBrick (s : State) (b : Nat) (br : Brick) : State := { s with bricks := tabPut s.bricks b br }
def modBrick (s : State) (b : Nat) (f : Brick → Brick) : State := { s with bricks := tabMod s.bricks b f }
def Brick.setSplit (br : Brick) (k : Nat) (sp : Split) : Brick := { br with splits := tabPut br.splits k sp }
def Brick.modSplit (br : Brick) (k : Nat) (f : Split → Split) : Brick := { br with splits := tabMod br.splits k f }
def modSplit (s : State) (b k : Nat) (f : Split → Split) : State := modBrick s b (fun br => br.modSplit k f)
def modLaunch (s : State) (l : Nat) (f : Launch → Launch) : State := { s with launches := tabMod s.launches l f }
def modWall (s : State) (w : Nat) (f : Wall → Wall) : State := { s with walls := tabMod s.walls w f }
def coreOf (s : State) (c : Nat) : Core := tabGetD s.cores c Core.start
def modCore (s : State) (c : Nat) (f : Core → Core) : State := { s with cores := tabSet s.cores c Core.start (f (coreOf s c)) }
def partOf (s : State) (p : Nat) : Part := tabGetD s.parts p Part.start
def modPart (s : State) (p : Nat) (f : Part → Part) : State := { s with parts := tabSet s.parts p Part.start (f (partOf s p)) }
def dieState (s : State) (d : Nat) : Die := tabGetD s.dies d Die.start
def modDie (s : State) (d : Nat) (f : Die → Die) : State := { s with dies := tabSet s.dies d Die.start (f (dieState s d)) }

/-- A split runs a trap handler (R352). -/
def Ctx.inHandler (c : Ctx) : Bool := c.k == handlerSplit

/-- Whether a stack entry governs the split (R158). -/
def Entry.governs : Entry → Bool
  | .ret _ g => g
  | .dvg _ _ _ _ _ _ g _ _ => g

/-- A split is green-governed (R158). -/
def Split.governed (sp : Split) : Bool := sp.gov || sp.stack.any Entry.governs

def Ctx.gov (c : Ctx) : Bool := c.sp.governed

/-- Deterministic end time of the brick's current course (R297). -/
def courseEndOf (q L : Nat) : Nat := if q = 0 then 0 else (L / q + 1) * q
/-- Course length of the brick's launch; 0 outside a deterministic one. -/
def qOf (s : State) (br : Brick) : Nat :=
  match tabGet? s.launches br.launch with
  | some l => l.q
  | none => 0

/-! ### Registers -/

/-- Physical number of a named lane or uniform register: the handler's v56–v63 and s56–s63 are banked (R352). -/
def physReg (k : Nat) (r : Nat) : Nat := if k == handlerSplit && r ≥ 56 then r + 8 else r
/-- Name of a physical register. -/
def nameOfPhys (p : Nat) : Nat := if p ≥ 64 then p - 8 else p
def halfKey (p t e : Nat) : Nat := 64 * p + 2 * t + e

def Brick.half (br : Brick) (p t e : Nat) : Half := tabGetD br.lane (halfKey p t e) Half.start
/-- The bits that reading a half gives: the marker 0x7FA0_00nn when it is unwritten (R103). -/
def halfBits (p : Nat) (h : Half) : W32 := if h.u then BitVec.ofNat 32 (0x7FA00000 + nameOfPhys p) else h.bits
def Brick.lane32 (br : Brick) (p t e : Nat) : W32 := halfBits p (br.half p t e)
def Brick.lane64 (br : Brick) (p t : Nat) : W64 := br.lane32 p t 1 ++ br.lane32 p t 0
/-- A 64-bit value is green when either half is (R102). -/
def Brick.laneG (br : Brick) (p t : Nat) : Bool := (br.half p t 0).g || (br.half p t 1).g
/-- s0 reads zero and cured (R101). -/
def Brick.uniR (br : Brick) (p : Nat) : UReg := if p = 0 then UReg.start else tabGetD br.uni p UReg.start
def Brick.mskR (br : Brick) (m : Nat) : MReg := tabGetD br.msk m MReg.start
def Brick.fxOf (br : Brick) (t : Nat) : Flags := tabGetD br.fx t flagNone
def Brick.cstOf (br : Brick) (t : Nat) : Cst := tabGetD br.cst t Cst.start

/-- Bit 2t+e of a mask value. -/
def mbit (v : W64) (t e : Nat) : Bool := v.getLsbD (2 * t + e)
/-- Thread t of a thread mask. -/
def tbit (m : BitVec 32) (t : Nat) : Bool := m.getLsbD t
/-- The threads of a mask in ascending order. -/
def threadsOf (m : BitVec 32) : List Nat := (List.range 32).filter (fun t => tbit m t)
/-- The thread mask of a list. -/
def maskOf (l : List Nat) : BitVec 32 := l.foldl (fun m t => m ||| (1#32 <<< t)) 0#32
/-- A mask value with bits 2t and 2t+1 set for each thread. -/
def pairBits (l : List Nat) : W64 := l.foldl (fun m t => m ||| (3#64 <<< (2 * t))) 0#64

/-- One write to a register file; s0 discards (R101). -/
def applyWrite (br : Brick) (w : RegWrite) : Brick :=
  match w with
  | .lane key h => { br with lane := tabSet br.lane key Half.start h }
  | .tag key g => { br with lane := tabSet br.lane key Half.start { tabGetD br.lane key Half.start with g := g } }
  | .mtag r sel g =>
    let m := br.mskR r
    { br with msk := tabSet br.msk r MReg.start { m with g := (m.g &&& ~~~sel) ||| (g &&& sel) } }
  | .uni r v g => if r = 0 then br else { br with uni := tabSet br.uni r UReg.start ⟨v, g⟩ }
  | .msk r sel v g =>
    let m := br.mskR r
    { br with msk := tabSet br.msk r MReg.start ⟨(m.v &&& ~~~sel) ||| (v &&& sel), (m.g &&& ~~~sel) ||| (g &&& sel)⟩ }

def applyWrites (br : Brick) (ws : List RegWrite) : Brick := ws.foldl applyWrite br

/-- A written half of a lane register. -/
def wHalf (p t e : Nat) (v : W32) (g : Bool) : RegWrite := .lane (halfKey p t e) ⟨v, g, false, false⟩
/-- A whole lane register written in 64-bit operation (R102). -/
def wLane64 (p t : Nat) (v : W64) (g : Bool) : List RegWrite :=
  [wHalf p t 0 (v.extractLsb' 0 32) g, wHalf p t 1 (v.extractLsb' 32 32) g]

/-- ORs flags into a thread's FX (R139). -/
def orFx (br : Brick) (t : Nat) (f : Flags) : Brick := { br with fx := tabSet br.fx t flagNone (br.fxOf t ||| f) }
def orFxAll (br : Brick) (l : List (Nat × Flags)) : Brick := l.foldl (fun b x => orFx b x.1 x.2) br

/-! ### The reliability log (R365) -/

def logKindOf (e : W64) : Nat := (e.toNat / 2 ^ 59) % 16
/-- Entries of KIND 0 to 4, 8 and 9 give way to those of KIND 5 to 7. -/
def logMinor (k : Nat) : Bool := !(k == 5 || k == 6 || k == 7)
/-- Takes out the oldest minor entry. -/
def dropMinor : List W64 → Option (List W64)
  | [] => none
  | e :: l => if logMinor (logKindOf e) then some l else (dropMinor l).map (e :: ·)

def logEntry (kind strct : Nat) (core : Option Nat) (lost loc : Nat) : W64 :=
  BitVec.ofNat 64 (2 ^ 63 + kind * 2 ^ 59 + strct * 2 ^ 54 + (if core.isNone then 2 ^ 53 else 0) +
    (core.getD 0) * 2 ^ 46 + min lost 31 * 2 ^ 41 + loc % 2 ^ 41)

/-- Adds an entry to a die's log; a full log drops and counts minor entries, and makes room for the others. -/
def logAdd (s : State) (die kind strct : Nat) (core : Option Nat) (loc : Nat) : State :=
  modDie s die (fun d =>
    if d.rlog.length < 4096 then { d with rlog := d.rlog ++ [logEntry kind strct core d.lost loc], lost := 0 }
    else if logMinor kind then { d with lost := d.lost + 1 }
    else match dropMinor d.rlog with
      | some l => { d with rlog := l ++ [logEntry kind strct core d.lost loc], lost := 0 }
      | none => { d with lost := d.lost + 1 })

/-! ### Memory -/

/-- Key of a byte of local memory in State.lmem. -/
def lKey (core off : Nat) : Nat := core * 2 ^ 20 + off % 2 ^ 20

/-- What an unlisted byte of memory reads as. -/
def unlistedByte : Byte := 0

def byteAt (s : State) : Loc → Byte
  | .loc core off => tabGetD s.lmem (lKey core off) unlistedByte
  | .phys pa => tabGetD s.mem pa unlistedByte

def putByte (s : State) (l : Loc) (x : Byte) : State :=
  match l with
  | .loc core off => { s with lmem := tabSet s.lmem (lKey core off) unlistedByte x }
  | .phys pa => { s with mem := tabSet s.mem pa unlistedByte x }

def Loc.add : Loc → Nat → Loc
  | .loc c o, n => .loc c (o + n)
  | .phys p, n => .phys (p + n)

/-- The 64-byte line that holds a place. -/
def Loc.line : Loc → Loc
  | .loc c o => .loc c (o / 64 * 64)
  | .phys p => .phys (p / 64 * 64)

def Loc.inLine : Loc → Nat
  | .loc _ o => o % 64
  | .phys p => p % 64

/-- Host memory carries no tag (R178, R329). -/
def isHostPa (pa : Nat) : Bool := decide (0x40000000000000 ≤ pa) && decide (pa < 0x80000000000000)
def isRemotePa (pa : Nat) : Bool := decide (0x80000000000000 ≤ pa)
def Loc.isHost : Loc → Bool
  | .loc _ _ => false
  | .phys p => isHostPa p

def metaAt (s : State) : Loc → LineMeta
  | .loc core off => tabGetD s.lmeta (lKey core off / 64) LineMeta.start
  | .phys pa => if isHostPa pa then LineMeta.start else tabGetD s.mmeta (pa / 64) LineMeta.start

def putMeta (s : State) (l : Loc) (m : LineMeta) : State :=
  match l with
  | .loc core off => { s with lmeta := tabSet s.lmeta (lKey core off / 64) LineMeta.start m }
  | .phys pa => if isHostPa pa then s else { s with mmeta := tabSet s.mmeta (pa / 64) LineMeta.start m }

/-- `n` bytes from a place, lowest address first. -/
def readBytes (s : State) (l : Loc) : Nat → List Byte
  | 0 => []
  | n + 1 => byteAt s l :: readBytes s (l.add 1) n

def putBytes (s : State) (l : Loc) : List Byte → State
  | [] => s
  | x :: xs => putBytes (putByte s l x) (l.add 1) xs

/-- A little-endian number (R67). -/
def leNat : List Byte → Nat
  | [] => 0
  | x :: xs => x.toNat + 256 * leNat xs

/-- The `n` little-endian bytes of a number. -/
def leBytes : Nat → Nat → List Byte
  | 0, _ => []
  | n + 1, v => BitVec.ofNat 8 v :: leBytes n (v / 256)

/-- The G bit that goes with a place (R174, R176). -/
def lineG (s : State) (l : Loc) : Bool := (metaAt s l).g

/-- Structure code of the memory that holds a place (R367). -/
def structOf : Loc → Nat
  | .loc _ _ => 2
  | .phys pa =>
    let low := if isRemotePa pa then pa % 2 ^ 44 else pa
    if decide (0x4000000000 * 16 ≤ low) then 4 else if decide (0x10000000000 ≤ low) then 6 else 5

/-- Home die of a place: a core's own, a mortar window's, or PA[7:6] (R230). -/
def dieOfLoc : Loc → Nat
  | .loc c _ => dieOfCore c
  | .phys pa =>
    if decide (0x40000000000 ≤ pa) && decide (pa < 0x40040000000) then (pa - 0x40000000000) / 0x10000000 else pa / 64 % 4

def coreOfLoc : Loc → Option Nat
  | .loc c _ => some c
  | .phys _ => none

def locWord : Loc → Nat
  | .loc _ o => o / 64
  | .phys pa => pa / 64 % 2 ^ 40

/-- A read through the line's check (R18, R362, R363): a single wrong bit is corrected and logged as KIND 0, two or more
poison the line and are logged as KIND 5. The second component: the line is poisoned. -/
def checkLine (s : State) (l : Loc) : State × Bool :=
  let m := metaAt s l
  match m.err with
  | [] => (s, m.psn)
  | [_] => (logAdd (putMeta s l { m with err := [] }) (dieOfLoc l) 0 (structOf l) (coreOfLoc l) (locWord l), m.psn)
  | _ =>
    if m.psn then (putMeta s l { m with err := [] }, true)
    else (logAdd (putMeta s l { m with err := [], psn := true }) (dieOfLoc l) 5 (structOf l) (coreOfLoc l) (locWord l), true)

/-- One byte of an operation that writes memory: place, value, whether it comes from a green element or address. -/
structure WByte where
  loc : Loc
  x   : Byte
  g   : Bool
  deriving DecidableEq, Repr

/-- Writes the bytes that an operation has for one line, with the G rule of R175 and the merge rule of R362: a write of
fewer than 64 bytes reads the line through its check, and is not performed on a poisoned line. -/
def writeLine (s : State) (line : Loc) (ws : List WByte) (gov atomic : Bool) : State :=
  let places := (ws.map (fun w => w.loc.inLine)).eraseDups
  let whole := !atomic && places.length == 64
  let greenIn := gov || ws.any (·.g)
  let (s, psn) := if whole then (s, false) else checkLine s line
  if psn then s
  else
    let s := ws.foldl (fun s w => putByte s w.loc w.x) s
    let m := metaAt s line
    let g := if greenIn then true else if whole then false else m.g
    putMeta s line { m with g := g, psn := (if whole then false else m.psn), err := (if whole then [] else m.err) }

/-- The lines that some bytes lie on, in order of first use. -/
def linesOf (ws : List WByte) : List Loc := (ws.map (fun w => w.loc.line)).eraseDups

/-- Performs a store: each line judged on its own (R175). -/
def writeAll (s : State) (ws : List WByte) (gov atomic : Bool) : State :=
  (linesOf ws).foldl (fun s l => writeLine s l (ws.filter (fun w => w.loc.line == l)) gov atomic) s

/-- The bytes of one thread's store. -/
def Put.bytesOf (p : Put) : List WByte :=
  (List.range p.bytes.length).map (fun i => ⟨p.acc.loc.add i, p.bytes.getD i 0, p.dG || p.acc.aG⟩)

def putsBytes (ps : List Put) : List WByte := ps.flatMap Put.bytesOf

/-! ### Free values -/

/-- The next free value's index; the counter is the model's own. -/
def nextFree (s : State) : Nat × State := (s.free, { s with free := s.free + 1 })

/-- A cycle, after now, at which an operation of variable latency may be performed. -/
def freeDue (s : State) : Nat × State := (s.clk + 1 + Config.latency s.free, { s with free := s.free + 1 })

/-! ### Flight counters (R198) -/

/-- What a flight counter stands at. -/
def fcValue (br : Brick) (n : Nat) : Nat := (br.flights.filter (fun f => f.fc == some n)).length

/-- A flight counter that stands at 63 keeps a form from issuing. -/
def fcFull (br : Brick) (n : Nat) : Bool := decide (fcValue br n ≥ 63)

/-- Lets the operations at the front of a counter that have completed go. -/
def dropDone : List Flight → List Nat → List Flight
  | [], _ => []
  | f :: l, blocked =>
    match f.fc with
    | none => if f.done then dropDone l blocked else f :: dropDone l blocked
    | some n => if f.done && !blocked.contains n then dropDone l blocked else f :: dropDone l (n :: blocked)

/-- Marks an operation complete; its counter falls past it once it is the oldest on it (R198). -/
def finishFlight (br : Brick) (seq : Nat) : Brick :=
  { br with flights := dropDone (br.flights.map (fun f => if f.seq == seq then { f with done := true } else f)) [] }

/-- Operations issued on a counter so far. -/
def issuedOn (br : Brick) (n : Nat) : Nat := tabGetD br.issued n 0

/-- Issues an operation on a counter: it takes the next place in the brick's order and on its counter. -/
def addFlight (br : Brick) (f : Nat → Nat → Flight) : Brick :=
  let fc := (f br.seq 0).fc
  let ord := match fc with
    | some n => issuedOn br n + 1
    | none => 0
  { br with flights := br.flights ++ [f br.seq ord], seq := br.seq + 1
            issued := (match fc with
              | some n => tabSet br.issued n 0 ord
              | none => br.issued) }

/-! ### Engines and forms -/

/-- The engines of R58. -/
inductive Engine where
  | copy | matrix | tape | coll | vec
  deriving DecidableEq, Repr

/-- Bit of the engine in a role's mask (R288). -/
def Engine.bit : Engine → Nat
  | .copy => 0 | .matrix => 1 | .tape => 2 | .coll => 3 | .vec => 4

/-- One thread's element of a lane register: the halves that are read, and whether they are read also while the thread is not
active. -/
structure Elem where
  thread : Nat
  always : Bool
  h0     : Bool
  h1     : Bool
  deriving DecidableEq, Repr

/-- What the checks before a form's own need to know of it: its length, its stall count, its engine, whether it is
privileged or brick-wide, the registers it names (R108), those it reads and writes (R35), the lane registers whose
unwritten halves trap (R103), and whether it makes the poison check of R362 itself; the registers of which it reads half 0 alone;
and the element that it reads of its lane register, where it reads one. Numbers are those of the word. -/
structure Form where
  two    : Bool
  st     : BitVec 3
  lane   : Bool
  engine : Engine
  priv   : Bool
  wide   : Bool
  lanes  : List Nat
  unis   : List Nat
  rd     : List RName
  wr     : List RName
  chk    : List (Nat × Bool × Bool)
  ownPsn : Bool := false
  half0  : List Nat := []
  only   : Option Elem := none
  deriving DecidableEq, Repr

/-- A trap that a form raises (R354): its cause and what the report adds. -/
structure TrapReq where
  cause  : BitVec 9
  reg    : Nat
  thread : Nat
  count  : Nat
  mask   : Option (BitVec 32)
  aux0   : W64
  aux1   : W64
  deriving DecidableEq, Repr

/-- Lowest thread of a mask; 0 for an empty one. -/
def lowThread (m : BitVec 32) : Nat := (threadsOf m).headD 0

/-- A trap with no data of its own, reported for the whole split: its lowest thread and its number of threads. -/
def trapOf (c : Ctx) (cause : BitVec 9) : TrapReq :=
  ⟨cause, 0, lowThread c.sp.mask, (threadsOf c.sp.mask).length, none, 0, 0⟩
def trapAux (c : Ctx) (cause : BitVec 9) (a0 : W64) : TrapReq := { trapOf c cause with aux0 := a0 }
def trapThread (cause : BitVec 9) (t n : Nat) (a0 : W64) : TrapReq := ⟨cause, 0, t, n, none, a0, 0⟩

/-- What the checks before a form's own say. -/
inductive Admit where
  | go
  | hold
  | trap (t : TrapReq)
  deriving DecidableEq, Repr

/-- Physical name of a register of the word. -/
def physName (k : Nat) : RName → RName
  | .lane r => .lane (physReg k r)
  | .uni r => .uni (physReg k r)
  | .msk m => .msk m

/-- Granules that the brick has given away and whose rows are not in the pool yet (R110). -/
def Brick.given (br : Brick) : Nat :=
  (br.flights.map (fun f => match f.kind with
    | .give _ rows => if f.done then 0 else rows / 8
    | _ => 0)).foldl (· + ·) 0

/-- The granules of the brick's allotment: what it gave governs every instruction after the give (R420). -/
def Brick.granNow (br : Brick) : Nat := br.gran - br.given

/-- R52 checks 3 to 5, then R108. -/
def staticCheck (c : Ctx) (f : Form) : Option (BitVec 9) :=
  if f.priv && !c.br.prv then some 0x006#9
  else if !c.br.emask.getLsbD f.engine.bit then some 0x003#9
  else if f.wide && c.sp.mask != c.br.threads then some 0x004#9
  else
    let top := 8 * c.br.granNow
    let banked (r : Nat) : Bool := c.inHandler && decide (r ≥ 56) && decide (r < 64)
    if f.lanes.any (fun r => decide (r ≥ top) && !banked r) ||
        f.unis.any (fun r => decide (r ≥ c.br.unis) && r != 0 && !banked r) then some 0x007#9
    else none

/-- The uniform register that a parked form will write; s0 discards. -/
def WaitOp.dest : WaitOp → Nat
  | .give d _ _ => d
  | .barWait _ _ _ d _ => d
  | .barQ _ d _ => d
  | .semAcq _ d _ => d
  | .semTry _ d _ => d
  | .hodGet _ d _ _ => d
  | .hodTry _ d _ => d
  | .hodCopy _ d => d
  | .accalloc _ d _ => d
  | .launch _ d _ => d
  | .copyq _ _ d _ => d
  | .roleq _ d _ => d
  | .take _ d => d
  | _ => 0

/-- A split of the brick is parked on a form that will write the register. -/
def Brick.awaits (br : Brick) (n : RName) : Bool :=
  br.splits.any (fun x => match x.2.wait with
    | some w => w.op.dest != 0 && n == .uni w.op.dest
    | none => false)

/-- A register with an interlocked write pending (R100), or a uniform register with a result pending from another split
(R157): the form waits. -/
def interlocked (c : Ctx) (n : RName) : Bool :=
  n != .uni 0 && (c.br.ilock.contains n || c.br.awaits n ||
    (match n with
     | .uni _ =>
       c.br.pend.any (fun p => p.names.contains n && p.writer != c.k) ||
       c.br.marks.any (fun m => m.name == n && m.split != c.k && c.br.flights.any (fun f => f.seq == m.seq && !f.done))
     | _ => false))

/-- The checking scoreboard is on (R36, R106). -/
def sbcOn (br : Brick) : Bool := br.sbc || br.det

/-- A result of the split is pending on the register, or a load mark stands on it for one of some threads (R35, R200). -/
def pendingFor (c : Ctx) (ts : BitVec 32) (n : RName) : Bool :=
  n != .uni 0 &&
    (c.br.pend.any (fun p => p.names.contains n &&
       (match n with
        | .uni _ => p.writer == c.k
        | _ => p.owners.contains c.k)) ||
     c.br.marks.any (fun m => m.name == n &&
       (match n with
        | .uni _ => m.split == c.k
        | _ => m.threads &&& ts != 0#32)))

/-- The same for the threads of the split. -/
def pendingOn (c : Ctx) (n : RName) : Bool := pendingFor c c.sp.mask n

/-- The one element that the form reads: where its thread may have to be active, every active thread reads its own otherwise. -/
def Form.one (f : Form) (c : Ctx) : Option Elem := f.only.filter (fun e => e.always || tbit c.sp.mask e.thread)

/-- The threads whose elements the form reads of its lane and mask registers. -/
def Form.readers (f : Form) (c : Ctx) : BitVec 32 :=
  match f.one c with
  | some e => 1#32 <<< e.thread
  | none => c.sp.mask

/-- The first register of the form, those read before those written, with a result or a mark pending. -/
def stalled (c : Ctx) (f : Form) : Option RName :=
  ((f.rd.map (physName c.k)).find? (pendingFor c (f.readers c))).or ((f.wr.map (physName c.k)).find? (pendingOn c))

def regNumber : RName → Nat
  | .lane r => nameOfPhys r
  | .uni r => nameOfPhys r
  | .msk m => m

/-- The threads of the split with an unwritten half among those that the form checks of a register. -/
def unwrittenThreads (c : Ctx) (p : Nat) (h0 h1 : Bool) : List Nat :=
  (threadsOf c.sp.mask).filter (fun t => (h0 && (c.br.half p t 0).u) || (h1 && (c.br.half p t 1).u))

def poisonedThreads (c : Ctx) (ts : BitVec 32) (p : Nat) (h0 h1 : Bool) : List Nat :=
  (threadsOf ts).filter (fun t => (h0 && (c.br.half p t 0).p) || (h1 && (c.br.half p t 1).p))

/-- The halves of a register that the form reads: those of its one element, those that it checks, half 0 where it reads that one
alone, else both. -/
def Form.halves (f : Form) (c : Ctx) (r : Nat) : Bool × Bool :=
  match f.one c with
  | some e => (e.h0, e.h1)
  | none =>
    let l := f.chk.filter (fun x => x.1 == r)
    if l.isEmpty && !f.half0.contains r then (true, true)
    else (l.any (fun x => x.2.1) || f.half0.contains r, l.any (fun x => x.2.2))

/-- The first register of the form with an unwritten half in an active thread (R103). -/
def unwrittenTrap (c : Ctx) : List (Nat × Bool × Bool) → Option TrapReq
  | [] => none
  | (r, h0, h1) :: l =>
    match unwrittenThreads c (physReg c.k r) h0 h1 with
    | [] => unwrittenTrap c l
    | t :: ts => some ⟨0x048#9, r, t, ts.length + 1, none, 0, 0⟩

/-- The first lane register with a poisoned half that the form reads (R362). -/
def poisonTrap (c : Ctx) (f : Form) : List RName → Option TrapReq
  | [] => none
  | .lane r :: l =>
    (match poisonedThreads c (f.readers c) (physReg c.k r) (f.halves c r).1 (f.halves c r).2 with
     | [] => poisonTrap c f l
     | t :: ts => some ⟨0x146#9, 0, t, ts.length + 1, none, 0, BitVec.ofNat 64 r⟩)
  | _ :: l => poisonTrap c f l

/-- TEN as it governs a split: 0 in a handler (R352). -/
def tenOf (c : Ctx) : Flags := if c.inHandler then 0 else c.br.ten

/-- A deterministic launch with TEN not zero keeps the brick from issuing while a form that raises flags is in flight
(R145): one that has a result or flags to land, or a read-out that the array has still to run (R225). -/
def flagHold (c : Ctx) : Bool :=
  c.br.det && tenOf c != 0 && (c.br.pend.any (·.isFp) || !c.br.fxq.isEmpty || !c.br.readouts.isEmpty)

/-- The checks that come before a form's own, in order: R52 checks 3 to 5, R108, the waits of R100 and R157, the stall
check of R35 and R200, the unwritten check of R103, the poison check of R362. A tape divergence that an unwinding left is
reported before all of them (R320). A brick that R145 keeps from issuing does not come to any of them. -/
def precheck (c : Ctx) (f : Form) : Admit :=
  if flagHold c then .hold
  else if c.sp.tapeFault then .trap (trapOf c 0x144#9)
  else
  match staticCheck c f with
  | some cause => .trap (trapOf c cause)
  | none =>
    let names := (f.rd ++ f.wr).map (physName c.k)
    if names.any (interlocked c) then .hold
    else
      match (if sbcOn c.br then stalled c f else none) with
      | some n => .trap { trapOf c 0x049#9 with reg := regNumber n }
      | none =>
        match unwrittenTrap c f.chk with
        | some t => .trap t
        | none =>
          match (if f.ownPsn then none else poisonTrap c f f.rd) with
          | some t => .trap t
          | none => .go

/-! ### Taking a trap -/

/-- Causes that are fatal at the trap (R348); any cause raised in a handler ends the brick (R352). -/
def fatalCause (cause : BitVec 9) : Bool := cause == 0x141#9 || cause == 0x146#9 || cause == 0x14B#9

/-- A precise trap is reported: the brick has none, or one of the same cycle at a higher address, or at the same address in a
higher split (R351). -/
def Brick.reports (br : Brick) (r : TrapRec) : Bool :=
  match br.trap with
  | none => true
  | some r0 => r0.cycle == r.cycle && r0.prec && !br.inSlot &&
      (decide (r.addr < r0.addr) || (r.addr == r0.addr && decide (r.split < r0.split)))

/-- Records a trap of the brick (R350): it stops issuing from every split, and enters its partition's slot when its
issued instructions have completed and the slot is free. `ret` is where the reporting split resumes. A brick that has
already trapped keeps its first report; one in the handler is marked for the kill by the slot's step. -/
def takeTrap (s : State) (b : Nat) (r : TrapRec) : State :=
  modBrick s b (fun br =>
    if r.prec then (if br.reports r then { br with trap := some r } else br)
    else if br.trap.isSome || br.inSlot then { br with late := br.late ++ [r] } else { br with trap := some r })

/-- Records a trap of an operation that has retired, or of a check outside the issue slots (R350, R352, R360, R372): the brick
takes it when it leaves the traps before it. -/
def queueTrap (s : State) (b : Nat) (r : TrapRec) : State :=
  modBrick s b (fun br =>
    if br.trap.isSome || br.inSlot then { br with late := br.late ++ [r] } else { br with trap := some r })

/-- The handler's own trap: the brick is killed in its slot (R352). -/
def handlerTrap (s : State) (b : Nat) (r : TrapRec) : State :=
  modBrick s b (fun br => { br with trap := some (br.trap.getD r) })

/-- A retired operation of a split reports a trap: nothing is left to report of a brick that has ended. -/
def reportLate (s : State) (b k : Nat) (r : TrapRec) : State :=
  match tabGet? s.bricks b with
  | none => s
  | some br =>
    if br.killed || br.threads == 0#32 then s
    else if br.inSlot && k == handlerSplit then handlerTrap s b r
    else queueTrap s b r

/-- Splits 0 to 3 keep their program counters while the handler runs (R352): none of them goes on. -/
def Brick.frozen (br : Brick) (k : Nat) : Bool := br.inSlot && k != handlerSplit

/-- Causes of a form that resumes behind itself (R356). -/
def resumesBehind (cause : BitVec 9) : Bool := cause == 0x00B#9 || cause == 0x00C#9

/-- The report of a trap that a form raises precisely (R354, R356): resumed at the form itself. `atIssue` says that it raises it
as it issues. -/
def preciseRec (s : State) (c : Ctx) (f : Form) (t : TrapReq) (atIssue : Bool) : TrapRec :=
  { cycle := s.clk, cause := t.cause, two := f.two, prec := true, more := false, fatal := fatalCause t.cause, atIssue := atIssue
    reg := BitVec.ofNat 6 t.reg, split := c.k % 4, count := t.count, thread := t.thread, addr := c.sp.pc
    mask := t.mask.getD c.sp.mask, aux0 := t.aux0, aux1 := t.aux1
    ret := if resumesBehind t.cause then c.sp.pc + (if f.two then 8 else 4) else c.sp.pc }

/-- The slot that a form used in this cycle (R146). -/
def stampSlot (s : State) (c : Ctx) (f : Form) : State :=
  modPart s (partKey c.br.core c.br.part) (fun p =>
    if f.lane then { p with laneAt := some s.clk } else { p with uniAt := some s.clk })

/-- An answer with FAIL serves the one access that waited for it (R336): it is spent when the split's form issues, or when the trap
that it raises is reported. -/
def spendAnswer (k : Nat) : Option TFault → Option TFault
  | some f => if f.refused && f.split == k then none else some f
  | none => none

/-- Taking the exception of a form: nothing else of the form happens. One that resumes behind itself has issued, and its stall
count holds for what follows it (R34). What the trap uses up, a tape divergence that is owed or an answer with FAIL, it uses up when
it is reported: one that is not reported is raised again (R351). -/
def raiseTrap (s : State) (c : Ctx) (f : Form) (t : TrapReq) : State :=
  modBrick (takeTrap (stampSlot s c f) c.b (preciseRec s c f t true)) c.b (fun br =>
    { (br.modSplit c.k (fun sp => { sp with ready := max sp.ready (s.clk + 1 + (if resumesBehind t.cause then f.st.toNat else 0)) })) with
      stepping := false })

/-- The state in which a form's trap is taken: what stays of the form stays only where the trap is reported (R351). -/
def trapState (s s' : State) (c : Ctx) (f : Form) (t : TrapReq) : State :=
  if c.br.reports (preciseRec s c f t true) then s' else s

/-! ### Issue and retirement -/

/-- Length of a form in bytes (R51). -/
def Form.len (f : Form) : Nat := if f.two then 8 else 4

/-- A later form that reads a result of a diverging one, or writes what it reads, makes the divergence fatal (R360). -/
def markFatal (s : State) (c : Ctx) (f : Form) (d : Diverged) : Diverged :=
  let rd := f.rd.map (physName c.k)
  let wr := f.wr.map (physName c.k)
  if d.issued == s.clk && d.split == c.k then d
  else if rd.any d.names.contains || wr.any d.reads.contains then { d with fatal := true } else d

/-- What every issue leaves behind: the next instruction of the split issues no earlier than its stall count allows (R34),
the slot is used, the brick is no longer waiting for one, and the split is the current one (R148). -/
def noteIssue (s : State) (c : Ctx) (f : Form) : State :=
  modBrick (stampSlot s c f) c.b (fun br =>
    { (br.modSplit c.k (fun sp => { sp with ready := s.clk + 1 + f.st.toNat })) with
      stepping := false, since := s.clk, cur := (if c.inHandler then br.cur else c.k), divq := br.divq.map (markFatal s c f)
      tfault := spendAnswer c.k br.tfault })

/-- Retirement in a deterministic launch raises the logical clock; a handler's instructions do not count (R297). Outside
one, L counts retired instructions (R304). -/
def countRetired (s : State) (c : Ctx) : State :=
  if c.inHandler then s else modBrick s c.b (fun br => { br with L := br.L + 1 })

/-- Retires a form: the program counter moves past it. -/
def retire (s : State) (c : Ctx) (f : Form) : State :=
  modSplit (countRetired (noteIssue s c f) c) c.b c.k (fun sp => { sp with pc := c.sp.pc + f.len })

/-- Retires a form that has set the program counters itself. -/
def retireJump (s : State) (c : Ctx) (f : Form) : State := countRetired (noteIssue s c f) c

/-- Parks the split on the form, which has issued and not retired. -/
def parkOn (s : State) (c : Ctx) (f : Form) (op : WaitOp) (sync : Option Nat) (counted : Bool) : State :=
  modSplit (noteIssue s c f) c.b c.k (fun sp => { sp with wait := some ⟨op, sync, c.sp.pc, f.two, counted⟩ })

/-- The form cannot issue in this cycle. -/
def holdForm (s : State) (c : Ctx) : State := modSplit s c.b c.k (fun sp => { sp with held := s.clk + 1 })

/-- The next live split after k in ascending order, wrapping from 3 to 0 (R148). -/
def nextLive (br : Brick) (k : Nat) : Nat :=
  ([k + 1, k + 2, k + 3].map (· % 4)).find? (fun j => (tabGet? br.splits j).isSome) |>.getD k

/-- A switch point: the next live split becomes current (R148). In a deterministic launch every issue passes the turn
(R149). -/
def switchTurn (s : State) (c : Ctx) : State :=
  if c.inHandler || c.br.det then s else modBrick s c.b (fun br => { br with cur := nextLive br c.k })

/-- What a form's own part answers. -/
inductive Res where
  /-- the effect; the program counter moves past the form -/
  | done (s : State)
  /-- the same at a switch point -/
  | doneTurn (s : State)
  /-- the effect, program counters included -/
  | jump (s : State)
  /-- the same at a switch point -/
  | jumpTurn (s : State)
  /-- a precise trap; the state holds what stays (R182), normally nothing -/
  | trap (s : State) (t : TrapReq)
  /-- not eligible in this cycle -/
  | hold
  /-- the split parks -/
  | park (s : State) (op : WaitOp) (sync : Option Nat)
  /-- the split parks; the logical clock has counted the form -/
  | parkCounted (s : State) (op : WaitOp)
  /-- the effect without retirement or advance: the brick stops (R358, R335) -/
  | stay (s : State)
  deriving DecidableEq, Repr

/-- What follows from a form's answer. -/
def settle (s : State) (c : Ctx) (f : Form) : Res → State
  | .done s' => retire s' c f
  | .doneTurn s' => switchTurn (retire s' c f) c
  | .jump s' => retireJump s' c f
  | .jumpTurn s' => switchTurn (retireJump s' c f) c
  | .trap s' t => raiseTrap (trapState s s' c f t) c f t
  | .hold => holdForm s c
  | .park s' op sync => parkOn s' c f op sync false
  | .parkCounted s' op => parkOn s' c f op none true
  | .stay s' => s'

/-- Issues one form: the checks, then its own part. -/
def issueForm (s : State) (f : Form) (body : Ctx → Res) : Host.Outcome State Fault Refusal :=
  match focusOf s with
  | none => .fault .noIssuer
  | some c =>
    match precheck c f with
    | .trap t => .next (raiseTrap s c f t)
    | .hold => .next (holdForm s c)
    | .go => .next (settle s c f (body c))

/-- A fixed-latency result that issues now (R35): its writes land `lat` cycles after issue. -/
def addPend (s : State) (c : Ctx) (f : Form) (lat : Nat) (writes : List RegWrite) (fx : List (Nat × Flags))
    (isFp : Bool) : State :=
  modBrick s c.b (fun br =>
    { br with
      pend := br.pend ++ [{ owners := [c.k], writer := c.k, lands := s.clk + lat, seq := br.seq, reads := f.rd.map (physName c.k)
                            names := f.wr.map (physName c.k), writes := writes, fx := fx, split := c.k, pc := c.sp.pc
                            two := f.two, ten := tenOf c, isFp := isFp }]
      seq := br.seq + 1 })

/-- A write with one bit of its value inverted. -/
def RegWrite.flip (i : Nat) : RegWrite → RegWrite
  | .lane key h => .lane key { h with bits := h.bits ^^^ (1#32 <<< (i % 32)) }
  | .uni r v g => .uni r (v ^^^ (1#64 <<< (i % 64))) g
  | .msk r sel v g => .msk r sel (v ^^^ (1#64 <<< (i % 64))) g
  | w => w

/-- The thread that a write belongs to; that of a mask bit is the bit's. -/
def RegWrite.thread (i dflt : Nat) : RegWrite → Nat
  | .lane key _ => key % 64 / 2
  | .tag key _ => key % 64 / 2
  | .mtag _ _ _ => i % 64 / 2
  | .msk _ _ _ _ => i % 64 / 2
  | .uni _ _ _ => dflt

/-- The first value among a thread's writes, for the report of a divergence. -/
def mainOf : List RegWrite → W64
  | .lane _ h :: .lane _ h' :: _ => h'.bits ++ h.bits
  | .lane _ h :: _ => h.bits.setWidth 64
  | .msk _ _ v _ :: _ => v
  | .uni _ v _ :: _ => v
  | _ => 0

/-- The sign, exponent and 8 bits that a shadow formed, packed as an FP32 value (R355): the bits below are zero. -/
def shadowWord (i : Nat) : W32 := Config.shadow i &&& 0xFFFF8000#32

/-- The cycles, at most 12, that a check takes (R139, R360). -/
def checkDelay (i : Nat) : Nat := Config.latency i % 13

/-- Issues a fixed-latency result. Where a datapath makes a fault in it, the result is delivered wrong in one bit, its flags are
held, and the divergence waits for its detection, at most 12 cycles after the result is formed (R360). -/
def pushPend (s : State) (c : Ctx) (f : Form) (lat : Nat) (writes : List RegWrite) (fx : List (Nat × Flags))
    (isFp : Bool) : State :=
  match c.br.dpFault with
  | none => addPend s c f lat writes fx isFp
  | some (n, i) =>
    match writes[n]? with
    | none => modBrick (addPend s c f lat writes fx isFp) c.b (fun br => { br with dpFault := none })
    | some w =>
      let t := w.thread i (lowThread c.sp.mask)
      let ws := writes.set n (w.flip i)
      let (j, s) := nextFree s
      let d : Diverged := { issued := s.clk, due := s.clk + lat + checkDelay j, seq := c.br.seq, thread := t, split := c.k
                            pc := c.sp.pc, two := f.two, main := mainOf (ws.filter (fun x => x.thread i t == t)), shadow := shadowWord j
                            mask := c.sp.mask, reads := f.rd.map (physName c.k), names := f.wr.map (physName c.k), fatal := false }
      modBrick (addPend s c f lat ws [] isFp) c.b (fun br => { br with dpFault := none, divq := br.divq ++ [d] })

/-- A synchronising write takes the cumulative release that a FENCE prepared (R256). -/
def useCum (s : State) (b : Nat) : State := modBrick s b (fun br => { br with cumRel := false })

/-- A memory access with this place in the brick's order must wait for the accesses on fc0 and fc1 that came before a FENCE.acq
before it (R254, R260). -/
def acqHolds (br : Brick) (seq : Nat) : Bool :=
  br.acqs.any (fun q => decide (q ≤ seq) &&
    br.flights.any (fun f => decide (f.seq < q) && !f.done && (f.fc == some 0 || f.fc == some 1)))

/-- The same for an access that issues now. -/
def acqBlocked (br : Brick) : Bool := acqHolds br br.seq

/-- A write-back of the brick waits for the array: the brick's own accesses to local memory come after it (R195, R225). -/
def wbBusy (br : Brick) : Bool := br.flights.any (fun f => f.kind == .accwb && !f.done)

end Sys2Proof.Machine
end

