-- ==== Sys2Proof/Machine/Operands.lean ====
section
/-!
DEFINITION. Operand forms: how the lane, uniform and mask operands of a form are read for each active thread, with
their tags (R102, R111, R117, R169), how results are written, immediates (R32), and the addresses of the memory forms
(R31, R116, R192, R228).
-/
namespace Sys2Proof.Machine

/-! ### Names of the registers of a word -/

def nLane (r : Reg) : RName := .lane r.toNat
def nUni (r : Reg) : RName := .uni r.toNat
def nMsk {n : Nat} (m : BitVec n) : RName := .msk m.toNat
/-- A checked lane register: both halves (R103). -/
def chkBoth (r : Reg) : Nat × Bool × Bool := (r.toNat, true, true)

/-- A lane form of the vec engine that reads lane registers and writes one. -/
def laneForm (two : Bool) (st : BitVec 3) (reads : List Reg) (d : Reg) : Form where
  two := two
  st := st
  lane := true
  engine := .vec
  priv := false
  wide := false
  lanes := d.toNat :: reads.map BitVec.toNat
  unis := []
  rd := reads.map nLane
  wr := [nLane d]
  chk := reads.map chkBoth

/-- A uniform form of the vec engine that reads uniform registers and writes one. -/
def uniForm (two : Bool) (st : BitVec 3) (reads : List Reg) (d : Reg) : Form where
  two := two
  st := st
  lane := false
  engine := .vec
  priv := false
  wide := false
  lanes := []
  unis := d.toNat :: reads.map BitVec.toNat
  rd := reads.map nUni
  wr := [nUni d]
  chk := []

/-- A form of a set that names no register. -/
def bareForm (two lane : Bool) (st : BitVec 3) (engine : Engine) : Form where
  two := two
  st := st
  lane := lane
  engine := engine
  priv := false
  wide := false
  lanes := []
  unis := []
  rd := []
  wr := []
  chk := []

/-! ### Reading -/

/-- Half e of a lane register in thread t: the bits and the tag. -/
def Ctx.h (c : Ctx) (r : Reg) (t e : Nat) : W32 := c.br.lane32 (physReg c.k r.toNat) t e
def Ctx.hG (c : Ctx) (r : Reg) (t e : Nat) : Bool := (c.br.half (physReg c.k r.toNat) t e).g
def Ctx.hU (c : Ctx) (r : Reg) (t e : Nat) : Bool := (c.br.half (physReg c.k r.toNat) t e).u
/-- A whole lane register in thread t. -/
def Ctx.w (c : Ctx) (r : Reg) (t : Nat) : W64 := c.br.lane64 (physReg c.k r.toNat) t
def Ctx.wG (c : Ctx) (r : Reg) (t : Nat) : Bool := c.br.laneG (physReg c.k r.toNat) t
/-- A uniform register. -/
def Ctx.u (c : Ctx) (r : Reg) : W64 := (c.br.uniR (physReg c.k r.toNat)).v
def Ctx.uG (c : Ctx) (r : Reg) : Bool := (c.br.uniR (physReg c.k r.toNat)).g
/-- A mask register. -/
def Ctx.m {n : Nat} (c : Ctx) (r : BitVec n) : MReg := c.br.mskR r.toNat
/-- The active threads of the issuing split, in ascending order. -/
def Ctx.ts (c : Ctx) : List Nat := threadsOf c.sp.mask
/-- Thread t is active in the issuing split. -/
def Ctx.act (c : Ctx) (t : Nat) : Bool := tbit c.sp.mask t

/-! ### Writing -/

/-- The write of half e of a lane register in thread t; every write of a governed split is green (R172). -/
def Ctx.putH (c : Ctx) (d : Reg) (t e : Nat) (v : W32) (g : Bool) : RegWrite :=
  wHalf (physReg c.k d.toNat) t e v (c.gov || g)
/-- The write of a whole lane register in thread t in 64-bit operation (R102). -/
def Ctx.putW (c : Ctx) (d : Reg) (t : Nat) (v : W64) (g : Bool) : List RegWrite :=
  wLane64 (physReg c.k d.toNat) t v (c.gov || g)
/-- The write of a uniform register. -/
def Ctx.putU (c : Ctx) (d : Reg) (v : W64) (g : Bool) : RegWrite := .uni (physReg c.k d.toNat) v (c.gov || g)
/-- The write of the selected bits of a mask register. -/
def Ctx.putM {n : Nat} (c : Ctx) (d : BitVec n) (sel v g : W64) : RegWrite :=
  .msk d.toNat sel v (if c.gov then sel else g)

/-- Writes to a whole lane register of every active thread. -/
def laneWrites64 (c : Ctx) (d : Reg) (v : Nat → W64) (g : Nat → Bool) : List RegWrite :=
  c.ts.flatMap (fun t => c.putW d t (v t) (g t))

/-- Writes to both halves of a lane register of every active thread, each on its own. -/
def laneWrites32 (c : Ctx) (d : Reg) (v : Nat → Nat → W32) (g : Nat → Nat → Bool) : List RegWrite :=
  c.ts.flatMap (fun t => [c.putH d t 0 (v t 0) (g t 0), c.putH d t 1 (v t 1) (g t 1)])

/-- Builds a mask value from its bits. -/
def bitsOf (f : Nat → Bool) : Nat → W64
  | 0 => 0#64
  | n + 1 => bitsOf f n ||| (if f n then 1#64 <<< n else 0#64)

/-- The bits 2t and 2t+1 of the active threads. -/
def Ctx.sel (c : Ctx) : W64 := pairBits c.ts

/-- A mask write over the active threads: value and tag of bit 2t+e. -/
def maskWrite {n : Nat} (c : Ctx) (d : BitVec n) (v g : Nat → Nat → Bool) : RegWrite :=
  c.putM d c.sel (bitsOf (fun i => v (i / 2) (i % 2)) 64 &&& c.sel) (bitsOf (fun i => g (i / 2) (i % 2)) 64 &&& c.sel)

/-! ### Results at a fixed latency -/

/-- Delivers register writes at a latency and retires (R35). -/
def fixed (s : State) (c : Ctx) (f : Form) (lat : Nat) (ws : List RegWrite) : Res :=
  .done (pushPend s c f lat ws [] false)

/-- Writes registers at once, for interlocked destinations whose value is there at issue (R100). -/
def atOnce (s : State) (c : Ctx) (ws : List RegWrite) : Res := .done (modBrick s c.b (fun br => applyWrites br ws))

/-! ### Integer forms (R111–R113, R117) -/

/-- A lane form with two register operands. -/
def laneBin (o : IOp) (lat : Nat) (d a b : Reg) (w : Bool) (st : BitVec 3) (s : State) : Host.Outcome State Fault Refusal :=
  let f := laneForm false st [a, b] d
  issueForm s f (fun c => fixed s c f lat
    (if w then laneWrites64 c d (fun t => iop o (c.w a t) (c.w b t)) (fun t => c.wG a t || c.wG b t)
     else laneWrites32 c d (fun t e => iop o (c.h a t e) (c.h b t e)) (fun t e => c.hG a t e || c.hG b t e)))

/-- A lane form with one register operand. -/
def laneUn (o : UOp) (lat : Nat) (d a : Reg) (w : Bool) (st : BitVec 3) (s : State) : Host.Outcome State Fault Refusal :=
  let f := laneForm false st [a] d
  issueForm s f (fun c => fixed s c f lat
    (if w then laneWrites64 c d (fun t => uop o (c.w a t)) (fun t => c.wG a t)
     else laneWrites32 c d (fun t e => uop o (c.h a t e)) (fun t e => c.hG a t e)))

/-- A 64-bit lane form with a register and an immediate already extended (R32). -/
def laneImm64 (o : IOp) (lat : Nat) (two : Bool) (d a : Reg) (imm : W64) (st : BitVec 3) (s : State) :
    Host.Outcome State Fault Refusal :=
  let f := laneForm two st [a] d
  issueForm s f (fun c => fixed s c f lat (laneWrites64 c d (fun t => iop o (c.w a t) imm) (fun t => c.wG a t)))

/-- A paired 32-bit lane form with a register and an immediate. -/
def laneImm32 (o : IOp) (lat : Nat) (two : Bool) (d a : Reg) (imm : W32) (st : BitVec 3) (s : State) :
    Host.Outcome State Fault Refusal :=
  let f := laneForm two st [a] d
  issueForm s f (fun c => fixed s c f lat
    (laneWrites32 c d (fun t e => iop o (c.h a t e) imm) (fun t e => c.hG a t e)))

/-- MOVI to a whole register: the immediate, cured (R113). -/
def laneMovi64 (two : Bool) (d : Reg) (imm : W64) (st : BitVec 3) (s : State) : Host.Outcome State Fault Refusal :=
  let f := laneForm two st [] d
  issueForm s f (fun c => fixed s c f 1 (laneWrites64 c d (fun _ => imm) (fun _ => false)))

/-- MOVI to each half. -/
def laneMovi32 (two : Bool) (d : Reg) (imm : W32) (st : BitVec 3) (s : State) : Host.Outcome State Fault Refusal :=
  let f := laneForm two st [] d
  issueForm s f (fun c => fixed s c f 1 (laneWrites32 c d (fun _ _ => imm) (fun _ _ => false)))

/-- The operation of a uniform form: 64-bit, or on bits 31:0 with a zero-extended result (R117). -/
def uniApply (w : Bool) (f64 : W64 → W64 → W64) (f32 : W32 → W32 → W32) (a b : W64) : W64 :=
  if w then f64 a b else (f32 (a.setWidth 32) (b.setWidth 32)).setWidth 64

/-- A uniform form with two register operands. -/
def uniBin (o : IOp) (lat : Nat) (d a b : Reg) (w : Bool) (st : BitVec 3) (s : State) : Host.Outcome State Fault Refusal :=
  let f := uniForm false st [a, b] d
  issueForm s f (fun c => fixed s c f lat [c.putU d (uniApply w (iop o) (iop o) (c.u a) (c.u b)) (c.uG a || c.uG b)])

/-- A 64-bit uniform form with a register and an immediate. -/
def uniImm (o : IOp) (lat : Nat) (two : Bool) (d a : Reg) (imm : W64) (st : BitVec 3) (s : State) :
    Host.Outcome State Fault Refusal :=
  let f := uniForm two st [a] d
  issueForm s f (fun c => fixed s c f lat [c.putU d (iop o (c.u a) imm) (c.uG a)])

/-- SMOVI. -/
def uniMovi (two : Bool) (d : Reg) (imm : W64) (st : BitVec 3) (s : State) : Host.Outcome State Fault Refusal :=
  let f := uniForm two st [] d
  issueForm s f (fun c => fixed s c f 1 [c.putU d imm false])

/-! ### Copies with their U bits, for the move forms (R103) -/

/-- The copy of a half to half e of thread t of d, with its U bit. -/
def Ctx.copyH (c : Ctx) (d : Reg) (t e : Nat) (h : Half) (g : Bool) : RegWrite :=
  .lane (halfKey (physReg c.k d.toNat) t e) ⟨if h.u then 0 else h.bits, c.gov || g, h.u, false⟩

/-- Half e of register r in thread t, whole. -/
def Ctx.half (c : Ctx) (r : Reg) (t e : Nat) : Half := c.br.half (physReg c.k r.toNat) t e

/-- The copy of a lane element: lane `src` of a to lane `dst` of d. With q = 1 a lane is a half, numbered 2t + e; with
q = 0 it is a thread, and both halves take the OR of their tags (R102, R121). `g` is what the form ORs in. -/
def Ctx.copyLane (c : Ctx) (q : Bool) (d a : Reg) (dst src : Nat) (g : Bool) : List RegWrite :=
  if q then [c.copyH d (dst / 2) (dst % 2) (c.half a (src / 2) (src % 2)) (c.hG a (src / 2) (src % 2) || g)]
  else [c.copyH d dst 0 (c.half a src 0) (c.wG a src || g), c.copyH d dst 1 (c.half a src 1) (c.wG a src || g)]

/-- The active lanes of a cross-lane form (R121). -/
def Ctx.lanes (c : Ctx) (q : Bool) : List Nat := if q then c.ts.flatMap (fun t => [2 * t, 2 * t + 1]) else c.ts
/-- A lane is active when its thread is. -/
def Ctx.laneAct (c : Ctx) (q : Bool) (j : Nat) : Bool := if q then c.act (j / 2) else c.act j
/-- The lane index that register b holds in lane j, and its tag. -/
def Ctx.laneIdx (c : Ctx) (q : Bool) (b : Reg) (j : Nat) : Nat :=
  if q then (c.h b (j / 2) (j % 2)).toNat % 64 else (c.w b j).toNat % 32
def Ctx.laneIdxG (c : Ctx) (q : Bool) (b : Reg) (j : Nat) : Bool :=
  if q then c.hG b (j / 2) (j % 2) else c.wG b j

/-! ### Memory operands -/

/-- sb + x · 2^sc + disp in 64-bit arithmetic (R31, R116, R190). -/
def Ctx.addr (c : Ctx) (x sb : Reg) (sc : BitVec 2) (disp : BitVec 30) (t : Nat) : W64 :=
  c.u sb + (c.w x t <<< sc.toNat) + disp.signExtend 64
/-- The address is green when its base or its index is. -/
def Ctx.addrG (c : Ctx) (x sb : Reg) (t : Nat) : Bool := c.uG sb || c.wG x t

/-- A lane memory form of the vec engine: data register d, index x, base sb; `ld` says that d is written, `stc` that it
is read. The unwritten check covers the address, not the data of a store (R190). -/
def memForm (two : Bool) (st : BitVec 3) (d : Option Reg) (x sb : Reg) (reads writes : Bool) : Form where
  two := two
  st := st
  lane := true
  engine := .vec
  priv := false
  wide := false
  lanes := x.toNat :: d.toList.map BitVec.toNat
  unis := [sb.toNat]
  rd := nLane x :: nUni sb :: (if reads then d.toList.map nLane else [])
  wr := if writes then d.toList.map nLane else []
  chk := [chkBoth x]

/-! ### Operand pairs and counts of uniform forms -/

/-- The register after an even one. -/
def nxt (r : Reg) : Reg := r + 1#6

/-- An object number: the 5-bit literal, or bits of a register when one is named (R30). -/
def numOf {n : Nat} (c : Ctx) (a : Reg) (k : BitVec n) : Nat := if a = 0#6 then k.toNat else (c.u a).toNat
def numG (c : Ctx) (a : Reg) : Bool := if a = 0#6 then false else c.uG a

end Sys2Proof.Machine
end

