-- ==== Sys2Proof/Machine/Flags.lean ====
section
/-!
DEFINITION. Flags and rounding of the floating-point forms: how a code resolves (R60, R79), the sixteen operations of
classes 2 and 3 (R129, R130), the flags of FX and how they follow a result (R139), an armed shadow fault (R360, R366),
and the stochastic generator's state (R80, R83).
-/
namespace Sys2Proof.Machine

/-- The rounding of a form that draws nothing: its code, or the mode of SY_MODE (R79). -/
def Ctx.rnd (c : Ctx) (rm : Rm) : Rounding := roundingOf rm c.br.rm 0

/-- The sixteen operations of classes 2 and 3, and FLG2 (R129, R132). -/
inductive Fop where
  | add | sub | mul | fma | fms | nma | min | max | div | sqrt | rcp | rsq | exp | ex2 | log | erf | lg2
  deriving DecidableEq, Repr

/-- The bits and flags of one element: a, b and, for the fused forms, d. -/
def fop (f : Fmt) (rd : Rounding) (o : Fop) (x y z : Nat) : Nat × Flags :=
  let a := fUnpack f x
  let b := fUnpack f y
  let d := fUnpack f z
  match o with
  | .add => fAdd f rd false a b
  | .sub => fAdd f rd false a (negate b)
  | .mul => fMul f rd a b
  | .fma => fFma f rd a b d
  | .fms => fFma f rd a b (negate d)
  | .nma => fFma f rd (negate a) b d
  | .min => fMinMax f false x y
  | .max => fMinMax f true x y
  | .div => fDiv f rd a b
  | .sqrt => fSqrt f rd a
  | .rcp => fRcp f rd a
  | .rsq => fRsqrt f rd a
  | .exp => fExp f rd false a
  | .ex2 => fExp f rd true a
  | .log => fLog f rd false a
  | .erf => fErf f rd a
  | .lg2 => fLog f rd true a

/-- What a form computes for one thread: its register writes and its flags. -/
abbrev ThreadOut := List RegWrite × Flags

/-- The flags of the threads that raised any. -/
def flagList (ts : List Nat) (fl : Nat → Flags) : List (Nat × Flags) := (ts.map (fun t => (t, fl t))).filter (fun x => x.2 != flagNone)

/-- A floating-point result as a shadow unit compares it (R360): the class of a zero, subnormal, infinity or NaN, or the sign, the
exponent and the leading bit with the 8 bits below it. -/
inductive Lead where
  | special (cls : Nat)
  | normal (neg : Bool) (e : Int) (m : Nat)
  deriving DecidableEq, Repr

/-- What R360 takes from a result; a zero and a subnormal are one class. -/
def leadOf (f : Fmt) (x : Nat) : Lead :=
  match fUnpack f x with
  | .nan s => .special (if s then 0 else 1)
  | .inf n => .special (if n then 2 else 3)
  | .fin n m e => if m < 2 ^ f.fbits then .special (if n then 4 else 5) else .normal n (e + f.fbits) (m * 256 / 2 ^ f.fbits)

/-- Whether a shadow's result diverges from the main one (R360). -/
def Lead.diverges : Lead → Lead → Bool
  | .normal n e m, .normal n' e' m' =>
    let lo := min e e'
    n != n' || decide ((e - e').natAbs > 1) ||
      decide (((m * 2 ^ (e - lo).toNat : Nat) - (m' * 2 ^ (e' - lo).toNat : Nat) : Int).natAbs > 2)
  | x, y => x != y

/-- The word of a shadow that diverges from a main result of a format: any that does (R355, R360). A result that is no single
floating-point value has none to compare. -/
def shadowOf (fm : Option Fmt) (main : W64) (i : Nat) : W32 :=
  let w := shadowWord i
  match fm with
  | none => w
  | some f =>
    let x := leadOf f (main.toNat % 2 ^ f.width)
    if x.diverges (leadOf fmtF32 w.toNat) then w
    else match x with
      | .normal _ _ _ => w ^^^ 0x80000000#32
      | .special _ => 0x3F800000#32

/-- Delivers a floating-point form: its results at its latency, its flags behind them (R139). When an armed shadow fault
names an active thread, the results are delivered, the flags are not, and the divergence waits for its detection within
12 cycles (R360, R366); the fault is spent either way. `fm` is the format of a result that is a floating-point value; `raises`
says that the form can raise flags (R145). -/
def pushFp (s : State) (c : Ctx) (f : Form) (lat : Nat) (ws : List RegWrite) (fx : List (Nat × Flags))
    (mainAt : Nat → W64) (fm : Option Fmt := none) (raises : Bool := true) : State :=
  match c.br.armed with
  | some (.fp t) =>
    if c.act t then
      let (i, s) := nextFree s
      let d : Diverged := { issued := s.clk, due := s.clk + lat + checkDelay i, seq := c.br.seq, thread := t
                            split := c.k, pc := c.sp.pc, two := f.two, main := mainAt t, shadow := shadowOf fm (mainAt t) i
                            mask := c.sp.mask, reads := f.rd.map (physName c.k), names := f.wr.map (physName c.k)
                            fatal := false }
      modBrick (pushPend s c f lat ws [] raises) c.b (fun br => { br with armed := none, divq := br.divq ++ [d] })
    else modBrick (pushPend s c f lat ws fx raises) c.b (fun br => { br with armed := none })
  | _ => pushPend s c f lat ws fx raises

/-- A floating-point form whose threads each compute their own writes and flags. -/
def fpThreads (s : State) (c : Ctx) (f : Form) (lat : Nat) (out : Nat → ThreadOut) (fm : Option Fmt := none) (raises : Bool := true) :
    Res :=
  .done (pushFp s c f lat (c.ts.flatMap (fun t => (out t).1)) (flagList c.ts (fun t => (out t).2)) (fun t => mainOf (out t).1)
    fm raises)

/-- The format of a paired FP32 or an FP64 result. -/
def pairFmt (dbl : Bool) : Option Fmt := some (if dbl then fmtF64 else fmtF32)

/-- An element's write and flags, 64-bit. -/
def out64 (c : Ctx) (d : Reg) (t : Nat) (r : Nat × Flags) (g : Bool) : ThreadOut :=
  (c.putW d t (BitVec.ofNat 64 r.1) g, r.2)
/-- The writes and flags of a pair of halves. -/
def out32 (c : Ctx) (d : Reg) (t : Nat) (r : Nat → Nat × Flags) (g : Nat → Bool) : ThreadOut :=
  ([c.putH d t 0 (BitVec.ofNat 32 (r 0).1) (g 0), c.putH d t 1 (BitVec.ofNat 32 (r 1).1) (g 1)], (r 0).2 ||| (r 1).2)

/-- The registers that an operation of class 2 or 3 reads: a; a and b; or a, b and d. -/
def Fop.reads (o : Fop) (d a b : Reg) : List Reg :=
  match o with
  | .sqrt | .rcp | .rsq | .exp | .ex2 | .log | .erf | .lg2 => [a]
  | .fma | .fms | .nma => [a, b, d]
  | _ => [a, b]

/-- A form of class 2 (paired FP32) or class 3 (FP64). -/
def fpForm (o : Fop) (dbl : Bool) (lat : Nat) (two : Bool) (d a b : Reg) (rm : Rm) (st : BitVec 3) (s : State) :
    Host.Outcome State Fault Refusal :=
  let reads := o.reads d a b
  let f := laneForm two st reads d
  issueForm s f (fun c => fpThreads s c f lat (fun t =>
    if dbl then
      out64 c d t (fop fmtF64 (c.rnd rm) o (c.w a t).toNat (c.w b t).toNat (c.w d t).toNat) (reads.any (fun r => c.wG r t))
    else
      out32 c d t (fun e => fop fmtF32 (c.rnd rm) o (c.h a t e).toNat (c.h b t e).toNat (c.h d t e).toNat)
        (fun e => reads.any (fun r => c.hG r t e))) (pairFmt dbl))

/-! ### The stochastic generator's state (R83) -/

/-- State of a partition's generator at module reset. -/
def srReset (key : Nat) : W64 := srConst ^^^ BitVec.ofNat 64 key

/-- The state that the brick draws from: its own in a deterministic launch, else its partition's. -/
def srOf (s : State) (br : Brick) : W64 :=
  if br.det then br.sr
  else match (partOf s (partKey br.core br.part)).sr with
    | some x => x
    | none => srReset (partKey br.core br.part)

def srWrite (s : State) (b : Nat) (br : Brick) (x : W64) : State :=
  if br.det then modBrick s b (fun br => { br with sr := x })
  else modPart s (partKey br.core br.part) (fun p => { p with sr := some x })

/-- Issues a converting form: an `.rsr` one advances the generator once, even when a check of its operands then traps
(R80), unless another trap is reported in its place (R351); its body sees the stepped state. -/
def issueConv (s : State) (f : Form) (rsr : Bool) (body : State → Ctx → Res) : Host.Outcome State Fault Refusal :=
  match focusOf s with
  | none => .fault .noIssuer
  | some c =>
    match precheck c f with
    | .hold => .next (holdForm s c)
    | .trap t =>
      let stepped := if rsr && (staticCheck c f).isNone && !c.sp.tapeFault then srWrite s c.b c.br (srStep (srOf s c.br)) else s
      .next (raiseTrap (trapState s stepped c f t) c f t)
    | .go =>
      let x := srStep (srOf s c.br)
      let s' := if rsr then srWrite s c.b c.br x else s
      .next (settle s c f (body s' (if rsr then { c with br := { c.br with sr := x } } else c)))

end Sys2Proof.Machine
end

