-- ==== Sys2Proof/Machine/Mem.lean ====
section
/-!
DEFINITION. Accesses to memory: the checks of local and global addresses (R190, R231, R204), the walk of the translation
tables with the caches (R330–R336), tentative cells as other agents meet them (R245, R246), how a load, a store and an
atomic are performed (R175, R176, R237, R362), and the issue of an operation in flight (R198–R200).
-/
namespace Sys2Proof.Machine

/-! ### The launch and the wall of a brick -/

def launchOf (s : State) (br : Brick) : Option Launch := tabGet? s.launches br.launch
def wallOf (s : State) (br : Brick) : Option Wall := tabGet? s.walls br.wall
def asidOf (s : State) (br : Brick) : Nat := match launchOf s br with
  | some l => l.asid
  | none => 0
/-- The `.local` size of the brick's wall (R189). -/
def localSize (s : State) (br : Brick) : Nat := match launchOf s br with
  | some l => l.lbytes
  | none => 0
/-- The place of a wall offset in the core's local memory. -/
def localLoc (s : State) (br : Brick) (off : Nat) : Loc :=
  .loc br.core ((match wallOf s br with
    | some w => w.lbase
    | none => 0) + off)

/-! ### Physical addresses (R329) -/

def isNearPa (pa : Nat) : Bool := decide (pa < 2 ^ 37)
def isFarPa (pa : Nat) : Bool := decide (2 ^ 40 ≤ pa) && decide (pa < 2 ^ 41)
def isMortarPa (pa : Nat) : Bool := decide (2 ^ 42 ≤ pa) && decide (pa < 2 ^ 42 + 2 ^ 30) && decide ((pa - 2 ^ 42) % 2 ^ 28 < 0xC000000)
/-- Only window lines of mortar are accessible. -/
def inWindow (s : State) (pa : Nat) : Bool :=
  isMortarPa pa && s.launches.any (fun x => x.2.admitted &&
    (match tabGet? x.2.wins ((pa - 2 ^ 42) / 2 ^ 28) with
     | some units => units.contains ((pa - 2 ^ 42) % 2 ^ 28 / 2 ^ 21)
     | none => false))
/-- An address that names this module by its number is this module's own. -/
def ownPa (s : State) (pa : Nat) : Nat :=
  if isRemotePa pa && (pa / 2 ^ 44) % 2 ^ 11 == s.module.toNat then pa % 2 ^ 44 else pa
def paExists (s : State) (pa : Nat) : Bool :=
  isNearPa pa || isFarPa pa || inWindow s pa || isHostPa pa ||
    (isRemotePa pa && decide (pa < 2 ^ 56) &&
      (isNearPa (pa % 2 ^ 44) || isFarPa (pa % 2 ^ 44) || isMortarPa (pa % 2 ^ 44)))

/-- The kinds of home of R249. -/
inductive Home where
  | own | remote | host
  deriving DecidableEq, Repr

def homeOf (pa : Nat) : Home := if isHostPa pa then .host else if isRemotePa pa then .remote else .own

/-! ### Tentative cells as they are met (R245, R246) -/

/-- The cells that some bytes lie in. -/
def cellsOf (pa n : Nat) : List Nat := (List.range ((pa % 8 + n + 7) / 8)).map (fun i => pa / 8 + i)

/-- An access by an agent other than the writer sets the observed bit. -/
def observe (s : State) (who : Option Nat) (l : Loc) (n : Nat) : State :=
  match l with
  | .loc _ _ => s
  | .phys pa =>
    (cellsOf pa n).foldl (fun s c =>
      match tabGet? s.pairs c with
      | some p => if who == some p.writer then s else { s with pairs := tabPut s.pairs c { p with observed := true } }
      | none => s) s

/-! ### Translation (R330–R335) -/

/-- Access kinds, numbered as SY_FLTREC's KIND (R333, R336). -/
def kRead : Nat := 0
def kWrite : Nat := 1
def kExec : Nat := 2
def kRw : Nat := 3
/-- An engine's access to a page that it was given before: any valid leaf is used as before (R309). -/
def kLeaf : Nat := 4

/-- What a table entry says at a level (R331). -/
inductive EntryClass where
  | absent | revoked | bad
  | ptr (table : Nat)
  | leaf (frame : Nat)
  deriving DecidableEq, Repr

/-- Lowest address bit of a level's index, and the index's width (R330). -/
def walkLevels : List (Nat × Nat) := [(48, 9), (39, 9), (30, 9), (21, 9), (16, 5)]

def ebit (e : W64) (i : Nat) : Bool := e.getLsbD i

def classify (shift : Nat) (e : W64) : EntryClass :=
  let addr := e.toNat / 2 ^ 8 % 2 ^ 48 * 2 ^ 8
  if !ebit e 0 then (if ebit e 5 then .revoked else .absent)
  else if e.toNat / 2 ^ 56 != 0 || ebit e 7 || ebit e 5 then .bad
  else if ebit e 1 then
    (if decide (shift > 21) || addr % 2 ^ shift != 0 then .bad else .leaf addr)
  else if shift == 16 || ebit e 2 || ebit e 3 || ebit e 4 || ebit e 6 then .bad
  else if addr % (if shift == 21 then 256 else 4096) != 0 then .bad
  else .ptr addr

/-- Whether a leaf allows an access. -/
def leafAllows (e : W64) (kind : Nat) (prv : Bool) : Bool :=
  kind == kLeaf || ((prv || !ebit e 6) &&
    (if kind == kRead then ebit e 2 else if kind == kWrite then ebit e 3 else if kind == kExec then ebit e 4
     else ebit e 2 && ebit e 3))

/-- A read of eight bytes of a table; none for a line outside near and far memory, or one that cannot be corrected. -/
def readTable (s : State) (pa : Nat) : State × Option W64 :=
  if !(isNearPa pa || isFarPa pa) then (s, none)
  else
    let (s, psn) := checkLine s (Loc.phys pa).line
    let s := observe s none (.phys pa) 8
    (s, if psn then none else some (BitVec.ofNat 64 (leNat (readBytes s (.phys pa) 8))))

/-- The entry that a walk uses at one level: what memory holds, or an older one that a cache still holds; both are
allowed until an invalidation completes (R334). A valid entry enters the caches. -/
def tableEntry (s : State) (cache die asid shift tag pa : Nat) : State × Option W64 :=
  match readTable s pa with
  | (s, none) => (s, none)
  | (s, some e) =>
    let mine (x : TlbEntry) : Bool := x.asid == asid && x.shift == shift && x.tag == tag
    match s.tlb.find? (fun x => mine x && (x.cache == cache || x.cache == 128 + die) && x.entry != e) with
    | some old =>
      let (i, s) := nextFree s
      if Config.choice i then (s, some old.entry) else (s, some e)
    | none =>
      if ebit e 0 && !s.tlb.any (fun x => mine x && x.cache == cache) then
        ({ s with tlb := s.tlb ++ [⟨cache, asid, shift, tag, e⟩] ++
            (if s.tlb.any (fun x => mine x && x.cache == 128 + die) || cache == 128 + die then []
             else [⟨128 + die, asid, shift, tag, e⟩]) }, some e)
      else (s, some e)

/-- Where a walk ends. -/
inductive Walk where
  | leaf (e : W64) (pa : Nat)
  | revoked | absent | error
  deriving DecidableEq, Repr

def walkFrom (s : State) (cache die asid va : Nat) : List (Nat × Nat) → Nat → State × Walk
  | [], _ => (s, .error)
  | (sh, w) :: rest, table =>
    match tableEntry s cache die asid sh (va / 2 ^ sh) (table + 8 * (va / 2 ^ sh % 2 ^ w)) with
    | (s, none) => (s, .error)
    | (s, some e) =>
      match classify sh e with
      | .absent => (s, .absent)
      | .revoked => (s, .revoked)
      | .bad => (s, .error)
      | .leaf frame => (s, .leaf e (frame + va % 2 ^ sh))
      | .ptr t => walkFrom s cache die asid va rest t

/-- The level-3 table of an address space (R332). -/
def rootOf (s : State) (asid : Nat) : State × Option Nat :=
  match readTable s (s.asidTab.toNat / 2 ^ 12 % 2 ^ 44 * 2 ^ 12 + 8 * asid) with
  | (s, none) => (s, none)
  | (s, some e) =>
    if ebit e 0 && e.toNat % 2 ^ 12 == 1 && e.toNat / 2 ^ 56 == 0 then (s, some (e.toNat / 2 ^ 12 * 2 ^ 12)) else (s, none)

/-- The outcomes of R333. -/
inductive Trans where
  | ok (pa : Nat)
  | absent
  | cause (c : BitVec 9)
  deriving DecidableEq, Repr

/-- Translates a virtual address for an access of a kind. `cache` is the core, or the die's cache for its engines. -/
def translate (s : State) (cache die asid : Nat) (prv : Bool) (kind va : Nat) : State × Trans :=
  match rootOf s asid with
  | (s, none) => (s, .cause 0x0CA#9)
  | (s, some root) =>
    match walkFrom s cache die asid va walkLevels root with
    | (s, .absent) => (s, .absent)
    | (s, .revoked) => (s, .cause 0x0C5#9)
    | (s, .error) => (s, .cause 0x0CA#9)
    | (s, .leaf e pa) =>
      let pa := ownPa s pa
      if !paExists s pa then (s, .cause 0x0CA#9)
      else if leafAllows e kind prv then (s, .ok pa) else (s, .cause 0x0C2#9)

/-- A brick's own translation; an answer with FAIL makes its waiting access take cause 0x0C9 (R336). -/
def brickTranslate (s : State) (c : Ctx) (kind va : Nat) : State × Trans :=
  match c.br.tfault with
  | some f =>
    if f.refused && f.split == c.k && f.va / 2 ^ 16 == va / 2 ^ 16 then (s, .cause 0x0C9#9)
    else translate s c.br.core (dieOfCore c.br.core) (asidOf s c.br) c.br.prv kind va
  | none => translate s c.br.core (dieOfCore c.br.core) (asidOf s c.br) c.br.prv kind va

/-- A record of a page is pending on a die. -/
def recordOpen (s : State) (die asid vpn : Nat) : Bool := (dieState s die).faults.any (fun r => r.asid == asid && r.vpn == vpn)

/-- Entries of a die's fault buffer in use (R335): by bricks, by copy engines, by lines of tapes and by a quote. -/
def faultsHeld (s : State) (die : Nat) : Nat :=
  (s.bricks.filter (fun x => dieOfCore x.2.core == die && x.2.tape.waits.any (recordOpen s die (asidOf s x.2)))).length +
  (s.bricks.filter (fun x => dieOfCore x.2.core == die &&
    (match x.2.tfault with
     | some f => f.entry && !f.refused
     | none => false))).length +
  (s.copies.filter (fun x => x.2.page.isSome && x.2.entry && !x.2.refused &&
    (tabGet? s.walls x.2.wall).any (fun w => w.die == die))).length +
  (if die == 0 && s.attest.any (fun x => recordOpen s 0 x.1 (x.2 / 2 ^ 16)) then 1 else 0)

/-- The brick's wall is saved. -/
def savedBrick (s : State) (br : Brick) : Bool := (tabGet? s.walls br.wall).any (·.saved)

/-- What a split is parked on. -/
def waitOf (s : State) (b k : Nat) : Option Wait := ((tabGet? s.bricks b).bind (fun br => tabGet? br.splits k)).bind (·.wait)

/-- Changes what a split is parked on. -/
def setOp (s : State) (b k : Nat) (op : WaitOp) : State :=
  modSplit s b k (fun sp => { sp with wait := sp.wait.map (fun w => { w with op := op }) })

/-! ### Counters in three copies (R268, R275) -/

/-- What three copies hold: `w`, but for those that are listed. -/
def tripleOf {α : Type} (w : α) (odd : List (Nat × α)) : α × α × α :=
  let at_ (i : Nat) : α := ((odd.find? (fun x => x.1 == i)).map (·.2)).getD w
  (at_ 0, at_ 1, at_ 2)

/-- The value that at least two of three copies hold. -/
def majority {α : Type} [DecidableEq α] (x : α × α × α) : Option α :=
  if x.1 = x.2.1 ∨ x.1 = x.2.2 then some x.1 else if x.2.1 = x.2.2 then some x.2.1 else none

/-! ### Semaphores (R275, R276) -/

def semKey (die n : Nat) : Nat := 4096 * die + n

def semAt (s : State) : ObjRef → Sem
  | .sem die n => tabGetD s.sems (semKey die n) Sem.start
  | _ => Sem.start

def putSem (s : State) (o : ObjRef) (x : Sem) : State :=
  match o with
  | .sem die n => { s with sems := tabSet s.sems (semKey die n) Sem.start x }
  | _ => s

/-- Reads the three copies of a count: a copy that differs is rewritten, three that all differ poison the semaphore (R268, R275,
R363; the log's words: log 109). -/
def voteSem (s : State) (o : ObjRef) : State :=
  let x := semAt s o
  if x.odd.isEmpty then s
  else
    match majority (tripleOf x.count x.odd), o with
    | some n, .sem die k => logAdd (putSem s o { x with count := n, odd := [] }) die 1 8 none k
    | none, .sem die k => logAdd (putSem s o { x with psn := true, odd := [] }) die 5 8 none k
    | _, _ => s

/-- Serves queued acquires in order while the count allows. One of a deterministic launch takes its unit when it is evaluated
(R299). -/
def serveSem (s : State) (o : ObjRef) : List (Nat × Nat) → Nat → State
  | [], n => putSem s o { semAt s o with count := n, queue := [] }
  | q, 0 => putSem s o { semAt s o with count := 0, queue := q }
  | (b, k) :: l, n + 1 =>
    match waitOf s b k with
    | some ⟨.semAcq _ d g, none, _, _, _⟩ => serveSem (setOp s b k (.give d (BitVec.ofNat 64 n) g)) o l n
    | _ => putSem s o { semAt s o with count := n + 1, queue := (b, k) :: l }

def serveQueue (s : State) (o : ObjRef) : State := serveSem s o (semAt s o).queue (semAt s o).count

/-- SEM.REL of the site processor on a semaphore (R276); a count at its top stays there. -/
def semBump (s : State) (die n : Nat) : State :=
  let s := voteSem s (.sem die n)
  let x := semAt s (.sem die n)
  serveQueue (putSem s (.sem die n) { x with count := min 0xFFFFFFFF (x.count + 1) }) (.sem die n)

/-- Makes the fault record of a page, once for each pending page; a new record releases semaphore 4,095 (R335). -/
def addFault (s : State) (die asid va kind : Nat) (eng : Bool) : State :=
  if (dieState s die).faults.any (fun r => r.asid == asid && r.vpn == va / 2 ^ 16) then s
  else semBump (modDie s die (fun d => { d with faults := d.faults ++ [⟨asid, va / 2 ^ 16, kind, eng, false⟩] })) die 4095

/-- A brick meets a translation fault: it stops issuing until the record is answered; with no entry free it tries again
without one (R335). -/
def brickFault (s : State) (c : Ctx) (kind va : Nat) : State :=
  let die := dieOfCore c.br.core
  let entry := decide (faultsHeld s die < 1024)
  let s := if entry then addFault s die (asidOf s c.br) va kind false else s
  modBrick s c.b (fun br =>
    { (br.modSplit c.k (fun sp => { sp with held := s.clk + 1 })) with tfault := some ⟨c.k, va, false, entry⟩ })

/-! ### The accesses of a form -/

/-- What the checks of a form's addresses answer. -/
inductive AccRes where
  | ok (s : State) (accs : List Acc)
  | trap (s : State) (t : TrapReq)
  | fault (s : State) (va kind : Nat)
  deriving DecidableEq, Repr

/-- One thread's check: an access, a cause, or a translation fault. -/
inductive ThreadAcc where
  | ok (a : Acc)
  | cause (c : BitVec 9) (va : Nat)
  | fault (va : Nat)
  deriving DecidableEq, Repr

/-- Number of threads that raised a cause. -/
def countCause (cause : BitVec 9) (l : List (Nat × ThreadAcc)) : Nat :=
  (l.filter (fun x => match x.2 with
    | .cause c _ => c == cause
    | _ => false)).length

/-- The first failing thread decides (R190, R231). -/
def firstFail (s : State) (kind : Nat) (all : List (Nat × ThreadAcc)) : List (Nat × ThreadAcc) → List Acc → AccRes
  | [], acc => .ok s acc.reverse
  | (_, .ok a) :: l, acc => firstFail s kind all l (a :: acc)
  | (t, .cause c va) :: _, _ => .trap s (trapThread c t (countCause c all) (BitVec.ofNat 64 va))
  | (_, .fault va) :: _, _ => .fault s va kind

/-- The checks of R190 on a local access: alignment, then the reservation. -/
def localThread (s : State) (br : Brick) (va : Nat) (n : Nat) (bad : Bool) (t : Nat) (aG : Bool) : ThreadAcc :=
  let off := va % 2 ^ 20
  if bad then .cause 0x0C1#9 va
  else if decide (off + n > localSize s br) then .cause 0x0C6#9 va
  else .ok ⟨t, localLoc s br off, va, n, aG⟩

/-- An address that is not a multiple of the access size. -/
def misaligned (addr : Nat → W64) (n : Nat) (t : Nat) : Bool := (addr t).toNat % n != 0

/-- The line base that a thread's address gives its group (R203). -/
def groupBase (addr : Nat → W64) (loc : Bool) (t : Nat) : Int :=
  ((if loc then (addr t).toNat % 2 ^ 20 else (addr t).toNat : Nat) : Int) - (8 * (t % 8) : Nat)

/-- The active threads of a thread's group of eight. -/
def Ctx.group (c : Ctx) (t : Nat) : List Nat := c.ts.filter (fun x => x / 8 == t / 8)

/-- A thread breaks the rule of line groups (R203); `full` asks for whole groups. -/
def groupBad (c : Ctx) (addr : Nat → W64) (loc full : Bool) (t : Nat) : Bool :=
  let b := groupBase addr loc t
  b % 64 != 0 || b != groupBase addr loc ((c.group t).headD t) || (full && (c.group t).length != 8)

/-- The local accesses of the active threads. -/
def localAccs (s : State) (c : Ctx) (addr : Nat → W64) (g : Nat → Bool) (n : Nat) (bad : Nat → Bool) : AccRes :=
  let l := c.ts.map (fun t => (t, localThread s c.br (addr t).toNat n (bad t) t (g t)))
  firstFail s kRead l l []

/-- The checks of R231 on one thread's global access. -/
def globalThread (s : State) (c : Ctx) (kind : Nat) (avail : Home → Bool) (va n : Nat) (bad : Bool) (t : Nat)
    (aG : Bool) : State × ThreadAcc :=
  if va / 2 ^ 57 != 0 then (s, .cause 0x0C6#9 va)
  else if bad then (s, .cause 0x0C1#9 va)
  else
    match brickTranslate s c kind va with
    | (s, .absent) => (s, .fault va)
    | (s, .cause x) => (s, .cause x va)
    | (s, .ok pa) => if avail (homeOf pa) then (s, .ok ⟨t, .phys pa, va, n, aG⟩) else (s, .cause 0x0C7#9 va)

def globalThreads (s : State) (c : Ctx) (kind : Nat) (avail : Home → Bool) (addr : Nat → W64) (g : Nat → Bool)
    (n : Nat) (bad : Nat → Bool) : List Nat → State × List (Nat × ThreadAcc)
  | [] => (s, [])
  | t :: l =>
    let (s, r) := globalThread s c kind avail (addr t).toNat n (bad t) t (g t)
    let (s, rs) := globalThreads s c kind avail addr g n bad l
    (s, (t, r) :: rs)

/-- The global accesses of the active threads. -/
def globalAccs (s : State) (c : Ctx) (kind : Nat) (avail : Home → Bool) (addr : Nat → W64) (g : Nat → Bool)
    (n : Nat) (bad : Nat → Bool) : AccRes :=
  let (s, l) := globalThreads s c kind avail addr g n bad c.ts
  firstFail s kind l l []

/-- The uniform address of LDS and STS chooses its space by bit 63 (R204). -/
def uniformAcc (s : State) (c : Ctx) (kind : Nat) (e : W64) (g : Bool) : AccRes :=
  let t := lowThread c.sp.mask
  if ebit e 63 then
    (if e.toNat / 2 ^ 57 % 64 != 0 then .trap s (trapThread 0x0C6#9 t 1 e)
     else
       let (s, r) := globalThread s c kind (fun _ => true) (e.toNat % 2 ^ 57) 8 (e.toNat % 8 != 0) t g
       firstFail s kind [(t, r)] [(t, r)] [])
  else
    let r := localThread s c.br e.toNat 8 (e.toNat % 8 != 0) t g
    firstFail s kind [(t, r)] [(t, r)] []

/-- Continues a form with its accesses; a fault stops the brick with nothing done (R335). -/
def withAccs (c : Ctx) (r : AccRes) (k : State → List Acc → Res) : Res :=
  match r with
  | .ok s accs => k s accs
  | .trap s t => .trap s t
  | .fault s va kind => .stay (brickFault s c kind va)

/-! ### The fabric, as an access to another module meets it (R368–R372) -/

/-- The partition that the switches map a key to: none for one that is not valid (R370, R371). Key 0, which every module has after
reset, is in partition 0 (log 117). -/
def partitionOf (s : State) (key : BitVec 16) : Option (BitVec 16) :=
  if s.badKeys.contains key then none
  else (tabGet? s.keyMap key.toNat).or (if key = 0 then some 0 else none)

/-- The key of a module. -/
def moduleKey (s : State) (m : Nat) : BitVec 16 := if m = s.module.toNat then s.key else tabGetD s.modKeys m 0

/-- The module's key is valid (R370, R371). -/
def keyValid (s : State) : Bool := (partitionOf s s.key).isSome

/-- The module that a remote address names (R329). -/
def moduleOfPa (pa : Nat) : Nat := pa / 2 ^ 44 % 2 ^ 11

/-- The negative response that the switches give an access (R370, R372): at the first one when this module's key is not valid, at the
last one when the other module's is not, or lies in another partition. -/
def outCheck (s : State) : Loc → Option (BitVec 9)
  | .loc _ _ => none
  | .phys pa =>
    if !isRemotePa pa then none
    else if !keyValid s then some 0x147#9
    else if partitionOf s (moduleKey s (moduleOfPa pa)) != partitionOf s s.key then some 0x14E#9
    else none

/-- What an access reports whose threads were refused (R372): the lowest one, their number. -/
def denial (s : State) (accs : List Acc) : Option LateTrap :=
  match accs.filter (fun a => (outCheck s a.loc).isSome) with
  | [] => none
  | a :: l => some ⟨(outCheck s a.loc).getD 0, a.t, l.length + 1, BitVec.ofNat 64 a.va, 0⟩

/-- The planes whose links work, in ascending order (R368). -/
def workingPlanes (s : State) : List Nat := (List.range 18).filter (fun p => !(tabGetD s.links p ⟨0, false⟩).out)

/-- The plane of a line (R369). -/
def planeOf (s : State) (pa : Nat) : Nat := (workingPlanes s).getD (pa / 64 % (workingPlanes s).length) 0

/-- A place cannot be reached: no plane works, or the link to the host does not. -/
def locDown (s : State) (l : Loc) : Bool :=
  match l with
  | .loc _ _ => false
  | .phys pa => if isRemotePa pa then (workingPlanes s).isEmpty else l.isHost && (tabGetD s.links 18 ⟨0, false⟩).out

/-- What leaves the module for a home on another one (R374). -/
def sendOut (s : State) (l : Loc) (x : Nat → Nat → Sent) : State :=
  match l with
  | .loc _ _ => s
  | .phys pa => if isRemotePa pa then { s with sent := s.sent ++ [x (planeOf s pa) pa] } else s

/-- A read of bytes at their home, and a write. -/
def noteRead (s : State) (l : Loc) (n : Nat) : State := sendOut s l (fun p pa => .fabricRead p pa n)
def noteWrite (s : State) (l : Loc) (bytes : List Byte) (green : Bool) : State := sendOut s l (fun p pa => .fabricWrite p pa bytes green)

/-! ### Performing (R175, R176, R196, R237, R362) -/

/-- What an operation leaves for its brick: register writes, flags written at once, or a trap in their place. -/
structure Done where
  writes : List RegWrite
  fx     : List (Nat × Flags)
  late   : Option LateTrap
  deriving DecidableEq, Repr

def Done.empty : Done := ⟨[], [], none⟩

/-- Reads the lines of some accesses through their checks; the places of those that are poisoned. -/
def checkLines (s : State) : List Loc → State × List Loc
  | [] => (s, [])
  | l :: ls =>
    let (s, p) := checkLine s l
    let (s, ps) := checkLines s ls
    (s, if p then l :: ps else ps)

/-- A number for a place in a report. -/
def Loc.report : Loc → Nat
  | .loc _ o => o
  | .phys pa => pa

/-- The report of a poisoned line among some accesses (R355, R362). -/
def poisonLate (bad : List Loc) (accs : List Acc) : Option LateTrap :=
  match accs.filter (fun a => bad.contains a.loc.line) with
  | [] => none
  | a :: l => some ⟨0x146#9, a.t, l.length + 1, BitVec.ofNat 64 (structOf a.loc), BitVec.ofNat 64 a.loc.line.report⟩

/-- The register writes of one access of a load: data, and the tag of R176 with governance. -/
def loadWrite (s : State) (dst : LoadDst) (gov : Bool) (a : Acc) : List RegWrite :=
  let v := leNat (readBytes s a.loc a.n)
  let g := gov || a.aG || lineG s a.loc
  match dst with
  | .lane64 p => wLane64 p a.t (BitVec.ofNat 64 v) g
  | .lane32 p => [wHalf p a.t 0 (BitVec.ofNat 32 v) g, wHalf p a.t 1 0 g]
  | .uni p => [.uni p (BitVec.ofNat 64 v) g]
  | .lineG m =>
    let sel : W64 := 3#64 <<< (2 * a.t)
    [.msk m sel (if lineG s a.loc then sel else 0) (if gov || a.aG then sel else 0)]

/-- Performs a load; threads that the fabric refuses load nothing (R372). -/
def performLoad (s : State) (b : Nat) (accs : List Acc) (dst : LoadDst) (gov : Bool) : State × Done :=
  let refused := denial s accs
  let accs := accs.filter (fun a => (outCheck s a.loc).isNone)
  let s := accs.foldl (fun s a => noteRead s a.loc a.n) s
  let (s, bad) := checkLines s (accs.map (fun a => a.loc.line)).eraseDups
  let s := accs.foldl (fun s a => observe s (some b) a.loc a.n) s
  match poisonLate bad accs with
  | some t => (s, { Done.empty with late := some t })
  | none => (s, { Done.empty with writes := accs.flatMap (loadWrite s dst gov), late := refused })

/-- Performs a load on memory, whose lines are checked and whose cells are observed, with the data that a view of memory
gives: what the brick's own buffered writes leave (R246, R259). -/
def readThrough (s view : State) (b : Nat) (accs : List Acc) (dst : LoadDst) (gov : Bool) : State × Done :=
  ((performLoad s b accs dst gov).1, (performLoad view b accs dst gov).2)

/-- Performs a store: the threads in ascending order, each line judged on its own; threads that the fabric refuses store nothing
(R372). -/
def performStore (s : State) (b : Nat) (puts : List Put) (gov : Bool) : State :=
  let puts := puts.filter (fun p => (outCheck s p.acc.loc).isNone)
  let s := puts.foldl (fun s p => noteWrite s p.acc.loc p.bytes (gov || p.dG || p.acc.aG)) s
  let s := puts.foldl (fun s p => observe s (some b) p.acc.loc p.acc.n) s
  writeAll s (putsBytes puts) gov false

/-- Bytes that an atomic accesses: a word holds two BF16 sums (R236). -/
def atomBytes (ty : Ty) : Nat := if ty == .bf16 then 4 else ty.width / 8

/-- The value that an atomic leaves, and the flags of a float add (R236, R237). -/
def atomNew (op : AtomOp) (ty : Ty) (rd : Rounding) (old v v2 : Nat) : Nat × Flags :=
  let w := ty.width
  let a : BitVec w := BitVec.ofNat w old
  let b : BitVec w := BitVec.ofNat w v
  let sg := ty == .i32 || ty == .i64
  match op with
  | .add =>
    (match ty with
     | .f32 => fAdd fmtF32 rd true (fUnpack fmtF32 old) (fUnpack fmtF32 v)
     | .f64 => fAdd fmtF64 rd true (fUnpack fmtF64 old) (fUnpack fmtF64 v)
     | .bf16 =>
       let (x, fx) := fAdd fmtBf16 rd true (fUnpack fmtBf16 (old % 65536)) (fUnpack fmtBf16 (v % 65536))
       let (y, fy) := fAdd fmtBf16 rd true (fUnpack fmtBf16 (old / 65536 % 65536)) (fUnpack fmtBf16 (v / 65536 % 65536))
       (y * 65536 + x, fx ||| fy)
     | _ => ((a + b).toNat, flagNone))
  | .min => ((if sg then minS a b else minU a b).toNat, flagNone)
  | .max => ((if sg then maxS a b else maxU a b).toNat, flagNone)
  | .and => ((a &&& b).toNat, flagNone)
  | .or => ((a ||| b).toNat, flagNone)
  | .xor => ((a ^^^ b).toNat, flagNone)
  | .exch => (b.toNat, flagNone)
  | .cas => ((if a == b then v2 else old), flagNone)

/-- Performs one thread's atomic at its home; a poisoned line drops it (R362), and so does the fabric when it refuses it (R372). -/
def performAtom1 (s : State) (b : Nat) (r : AtomReq) (op : AtomOp) (ty : Ty) (rd : Rounding) (dst : Option Nat) (gov : Bool) :
    State × Done :=
  let refused := denial s [r.acc]
  let s := if refused.isSome then s
    else sendOut s r.acc.loc (fun p pa => .fabricAtomic p pa op ty r.v r.v2 (gov || r.dG || r.g2 || r.acc.aG))
  let (s, psn) := if refused.isSome then (s, false) else checkLine s r.acc.loc.line
  if refused.isSome then (s, { Done.empty with late := refused })
  else if psn then
    (s, { Done.empty with late := some ⟨0x146#9, r.acc.t, 1, BitVec.ofNat 64 (structOf r.acc.loc), BitVec.ofNat 64 r.acc.loc.line.report⟩ })
  else
    let s := observe s (some b) r.acc.loc r.acc.n
    let old := leNat (readBytes s r.acc.loc r.acc.n)
    let g := gov || r.acc.aG || lineG s r.acc.loc
    let (x, fl) := atomNew op ty rd old (r.v.toNat % 2 ^ (8 * r.acc.n)) (r.v2.toNat % 2 ^ (8 * r.acc.n))
    let put : Put := ⟨r.acc, leBytes r.acc.n x, r.dG || (r.g2 && op == .cas && decide (old = r.v.toNat % 2 ^ (8 * r.acc.n)))⟩
    let s := writeAll s put.bytesOf gov true
    match dst with
    | none => (s, Done.empty)
    | some p =>
      (s, { writes := (if r.acc.n = 8 then wLane64 p r.acc.t (BitVec.ofNat 64 old) g
                       else [wHalf p r.acc.t 0 (BitVec.ofNat 32 old) g, wHalf p r.acc.t 1 0 g])
            fx := (if fl == flagNone then [] else [(r.acc.t, fl)]), late := none })

/-- Two reports as one: the lowest thread, with the number of threads. -/
def LateTrap.join (a b : LateTrap) : LateTrap :=
  if decide (b.thread < a.thread) then { b with count := a.count + b.count } else { a with count := a.count + b.count }

def Done.join (x y : Done) : Done :=
  ⟨x.writes ++ y.writes, x.fx ++ y.fx, match x.late, y.late with
    | some a, some b => some (a.join b)
    | some a, none => some a
    | none, b => b⟩

/-- Performs an atomic or a reduction, its threads in ascending order; one with a trap writes no register. -/
def performAtom (s : State) (b : Nat) (op : AtomOp) (ty : Ty) (rd : Rounding) (dst : Option Nat) (gov : Bool) :
    List AtomReq → State × Done
  | [] => (s, Done.empty)
  | r :: l =>
    let (s, x) := performAtom1 s b r op ty rd dst gov
    let (s, y) := performAtom s b op ty rd dst gov l
    (s, x.join y)

/-- A negative response: the threads whose access succeeded stay performed (R372). -/
def LateTrap.denied (t : LateTrap) : Bool := t.cause == 0x147#9 || t.cause == 0x14E#9

/-- An operation that traps writes nothing to registers or flags, but for the threads that the fabric did not refuse. -/
def Done.final (d : Done) : Done := if d.late.any (fun t => !t.denied) then { d with writes := [], fx := [] } else d

/-! ### Whole lines: hod slots and posted writes (R263, R278, R375) -/

def Hod.none : Hod := ⟨0, 0, 0, 0, 0, [], false, [], [], [], [], [], [], []⟩

def hodAt (s : State) : ObjRef → Hod
  | .hod w k => (match tabGet? s.walls w with
    | some wl => tabGetD wl.hods k Hod.none
    | none => Hod.none)
  | _ => Hod.none

/-- Place of a slot in the core's local memory, by its fill's sequence number. -/
def hodSlotLoc (s : State) (o : ObjRef) (seqNo : Nat) : Loc :=
  let h := hodAt s o
  match o with
  | .hod w _ => (match tabGet? s.walls w with
    | some wl => .loc wl.core (wl.lbase + h.off + seqNo % h.n * h.s)
    | none => .loc 0 0)
  | _ => .loc 0 0

/-- Writes a whole slot: lines with their G bits (R278), or zeros, green (R361). -/
def writeSlot (s : State) (l : Loc) : List (List Byte × Bool) → State
  | [] => s
  | (bytes, g) :: rest =>
    writeSlot (writeAll s ((List.range bytes.length).map (fun i => ⟨l.add i, bytes.getD i 0, false⟩)) g false) (l.add 64) rest

/-- The lines of a slot of zeros, green. -/
def zeroLines (n : Nat) : List (List Byte × Bool) := List.replicate (n / 64) (List.replicate 64 0, true)

/-- Reads source lines with their G bits; none when one is poisoned. -/
def readSource (s : State) (b : Nat) (green : Bool) : List Loc → State × Option (List (List Byte × Bool))
  | [] => (s, some [])
  | l :: ls =>
    let (s, psn) := checkLine (noteRead s l 64) l
    let s := observe s (some b) l 64
    match readSource s b green ls with
    | (s, none) => (s, none)
    | (s, some r) => (s, if psn then none else some ((readBytes s l 64, green || lineG s l) :: r))

/-- One line of PUTW, SIGW is performed whole at its home, with its G (R175). -/
def putLine (s : State) (b : Nat) (x : List Byte × Bool) (dst : Loc) : State :=
  writeAll (observe (noteWrite s dst x.1 x.2) (some b) dst 64) ((List.range 64).map (fun i => ⟨dst.add i, x.1.getD i 0, false⟩)) x.2 false

/-- The first of some source lines that is poisoned. -/
def poisonedSource (s : State) (l : List Loc) : Loc := (l.find? (fun x => (metaAt s x).psn)).getD (.loc 0 0)

/-- The report of a poisoned source. -/
def poisonOf (l : Loc) : LateTrap := ⟨0x146#9, 0, 1, BitVec.ofNat 64 (structOf l), BitVec.ofNat 64 l.line.report⟩

/-- The flag's update, as one atomic at its home (R263): on a poisoned line it is dropped and reported (R362). -/
def signalFlag (s : State) (b : Nat) (flag : Loc) (add : Bool) (v : BitVec 32) (green : Bool) : State × Option LateTrap :=
  let s := sendOut s flag (fun p pa => .fabricAtomic p pa (if add then .add else .exch) .b64 (v.setWidth 64) 0 green)
  let (s, psn) := checkLine s flag.line
  if psn then (s, some (poisonOf flag))
  else
    let s := observe s (some b) flag 8
    let old := leNat (readBytes s flag 8)
    let x := if add then (old + v.toNat) % 2 ^ 64 else v.toNat
    (writeAll s ((List.range 8).map (fun i => ⟨flag.add i, (leBytes 8 x).getD i 0, false⟩)) green true, none)

/-- A line of PUTW, SIGW as an access of its destination. -/
def lineAcc (l : Loc × Nat × Loc) : Acc := ⟨0, l.2.2, l.2.1, 64, false⟩

/-- The lines that the switches refuse: those to be sent, and those whose source is still to be read. -/
def deniedLines (s : State) (lines : List (Loc × Nat × Loc)) (unread : Bool) : List Acc :=
  (lines.filter (fun l => (outCheck s l.2.2).isSome || (unread && (outCheck s l.1).isSome))).map lineAcc

/-- What the lines of a posted operation that are not refused carry, with their homes: those whose source is poisoned are left
aside. -/
def gatherOwn (s : State) (b : Nat) (green : Bool) (bad : List Acc) : List (Loc × Nat × Loc) → Option (List (List Byte × Bool)) →
    State × List (Loc × List Byte × Bool)
  | [], _ => (s, [])
  | l :: ls, data =>
    let rest := data.map (·.drop 1)
    if bad.contains (lineAcc l) then gatherOwn s b green bad ls rest
    else
      let (s, x) : State × Option (List Byte × Bool) := match data with
        | some d => (s, d.head?)
        | none => ((readSource s b green [l.1]).1, ((readSource s b green [l.1]).2.bind (·.head?)))
      let (s, r) := gatherOwn s b green bad ls rest
      (s, (x.map (fun y => (l.2.2, y))).toList ++ r)

/-- Sends the lines of a posted operation that are not refused: all their sources are read before the first is written (R263). -/
def sendOwn (s : State) (b : Nat) (green : Bool) (bad : List Acc) (lines : List (Loc × Nat × Loc)) (data : Option (List (List Byte × Bool))) :
    State :=
  let (s, l) := gatherOwn s b green bad lines data
  l.foldl (fun s x => putLine s b x.2 x.1) s

/-- Performs the lines of a posted operation with what its source held; whether one is green. -/
def putAll (s : State) (b : Nat) : List (Loc × Nat × Loc) → List (List Byte × Bool) → State × Bool
  | l :: ls, x :: xs =>
    let (s, g) := putAll (putLine s b x l.2.2) b ls xs
    (s, x.2 || g)
  | _, _ => (s, false)

/-- What a buffered posted operation would leave, as its commit performs it (R263, R372, R375); whether its flag would be set, and
whether green reaches it. -/
def applySend (s : State) (b : Nat) (green : Bool) (lines : List (Loc × Nat × Loc)) (flag : List (Loc × Nat × Loc)) : State × Option Bool :=
  match deniedLines s (lines ++ flag) true with
  | a :: l => (sendOwn s b green (a :: l) lines none, none)
  | [] =>
    match readSource s b green (lines.map (·.1)) with
    | (s, none) => (s, none)
    | (s, some d) => ((putAll s b lines d).1, some (putAll s b lines d).2)

/-! ### A brick's own buffered writes (R259) -/

/-- What the buffered memory operations of a brick would leave: how the brick itself sees memory in a deterministic
launch. -/
def applyOwn (s : State) (b : Nat) : List Flight → State
  | [] => s
  | f :: l =>
    if f.tEnd.isNone || f.done then applyOwn s b l
    else
      match f.kind with
      | .store puts gov => applyOwn (performStore s b puts gov) b l
      | .atom reqs op ty rm _ gov => applyOwn (performAtom s b op ty (.det rm) none gov reqs).1 b l
      | .aon _ _ _ puts twin gov _ _ => applyOwn (performStore (performStore s b puts gov) b twin gov) b l
      | .putw lines _ green => applyOwn (applySend s b green lines []).1 b l
      | .sigw lines _ va flag add v green anyG =>
        (match applySend s b green lines [(flag, va, flag)] with
         | (s, some g) => applyOwn (signalFlag s b flag add v (anyG || g)).1 b l
         | (s, none) => applyOwn s b l)
      | .hodPut o (some n) src green =>
        (match if (src.findSome? (outCheck s)).isSome then (s, none) else readSource s b green src with
         | (s, some lines) => applyOwn (writeSlot s (hodSlotLoc s o n) lines) b l
         | (s, none) => applyOwn (writeSlot s (hodSlotLoc s o n) (zeroLines (hodAt s o).s)) b l)
      | _ => applyOwn s b l

def ownView (s : State) (b : Nat) (br : Brick) : State := applyOwn s b br.flights

/-- The end of the course before the brick's current one. -/
def courseStart (q L : Nat) : Nat := if q = 0 then 0 else L / q * q

/-- A brick lives until its last thread exits or it is killed. -/
def Brick.alive (br : Brick) : Bool := !br.killed && br.threads != 0#32

/-- A brick lives as committed state has it: until its exit or kill is committed (R298). -/
def Brick.standing (br : Brick) : Bool :=
  br.alive || br.flights.any (fun f => !f.done && (match f.kind with
    | .gone _ => true
    | _ => false))

/-- The live bricks of a launch. -/
def liveBricks (s : State) (launch : Nat) : List (Nat × Brick) := s.bricks.filter (fun x => x.2.launch == launch && x.2.alive)

/-- A brick's buffers with an end time of at most T are applied. -/
def Brick.applied (br : Brick) (T : Nat) : Bool :=
  br.flights.all (fun f => match f.tEnd with
    | some e => f.done || decide (e > T)
    | none => true)

/-- Every live brick of the launch has reached T, and every buffer with that end time or an earlier one is applied
(R298). -/
def committedTo (s : State) (launch T : Nat) : Bool :=
  s.bricks.all (fun x => x.2.launch != launch || ((!x.2.alive || decide (x.2.L ≥ T)) && x.2.applied T))

/-- In a deterministic launch a read waits until the courses before its own are committed. -/
def detReadHold (s : State) (c : Ctx) : Bool :=
  c.br.det && !committedTo s c.br.launch (courseStart (qOf s c.br) c.br.L)

/-- An access to the launch's space cannot issue now: its counter is full, or, in a deterministic launch, the courses before its
own, whose tables and invalidations it translates by, are not committed (R198, R259, R338). -/
def globHold (s : State) (c : Ctx) (fc : Nat) : Bool := fcFull c.br fc || detReadHold s c

/-! ### Issuing operations in flight (R198, R200) -/

/-- The end time of what the brick buffers now: none outside a deterministic launch. -/
def bufferEnd (s : State) (c : Ctx) : Option Nat := if c.br.det then some (courseEndOf (qOf s c.br) c.br.L) else none

/-- Marks a destination as pending (R200): for a lane or mask register the threads of the split, for a uniform one the
brick. -/
def addMark (br : Brick) (c : Ctx) (mark : Option RName) (fc : Option Nat) : Brick :=
  match mark, fc with
  | some n, some k =>
    { br with marks := br.marks ++ [⟨n, (match n with
        | .uni _ => 0xFFFFFFFF#32
        | _ => c.sp.mask), c.k, br.seq, k, issuedOn br k + 1⟩] }
  | _, _ => br

/-- Issues an operation of the form, with a mark on its destination. -/
def pushFlight (s : State) (c : Ctx) (f : Form) (fc : Option Nat) (tEnd : Option Nat) (mark : Option RName) (kind : FlightKind) :
    State :=
  let (due, s) := freeDue s
  modBrick s c.b (fun br =>
    addFlight (addMark br c mark fc)
      (fun seq ord => { seq := seq, fc := fc, ord := ord, split := c.k, pc := c.sp.pc, two := f.two, due := due, tEnd := tEnd
                        done := false, kind := kind }))

/-- Issues a load: in the launch's space outside a deterministic launch it is performed later; a local load, and every
load of a deterministic launch, is read now, over the brick's own buffered writes. -/
def issueLoad (s : State) (c : Ctx) (f : Form) (fc : Nat) (accs : List Acc) (dst : LoadDst) (name : RName) (now : Bool) : Res :=
  if c.br.det && accs.any (fun a => locDown s a.loc) then .hold
  else if c.br.det then
    let r := readThrough s (ownView s c.b c.br) c.b accs dst c.gov
    .done (pushFlight r.1 c f (some fc) none (some name) (.regs r.2.writes r.2.late))
  else if now then
    let (s, d) := performLoad s c.b accs dst c.gov
    .done (pushFlight s c f (some fc) none (some name) (.regs d.writes d.late))
  else .done (pushFlight s c f (some fc) none (some name) (.load accs dst c.gov))

/-- Issues a store. Local ones are performed at once (R195); in a deterministic launch every store is buffered (R197,
R259). -/
def issueStore (s : State) (c : Ctx) (f : Form) (fc : Option Nat) (puts : List Put) : Res :=
  if c.br.det then .done (pushFlight s c f fc (bufferEnd s c) none (.store puts c.gov))
  else if fc.isNone then .done (performStore s c.b puts c.gov)
  else .done (pushFlight s c f fc none none (.store puts c.gov))

/-- A green byte bound for host memory (R178): the lowest such thread. -/
def greenToHost (c : Ctx) (puts : List Put) : Option TrapReq :=
  match puts.filter (fun p => p.acc.loc.isHost && (p.dG || p.acc.aG || c.gov)) with
  | [] => none
  | p :: l => some (trapThread 0x085#9 p.acc.t (l.length + 1) 0)

end Sys2Proof.Machine
end

