-- ==== Sys2Proof/Machine/MemForms.lean ====
section
/-!
DEFINITION. Loads, stores and prefetches of local memory and of the launch's space (R190, R202–R204, R231–R234), the
settled-only store (R186) and the reads of line tags (R185).
-/
namespace Sys2Proof.Machine

/-- Any home accepts a load or a store (R249). -/
def anyHome (_ : Home) : Bool := true
/-- Forms that only this module's own memory offers. -/
def ownHome (h : Home) : Bool := h == .own

/-- A form that raises a counter waits while it stands at 63 (R198); a read of a deterministic launch waits for the
courses before its own (R298). -/
def loadHold (s : State) (c : Ctx) (fc : Nat) : Bool :=
  fcFull c.br fc || detReadHold s c || (fc == 0 && (acqBlocked c.br || wbBusy c.br))

/-- The same of a store: one to local memory is performed at issue, and so waits for what a FENCE.acq put before it. -/
def storeHold (s : State) (c : Ctx) (glob : Bool) : Bool := if glob then globHold s c 2 else acqBlocked c.br || wbBusy c.br

/-- A lane load of 4 or 8 bytes. -/
def laneLoad (glob : Bool) (n : Nat) (two : Bool) (d x sb : Reg) (sc : BitVec 2) (disp : BitVec 30) (st : BitVec 3) (s : State) :
    Host.Outcome State Fault Refusal :=
  let f := memForm two st (some d) x sb false true
  let fc := if glob then 1 else 0
  issueForm s f (fun c =>
    let addr := c.addr x sb sc disp
    let p := physReg c.k d.toNat
    if loadHold s c fc then .hold
    else withAccs c
      (if glob then globalAccs s c kRead anyHome addr (c.addrG x sb) n (misaligned addr n)
       else localAccs s c addr (c.addrG x sb) n (misaligned addr n))
      (fun s accs => issueLoad s c f fc accs (if n = 8 then .lane64 p else .lane32 p) (.lane p) (!glob)))

/-- The stores of the active threads: the low `n` bytes of d. -/
def putsOf (c : Ctx) (d : Reg) (n : Nat) (accs : List Acc) : List Put :=
  accs.map (fun a => ⟨a, leBytes n (c.w d a.t).toNat, if n = 8 then c.wG d a.t else c.hG d a.t 0⟩)

/-- Issues the stores of some accesses, unless a green byte would reach host memory. -/
def storeAccs (s : State) (c : Ctx) (f : Form) (glob : Bool) (puts : List Put) : Res :=
  match greenToHost c puts with
  | some t => .trap s t
  | none => issueStore s c f (if glob then some 2 else none) puts

/-- A lane store of 4 or 8 bytes; `settled` is the check of STC (R186). -/
def laneStore (glob : Bool) (n : Nat) (settled two : Bool) (d x sb : Reg) (sc : BitVec 2) (disp : BitVec 30) (st : BitVec 3)
    (s : State) : Host.Outcome State Fault Refusal :=
  let f0 := memForm two st (some d) x sb true false
  let f := if settled then { f0 with chk := [chkBoth d, chkBoth x] } else { f0 with half0 := if n = 8 then [] else [d.toNat] }
  issueForm s f (fun c =>
    let addr := c.addr x sb sc disp
    let green := c.ts.filter (fun t => c.wG d t || c.addrG x sb t)
    if storeHold s c glob then .hold
    else if settled && (c.gov || !green.isEmpty) then
      .trap s (match green with
        | [] => trapOf c 0x082#9
        | t :: l => trapThread 0x082#9 t (l.length + 1) 0)
    else withAccs c
      (if glob then globalAccs s c kWrite anyHome addr (c.addrG x sb) n (misaligned addr n)
       else localAccs s c addr (c.addrG x sb) n (misaligned addr n))
      (fun s accs => storeAccs s c f glob (putsOf c d n accs)))

/-- LDT: whole lines, eight threads to a line (R203). -/
def lineLoad (q two : Bool) (d x sb : Reg) (sc : BitVec 2) (disp : BitVec 30) (st : BitVec 3) (s : State) :
    Host.Outcome State Fault Refusal :=
  let f := memForm two st (some d) x sb false true
  let fc := if q then 1 else 0
  issueForm s f (fun c =>
    let addr := c.addr x sb sc disp
    let p := physReg c.k d.toNat
    if loadHold s c fc then .hold
    else withAccs c
      (if q then globalAccs s c kRead anyHome addr (c.addrG x sb) 8 (groupBad c addr false false)
       else localAccs s c addr (c.addrG x sb) 8 (groupBad c addr true false))
      (fun s accs => issueLoad s c f fc accs (.lane64 p) (.lane p) (!q)))

/-- STT to local memory: whole lines from full groups (R203). -/
def lineStore (two : Bool) (d x sb : Reg) (sc : BitVec 2) (disp : BitVec 30) (st : BitVec 3) (s : State) :
    Host.Outcome State Fault Refusal :=
  let f := memForm two st (some d) x sb true false
  issueForm s f (fun c =>
    let addr := c.addr x sb sc disp
    if storeHold s c false then .hold
    else withAccs c (localAccs s c addr (c.addrG x sb) 8 (groupBad c addr true true))
      (fun s accs => storeAccs s c f false (putsOf c d 8 accs)))

/-- PREF moves a line into mortar, which no program can observe (R234). -/
def prefetch (two : Bool) (x sb : Reg) (st : BitVec 3) (s : State) : Host.Outcome State Fault Refusal :=
  issueForm s (memForm two st none x sb false false) (fun _ => .done s)

/-- LDS (R204). -/
def uniLoad (two : Bool) (d sb : Reg) (disp : W64) (st : BitVec 3) (s : State) : Host.Outcome State Fault Refusal :=
  let f := uniForm two st [sb] d
  issueForm s f (fun c =>
    let e := c.u sb + disp
    let fc := if ebit e 63 then 1 else 0
    let p := physReg c.k d.toNat
    if loadHold s c fc then .hold
    else withAccs c (uniformAcc s c kRead e (c.uG sb))
      (fun s accs => issueLoad s c f fc accs (.uni p) (.uni p) (!ebit e 63)))

/-- STS (R204). -/
def uniStore (two : Bool) (d sb : Reg) (disp : W64) (st : BitVec 3) (s : State) : Host.Outcome State Fault Refusal :=
  let f := { uniForm two st [sb, d] d with wr := [] }
  issueForm s f (fun c =>
    let e := c.u sb + disp
    if storeHold s c (ebit e 63) then .hold
    else withAccs c (uniformAcc s c kWrite e (c.uG sb))
      (fun s accs => storeAccs s c f (ebit e 63) (accs.map (fun a => ⟨a, leBytes 8 (c.u d).toNat, c.uG d⟩))))

/-- An immediate of LDS, STS and BIND counts eight bytes (R204, R261). -/
def imm8 (imm : BitVec 9) : W64 := immS imm <<< 3

/-- Loads 8 bytes of local memory into each active thread, counted on fc0 (R202). -/
def execLdB64 (d : Reg) (x : Reg) (sb : Reg) (sc : BitVec 2) (st : BitVec 3) (s : State) :
    Host.Outcome State Fault Refusal :=
  laneLoad false 8 false d x sb sc 0 st s

/-- Displaced form of LD.b64 with a MEM payload (R202). -/
def execLdB64Disp (d : Reg) (x : Reg) (sb : Reg) (sc : BitVec 2) (disp : BitVec 30) (st : BitVec 3) (s : State) :
    Host.Outcome State Fault Refusal :=
  laneLoad false 8 true d x sb sc disp st s

/-- Stores 8 bytes of each active thread into local memory (R202). -/
def execStB64 (d : Reg) (x : Reg) (sb : Reg) (sc : BitVec 2) (st : BitVec 3) (s : State) :
    Host.Outcome State Fault Refusal :=
  laneStore false 8 false false d x sb sc 0 st s

/-- Displaced form of ST.b64 with a MEM payload (R202). -/
def execStB64Disp (d : Reg) (x : Reg) (sb : Reg) (sc : BitVec 2) (disp : BitVec 30) (st : BitVec 3) (s : State) :
    Host.Outcome State Fault Refusal :=
  laneStore false 8 false true d x sb sc disp st s

/-- Reads whole lines per group of eight threads from local or global space (R203). -/
def execLdt (d : Reg) (x : Reg) (sb : Reg) (sc : BitVec 2) (q : Bool) (st : BitVec 3) (s : State) :
    Host.Outcome State Fault Refusal :=
  lineLoad q false d x sb sc 0 st s

/-- Displaced form of LDT with a MEM payload (R203). -/
def execLdtDisp (d : Reg) (x : Reg) (sb : Reg) (sc : BitVec 2) (disp : BitVec 30) (q : Bool) (st : BitVec 3) (s : State) :
    Host.Outcome State Fault Refusal :=
  lineLoad q true d x sb sc disp st s

/-- Writes whole local lines per fully active group of eight threads (R203). -/
def execStt (d : Reg) (x : Reg) (sb : Reg) (sc : BitVec 2) (st : BitVec 3) (s : State) :
    Host.Outcome State Fault Refusal :=
  lineStore false d x sb sc 0 st s

/-- Displaced form of STT with a MEM payload (R203). -/
def execSttDisp (d : Reg) (x : Reg) (sb : Reg) (sc : BitVec 2) (disp : BitVec 30) (st : BitVec 3) (s : State) :
    Host.Outcome State Fault Refusal :=
  lineStore true d x sb sc disp st s

/-- Loads 8 bytes from the launch's space into each active thread, counted on fc1 (R233). -/
def execLdgB64 (d : Reg) (x : Reg) (sb : Reg) (sc : BitVec 2) (st : BitVec 3) (s : State) :
    Host.Outcome State Fault Refusal :=
  laneLoad true 8 false d x sb sc 0 st s

/-- Displaced form of LDG.b64 with a MEM payload (R233). -/
def execLdgB64Disp (d : Reg) (x : Reg) (sb : Reg) (sc : BitVec 2) (disp : BitVec 30) (st : BitVec 3) (s : State) :
    Host.Outcome State Fault Refusal :=
  laneLoad true 8 true d x sb sc disp st s

/-- Stores 8 bytes of each active thread to the launch's space, counted on fc2 (R233). -/
def execStgB64 (d : Reg) (x : Reg) (sb : Reg) (sc : BitVec 2) (st : BitVec 3) (s : State) :
    Host.Outcome State Fault Refusal :=
  laneStore true 8 false false d x sb sc 0 st s

/-- Displaced form of STG.b64 with a MEM payload (R233). -/
def execStgB64Disp (d : Reg) (x : Reg) (sb : Reg) (sc : BitVec 2) (disp : BitVec 30) (st : BitVec 3) (s : State) :
    Host.Outcome State Fault Refusal :=
  laneStore true 8 false true d x sb sc disp st s

/-- Stores 64-bit values only when value, address and split are all cured (R186). -/
def execStc (d : Reg) (x : Reg) (sb : Reg) (sc : BitVec 2) (q : Bool) (st : BitVec 3) (s : State) :
    Host.Outcome State Fault Refusal :=
  laneStore q 8 true false d x sb sc 0 st s

/-- Displaced form of STC with a MEM payload (R186). -/
def execStcDisp (d : Reg) (x : Reg) (sb : Reg) (sc : BitVec 2) (disp : BitVec 30) (q : Bool) (st : BitVec 3) (s : State) :
    Host.Outcome State Fault Refusal :=
  laneStore q 8 true true d x sb sc disp st s

/-- Loads 4 bytes of local memory into half 0 of each active thread (R202). -/
def execLdB32 (d : Reg) (x : Reg) (sb : Reg) (sc : BitVec 2) (st : BitVec 3) (s : State) :
    Host.Outcome State Fault Refusal :=
  laneLoad false 4 false d x sb sc 0 st s

/-- Displaced form of LD.b32 with a MEM payload (R202). -/
def execLdB32Disp (d : Reg) (x : Reg) (sb : Reg) (sc : BitVec 2) (disp : BitVec 30) (st : BitVec 3) (s : State) :
    Host.Outcome State Fault Refusal :=
  laneLoad false 4 true d x sb sc disp st s

/-- Loads 4 bytes from the launch's space into half 0 of each active thread (R233). -/
def execLdgB32 (d : Reg) (x : Reg) (sb : Reg) (sc : BitVec 2) (st : BitVec 3) (s : State) :
    Host.Outcome State Fault Refusal :=
  laneLoad true 4 false d x sb sc 0 st s

/-- Displaced form of LDG.b32 with a MEM payload (R233). -/
def execLdgB32Disp (d : Reg) (x : Reg) (sb : Reg) (sc : BitVec 2) (disp : BitVec 30) (st : BitVec 3) (s : State) :
    Host.Outcome State Fault Refusal :=
  laneLoad true 4 true d x sb sc disp st s

/-- Stores half 0 of each active thread into local memory (R202). -/
def execStB32 (d : Reg) (x : Reg) (sb : Reg) (sc : BitVec 2) (st : BitVec 3) (s : State) :
    Host.Outcome State Fault Refusal :=
  laneStore false 4 false false d x sb sc 0 st s

/-- Displaced form of ST.b32 with a MEM payload (R202). -/
def execStB32Disp (d : Reg) (x : Reg) (sb : Reg) (sc : BitVec 2) (disp : BitVec 30) (st : BitVec 3) (s : State) :
    Host.Outcome State Fault Refusal :=
  laneStore false 4 false true d x sb sc disp st s

/-- Stores half 0 of each active thread to the launch's space (R233). -/
def execStgB32 (d : Reg) (x : Reg) (sb : Reg) (sc : BitVec 2) (st : BitVec 3) (s : State) :
    Host.Outcome State Fault Refusal :=
  laneStore true 4 false false d x sb sc 0 st s

/-- Displaced form of STG.b32 with a MEM payload (R233). -/
def execStgB32Disp (d : Reg) (x : Reg) (sb : Reg) (sc : BitVec 2) (disp : BitVec 30) (st : BitVec 3) (s : State) :
    Host.Outcome State Fault Refusal :=
  laneStore true 4 false true d x sb sc disp st s

/-- Brings near- or far-memory lines into mortar without any visible effect (R234). -/
def execPref (x : Reg) (sb : Reg) (_sc : BitVec 2) (st : BitVec 3) (s : State) :
    Host.Outcome State Fault Refusal :=
  prefetch false x sb st s

/-- Displaced form of PREF with a MEM payload (R234). -/
def execPrefDisp (x : Reg) (sb : Reg) (_sc : BitVec 2) (_disp : BitVec 30) (st : BitVec 3) (s : State) :
    Host.Outcome State Fault Refusal :=
  prefetch true x sb st s

/-- Loads 8 bytes into a uniform register from local or virtual space (R204). -/
def execLds (d : Reg) (sb : Reg) (imm : BitVec 9) (st : BitVec 3) (s : State) :
    Host.Outcome State Fault Refusal :=
  uniLoad false d sb (imm8 imm) st s

/-- Displaced form of LDS with a MEM payload (R204). -/
def execLdsDisp (d : Reg) (sb : Reg) (disp : BitVec 30) (st : BitVec 3) (s : State) :
    Host.Outcome State Fault Refusal :=
  uniLoad true d sb (immS disp) st s

/-- Stores a uniform register to local or virtual space (R204). -/
def execSts (d : Reg) (sb : Reg) (imm : BitVec 9) (st : BitVec 3) (s : State) :
    Host.Outcome State Fault Refusal :=
  uniStore false d sb (imm8 imm) st s

/-- Displaced form of STS with a MEM payload (R204). -/
def execStsDisp (d : Reg) (sb : Reg) (disp : BitVec 30) (st : BitVec 3) (s : State) :
    Host.Outcome State Fault Refusal :=
  uniStore true d sb (immS disp) st s

/-- Reads the G bits of the lines each thread addresses into a mask (R185). -/
def execTagrdLine (m : BitVec 3) (a : Reg) (g : Bool) (st : BitVec 3) (s : State) :
    Host.Outcome State Fault Refusal :=
  let f := { laneForm false st [a] 0#6 with lanes := [a.toNat], wr := [nMsk m] }
  let fc := if g then 1 else 0
  issueForm s f (fun c =>
    let addr := c.w a
    if loadHold s c fc then .hold
    else withAccs c
      (if g then globalAccs s c kRead anyHome addr (c.wG a) 1 (fun _ => false)
       else localAccs s c addr (c.wG a) 1 (fun _ => false))
      (fun s accs => issueLoad s c f fc accs (.lineG m.toNat) (.msk m.toNat) (!g)))

end Sys2Proof.Machine
end

