-- ==== Sys2Proof/Machine/Mortar.lean ====
section
/-!
DEFINITION. The facilities of the mortar banks: atomics and reductions (R235–R238), versioned tiles and paired stores
(R239–R243), tentative cells (R244–R247).
-/
namespace Sys2Proof.Machine

/-! ### Atomics -/

/-- Homes of ATOM and RED (R249). -/
def atomHome (h : Home) : Bool := h != .host

/-- The rounding mode that a form carries to its home: `.dyn` resolves at issue (R79, R237). -/
def Ctx.mode (c : Ctx) (rm : Rm) : Rm := if rm == .dyn then c.br.rm else rm

/-- The requests of an atomic's threads. -/
def atomReqs (c : Ctx) (v : Reg) (op : AtomOp) (n : Nat) (accs : List Acc) : List AtomReq :=
  accs.map (fun a =>
    let v2 := nxt v
    { acc := a, v := c.w v a.t, v2 := (if op == .cas then c.w v2 a.t else 0)
      dG := (if n = 8 then c.wG v a.t else c.hG v a.t 0)
      g2 := op == .cas && (if n = 8 then c.wG v2 a.t else c.hG v2 a.t 0) })

/-- The checks on the halves that an atomic reads of its data. -/
def atomChk (ty : Ty) (r : Reg) : Nat × Bool × Bool := (r.toNat, true, ty.width == 64)

/-- The end time of a synchronising operation (R299): the brick's clock padded to its course's end, or left where it is
a multiple; a handler does not pad. -/
def syncTime (s : State) (c : Ctx) : Nat :=
  let q := qOf s c.br
  if q = 0 then 0
  else if c.inHandler then c.br.L / q * q
  else (c.br.L + q - 1) / q * q

/-- Parks a synchronising operation of a deterministic launch (R299). -/
def parkSync (s : State) (c : Ctx) (op : WaitOp) : Res :=
  let T := syncTime s c
  .park (if c.inHandler then s else modBrick s c.b (fun br => { br with L := T })) op (some T)

/-- ATOM and RED (R235). -/
def atomForm (dst : Option Reg) (x sb v : Reg) (op : AtomOp) (ty : Ty) (rm : Rm) (sc : BitVec 2) (st : BitVec 3) (s : State) :
    Host.Outcome State Fault Refusal :=
  let data := if op == .cas then [v, nxt v] else [v]
  let f0 := memForm true st dst x sb false true
  let f := { f0 with lanes := f0.lanes ++ data.map BitVec.toNat, rd := f0.rd ++ data.map nLane
                     chk := f0.chk ++ data.map (atomChk ty) }
  let fc := if dst.isSome then 1 else 2
  issueForm s f (fun c =>
    let n := atomBytes ty
    let addr := c.addr x sb sc 0
    let p := dst.map (fun d => physReg c.k d.toNat)
    if globHold s c fc then .hold
    else withAccs c (globalAccs s c kRw atomHome addr (c.addrG x sb) n (misaligned addr n)) (fun s accs =>
      let reqs := atomReqs c v op n accs
      match p with
      | some p =>
        let s := useCum s c.b
        if c.br.det then
          parkSync (pushFlight s c f (some 1) none (some (.lane p)) .syncAtom) c (.atom c.br.seq reqs op ty (c.mode rm) p c.gov)
        else .doneTurn (pushFlight s c f (some 1) none (some (.lane p)) (.atom reqs op ty (c.mode rm) (some p) c.gov))
      | none => .doneTurn (pushFlight (useCum s c.b) c f (some 2) (bufferEnd s c) none (.atom reqs op ty (c.mode rm) none c.gov))))

/-- Applies one operation at each thread's home and returns the old value (R235–R238). The scope decides only what FENCE
orders (R254), which this model's one memory already gives. -/
def execAtom (d : Reg) (x : Reg) (sb : Reg) (c : Reg) (op : AtomOp) (ty : Ty) (rm : Rm) (sc : BitVec 2) (_sp : Scope) (st : BitVec 3) (s : State) :
    Host.Outcome State Fault Refusal :=
  atomForm (some d) x sb c op ty rm sc st s

/-- Applies one operation at each thread's home without a result (R235–R238). -/
def execRed (x : Reg) (sb : Reg) (c : Reg) (op : AtomOp) (ty : Ty) (rm : Rm) (sc : BitVec 2) (_sp : Scope) (st : BitVec 3) (s : State) :
    Host.Outcome State Fault Refusal :=
  atomForm none x sb c op ty rm sc st s

/-! ### Versioned tiles -/

/-- Fields of a head line (R239). -/
structure Head where
  ver  : Nat
  lnk  : Bool
  twn  : Bool
  wid  : Nat
  peer : Nat
  good : Bool
  deriving DecidableEq, Repr

/-- Reads a head line. -/
def headAt (s : State) (pa : Nat) : Head :=
  let v := leNat (readBytes s (.phys pa) 64)
  let lnk := v.testBit 32
  let twn := v.testBit 33
  let peer := v / 2 ^ 128 % 2 ^ 64
  { ver := v % 2 ^ 32, lnk := lnk, twn := twn, wid := v / 2 ^ 64 % 2 ^ 64, peer := peer
    good := v / 2 ^ 34 % 2 ^ 30 == 0 && v / 2 ^ 192 == 0 && !(lnk && twn) &&
      (!(lnk || twn) || (peer / 2 ^ 57 == 0 && peer % 4096 == 0)) }

/-- Changes VER and WID; the head line's G bit stays (R239). -/
def setVer (s : State) (pa ver wid : Nat) : State :=
  putBytes (putBytes s (.phys pa) (leBytes 4 ver)) (.phys (pa + 8)) (leBytes 8 wid)

/-- What names a writer in WID: launch and brick identifier. -/
def widOf (s : State) (br : Brick) : Nat :=
  (match launchOf s br with
   | some l => l.lid
   | none => 0) % 2 ^ 32 * 2 ^ 32 + br.id % 2 ^ 32

/-- A group of a versioned form stands on line 0 or outside the tile of the first one, or is broken (R240). -/
def tileBad (c : Ctx) (addr : Nat → W64) (full : Bool) (lines : Nat) (t : Nat) : Bool :=
  let b := groupBase addr false t
  let b0 := groupBase addr false (c.ts.headD 0)
  groupBad c addr false full t || b / 4096 != b0 / 4096 || b % 4096 / 64 == 0 || decide (b % 4096 / 64 > lines)

/-- The report of a poisoned line that a form of the split consumes (R355, R362). -/
def poisonedLine (c : Ctx) (l : Loc) : LateTrap :=
  ⟨0x146#9, lowThread c.sp.mask, (threadsOf c.sp.mask).length, BitVec.ofNat 64 (structOf l), BitVec.ofNat 64 l.line.report⟩

/-- An own write to the head line is not yet performed: the head is judged behind it (R232, R239). -/
def headBusy (br : Brick) (pa : Nat) : Bool :=
  br.flights.any (fun f => !f.done && f.tEnd.isNone && (match f.kind with
    | .store puts _ => puts.any (fun p => p.acc.loc.line == .phys pa)
    | .atom reqs _ _ _ _ _ => reqs.any (fun r => r.acc.loc.line == .phys pa)
    | .tst puts _ _ => puts.any (fun p => p.acc.loc.line == .phys pa)
    | .retr accs _ _ => accs.any (fun a => a.loc.line == .phys pa)
    | _ => false))

/-- A head line read at a virtual address. -/
inductive HeadRes where
  /-- the head and its physical address -/
  | ok (s : State) (pa : Nat) (h : Head)
  /-- an own write comes first -/
  | hold
  /-- the line is poisoned -/
  | poison (s : State) (l : Loc)
  | trap (s : State) (t : TrapReq)
  | fault (s : State) (va : Nat)
  deriving DecidableEq, Repr

/-- Reads a head through its check, as the brick sees it behind its own writes. -/
def headAddr (s : State) (c : Ctx) (kind va : Nat) : HeadRes :=
  let t := lowThread c.sp.mask
  match globalThread s c kind ownHome va 64 false t false with
  | (s, .ok a) => (match a.loc with
      | .phys pa =>
        if headBusy c.br pa then .hold
        else
          let view := ownView s c.b c.br
          let s := observe (checkLine s (.phys pa)).1 (some c.b) (.phys pa) 64
          if (checkLine view (.phys pa)).2 then .poison s (.phys pa) else .ok s pa (headAt view pa)
      | .loc _ _ => .fault s va)
  | (s, .cause x v) => .trap s (trapThread x t 1 (BitVec.ofNat 64 v))
  | (s, .fault v) => .fault s v

/-- Continues with a head. A poisoned one is reported when the operation would complete (R362). -/
def withHead (c : Ctx) (f : Form) (fc : Nat) (mark : Option RName) (kind : Nat) (r : HeadRes) (k : State → Nat → Head → Res) : Res :=
  match r with
  | .ok s pa h => k s pa h
  | .hold => .hold
  | .poison s l => .done (pushFlight s c f (some fc) none mark (.regs [] (some (poisonedLine c l))))
  | .trap s t => .trap s t
  | .fault s va => .stay (brickFault s c kind va)

/-- The trap of a malformed head: the governing head's address. -/
def headTrap (c : Ctx) (va : Nat) : TrapReq := trapAux c 0x0C8#9 (BitVec.ofNat 64 va)

/-- The tile's base address. -/
def tileVa (c : Ctx) (addr : Nat → W64) : Nat := (addr (c.ts.headD 0)).toNat / 4096 * 4096

/-- The governing head of a tile: its own, or the one at PEER (R240). -/
def withGoverning (s : State) (c : Ctx) (f : Form) (fc : Nat) (mark : Option RName) (kind : Nat) (va : Nat)
    (k : State → Nat → Nat → Head → Res) : Res :=
  withHead c f fc mark kind (headAddr s c kind va) (fun s pa h =>
    if !h.good then .trap s (headTrap c va)
    else if h.lnk then
      withHead c f fc mark kind (headAddr s c kind h.peer) (fun s pa' h' =>
        if !h'.good then .trap s (headTrap c h.peer) else k s pa' h.peer h')
    else k s pa va h)

/-- LDTV (R241): read later; in a deterministic launch at once, unless another launch's versioned write is in progress. -/
def versionedLoad (two : Bool) (d x sb : Reg) (sc : BitVec 2) (disp : BitVec 30) (st : BitVec 3) (s : State) :
    Host.Outcome State Fault Refusal :=
  let f := memForm two st (some d) x sb false true
  issueForm s f (fun c =>
    let addr := c.addr x sb sc disp
    let p := physReg c.k d.toNat
    if loadHold s c 1 then .hold
    else withAccs c (globalAccs s c kRead ownHome addr (c.addrG x sb) 8 (tileBad c addr false 63)) (fun s accs =>
      if accs.isEmpty then .done s
      else withGoverning s c f 1 (some (.lane p)) kRead (tileVa c addr) (fun s pa va h =>
        if c.br.det && h.ver % 2 = 0 then issueLoad s c f 1 accs (.lane64 p) (.lane p) true
        else .done (pushFlight s c f (some 1) none (some (.lane p)) (.ldtv pa va accs p c.gov 0)))))

/-- STT.aon (R242). -/
def aonStore (two : Bool) (d x sb : Reg) (sc : BitVec 2) (disp : BitVec 30) (st : BitVec 3) (s : State) :
    Host.Outcome State Fault Refusal :=
  let f := memForm two st (some d) x sb true false
  issueForm s f (fun c =>
    let addr := c.addr x sb sc disp
    if globHold s c 2 then .hold
    else withAccs c (globalAccs s c kRw ownHome addr (c.addrG x sb) 8 (tileBad c addr true 63)) (fun s accs =>
      if accs.isEmpty then .done s
      else withHead c f 2 none kRw (headAddr s c kRw (tileVa c addr)) (fun s pa h =>
        if !h.good || h.lnk then .trap s (headTrap c (tileVa c addr))
        else .done (pushFlight s c f (some 2) (bufferEnd s c) none
          (.aon pa (tileVa c addr) none (putsOf c d 8 accs) [] c.gov 0 0)))))

/-- The stores to the twin: of each row written, two bytes in each of the 32 twin lines (R243). -/
def twinPuts (twinPa twinVa tile : Nat) (puts : List Put) : List Put :=
  puts.flatMap (fun p =>
    let row := (p.acc.va - tile) / 64 - 1
    let col := (p.acc.va % 64) / 2
    (List.range 4).map (fun i =>
      let off := (1 + col + i) * 64 + 2 * row
      ⟨⟨p.acc.t, .phys (twinPa + off), twinVa + off, 2, p.acc.aG⟩, (p.bytes.drop (2 * i)).take 2, p.dG⟩))

/-- STP (R243). -/
def pairedStore (two : Bool) (d x sb : Reg) (sc : BitVec 2) (disp : BitVec 30) (st : BitVec 3) (s : State) :
    Host.Outcome State Fault Refusal :=
  let f := memForm two st (some d) x sb true false
  issueForm s f (fun c =>
    let addr := c.addr x sb sc disp
    let tile := tileVa c addr
    if globHold s c 2 then .hold
    else withAccs c (globalAccs s c kRw ownHome addr (c.addrG x sb) 8 (tileBad c addr true 32)) (fun s accs =>
      if accs.isEmpty then .done s
      else withHead c f 2 none kRw (headAddr s c kRw tile) (fun s pa h =>
        if !h.good || !h.twn then .trap s (headTrap c tile)
        else withHead c f 2 none kRw (headAddr s c kRw h.peer) (fun s twin h' =>
          if !h'.good || !h'.lnk || h'.peer != tile then .trap s (headTrap c tile)
          else
            let puts := putsOf c d 8 accs
            .done (pushFlight s c f (some 2) (bufferEnd s c) none
              (.aon pa tile (some (twin, h.peer)) puts (twinPuts twin h.peer tile puts) c.gov 0 0))))))

/-- Reads versioned tile lines only from a moment when no versioned write was in progress (R241). -/
def execLdtv (d : Reg) (x : Reg) (sb : Reg) (sc : BitVec 2) (st : BitVec 3) (s : State) :
    Host.Outcome State Fault Refusal :=
  versionedLoad false d x sb sc 0 st s

/-- Displaced form of LDTV with a MEM payload (R241). -/
def execLdtvDisp (d : Reg) (x : Reg) (sb : Reg) (sc : BitVec 2) (disp : BitVec 30) (st : BitVec 3) (s : State) :
    Host.Outcome State Fault Refusal :=
  versionedLoad true d x sb sc disp st s

/-- Writes whole lines of one versioned tile all-or-nothing under its version word (R242). -/
def execSttAon (d : Reg) (x : Reg) (sb : Reg) (sc : BitVec 2) (st : BitVec 3) (s : State) :
    Host.Outcome State Fault Refusal :=
  aonStore false d x sb sc 0 st s

/-- Displaced form of STT.aon with a MEM payload (R242). -/
def execSttAonDisp (d : Reg) (x : Reg) (sb : Reg) (sc : BitVec 2) (disp : BitVec 30) (st : BitVec 3) (s : State) :
    Host.Outcome State Fault Refusal :=
  aonStore true d x sb sc disp st s

/-- Writes a 32×32 square and its transpose under the plain tile's version (R243). -/
def execStp (d : Reg) (x : Reg) (sb : Reg) (sc : BitVec 2) (st : BitVec 3) (s : State) :
    Host.Outcome State Fault Refusal :=
  pairedStore false d x sb sc 0 st s

/-- Displaced form of STP with a MEM payload (R243). -/
def execStpDisp (d : Reg) (x : Reg) (sb : Reg) (sc : BitVec 2) (disp : BitVec 30) (st : BitVec 3) (s : State) :
    Host.Outcome State Fault Refusal :=
  pairedStore true d x sb sc disp st s

/-! ### Tentative cells -/

/-- The result mask of TST, TCOM and RETR is named by sc; the scale is always 8 (R244). -/
def cellForm (two : Bool) (st : BitVec 3) (m : BitVec 2) (d : Option Reg) (x sb : Reg) : Form :=
  { memForm two st d x sb true false with wr := [nMsk m] }

/-- The three forms on tentative cells. -/
def cellAccess (two : Bool) (m : BitVec 2) (d : Option Reg) (x sb : Reg) (disp : BitVec 30) (st : BitVec 3)
    (kind : Ctx → List Acc → FlightKind) (s : State) : Host.Outcome State Fault Refusal :=
  let f := cellForm two st m d x sb
  issueForm s f (fun c =>
    let addr := c.addr x sb 3 disp
    if c.br.det then .trap s (trapOf c 0x103#9)
    else if globHold s c 1 then .hold
    else withAccs c (globalAccs s c kRw ownHome addr (c.addrG x sb) 8 (misaligned addr 8)) (fun s accs =>
      .done (pushFlight s c f (some 1) none (some (nMsk m)) (kind c accs))))

/-- Makes a cell tentative with a new value held in a pair slot (R245). -/
def execTst (m : BitVec 2) (d : Reg) (x : Reg) (sb : Reg) (st : BitVec 3) (s : State) :
    Host.Outcome State Fault Refusal :=
  cellAccess false m (some d) x sb 0 st (fun c accs => .tst (putsOf c d 8 accs) m.toNat c.gov) s

/-- Commits the writer's tentative cell and frees its slot (R247). -/
def execTcom (m : BitVec 2) (x : Reg) (sb : Reg) (st : BitVec 3) (s : State) :
    Host.Outcome State Fault Refusal :=
  cellAccess false m none x sb 0 st (fun c accs => .tcom accs m.toNat c.gov) s

/-- Retracts an unobserved tentative cell to its old value (R247). -/
def execRetr (m : BitVec 2) (x : Reg) (sb : Reg) (st : BitVec 3) (s : State) :
    Host.Outcome State Fault Refusal :=
  cellAccess false m none x sb 0 st (fun c accs => .retr accs m.toNat c.gov) s

/-- Displaced form of TST with a MEM payload (R245). -/
def execTstDisp (m : BitVec 2) (d : Reg) (x : Reg) (sb : Reg) (disp : BitVec 30) (st : BitVec 3) (s : State) :
    Host.Outcome State Fault Refusal :=
  cellAccess true m (some d) x sb disp st (fun c accs => .tst (putsOf c d 8 accs) m.toNat c.gov) s

/-- Displaced form of TCOM with a MEM payload (R247). -/
def execTcomDisp (m : BitVec 2) (x : Reg) (sb : Reg) (disp : BitVec 30) (st : BitVec 3) (s : State) :
    Host.Outcome State Fault Refusal :=
  cellAccess true m none x sb disp st (fun c accs => .tcom accs m.toNat c.gov) s

/-- Displaced form of RETR with a MEM payload (R247). -/
def execRetrDisp (m : BitVec 2) (x : Reg) (sb : Reg) (disp : BitVec 30) (st : BitVec 3) (s : State) :
    Host.Outcome State Fault Refusal :=
  cellAccess true m none x sb disp st (fun c accs => .retr accs m.toNat c.gov) s

/-- The bank of a place: its home die and the index of R230. -/
def bankOf (pa : Nat) : Nat :=
  if isMortarPa pa then (pa - 2 ^ 42) / 2 ^ 28 * 256 + (pa - 2 ^ 42) % 2 ^ 28 / 64 % 256
  else pa / 64 % 4 * 256 + pa / 256 % 256

/-- Pair slots of a bank in use, of 4,096 (R245). -/
def slotsUsed (s : State) (bank : Nat) : Nat := (s.pairs.filter (fun x => bankOf (x.1 * 8) == bank)).length

/-- The result bits of one thread: 1 on failure (R244). -/
def cellBits (m t : Nat) (fail gov aG : Bool) : RegWrite :=
  let sel : W64 := 3#64 <<< (2 * t)
  .msk m sel (if fail then sel else 0) (if gov || aG then sel else 0)

def paOf : Loc → Nat
  | .phys pa => pa
  | .loc _ o => o

/-- The pair slots of one thread of TST (R245): the state, what is left for the brick, and whether the cell takes the new
value. -/
def tstSlot (s : State) (b m : Nat) (gov : Bool) (p : Put) : State × Done × Bool :=
  let pa := paOf p.acc.loc
  let (s, psn) := checkLine s p.acc.loc.line
  if psn then
    (s, { Done.empty with late := some ⟨0x146#9, p.acc.t, 1, BitVec.ofNat 64 (structOf p.acc.loc), BitVec.ofNat 64 p.acc.loc.line.report⟩ },
      false)
  else
    let res (fail : Bool) : Done := { Done.empty with writes := [cellBits m p.acc.t fail gov p.acc.aG] }
    match tabGet? s.pairs (pa / 8) with
    | some slot => if slot.writer = b then (s, res false, true) else (s, res true, false)
    | none =>
      if decide (slotsUsed s (bankOf pa) ≥ 4096) then (s, res true, false)
      else
        let slot : PairSlot := ⟨BitVec.ofNat 64 (leNat (readBytes s p.acc.loc 8)), lineG s p.acc.loc, b, false⟩
        ({ s with pairs := tabPut s.pairs (pa / 8) slot }, res false, true)

def tstSlots (s : State) (b m : Nat) (gov : Bool) : List Put → State × Done × List Put
  | [] => (s, Done.empty, [])
  | p :: l =>
    let (s, x, ok) := tstSlot s b m gov p
    let (s, y, ps) := tstSlots s b m gov l
    (s, x.join y, if ok then p :: ps else ps)

/-- TST at the cells' homes: the threads that succeed write their new values as one store does (R175, R245). -/
def performTst (s : State) (b m : Nat) (gov : Bool) (puts : List Put) : State × Done :=
  let (s, d, ps) := tstSlots s b m gov puts
  (writeAll s (putsBytes ps) gov false, d)

/-- RETR's write of the old value: it merges with its line, whose G bit stays as it is (R247, R362). -/
def restoreCell (s : State) (key : Nat) (old : W64) : State :=
  let (s, psn) := checkLine s (Loc.phys (key * 8)).line
  if psn then s else putBytes s (.phys (key * 8)) (leBytes 8 old.toNat)

/-- One thread of TCOM or RETR (R247); `undo` is RETR. -/
def performCell1 (s : State) (b m : Nat) (gov undo : Bool) (a : Acc) : State × Done :=
  let key := paOf a.loc / 8
  let res (fail : Bool) : Done := { Done.empty with writes := [cellBits m a.t fail gov a.aG] }
  match tabGet? s.pairs key with
  | some slot =>
    if slot.writer != b then (s, res true)
    else
      let s := { s with pairs := tabDel s.pairs key }
      if !undo then (s, res false)
      else if slot.observed then (s, res true)
      else (restoreCell s key slot.old, res false)
  | none => (s, res true)

def performCells (s : State) (b m : Nat) (gov undo : Bool) : List Acc → State × Done
  | [] => (s, Done.empty)
  | a :: l =>
    let (s, x) := performCell1 s b m gov undo a
    let (s, y) := performCells s b m gov undo l
    (s, x.join y)

/-- Frees a brick's pending cells with their new values, when it exits or is killed (R247). -/
def commitCells (s : State) (b : Nat) : State := { s with pairs := s.pairs.filter (fun x => x.2.writer != b) }

/-! ### Attempts of versioned operations -/

/-- What one attempt gives: done, a later attempt, or a trap. -/
inductive Attempt where
  | done (s : State) (d : Done)
  | again (s : State) (kind : FlightKind) (delay : Nat)
  | trap (s : State) (t : LateTrap)
  deriving DecidableEq, Repr

/-- The trap of the 65th failure. -/
def stuck (va t n : Nat) : LateTrap := ⟨0x0C3#9, t, n, BitVec.ofNat 64 va, 0⟩

/-- Reads a head at its home, through its check; `who` is the brick. The report when its line is poisoned. -/
def readHead (s : State) (who pa t n : Nat) : State × Except LateTrap Head :=
  let (s, psn) := checkLine s (.phys pa)
  let s := observe s (some who) (.phys pa) 64
  (s, if psn then .error ⟨0x146#9, t, n, BitVec.ofNat 64 (structOf (.phys pa)), BitVec.ofNat 64 pa⟩ else .ok (headAt s pa))

/-- One attempt of LDTV (R241); `own` is what the brick's own buffered writes before it leave of memory. -/
def attemptLdtv (s : State) (b : Nat) (own : State → State) (pa va : Nat) (accs : List Acc) (p : Nat) (gov : Bool) (n : Nat) : Attempt :=
  let t := (accs.map (·.t)).headD 0
  match readHead s b pa t accs.length with
  | (s, .error x) => .trap s x
  | (s, .ok h) =>
    if h.ver % 2 = 0 then
      let r := readThrough s (own s) b accs (.lane64 p) gov
      .done r.1 r.2
    else if n + 1 = 65 then .trap s (stuck va t accs.length)
    else .again s (.ldtv pa va accs p gov (n + 1)) 128

/-- The pages of some stores still take them (R242, R243). -/
def putsReach (s : State) (core asid : Nat) (prv : Bool) : List Put → State × Bool
  | [] => (s, true)
  | p :: l =>
    match translate s core (dieOfCore core) asid prv kRw p.acc.va with
    | (s, .ok pa) => if Loc.phys pa == p.acc.loc then putsReach s core asid prv l else (s, false)
    | (s, _) => (s, false)

/-- The first store of each page. -/
def firstOfPages : List Put → List Nat → List Put
  | [], _ => []
  | p :: l, seen => if seen.contains (p.acc.va / 2 ^ 16) then firstOfPages l seen else p :: firstOfPages l (p.acc.va / 2 ^ 16 :: seen)

/-- The next step of an all-or-nothing or paired store (R242, R243): acquire, lines, twin, release. The head line's read at
the bank is checked each time (R18). -/
def attemptAon (s : State) (b : Nat) (br : Brick) (pa va : Nat) (twin : Option (Nat × Nat)) (puts tw : List Put) (gov : Bool)
    (n stage : Nat) : Attempt :=
  let me := widOf s br
  let t := (puts.map (·.acc.t)).headD 0
  let next (s : State) (stage : Nat) : Attempt := .again s (.aon pa va twin puts tw gov n stage) 0
  let broken (s : State) : Attempt :=
    .trap s ⟨0x0C4#9, t, 32, BitVec.ofNat 64 va, BitVec.ofNat 64 ((twin.map (·.2)).getD 0)⟩
  match stage with
  | 0 =>
    (match readHead s b pa t puts.length with
     | (s, .error x) => .trap s x
     | (s, .ok h) =>
       if h.ver % 2 = 0 then next (setVer s pa ((h.ver + 1) % 2 ^ 32) me) 1
       else if h.wid = me then next s 1
       else if n + 1 = 65 then .trap s (stuck va t puts.length)
       else .again s (.aon pa va twin puts tw gov (n + 1) 0) 128)
  | 1 =>
    (match putsReach s br.core (asidOf s br) br.prv (firstOfPages puts []) with
     | (s, true) => next (performStore s b puts gov) 2
     | (s, false) => broken s)
  | 2 =>
    (match putsReach s br.core (asidOf s br) br.prv (firstOfPages tw []) with
     | (s, true) =>
       let (s, bad) := checkLines s (tw.map (fun p => p.acc.loc.line)).eraseDups
       if bad.isEmpty then next (performStore s b tw gov) 3 else broken s
     | (s, false) => broken s)
  | _ =>
    match readHead s b pa t puts.length with
    | (s, .error x) => .trap s x
    | (s, .ok h) => .done (setVer s pa ((h.ver + 1) % 2 ^ 32) 0) Done.empty

/-- The steps of an all-or-nothing store one after the other, as far as it need not wait; `fuel` bounds the steps. -/
def stepsAon (s : State) (b : Nat) (br : Brick) (pa va : Nat) (twin : Option (Nat × Nat)) (puts tw : List Put) (gov : Bool)
    (n stage : Nat) : Nat → Attempt
  | 0 => .again s (.aon pa va twin puts tw gov n stage) 128
  | fuel + 1 =>
    match attemptAon s b br pa va twin puts tw gov n stage with
    | .again s (.aon _ _ _ _ _ _ _ st) 0 => stepsAon s b br pa va twin puts tw gov n st fuel
    | r => r

/-- A buffered all-or-nothing store applied at a commit: its steps together (R242). -/
def commitAon (s : State) (b : Nat) (br : Brick) (pa va : Nat) (twin : Option (Nat × Nat)) (puts tw : List Put) (gov : Bool) (n : Nat) :
    Attempt := stepsAon s b br pa va twin puts tw gov n 0 4

end Sys2Proof.Machine
end

