-- ==== Sys2Proof/Machine/TapeOps.lean ====
section
/-!
DEFINITION. The tape engine's own operations: segments and the placing of entries (R309, R311), the bytes of entries and
their compression (R312–R314), paths and frames (R315, R316, R320), and the reading of lines (R319, R321).
-/
namespace Sys2Proof.Machine

/-! ### Lines and segments -/

def Seg.lines (g : Seg) : Nat := g.len / 64

/-- Where an entry of n lines is placed: at LINES, or at the start of the next segment (R311). -/
def Tape.place (t : Tape) (n : Nat) : Option Nat :=
  (t.segs.find? (fun g => decide (max t.lines g.first + n ≤ g.first + g.lines))).map (fun g => max t.lines g.first)

/-- The virtual address of a line, when a held segment has it. -/
def Tape.lineVa (t : Tape) (i : Nat) : Option Nat :=
  (t.segs.find? (fun g => decide (g.first ≤ i) && decide (i < g.first + g.lines))).map (fun g => g.base + 64 * (i - g.first))

def Tape.held (t : Tape) (i : Nat) : Bool := (t.lineVa i).isSome

/-- Pointer of a path: last line + 1 of its newest entry (R315, R318). -/
def Tape.ptr (t : Tape) (path : Nat) : Nat := tabGetD t.paths path 0
def Tape.setPtr (t : Tape) (path v : Nat) : Tape := { t with paths := tabSet t.paths path 0 v }

/-- Contexts of a core's engine in use, of four (R307). -/
def tapesOpen (s : State) (core : Nat) : Nat :=
  (s.bricks.filter (fun x => x.2.core == core && x.2.tape.state != 0 &&
    !(tabGet? s.walls x.2.wall).any (·.saved))).length

def setTape (s : State) (b : Nat) (t : Tape) : State := modBrick s b (fun br => { br with tape := t })

/-- Every path of a split, that of its pending groups included, is the root: a tape has just opened, closed or turned to replay
(R315, R318). -/
def Split.onRoot (sp : Split) : Split :=
  { sp with path := 0, pendFrame := none
            stack := sp.stack.map (fun e => match e with
              | .ret ra g => .ret ra g
              | .dvg e pm pa rd ja gr g fr _ => .dvg e pm pa rd ja gr g fr 0) }

/-! ### Entries -/

/-- The fields of an entry's header (R312). -/
structure THead where
  prev  : Nat
  mask  : BitVec 32
  lbl   : Nat
  nline : Nat
  cnt   : Nat
  depth : Nat
  kind  : Nat
  grn   : Bool
  deriving DecidableEq, Repr

def THead.bytes (h : THead) : List Byte :=
  leBytes 16 (h.prev * 2 ^ 96 + h.mask.toNat * 2 ^ 64 + h.lbl * 2 ^ 56 + h.nline * 2 ^ 50 + h.cnt * 2 ^ 48 +
    h.depth * 2 ^ 43 + h.kind * 2 ^ 41 + (if h.grn then 2 ^ 40 else 0))

def headOfNat (v : Nat) : THead :=
  { prev := v / 2 ^ 96 % 2 ^ 32, mask := BitVec.ofNat 32 (v / 2 ^ 64), lbl := v / 2 ^ 56 % 256, nline := v / 2 ^ 50 % 64
    cnt := v / 2 ^ 48 % 4, depth := v / 2 ^ 43 % 32, kind := v / 2 ^ 41 % 4, grn := v.testBit 40 }

def headOf (bytes : List Byte) : THead := headOfNat (leNat (bytes.take 16))

/-- Frames open on a split's path: the entries of its stack that opened one on this tape. -/
def frameDepth (t : Tape) (sp : Split) : Nat :=
  (sp.stack.filter (fun e => match e with
    | .dvg _ _ _ _ _ _ _ (some i) _ => (tabGet? t.frames i).isSome
    | _ => false)).length

/-- One thread's value to record: bits and the two tag bits. -/
structure TVal where
  t : Nat
  v : W64
  g : Nat
  deriving DecidableEq, Repr

/-- Marks repeats: a thread whose value and tags equal those of the next lower active thread (R313). -/
def repeats : List TVal → List (TVal × Bool)
  | [] => []
  | x :: l => (x, false) :: repeatsFrom x l
where
  repeatsFrom (p : TVal) : List TVal → List (TVal × Bool)
    | [] => []
    | x :: l => (x, x.v == p.v && x.g == p.g) :: repeatsFrom x l

/-- The differences of successive stored values, modulo 2^64. -/
def deltas : List W64 → List W64
  | x :: y :: l => (y - x) :: deltas (y :: l)
  | _ => []

def fitsIn (w : Nat) (d : W64) : Bool := decide (-(2 ^ (w - 1) : Int) ≤ d.toInt) && decide (d.toInt < (2 ^ (w - 1) : Int))

/-- The width code of the differences (R313). -/
def widthCode (ds : List W64) : Nat :=
  if ds.isEmpty then 0 else if ds.all (fitsIn 8) then 0 else if ds.all (fitsIn 16) then 1 else if ds.all (fitsIn 32) then 2 else 3

/-- A register's payload, padded to eight bytes, each byte with whether a green value placed it (R313, R321). -/
def payload (vals : List TVal) : List (Byte × Bool) :=
  let rs := repeats vals
  let stored := (rs.filter (fun x => !x.2)).map (·.1)
  let ds := deltas (stored.map (·.v))
  let wc := widthCode ds
  let w := 2 ^ wc
  let rep := rs.foldl (fun acc x => if x.2 then acc + 2 ^ x.1.t else acc) 0
  let tag := vals.foldl (fun acc x => acc + x.g * 2 ^ (2 * x.t)) 0
  let plain (l : List Byte) : List (Byte × Bool) := l.map (fun x => (x, false))
  let withG (l : List Byte) (v : TVal) : List (Byte × Bool) := l.map (fun x => (x, v.g != 0))
  let body := plain (leBytes 8 (rep + stored.length * 2 ^ 32 + wc * 2 ^ 38)) ++ plain (leBytes 8 tag) ++
    (match stored with
     | [] => []
     | v1 :: rest => withG (leBytes 8 v1.v.toNat) v1 ++ (rest.zip ds).flatMap (fun x => withG (leBytes w x.2.toNat) x.1))
  body ++ List.replicate ((8 - body.length % 8) % 8) (0, false)

/-- Splits bytes into lines of 64. -/
def linesOfBytes : Nat → List (Byte × Bool) → List (List Byte × Bool)
  | 0, _ => []
  | n + 1, l => ((l.take 64).map (·.1), (l.take 64).any (·.2)) :: linesOfBytes n (l.drop 64)

/-- A value entry's lines, the header aside (R312). -/
def entryLines (regs : List (List TVal)) (head : Nat → THead) : Nat × List (List Byte × Bool) :=
  let p := regs.flatMap payload
  let n := (p.length + 16 + 63) / 64
  let body := p ++ List.replicate (64 * n - 16 - p.length) (0, false) ++ (head n).bytes.map (fun x => (x, false))
  (n, linesOfBytes n body)

/-- A branch entry's line (R314). -/
def branchLine (taken : BitVec 32) (arm0 arm1 : Nat) (h : THead) : List Byte :=
  leBytes 4 taken.toNat ++ leBytes 4 arm0 ++ leBytes 4 arm1 ++ List.replicate 36 0 ++ h.bytes

/-- Puts lines into the buffer. -/
def Tape.putLines (t : Tape) (i : Nat) (ls : List (List Byte × Bool)) (gov : Bool) : Tape :=
  { t with
    buf := t.buf.filter (fun x => decide (x.1 < i) || decide (x.1 ≥ i + ls.length)) ++
      (List.range ls.length).map (fun k => (i + k, (ls.getD k ([], false)).1, gov || (ls.getD k ([], false)).2))
    heads := tabPut t.heads (i + ls.length) (leNat (((ls.getLast?).getD ([], false)).1.drop 48)) }

/-! ### Reading lines -/

/-- A line as the engine reads it: from its buffer, or from the segment. -/
inductive LineRead where
  | ok (bytes : List Byte) (g : Bool)
  | fault (va : Nat)
  | cause (x : BitVec 9) (va : Nat)
  | poison (pa : Nat)
  /-- a buffered line that an error has made unreadable -/
  | lost
  /-- a link on its way is out of service (R368) -/
  | held
  /-- the switches refuse it (R370, R372) -/
  | denied (x : BitVec 9) (va : Nat)
  | bad
  deriving DecidableEq, Repr

/-- Reads one line; its page is used as it was when the segment was given (R309). -/
def readLine (s : State) (c : Ctx) (i : Nat) : State × LineRead :=
  match c.br.tape.buf.find? (fun x => x.1 == i) with
  | some x => (s, if x.2.1.isEmpty then .lost else .ok x.2.1 x.2.2)
  | none =>
    match c.br.tape.lineVa i with
    | none => (s, .bad)
    | some va =>
      match brickTranslate s c kLeaf va with
      | (s, .absent) => (s, .fault va)
      | (s, .cause x) => (s, .cause x va)
      | (s, .ok pa) =>
        if locDown s (.phys pa) then (s, .held)
        else match outCheck s (.phys pa) with
        | some x => (s, .denied x va)
        | none =>
        let (s, psn) := checkLine (noteRead s (.phys pa) 64) (.phys pa)
        (s, if psn then .poison pa else .ok (readBytes s (.phys pa) 64) (lineG s (.phys pa)))

/-- Lines i, i+1, … : bytes in order and whether any is green. -/
def readLinesFrom (s : State) (c : Ctx) (i : Nat) : Nat → State × LineRead
  | 0 => (s, .ok [] false)
  | n + 1 =>
    match readLine s c i with
    | (s, .ok b g) =>
      (match readLinesFrom s c (i + 1) n with
       | (s, .ok bs gs) => (s, .ok (b ++ bs) (g || gs))
       | r => r)
    | r => r

/-- A register of a payload, decoded for the threads of the recorded mask: value and tag bits of each (R313). -/
def decodeVals (rep : Nat) (tag : Nat) : List Nat → Option W64 → List W64 → List TVal
  | [], _, _ => []
  | t :: l, prev, vs =>
    let g := tag / 2 ^ (2 * t) % 4
    if rep.testBit t then ⟨t, prev.getD 0, g⟩ :: decodeVals rep tag l prev vs
    else ⟨t, vs.headD 0, g⟩ :: decodeVals rep tag l (some (vs.headD 0)) (vs.drop 1)

def sumDeltas (x : W64) : List W64 → List W64
  | [] => []
  | d :: l => (x + d) :: sumDeltas (x + d) l

def deltaAt (bytes : List Byte) (w k : Nat) : W64 :=
  BitVec.ofInt 64 (asSigned (8 * w) (leNat ((bytes.drop (24 + k * w)).take w)))

/-- Decodes one register's payload; the second component is its padded length. -/
def decodePayload (mask : BitVec 32) (bytes : List Byte) : List TVal × Nat :=
  let w0 := leNat (bytes.take 8)
  let rep := w0 % 2 ^ 32
  let n := w0 / 2 ^ 32 % 64
  let w := 2 ^ (w0 / 2 ^ 38 % 4)
  let tag := leNat ((bytes.drop 8).take 8)
  let v1 : W64 := BitVec.ofNat 64 (leNat ((bytes.drop 16).take 8))
  let vs := v1 :: sumDeltas v1 ((List.range (n - 1)).map (deltaAt bytes w))
  let len := 16 + (if n = 0 then 0 else 8 + (n - 1) * w)
  (decodeVals rep tag (threadsOf mask) none vs, (len + 7) / 8 * 8)

def decodeRegs (mask : BitVec 32) : Nat → List Byte → List (List TVal)
  | 0, _ => []
  | n + 1, bytes =>
    let (vs, len) := decodePayload mask bytes
    vs :: decodeRegs mask n (bytes.drop len)

/-! ### The newest entry of a path -/


/-- Lines i … i+n−1 are all held. -/
def Tape.heldRange (t : Tape) (i n : Nat) : Bool := (List.range n).all (fun k => t.held (i + k))

/-- The header of the entry that ends at a pointer, which the engine has on chip (R319): what the buffer or the segment holds of it,
and, where the segment's line cannot be read now, what was placed there. -/
def peekHead (s : State) (c : Ctx) (p : Nat) : Option THead :=
  let t := c.br.tape
  let placed := (tabGet? t.heads p).map headOfNat
  match t.buf.find? (fun x => x.1 == p - 1) with
  | some x => if x.2.1.isEmpty then placed else some (headOf (x.2.1.drop 48))
  | none =>
    match (readLine s c (p - 1)).2 with
    | .ok b _ => some (headOf (b.drop 48))
    | .bad => none
    | _ => placed

/-- The check of R319 on a header, with that of the tape lines that it names. -/
def popMatches (c : Ctx) (h : THead) (branch : Bool) (lbl cnt : Nat) : Bool :=
  let t := c.br.tape
  let p := t.ptr c.sp.path
  (if branch then h.kind == 1 || h.kind == 2 else h.kind == 0) && h.lbl == lbl && h.cnt == cnt &&
    h.depth == frameDepth t c.sp && (h.mask &&& c.br.threads) == c.sp.mask &&
    h.nline != 0 && decide (h.nline ≤ p) && t.heldRange (p - h.nline) h.nline && (h.prev == 0 || t.held (h.prev - 1))

/-- What a pop finds: the entry, nothing that matches, or what keeps its lines from being read. -/
inductive TopRes where
  | ok (h : THead) (bytes : List Byte) (g : Bool)
  | bad
  | line (r : LineRead)
  deriving DecidableEq, Repr

/-- The entry that ends at the pointer of the split's path: its header is checked with no memory read, then its lines are read. -/
def topEntry (s : State) (c : Ctx) (branch : Bool) (lbl cnt : Nat) : State × TopRes :=
  let t := c.br.tape
  let p := t.ptr c.sp.path
  if p = 0 || !t.held (p - 1) then (s, .bad)
  else if (peekHead s c p).any (fun h => !popMatches c h branch lbl cnt) then (s, .bad)
  else
    match readLine s c (p - 1) with
    | (s1, .ok b _) =>
      let h := headOf (b.drop 48)
      if !popMatches c h branch lbl cnt then (s1, .bad)
      else
        match readLinesFrom s c (p - h.nline) h.nline with
        | (s, .ok bs g) => (s, .ok h bs g)
        | (s, r) => (s, .line r)
    | (s, r) => (s, .line r)

/-! ### Frames at a branch and at its close -/

/-- The divergence entry's frame ends: a recorded one fills in its line and gives its parent the pointer past it
(R316); a replay frame just ends. The split continues on the parent path. -/
def closeFrame (t : Tape) (i : Nat) : Tape :=
  match tabGet? t.frames i with
  | none => t
  | some fr =>
    let t := { t with frames := tabDel t.frames i }
    if fr.replay then t
    else
      let h : THead := { prev := fr.prev, mask := fr.mask, lbl := 0, nline := 1, cnt := 0, depth := fr.depth, kind := 1, grn := fr.grn }
      (t.putLines fr.line [(branchLine fr.taken (t.ptr fr.arm0) (t.ptr fr.arm1) h, fr.gov || fr.grn)] false).setPtr fr.parent (fr.line + 1)

/-- The path on which a split continues when an entry with a frame is popped. -/
def parentPath (t : Tape) (i : Nat) (path : Nat) : Nat := match tabGet? t.frames i with
  | some fr => fr.parent
  | none => path

/-- A replay frame with an arm that still has entries, among arms with a live thread of its group (R320). -/
def armsOpen (t : Tape) (live : BitVec 32) (i : Nat) : Bool :=
  match tabGet? t.frames i with
  | none => false
  | some fr =>
    fr.replay && ((fr.mask &&& fr.taken &&& live != 0#32 && t.ptr fr.arm1 != 0) ||
      (fr.mask &&& ~~~fr.taken &&& live != 0#32 && t.ptr fr.arm0 != 0))

/-- The frame that a popped entry carries. -/
def Entry.frame? : Entry → Option Nat
  | .ret _ _ => none
  | .dvg _ _ _ _ _ _ _ f _ => f

end Sys2Proof.Machine
end

