-- ==== Sys2Proof/Machine/Control.lean ====
section
/-!
DEFINITION. Branches, splits and their stacks (R150–R158, R162–R167): divergence, rejoin, unwinding, landing points, and
the control forms but for EXIT, which ends bricks.
-/
namespace Sys2Proof.Machine

/-! ### Addresses -/

/-- A relative target: the form's address plus four times the offset (R33), in 57 bits. -/
def targetOf (pc : Nat) (off : BitVec 15) : Nat := (BitVec.ofNat 57 pc + (off.signExtend 57 <<< 2)).toNat

/-- What a landing-point check answers (R164). -/
inductive Land where
  | ok
  | bad
  | fault
  | cause (c : BitVec 9)
  /-- a link on the way to the word is out of service (R368) -/
  | held
  deriving DecidableEq, Repr

/-- A word that is a LAND: op 8 of uniform class 2, c and off zero, any stall count. -/
def isLandWord (w : Nat) : Bool := w / 8 == 0xA8000000 / 8

/-- Whether a 64-bit value is a valid indirect target. A word that cannot be read, since its line is poisoned or the switches refuse it,
gives its own cause (log 124). -/
def landing (s : State) (c : Ctx) (v : W64) : State × Land :=
  if v.toNat / 2 ^ 57 != 0 || v.toNat % 4 != 0 then (s, .bad)
  else
    match brickTranslate s c kExec v.toNat with
    | (s, .absent) => (s, .fault)
    | (s, .cause x) => (s, if x == 0x0C9#9 then .cause x else .bad)
    | (s, .ok pa) =>
      if locDown s (.phys pa) then (s, .held)
      else match outCheck s (.phys pa) with
      | some x => (s, .cause x)
      | none =>
      let (s, psn) := checkLine (noteRead s (.phys pa) 4) (Loc.phys pa).line
      if psn then (s, .cause 0x146#9)
      else (s, if isLandWord (leNat (readBytes s (.phys pa) 4)) then .ok else .bad)

/-! ### Governance and stacks -/

def Entry.setGov : Entry → Entry
  | .ret ra _ => .ret ra true
  | .dvg e pm pa rd ja gr _ fr pp => .dvg e pm pa rd ja gr true fr pp

/-- A green condition of a branch that pushes nothing governs the split until the entry on top is popped, or to its end
(R158). -/
def governTop (sp : Split) (green : Bool) : Split :=
  if !green then sp
  else match sp.stack with
    | [] => { sp with gov := true }
    | e :: l => { sp with stack := e.setGov :: l }

def Entry.group? : Entry → Option Nat
  | .ret _ _ => none
  | .dvg _ _ _ _ _ g _ _ _ => g

/-- The split holds the entry of a rejoin group. -/
def holdsGroup (sp : Split) (g : Nat) : Bool := sp.stack.any (fun e => e.group? == some g)

/-- The live splits whose stacks hold the entry of a group (R151). -/
def groupMembers (br : Brick) (g : Nat) : List (Nat × Split) := br.splits.filter (fun x => holdsGroup x.2 g)

def parkedOn (sp : Split) (g : Nat) : Bool :=
  match sp.wait with
  | some w => w.op == .join g
  | none => false

/-! ### Divergence (R152, R153) -/

/-- A group of threads with its destination, the tape path on which it runs, and whether it stays at the branch. -/
structure Arm where
  mask : BitVec 32
  pc   : Nat
  path : Nat
  re   : Bool
  deriving DecidableEq, Repr

/-- Free split numbers; a handler's divergence serialises on its own stack (R352). -/
def freeSplits (c : Ctx) : List Nat := if c.inHandler then [] else [0, 1, 2, 3].filter (fun k => (tabGet? c.br.splits k).isNone)

/-- A new split inherits the lane and mask results that pend for its parent; a uniform one is another split's to it (R157). -/
def inheritPend (br : Brick) (k n : Nat) : Brick :=
  { br with pend := br.pend.map (fun p => if p.owners.contains k then { p with owners := p.owners ++ [n] } else p) }

/-- Gives each following group a free split number: a copy of the stack, its threads and its destination. -/
def spawnArms (c : Ctx) (ready : Nat) (stack : List Entry) : List Arm → List Nat → Brick → Brick × List Arm
  | [], _, br => (br, [])
  | l, [], br => (br, l)
  | a :: l, n :: ns, br =>
    let sp : Split :=
      { c.sp with pc := a.pc, mask := a.mask, stack := stack, redisp := a.re, ready := ready, path := a.path, pendFrame := none }
    spawnArms c ready stack l ns (inheritPend (br.setSplit n sp) c.k n)

/-- Pushes the divergence entry and divides the split. `first` is the group that the split keeps; `others` follow in
order. What is left without a number goes to PM: at `pa` when the branch is to be issued again for it, else at its own
destination. -/
def divide (s : State) (c : Ctx) (f : Form) (gov : Bool) (frame : Option Nat) (first : Arm) (others : List Arm)
    (redo : Bool) : State :=
  let ready := s.clk + 1 + f.st.toNat
  let free := freeSplits c
  let gr : Option Nat := if others.isEmpty || free.isEmpty then none else some c.br.nextGr
  let left := others.drop free.length
  let pm := left.foldl (fun m a => m ||| a.mask) 0#32
  let pa := if redo then c.sp.pc else (left.map (·.pc)).headD 0
  let pmPath := if left.isEmpty then c.sp.path else (left.map (·.path)).headD 0
  -- PM stands in the issuing split's own copy of the entry alone
  let entry (pm : BitVec 32) : Entry := .dvg c.sp.mask pm pa redo none gr gov frame pmPath
  modBrick s c.b (fun br =>
    let br := { br with nextGr := br.nextGr + (if gr.isSome then 1 else 0)
                        groups := (match gr with
                          | some g => tabPut br.groups g ⟨c.k, [], none⟩
                          | none => br.groups) }
    let (br, _) := spawnArms c ready (entry 0 :: c.sp.stack) others free br
    br.setSplit c.k { c.sp with pc := first.pc, mask := first.mask, stack := entry pm :: c.sp.stack, redisp := first.re
                                path := first.path, pendFrame := none })

/-! ### The tape at a BRL (R316, R320) -/

/-- What the tape asks of a BRL. -/
inductive TapeBr where
  /-- no frame; the groups in their usual order -/
  | plain
  /-- a recorded frame: the tape with the frame's line placed, the frame, the arms' paths -/
  | record (t : Tape) (frame arm0 arm1 : Nat)
  /-- a replayed frame: the groups in the opposite order -/
  | replay (t : Tape) (frame arm0 arm1 : Nat)
  | trap (cause : BitVec 9) (t : Tape)
  deriving DecidableEq, Repr

def tapeBranch (c : Ctx) (taken : BitVec 32) (divides green : Bool) : TapeBr :=
  let t := c.br.tape
  let id := t.nextPath
  let base : TFrame :=
    { line := 0, parent := c.sp.path, arm0 := id + 1, arm1 := id + 2, taken := taken, mask := c.sp.mask, prev := t.ptr c.sp.path
      depth := frameDepth t c.sp, grn := green, gov := c.gov, replay := false }
  if t.state = 1 then
    (if t.br then
      match t.place 1 with
      | none => .trap 0x143#9 { t with need := 1 }
      | some i =>
        .record { t with lines := i + 1, frames := tabPut t.frames id { base with line := i }, nextPath := id + 3 } id (id + 1) (id + 2)
    else if divides then .trap 0x144#9 t else .plain)
  else if t.state = 3 then
    match c.sp.pendFrame with
    | some p =>
      if taken != p.taken &&& c.br.threads then .trap 0x144#9 t
      else
        .replay (({ t with frames := tabPut t.frames id { base with replay := true }, nextPath := id + 3 }.setPtr (id + 1) p.arm0).setPtr
          (id + 2) p.arm1) id (id + 1) (id + 2)
    | none => if divides then .trap 0x144#9 t else .plain
  else .plain

/-- BRL once its depth is known to allow a push. -/
def branchLanes (s : State) (c : Ctx) (f : Form) (taken : BitVec 32) (target : Nat) (green : Bool) : Res :=
  let stay := c.sp.mask &&& ~~~taken
  let turn (s : State) : Res := if taken != 0#32 && decide (target < c.sp.pc) then .jumpTurn s else .jump s
  let a0 (path : Nat) : Arm := ⟨stay, c.sp.pc + f.len, path, false⟩
  let a1 (path : Nat) : Arm := ⟨taken, target, path, false⟩
  let go (s : State) (frame : Option Nat) (p0 p1 : Nat) (rev : Bool) : Res :=
    if taken == 0#32 then turn (divide s c f green frame (a0 p0) [] false)
    else if stay == 0#32 then turn (divide s c f green frame (a1 p1) [] false)
    else if rev then turn (divide s c f green frame (a1 p1) [a0 p0] false)
    else turn (divide s c f green frame (a0 p0) [a1 p1] false)
  match tapeBranch c taken (taken != 0#32 && stay != 0#32) green with
  | .plain => go s none c.sp.path c.sp.path false
  | .record t i p0 p1 => go (setTape s c.b t) (some i) p0 p1 false
  | .replay t i p0 p1 => go (setTape s c.b t) (some i) p0 p1 true
  | .trap cause t => .trap (setTape s c.b t) (trapOf c cause)

/-! ### Indirect jumps -/

/-- The targets of a lane JMPI: each active thread with its target and whether it is valid. -/
def laneTargets (s : State) (c : Ctx) (a : Reg) : List Nat → State × List (Nat × Nat × Land)
  | [] => (s, [])
  | t :: l =>
    let (s, r) := landing s c (c.w a t)
    let (s, rs) := laneTargets s c a l
    (s, (t, (c.w a t).toNat, r) :: rs)

/-- Ascending list without repeats. -/
def insertSorted (x : Nat) : List Nat → List Nat
  | [] => [x]
  | y :: l => if x < y then x :: y :: l else if x = y then y :: l else y :: insertSorted x l

/-- The valid groups in ascending target order, and the invalid threads (R153). -/
def jumpGroups (c : Ctx) (l : List (Nat × Nat × Land)) : List Arm × BitVec 32 :=
  let good := l.filter (fun x => x.2.2 == .ok)
  let targets := good.foldl (fun acc x => insertSorted x.2.1 acc) []
  (targets.map (fun v => ⟨maskOf ((good.filter (fun x => x.2.1 == v)).map (·.1)), v, c.sp.path, false⟩),
    maskOf ((l.filter (fun x => x.2.2 == .bad)).map (·.1)))

/-- The trap of an invalid indirect target. -/
def badTarget (mask : BitVec 32) : TrapReq := ⟨0x005#9, 0, lowThread mask, (threadsOf mask).length, some mask, 0, 0⟩

/-- A lane JMPI under a tape that records or replays may not divide, nor stand where a replayed BRL must (R316, R320). -/
def jumpTapeBad (c : Ctx) (groups : Nat) : Bool :=
  ((c.br.tape.state = 1 || c.br.tape.state = 3) && decide (groups > 1)) || c.sp.pendFrame.isSome

/-- PM of the top entry, for which the JMPI at `pa` is to be issued again. -/
def setTopPm (sp : Split) (pm : BitVec 32) (pa : Nat) : Split :=
  match sp.stack with
  | .dvg e _ _ _ ja gr g fr pp :: l => { sp with stack := .dvg e pm pa true ja gr g fr pp :: l }
  | _ => sp

/-- The first issue of a lane JMPI. The invalid group takes the lowest free number and traps there at once, or joins
PM. -/
def jumpFirst (s : State) (c : Ctx) (f : Form) (arms : List Arm) (inv : BitVec 32) (green : Bool) : Res :=
  match arms with
  | [] => .trap s (badTarget inv)
  | a :: rest =>
    let back := (a :: rest).any (fun x => decide (x.pc < c.sp.pc))
    let turn (s : State) : Res := if back then .jumpTurn s else .jump s
    if inv == 0#32 then turn (divide s c f green none a rest true)
    else
      let invArm : Arm := ⟨inv, c.sp.pc, c.sp.path, true⟩
      let s' := divide s c f green none a (invArm :: rest) true
      match freeSplits c with
      | [] => turn s'
      | n :: _ =>
        let t := badTarget inv
        turn (takeTrap s' c.b { preciseRec s c f t true with split := n })

/-- A JMPI issued again for the pending threads: it pushes nothing (R153). -/
def jumpAgain (s : State) (c : Ctx) (arms : List Arm) (inv : BitVec 32) (green : Bool) : Res :=
  match arms with
  | [] => .trap s (badTarget inv)
  | a :: rest =>
    let pm := rest.foldl (fun m x => m ||| x.mask) inv
    let s' := modSplit s c.b c.k (fun sp => governTop { setTopPm sp pm c.sp.pc with pc := a.pc, mask := a.mask, redisp := false } green)
    if decide (a.pc < c.sp.pc) then .jumpTurn s' else .jump s'

/-! ### Rejoin and unwinding (R154–R156) -/

/-- Takes a split out of a group that it leaves: a leaving owner passes ownership and the part of its stack below the
entry to the lowest-numbered remaining member (R155). `below` is that part, `ja` the JOIN at which it left threads dormant in E
(R156). -/
def leaveGroup (br : Brick) (k g : Nat) (ja : Option Nat) (below : List Entry) : Brick :=
  match tabGet? br.groups g with
  | none => br
  | some grp =>
    let grp := { grp with ja := grp.ja.or ja, order := grp.order.filter (· != k) }
    if grp.owner != k then { br with groups := tabPut br.groups g grp }
    else
      match (groupMembers br g).filter (fun x => x.1 != k) with
      | [] => { br with groups := tabDel br.groups g }
      | (n, sp) :: _ =>
        let upTo := sp.stack.takeWhile (fun e => e.group? != some g)
        let entry := (sp.stack.drop upTo.length).take 1
        { (br.setSplit n { sp with stack := upTo ++ entry ++ below }) with groups := tabPut br.groups g { grp with owner := n } }

/-- A split that retires leaves every group whose entry stands in this part of its stack (R155). -/
def leaveGroups (br : Brick) (k : Nat) : List Entry → Brick
  | [] => br
  | .ret _ _ :: l => leaveGroups br k l
  | .dvg _ _ _ _ ja gr _ _ _ :: l => leaveGroups (match gr with
      | some g => leaveGroup br k g ja l
      | none => br) k l

/-- A split that has retired is no longer marked for an arrival: its number may come again (R269). -/
def Brick.unmark (br : Brick) (k : Nat) : Brick :=
  { br with arrMarks := br.arrMarks.map (fun m => { m with marks := m.marks.filter (· != k) }) }

/-- The number of no split: what still pends for a split that has retired. -/
def noSplit : Nat := 8

/-- A split that has exited retires: what pends for it is no other split's, whichever takes its number (R157). -/
def Brick.orphan (br : Brick) (k : Nat) : Brick :=
  { br with pend := br.pend.map (fun p => { p with owners := p.owners.filter (· != k), writer := if p.writer == k then noSplit else p.writer })
            marks := br.marks.map (fun m => if m.split == k then { m with split := noSplit } else m) }

/-- A member of a completing group retires: its entries below the group's may be of other groups, which it leaves. -/
def retireMember (g : Nat) (br : Brick) (k : Nat) : Brick :=
  match tabGet? br.splits k with
  | none => br
  | some sp => leaveGroups { br.unmark k with splits := tabDel br.splits k } k ((sp.stack.dropWhile (fun e => e.group? != some g)).drop 1)

/-- Completion of a group: the owner continues after its own JOIN with the live threads of E and pops the entry; the
others retire, and what pends for them pends for the owner (R155). `late` says that no JOIN is left to report a tape
divergence (R320). -/
def completeGroup (clk : Nat) (br : Brick) (g : Nat) (late : Bool) : Brick :=
  match tabGet? br.groups g with
  | none => br
  | some grp =>
    let members := (groupMembers br g).map (·.1)
    let br := (members.filter (· != grp.owner)).foldl (retireMember g) br
    match tabGet? br.splits grp.owner with
    | none => br
    | some o =>
      match o.stack with
      | .dvg e _ _ _ _ _ _ frame _ :: l =>
        let bad := (match frame with
          | some i => armsOpen br.tape br.threads i
          | none => false)
        let path := (match frame with
          | some i => parentPath br.tape i o.path
          | none => o.path)
        let tape := (match frame with
          | some i => closeFrame br.tape i
          | none => br.tape)
        let o' := { o with pc := (o.wait.map (·.pc)).getD o.pc + 4, mask := e &&& br.threads, stack := l, wait := none, path := path
                           ready := max o.ready (clk + 1), redisp := false, tapeFault := late && bad }
        let own (k : Nat) : Nat := if members.contains k then grp.owner else k
        { br with splits := tabPut br.splits grp.owner o'
                  groups := tabDel br.groups g
                  tape := tape
                  pend := br.pend.map (fun p => { p with owners := (p.owners.map own).eraseDups, writer := own p.writer, split := own p.split })
                  marks := br.marks.map (fun m => { m with split := own m.split })
                  cur := own br.cur
                  focusSp := own br.focusSp }
      | _ => br

/-- Every member of a group is parked on it. -/
def groupReady (br : Brick) (g : Nat) : Bool :=
  let m := groupMembers br g
  !m.isEmpty && m.all (fun x => parkedOn x.2 g)

/-- The members of a group parked at different JOINs. -/
def groupAddrs (br : Brick) (g : Nat) : List Nat :=
  ((groupMembers br g).filterMap (fun x => x.2.wait.map (·.pc))).eraseDups

/-- What the unwinding of a split leaves (R156): gone, having left a group perhaps, or continuing. -/
inductive Unwound where
  | gone (br : Brick)
  | on (br : Brick) (sp : Split)
  deriving DecidableEq, Repr

/-- Unwinds the stack of split k, which has no thread left. The threads that stay in E reached a JOIN before: the one that this
copy of the entry has closed a path at, or the one of a member that has left (log 108). -/
def unwind (br : Brick) (k : Nat) (sp : Split) : List Entry → Unwound
  | [] => .gone br
  | .ret _ _ :: l => unwind br k sp l
  | .dvg e pm pa rd ja gr g frame pp :: l =>
    if pm &&& br.threads != 0#32 then
      .on br { sp with mask := pm &&& br.threads, pc := pa, redisp := rd, path := pp
                       stack := .dvg e 0 pa rd ja gr g frame pp :: l }
    else if (match gr with
        | some i => br.splits.any (fun x => x.1 != k && holdsGroup x.2 i)
        | none => false) then
      .gone (leaveGroups br k (.dvg e pm pa rd ja gr g frame pp :: l))
    else
      let ja := ja.or (gr.bind (fun i => (tabGet? br.groups i).bind (·.ja)))
      let bad := (match frame with
        | some i => armsOpen br.tape br.threads i
        | none => false)
      let path := (match frame with
        | some i => parentPath br.tape i sp.path
        | none => sp.path)
      let br := { br with tape := (match frame with
                    | some i => closeFrame br.tape i
                    | none => br.tape)
                          groups := (match gr with
                    | some i => tabDel br.groups i
                    | none => br.groups) }
      if e &&& br.threads != 0#32 then
        .on br { sp with mask := e &&& br.threads, pc := ja.getD 0 + 4, redisp := false, path := path, stack := l, tapeFault := bad }
      else unwind br k { sp with path := path } l

/-- The member of a group that parked last, of those that are still in it (R155). -/
def parkedLast (br : Brick) (g : Nat) : Option Nat :=
  (tabGet? br.groups g).bind (fun x => (x.order.filter (fun k => (tabGet? br.splits k).any (fun sp => parkedOn sp g))).getLast?)

/-- Groups that an exit has completed: they merge, unless their members stand at different JOINs, when the one that
parked last traps with cause 0x00A (R155). -/
def settleGroups (s : State) (b : Nat) : List Nat → State
  | [] => s
  | g :: gs =>
    match tabGet? s.bricks b with
    | none => s
    | some br =>
      if groupReady br g then
        (match groupAddrs br g, parkedLast br g with
         | _ :: _ :: _, some k =>
           (match tabGet? br.splits k with
            | some sp =>
              let pc := (sp.wait.map (·.pc)).getD sp.pc
              let r : TrapRec :=
                { cycle := s.clk, cause := 0x00A#9, two := false, prec := true, more := false, fatal := false, reg := 0, split := k
                  count := (threadsOf sp.mask).length, thread := lowThread sp.mask, addr := pc, mask := sp.mask, aux0 := 0, aux1 := 0
                  ret := pc }
              settleGroups (takeTrap (modSplit s b k (fun sp => { sp with wait := none, pc := pc })) b r) b gs
            | none => settleGroups s b gs)
         | _, _ => settleGroups (modBrick s b (fun br => completeGroup s.clk br g true)) b gs)
      else settleGroups s b gs

/-- JOIN on a divergence entry (R154). -/
def joinTop (s : State) (c : Ctx) (e pm : BitVec 32) (pa : Nat) (rd : Bool) (gr : Option Nat) (gov : Bool) (frame : Option Nat)
    (pp : Nat) (l : List Entry) : Res :=
  let live := c.br.threads
  let pc := c.sp.pc
  if pm &&& live != 0#32 then
    .jump (modSplit s c.b c.k (fun sp =>
      { sp with mask := pm &&& live, pc := pa, redisp := rd, path := pp, stack := .dvg e 0 pa rd (some pc) gr gov frame pp :: l }))
  else
    let openArms := (match frame with
      | some i => armsOpen c.br.tape live i
      | none => false)
    match gr with
    | none =>
      if openArms then .trap s (trapOf c 0x144#9)
      else .jump (modBrick s c.b (fun br =>
        { (br.setSplit c.k { c.sp with mask := e &&& live, pc := pc + 4, stack := l, redisp := false
                                       path := (match frame with
                                         | some i => parentPath br.tape i c.sp.path
                                         | none => c.sp.path) }) with
          tape := (match frame with
            | some i => closeFrame br.tape i
            | none => br.tape) }))
    | some g =>
      let parked := c.br.setSplit c.k { c.sp with stack := .dvg e 0 pa rd (some pc) gr gov frame pp :: l, wait := some ⟨.join g, none, pc, false, true⟩ }
      let parked := { parked with groups := tabMod parked.groups g (fun x => { x with order := x.order.filter (· != c.k) ++ [c.k] }) }
      if groupReady parked g then
        (if (groupAddrs parked g).length > 1 then .trap s (trapOf c 0x00A#9)
         else if openArms then .trap s (trapOf c 0x144#9)
         else .jump (setBrick s c.b (completeGroup s.clk parked g false)))
      else .jump (setBrick s c.b parked)

/-- Branches the split to a relative target (R163). -/
def execBra (off : BitVec 15) (st : BitVec 3) (s : State) :
    Host.Outcome State Fault Refusal :=
  let f := bareForm false false st .vec
  issueForm s f (fun c =>
    let t := targetOf c.sp.pc off
    let s' := modSplit s c.b c.k (fun sp => { sp with pc := t })
    if decide (t < c.sp.pc) then .jumpTurn s' else .jump s')

/-- Branches when a uniform register is zero or non-zero (R163). -/
def execBrc (z : Bool) (a : BitVec 5) (off : BitVec 15) (st : BitVec 3) (s : State) :
    Host.Outcome State Fault Refusal :=
  let r : Reg := a.setWidth 6
  let f := { bareForm false false st .vec with unis := [r.toNat], rd := [nUni r] }
  issueForm s f (fun c =>
    let t := targetOf c.sp.pc off
    let taken := (c.u r == 0#64) == z
    let s' := modSplit s c.b c.k (fun sp => { governTop sp (c.uG r) with pc := (if taken then t else c.sp.pc + 4) })
    if taken && decide (t < c.sp.pc) then .jumpTurn s' else .jump s')

/-- Branches per thread on a mask bit, pushing a divergence entry and creating splits (R152). -/
def execBrl (neg : Bool) (m : BitVec 3) (off : BitVec 15) (st : BitVec 3) (s : State) :
    Host.Outcome State Fault Refusal :=
  let f := { bareForm false false st .vec with rd := [nMsk m] }
  issueForm s f (fun c =>
    let taken := maskOf (c.ts.filter (fun t => mbit (c.m m).v t 0 != neg))
    let green := c.ts.any (fun t => mbit (c.m m).g t 0)
    if c.sp.stack.length ≥ 16 then .trap s (trapOf c 0x008#9)
    else branchLanes s c f taken (targetOf c.sp.pc off) green)

/-- Pushes a return entry and branches to the target (R165). -/
def execCall (off : BitVec 15) (st : BitVec 3) (s : State) :
    Host.Outcome State Fault Refusal :=
  let f := bareForm false false st .vec
  issueForm s f (fun c =>
    if c.sp.stack.length ≥ 16 then .trap s (trapOf c 0x008#9)
    else .jump (modSplit s c.b c.k (fun sp =>
      { sp with pc := targetOf c.sp.pc off, stack := .ret (c.sp.pc + 4) false :: sp.stack })))

/-- Pops a return entry and branches to its address (R165). -/
def execRet (st : BitVec 3) (s : State) :
    Host.Outcome State Fault Refusal :=
  let f := bareForm false false st .vec
  issueForm s f (fun c =>
    match c.sp.stack with
    | .ret ra _ :: l => .jump (modSplit s c.b c.k (fun sp => { sp with pc := ra, stack := l }))
    | _ => .trap s (trapOf c 0x009#9))

/-- Closes the top divergence entry, re-dispatching, popping or parking the split (R154). -/
def execJoin (st : BitVec 3) (s : State) :
    Host.Outcome State Fault Refusal :=
  let f := bareForm false false st .vec
  issueForm s f (fun c =>
    match c.sp.stack with
    | .dvg e pm pa rd ja gr g fr pp :: l =>
      if (match ja with
          | some x => x != c.sp.pc
          | none => false) then .trap s (trapOf c 0x00A#9)
      else joinTop s c e pm pa rd gr g fr pp l
    | _ => .trap s (trapOf c 0x009#9))

/-- Acts only as a switch point between splits (R166). -/
def execYield (st : BitVec 3) (s : State) :
    Host.Outcome State Fault Refusal :=
  issueForm s (bareForm false false st .vec) (fun _ => .doneTurn s)

/-- Marks a valid indirect target and otherwise does nothing (R164). -/
def execLand (st : BitVec 3) (s : State) :
    Host.Outcome State Fault Refusal :=
  issueForm s (bareForm false false st .vec) (fun _ => .done s)

/-- Has no effect beyond its stall count (R358). -/
def execNop (st : BitVec 3) (s : State) :
    Host.Outcome State Fault Refusal :=
  issueForm s (bareForm false false st .vec) (fun _ => .done s)

/-- Jumps the whole split to the address in a uniform register (R164). -/
def execJmpiUniform (a : Reg) (st : BitVec 3) (s : State) :
    Host.Outcome State Fault Refusal :=
  let f := { bareForm false false st .vec with unis := [a.toNat], rd := [nUni a] }
  issueForm s f (fun c =>
    match landing s c (c.u a) with
    | (s, .ok) =>
      let s' := modSplit s c.b c.k (fun sp => { governTop sp (c.uG a) with pc := (c.u a).toNat })
      if decide ((c.u a).toNat < c.sp.pc) then .jumpTurn s' else .jump s'
    | (s, .bad) => .trap s (badTarget c.sp.mask)
    | (s, .cause x) => .trap s (trapAux c x (c.u a))
    | (s, .held) => .stay (holdForm s c)
    | (s, .fault) => .stay (brickFault s c kExec (c.u a).toNat))

/-- Jumps each thread to the address in its lane register, sorting threads into splits (R152, R153). -/
def execJmpiLane (a : Reg) (st : BitVec 3) (s : State) :
    Host.Outcome State Fault Refusal :=
  let f := { bareForm false false st .vec with lanes := [a.toNat], rd := [nLane a], chk := [chkBoth a] }
  issueForm s f (fun c =>
    if !c.sp.redisp && decide (c.sp.stack.length ≥ 16) then .trap s (trapOf c 0x008#9)
    else
    let (s, l) := laneTargets s c a c.ts
    match l.find? (fun x => x.2.2 == .fault) with
    | some x => .stay (brickFault s c kExec x.2.1)
    | none =>
      if l.any (fun x => x.2.2 == .held) then .stay (holdForm s c)
      else match l.find? (fun x => x.2.2 != .ok && x.2.2 != .bad) with
      | some (t, v, .cause x) => .trap s (trapThread x t 1 (BitVec.ofNat 64 v))
      | _ =>
        let (arms, inv) := jumpGroups c l
        let green := c.ts.any (fun t => c.wG a t)
        if jumpTapeBad c (arms.length + (if inv == 0#32 then 0 else 1)) then .trap s (trapOf c 0x144#9)
        else if c.sp.redisp then jumpAgain s c arms inv green
        else jumpFirst s c f arms inv green)

/-- Writes the issuing split's state word (R167). DESIGN CHOICE (log 130): a handler's split, which has no number, gives 0. -/
def execSplitq (d : Reg) (st : BitVec 3) (s : State) :
    Host.Outcome State Fault Refusal :=
  let f := uniForm false st [] d
  issueForm s f (fun c =>
    let live := (List.range 4).foldl (fun n k => if (tabGet? c.br.splits k).isSome then n + 2 ^ (4 + k) else n) 0
    let v := c.sp.mask.toNat * 2 ^ 32 + (if c.sp.redisp then 2 ^ 14 else 0) + (if c.gov then 2 ^ 13 else 0) +
      c.sp.stack.length * 2 ^ 8 + live + c.k % 4
    atOnce s c [c.putU d (BitVec.ofNat 64 v) false])

end Sys2Proof.Machine
end

