-- ==== Sys2Proof/Machine/Objects.lean ====
section
/-!
DEFINITION. Synchronisation objects: how a form names one (R266, R267), and what happens at a barrier, a semaphore and
a hod (R268–R282), whoever causes it: an issuing split, a commit, a kill or an exit.
-/
namespace Sys2Proof.Machine

/-! ### Naming an object -/

/-- What a name resolves to: the object and whether it was named with REM. -/
inductive ObjRes where
  | ok (o : ObjRef) (remote : Bool)
  | bad
  deriving DecidableEq, Repr

/-- Fields of the descriptor of R267. -/
def descRem (v : W64) : Bool := v.getLsbD 12
def descObj (v : W64) : Nat := v.toNat % 2 ^ 12
def descCore (v : W64) : Nat := v.toNat / 2 ^ 13 % 4
def descWall (v : W64) : Nat := v.toNat / 2 ^ 16 % 2 ^ 32
/-- A reserved bit of the descriptor is set. -/
def descBad (v : W64) : Bool :=
  v.toNat / 2 ^ 48 != 0 || v.getLsbD 15 || (!descRem v && (descCore v != 0 || descWall v != 0))

/-- The place of a level's network for a core (R10, R266). -/
def netPlace (sp : Scope) (core : Nat) : Nat :=
  match sp with
  | .quad => quadOfCore core
  | .die => dieOfCore core
  | _ => 0

def scopeCode : Scope → Nat
  | .lane => 0 | .core => 1 | .quad => 2 | .die => 3 | .pkg => 4 | .pod => 5

def netKey (sp : Scope) (place k : Nat) : Nat := scopeCode sp * 2 ^ 16 + place * 64 + k
/-- The wall of the brick's launch with an identifier, resident on a core (R267). -/
def residentWall (s : State) (launch core wid : Nat) : Option Nat :=
  (s.walls.find? (fun x => x.2.launch == launch && x.2.wid == wid && x.2.core == core && !x.2.ended)).map (·.1)

/-- The wall and number that a core barrier or hod form names. -/
def wallName {n : Nat} (s : State) (c : Ctx) (a : Reg) (k : BitVec n) : Option (Nat × Nat × Bool) :=
  if a = 0#6 then some (c.br.wall, k.toNat, false)
  else
    let v := c.u a
    if descBad v then none
    else if descRem v then
      (residentWall s c.br.launch (quadOfCore c.br.core * 4 + descCore v) (descWall v)).map (fun w => (w, descObj v, true))
    else some (c.br.wall, descObj v, false)

/-- The number that a network barrier or semaphore form names; REM is not for them. -/
def flatName {n : Nat} (c : Ctx) (a : Reg) (k : BitVec n) : Option Nat :=
  if a = 0#6 then some k.toNat
  else if descBad (c.u a) || descRem (c.u a) then none
  else some (descObj (c.u a))

/-- The barrier that a form names. -/
def barName {n : Nat} (s : State) (c : Ctx) (a : Reg) (k : BitVec n) (sp : Scope) : ObjRes :=
  if sp == .core then
    match wallName s c a k with
    | none => .bad
    | some (w, i, rem) =>
      (match tabGet? s.walls w with
       | some wl => if (tabGet? wl.bars i).isSome then .ok (.coreBar w i) rem else .bad
       | none => .bad)
  else
    match flatName c a k with
    | none => .bad
    | some i =>
      (match launchOf s c.br with
       | some l =>
         if l.nets.any (fun e => e.sp == sp && e.k == i) then .ok (.netBar sp (netPlace sp c.br.core) i) false else .bad
       | none => .bad)

/-- The semaphore that a form names: one of the brick's own die that the launch holds (R275). -/
def semName {n : Nat} (s : State) (c : Ctx) (a : Reg) (k : BitVec n) : ObjRes :=
  match flatName c a k, launchOf s c.br with
  | some i, some l => if decide (l.semb ≤ i) && decide (i < l.semb + l.nsem) then .ok (.sem (dieOfCore c.br.core) i) false else .bad
  | _, _ => .bad

/-- The hod that a form names. -/
def hodName {n : Nat} (s : State) (c : Ctx) (a : Reg) (k : BitVec n) : ObjRes :=
  match wallName s c a k with
  | none => .bad
  | some (w, i, rem) =>
    (match tabGet? s.walls w with
     | some wl => if (tabGet? wl.hods i).isSome then .ok (.hod w i) rem else .bad
     | none => .bad)

/-- Whether a status that names an object by register is green (R267). -/
def nameG (c : Ctx) (a : Reg) : Bool := c.gov || numG c a

/-! ### Objects in the state -/

def barAt (s : State) : ObjRef → Barrier
  | .coreBar w k => (match tabGet? s.walls w with
    | some wl => tabGetD wl.bars k (Barrier.start 0)
    | none => Barrier.start 0)
  | .netBar sp place k => tabGetD s.nets (netKey sp place k) (Barrier.start 0)
  | _ => Barrier.start 0

def putBar (s : State) (o : ObjRef) (x : Barrier) : State :=
  match o with
  | .coreBar w k => modWall s w (fun wl => { wl with bars := tabPut wl.bars k x })
  | .netBar sp place k => { s with nets := tabPut s.nets (netKey sp place k) x }
  | _ => s

def putHod (s : State) (o : ObjRef) (x : Hod) : State :=
  match o with
  | .hod w k => modWall s w (fun wl => { wl with hods := tabPut wl.hods k x })
  | _ => s

/-- Changes every brick. -/
def mapBricks (s : State) (f : Nat → Brick → Brick) : State := { s with bricks := s.bricks.map (fun x => (x.1, f x.1 x.2)) }

/-- Changes what every split of a brick waits for. -/
def mapWaits (br : Brick) (f : WaitOp → WaitOp) : Brick :=
  { br with splits := br.splits.map (fun x => (x.1, { x.2 with wait := x.2.wait.map (fun w => { w with op := f w.op }) })) }

/-- A served status: a wait whose status register is s0 ends in the cause instead (R273, R279). -/
def served (status : BitVec 9) (d : Nat) (v : W64) (g : Bool) : WaitOp :=
  if status != 0#9 && d == 0 then .fail status else .give d v g

/-! ### Writes still to be performed -/

/-- The operations that write memory for the brick itself (R253). -/
def FlightKind.isWrite : FlightKind → Bool
  | .store _ _ => true
  | .atom _ _ _ _ _ _ => true
  | .aon _ _ _ _ _ _ _ _ => true
  | .tst _ _ _ => true
  | .tcom _ _ _ => true
  | .retr _ _ _ => true
  | .accwb => true
  | _ => false

/-- Every write that the brick issued before an operation number is performed. -/
def writesDone (br : Brick) (upTo : Nat) : Bool :=
  br.flights.all (fun f => decide (f.seq ≥ upTo) || f.done || !f.kind.isWrite)

/-- Every access on fc0 to fc2 that the brick issued before an operation number has completed (R260). -/
def accessesDone (br : Brick) (upTo : Nat) : Bool :=
  br.flights.all (fun f => decide (f.seq ≥ upTo) || f.done || !(f.fc == some 0 || f.fc == some 1 || f.fc == some 2))

/-! ### Barriers (R268–R274) -/

/-- What the copies of a barrier hold. -/
def Barrier.word (x : Barrier) : BarWord := ⟨x.e, x.a, x.p, x.ab⟩

/-- Where a barrier stands, for the log: die, core, number (log 109). -/
def barPlace (s : State) : ObjRef → Nat × Option Nat × Nat
  | .coreBar w k => (match tabGet? s.walls w with
    | some wl => (wl.die, some wl.core, k)
    | none => (0, none, k))
  | .netBar sp place k => (if sp == .quad then place / 8 else if sp == .die then place else 0, none, k)
  | _ => (0, none, 0)

/-- Reads a barrier's three copies (R268): a copy that differs is rewritten and logged, three that all differ poison the barrier. -/
def voteBar (s : State) (o : ObjRef) : State :=
  let x := barAt s o
  if x.odd.isEmpty then s
  else
    let (die, core, k) := barPlace s o
    match majority (tripleOf x.word x.odd) with
    | some w => logAdd (putBar s o { x with e := w.e, a := w.a, p := w.p, ab := w.ab, odd := [] }) die 1 7 core k
    | none => logAdd (putBar s o { x with psn := true, odd := [] }) die 5 7 core k

/-- What a barrier does to a wait on it whose phase meets a condition. A deterministic wait whose arrival is still buffered is not
parked on it: it is answered when it is evaluated (R299); `cleared` of the brick's arrivals there have just been cleared. -/
def releaseWait (o : ObjRef) (sel : Option Nat → Bool) (cleared : Nat) (status : BitVec 9) (w : Wait) : Wait :=
  match w.op with
  | .barWait o' ph n d g =>
    if o' != o then w
    else if sel ph && (w.sync.isNone || ph.isSome || (n != 0 && decide (n ≤ cleared))) then
      { w with op := served status d (status.setWidth 64) g }
    else { w with op := .barWait o' ph (n - cleared) d g }
  | _ => w

/-- Releases the splits parked on a barrier whose phase meets a condition. A wait of a saved wall is withdrawn (R283). -/
def releaseBar (s : State) (o : ObjRef) (sel : Option Nat → Bool) (cleared : Brick → Nat) (status : BitVec 9) : State :=
  mapBricks s (fun _ br =>
    { br with splits := br.splits.map (fun x => (x.1, { x.2 with wait := x.2.wait.map (fun w =>
        if w.sync.isNone && savedBrick s br then w else releaseWait o sel (cleared br) status w) })) })

/-- A phase completes (R270). -/
def completePhase (s : State) (o : ObjRef) : State :=
  let x := barAt s o
  releaseBar (putBar s o { x with p := !x.p, a := 0, arrived := [], e := x.e - x.exits, exits := 0, phase := x.phase + 1 }) o
    (fun ph => ph == some x.phase) (fun _ => 0) 0x000#9

/-- A phase that has all its arrivals completes. -/
def tryComplete (s : State) (o : ObjRef) : State :=
  let x := barAt s o
  if !x.ab && decide (x.a ≥ x.e) then completePhase s o else s

/-- A barrier becomes abandoned (R271). -/
def abandon (s : State) (o : ObjRef) : State :=
  releaseBar (putBar s o { barAt s o with ab := true }) o (fun _ => true) (fun _ => 0) 0x100#9

/-- An arrival of a deterministic launch that is committed and waits for a phase that counts it (R269). -/
def Flight.waitsAt (f : Flight) (o : ObjRef) : Bool :=
  !f.done && f.tEnd.isNone && (match f.kind with
    | .barArr o' _ => o' == o
    | _ => false)

/-- The same at any barrier. -/
def Flight.waitsPhase (f : Flight) : Bool :=
  match f.kind with
  | .barArr o _ => f.waitsAt o
  | _ => false

/-- The brick's arrivals at a barrier that have issued and are not counted. -/
def Brick.ahead (br : Brick) (o : ObjRef) : Nat :=
  (br.arrMarks.filter (fun m => m.bar == o)).length + (br.flights.filter (fun f => !f.done && (match f.kind with
    | .barArr o' _ => o' == o
    | _ => false))).length

/-- BAR.INIT takes effect (R273): the arrivals that have reached the barrier and are not counted are cleared with the members and
the marks. -/
def initBar (s : State) (o : ObjRef) (e : Nat) : State :=
  let x := barAt s o
  let s := putBar s o { x with e := e, a := 0, ab := false, members := [], arrived := [], exits := 0, psn := false, odd := [] }
  let s := releaseBar s o (fun _ => true) (fun br => (br.flights.filter (fun f => f.waitsAt o)).length) 0x100#9
  mapBricks s (fun _ br =>
    { br with arrMarks := (if br.det then br.arrMarks else br.arrMarks.filter (fun m => m.bar != o))
              lastArr := br.lastArr.filter (fun m => m.1 != o)
              flights := dropDone (br.flights.map (fun f => if f.waitsAt o then { f with done := true } else f)) [] })

/-- Marks a split for an arrival (R269). -/
def markArrival (br : Brick) (o : ObjRef) (k pc : Nat) (cum : Bool) : Brick :=
  match br.arrMarks.find? (fun m => m.bar == o && !m.marks.contains k) with
  | some m =>
    { br with arrMarks := br.arrMarks.map (fun x =>
        if x == m then { x with marks := k :: x.marks, upTo := br.seq, pc := pc, split := k, cum := x.cum || cum } else x) }
  | none => { br with arrMarks := br.arrMarks ++ [⟨o, [k], br.seq, pc, k, cum⟩] }

/-- The split is about to leave the brick with its last threads. -/
def Split.exiting (sp : Split) : Bool := sp.wait.any (fun w => w.op == .exit)

/-- Every live split of the brick is marked; the trap slot's split and one that is exiting are not asked for. -/
def ArrMark.full (br : Brick) (m : ArrMark) : Bool :=
  br.splits.all (fun x => x.1 == handlerSplit || m.marks.contains x.1 || x.2.exiting)

/-- An arrival of a deterministic launch that has all its marks is buffered (R282). -/
def bufferMark (T : Nat) (br : Brick) (m : ArrMark) : Brick :=
  if m.full br then
    addFlight { br with arrMarks := br.arrMarks.erase m }
      (fun seq ord => { seq := seq, fc := none, ord := ord, split := m.split, pc := m.pc, two := false, due := 0, tEnd := some T
                        done := false, kind := .barArr m.bar m.cum })
  else br

def bufferMarks (T : Nat) (br : Brick) : Brick := br.arrMarks.foldl (bufferMark T) br

/-- The barrier's wall is saved: a remote arrival is held until it is restored (R272). -/
def barAway (s : State) : ObjRef → Bool
  | .coreBar w _ => (match tabGet? s.walls w with
    | some wl => wl.saved
    | none => true)
  | _ => false

/-- What an arrival of the brick leaves of its waits there: the phase that has counted it, or none at an abandoned barrier. -/
def passArrival (o : ObjRef) (ph : Option Nat) (br : Brick) : Brick :=
  mapWaits br (fun w =>
    match w with
    | .barWait o' none n d g => if o' == o && n != 0 then .barWait o (if n = 1 then ph else none) (n - 1) d g else w
    | _ => w)

/-- The arrival of brick b is counted (R269); an abandoned barrier counts nothing (R271). -/
def countArrival (s : State) (b : Nat) (o : ObjRef) : State :=
  let s := voteBar s o
  let x := barAt s o
  if x.ab then modBrick s b (passArrival o none)
  else
    let s := putBar s o { x with a := x.a + 1, arrived := b :: x.arrived
                                 members := (if x.members.contains b then x.members else b :: x.members) }
    let s := modBrick s b (fun br => passArrival o (some x.phase) { br with lastArr := (o, x.phase) :: br.lastArr.filter (fun m => m.1 != o) })
    tryComplete s o

/-- A barrier takes an arrival of brick b now. -/
def arrivalOpen (s : State) (b : Nat) (o : ObjRef) : Bool :=
  let x := barAt s o
  x.ab || !x.arrived.contains b

/-- A brick's arrivals that have all their marks, in order, as far as they can be counted in the current phases. -/
def countMarks (s : State) (b : Nat) : List ArrMark → State
  | [] => s
  | m :: l =>
    match tabGet? s.bricks b with
    | none => s
    | some br =>
      if m.full br && writesDone br m.upTo && !barAway s m.bar && arrivalOpen s b m.bar then
        countMarks (countArrival (modBrick s b (fun br => { br with arrMarks := br.arrMarks.erase m })) b m.bar) b l
      else countMarks s b l

/-- A member brick exits (R270). -/
def exitBar (s : State) (b : Nat) (o : ObjRef) : State :=
  let s := voteBar s o
  let x := barAt s o
  if !x.members.contains b then s
  else if x.arrived.contains b then putBar s o { x with members := x.members.filter (· != b), exits := x.exits + 1 }
  else tryComplete (putBar s o { x with members := x.members.filter (· != b), e := x.e - 1 }) o

/-- A brick lies within the scope of a barrier (R251). -/
def inScope (s : State) (o : ObjRef) (br : Brick) : Bool :=
  match o with
  | .coreBar w _ => (match tabGet? s.walls w with
    | some wl => br.core == wl.core
    | none => false)
  | .netBar sp place _ => netPlace sp br.core == place
  | _ => false

/-- A brick is killed, as a barrier sees it (R271). `launch` is the brick's. DESIGN CHOICE (log 116): the live bricks that could still
arrive are counted on this module alone, also for a .pod barrier, whose E may count bricks of other modules (R9). -/
def killBar (s : State) (b launch : Nat) (o : ObjRef) : State :=
  let s := voteBar s o
  let x := barAt s o
  let left := (s.bricks.filter (fun y => y.1 != b && y.2.launch == launch && !y.2.killed && y.2.threads != 0#32 &&
    !x.arrived.contains y.1 && inScope s o y.2)).length
  if x.ab then s
  else if x.members.contains b || decide (left < x.e - x.a) then abandon s o
  else s

/-- The barriers that a brick may be a member of: those of its launch's walls and networks. -/
def barsOf (s : State) (launch : Nat) : List ObjRef :=
  (s.walls.filter (fun w => w.2.launch == launch && !w.2.ended)).flatMap (fun w => w.2.bars.map (fun x => ObjRef.coreBar w.1 x.1)) ++
  (match tabGet? s.launches launch with
   | some l => l.nets.flatMap (fun e => (s.nets.filter (fun x => x.1 / 2 ^ 16 == scopeCode e.sp && x.1 % 64 == e.k)).map
       (fun x => ObjRef.netBar e.sp (x.1 % 2 ^ 16 / 64) e.k))
   | none => [])

/-- The status word of BAR.Q (R274). -/
def barWord (x : Barrier) (b : Nat) : W64 :=
  BitVec.ofNat 64 ((if x.ab then 0x100 * 2 ^ 55 else 0) + (if x.p then 2 ^ 54 else 0) + (if x.arrived.contains b then 2 ^ 53 else 0) +
    (if x.members.contains b then 2 ^ 52 else 0) + x.a % 2 ^ 26 * 2 ^ 26 + x.e % 2 ^ 26)

/-! ### Hods (R277–R281) -/

/-- Slots that are ready to take, starting at the head. -/
def Hod.readyFrom (h : Hod) : Nat → Nat → Nat
  | 0, _ => 0
  | n + 1, i => if h.filled.contains i then h.readyFrom n (i + 1) + 1 else 0
/-- C of R277. -/
def Hod.c (h : Hod) : Nat := h.readyFrom (h.tail - h.head) h.head
def Hod.reserved (h : Hod) : Nat := h.tail - h.head - h.c
def Hod.room (h : Hod) : Bool := decide (h.reserved + h.c + h.heldBy.length < h.n)

/-- The word of HOD.GET for a slot taken (R279). -/
def hodWord (h : Hod) (seqNo : Nat) : W64 :=
  BitVec.ofNat 64 (seqNo / h.n % 2 * 2 ^ 40 + seqNo % h.n * 2 ^ 32 + (h.off + seqNo % h.n * h.s))
/-- Status 0x102: closed and empty. -/
def hodClosedWord : W64 := BitVec.ofNat 64 (0x102 * 2 ^ 55)
def hodEmptyWord : W64 := BitVec.ofNat 64 (2 ^ 54)

/-- Takes the head slot: a brick holds at most one slot of a hod, so that the one it holds is free (R279). -/
def takeHead (s : State) (o : ObjRef) (b : Nat) : State × W64 :=
  let h := hodAt s o
  (putHod s o { h with head := h.head + 1, filled := h.filled.filter (· != h.head), heldBy := h.heldBy.filter (fun x => x.1 != b) ++ [(b, h.head)] },
    hodWord h h.head)

/-- Takes the head slot, whose lines are read through their checks: with a poisoned one nothing is taken (R362). -/
def takeSlot (s : State) (o : ObjRef) (b : Nat) : State × Except Loc W64 :=
  let at_ := hodSlotLoc s o (hodAt s o).head
  match checkLines s ((List.range ((hodAt s o).s / 64)).map (fun i => at_.add (64 * i))) with
  | (s, l :: _) => (s, .error l)
  | (s, []) => ((takeHead s o b).1, .ok (takeHead s o b).2)

/-- Reserves the slot at the tail (R278). -/
def reserveSlot (s : State) (o : ObjRef) : State × Nat :=
  let h := hodAt s o
  (putHod s o { h with tail := h.tail + 1 }, h.tail)

/-- A fill gets its slot, and its end time. -/
def giveSlot (s : State) (b seq n : Nat) (tEnd : Option Nat) : State :=
  modBrick s b (fun br => { br with flights := br.flights.map (fun f =>
    match f.kind with
    | .hodPut o _ src g => if f.seq == seq then { f with kind := .hodPut o (some n) src g, tEnd := tEnd } else f
    | _ => f) })

/-- Parked consumers take slots in the order in which they parked; once a closed hod has nothing left they end with status 0x102
(R279, R280). One of a deterministic launch is evaluated at its own time (R299). -/
def serveCons (o : ObjRef) : List (Nat × Nat) → State → State
  | [], s => s
  | (b, k) :: l, s =>
    let h := hodAt s o
    match waitOf s b k with
    | some ⟨.hodGet _ d g _, none, _, _, _⟩ =>
      if h.c ≥ 1 then
        match takeSlot (putHod s o { h with cons := l }) o b with
        | (s, .ok v) => serveCons o l (setOp s b k (.give d v g))
        | (s, .error x) => serveCons o l (setOp s b k (.lost x))
      else if h.closed && h.reserved = 0 then
        serveCons o l (setOp (putHod s o { h with cons := l }) b k (served 0x102#9 d hodClosedWord g))
      else s
    | _ => s

/-- Parked producers get slots in order while there is room; when the hod is closed they end with cause 0x102 (R278). -/
def serveProds (o : ObjRef) : List (Nat × Nat) → State → State
  | [], s => s
  | (b, k) :: l, s =>
    let h := hodAt s o
    match waitOf s b k with
    | some ⟨.hodPut _ seq, none, _, _, _⟩ =>
      if h.closed then
        serveProds o l (setOp (modBrick (putHod s o { h with prods := l }) b (fun br => finishFlight br seq)) b k (.fail 0x102#9))
      else if h.room then
        let (s, n) := reserveSlot (putHod s o { h with prods := l }) o
        serveProds o l (setOp (giveSlot s b seq n none) b k (.give 0 0 false))
      else s
    | _ => s

/-- What is parked on a hod goes on as far as it can. -/
def serveHod (s : State) (o : ObjRef) : State :=
  let s := serveCons o (hodAt s o).cons s
  serveProds o (hodAt s o).prods s

/-- The slot that a brick holds on a hod. -/
def Hod.heldSlot (h : Hod) (b : Nat) : Option Nat := (h.heldBy.find? (fun x => x.1 == b)).map (·.2)

/-- Frees the slot that a brick holds. -/
def freeHeld (s : State) (o : ObjRef) (b : Nat) : State :=
  let h := hodAt s o
  serveHod (putHod s o { h with heldBy := h.heldBy.filter (fun x => x.1 != b) }) o

/-- A fill is performed: the slot is written and C may rise. -/
def fillSlot (s : State) (o : ObjRef) (seqNo : Nat) (lines : List (List Byte × Bool)) : State :=
  let s := writeSlot s (hodSlotLoc s o seqNo) lines
  let h := hodAt s o
  serveHod (putHod s o { h with filled := seqNo :: h.filled }) o

/-- The hod's wall is saved: a fill of it is held until it is restored (R283). -/
def hodAway (s : State) : ObjRef → Bool
  | .hod w _ => (tabGet? s.walls w).any (·.saved)
  | _ => false

end Sys2Proof.Machine
end

