-- ==== Sys2Proof/Machine/Sync.lean ====
section
/-!
DEFINITION. Fences, waits on flight counters, bindings (R199, R252–R262), barriers, semaphores and hods as an issuing split
uses them (R266–R285).
-/
namespace Sys2Proof.Machine

/-- A uniform form that reads some uniform registers and may write one. -/
def syncForm (two : Bool) (st : BitVec 3) (reads : List Reg) (d : Option Reg) : Form :=
  { bareForm two false st .vec with
    unis := (d.toList ++ reads).map BitVec.toNat
    rd := reads.map nUni
    wr := d.toList.map nUni }

/-- Physical number of a destination. -/
def Ctx.pu (c : Ctx) (d : Reg) : Nat := physReg c.k d.toNat

/-- Writes an interlocked uniform destination at once (R100). -/
def giveNow (s : State) (c : Ctx) (d : Reg) (v : W64) (g : Bool) : Res :=
  .done (modBrick s c.b (fun br => applyWrite br (.uni (c.pu d) v (c.gov || g))))

/-- The trap of an object that a form may not name (R267). -/
def badObject (s : State) (c : Ctx) : Res := .trap s (trapOf c 0x105#9)

/-- Buffers a form of a deterministic launch (R259, R282). -/
def bufferForm (s : State) (c : Ctx) (f : Form) (kind : FlightKind) : Res :=
  .done (pushFlight s c f none (bufferEnd s c) none kind)

/-! ### Fences and flight counters -/

/-- Orders the brick's accesses around one point as acquire, release or both (R260). -/
def execFence (cum : Bool) (kind : BitVec 2) (_sp : Scope) (st : BitVec 3) (s : State) :
    Host.Outcome State Fault Refusal :=
  issueForm s (bareForm false false st .vec) (fun c =>
    let acq := kind.getLsbD 0
    let rel := kind.getLsbD 1
    if c.br.det then .done s
    else
      let upTo := c.br.seq
      let s := if acq then modBrick s c.b (fun br => { br with acqs := br.acqs ++ [upTo] }) else s
      if !rel then .done s
      else if accessesDone c.br upTo then .done (modBrick s c.b (fun br => { br with cumRel := br.cumRel || cum }))
      else .park s (.fence upTo cum) none)

/-- Clears the marks of the loads that a WAIT covers (R199, R200). -/
def coverMarks (br : Brick) (n upTo : Nat) : Brick :=
  { br with marks := br.marks.filter (fun m => !(m.fc == n && decide (m.ord ≤ upTo))) }

/-- The WAIT covers an operation that completes only at or after the commit of a course that has not ended (R199): a fill that has
no slot yet is one. -/
def coversUncommitted (br : Brick) (n upTo : Nat) : Bool :=
  br.flights.any (fun f => f.fc == some n && decide (f.ord ≤ upTo) && !f.done &&
    (match f.tEnd, f.kind with
     | some T, _ => decide (T > br.L)
     | none, .hodPut _ none _ _ => true
     | none, .copyWait _ => true
     | _, _ => false))

/-- Parks the split until a flight counter falls to the threshold (R199). -/
def execWait (n : BitVec 3) (a : Reg) (k : BitVec 5) (st : BitVec 3) (s : State) :
    Host.Outcome State Fault Refusal :=
  let f := syncForm false st [a] none
  issueForm s f (fun c =>
    let fc := n.toNat
    let t := numOf c a k
    let upTo := issuedOn c.br fc - t
    if c.br.det && coversUncommitted c.br fc upTo then
      (if c.inHandler then .trap s (trapOf c 0x108#9)
       else .parkCounted (modBrick s c.b (fun br => { br with L := courseEndOf (qOf s br) br.L })) (.fc fc t upTo))
    else if decide (fcValue c.br fc ≤ t) then .done (modBrick s c.b (fun br => coverMarks br fc upTo))
    else .park s (.fc fc t upTo) none)

/-! ### Bindings -/

/-- The scope that a code names (R63). -/
def scopeOf (code : Nat) : Scope :=
  match code with
  | 1 => .core | 2 => .quad | 3 => .die | 4 => .pkg | 5 => .pod | _ => .lane

/-- A binding descriptor within the table of R261: reserved bits, KIND, OBJ, SCOPE and LEN. -/
def descFits (v : W64) : Bool :=
  let sc := v.toNat / 2 ^ 48 % 8
  let obj := v.toNat / 2 ^ 32 % 2 ^ 12
  let len := v.toNat % 2 ^ 32
  let fits := match v.toNat / 2 ^ 46 % 4 with
    | 0 => sc == 1 || sc == 2 || sc == 3
    | 1 => decide (obj < 32) && (sc == 1 || sc == 2)
    | 2 => decide (obj < 64) && (sc == 2 || sc == 3 || sc == 4 || sc == 5)
    | _ => false
  v.toNat / 2 ^ 51 % 32 == 0 && v.toNat / 2 ^ 44 % 4 == 0 && fits && len != 0 && len % 64 == 0

/-- A range that a binding may have (R261). -/
def rangeFits (base len : Nat) : Bool := base % 64 == 0 && decide (base < 2 ^ 57) && decide (base + len ≤ 2 ^ 57)

/-- A binding that a BIND asks for: slot, binding. -/
def bindOf (c : Ctx) (e v : W64) : Option (Nat × Binding) :=
  let kind := v.toNat / 2 ^ 46 % 4
  let len := v.toNat % 2 ^ 32
  let sp := scopeOf (v.toNat / 2 ^ 48 % 8)
  let place := match kind with
    | 0 => dieOfCore c.br.core
    | 1 => c.br.wall
    | _ => netPlace sp c.br.core
  if rangeFits e.toNat len && descFits v then
    some (v.toNat / 2 ^ 56, { base := e.toNat, len := len, kind := kind, obj := 4096 * place + v.toNat / 2 ^ 32 % 2 ^ 12, sp := sp })
  else none

/-- Two bindings share no byte (R252). -/
def apart (x y : Binding) : Bool := decide (y.base + y.len ≤ x.base) || decide (x.base + x.len ≤ y.base)

/-- The slot is empty and the range touches no installed binding (R261). -/
def bindFree (l : Launch) (slot : Nat) (x : Binding) : Bool :=
  (tabGet? l.binds slot).isNone && l.binds.all (fun y => apart x y.2)

def installBind (s : State) (launch slot : Nat) (x : Binding) : State :=
  modLaunch s launch (fun l => { l with binds := tabPut l.binds slot x })

def removeBind (s : State) (launch slot : Nat) : State := modLaunch s launch (fun l => { l with binds := tabDel l.binds slot })

/-- BIND (R261). Every die of the launch reads the one table, so that the slot is installed at once outside a
deterministic launch. -/
def bindForm (two : Bool) (d sb : Reg) (disp : W64) (st : BitVec 3) (s : State) : Host.Outcome State Fault Refusal :=
  let f := syncForm two st [d, sb] none
  issueForm s f (fun c =>
    if c.gov || c.uG d || c.uG sb then .trap s (trapOf c 0x084#9)
    else
      match bindOf c (c.u sb + disp) (c.u d), launchOf s c.br with
      | some (slot, x), some l =>
        if c.br.det then parkSync s c (.bind slot x)
        else if bindFree l slot x then .done (installBind s c.br.launch slot x)
        else .trap s (trapOf c 0x104#9)
      | _, _ => .trap s (trapOf c 0x104#9))

/-- UNBIND (R262). -/
def unbindForm (two : Bool) (d : Reg) (st : BitVec 3) (s : State) : Host.Outcome State Fault Refusal :=
  let f := syncForm two st [d] none
  issueForm s f (fun c =>
    let slot := (c.u d).toNat % 256
    if c.gov || c.uG d then .trap s (trapOf c 0x084#9)
    else if c.br.det then parkSync s c (.unbind slot)
    else
      match launchOf s c.br with
      | some l => if (tabGet? l.binds slot).isSome then .done (removeBind s c.br.launch slot) else .trap s (trapOf c 0x104#9)
      | none => .trap s (trapOf c 0x104#9))

/-- Installs a binding of a range to a synchronisation object on every die (R261). -/
def execBind (d : Reg) (sb : Reg) (imm : BitVec 9) (st : BitVec 3) (s : State) :
    Host.Outcome State Fault Refusal :=
  bindForm false d sb (imm8 imm) st s

/-- Displaced form of BIND with a MEM payload (R261). -/
def execBindDisp (d : Reg) (sb : Reg) (disp : BitVec 30) (st : BitVec 3) (s : State) :
    Host.Outcome State Fault Refusal :=
  bindForm true d sb (immS disp) st s

/-- Removes the binding in a slot on every die (R262). -/
def execUnbind (d : Reg) (st : BitVec 3) (s : State) : Host.Outcome State Fault Refusal := unbindForm false d st s

/-- Two-word form of UNBIND with every payload field reserved (R262). -/
def execUnbindDisp (d : Reg) (st : BitVec 3) (s : State) : Host.Outcome State Fault Refusal := unbindForm true d st s

/-! ### Barriers -/

/-- Number of an object in its kind. -/
def ObjRef.index : ObjRef → Nat
  | .coreBar _ k => k
  | .netBar _ _ k => k
  | .sem _ n => n
  | .hod _ k => k

/-- Structure code of an object (R367). -/
def ObjRef.code : ObjRef → Nat
  | .coreBar _ _ => 7
  | .netBar _ _ _ => 7
  | .sem _ _ => 8
  | .hod _ _ => 9

/-- A form names a poisoned object (R355, R362). -/
def objPoison (c : Ctx) (o : ObjRef) : TrapReq :=
  { trapOf c 0x146#9 with aux0 := BitVec.ofNat 64 o.code, aux1 := BitVec.ofNat 64 o.index }

/-- Continues with a barrier, read by majority, that is not poisoned (R268). -/
def withBar {n : Nat} (s : State) (c : Ctx) (a : Reg) (k : BitVec n) (sp : Scope) (body : State → ObjRef → Bool → Res) : Res :=
  match barName s c a k sp with
  | .bad => badObject s c
  | .ok o rem =>
    let s := voteBar s o
    if (barAt s o).psn then .trap s (objPoison c o) else body s o rem

/-- The largest E of a barrier's kind (R268). -/
def maxE (sp : Scope) : Nat := if sp == .core then 128 else 2 ^ 25

/-- Sets a barrier's expected count and resets its phase state (R273); it ends the barrier's poison (R362). -/
def execBarInit (d : Reg) (a : Reg) (k : BitVec 5) (sp : Scope) (st : BitVec 3) (s : State) :
    Host.Outcome State Fault Refusal :=
  let f := syncForm false st [d, a] none
  issueForm s f (fun c =>
    match barName s c a k sp with
    | .bad => badObject s c
    | .ok o _ =>
      let e := (c.u d).toNat % 2 ^ 26
      if c.gov || c.uG d then .trap s (trapOf c 0x084#9)
      else if e = 0 || decide (e > maxE sp) then badObject s c
      else if c.br.det then bufferForm s c f (.barInit o e)
      else .done (initBar s o e))

/-- An arrival cannot be made now: the brick's arrival in the current phase is counted, or this split is already marked for
one that is not (R269). -/
def arrivalHeld (x : Barrier) (c : Ctx) (o : ObjRef) : Bool :=
  !x.ab && (x.arrived.contains c.b || c.br.arrMarks.any (fun m => m.bar == o && m.marks.contains c.k))

/-- Marks the issuing split. Outside a deterministic launch an abandoned barrier accepts the arrival and counts nothing (R271); in
one, an arrival that has all its marks is buffered (R282). -/
def arrive (s : State) (c : Ctx) (o : ObjRef) (cum : Bool) : State :=
  if c.br.det then modBrick s c.b (fun br => bufferMarks (courseEndOf (qOf s br) br.L) (markArrival br o c.k c.sp.pc cum))
  else if (barAt s o).ab then s
  else modBrick s c.b (fun br => { markArrival br o c.k c.sp.pc (cum || br.cumRel) with cumRel := false })

/-- How many arrivals of the brick are counted before and with the one that the issuing split makes now. -/
def arrivesAt (c : Ctx) (o : ObjRef) : Nat :=
  (c.br.flights.filter (fun f => !f.done && (match f.kind with
    | .barArr o' _ => o' == o
    | _ => false))).length + (c.br.arrMarks.filter (fun m => m.bar == o && m.marks.contains c.k)).length + 1

/-- Marks the split's arrival at a barrier (R269). -/
def execBarArr (a : Reg) (k : BitVec 5) (sp : Scope) (st : BitVec 3) (s : State) :
    Host.Outcome State Fault Refusal :=
  let f := syncForm false st [a] none
  issueForm s f (fun c =>
    withBar s c a k sp (fun s o _ =>
      if c.br.det then .done (arrive s c o false)
      else
        let x := barAt s o
        if !x.ab && x.e = 0 then badObject s c
        else if arrivalHeld x c o then .hold
        else .done (arrive s c o false)))

/-- What a wait on a barrier answers at once, or the phase that it waits for (R271, R273). -/
inductive BarAnswer where
  | now (status : BitVec 9)
  | wait (phase : Option Nat) (ahead : Nat)
  deriving DecidableEq, Repr

def barAnswer (x : Barrier) (br : Brick) (o : ObjRef) : BarAnswer :=
  if x.ab then .now 0x100#9
  else if br.ahead o != 0 then .wait none (br.ahead o)
  else
    match br.lastArr.find? (fun m => m.1 == o) with
    | some (_, n) => if decide (n < x.phase) then .now 0#9 else .wait (some n) 0
    | none => .wait (some x.phase) 0

/-- What a wait of a deterministic launch knows as it issues: the phase of the brick's last arrival, or how many of its arrivals
are still to be counted. -/
def detWait (br : Brick) (o : ObjRef) : Option Nat × Nat :=
  if br.ahead o != 0 then (none, br.ahead o) else ((br.lastArr.find? (fun m => m.1 == o)).map (·.2), 0)

/-- Delivers a status: into the register, or as the cause when the register is s0 (R273, R279). -/
def giveStatus (s : State) (c : Ctx) (d : Reg) (status : BitVec 9) (v : W64) (g : Bool) : Res :=
  if status != 0#9 && d == 0#6 then .trap s (trapOf c status) else giveNow s c d v g

/-- Parks until the phase of the brick's last arrival completes (R273). -/
def execBarWait (d : Reg) (a : Reg) (k : BitVec 5) (sp : Scope) (st : BitVec 3) (s : State) :
    Host.Outcome State Fault Refusal :=
  let f := syncForm false st [a] (some d)
  issueForm s f (fun c =>
    withBar s c a k sp (fun s o rem =>
      if rem then .trap s (trapOf c 0x101#9)
      else if c.br.det then parkSync s c (.barWait o (detWait c.br o).1 (detWait c.br o).2 (c.pu d) (nameG c a))
      else
        match barAnswer (barAt s o) c.br o with
        | .now status => giveStatus s c d status (status.setWidth 64) (nameG c a)
        | .wait ph n => .park s (.barWait o ph n (c.pu d) (nameG c a)) none))

/-- Arrives at a barrier and waits for that phase (R273). -/
def execBarSync (cum : Bool) (r : BitVec 5) (a : Reg) (k : BitVec 5) (sp : Scope) (st : BitVec 3) (s : State) :
    Host.Outcome State Fault Refusal :=
  let d : Reg := r.setWidth 6
  let f := syncForm false st [a] (some d)
  issueForm s f (fun c =>
    withBar s c a k sp (fun s o rem =>
      if rem then .trap s (trapOf c 0x101#9)
      else if c.br.det then parkSync (arrive s c o cum) c (.barWait o none (arrivesAt c o) (c.pu d) (nameG c a))
      else
        let x := barAt s o
        if x.ab then giveStatus s c d 0x100#9 0x100#64 (nameG c a)
        else if x.e = 0 then badObject s c
        else if arrivalHeld x c o then .hold
        else .park (arrive s c o cum) (.barWait o none (arrivesAt c o) (c.pu d) (nameG c a)) none))

/-- Writes a barrier's status word without parking (R274). -/
def execBarQ (d : Reg) (a : Reg) (k : BitVec 5) (sp : Scope) (st : BitVec 3) (s : State) :
    Host.Outcome State Fault Refusal :=
  let f := syncForm false st [a] (some d)
  issueForm s f (fun c =>
    withBar s c a k sp (fun s o rem =>
      if rem then .trap s (trapOf c 0x101#9)
      else if c.br.det then parkSync s c (.barQ o (c.pu d) (nameG c a))
      else giveNow s c d (barWord (barAt s o) c.b) (nameG c a)))

/-! ### Semaphores -/

/-- Continues with a semaphore, read by majority, that is not poisoned (R275). -/
def withSem {n : Nat} (s : State) (c : Ctx) (a : Reg) (k : BitVec n) (body : State → ObjRef → Res) : Res :=
  match semName s c a k with
  | .bad => badObject s c
  | .ok o _ =>
    let s := voteSem s o
    if (semAt s o).psn then .trap s (objPoison c o) else body s o

/-- Sets a semaphore's count and serves queued acquires (R276). -/
def execSemInit (d : Reg) (a : Reg) (k : BitVec 5) (st : BitVec 3) (s : State) :
    Host.Outcome State Fault Refusal :=
  let f := syncForm false st [d, a] none
  issueForm s f (fun c =>
    withSem s c a k (fun s o =>
      let v := (c.u d).toNat % 2 ^ 32
      if c.gov || c.uG d then .trap s (trapOf c 0x084#9)
      else if c.br.det then bufferForm s c f (.semInit o v)
      else .done (serveQueue (putSem s o { semAt s o with count := v }) o)))

/-- Queues and parks until a semaphore unit can be taken (R276). -/
def execSemAcq (d : Reg) (a : Reg) (k : BitVec 5) (_sp : Scope) (st : BitVec 3) (s : State) :
    Host.Outcome State Fault Refusal :=
  let f := syncForm false st [a] (some d)
  issueForm s f (fun c =>
    withSem s c a k (fun s o =>
      let x := semAt s o
      if c.br.det then parkSync s c (.semAcq o (c.pu d) (nameG c a))
      else if x.queue.isEmpty && decide (x.count ≥ 1) then
        giveNow (putSem s o { x with count := x.count - 1 }) c d (BitVec.ofNat 64 (x.count - 1)) (nameG c a)
      else .park (putSem s o { x with queue := x.queue ++ [(c.b, c.k)] }) (.semAcq o (c.pu d) (nameG c a)) none))

/-- Takes a semaphore unit when one is free, never parking (R276). -/
def execSemTry (d : Reg) (a : Reg) (k : BitVec 5) (_sp : Scope) (st : BitVec 3) (s : State) :
    Host.Outcome State Fault Refusal :=
  let f := syncForm false st [a] (some d)
  issueForm s f (fun c =>
    withSem s c a k (fun s o =>
      let x := semAt s o
      if c.br.det then parkSync s c (.semTry o (c.pu d) (nameG c a))
      else if x.queue.isEmpty && decide (x.count ≥ 1) then giveNow (putSem s o { x with count := x.count - 1 }) c d 1 (nameG c a)
      else giveNow s c d 0 (nameG c a)))

/-- A release takes effect, unless the count is at its top (R276). -/
def releaseSem (s : State) (o : ObjRef) : Option State :=
  let s := voteSem s o
  let x := semAt s o
  if decide (x.count ≥ 2 ^ 32 - 1) then none else some (serveQueue (putSem s o { x with count := x.count + 1 }) o)

/-- Adds a unit to a semaphore after the brick's writes are performed (R276). -/
def execSemRel (a : Reg) (k : BitVec 5) (_sp : Scope) (st : BitVec 3) (s : State) :
    Host.Outcome State Fault Refusal :=
  let f := syncForm false st [a] none
  issueForm s f (fun c =>
    withSem s c a k (fun s o =>
      if c.br.det then bufferForm s c f (.semRel o)
      else
        let s := useCum s c.b
        if !writesDone c.br c.br.seq then .park s (.semRel o c.br.seq) none
        else match releaseSem s o with
          | some s => .done s
          | none => .trap s (trapOf c 0x106#9)))

/-! ### Hods -/

/-- A form receives a poisoned line (R362). -/
def lineTrap (c : Ctx) (l : Loc) : TrapReq :=
  { trapOf c 0x146#9 with aux0 := BitVec.ofNat 64 (structOf l), aux1 := BitVec.ofNat 64 l.line.report }

/-- Continues with a hod. -/
def withHod {n : Nat} (s : State) (c : Ctx) (a : Reg) (k : BitVec n) (body : ObjRef → Bool → Res) : Res :=
  match hodName s c a k with
  | .bad => badObject s c
  | .ok o rem => body o rem

/-- The lines of a source or destination, or why there are none. -/
inductive SrcRes where
  | ok (s : State) (lines : List Loc)
  | trap (s : State) (t : TrapReq)
  | fault (s : State) (va : Nat)
  deriving DecidableEq, Repr

/-- n lines of the launch's space from a virtual address. -/
def virtLines (s : State) (c : Ctx) (kind : Nat) (avail : Home → Bool) (va : Nat) : Nat → SrcRes
  | 0 => .ok s []
  | n + 1 =>
    let t := lowThread c.sp.mask
    match globalThread s c kind avail va 64 false t false with
    | (s, .cause x a) => .trap s (trapThread x t 1 (BitVec.ofNat 64 a))
    | (s, .fault a) => .fault s a
    | (s, .ok a) =>
      (match virtLines s c kind avail (va + 64) n with
       | .ok s l => .ok s (a.loc :: l)
       | r => r)

/-- The source that a descriptor names (R204, R263, R278): n lines of the wall's local memory or of the launch's space. -/
def srcLines (s : State) (c : Ctx) (v : W64) (n : Nat) : SrcRes :=
  let t := lowThread c.sp.mask
  if ebit v 63 then virtLines s c kRead anyHome (v.toNat % 2 ^ 57) n
  else
    let off := v.toNat % 2 ^ 20
    if decide (off + 64 * n > localSize s c.br) then .trap s (trapThread 0x0C6#9 t 1 (BitVec.ofNat 64 off))
    else .ok s ((List.range n).map (fun i => localLoc s c.br (off + 64 * i)))

/-- The address that a descriptor of a source reports. -/
def srcAddr (v : W64) : W64 := BitVec.ofNat 64 (if ebit v 63 then v.toNat % 2 ^ 57 else v.toNat % 2 ^ 20)

/-- The checks on a source descriptor before its lines: alignment, then the bits above the address. -/
def srcBad (c : Ctx) (v : W64) : Option TrapReq :=
  let t := lowThread c.sp.mask
  if v.toNat % 64 != 0 then some (trapThread 0x0C1#9 t 1 (srcAddr v))
  else if v.toNat / 2 ^ 57 % 64 != 0 then some (trapThread 0x0C6#9 t 1 (srcAddr v))
  else none

/-- Continues with a source's lines. -/
def withLines (c : Ctx) (kind : Nat) (r : SrcRes) (body : State → List Loc → Res) : Res :=
  match r with
  | .ok s l => body s l
  | .trap s t => .trap s t
  | .fault s va => .stay (brickFault s c kind va)

/-- A role joins some roles. -/
def withRole (l : List Nat) (role : Nat) : List Nat := if l.contains role then l else role :: l

/-- The hod belongs to the brick's wall. -/
def ownHod (c : Ctx) : ObjRef → Bool
  | .hod w _ => w == c.br.wall
  | _ => false

/-- Marks a brick's role as a producer or a consumer of a hod of its wall, as a form of the brick issues (R294). -/
def markRole (s : State) (c : Ctx) (o : ObjRef) (producer : Bool) : State :=
  let h := hodAt s o
  if !ownHod c o then s
  else if producer then putHod s o { h with prole := withRole h.prole c.br.role }
  else putHod s o { h with crole := withRole h.crole c.br.role }

/-- The mark becomes committed state, where a deterministic launch evaluates the form (R299, R305). -/
def commitRole (s : State) (c : Ctx) (o : ObjRef) (producer : Bool) : State :=
  let h := hodAt s o
  if !ownHod c o then s
  else if producer then putHod s o { h with pcom := withRole h.pcom c.br.role }
  else putHod s o { h with ccom := withRole h.ccom c.br.role }

/-- HOD.INIT takes effect, unless the hod is busy (R280). -/
def initHod (s : State) (o : ObjRef) : Option State :=
  let h := hodAt s o
  if h.tail != h.head || !h.heldBy.isEmpty || !h.prods.isEmpty || !h.cons.isEmpty then none
  else some (putHod s o { h with head := 0, tail := 0, filled := [], closed := false })

/-- HOD.CLOSE takes effect. -/
def closeHod (s : State) (o : ObjRef) : State := serveHod (putHod s o { hodAt s o with closed := true }) o

/-- Opens a hod and resets its indices when it is idle (R280). -/
def execHodInit (a : Reg) (k : BitVec 5) (st : BitVec 3) (s : State) :
    Host.Outcome State Fault Refusal :=
  let f := syncForm false st [a] none
  issueForm s f (fun c =>
    withHod s c a k (fun o rem =>
      if rem then badObject s c
      else if c.br.det then bufferForm s c f (.hodInit o)
      else match initHod s o with
        | some s => .done s
        | none => .trap s (trapOf c 0x107#9)))

/-- Reserves a hod slot, parking while full, and fills it from a source (R278). A green register that names the hod does not make
the slot green (log 111). -/
def execHodPut (d : Reg) (a : Reg) (k : BitVec 5) (st : BitVec 3) (s : State) :
    Host.Outcome State Fault Refusal :=
  let f := syncForm false st [d, a] none
  issueForm s f (fun c =>
    withHod s c a k (fun o _ =>
      let h := hodAt s o
      let v := c.u d
      let green := c.gov || c.uG d
      if fcFull c.br 6 || (if ebit v 63 then detReadHold s c else wbBusy c.br) then .hold
      else match srcBad c v with
        | some t => .trap s t
        | none =>
          withLines c kRead (srcLines s c v (h.s / 64)) (fun s src =>
            let fill (s : State) (n : Option Nat) : State := pushFlight s c f (some 6) none none (.hodPut o n src green)
            if c.br.det then parkSync (fill (markRole s c o true) none) c (.hodPut o c.br.seq)
            else if h.closed then .trap s (trapOf c 0x102#9)
            else
              let s := markRole s c o true
              if h.prods.isEmpty && h.room then
                let (s, n) := reserveSlot s o
                .done (fill s (some n))
              else
                .park (fill (putHod s o { hodAt s o with prods := h.prods ++ [(c.b, c.k)] }) none) (.hodPut o c.br.seq) none)))

/-- What HOD.GET and HOD.TRY find once the brick's held slot is free (R279): a slot, or closed and empty, or neither. -/
inductive HodAnswer where
  | slot | closed | empty
  deriving DecidableEq, Repr

/-- `ahead` is the number of parked consumers that come first. A consumer that is parked itself still gets what is reserved (R280). -/
def hodAnswer (h : Hod) (ahead : Nat) (parked : Bool) : HodAnswer :=
  if decide (h.c > ahead) then .slot
  else if h.c = 0 && h.closed && (!parked || h.reserved = 0) then .closed
  else .empty

/-- Takes the head slot of a hod, parking while it is empty and open (R279). -/
def execHodGet (d : Reg) (a : Reg) (k : BitVec 5) (st : BitVec 3) (s : State) :
    Host.Outcome State Fault Refusal :=
  let f := syncForm false st [a] (some d)
  issueForm s f (fun c =>
    withHod s c a k (fun o rem =>
      if rem then badObject s c
      else
        if c.br.det then parkSync (markRole s c o false) c (.hodGet o (c.pu d) (nameG c a) none)
        else
          let s := freeHeld (markRole s c o false) o c.b
          let h := hodAt s o
          match hodAnswer h h.cons.length false with
          | .slot =>
            (match takeSlot s o c.b with
             | (s, .ok v) => giveNow s c d v (nameG c a)
             | (s, .error l) => .trap s (lineTrap c l))
          | .closed => giveStatus s c d 0x102#9 hodClosedWord (nameG c a)
          | .empty => .park (putHod s o { h with cons := h.cons ++ [(c.b, c.k)] }) (.hodGet o (c.pu d) (nameG c a) none) none))

/-- Takes the head slot of a hod when one is ready, never parking (R279). -/
def execHodTry (d : Reg) (a : Reg) (k : BitVec 5) (st : BitVec 3) (s : State) :
    Host.Outcome State Fault Refusal :=
  let f := syncForm false st [a] (some d)
  issueForm s f (fun c =>
    withHod s c a k (fun o rem =>
      if rem then badObject s c
      else
        if c.br.det then parkSync (markRole s c o false) c (.hodTry o (c.pu d) (nameG c a))
        else
          let s := freeHeld (markRole s c o false) o c.b
          let h := hodAt s o
          match hodAnswer h h.cons.length false with
          | .slot =>
            (match takeSlot s o c.b with
             | (s, .ok v) => giveNow s c d v (nameG c a)
             | (s, .error l) => .trap s (lineTrap c l))
          | .closed => giveNow s c d hodClosedWord (nameG c a)
          | .empty => giveNow s c d hodEmptyWord (nameG c a)))

/-- Sets a hod's closed bit (R280). -/
def execHodClose (a : Reg) (k : BitVec 5) (st : BitVec 3) (s : State) :
    Host.Outcome State Fault Refusal :=
  let f := syncForm false st [a] none
  issueForm s f (fun c =>
    withHod s c a k (fun o _ =>
      if c.br.det then bufferForm s c f (.hodClose o) else .done (closeHod s o)))

end Sys2Proof.Machine
end

