-- ==== Sys2Proof/Machine/Tape.lean ====
section
/-!
DEFINITION. The forms of the tape engine (R308–R326) and the spill of its buffered lines.
-/
namespace Sys2Proof.Machine

/-! ### Segments -/

/-- An address in each page that a range meets: the range's own first address, then the starts of pages. -/
def pagesOf (base len : Nat) : List Nat :=
  (List.range ((base + len + 65535) / 65536 - base / 65536)).map (fun i => max base ((base / 65536 + i) * 65536))

/-- What a walk of pages finds. -/
inductive PageRes where
  | ok
  | cause (c : BitVec 9) (va : Nat)
  | fault (va : Nat)
  deriving DecidableEq, Repr

/-- Walks pages for write permission; the first that fails decides. -/
def walkPages (s : State) (c : Ctx) : List Nat → State × PageRes
  | [] => (s, .ok)
  | va :: l =>
    match brickTranslate s c kWrite va with
    | (s, .absent) => (s, .fault va)
    | (s, .cause x) => (s, .cause x va)
    | (s, .ok _) => walkPages s c l

/-- Walks the pages of segments that an invalidation met: a valid leaf is used as before, and one that faults replays (R309). -/
def walkStale (s : State) (c : Ctx) : List Nat → State × PageRes
  | [] => (s, .ok)
  | va :: l =>
    match brickTranslate s c kLeaf va with
    | (s, .absent) => (s, .fault va)
    | (s, .cause x) => (s, .cause x va)
    | (s, .ok _) => walkStale s c l

/-- A TAPE.SEAL of the brick is still writing lines. -/
def sealOpen (br : Brick) : Bool := br.flights.any (fun f => f.kind == .tapeSeal && !f.done)

/-- The lines that are not performed, at the addresses that their segments give them: one that no segment has reaches nothing. -/
def Tape.unwritten (t : Tape) : List (Nat × List Byte × Bool) :=
  t.left ++ t.buf.filterMap (fun x => (t.lineVa x.1).map (fun va => (va, x.2)))

/-- The tape's context goes back to the engine; the lines that a seal still has to write are written to where they belong (R322). -/
def freeTape (s : State) (b : Nat) : State :=
  modBrick s b (fun br =>
    let t := { Tape.closed with nextPath := br.tape.nextPath }
    { br with tape := (if sealOpen br then { t with left := br.tape.unwritten, waits := br.tape.waits, denied := br.tape.denied } else t)
              splits := br.splits.map (fun x => (x.1, x.2.onRoot)) })

/-- The trap of a segment's address (R309). -/
def segTrap (c : Ctx) (cause : BitVec 9) (va : Nat) : TrapReq := trapThread cause (lowThread c.sp.mask) 1 (BitVec.ofNat 64 va)

/-- Checks a segment and gives it to the tape (R309). -/
inductive SegRes where
  | ok (s : State) (t : Tape)
  | trap (s : State) (t : TrapReq)
  | fault (s : State) (va : Nat)
  deriving DecidableEq, Repr

def addSegment (s : State) (c : Ctx) (t : Tape) (base len : W64) : SegRes :=
  let b := base.toNat
  let n := len.toNat
  if t.segs.length ≥ 16 then .ok s t
  else if b % 64 != 0 || n % 64 != 0 then .trap s (segTrap c 0x0C1#9 b)
  else if decide (b ≥ 2 ^ 57) || decide (n < 2048) || decide (n > 2 ^ 31) || decide (b + n > 2 ^ 57) then .trap s (segTrap c 0x0C6#9 b)
  else
    match walkPages s c (pagesOf b n) with
    | (s, .fault va) => .fault s va
    | (s, .cause x va) => .trap s (segTrap c x va)
    | (s, .ok) =>
      .ok s { t with segs := t.segs ++ [{ base := b, len := n, stale := false
                                          first := (match t.segs.getLast? with
                                            | some g => g.first + g.lines
                                            | none => 0) }] }

/-- The checks of every tape form: its state (R308), then the segments that an invalidation met (R309). -/
def withTape (s : State) (c : Ctx) (ok : Nat → Bool) (body : State → Tape → Res) : Res :=
  let t := c.br.tape
  if !ok t.state then .trap s (trapOf c 0x14C#9)
  else
    let pages := (t.segs.filter (·.stale)).flatMap (fun g => pagesOf g.base g.len)
    if pages.isEmpty then body s t
    else
      match walkStale s c pages with
      | (s, .fault va) => .stay (brickFault s c kWrite va)
      | (s, .cause x va) => .trap (if x == 0x0C5#9 then freeTape s c.b else s) (segTrap c x va)
      | (s, .ok) =>
        let t := { t with segs := t.segs.map (fun g => { g with stale := false }) }
        body (setTape s c.b t) t

/-! ### Spills -/

/-- What performing buffered lines leads to: all are performed, one waits for its page or for a link, or one was refused: by the answer
to its page's record (R335, R336) or by the switches (R370). -/
inductive Spill where
  | all
  | waits
  | refused (cause : BitVec 9) (va : Nat)
  deriving DecidableEq, Repr

/-- The line that is performed next: the address that a segment gives it, its bytes and its tag. -/
def Tape.oldest (t : Tape) : Option (Option Nat × List Byte × Bool) :=
  match t.left, t.buf with
  | (va, x) :: _, _ => some (some va, x)
  | [], (i, x) :: _ => some (t.lineVa i, x)
  | [], [] => none

/-- How many lines the engine has still to perform. -/
def Tape.pending (t : Tape) : Nat := t.left.length + t.buf.length

/-- The oldest line leaves the buffer. -/
def dropLine (s : State) (b : Nat) : State :=
  modBrick s b (fun br => { br with tape :=
    if br.tape.left.isEmpty then { br.tape with buf := br.tape.buf.drop 1 } else { br.tape with left := br.tape.left.drop 1 } })

/-- Writes the oldest buffered line to its segment as an engine write; a page that faults leaves a record, for which the line takes
an entry of the fault buffer when one is free (R322, R335). A line that no segment can take any more reaches nothing; one that an error
has made unreadable poisons its place. A segment on another module is reached over the fabric (R374); in host memory a line's bytes are
written and its tag is lost (log 122). -/
def spillFirst (s : State) (b : Nat) (br : Brick) : State × Spill :=
  match br.tape.oldest with
  | none => (s, .all)
  | some (none, _) => (dropLine s b, .all)
  | some (some va, bytes, g) =>
      let die := dieOfCore br.core
      match translate s br.core die (asidOf s br) br.prv kLeaf va with
      | (s, .absent) =>
        if br.tape.denied.contains (va / 2 ^ 16) then
          (setTape s b { br.tape with waits := none, denied := br.tape.denied.erase (va / 2 ^ 16) }, .refused 0x0C9#9 va)
        else if decide (faultsHeld s die < 1024) then
          (setTape (addFault s die (asidOf s br) va kWrite true) b { br.tape with waits := some (va / 2 ^ 16) }, .waits)
        else (s, .waits)
      | (s, .cause _) => (dropLine s b, .all)
      | (s, .ok pa) =>
        let s := setTape s b { br.tape with waits := none }
        if locDown s (.phys pa) then (s, .waits)
        else match outCheck s (.phys pa) with
        | some cause => (s, .refused cause va)
        | none =>
        let s := observe (noteWrite (dropLine s b) (.phys pa) bytes g) (some b) (.phys pa) 64
        (if bytes.isEmpty then putMeta s (.phys pa) { metaAt s (.phys pa) with psn := true } else writeSlot s (.phys pa) [(bytes, g)], .all)

/-- Writes that many lines. -/
def spillLines (s : State) (b : Nat) : Nat → State × Spill
  | 0 => (s, .all)
  | n + 1 =>
    match tabGet? s.bricks b with
    | none => (s, .all)
    | some br =>
      match spillFirst s b br with
      | (s, .all) => spillLines s b n
      | r => r

/-- Writes every buffered line of the brick's tape. -/
def spillTape (s : State) (b : Nat) : State × Spill :=
  match tabGet? s.bricks b with
  | none => (s, .all)
  | some br => spillLines s b br.tape.pending

/-- The oldest tape line waits: its page for the answer to its record or for an entry of the fault buffer, or a link on its way is out
of service. -/
def spillBlocked (s : State) (br : Brick) : Bool :=
  match br.tape.oldest with
  | some (some va, _) =>
    let die := dieOfCore br.core
    recordOpen s die (asidOf s br) (va / 2 ^ 16) ||
      (match (translate s br.core die (asidOf s br) br.prv kLeaf va).2 with
       | .absent => decide (faultsHeld s die ≥ 1024) && !br.tape.denied.contains (va / 2 ^ 16)
       | .ok pa => locDown s (.phys pa)
       | .cause _ => false)
  | _ => false

/-- Lines that a core's buffer holds; it has room for 1,024 (R307). -/
def bufferLines (s : State) (core : Nat) : Nat :=
  (s.bricks.filter (fun x => x.2.core == core)).foldl (fun n x => n + x.2.tape.pending) 0

/-- The buffer holds more lines than it has room for: the brick's tape writes lines, the oldest first. -/
def bufferOver (s : State) (br : Brick) : Bool := decide (bufferLines s br.core > 1024) && decide (br.tape.pending ≠ 0)

/-! ### The lane forms -/

/-- The registers first to first + n. -/
def regRun (r : Reg) (n : BitVec 2) : List Reg := (List.range (n.toNat + 1)).map (fun i => r + BitVec.ofNat 6 i)

/-- A lane form of the tape engine. -/
def tapeLane (st : BitVec 3) (lanes : List Reg) : Form := { bareForm false true st .tape with lanes := lanes.map BitVec.toNat }

/-- What a lane register of the active threads records (R313). -/
def recValues (c : Ctx) (r : Reg) : List TVal :=
  c.ts.map (fun t => ⟨t, c.w r t, (if c.hG r t 0 then 1 else 0) + (if c.hG r t 1 then 2 else 0)⟩)

/-- Places an entry of n lines and records it on the split's path (R311, R315). -/
def placeEntry (s : State) (c : Ctx) (f : Form) (t : Tape) (n : Nat) (lines : List (List Byte × Bool)) : Res :=
  match t.place n with
  | none => .trap (setTape s c.b { t with need := n }) (trapOf c 0x143#9)
  | some i =>
    let t' := ({ t with lines := i + n }.setPtr c.sp.path (i + n)).putLines i lines c.gov
    .done (pushFlight (setTape s c.b t') c f (some 4) none none .tapeRec)

/-- Records up to four registers as one value entry on the split's path (R324). -/
def execTapeRec (a : Reg) (n : BitVec 2) (lbl : BitVec 8) (st : BitVec 3) (s : State) :
    Host.Outcome State Fault Refusal :=
  let rs := regRun a n
  let f := { tapeLane st rs with rd := rs.map nLane, chk := rs.map chkBoth }
  issueForm s f (fun c =>
    if fcFull c.br 4 then .hold
    else withTape s c (· == 1) (fun s t =>
      let (len, lines) := entryLines (rs.map (recValues c)) (fun len =>
        { prev := t.ptr c.sp.path, mask := c.sp.mask, lbl := lbl.toNat, nline := len, cnt := n.toNat, depth := frameDepth t c.sp
          kind := 0, grn := false })
      placeEntry s c f t len lines))

/-- Records an explicit-mask entry from a mask register (R325). -/
def execTapeBr (m : BitVec 3) (lbl : BitVec 8) (st : BitVec 3) (s : State) :
    Host.Outcome State Fault Refusal :=
  let f := { tapeLane st [] with rd := [nMsk m] }
  issueForm s f (fun c =>
    if fcFull c.br 4 then .hold
    else withTape s c (· == 1) (fun s t =>
      let taken := maskOf (c.ts.filter (fun i => mbit (c.m m).v i 0))
      let green := c.ts.any (fun i => mbit (c.m m).g i 0)
      placeEntry s c f t 1 [(branchLine taken 0 0
        { prev := t.ptr c.sp.path, mask := c.sp.mask, lbl := lbl.toNat, nline := 1, cnt := 0, depth := frameDepth t c.sp, kind := 2
          grn := green }, green)]))

/-- A pop is in flight on fc4 with its destinations marked: its register writes, or the trap in their place. -/
def popFlight (s : State) (c : Ctx) (f : Form) (ws : List RegWrite) (late : Option LateTrap) : State :=
  let names := f.wr.map (physName c.k)
  let s := modBrick s c.b (fun br => names.tail.foldl (fun br n => addMark br c (some n) (some 4)) br)
  pushFlight s c f (some 4) none names.head? (.regs ws late)

/-- Continues a pop with the matching entry of the split's path (R319, R320). -/
def withEntry (s : State) (c : Ctx) (f : Form) (branch : Bool) (lbl cnt : Nat) (body : State → THead → List Byte → Bool → Res) : Res :=
  if c.sp.pendFrame.isSome then .trap s (trapOf c 0x144#9)
  else
    match topEntry s c branch lbl cnt with
    | (s, .ok h bytes g) => body s h bytes g
    | (s, .line (.fault va)) => .stay (brickFault s c kRead va)
    | (s, .line (.cause x va)) => .trap s (segTrap c x va)
    | (s, .line (.poison pa)) =>
      .trap s { trapOf c 0x146#9 with aux0 := BitVec.ofNat 64 (structOf (.phys pa)), aux1 := BitVec.ofNat 64 (pa / 64 * 64) }
    | (s, .line .held) => .stay (holdForm s c)
    | (s, .line (.denied cause va)) =>
      .done (popFlight s c f [] (some ⟨cause, lowThread c.sp.mask, c.ts.length, BitVec.ofNat 64 va, 0⟩))
    | (s, .line .lost) => .trap s { trapOf c 0x146#9 with aux0 := 15#64, aux1 := BitVec.ofNat 64 (c.br.tape.ptr c.sp.path) }
    | (s, _) => .trap s (trapOf c 0x144#9)

/-- The pop of an entry: the pointer moves to PREV, the writes are in flight on fc4 with their destinations marked. -/
def popEntry (s : State) (c : Ctx) (f : Form) (h : THead) (ws : List RegWrite) : Res :=
  .done (popFlight (modBrick s c.b (fun br => { br with tape := br.tape.setPtr c.sp.path h.prev })) c f ws none)

/-- Pops a matching value entry back into registers during replay (R324). -/
def execTapePop (d : Reg) (n : BitVec 2) (lbl : BitVec 8) (st : BitVec 3) (s : State) :
    Host.Outcome State Fault Refusal :=
  let rs := regRun d n
  let f := { tapeLane st rs with wr := rs.map nLane }
  issueForm s f (fun c =>
    if fcFull c.br 4 then .hold
    else withTape s c (· == 3) (fun s _ =>
      withEntry s c f false lbl.toNat n.toNat (fun s h bytes g =>
        let vals := decodeRegs h.mask (n.toNat + 1) bytes
        popEntry s c f h ((rs.zip vals).flatMap (fun x =>
          (x.2.filter (fun v => c.act v.t)).flatMap (fun v =>
            [c.putH x.1 v.t 0 (v.v.extractLsb' 0 32) (g || v.g % 2 != 0), c.putH x.1 v.t 1 (v.v.extractLsb' 32 32) (g || v.g / 2 % 2 != 0)]))))))

/-- Pops a frame or explicit-mask entry into a mask during replay (R325). -/
def execTapePopbr (m : BitVec 3) (lbl : BitVec 8) (st : BitVec 3) (s : State) :
    Host.Outcome State Fault Refusal :=
  let f := { tapeLane st [] with wr := [nMsk m] }
  issueForm s f (fun c =>
    if fcFull c.br 4 then .hold
    else withTape s c (· == 3) (fun s _ =>
      withEntry s c f true lbl.toNat 0 (fun s h bytes g =>
        let taken := BitVec.ofNat 32 (leNat (bytes.take 4))
        let arm (i : Nat) : Nat := leNat ((bytes.drop i).take 4)
        let s := modSplit s c.b c.k (fun sp =>
          { sp with pendFrame := if h.kind == 1 then some ⟨taken, arm 4, arm 8⟩ else none })
        popEntry s c f h [maskWrite c m (fun t _ => tbit taken t) (fun _ _ => g || h.grn)])))

/-! ### The uniform forms -/

/-- A uniform form of the tape engine. -/
def tapeUni (st : BitVec 3) (reads : List Reg) (d : Option Reg) : Form := { syncForm false st reads d with engine := .tape }

/-- Every fc4 operation that the brick issued before an operation number has completed (R326). -/
def tapeQuiet (br : Brick) (upTo : Nat) : Bool := br.flights.all (fun f => f.fc != some 4 || f.done || decide (f.seq ≥ upTo))

/-- Takes a tape context with its first segment and starts recording (R326). -/
def execTapeOpen (d : Reg) (a : Reg) (br : Bool) (st : BitVec 3) (s : State) :
    Host.Outcome State Fault Refusal :=
  let f := tapeUni st [a, nxt a] (some d)
  issueForm s f (fun c =>
    let g := c.uG a || c.uG (nxt a)
    withTape s c (· == 0) (fun s t =>
      if decide (tapesOpen s c.br.core ≥ 4) then giveNow s c d 0 g
      else
        match addSegment s c { t with state := 1, br := br, segs := [], buf := [], lines := 0, need := 0, paths := [], frames := [], sealPtr := 0, heads := [] } (c.u a) (c.u (nxt a)) with
        | .fault s va => .stay (brickFault s c kWrite va)
        | .trap s r => .trap s r
        | .ok s t =>
          giveNow (modBrick s c.b (fun br =>
            { br with tape := t, splits := br.splits.map (fun x => (x.1, x.2.onRoot)) })) c d 1 g))

/-- Seals the tape and writes its line count (R326). -/
def execTapeSeal (d : Reg) (st : BitVec 3) (s : State) :
    Host.Outcome State Fault Refusal :=
  let f := tapeUni st [] (some d)
  issueForm s f (fun c =>
    if fcFull c.br 4 then .hold
    else withTape s c (· == 1) (fun s t =>
      if !t.frames.isEmpty then .trap s (trapOf c 0x14C#9)
      else
        let s := setTape s c.b { t with state := 2, sealPtr := t.ptr 0 }
        giveNow (pushFlight s c f (some 4) none none .tapeSeal) c d (BitVec.ofNat 64 t.lines) false))

/-- Replay starts: one path, the root, at its pointer at the seal (R318). -/
def startReplay (s : State) (b : Nat) : State :=
  modBrick s b (fun br =>
    { br with tape := { br.tape with state := 3, paths := tabSet [] 0 0 br.tape.sealPtr, frames := [] }
              splits := br.splits.map (fun x => (x.1, x.2.onRoot)) })

/-- Starts replay after earlier tape operations complete (R318). -/
def execTapeRev (st : BitVec 3) (s : State) :
    Host.Outcome State Fault Refusal :=
  let f := tapeUni st [] none
  issueForm s f (fun c =>
    withTape s c (· == 2) (fun s _ =>
      if tapeQuiet c.br c.br.seq then .done (startReplay s c.b) else .park s (.tapeRev c.br.seq) none))

/-- Writes remaining tape lines and frees the context (R326). -/
def execTapeClose (st : BitVec 3) (s : State) :
    Host.Outcome State Fault Refusal :=
  let f := tapeUni st [] none
  issueForm s f (fun c =>
    withTape s c (· != 0) (fun s _ =>
      if !tapeQuiet c.br c.br.seq then .park s (.tapeClose c.br.seq) none
      else match spillTape s c.b with
        | (s, .all) => .done (freeTape s c.b)
        | (s, .refused cause va) => .trap s (segTrap c cause va)
        | (s, .waits) => .park s (.tapeClose c.br.seq) none))

end Sys2Proof.Machine
end

