-- ==== Sys2Proof/Machine/Accum.lean ====
section
/-!
DEFINITION. The arithmetic of the accumulator banks: exact sums, the placement of products (R89–R94), the read-out of an
entry (R95, R96), the products of a matrix instruction with their checksums (R223), the selection of TOPK (R224) and the
comparison of ACCCHK (R227), on banks as data.
-/
namespace Sys2Proof.Machine

/-! ### Exact sums of values -/

/-- a + b, exact; a sum with a NaN, or of infinities of both signs, is a NaN; a zero sum is −0 only when all its addends
are (R87). -/
def addExact (a b : FVal) : FVal :=
  match a, b with
  | .nan _, _ => .nan false
  | _, .nan _ => .nan false
  | .inf n, .inf n' => if n == n' then .inf n else .nan false
  | .inf n, _ => .inf n
  | _, .inf n => .inf n
  | .fin n1 m1 e1, .fin n2 m2 e2 =>
    let (n, m, e) := addFin n1 m1 e1 n2 m2 e2 false
    .fin n m e

/-- The exact sum of a list; with no addend it is +0. -/
def exactSum : List FVal → FVal
  | [] => .fin false 0 0
  | [a] => a
  | a :: l => addExact a (exactSum l)

/-! ### Entries of a bank -/

def entryKey (row col : Nat) : Nat := 128 * row + col

/-- The entry at a place of the tile. -/
def Bank.at (bk : Bank) (row col : Nat) : AccEntry := tabGetD bk.e (entryKey row col) AccEntry.zero

/-- Rebuilds the entries from key i on, in key order; an entry that comes out zero is not listed. -/
def mapEntries (f : Nat → AccEntry → AccEntry) : Nat → Nat → Tab AccEntry → Tab AccEntry
  | 0, _, _ => []
  | n + 1, i, t =>
    let (x, rest) := match t with
      | [] => (AccEntry.zero, [])
      | (k, x) :: l => if k = i then (x, l) else (AccEntry.zero, t)
    let y := f i x
    if y = AccEntry.zero then mapEntries f n (i + 1) rest else (i, y) :: mapEntries f n (i + 1) rest

/-- Changes every entry of the tile. -/
def Bank.mapE (bk : Bank) (f : Nat → AccEntry → AccEntry) : Bank := { bk with e := mapEntries f 8192 0 bk.e }

/-! ### Placement (R91, R94) -/

/-- |F| never exceeds this (R89). -/
def accLimit : Int := 2 ^ 95 - 1

/-- round_rne(m · 2^e / 2^q), and whether it differs. -/
def rneTo (m : Int) (e q : Int) : Int × Bool :=
  let (k, x) := roundAt (.det .rne) (decide (m < 0)) m.natAbs e false q
  (if m < 0 then -(k : Int) else k, x)

/-- A non-zero finite product: m · 2^q. -/
structure Term where
  m : Int
  q : Int
  deriving DecidableEq, Repr

/-- The non-zero finite products among an entry's. -/
def termsOf (l : List FVal) : List Term :=
  l.filterMap (fun v => match v with
    | .fin n m e => if m = 0 then none else some ⟨if n then -(m : Int) else m, e⟩
    | _ => none)

/-- Least q and greatest q + w of some products. -/
def spanOf (w : Nat) : List Term → Option (Int × Int)
  | [] => none
  | t :: l =>
    match spanOf w l with
    | none => some (t.q, t.q + w)
    | some (a, b) => some (min a t.q, max b (t.q + w))

/-- Shifts one entry to the new anchor and adds its products, each rounded on its own to the grid; rounding events set G,
a sum beyond the limit saturates and sets V. -/
def placeInto (shift : Int) (grid : Int) (x : AccEntry) (ts : List Term) : AccEntry :=
  let (f0, ev0) := rneTo x.f 0 shift
  let ps := ts.map (fun t => rneTo t.m t.q grid)
  let f := ps.foldl (fun a p => a + p.1) f0
  let ev := ev0 || ps.any (·.2)
  let sat := decide (f.natAbs > accLimit.natAbs)
  { x with f := if sat then (if f < 0 then -accLimit else accLimit) else f, g := x.g || ev, v := x.v || sat }

/-- The entry sees a rounding event (R91). -/
def entryEvent (shift : Int) (grid : Int) (x : AccEntry) (ts : List Term) : Bool :=
  (rneTo x.f 0 shift).2 || ts.any (fun t => (rneTo t.m t.q grid).2)

/-- Entries that the second bank has with V set and the first has not (R221). -/
def newV (old new : Bank) : Bool :=
  new.e.any (fun x => x.2.v && !(tabGetD old.e x.1 AccEntry.zero).v)

/-- Places an instruction's products, given for each entry, in the bank (R91). -/
def placeProducts (bk : Bank) (w : Nat) (ts : Nat → List Term) : Bank :=
  match spanOf w ((List.range 8192).flatMap ts) with
  | none => bk
  | some (ql, qt) =>
    let lb := if bk.anchored then min bk.lb ql else ql
    let tb := if bk.anchored then max bk.tb qt else qt
    let wide := decide (tb - lb > 64)
    let shift := tb - bk.A
    let grid := tb - 64
    let ev := bk.e.any (fun x => entryEvent shift grid x.2 []) ||
      (List.range 8192).any (fun k => entryEvent shift grid AccEntry.zero (ts k))
    let bk' := bk.mapE (fun k x => placeInto shift grid x (ts k))
    { bk' with A := tb, lb := if wide then tb - 64 else lb, tb := tb, anchored := true, revent := bk.revent || wide || ev }

/-! ### Reading an entry (R95, R96) -/

/-- The value of an entry: a NaN with N, an infinity with V, else F × 2^(A − 64). -/
def entryVal (A : Int) (x : AccEntry) : FVal :=
  if x.n then .nan false
  else if x.v then .inf (decide (x.f < 0))
  else .fin (decide (x.f < 0)) x.f.natAbs (A - 64)

/-- min(max(w, −c), c) for c ≥ 0; c = +∞ has no effect. DESIGN CHOICE (log 127): at a bound of zero the result is a zero with the sign
of w, and a bound of −0 is not negative. -/
def clipTo (c w : FVal) : FVal :=
  match c with
  | .fin _ m e =>
    (match w with
     | .inf n => .fin n m e
     | .fin n m' e' => if magLe m' e' m e then w else .fin n m e
     | .nan x => .nan x)
  | _ => w

/-- One rounding of an entry's value times s, clipped, to a destination format. -/
def readOut (f : Fmt) (rm : Rm) (clp : Bool) (v s c : FVal) : Nat × Flags :=
  if isNaN v || isNaN s || (clp && isNaN c) then (f.nanBits, flagInvalid)
  else
    let (w, fl) := mulExact v s
    if isNaN w then (f.nanBits, fl)
    else cvtFloat f (.det rm) (if clp then clipTo c w else w)

/-- The double-double pair of an entry. -/
def readDd (v : FVal) : Nat × Nat × Flags :=
  match v with
  | .nan _ => (fmtF64.nanBits, fmtF64.nanBits, flagInvalid)
  | .inf n => (fInf fmtF64 n, 0, flagNone)
  | .fin n m e =>
    let (hi, fl) := fRound fmtF64 (.det .rne) n m e
    match fUnpack fmtF64 hi with
    | .fin n' m' e' =>
      let (n2, m2, e2) := addFin n m e (!n') m' e' false
      let (lo, fl2) := fRound fmtF64 (.det .rne) n2 m2 e2
      (hi, lo, fl ||| fl2)
    | _ => (hi, 0, fl)

/-! ### Operands of the array (R75–R77, R193, R215) -/

/-- Products of a type have magnitudes below 2^w (R90). -/
def productWidth : Ty → Nat
  | .hb8 => 12 | .hb4 => 4 | .q8 => 16 | .q4 => 8 | .q2 => 4 | .e4m3 => 8 | .e5m2 => 6 | .bf16 => 16 | _ => 22

/-- K: elements in the 64 bytes of a column (R215). -/
def elemsPerLine (ty : Ty) : Nat := 512 / ty.width

/-- Elements of a block (R75). -/
def blockLen (ty : Ty) : Nat := if ty == .q2 then 64 else 32

/-- CHK of a metadata word (R77). -/
def metaCheck (w : Nat) : Nat :=
  let x := (List.range 16).foldl (fun (a : Nat) i => a ^^^ (w / 16 ^ i % 16)) 10
  x ^^^ (w / 2 ^ 72 % 16) ^^^ (w / 2 ^ 76 % 2)

/-- The type of a metadata word, when it is a block type. -/
def metaTy (w : Nat) : Option Ty :=
  match w / 2 ^ 72 % 32 with
  | 0x0C => some .hb8
  | 0x0D => some .hb4
  | 0x0E => some .q8
  | 0x0F => some .q4
  | 0x10 => some .q2
  | _ => none

/-- A metadata word fails its check (R77). -/
def metaFails (m : BitVec 128) : Bool :=
  let w := m.toNat
  match metaTy w with
  | none => true
  | some ty =>
    w / 2 ^ 77 != 0 || w / 2 ^ 68 % 16 != 0 || w / 2 ^ 64 % 16 != metaCheck w ||
      ((ty == .hb8 || ty == .q8) && w / 2 ^ 32 % 2 ^ 32 != 0)

/-- The pair of block j. -/
def metaPair (m : BitVec 128) (j : Nat) : Nat := m.toNat / 2 ^ (16 * j) % 65536

/-- A word that passes makes the instruction trap with 0x142: it names another type, or holds a zero point out of
range (R74, R219). -/
def metaWrong (ty : Ty) (m : BitVec 128) : Bool :=
  !metaFails m && (metaTy m.toNat != some ty ||
    (List.range (elemsPerLine ty / blockLen ty)).any (fun j => zeroPointBad ty (metaPair m j)))

/-- Element i of a line, with the line's metadata. -/
def lineElem (ty : Ty) (line : Nat) (m : BitVec 128) (i : Nat) : FVal :=
  let code := line / 2 ^ (ty.width * i) % 2 ^ ty.width
  match fmtOf ty with
  | some f => fUnpack f code
  | none => blockVal ty code (metaPair m (i / blockLen ty))

/-- Line and index of element (i, k) of an A tile (R193). -/
def tilePlace (ty : Ty) (col : Bool) (i k : Nat) : Nat × Nat :=
  if !col then (i, k)
  else if ty.width == 16 then (2 * k + i / 32, i % 32)
  else (k, i)

/-- The rows of an A tile. -/
def tileRows (ty : Ty) (col : Bool) (lines : List (List Byte)) (metas : List (BitVec 128)) : List (List FVal) :=
  let ls := lines.map leNat
  (List.range 64).map (fun i => (List.range (elemsPerLine ty)).map (fun k =>
    let (l, x) := tilePlace ty col i k
    lineElem ty (ls.getD l 0) (metas.getD l 0) x))

/-- A row of A holds a green element. -/
def tileRowG (ty : Ty) (col : Bool) (aG : List Bool) (i : Nat) : Bool :=
  (List.range (elemsPerLine ty)).any (fun k => aG.getD (tilePlace ty col i k).1 false)

/-- The columns of B. -/
def bColumns (ty : Ty) (b : List (List Byte)) (metas : List (BitVec 128)) : List (List FVal) :=
  b.zipIdx.map (fun (x, n) =>
    let v := leNat x
    (List.range (elemsPerLine ty)).map (fun k => lineElem ty v (metas.getD n 0) k))

/-! ### MMA, MMAS and DIST (R223) -/

/-- −2·v, with the exponent raised by 1 for the doubling. -/
def negTwice : FVal → FVal
  | .fin n m e => .fin (!n) m (e + 1)
  | v => negate v

/-- The terms of one pair of elements. -/
def pairTerms (dist : Bool) (a b : FVal) : List FVal :=
  if dist then [(mulExact a a).1, negTwice (mulExact a b).1, (mulExact b b).1] else [(mulExact a b).1]

/-- The terms of an entry. -/
def entryTerms (dist : Bool) (row col : List FVal) : List FVal :=
  (row.zip col).flatMap (fun p => pairTerms dist p.1 p.2)

/-- A checksum takes an exact sum in with one rounding. -/
def addChecksum (old : W32) (l : List FVal) : W32 :=
  BitVec.ofNat 32 (fAdd fmtF32 (.det .rne) true (fUnpack fmtF32 old.toNat) (exactSum l)).1

/-- Checksums as a table, from their values in order; +0 is not listed. -/
def sumTab (f : Nat → W32) (n : Nat) : Tab W32 :=
  (List.range n).filterMap (fun i => if f i = 0 then none else some (i, f i))

/-- One matrix instruction on a bank: rows of A, columns of B, the tags of rows and columns, and whether every entry that
it covers is green. -/
def mmaBank (bk : Bank) (ty : Ty) (dist checks : Bool) (rows cols : List (List FVal)) (rowG colG : Nat → Bool) (allG : Bool) : Bank :=
  let terms (k : Nat) : List FVal := entryTerms dist (rows.getD (k / 128) []) (cols.getD (k % 128) [])
  let bk1 := placeProducts bk (productWidth ty) (fun k => termsOf (terms k))
  let bk2 := bk1.mapE (fun k x =>
    { x with n := x.n || (terms k).any isSpecial
             g := x.g || allG || rowG (k / 128) || colG (k % 128) })
  if checks then
    { bk2 with
      rs := sumTab (fun i => addChecksum (tabGetD bk.rs i 0) ((List.range 128).flatMap (fun n => terms (entryKey i n)))) 64
      cs := sumTab (fun n => addChecksum (tabGetD bk.cs n 0) ((List.range 64).flatMap (fun i => terms (entryKey i n)))) 128 }
  else { bk2 with ckv := false }

/-! ### TOPK (R224) -/

/-- Entry a is chosen before entry b: N last, then by value, then by index. -/
def topkBefore (big : Bool) (A : Int) (a b : Nat × AccEntry) : Bool :=
  if a.2.n || b.2.n then (!a.2.n || (b.2.n && decide (a.1 < b.1)))
  else
    let x := entryVal A a.2
    let y := entryVal A b.2
    if fLess x y then !big else if fLess y x then big else decide (a.1 < b.1)

/-- The entry that comes first. -/
def topkFirst (big : Bool) (A : Int) : List (Nat × AccEntry) → Option (Nat × AccEntry)
  | [] => none
  | x :: l => match topkFirst big A l with
    | none => some x
    | some y => if topkBefore big A x y then some x else some y

/-- The first j entries. -/
def topkTake (big : Bool) (A : Int) : Nat → List (Nat × AccEntry) → List Nat
  | 0, _ => []
  | j + 1, l => match topkFirst big A l with
    | none => []
    | some x => x.1 :: topkTake big A j (l.filter (fun y => y.1 != x.1))

/-- A row's result: byte x holds the x-th index chosen. -/
def topkRow (bk : Bank) (big : Bool) (j row : Nat) : Nat :=
  (topkTake big bk.A j ((List.range 128).map (fun n => (n, bk.at row n)))).zipIdx.foldl (fun a x => a + x.1 * 256 ^ x.2) 0

/-- A row or column holds a green entry. -/
def rowGreen (bk : Bank) (i : Nat) : Bool := bk.e.any (fun x => x.1 / 128 == i && x.2.g)
def colGreen (bk : Bank) (n : Nat) : Bool := bk.e.any (fun x => x.1 % 128 == n && x.2.g)
def bankGreen (bk : Bank) : Bool := bk.e.any (fun x => x.2.g)

/-! ### ACCCHK (R227) -/

/-- |a − b| > T exactly, or one of them is not finite. -/
def mismatch (t e r : FVal) : Bool :=
  match addExact e (negate r), t with
  | .fin _ m x, .fin _ tm tx => isSpecial e || isSpecial r || !magLe m x tm tx
  | _, _ => true

/-- round_rne_f32(E − checksum). -/
def checkDiff (e r : FVal) : W32 := BitVec.ofNat 32 (fAdd fmtF32 (.det .rne) true e (negate r)).1

/-- The exact sum of a row's or a column's values. -/
def rowSum (bk : Bank) (i : Nat) : FVal := exactSum ((List.range 128).map (fun n => entryVal bk.A (bk.at i n)))
def colSum (bk : Bank) (n : Nat) : FVal := exactSum ((List.range 64).map (fun i => entryVal bk.A (bk.at i n)))
def rowCheck (bk : Bank) (i : Nat) : FVal := fUnpack fmtF32 (tabGetD bk.rs i 0).toNat
def colCheck (bk : Bank) (n : Nat) : FVal := fUnpack fmtF32 (tabGetD bk.cs n 0).toNat

/-! ### ACCADJ (R226) -/

/-- Adds one value into one entry. -/
def adjBank (bk : Bank) (row col : Nat) (dbl : Bool) (v : FVal) (green : Bool) : Bank :=
  let k := entryKey row col
  let bk1 := placeProducts bk (if dbl then 53 else 24) (fun i => if i = k then termsOf [v] else [])
  let x := tabGetD bk1.e k AccEntry.zero
  { bk1 with e := tabSet bk1.e k AccEntry.zero { x with n := x.n || isSpecial v, g := x.g || green } }

end Sys2Proof.Machine
end

