-- ==== Sys2Proof/Machine/Matrix.lean ====
section
/-!
DEFINITION. The forms of the matrix engine and of the accumulator banks (R207–R228), the array that runs them in order, the
quad rendezvous, and the pool of dynamic banks.
-/
namespace Sys2Proof.Machine

/-! ### Banks of a brick -/

/-- The physical bank that a logical number of the brick maps to (R207). -/
def physBank (s : State) (br : Brick) (k : Nat) : Option Nat :=
  match launchOf s br, wallOf s br with
  | some l, some w => if l.accDyn then tabGet? br.banks k else w.banks[k]?
  | _, _ => none

def bankAt (s : State) (core p : Nat) : Bank := tabGetD (coreOf s core).banks p Bank.zero
def putBank (s : State) (core p : Nat) (bk : Bank) : State :=
  modCore s core (fun x => { x with banks := tabSet x.banks p Bank.zero bk })

/-- The checks of R217 see a bank as the instructions accepted before will leave it. -/
def ArrOp.foresee (op : ArrOp) (bk : Bank) : Bank :=
  match op with
  | .accz => { bk with psn := false, ckv := true }
  | .mma checks _ _ _ _ _ _ _ _ _ _ _ _ _ => if checks then bk else { bk with ckv := false }
  | _ => bk

def bankAhead (s : State) (core p : Nat) : Bank :=
  ((coreOf s core).queue.filter (fun e => e.bank == p)).foldl (fun bk e => e.op.foresee bk) (bankAt s core p)

/-- Steps 4 to 6 of R217, then the rest of a form. -/
def withBank (s : State) (c : Ctx) (k : BitVec 4) (body : Nat → Bank → Res) : Res :=
  match physBank s c.br k.toNat with
  | none => .trap s (trapOf c 0x148#9)
  | some p =>
    let bk := bankAhead s c.br.core p
    if bk.psn then .trap s { trapOf c 0x146#9 with aux0 := 3, aux1 := k.setWidth 64 }
    else if c.br.det && bk.own != some c.b then .trap s (trapOf c 0x103#9)
    else body p bk

/-! ### Acceptance (R212) -/

/-- A brick-wide form of the matrix engine. -/
def arrForm (st : BitVec 3) (lanes unis : List Nat) (rd wr : List RName) (chk : List (Nat × Bool × Bool)) : Form :=
  { bareForm false true st .matrix with wide := true, lanes := lanes, unis := unis, rd := rd, wr := wr, chk := chk }

def queueFull (s : State) (core : Nat) : Bool := decide ((coreOf s core).queue.length ≥ 4)

/-- A read-out, which can raise flags (R225). -/
def ArrOp.readsOut : ArrOp → Bool
  | .accrd _ _ _ _ _ _ _ _ _ _ _ => true
  | .accwb _ _ _ _ _ _ _ => true
  | _ => false

/-- Enters the array queue; the registers that the form will write are interlocked. -/
def accept (s : State) (c : Ctx) (p : Nat) (k : BitVec 4) (names : List RName) (tEnd : Option Nat) (op : ArrOp) : State :=
  let e : ArrEntry := { brick := c.b, seq := c.br.seq, split := c.k, pc := c.sp.pc, gov := c.gov, ten := tenOf c
                        mask := c.sp.mask, bank := p, lbank := k.toNat, names := names.map (physName c.k), tEnd := tEnd, op := op }
  let s := modCore s c.br.core (fun x => { x with queue := x.queue ++ [e] })
  modBrick s c.b (fun br => { br with ilock := br.ilock ++ e.names, readouts := if e.op.readsOut then br.readouts ++ [e.seq] else br.readouts })

/-- Acceptance of a form that has no operation in flight beside its place in the queue. -/
def acceptPlain (s : State) (c : Ctx) (p : Nat) (k : BitVec 4) (names : List RName) (op : ArrOp) : Res :=
  .done (modBrick (accept s c p k names none op) c.b (fun br => { br with seq := br.seq + 1 }))

/-! ### ACCZ -/

/-- An ACCZ is accepted: it takes the bank's ownership. -/
def acceptZero (s : State) (c : Ctx) (p : Nat) (k : BitVec 4) : State :=
  putBank (modBrick (accept s c p k [] none .accz) c.b (fun br => { br with seq := br.seq + 1 })) c.br.core p
    { bankAt s c.br.core p with own := some c.b }

/-- Zeroes a bank, validates its checksums and takes ownership (R222, R212). -/
def execAccz (k : BitVec 4) (st : BitVec 3) (s : State) : Host.Outcome State Fault Refusal :=
  issueForm s (arrForm st [] [] [] [] []) (fun c =>
    match physBank s c.br k.toNat with
    | none => .trap s (trapOf c 0x148#9)
    | some p =>
      if c.br.det && (bankAt s c.br.core p).own != some c.b then parkSync s c (.accz k.toNat)
      else if queueFull s c.br.core then .hold
      else .done (acceptZero s c p k))

/-! ### MMA, MMAS, DIST -/

/-- The matrix operand word (R214). -/
structure OperandWord where
  ty   : Ty
  col  : Bool
  bm   : Nat
  tile : Nat
  deriving DecidableEq, Repr

/-- The fields of an operand word that the map allows. -/
def operandWord (dist : Bool) (w : W64) : Option OperandWord :=
  let col := w.getLsbD 45
  let bm := w.toNat / 2 ^ 20 % 2 ^ 20
  match Ty.ofCode (w.extractLsb' 40 5) with
  | none => none
  | some ty =>
    let ok := ty.isBlock || ty == .bf16 || ty == .f16 || ty == .e4m3 || ty == .e5m2
    if w.toNat / 2 ^ 46 != 0 || !ok || (!ty.isBlock && bm != 0) || (col && (dist || ty.width < 8)) then none
    else some ⟨ty, col, bm, w.toNat % 2 ^ 20⟩

/-- Step 8 of R217: alignment, then bounds. DESIGN CHOICE (log 132): both alignments, then both bounds, the A tile before B's
metadata. -/
def operandAddr (size nb : Nat) (o : OperandWord) : Option (BitVec 9 × Nat) :=
  let blk := o.ty.isBlock
  if o.tile % 64 != 0 then some (0x0C1#9, o.tile)
  else if blk && o.bm % 16 != 0 then some (0x0C1#9, o.bm)
  else if decide (o.tile + (if blk then 5120 else 4096) > size) then some (0x0C6#9, o.tile)
  else if blk && decide (o.bm + 16 * nb > size) then some (0x0C6#9, o.bm)
  else none

/-- Metadata words and their tags, from consecutive places. -/
def readMetas (s : State) (br : Brick) (off n : Nat) : List (BitVec 128) × List Bool :=
  ((List.range n).map (fun i => BitVec.ofNat 128 (leNat (readBytes s (localLoc s br (off + 16 * i)) 16))),
   (List.range n).map (fun i => lineG s (localLoc s br (off + 16 * i)).line))

/-- Column j of B among the registers from vb on, `n` to a thread, with the tag of each byte (R215, R216). -/
def bColumn (c : Ctx) (vb : Reg) (j : Nat) : List Byte × List Bool :=
  let t := j % 32
  let reg (y : Nat) : Reg := vb + BitVec.ofNat 6 (8 * (j / 32) + y / 8)
  ((List.range 64).map (fun y => ((c.w (reg y) t) >>> (8 * (y % 8))).setWidth 8),
   (List.range 64).map (fun y => c.hG (reg y) t (y % 8 / 4)))

/-- The lines that the operands lie on. -/
def operandLines (s : State) (br : Brick) (nb : Nat) (o : OperandWord) : List Loc :=
  let tile := (List.range (if o.ty.isBlock then 80 else 64)).map (fun i => localLoc s br (o.tile + 64 * i))
  let words := if o.ty.isBlock then (List.range nb).map (fun i => (localLoc s br (o.bm + 16 * i)).line) else []
  (tile ++ words).eraseDups

/-- An armed fault is spent by the next matrix product form (R366): the column whose sum is wrong, and how often. -/
def armedColumn (br : Brick) : Option (Nat × Nat) :=
  match br.armed with
  | some (.matrix col twice) => some (col, if twice then 2 else 1)
  | _ => none

def spendMatrix (br : Brick) : Brick :=
  match br.armed with
  | some (.matrix _ _) => { br with armed := none }
  | _ => br

/-- MMA, MMAS and DIST: the operands are captured at issue (R212, R214–R217). -/
def productForm (checks dist quad : Bool) (k : BitVec 4) (a b : Reg) (st : BitVec 3) (s : State) :
    Host.Outcome State Fault Refusal :=
  let regs := (List.range (if quad then 8 else 32)).map (fun i => b.toNat + i)
  let nb := if quad then 32 else 128
  let f := arrForm st regs [a.toNat] (nUni a :: regs.map RName.lane) [] (regs.map (fun r => (r, true, true)))
  issueForm s f (fun c =>
    withBank s c k (fun p _ =>
      match operandWord dist (c.u a) with
      | none => .trap s (trapOf c 0x142#9)
      | some o =>
        match operandAddr (localSize s c.br) nb o with
        | some (cause, off) => .trap s (trapAux c cause (BitVec.ofNat 64 off))
        | none =>
          if queueFull s c.br.core || wbBusy c.br || detReadHold s c then .hold
          else
            let (s, bad) := checkLines s (operandLines s c.br nb o)
            match bad with
            | l :: _ => .trap s { trapOf c 0x146#9 with aux0 := BitVec.ofNat 64 (structOf l), aux1 := BitVec.ofNat 64 l.report }
            | [] =>
              let v := if c.br.det then ownView s c.b c.br else s
              let (am, amG) := if o.ty.isBlock then readMetas v c.br (o.tile + 4096) 64 else ([], [])
              let (bm, bmG) := if o.ty.isBlock then readMetas v c.br o.bm nb else ([], [])
              let tile := (List.range 64).map (fun i => localLoc s c.br (o.tile + 64 * i))
              let cols := (List.range nb).map (bColumn c b)
              let op : ArrOp := .mma checks dist quad o.ty o.col (tile.map (fun l => readBytes v l 64)) (tile.map (lineG v))
                am amG (cols.map (·.1)) (cols.map (·.2)) bm bmG (armedColumn c.br)
              acceptPlain (modBrick s c.b spendMatrix) c p k [] op))

/-- Queues a core-form matrix multiply-accumulate into a bank (R223). -/
def execMmaC (k : BitVec 4) (a : Reg) (b : Reg) (st : BitVec 3) (s : State) : Host.Outcome State Fault Refusal :=
  productForm false false false k a b st s

/-- Queues a quad-form matrix multiply-accumulate that meets its three partners (R216). -/
def execMmaQ (k : BitVec 4) (a : Reg) (b : Reg) (st : BitVec 3) (s : State) : Host.Outcome State Fault Refusal :=
  productForm false false true k a b st s

/-- Queues a multiply-accumulate that also forms row and column checksums (R223). -/
def execMmas (k : BitVec 4) (a : Reg) (b : Reg) (st : BitVec 3) (s : State) : Host.Outcome State Fault Refusal :=
  productForm true false false k a b st s

/-- Queues an accumulation of squared differences between rows of A and columns of B (R223). -/
def execDist (k : BitVec 4) (a : Reg) (b : Reg) (st : BitVec 3) (s : State) : Host.Outcome State Fault Refusal :=
  productForm false true false k a b st s

/-! ### Reading and checking a bank -/

/-- Writes the indices of the j smallest or largest entries of each bank row (R224). -/
def execTopk (k : BitVec 4) (d : Reg) (n : BitVec 2) (max : Bool) (st : BitVec 3) (s : State) :
    Host.Outcome State Fault Refusal :=
  issueForm s (arrForm st [d.toNat] [] [] [nLane d] []) (fun c =>
    withBank s c k (fun p _ =>
      if queueFull s c.br.core then .hold
      else acceptPlain s c p k [nLane d] (.topk d.toNat (n.toNat + 1) max)))

/-- The read-out control word (R225). -/
structure ReadWord where
  clp  : Bool
  tr   : Bool
  dd   : Bool
  rm   : Rm
  ty   : Ty
  row  : Nat
  col  : Nat
  base : Nat
  deriving DecidableEq, Repr

/-- A destination type of R225. -/
def readTy (ty : Ty) : Bool := (fmtOf ty).isSome

/-- The value is below zero. -/
def isNeg : FVal → Bool
  | .nan _ => false
  | .inf n => n
  | .fin n m _ => n && m != 0

/-- The control word's fields, or the cause of one that the map forbids. The order of the causes of a word with several such
fields is the model's choice: forbidden fields, then a reserved rounding code, then a negative bound (log 112). -/
def readWord (wb : Bool) (vd : Nat) (w : W64) (bound : FVal) (mode : Rm) : Except (BitVec 9) ReadWord :=
  let clp := w.getLsbD 43
  let tr := w.getLsbD 42
  let dd := w.getLsbD 41
  let rmc := w.extractLsb' 38 3
  let row := w.toNat / 2 ^ 27 % 64
  let col := w.toNat / 2 ^ 20 % 128
  let base := w.toNat % 2 ^ 20
  match Ty.ofCode (w.extractLsb' 33 5) with
  | none => .error 0x142#9
  | some ty =>
    let m := if ty == .f64 then 32 else 64
    let range := if tr then decide (row + m ≤ 64) else decide (col + m ≤ 128)
    if w.toNat / 2 ^ 44 != 0 || !readTy ty || (if wb then tr || dd || row != 0 || col != 0 else base != 0) || (!wb && !range) ||
        (dd && (ty != .f64 || clp || rmc != 0#3 || vd == 63)) then .error 0x142#9
    else
      match Rm.ofCode rmc with
      | none => .error 0x002#9
      | some .rsr => .error 0x002#9
      | some rm =>
        if clp && isNeg bound then .error 0x142#9
        else .ok ⟨clp, tr, dd, if rm == .dyn then mode else rm, ty, row, col, base⟩

/-- The scale multiplier and the clip bound of a read-out. -/
def readScale (v : W64) : W32 := v.extractLsb' 0 32
def readBound (v : W64) : W32 := v.extractLsb' 32 32

/-- Reads a run of bank entries into lane registers with one rounding (R225). -/
def execAccrd (k : BitVec 4) (d : Reg) (a : Reg) (st : BitVec 3) (s : State) : Host.Outcome State Fault Refusal :=
  let f := arrForm st [d.toNat] [a.toNat, (nxt a).toNat] [nUni a, nUni (nxt a)] [nLane d] []
  issueForm s f (fun c =>
    withBank s c k (fun p _ =>
      let v := c.u a
      match readWord false d.toNat (c.u (nxt a)) (fUnpack fmtF32 (readBound v).toNat) c.br.rm with
      | .error cause => .trap s (trapOf c cause)
      | .ok w =>
        let names := if w.dd then [nLane d, nLane (nxt d)] else [nLane d]
        if w.dd && (staticCheck c { f with lanes := [d.toNat + 1] }).isSome then .trap s (trapOf c 0x007#9)
        else if w.dd && interlocked c (physName c.k (nLane (nxt d))) then .hold
        else if w.dd && sbcOn c.br && pendingOn c (physName c.k (nLane (nxt d))) then .trap s { trapOf c 0x049#9 with reg := d.toNat + 1 }
        else if queueFull s c.br.core then .hold
        else acceptPlain s c p k names
          (.accrd d.toNat (readScale v) (readBound v) (c.uG a) w.clp w.tr w.dd w.rm w.ty w.row w.col)))

/-- Writes the whole bank tile to local memory with one rounding per entry (R225). -/
def execAccwb (k : BitVec 4) (a : Reg) (st : BitVec 3) (s : State) : Host.Outcome State Fault Refusal :=
  let f := arrForm st [] [a.toNat, (nxt a).toNat] [nUni a, nUni (nxt a)] [] []
  issueForm s f (fun c =>
    withBank s c k (fun p _ =>
      let v := c.u a
      match readWord true 0 (c.u (nxt a)) (fUnpack fmtF32 (readBound v).toNat) c.br.rm with
      | .error cause => .trap s (trapOf c cause)
      | .ok w =>
        if w.base % 64 != 0 then .trap s (trapAux c 0x0C1#9 (BitVec.ofNat 64 w.base))
        else if decide (w.base + 1024 * w.ty.width > localSize s c.br) then .trap s (trapAux c 0x0C6#9 (BitVec.ofNat 64 w.base))
        else if queueFull s c.br.core || acqBlocked c.br then .hold
        else
          let tEnd := bufferEnd s c
          .done (pushFlight (accept s c p k [] tEnd (.accwb w.base (readScale v) (readBound v) (c.uG a) w.clp w.rm w.ty))
            c f none tEnd none .accwb)))

/-- Adds one lane value into one entry without touching the checksums (R226). -/
def execAccadj (k : BitVec 4) (v : Reg) (a : Reg) (st : BitVec 3) (s : State) : Host.Outcome State Fault Refusal :=
  let f := { arrForm st [v.toNat] [a.toNat] [nLane v, nUni a] [] [] with ownPsn := true }
  issueForm s f (fun c =>
    withBank s c k (fun p _ =>
      let w := c.u a
      let t := w.toNat / 2 ^ 16 % 32
      let dbl := w.getLsbD 24
      let h0 := c.half v t 0
      let h1 := c.half v t 1
      if w &&& ~~~0x11F3F7F#64 != 0#64 then .trap s (trapOf c 0x142#9)
      else if h0.u || (dbl && h1.u) then .trap s ⟨0x048#9, v.toNat, t, 1, none, 0, 0⟩
      else if h0.p || (dbl && h1.p) then .trap s ⟨0x146#9, 0, t, 1, none, 0, v.setWidth 64⟩
      else if queueFull s c.br.core then .hold
      else acceptPlain s c p k []
        (.accadj (w.toNat / 256 % 64) (w.toNat % 128) dbl (c.w v t) (if dbl then c.wG v t else c.hG v t 0))))

/-- Compares the bank with its checksums and writes mismatch masks and differences (R227). DESIGN CHOICE (log 132): T is tested before
the bank's checksums. -/
def execAccchk (k : BitVec 4) (d : Reg) (v : Reg) (st : BitVec 3) (s : State) : Host.Outcome State Fault Refusal :=
  let us := [d.toNat, d.toNat + 1, d.toNat + 2]
  let vs := [v.toNat, v.toNat + 1, v.toNat + 2]
  let names := us.map RName.uni ++ vs.map RName.lane
  issueForm s (arrForm st vs us [nUni d] names []) (fun c =>
    withBank s c k (fun p bk =>
      let t := fUnpack fmtF32 ((c.u d).toNat % 2 ^ 32)
      if isSpecial t || isNeg t then .trap s (trapOf c 0x142#9)
      else if !bk.ckv then .trap s (trapOf c 0x149#9)
      else if queueFull s c.br.core then .hold
      else acceptPlain s c p k names (.accchk d.toNat v.toNat ((c.u d).setWidth 32))))

/-! ### The array at work (R212, R213, R219–R221) -/

/-- What one instruction leaves: the bank, register writes, flags of threads, the lines of a write-back, a cause, its occupancy, and
how often its residue check failed. -/
structure ArrDone where
  bank   : Bank
  writes : List RegWrite
  fx     : List (Nat × Flags)
  lines  : List (List Byte × Bool)
  cause  : Option (BitVec 9)
  occ    : Nat
  fails  : Nat := 0
  deriving DecidableEq, Repr

/-- The integer significand of an element, with its sign. -/
def sigOf : FVal → Int
  | .fin n m _ => if n then -(m : Int) else m
  | _ => 0

/-- The sum of the integer significand products of a column with every row, and the residue that its operands give (R220). -/
def columnSum (rows : List (List FVal)) (col : List FVal) : Int :=
  (rows.flatMap (fun r => (r.zip col).map (fun p => sigOf p.1 * sigOf p.2))).foldl (· + ·) 0

def columnResidue (rows : List (List FVal)) (col : List FVal) : Int :=
  (rows.flatMap (fun r => (r.zip col).map (fun p => sigOf p.1 % 3 * (sigOf p.2 % 3)))).foldl (· + ·) 0

/-- The check of a column modulo 3, when its sum comes out wrong by `err`. -/
def residueFails (rows : List (List FVal)) (col : List FVal) (err : Int) : Bool :=
  (columnSum rows col + err) % 3 != columnResidue rows col % 3

/-- How often a product form's residue check fails, of at most two runs: the faulted column is the only one whose sum can differ. -/
def failures (rows cols : List (List FVal)) : Option (Nat × Nat) → Nat
  | none => 0
  | some (n, times) => if residueFails rows (cols.getD n []) 1 then min times 2 else 0

/-- A product form with its whole B operand: its metadata words, then its residues, then its sums (R219, R220, R223). -/
def runProduct (e : ArrEntry) (bk : Bank) (checks dist : Bool) (ty : Ty) (col : Bool) (aLines : List (List Byte)) (aG : List Bool)
    (aMeta : List (BitVec 128)) (aMetaG : List Bool) (b : List (List Byte)) (bG : List (List Bool)) (bMeta : List (BitVec 128))
    (bMetaG : List Bool) (fault : Option (Nat × Nat)) : ArrDone :=
  let once := if dist then 64 else 32
  if (aMeta ++ bMeta).any metaFails then ⟨{ bk with psn := true }, [], [], [], some 0x141#9, once, 0⟩
  else if (aMeta ++ bMeta).any (metaWrong ty) then ⟨bk, [], [], [], some 0x142#9, once, 0⟩
  else
    let rows := tileRows ty col aLines aMeta
    let cols := bColumns ty b bMeta
    let fails := failures rows cols fault
    if fails ≥ 2 then ⟨{ bk with psn := true }, [], [], [], some 0x14B#9, 2 * once, fails⟩
    else
      let rowG (i : Nat) : Bool := tileRowG ty col aG i
      let colG (n : Nat) : Bool := (bG.getD n []).any id
      let allG := e.gov || ty.width ≤ 8 || aMetaG.any id || bMetaG.any id
      let new := mmaBank bk ty dist checks rows cols rowG colG allG
      ⟨new, [], [], [], if newV bk new then some 0x140#9 else none, (fails + 1) * once, fails⟩

/-- Entry x of a read-out run. -/
def runEntryAt (bk : Bank) (tr : Bool) (row col x : Nat) : AccEntry := if tr then bk.at (row + x) col else bk.at row (col + x)

/-- The tag of a converted entry (R95, R86). -/
def readTag (ty : Ty) (g : Bool) (fl : Flags) : Bool := cvtTag ty .f64 fl g

/-- ACCRD. -/
def runRead (e : ArrEntry) (bk : Bank) (vd : Nat) (sc bd : W32) (sG clp tr dd : Bool) (rm : Rm) (ty : Ty) (row col : Nat) : ArrDone :=
  let p := physReg e.split vd
  let p1 := physReg e.split (vd + 1)
  let sv := fUnpack fmtF32 sc.toNat
  let bv := fUnpack fmtF32 bd.toNat
  let outs := (List.range (if ty == .f64 then 32 else 64)).map (fun x =>
    let en := runEntryAt bk tr row col x
    let v := entryVal bk.A en
    if dd then
      let (hi, lo, fl) := readDd v
      (wLane64 p x (BitVec.ofNat 64 hi) (e.gov || en.g) ++ wLane64 p1 x (BitVec.ofNat 64 lo) (e.gov || en.g), x, fl)
    else
      let (r, fl) := readOut ((fmtOf ty).getD fmtF32) rm clp v sv bv
      let g := e.gov || readTag ty (en.g || sG) fl
      if ty == .f64 then (wLane64 p x (BitVec.ofNat 64 r) g, x, fl)
      else ([wHalf p (x / 2) (x % 2) (BitVec.ofNat 32 r) g], x / 2, fl))
  ⟨bk, outs.flatMap (·.1), (outs.map (fun o => (o.2.1, o.2.2))).filter (fun x => x.2 != flagNone), [], none, if dd then 8 else 4, 0⟩

/-- ACCWB: the lines of the tile in order. -/
def runWriteBack (e : ArrEntry) (bk : Bank) (sc bd : W32) (sG clp : Bool) (rm : Rm) (ty : Ty) : ArrDone :=
  let sz := ty.width / 8
  let sv := fUnpack fmtF32 sc.toNat
  let bv := fUnpack fmtF32 bd.toNat
  let one (k : Nat) : List Byte × Bool × Flags :=
    let en := bk.at (k / 128) (k % 128)
    let (r, fl) := readOut ((fmtOf ty).getD fmtF32) rm clp (entryVal bk.A en) sv bv
    (leBytes sz r, readTag ty (en.g || sG) fl, fl)
  let line (j : Nat) : List (List Byte × Bool × Flags) := (List.range (64 / sz)).map (fun i => one (j * (64 / sz) + i))
  let lines := (List.range (128 * sz)).map line
  let fl := lines.foldl (fun a l => l.foldl (fun a x => a ||| x.2.2) a) flagNone
  ⟨bk, [], if fl == flagNone then [] else (threadsOf e.mask).map (fun t => (t, fl)),
    lines.map (fun l => (l.flatMap (·.1), e.gov || sG || l.any (·.2.1))), none, 128 * sz, 0⟩

/-- ACCCHK. -/
def runCheck (e : ArrEntry) (bk : Bank) (sd vd : Nat) (tol : W32) : ArrDone :=
  let t := fUnpack fmtF32 tol.toNat
  let ur (i : Nat) : Nat := physReg e.split (sd + i)
  let vr (i : Nat) : Nat := physReg e.split (vd + i)
  let rowBit (i : Nat) : Bool := mismatch t (rowSum bk i) (rowCheck bk i)
  let colBit (n : Nat) : Bool := mismatch t (colSum bk n) (colCheck bk n)
  let g := e.gov || bankGreen bk
  let rows := (List.range 64).map (fun i =>
    wHalf (vr 0) (i / 2) (i % 2) (checkDiff (rowSum bk i) (rowCheck bk i)) (e.gov || rowGreen bk i))
  let cols := (List.range 128).map (fun n =>
    wHalf (vr (1 + n / 64)) (n % 64 / 2) (n % 2) (checkDiff (colSum bk n) (colCheck bk n)) (e.gov || colGreen bk n))
  ⟨bk, [.uni (ur 0) (bitsOf rowBit 64) g, .uni (ur 1) (bitsOf colBit 64) g, .uni (ur 2) (bitsOf (fun i => colBit (64 + i)) 64) g] ++
    rows ++ cols, [], [], none, 16, 0⟩

/-- A bank as ACCZ leaves it: the entries of a governed one are green (R172, R222). -/
def zeroBank (own : Option Nat) (green : Bool) : Bank :=
  { (if green then Bank.zero.mapE (fun _ x => { x with g := true }) else Bank.zero) with own := own }

/-- One queued instruction on its bank. One that meets a poisoned bank, ACCZ apart, does nothing and traps (R217, R218). -/
def runOp (e : ArrEntry) (bk : Bank) : ArrDone :=
  if bk.psn && e.op != .accz then ⟨bk, [], [], [], some 0x146#9, 0, 0⟩
  else
  match e.op with
  | .accz => ⟨zeroBank bk.own e.gov, [], [], [], none, 16, 0⟩
  | .mma checks dist _ ty col al aG am amG b bG bm bmG fault => runProduct e bk checks dist ty col al aG am amG b bG bm bmG fault
  | .topk vd n big =>
    ⟨bk, (List.range 64).map (fun i =>
      wHalf (physReg e.split vd) (i / 2) (i % 2) (BitVec.ofNat 32 (topkRow bk big n i)) (e.gov || rowGreen bk i)), [], [], none, 32, 0⟩
  | .accrd vd sc bd sG clp tr dd rm ty row col => runRead e bk vd sc bd sG clp tr dd rm ty row col
  | .accwb _ sc bd sG clp rm ty => runWriteBack e bk sc bd sG clp rm ty
  | .accadj row col dbl v g =>
    let x := if dbl then fUnpack fmtF64 v.toNat else fUnpack fmtF32 (v.toNat % 2 ^ 32)
    let new := adjBank bk row col dbl x (e.gov || g)
    ⟨new, [], [], [], if newV bk new then some 0x140#9 else none, 2, 0⟩
  | .accchk sd vd tol => runCheck e bk sd vd tol

def ArrEntry.isQuad (e : ArrEntry) : Bool :=
  match e.op with
  | .mma _ _ q _ _ _ _ _ _ _ _ _ _ _ => q
  | _ => false

/-- A trap that a queued instruction raises at its form (R221, R228). -/
def arrTrap (s : State) (e : ArrEntry) (cause : BitVec 9) : State :=
  reportLate s e.brick e.split
    { cycle := s.clk, cause := cause, two := false, prec := cause != 0x140#9, more := false, fatal := fatalCause cause, reg := 0
      split := e.split % 4, count := (threadsOf e.mask).length, thread := lowThread e.mask, addr := e.pc, mask := e.mask
      aux0 := (if cause == 0x146#9 then 3 else 0), aux1 := (if cause == 0x146#9 then BitVec.ofNat 64 e.lbank else 0)
      ret := if cause == 0x140#9 then e.pc + 4 else e.pc }

/-- Takes one use of each name out of the interlocks. -/
def unlock (l names : List RName) : List RName := names.foldl (fun l n => l.erase n) l

/-- The log entries of a product form's failures (R218–R220): location words are free. -/
def logArray (s : State) (core kind strct : Nat) : State :=
  let (i, s) := nextFree s
  logAdd s (dieOfCore core) kind strct (some core) (Config.word i).toNat

/-- The write-back's lines: performed at once, or, in a deterministic launch, buffered in their place in the brick's order
(R197, R225). Nothing is left of them when the operation was dropped at a kill. -/
def writeBack (s : State) (e : ArrEntry) (lines : List (List Byte × Bool)) : State :=
  match e.op, tabGet? s.bricks e.brick with
  | .accwb base _ _ _ _ _ _, some br =>
    if !br.flights.any (fun f => f.seq == e.seq && f.kind == .accwb && !f.done) then s
    else
      let at_ (j : Nat) : Loc := localLoc s br (base + 64 * j)
      if e.tEnd.isNone then modBrick (writeSlot s (at_ 0) lines) e.brick (fun br => finishFlight br e.seq)
      else
        let puts : List Put := lines.zipIdx.map (fun (l, j) => ⟨⟨0, at_ j, base + 64 * j, 64, false⟩, l.1, l.2⟩)
        modBrick s e.brick (fun br => { br with flights := br.flights.map (fun f =>
          if f.seq == e.seq then { f with kind := .store puts false } else f) })
  | _, _ => s

/-- The array runs one instruction whose B operand is complete. -/
def runEntry (s : State) (core : Nat) (e : ArrEntry) : State :=
  let r := runOp e (bankAt s core e.bank)
  let s := if r.fails ≥ 1 then logArray s core 3 10 else s
  let s := if r.bank.psn && !(bankAt s core e.bank).psn then logArray s core 5 3 else s
  let s := putBank s core e.bank r.bank
  let s := modCore s core (fun x => { x with busy := s.clk + r.occ })
  let s := modBrick s e.brick (fun br =>
    { applyWrites br r.writes with
      ilock := unlock br.ilock e.names, readouts := br.readouts.erase e.seq
      fxq := if r.fx.isEmpty then br.fxq else br.fxq ++ [⟨s.clk + 1, e.seq, r.fx, e.split, e.pc, false, e.ten⟩] })
  let s := writeBack s e r.lines
  match r.cause with
  | some cause => arrTrap s e cause
  | none => s

def popQueue (s : State) (core : Nat) : State := modCore s core (fun x => { x with queue := x.queue.drop 1 })

/-- The array takes the oldest queued matrix instruction and runs it on its bank (R212). -/
def execArrayRun (core : Nat) (s : State) : Host.Outcome State Fault Refusal :=
  if core ≥ 128 then .fault .noTarget
  else
    match (coreOf s core).queue with
    | [] => .next s
    | e :: _ =>
      if e.isQuad || decide (s.clk < (coreOf s core).busy) then .next s
      else .next (runEntry (popQueue s core) core e)

/-! ### The quad rendezvous (R216) -/

/-- The quad operation at the head of a core's queue. -/
def quadHead (s : State) (core : Nat) : Option ArrEntry :=
  match (coreOf s core).queue with
  | [] => none
  | e :: _ => if e.isQuad then some e else none

def quadCores (quad : Nat) : List Nat := [4 * quad, 4 * quad + 1, 4 * quad + 2, 4 * quad + 3]

/-- The waiting operations of a quad, with their cores. -/
def quadHeads (s : State) (quad : Nat) : List (Nat × ArrEntry) :=
  (quadCores quad).filterMap (fun c => (quadHead s c).map (fun e => (c, e)))

/-- The element type of a product form. -/
def ArrEntry.ty (e : ArrEntry) : Option Ty :=
  match e.op with
  | .mma _ _ _ ty _ _ _ _ _ _ _ _ _ _ => some ty
  | _ => none

/-- What an operation supplies of B. -/
def quarterB (e : ArrEntry) : List (List Byte) × List (List Bool) × List (BitVec 128) × List Bool :=
  match e.op with
  | .mma _ _ _ _ _ _ _ _ _ b bG bm bmG _ => (b, bG, bm, bmG)
  | _ => ([], [], [], [])

/-- One of the four instructions with all of B, its quarters in core order. -/
def joinB (es : List ArrEntry) (e : ArrEntry) : ArrEntry :=
  let qs := es.map quarterB
  match e.op with
  | .mma ch di q ty col al aG am amG _ _ _ _ fault =>
    let op : ArrOp := .mma ch di q ty col al aG am amG (qs.flatMap (fun x => x.1)) (qs.flatMap (fun x => x.2.1))
      (qs.flatMap (fun x => x.2.2.1)) (qs.flatMap (fun x => x.2.2.2)) fault
    { e with op := op }
  | _ => e

/-- The brick of an entry was killed: its rendezvous fails (R361). -/
def entryKilled (s : State) (e : ArrEntry) : Bool := (tabGet? s.bricks e.brick).all (·.killed)

/-- The brick of an entry is live. -/
def entryLive (s : State) (e : ArrEntry) : Bool :=
  match tabGet? s.bricks e.brick with
  | some br => !br.killed && br.threads != 0#32
  | none => false

/-- No brick of the launch is left, or will come, on a core. -/
def coreLeft (s : State) (launch core : Nat) : Bool :=
  !(liveBricks s launch).any (fun x => x.2.core == core && x.2.threads != 0#32) &&
    ((s.walls.any (fun w => w.2.launch == launch && w.2.core == core && !w.2.saved)) ||
     (match tabGet? s.launches launch with
      | some l => decide (((l.placed.map (·.2)).foldl (· + ·) 0) ≥ l.walls)
      | none => true))

/-- A rendezvous that cannot come about: a partner was killed while it waited (R361), or a core of the quad has no brick of the
launch left and no operation waiting (R216). -/
def quadBroken (s : State) (quad : Nat) : Bool :=
  let hs := quadHeads s quad
  hs.any (fun x => entryKilled s x.2) ||
    (quadCores quad).any (fun c => !(coreOf s c).queue.any ArrEntry.isQuad && hs.any (fun x =>
      match tabGet? s.bricks x.2.brick with
      | some br => coreLeft s br.launch c
      | none => true))

/-- Some operations leave their queues, those of live bricks with a trap. -/
def failQuad (s : State) (cause : BitVec 9) (hs : List (Nat × ArrEntry)) : State :=
  hs.foldl (fun s x => let s := popQueue s x.1; if entryLive s x.2 then arrTrap s x.2 cause else s) s

/-- The launch of an entry's brick. -/
def entryLaunch (s : State) (e : ArrEntry) : Option Nat := (tabGet? s.bricks e.brick).map (·.launch)

/-- A quad operation has failed before a core's instruction of it stood at the head of its queue: the launch's next one there belongs to
it, and fails too (R216). -/
def oweQuad (s : State) (quad : Nat) (hs : List (Nat × ArrEntry)) : State :=
  match hs.head?.bind (fun x => entryLaunch s x.2) with
  | none => s
  | some l => ((quadCores quad).filter (fun c => !hs.any (fun x => x.1 == c) && !coreLeft s l c)).foldl
      (fun s c => modCore s c (fun x => { x with qfail := x.qfail ++ [l] })) s

/-- An instruction at the head of its queue whose quad operation has already failed. -/
def owedHead (s : State) (quad : Nat) : Option (Nat × ArrEntry) :=
  (quadHeads s quad).find? (fun x => (entryLaunch s x.2).any (fun l => (coreOf s x.1).qfail.contains l))

/-- It fails, and its core owes none for it any more. -/
def failOwed (s : State) (x : Nat × ArrEntry) : State :=
  failQuad (modCore s x.1 (fun y => { y with qfail := y.qfail.erase ((entryLaunch s x.2).getD 0) })) 0x100#9 [x]

/-- The four MMA.q of a quad operation run together once all are present: the m-th on each core (R216). -/
def execQuadRendezvous (quad : Nat) (s : State) : Host.Outcome State Fault Refusal :=
  if quad ≥ 32 then .fault .noTarget
  else
    let hs := quadHeads s quad
    if hs.isEmpty then .next s
    else match owedHead s quad with
    | some x => .next (failOwed s x)
    | none =>
    if quadBroken s quad then .next (failQuad (oweQuad s quad hs) 0x100#9 hs)
    else if hs.length != 4 || hs.any (fun x => decide (s.clk < (coreOf s x.1).busy)) then .next s
    else
      let es := hs.map (·.2)
      if es.any (fun e => e.ty != (es.head?.bind ArrEntry.ty)) then .next (failQuad s 0x142#9 hs)
      else .next (hs.foldl (fun s x => runEntry (popQueue s x.1) x.1 (joinB es x.2)) s)

/-! ### Dynamic banks (R209–R211) -/

/-- The banks that static walls hold on a core. -/
def staticBanks (s : State) (core : Nat) : List Nat :=
  (s.walls.filter (fun w => w.2.core == core && !w.2.ended && !w.2.saved)).flatMap (fun w => w.2.banks)

/-- The brick still has accepted work on a core's array, on one of some banks. -/
def arrayWork (s : State) (core b : Nat) (sel : Nat → Bool) : Bool :=
  (coreOf s core).queue.any (fun e => e.brick == b && sel e.bank)

/-- A brick that still holds its banks: one whose end has not taken effect (R298), or whose accepted work is not finished (R209). -/
def holdsBanks (s : State) (x : Nat × Brick) : Bool :=
  (x.2.standing && !savedBrick s x.2) || arrayWork s x.2.core x.1 (fun _ => true)

/-- The banks that bricks of a core were granted. -/
def grantedBanks (s : State) (core : Nat) : List Nat :=
  (s.bricks.filter (fun x => x.2.core == core && holdsBanks s x)).flatMap (fun x => x.2.banks.map (·.2))

/-- The free banks of a core's pool, lowest first. -/
def poolBanks (s : State) (core : Nat) : List Nat :=
  (List.range 16).filter (fun p => !(staticBanks s core).contains p && !(grantedBanks s core).contains p)

/-- The n lowest logical numbers that a brick does not hold. -/
def freeNumbers (br : Brick) (n : Nat) : List Nat := ((List.range 16).filter (fun k => (tabGet? br.banks k).isNone)).take n

/-- Grants n banks to a brick: the state and the mask. DESIGN CHOICE (log 131): the banks come in the state of ACCZ, cured, to a governed
split as well. -/
def grantBanks (s : State) (b n : Nat) : State × W64 :=
  match tabGet? s.bricks b with
  | none => (s, 0)
  | some br =>
    let ks := freeNumbers br n
    let ps := (poolBanks s br.core).take n
    let s := ps.foldl (fun s p => putBank s br.core p { Bank.zero with own := some b }) s
    (modBrick s b (fun br => { br with banks := (ks.zip ps).foldl (fun t x => tabPut t x.1 x.2) br.banks }),
     BitVec.ofNat 64 (ks.foldl (fun a k => a + 2 ^ k) 0))

/-- The pool and the brick's numbers allow a request of n. -/
def canGrant (s : State) (b n : Nat) : Bool :=
  match tabGet? s.bricks b with
  | none => false
  | some br => decide (n ≤ (poolBanks s br.core).length) && decide (n ≤ (freeNumbers br 16).length)

/-- A matrix-engine form of the uniform class 3. -/
def bankForm (st : BitVec 3) (a : Reg) (d : Option Reg) : Form := { syncForm false st [a] d with engine := .matrix }

/-- Asks the core's dynamic pool for n accumulator banks, parking in issue order (R209). -/
def execAccalloc (d : Reg) (a : Reg) (k : BitVec 5) (st : BitVec 3) (s : State) : Host.Outcome State Fault Refusal :=
  issueForm s (bankForm st a (some d)) (fun c =>
    let n := numOf c a k
    let dyn := match launchOf s c.br with
      | some l => l.accDyn
      | none => false
    if !dyn || n = 0 || decide (n > (freeNumbers c.br 16).length) || decide (n > 16 - (staticBanks s c.br.core).length) then
      .trap s (trapOf c 0x14A#9)
    else if c.br.det then parkSync s c (.accalloc n (c.pu d) (nameG c a))
    else if (coreOf s c.br.core).reqs.isEmpty && canGrant s c.b n then
      let (s, v) := grantBanks s c.b n
      giveNow s c d v (nameG c a)
    else .park (modCore s c.br.core (fun x => { x with reqs := x.reqs ++ [⟨c.b, c.k, n⟩] })) (.accalloc n (c.pu d) (nameG c a)) none)

/-- The request that the pool serves next by itself: the oldest, unless it is one of a deterministic launch, which is evaluated at its
own time (R209, R299). -/
def nextGrant (s : State) (core : Nat) : Option AccReq :=
  match (coreOf s core).reqs with
  | [] => none
  | r :: _ => if canGrant s r.brick r.n && (waitOf s r.brick r.split).all (fun w => w.sync.isNone) then some r else none

/-- A request's turn has come: no older one waits on the core. -/
def reqFirst (s : State) (core b k : Nat) : Bool := (coreOf s core).reqs.head?.all (fun r => r.brick == b && r.split == k)

/-- A request that has to wait stands in the queue once. -/
def queueReq (s : State) (core : Nat) (r : AccReq) : State :=
  modCore s core (fun x => { x with reqs := if x.reqs.contains r then x.reqs else x.reqs ++ [r] })

/-- Serves a request: the split's form ends with the mask. -/
def serveBanks (s : State) (r : AccReq) : State :=
  let (s, v) := grantBanks s r.brick r.n
  modSplit s r.brick r.split (fun sp => { sp with wait := sp.wait.map (fun w =>
    match w.op with
    | .accalloc _ d g => { w with op := .give d v g }
    | _ => w) })

/-- The dynamic pool serves the oldest waiting bank request (R209). -/
def execAccallocGrant (core : Nat) (s : State) : Host.Outcome State Fault Refusal :=
  if core ≥ 128 then .fault .noTarget
  else
    match nextGrant s core with
    | none => .next s
    | some r => .next (serveBanks (modCore s core (fun x => { x with reqs := x.reqs.drop 1 })) r)

/-- The splits of a brick that can go on: in the trap slot, its handler's (R352). -/
def Brick.goes (br : Brick) : Tab Split := br.splits.filter (fun x => !br.frozen x.1)

/-- Every split of the brick that could go on waits for banks, or for a join, and one of them for banks. -/
def parkedForBanks (br : Brick) : Bool :=
  br.trap.isNone &&
  br.goes.all (fun x => match x.2.wait with
    | some w => (match w.op with
      | .accalloc _ _ _ => true
      | .join _ => true
      | _ => false)
    | none => false) &&
  br.goes.any (fun x => match x.2.wait with
    | some w => (match w.op with
      | .accalloc _ _ _ => true
      | _ => false)
    | none => false)

/-- Brick x is younger than brick y (R210). -/
def younger (x y : Brick) : Bool :=
  decide (x.placed > y.placed) || (x.placed == y.placed && (decide (x.part > y.part) || (x.part == y.part && decide (x.slot > y.slot))))

/-- The brick that the deadlock rule picks on a core: the youngest of the holders, when all are parked (R210). One that has ended
and holds banks while the array has work of it is not parked. -/
def bankVictim (s : State) (core : Nat) : Option Nat :=
  let hs := s.bricks.filter (fun x => x.2.core == core && holdsBanks s x && !x.2.banks.isEmpty)
  if hs.isEmpty || !hs.all (fun x => x.2.alive && parkedForBanks x.2) then none
  else (hs.find? (fun x => hs.all (fun y => y.1 == x.1 || younger x.2 y.2))).map (·.1)

/-- Returns a brick's banks of a mask to the pool. -/
def freeBanks (s : State) (b : Nat) (ks : List Nat) : State :=
  modBrick s b (fun br => { br with banks := ks.foldl (fun t k => tabDel t k) br.banks })

/-- Returns accumulator banks to the pool once the array has finished with them (R209). -/
def execAccfree (a : Reg) (k : BitVec 5) (st : BitVec 3) (s : State) : Host.Outcome State Fault Refusal :=
  issueForm s (bankForm st a none) (fun c =>
    let ks := if a = 0#6 then [k.toNat] else (List.range 16).filter (fun i => (c.u a).getLsbD i)
    let dyn := match launchOf s c.br with
      | some l => l.accDyn
      | none => false
    if !dyn then .trap s (trapOf c 0x14A#9)
    else if ks.any (fun i => (tabGet? c.br.banks i).isNone) then .trap s (trapOf c 0x148#9)
    else if arrayWork s c.br.core c.b (fun p => ks.any (fun i => tabGet? c.br.banks i == some p)) then .park s (.accfree ks) none
    else .done (freeBanks s c.b ks))

end Sys2Proof.Machine
end

