-- ==== Sys2Proof/Machine/End.lean ====
section
/-!
DEFINITION. How bricks end: EXIT (R156), the kill (R361), and what the end of a brick does to the objects it held.
-/
namespace Sys2Proof.Machine

/-! ### What an ended brick leaves -/

/-- The rows of the brick go to its role's pool on its partition (R109). -/
def returnRows (s : State) (br : Brick) : State :=
  modWall s br.wall (fun w =>
    let k := 4 * br.part + br.role
    { w with pools := tabSet w.pools k 0 (tabGetD w.pools k 0 + 8 * br.gran) })

/-- Takes the brick out of every hod: its held slots are free, its parked forms are withdrawn. -/
def leaveHods (s : State) (b : Nat) : State :=
  { s with walls := s.walls.map (fun w => (w.1, { w.2 with hods := w.2.hods.map (fun h => (h.1,
      { h.2 with heldBy := h.2.heldBy.filter (fun x => x.1 != b), prods := h.2.prods.filter (fun x => x.1 != b)
                 cons := h.2.cons.filter (fun x => x.1 != b) })) })) }

/-- Takes the brick's parked acquires and bank requests out of their queues. -/
def leaveQueues (s : State) (b : Nat) : State :=
  { s with sems := s.sems.map (fun x => (x.1, { x.2 with queue := x.2.queue.filter (fun q => q.1 != b) }))
           cores := s.cores.map (fun x => (x.1, { x.2 with reqs := x.2.reqs.filter (fun r => r.brick != b) })) }

/-- The banks that the brick owned have no owner (R212). -/
def dropOwner (s : State) (core b : Nat) : State :=
  modCore s core (fun x =>
    let freed := x.banks.map (fun p => (p.1, if p.2.own == some b then { p.2 with own := none } else p.2))
    { x with banks := freed.filter (fun p => decide (p.2 ≠ Bank.zero)) })

/-- The hods of a launch. -/
def hodsOf (s : State) (launch : Nat) : List ObjRef :=
  (s.walls.filter (fun w => w.2.launch == launch && !w.2.ended)).flatMap (fun w => w.2.hods.map (fun x => ObjRef.hod w.1 x.1))

/-- The end of a brick as barriers, hods, banks, pools and cells see it (R109, R156, R212, R247, R270, R271, R361). -/
def endObjects (s : State) (b : Nat) (killed : Bool) : State :=
  match tabGet? s.bricks b with
  | none => s
  | some br =>
    let s := commitCells (leaveHods (returnRows s br) b) b
    let s := (hodsOf s br.launch).foldl serveHod s
    let s := if br.det then dropOwner s br.core b else s
    (barsOf s br.launch).foldl (fun s o => if killed then killBar s b br.launch o else exitBar s b o) s

/-- Bricks of the launch in ascending identifier. -/
def insertById (x : Nat × Nat) : List (Nat × Nat) → List (Nat × Nat)
  | [] => [x]
  | y :: l => if x.1 < y.1 then x :: y :: l else y :: insertById x l

def bricksById (s : State) (launch : Nat) : List Nat :=
  (((s.bricks.filter (fun x => x.2.launch == launch)).map (fun x => (x.2.id, x.1))).foldl (fun t x => insertById x t) []).map (·.2)

/-- The next arrival of the launch's bricks, in ascending identifier, that waits for its phase and can be counted: the brick, the
operation's number and the barrier. -/
def nextWaiting (s : State) : List Nat → Option (Nat × Nat × ObjRef)
  | [] => none
  | b :: l =>
    let mine (f : Flight) : Option (Nat × Nat × ObjRef) := match f.kind with
      | .barArr o _ => if f.waitsPhase && arrivalOpen s b o && !barAway s o then some (b, f.seq, o) else none
      | _ => none
    ((tabGet? s.bricks b).bind (fun br => br.flights.findSome? mine)).or (nextWaiting s l)

/-- An exit that the commit has reached takes effect once the brick's arrivals are counted. -/
def nextGone (s : State) : List Nat → Option (Nat × Nat × Bool)
  | [] => none
  | b :: l =>
    let mine (br : Brick) (f : Flight) : Option (Nat × Nat × Bool) := match f.kind with
      | .gone killed => if !f.done && f.tEnd.isNone && !br.flights.any Flight.waitsPhase then some (b, f.seq, killed) else none
      | _ => none
    ((tabGet? s.bricks b).bind (fun br => br.flights.findSome? (mine br))).or (nextGone s l)

/-- Counts the committed arrivals of a deterministic launch as far as phases take them, and lets exits behind them take effect (R269,
R298). -/
def countAll (s : State) (bs : List Nat) : Nat → State
  | 0 => s
  | n + 1 =>
    match nextWaiting s bs with
    | some (b, seq, o) => countAll (countArrival (modBrick s b (fun br => finishFlight br seq)) b o) bs n
    | none =>
      match nextGone s bs with
      | some (b, seq, killed) => countAll (endObjects (modBrick s b (fun br => finishFlight br seq)) b killed) bs n
      | none => s

/-- Each round completes an operation. -/
def countWaiting (s : State) (launch : Nat) : State :=
  countAll s (bricksById s launch) ((s.bricks.map (fun x => x.2.flights.length)).foldl (· + ·) 0)

/-- The trap slot that the brick was in is free. -/
def leaveSlot (s : State) (b : Nat) (br : Brick) : State :=
  modPart s (partKey br.core br.part) (fun p => if p.slot == some b then { p with slot := none } else p)

/-- A flight that tells the commit of the brick's end (R298): objects and pending cells see it there (log 133). -/
def goneFlight (br : Brick) (T : Nat) (killed : Bool) : Brick :=
  addFlight br (fun seq ord => { seq := seq, fc := none, ord := ord, split := 0, pc := 0, two := false, due := 0, tEnd := some T
                                 done := false, kind := .gone killed })

/-! ### EXIT -/

def Entry.without (gone : BitVec 32) : Entry → Entry
  | .ret ra g => .ret ra g
  | .dvg e pm pa rd ja gr g fr pp => .dvg (e &&& ~~~gone) pm pa rd ja gr g fr pp

/-- Unwinds the splits that have no thread left. -/
def unwindEmpty (br : Brick) : List Nat → Brick
  | [] => br
  | k :: ks =>
    match tabGet? br.splits k with
    | none => unwindEmpty br ks
    | some sp =>
      if sp.mask != 0#32 then unwindEmpty br ks
      else
        match unwind br k sp sp.stack with
        | .gone br => unwindEmpty { (br.unmark k).orphan k with splits := tabDel br.splits k } ks
        | .on br sp => unwindEmpty (br.setSplit k { sp with wait := none }) ks

/-- Takes exiting threads from the brick, which keeps some. -/
def exitThreads (s : State) (c : Ctx) : State :=
  let gone := c.sp.mask
  let s := modBrick s c.b (fun br =>
    unwindEmpty { br with threads := br.threads &&& ~~~gone
                          splits := br.splits.map (fun x => (x.1, { x.2 with mask := x.2.mask &&& ~~~gone
                                                                             stack := x.2.stack.map (Entry.without gone) })) }
      [0, 1, 2, 3, 4])
  match tabGet? s.bricks c.b with
  | none => s
  | some br => settleGroups s c.b (tabKeys br.groups)

/-- The brick's last threads exit: in a deterministic launch its clock is padded and its end is committed with its last
buffer (R298); no split is left to mark its arrivals (R269). -/
def exitLast (s : State) (c : Ctx) : State :=
  let s := leaveQueues (leaveSlot (freeTape s c.b) c.b c.br) c.b
  let close (br : Brick) : Brick := { br with threads := 0#32, splits := [], groups := [], inSlot := false }
  if c.br.det then
    let T := courseEndOf (qOf s c.br) c.br.L
    modBrick s c.b (fun br => { goneFlight (bufferMarks T (close br)) T false with L := T - 1 })
  else endObjects (modBrick s c.b close) c.b false

/-- Removes the split's active threads from the brick and unwinds an emptied split (R156). The last threads wait until
the arrivals that the brick has made are counted, which no longer ask for their split (R269). -/
def execExit (st : BitVec 3) (s : State) : Host.Outcome State Fault Refusal :=
  issueForm s (bareForm false false st .vec) (fun c =>
    if c.br.threads &&& ~~~c.sp.mask != 0#32 then .jump (exitThreads s c)
    else if !c.br.det && !c.br.arrMarks.isEmpty then .park s .exit none
    else .jump (exitLast s c))

/-! ### Kills (R361) -/

/-- Structure code of the fault that led to a kill, from the cause and its first datum (R365). -/
def faultStruct (cause : BitVec 9) (aux0 : W64) : Nat :=
  if cause == 0x146#9 then aux0.toNat % 32 else if cause == 0x141#9 then 2 else if cause == 0x14B#9 then 10
  else if cause == 0x04A#9 then 11 else 31

/-- A slot that was reserved and is not filled gets zero bytes, green, and counts. -/
def zeroSlot (s : State) (o : ObjRef) (n : Nat) : State := fillSlot s o n (zeroLines (hodAt s o).s)

/-- The slot that a killed brick's operation has reserved gets zeros: in a saved wall, once it is restored (R283, R361). -/
def zeroFill (s : State) (f : Flight) (o : ObjRef) (n : Nat) : State × Option Flight :=
  if hodAway s o then (s, some { f with kind := .hodPut o (some n) [] true, tEnd := none }) else (zeroSlot s o n, none)

/-- A command stops; the slot it reserved is filled with zeros (R345). -/
def stopCopy (s : State) (f : Flight) (id : Nat) : State × Option Flight :=
  match tabGet? s.copies id with
  | none => (s, none)
  | some x =>
    let s := { s with copies := tabDel s.copies id }
    match x.hod with
    | some (o, some n) => zeroFill s f o n
    | _ => (s, none)

/-- An operation in flight at the kill: performed whole or dropped, by a free choice; what is under way already goes on. -/
def killFlight (s : State) (f : Flight) : State × Option Flight :=
  let choose (s : State) : State × Option Flight :=
    let (i, s) := nextFree s
    (s, if Config.choice i then some f else none)
  if f.done then (s, none)
  else if f.tEnd.isSome then
    (match f.kind with
     | .hodPut o (some n) _ _ => (s, some { f with kind := .hodPut o (some n) [] true })
     | .copy id =>
       (match tabGet? s.copies id with
        | some x =>
          if x.started then stopCopy s f id
          else
            let s := { s with copies := tabDel s.copies id }
            (match x.hod with
             | some (o, some n) => (s, some { f with kind := .hodPut o (some n) [] true })
             | _ => (s, none))
        | none => (s, none))
     | _ => (s, none))
  else
    match f.kind with
    | .regs _ _ => (s, none)
    | .load _ _ _ => (s, none)
    | .ldtv _ _ _ _ _ _ => (s, none)
    | .tapeRec => (s, none)
    | .tapeSeal => (s, none)
    | .copy id => stopCopy s f id
    | .copyWait id => stopCopy s f id
    | .hodPut o (some n) _ _ => zeroFill s f o n
    | .hodPut _ none _ _ => (s, none)
    | .barArr _ _ => (s, none)
    | .syncAtom => (s, none)
    | .aon _ _ _ _ _ _ _ stage => if stage ≥ 1 then (s, some f) else choose s
    | .putw _ _ _ => (s, some f)
    | .sigw _ _ _ _ _ _ _ _ => (s, some f)
    | .coll _ => (s, some f)
    | .tlbi _ _ _ _ _ removed _ => if removed then (s, some f) else choose s
    | _ => choose s

def killFlights (s : State) : List Flight → State × List Flight
  | [] => (s, [])
  | f :: l =>
    let (s, x) := killFlight s f
    let (s, r) := killFlights s l
    (s, x.toList ++ r)

/-- Nothing of the brick is left to issue or to report. -/
def Brick.closeKilled (br : Brick) (kept : List Flight) : Brick :=
  { br with
    killed := true, splits := [], groups := [], pend := [], fxq := [], divq := [], marks := [], ilock := [], readouts := [],
    flights := kept, tape := Tape.closed, arrMarks := [], lastArr := [], window := none, winExc := [], trap := none,
    late := [], owed := [], inSlot := false, armed := none, dpFault := none, halted := false, debug := false, stepping := false,
    tfault := none }

/-- The kill of one brick (R361): its end reaches barriers and other objects at once, or, in a deterministic launch, as a
commit at the end of its course (R298). -/
def killBrick (s : State) (b : Nat) (cause : BitVec 9) (strct : Nat) : State :=
  match tabGet? s.bricks b with
  | none => s
  | some br =>
    if !br.alive then s
    else
      let s := logAdd s (dieOfCore br.core) 6 strct (some br.core) (br.id % 2 ^ 32 + cause.toNat * 2 ^ 32)
      let s := leaveQueues (leaveSlot s b br) b
      let (s, kept) := killFlights s br.flights
      let s := { s with copies := s.copies.filter (fun x => x.2.brick != b || kept.any (fun f => f.kind == .copy x.1)) }
      let s := modBrick s b (fun br => br.closeKilled kept)
      if br.det then modBrick s b (fun x => goneFlight x (courseEndOf (qOf s br) br.L) true)
      else endObjects s b true

/-- The site processor, a machine check or a trap inside a handler kills a brick (R352, R361): the cause is that of the trap
that it has taken, if any. -/
def execBrickKill (b : Nat) (s : State) : Host.Outcome State Fault Refusal :=
  match tabGet? s.bricks b with
  | none => .fault .noTarget
  | some br =>
    match br.trap with
    | some r => .next (killBrick s b r.cause 31)
    | none => .next (killBrick s b 0 31)

/-! ### Reaping -/

/-- The brick still holds its slot: its flight counters have not all reached zero (R156, R198). -/
def holdsSlot (x : Nat × Brick) : Bool := x.2.alive || x.2.flights.any (fun f => f.fc.isSome && !f.done)

/-- A brick that has ended and left nothing. -/
def reapable (s : State) (x : Nat × Brick) : Bool :=
  !x.2.alive && x.2.flights.all (fun f => f.done) && !arrayWork s x.2.core x.1 (fun _ => true) && x.2.pend.isEmpty && x.2.fxq.isEmpty

/-- Takes out the bricks that have ended and left nothing; their pending cells are free (R247). -/
def reap (s : State) : State :=
  let gone := s.bricks.filter (reapable s)
  let s := gone.foldl (fun s x => commitCells s x.1) s
  { s with bricks := s.bricks.filter (fun x => !gone.any (fun y => y.1 == x.1)) }

/-- The brick still needs its wall: it holds its slot, the array has work of it, or what it has buffered is to be committed there
(R197, R209). -/
def holdsWall (s : State) (x : Nat × Brick) : Bool :=
  holdsSlot x || arrayWork s x.2.core x.1 (fun _ => true) || x.2.flights.any (fun f => !f.done && (match f.kind with
    | .gone _ => false
    | _ => true))

/-- A wall that no brick needs any more ends: its local memory, banks and rows are free (R109, R189, R207). -/
def endWalls (s : State) : State :=
  let done (w : Nat × Wall) : Bool := !w.2.ended && !w.2.saved && !s.bricks.any (fun x => x.2.wall == w.1 && holdsWall s x)
  if s.walls.any done then { s with walls := s.walls.map (fun w => if done w then (w.1, { w.2 with ended := true }) else w) } else s

end Sys2Proof.Machine
end

