-- ==== Sys2Proof/Machine/Hash.lean ====
section
/-!
DEFINITION. SHAKE128 and SHAKE256 over bytes, which measure firmware, sign defect maps and serve ML-DSA-65 (R388–R391). The spec names
the functions; what they compute is FIPS 202's (PRESUMED, log 118). The 25 lanes of the sponge's state stand in one list, lane (x, y) at
place x + 5y; the offsets of the rotations and the round constants are computed as FIPS 202 defines them.
-/
namespace Sys2Proof.Machine

abbrev Lanes := List (BitVec 64)

/-- The 24 places other than the first, in the order in which lanes move to one another, with the rotation that each gives. -/
def spiral (x y t : Nat) : Nat → List (Nat × Nat)
  | 0 => []
  | n + 1 => (x + 5 * y, (t + 1) * (t + 2) / 2 % 64) :: spiral y ((2 * x + 3 * y) % 5) (t + 1) n

def moves : List (Nat × Nat) := spiral 1 0 0 24

/-- One step of the register that the round constants come from. -/
def lfsrStep (r : Nat) : Nat := if r ≥ 128 then (2 * r) ^^^ 0x171 else 2 * r

/-- Seven bits of the register go to bits 2^j − 1 of a round's constant; the register after them. -/
def constantFrom (r : Nat) : Nat → Nat × BitVec 64
  | 0 => (r, 0)
  | n + 1 =>
    let (r', w) := constantFrom (lfsrStep r) n
    (r', if r % 2 = 1 then w ||| (1#64 <<< (2 ^ (7 - (n + 1)) - 1)) else w)

/-- The constants of n rounds. -/
def constantsFrom (r : Nat) : Nat → Lanes
  | 0 => []
  | n + 1 =>
    let (r', w) := constantFrom r 7
    w :: constantsFrom r' n

/-- The parity of a column. -/
def columnOf (a : Lanes) (x : Nat) : BitVec 64 := (List.range 5).foldl (fun p y => p ^^^ a.getD (x + 5 * y) 0) 0

/-- Every lane takes in the parities of the columns beside it. -/
def mixColumns (a : Lanes) : Lanes :=
  let near := (List.range 5).map (fun x => columnOf a ((x + 4) % 5) ^^^ (columnOf a ((x + 1) % 5)).rotateLeft 1)
  List.zipWith (· ^^^ ·) a (near ++ near ++ near ++ near ++ near)

/-- Every lane but the first moves to the next place, rotated. -/
def moveLanes (a : Lanes) : Lanes :=
  let dests := (moves.drop 1 ++ moves.take 1).map (·.1)
  (dests.zip (moves.map (fun m => (a.getD m.1 0).rotateLeft m.2))).foldl (fun b x => b.set x.1 x.2) a

/-- Within each row of five a lane takes in the two that follow it. -/
def mixRow : Lanes → Lanes
  | [p, q, r, s, t] => [p ^^^ (~~~q &&& r), q ^^^ (~~~r &&& s), r ^^^ (~~~s &&& t), s ^^^ (~~~t &&& p), t ^^^ (~~~p &&& q)]
  | l => l

def mixRows (a : Lanes) : Lanes := (List.range 5).flatMap (fun y => mixRow ((a.drop (5 * y)).take 5))

/-- The first lane takes in a constant. -/
def addConstant (a : Lanes) (c : BitVec 64) : Lanes := (a.take 1).map (· ^^^ c) ++ a.drop 1

/-- The permutation of 24 rounds. -/
def permute (a : Lanes) : Lanes := (constantsFrom 1 24).foldl (fun a c => addConstant (mixRows (moveLanes (mixColumns a))) c) a

/-- Eight bytes as a lane, the lowest first, and back. -/
def laneOf (bs : List (BitVec 8)) : BitVec 64 := bs.reverse.foldl (fun w b => (w <<< 8) ||| b.setWidth 64) 0
def laneBytes (w : BitVec 64) : List (BitVec 8) := [0, 8, 16, 24, 32, 40, 48, 56].map (fun i => w.extractLsb' i 8)

/-- The lanes of some bytes; `n` of them. -/
def lanesOf : Nat → List (BitVec 8) → Lanes
  | 0, _ => []
  | n + 1, bs => laneOf (bs.take 8) :: lanesOf n (bs.drop 8)

/-- The padding of a message for a rate: 1111 and then 10…01, whose ends may share a byte. -/
def padding (rate len : Nat) : List (BitVec 8) :=
  let k := rate - len % rate
  if k = 1 then [0x9F] else 0x1F :: (List.replicate (k - 2) 0 ++ [0x80])

/-- Takes in n blocks. -/
def takeIn (rate : Nat) (a : Lanes) : Nat → List (BitVec 8) → Lanes
  | 0, _ => a
  | n + 1, m => takeIn rate (permute (List.zipWith (· ^^^ ·) a (lanesOf 25 (m.take rate)))) n (m.drop rate)

/-- Gives out n blocks. -/
def giveOut (rate : Nat) (a : Lanes) : Nat → List (BitVec 8)
  | 0 => []
  | n + 1 => (a.take (rate / 8)).flatMap laneBytes ++ (if n = 0 then [] else giveOut rate (permute a) n)

/-- The first n bytes of what the sponge of a rate gives for a message. -/
def sponge (rate : Nat) (m : List (BitVec 8)) (n : Nat) : List (BitVec 8) :=
  (giveOut rate (takeIn rate (List.replicate 25 0) (m.length / rate + 1) (m ++ padding rate m.length)) ((n + rate - 1) / rate)).take n

def shake128 : List (BitVec 8) → Nat → List (BitVec 8) := sponge 168
def shake256 : List (BitVec 8) → Nat → List (BitVec 8) := sponge 136

end Sys2Proof.Machine
end

