-- ==== Sys2Proof/Machine/System.lean ====
section
/-!
DEFINITION. System registers (R105, R106, R332, R354, R359, R373, R396), the mode forms (R141, R142), fault injection
(R366), answers to translation faults (R336), and the forms that enter, leave or stop (R358).
-/
namespace Sys2Proof.Machine

/-! ### Encodings that name no form -/

/-- A word that fails check 1 or 2 of R52 traps before anything else of it is looked at. -/
def trapEncoding (s : State) (two : Bool) (st : BitVec 3) (cause : BitVec 9) : Host.Outcome State Fault Refusal :=
  let f := bareForm two false st .vec
  match focusOf s with
  | none => .fault .noIssuer
  | some c =>
    if flagHold c then .next (holdForm s c)
    else if c.sp.tapeFault then .next (raiseTrap s c f (trapOf c 0x144#9))
    else .next (raiseTrap s c f (trapOf c cause))

/-- A word with an unassigned opcode, a non-zero reserved field or a reserved code is issued and traps by the first failing
check of R52 (R65). -/
def execUnassignedEncoding (cause : BitVec 9) (two : Bool) (s : State) : Host.Outcome State Fault Refusal :=
  trapEncoding s two 0 cause

/-! ### Reading -/

/-- SY_MODE (R106). -/
def modeWord (br : Brick) : W64 :=
  BitVec.ofNat 64 ((if br.det then 2 ^ 10 else 0) + (if br.prv then 2 ^ 9 else 0) + br.ten.toNat * 16 +
    (if sbcOn br then 8 else 0) + br.rm.code.toNat)

/-- Virtual base of the launch's window on the brick's die; zero when it has none (R229). -/
def mwinBase (s : State) (br : Brick) : W64 :=
  match launchOf s br with
  | none => 0
  | some l =>
    if l.mwin = 0 then 0
    else BitVec.ofNat 64 (l.mbase + (l.dies.findIdx (· == dieOfCore br.core)) * l.mwin * 2 ^ 21)

/-- SY_TAPEST (R310). -/
def tapeStatus (t : Tape) : W64 :=
  BitVec.ofNat 64 (t.lines % 2 ^ 32 * 2 ^ 32 + t.need % 64 * 2 ^ 26 + t.segs.length * 2 ^ 11 + (if t.br then 32 else 0) + t.state)

/-- SY_FABID (R373). -/
def fabId (s : State) : W64 :=
  BitVec.ofNat 64 (s.module.toNat * 2 ^ 33 + (if keyValid s then 2 ^ 32 else 0) + s.keyPart.toNat * 2 ^ 16 + s.key.toNat)

/-- The defect-map signature of a die (R389). -/
def defSig (die : Nat) : Nat :=
  let v := leNat (shake256 (Config.defectMap die) 4)
  if v = 0xFFFFFFFF then 0xFFFFFFFE else v

/-- SY_PWR (R396). -/
def powerWord (s : State) (br : Brick) : W64 :=
  BitVec.ofNat 64 ((dieState s (dieOfCore br.core)).tj % 256 * 2 ^ 40 + s.pstep % 16 * 2 ^ 36 +
    (if (tabGetD s.quads (quadOfCore br.core) ⟨false⟩).sag then 2 ^ 35 else 0) + s.watt % 4096)

/-- What a system register reads as (R105, R359, R396). -/
def sysRead (s : State) (c : Ctx) (y : BitVec 7) : W64 :=
  let br := c.br
  match y.toNat with
  | 0x00 => modeWord br
  | 0x01 => BitVec.ofNat 64 (br.id % 2 ^ 32)
  | 0x02 => BitVec.ofNat 64 ((wallOf s br).elim 0 (·.wid))
  | 0x03 => BitVec.ofNat 64 br.core
  | 0x04 => BitVec.ofNat 64 (br.part * 16 + br.slot)
  | 0x05 => BitVec.ofNat 64 ((launchOf s br).elim 0 (·.lid) % 2 ^ 32)
  | 0x06 => BitVec.ofNat 64 br.L
  | 0x07 => pairBits (threadsOf c.sp.mask)
  | 0x08 => BitVec.ofNat 64 (8 * br.granNow * 2 ^ 8 + br.role)
  | 0x09 => BitVec.ofNat 64 (br.tape.segs.getLast?.elim 0 (·.base))
  | 0x0A => br.tapeLen
  | 0x0B => tapeStatus br.tape
  | 0x0E => s.asidTab
  | 0x0F => mwinBase s br
  | 0x10 => br.info
  | 0x11 => br.addr
  | 0x12 => br.tmask
  | 0x13 => br.aux0
  | 0x14 => br.aux1
  | 0x15 => br.vec
  | 0x16 => br.ret
  | 0x17 => br.inject
  | 0x18 => br.injAddr
  | 0x1A => fabId s
  | 0x20 => BitVec.ofNat 64 (0x2400 * 2 ^ 16 + Config.stepping.toNat * 256 + Config.firmware.toNat)
  | 0x21 => BitVec.ofNat 64 (s.plim * 2 + (if s.reqSig then 1 else 0))
  | 0x22 => powerWord s br
  | 0x23 => BitVec.ofNat 64 (defSig (dieOfCore br.core))
  | _ => 0

/-- Registers that only a privileged brick reads (R359, R396). -/
def sysReadPriv (y : BitVec 7) : Bool := [0x0C, 0x0D, 0x0E, 0x18, 0x19, 0x21].contains y.toNat

/-- Registers whose fields are all read-only. -/
def sysReadOnly (y : BitVec 7) : Bool :=
  [1, 2, 3, 4, 5, 6, 7, 8, 0x0B, 0x0C, 0x0F, 0x10, 0x11, 0x12, 0x13, 0x14, 0x19, 0x1A, 0x20, 0x22, 0x23].contains y.toNat

/-- Registers that only a privileged brick writes; SY_INJECT according to the KIND of the value, once it is known (R59). -/
def sysWritePriv (y : BitVec 7) (v : Option W64) : Bool :=
  [0x0D, 0x0E, 0x18, 0x21, 0x24].contains y.toNat || (y == 0x17#7 && v.any (fun x => x.toNat / 2 ^ 60 == 8))

/-- The value of a uniform register as the issuing split reads it: none while it waits for the register, or may not read it (R100,
R157, R200). -/
def issuerReads (s : State) (a : Reg) : Option W64 :=
  match focusOf s with
  | some c =>
    let n := physName c.k (nUni a)
    if interlocked c n || (sbcOn c.br && pendingOn c n) then none else some (c.u a)
  | none => none

/-- The form of a system register access. -/
def sysForm (st : BitVec 3) (priv : Bool) (reads : List Reg) (d : Option Reg) : Form :=
  { syncForm false st reads d with priv := priv }

/-- Reads a system register into a uniform register (R359). -/
def execSysr (d : Reg) (y : BitVec 7) (st : BitVec 3) (s : State) : Host.Outcome State Fault Refusal :=
  issueForm s (sysForm st (sysReadPriv y) [] (some d)) (fun c => giveNow s c d (sysRead s c y) false)

/-- The word of a fault record (R336). -/
def FaultRec.word (r : FaultRec) : W64 :=
  BitVec.ofNat 64 (2 ^ 63 + r.kind * 2 ^ 61 + (if r.eng then 2 ^ 60 else 0) + r.asid * 2 ^ 41 + r.vpn)

/-- Claims the oldest unclaimed record of a list. -/
def claimFirst : List FaultRec → Option FaultRec × List FaultRec
  | [] => (none, [])
  | r :: l =>
    if r.claimed then
      let (x, l) := claimFirst l
      (x, r :: l)
    else (some r, { r with claimed := true } :: l)

/-- A read of SY_FLTREC claims and returns the oldest unclaimed fault record (R336). -/
def execFltrecClaim (d : Reg) (st : BitVec 3) (s : State) : Host.Outcome State Fault Refusal :=
  issueForm s (sysForm st true [] (some d)) (fun c =>
    let die := dieOfCore c.br.core
    match claimFirst (dieState s die).faults with
    | (none, _) => giveNow s c d 0 false
    | (some r, l) => giveNow (modDie s die (fun x => { x with faults := l })) c d r.word false)

/-- A read of SY_RLOG claims and returns the oldest reliability log entry (R365). -/
def execRlogClaim (d : Reg) (st : BitVec 3) (s : State) : Host.Outcome State Fault Refusal :=
  issueForm s (sysForm st true [] (some d)) (fun c =>
    let die := dieOfCore c.br.core
    match (dieState s die).rlog with
    | [] => giveNow s c d 0 false
    | e :: l => giveNow (modDie s die (fun x => { x with rlog := l })) c d e false)

/-! ### Injection (R366) -/

/-- Flips a bit of a 96-bit accumulator. -/
def flipAcc (f : Int) (bit : Nat) : Int := asSigned 96 ((f % 2 ^ 96).toNat ^^^ 2 ^ bit)

/-- KIND 1: an entry of a bank that the brick holds, by the bank's logical number. -/
def injectEntry (s : State) (c : Ctx) (bank row col bit : Nat) : Option State :=
  match physBank s c.br bank with
  | none => none
  | some p =>
    if decide (bit ≥ 96) then none
    else
      let bk := bankAt s c.br.core p
      let x := tabGetD bk.e (128 * row + col) AccEntry.zero
      some (putBank s c.br.core p { bk with e := tabSet bk.e (128 * row + col) AccEntry.zero { x with f := flipAcc x.f bit } })

/-- KIND 2: a bit of a lane register in one thread. -/
def injectLane (s : State) (c : Ctx) (r t bit : Nat) : Option State :=
  if decide (bit ≥ 64) || (decide (r ≥ 8 * c.br.granNow) && !(c.inHandler && decide (r ≥ 56))) then none
  else
    let key := halfKey (physReg c.k r) t (bit / 32)
    some (modBrick s c.b (fun br =>
      let h := tabGetD br.lane key Half.start
      { br with lane := tabSet br.lane key Half.start { h with bits := h.bits ^^^ (1#32 <<< (bit % 32)) } }))

/-- The place of a line of the brick's wall. -/
def injectPlace (s : State) (c : Ctx) (line : Nat) : Option Loc :=
  if decide (64 * line + 64 > localSize s c.br) then none else some (localLoc s c.br (64 * line))

/-- KIND 3: a bit of a local line, together with its check bits. -/
def injectLine (s : State) (c : Ctx) (line bit : Nat) : Option State :=
  match injectPlace s c line with
  | none => none
  | some l => if decide (bit ≥ 512) then none else some (putByte s (l.add (bit / 8)) (byteAt s (l.add (bit / 8)) ^^^ (1#8 <<< (bit % 8))))

/-- Bits of a line that storage holds wrong: a second flip puts one right. -/
def flipErr (e : List Nat) (bit : Nat) : List Nat := if e.contains bit then e.filter (· != bit) else e ++ [bit]

/-- KIND 7 and 8: bits of a line without its check bits. -/
def injectErr (s : State) (l : Loc) (bits : List Nat) : State :=
  let m := metaAt s l
  putMeta s l { m with err := bits.foldl flipErr m.err }

/-- KIND 7: two neighbouring bits of a local line. -/
def injectDouble (s : State) (c : Ctx) (line bit : Nat) : Option State :=
  match injectPlace s c line with
  | none => none
  | some l => if decide (bit ≥ 511) then none else some (injectErr s l [bit, bit + 1])

/-- KIND 8: one bit of the line at SY_INJADDR. -/
def injectAt (s : State) (c : Ctx) (bit : Nat) : Option State :=
  let pa := ownPa s c.br.injAddr.toNat
  if decide (bit ≥ 512) || !paExists s pa || isRemotePa pa then none else some (injectErr s (Loc.phys pa).line [bit])

/-- An armed event replaces any other of the brick. -/
def arm (s : State) (c : Ctx) (a : Option Armed) : State := modBrick s c.b (fun br => { br with armed := a })

/-- Bits of ARG that a KIND uses; ARG is bits 59:9 of the word. -/
def injectUsed (kind : Nat) : Nat :=
  match kind with
  | 1 => 2 ^ 32 - 2 ^ 15
  | 2 => 2 ^ 32 - 2 ^ 21
  | 3 => 2 ^ 29 - 2 ^ 15
  | 4 => 2 ^ 51 - 2 ^ 24
  | 5 => 2 ^ 26 - 2 ^ 21
  | 6 => 2 ^ 22 - 2 ^ 15 + 2 ^ 9
  | 7 => 2 ^ 29 - 2 ^ 15
  | _ => 0

/-- The effect of a written value, none when a target is outside its limits. -/
def injectValue (s : State) (c : Ctx) (v : W64) : Option State :=
  let kind := v.toNat / 2 ^ 60
  let arg := v.toNat / 2 ^ 9 % 2 ^ 51
  let bit := v.toNat % 512
  let fld (lo w : Nat) : Nat := arg / 2 ^ lo % 2 ^ w
  if kind = 0 then some (arm s c none)
  else if (arg &&& injectUsed kind) != arg then none
  else
    match kind with
    | 1 => injectEntry s c (fld 28 4) (fld 22 6) (fld 15 7) bit
    | 2 => injectLane s c (fld 26 6) (fld 21 5) bit
    | 3 => injectLine s c (fld 15 14) bit
    | 4 => if decide (bit ≥ 8) then none else some (arm s c (some (.copy (fld 24 27) bit)))
    | 5 => if bit != 0 then none else some (arm s c (some (.fp (fld 21 5))))
    | 6 => if bit != 0 then none else some (arm s c (some (.matrix (fld 15 7) (arg.testBit 9))))
    | 7 => injectDouble s c (fld 15 14) bit
    | 8 => injectAt s c bit
    | _ => none

/-- A step of the injector by itself: the effect that the SYSW which armed or named it has as it retires. -/
def injectStep (s : State) (f : Ctx → Option State) : Host.Outcome State Fault Refusal :=
  match focusOf s with
  | none => .fault .noIssuer
  | some c => .next ((f c).getD s)

/-- A write of SY_INJECT with KIND 0 disarms any armed event (R366). -/
def execInjectDisarm (s : State) : Host.Outcome State Fault Refusal := injectStep s (fun c => some (arm s c none))

/-- SY_INJECT KIND 1 flips a bit of a held bank entry with its check bits (R366). -/
def execInjectAccEntry (bank : BitVec 4) (row : BitVec 6) (col : BitVec 7) (bit : BitVec 9) (s : State) :
    Host.Outcome State Fault Refusal :=
  injectStep s (fun c => injectEntry s c bank.toNat row.toNat col.toNat bit.toNat)

/-- SY_INJECT KIND 2 flips a bit of a lane register half (R366). -/
def execInjectLaneReg (r : Reg) (t : BitVec 5) (bit : BitVec 9) (s : State) : Host.Outcome State Fault Refusal :=
  injectStep s (fun c => injectLane s c r.toNat t.toNat bit.toNat)

/-- SY_INJECT KIND 3 flips a bit of a local line with its check bits (R366). -/
def execInjectLocalLine (line : BitVec 14) (bit : BitVec 9) (s : State) : Host.Outcome State Fault Refusal :=
  injectStep s (fun c => injectLine s c line.toNat bit.toNat)

/-- SY_INJECT KIND 4 arms a flip in the next checksummed COPY (R366). -/
def execInjectCopyArm (byte : BitVec 31) (bit : BitVec 9) (s : State) : Host.Outcome State Fault Refusal :=
  injectStep s (fun c => if decide (bit.toNat ≥ 8) then none else some (arm s c (some (.copy byte.toNat bit.toNat))))

/-- SY_INJECT KIND 5 arms a shadow divergence in the next floating-point form (R366). -/
def execInjectFpArm (t : BitVec 5) (s : State) : Host.Outcome State Fault Refusal :=
  injectStep s (fun c => some (arm s c (some (.fp t.toNat))))

/-- SY_INJECT KIND 6 arms one or two residue failures in the next matrix instruction (R366). -/
def execInjectMatrixArm (col : BitVec 7) (twice : Bool) (s : State) : Host.Outcome State Fault Refusal :=
  injectStep s (fun c => some (arm s c (some (.matrix col.toNat twice))))

/-- SY_INJECT KIND 7 flips two bits of a local line without its check bits (R366). -/
def execInjectLocalDouble (line : BitVec 14) (bit : BitVec 9) (s : State) : Host.Outcome State Fault Refusal :=
  injectStep s (fun c => injectDouble s c line.toNat bit.toNat)

/-- SY_INJECT KIND 8 flips one bit of the line at SY_INJADDR without its check bits (R366). -/
def execInjectAddrLine (bit : BitVec 9) (s : State) : Host.Outcome State Fault Refusal :=
  injectStep s (fun c => injectAt s c bit.toNat)

/-! ### Writing -/

/-- A written SY_MODE (R61, R106): only RM, SBC and TEN take the new value. -/
def writeMode (s : State) (c : Ctx) (v : W64) : Res :=
  if v.toNat / 2 ^ 11 != 0 then .trap s (trapOf c 0x001#9)
  else if decide (v.toNat % 8 ≥ 5) then .trap s (trapOf c 0x002#9)
  else .done (modBrick s c.b (fun br =>
    { br with rm := (Rm.ofCode (v.extractLsb' 0 3)).getD .rne, sbc := v.getLsbD 3, ten := v.extractLsb' 4 5 }))

/-- A written SY_HKCTL (R396). -/
def writeHkctl (s : State) (c : Ctx) (v : W64) : Res :=
  let plim := v.toNat / 2 % 2 ^ 12
  if v.toNat / 2 ^ 13 != 0 || decide (plim < 1000) || decide (plim > 2900) then .trap s (trapOf c 0x001#9)
  else .done { s with plim := plim, reqSig := v.getLsbD 0 }

/-- A written SY_INJECT (R366). -/
def writeInject (s : State) (c : Ctx) (v : W64) : Res :=
  if decide (v.toNat / 2 ^ 60 ≥ 9) then .trap s (trapOf c 0x001#9)
  else match injectValue s c v with
    | none => .trap s (trapOf c 0x001#9)
    | some s => .done (modBrick s c.b (fun br => { br with inject := v }))

/-- The effect of a value on a system register that may be written. -/
def sysWrite (s : State) (c : Ctx) (y : BitVec 7) (v : W64) : Res :=
  match y.toNat with
  | 0x00 => writeMode s c v
  | 0x0A => if c.br.tape.state = 0 then .trap s (trapOf c 0x14C#9)
            else .done (modBrick s c.b (fun br => { br with tapeLen := (v.extractLsb' 0 32).setWidth 64 }))
  | 0x0E => if v.toNat % 2 ^ 12 != 0 || v.toNat / 2 ^ 56 != 0 then .trap s (trapOf c 0x001#9) else .done { s with asidTab := v }
  | 0x15 => .done (modBrick s c.b (fun br => { br with vec := v }))
  | 0x16 => if c.inHandler then .done (modBrick s c.b (fun br => { br with ret := v })) else .trap s (trapOf c 0x00D#9)
  | 0x17 => writeInject s c v
  | 0x18 => .done (modBrick s c.b (fun br => { br with injAddr := v }))
  | 0x21 => writeHkctl s c v
  | _ => .done s

/-- A green value cannot enter a register without a tag (R178). -/
def untagged (s : State) (c : Ctx) (a : Reg) (r : Res) : Res := if c.gov || c.uG a then .trap s (trapOf c 0x084#9) else r

/-- Writes a uniform register to a system register that has no behaviour of its own (R359). -/
def execSysw (a : Reg) (y : BitVec 7) (st : BitVec 3) (s : State) : Host.Outcome State Fault Refusal :=
  if sysReadOnly y then trapEncoding s false st 0x001#9
  else issueForm s (sysForm st (sysWritePriv y (issuerReads s a)) [a] none) (fun c => untagged s c a (sysWrite s c y (c.u a)))

/-- What an answer does to a brick that waits on the page. -/
def answerBrick (asid vpn : Nat) (fail : Bool) (s : State) (br : Brick) : Brick :=
  match br.tfault with
  | some f =>
    if asidOf s br = asid && f.va / 2 ^ 16 == vpn then
      { br with tfault := (if fail then some { f with refused := true } else none) }
    else br
  | none => br

/-- The line of a tape that waits on the page walks again, or is refused. -/
def answerTape (asid vpn : Nat) (fail : Bool) (s : State) (br : Brick) : Brick :=
  if br.tape.waits == some vpn && asidOf s br = asid then
    { br with tape := { br.tape with waits := none, denied := (if fail then vpn :: br.tape.denied else br.tape.denied) } }
  else br

/-- The answer to a fault record: the accesses that wait on its page walk again, or fail (R335, R336). -/
def answerFault (s : State) (die asid vpn : Nat) (fail : Bool) : State :=
  if !(dieState s die).faults.any (fun r => r.asid == asid && r.vpn == vpn) then s
  else
    let s := modDie s die (fun d => { d with faults := d.faults.filter (fun r => !(r.asid == asid && r.vpn == vpn)) })
    { s with bricks := s.bricks.map (fun x => (x.1, if dieOfCore x.2.core == die then answerTape asid vpn fail s (answerBrick asid vpn fail s x.2) else x.2))
             attest := (if fail && die == 0 && s.attest.any (fun x => x.1 == asid && x.2 / 2 ^ 16 == vpn) then none else s.attest)
             copies := s.copies.map (fun x => (x.1,
               if x.2.asid == asid && x.2.page == some vpn && (tabGet? s.walls x.2.wall).any (fun w => w.die == die) then
                 { x.2 with page := (if fail then x.2.page else none), refused := fail } else x.2)) }

/-- A write of SY_FLTDONE answers a record so waiting accesses walk again or fail (R336). -/
def execFltdoneAnswer (a : Reg) (st : BitVec 3) (s : State) : Host.Outcome State Fault Refusal :=
  issueForm s (sysForm st true [a] none) (fun c =>
    let v := c.u a
    untagged s c a (.done (answerFault s (dieOfCore c.br.core) (v.toNat / 2 ^ 41 % 2 ^ 16) (v.toNat % 2 ^ 41) (v.getLsbD 63))))

/-- A write of SY_TAPESEG appends a checked segment to the open tape (R310). -/
def execTapesegAppend (a : Reg) (st : BitVec 3) (s : State) : Host.Outcome State Fault Refusal :=
  issueForm s (sysForm st false [a] none) (fun c =>
    untagged s c a
      (if c.br.tape.state = 0 then .trap s (trapOf c 0x14C#9)
       else match addSegment s c c.br.tape (c.u a) c.br.tapeLen with
         | .ok s t => .done (setTape s c.b t)
         | .trap s t => .trap s t
         | .fault s va => .stay (brickFault s c kWrite va)))

/-- A privileged write of SY_ATTEST requests a signed quote at the given block (R391). -/
def execAttestRequest (a : Reg) (st : BitVec 3) (s : State) : Host.Outcome State Fault Refusal :=
  issueForm s (sysForm st true [a] none) (fun c =>
    let v := (c.u a).toNat
    untagged s c a
      (if v % 2 ^ 12 != 0 || v / 2 ^ 57 != 0 then .trap s (trapOf c 0x001#9)
       else .done (if s.attest.isSome then s else { s with attest := some (asidOf s c.br, v) })))

/-! ### MODE and SRSEED -/

/-- A MODE form: the old SY_MODE[8:0] goes to d (R141). -/
def modeForm (d : Reg) (reads : List Reg) (st : BitVec 3) (body : Ctx → Option TrapReq) (f : Ctx → Brick → Brick) (s : State) :
    Host.Outcome State Fault Refusal :=
  let form := syncForm false st reads (some d)
  issueForm s form (fun c =>
    match body c with
    | some t => .trap s t
    | none => fixed (modBrick s c.b (f c)) c form 2 [c.putU d (modeWord c.br &&& 0x1FF#64) false])

/-- Sets the dynamic rounding mode from an immediate (R141). -/
def execModeRm (d : Reg) (code : Rm) (st : BitVec 3) (s : State) : Host.Outcome State Fault Refusal :=
  modeForm d [] st (fun c => if code == .rsr || code == .dyn then some (trapOf c 0x002#9) else none)
    (fun _ br => { br with rm := code }) s

/-- Sets trap enable bits (R141). -/
def execModeTenSet (d : Reg) (mask : BitVec 5) (st : BitVec 3) (s : State) : Host.Outcome State Fault Refusal :=
  modeForm d [] st (fun _ => none) (fun _ br => { br with ten := br.ten ||| mask }) s

/-- Clears trap enable bits (R141). -/
def execModeTenClr (d : Reg) (mask : BitVec 5) (st : BitVec 3) (s : State) : Host.Outcome State Fault Refusal :=
  modeForm d [] st (fun _ => none) (fun _ br => { br with ten := br.ten &&& ~~~mask }) s

/-- Sets rounding mode and trap enables from a register (R141). -/
def execModeReg (d : Reg) (a : Reg) (st : BitVec 3) (s : State) : Host.Outcome State Fault Refusal :=
  modeForm d [a] st
    (fun c =>
      if c.gov || c.uG a then some (trapOf c 0x084#9)
      else if decide ((c.u a).toNat % 8 ≥ 5) then some (trapOf c 0x002#9) else none)
    (fun c br => { br with rm := (Rm.ofCode ((c.u a).extractLsb' 0 3)).getD .rne, ten := (c.u a).extractLsb' 4 5 }) s

/-- Writes the stochastic rounding state (R142). DESIGN CHOICE (log 128): it takes effect as it issues. -/
def execSrseed (a : Reg) (st : BitVec 3) (s : State) : Host.Outcome State Fault Refusal :=
  issueForm s (syncForm false st [a] none) (fun c => untagged s c a (.done (srWrite s c.b c.br (srSeed (c.u a)))))

/-! ### Entering, stopping and leaving (R358) -/

/-- Takes the software trap cause with n recorded (R358). -/
def execTrap (n : BitVec 7) (st : BitVec 3) (s : State) : Host.Outcome State Fault Refusal :=
  issueForm s (bareForm false false st .vec) (fun c => .trap s (trapAux c 0x00C#9 (n.setWidth 64)))

/-- Stops for an attached debugger or takes the breakpoint cause (R358). -/
def execBkpt (n : BitVec 7) (st : BitVec 3) (s : State) : Host.Outcome State Fault Refusal :=
  issueForm s (bareForm false false st .vec) (fun c =>
    if (launchOf s c.br).any (·.debugger) then .done (modBrick s c.b (fun br => { br with debug := true }))
    else .trap s (trapAux c 0x00B#9 (n.setWidth 64)))

/-- Stops every split of the brick until the site processor acts (R358). -/
def execHalt (st : BitVec 3) (s : State) : Host.Outcome State Fault Refusal :=
  issueForm s { bareForm false false st .vec with priv := true } (fun c =>
    let (i, s) := nextFree s
    .done (modBrick (logAdd s (dieOfCore c.br.core) 7 31 (some c.br.core) (Config.word i).toNat) c.b
      (fun br => { br with halted := true })))

/-- Whether the trap that the handler runs for is fatal: FATAL of SY_TRAPINFO. -/
def Brick.infoFatal (br : Brick) : Bool := br.info.getLsbD 51
/-- Its cause. -/
def Brick.infoCause (br : Brick) : BitVec 9 := br.info.extractLsb' 55 9

/-- The queue places of a parked form are given up. -/
def withdraw (s : State) (b k : Nat) : State :=
  { s with sems := s.sems.map (fun x => (x.1, { x.2 with queue := x.2.queue.filter (fun q => q != (b, k)) }))
           cores := s.cores.map (fun x => (x.1, { x.2 with reqs := x.2.reqs.filter (fun r => !(r.brick == b && r.split == k)) }))
           walls := s.walls.map (fun w => (w.1, { w.2 with hods := w.2.hods.map (fun h => (h.1,
             { h.2 with prods := h.2.prods.filter (fun q => q != (b, k)), cons := h.2.cons.filter (fun q => q != (b, k)) })) })) }

/-- A command into a hod that has no slot is taken back: its number is free again unless a later command has followed, and a flip that
it took is armed again. -/
def dropCommand (s : State) (b id : Nat) : State :=
  match tabGet? s.copies id with
  | none => s
  | some x =>
    modBrick { s with copies := tabDel s.copies id } b (fun br =>
      let br := match br.flights.find? (fun f => f.kind == .copyWait id) with
        | some f => finishFlight br f.seq
        | none => br
      { br with copies := (if br.copies = x.num + 1 then x.num else br.copies)
                armed := (match x.flip with
                  | some (byte, bit) => some (.copy byte bit)
                  | none => br.armed) })

/-- What a parked form has begun and not done goes with it (R278, R299): a fill or a command that has no slot, an atomic that is not
performed. -/
def dropBegun (s : State) (b : Nat) : Option WaitOp → State
  | some (.hodPut _ seq) => modBrick s b (fun br =>
      if br.flights.any (fun f => f.seq == seq && (match f.kind with
        | .hodPut _ none _ _ => true
        | _ => false)) then finishFlight br seq else br)
  | some (.atom seq _ _ _ _ _ _) => modBrick s b (fun br => finishFlight { br with marks := br.marks.filter (fun m => m.seq != seq) } seq)
  | some (.hodCopy id _) => dropCommand s b id
  | _ => s

/-- A split gives up the form on which it is parked, with its queue places. -/
def leaveOne (s : State) (b k : Nat) : State := withdraw (dropBegun s b ((waitOf s b k).map (·.op))) b k

/-- The reporting split goes on at SY_TRAPRET: a form on which it is parked is given up when it goes on elsewhere. -/
def resumeSplit (s : State) (b k : Nat) (ret : Nat) : State :=
  match tabGet? s.bricks b with
  | none => s
  | some br =>
    match tabGet? br.splits k with
    | none => s
    | some sp =>
      match sp.wait with
      | none => modSplit s b k (fun sp => { sp with pc := ret })
      | some w =>
        if w.pc == ret then s
        else modSplit (leaveOne s b k) b k (fun sp => { sp with pc := ret, wait := none })

/-- The banked registers are discarded (R352). -/
def dropBanked (br : Brick) : Brick :=
  { br with lane := br.lane.filter (fun x => decide (x.1 < 64 * 64)), uni := br.uni.filter (fun x => decide (x.1 < 64)) }

/-- The return from a trap (R358): the handler's split ends, the slot is free, the reporting split resumes at SY_TRAPRET
and every other one where it stopped. A divergence that is resumed is logged (R360). A report that arrived in the meantime
becomes the brick's next trap. -/
def leaveTrap (s : State) (c : Ctx) : State :=
  let s := leaveSlot s c.b c.br
  let s := if c.br.infoCause == 0x04A#9 then logAdd s (dieOfCore c.br.core) 4 11 (some c.br.core) (c.br.addr.toNat / 64) else s
  let s := modBrick s c.b (fun br =>
    { dropBanked br with
      splits := tabDel br.splits handlerSplit, inSlot := false, stepping := false
      focusSp := (if br.focusSp == handlerSplit then c.br.repSplit else br.focusSp)
      trap := (match br.late with
        | r :: _ => some { r with cycle := s.clk }
        | [] => none)
      late := br.late.drop 1 })
  resumeSplit s c.b c.br.repSplit (c.br.ret.toNat % 2 ^ 57 / 4 * 4)

/-- RTE and RTE.kill. -/
def returnForm (kill : Bool) (st : BitVec 3) (s : State) : Host.Outcome State Fault Refusal :=
  let f := bareForm false false st .vec
  issueForm s f (fun c =>
    if !c.inHandler then .trap s (trapOf c (if c.br.prv then 0x00D#9 else 0x006#9))
    else
      let s := stampSlot s c f
      if kill then .stay (killBrick s c.b c.br.infoCause 31)
      else if c.br.infoFatal then .stay (killBrick s c.b c.br.infoCause (faultStruct c.br.infoCause c.br.aux0))
      else .stay (leaveTrap s c))

/-- Ends the handler and resumes the brick's splits (R358). -/
def execRte (st : BitVec 3) (s : State) : Host.Outcome State Fault Refusal := returnForm false st s

/-- Ends the handler by killing the brick (R358). -/
def execRteKill (st : BitVec 3) (s : State) : Host.Outcome State Fault Refusal := returnForm true st s

/-- The site processor resumes a halted brick after its HALT (R358). -/
def execHaltResume (b : Nat) (s : State) : Host.Outcome State Fault Refusal :=
  match tabGet? s.bricks b with
  | none => .fault .noTarget
  | some br => .next (if br.halted then modBrick s b (fun br => { br with halted := false }) else s)

/-- The debugger resumes a brick it had stopped at BKPT or was stepping (R160). -/
def execDebugResume (b : Nat) (s : State) : Host.Outcome State Fault Refusal :=
  match tabGet? s.bricks b with
  | none => .fault .noTarget
  | some br => .next (if br.debug then modBrick s b (fun br => { br with debug := false, stepping := false }) else s)

/-- A debugger single-steps the focus split by one instruction (R160). -/
def execDebugStep (b k : Nat) (s : State) : Host.Outcome State Fault Refusal :=
  match tabGet? s.bricks b with
  | none => .fault .noTarget
  | some br =>
    .next (if br.debug && (tabGet? br.splits k).isSome then modBrick s b (fun br => { br with focusSp := k, stepping := true }) else s)

end Sys2Proof.Machine
end

