-- ==== Sys2Proof/Machine/Copy.lean ====
section
/-!
DEFINITION. The copy engines (R339–R345) and invalidations (R337, R338).
-/
namespace Sys2Proof.Machine

/-! ### COPY and COPYQ as they issue -/

/-- The form of an engine operation that names uniform registers. -/
def copyForm (two : Bool) (st : BitVec 3) (reads : List Reg) (d : Option Reg) : Form :=
  { syncForm two st reads d with engine := .copy }

/-- The address of a descriptor: whether it is virtual, and its offset or address (R339). -/
def descAddr (v : W64) : Bool × Nat := if ebit v 63 then (true, v.toNat % 2 ^ 57) else (false, v.toNat % 2 ^ 20)

/-- Bits of a descriptor that must be zero, or a range that does not fit (R340). -/
def descOut (s : State) (br : Brick) (v : W64) (len : Nat) : Bool :=
  if ebit v 63 then v.toNat / 2 ^ 57 % 64 != 0 || decide (v.toNat % 2 ^ 57 + len > 2 ^ 57)
  else v.toNat / 2 ^ 20 != 0 || decide (v.toNat % 2 ^ 20 + len > localSize s br)

/-- The checks of R340 after R108, in order. `o` is the hod that sb names: none without HOD. -/
def copyCheck (s : State) (c : Ctx) (va vb : W64) (len : Nat) (chain ck cmp : Bool) (o : Option ObjRes) : Option TrapReq :=
  let t := lowThread c.sp.mask
  let at1 (v : W64) : W64 := BitVec.ofNat 64 (descAddr v).2
  let slotBad := match o with
    | some (.ok h _) => len != (hodAt s h).s
    | _ => false
  if (chain || cmp) && !ck then some (trapOf c 0x001#9)
  else if (descAddr va).2 % 2 != 0 then some (trapThread 0x0C1#9 t 1 (at1 va))
  else if o.isNone && (descAddr vb).2 % 2 != 0 then some (trapThread 0x0C1#9 t 1 (at1 vb))
  else if len % 2 != 0 || slotBad then some (trapThread 0x0C1#9 t 1 (at1 va))
  else if len = 0 || decide (len > 2 ^ 31) || descOut s c.br va len then some (trapThread 0x0C6#9 t 1 (at1 va))
  else if o.isNone && descOut s c.br vb len then some (trapThread 0x0C6#9 t 1 (at1 vb))
  else if o == some .bad then some (trapOf c 0x105#9)
  else none

/-- The flip that an armed event makes in the next checksummed command (R366). -/
def armedCopy (br : Brick) (ck : Bool) : Option (Nat × Nat) :=
  match br.armed with
  | some (.copy byte bit) => if ck then some (byte, bit) else none
  | _ => none

/-- A command as it is submitted: when its first span moves is a free choice. -/
def newCopy (s : State) (c : Ctx) (va vb vc : W64) (chain ck cmp green : Bool) (o : Option ObjRef) (due : Nat) : Copy :=
  { brick := c.b, wall := c.br.wall, asid := asidOf s c.br, prv := c.br.prv, num := c.br.copies, seq := c.br.seq
    src := descAddr va, dst := (if o.isSome then (false, 0) else descAddr vb), hod := o.map (fun h => (h, none))
    len := vc.toNat % 2 ^ 32, pos := 0, chain := chain, ck := ck, cmp := cmp, expect := vc.extractLsb' 32 32, sum := none
    green := green, buf := [], flip := armedCopy c.br ck, started := !c.br.det && o.isNone, page := none, refused := false, entry := false, lane := 0
    due := due }

/-- Submits a copy command to a copy engine and writes its ticket (R341). -/
def execCopy (d : Reg) (a : Reg) (b : Reg) (c : Reg) (chain ck cmp hod : Bool) (st : BitVec 3) (s : State) :
    Host.Outcome State Fault Refusal :=
  let f := copyForm true st [a, b, c] (some d)
  issueForm s f (fun x =>
    let va := x.u a
    let vb := x.u b
    let vc := x.u c
    let o := if hod then some (hodName s x b 0#5) else none
    let green := x.gov || x.uG d || x.uG a || x.uG b || x.uG c
    if fcFull x.br 3 then .hold
    else match copyCheck s x va vb (vc.toNat % 2 ^ 32) chain ck cmp o with
      | some t => .trap s t
      | none =>
        let dst := match o with
          | some (.ok h _) => some h
          | _ => none
        let id := s.nextC
        let (due, s) := freeDue s
        let cmd := newCopy s x va vb vc chain ck cmp green dst due
        let s := { s with copies := tabPut s.copies id cmd, nextC := id + 1 }
        let s := modBrick s x.b (fun br =>
          { br with copies := br.copies + 1
                    armed := (if cmd.flip.isSome then none else br.armed) })
        match dst with
        | some h =>
          let s := markRole s x h true
          if x.br.det then parkSync (pushFlight s x f (some 3) none none (.copyWait id)) x (.hodCopy id (x.pu d))
          else
            .done (pushFlight (modBrick s x.b (fun br => applyWrite br (x.putU d (BitVec.ofNat 64 (cmd.num % 64)) false))) x f (some 3)
              none none (.copy id))
        | none =>
          let s := modBrick s x.b (fun br => applyWrite br (x.putU d (BitVec.ofNat 64 (cmd.num % 64)) false))
          .done (pushFlight s x f (some 3) (bufferEnd s x) none (.copy id)))

/-- The status word of R344. -/
def copyWord (ticket code : Nat) (sum : BitVec 32) : W64 := BitVec.ofNat 64 (sum.toNat * 2 ^ 32 + ticket * 2 ^ 26 + code)

/-- The brick's latest command with a ticket: none when no COPY has used it (R343, R344). -/
def latestCopy (br : Brick) (ticket : Nat) : Option Nat :=
  if ticket < br.copies then some (ticket + 64 * ((br.copies - 1 - ticket) / 64)) else none

/-- The latest command with the ticket, when it has not ended. -/
def runningCopy (s : State) (b : Nat) (br : Brick) (ticket : Nat) : Option Copy :=
  (s.copies.find? (fun x => x.2.brick == b && latestCopy br ticket == some x.2.num)).map (·.2)

/-- What COPYQ and COPYQ.bytes answer for a ticket. -/
def copyAnswer (s : State) (b : Nat) (br : Brick) (ticket : Nat) (bytes : Bool) : W64 :=
  match runningCopy s b br ticket with
  | some x => if bytes then BitVec.ofNat 64 x.pos else copyWord ticket 0 0
  | none =>
    match br.cstats.find? (fun x => latestCopy br ticket == some x.num) with
    | some x => if bytes then BitVec.ofNat 64 x.bytes else copyWord ticket x.code x.sum
    | none => if bytes then 0 else copyWord ticket 15 0

/-- COPYQ and COPYQ.bytes: a synchronising operation in a deterministic launch (R345). -/
def copyQuery (bytes : Bool) (d a : Reg) (st : BitVec 3) (s : State) : Host.Outcome State Fault Refusal :=
  let f := copyForm false st [a] (some d)
  issueForm s f (fun c =>
    let ticket := (c.u a).toNat % 64
    if c.br.det then parkSync s c (.copyq ticket bytes (c.pu d) (c.gov || c.uG a))
    else giveNow s c d (copyAnswer s c.b c.br ticket bytes) (c.uG a))

/-- Reads the status word of a copy command by ticket (R344). -/
def execCopyq (d : Reg) (a : Reg) (st : BitVec 3) (s : State) : Host.Outcome State Fault Refusal := copyQuery false d a st s

/-- Reads the bytes a copy command has written (R344). -/
def execCopyqBytes (d : Reg) (a : Reg) (st : BitVec 3) (s : State) : Host.Outcome State Fault Refusal := copyQuery true d a st s

/-! ### The engine (R341, R342) -/

/-- Fletcher-32 over the little-endian words of some bytes. -/
def fletcher : Nat × Nat → List Byte → Nat × Nat
  | (s1, s2), a :: b :: l =>
    let s1' := (s1 + a.toNat + 256 * b.toNat) % 65535
    fletcher (s1', (s2 + s1') % 65535) l
  | x, _ => x

def fletcherSum (v : BitVec 32) (l : List Byte) : BitVec 32 :=
  let r := fletcher (v.toNat % 65536, v.toNat / 65536) l
  BitVec.ofNat 32 (r.2 * 65536 + r.1)

/-- A translation of a command, as the engine makes it in its die's cache; a refused page is cause 0x0C9 (R336). -/
def copyTranslate (s : State) (x : Copy) (die kind va : Nat) : State × Trans :=
  if x.refused && x.page == some (va / 2 ^ 16) then (s, .cause 0x0C9#9)
  else translate s (128 + die) die x.asid x.prv kind va

/-- The places of n bytes from an address, one byte each, in pieces that end at lines. -/
inductive Pieces where
  | ok (s : State) (l : List Loc)
  | fault (s : State) (va : Nat)
  | bad (s : State)
  deriving DecidableEq, Repr

/-- Places of `n` bytes (`fuel` bounds the lines): the line of each piece is translated once. -/
def copyPlaces (s : State) (x : Copy) (w : Wall) (kind : Nat) (virt : Bool) (a n : Nat) : Nat → Pieces
  | 0 => .ok s []
  | fuel + 1 =>
    if n = 0 then .ok s []
    else
      let m := min (64 - a % 64) n
      let rest (s : State) (l : Loc) : Pieces :=
        match copyPlaces s x w kind virt (a + m) (n - m) fuel with
        | .ok s r => .ok s ((List.range m).map (fun i => l.add i) ++ r)
        | r => r
      if virt then
        (match copyTranslate s x w.die kind a with
         | (s, .absent) => .fault s a
         | (s, .cause _) => .bad s
         | (s, .ok pa) => rest s (.phys pa))
      else rest s (.loc w.core (w.lbase + a))

/-- Ends a command with a code (R343–R345): its status is written, the chain value follows, its counter falls; a slot that
it reserved and did not fill gets zero bytes. -/
def endCopy (s : State) (id : Nat) (x : Copy) (code : Nat) : State :=
  let sum := if x.ck then x.sum.getD 0 else 0
  let s := { s with copies := tabDel s.copies id }
  let s := match x.hod with
    | some (o, some n) => if code = 1 || code = 2 then fillSlot s o n x.buf else zeroSlot s o n
    | _ => s
  modBrick s x.brick (fun br =>
    let stat : CopyStat := ⟨x.num, code, sum, x.pos⟩
    let br := { br with cstats := stat :: br.cstats.filter (fun y => y.num != x.num && y.num + 64 != x.num)
                        chain := (if x.ck then (if x.chain then some sum else none) else br.chain) }
    match br.flights.find? (fun f => f.kind == .copy id) with
    | some f => finishFlight br f.seq
    | none => br)

/-- The page of an engine's access is absent: the command waits for the answer to its record, with an entry of the fault buffer
or, when none is free, without one (R335). -/
def copyFault (s : State) (id : Nat) (x : Copy) (die kind va : Nat) : State :=
  let entry := decide (faultsHeld s die < 1024)
  let s := if entry then addFault s die x.asid va kind true else s
  { s with copies := tabPut s.copies id { x with page := some (va / 2 ^ 16), refused := false, entry := entry } }

/-- The reads of some places leave for their homes a line at a time (R369, R374). -/
def noteReads (s : State) (l : List Loc) : State :=
  (l.map Loc.line).eraseDups.foldl (fun s q =>
    let part := l.filter (fun p => p.line == q)
    match part.head? with
    | some p => noteRead s p part.length
    | none => s) s

/-- Reads the bytes of some places through the checks of their lines: none when one is poisoned; whether a line is green. -/
def copyRead (s : State) (b : Nat) (l : List Loc) : State × Option (List Byte × Bool) :=
  let lines := (l.map Loc.line).eraseDups
  let s := noteReads s l
  let (s, bad) := checkLines s lines
  let s := l.foldl (fun s p => observe s (some b) p 1) s
  (s, if bad.isEmpty then some (l.map (byteAt s), lines.any (lineG s)) else none)

/-- Writes one span (R341), counts it, and ends the command after its last. -/
def copyWrite (s : State) (id : Nat) (x : Copy) (dst : List Loc) (bytes : List Byte) (green : Bool) : State :=
  let bytes := match x.flip with
    | some (i, bit) =>
      if decide (x.pos ≤ i) && decide (i < x.pos + bytes.length) then
        bytes.set (i - x.pos) (bytes.getD (i - x.pos) 0 ^^^ (1#8 <<< bit))
      else bytes
    | none => bytes
  let s := if x.hod.isSome then s
    else
      let s := match dst.head? with
        | some p => noteWrite s p bytes green
        | none => s
      let s := dst.foldl (fun s p => observe s (some x.brick) p 1) s
      writeAll s ((dst.zip bytes).map (fun p => ⟨p.1, p.2, green⟩)) green false
  let (due, s) := freeDue s
  let x := { x with pos := x.pos + bytes.length, page := none, refused := false, lane := 0, due := due
                    buf := (if x.hod.isSome then x.buf ++ [(bytes, green)] else x.buf)
                    sum := (if x.ck then some (fletcherSum (x.sum.getD 0) bytes) else x.sum) }
  if decide (x.pos < x.len) then { s with copies := tabPut s.copies id x }
  else endCopy s id x (if x.cmp && x.sum.getD 0 != x.expect then 2 else 1)

/-- The bytes of a span pass both datapath lanes of the engine, which compare (R341): a difference is logged (KIND 9), and the span
passes once more; a second one is none. -/
def crossLanes (s : State) (x : Copy) (die : Nat) (src : List Loc) : State × Bool :=
  if x.lane = 0 then (s, true) else (logAdd s die 9 17 none ((src.head?).elim 0 locWord), x.lane == 1)

/-- One span of a command. While a link that it needs is out of service it waits (R368); where the switches refuse its place, it ends as
at a fault of its source or destination (R370, log 121). -/
def copySpan (s : State) (id : Nat) (x : Copy) (w : Wall) : State :=
  let x := if x.ck && x.sum.isNone then { x with sum := some (((tabGet? s.bricks x.brick).bind (·.chain)).getD 0) } else x
  let k := min (64 - (x.dst.2 + x.pos) % 64) (x.len - x.pos)
  match copyPlaces s x w kRead x.src.1 (x.src.2 + x.pos) k 3 with
  | .bad s => endCopy s id x 3
  | .fault s va => copyFault s id x w.die kRead va
  | .ok s src =>
    match (if x.hod.isSome then .ok s [] else copyPlaces s x w kWrite x.dst.1 (x.dst.2 + x.pos) k 3 : Pieces) with
    | .bad s => endCopy s id x 4
    | .fault s va => copyFault s id x w.die kWrite va
    | .ok s dst =>
      if (src ++ dst).any (locDown s) then { s with copies := tabPut s.copies id { x with due := s.clk + 1 } }
      else if src.any (fun p => (outCheck s p).isSome) then endCopy s id x 3
      else if dst.any (fun p => (outCheck s p).isSome) then endCopy s id x 4
      else
      match copyRead s x.brick src with
      | (s, none) => endCopy s id x 6
      | (s, some (bytes, g)) =>
        let green := g || x.green
        let (s, same) := crossLanes s x w.die src
        if !same then endCopy s id x 8
        else if green && dst.any Loc.isHost then endCopy s id x 5 else copyWrite s id x dst bytes green

/-- A command can move its next span: an engine has it and its time has come, it waits for no page, the brick's earlier writes are performed
(R232, R341), and no earlier checksummed command of the brick is still folding (R343). -/
def copyReady (s : State) (y : Nat × Copy) : Bool :=
  let x := y.2
  x.started && decide (x.due ≤ s.clk) && (x.page.isNone || x.refused) &&
    (tabGet? s.walls x.wall).any (fun w => !w.saved) && !x.hod.any (fun h => hodAway s h.1) &&
    (match tabGet? s.bricks x.brick with
     | some br => br.det || writesDone br x.seq
     | none => true) &&
    !(x.ck && s.copies.any (fun z => z.2.brick == x.brick && z.2.ck && decide (z.2.seq < x.seq)))

/-- The brick's command whose turn it is. -/
def nextCopy (s : State) (b : Nat) : Option (Nat × Copy) := s.copies.find? (fun y => y.2.brick == b && copyReady s y)

/-- A copy engine translates, reads, checks and writes one 64-byte span (R341). -/
def execCopySpan (b : Nat) (s : State) : Host.Outcome State Fault Refusal :=
  match nextCopy s b with
  | none => .next s
  | some (id, x) =>
    match tabGet? s.walls x.wall with
    | none => .fault .noTarget
    | some w => .next (copySpan s id x w)

/-- The brick's command into a hod that an engine can accept now: a slot can be reserved, or the hod is closed (R281). -/
def acceptableCopy (s : State) (b : Nat) : Option (Nat × Copy) :=
  s.copies.find? (fun y => y.2.brick == b && !y.2.started &&
    (match y.2.hod, tabGet? s.bricks b with
     | some (o, none), some br =>
       !br.det && ((hodAt s o).closed && !(y.2.ck && s.copies.any (fun z => z.2.brick == b && z.2.ck && decide (z.2.seq < y.2.seq))) ||
         (!(hodAt s o).closed && (hodAt s o).prods.isEmpty && (hodAt s o).room))
     | _, _ => false))

/-- Accepts a command into a hod: it reserves the next slot, or, when the hod is closed, ends with code 7. -/
def acceptCopy (s : State) (id : Nat) (x : Copy) (o : ObjRef) : State :=
  if (hodAt s o).closed then
    endCopy s id { x with hod := none, sum := (if x.ck then some (((tabGet? s.bricks x.brick).bind (·.chain)).getD 0) else none) } 7
  else
    let (s, n) := reserveSlot s o
    { s with copies := tabPut s.copies id { x with hod := some (o, some n), started := true } }

/-- A copy engine accepts a hod-destined command once a slot can be reserved (R281). -/
def execCopyHodAccept (b : Nat) (s : State) : Host.Outcome State Fault Refusal :=
  match acceptableCopy s b with
  | none => .next s
  | some (id, x) =>
    match x.hod with
    | some (o, _) => .next (acceptCopy s id x o)
    | none => .next s

/-! ### Invalidations (R337, R338) -/

/-- The operands' check of TLBI.range. -/
def tlbiRangeBad (c : Ctx) (base len : Nat) : Option TrapReq :=
  let t := lowThread c.sp.mask
  let bad (cause : BitVec 9) : Option TrapReq := some (trapThread cause t 1 (BitVec.ofNat 64 base))
  if base % 65536 != 0 || len % 65536 != 0 then bad 0x0C1#9
  else if len = 0 || decide (base ≥ 2 ^ 57) || decide (base + len > 2 ^ 57) then bad 0x0C6#9
  else none

/-- TLBI (R337): the pair sa, sa+1 holds base, ASID and length. -/
def tlbiForm (all : Bool) (a : Reg) (sp : Scope) (st : BitVec 3) (s : State) : Host.Outcome State Fault Refusal :=
  let f := { syncForm false st [a, nxt a] none with priv := true }
  issueForm s f (fun c =>
    let base := (c.u a).toNat
    let hi := (c.u (nxt a)).toNat
    let len := hi % 2 ^ 48
    if c.gov || c.uG a || c.uG (nxt a) then .trap s (trapOf c 0x084#9)
    else if fcFull c.br 7 then .hold
    else match (if all then (if len != 0 then some (trapOf c 0x001#9) else none) else tlbiRangeBad c base len) with
      | some t => .trap s t
      | none => .done (pushFlight s c f (some 7) (bufferEnd s c) none
          (.tlbi all (if all then 0 else base) (if all then 2 ^ 57 else len) (hi / 2 ^ 48) sp false [])))

/-- Invalidates translations of an ASID over a range and completes when drained (R338). -/
def execTlbiRange (a : Reg) (sp : Scope) (st : BitVec 3) (s : State) : Host.Outcome State Fault Refusal := tlbiForm false a sp st s

/-- Invalidates every translation of an ASID and completes when drained (R338). -/
def execTlbiAll (a : Reg) (sp : Scope) (st : BitVec 3) (s : State) : Host.Outcome State Fault Refusal := tlbiForm true a sp st s

/-- The writes, engine writes among them, that a TLBI of the brick comes after. -/
def FlightKind.isEngineWrite : FlightKind → Bool
  | .hodPut _ _ _ _ => true
  | .copy _ => true
  | .copyWait _ => true
  | .putw _ _ _ => true
  | .sigw _ _ _ _ _ _ _ _ => true
  | .tapeSeal => true
  | .coll _ => true
  | k => k.isWrite

/-- The operations that reach memory through a translation made when they issued. -/
def FlightKind.translated : FlightKind → Bool
  | .load _ _ _ => true
  | .syncAtom => true
  | .ldtv _ _ _ _ _ _ => true
  | .hodPut _ _ _ _ => true
  | .putw _ _ _ => true
  | .sigw _ _ _ _ _ _ _ _ => true
  | .coll _ => true
  | k => k.isWrite

/-- A die lies in the scope of an invalidation that a brick of a die issued. -/
def dieInScope (sp : Scope) (mine die : Nat) : Bool := sp == .pkg || die == mine

/-- Die of a translation cache: a core's, or a die's own. -/
def cacheDie (cache : Nat) : Nat := if cache ≥ 128 then cache - 128 else dieOfCore cache

/-- An entry's span meets a range. -/
def TlbEntry.meets (e : TlbEntry) (base len : Nat) : Bool :=
  decide (e.tag * 2 ^ e.shift < base + len) && decide (base < (e.tag + 1) * 2 ^ e.shift)

/-- Removes the entries of an address space over a range from the caches of a scope. -/
def dropEntries (s : State) (all : Bool) (base len asid : Nat) (sp : Scope) (mine : Nat) : State :=
  { s with tlb := s.tlb.filter (fun e =>
      !(e.asid == asid && dieInScope sp mine (cacheDie e.cache) && (all || e.meets base len))) }

/-- The operations in flight that the invalidation waits for: those of the address space in the scope that reach memory
through an earlier translation. A buffered one of the same deterministic launch has an end time no later than the commit that the
invalidation takes effect at: a later course translates once that commit is made (`globHold`). -/
def tlbiWaits (s : State) (asid : Nat) (sp : Scope) (mine : Nat) : List (Nat × Nat) :=
  s.bricks.flatMap (fun x =>
    if asidOf s x.2 = asid && dieInScope sp mine (dieOfCore x.2.core) then
      ((x.2.flights.filter (fun f => !f.done && f.kind.translated)).map (fun f => (x.1, f.seq)))
    else [])

/-- An operation is no longer in flight. -/
def drained (s : State) (w : Nat × Nat) : Bool :=
  match tabGet? s.bricks w.1 with
  | none => true
  | some br => !br.flights.any (fun f => f.seq == w.2 && !f.done)

/-- Asks the tapes that hold a byte of the range to walk their segments again (R309). -/
def markStale (s : State) (base len asid : Nat) (sp : Scope) (mine : Nat) : State :=
  mapBricks s (fun _ br =>
    if br.tape.state != 0 && asidOf s br = asid && dieInScope sp mine (dieOfCore br.core) then
      { br with tape := { br.tape with segs := br.tape.segs.map (fun g =>
          if decide (g.base < base + len) && decide (base < g.base + g.len) then { g with stale := true } else g) } }
    else br)

/-- The entries are removed: from here on every walk reads the tables (R338). -/
def removeStep (s : State) (b : Nat) (br : Brick) (f : Flight) (all : Bool) (base len asid : Nat) (sp : Scope) : State :=
  let mine := dieOfCore br.core
  let waits := tlbiWaits s asid sp mine
  let s := dropEntries s all base len asid sp mine
  modBrick s b (fun br => { br with flights := br.flights.map (fun g =>
    if g.seq == f.seq then { g with tEnd := none, kind := .tlbi all base len asid sp true waits } else g) })

/-- The invalidation goes on: it removes, then, when all is drained, completes; none when it has to wait. -/
def tlbiStep (s : State) (b : Nat) (br : Brick) (f : Flight) : Option State :=
  match f.kind with
  | .tlbi all base len asid sp removed waits =>
    if !removed then
      (if f.tEnd.isNone && br.flights.all (fun g => decide (g.seq ≥ f.seq) || g.done || !g.kind.isEngineWrite)
       then some (removeStep s b br f all base len asid sp) else none)
    else if waits.all (drained s) then
      some (modBrick (markStale s base len asid sp (dieOfCore br.core)) b (fun br => finishFlight br f.seq))
    else none
  | _ => none

/-- The first of some operations that can go on. -/
def firstStep (f : Flight → Option State) : List Flight → Option State
  | [] => none
  | x :: l => if x.done then firstStep f l else match f x with
    | some s => some s
    | none => firstStep f l

/-- An invalidation completes when every access through removed entries has drained (R338). -/
def execTlbiComplete (b : Nat) (s : State) : Host.Outcome State Fault Refusal :=
  match tabGet? s.bricks b with
  | none => .fault .noTarget
  | some br => .next ((firstStep (tlbiStep s b br) br.flights).getD s)

end Sys2Proof.Machine
end

