-- ==== Sys2Proof/Machine/Late.lean ====
section
/-!
DEFINITION. Traps that an operation reports when it completes (R362, R372, R241), and those that a deterministic launch
owes at a course end (R362, R382).
-/
namespace Sys2Proof.Machine

/-- Precise causes among those that a completing operation reports: the versioned forms name their own instruction, and a
refused translation the form that the tape line was written for (R336). -/
def latePrecise (cause : BitVec 9) : Bool := cause == 0x0C3#9 || cause == 0x0C4#9 || cause == 0x0C9#9

/-- The report (R354, R372): an imprecise one resumes at the split's next unissued instruction. -/
def lateRec (s : State) (br : Brick) (f : Flight) (t : LateTrap) : TrapRec :=
  let sp := tabGet? br.splits f.split
  { cycle := s.clk, cause := t.cause, two := f.two, prec := latePrecise t.cause, more := false, fatal := fatalCause t.cause
    reg := 0, split := f.split % 4, count := t.count, thread := t.thread, addr := f.pc
    mask := (sp.map (·.mask)).getD 0, aux0 := t.aux0, aux1 := t.aux1
    ret := if latePrecise t.cause then f.pc else (sp.map (·.pc)).getD f.pc }

/-- A completing operation reports a trap. One of the handler's own operations ends the brick (R352). -/
def lateTrap (s : State) (b : Nat) (f : Flight) (t : LateTrap) : State :=
  match tabGet? s.bricks b with
  | none => s
  | some br => reportLate s b f.split (lateRec s br f t)

/-- A commit of a deterministic launch reports a trap: it is taken when the brick's clock next reaches a course end. -/
def oweTrap (s : State) (b : Nat) (f : Flight) (t : LateTrap) : State :=
  match tabGet? s.bricks b with
  | none => s
  | some br =>
    if !br.alive then s
    else modBrick s b (fun x => { x with owed := x.owed ++ [{ lateRec s br f t with cycle := courseEndOf (qOf s br) br.L }] })

/-- A tape line that was refused reaches nothing, and the brick takes the cause at the form that it was written for (R336), or, when that
has completed, at its current split's next one (log 123). -/
def refuseLine (s : State) (b : Nat) (f : Option Flight) (cause : BitVec 9) (va : Nat) : State :=
  match tabGet? s.bricks b with
  | none => s
  | some br =>
    let pc := ((tabGet? br.splits br.cur).map (·.pc)).getD 0
    let f := f.getD { seq := 0, fc := none, ord := 0, split := br.cur, pc := pc, two := false, due := 0, tEnd := none, done := false, kind := .tapeRec }
    lateTrap (dropLine s b) b f ⟨cause, 0, 1, BitVec.ofNat 64 va, 0⟩

/-- The one that fits the launch. -/
def reportTrap (s : State) (b : Nat) (f : Flight) (t : LateTrap) : State :=
  if (tabGet? s.bricks b).any (·.det) then oweTrap s b f t else lateTrap s b f t

/-- Ends an operation of a brick, if the brick still stands. -/
def endFlight (s : State) (b seq : Nat) : State := modBrick s b (fun br => finishFlight br seq)

/-- An operation of a brick by its number. -/
def flightOf (s : State) (b seq : Nat) : Option Flight := (tabGet? s.bricks b).bind (fun br => br.flights.find? (fun f => f.seq == seq))

/-- Changes an operation of a brick. -/
def setKind (s : State) (b seq : Nat) (kind : FlightKind) (due : Nat) : State :=
  modBrick s b (fun br => { br with flights := br.flights.map (fun f => if f.seq == seq then { f with kind := kind, due := due } else f) })

end Sys2Proof.Machine
end

