-- ==== Sys2Proof/Machine/Signature.lean ====
section
/-!
DEFINITION. ML-DSA-65, by which firmware, defect maps and objects are verified and quotes are signed (R387, R390, R391). The spec names
the scheme; what it computes is FIPS 204's, with an empty context string (PRESUMED, log 118). Elements of the ring are lists of 256
numbers below q.
-/
namespace Sys2Proof.Machine

abbrev Bytes := List (BitVec 8)
abbrev Elt := List Nat

/-- q of FIPS 204; half the low order's range; the bounds of the mask and of the challenge's products. -/
def dsaQ : Nat := 8380417
def dsaGamma1 : Nat := 524288
def dsaGamma2 : Nat := 261888
def dsaBeta : Nat := 196
/-- Rows and columns of the matrix, ones of the challenge, hints at most. -/
def dsaK : Nat := 6
def dsaL : Nat := 5
def dsaTau : Nat := 49
def dsaOmega : Nat := 55

/-! ### Bytes and numbers -/

/-- Bytes as a number, the lowest first. -/
def bytesNum (bs : Bytes) : Nat := bs.foldr (fun b n => b.toNat + 256 * n) 0

/-- A number's lowest n bytes. -/
def numBytes (n v : Nat) : Bytes := (List.range n).map (fun i => BitVec.ofNat 8 (v >>> (8 * i)))

/-- 256 fields of w bits, and back. -/
def unpackFields (w : Nat) (bs : Bytes) : Elt :=
  let v := bytesNum bs
  (List.range 256).map (fun i => (v >>> (w * i)) % 2 ^ w)

def packFields (w : Nat) (a : Elt) : Bytes := numBytes (32 * w) (a.foldr (fun x n => x + 2 ^ w * n) 0)

/-- The cutBytes of n bytes of a string, as many as asked for. -/
def cutBytes (n : Nat) : Nat → Bytes → List Bytes
  | 0, _ => []
  | c + 1, bs => bs.take n :: cutBytes n c (bs.drop n)

/-! ### The ring -/

/-- An integer's residue, and the residue of least size. -/
def toQ (x : Int) : Nat := (x % (dsaQ : Int)).toNat
def ofQ (x : Nat) : Int := if x > dsaQ / 2 then (x : Int) - (dsaQ : Int) else (x : Int)

def eltAdd (a b : Elt) : Elt := List.zipWith (fun x y => (x + y) % dsaQ) a b
def eltSub (a b : Elt) : Elt := List.zipWith (fun x y => (x + dsaQ - y) % dsaQ) a b
/-- The product of two transforms. -/
def eltMul (a b : Elt) : Elt := List.zipWith (fun x y => x * y % dsaQ) a b
def eltZero : Elt := List.replicate 256 0

/-- The value of a polynomial. -/
def valueAt (a : Elt) (x : Nat) : Nat := a.foldr (fun c v => (c + x * v) % dsaQ) 0

/-- A power of the root of unity 1753, whose order is 512. -/
def rootPow (i : Nat) : Nat := 1753 ^ (i % 512) % dsaQ

/-- The eight bits of a number in the reverse order. -/
def reverse8 (i : Nat) : Nat := (List.range 8).foldl (fun r k => 2 * r + (i >>> k) % 2) 0

/-- The transform: the polynomial's values at the odd powers of the root, in bit-reversed order; and back. -/
def transform (a : Elt) : Elt := (List.range 256).map (fun j => valueAt a (rootPow (2 * reverse8 j + 1)))

def invert (a : Elt) : Elt :=
  let b := (List.range 256).map (fun m => a.getD (reverse8 m) 0)
  (List.range 256).map (fun i => 8347681 * (rootPow (512 - i) * valueAt b (rootPow (2 * (512 - i))) % dsaQ) % dsaQ)

/-- A row of transforms times a column. -/
def rowTimes (row col : List Elt) : Elt := (List.zipWith eltMul row col).foldl eltAdd eltZero

/-- No coefficient reaches a bound. -/
def smallElt (bound : Nat) (a : Elt) : Bool := a.all (fun x => decide ((ofQ x).natAbs < bound))

/-! ### Parts of a coefficient -/

/-- The high and the low part for γ2. -/
def splitHigh (r : Nat) : Nat × Int :=
  let low : Int := (r % (2 * dsaGamma2) : Nat)
  let low := if low > (dsaGamma2 : Int) then low - 2 * (dsaGamma2 : Int) else low
  if (r : Int) - low = (dsaQ : Int) - 1 then (0, low - 1) else ((((r : Int) - low) / (2 * (dsaGamma2 : Int))).toNat, low)

/-- The high part corrected by a hint. -/
def hinted (h : Bool) (r : Nat) : Nat :=
  let (hi, lo) := splitHigh r
  if !h then hi else if lo > 0 then (hi + 1) % 16 else (hi + 15) % 16

/-- The upper ten bits and the rest, for d = 13. -/
def splitPower (r : Nat) : Nat × Int :=
  let low : Int := (r % 8192 : Nat)
  let low := if low > 4096 then low - 8192 else low
  ((((r : Int) - low) / 8192).toNat, low)

/-! ### Sampling -/

/-- One entry of the matrix, as a transform. -/
def sampleEntry (rho : Bytes) (row col : Nat) : Elt :=
  ((cutBytes 3 448 (shake128 (rho ++ numBytes 1 col ++ numBytes 1 row) 1344)).filterMap (fun p =>
    let v := bytesNum p % 2 ^ 23
    if v < dsaQ then some v else none)).take 256

def sampleMatrix (rho : Bytes) : List (List Elt) :=
  (List.range dsaK).map (fun r => (List.range dsaL).map (fun c => sampleEntry rho r c))

/-- An element with coefficients from −4 to 4. -/
def sampleSmall (seed : Bytes) : Elt :=
  (((shake256 seed 544).flatMap (fun b => [b.toNat % 16, b.toNat / 16])).filterMap (fun v : Nat =>
    if v < 9 then some (toQ (4 - (v : Int))) else none)).take 256

/-- An element of the mask. -/
def sampleMask (seed : Bytes) (n : Nat) : Elt :=
  (unpackFields 20 (shake256 (seed ++ numBytes 2 n) 640)).map (fun v => toQ ((dsaGamma1 : Int) - (v : Int)))

/-- The challenge's ones are put in place one after another. -/
def placeOnes (signs : Nat) : List Nat → Bytes → Elt → Elt
  | [], _, c => c
  | _ :: _, [], c => c
  | i :: is, j :: js, c =>
    if j.toNat > i then placeOnes signs (i :: is) js c
    else
      let c := (c.set i (c.getD j.toNat 0)).set j.toNat (if (signs >>> (i + dsaTau - 256)) % 2 = 1 then dsaQ - 1 else 1)
      placeOnes signs is js c
  termination_by structural _ js => js

/-- The challenge of a hash: 49 coefficients of 1 or −1. -/
def sampleChallenge (seed : Bytes) : Elt :=
  let bs := shake256 seed 408
  placeOnes (bytesNum (bs.take 8)) ((List.range dsaTau).map (· + (256 - dsaTau))) (bs.drop 8) eltZero

/-! ### Encodings -/

/-- Hints of one polynomial: ascending places. -/
def ascending : List Nat → Bool
  | a :: b :: l => decide (a < b) && ascending (b :: l)
  | _ => true

/-- The places of the hints, polynomial by polynomial; none when the bytes are malformed. -/
def readHints (places : List Nat) (start : Nat) : List Nat → Option (List (List Nat))
  | [] => if (places.drop start).all (· == 0) then some [] else none
  | e :: es =>
    let mine := (places.take e).drop start
    if e < start || decide (e > dsaOmega) || !ascending mine then none
    else (readHints places e es).map (fun l => mine :: l)

def writeHints (h : List (List Nat)) : Bytes :=
  let all := h.flatMap id
  let ends := (List.range dsaK).map (fun i => ((h.take (i + 1)).flatMap id).length)
  (all ++ List.replicate (dsaOmega - all.length) 0 ++ ends).map (fun v => BitVec.ofNat 8 v)

/-- The high parts as bytes. -/
def packHigh (w : List Elt) : Bytes := w.flatMap (packFields 4)

/-- The message representative: an empty context stands before the message. -/
def messageHash (tr m : Bytes) : Bytes := shake256 (tr ++ [0, 0] ++ m) 64

/-! ### The scheme -/

/-- Verification: public key of 1,952 bytes, message, signature of 3,309 bytes. -/
def dsaVerify (key m sig : Bytes) : Bool :=
  let rho := key.take 32
  let t1 := (cutBytes 320 dsaK (key.drop 32)).map (unpackFields 10)
  let c := sig.take 48
  let z := (cutBytes 640 dsaL (sig.drop 48)).map (fun p => (unpackFields 20 p).map (fun v => toQ ((dsaGamma1 : Int) - (v : Int))))
  let hs := (sig.drop 3248).map BitVec.toNat
  match readHints (hs.take dsaOmega) 0 (hs.drop dsaOmega) with
  | none => false
  | some h =>
    let mu := messageHash (shake256 key 64) m
    let ch := transform (sampleChallenge c)
    let zt := z.map transform
    let w := List.zipWith (fun row t =>
      invert (eltSub (rowTimes row zt) (eltMul ch (transform (t.map (fun x => x * 8192 % dsaQ)))))) (sampleMatrix rho) t1
    let high := List.zipWith (fun (e : Elt) (l : List Nat) =>
      List.zipWith (fun i x => hinted (l.contains i) x) (List.range 256) e) w h
    key.length == 1952 && sig.length == 3309 && z.all (smallElt (dsaGamma1 - dsaBeta)) && shake256 (mu ++ packHigh high) 48 == c

/-- What a key pair consists of. -/
structure DsaKey where
  rho : Bytes
  seed : Bytes
  tr : Bytes
  s1 : List Elt
  s2 : List Elt
  t0 : List Elt
  pub : Bytes
  deriving DecidableEq, Repr

/-- The key pair of a 32-byte secret. -/
def dsaKeyOf (xi : Bytes) : DsaKey :=
  let h := shake256 (xi ++ numBytes 1 dsaK ++ numBytes 1 dsaL) 128
  let rho := h.take 32
  let small := (h.drop 32).take 64
  let s1 := (List.range dsaL).map (fun r => sampleSmall (small ++ numBytes 2 r))
  let s2 := (List.range dsaK).map (fun r => sampleSmall (small ++ numBytes 2 (r + dsaL)))
  let s1t := s1.map transform
  let t := List.zipWith (fun row e => eltAdd (invert (rowTimes row s1t)) e) (sampleMatrix rho) s2
  let pub := rho ++ t.flatMap (fun e => packFields 10 (e.map (fun x => (splitPower x).1)))
  { rho := rho, seed := (h.drop 96).take 32, tr := shake256 pub 64, s1 := s1, s2 := s2
    t0 := t.map (fun e => e.map (fun x => toQ (splitPower x).2)), pub := pub }

/-- One attempt at a signature; none when it is rejected. -/
def dsaAttempt (key : DsaKey) (matrix : List (List Elt)) (mu mask : Bytes) (kappa : Nat) : Option Bytes :=
  let y := (List.range dsaL).map (fun r => sampleMask mask (kappa + r))
  let yt := y.map transform
  let w := matrix.map (fun row => invert (rowTimes row yt))
  let c := shake256 (mu ++ packHigh (w.map (fun e => e.map (fun x => (splitHigh x).1)))) 48
  let ch := transform (sampleChallenge c)
  let times (e : Elt) : Elt := invert (eltMul ch (transform e))
  let z := List.zipWith eltAdd y (key.s1.map times)
  let r := List.zipWith eltSub w (key.s2.map times)
  let ct0 := key.t0.map times
  let hints := List.zipWith (fun (a t : Elt) =>
    (List.range 256).filter (fun i =>
      (splitHigh (a.getD i 0)).1 != (splitHigh ((a.getD i 0 + t.getD i 0) % dsaQ)).1)) r ct0
  if z.all (smallElt (dsaGamma1 - dsaBeta)) && r.all (fun e => e.all (fun x => decide ((splitHigh x).2.natAbs < dsaGamma2 - dsaBeta))) &&
      ct0.all (smallElt dsaGamma2) && decide ((hints.flatMap id).length ≤ dsaOmega) then
    some (c ++ z.flatMap (fun e => packFields 20 (e.map (fun x => ((dsaGamma1 : Int) - ofQ x).toNat))) ++ writeHints hints)
  else none

/-- Attempts until one is accepted; FIPS 204 bounds their number by 814. -/
def dsaAttempts (key : DsaKey) (matrix : List (List Elt)) (mu mask : Bytes) (kappa : Nat) : Nat → Option Bytes
  | 0 => none
  | n + 1 => (dsaAttempt key matrix mu mask kappa).or (dsaAttempts key matrix mu mask (kappa + dsaL) n)

/-- The signature of a message with 32 bytes of randomness. -/
def dsaSign (key : DsaKey) (m rnd : Bytes) : Bytes :=
  let mu := messageHash key.tr m
  (dsaAttempts key (sampleMatrix key.rho) mu (shake256 (key.seed ++ rnd ++ mu) 64) 0 814).getD []

end Sys2Proof.Machine
end

