-- ==== Sys2Proof/Machine/Launch.lean ====
section
/-!
DEFINITION. The launch record, the IFO object and the launch header as a site processor reads them, and the checks of
acceptance in their order (R47–R50, R229, R286–R290, R390, R434). A check that fails ends with its launch status.
-/
namespace Sys2Proof.Machine

/-! ### Reading -/

/-- A site processor's work on the state, which may end with a launch status. -/
abbrev Site (α : Type) : Type := EStateM Nat State α

/-- The statuses of R349. -/
def stMalformed : Nat := 0x0105
def stInUse : Nat := 0x0107
def stObject : Nat := 0x0104
def stHeader : Nat := 0x0106
def stVariant : Nat := 0x0101
def stReloc : Nat := 0x0102
def stNoCore : Nat := 0x0103

/-- The address space in which a site processor reads: its die, the ASID, the privilege. -/
structure Space where
  die  : Nat
  asid : Nat
  prv  : Bool
  deriving DecidableEq, Repr

def Site.need (b : Bool) (st : Nat) : Site Unit := if b then pure () else throw st

/-- The place of an address, for an access of a kind. -/
def siteAddr (sp : Space) (kind va st : Nat) : Site Loc := fun s =>
  if decide (va ≥ 2 ^ 57) then .error st s
  else match translate s (128 + sp.die) sp.die sp.asid sp.prv kind va with
    | (s, .ok pa) => .ok (.phys pa) s
    | (s, _) => .error st s

/-- Bytes from one line. -/
def sitePiece (sp : Space) (st va n : Nat) : Site (List Byte) := do
  let l ← siteAddr sp kRead va st
  fun s =>
    let (s, psn) := checkLine s l.line
    let s := observe s none l n
    if psn then .error st s else .ok (readBytes s l n) s

/-- `n` bytes from an address; the last argument bounds the lines. -/
def siteLines (sp : Space) (st : Nat) : Nat → Nat → Nat → Site (List Byte)
  | _, _, 0 => pure []
  | va, n, fuel + 1 =>
    if n = 0 then pure []
    else do
      let m := min (64 - va % 64) n
      let x ← sitePiece sp st va m
      let r ← siteLines sp st (va + m) (n - m) fuel
      pure (x ++ r)

def siteRead (sp : Space) (st va n : Nat) : Site (List Byte) := siteLines sp st va n (n / 64 + 2)

/-- A little-endian field of some bytes. -/
def fieldAt (l : List Byte) (off n : Nat) : Nat := leNat ((l.drop off).take n)

/-- Every page of a list allows an access of a kind. -/
def sitePages (sp : Space) (kind st : Nat) : List Nat → Site Unit
  | [] => pure ()
  | va :: l => do
    let _ ← siteAddr sp kind va st
    sitePages sp kind st l

/-- Every page of a list can be read. -/
def siteReadable (sp : Space) (st : Nat) (l : List Nat) : Site Unit := sitePages sp kRead st l

/-- Writes bytes, cured. -/
def siteWrite (s : State) (l : Loc) (bytes : List Byte) (atomic : Bool) : State :=
  let s := observe s none l bytes.length
  writeAll s ((List.range bytes.length).map (fun i => ⟨l.add i, bytes.getD i 0, false⟩)) false atomic

/-! ### The record (R286) -/

/-- The fields of a launch record. -/
structure LRec where
  obj    : Nat
  kern   : Nat
  walls  : Nat
  dies   : Nat
  pri    : Nat
  asid   : Nat
  mwin   : Nat
  nsem   : Nat
  semb   : Nat
  narg   : Nat
  nnet   : Nat
  lid    : Nat
  args   : Nat
  status : Nat
  done   : Nat
  mbase  : Nat
  deriving DecidableEq, Repr

def recOf (l : List Byte) : LRec where
  obj := fieldAt l 0 8
  kern := fieldAt l 8 4
  walls := fieldAt l 12 4
  dies := fieldAt l 16 1
  pri := fieldAt l 17 1
  asid := fieldAt l 18 2
  mwin := fieldAt l 20 2
  nsem := fieldAt l 22 2
  semb := fieldAt l 24 2
  narg := fieldAt l 26 1
  nnet := fieldAt l 27 1
  lid := fieldAt l 28 4
  args := fieldAt l 32 8
  status := fieldAt l 40 8
  done := fieldAt l 48 8
  mbase := fieldAt l 56 8

/-- The dies that the record names, in order. -/
def LRec.dieList (r : LRec) : List Nat := [0, 1, 2, 3].filter (fun d => r.dies.testBit d)

/-- Every field is in range; a launch outside privileged mode does not hold semaphore 4,095 (R286, R335). -/
def LRec.inRange (r : LRec) (prv : Bool) : Bool :=
  decide (r.obj < 2 ^ 57) && decide (1 ≤ r.walls) && decide (r.walls ≤ 2 ^ 20) && r.dies != 0 && decide (r.dies < 16) && decide (r.pri ≤ 3) &&
    decide (r.mwin ≤ 88) && decide (r.nsem ≤ 4096) && decide (r.semb + r.nsem ≤ 4096) && decide (r.narg ≤ 16) && decide (r.nnet ≤ 16) &&
    r.args % 8 == 0 && decide (r.args + 8 * (r.narg + r.nnet) ≤ 2 ^ 57) && r.status % 8 == 0 && decide (r.status < 2 ^ 57) &&
    r.done % 8 == 0 && decide (r.done < 2 ^ 57) &&
    r.mbase % 2 ^ 21 == 0 && decide (r.mbase + r.dieList.length * r.mwin * 2 ^ 21 ≤ 2 ^ 57) && (r.mwin != 0 || r.mbase == 0) &&
    (prv || r.nsem == 0 || decide (r.semb + r.nsem ≤ 4095))

/-- A network barrier entry. -/
def netEntry (v : Nat) : Option NetEntry :=
  let e := v / 2 ^ 32 % 2 ^ 26
  let ok (sp : Scope) : Option NetEntry :=
    if v == v % 8 + v / 2 ^ 8 % 64 * 2 ^ 8 + e * 2 ^ 32 && decide (1 ≤ e) && decide (e ≤ 2 ^ 25) then some ⟨sp, v / 2 ^ 8 % 64, e⟩ else none
  match v % 8 with
  | 2 => ok .quad
  | 3 => ok .die
  | 4 => ok .pkg
  | 5 => ok .pod
  | _ => none

/-- The values of 8-byte words. -/
def words : Nat → List Byte → List Nat
  | 0, _ => []
  | n + 1, l => leNat (l.take 8) :: words n (l.drop 8)

/-- The address of the level-0 entry of a page, when the pointers above it exist (R229, R330). -/
def levelZero (s : State) : List (Nat × Nat) → Nat → Nat → State × Option Nat
  | [], _, _ => (s, none)
  | (sh, w) :: rest, va, table =>
    let at0 := table + 8 * (va / 2 ^ sh % 2 ^ w)
    if sh = 21 then (s, some at0)
    else
      match readTable s at0 with
      | (s, none) => (s, none)
      | (s, some e) =>
        match classify sh e with
        | .ptr t => levelZero s rest va t
        | _ => (s, none)

def levelZeroOf (s : State) (asid va : Nat) : State × Option Nat :=
  match rootOf s asid with
  | (s, none) => (s, none)
  | (s, some root) => levelZero s walkLevels va root

/-- The window pages of a launch: die and virtual address. -/
def windowPages (dies : List Nat) (mwin mbase : Nat) : List (Nat × Nat × Nat) :=
  (List.range dies.length).flatMap (fun i => (List.range mwin).map (fun p => (dies.getD i 0, p, mbase + (i * mwin + p) * 2 ^ 21)))

/-- The tables are ready for the window (R229). -/
def windowReady (asid : Nat) : List (Nat × Nat × Nat) → Site Unit
  | [] => pure ()
  | (_, _, va) :: l => do
    let ok ← (fun s =>
      match levelZeroOf s asid va with
      | (s, none) => .ok false s
      | (s, some a) =>
        match readTable s a with
        | (s, some e) => .ok (!ebit e 0) s
        | (s, none) => .ok false s : Site Bool)
    Site.need ok stMalformed
    windowReady asid l

/-- Check 1 of R290: the argument values and network entries. -/
def checkRecord (rs : Space) (asid : Nat) (r : LRec) : Site (List W64 × List NetEntry) := do
  Site.need (r.inRange rs.prv) stMalformed
  let bytes ← siteRead rs stMalformed r.args (8 * (r.narg + r.nnet))
  if r.narg + r.nnet != 0 then
    sitePages rs kRw stMalformed (pagesOf r.args (8 * (r.narg + r.nnet)))
  let ws := words (r.narg + r.nnet) bytes
  let nets := (ws.drop r.narg).filterMap netEntry
  Site.need (nets.length == r.nnet) stMalformed
  if r.status != 0 then
    let _ ← siteAddr rs kRw r.status stMalformed
  if r.done != 0 then
    let _ ← siteAddr rs kRw r.done stMalformed
  windowReady asid (windowPages r.dieList r.mwin r.mbase)
  pure ((ws.take r.narg).map (BitVec.ofNat 64), nets)

/-! ### The object (R47, R434) -/

/-- An entry of the section table. -/
structure Sect where
  kind : Nat
  off  : Nat
  size : Nat
  deriving DecidableEq, Repr

/-- An object: its section table and kernel descriptors (HDR, VTAB, NVAR, NAME). -/
structure Obj where
  va    : Nat
  sects : List Sect
  kerns : List (Nat × Nat × Nat × Nat)
  deriving DecidableEq, Repr

/-- Records of a fixed size. -/
def chunks (size : Nat) : Nat → List Byte → List (List Byte)
  | 0, _ => []
  | n + 1, l => l.take size :: chunks size n (l.drop size)

def Obj.sect (o : Obj) (kind : Nat) : Option Sect := o.sects.find? (fun x => x.kind == kind)
def Obj.count (o : Obj) (kind : Nat) : Nat := (o.sects.filter (fun x => x.kind == kind)).length

/-- Reads header, section table and descriptors, and checks that sections lie in the object's readable bytes. -/
def readObject (sp : Space) (va : Nat) : Site Obj := do
  let hd ← siteRead sp stObject va 24
  Site.need (fieldAt hd 0 4 == 0x1A4F4649 && fieldAt hd 4 2 == 1) stObject
  let nsect := fieldAt hd 8 4
  let soff := fieldAt hd 12 4
  let nkern := fieldAt hd 16 4
  let koff := fieldAt hd 20 4
  Site.need (decide (soff + 16 * nsect ≤ 2 ^ 32) && decide (koff + 16 * nkern ≤ 2 ^ 32)) stObject
  let stab ← siteRead sp stObject (va + soff) (16 * nsect)
  let ktab ← siteRead sp stObject (va + koff) (16 * nkern)
  let sects := (chunks 16 nsect stab).map (fun x => (⟨fieldAt x 0 4, fieldAt x 8 4, fieldAt x 12 4⟩ : Sect))
  let o : Obj := ⟨va, sects, (chunks 16 nkern ktab).map (fun x => (fieldAt x 0 4, fieldAt x 4 4, fieldAt x 8 4, fieldAt x 12 4))⟩
  Site.need (sects.all (fun x => decide (1 ≤ x.kind) && decide (x.kind ≤ 8) && decide (x.off + x.size ≤ 2 ^ 32))) stObject
  Site.need ([4, 5, 6, 7, 8].all (fun k => decide (o.count k ≤ 1))) stObject
  siteReadable sp stObject (sects.flatMap (fun x => pagesOf (va + x.off) x.size))
  pure o

/-- A symbol (R434). -/
structure Sym where
  value : Nat
  sect  : Nat
  kind  : Nat
  deriving DecidableEq, Repr

/-- The symbol section: entries that name nothing outside the object. 0xFFFF names no section, so that a label may not bear
it. -/
def readSyms (sp : Space) (o : Obj) : Site (List Sym) :=
  match o.sect 4 with
  | none => pure []
  | some x => do
    Site.need (decide (4 ≤ x.size)) stObject
    let nb ← siteRead sp stObject (o.va + x.off) 4
    let n := leNat nb
    Site.need (decide (4 + 16 * n ≤ x.size)) stObject
    let tab ← siteRead sp stObject (o.va + x.off + 4) (16 * n)
    let es := chunks 16 n tab
    let names := x.size - (4 + 16 * n)
    Site.need (es.all (fun e =>
      let sect := fieldAt e 8 2
      decide (fieldAt e 10 1 ≤ 3) && decide (fieldAt e 12 4 < names) &&
        (if sect == 0xFFFF then fieldAt e 10 1 != 0
         else (o.sects[sect]?).any (fun y => fieldAt e 10 1 != 0 || decide (fieldAt e 0 8 ≤ y.size))))) stObject
    pure (es.map (fun e => ⟨fieldAt e 0 8, fieldAt e 8 2, fieldAt e 10 1⟩))

/-- Every descriptor names places inside the object. DESIGN CHOICE (log entry 102): a descriptor without a variant table whose
NVAR is not zero is refused too. -/
def descsOk (o : Obj) (syms : List Sym) : Bool :=
  o.kerns.all (fun k =>
    (o.sect 7).any (fun x => decide (k.1 < x.size)) && decide (k.2.2.2 < syms.length) &&
      (if k.2.1 == 0xFFFFFFFF then k.2.2.1 == 0 else (o.sect 6).any (fun x => decide (k.2.1 < x.size))))

/-- The end of an object: past its last table or section. -/
def Obj.extent (o : Obj) (soff koff : Nat) : Nat :=
  (o.sects.map (fun x => x.off + x.size)).foldl max (max 24 (max (soff + 16 * o.sects.length) (koff + 16 * o.kerns.length)))

/-- The signature (R390): a signed object verifies under an installed key; an unsigned one needs REQSIG = 0. -/
def checkSignature (sp : Space) (o : Obj) : Site Unit :=
  match o.sect 8 with
  | none => fun s => if s.reqSig then .error stObject s else .ok () s
  | some x => do
    Site.need (decide (3313 ≤ x.size)) stObject
    let hd ← siteRead sp stObject o.va 24
    let n := o.extent (fieldAt hd 12 4) (fieldAt hd 20 4)
    let before ← siteRead sp stObject o.va x.off
    let sec ← siteRead sp stObject (o.va + x.off) x.size
    let after ← siteRead sp stObject (o.va + x.off + x.size) (n - (x.off + x.size))
    let digest := shake256 (before ++ List.replicate x.size 0 ++ after) 64
    match (if decide (fieldAt sec 0 4 ≤ 3) then Config.keySlot (fieldAt sec 0 4) else none) with
    | none => throw stObject
    | some key => Site.need (dsaVerify key digest ((sec.drop 4).take 3309)) stObject

/-! ### The header (R288) -/

/-- What a launch header says. -/
structure LHead where
  det   : Bool
  q     : Nat
  dyn   : Bool
  nacc  : Nat
  bars  : List Nat
  hods  : List (Nat × Nat)
  lb    : Nat
  roles : List Role
  nbind : Nat
  /-- offset of the binding entries in the section -/
  boff  : Nat
  deriving DecidableEq, Repr

def roleOf (e : List Byte) : Option Role :=
  let r : Role := ⟨fieldAt e 0 4, fieldAt e 4 1, fieldAt e 5 1, fieldAt e 6 1, BitVec.ofNat 5 (fieldAt e 7 1), fieldAt e 8 1⟩
  if r.entry % 4 == 0 && decide (1 ≤ r.lgran) && decide (r.lgran ≤ 8) && decide (8 ≤ r.ureg) && decide (r.ureg ≤ 64) && r.ureg % 8 == 0 &&
      decide (1 ≤ r.bricks) && decide (r.bricks ≤ 128) && decide (fieldAt e 7 1 < 32) && r.emask.getLsbD 4 && decide (r.bpri ≤ 15) &&
      fieldAt e 9 7 == 0 then some r else none

def isPow2 (n : Nat) : Bool := [2, 4, 8, 16, 32, 64, 128, 256].contains n

def hodEntry (e : List Byte) : Option (Nat × Nat) :=
  let n := fieldAt e 0 2
  let b := fieldAt e 2 2
  if isPow2 n && b % 64 == 0 && decide (64 ≤ b) && decide (b ≤ 4096) && fieldAt e 4 4 == 0 then some (n, b) else none

def barEntry (e : List Byte) : Option Nat :=
  let c := fieldAt e 0 2
  if decide (1 ≤ c) && decide (c ≤ 128) && fieldAt e 2 2 == 0 then some c else none

/-- Check 4 of R290. -/
def readHeader (sp : Space) (o : Obj) (kern : Nat) : Site LHead := do
  Site.need (decide (kern < o.kerns.length)) stHeader
  match o.sect 7, o.kerns[kern]? with
  | some x, some k =>
    let room := x.size - k.1
    Site.need (decide (32 ≤ room)) stHeader
    let h ← siteRead sp stHeader (o.va + x.off + k.1) 32
    let nrole := fieldAt h 2 1
    let flags := fieldAt h 3 1
    let lq := fieldAt h 4 1
    let nacc := fieldAt h 5 1
    let nbar := fieldAt h 6 1
    let nhod := fieldAt h 7 1
    let lb := fieldAt h 8 4
    let nbind := fieldAt h 12 2
    let det := flags % 2 == 1
    let dyn := flags / 2 % 2 == 1
    let size := 32 + 16 * nrole + 8 * nhod + 4 * nbar + 16 * nbind
    Site.need (fieldAt h 0 2 == 1 && decide (1 ≤ nrole) && decide (nrole ≤ 4) && decide (flags < 4) &&
      (if det then decide (8 ≤ lq) && decide (lq ≤ 16) else lq == 0) && decide (nacc ≤ 16) && (!dyn || nacc == 0) && decide (nbar ≤ 32) &&
      decide (nhod ≤ 32) && lb % 64 == 0 && decide (lb ≤ 2 ^ 20) && decide (nbind ≤ 256) && fieldAt h 14 18 == 0 && decide (size ≤ room)) stHeader
    let es ← siteRead sp stHeader (o.va + x.off + k.1 + 32) (size - 32)
    let roles := (chunks 16 nrole es).filterMap roleOf
    let hods := (chunks 8 nhod (es.drop (16 * nrole))).filterMap hodEntry
    let bars := (chunks 4 nbar (es.drop (16 * nrole + 8 * nhod))).filterMap barEntry
    let binds := (chunks 16 nbind (es.drop (16 * nrole + 8 * nhod + 4 * nbar))).map (fun e => fieldAt e 8 8)
    Site.need (roles.length == nrole && hods.length == nhod && bars.length == nbar &&
      (List.range nbind).all (fun i => descFits (BitVec.ofNat 64 (binds.getD i 0)) && binds.getD i 0 / 2 ^ 56 == i) &&
      decide ((hods.map (fun y => y.1 * y.2)).foldl (· + ·) 0 ≤ lb)) stHeader
    pure { det := det, q := (if det then 2 ^ lq else 0), dyn := dyn, nacc := nacc, bars := bars, hods := hods, lb := lb
           roles := roles, nbind := nbind, boff := x.off + k.1 + 32 + 16 * nrole + 8 * nhod + 4 * nbar }
  | _, _ => throw stHeader

/-! ### Variants and relocations (R48–R50) -/

/-- The bindings of a variant: symbol, kind, value. -/
abbrev Variant := List (Nat × Nat × Nat)

/-- The variant entries from some bytes of the section: `n` entries. DESIGN CHOICE (log entry 103): bytes past the section's
end read as zeros. -/
def variantsFrom : Nat → List Byte → List (Nat × Variant)
  | 0, _ => []
  | n + 1, l =>
    let nb := fieldAt l 4 4
    let vs := (chunks 12 nb (l.drop 8)).map (fun e => (fieldAt e 0 4, fieldAt e 4 1, fieldAt e 8 4))
    (fieldAt l 0 4, vs) :: variantsFrom n (l.drop (8 + 12 * nb))

/-- Check 5: the variant that a die takes; none when the kernel has no variant table. -/
def chooseVariant (sp : Space) (o : Obj) (kern die : Nat) : Site Variant :=
  match o.kerns[kern]?, o.sect 6 with
  | some k, some x =>
    if k.2.1 == 0xFFFFFFFF then pure []
    else do
      let l ← siteRead sp stVariant (o.va + x.off + k.2.1) (x.size - k.2.1)
      match (variantsFrom k.2.2.1 l).find? (fun v => v.1 == defSig die || v.1 == 0xFFFFFFFF) with
      | some v => pure v.2
      | none => throw stVariant
  | _, _ => pure []

/-- A relocation record. -/
structure Reloc where
  off    : Nat
  sect   : Nat
  kind   : Nat
  sym    : Nat
  addend : Int
  deriving DecidableEq, Repr

def readRelocs (sp : Space) (o : Obj) : Site (List Reloc) :=
  match o.sect 5 with
  | none => pure []
  | some x => do
    let l ← siteRead sp stReloc (o.va + x.off) (x.size / 16 * 16)
    pure ((chunks 16 (x.size / 16) l).map (fun e =>
      ⟨fieldAt e 0 4, fieldAt e 4 2, fieldAt e 6 1, fieldAt e 8 4, asSigned 32 (fieldAt e 12 4)⟩))

/-- The value of a symbol that is no place: a label's address, or a constant in two's complement (R38). DESIGN CHOICE (log
entry 101): a kernel name stands for its VALUE field. -/
def symValue (o : Obj) (y : Sym) : Option Int :=
  match y.kind with
  | 0 => (o.sects[y.sect]?).map (fun x => ((o.va + x.off + y.value : Nat) : Int))
  | 1 => some (asSigned 64 y.value)
  | 2 => some (asSigned 64 y.value)
  | _ => none

/-- Set and class of a word, and its opcode. -/
def wordClass (w : Nat) : Nat := w / 2 ^ 28
def wordOp (w : Nat) : Nat := if w / 2 ^ 28 % 8 = 7 then w / 2 ^ 22 % 64 else w / 2 ^ 24 % 16

/-- The immediate of the word's form is unsigned (R32). -/
def wordUnsigned (w : Nat) : Bool :=
  let op := wordOp w
  match wordClass w with
  | 1 => op == 8 || op == 11
  | 7 => op == 24 || op == 27
  | 9 => op == 6 || op == 10 || op == 11 || op == 13
  | 15 => op == 6 || op == 10 || op == 11 || op == 13
  | _ => false

/-- The largest value of a place kind (R49). -/
def placeMax (kind : Nat) : Option Nat :=
  match kind with
  | 1 => some 127
  | 2 => some 31
  | 3 => some 15
  | 4 => some 1023
  | 5 => some 17
  | _ => none

/-- A patch of bytes at an offset from the start of a field's word. -/
structure PatchBytes where
  off   : Nat
  bytes : List Byte
  deriving DecidableEq, Repr

/-- A field of w bits at bit lo of a word, with a new value. -/
def setField (word lo w : Nat) (v : Int) : List Byte :=
  leBytes 4 (word - word / 2 ^ lo % 2 ^ w * 2 ^ lo + toBits w v * 2 ^ lo)

def inSigned (w : Nat) (v : Int) : Bool := decide (-(2 ^ (w - 1) : Int) ≤ v) && decide (v < (2 ^ (w - 1) : Int))
def inUnsigned (w : Nat) (v : Int) : Bool := decide (0 ≤ v) && decide (v < (2 ^ w : Int))

/-- An imm9 field (R32): of class 4 in units of eight bytes. -/
def patchImm9 (word : Nat) (v : Int) : Option PatchBytes :=
  if wordClass word % 8 == 4 then
    (if v % 8 == 0 && inSigned 9 (v / 8) then some ⟨0, setField word 3 9 (v / 8)⟩ else none)
  else if (if wordUnsigned word then inUnsigned 9 v else inSigned 9 v) then some ⟨0, setField word 3 9 v⟩ else none

/-- The payload of an IMM32 form. -/
def patchImm32 (word : Nat) (v : Int) : Option PatchBytes :=
  if (if wordUnsigned word then inUnsigned 32 v else inSigned 32 v) then some ⟨4, leBytes 4 (toBits 32 v)⟩ else none

/-- The bytes that a relocation writes at its field, none when the value is out of its range (R47, R48). `word` is the
first word there, `pay` the next, `va` its address. DESIGN CHOICE (log 126): the field's bits are written whatever class of word stands
there. -/
def relocBytes (kind : Nat) (word pay va : Nat) (v : Int) : Option PatchBytes :=
  match kind with
  | 1 =>
    let d := v - (va : Int)
    if d % 4 == 0 && inSigned 15 (d / 4) then some ⟨0, setField word 3 15 (d / 4)⟩ else none
  | 2 => patchImm9 word v
  | 3 => patchImm32 word v
  | 4 => if inSigned 30 v then some ⟨4, setField pay 0 30 v⟩ else none
  | 5 => if inUnsigned 32 v then some ⟨0, leBytes 4 v.toNat⟩ else none
  | 6 => if inUnsigned 57 v then some ⟨0, leBytes 8 v.toNat⟩ else none
  | 7 => if wordClass word % 8 == 7 then patchImm32 word v else patchImm9 word v
  | _ => none

/-- What a relocation changes on a die: address and bytes. A place symbol that the die's variant does not bind belongs to
another kernel. DESIGN CHOICE (log entry 100): a record with an unknown kind, or with a symbol index or a target section
outside the object, is refused as one out of range; a target offset beyond its section is taken as it stands. -/
def relocOn (sp : Space) (o : Obj) (syms : List Sym) (var : Variant) (r : Reloc) : Site (List (Nat × List Byte)) :=
  match syms[r.sym]?, o.sects[r.sect]? with
  | some y, some x => do
    let va := o.va + x.off + r.off
    let value : Option (Option Int) :=
      if y.kind == 3 then
        (match var.find? (fun b => b.1 == r.sym) with
         | none => none
         | some (_, k, v) =>
           some (match placeMax k with
             | some m => if decide (v ≤ m) then some ((v : Int) + r.addend) else none
             | none => none))
      else some ((symValue o y).map (fun v => v + r.addend))
    match value with
    | none => pure []
    | some none => throw stReloc
    | some (some v) =>
      let word ← siteRead sp stReloc va 4
      let pay ← if r.kind == 3 || r.kind == 4 || (r.kind == 7 && wordClass (leNat word) % 8 == 7) then siteRead sp stReloc (va + 4) 4 else pure []
      match relocBytes r.kind (leNat word) (leNat pay) va v with
      | none => throw stReloc
      | some p => pure [(va + p.off, p.bytes)]
  | _, _ => throw stReloc

/-- All relocations as one die sees them. -/
def relocsOn (sp : Space) (o : Obj) (syms : List Sym) (var : Variant) : List Reloc → Site (List (Nat × List Byte))
  | [] => pure []
  | r :: l => do
    let x ← relocOn sp o syms var r
    let y ← relocsOn sp o syms var l
    pure (x ++ y)

/-- Writes one relocated field: the part on its first line, then the part on the next, each where its own address stands. -/
def applyPatch (sp : Space) (va : Nat) (bytes : List Byte) : Site Unit := do
  let n := 64 - va % 64
  let p ← siteAddr sp kRead va stReloc
  modify (fun s => siteWrite s p (bytes.take n) false)
  if n < bytes.length then
    let q ← siteAddr sp kRead (va + n) stReloc
    modify (fun s => siteWrite s q (bytes.drop n) false)

/-- Writes relocated bytes where the object stands. -/
def applyPatches (sp : Space) : List (Nat × List Byte) → Site Unit
  | [] => pure ()
  | (va, bytes) :: l => do
    applyPatch sp va bytes
    applyPatches sp l

/-- The bytes of a die's own code that its variant changes. -/
def patchTab (die : Nat) (ps : List (Nat × List Byte)) : Tab Byte :=
  ps.foldl (fun t p => (List.range p.2.length).foldl (fun t i => tabPut t (2 ^ 57 * die + p.1 + i) (p.2.getD i 0)) t) []

/-- Both kinds of relocations for one die: those whose value is the same everywhere, and those of places. -/
structure DieReloc where
  shared : List (Nat × List Byte)
  own    : Tab Byte
  deriving DecidableEq, Repr

def relocDie (sp : Space) (o : Obj) (syms : List Sym) (rs : List Reloc) (var : Variant) (die : Nat) : Site DieReloc := do
  let place (r : Reloc) : Bool := (syms[r.sym]?).any (fun y => y.kind == 3)
  let a ← relocsOn sp o syms var (rs.filter (fun r => !place r))
  let b ← relocsOn sp o syms var (rs.filter place)
  pure ⟨a, patchTab die b⟩

def chooseVariants (sp : Space) (o : Obj) (kern : Nat) : List Nat → Site (List (Nat × Variant))
  | [] => pure []
  | d :: l => do
    let v ← chooseVariant sp o kern d
    let r ← chooseVariants sp o kern l
    pure ((d, v) :: r)

def relocDies (sp : Space) (o : Obj) (syms : List Sym) (rs : List Reloc) : List (Nat × Variant) → Site (List DieReloc)
  | [] => pure []
  | (d, v) :: l => do
    let x ← relocDie sp o syms rs v d
    let y ← relocDies sp o syms rs l
    pure (x :: y)

/-- Bytes of the object as its relocations leave them. -/
def overlay (ps : List (Nat × List Byte)) (va : Nat) (bytes : List Byte) : List Byte :=
  (List.range bytes.length).map (fun i =>
    ps.foldl (fun x p => if decide (p.1 ≤ va + i) && decide (va + i < p.1 + p.2.length) then p.2.getD (va + i - p.1) 0 else x)
      (bytes.getD i 0))

/-- A header entry's binding. -/
def bindEntry (e : List Byte) : Binding :=
  let d := fieldAt e 8 8
  ⟨fieldAt e 0 8, d % 2 ^ 32, d / 2 ^ 46 % 4, d / 2 ^ 32 % 2 ^ 12, scopeOf (d / 2 ^ 48 % 8)⟩

def allApart : List Binding → Bool
  | [] => true
  | x :: l => l.all (apart x) && allApart l

/-- The bindings of the header (R252, R261) with their relocated bases. DESIGN CHOICE (log entry 104): a relocated range that
BIND would not take, or that meets another entry's, makes the header malformed. -/
def readBinds (sp : Space) (o : Obj) (h : LHead) (ps : List (Nat × List Byte)) : Site (Tab Binding) := do
  let l ← siteRead sp stHeader (o.va + h.boff) (16 * h.nbind)
  let bs := (chunks 16 h.nbind (overlay ps (o.va + h.boff) l)).map bindEntry
  Site.need (bs.all (fun b => rangeFits b.base b.len) && allApart bs) stHeader
  pure ((List.range bs.length).zip bs)

/-! ### Room on a core (R189, R292) -/

/-- What a core has to give: free ranges are those outside the taken ones; free banks; barriers in use; per partition the
free slots and rows. -/
structure Room where
  taken : List (Nat × Nat)
  banks : Nat
  bars  : Nat
  parts : List (Nat × Nat)
  deriving DecidableEq, Repr

def Room.empty : Room := ⟨[], 16, 0, List.replicate 16 (8, 256)⟩

/-- The lowest free range of n bytes, at a multiple of 1 KiB; the ranges taken come in ascending order. -/
def rangeFrom (start n : Nat) : List (Nat × Nat) → Option Nat
  | [] => if decide (start + n ≤ 2 ^ 20) then some start else none
  | (b, len) :: l => if decide (start + n ≤ b) then some start else rangeFrom (max start ((b + len + 1023) / 1024 * 1024)) n l

/-- The partition that a brick goes to: the most free slots among those with enough rows, then the lowest number. -/
def bestPart (parts : List (Nat × Nat)) (rows : Nat) : Option Nat :=
  (List.range parts.length).foldl (fun best i =>
    let p := parts.getD i (0, 0)
    if p.1 = 0 || decide (p.2 < rows) then best
    else match best with
      | none => some i
      | some j => if decide ((parts.getD j (0, 0)).1 < p.1) then some i else best) none

/-- The partitions of a wall's bricks, in identifier order. -/
def spread (parts : List (Nat × Nat)) : List Nat → Option (List Nat)
  | [] => some []
  | rows :: l =>
    match bestPart parts rows with
    | none => none
    | some i =>
      let p := parts.getD i (0, 0)
      (spread (parts.set i (p.1 - 1, p.2 - rows)) l).map (i :: ·)

/-- The rows of each brick of a wall, in identifier order. -/
def brickRows (roles : List Role) : List Nat := roles.flatMap (fun r => List.replicate r.bricks (8 * r.lgran))

/-- Where a wall fits in a room: its local base and the partitions of its bricks. -/
def Room.fit (m : Room) (lb nacc nbar : Nat) (roles : List Role) : Option (Nat × List Nat) :=
  match rangeFrom 0 lb m.taken, spread m.parts (brickRows roles) with
  | some base, some ps => if decide (nacc ≤ m.banks) && decide (m.bars + nbar ≤ 32) then some (base, ps) else none
  | _, _ => none

/-! ### Acceptance (R290) -/

/-- A die that did not verify is held in reset (R387). -/
def dieHeld (s : State) (d : Nat) : Bool := !(dieState s d).ok

/-- Checks 3 to 7 in the launch's own space, then the launch, with its relocations applied. DESIGN CHOICE (log entry 105): text
that does not stand at a multiple of 4 is accepted, and its words are fetched where they stand; (log 125) ENTRY counts from the first
section of kind 1, and from the object's first byte where there is none. -/
def acceptObject (sp : Space) (r : LRec) (rec : Nat) (recPrv : Bool) (pri : Nat) (args : List W64) (nets : List NetEntry) : Site Launch := do
  let o ← readObject sp r.obj
  checkSignature sp o
  let syms ← readSyms sp o
  Site.need (descsOk o syms) stObject
  let h ← readHeader sp o r.kern
  let vars ← chooseVariants sp o r.kern r.dieList
  let rels ← readRelocs sp o
  let dies ← relocDies sp o syms rels vars
  let binds ← readBinds sp o h ((dies.head?.map (·.shared)).getD [])
  let s ← get
  Site.need (!r.dieList.any (dieHeld s) && (Room.empty.fit h.lb h.nacc h.bars.length h.roles).isSome) stNoCore
  applyPatches sp ((dies.head?.map (·.shared)).getD [])
  let (i, s) := nextFree (← get)
  set s
  pure { lid := r.lid, asid := sp.asid, recAsid := rec, pri := pri, prv := sp.prv, dies := r.dieList, walls := r.walls, mwin := r.mwin
         mbase := r.mbase, nsem := r.nsem, semb := r.semb, args := args, nets := nets, done := r.done, donePrv := recPrv, det := h.det
         q := h.q, accDyn := h.dyn, nacc := h.nacc, bars := h.bars, hods := h.hods, lbytes := h.lb, roles := h.roles, binds := binds
         text := r.obj + ((o.sect 1).map (·.off)).getD 0, patch := (dies.map (·.own)).foldl (fun t x => x.foldl (fun t p => tabPut t p.1 p.2) t) []
         wins := [], placed := [], admitted := false, order := s.nextL, debugger := Config.choice i }

/-- All checks in order, for a record that has been read. -/
def acceptRecord (sub : Submit) (r : LRec) : Site Launch := do
  let asid := if sub.prv then r.asid else sub.asid
  let (args, nets) ← checkRecord ⟨sub.die, sub.asid, sub.prv⟩ asid r
  let s ← get
  Site.need (!s.launches.any (fun x => x.2.lid == r.lid)) stInUse
  acceptObject ⟨sub.die, asid, sub.prv⟩ r sub.asid sub.prv (min r.pri sub.pri) args nets

/-- The status word (R287). -/
def statusWord (lid st : Nat) : W64 := BitVec.ofNat 64 (lid % 2 ^ 32 * 2 ^ 32 + st)

/-- Writes the status word, when the record names a place for it. -/
def writeStatus (s : State) (sub : Submit) (r : LRec) (w : W64) : State :=
  if r.status = 0 || r.status % 8 != 0 || decide (r.status ≥ 2 ^ 57) then s
  else match translate s (128 + sub.die) sub.die sub.asid sub.prv kWrite r.status with
    | (s, .ok pa) => siteWrite s (.phys pa) (leBytes 8 w.toNat) false
    | (s, _) => s

/-- The launcher that waits for the status gets it (R302). -/
def tellLauncher (s : State) (sub : Submit) (w : W64) : State :=
  match sub.by_ with
  | none => s
  | some (b, k) => modSplit s b k (fun sp => { sp with wait := sp.wait.map (fun x =>
      match x.op with
      | .launch _ d (some _) => { x with op := .give d w false, sync := none }
      | _ => x) })

/-- A site processor handles one submitted record: it checks it, writes the status, and queues an accepted launch for
admission (R287, R290, R291). -/
def acceptSubmit (s : State) (sub : Submit) : State :=
  match (if sub.va % 64 != 0 then (throw stMalformed : Site (List Byte)) else siteRead ⟨sub.die, sub.asid, sub.prv⟩ stMalformed sub.va 64) s with
  | .error st s => tellLauncher s sub (statusWord 0 st)
  | .ok bytes s =>
    let r := recOf bytes
    match acceptRecord sub r s with
    | .error st s => tellLauncher (writeStatus s sub r (statusWord r.lid st)) sub (statusWord r.lid st)
    | .ok l s =>
      let s := writeStatus s sub r (statusWord r.lid 0)
      tellLauncher { s with launches := tabPut s.launches s.nextL l, nextL := s.nextL + 1 } sub (statusWord r.lid 0)

/-- Takes the first record submitted to a die, once it can be handled. -/
def takeSubmit (clk die : Nat) : List Submit → Option (Submit × List Submit)
  | [] => none
  | x :: l =>
    if x.die == die then (if x.due ≤ clk then some (x, l) else none) else (takeSubmit clk die l).map (fun r => (r.1, x :: r.2))

/-- A site processor checks a launch record and writes its status (R290). -/
def execLaunchAccept (die : Nat) (s : State) : Host.Outcome State Fault Refusal :=
  match takeSubmit s.clk die s.submits with
  | none => .next s
  | some (sub, l) => .next (acceptSubmit { s with submits := l } sub)

/-! ### LAUNCH (R302) -/

/-- Submits a launch record and parks until its status is known (R302). -/
def execLaunch (d : Reg) (a : Reg) (st : BitVec 3) (s : State) : Host.Outcome State Fault Refusal :=
  issueForm s (syncForm false st [a] (some d)) (fun c =>
    if c.gov || c.uG a then .trap s (trapOf c 0x084#9)
    else if c.br.det then parkSync s c (.launch (c.u a).toNat (c.pu d) none)
    else .park s (.launch (c.u a).toNat (c.pu d) none) none)

/-- Submits the record of a parked LAUNCH to the site processor of the brick's die. -/
def submitLaunch (s : State) (b k : Nat) (br : Brick) (va : Nat) : State :=
  let pri := if br.prv then 3 else (launchOf s br).elim 0 (·.pri)
  let (due, s) := freeDue s
  { s with submits := s.submits ++ [⟨va, asidOf s br, some (b, k), dieOfCore br.core, br.prv, pri, due⟩] }

end Sys2Proof.Machine
end

