-- ==== Sys2Proof/Machine/Place.lean ====
section
/-!
DEFINITION. Admission and the end of launches (R229, R266, R275, R287, R291), the placing of walls and the start of bricks
(R101, R189, R207, R268, R277, R289, R292), and pre-emption with its restore (R283, R293, R295, R296, R323).
-/
namespace Sys2Proof.Machine

/-! ### Admission -/

/-- Units of the mortar window in use on a die. -/
def unitsUsed (s : State) (die : Nat) : List Nat :=
  s.launches.flatMap (fun x => if x.2.admitted then (tabGet? x.2.wins die).getD [] else [])

/-- The lowest free units of a die, of 88 (R229). -/
def freeUnits (s : State) (die : Nat) : List Nat := (List.range 88).filter (fun u => !(unitsUsed s die).contains u)

/-- Two ranges of semaphores meet. -/
def semsMeet (a b : Launch) : Bool :=
  a.nsem != 0 && b.nsem != 0 && decide (a.semb < b.semb + b.nsem) && decide (b.semb < a.semb + a.nsem)

/-- Two launches ask for one network barrier: those of a quad or die conflict when the launches share a die. -/
def netsMeet (a b : Launch) (share : Bool) : Bool :=
  a.nets.any (fun x => b.nets.any (fun y => x.sp == y.sp && x.k == y.k && (share || x.sp == .pkg || x.sp == .pod)))

/-- What a launch needs stands free beside the admitted launches. -/
def canAdmit (s : State) (l : Launch) : Bool :=
  l.dies.all (fun d => decide (l.mwin ≤ (freeUnits s d).length) && !(dieState s d).hot) &&
    s.launches.all (fun x =>
      let share := x.2.dies.any l.dies.contains
      !x.2.admitted || !((share && semsMeet x.2 l) || netsMeet x.2 l share))

/-- A launch of its priority or higher is ahead of it in an admission queue that it stands in (R291). -/
def behind (s : State) (l : Launch) : Bool :=
  s.launches.any (fun x => !x.2.admitted && x.2.dies.any l.dies.contains &&
    (decide (x.2.pri > l.pri) || (x.2.pri == l.pri && decide (x.2.order < l.order))))

/-- Sets bytes of memory to zero and their lines to cured. -/
def scrubPhys (s : State) (lo n : Nat) : State :=
  { s with mem := s.mem.filter (fun x => decide (x.1 < lo) || decide (x.1 ≥ lo + n))
           mmeta := s.mmeta.filter (fun x => decide (x.1 * 64 < lo) || decide (x.1 * 64 ≥ lo + n)) }

/-- Sets a range of a core's local memory to zero and its lines to cured. -/
def scrubLocal (s : State) (core lo n : Nat) : State :=
  let inR (k : Nat) : Bool := decide (lKey core 0 + lo ≤ k) && decide (k < lKey core 0 + lo + n)
  { s with lmem := s.lmem.filter (fun x => !inR x.1), lmeta := s.lmeta.filter (fun x => !inR (x.1 * 64)) }

/-- Physical address of a window unit of a die. -/
def unitPa (die unit : Nat) : Nat := 2 ^ 42 + die * 2 ^ 28 + unit * 2 ^ 21

/-- Writes the level-0 entry of a window page; with an entry of zero the page's translations are removed. -/
def setWindowPage (s : State) (asid va : Nat) (e : Nat) : State :=
  match levelZeroOf s asid va with
  | (s, none) => s
  | (s, some a) =>
    let s := siteWrite s (.phys a) (leBytes 8 e) false
    if e = 0 then { s with tlb := s.tlb.filter (fun x => !(x.asid == asid && x.meets va (2 ^ 21))) } else s

/-- Gives a launch its window: pages zero and cured, then their entries (R229). -/
def openWindow (s : State) (asid : Nat) (wins : Tab (List Nat)) : List (Nat × Nat × Nat) → State
  | [] => s
  | (d, p, va) :: l =>
    let pa := unitPa d (((tabGet? wins d).getD []).getD p 0)
    openWindow (setWindowPage (scrubPhys s pa (2 ^ 21)) asid va (pa + 0xF)) asid wins l

/-- The window's entries go back to absent. -/
def closeWindow (s : State) (asid : Nat) : List (Nat × Nat × Nat) → State
  | [] => s
  | (_, _, va) :: l => closeWindow (setWindowPage s asid va 0) asid l

/-- The places of a level on some dies (R266). -/
def netPlaces (sp : Scope) (dies : List Nat) : List Nat :=
  match sp with
  | .quad => dies.flatMap (fun d => (List.range 8).map (fun q => 8 * d + q))
  | .die => dies
  | _ => [0]

/-- Sets a launch's network barriers to their start (R268). -/
def startNets (s : State) (l : Launch) : State :=
  l.nets.foldl (fun s e =>
    (netPlaces e.sp l.dies).foldl (fun s p => { s with nets := tabPut s.nets (netKey e.sp p e.k) (Barrier.start e.e) }) s) s

/-- Sets a launch's semaphores to zero (R275). -/
def startSems (s : State) (l : Launch) : State :=
  { s with sems := s.sems.filter (fun x => !(l.dies.contains (x.1 / 4096) && decide (l.semb ≤ x.1 % 4096) && decide (x.1 % 4096 < l.semb + l.nsem))) }

/-- The launch under a key is admitted. -/
def admitLaunch (s : State) (key : Nat) (l : Launch) : State :=
  let wins : Tab (List Nat) := l.dies.foldl (fun t d => tabPut t d ((freeUnits s d).take l.mwin)) []
  let s := modLaunch s key (fun l => { l with admitted := true, wins := wins })
  let s := openWindow s l.asid wins (windowPages l.dies l.mwin l.mbase)
  startNets (startSems s l) l

/-- The launch can be admitted now. -/
def admissible (s : State) (l : Launch) : Bool := !l.admitted && canAdmit s l && !behind s l

/-- An accepted launch is admitted once its window, semaphores and barriers can be given (R291). -/
def execLaunchAdmit (lid : Nat) (s : State) : Host.Outcome State Fault Refusal :=
  match tabGet? s.launches lid with
  | none => .fault .noTarget
  | some l => .next (if admissible s l then admitLaunch s lid l else s)

/-! ### Placement -/

/-- The walls that stand on a core. -/
def wallsOn (s : State) (core : Nat) : List (Nat × Wall) := s.walls.filter (fun w => w.2.core == core && !w.2.ended && !w.2.saved)

/-- Local bytes of a wall. -/
def wallBytes (s : State) (w : Wall) : Nat := (tabGet? s.launches w.launch).elim 0 (·.lbytes)

/-- Rows that the walls on a core hold in a partition. -/
def rowsHeld (s : State) (core part : Nat) : Nat :=
  ((wallsOn s core).map (fun w =>
    ((w.2.bricks.filter (fun x => x.2.2 == part)).map (fun x =>
      (((tabGet? s.launches w.2.launch).bind (fun l => l.roles[x.2.1]?)).map (fun r => 8 * r.lgran)).getD 0)).foldl (· + ·) 0)).foldl (· + ·) 0

/-- A brick of a partition that holds its slot. -/
def slotHeld (s : State) (core part : Nat) (x : Nat × Brick) : Bool :=
  x.2.core == core && x.2.part == part && holdsSlot x && !(tabGet? s.walls x.2.wall).any (·.saved)

/-- Slots of a partition in use. -/
def slotsHeld (s : State) (core part : Nat) : List Nat := (s.bricks.filter (slotHeld s core part)).map (·.2.slot)

def freeSlots (s : State) (core part : Nat) : List Nat := (List.range 8).filter (fun k => !(slotsHeld s core part).contains k)

/-- Puts a range in its place in ascending order. -/
def insertRange (x : Nat × Nat) : List (Nat × Nat) → List (Nat × Nat)
  | [] => [x]
  | y :: l => if x.1 ≤ y.1 then x :: y :: l else y :: insertRange x l

/-- What a core has to give (R292). -/
def roomOf (s : State) (core : Nat) : Room where
  taken := (wallsOn s core).foldl (fun t w => insertRange (w.2.lbase, wallBytes s w.2) t) []
  banks := (poolBanks s core).length
  bars := ((wallsOn s core).map (fun w => w.2.bars.length)).foldl (· + ·) 0
  parts := (List.range 16).map (fun p => ((freeSlots s core p).length, 256 - rowsHeld s core p))

/-- Where the next wall of a launch fits on a core. -/
def fitOn (s : State) (l : Launch) (core : Nat) : Option (Nat × List Nat) := (roomOf s core).fit l.lbytes l.nacc l.bars.length l.roles

/-- The lowest core of a die that can hold the launch's next wall, with its place there. -/
def findCore (s : State) (l : Launch) (die : Nat) : List Nat → Option (Nat × Nat × List Nat)
  | [] => none
  | i :: is => match fitOn s l (32 * die + i) with
    | some (base, ps) => some (32 * die + i, base, ps)
    | none => findCore s l die is

/-- The identifier of the next wall that a launch places on a die, when one is left (R292). -/
def nextWall (l : Launch) (die : Nat) : Option Nat :=
  if !l.admitted || !l.dies.contains die then none
  else
    let w := l.dies.findIdx (· == die) + l.dies.length * tabGetD l.placed die 0
    if decide (w < l.walls) then some w else none

/-- Seed of a brick's own generator (R83). -/
def brickSeed (lid id : Nat) : W64 := srSeed (BitVec.ofNat 64 (lid % 2 ^ 32 * 2 ^ 32 + id % 2 ^ 32) ^^^ srConst)

/-- A split at a brick's start (R150). -/
def Split.start (pc : Nat) : Split where
  pc := pc
  mask := 0xFFFFFFFF#32
  stack := []
  gov := false
  redisp := false
  ready := 0
  held := 0
  wait := none
  path := 0
  pendFrame := none
  tapeFault := false

/-- s1 to sNARG hold the arguments, cured (R289). -/
def argRegs (args : List W64) : Tab UReg :=
  (List.range args.length).foldl (fun t i => tabSet t (i + 1) UReg.start ⟨args.getD i 0, false⟩) []

/-- The names and the place of a brick that starts. -/
structure BrickAt where
  id     : Nat
  wall   : Nat
  role   : Nat
  core   : Nat
  part   : Nat
  slot   : Nat
  age    : Nat
  placed : Nat
  deriving DecidableEq, Repr

/-- A brick as it starts (R101, R104, R289). -/
def Brick.start (launch : Nat) (l : Launch) (r : Role) (x : BrickAt) : Brick where
  id := x.id
  launch := launch
  wall := x.wall
  role := x.role
  core := x.core
  part := x.part
  slot := x.slot
  age := x.age
  placed := x.placed
  gran := r.lgran
  unis := r.ureg
  emask := r.emask
  bprio := r.bpri
  prio := r.bpri
  det := l.det
  prv := l.prv
  threads := 0xFFFFFFFF#32
  lane := []
  uni := argRegs l.args
  msk := []
  fx := []
  cst := []
  rm := .rne
  ten := 0
  sbc := true
  sr := brickSeed l.lid x.id
  L := 0
  splits := [(0, Split.start (l.text + r.entry))]
  cur := 0
  groups := []
  nextGr := 1
  pend := []
  fxq := []
  divq := []
  marks := []
  issued := []
  ilock := []
  flights := []
  seq := 0
  cumRel := false
  acqs := []
  tape := Tape.closed
  tapeLen := 0
  chain := none
  copies := 0
  readouts := []
  cstats := []
  banks := []
  held := []
  arrMarks := []
  lastArr := []
  window := none
  winExc := []
  trap := none
  late := []
  owed := []
  inSlot := false
  info := 0
  addr := 0
  tmask := 0
  aux0 := 0
  aux1 := 0
  vec := 0
  ret := 0
  repSplit := 0
  inject := 0
  injAddr := 0
  armed := none
  dpFault := none
  halted := false
  debug := false
  focusSp := 0
  stepping := false
  since := 0
  eligible := 0
  killed := false
  tfault := none

/-- Starts the bricks of a wall, in identifier order: role, partition. -/
def startBricks (s : State) (launch : Nat) (l : Launch) (wall core : Nat) : Nat → List (Nat × Nat) → State
  | _, [] => s
  | id, (role, part) :: rest =>
    match l.roles[role]? with
    | none => s
    | some r =>
      let b := s.nextB
      let br := Brick.start launch l r ⟨id, wall, role, core, part, (freeSlots s core part).headD 0, b, s.clk⟩
      let br := { br with since := s.clk, eligible := s.clk }
      let s := { s with bricks := tabPut s.bricks b br, nextB := b + 1 }
      let s := modWall s wall (fun w => { w with bricks := w.bricks ++ [(b, role, part)] })
      startBricks s launch l wall core (id + 1) rest

/-- The rings of a wall's hods stand at the end of its reservation, one after another (R277). -/
def startHods : Nat → Nat → List (Nat × Nat) → Tab Hod
  | _, _, [] => []
  | i, off, (n, sz) :: l => (i, ⟨n, sz, off, 0, 0, [], false, [], [], [], [], [], [], []⟩) :: startHods (i + 1) (off + n * sz) l

/-- The roles of a wall's bricks, in identifier order. -/
def brickRoles (roles : List Role) : List Nat := (List.range roles.length).flatMap (fun i => List.replicate ((roles[i]?).elim 0 (·.bricks)) i)

/-- Places a wall: local bytes zero and cured, banks as ACCZ leaves them with no owner, barriers, hods and bricks at their
start. -/
def placeWall (s : State) (launch : Nat) (l : Launch) (wid core base : Nat) (ps : List Nat) : State :=
  let key := s.nextW
  let die := dieOfCore core
  let banks := (poolBanks s core).take l.nacc
  let s := scrubLocal s core base l.lbytes
  let s := banks.foldl (fun s p => putBank s core p Bank.zero) s
  let w : Wall :=
    { launch := launch, wid := wid, die := die, core := core, lbase := base, banks := banks, pools := []
      bars := (List.range l.bars.length).map (fun i => (i, Barrier.start (l.bars.getD i 0)))
      hods := startHods 0 (l.lbytes - (l.hods.map (fun y => y.1 * y.2)).foldl (· + ·) 0) l.hods
      bricks := [], stop := false, saved := false, sBytes := [], sMeta := [], sBanks := [], ended := false, adj := [] }
  let s := { s with walls := tabPut s.walls key w, nextW := key + 1 }
  let s := modLaunch s launch (fun l => { l with placed := tabSet l.placed die 0 (tabGetD l.placed die 0 + 1) })
  startBricks s launch l key core (wid * (brickRoles l.roles).length) ((brickRoles l.roles).zip ps)

/-- Orders launches: higher priority first, then the earlier accepted. -/
def before (a b : Launch) : Bool := decide (a.pri > b.pri) || (a.pri == b.pri && decide (a.order ≤ b.order))

def insertLaunch (x : Nat × Launch) : List (Nat × Launch) → List (Nat × Launch)
  | [] => [x]
  | y :: l => if before x.2 y.2 then x :: y :: l else y :: insertLaunch x l

def byPriority (s : State) : List (Nat × Launch) := s.launches.foldl (fun t x => insertLaunch x t) []

/-- The next wall that a die can place: launch, wall identifier, core, base, partitions. -/
def placeable (s : State) (die : Nat) : Option (Nat × Launch × Nat × Nat × Nat × List Nat) :=
  if (dieState s die).hot || dieHeld s die then none
  else (byPriority s).findSome? (fun x =>
    match nextWall x.2 die with
    | none => none
    | some w => (findCore s x.2 die (List.range 32)).map (fun y => (x.1, x.2, w, y.1, y.2.1, y.2.2)))

/-- A die places its next wall on the lowest core that can hold it (R292). -/
def execWallPlace (die : Nat) (s : State) : Host.Outcome State Fault Refusal :=
  match placeable s die with
  | none => .next s
  | some (key, l, w, core, base, ps) => .next (placeWall s key l w core base ps)

/-! ### The end of a launch (R287) -/

/-- Every wall of the launch is placed and has ended, and nothing that its bricks issued is under way. -/
def launchOver (s : State) (key : Nat) (l : Launch) : Bool :=
  l.admitted && decide ((l.placed.map (·.2)).foldl (· + ·) 0 ≥ l.walls) && s.walls.all (fun w => w.2.launch != key || w.2.ended) &&
    s.bricks.all (fun x => x.2.launch != key || (!x.2.alive && x.2.flights.all (·.done)))

/-- Adds 1 to the DONE counter (R287). -/
def countDone (s : State) (l : Launch) : State :=
  if l.done = 0 then s
  else
    let die := l.dies.headD 0
    match translate s (128 + die) die l.recAsid l.donePrv kRw l.done with
    | (s, .ok pa) =>
      let (s, psn) := checkLine s (Loc.phys pa).line
      if psn then s
      else siteWrite s (.phys pa) (leBytes 8 ((leNat (readBytes s (.phys pa) 8) + 1) % 2 ^ 64)) true
    | (s, _) => s

/-- The launch ends: DONE rises, its window, semaphores and barriers return (R229, R291). -/
def endLaunch (s : State) (key : Nat) (l : Launch) : State :=
  let s := countDone s l
  let s := closeWindow s l.asid (windowPages l.dies l.mwin l.mbase)
  { s with launches := tabDel s.launches key
           walls := s.walls.filter (fun w => w.2.launch != key)
           cores := (s.cores.map (fun x => (x.1, { x.2 with qfail := x.2.qfail.filter (· != key) }))).filter (fun x => decide (x.2 ≠ Core.start))
           bricks := s.bricks.filter (fun x => x.2.launch != key)
           nets := s.nets.filter (fun x => !l.nets.any (fun e => (netPlaces e.sp l.dies).any (fun p => netKey e.sp p e.k == x.1))) }

/-- When every brick and engine operation has ended, DONE rises by 1 as a cumulative release (R287). -/
def execLaunchDone (lid : Nat) (s : State) : Host.Outcome State Fault Refusal :=
  match tabGet? s.launches lid with
  | none => .fault .noTarget
  | some l => .next (if launchOver s lid l then endLaunch s lid l else s)

/-! ### Pre-emption (R283, R295, R296) -/

/-- The room of a core with some walls taken away. -/
def roomWithout (s : State) (core : Nat) (drop : List Nat) : Room :=
  roomOf { s with walls := s.walls.map (fun w => if drop.contains w.1 then (w.1, { w.2 with saved := true }) else w) } core

/-- Victims come from the lowest priority first, then the youngest launch, then the highest wall identifier. -/
def victimBefore (s : State) (a b : Nat × Wall) : Bool :=
  match tabGet? s.launches a.2.launch, tabGet? s.launches b.2.launch with
  | some x, some y =>
    decide (x.pri < y.pri) || (x.pri == y.pri && (decide (x.order > y.order) || (x.order == y.order && decide (a.2.wid ≥ b.2.wid))))
  | _, _ => true

def insertVictim (s : State) (x : Nat × Wall) : List (Nat × Wall) → List (Nat × Wall)
  | [] => [x]
  | y :: l => if victimBefore s x y then x :: y :: l else y :: insertVictim s x l

/-- The walls of a die with a priority below p, in the order in which they are chosen. -/
def victimsOf (s : State) (die p : Nat) : List Nat :=
  ((s.walls.filter (fun w => w.2.die == die && !w.2.ended && !w.2.saved &&
    (tabGet? s.launches w.2.launch).any (fun l => decide (l.pri < p)))).foldl (fun t w => insertVictim s w t) []).map (·.1)

/-- A wall of the launch fits on a core once some walls are gone. -/
def fitsWithout (s : State) (l : Launch) (drop : List Nat) (core : Nat) : Bool :=
  ((roomWithout s core drop).fit l.lbytes l.nacc l.bars.length l.roles).isSome

/-- The first walls in the order of choice that make room on some core of the die, and the lowest such core. -/
def enoughVictims (s : State) (l : Launch) (cores : List Nat) : List Nat → List Nat → Option (Nat × List Nat)
  | _, [] => none
  | drop, v :: vs =>
    match cores.find? (fitsWithout s l (drop ++ [v])) with
    | some core => some (core, drop ++ [v])
    | none => enoughVictims s l cores (drop ++ [v]) vs

/-- Takes back the walls that the room does not need, those chosen last first. -/
def pruneVictims (s : State) (l : Launch) (core : Nat) : List Nat → List Nat → List Nat
  | keep, [] => keep
  | keep, v :: vs =>
    if fitsWithout s l (keep ++ vs) core then pruneVictims s l core keep vs else pruneVictims s l core (v :: keep) vs

/-- The core of the die on which a wall of the launch is to be placed, and the victims that let it be placed there (R295). -/
def chooseVictims (s : State) (l : Launch) (die : Nat) : Option (Nat × List Nat) :=
  (enoughVictims s l ((List.range 32).map (32 * die + ·)) [] (victimsOf s die l.pri)).map
    (fun x => (x.1, pruneVictims s l x.1 [] x.2.reverse))

/-- A wall of the launch waits on the die for room. -/
def waitsForRoom (s : State) (l : Launch) (die : Nat) : Bool := (nextWall l die).isSome && (findCore s l die (List.range 32)).isNone

/-- The victims that a die stops next: none while a wall is stopping there. -/
def nextVictims (s : State) (die : Nat) : Option (List Nat) :=
  if (dieState s die).hot || dieHeld s die || s.walls.any (fun w => w.2.die == die && w.2.stop && !w.2.saved && !w.2.ended) then none
  else (byPriority s).findSome? (fun x => if waitsForRoom s x.2 die then (chooseVictims s x.2 die).map (·.2) else none)

/-- A flight that the save of a context waits for (R201, R296). Commands of the copy engines wait at a span, joined
collectives stay in the network, a fill without its slot and an arrival without its phase wait on, and the ATOM on which a split of
a deterministic launch is parked is evaluated after the restore (log 114). -/
def Flight.holdsSave (s : State) (b : Nat) (f : Flight) : Bool :=
  !f.done &&
    (match f.kind with
     | .copy _ => false
     | .copyWait _ => false
     | .coll key => !(tabGet? s.colls key).any (fun x => x.parties.any (fun p => p.brick == b && p.seq == f.seq && p.joined))
     | .hodPut _ none _ _ => false
     | .barArr _ _ => f.tEnd.isSome
     | .gone _ => f.tEnd.isSome
     | .syncAtom => false
     | _ => true)

/-- A wall is asked to stop, and is not saved. -/
def Wall.stopping (w : Wall) : Bool := w.stop && !w.saved && !w.ended

/-- The latest end time of what the stopping walls of a launch have buffered: their bricks run as far as that (log 114). -/
def courseNeed (s : State) (launch : Nat) : Nat :=
  (s.bricks.filter (fun x => x.2.launch == launch && (tabGet? s.walls x.2.wall).any Wall.stopping)).foldl
    (fun m x => x.2.flights.foldl (fun m f => if f.holdsSave s x.1 then max m (f.tEnd.getD 0) else m) m) 0

/-- A quad form stands in the queue of a core of the quad (R213). -/
def quadQueued (s : State) (core : Nat) : Bool := (coreOf s core).queue.any ArrEntry.isQuad

/-- A quad form stands in the queue of another core of the quad, and none in this one's: the core's bricks go on to theirs (R213,
R296, log 115). -/
def quadAsks (s : State) (core : Nat) : Bool :=
  !quadQueued s core && [0, 1, 2, 3].any (fun i => quadQueued s (quadOfCore core * 4 + i))

/-- The brick's wall is asked to stop, and the brick stands at a point where it stops (R296). -/
def stopsHere (s : State) (br : Brick) : Bool :=
  (tabGet? s.walls br.wall).any (·.stop) && !br.inSlot && !quadAsks s br.core &&
    (!br.det || (br.L % (max 1 (qOf s br)) == 0 && decide (courseNeed s br.launch ≤ br.L)))

/-- A brick stands where its context can be saved. -/
def Brick.quiet (s : State) (x : Nat × Brick) : Bool :=
  !x.2.flights.any (Flight.holdsSave s x.1) && !arrayWork s x.2.core x.1 (fun _ => true) &&
    (!x.2.alive || (x.2.pend.isEmpty && x.2.fxq.isEmpty && x.2.divq.isEmpty && x.2.window.isNone && stopsHere s x.2))

/-- The buffered tape lines of a wall's bricks are written to their segments; a page may fault (R323) or be
refused (R336). -/
def spillWall (s : State) : List Nat → State × Bool
  | [] => (s, true)
  | b :: l =>
    match spillTape s b with
    | (s, .all) => spillWall s l
    | (s, .waits) => (s, false)
    | (s, .refused cause va) => (refuseLine s b none cause va, false)

/-- The bricks of a wall. -/
def wallBricks (s : State) (wall : Nat) : List Nat := (s.bricks.filter (fun x => x.2.wall == wall)).map (·.1)

/-- All bricks of a wall stand still, and no quad form waits on its quad (R213). -/
def wallQuiet (s : State) (wall : Nat) (w : Wall) : Bool :=
  s.bricks.all (fun x => x.2.wall != wall || Brick.quiet s x) && [0, 1, 2, 3].all (fun i => !quadQueued s (quadOfCore w.core * 4 + i))

/-- A wall that is stopping and stands still; those of a deterministic launch come to rest together (log 114). -/
def savable (s : State) (die : Nat) : Option (Nat × Wall) :=
  s.walls.find? (fun w => w.2.die == die && w.2.stopping && wallQuiet s w.1 w.2 &&
    (!(tabGet? s.launches w.2.launch).any (·.det) ||
      s.walls.all (fun v => v.2.launch != w.2.launch || !v.2.stopping || wallQuiet s v.1 v.2)))

/-- The banks of a wall: its static ones and those granted to its bricks. -/
def wallBanks (s : State) (wall : Nat) (w : Wall) : List Nat :=
  w.banks ++ (s.bricks.filter (fun x => x.2.wall == wall)).flatMap (fun x => x.2.banks.map (·.2))

/-- A parked brick that is pre-empted gives up its entry of the fault buffer and walks again at its restore (R335). -/
def dropFault (s : State) (b : Nat) : State :=
  modBrick s b (fun br => { br with tfault := (match br.tfault with
    | some f => if f.refused then some f else none
    | none => none) })

/-- An ATOM on which a split of a deterministic launch is parked has not been performed: it is withdrawn at the save and issued again at
the restore, as other waits are (R283), so that its counter is saved as zero (R201, log 114). -/
def recount (fc : Option Nat) (br : Brick) : Brick :=
  { br with flights := br.flights.map (fun f => if f.kind == .syncAtom then { f with fc := fc } else f) }

/-- A parked wait is withdrawn at the save (R283); one of a deterministic launch stands for its evaluation. -/
def withdrawAtSave (s : State) (b k : Nat) : State := if (waitOf s b k).any (fun w => w.sync.isNone) then withdraw s b k else s

/-- Saves a wall (R296): its local bytes and lines, its banks; its bricks keep their context; parked waits leave their
queues, to be queued again at the restore (R283). -/
def saveWall (s : State) (wall : Nat) (w : Wall) : State :=
  let n := wallBytes s w
  let inR (k : Nat) : Bool := decide (lKey w.core 0 + w.lbase ≤ k) && decide (k < lKey w.core 0 + w.lbase + n)
  let banks := wallBanks s wall w
  let saved : Wall :=
    { w with stop := false, saved := true
             sBytes := s.lmem.filter (fun x => inR x.1), sMeta := s.lmeta.filter (fun x => inR (x.1 * 64))
             sBanks := (coreOf s w.core).banks.filter (fun x => banks.contains x.1) }
  let s := { s with walls := tabPut s.walls wall saved }
  let s := scrubLocal s w.core w.lbase n
  let s := modCore s w.core (fun x => { x with banks := x.banks.filter (fun y => !banks.contains y.1) })
  (wallBricks s wall).foldl (fun s b => modBrick (dropFault ([0, 1, 2, 3].foldl (fun s k => withdrawAtSave s b k) s) b) b (recount none)) s

/-- Lower-priority walls are stopped and their context saved to let a waiting wall fit (R295): a wall that has come to
rest is saved, else the next victims begin to stop. -/
def execPreempt (die : Nat) (s : State) : Host.Outcome State Fault Refusal :=
  match savable s die with
  | some (k, w) =>
    (match spillWall s (wallBricks s k) with
     | (s, false) => .next s
     | (s, true) => .next (saveWall s k ((tabGet? s.walls k).getD w)))
  | none =>
    match nextVictims s die with
    | some vs => .next { s with walls := s.walls.map (fun w => if vs.contains w.1 then (w.1, { w.2 with stop := true }) else w) }
    | none => .next s

/-! ### Restore (R283, R293) -/

/-- The place that a saved wall left is free. -/
def placeFree (s : State) (wall : Nat) (w : Wall) : Bool :=
  let n := wallBytes s w
  let bricks := s.bricks.filter (fun x => x.2.wall == wall && holdsSlot x)
  let rows (p : Nat) : Nat := ((w.bricks.filter (fun x => x.2.2 == p)).map (fun x =>
    (((tabGet? s.launches w.launch).bind (fun l => l.roles[x.2.1]?)).map (fun r => 8 * r.lgran)).getD 0)).foldl (· + ·) 0
  (wallsOn s w.core).all (fun v => decide (v.2.lbase + wallBytes s v.2 ≤ w.lbase) || decide (w.lbase + n ≤ v.2.lbase)) &&
    (wallBanks s wall w).all (fun p => (poolBanks s w.core).contains p) &&
    decide (((wallsOn s w.core).map (fun v => v.2.bars.length)).foldl (· + ·) 0 + w.bars.length ≤ 32) &&
    (List.range 16).all (fun p => decide (rows p + rowsHeld s w.core p ≤ 256)) &&
    bricks.all (fun x => (freeSlots s w.core x.2.part).contains x.2.slot) &&
    decide (tapesOpen s w.core + (bricks.filter (fun x => x.2.tape.state != 0)).length ≤ 4)

/-- Two saved walls left places that meet: with one of them back, the other's is not free. -/
def placesMeet (s : State) (a b : Nat × Wall) : Bool :=
  !placeFree { s with walls := [(a.1, { a.2 with saved := false }), b], bricks := s.bricks.filter (fun x => x.2.wall == a.1 || x.2.wall == b.1) }
    b.1 b.2

/-- A wall of a higher priority waits for the place of a saved wall: one that is to be placed on its core, or a saved one (R295). -/
def higherWaits (s : State) (wall : Nat) (w : Wall) (p : Nat) : Bool :=
  s.launches.any (fun x => decide (x.2.pri > p) && waitsForRoom s x.2 w.die && (chooseVictims s x.2 w.die).any (fun y => y.1 == w.core)) ||
    s.walls.any (fun v => v.2.core == w.core && v.1 != wall && v.2.saved && !v.2.ended &&
      (tabGet? s.launches v.2.launch).any (fun l => decide (l.pri > p)) && placesMeet s (wall, w) v)

/-- A saved wall that can come back. -/
def restorable (s : State) (wall : Nat) (w : Wall) : Bool :=
  w.saved && !w.ended && !(dieState s w.die).hot && !dieHeld s w.die &&
    !higherWaits s wall w ((tabGet? s.launches w.launch).elim 0 (·.pri)) && placeFree s wall w

/-- A wait on a barrier is issued again: it looks for the brick's last arrival there (R273, R283). -/
def waitAgain (s : State) (b k : Nat) (o : ObjRef) (d : Nat) (g : Bool) : State :=
  match tabGet? s.bricks b with
  | none => s
  | some br =>
    match barAnswer (barAt s o) br o with
    | .now status => setOp s b k (served status d (status.setWidth 64) g)
    | .wait ph n => setOp s b k (.barWait o ph n d g)

/-- A parked wait is issued again: it takes its place in its queue (R283). -/
def requeue (s : State) (b k : Nat) (w : Wait) : State :=
  if w.sync.isSome then s
  else
    match w.op with
    | .barWait o _ _ d g => waitAgain s b k o d g
    | .semAcq o _ _ => serveQueue (putSem s o { semAt s o with queue := (semAt s o).queue ++ [(b, k)] }) o
    | .hodPut o _ => serveHod (putHod s o { hodAt s o with prods := (hodAt s o).prods ++ [(b, k)] }) o
    | .hodGet o _ _ _ => serveHod (putHod s o { hodAt s o with cons := (hodAt s o).cons ++ [(b, k)] }) o
    | .accalloc n _ _ => (match tabGet? s.bricks b with
      | some br => modCore s br.core (fun x => { x with reqs := x.reqs ++ [⟨b, k, n⟩] })
      | none => s)
    | _ => s

/-- Restores a brick: a new age, its waits queued again. -/
def wakeBrick (s : State) (b : Nat) : State :=
  match tabGet? s.bricks b with
  | none => s
  | some br =>
    let s := { modBrick s b (fun br => { recount (some 1) br with age := s.nextB, placed := s.clk, since := s.clk, eligible := s.clk }) with nextB := s.nextB + 1 }
    br.splits.foldl (fun s x => match x.2.wait with
      | some w => requeue s b x.1 w
      | none => s) s

/-- Restores a wall to the core and partitions that it left. -/
def restoreWall (s : State) (wall : Nat) (w : Wall) : State :=
  let s := scrubLocal s w.core w.lbase (wallBytes s w)
  let s := (wallBanks s wall w).foldl (fun s p => putBank s w.core p Bank.zero) s
  let s := w.sBytes.foldl (fun s x => { s with lmem := tabSet s.lmem x.1 unlistedByte x.2 }) s
  let s := w.sMeta.foldl (fun s x => { s with lmeta := tabSet s.lmeta x.1 LineMeta.start x.2 }) s
  let s := w.sBanks.foldl (fun s x => putBank s w.core x.1 x.2) s
  let s := modWall s wall (fun w => { w with saved := false, stop := false, sBytes := [], sMeta := [], sBanks := [] })
  countWaiting ((wallBricks s wall).foldl wakeBrick s) w.launch

/-- A pre-empted wall returns to its core and partitions when they are free (R293). -/
def execWallRestore (wall : Nat) (s : State) : Host.Outcome State Fault Refusal :=
  match tabGet? s.walls wall with
  | none => .fault .noTarget
  | some w => .next (if restorable s wall w then restoreWall s wall w else s)

end Sys2Proof.Machine
end

