-- ==== Sys2Proof/Machine/Course.lean ====
section
/-!
DEFINITION. Priorities, the logical clock, role status and row pools as programs use them (R110, R294, R301–R305).
-/
namespace Sys2Proof.Machine

/-! ### Priorities (R294) -/

/-- What one hod adds to the priority of a role that is, or is not, a producer and a consumer of it: the sum of the rows of R294's
table that hold. -/
def hodTerm (h : Hod) (producer consumer : Bool) : Int :=
  (if producer && decide (4 * (h.c + h.reserved) ≤ h.n) then 1 else 0) +
  (if producer && decide (h.c + h.reserved + h.heldBy.length = h.n) then -1 else 0) +
  (if consumer && decide (4 * h.c ≥ 3 * h.n) then 1 else 0) + (if consumer && decide (h.c = 0) then -1 else 0)

/-- A sum of the hods' terms, from −4 to +4. -/
def hodSum (w : Wall) (term : Hod → Int) : Int := max (-4) (min 4 ((w.hods.map (fun x => term x.2)).foldl (· + ·) 0))

/-- The hod adjustment of a role: its marks are made as its bricks first issue the forms. -/
def hodAdjust (w : Wall) (role : Nat) : Int := hodSum w (fun h => hodTerm h (h.prole.contains role) (h.crole.contains role))

/-- The same with the marks that committed state holds (R305). -/
def hodAdjustCom (w : Wall) (role : Nat) : Int := hodSum w (fun h => hodTerm h (h.pcom.contains role) (h.ccom.contains role))

/-- clamp(b + h, 0, 15). -/
def rolePrio (b : Nat) (h : Int) : Nat := (max 0 (min 15 ((b : Int) + h))).toNat

/-- Sets the brick's base priority and returns the old one (R303). -/
def execPrio (d : Reg) (a : Reg) (k : BitVec 4) (st : BitVec 3) (s : State) :
    Host.Outcome State Fault Refusal :=
  let f := syncForm false st [a] (some d)
  issueForm s f (fun c =>
    if a != 0#6 && c.uG a then .trap s (trapOf c 0x084#9)
    else
      let b := if a = 0#6 then k.toNat else (c.u a).toNat % 16
      giveNow (modBrick s c.b (fun br => { br with prio := b })) c d (BitVec.ofNat 64 c.br.prio) false)

/-! ### The logical clock (R304) -/

/-- L after the instruction retires. -/
def retiredL (c : Ctx) : Nat := if c.inHandler then c.br.L else c.br.L + 1

/-- Reads the brick's logical clock (R304). -/
def execCourseRd (d : Reg) (st : BitVec 3) (s : State) : Host.Outcome State Fault Refusal :=
  issueForm s (syncForm false st [] (some d)) (fun c => giveNow s c d (BitVec.ofNat 64 (retiredL c)) false)

/-- L at the end of the course that holds L. -/
def paddedL (q L : Nat) : Nat := (L + q - 1) / q * q

/-- Ends the current course by padding the logical clock (R304). -/
def execCourseEnd (d : Reg) (st : BitVec 3) (s : State) : Host.Outcome State Fault Refusal :=
  issueForm s (syncForm false st [] (some d)) (fun c =>
    if c.br.det && !c.inHandler then
      let L := paddedL (qOf s c.br) (c.br.L + 1)
      giveNow (modBrick s c.b (fun br => { br with L := L - 1 })) c d (BitVec.ofNat 64 L) false
    else giveNow s c d (BitVec.ofNat 64 (retiredL c)) false)

/-! ### Roles and their rows (R109, R110, R305) -/

/-- A role of the brick's launch, when the header declares it. -/
def roleAt (s : State) (br : Brick) (role : Nat) : Option Role := (launchOf s br).bind (fun l => l.roles[role]?)

/-- Free rows of a role's pool on the brick's partition. -/
def poolOf (s : State) (br : Brick) (role : Nat) : Nat :=
  match wallOf s br with
  | some w => tabGetD w.pools (4 * br.part + role) 0
  | none => 0

def setPool (s : State) (br : Brick) (role rows : Nat) : State :=
  modWall s br.wall (fun w => { w with pools := tabSet w.pools (4 * br.part + role) 0 rows })

/-- The word of ROLEQ (R305): in a deterministic launch, of committed state. -/
def roleWord (s : State) (br : Brick) (role : Nat) : W64 :=
  match roleAt s br role, wallOf s br with
  | some r, some w =>
    let live := (s.bricks.filter (fun x => x.2.wall == br.wall && x.2.role == role && x.2.standing)).length
    BitVec.ofNat 64 (live % 256 * 2 ^ 41 + r.bricks % 256 * 2 ^ 33 + poolOf s br role % 512 * 2 ^ 24 +
      rolePrio r.bpri (if br.det then hodAdjustCom w role else tabGetD w.adj role 0) * 2 ^ 20 + r.emask.toNat * 2 ^ 15 + 8 * r.lgran % 128 * 2 ^ 8 + 4 + role)
  | _, _ => 0

/-- Writes a role's status word (R305). -/
def execRoleq (d : Reg) (a : Reg) (k : BitVec 2) (st : BitVec 3) (s : State) :
    Host.Outcome State Fault Refusal :=
  let f := syncForm false st [a] (some d)
  issueForm s f (fun c =>
    let role := numOf c a k % 4
    if c.br.det then parkSync s c (.roleq role (c.pu d) (nameG c a))
    else giveNow s c d (roleWord s c.br role) (numG c a))

/-- A register whose rows are given away. -/
def inGiven (lo p : Nat) : Bool := decide (lo ≤ p) && decide (p < 64)

/-- A result that has not arrived stands on a register whose rows would be given away. -/
def givenBusy (br : Brick) (lo : Nat) : Bool :=
  let hit (n : RName) : Bool := match n with
    | .lane p => inGiven lo p
    | _ => false
  br.pend.any (fun p => p.names.any hit) || br.ilock.any hit ||
    br.marks.any (fun m => hit m.name && br.flights.any (fun f => f.seq == m.seq && !f.done))

/-- The registers from a number on are discarded. -/
def discardFrom (br : Brick) (lo : Nat) : Brick :=
  { br with lane := br.lane.filter (fun x => !inGiven lo (x.1 / 64))
            marks := br.marks.filter (fun m => (match m.name with
              | .lane p => !inGiven lo p
              | _ => true) || br.flights.any (fun f => f.seq == m.seq && !f.done)) }

/-- Gives granules of the brick's rows to a role's pool (R110): the registers are gone and the allotment is the new one for what
issues next (R420); in a deterministic launch the rows leave the brick at its course's end (log 76). -/
def execRqmovGive (d : Reg) (a : Reg) (role : BitVec 2) (st : BitVec 3) (s : State) :
    Host.Outcome State Fault Refusal :=
  let f := syncForm false st [a] (some d)
  issueForm s f (fun c =>
    let n := (c.u a).toNat
    let g := c.br.granNow
    if n < 1 || decide (n > g - 1) || (roleAt s c.br role.toNat).isNone then .trap s (trapOf c 0x007#9)
    else if givenBusy c.br (8 * (g - n)) then .hold
    else
      let s := modBrick s c.b (fun br => discardFrom br (8 * (g - n)))
      let s :=
        if c.br.det then pushFlight s c f none (bufferEnd s c) none (.give role.toNat (8 * n))
        else setPool (modBrick s c.b (fun br => { br with gran := br.gran - n })) c.br role.toNat (poolOf s c.br role.toNat + 8 * n)
      giveNow s c d (BitVec.ofNat 64 (8 * (g - n))) false)

/-- Rows taken from the brick's own pool, whose registers are unwritten: the granules that it then has. -/
def takeGranules (s : State) (b : Nat) (br : Brick) (n : Nat) : State × Nat :=
  let g := br.granNow
  let m := min (min n (poolOf s br br.role / 8)) (8 - g)
  (modBrick (setPool s br br.role (poolOf s br br.role - 8 * m)) b (fun x =>
    { x with gran := br.gran + m, lane := x.lane.filter (fun y => !inGiven (8 * g) (y.1 / 64)) }), g + m)

/-- Takes granules from the brick's role pool (R110). -/
def execRqmovTake (d : Reg) (a : Reg) (st : BitVec 3) (s : State) :
    Host.Outcome State Fault Refusal :=
  let f := syncForm false st [a] (some d)
  issueForm s f (fun c =>
    let n := (c.u a).toNat
    if n < 1 || decide (n > 7) then .trap s (trapOf c 0x007#9)
    else if c.br.det then parkSync s c (.take n (c.pu d))
    else
      let (s, g) := takeGranules s c.b c.br n
      giveNow s c d (BitVec.ofNat 64 (8 * g)) false)

end Sys2Proof.Machine
end

