-- ==== Sys2Proof/Machine/CrossLane.lean ====
section
/-!
DEFINITION. Moves between the sets, cross-lane forms, reductions and scans, and the mask forms (R118–R125).
-/
namespace Sys2Proof.Machine


/-- Writes a uniform register's value into every active thread (R118). -/
def execVfroms (d : Reg) (a : Reg) (q : Bool) (st : BitVec 3) (s : State) :
    Host.Outcome State Fault Refusal :=
  let f := { laneForm false st [] d with unis := [a.toNat], rd := [nUni a] }
  issueForm s f (fun c => fixed s c f 2
    (if q then laneWrites32 c d (fun _ _ => (c.u a).setWidth 32) (fun _ _ => c.uG a)
     else laneWrites64 c d (fun _ => c.u a) (fun _ => c.uG a)))

/-- Writes a uniform value plus the lane index into every active lane (R118). -/
def execVfromsIdx (d : Reg) (a : Reg) (q : Bool) (st : BitVec 3) (s : State) :
    Host.Outcome State Fault Refusal :=
  let f := { laneForm false st [] d with unis := [a.toNat], rd := [nUni a] }
  issueForm s f (fun c => fixed s c f 2
    (if q then laneWrites32 c d (fun t e => (c.u a).setWidth 32 + BitVec.ofNat 32 (2 * t + e)) (fun _ _ => c.uG a)
     else laneWrites64 c d (fun t => c.u a + BitVec.ofNat 64 t) (fun _ => c.uG a)))

/-- The element that a lane number names: a half, or a thread's whole register (R121). -/
def elemOf (q : Bool) (lane : Reg) : Elem :=
  if q then ⟨lane.toNat / 2, false, lane.toNat % 2 == 0, lane.toNat % 2 == 1⟩ else ⟨lane.toNat % 32, false, true, true⟩

/-- Copies one thread's lane value into a uniform register (R119): the thread need not be active, and its load mark and its poison
count all the same (R200, R362). -/
def execSfromv (d : Reg) (a : Reg) (lane : Reg) (q : Bool) (st : BitVec 3) (s : State) :
    Host.Outcome State Fault Refusal :=
  let el := elemOf q lane
  let f := { laneForm false st [a] d with lanes := [a.toNat], unis := [d.toNat], wr := [nUni d], chk := [], only := some { el with always := true } }
  issueForm s f (fun c => fixed s c f 4
    [if q then c.putU d ((c.h a el.thread (lane.toNat % 2)).setWidth 64) (c.hG a el.thread (lane.toNat % 2))
     else c.putU d (c.w a el.thread) (c.wG a el.thread)])

/-- Each active lane reads a from the lane its index names (R122). -/
def execLshfl (d : Reg) (a : Reg) (b : Reg) (q : Bool) (st : BitVec 3) (s : State) :
    Host.Outcome State Fault Refusal :=
  let f := { laneForm false st [a, b] d with chk := [] }
  issueForm s f (fun c => fixed s c f 6
    ((c.lanes q).flatMap (fun j =>
      let src := c.laneIdx q b j
      c.copyLane q d a j (if c.laneAct q src then src else j) (c.laneIdxG q b j))))

/-- Each active lane sends a to the lane its index names (R122). -/
def execLpush (d : Reg) (a : Reg) (b : Reg) (q : Bool) (st : BitVec 3) (s : State) :
    Host.Outcome State Fault Refusal :=
  let f := { laneForm false st [a, b] d with chk := [] }
  issueForm s f (fun c => fixed s c f 6
    ((c.lanes q).flatMap (fun dst =>
      match ((c.lanes q).filter (fun j => c.laneIdx q b j == dst)).getLast? with
      | some j => c.copyLane q d a dst j (c.laneIdxG q b j)
      | none => [])))

/-- Broadcasts one lane's element to every active lane (R122). -/
def execLbcst (d : Reg) (a : Reg) (lane : Reg) (q : Bool) (st : BitVec 3) (s : State) :
    Host.Outcome State Fault Refusal :=
  let f := { laneForm false st [a] d with chk := [], only := some (elemOf q lane) }
  issueForm s f (fun c => fixed s c f 4
    ((c.lanes q).flatMap (fun j =>
      let src := if q then lane.toNat else lane.toNat % 32
      c.copyLane q d a j (if c.laneAct q src then src else j) false)))

/-- A lane form that reads a mask register and writes a uniform one. -/
def maskToUni (st : BitVec 3) (d : Reg) (m : BitVec 3) : Form :=
  { bareForm false true st .vec with unis := [d.toNat], rd := [nMsk m], wr := [nUni d] }

/-- A mask bit of an active lane: bit 2t at thread level, bit i at sub-element level. -/
def laneBit (q : Bool) (v : W64) (j : Nat) : Bool := v.getLsbD (if q then j else 2 * j)

/-- Writes the mask ANDed with the active bits to a uniform register (R122). -/
def execLvoteBallot (d : Reg) (m : BitVec 3) (st : BitVec 3) (s : State) :
    Host.Outcome State Fault Refusal :=
  let f := maskToUni st d m
  issueForm s f (fun c => fixed s c f 4 [c.putU d ((c.m m).v &&& c.sel) ((c.m m).g &&& c.sel != 0#64)])

/-- Writes 1 when the mask bit is set for some active thread (R122). -/
def execLvoteAny (d : Reg) (m : BitVec 3) (st : BitVec 3) (s : State) :
    Host.Outcome State Fault Refusal :=
  let f := maskToUni st d m
  issueForm s f (fun c => fixed s c f 4
    [c.putU d (if c.ts.any (laneBit false (c.m m).v) then 1#64 else 0#64) (c.ts.any (laneBit false (c.m m).g))])

/-- Writes 1 when the mask bit is set for every active thread (R122). -/
def execLvoteAll (d : Reg) (m : BitVec 3) (st : BitVec 3) (s : State) :
    Host.Outcome State Fault Refusal :=
  let f := maskToUni st d m
  issueForm s f (fun c => fixed s c f 4
    [c.putU d (if c.ts.all (laneBit false (c.m m).v) then 1#64 else 0#64) (c.ts.any (laneBit false (c.m m).g))])

/-- Writes the lowest active lane whose mask bit is set (R122). -/
def execLfirst (d : Reg) (m : BitVec 3) (q : Bool) (st : BitVec 3) (s : State) :
    Host.Outcome State Fault Refusal :=
  let f := maskToUni st d m
  issueForm s f (fun c => fixed s c f 4
    [c.putU d (BitVec.ofNat 64 (((c.lanes q).find? (laneBit q (c.m m).v)).getD (if q then 64 else 32)))
      ((c.lanes q).any (laneBit q (c.m m).g))])

/-- Counts set mask bits of the active threads into a uniform register (R120). -/
def execMpop (d : Reg) (m : BitVec 3) (q : Bool) (st : BitVec 3) (s : State) :
    Host.Outcome State Fault Refusal :=
  let f := maskToUni st d m
  issueForm s f (fun c => fixed s c f 2
    [c.putU d (BitVec.ofNat 64 ((c.lanes q).filter (laneBit q (c.m m).v)).length) ((c.lanes q).any (laneBit q (c.m m).g))])

/-- A bitwise form on mask registers over the bits of the active threads (R120). -/
def maskOp (g : W64 → W64 → W64) (m ma mb : BitVec 3) (unary : Bool) (st : BitVec 3) (s : State) :
    Host.Outcome State Fault Refusal :=
  let f := { bareForm false true st .vec with rd := (if unary then [nMsk ma] else [nMsk ma, nMsk mb]), wr := [nMsk m] }
  issueForm s f (fun c =>
    let y : MReg := if unary then MReg.start else c.m mb
    fixed s c f 1 [c.putM m c.sel (g (c.m ma).v y.v &&& c.sel) (((c.m ma).g ||| y.g) &&& c.sel)])

/-- ANDs two masks at the active threads' bits (R120). -/
def execMopAnd (m : BitVec 3) (ma : BitVec 3) (mb : BitVec 3) (st : BitVec 3) (s : State) :
    Host.Outcome State Fault Refusal :=
  maskOp (fun x y => x &&& y) m ma mb false st s

/-- ORs two masks at the active threads' bits (R120). -/
def execMopOr (m : BitVec 3) (ma : BitVec 3) (mb : BitVec 3) (st : BitVec 3) (s : State) :
    Host.Outcome State Fault Refusal :=
  maskOp (fun x y => x ||| y) m ma mb false st s

/-- XORs two masks at the active threads' bits (R120). -/
def execMopXor (m : BitVec 3) (ma : BitVec 3) (mb : BitVec 3) (st : BitVec 3) (s : State) :
    Host.Outcome State Fault Refusal :=
  maskOp (fun x y => x ^^^ y) m ma mb false st s

/-- Writes a AND NOT b into a mask at the active threads' bits (R120). -/
def execMopAndn (m : BitVec 3) (ma : BitVec 3) (mb : BitVec 3) (st : BitVec 3) (s : State) :
    Host.Outcome State Fault Refusal :=
  maskOp (fun x y => x &&& ~~~y) m ma mb false st s

/-- Writes NOT a into a mask at the active threads' bits (R120). -/
def execMopNot (m : BitVec 3) (ma : BitVec 3) (st : BitVec 3) (s : State) :
    Host.Outcome State Fault Refusal :=
  maskOp (fun x _ => ~~~x) m ma 0#3 true st s

/-- One node of a reduction: two elements combined (R123, R124). -/
def redCombine (op : RedOp) (ty : Ty) (rd : Rounding) (x y : Nat) : Nat × Flags :=
  match fmtOf ty with
  | some f =>
    (match op with
     | .min => fMinMax f false x y
     | .max => fMinMax f true x y
     | _ => fAdd f rd true (fUnpack f x) (fUnpack f y))
  | none =>
    let w := ty.width
    let a : BitVec w := BitVec.ofNat w x
    let b : BitVec w := BitVec.ofNat w y
    let sg := ty == .i32 || ty == .i64
    let r : BitVec w :=
      match op with
      | .add => a + b
      | .min => if sg then minS a b else minU a b
      | .max => if sg then maxS a b else maxU a b
      | .and => a &&& b
      | .or => a ||| b
      | .xor => a ^^^ b
    (r.toNat, flagNone)

/-- What a reduction of nothing gives (R124). -/
def redIdentity (op : RedOp) (ty : Ty) : Nat :=
  let w := ty.width
  let sg := ty == .i32 || ty == .i64
  match op with
  | .and => 2 ^ w - 1
  | .min => (match fmtOf ty with
      | some f => fInf f false
      | none => if sg then 2 ^ (w - 1) - 1 else 2 ^ w - 1)
  | .max => (match fmtOf ty with
      | some f => fInf f true
      | none => if sg then 2 ^ (w - 1) else 0)
  | _ => 0

/-- A combination of two operands that may be absent; passing a value through raises nothing (R88). -/
def redJoin (cmb : Nat → Nat → Nat × Flags) (x y : Option Nat × Flags) : Option Nat × Flags :=
  match x.1, y.1 with
  | some a, some b => let (v, fl) := cmb a b; (some v, x.2 ||| y.2 ||| fl)
  | some a, none => (some a, x.2 ||| y.2)
  | none, b => (b, x.2 ||| y.2)

/-- Node i of level k of the fixed tree over the leaves (R88). -/
def treeNode (cmb : Nat → Nat → Nat × Flags) (leaf : Nat → Option Nat) : Nat → Nat → Option Nat × Flags
  | 0, i => (leaf i, flagNone)
  | k + 1, i => redJoin cmb (treeNode cmb leaf k (2 * i)) (treeNode cmb leaf k (2 * i + 1))

/-- The prefix of length `len` from leaf `at0` on: aligned blocks from the highest bit of the length down (R125). -/
def treePrefix (cmb : Nat → Nat → Nat × Flags) (leaf : Nat → Option Nat) (len : Nat) :
    Nat → Nat → Option Nat × Flags → Option Nat × Flags
  | 0, _, acc => acc
  | k + 1, at0, acc =>
    if len.testBit k then
      treePrefix cmb leaf len k (at0 + 2 ^ k) (redJoin cmb acc (treeNode cmb leaf k (at0 / 2 ^ k)))
    else treePrefix cmb leaf len k at0 acc

/-- What a reduction delivers: the identity when nothing is there, and the canonical NaN for any NaN (R88). -/
def redDeliver (op : RedOp) (ty : Ty) (x : Option Nat) : Nat :=
  match x with
  | none => redIdentity op ty
  | some v => (match fmtOf ty with
      | some f => if isNaN (fUnpack f v) then f.nanBits else v
      | none => v)

/-- Element of lane j of a register. -/
def laneElem (c : Ctx) (q : Bool) (a : Reg) (j : Nat) : Nat := if q then (c.h a (j / 2) (j % 2)).toNat else (c.w a j).toNat
def laneElemG (c : Ctx) (q : Bool) (a : Reg) (j : Nat) : Bool := if q then c.hG a (j / 2) (j % 2) else c.wG a j
/-- The leaves: the elements of the active lanes. -/
def redLeaf (c : Ctx) (q : Bool) (a : Reg) (j : Nat) : Option Nat := if c.laneAct q j then some (laneElem c q a j) else none

/-- Delivers LRED or LSCAN: flags go to every active thread, and only a floating-point form raises any (R124). -/
def redDone (s : State) (c : Ctx) (f : Form) (lat : Nat) (ty : Ty) (ws : List RegWrite) (fl : Flags) : Res :=
  if ty.isFloat then
    .done (pushFp s c f lat ws (flagList c.ts (fun _ => fl)) (fun _ => mainOf ws) (fmtOf ty))
  else fixed s c f lat ws

/-- Reduces the active lanes' elements over the fixed pairwise tree (R124). -/
def execLred (d : Reg) (a : Reg) (op : RedOp) (rm : Rm) (ty : Ty) (st : BitVec 3) (s : State) :
    Host.Outcome State Fault Refusal :=
  let f := laneForm true st [a] d
  issueForm s f (fun c =>
    let q := ty.width == 32
    let r := treeNode (redCombine op ty (c.rnd rm)) (redLeaf c q a) (if q then 6 else 5) 0
    let v := redDeliver op ty r.1
    let g := (c.lanes q).any (laneElemG c q a)
    redDone s c f 12 ty
      (if q then laneWrites32 c d (fun _ _ => BitVec.ofNat 32 v) (fun _ _ => g)
       else laneWrites64 c d (fun _ => BitVec.ofNat 64 v) (fun _ => g)) r.2)

/-- Forms inclusive or exclusive prefixes over the fixed tree (R125). -/
def execLscan (d : Reg) (a : Reg) (op : RedOp) (excl : Bool) (rm : Rm) (ty : Ty) (st : BitVec 3) (s : State) :
    Host.Outcome State Fault Refusal :=
  let f := laneForm true st [a] d
  issueForm s f (fun c =>
    let q := ty.width == 32
    let pre (j : Nat) : Option Nat × Flags :=
      treePrefix (redCombine op ty (c.rnd rm)) (redLeaf c q a) (if excl then j else j + 1) 7 0 (none, flagNone)
    let val (j : Nat) : Nat := redDeliver op ty (pre j).1
    let g (j : Nat) : Bool := (c.lanes q).any (fun i => decide (i < (if excl then j else j + 1)) && laneElemG c q a i)
    redDone s c f 14 ty
      (if q then laneWrites32 c d (fun t e => BitVec.ofNat 32 (val (2 * t + e))) (fun t e => g (2 * t + e))
       else laneWrites64 c d (fun t => BitVec.ofNat 64 (val t)) g)
      ((c.lanes q).foldl (fun fl j => fl ||| (pre j).2) flagNone))

end Sys2Proof.Machine
end

