-- ==== Sys2Proof/Machine/Fabric.lean ====
section
/-!
DEFINITION. The coll engine (posted writes, write-then-signal, collectives: R263, R375–R382), the fabric as the module meets
it (R368–R374) and the host link (R383, R384, R392).
-/
namespace Sys2Proof.Machine

/-- A form of the coll engine. -/
def collEngine (st : BitVec 3) (reads : List Reg) : Form := { syncForm false st reads none with engine := .coll }

/-! ### Ranges in pieces that end at lines -/

inductive PieceRes where
  | ok (s : State) (l : List (Loc × Nat))
  | trap (s : State) (t : TrapReq)
  | fault (s : State) (va : Nat)
  deriving DecidableEq, Repr

/-- The pieces of a range of the launch's space. -/
def virtPieces (s : State) (c : Ctx) (kind va len : Nat) : Nat → PieceRes
  | 0 => .ok s []
  | fuel + 1 =>
    if len = 0 then .ok s []
    else
      let t := lowThread c.sp.mask
      let m := min (64 - va % 64) len
      match globalThread s c kind anyHome va m false t false with
      | (s, .cause x a) => .trap s (trapThread x t 1 (BitVec.ofNat 64 a))
      | (s, .fault a) => .fault s a
      | (s, .ok a) =>
        (match virtPieces s c kind (va + m) (len - m) fuel with
         | .ok s l => .ok s ((a.loc, m) :: l)
         | r => r)

/-- The pieces of a range of the wall's local memory. -/
def localPieces (s : State) (br : Brick) (off len : Nat) : Nat → List (Loc × Nat)
  | 0 => []
  | fuel + 1 =>
    if len = 0 then []
    else
      let m := min (64 - off % 64) len
      (localLoc s br off, m) :: localPieces s br (off + m) (len - m) fuel

/-- The pieces of the range that a descriptor names. -/
def rangePieces (s : State) (c : Ctx) (kind : Nat) (v : W64) (len : Nat) : PieceRes :=
  if ebit v 63 then virtPieces s c kind (v.toNat % 2 ^ 57) len (len / 64 + 2)
  else .ok s (localPieces s c.br (v.toNat % 2 ^ 20) len (len / 64 + 2))

/-- Bits above the address, or a range that does not fit (R263). -/
def rangeOut (s : State) (br : Brick) (v : W64) (len : Nat) : Bool :=
  v.toNat / 2 ^ 57 % 64 != 0 ||
    (if ebit v 63 then decide (v.toNat % 2 ^ 57 + len > 2 ^ 57) else decide (v.toNat % 2 ^ 20 + len > localSize s br))

/-- Continues with a range's pieces. -/
def withPieces (c : Ctx) (kind : Nat) (r : PieceRes) (body : State → List (Loc × Nat) → Res) : Res :=
  match r with
  | .ok s l => body s l
  | .trap s t => .trap s t
  | .fault s va => .stay (brickFault s c kind va)

/-- A trap of the coll engine that reports an address. -/
def collTrap (c : Ctx) (cause : BitVec 9) (a : W64) : TrapReq := trapThread cause (lowThread c.sp.mask) 1 a

/-- The first host place of a destination. -/
def hostAt (va : Nat) : List (Loc × Nat) → Option Nat
  | [] => none
  | (l, n) :: r => if l.isHost then some va else hostAt (va + n) r

/-! ### PUTW and SIGW -/

/-- Checks on the operands' own bits (R263 checks 3 and 4, R375); `flag` is the flag's address of SIGW. -/
def sendBad (s : State) (c : Ctx) (dst src : W64) (len : Nat) (lenBad : Bool) (flag : Option W64) : Option TrapReq :=
  if dst.toNat % 64 != 0 then some (collTrap c 0x0C1#9 dst)
  else if flag.any (fun x => x.toNat % 8 != 0) then some (collTrap c 0x0C1#9 (flag.getD 0))
  else if src.toNat % 64 != 0 then some (collTrap c 0x0C1#9 (srcAddr src))
  else if lenBad then some (collTrap c 0x0C1#9 dst)
  else if decide (dst.toNat + len > 2 ^ 57) || decide (dst.toNat ≥ 2 ^ 57) then some (collTrap c 0x0C6#9 dst)
  else if flag.any (fun x => decide (x.toNat ≥ 2 ^ 57)) then some (collTrap c 0x0C6#9 (flag.getD 0))
  else if rangeOut s c.br src len then some (collTrap c 0x0C6#9 (srcAddr src))
  else none

/-- Lines with their source, the destination's address and its place. -/
def pairLines (va : Nat) : List Loc → List (Loc × Nat) → List (Loc × Nat × Loc)
  | x :: xs, (y, n) :: ys => (x, va, y) :: pairLines (va + n) xs ys
  | _, _ => []

/-- Continues with the lines of a posted write: translation of source and destination, and of a flag of eight bytes with its kind of
access; then the homes (R263, R375). -/
def withSend (s : State) (c : Ctx) (dst src : W64) (len : Nat) (flag : Option (Nat × W64))
    (body : State → List (Loc × Nat × Loc) → List (Loc × Nat) → Res) : Res :=
  withPieces c kRead (rangePieces s c kRead src len) (fun s from_ =>
    withPieces c kWrite (virtPieces s c kWrite dst.toNat len (len / 64 + 1)) (fun s dsts =>
      let flagAt : PieceRes := match flag with
        | some (kind, va) => virtPieces s c kind va.toNat 8 2
        | none => .ok s []
      withPieces c ((flag.map (·.1)).getD kWrite) flagAt (fun s fl =>
        match hostAt dst.toNat dsts with
        | some va => .trap s (collTrap c 0x0C7#9 (BitVec.ofNat 64 va))
        | none =>
          if fl.any (fun x => x.1.isHost) then .trap s (collTrap c 0x0C7#9 ((flag.map (·.2)).getD 0))
          else body s (pairLines dst.toNat (from_.map (·.1)) dsts) fl)))

/-- A write-back that the array has not run comes before the reading of a local source (R225, R232). -/
def sourceBusy (c : Ctx) (src : W64) : Bool := !ebit src 63 && wbBusy c.br

/-- Posts a block write to any address in the launch's space (R375). -/
def execPutw (d : Reg) (a : Reg) (st : BitVec 3) (s : State) : Host.Outcome State Fault Refusal :=
  let f := collEngine st [d, a, nxt a]
  issueForm s f (fun c =>
    let n := c.u (nxt a)
    let len := n.toNat % 2 ^ 32
    if n.toNat / 2 ^ 32 != 0 then .trap s (trapOf c 0x001#9)
    else if globHold s c 5 || sourceBusy c (c.u a) then .hold
    else match sendBad s c (c.u d) (c.u a) len (len % 64 != 0 || len = 0 || decide (len > 1048576)) none with
      | some t => .trap s t
      | none =>
        withSend s c (c.u d) (c.u a) len none (fun s lines _ =>
          .done (pushFlight s c f (some 5) (bufferEnd s c) none
            (.putw lines none (c.gov || c.uG d || c.uG a || c.uG (nxt a))))))

/-- SIGW (R263). -/
def sigwForm (add : Bool) (d a : Reg) (st : BitVec 3) (s : State) : Host.Outcome State Fault Refusal :=
  let f := collEngine st [d, nxt d, a, nxt a]
  issueForm s f (fun c =>
    let n := c.u (nxt a)
    let len := n.toNat % 2 ^ 32
    let flag := c.u (nxt d)
    if globHold s c 5 || sourceBusy c (c.u a) then .hold
    else match sendBad s c (c.u d) (c.u a) len (len % 64 != 0 || decide (len > 1048576)) (some flag) with
      | some t => .trap s t
      | none =>
        withSend s c (c.u d) (c.u a) len (some (if add then kRw else kWrite, flag)) (fun s lines fl =>
          let green := c.gov || c.uG d || c.uG a || c.uG (nxt a)
          .done (pushFlight (useCum s c.b) c f (some 5) (bufferEnd s c) none
            (.sigw lines none flag.toNat (((fl.head?).map (·.1)).getD (.loc 0 0)) add (n.extractLsb' 32 32) green
              (green || c.uG (nxt d))))))

/-- Writes a payload then sets a flag at its home (R263). -/
def execSigwSet (d : Reg) (a : Reg) (st : BitVec 3) (s : State) : Host.Outcome State Fault Refusal := sigwForm false d a st s

/-- Writes a payload then adds to a flag at its home (R263). -/
def execSigwAdd (d : Reg) (a : Reg) (st : BitVec 3) (s : State) : Host.Outcome State Fault Refusal := sigwForm true d a st s

/-! ### RFENCE -/

/-- Parks until the brick's posted lines are performed, confirmed by switch fence counters (R376). -/
def execRfenceRel (st : BitVec 3) (s : State) : Host.Outcome State Fault Refusal :=
  let f := bareForm false false st .coll
  issueForm s f (fun c =>
    if c.br.det then .done s
    else .park s (.rfence ((c.br.flights.filter (fun x => !x.done && ((match x.kind with
      | .putw _ _ _ => true
      | _ => false) || x.fc == some 0 || x.fc == some 1 || x.fc == some 2))).map (·.seq))) none)

/-- Every switch reports its count of older posted lines at zero and RFENCE completes (R376). -/
def markerSplit (br : Brick) (sp : Split) : Split :=
  { sp with wait := sp.wait.map (fun w =>
      match w.op with
      | .rfence seqs =>
        if br.flights.any (fun f => seqs.contains f.seq && !f.done) then w else { w with op := .give 0 0 false }
      | _ => w) }

/-- Every switch reports its count of older posted lines at zero and RFENCE completes (R376). -/
def execRfenceMarkerDone (b : Nat) (s : State) : Host.Outcome State Fault Refusal :=
  match tabGet? s.bricks b with
  | none => .fault .noTarget
  | some br => .next (setBrick s b { br with splits := br.splits.map (fun x => (x.1, markerSplit br x.2)) })

/-! ### Collectives: the control word (R377) -/

def ctrlP (v : W64) : Nat := v.toNat / 2 ^ 48
def ctrlRank (v : W64) : Nat := v.toNat / 2 ^ 32 % 2 ^ 16
def ctrlGroup (v : W64) : Nat := v.toNat / 2 ^ 24 % 2 ^ 8
def ctrlRm (v : W64) : BitVec 3 := v.extractLsb' 21 3
def ctrlTy (v : W64) : Option Ty := Ty.ofCode (v.extractLsb' 16 5)
/-- The control word without the rank. -/
def ctrlShared (v : W64) : Nat := ctrlP v * 2 ^ 16 + v.toNat % 2 ^ 32
/-- Fields of k (R379). -/
def collBin (k : BitVec 4) : Bool := k.getLsbD 2
def collOp (k : BitVec 4) : RedOp := match k.toNat % 4 with
  | 0 => .add
  | 1 => .min
  | _ => .max

/-- Element sizes of the source and of the destination, in bytes. -/
def collSizes (form : CollForm) (ctrl : W64) : Nat × Nat :=
  let w := ((ctrlTy ctrl).map Ty.width).getD 32 / 8
  match form with
  | .red => (w, w)
  | .maxe => (w, 4)
  | .bcst => (1, 1)

/-- A float add is the one combination that a rounding mode applies to. -/
def collRounds (form : CollForm) (k : BitVec 4) (ty : Ty) : Bool := form == .red && ty.isFloat && collOp k == .add

/-- Reserved fields, types and modes (R377 check 2). -/
def collReserved (form : CollForm) (k : BitVec 4) (hi : W64) (ctrl : W64) : Option (BitVec 9) :=
  if hi.toNat / 2 ^ 32 != 0 || ctrl.toNat % 2 ^ 16 != 0 then some 0x001#9
  else
    match form with
    | .bcst => if ctrl.toNat / 2 ^ 16 % 2 ^ 8 != 0 then some 0x001#9 else none
    | _ =>
      match ctrlTy ctrl with
      | none => some 0x001#9
      | some ty =>
        let ints := [Ty.i32, .n32, .i64, .n64].contains ty
        let floats := ty == .f32 || ty == .f64
        if !(floats || (form == .red && ints)) || (collBin k && !floats) then some 0x001#9
        else if collRounds form k ty then (if ctrlRm ctrl == 5#3 || ctrlRm ctrl == 7#3 then some 0x002#9 else none)
        else if ctrlRm ctrl != 0#3 then some 0x001#9 else none

/-- The rounding code with `.dyn` resolved at issue. -/
def ctrlMode (c : Ctx) (form : CollForm) (k : BitVec 4) (ctrl : W64) : W64 :=
  match ctrlTy ctrl with
  | some ty =>
    if collRounds form k ty && ctrlRm ctrl == 6#3 then
      BitVec.ofNat 64 (ctrl.toNat - 6 * 2 ^ 21 + c.br.rm.code.toNat * 2 ^ 21)
    else ctrl
  | none => ctrl

/-! ### Joining and combining (R378–R381) -/

/-- A participant's contribution. -/
def Party.contrib (p : Party) (module : BitVec 11) : Contribution :=
  { module := module, rank := p.rank, form := p.form, k := p.k, ctrl := p.ctrl, n := p.n, bytes := p.bytes, greens := p.greens }

/-- Two contributions agree, and their ranks differ (R378). -/
def agree (x y : Contribution) : Bool :=
  x.form == y.form && x.k == y.k && x.n == y.n && ctrlShared x.ctrl == ctrlShared y.ctrl && x.rank != y.rank

def agreeAll : List Contribution → Bool
  | [] => true
  | x :: l => l.all (agree x) && agreeAll l

/-- Element i of a contribution. -/
def contribElem (x : Contribution) (w i : Nat) : Nat := leNat ((x.bytes.drop (i * w)).take w)

/-- Exact values of a rank's element. -/
def addends (f : Fmt) (w i : Nat) (l : List Contribution) : List FVal := l.map (fun x => fUnpack f (contribElem x w i))

/-- ⌊log2|x|⌋ + 1 of a finite non-zero value. -/
def addendExp : FVal → Option Int
  | .fin _ m e => if m == 0 then none else some (e + m.log2 + 1)
  | _ => none

/-- The largest of some exponents. -/
def topExp (l : List FVal) : Option Int := (l.filterMap addendExp).foldl (fun m e => some (match m with
  | some x => max x e
  | none => e)) none

/-- A binned sum (R97, R98). -/
def binSum (f : Fmt) (rd : Rounding) (l : List FVal) : Nat × Flags :=
  let posInf := l.contains (.inf false)
  let negInf := l.contains (.inf true)
  if l.any isNaN || (posInf && negInf) then
    (f.nanBits, if l.contains (.nan true) || (posInf && negInf) then flagInvalid else flagNone)
  else if posInf then (fInf f false, flagNone)
  else if negInf then (fInf f true, flagNone)
  else
    match topExp l with
    | none => (signedBits f (l.all signOf && !l.isEmpty) 0, flagNone)
    | some top =>
      let u := top - 96
      let n : Int := l.foldl (fun acc x => match x with
        | .fin neg m e =>
          let k : Int := ((roundAt (.det .rne) neg m e false u).1 : Nat)
          if neg then acc - k else acc + k
        | _ => acc) 0
      if n = 0 then (0, flagNone)
      else
        let r := fRound f rd (decide (n < 0)) n.natAbs u
        (if r.1 % 2 ^ (f.ebits + f.fbits) = 0 then (0, r.2) else r)

/-- Element i of the result of COLL.RED (R379). -/
def redElem (k : BitVec 4) (ty : Ty) (rd : Rounding) (p i : Nat) (l : List Contribution) : Nat × Flags :=
  let w := ty.width / 8
  if collBin k then
    match fmtOf ty with
    | some f => binSum f rd (addends f w i l)
    | none => (0, flagNone)
  else
    let leaf (r : Nat) : Option Nat := (l.find? (fun x => x.rank == r)).map (fun x => contribElem x w i)
    let t := treeNode (redCombine (collOp k) ty rd) leaf (p.log2 + 1) 0
    (redDeliver (collOp k) ty t.1, t.2)

/-- Element i of the result of COLL.MAXE (R380). -/
def maxeElem (ty : Ty) (i : Nat) (l : List Contribution) : Nat :=
  match fmtOf ty with
  | none => 0
  | some f =>
    let v := addends f (ty.width / 8) i l
    if v.any (fun x => match x with
      | .fin _ _ _ => false
      | _ => true) then 0x7FFFFFFF
    else match topExp v with
      | none => 0x80000000
      | some e => toBits 32 e

/-- What an instance delivers: the bytes of one element or line after the other with their green flags, and the flags. -/
structure CollOut where
  cells : List (List Byte × Bool)
  fl    : Flags
  deriving DecidableEq, Repr

def collOut (l : List Contribution) : CollOut :=
  match l with
  | [] => ⟨[], flagNone⟩
  | x :: _ =>
    let green (i : Nat) : Bool := l.any (fun y => y.greens.getD i false)
    match x.form, ctrlTy x.ctrl with
    | .bcst, _ =>
      (match l.find? (fun y => y.rank == 0) with
       | some y => ⟨(List.range (y.n / 64)).map (fun i => ((y.bytes.drop (64 * i)).take 64, y.greens.getD i false)), flagNone⟩
       | none => ⟨[], flagNone⟩)
    | .red, some ty =>
      let rd := Rounding.det ((Rm.ofCode (ctrlRm x.ctrl)).getD .rne)
      let r := (List.range x.n).map (fun i => (redElem x.k ty rd (ctrlP x.ctrl) i l, green i))
      ⟨r.map (fun y => (leBytes (ty.width / 8) y.1.1, y.2)), r.foldl (fun fl y => fl ||| y.1.2) flagNone⟩
    | .maxe, some ty => ⟨(List.range x.n).map (fun i => (leBytes 4 (maxeElem ty i l), green i)), flagNone⟩
    | _, none => ⟨[], flagNone⟩

/-- The places of some pieces, a byte each. -/
def pieceLocs (l : List (Loc × Nat)) : List Loc := l.flatMap (fun p => (List.range p.2).map (fun i => p.1.add i))

/-- What each piece of a destination receives: its own bytes, with their tags. -/
def cutPieces : List (Loc × Nat) → List (Byte × Bool) → List (Loc × List (Byte × Bool))
  | [], _ => []
  | (l, n) :: ps, x => (l, x.take n) :: cutPieces ps (x.drop n)

/-- One piece of a result is performed at its home; a piece lies in one line, whose tag follows R175. -/
def writePiece (s : State) (b : Nat) (green : Bool) (x : Loc × List (Byte × Bool)) : State :=
  let s := observe (noteWrite s x.1 (x.2.map (·.1)) (green || x.2.any (·.2))) (some b) x.1 x.2.length
  writeAll s ((List.range x.2.length).map (fun i => ⟨x.1.add i, (x.2.getD i (0, false)).1, (x.2.getD i (0, false)).2⟩)) green false

/-- The result at one participant's destination (R175, R378); pieces that the switches refuse have nothing written (R372). -/
def writeResult (s : State) (b : Nat) (dst : List (Loc × Nat)) (green : Bool) (out : CollOut) : State :=
  ((cutPieces dst (out.cells.flatMap (fun x => x.1.map (fun v => (v, x.2))))).filter (fun x => (outCheck s x.1).isNone)).foldl
    (fun s x => writePiece s b green x) s

/-- The response that the switches give some pieces (R370, R372). -/
def piecesDenied (s : State) (l : List (Loc × Nat)) : Option (BitVec 9) := l.findSome? (fun x => outCheck s x.1)

/-- What a participant's form reports of a response. -/
def Party.late (p : Party) (cause : BitVec 9) : LateTrap :=
  ⟨cause, lowThread p.mask, (threadsOf p.mask).length, BitVec.ofNat 64 p.dstVa, 0⟩

/-- A participant's form completes: its result, its flags, its counter (R378), and the trap of a destination that was refused (R372). -/
def finishParty (s : State) (out : CollOut) (p : Party) : State :=
  let late := piecesDenied s p.dst
  let s := writeResult s p.brick p.dst p.green out
  let s := match late, flightOf s p.brick p.seq with
    | some cause, some f => reportTrap s p.brick f (p.late cause)
    | _, _ => s
  modBrick s p.brick (fun br => finishFlight (orFxAll br ((threadsOf p.mask).map (fun t => (t, out.fl)))) p.seq)

/-- A participant's form ends in a trap, with nothing written. -/
def failParty (s : State) (cause : BitVec 9) (p : Party) : State :=
  match flightOf s p.brick p.seq with
  | none => s
  | some f =>
    endFlight (reportTrap s p.brick f (p.late cause)) p.brick p.seq

/-- Every participant takes a cause, and those that join later too (R378). -/
def failColl (s : State) (key : Nat) (x : Coll) (cause : BitVec 9) (skip : Party → Bool) : State :=
  let s := { s with colls := tabPut s.colls key { x with parties := x.parties.filter (fun p => !p.joined), failed := some cause } }
  (x.parties.filter (fun p => p.joined && !skip p)).foldl (fun s p => failParty s cause p) s

/-- A contribution cannot join: it takes the cause of the response that it met, and every other participant 0x14E (R372, R378); one of an
instance that has failed takes that cause. -/
def denyParty (s : State) (key : Nat) (p : Party) (cause : BitVec 9) : State :=
  match tabGet? s.colls key with
  | none => s
  | some x =>
    match x.failed with
    | some cause => failParty s cause p
    | none => failColl (failParty s cause p) key x 0x14E#9 (fun _ => false)

/-- A contribution joins its instance, unless the module's key is not valid (R371, R378). -/
def joinColl (s : State) (key : Nat) (p : Party) : State :=
  match tabGet? s.colls key with
  | none => s
  | some x =>
    match x.failed with
    | some cause => failParty s cause p
    | none =>
      if !keyValid s then denyParty s key p 0x147#9
      else
      let x := { x with parties := x.parties ++ [p] }
      if (x.parties.filter (·.joined)).all (fun y => y == p || agree (y.contrib s.module) (p.contrib s.module)) then
        { s with colls := tabPut s.colls key x }
      else failColl s key x 0x14D#9 (fun _ => false)

/-- Reads a contribution with the tags of its elements; none, with the place, when a line is poisoned. -/
def readPieces (s : State) (b : Nat) : List (Loc × Nat) → State × Except Loc (List (Byte × Bool))
  | [] => (s, .ok [])
  | (l, n) :: r =>
    let (s, psn) := checkLine (noteRead s l n) l.line
    let s := observe s (some b) l n
    if psn then (s, .error l)
    else
      let bytes := (readBytes s l n).map (fun x => (x, lineG s l))
      match readPieces s b r with
      | (s, .ok t) => (s, .ok (bytes ++ t))
      | (s, .error e) => (s, .error e)

/-- The participant with what it read. -/
def Party.fill (p : Party) (l : List (Byte × Bool)) : Party :=
  let w := if p.form == .bcst then 64 else (collSizes p.form p.ctrl).1
  let cells := if p.form == .bcst then p.n / 64 else p.n
  { p with joined := true, bytes := l.map (·.1)
           greens := (List.range cells).map (fun i => p.gov || (l.getD (i * w) (0, false)).2) }

/-- Number of an instance. -/
def collKey (part group index : Nat) : Nat := index * 2 ^ 24 + part * 2 ^ 8 + group

/-- The instance is there for a contribution. -/
def openColl (s : State) (part group index : Nat) : State :=
  let key := collKey part group index
  match tabGet? s.colls key with
  | some _ => s
  | none => { s with colls := tabPut s.colls key ⟨part, group, index, [], none, none⟩ }

/-- The checks of R377 from the third on, up to translation: source and destination sizes `len` and `dlen`. -/
def collBad (s : State) (c : Ctx) (form : CollForm) (dst src ctrl : W64) (n : Nat) (reads : Bool) : Option TrapReq :=
  let sz := collSizes form ctrl
  let al := if form == .bcst then (64, 64) else sz
  if ctrlP ctrl = 0 || decide (ctrlRank ctrl ≥ ctrlP ctrl) then some (trapOf c 0x14D#9)
  else if reads && (descAddr src).2 % al.1 != 0 then some (collTrap c 0x0C1#9 (srcAddr src))
  else if (descAddr dst).2 % al.2 != 0 || (form == .bcst && n % 64 != 0) then some (collTrap c 0x0C1#9 (srcAddr dst))
  else if n = 0 || decide (n > 1048576) then some (collTrap c 0x0C6#9 (srcAddr dst))
  else if reads && rangeOut s c.br src (n * sz.1) then some (collTrap c 0x0C6#9 (srcAddr src))
  else if rangeOut s c.br dst (n * sz.2) then some (collTrap c 0x0C6#9 (srcAddr dst))
  else none

/-- COLL.RED, COLL.MAXE and COLL.BCST as they issue (R377, R378): the contribution is read behind the brick's earlier
writes and joins; in a deterministic launch it joins at the commit of its course (R382). -/
def collectiveForm (form : CollForm) (k : BitVec 4) (d a : Reg) (st : BitVec 3) (s : State) : Host.Outcome State Fault Refusal :=
  let f := collEngine st [d, nxt d, a, nxt a]
  issueForm s f (fun c =>
    let hi := c.u (nxt d)
    let ctrl := ctrlMode c form k (c.u (nxt a))
    let n := hi.toNat % 2 ^ 32
    let reads := form != .bcst || ctrlRank ctrl == 0
    let sz := collSizes form ctrl
    if globHold s c 5 || (!c.br.det && (!writesDone c.br c.br.seq || (workingPlanes s).isEmpty)) then .hold
    else match collReserved form k hi (c.u (nxt a)) with
      | some cause => .trap s (trapOf c cause)
      | none =>
        match collBad s c form (c.u d) (c.u a) ctrl n reads with
        | some t => .trap s t
        | none =>
          withPieces c kRead (if reads then rangePieces s c kRead (c.u a) (n * sz.1) else .ok s []) (fun s src =>
            withPieces c kWrite (rangePieces s c kWrite (c.u d) (n * sz.2)) (fun s dst =>
              match hostAt (descAddr (c.u d)).2 dst with
              | some va => .trap s (collTrap c 0x0C7#9 (BitVec.ofNat 64 va))
              | none =>
                let g := ctrlGroup ctrl
                let slot := c.b * 256 + g
                let m := tabGetD s.collIdx slot 0
                let key := collKey s.keyPart.toNat g m
                let p : Party :=
                  { brick := c.b, seq := c.br.seq, split := c.k, mask := c.sp.mask, rank := ctrlRank ctrl, form := form, k := k
                    ctrl := ctrl, n := n, src := src, dst := dst, dstVa := (descAddr (c.u d)).2
                    green := c.gov || c.uG d || c.uG (nxt d) || c.uG a || c.uG (nxt a), gov := c.gov, joined := false
                    bytes := [], greens := [] }
                let enter (s : State) : State :=
                  pushFlight (openColl { s with collIdx := tabSet s.collIdx slot 0 (m + 1) } s.keyPart.toNat g m) c f (some 5)
                    (bufferEnd s c) none (.coll key)
                if c.br.det then
                  let s := enter s
                  .done { s with colls := tabMod s.colls key (fun x => { x with parties := x.parties ++ [p] }) }
                else if src.any (fun x => locDown s x.1) then .hold
                else match piecesDenied s src with
                | some cause => .done (denyParty (enter s) key p cause)
                | none =>
                  match readPieces s c.b src with
                  | (s, .error l) => .trap s { trapOf c 0x146#9 with aux0 := BitVec.ofNat 64 (structOf l), aux1 := BitVec.ofNat 64 l.line.report }
                  | (s, .ok l) => .done (joinColl (enter s) key (p.fill l)))))

/-- Contributes to a reduction collective instance (R379). -/
def execCollRed (d : Reg) (a : Reg) (bin : Bool) (n : BitVec 2) (st : BitVec 3) (s : State) :
    Host.Outcome State Fault Refusal :=
  collectiveForm .red (0#1 ++ (BitVec.ofBool bin ++ n)) d a st s

/-- Contributes to a maximum-exponent collective instance (R380). -/
def execCollMaxe (d : Reg) (a : Reg) (st : BitVec 3) (s : State) : Host.Outcome State Fault Refusal :=
  collectiveForm .maxe 0#4 d a st s

/-- Contributes to a broadcast collective instance (R381). -/
def execCollBcst (d : Reg) (a : Reg) (st : BitVec 3) (s : State) : Host.Outcome State Fault Refusal :=
  collectiveForm .bcst 0#4 d a st s

/-- A buffered contribution joins at the commit of its course (R382). -/
def commitColl (s : State) (b : Nat) (f : Flight) (key : Nat) : State :=
  match tabGet? s.colls key with
  | none => endFlight s b f.seq
  | some x =>
    match x.parties.find? (fun p => p.brick == b && p.seq == f.seq) with
    | none => endFlight s b f.seq
    | some p =>
      let s := { s with colls := tabPut s.colls key { x with parties := x.parties.erase p } }
      match piecesDenied s p.src with
      | some cause => denyParty s key p cause
      | none =>
      match readPieces s b p.src with
      | (s, .error l) => endFlight (oweTrap s b f (poisonOf l)) b f.seq
      | (s, .ok l) => joinColl s key (p.fill l)

/-- The network holds the participant's result: its wall is saved (R296), or a link that its destination needs is out of service
(R368). -/
def partyAway (s : State) (p : Party) : Bool :=
  p.dst.any (fun x => locDown s x.1) || (tabGet? s.bricks p.brick).any (fun br => (tabGet? s.walls br.wall).any (·.saved))

/-- The result goes to the participants that stand; the network holds it for those whose walls are saved (R296). -/
def deliverColl (s : State) (inst : Nat) (x : Coll) (out : CollOut) : State :=
  let mine := x.parties.filter (·.joined)
  let away := mine.filter (partyAway s)
  let rest := mine.filter (fun p => !partyAway s p)
  rest.foldl (fun s p => finishParty s out p)
    { s with colls := (if away.isEmpty then tabDel s.colls inst
                       else tabPut s.colls inst { x with parties := away, result := some (out.cells, out.fl) }) }

/-- An instance with P contributions combines them and writes each result (R378). -/
def execCollectiveComplete (inst : Nat) (remote : List Contribution) (s : State) : Host.Outcome State Fault Refusal :=
  match tabGet? s.colls inst with
  | none => .fault .noTarget
  | some x =>
    let mine := x.parties.filter (·.joined)
    let all := mine.map (fun p => p.contrib s.module) ++ remote
    if x.failed.isSome then .next s
    else match x.result with
    | some (cells, fl) => .next (deliverColl s inst x ⟨cells, fl⟩)
    | none =>
    if !agreeAll all then .next (failColl s inst x 0x14D#9 (fun _ => false))
    else if all.length != ((all.head?).map (fun y => ctrlP y.ctrl)).getD 0 || all.isEmpty then .next s
    else .next (deliverColl s inst x (collOut all))

/-! ### Negative responses (R372) -/

def Loc.isRemote : Loc → Bool
  | .loc _ _ => false
  | .phys pa => isRemotePa pa

/-- The accesses of an operation. -/
def FlightKind.accs : FlightKind → List Acc
  | .load accs _ _ => accs
  | .store puts _ => puts.map (·.acc)
  | .atom reqs _ _ _ _ _ => reqs.map (·.acc)
  | .putw lines _ _ => lines.map lineAcc
  | .sigw lines _ va flag _ _ _ _ => lines.map lineAcc ++ [⟨0, flag, va, 8, false⟩]
  | _ => []

/-- The places that an operation's next part reads or writes. -/
def FlightKind.reach : FlightKind → List Loc
  | .putw lines data _ => (if data.isNone then lines.map (·.1) else []) ++ lines.map (·.2.2)
  | .sigw lines data _ flag _ _ _ _ => (if data.isNone then lines.map (·.1) else []) ++ lines.map (·.2.2) ++ [flag]
  | .hodPut _ _ src _ => src
  | k => k.accs.map (·.loc)

/-- An operation that reaches another module. -/
def FlightKind.remote (k : FlightKind) : Bool := k.accs.any (fun a => a.loc.isRemote)

/-- An operation waits while a place of it cannot be reached; a contribution, while no plane works (R368). -/
def FlightKind.cutOff (s : State) (k : FlightKind) : Bool :=
  k.reach.any (locDown s) || (match k with
    | .coll _ => (workingPlanes s).isEmpty
    | _ => false)

/-- The cause with which the first of some lines is refused. -/
def deniedCause (s : State) (lines : List (Loc × Nat × Loc)) : BitVec 9 :=
  ((lines.findSome? (fun l => (outCheck s l.2.2).or (outCheck s l.1))).getD 0x147#9)

/-- The report of a failed access: its lowest failing thread's address, the number of such threads. -/
def deniedLate (cause : BitVec 9) (bad : List Acc) : LateTrap :=
  match bad with
  | [] => ⟨cause, 0, 1, 0, 0⟩
  | a :: _ => ⟨cause, a.t, bad.length, BitVec.ofNat 64 a.va, 0⟩

/-- Register writes of a brick. -/
def writeRegs (s : State) (b : Nat) (ws : List RegWrite) : State := modBrick s b (fun br => applyWrites br ws)

/-- A posted operation some of whose lines are refused: the others are sent, no flag is set, and the brick traps. -/
def denySend (s : State) (b : Nat) (f : Flight) (cause : BitVec 9) (bad : List Acc) : State :=
  let close (s : State) : State := endFlight (reportTrap s b f { deniedLate cause bad with count := 1 }) b f.seq
  match f.kind with
  | .putw lines data green => close (sendOwn s b green bad lines data)
  | .sigw lines data _ _ _ _ green _ => close (sendOwn s b green bad lines data)
  | _ => s

/-- One operation is denied: its accesses in `bad` read and write nothing, the others are performed, and the brick traps. -/
def denyFlight (s : State) (b : Nat) (f : Flight) (cause : BitVec 9) (bad : List Acc) : State :=
  let close (s : State) : State := endFlight (reportTrap s b f (deniedLate cause bad)) b f.seq
  match f.kind with
  | .load accs dst gov =>
    let (s, d) := performLoad s b (accs.filter (fun a => !bad.contains a)) dst gov
    close (writeRegs s b d.final.writes)
  | .store puts gov => close (performStore s b (puts.filter (fun p => !bad.contains p.acc)) gov)
  | .atom reqs op ty rm dst gov =>
    let (s, d) := performAtom s b op ty (.det rm) dst gov (reqs.filter (fun r => !bad.contains r.acc))
    close (modBrick (writeRegs s b d.final.writes) b (fun br => orFxAll br d.final.fx))
  | .coll key =>
    (match tabGet? s.colls key with
     | none => s
     | some x => failColl s key x 0x14E#9 (fun _ => false))
  | _ => denySend s b f cause bad

/-- Some of the accesses to other modules, by free choices: at least one. -/
def pickFailing (s : State) : List Acc → State × List Acc
  | [] => (s, [])
  | a :: l =>
    let (i, s) := nextFree s
    let (s, r) := pickFailing s l
    (s, if Config.choice i || (r.isEmpty && l.isEmpty) then a :: r else r)

/-- A response can come for the operation: it reaches another module; for a contribution, it stands joined in an instance without a
result, of which another participant's module cannot be reached (R378). -/
def answerable (s : State) (b : Nat) (revoked : Bool) (f : Flight) : Bool :=
  !f.done && f.tEnd.isNone && (f.kind.remote || (match f.kind with
    | .coll key => !revoked && (tabGet? s.colls key).any (fun x => x.failed.isNone && x.result.isNone &&
        x.parties.any (fun p => p.brick == b && p.seq == f.seq && p.joined))
    | _ => false))

/-- A remote access receives a revoked or unreachable response and traps imprecisely (R372): the brick's oldest one; which of its
threads it comes for is a free choice. -/
def execNegativeResponse (b : Nat) (revoked : Bool) (s : State) : Host.Outcome State Fault Refusal :=
  match tabGet? s.bricks b with
  | none => .fault .noTarget
  | some br =>
    match br.flights.find? (answerable s b revoked) with
    | none => .next s
    | some f =>
      let (s, bad) := pickFailing s (f.kind.accs.filter (fun a => a.loc.isRemote))
      .next (denyFlight s b f (if revoked then 0x147#9 else 0x14E#9) bad)

/-! ### Links and keys (R368, R370, R371) -/

/-- A flit that fails its CRC is sent again and logged (R368, R383): on fabric link p below 18, or on the Tuigear link, which is link 18
here. Whether the retry before it had failed too is a free choice; 16 in a row take the link out of service. -/
def execFlitCrcRetry (link : Nat) (s : State) : Host.Outcome State Fault Refusal :=
  if link ≥ 19 then .fault .noTarget
  else
    let (i, s) := nextFree s
    let (j, s) := nextFree s
    let x := tabGetD s.links link ⟨0, false⟩
    let n := if Config.choice i then x.retries + 1 else 1
    let s := logAdd s 0 2 (if link = 18 then 13 else 12) none ((Config.word j).toNat)
    .next { s with links := tabSet s.links link ⟨0, false⟩ (if n ≥ 16 then ⟨0, true⟩ else ⟨n, x.out⟩) }

/-- The fabric manager restores a link that left service, and its plane becomes usable again (R368). -/
def execLinkRestore (link : Nat) (s : State) : Host.Outcome State Fault Refusal :=
  if link ≥ 19 then .fault .noTarget
  else .next { s with links := tabSet s.links link ⟨0, false⟩ ⟨0, false⟩ }

/-- The fabric manager marks a key not valid in every switch (R371). -/
def execKeyRevoke (key : BitVec 16) (s : State) : Host.Outcome State Fault Refusal :=
  .next { s with badKeys := if s.badKeys.contains key then s.badKeys else s.badKeys ++ [key] }

/-- The fabric manager has assigned a module's partition key: every switch maps it to its partition (R370). -/
def assignKey (s : State) (module : BitVec 11) (key part : BitVec 16) : State :=
  let s := { s with badKeys := s.badKeys.filter (· != key), keyMap := tabPut s.keyMap key.toNat part
                    modKeys := tabPut s.modKeys module.toNat key }
  if module = s.module then { s with key := key, keyPart := part } else s

/-- The fabric manager assigns this module's partition key through the site processors (R370). -/
def execKeyAssign (key : BitVec 16) (part : BitVec 16) (s : State) : Host.Outcome State Fault Refusal := .next (assignKey s s.module key part)

/-- What the checks of R370 say of a packet from another module: none when it is delivered, else whether its sender is
told that its key is revoked. -/
def keyCheck (s : State) (module : BitVec 11) (key : BitVec 16) : Option Bool :=
  if key != moduleKey s module.toNat || (partitionOf s key).isNone then some true
  else if !keyValid s || partitionOf s key != partitionOf s s.key then some false
  else none

/-- A number of no brick: an access from outside is nobody's own. -/
def nobody (s : State) : Nat := s.nextB

/-- The number under which a brick of another module is a member of pod barriers. -/
def foreignBrick (module : BitVec 11) (brick : Nat) : Nat := 2 ^ 64 + module.toNat * 2 ^ 32 + brick % 2 ^ 32

/-- A brick of another module acts on a pod barrier of this module's launches (R9, R269–R273); its kill abandons a barrier that it is a
member of (log 116). -/
def podAct (s : State) (module : BitVec 11) (k brick : Nat) (act : BarAct) : State :=
  let o := ObjRef.netBar .pod 0 k
  let b := foreignBrick module brick
  if (tabGet? s.nets (netKey .pod 0 k)).isNone then s
  else
    let s := voteBar s o
    let s := (match act with
      | .arrive => if arrivalOpen s b o then countArrival s b o else s
      | .ends false => exitBar s b o
      | .ends true => if !(barAt s o).ab && (barAt s o).members.contains b then abandon s o else s
      | .init e => if e = 0 || decide (e > 2 ^ 25) then s else initBar s o e)
    (tabKeys s.launches).foldl countWaiting s

/-- What a line of another module's memory has come to hold, as this module's accesses will find it. -/
def theirLine (s : State) (r : RemoteReq) (bytes : List Byte) (poison : Bool) : State :=
  let l := (Loc.phys (0x80000000000000 + r.module.toNat * 2 ^ 44 + r.pa.toNat % 2 ^ 44)).line
  putMeta (putBytes s l (bytes.take 64)) l ⟨r.green, poison, []⟩

/-- A remote request performed at its home. -/
def performRemote (s : State) (r : RemoteReq) (pa : Nat) : State :=
  let l := Loc.phys pa
  let say (s : State) (x : Sent) : State := { s with sent := s.sent ++ [x] }
  let put (bytes : List Byte) : State :=
    say (writeAll (observe s none l bytes.length) ((List.range bytes.length).map (fun i => ⟨l.add i, bytes.getD i 0, r.green⟩)) false false)
      (.fabricDone r.module pa)
  match r.kind with
  | .load n =>
    let (s, psn) := checkLine s l.line
    let s := observe s none l n
    say s (if psn then .fabricPoison r.module pa else .fabricData r.module pa (readBytes s l n) (r.green || lineG s l))
  | .store bytes => put bytes
  | .line bytes => put bytes
  | .atomic op ty rm v v2 =>
    let n := atomBytes ty
    let old := readBytes s l n
    let g := r.green || lineG s l
    match performAtom1 s (nobody s) ⟨⟨0, l, pa, n, false⟩, v, v2, r.green, r.green⟩ op ty (.det rm) none false with
    | (s, d) => say s (if d.late.isSome then .fabricPoison r.module pa else .fabricData r.module pa old g)
  | .barrier k brick act => podAct s r.module k brick act
  | .theirs bytes poison => theirLine s r bytes poison
  | .assigned part => assignKey s r.module r.key part

/-- The packet asks for no place in this module's memory. -/
def placeless : RemoteKind → Bool
  | .barrier _ _ _ => true
  | _ => false

/-- A remote load, store or atomic from another module arrives over a fabric link and is performed at its home bank, if the
switches deliver it (R370, R374); an act on a pod barrier reaches the network (R9). What another module's memory comes to hold, or
which key the fabric manager gives it, is no packet, and no switch checks it. -/
def execFabricRequestArrival (req : RemoteReq) (s : State) : Host.Outcome State Fault Refusal :=
  let pa := ownPa s req.pa.toNat
  match req.kind with
  | .theirs bytes poison => .next (theirLine s req bytes poison)
  | .assigned part => .next (assignKey s req.module req.key part)
  | _ =>
    match keyCheck s req.module req.key with
    | some revoked => .next { s with sent := s.sent ++ [.fabricRefused req.module revoked] }
    | none =>
      if placeless req.kind || isNearPa pa || isFarPa pa || inWindow s pa then .next (performRemote s req pa)
      else .next { s with sent := s.sent ++ [.fabricRefused req.module false] }

/-! ### The host link (R383, R384, R392) -/

/-- BUSY of WSTAT: die 0 has not booted, or a record of the host waits (R384, R387). -/
def hostBusy (s : State) : Bool := !(dieState s 0).booted || s.submits.any (fun x => x.by_.isNone)

/-- A write of LREC (R384). -/
def writeLrec (s : State) (v : W64) : State :=
  if hostBusy s then { s with lost := true }
  else if v.toNat / 2 ^ 57 != 0 then { s with bad := true }
  else
    let (due, s) := freeDue s
    { s with acc := s.acc + 1, submits := s.submits ++ [⟨v.toNat, s.lasid.toNat, none, 0, true, 3, due⟩] }

/-- The Tuigear link is out of service: nothing of the host arrives (R368, R383). -/
def hostCut (s : State) : Bool := (tabGetD s.links 18 ⟨0, false⟩).out

/-- A host write of LREC submits a launch record to die 0's site processor (R384). -/
def execLrecSubmit (v : BitVec 64) (s : State) : Host.Outcome State Fault Refusal := .next (if hostCut s then s else writeLrec s v)

/-- W1C bits of WSTAT. -/
def clearWstat (s : State) (lost bad : Bool) : State := { s with lost := s.lost && !lost, bad := s.bad && !bad }

/-- A host write of 1 clears BAD or LOST in WSTAT (R384). -/
def execWstatClear (v : BitVec 3) (s : State) : Host.Outcome State Fault Refusal :=
  .next (if hostCut s then s else clearWstat s (v.getLsbD 1) (v.getLsbD 2))

/-- WSTAT. -/
def wstat (s : State) : Nat :=
  s.acc.toNat * 2 ^ 32 + (if s.bad then 4 else 0) + (if s.lost then 2 else 0) + (if hostBusy s then 1 else 0)

/-- Aperture offset of the command window. -/
def windowAt : Nat := 0x8000000000
def inHostWindow (pa : Nat) : Bool := decide (windowAt ≤ pa) && decide (pa < windowAt + 4096)

/-- A byte of the command window as the host reads it. -/
def windowByte (s : State) (off : Nat) : Byte :=
  if off ≥ 0x08 && off < 0x0A then BitVec.ofNat 8 (s.lasid.toNat / 256 ^ (off - 0x08))
  else if off ≥ 0x10 && off < 0x18 then BitVec.ofNat 8 (wstat s / 256 ^ (off - 0x10))
  else 0

/-- A host write to the command window: a whole register at its place. -/
def windowWrite (s : State) (off : Nat) (bytes : List Byte) : State :=
  if off = 0 && bytes.length = 8 then writeLrec s (BitVec.ofNat 64 (leNat bytes))
  else if off = 8 && bytes.length = 2 then { s with lasid := BitVec.ofNat 16 (leNat bytes) }
  else if off = 16 && bytes.length = 8 then clearWstat s ((leNat bytes).testBit 1) ((leNat bytes).testBit 2)
  else s

/-- A host write through the aperture is performed at its home with cured data (R383, R392). -/
def execHostWrite (pa : BitVec 56) (bytes : List (BitVec 8)) (s : State) : Host.Outcome State Fault Refusal :=
  let p := pa.toNat
  if hostCut s then .next s
  else if inHostWindow p then .next (windowWrite s (p - windowAt) bytes)
  else
    let ws := (List.range bytes.length).filter (fun i => isNearPa (p + i) || isFarPa (p + i))
    let s := ws.foldl (fun s i => observe s none (.phys (p + i)) 1) s
    .next (writeAll s (ws.map (fun i => ⟨.phys (p + i), bytes.getD i 0, false⟩)) false false)

/-- A byte that the host reads: a poisoned line gives a value that the spec leaves open. -/
def hostByte (s : State) (pa : Nat) : State × Byte :=
  if isNearPa pa || isFarPa pa then
    let (s, psn) := checkLine s (Loc.phys pa).line
    let s := observe s none (.phys pa) 1
    if psn then
      let (i, s) := nextFree s
      (s, (Config.word i).setWidth 8)
    else (s, byteAt s (.phys pa))
  else if inHostWindow pa then (s, windowByte s (pa - windowAt))
  else (s, 0)

def hostBytes (s : State) (pa : Nat) : Nat → State × List Byte
  | 0 => (s, [])
  | n + 1 =>
    let (s, x) := hostByte s pa
    let (s, r) := hostBytes s (pa + 1) n
    (s, x :: r)

/-- A host read through the aperture returns bytes without tags (R383, R392). -/
def execHostRead (pa : BitVec 56) (n : Nat) (s : State) : Host.Outcome State Fault Refusal :=
  if hostCut s then .next s
  else
    let (s, bytes) := hostBytes s pa.toNat n
    .next { s with sent := s.sent ++ [.hostData pa.toNat bytes] }

end Sys2Proof.Machine
end

