-- ==== Sys2Proof/Machine/Perform.lean ====
section
/-!
DEFINITION. How operations in flight are performed and complete (R198, R232, R241–R247, R263, R278, R322, R375).
-/
namespace Sys2Proof.Machine

/-! ### The order of a brick's own accesses (R232, R260) -/

/-- The ranges that an operation reads or writes in the order of the brick's own accesses: for an engine operation, its
source. -/
def FlightKind.spans : FlightKind → List (Loc × Nat)
  | .load accs _ _ => accs.map (fun a => (a.loc, a.n))
  | .store puts _ => puts.map (fun p => (p.acc.loc, p.acc.n))
  | .atom reqs _ _ _ _ _ => reqs.map (fun r => (r.acc.loc, r.acc.n))
  | .ldtv head _ accs _ _ _ => (Loc.phys head, 64) :: accs.map (fun a => (a.loc, a.n))
  | .aon head _ _ puts tw _ _ _ => (Loc.phys head, 64) :: (puts ++ tw).map (fun p => (p.acc.loc, p.acc.n))
  | .tst puts _ _ => puts.map (fun p => (p.acc.loc, p.acc.n))
  | .tcom accs _ _ => accs.map (fun a => (a.loc, a.n))
  | .retr accs _ _ => accs.map (fun a => (a.loc, a.n))
  | .hodPut _ _ src _ => src.map (fun l => (l, 64))
  | .putw lines none _ => lines.map (fun l => (l.1, 64))
  | .sigw lines none _ _ _ _ _ _ => lines.map (fun l => (l.1, 64))
  | _ => []

/-- An access of the brick itself, with lane or uniform memory instructions. -/
def FlightKind.isAccess : FlightKind → Bool
  | .load _ _ _ => true
  | .ldtv _ _ _ _ _ _ => true
  | k => k.isWrite

/-- Two ranges share a byte. -/
def rangesMeet (x y : Loc × Nat) : Bool :=
  match x.1, y.1 with
  | .loc c o, .loc c' o' => c == c' && decide (o < o' + y.2) && decide (o' < o + x.2)
  | .phys p, .phys p' => decide (p < p' + y.2) && decide (p' < p + x.2)
  | _, _ => false

/-- An older access of the brick that overlaps is not yet performed, or the operation stands behind a FENCE.acq whose
earlier accesses have not completed. -/
def blocked (br : Brick) (f : Flight) : Bool :=
  let mine := f.kind.spans
  br.flights.any (fun g => decide (g.seq < f.seq) && !g.done && g.tEnd.isNone && g.kind.isAccess &&
    (f.kind.isAccess || g.kind.isWrite) && mine.any (fun x => g.kind.spans.any (rangesMeet x))) ||
  (f.kind.isAccess && acqHolds br f.seq)

/-- An operation can be performed now: a fill of a saved wall's hod is held (R283), and what a link out of service carries (R368). -/
def flightReady (s : State) (br : Brick) (f : Flight) : Bool :=
  !f.done && f.tEnd.isNone && decide (f.due ≤ s.clk) && !blocked br f && !f.kind.cutOff s && !(match f.kind with
    | .hodPut o _ _ _ => hodAway s o
    | _ => false)

/-- The brick's first operation of some kinds that can be performed. -/
def readyFlight (s : State) (br : Brick) (sel : FlightKind → Bool) : Option Flight :=
  br.flights.find? (fun f => sel f.kind && flightReady s br f)

/-! ### Completion -/

/-- Delivers what an operation leaves: registers and flags, or the trap in their place; it has completed. -/
def deliver (s : State) (b : Nat) (f : Flight) (d : Done) : State :=
  let d := d.final
  let s := modBrick s b (fun br => orFxAll (applyWrites br d.writes) d.fx)
  let s := match d.late with
    | some t => lateTrap s b f t
    | none => s
  endFlight s b f.seq

/-- The kinds that LOAD_COMPLETE performs. -/
def FlightKind.loads : FlightKind → Bool
  | .regs _ _ => true
  | .load _ _ _ => true
  | .atom _ _ _ _ dst _ => dst.isSome
  | .tst _ _ _ => true
  | .tcom _ _ _ => true
  | .retr _ _ _ => true
  | _ => false

/-- Performs an operation that delivers to registers. -/
def performLoadFlight (s : State) (b : Nat) (f : Flight) : State :=
  let run (r : State × Done) : State := deliver r.1 b f r.2
  match f.kind with
  | .regs ws late => run (s, ⟨ws, [], late⟩)
  | .load accs dst gov => run (performLoad s b accs dst gov)
  | .atom reqs op ty rm dst gov => run (performAtom s b op ty (.det rm) dst gov reqs)
  | .tst puts m gov => run (performTst s b m gov puts)
  | .tcom accs m gov => run (performCells s b m gov false accs)
  | .retr accs m gov => run (performCells s b m gov true accs)
  | _ => s

/-- A load's data and tags are written and its flight counter falls in order (R198). -/
def execLoadComplete (b : Nat) (s : State) : Host.Outcome State Fault Refusal :=
  match tabGet? s.bricks b with
  | none => .fault .noTarget
  | some br =>
    match readyFlight s br FlightKind.loads with
    | none => .next s
    | some f => .next (performLoadFlight s b f)

/-- The kinds that STORE_PERFORMED performs. -/
def FlightKind.stores : FlightKind → Bool
  | .store _ _ => true
  | .atom _ _ _ _ dst _ => dst.isNone
  | .aon _ _ _ _ _ _ _ stage => decide (stage ≥ 1)
  | .putw _ _ _ => true
  | .sigw lines _ _ _ _ _ _ _ => !lines.isEmpty
  | _ => false

/-- What an attempt of a versioned operation leads to. -/
def afterAttempt (b : Nat) (f : Flight) (clk : Nat) : Attempt → State
  | .done s d => deliver s b f d
  | .again s kind delay => setKind s b f.seq kind (clk + delay)
  | .trap s t => endFlight (lateTrap s b f t) b f.seq

/-- What the next step of a posted operation does: all its source lines are read, or one line is performed at its home; or it ends with
a trap. -/
inductive SendStep where
  | ended (s : State)
  | read (s : State) (data : List (List Byte × Bool))
  | sent (s : State) (rest : List (Loc × Nat × Loc)) (data : List (List Byte × Bool)) (green : Bool)
  deriving DecidableEq, Repr

/-- The next step of PUTW, SIGW (R263, R375): the source is read whole before its first line is sent. -/
def sendStep (s : State) (b : Nat) (f : Flight) (green : Bool) (lines : List (Loc × Nat × Loc)) (data : Option (List (List Byte × Bool))) :
    SendStep :=
  match deniedLines s lines data.isNone with
  | a :: l => .ended (denySend s b f (deniedCause s lines) (a :: l))
  | [] =>
    match data, lines with
    | none, _ =>
      (match readSource s b green (lines.map (·.1)) with
       | (s, some d) => .read s d
       | (s, none) => .ended (endFlight (reportTrap s b f (poisonOf (poisonedSource s (lines.map (·.1))))) b f.seq))
    | some (x :: xs), l :: rest => .sent (putLine s b x l.2.2) rest xs x.2
    | some d, _ => .sent s [] d false

/-- Performs a store, or the next step of a posted operation. -/
def performStoreFlight (s : State) (b : Nat) (br : Brick) (f : Flight) : State :=
  match f.kind with
  | .store puts gov => deliver (performStore s b puts gov) b f { Done.empty with late := denial s (puts.map (·.acc)) }
  | .atom reqs op ty rm dst gov =>
    let (s, d) := performAtom s b op ty (.det rm) dst gov reqs
    deliver s b f { d with writes := [], fx := [] }
  | .aon pa va twin puts tw gov n stage => afterAttempt b f s.clk (attemptAon s b br pa va twin puts tw gov n stage)
  | .putw lines data green =>
    (match sendStep s b f green lines data with
     | .ended s => s
     | .read s d => setKind s b f.seq (.putw lines (some d) green) f.due
     | .sent s rest d _ => if rest.isEmpty then endFlight s b f.seq else setKind s b f.seq (.putw rest (some d) green) f.due)
  | .sigw lines data flagVa flag add v green anyG =>
    (match sendStep s b f green lines data with
     | .ended s => s
     | .read s d => setKind s b f.seq (.sigw lines (some d) flagVa flag add v green anyG) f.due
     | .sent s rest d g => setKind s b f.seq (.sigw rest (some d) flagVa flag add v green (anyG || g)) f.due)
  | _ => endFlight s b f.seq

/-- A store or engine write is performed at its home and its counter falls (R233). -/
def execStorePerformed (b : Nat) (s : State) : Host.Outcome State Fault Refusal :=
  match tabGet? s.bricks b with
  | none => .fault .noTarget
  | some br =>
    match readyFlight s br FlightKind.stores with
    | none => .next s
    | some f => .next (performStoreFlight s b br f)

/-- Operations that attempt a versioned tile. -/
def FlightKind.attempts : FlightKind → Bool
  | .ldtv _ _ _ _ _ _ => true
  | .aon _ _ _ _ _ _ _ stage => stage == 0
  | _ => false

def performAttempt (s : State) (b : Nat) (br : Brick) (f : Flight) : State :=
  match f.kind with
  | .ldtv pa va accs p gov n => afterAttempt b f s.clk (attemptLdtv s b (fun s => applyOwn s b (br.flights.filter (fun g => decide (g.seq < f.seq)))) pa va accs p gov n)
  | .aon pa va twin puts tw gov n stage => afterAttempt b f s.clk (attemptAon s b br pa va twin puts tw gov n stage)
  | _ => s

/-- A versioned read or acquire retries after its 128-cycle wait, trapping after 65 failures (R241). -/
def execLdtvAttempt (b : Nat) (s : State) : Host.Outcome State Fault Refusal :=
  match tabGet? s.bricks b with
  | none => .fault .noTarget
  | some br =>
    match readyFlight s br FlightKind.attempts with
    | none => .next s
    | some f => .next (performAttempt s b br f)

/-! ### Hod fills, signals, the tape -/

def FlightKind.fills : FlightKind → Bool
  | .hodPut _ (some _) _ _ => true
  | _ => false

/-- A fill is performed; a poisoned source line gives a slot of zeros, green, and the trap (R278); so does one
that the switches refuse (R370, log 121). -/
def performFill (s : State) (b : Nat) (f : Flight) : State :=
  match f.kind with
  | .hodPut o (some n) src green =>
    if src.isEmpty then endFlight (zeroSlot s o n) b f.seq
    else match src.findSome? (outCheck s) with
    | some cause => endFlight (reportTrap (zeroSlot s o n) b f ⟨cause, 0, 1, 0, 0⟩) b f.seq
    | none =>
      match readSource s b green src with
      | (s, some lines) => endFlight (fillSlot s o n lines) b f.seq
      | (s, none) =>
        let bad := (src.find? (fun l => (metaAt s l).psn)).getD (.loc 0 0)
        endFlight (reportTrap (zeroSlot s o n) b f (poisonOf bad)) b f.seq
  | _ => s

/-- A filled hod slot is performed and the count rises in slot order (R278). -/
def execHodSlotPerformed (b : Nat) (s : State) : Host.Outcome State Fault Refusal :=
  match tabGet? s.bricks b with
  | none => .fault .noTarget
  | some br =>
    match readyFlight s br FlightKind.fills with
    | none => .next s
    | some f => .next (performFill s b f)

/-- A SIGW whose payload is performed. -/
def FlightKind.signals : FlightKind → Bool
  | .sigw lines _ _ _ _ _ _ _ => lines.isEmpty
  | _ => false

def performSignal (s : State) (b : Nat) (f : Flight) : State :=
  match f.kind with
  | .sigw _ _ va flag add v _ anyG =>
    (match outCheck s flag with
     | some cause => denySend s b f cause [⟨0, flag, va, 8, false⟩]
     | none =>
       (match signalFlag s b flag add v anyG with
        | (s, some t) => endFlight (reportTrap s b f t) b f.seq
        | (s, none) => endFlight s b f.seq))
  | _ => s

/-- Once every payload line is performed, the flag is updated as one atomic (R263). -/
def execSigwFlagUpdate (b : Nat) (s : State) : Host.Outcome State Fault Refusal :=
  match tabGet? s.bricks b with
  | none => .fault .noTarget
  | some br =>
    match readyFlight s br FlightKind.signals with
    | none => .next s
    | some f => .next (performSignal s b f)

/-- The first operation of a kind that has not completed. -/
def openFlight (br : Brick) (k : FlightKind) : Option Flight := br.flights.find? (fun f => f.kind == k && !f.done)

/-- Every tape line is performed in its segment and the seal's counter falls (R322). A line whose page is absent leaves the
seal waiting. -/
def execTapeSealComplete (b : Nat) (s : State) : Host.Outcome State Fault Refusal :=
  match tabGet? s.bricks b with
  | none => .fault .noTarget
  | some br =>
    match openFlight br .tapeSeal with
    | none => .next s
    | some f =>
      if !tapeQuiet br f.seq then .next s
      else
        match spillTape s b with
        | (s, .all) => .next (endFlight s b f.seq)
        | (s, .waits) => .next s
        | (s, .refused cause va) => .next (refuseLine s b (some f) cause va)

/-- A TAPE.REC, TAPE.BR or frame entry stands in the tape buffer and fc4 falls (R322). While the core's buffer holds more lines than
it has room for, the brick's oldest line is written first. -/
def execTapeRecordComplete (b : Nat) (s : State) : Host.Outcome State Fault Refusal :=
  match tabGet? s.bricks b with
  | none => .fault .noTarget
  | some br =>
    if bufferOver s br then
      match spillFirst s b br with
      | (s, .refused cause va) => .next (refuseLine s b (openFlight br .tapeRec) cause va)
      | (s, _) => .next s
    else
      match openFlight br .tapeRec with
      | none => .next s
      | some f => .next (endFlight s b f.seq)

/-! ### Arrivals (R269) -/

/-- The brick has an arrival that can be counted now. -/
def countable (s : State) (b : Nat) (br : Brick) : Bool :=
  br.arrMarks.any (fun m => m.full br && (br.det || (writesDone br m.upTo && !barAway s m.bar && arrivalOpen s b m.bar)))

/-- A brick's arrival is counted once its writes are performed, possibly completing the phase (R269). One of a deterministic launch
that has all its marks now, since a split has just left, is buffered with the course of the instruction before. -/
def execArrivalCounted (b : Nat) (s : State) : Host.Outcome State Fault Refusal :=
  match tabGet? s.bricks b with
  | none => .fault .noTarget
  | some br =>
    .next (if br.arrMarks.isEmpty then s
      else if br.det then modBrick s b (bufferMarks (courseEndOf (qOf s br) (br.L - 1))) else countMarks s b br.arrMarks)

end Sys2Proof.Machine
end

