-- ==== Sys2Proof/Machine/Traps.lean ====
section
/-!
DEFINITION. How results land and their flags follow (R35, R139), the collection window (R143, R144), the detection of a
shadow divergence (R360), and the entry into the trap slot (R350–R356).
-/
namespace Sys2Proof.Machine

/-! ### Landing -/

/-- Lands one fixed-latency result: its registers are written, its flags wait for the checks, at most 12 cycles. -/
def landOne (s : State) (b : Nat) (p : Pend) : State :=
  let (i, s) := if p.fx.isEmpty then (0, s) else nextFree s
  modBrick s b (fun br =>
    let br := applyWrites { br with pend := br.pend.erase p } p.writes
    if p.fx.isEmpty then br
    else { br with fxq := br.fxq ++ [{ due := p.lands + checkDelay i, seq := p.seq, fx := p.fx, split := p.split
                                       pc := p.pc, two := p.two, ten := p.ten }] })

/-- Lands the results of a brick that are due, oldest first. -/
def landAll (s : State) (b : Nat) (br : Brick) : State :=
  (br.pend.filter (fun p => decide (p.lands ≤ s.clk))).foldl (fun s p => landOne s b p) s

/-! ### Flags and the window -/

/-- The threads with an enabled exception. -/
def enabledFx (ten : Flags) (fx : List (Nat × Flags)) : List (Nat × Flags) := fx.filter (fun x => x.2 &&& ten != flagNone)

/-- Another instruction than the one that a window's trap reports has raised an exception (R144). -/
def TrapRec.another (r : TrapRec) (pc : Nat) : TrapRec :=
  { r with more := r.more || (decide (0x040#9 ≤ r.cause) && decide (r.cause ≤ 0x044#9) && r.addr != pc) }

/-- The flags of a form whose checks have passed are written; an enabled one opens the brick's window, or joins it, or, after
it has closed, only counts as another exception where it comes from another instruction: the window's trap may be taken, or wait
behind another one. Where the brick has already taken another
trap, it opens none and stands only as a flag: R143 says so of a precise trap of the same cycle, and the model takes the same for
one of an earlier cycle and for an imprecise one (log 107). -/
def writeFx (s : State) (b : Nat) (p : FxPend) : State :=
  modBrick s b (fun br =>
    let br := orFxAll { br with fxq := br.fxq.erase p } p.fx
    if (enabledFx p.ten p.fx).isEmpty then br
    else
      let e : WinExc := { pc := p.pc, two := p.two, split := p.split, fx := p.fx, ten := p.ten, seq := p.seq }
      match br.window with
      | some w => if s.clk < w + 16 then { br with winExc := br.winExc ++ [e] } else br
      | none =>
        if br.trap.isSome then { br with trap := br.trap.map (·.another p.pc), late := br.late.map (·.another p.pc) }
        else { br with window := some s.clk, winExc := [e] })

/-- The lowest enabled cause of some flags (R144). -/
def flagCause (fl : Flags) : BitVec 9 :=
  if fl.getLsbD 0 then 0x040#9 else if fl.getLsbD 1 then 0x041#9 else if fl.getLsbD 2 then 0x042#9
  else if fl.getLsbD 3 then 0x043#9 else 0x044#9

/-- The lowest thread of some enabled exceptions, its lowest cause, and the split of the exception that has that cause. -/
def lowestPair (l : List (Nat × Flags × Nat)) : Option (Nat × BitVec 9 × Nat) :=
  match l with
  | [] => none
  | x :: _ =>
    let t := (l.map (·.1)).foldl min x.1
    let mine := l.filter (·.1 == t)
    let cause := flagCause (mine.foldl (fun m y => m ||| y.2.1) flagNone)
    some (t, cause, ((mine.find? (fun y => flagCause y.2.1 == cause)).getD x).2.2)

/-- The report of a window (R144): the lowest address, its lowest thread, that thread's lowest cause. -/
def windowRec (s : State) (br : Brick) (l : List WinExc) : Option TrapRec :=
  let pc := (l.map (·.pc)).foldl min ((l.map (·.pc)).headD 0)
  let here := l.filter (fun e => e.pc == pc)
  let raised := here.flatMap (fun e => (enabledFx e.ten e.fx).map (fun x => (x.1, x.2 &&& e.ten, e.split)))
  match lowestPair raised with
  | none => none
  | some (t, cause, k) =>
    let sp := tabGet? br.splits k
    some { cycle := s.clk, cause := cause, two := here.any (·.two), prec := false, more := l.any (fun e => e.pc != pc), fatal := false
           reg := 0, split := k % 4, count := (raised.map (·.1)).eraseDups.length, thread := t, addr := pc
           mask := (sp.map (·.mask)).getD 0, aux0 := 0, aux1 := 0, ret := (sp.map (·.pc)).getD pc }

/-- The collection window closes 16 cycles after opening and the brick's trap is recorded (R143). A precise trap raised at issue in the
cycle in which it opened is taken first, and the window's exceptions then stand only as flags. Behind any other trap that comes
before the close the window's is taken afterwards (log 78). -/
def closeCollection (s : State) (b : Nat) (br : Brick) : State :=
  let s := modBrick s b (fun br => { br with window := none, winExc := [] })
  match br.trap, windowRec s br br.winExc with
  | none, some r => takeTrap s b r
  | some r0, some r => if r0.atIssue && br.window == some r0.cycle then s else modBrick s b (fun br => { br with late := br.late ++ [r] })
  | _, none => s

/-- The collection window closes 16 cycles after opening and the brick's trap is recorded (R143). -/
def execCollectionWindowClose (b : Nat) (s : State) : Host.Outcome State Fault Refusal :=
  match tabGet? s.bricks b with
  | none => .fault .noTarget
  | some br =>
    match br.window with
    | none => .next s
    | some w => .next (if s.clk < w + 16 then s else closeCollection s b br)

/-- A window that is due closes. -/
def closeDue (s : State) (b : Nat) : State :=
  match tabGet? s.bricks b with
  | some br => if br.window.any (fun w => decide (w + 16 ≤ s.clk)) then closeCollection s b br else s
  | none => s

/-- A form's flags are written once its datapath checks pass (R139): the first of the brick's that is due. -/
def execFxFlagWrite (b : Nat) (s : State) : Host.Outcome State Fault Refusal :=
  match tabGet? s.bricks b with
  | none => .fault .noTarget
  | some br =>
    match br.fxq.find? (fun p => decide (p.due ≤ s.clk)) with
    | none => .next s
    | some p => .next (writeFx (closeDue s b) b p)

/-! ### Shadow divergence -/

def divergenceRec (s : State) (d : Diverged) : TrapRec :=
  { cycle := s.clk, cause := 0x04A#9, two := d.two, prec := false, more := false, fatal := d.fatal, reg := 0, split := d.split % 4
    count := 1, thread := d.thread, addr := d.pc, mask := d.mask, aux0 := d.main, aux1 := d.shadow.setWidth 64, ret := d.pc }

/-- A divergence is detected: the brick stops for cause 0x04A. -/
def detect (s : State) (b : Nat) (d : Diverged) : State :=
  let s := modBrick s b (fun br => { br with divq := br.divq.erase d })
  reportLate s b d.split (divergenceRec s d)

/-- A datapath check detects a divergence and the brick stops for cause 0x04A (R360). -/
def execShadowDivergence (b : Nat) (s : State) : Host.Outcome State Fault Refusal :=
  match tabGet? s.bricks b with
  | none => .fault .noTarget
  | some br =>
    match br.divq.find? (fun d => decide (d.due ≤ s.clk)) with
    | none => .next s
    | some d => .next (detect s b d)

/-! ### Entering the slot -/

/-- The brick's issued instructions have completed (R350): their results and flags are written, the registers they interlock are
delivered, and every operation on a flight counter has completed, but for those that a deterministic launch buffers (log 31). -/
def Brick.settled (br : Brick) : Bool :=
  br.pend.isEmpty && br.fxq.isEmpty && br.divq.isEmpty && br.window.isNone && br.ilock.isEmpty &&
    br.flights.all (fun f => f.done || f.tEnd.isSome || f.fc.isNone)

/-- A trap-pending brick that can enter its partition's slot. -/
def slotReady (s : State) (br : Brick) : Bool :=
  br.trap.isSome && !br.inSlot && br.settled && (partOf s (partKey br.core br.part)).slot.isNone

/-- SY_TRAPINFO, as R354 lays it out: R52 puts the split's lane mask into it, and R354 puts the mask into SY_TRAPMASK and reserves
the low half of this word; the model follows R354 (log 106). -/
def infoWord (r : TrapRec) : W64 :=
  BitVec.ofNat 64 (r.cause.toNat * 2 ^ 55 + (if r.two then 2 ^ 54 else 0) + (if r.prec then 2 ^ 53 else 0) +
    (if r.more then 2 ^ 52 else 0) + (if r.fatal then 2 ^ 51 else 0) + r.reg.toNat * 2 ^ 45 + r.split % 4 * 2 ^ 43 +
    r.count % 64 * 2 ^ 37 + r.thread % 32 * 2 ^ 32)

/-- Where the reporting split resumes (R144, R356, R372): an imprecise report, but for those that name their own
instruction, resumes at the split's next unissued instruction. -/
def resumeAt (br : Brick) (r : TrapRec) : Nat :=
  if r.prec || r.cause == 0x04A#9 || r.cause == 0x140#9 then r.ret
  else ((tabGet? br.splits r.split).map (·.pc)).getD r.ret

/-- The handler's split (R352). -/
def handlerOf (s : State) (br : Brick) : Split :=
  { pc := br.vec.toNat, mask := br.threads, stack := [], gov := false, redisp := false, ready := s.clk + 1, held := 0, wait := none, path := 0
    pendFrame := none, tapeFault := false }

/-- The split whose form's trap is reported has used up what the trap came from: the tape divergence that an unwinding left
(R320). -/
def spendFault (r : TrapRec) (sp : Split) : Split := if r.atIssue && r.cause == 0x144#9 then { sp with tapeFault := false } else sp

/-- The trap is recorded and the handler's split starts with fresh banked registers (R350, R352, R354). -/
def enterSlot (s : State) (b : Nat) (br : Brick) (r : TrapRec) : State :=
  let s := modPart s (partKey br.core br.part) (fun p => { p with slot := some b })
  modBrick s b (fun br =>
    { dropBanked br with
      info := infoWord r, addr := BitVec.ofNat 64 r.addr, tmask := r.mask.setWidth 64, aux0 := r.aux0, aux1 := r.aux1
      ret := BitVec.ofNat 64 (resumeAt br r), repSplit := r.split, inSlot := true, trap := none
      tfault := if r.atIssue then spendAnswer r.split br.tfault else br.tfault
      splits := tabPut (tabMod br.splits r.split (spendFault r)) handlerSplit (handlerOf s br) })

/-- The entry of a brick (R350, R352): without a valid handler it is killed. -/
def slotEntry (s : State) (b : Nat) (br : Brick) (r : TrapRec) : State :=
  let sp := handlerOf s br
  let c : Ctx := ⟨b, handlerSplit, br, sp⟩
  if br.vec = 0 then killBrick s b r.cause (faultStruct r.cause r.aux0)
  else
    match landing s c br.vec with
    | (s, .ok) => enterSlot s b br r
    | (s, .fault) => brickFault s c kExec br.vec.toNat
    | (s, _) => killBrick s b r.cause (faultStruct r.cause r.aux0)

/-- A trap-pending brick enters its partition's free trap slot and starts its handler (R350). -/
def execTrapSlotEntry (b : Nat) (s : State) : Host.Outcome State Fault Refusal :=
  match tabGet? s.bricks b with
  | none => .fault .noTarget
  | some br =>
    match br.trap with
    | none => .next s
    | some r => .next (if slotReady s br then slotEntry s b br r else s)

end Sys2Proof.Machine
end

