-- ==== Sys2Proof/Machine/Wait.lean ====
section
/-!
DEFINITION. How parked instructions complete: outside a deterministic launch, and for the waits that are not synchronising
(R199, R209, R210, R260, R276, R278–R281, R302, R318, R326); and the synchronising operations of a deterministic launch,
evaluated against committed state (R259, R282, R299).
-/
namespace Sys2Proof.Machine

/-- The parked form as its own checks and traps see it. -/
def waitCtx (b k : Nat) (br : Brick) (sp : Split) (w : Wait) : Ctx := ⟨b, k, br, { sp with pc := w.pc }⟩
def waitForm (w : Wait) : Form := bareForm w.two false 0 .vec

/-- A parked form retires: its registers are written and the split goes on behind it. -/
def finishWait (s : State) (c : Ctx) (w : Wait) (ws : List RegWrite) : State :=
  modBrick s c.b (fun br =>
    let br := applyWrites br ws
    let br := br.modSplit c.k (fun sp => { sp with pc := w.pc + (waitForm w).len, wait := none, ready := max sp.ready (s.clk + 1) })
    if c.inHandler || w.counted then br else { br with L := br.L + 1 })

/-- A parked form traps at its own address; it has given up its places in queues. -/
def trapWait (s : State) (c : Ctx) (w : Wait) (t : TrapReq) : State :=
  let s := leaveOne s c.b c.k
  modSplit (takeTrap s c.b (preciseRec s c (waitForm w) t false)) c.b c.k (fun sp => { sp with wait := none })

/-- What a look at a parked form gives. -/
inductive Wake where
  | still
  /-- it retires with these register writes -/
  | done (s : State) (ws : List RegWrite)
  /-- it traps -/
  | trap (s : State) (t : TrapReq)
  /-- it stays parked, and something happened -/
  | turn (s : State)
  deriving DecidableEq, Repr

/-- The write of a value to the register of a parked form. -/
def waitWrite (c : Ctx) (d : Nat) (v : W64) (g : Bool) : List RegWrite := [.uni d v (c.gov || g)]

/-- Delivers a status, or its cause where the register is s0 (R273, R279). -/
def wakeStatus (s : State) (c : Ctx) (d : Nat) (status : BitVec 9) (v : W64) (g : Bool) : Wake :=
  if status != 0#9 && d == 0 then .trap s (trapOf c status) else .done s (waitWrite c d v g)

/-! ### Waits that are not synchronising -/

/-- Looks at a parked form. -/
def evalWait (s : State) (c : Ctx) (w : Wait) : Wake :=
  let br := c.br
  match w.op with
  | .give d v g => .done s (waitWrite c d v g)
  | .fail cause => .trap s (trapOf c cause)
  | .lost l => .trap s (lineTrap c l)
  | .fc n k upTo => if decide (fcValue br n ≤ k) then .done (modBrick s c.b (fun br => coverMarks br n upTo)) [] else .still
  | .semRel o upTo =>
    if !writesDone br upTo then .still
    else match releaseSem s o with
      | some s => .done s []
      | none => .trap s (trapOf c 0x106#9)
  | .exit => if br.arrMarks.isEmpty then .turn (exitLast s c) else .still
  | .accalloc _ _ _ =>
    if bankVictim s br.core == some c.b then .trap s (trapOf c 0x145#9) else .still
  | .accfree ks =>
    if arrayWork s br.core c.b (fun p => ks.any (fun i => tabGet? br.banks i == some p)) then .still else .done (freeBanks s c.b ks) []
  | .fence upTo cum =>
    if accessesDone br upTo then .done (modBrick s c.b (fun br => { br with cumRel := br.cumRel || cum })) [] else .still
  | .launch va d none =>
    if !writesDone br br.seq then .still
    else .turn (modSplit (submitLaunch s c.b c.k br va) c.b c.k
      (fun sp => { sp with wait := some { w with op := .launch va d (some 0) } }))
  | .tapeRev upTo =>
    if !tapeQuiet br upTo then .still
    else if br.tape.state != 2 then .trap s (trapOf c 0x14C#9) else .done (startReplay s c.b) []
  | .tapeClose upTo =>
    if br.tape.state = 0 then .trap s (trapOf c 0x14C#9)
    else if !tapeQuiet br upTo || spillBlocked s br then .still
    else match spillTape s c.b with
      | (s, .all) => .done (freeTape s c.b) []
      | (s, .waits) => .turn s
      | (s, .refused cause va) => .trap s (segTrap c cause va)
  | _ => .still

/-! ### Synchronising operations (R299) -/

/-- What the evaluation of a condition gives: the operation takes effect, traps, has to look again (true: at the same time,
false: at the next course end), with what it remembers. -/
inductive SyncRes where
  | done (s : State) (ws : List RegWrite)
  | trap (s : State) (t : TrapReq)
  /-- the status comes later -/
  | sent (s : State)
  | again (s : State) (op : WaitOp) (same : Bool)
  deriving DecidableEq, Repr

def SyncRes.ofWake (s : State) (op : WaitOp) : Wake → SyncRes
  | .done s ws => .done s ws
  | .trap s t => .trap s t
  | .turn s => .sent s
  | .still => .again s op false

/-- No other consumer, or producer, of a deterministic launch that is parked on the hod comes first. -/
def hodFirst (q : List (Nat × Nat)) (c : Ctx) : Bool := q.head?.all (· == (c.b, c.k))

/-- A split leaves a hod's queues. -/
def leaveHod (s : State) (o : ObjRef) (b k : Nat) : State :=
  let h := hodAt s o
  putHod s o { h with prods := h.prods.filter (· != (b, k)), cons := h.cons.filter (· != (b, k)) }

/-- A producer, or a consumer, whose condition did not hold is parked on the hod (R278–R280). -/
def parkProd (s : State) (o : ObjRef) (c : Ctx) : State :=
  let h := hodAt s o
  putHod s o { h with prods := if h.prods.contains (c.b, c.k) then h.prods else h.prods ++ [(c.b, c.k)] }

def parkCons (s : State) (o : ObjRef) (c : Ctx) : State :=
  let h := hodAt s o
  putHod s o { h with cons := if h.cons.contains (c.b, c.k) then h.cons else h.cons ++ [(c.b, c.k)] }

/-- A command that has waited for its slot is to be submitted, with its end time. -/
def submitHeld (s : State) (b id : Nat) (tEnd : Option Nat) : State :=
  modBrick s b (fun br => { br with flights := br.flights.map (fun f => if f.kind == .copyWait id then { f with kind := .copy id, tEnd := tEnd } else f) })

/-- A command into a hod reserves its slot as a synchronising operation and then moves in the course that follows (R281,
R282). -/
def syncHodCopy (s : State) (c : Ctx) (w : Wait) (id d : Nat) : SyncRes :=
  match tabGet? s.copies id with
  | none => .done s []
  | some x =>
    match x.hod with
    | none => .done s []
    | some (o, _) =>
      let s := commitRole s c o true
      let ticket := waitWrite c d (BitVec.ofNat 64 (x.num % 64)) false
      if (hodAt s o).closed then .done (acceptCopy (leaveHod (submitHeld s c.b id none) o c.b c.k) id x o) ticket
      else if !(hodFirst (hodAt s o).prods c && (hodAt s o).room) then .again (parkProd s o c) w.op false
      else
        let (s, n) := reserveSlot (leaveHod s o c.b c.k) o
        let s := { s with copies := tabPut s.copies id { x with hod := some (o, some n) } }
        .done (submitHeld s c.b id (some (courseEndOf (qOf s c.br) c.br.L))) ticket

/-- The bank that an ACCZ of another brick's bank asks for (R212). -/
def syncAccz (s : State) (c : Ctx) (w : Wait) (k : Nat) : SyncRes :=
  match physBank s c.br k with
  | none => .trap s (trapOf c 0x148#9)
  | some p =>
    match (bankAt s c.br.core p).own with
    | some b => if b == c.b then (if queueFull s c.br.core then .again s w.op true else .done (acceptZero s c p (BitVec.ofNat 4 k)) [])
      else .trap s (trapOf c 0x103#9)
    | none => if queueFull s c.br.core then .again s w.op true else .done (acceptZero s c p (BitVec.ofNat 4 k)) []

/-- A wait on a barrier as committed state answers it. -/
def syncBar (s : State) (c : Ctx) (o : ObjRef) (ph : Option Nat) (n d : Nat) (g : Bool) : SyncRes :=
  let s := voteBar s o
  let x := barAt s o
  let held : BarAnswer :=
    if x.ab then .now 0x100#9
    else match ph with
      | some p => if p < x.phase then .now 0#9 else .wait (some p) 0
      | none => if n = 0 then .wait (some x.phase) 0 else .wait none n
  if x.psn then .trap s (objPoison c o)
  else match held with
    | .now status => SyncRes.ofWake s (.barWait o ph n d g) (wakeStatus s c d status (status.setWidth 64) g)
    | .wait p m => .again s (.barWait o p m d g) false

/-- HOD.GET and HOD.TRY against committed state: the slot that the brick holds is freed first (R279). -/
def syncHodGet (s : State) (c : Ctx) (o : ObjRef) (d : Nat) (g : Bool) (freed : Option Nat) : SyncRes :=
  let held := (hodAt s o).heldSlot c.b
  let parked := (hodAt s o).cons.contains (c.b, c.k)
  let s := freeHeld (commitRole s c o false) o c.b
  let h := hodAt s o
  match hodAnswer h (if parked then (h.cons.idxOf? (c.b, c.k)).getD 0 else h.cons.length) parked with
  | .slot =>
    if parked && !hodFirst h.cons c then .again s (.hodGet o d g (freed.or held)) false
    else
      (match takeSlot (leaveHod s o c.b c.k) o c.b with
       | (s, .ok v) => .done s (waitWrite c d v g)
       | (s, .error l) => .trap s (lineTrap c l))
  | .closed => SyncRes.ofWake s (.hodGet o d g freed) (wakeStatus (leaveHod s o c.b c.k) c d 0x102#9 hodClosedWord g)
  | .empty => .again (parkCons s o c) (.hodGet o d g (freed.or held)) false

def syncHodTry (s : State) (c : Ctx) (o : ObjRef) (d : Nat) (g : Bool) : SyncRes :=
  let s := freeHeld (commitRole s c o false) o c.b
  match hodAnswer (hodAt s o) (hodAt s o).cons.length false with
  | .slot =>
    (match takeSlot s o c.b with
     | (s, .ok v) => .done s (waitWrite c d v g)
     | (s, .error l) => .trap s (lineTrap c l))
  | .closed => .done s (waitWrite c d hodClosedWord g)
  | .empty => .done s (waitWrite c d hodEmptyWord g)

/-- HOD.PUT's reservation against committed state (R282): the fill then belongs to the course that follows. -/
def syncHodPut (s : State) (c : Ctx) (w : Wait) (o : ObjRef) (seq : Nat) : SyncRes :=
  let h := hodAt s o
  if h.closed then .trap s (trapOf c 0x102#9)
  else
    let s := commitRole s c o true
    if !(hodFirst h.prods c && h.room) then .again (parkProd s o c) w.op false
    else
    let (s, n) := reserveSlot (leaveHod s o c.b c.k) o
    .done (giveSlot s c.b seq n (some (courseEndOf (qOf s c.br) c.br.L))) []

/-- SEM.ACQ and SEM.TRY against committed state, in the order of the queue (R276). -/
def syncSem (s : State) (c : Ctx) (w : Wait) (o : ObjRef) (d : Nat) (g tries : Bool) : SyncRes :=
  let s := voteSem s o
  let x := semAt s o
  let first := if tries then x.queue.isEmpty else hodFirst x.queue c
  if x.psn then .trap s (objPoison c o)
  else if first && x.count != 0 then
    .done (putSem s o { x with count := x.count - 1, queue := x.queue.filter (· != (c.b, c.k)) })
      (waitWrite c d (if tries then 1 else BitVec.ofNat 64 (x.count - 1)) g)
  else if tries then .done s (waitWrite c d 0 g)
  else .again (putSem s o { x with queue := if x.queue.contains (c.b, c.k) then x.queue else x.queue ++ [(c.b, c.k)] }) w.op false

/-- Evaluates a synchronising operation against committed state. -/
def syncTry (s : State) (c : Ctx) (w : Wait) : SyncRes :=
  let br := c.br
  let give (s : State) (d : Nat) (v : W64) (g : Bool) : SyncRes := .done s (waitWrite c d v g)
  match w.op with
  | .give d v g => give s d v g
  | .fail cause => .trap s (trapOf c cause)
  | .barWait o ph n d g => syncBar s c o ph n d g
  | .barQ o d g =>
    let s := voteBar s o
    if (barAt s o).psn then .trap s (objPoison c o) else give s d (barWord (barAt s o) c.b) g
  | .semAcq o d g => syncSem s c w o d g false
  | .semTry o d g => syncSem s c w o d g true
  | .hodPut o seq => syncHodPut s c w o seq
  | .hodGet o d g freed => syncHodGet s c o d g freed
  | .hodTry o d g => syncHodTry s c o d g
  | .hodCopy id d => syncHodCopy s c w id d
  | .accalloc n d g =>
    if reqFirst s br.core c.b c.k && canGrant s c.b n then
      let (s, v) := grantBanks (withdraw s c.b c.k) c.b n
      give s d v g
    else if bankVictim s br.core == some c.b then .trap s (trapOf c 0x145#9)
    else .again (queueReq s br.core ⟨c.b, c.k, n⟩) w.op false
  | .accz k => syncAccz s c w k
  | .bind slot x =>
    (match launchOf s br with
     | some l => if bindFree l slot x then .done (installBind s br.launch slot x) [] else .trap s (trapOf c 0x104#9)
     | none => .trap s (trapOf c 0x104#9))
  | .unbind slot =>
    (match launchOf s br with
     | some l => if (tabGet? l.binds slot).isSome then .done (removeBind s br.launch slot) [] else .trap s (trapOf c 0x104#9)
     | none => .trap s (trapOf c 0x104#9))
  | .atom seq reqs op ty rm dst gov =>
    if reqs.any (fun r => locDown s r.acc.loc) then .again s w.op true
    else
    let (s', r) := performAtom s c.b op ty (.det rm) (some dst) gov reqs
    let refused (s : State) : State := match flightOf s c.b seq, r.late with
      | some f, some t => if t.denied then oweTrap s c.b f t else s
      | _, _ => s
    let s' := modBrick (refused s') c.b (fun br => finishFlight br seq)
    (match r.late.filter (fun t => !t.denied) with
     | some t =>
       .trap (modBrick s' c.b (fun br => { br with marks := br.marks.filter (fun m => m.seq != seq) }))
         ⟨t.cause, 0, t.thread, t.count, none, t.aux0, t.aux1⟩
     | none => .done (modBrick s' c.b (fun br => orFxAll br r.fx)) r.writes)
  | .copyq ticket bytes d g =>
    if (runningCopy s c.b br ticket).isSome then .again s w.op false else give s d (copyAnswer s c.b br ticket bytes) g
  | .roleq role d g => give s d (roleWord s br role) g
  | .take n d =>
    if givenBusy br (8 * br.granNow) then .again s w.op true
    else
    let (s, g) := takeGranules s c.b br n
    give s d (BitVec.ofNat 64 (8 * g)) false
  | .launch va d none =>
    .sent (modSplit (submitLaunch s c.b c.k br va) c.b c.k
      (fun sp => { sp with wait := some { w with op := .launch va d (some 0), sync := none } }))
  | _ => .again s w.op true

/-- The synchronising wait of a split, with its time. -/
def Split.syncAt (sp : Split) : Option Nat := sp.wait.bind (·.sync)

/-- The earliest time of a brick's synchronising waits. -/
def Brick.syncAt (br : Brick) : Option Nat :=
  (br.splits.filterMap (fun x => x.2.syncAt)).foldl (fun m t => some (match m with
    | some x => min x t
    | none => t)) none

/-- A brick that comes first at time T: one with a lower identifier that waits at T or can still come to wait there. -/
def beforeAt (T : Nat) (inHandler : Bool) (br : Brick) : Bool :=
  (match br.syncAt with
   | some t => decide (t ≤ T)
   | none => false) || (!inHandler && decide (br.L ≤ T))

/-- Every live brick has reached the operation's time, everything up to it is committed, and no brick comes first. -/
def syncReady (s : State) (c : Ctx) (T : Nat) : Bool :=
  (liveBricks s c.br.launch).all (fun x => decide (x.2.L ≥ T) && (decide (x.2.id ≥ c.br.id) || !beforeAt T c.inHandler x.2)) &&
    committedTo s c.br.launch T

/-- The condition of a synchronising operation does not hold. -/
def syncHolds (s : State) (c : Ctx) (w : Wait) : Bool :=
  match syncTry s c w with
  | .again _ _ _ => false
  | _ => true

/-- All splits of a brick that wait synchronise, with a condition that does not hold, and none can go on. -/
def stuckBrick (s : State) (b : Nat) (br : Brick) : Bool :=
  br.trap.isNone && br.splits.all (fun x => match x.2.wait with
    | some w => (match w.op, w.sync with
      | .join _, _ => true
      | _, some _ => !syncHolds s (waitCtx b x.1 br x.2 w) w
      | _, none => false)
    | none => false)

/-- An operation waits only for what others do: an arrival for its phase, a fill or a command for its slot, an ATOM for its evaluation. -/
def Flight.idle (f : Flight) : Bool :=
  f.waitsPhase || (match f.kind with
    | .hodPut _ none _ _ => true
    | .copyWait _ => true
    | .syncAtom => true
    | _ => false)

/-- The launch has a wall that can be placed, or come back, now. -/
def launchGrows (s : State) (launch : Nat) : Bool :=
  [0, 1, 2, 3].any (fun d => match placeable s d with
    | some (key, _) => key == launch
    | none => false) ||
  s.walls.any (fun w => w.2.launch == launch && restorable s w.1 w.2)

/-- The deadlock of R299: every live brick waits for a condition that nothing of the launch can change (log 49). -/
def deadlocked (s : State) (launch : Nat) : Bool :=
  (liveBricks s launch).all (fun x => stuckBrick s x.1 x.2) &&
    s.bricks.all (fun x => x.2.launch != launch ||
      (x.2.flights.all (fun f => f.done || f.idle) && !arrayWork s x.2.core x.1 (fun _ => true))) &&
    !launchGrows s launch

/-- What the operation has done while its condition did not hold is taken back: HOD.GET holds the slot that it freed, while the ring
has not come round to it (R299, log 113). -/
def unfree (s : State) (b : Nat) (w : Wait) : State :=
  match w.op with
  | .hodGet o _ _ (some n) =>
    let h := hodAt s o
    if decide (h.tail ≤ n + h.n) then putHod s o { h with heldBy := h.heldBy ++ [(b, n)] } else s
  | _ => s

/-- A brick has the highest identifier among the live ones of its launch. -/
def isLastBrick (s : State) (br : Brick) : Bool := (liveBricks s br.launch).all (fun x => decide (x.2.id ≤ br.id))

/-- One evaluation of a parked synchronising operation. -/
def syncStep (s : State) (c : Ctx) (w : Wait) (T : Nat) : State :=
  if deadlocked s c.br.launch && isLastBrick s c.br then trapWait (unfree s c.b w) c w (trapOf c 0x108#9)
  else if !syncReady s c T then s
  else
    match syncTry s c w with
    | .done s ws => finishWait s c w ws
    | .trap s t => trapWait s c w t
    | .sent s => s
    | .again s' op same =>
      if same then modSplit s c.b c.k (fun sp => { sp with held := s.clk + 1 })
      else if c.inHandler then trapWait s c w (trapOf c 0x108#9)
      else
        let T' := T + qOf s c.br
        modBrick s' c.b (fun br =>
          { (br.modSplit c.k (fun sp => { sp with wait := some { w with op := op, sync := some T' }, held := s.clk + 1 })) with L := max br.L T' })

/-- A synchronising operation evaluates its condition against committed state (R299). -/
def execSyncOpEvaluate (b : Nat) (k : Nat) (s : State) : Host.Outcome State Fault Refusal :=
  match tabGet? s.bricks b with
  | none => .fault .noTarget
  | some br =>
    match tabGet? br.splits k with
    | none => .fault .noTarget
    | some sp =>
      match sp.wait with
      | none => .next s
      | some w =>
        match w.sync with
        | none => .next s
        | some T => .next (syncStep s (waitCtx b k br sp w) w T)

/-! ### One parked split -/

/-- What becomes of a parked split that is not synchronising: none while it has to wait. While the brick has a trap pending, a
parked form still completes, and one that would trap stays as it is (R350, R351). -/
def wakeSplit (s : State) (b k : Nat) : Option State :=
  match tabGet? s.bricks b with
  | none => none
  | some br =>
    match tabGet? br.splits k with
    | none => none
    | some sp =>
      match sp.wait with
      | none => none
      | some w =>
        if w.sync.isSome || (tabGet? s.walls br.wall).any (·.saved) || br.frozen k then none
        else
          let c := waitCtx b k br sp w
          match evalWait s c w with
          | .still => none
          | .done s ws => some (finishWait s c w ws)
          | .trap s t => if br.trap.isSome then none else some (trapWait s c w t)
          | .turn s => some s

end Sys2Proof.Machine
end

