-- ==== Sys2Proof/Machine/Commit.lean ====
section
/-!
DEFINITION. The commits of a deterministic launch (R238, R259, R282, R298, R362, R382): the buffers of one course end are
applied in ascending brick identifier, each brick's in its issue order.
-/
namespace Sys2Proof.Machine

/-- The report of a check made at the commit: the form's split as it stands (R282). -/
def commitLate (s : State) (b : Nat) (f : Flight) (cause : BitVec 9) : LateTrap :=
  match (tabGet? s.bricks b).bind (fun br => tabGet? br.splits f.split) with
  | some sp => ⟨cause, lowThread sp.mask, (threadsOf sp.mask).length, 0, 0⟩
  | none => ⟨cause, 0, 1, 0, 0⟩

/-- A buffered form fails its check: no effect, and the trap is owed. -/
def commitFails (s : State) (b : Nat) (f : Flight) (cause : BitVec 9) : State :=
  endFlight (oweTrap s b f (commitLate s b f cause)) b f.seq

/-- A buffered form meets a poisoned object: no effect, and the trap is owed (R268, R362). -/
def commitPoison (s : State) (b : Nat) (f : Flight) (o : ObjRef) : State :=
  endFlight (oweTrap s b f { commitLate s b f 0x146#9 with aux0 := BitVec.ofNat 64 o.code, aux1 := BitVec.ofNat 64 o.index }) b f.seq

/-- A buffered operation stays, with no end time: it waits for what others do. -/
def commitWaits (s : State) (b : Nat) (f : Flight) : State :=
  modBrick s b (fun br => { br with flights := br.flights.map (fun g => if g.seq == f.seq then { g with tEnd := none } else g) })

/-- A posted operation is committed: refused lines and a poisoned source owe a trap; `next` follows the lines (R263, R372, R375). -/
def commitSend (s : State) (b : Nat) (f : Flight) (green : Bool) (lines : List (Loc × Nat × Loc)) (refused : List Acc)
    (next : State → Bool → State × Option LateTrap) : State :=
  match refused with
  | a :: l => denySend s b f ((outCheck s a.loc).getD (deniedCause s lines)) (a :: l)
  | [] =>
    match readSource s b green (lines.map (·.1)) with
    | (s, none) => endFlight (oweTrap s b f (poisonOf (poisonedSource s (lines.map (·.1))))) b f.seq
    | (s, some d) =>
      let (s, g) := putAll s b lines d
      (match next s g with
       | (s, some t) => endFlight (oweTrap s b f t) b f.seq
       | (s, none) => endFlight s b f.seq)

/-- An arrival is committed (R269, R282): the current phase counts it, or, while that has one of the brick, a later one. -/
def commitArrival (s : State) (b : Nat) (f : Flight) (o : ObjRef) : State :=
  let s := voteBar s o
  let x := barAt s o
  if x.psn then commitPoison s b f o
  else if !x.ab && x.e = 0 then commitFails s b f 0x105#9
  else commitWaits s b f

/-- Applies one buffered operation. -/
def commitFlight (s : State) (b : Nat) (br : Brick) (f : Flight) : State :=
  let fin (s : State) : State := endFlight s b f.seq
  match f.kind with
  | .store puts gov =>
    fin (match denial s (puts.map (·.acc)) with
      | some t => oweTrap (performStore s b puts gov) b f t
      | none => performStore s b puts gov)
  | .atom reqs op ty rm dst gov =>
    let (s, d) := performAtom s b op ty (.det rm) dst gov reqs
    fin (match d.late with
      | some t => oweTrap s b f t
      | none => s)
  | .aon pa va twin puts tw gov n _ =>
    (match commitAon s b br pa va twin puts tw gov n with
     | .done s _ => fin s
     | .again s kind delay => setKind s b f.seq kind (s.clk + delay)
     | .trap s t => fin (oweTrap s b f t))
  | .hodPut _ _ _ _ => performFill s b f
  | .copy id =>
    let (due, s) := freeDue s
    { s with copies := tabMod s.copies id (fun x => { x with started := true, due := due }) }
  | .tlbi _ _ _ _ _ _ _ =>
    let f := { f with tEnd := none }
    let s := modBrick s b (fun br => { br with flights := br.flights.map (fun g => if g.seq == f.seq then f else g) })
    (tlbiStep s b ((tabGet? s.bricks b).getD br) f).getD s
  | .putw lines _ green => commitSend s b f green lines (deniedLines s lines true) (fun s _ => (s, none))
  | .sigw lines _ va flag add v green anyG =>
    commitSend s b f green lines (deniedLines s (lines ++ [(flag, va, flag)]) true) (fun s g => signalFlag s b flag add v (anyG || g))
  | .coll key =>
    commitColl (commitWaits s b f) b f key
  | .barInit o e => fin (initBar s o e)
  | .barArr o _ => commitArrival s b f o
  | .semInit o v => fin (serveQueue (putSem s o { semAt s o with count := v }) o)
  | .semRel o =>
    if (semAt (voteSem s o) o).psn then commitPoison (voteSem s o) b f o
    else (match releaseSem s o with
     | some s => fin s
     | none => commitFails s b f 0x106#9)
  | .hodInit o =>
    (match initHod s o with
     | some s => fin s
     | none => commitFails s b f 0x107#9)
  | .hodClose o => fin (closeHod s o)
  | .give role rows => fin (setPool (modBrick s b (fun br => { br with gran := br.gran - rows / 8 })) br role (poolOf s br role + rows))
  | .gone killed => if br.flights.any Flight.waitsPhase then commitWaits s b f else fin (endObjects s b killed)
  | _ => fin s

/-- An operation that a commit has to apply. A command that has been submitted only has to end. -/
def uncommitted (s : State) (f : Flight) : Bool :=
  !f.done && f.tEnd.isSome &&
    (match f.kind with
     | .copy id => (tabGet? s.copies id).any (fun x => !x.started)
     | _ => true)

/-- The end times of a launch's buffers. -/
def pendingEnds (s : State) (launch : Nat) : List Nat :=
  (s.bricks.filter (fun x => x.2.launch == launch)).flatMap (fun x => (x.2.flights.filter (uncommitted s)).filterMap (·.tEnd))

/-- The course end that is committed next. -/
def nextCommit (s : State) (launch : Nat) : Option Nat :=
  match pendingEnds s launch with
  | [] => none
  | t :: l => some (l.foldl min t)

/-- A command that a commit has submitted has not ended: later commits wait for it (R345). -/
def copyRuns (s : State) (launch : Nat) : Bool :=
  s.bricks.any (fun x => x.2.launch == launch && x.2.flights.any (fun f => !f.done && f.tEnd.isSome &&
    (match f.kind with
     | .copy id => (tabGet? s.copies id).any (·.started)
     | _ => false)))

/-- A versioned store that a commit has met a foreign versioned write with waits for its next attempt: what follows it waits
too (R242). -/
def versionWaits (s : State) (launch : Nat) : Bool :=
  s.bricks.any (fun x => x.2.launch == launch && x.2.flights.any (fun f => !f.done && f.tEnd.isSome && decide (f.due > s.clk) &&
    (match f.kind with
     | .aon _ _ _ _ _ _ n _ => decide (n ≥ 1)
     | _ => false)))

/-- A buffered operation cannot be applied yet: a fill of a saved wall's hod (R283), or one that needs a link that is out of service
(R368). -/
def heldAtCommit (s : State) (f : Flight) : Bool :=
  f.kind.cutOff s || (match f.kind with
    | .hodPut o _ _ _ => hodAway s o
    | _ => false)

/-- A versioned read that looks again, since it met a versioned write of another launch: what the brick has buffered behind it is not
committed before it (R232, R241). -/
def FlightKind.isVersioned : FlightKind → Bool
  | .ldtv _ _ _ _ _ _ => true
  | _ => false

/-- A commit stands still. -/
def commitStops (s : State) (launch : Nat) : Bool := copyRuns s launch || versionWaits s launch

/-- Nothing holds the commit: every live brick has reached its time, no write-back waits for the array with that end time, every command
of an earlier commit has ended, no versioned read looks again, and all that it applies can be applied. -/
def commitReady (s : State) (launch T : Nat) : Bool :=
  !commitStops s launch &&
    s.bricks.all (fun x => x.2.launch != launch ||
      ((!x.2.alive || decide (x.2.L ≥ T)) &&
        x.2.flights.all (fun f => f.done || match f.tEnd with
          | some e => if f.kind == .accwb then decide (e > T) else decide (e > T) || (e == T && !heldAtCommit s f)
          | none => !f.kind.isVersioned)))

/-- Applies a brick's operations of a course end in their order, as far as a command that it submits. -/
def commitSeqs (s : State) (b : Nat) : List Nat → State
  | [] => s
  | q :: l =>
    match tabGet? s.bricks b with
    | none => s
    | some br =>
      match br.flights.find? (fun f => f.seq == q) with
      | none => commitSeqs s b l
      | some f =>
        let s := countWaiting (commitFlight s b br f) br.launch
        if commitStops s br.launch then s else commitSeqs s b l

def commitBricks (s : State) (T : Nat) : List Nat → State
  | [] => s
  | b :: l =>
    match tabGet? s.bricks b with
    | none => commitBricks s T l
    | some br =>
      let s := commitSeqs s b ((br.flights.filter (fun f => uncommitted s f && f.tEnd == some T)).map (·.seq))
      if commitStops s br.launch then s else commitBricks s T l

/-- A course's buffers are applied once every live brick has reached its end time (R298). -/
def execCourseCommit (lid : Nat) (s : State) : Host.Outcome State Fault Refusal :=
  match tabGet? s.launches lid with
  | none => .fault .noTarget
  | some _ =>
    match nextCommit s lid with
    | none => .next s
    | some T => .next (if commitReady s lid T then commitBricks s T (bricksById s lid) else s)

end Sys2Proof.Machine
end

