-- ==== Sys2Proof/Machine/ConvertForms.lean ====
section
/-!
DEFINITION. The converting forms CVT, CVTN and PACKHB (R134–R138).
-/
namespace Sys2Proof.Machine


/-- How an element of lane i = 2t + e rounds: stochastically it draws from the state after the step (R81). -/
def convRnd (s : State) (c : Ctx) (rm : Rm) (i : Nat) (high : Bool) : Rounding :=
  roundingOf rm c.br.rm (if high then srDrawHi (srOf s c.br) i else srDraw (srOf s c.br) i)

/-- The exact value of a narrow source element held in a half, with the pair that goes with it (R134, R135). -/
def narrowVal (ty : Ty) (half pair : Nat) : FVal :=
  if ty.isBlock then blockVal ty (half % 2 ^ ty.width) (pair % 65536) else elemVal ty (half % 2 ^ ty.width)

/-- The halves of its source that CVT reads: both, unless one 32-bit side is read for a 64-bit destination. -/
def cvtReads (t1 t2 : Ty) (hi : Bool) : Bool × Bool :=
  if t1.width = 64 && t2.width ≠ 64 then (!hi, hi) else (true, true)

/-- The threads for which a zero point read by CVT is too large (R135). -/
def badZeros (c : Ctx) (v : Reg) (t2 : Ty) (h0 h1 : Bool) : List Nat :=
  c.ts.filter (fun t => (h0 && zeroPointBad t2 (c.h v t 0).toNat) || (h1 && zeroPointBad t2 (c.h v t 1).toNat))

/-- One thread of CVT (R134). -/
def cvtThread (s : State) (cx : Ctx) (d a v : Reg) (rm : Rm) (t1 t2 : Ty) (hi : Bool) (t : Nat) : ThreadOut :=
  let e := if hi then 1 else 0
  let one (x : FVal) (i : Nat) : Nat × Flags := cvtElem t1 (convRnd s cx rm i false) x
  if t1.width = 64 then
    (if t2.width = 64 then
      let r := one (elemVal t2 (cx.w a t).toNat) (2 * t)
      (cx.putW d t (BitVec.ofNat 64 r.1) (cvtTag t1 t2 r.2 (cx.wG a t)), r.2)
    else
      let r := one (narrowVal t2 (cx.h a t e).toNat (cx.h v t e).toNat) (2 * t + e)
      (cx.putW d t (BitVec.ofNat 64 r.1) (cvtTag t1 t2 r.2 (cx.hG a t e)), r.2))
  else if t2.width = 64 then
    let r := one (elemVal t2 (cx.w a t).toNat) (2 * t + e)
    ([cx.putH d t e (BitVec.ofNat 32 r.1) (cvtTag t1 t2 r.2 (cx.wG a t))], r.2)
  else
    let r (e : Nat) := one (narrowVal t2 (cx.h a t e).toNat (cx.h v t e).toNat) (2 * t + e)
    ([cx.putH d t 0 (BitVec.ofNat 32 (r 0).1) (cvtTag t1 t2 (r 0).2 (cx.hG a t 0)),
      cx.putH d t 1 (BitVec.ofNat 32 (r 1).1) (cvtTag t1 t2 (r 1).2 (cx.hG a t 1))], (r 0).2 ||| (r 1).2)

/-- Converts one element into one element of another type (R134). -/
def execCvt (d : Reg) (a : Reg) (c : Reg) (rm : Rm) (t1 : Ty) (t2 : Ty) (hi : Bool) (st : BitVec 3) (s : State) :
    Host.Outcome State Fault Refusal :=
  let (h0, h1) := cvtReads t1 t2 hi
  let regs := if t2.isBlock then [a, c] else [a]
  let f := { laneForm true st regs d with chk := regs.map (fun r => (r.toNat, h0, h1)) }
  issueConv s f (rm == .rsr) (fun s' cx =>
    match (if t2.isBlock then badZeros cx c t2 h0 h1 else []) with
    | t :: ts => .trap s' (trapThread 0x142#9 t (ts.length + 1) 0)
    | [] => fpThreads s' cx f 4 (cvtThread s' cx d a c rm t1 t2 hi) (fmtOf t1))

/-- Result k of CVTN for one thread: bits, flags and tag (R136). -/
def cvtnElem (s : State) (c : Ctx) (a b : Reg) (rm : Rm) (t1 t2 : Ty) (t k : Nat) : Nat × Flags × Bool :=
  let per := if t2 == .f64 then 1 else 2
  let fromB := decide (k ≥ per)
  let r := if fromB then b else a
  let e := k % 2
  let rd := convRnd s c rm (2 * t + e) fromB
  let (v, g) :=
    if t2 == .f64 then (elemVal t2 (c.w r t).toNat, c.wG r t)
    else (elemVal t2 (c.h r t e).toNat, c.hG r t e)
  let (x, fl) := cvtElem t1 rd v
  (x, fl, cvtTag t1 t2 fl g)

/-- One thread of CVTN: the results fill the whole of d, or one half of it. -/
def cvtnThread (s : State) (c : Ctx) (d a b : Reg) (rm : Rm) (t1 t2 : Ty) (hi : Bool) (t : Nat) : ThreadOut :=
  let n := if t2 == .f64 then 2 else 4
  let w := t1.width
  let rs := (List.range n).map (cvtnElem s c a b rm t1 t2 t)
  let fl := rs.foldl (fun acc r => acc ||| r.2.1) flagNone
  let bits := (List.range n).foldl (fun acc k => acc + (rs.getD k (0, flagNone, false)).1 * 2 ^ (k * w)) 0
  if n * w = 64 then
    let g (l : List (Nat × Flags × Bool)) : Bool := l.any (fun r => r.2.2)
    ([c.putH d t 0 (BitVec.ofNat 32 bits) (g (rs.take (n / 2))), c.putH d t 1 (BitVec.ofNat 32 (bits / 2 ^ 32)) (g (rs.drop (n / 2)))], fl)
  else ([c.putH d t (if hi then 1 else 0) (BitVec.ofNat 32 bits) (rs.any (fun r => r.2.2))], fl)

/-- Narrows several values into one register (R136). -/
def execCvtn (d : Reg) (a : Reg) (b : Reg) (rm : Rm) (t1 : Ty) (t2 : Ty) (hi : Bool) (st : BitVec 3) (s : State) :
    Host.Outcome State Fault Refusal :=
  let f := laneForm true st [a, b] d
  issueConv s f (rm == .rsr) (fun s' c => fpThreads s' c f 6 (cvtnThread s' c d a b rm t1 t2 hi))

/-- The block of element e of thread t in PACKHB (R137). -/
def packBlock (t1 t2 : Ty) (t e : Nat) : Nat := if t1 == .q2 || t2 == .f64 then 0 else (2 * t + e) / 32

/-- The elements of a thread: its halves, or the whole register. -/
def packElems (t2 : Ty) : List Nat := if t2 == .f64 then [0] else [0, 1]

/-- The value of an element of PACKHB's source. -/
def packVal (c : Ctx) (a : Reg) (t2 : Ty) (t e : Nat) : FVal :=
  if t2 == .f64 then elemVal t2 (c.w a t).toNat else elemVal t2 (c.h a t e).toNat

/-- The values of the active elements of a block. -/
def packVals (c : Ctx) (a : Reg) (t1 t2 : Ty) (blk : Nat) : List FVal :=
  c.ts.flatMap (fun t => ((packElems t2).filter (fun e => packBlock t1 t2 t e == blk)).map (packVal c a t2 t))

/-- The number of blocks. -/
def packBlocks (t1 t2 : Ty) : Nat := if t1 == .q2 || t2 == .f64 then 1 else 2

/-- The pairs that PACKHB encodes against: read from sb, or computed; the pair of an unused block is zero. -/
def packPairs (c : Ctx) (a sb : Reg) (t1 t2 : Ty) (given : Bool) (gap : Nat) : List Nat :=
  (List.range (packBlocks t1 t2)).map (fun j =>
    if given then (c.u sb).toNat / 2 ^ (16 * j) % 65536 else packScales t1 gap (packVals c a t1 t2 j))

/-- One thread of PACKHB (R137, R138). -/
def packThread (s : State) (c : Ctx) (d a : Reg) (rm : Rm) (t1 t2 : Ty) (given : Bool) (pairs : List Nat) (t : Nat) :
    ThreadOut :=
  let r (e : Nat) : Nat × Flags :=
    packElem t1 (pairs.getD (packBlock t1 t2 t e) 0) given (convRnd s c rm (2 * t + e) false) (packVal c a t2 t e)
  if t2 == .f64 then (c.putW d t (BitVec.ofNat 64 (r 0).1) true, (r 0).2)
  else ([c.putH d t 0 (BitVec.ofNat 32 (r 0).1) true, c.putH d t 1 (BitVec.ofNat 32 (r 1).1) true], (r 0).2 ||| (r 1).2)

/-- Packs floating values into block elements with computed or given scales (R137). -/
def execPackhb (d : Reg) (a : Reg) (sb : Reg) (rm : Rm) (t1 : Ty) (t2 : Ty) (given : Bool) (gap : BitVec 4) (st : BitVec 3) (s : State) :
    Host.Outcome State Fault Refusal :=
  let f0 := laneForm true st [a] d
  let f := { f0 with unis := [sb.toNat], rd := (if given then f0.rd ++ [nUni sb] else f0.rd)
                     wr := (if given then f0.wr else f0.wr ++ [nUni sb]) }
  issueConv s f (rm == .rsr) (fun s' c =>
    let pairs := packPairs c a sb t1 t2 given gap.toNat
    if given && pairs.any (zeroPointBad t1) then .trap s' (trapOf c 0x142#9)
    else
      let out := packThread s' c d a rm t1 t2 given pairs
      let g := c.ts.any (fun t => if t2 == .f64 then c.wG a t else (c.hG a t 0 || c.hG a t 1))
      let w := (List.range pairs.length).foldl (fun acc j => acc + pairs.getD j 0 * 2 ^ (16 * j)) 0
      let ws := c.ts.flatMap (fun t => (out t).1) ++ (if given then [] else [c.putU sb (BitVec.ofNat 64 w) g])
      .done (pushFp s' c f 12 ws (flagList c.ts (fun t => (out t).2)) (fun t => mainOf (out t).1)))

end Sys2Proof.Machine
end

