-- ==== Sys2Proof/Machine/Cure.lean ====
section
/-!
DEFINITION. The cure unit, the reads of CST, the marking and reading of tags, and the reads of FX (R140, R179–R185).
-/
namespace Sys2Proof.Machine


/-- The policy of CURE (R179). -/
structure Policy where
  tol   : FVal
  maxp  : Nat
  grace : Nat
  cf    : FVal
  deriving DecidableEq, Repr

/-- The policy that a pair of uniform registers holds, or none when it is invalid. -/
def policyOf (p0 p1 : W64) : Option Policy :=
  let tol := fUnpack fmtF64 p0.toNat
  let cf := fUnpack fmtF32 (p1.toNat % 2 ^ 32)
  let maxp := p1.toNat / 2 ^ 40 % 65536
  let tolOk := match tol with
    | .fin n m _ => !n || m == 0
    | _ => false
  let cfOk := match cf with
    | .fin n m _ => !n && m != 0
    | _ => false
  if p1.toNat / 2 ^ 56 != 0 || !tolOk || !cfOk || maxp == 0 then none
  else some ⟨tol, maxp, p1.toNat / 2 ^ 32 % 256, cf⟩

/-- |a| ≤ |b| · |c| for finite values. -/
def absLeMul (a b c : FVal) : Bool :=
  match a, b, c with
  | .fin _ ma ea, .fin _ mb eb, .fin _ mc ec => magLe ma ea (mb * mc) (eb + ec)
  | _, _, _ => false

/-- |a| ≤ |b| for finite values. -/
def absLe (a b : FVal) : Bool := absLeMul a b (.fin false 1 0)

/-- Two finite values added exactly; anything else is not finite. -/
def pairSum (a b : FVal) : FVal :=
  match a, b with
  | .fin n m e, .fin n' m' e' => let (x, y, z) := addFin n m e n' m' e' false; .fin x y z
  | .fin _ _ _, y => y
  | x, _ => x

/-- What a pass of CURE does in one thread: the new CST, whether the test passed, whether it trips, and the result. -/
structure CurePass where
  cst  : Cst
  pass : Bool
  trip : Bool
  fail : Bool
  bits : Nat
  fl   : Flags
  deriving DecidableEq, Repr

/-- One thread of CURE (R181). -/
def curePass (f : Fmt) (rd : Rounding) (p : Policy) (cst : Cst) (x r g : FVal) : CurePass :=
  let bad := isSpecial x || isSpecial r || isSpecial g
  let pass := !bad && (if isZero x then absLe r p.tol else absLeMul r p.tol x)
  let last := fUnpack fmtF64 cst.last.toNat
  let stuck := cst.v && (bad || !(match last with
    | .fin _ _ _ => absLeMul r p.cf last
    | _ => true))
  let fails := if pass then 0 else if stuck then min 255 (cst.fail + 1) else 0
  let passes := if pass then cst.pass else min 131071 (cst.pass + 1)
  let lastBits : Nat :=
    match r with
    | .fin _ m e => if bad then fInf fmtF64 false else (fRound fmtF64 (.det .rne) false m e).1
    | _ => fInf fmtF64 false
  let res := if bad then (f.nanBits, flagInvalid) else fFma f rd (negate r) g x
  { cst := ⟨BitVec.ofNat 64 lastBits, passes, fails, true⟩
    pass := pass
    trip := !pass && (decide (fails > p.grace) || decide (passes > p.maxp))
    fail := decide (fails > p.grace)
    bits := res.1
    fl := res.2 }

/-- The residual of CURE: one register, or the exact sum of a pair (R181). -/
def cureR (c : Ctx) (ty : Ty) (b : Reg) (t : Nat) : FVal :=
  let hi := fUnpack fmtF64 (c.w b t).toNat
  if ty == .f64 then pairSum hi (fUnpack fmtF64 (c.w (nxt b) t).toNat) else hi

/-- A thread's pass of CURE, on the registers of the form. -/
def cureThread (c : Ctx) (a b g : Reg) (rm : Rm) (ty : Ty) (e : Nat) (p : Policy) (t : Nat) : CurePass :=
  let x := if ty == .f64 then fUnpack fmtF64 (c.w a t).toNat else fUnpack fmtF32 (c.h a t e).toNat
  curePass (if ty == .f64 then fmtF64 else fmtF32) (c.rnd rm) p (c.br.cstOf t) x (cureR c ty b t)
    (fUnpack fmtF64 (c.w g t).toNat)

/-- The CST of every active thread after the pass. -/
def cureCst (s : State) (c : Ctx) (r : Nat → CurePass) : State :=
  modBrick s c.b (fun br => { br with cst := c.ts.foldl (fun m t => tabSet m t Cst.start (r t).cst) br.cst })

/-- A datapath fault or an armed shadow fault meets the form: its checks will not pass, and it will issue again (R360). -/
def Ctx.diverging (c : Ctx) : Bool :=
  c.br.dpFault.isSome || (match c.br.armed with
    | some (.fp t) => c.act t
    | _ => false)

/-- Tests a residual against the policy, updates CST and writes the corrected value or traps (R181). DESIGN CHOICE (log 129): an issue
whose result diverges leaves CST as it was, since RTE issues it again (R360). -/
def execCure (d : Reg) (a : Reg) (b : Reg) (g : Reg) (rm : Rm) (ty : Ty) (hi : Bool) (sp : Reg) (st : BitVec 3) (s : State) :
    Host.Outcome State Fault Refusal :=
  let e := if hi then 1 else 0
  let rs := if ty == .f64 then [b, (nxt b)] else [b]
  let f : Form :=
    { laneForm true st (a :: rs ++ [g]) d with
      unis := [sp.toNat, (nxt sp).toNat]
      rd := (a :: rs ++ [g]).map nLane ++ [nUni sp, nUni (nxt sp)]
      chk := (a.toNat, ty == .f64 || !hi, ty == .f64 || hi) :: (rs ++ [g]).map chkBoth }
  issueForm s f (fun c =>
    match policyOf (c.u sp) (c.u (nxt sp)) with
    | none => .trap s (trapOf c 0x083#9)
    | some p =>
      let r := cureThread c a b g rm ty e p
      let s' := cureCst s c r
      match c.ts.filter (fun t => (r t).trip) with
      | t :: ts => .trap s' (trapThread (if (r t).fail then 0x080#9 else 0x081#9) t (ts.length + 1) 0)
      | [] => fpThreads (if c.diverging then s else s') c f (if ty == .f64 then 16 else 12) (fun t =>
          if ty == .f64 then out64 c d t ((r t).bits, (r t).fl) (!(r t).pass)
          else ([c.putH d t e (BitVec.ofNat 32 (r t).bits) (!(r t).pass)], (r t).fl)) (pairFmt (ty == .f64)))

/-- Resets each active thread's cure state (R183). -/
def execCureRst (st : BitVec 3) (s : State) :
    Host.Outcome State Fault Refusal :=
  let f := bareForm false true st .vec
  issueForm s f (fun c => .done (modBrick s c.b (fun br => { br with cst := c.ts.foldl (fun m t => tabDel m t) br.cst })))

/-- The counts word of CST (R180). -/
def Cst.counts (x : Cst) : W64 := BitVec.ofNat 64 ((if x.v then 2 ^ 25 else 0) + x.fail * 2 ^ 17 + x.pass)

/-- Reads each thread's LAST residual magnitude (R183). -/
def execCureRstRdlast (d : Reg) (st : BitVec 3) (s : State) :
    Host.Outcome State Fault Refusal :=
  let f := laneForm false st [] d
  issueForm s f (fun c => fixed s c f 1 (laneWrites64 c d (fun t => (c.br.cstOf t).last) (fun _ => false)))

/-- Reads each thread's cure counts word (R183). -/
def execCureRstRdcnt (d : Reg) (st : BitVec 3) (s : State) :
    Host.Outcome State Fault Refusal :=
  let f := laneForm false st [] d
  issueForm s f (fun c => fixed s c f 1 (laneWrites64 c d (fun t => (c.br.cstOf t).counts) (fun _ => false)))

/-- An operation in flight that will write flags of an active thread: the float add of an ATOM (R237). -/
def Flight.flagsFor (c : Ctx) (f : Flight) : Bool :=
  !f.done && (match f.kind with
    | .atom reqs .add ty _ (some _) _ => (ty == .f32 || ty == .f64 || ty == .bf16) && reqs.any (fun r => c.act r.acc.t)
    | _ => false)

/-- A queued read-out that will write flags of an active thread (R223, R225). -/
def ArrEntry.flagsFor (c : Ctx) (e : ArrEntry) : Bool :=
  e.brick == c.b && (match e.op with
    | .accrd _ _ _ _ _ _ _ _ _ _ _ => (e.mask &&& c.sp.mask) != 0#32
    | .accwb _ _ _ _ _ _ _ => true
    | _ => false)

/-- A collective of the brick in flight whose flags go to an active thread (R378). -/
def collFlagsFor (s : State) (c : Ctx) : Bool :=
  s.colls.any (fun x => x.2.parties.any (fun p => p.brick == c.b && (p.mask &&& c.sp.mask) != 0#32 &&
    c.br.flights.any (fun f => f.seq == p.seq && !f.done)))

/-- A flag write of an active thread is still to land: FXRD and FXCLR wait for it (R139). -/
def fxPendingFor (s : State) (c : Ctx) : Bool :=
  c.br.pend.any (fun p => p.fx.any (fun x => c.act x.1)) || c.br.fxq.any (fun p => p.fx.any (fun x => c.act x.1)) ||
    c.br.flights.any (Flight.flagsFor c) || (coreOf s c.br.core).queue.any (ArrEntry.flagsFor c) || collFlagsFor s c

/-- Reads each thread's IEEE flags after earlier flag writes land (R140). -/
def execFxrd (d : Reg) (st : BitVec 3) (s : State) :
    Host.Outcome State Fault Refusal :=
  let f := laneForm false st [] d
  issueForm s f (fun c =>
    if fxPendingFor s c then .hold
    else fixed s c f 2 (laneWrites64 c d (fun t => (c.br.fxOf t).setWidth 64) (fun _ => false)))

/-- Clears the named IEEE flags of each active thread (R140). DESIGN CHOICE (log 128): it takes effect as it issues. -/
def execFxclr (k : BitVec 5) (st : BitVec 3) (s : State) :
    Host.Outcome State Fault Refusal :=
  let f := bareForm false true st .vec
  issueForm s f (fun c =>
    if fxPendingFor s c then .hold
    else .done (modBrick s c.b (fun br =>
      { br with fx := c.ts.foldl (fun m t => tabSet m t flagNone (tabGetD m t flagNone &&& ~~~k)) br.fx })))

/-- Marks register halves or mask bits green, or cured with the privileged .clr (R184). -/
def execTagset (d : Reg) (b : Reg) (q : Bool) (st : BitVec 3) (s : State) :
    Host.Outcome State Fault Refusal :=
  let clr := b.getLsbD 2
  let m : BitVec 3 := d.setWidth 3
  let f : Form :=
    if q then { bareForm false true st .vec with priv := clr, wr := [nMsk m] }
    else { laneForm false st [] d with priv := clr }
  issueForm s f (fun c =>
    let g := c.gov || !clr
    fixed s c f 1
      (if q then [.mtag m.toNat c.sel (if g then c.sel else 0)]
       else c.ts.flatMap (fun t =>
         (if b.getLsbD 0 then [RegWrite.tag (halfKey (physReg c.k d.toNat) t 0) g] else []) ++
         (if b.getLsbD 1 then [RegWrite.tag (halfKey (physReg c.k d.toNat) t 1) g] else []))))

/-- Writes the tags of a lane register's halves into a mask (R185). DEDUCED: the stored tag also where TAGSET has made that of an
unwritten half green (log 110). -/
def execTagrd (m : BitVec 3) (a : Reg) (st : BitVec 3) (s : State) :
    Host.Outcome State Fault Refusal :=
  let f := { laneForm false st [a] 0#6 with lanes := [a.toNat], wr := [nMsk m], chk := [] }
  issueForm s f (fun c => fixed s c f 1 [maskWrite c m (fun t e => c.hG a t e) (fun _ _ => false)])

end Sys2Proof.Machine
end

