-- ==== Sys2Proof/Machine/FloatForms.lean ====
section
/-!
DEFINITION. The floating-point forms of classes 2, 3 and 5 and the OPX forms FLG2, FSCALE, FRND, FTWOS and FTWOP (R126–R133).
-/
namespace Sys2Proof.Machine


/-- Adds FP32 pairs with one rounding (R129). -/
def execFaddF32 (d : Reg) (a : Reg) (b : Reg) (rm : Rm) (st : BitVec 3) (s : State) :
    Host.Outcome State Fault Refusal :=
  fpForm .add false 4 false d a b rm st s

/-- Subtracts FP32 pairs with one rounding (R129). -/
def execFsubF32 (d : Reg) (a : Reg) (b : Reg) (rm : Rm) (st : BitVec 3) (s : State) :
    Host.Outcome State Fault Refusal :=
  fpForm .sub false 4 false d a b rm st s

/-- Multiplies FP32 pairs with one rounding (R129). -/
def execFmulF32 (d : Reg) (a : Reg) (b : Reg) (rm : Rm) (st : BitVec 3) (s : State) :
    Host.Outcome State Fault Refusal :=
  fpForm .mul false 4 false d a b rm st s

/-- Computes a×b + d in FP32 with one rounding (R129). -/
def execFfmaF32 (d : Reg) (a : Reg) (b : Reg) (rm : Rm) (st : BitVec 3) (s : State) :
    Host.Outcome State Fault Refusal :=
  fpForm .fma false 4 false d a b rm st s

/-- Computes a×b − d in FP32 with one rounding (R129). -/
def execFfmsF32 (d : Reg) (a : Reg) (b : Reg) (rm : Rm) (st : BitVec 3) (s : State) :
    Host.Outcome State Fault Refusal :=
  fpForm .fms false 4 false d a b rm st s

/-- Computes d − a×b in FP32 with one rounding (R129). -/
def execFnmaF32 (d : Reg) (a : Reg) (b : Reg) (rm : Rm) (st : BitVec 3) (s : State) :
    Host.Outcome State Fault Refusal :=
  fpForm .nma false 4 false d a b rm st s

/-- Writes the IEEE minimumNumber of FP32 pairs (R129). -/
def execFminF32 (d : Reg) (a : Reg) (b : Reg) (rm : Rm) (st : BitVec 3) (s : State) :
    Host.Outcome State Fault Refusal :=
  fpForm .min false 2 false d a b rm st s

/-- Writes the IEEE maximumNumber of FP32 pairs (R129). -/
def execFmaxF32 (d : Reg) (a : Reg) (b : Reg) (rm : Rm) (st : BitVec 3) (s : State) :
    Host.Outcome State Fault Refusal :=
  fpForm .max false 2 false d a b rm st s

/-- Divides FP32 pairs, correctly rounded (R130). -/
def execFdivF32 (d : Reg) (a : Reg) (b : Reg) (rm : Rm) (st : BitVec 3) (s : State) :
    Host.Outcome State Fault Refusal :=
  fpForm .div false 14 false d a b rm st s

/-- Writes the correctly rounded FP32 square root (R130). -/
def execFsqrtF32 (d : Reg) (a : Reg) (rm : Rm) (st : BitVec 3) (s : State) :
    Host.Outcome State Fault Refusal :=
  fpForm .sqrt false 14 false d a 0#6 rm st s

/-- Writes the correctly rounded FP32 reciprocal (R130). -/
def execFrcpF32 (d : Reg) (a : Reg) (rm : Rm) (st : BitVec 3) (s : State) :
    Host.Outcome State Fault Refusal :=
  fpForm .rcp false 10 false d a 0#6 rm st s

/-- Writes the correctly rounded FP32 reciprocal square root (R130). -/
def execFrsqF32 (d : Reg) (a : Reg) (rm : Rm) (st : BitVec 3) (s : State) :
    Host.Outcome State Fault Refusal :=
  fpForm .rsq false 12 false d a 0#6 rm st s

/-- Writes the correctly rounded FP32 e^a (R130). -/
def execFexpF32 (d : Reg) (a : Reg) (rm : Rm) (st : BitVec 3) (s : State) :
    Host.Outcome State Fault Refusal :=
  fpForm .exp false 20 false d a 0#6 rm st s

/-- Writes the correctly rounded FP32 2^a (R130). -/
def execFex2F32 (d : Reg) (a : Reg) (rm : Rm) (st : BitVec 3) (s : State) :
    Host.Outcome State Fault Refusal :=
  fpForm .ex2 false 16 false d a 0#6 rm st s

/-- Writes the correctly rounded FP32 natural logarithm (R130). -/
def execFlogF32 (d : Reg) (a : Reg) (rm : Rm) (st : BitVec 3) (s : State) :
    Host.Outcome State Fault Refusal :=
  fpForm .log false 22 false d a 0#6 rm st s

/-- Writes the correctly rounded FP32 error function (R130). -/
def execFerfF32 (d : Reg) (a : Reg) (rm : Rm) (st : BitVec 3) (s : State) :
    Host.Outcome State Fault Refusal :=
  fpForm .erf false 28 false d a 0#6 rm st s

/-- Adds FP64 values with one rounding (R129). -/
def execFaddF64 (d : Reg) (a : Reg) (b : Reg) (rm : Rm) (st : BitVec 3) (s : State) :
    Host.Outcome State Fault Refusal :=
  fpForm .add true 6 false d a b rm st s

/-- Subtracts FP64 values with one rounding (R129). -/
def execFsubF64 (d : Reg) (a : Reg) (b : Reg) (rm : Rm) (st : BitVec 3) (s : State) :
    Host.Outcome State Fault Refusal :=
  fpForm .sub true 6 false d a b rm st s

/-- Multiplies FP64 values with one rounding (R129). -/
def execFmulF64 (d : Reg) (a : Reg) (b : Reg) (rm : Rm) (st : BitVec 3) (s : State) :
    Host.Outcome State Fault Refusal :=
  fpForm .mul true 6 false d a b rm st s

/-- Computes a×b + d in FP64 with one rounding (R129). -/
def execFfmaF64 (d : Reg) (a : Reg) (b : Reg) (rm : Rm) (st : BitVec 3) (s : State) :
    Host.Outcome State Fault Refusal :=
  fpForm .fma true 6 false d a b rm st s

/-- Computes a×b − d in FP64 with one rounding (R129). -/
def execFfmsF64 (d : Reg) (a : Reg) (b : Reg) (rm : Rm) (st : BitVec 3) (s : State) :
    Host.Outcome State Fault Refusal :=
  fpForm .fms true 6 false d a b rm st s

/-- Computes d − a×b in FP64 with one rounding (R129). -/
def execFnmaF64 (d : Reg) (a : Reg) (b : Reg) (rm : Rm) (st : BitVec 3) (s : State) :
    Host.Outcome State Fault Refusal :=
  fpForm .nma true 6 false d a b rm st s

/-- Writes the IEEE minimumNumber of FP64 values (R129). -/
def execFminF64 (d : Reg) (a : Reg) (b : Reg) (rm : Rm) (st : BitVec 3) (s : State) :
    Host.Outcome State Fault Refusal :=
  fpForm .min true 2 false d a b rm st s

/-- Writes the IEEE maximumNumber of FP64 values (R129). -/
def execFmaxF64 (d : Reg) (a : Reg) (b : Reg) (rm : Rm) (st : BitVec 3) (s : State) :
    Host.Outcome State Fault Refusal :=
  fpForm .max true 2 false d a b rm st s

/-- Divides FP64 values, correctly rounded (R130). -/
def execFdivF64 (d : Reg) (a : Reg) (b : Reg) (rm : Rm) (st : BitVec 3) (s : State) :
    Host.Outcome State Fault Refusal :=
  fpForm .div true 24 false d a b rm st s

/-- Writes the correctly rounded FP64 square root (R130). -/
def execFsqrtF64 (d : Reg) (a : Reg) (rm : Rm) (st : BitVec 3) (s : State) :
    Host.Outcome State Fault Refusal :=
  fpForm .sqrt true 26 false d a 0#6 rm st s

/-- Writes the correctly rounded FP64 reciprocal (R130). -/
def execFrcpF64 (d : Reg) (a : Reg) (rm : Rm) (st : BitVec 3) (s : State) :
    Host.Outcome State Fault Refusal :=
  fpForm .rcp true 18 false d a 0#6 rm st s

/-- Writes the correctly rounded FP64 reciprocal square root (R130). -/
def execFrsqF64 (d : Reg) (a : Reg) (rm : Rm) (st : BitVec 3) (s : State) :
    Host.Outcome State Fault Refusal :=
  fpForm .rsq true 20 false d a 0#6 rm st s

/-- Writes the correctly rounded FP64 e^a (R130). -/
def execFexpF64 (d : Reg) (a : Reg) (rm : Rm) (st : BitVec 3) (s : State) :
    Host.Outcome State Fault Refusal :=
  fpForm .exp true 36 false d a 0#6 rm st s

/-- Writes the correctly rounded FP64 2^a (R130). -/
def execFex2F64 (d : Reg) (a : Reg) (rm : Rm) (st : BitVec 3) (s : State) :
    Host.Outcome State Fault Refusal :=
  fpForm .ex2 true 30 false d a 0#6 rm st s

/-- Writes the correctly rounded FP64 natural logarithm (R130). -/
def execFlogF64 (d : Reg) (a : Reg) (rm : Rm) (st : BitVec 3) (s : State) :
    Host.Outcome State Fault Refusal :=
  fpForm .log true 40 false d a 0#6 rm st s

/-- Writes the correctly rounded FP64 error function (R130). -/
def execFerfF64 (d : Reg) (a : Reg) (rm : Rm) (st : BitVec 3) (s : State) :
    Host.Outcome State Fault Refusal :=
  fpForm .erf true 48 false d a 0#6 rm st s

/-- The comparisons of FCMP (R131). -/
inductive FCond where
  | eq | ne | lt | le | un
  deriving DecidableEq, Repr

/-- Whether a comparison holds, and its flags: `.lt` and `.le` raise invalid on any NaN, the others on a signalling one. -/
def fcond (cc : FCond) (a b : FVal) : Bool × Flags :=
  let nan := isNaN a || isNaN b
  let quiet := sigInvalid a ||| sigInvalid b
  let loud := if nan then flagInvalid else flagNone
  match cc with
  | .eq => (fEqual a b, quiet)
  | .ne => (!fEqual a b, quiet)
  | .lt => (fLess a b, loud)
  | .le => (fLess a b || fEqual a b, loud)
  | .un => (nan, quiet)

/-- FCMP: mask bits placed as those of ICMP (R114, R131). -/
def laneFcmp (cc : FCond) (m : BitVec 3) (a b : Reg) (q : Bool) (st : BitVec 3) (s : State) :
    Host.Outcome State Fault Refusal :=
  let f := { laneForm false st [a, b] 0#6 with lanes := [a.toNat, b.toNat], wr := [nMsk m] }
  issueForm s f (fun c =>
    let r (t e : Nat) : Bool × Flags :=
      if q then fcond cc (fUnpack fmtF64 (c.w a t).toNat) (fUnpack fmtF64 (c.w b t).toNat)
      else fcond cc (fUnpack fmtF32 (c.h a t e).toNat) (fUnpack fmtF32 (c.h b t e).toNat)
    let g (t e : Nat) : Bool := if q then c.wG a t || c.wG b t else c.hG a t e || c.hG b t e
    .done (pushFp s c f 2 [maskWrite c m (fun t e => (r t e).1) g] (flagList c.ts (fun t => (r t 0).2 ||| (r t 1).2))
      (fun t => bitsOf (fun e => (r t e).1) 2)))

/-- Writes mask bits where the floating values are equal (R131). -/
def execFcmpEq (m : BitVec 3) (a : Reg) (b : Reg) (q : Bool) (st : BitVec 3) (s : State) :
    Host.Outcome State Fault Refusal :=
  laneFcmp .eq m a b q st s

/-- Writes mask bits where the floating values differ or are unordered (R131). -/
def execFcmpNe (m : BitVec 3) (a : Reg) (b : Reg) (q : Bool) (st : BitVec 3) (s : State) :
    Host.Outcome State Fault Refusal :=
  laneFcmp .ne m a b q st s

/-- Writes mask bits where a is less than b (R131). -/
def execFcmpLt (m : BitVec 3) (a : Reg) (b : Reg) (q : Bool) (st : BitVec 3) (s : State) :
    Host.Outcome State Fault Refusal :=
  laneFcmp .lt m a b q st s

/-- Writes mask bits where a is less or equal to b (R131). -/
def execFcmpLe (m : BitVec 3) (a : Reg) (b : Reg) (q : Bool) (st : BitVec 3) (s : State) :
    Host.Outcome State Fault Refusal :=
  laneFcmp .le m a b q st s

/-- Writes mask bits where the operands are unordered (R131). -/
def execFcmpUn (m : BitVec 3) (a : Reg) (b : Reg) (q : Bool) (st : BitVec 3) (s : State) :
    Host.Outcome State Fault Refusal :=
  laneFcmp .un m a b q st s

/-- Writes a one-hot class of each floating element (R131). -/
def execFclass (d : Reg) (a : Reg) (q : Bool) (st : BitVec 3) (s : State) :
    Host.Outcome State Fault Refusal :=
  let f := laneForm false st [a] d
  issueForm s f (fun c => fpThreads s c f 2 (fun t =>
    if q then out64 c d t (fClass fmtF64 (c.w a t).toNat, flagNone) (c.wG a t)
    else out32 c d t (fun e => (fClass fmtF32 (c.h a t e).toNat, flagNone)) (fun e => c.hG a t e)) none false)

/-- Clears the sign bit of each floating element (R131). -/
def execFabs (d : Reg) (a : Reg) (q : Bool) (st : BitVec 3) (s : State) :
    Host.Outcome State Fault Refusal :=
  let f := laneForm false st [a] d
  issueForm s f (fun c => fpThreads s c f 1 (fun t =>
    if q then out64 c d t (fAbsBits fmtF64 (c.w a t).toNat, flagNone) (c.wG a t)
    else out32 c d t (fun e => (fAbsBits fmtF32 (c.h a t e).toNat, flagNone)) (fun e => c.hG a t e)) (pairFmt q) false)

/-- Inverts the sign bit of each floating element (R131). -/
def execFneg (d : Reg) (a : Reg) (q : Bool) (st : BitVec 3) (s : State) :
    Host.Outcome State Fault Refusal :=
  let f := laneForm false st [a] d
  issueForm s f (fun c => fpThreads s c f 1 (fun t =>
    if q then out64 c d t (fNegBits fmtF64 (c.w a t).toNat, flagNone) (c.wG a t)
    else out32 c d t (fun e => (fNegBits fmtF32 (c.h a t e).toNat, flagNone)) (fun e => c.hG a t e)) (pairFmt q) false)

/-- Writes the correctly rounded base-2 logarithm (R132). -/
def execFlg2 (d : Reg) (a : Reg) (rm : Rm) (ty : Ty) (st : BitVec 3) (s : State) :
    Host.Outcome State Fault Refusal :=
  fpForm .lg2 (ty == .f64) (if ty == .f64 then 34 else 18) true d a 0#6 rm st s

/-- Multiplies a by 2^n with one rounding (R132). -/
def execFscale (d : Reg) (a : Reg) (b : Reg) (rm : Rm) (ty : Ty) (st : BitVec 3) (s : State) :
    Host.Outcome State Fault Refusal :=
  let f := laneForm true st [a, b] d
  issueForm s f (fun c => fpThreads s c f 4 (fun t =>
    if ty == .f64 then
      out64 c d t (fScale fmtF64 (c.rnd rm) (fUnpack fmtF64 (c.w a t).toNat) (c.w b t).toInt) (c.wG a t || c.wG b t)
    else
      out32 c d t (fun e => fScale fmtF32 (c.rnd rm) (fUnpack fmtF32 (c.h a t e).toNat) (c.h b t e).toInt)
        (fun e => c.hG a t e || c.hG b t e)) (pairFmt (ty == .f64)))

/-- Rounds a to an integral value in mode rm (R132). -/
def execFrnd (d : Reg) (a : Reg) (rm : Rm) (ty : Ty) (st : BitVec 3) (s : State) :
    Host.Outcome State Fault Refusal :=
  let f := laneForm true st [a] d
  issueForm s f (fun c => fpThreads s c f 4 (fun t =>
    if ty == .f64 then out64 c d t (fRnd fmtF64 (c.rnd rm) (fUnpack fmtF64 (c.w a t).toNat)) (c.wG a t)
    else out32 c d t (fun e => fRnd fmtF32 (c.rnd rm) (fUnpack fmtF32 (c.h a t e).toNat)) (fun e => c.hG a t e)) (pairFmt (ty == .f64)))

/-- FTWOS and FTWOP: the rounded result to d and the remainder to the register c, both with one tag; where they are one
register it receives the remainder (R132, R133). -/
def fpTwo (g : Fmt → Nat → Nat → Nat × Nat × Flags) (d a b v : Reg) (ty : Ty) (st : BitVec 3) (s : State) :
    Host.Outcome State Fault Refusal :=
  let f := { laneForm true st [a, b] d with lanes := [d.toNat, a.toNat, b.toNat, v.toNat], wr := [nLane d, nLane v] }
  issueForm s f (fun c => fpThreads s c f (if ty == .f64 then 8 else 6) (fun t =>
    if ty == .f64 then
      let (r, e, fl) := g fmtF64 (c.w a t).toNat (c.w b t).toNat
      let tg := c.wG a t || c.wG b t
      (c.putW d t (BitVec.ofNat 64 r) tg ++ c.putW v t (BitVec.ofNat 64 e) tg, fl)
    else
      let r (e : Nat) := g fmtF32 (c.h a t e).toNat (c.h b t e).toNat
      let tg (e : Nat) := c.hG a t e || c.hG b t e
      ((out32 c d t (fun e => ((r e).1, flagNone)) tg).1 ++ (out32 c v t (fun e => ((r e).2.1, flagNone)) tg).1,
        (r 0).2.2 ||| (r 1).2.2)) (pairFmt (ty == .f64)))

/-- Writes the rounded sum and its exact error (R133). -/
def execFtwos (d : Reg) (a : Reg) (b : Reg) (c : Reg) (ty : Ty) (st : BitVec 3) (s : State) :
    Host.Outcome State Fault Refusal :=
  fpTwo fTwoSum d a b c ty st s

/-- Writes the rounded product and its exact error (R133). -/
def execFtwop (d : Reg) (a : Reg) (b : Reg) (c : Reg) (ty : Ty) (st : BitVec 3) (s : State) :
    Host.Outcome State Fault Refusal :=
  fpTwo fTwoProd d a b c ty st s

end Sys2Proof.Machine
end

