-- ==== Sys2Proof/Machine/LaneInt.lean ====
section
/-!
DEFINITION. The integer forms of the lane set: register forms, immediate forms, comparisons, bit fields and LEA (R111–R116).
-/
namespace Sys2Proof.Machine


/-- Adds a and b per element modulo 2^W (R112). -/
def execIadd (d : Reg) (a : Reg) (b : Reg) (w : Bool) (st : BitVec 3) (s : State) :
    Host.Outcome State Fault Refusal :=
  laneBin .add 2 d a b w st s

/-- Subtracts b from a per element modulo 2^W (R112). -/
def execIsub (d : Reg) (a : Reg) (b : Reg) (w : Bool) (st : BitVec 3) (s : State) :
    Host.Outcome State Fault Refusal :=
  laneBin .sub 2 d a b w st s

/-- Writes the low W bits of a times b (R112). -/
def execImul (d : Reg) (a : Reg) (b : Reg) (w : Bool) (st : BitVec 3) (s : State) :
    Host.Outcome State Fault Refusal :=
  laneBin .mul 4 d a b w st s

/-- Writes the high W bits of the signed 2W-bit product (R112). -/
def execImulh (d : Reg) (a : Reg) (b : Reg) (w : Bool) (st : BitVec 3) (s : State) :
    Host.Outcome State Fault Refusal :=
  laneBin .mulhS 4 d a b w st s

/-- Adds a times b into d modulo 2^W (R112). -/
def execImad (d : Reg) (a : Reg) (b : Reg) (w : Bool) (st : BitVec 3) (s : State) :
    Host.Outcome State Fault Refusal :=
  let f := laneForm false st [a, b, d] d
  issueForm s f (fun c => fixed s c f 4
    (if w then laneWrites64 c d (fun t => c.w d t + c.w a t * c.w b t) (fun t => c.wG a t || c.wG b t || c.wG d t)
     else laneWrites32 c d (fun t e => c.h d t e + c.h a t e * c.h b t e)
       (fun t e => c.hG a t e || c.hG b t e || c.hG d t e)))

/-- Writes the carry out of the unsigned sum a + b (R112). -/
def execIaddc (d : Reg) (a : Reg) (b : Reg) (w : Bool) (st : BitVec 3) (s : State) :
    Host.Outcome State Fault Refusal :=
  laneBin .addc 2 d a b w st s

/-- Writes the signed smaller of a and b (R112). -/
def execImin (d : Reg) (a : Reg) (b : Reg) (w : Bool) (st : BitVec 3) (s : State) :
    Host.Outcome State Fault Refusal :=
  laneBin .minS 2 d a b w st s

/-- Writes the signed larger of a and b (R112). -/
def execImax (d : Reg) (a : Reg) (b : Reg) (w : Bool) (st : BitVec 3) (s : State) :
    Host.Outcome State Fault Refusal :=
  laneBin .maxS 2 d a b w st s

/-- Writes the absolute value of a (R112). -/
def execIabs (d : Reg) (a : Reg) (w : Bool) (st : BitVec 3) (s : State) :
    Host.Outcome State Fault Refusal :=
  laneUn .abs 2 d a w st s

/-- Writes 0 − a modulo 2^W (R112). -/
def execIneg (d : Reg) (a : Reg) (w : Bool) (st : BitVec 3) (s : State) :
    Host.Outcome State Fault Refusal :=
  laneUn .neg 2 d a w st s

/-- Writes the bitwise AND of a and b (R112). -/
def execAnd (d : Reg) (a : Reg) (b : Reg) (w : Bool) (st : BitVec 3) (s : State) :
    Host.Outcome State Fault Refusal :=
  laneBin .and 2 d a b w st s

/-- Writes the bitwise OR of a and b (R112). -/
def execOr (d : Reg) (a : Reg) (b : Reg) (w : Bool) (st : BitVec 3) (s : State) :
    Host.Outcome State Fault Refusal :=
  laneBin .or 2 d a b w st s

/-- Writes the bitwise XOR of a and b (R112). -/
def execXor (d : Reg) (a : Reg) (b : Reg) (w : Bool) (st : BitVec 3) (s : State) :
    Host.Outcome State Fault Refusal :=
  laneBin .xor 2 d a b w st s

/-- Writes a AND NOT b (R112). -/
def execAndn (d : Reg) (a : Reg) (b : Reg) (w : Bool) (st : BitVec 3) (s : State) :
    Host.Outcome State Fault Refusal :=
  laneBin .andn 2 d a b w st s

/-- Writes NOT a (R112). -/
def execNot (d : Reg) (a : Reg) (w : Bool) (st : BitVec 3) (s : State) :
    Host.Outcome State Fault Refusal :=
  laneUn .not 2 d a w st s

/-- Shifts a left by the count in b (R112). -/
def execShl (d : Reg) (a : Reg) (b : Reg) (w : Bool) (st : BitVec 3) (s : State) :
    Host.Outcome State Fault Refusal :=
  laneBin .shl 2 d a b w st s

/-- Shifts a logically right by the count in b (R112). -/
def execShr (d : Reg) (a : Reg) (b : Reg) (w : Bool) (st : BitVec 3) (s : State) :
    Host.Outcome State Fault Refusal :=
  laneBin .shr 2 d a b w st s

/-- Shifts a arithmetically right by the count in b (R112). -/
def execSar (d : Reg) (a : Reg) (b : Reg) (w : Bool) (st : BitVec 3) (s : State) :
    Host.Outcome State Fault Refusal :=
  laneBin .sar 2 d a b w st s

/-- Rotates a left by the count in b (R112). -/
def execRot (d : Reg) (a : Reg) (b : Reg) (w : Bool) (st : BitVec 3) (s : State) :
    Host.Outcome State Fault Refusal :=
  laneBin .rot 2 d a b w st s

/-- Writes the number of one bits of a (R112). -/
def execPopc (d : Reg) (a : Reg) (w : Bool) (st : BitVec 3) (s : State) :
    Host.Outcome State Fault Refusal :=
  laneUn .popc 2 d a w st s

/-- Writes the number of leading zero bits of a (R112). -/
def execClz (d : Reg) (a : Reg) (w : Bool) (st : BitVec 3) (s : State) :
    Host.Outcome State Fault Refusal :=
  laneUn .clz 2 d a w st s

/-- Writes a with its bits reversed (R112). -/
def execBrev (d : Reg) (a : Reg) (w : Bool) (st : BitVec 3) (s : State) :
    Host.Outcome State Fault Refusal :=
  laneUn .brev 2 d a w st s

/-- Copies a to d with its tags and U bits (R112). -/
def execMov (d : Reg) (a : Reg) (w : Bool) (st : BitVec 3) (s : State) :
    Host.Outcome State Fault Refusal :=
  let f := { laneForm false st [a] d with chk := [] }
  issueForm s f (fun c => fixed s c f 1 ((c.lanes (!w)).flatMap (fun j => c.copyLane (!w) d a j j false)))

/-- Writes the unsigned smaller of a and b (R112). -/
def execIminUnsigned (d : Reg) (a : Reg) (b : Reg) (w : Bool) (st : BitVec 3) (s : State) :
    Host.Outcome State Fault Refusal :=
  laneBin .minU 2 d a b w st s

/-- Writes the unsigned larger of a and b (R112). -/
def execImaxUnsigned (d : Reg) (a : Reg) (b : Reg) (w : Bool) (st : BitVec 3) (s : State) :
    Host.Outcome State Fault Refusal :=
  laneBin .maxU 2 d a b w st s

/-- Writes the high W bits of the unsigned 2W-bit product (R112). -/
def execImulhUnsigned (d : Reg) (a : Reg) (b : Reg) (w : Bool) (st : BitVec 3) (s : State) :
    Host.Outcome State Fault Refusal :=
  laneBin .mulhU 4 d a b w st s

/-- Adds a 9-bit immediate to a in 64-bit operation (R113). -/
def execIaddI64Imm9 (d : Reg) (a : Reg) (imm : BitVec 9) (st : BitVec 3) (s : State) :
    Host.Outcome State Fault Refusal :=
  laneImm64 .add 2 false d a (immS imm) st s

/-- Adds a 9-bit immediate to each 32-bit half of a (R113). -/
def execIaddI32Imm9 (d : Reg) (a : Reg) (imm : BitVec 9) (st : BitVec 3) (s : State) :
    Host.Outcome State Fault Refusal :=
  laneImm32 .add 2 false d a (immHalf imm) st s

/-- Multiplies a by a 9-bit immediate in 64-bit operation (R113). -/
def execImulI64Imm9 (d : Reg) (a : Reg) (imm : BitVec 9) (st : BitVec 3) (s : State) :
    Host.Outcome State Fault Refusal :=
  laneImm64 .mul 4 false d a (immS imm) st s

/-- Multiplies each half of a by a 9-bit immediate (R113). -/
def execImulI32Imm9 (d : Reg) (a : Reg) (imm : BitVec 9) (st : BitVec 3) (s : State) :
    Host.Outcome State Fault Refusal :=
  laneImm32 .mul 4 false d a (immHalf imm) st s

/-- ANDs a with a 9-bit immediate (R113). -/
def execAndB64Imm9 (d : Reg) (a : Reg) (imm : BitVec 9) (st : BitVec 3) (s : State) :
    Host.Outcome State Fault Refusal :=
  laneImm64 .and 2 false d a (immS imm) st s

/-- ORs a with a 9-bit immediate (R113). -/
def execOrB64Imm9 (d : Reg) (a : Reg) (imm : BitVec 9) (st : BitVec 3) (s : State) :
    Host.Outcome State Fault Refusal :=
  laneImm64 .or 2 false d a (immS imm) st s

/-- XORs a with a 9-bit immediate (R113). -/
def execXorB64Imm9 (d : Reg) (a : Reg) (imm : BitVec 9) (st : BitVec 3) (s : State) :
    Host.Outcome State Fault Refusal :=
  laneImm64 .xor 2 false d a (immS imm) st s

/-- Shifts a left by an immediate count (R113). -/
def execShlB64Imm9 (d : Reg) (a : Reg) (imm : BitVec 9) (st : BitVec 3) (s : State) :
    Host.Outcome State Fault Refusal :=
  laneImm64 .shl 2 false d a (immS imm) st s

/-- Shifts a logically right by an immediate count (R113). -/
def execShrN64Imm9 (d : Reg) (a : Reg) (imm : BitVec 9) (st : BitVec 3) (s : State) :
    Host.Outcome State Fault Refusal :=
  laneImm64 .shr 2 false d a (immU imm) st s

/-- Shifts a arithmetically right by an immediate count (R113). -/
def execSarI64Imm9 (d : Reg) (a : Reg) (imm : BitVec 9) (st : BitVec 3) (s : State) :
    Host.Outcome State Fault Refusal :=
  laneImm64 .sar 2 false d a (immS imm) st s

/-- Writes a sign-extended 9-bit immediate to d (R113). -/
def execMoviI64 (d : Reg) (imm : BitVec 9) (st : BitVec 3) (s : State) :
    Host.Outcome State Fault Refusal :=
  laneMovi64 false d (immS imm) st s

/-- Writes a zero-extended 9-bit immediate to d (R113). -/
def execMoviN64 (d : Reg) (imm : BitVec 9) (st : BitVec 3) (s : State) :
    Host.Outcome State Fault Refusal :=
  laneMovi64 false d (immU imm) st s

/-- Writes a sign-extended 9-bit immediate to each half of d (R113). -/
def execMoviI32 (d : Reg) (imm : BitVec 9) (st : BitVec 3) (s : State) :
    Host.Outcome State Fault Refusal :=
  laneMovi32 false d (immHalf imm) st s

/-- Writes the signed smaller of a and an immediate (R113). -/
def execIminI64Imm9 (d : Reg) (a : Reg) (imm : BitVec 9) (st : BitVec 3) (s : State) :
    Host.Outcome State Fault Refusal :=
  laneImm64 .minS 2 false d a (immS imm) st s

/-- Writes the signed larger of a and an immediate (R113). -/
def execImaxI64Imm9 (d : Reg) (a : Reg) (imm : BitVec 9) (st : BitVec 3) (s : State) :
    Host.Outcome State Fault Refusal :=
  laneImm64 .maxS 2 false d a (immS imm) st s

/-- Adds a 32-bit immediate to a in 64-bit operation (R113). -/
def execIaddI64Imm32 (d : Reg) (a : Reg) (imm : BitVec 32) (st : BitVec 3) (s : State) :
    Host.Outcome State Fault Refusal :=
  laneImm64 .add 2 true d a (immS imm) st s

/-- Adds a 32-bit immediate to each half of a (R113). -/
def execIaddI32Imm32 (d : Reg) (a : Reg) (imm : BitVec 32) (st : BitVec 3) (s : State) :
    Host.Outcome State Fault Refusal :=
  laneImm32 .add 2 true d a (immHalf imm) st s

/-- Multiplies a by a 32-bit immediate (R113). -/
def execImulI64Imm32 (d : Reg) (a : Reg) (imm : BitVec 32) (st : BitVec 3) (s : State) :
    Host.Outcome State Fault Refusal :=
  laneImm64 .mul 4 true d a (immS imm) st s

/-- Multiplies each half of a by a 32-bit immediate (R113). -/
def execImulI32Imm32 (d : Reg) (a : Reg) (imm : BitVec 32) (st : BitVec 3) (s : State) :
    Host.Outcome State Fault Refusal :=
  laneImm32 .mul 4 true d a (immHalf imm) st s

/-- ANDs a with a 32-bit immediate (R113). -/
def execAndB64Imm32 (d : Reg) (a : Reg) (imm : BitVec 32) (st : BitVec 3) (s : State) :
    Host.Outcome State Fault Refusal :=
  laneImm64 .and 2 true d a (immS imm) st s

/-- ORs a with a 32-bit immediate (R113). -/
def execOrB64Imm32 (d : Reg) (a : Reg) (imm : BitVec 32) (st : BitVec 3) (s : State) :
    Host.Outcome State Fault Refusal :=
  laneImm64 .or 2 true d a (immS imm) st s

/-- XORs a with a 32-bit immediate (R113). -/
def execXorB64Imm32 (d : Reg) (a : Reg) (imm : BitVec 32) (st : BitVec 3) (s : State) :
    Host.Outcome State Fault Refusal :=
  laneImm64 .xor 2 true d a (immS imm) st s

/-- Shifts a left by a 32-bit immediate count (R113). -/
def execShlB64Imm32 (d : Reg) (a : Reg) (imm : BitVec 32) (st : BitVec 3) (s : State) :
    Host.Outcome State Fault Refusal :=
  laneImm64 .shl 2 true d a (immS imm) st s

/-- Shifts a logically right by a 32-bit immediate count (R113). -/
def execShrN64Imm32 (d : Reg) (a : Reg) (imm : BitVec 32) (st : BitVec 3) (s : State) :
    Host.Outcome State Fault Refusal :=
  laneImm64 .shr 2 true d a (immU imm) st s

/-- Shifts a arithmetically right by a 32-bit immediate count (R113). -/
def execSarI64Imm32 (d : Reg) (a : Reg) (imm : BitVec 32) (st : BitVec 3) (s : State) :
    Host.Outcome State Fault Refusal :=
  laneImm64 .sar 2 true d a (immS imm) st s

/-- Writes a sign-extended 32-bit immediate to d (R113). -/
def execMoviI64Imm32 (d : Reg) (imm : BitVec 32) (st : BitVec 3) (s : State) :
    Host.Outcome State Fault Refusal :=
  laneMovi64 true d (immS imm) st s

/-- Writes a zero-extended 32-bit immediate to d (R113). -/
def execMoviN64Imm32 (d : Reg) (imm : BitVec 32) (st : BitVec 3) (s : State) :
    Host.Outcome State Fault Refusal :=
  laneMovi64 true d (immU imm) st s

/-- Writes a 32-bit immediate to each half of d (R113). -/
def execMoviI32Imm32 (d : Reg) (imm : BitVec 32) (st : BitVec 3) (s : State) :
    Host.Outcome State Fault Refusal :=
  laneMovi32 true d (immHalf imm) st s

/-- Writes the signed smaller of a and a 32-bit immediate (R113). -/
def execIminI64Imm32 (d : Reg) (a : Reg) (imm : BitVec 32) (st : BitVec 3) (s : State) :
    Host.Outcome State Fault Refusal :=
  laneImm64 .minS 2 true d a (immS imm) st s

/-- Writes the signed larger of a and a 32-bit immediate (R113). -/
def execImaxI64Imm32 (d : Reg) (a : Reg) (imm : BitVec 32) (st : BitVec 3) (s : State) :
    Host.Outcome State Fault Refusal :=
  laneImm64 .maxS 2 true d a (immS imm) st s

/-- ICMP: a mask bit for each compared element (R114). -/
def laneCmp (cc : Cond) (m : BitVec 3) (a b : Reg) (q : Bool) (st : BitVec 3) (s : State) :
    Host.Outcome State Fault Refusal :=
  let f := { laneForm false st [a, b] 0#6 with lanes := [a.toNat, b.toNat], wr := [nMsk m] }
  issueForm s f (fun c => fixed s c f 2
    [if q then maskWrite c m (fun t _ => condHolds cc (c.w a t) (c.w b t)) (fun t _ => c.wG a t || c.wG b t)
     else maskWrite c m (fun t e => condHolds cc (c.h a t e) (c.h b t e)) (fun t e => c.hG a t e || c.hG b t e)])

/-- Writes mask bits where a equals b (R114). -/
def execIcmpEq (m : BitVec 3) (a : Reg) (b : Reg) (q : Bool) (st : BitVec 3) (s : State) :
    Host.Outcome State Fault Refusal :=
  laneCmp .eq m a b q st s

/-- Writes mask bits where a differs from b (R114). -/
def execIcmpNe (m : BitVec 3) (a : Reg) (b : Reg) (q : Bool) (st : BitVec 3) (s : State) :
    Host.Outcome State Fault Refusal :=
  laneCmp .ne m a b q st s

/-- Writes mask bits where a is signed-less than b (R114). -/
def execIcmpLt (m : BitVec 3) (a : Reg) (b : Reg) (q : Bool) (st : BitVec 3) (s : State) :
    Host.Outcome State Fault Refusal :=
  laneCmp .lt m a b q st s

/-- Writes mask bits where a is signed-less or equal to b (R114). -/
def execIcmpLe (m : BitVec 3) (a : Reg) (b : Reg) (q : Bool) (st : BitVec 3) (s : State) :
    Host.Outcome State Fault Refusal :=
  laneCmp .le m a b q st s

/-- Writes mask bits where a is unsigned-less than b (R114). -/
def execIcmpLtu (m : BitVec 3) (a : Reg) (b : Reg) (q : Bool) (st : BitVec 3) (s : State) :
    Host.Outcome State Fault Refusal :=
  laneCmp .ltu m a b q st s

/-- Writes mask bits where a is unsigned-less or equal to b (R114). -/
def execIcmpLeu (m : BitVec 3) (a : Reg) (b : Reg) (q : Bool) (st : BitVec 3) (s : State) :
    Host.Outcome State Fault Refusal :=
  laneCmp .leu m a b q st s

/-- Extracts a bit field, sign- or zero-extended (R115). -/
def execBfx (d : Reg) (a : Reg) (pos : BitVec 6) (len1 : BitVec 6) (ty : Ty) (st : BitVec 3) (s : State) :
    Host.Outcome State Fault Refusal :=
  let f := laneForm true st [a] d
  let sg := ty == .i32 || ty == .i64
  issueForm s f (fun c => fixed s c f 2
    (if ty.width = 64 then
       laneWrites64 c d (fun t => bfxW sg pos.toNat (len1.toNat + 1) (c.w a t)) (fun t => c.wG a t)
     else laneWrites32 c d (fun t e => bfxW sg pos.toNat (len1.toNat + 1) (c.h a t e)) (fun t e => c.hG a t e)))

/-- Inserts the low bits of a into a field of d (R115). -/
def execBfi (d : Reg) (a : Reg) (pos : BitVec 6) (len1 : BitVec 6) (ty : Ty) (st : BitVec 3) (s : State) :
    Host.Outcome State Fault Refusal :=
  let f := laneForm true st [a, d] d
  issueForm s f (fun c => fixed s c f 2
    (if ty.width = 64 then
       laneWrites64 c d (fun t => bfiW pos.toNat (len1.toNat + 1) (c.w a t) (c.w d t)) (fun t => c.wG a t || c.wG d t)
     else laneWrites32 c d (fun t e => bfiW pos.toNat (len1.toNat + 1) (c.h a t e) (c.h d t e))
       (fun t e => c.hG a t e || c.hG d t e)))

/-- Selects a or b per element by a mask bit (R115). -/
def execSel (d : Reg) (a : Reg) (b : Reg) (m : BitVec 3) (ty : Ty) (st : BitVec 3) (s : State) :
    Host.Outcome State Fault Refusal :=
  let f := { laneForm true st [a, b] d with rd := [nLane a, nLane b, nMsk m], chk := [] }
  let q := ty.width == 32
  issueForm s f (fun c => fixed s c f 2
    ((c.lanes q).flatMap (fun j =>
      let t := if q then j / 2 else j
      let e := if q then j % 2 else 0
      c.copyLane q d (if mbit (c.m m).v t e then a else b) j j (mbit (c.m m).g t e))))

/-- Writes the address a load with the same operand would use (R116). -/
def execLea (d : Reg) (x : Reg) (sb : Reg) (sc : BitVec 2) (q : Bool) (st : BitVec 3) (s : State) :
    Host.Outcome State Fault Refusal :=
  let f := memForm false st (some d) x sb false true
  issueForm s f (fun c => fixed s c f 2
    (laneWrites64 c d
      (fun t => let v := c.addr x sb sc 0 t; if q then v else (v.setWidth 20).setWidth 64) (fun t => c.addrG x sb t)))

/-- Displaced form of LEA with a MEM payload (R116). -/
def execLeaDisp (d : Reg) (x : Reg) (sb : Reg) (sc : BitVec 2) (disp : BitVec 30) (q : Bool) (st : BitVec 3) (s : State) :
    Host.Outcome State Fault Refusal :=
  let f := memForm true st (some d) x sb false true
  issueForm s f (fun c => fixed s c f 2
    (laneWrites64 c d
      (fun t => let v := c.addr x sb sc disp t; if q then v else (v.setWidth 20).setWidth 64) (fun t => c.addrG x sb t)))

end Sys2Proof.Machine
end

