-- ==== Sys2Proof/Machine/Services.lean ====
section
/-!
DEFINITION. What the site processors, the sensors and the checkers of the module do (R363, R364, R387–R395).
-/
namespace Sys2Proof.Machine

/-! ### Boot and attestation (R387, R388, R391) -/

/-- M with one item taken in. -/
def measure (m item : List Byte) : List Byte := shake256 (m ++ shake256 item 64) 64

/-- The measurement of a die. -/
def measurement (d : Nat) : List Byte :=
  [Config.image d, Config.defectMap d, Config.mapSignature d].foldl measure (List.replicate 64 0)

/-- A die's image, and its defect map, verify against the root public key (R387). -/
def dieVerifies (d : Nat) : Bool :=
  dsaVerify Config.rootKey (Config.image d) (Config.imageSignature d) && dsaVerify Config.rootKey (Config.defectMap d) (Config.mapSignature d)

/-- A die starts, or is held in reset when what it verifies fails. -/
def bootDie (s : State) (d : Nat) : State :=
  if dieVerifies d then modDie s d (fun x => { x with booted := true, ok := true, m := measurement d })
  else modDie s d (fun x => { x with booted := false, ok := false })

/-- Die 0's boot ROM verifies firmware, starts the other dies and forms measurements (R387). Dies that die 0 does not start
stay in reset. -/
def execPowerOnBoot (s : State) : Host.Outcome State Fault Refusal :=
  if (dieState s 0).booted then .next s
  else
    let s := bootDie s 0
    if (dieState s 0).ok then .next (bootDie (bootDie (bootDie s 1) 2) 3)
    else .next ([1, 2, 3].foldl (fun s d => modDie s d (fun x => { x with ok := false })) s)

/-- The identity key pair of the device. -/
def identityKey : DsaKey := dsaKeyOf Config.identitySecret

/-- Bytes 0 to 383 of a quote. -/
def quoteHead (s : State) (nonce : List Byte) : List Byte :=
  nonce ++ [0, 1, 2, 3].flatMap (fun d => (dieState s d).m ++ List.replicate (64 - (dieState s d).m.length) 0) ++ shake256 identityKey.pub 64

/-- The 32 bytes of randomness of a signature, which the spec leaves open: four free values from the i-th. -/
def signRandom (i : Nat) : List Byte := [0, 1, 2, 3].flatMap (fun k => leBytes 8 (Config.word (i + k)).toNat)

/-- The signature's 3,309 bytes. -/
def quoteSignature (head rnd : List Byte) : List Byte :=
  let x := dsaSign identityKey head rnd
  (List.range 3309).map (fun i => x.getD i 0)

/-- Bytes that a site processor writes cured. -/
def curedBytes (l : Loc) (bytes : List Byte) : List WByte := (List.range bytes.length).map (fun i => ⟨l.add i, bytes.getD i 0, false⟩)

/-- The nonce, read through the check of its line; of a poisoned line the spec gives no bytes: they are free. -/
def readNonce (s : State) (l : Loc) : State × List Byte :=
  let (s, psn) := checkLine s l
  let s := observe s none l 64
  if psn then ({ s with free := s.free + 8 }, (List.range 8).flatMap (fun k => leBytes 8 (Config.word (s.free + k)).toNat))
  else (s, readBytes s l 64)

/-- The quote in its block, and then its done word (R391). -/
def writeQuote (s : State) (l : Loc) : State :=
  let (s, nonce) := readNonce s l
  let head := quoteHead s nonce
  let sig := quoteSignature head (signRandom s.free)
  let s := observe { s with free := s.free + 4 } none l 4096
  let s := writeAll s (curedBytes (l.add 64) (head.drop 64 ++ sig ++ [0, 0, 0])) false false
  writeAll s (curedBytes (l.add 3696) (leBytes 8 1)) false true

/-- Die 0's site processor can go on with the quote: no record of the block's page is pending, and one can be made (R333, R335). -/
def quoteReady (s : State) : Bool :=
  s.attest.any (fun x => !recordOpen s 0 x.1 (x.2 / 2 ^ 16)) && decide (faultsHeld s 0 < 1024)

/-- Die 0's site processor writes the quote and then its done word (R391). An absent page leaves a fault record, and the access replays;
a block whose page gives no access gets no quote. -/
def execAttestQuote (s : State) : Host.Outcome State Fault Refusal :=
  match s.attest with
  | none => .next s
  | some (asid, va) =>
    if !quoteReady s then .next s
    else
      match translate s 128 0 asid true kRw va with
      | (s, .ok pa) => .next (writeQuote { s with attest := none } (.phys pa))
      | (s, .absent) => .next (addFault s 0 asid va kRw true)
      | (s, .cause _) => .next { s with attest := none }

/-! ### Scrubs and machine checks (R363, R364) -/

/-- Logs a fault at a place whose location the spec leaves to the packing of LOC: a free value. -/
def logFault (s : State) (die kind strct : Nat) (core : Option Nat) : State :=
  let (i, s) := nextFree s
  logAdd s die kind strct core (Config.word i).toNat

/-- Die and core of a brick. -/
def brickPlace (s : State) (b : Nat) : Nat × Option Nat :=
  match tabGet? s.bricks b with
  | some br => (dieOfCore br.core, some br.core)
  | none => (0, none)

/-- What a copy of a barrier's counters comes to hold. -/
def faultBar (s : State) (o : ObjRef) (copy : Nat) (w : BarWord) : State :=
  let x := barAt s o
  if copy ≥ 3 || x.e = 0 then s else putBar s o { x with odd := (copy, w) :: x.odd.filter (fun y => y.1 != copy) }

/-- One fault, as the check that meets it sees it (R363): a single one is corrected and logged; a double one in SECDED storage poisons the
half, the line or the bank. A fault in a line, in a copy of a counter or in a lane of a copy engine stays until its check reads it. -/
def meetFault (s : State) : StorageFault → State
  | .half b r t e double =>
    let (die, core) := brickPlace s b
    if !double then logFault s die 0 0 core
    else logFault (modBrick s b (fun br => { br with lane := tabPut br.lane (halfKey r t e) { br.half r t e with p := true } })) die 5 0 core
  | .uniform b _ =>
    let (die, core) := brickPlace s b
    logFault s die 0 1 core
  | .bank core bank double =>
    if !double then logFault s (dieOfCore core) 0 3 (some core)
    else logFault (putBank s core bank { bankAt s core bank with psn := true }) (dieOfCore core) 5 3 (some core)
  | .line pa bits => if paExists s pa && !isHostPa pa && !isRemotePa pa then injectErr s (Loc.phys pa).line (bits.filter (· < 512)) else s
  | .localLine core off bits => injectErr s (Loc.loc core (off % 2 ^ 20)).line (bits.filter (· < 512))
  | .tapeLine b i double =>
    let (die, core) := brickPlace s b
    if !double then logFault s die 0 15 core
    else logFault (modBrick s b (fun br =>
      { br with tape := { br.tape with buf := br.tape.buf.map (fun x => if x.1 == i then (x.1, [], x.2.2) else x) } })) die 5 15 core
  | .coreBarrier wall k copy e a p ab => faultBar s (.coreBar wall k) copy ⟨e, a, p, ab⟩
  | .netBarrier sp place k copy e a p ab => faultBar s (.netBar sp place k) copy ⟨e, a, p, ab⟩
  | .semaphore die n copy count =>
    let x := semAt s (.sem die n)
    if copy ≥ 3 then s else putSem s (.sem die n) { x with odd := (copy, count) :: x.odd.filter (fun y => y.1 != copy) }
  | .translation i =>
    match s.tlb[i]? with
    | none => s
    | some x =>
      let core := if x.cache < 128 then some x.cache else none
      logFault { s with tlb := s.tlb.eraseIdx i } (if x.cache < 128 then dieOfCore x.cache else x.cache - 128) 8 16 core
  | .copyLanes copy twice => { s with copies := tabMod s.copies copy (fun x => { x with lane := if twice then 2 else 1 }) }
  | .datapath b write bit => modBrick s b (fun br => { br with dpFault := some (write, bit) })

/-- Every control-state word is scrubbed each 1,600 ns (R363): a word without a fault stays as it is, and a fault there is a machine check.
The faults that the module's other checks meet by then are those of the state's own list (log 119). -/
def execControlScrub (s : State) : Host.Outcome State Fault Refusal :=
  match s.faultsIn with
  | [] => .next s
  | fs :: rest => .next (fs.foldl meetFault { s with faultsIn := rest })

/-- The live bricks whose state a structure holds. -/
def heldBricks (s : State) (what : FaultyStructure) : List Nat :=
  let sel (p : Nat → Brick → Bool) : List Nat := (s.bricks.filter (fun x => x.2.alive && p x.1 x.2)).map (·.1)
  match what with
  | .brickState b => sel (fun i _ => i == b)
  | .partition core part => sel (fun _ br => br.core == core && br.part == part && !savedBrick s br)
  | .hodState wall => sel (fun _ br => br.wall == wall)
  | .arrayQueue core => sel (fun i _ => (coreOf s core).queue.any (fun e => e.brick == i))
  | .semaphoreQueue die n => sel (fun i _ => (semAt s (.sem die n)).queue.any (fun q => q.1 == i))

/-- Die, core and structure code that the log names (R365, R367). -/
def faultPlace (s : State) (what : FaultyStructure) : Nat × Option Nat × Nat :=
  match what with
  | .brickState b => (match tabGet? s.bricks b with
    | some br => (dieOfCore br.core, some br.core, 14)
    | none => (0, none, 14))
  | .partition core _ => (dieOfCore core, some core, 14)
  | .hodState wall => (match tabGet? s.walls wall with
    | some w => (w.die, some w.core, 9)
    | none => (0, none, 9))
  | .arrayQueue core => (dieOfCore core, some core, 14)
  | .semaphoreQueue die _ => (die, none, 8)

/-- Kills bricks by a machine check. -/
def checkKill (s : State) (strct : Nat) (l : List Nat) : State := l.foldl (fun s b => killBrick s b 0#9 strct) s

/-- A control-state fault kills every brick whose state the structure holds (R364). -/
def execMachineCheck (what : FaultyStructure) (s : State) : Host.Outcome State Fault Refusal :=
  let (die, core, strct) := faultPlace s what
  let (i, s) := nextFree s
  .next (checkKill (logAdd s die 7 strct core (Config.word i).toNat) strct (heldBricks s what))

/-! ### Clocks and power (R393, R394) -/

def setSag (s : State) (quad : Nat) (on : Bool) : State := { s with quads := tabSet s.quads quad ⟨false⟩ ⟨on⟩ }

/-- A supply-sag detector trips and stretches its quad's clock to 9/8 (R393). -/
def execSagTrip (quad : Nat) (s : State) : Host.Outcome State Fault Refusal :=
  if quad ≥ 32 then .fault .noTarget else .next (setSag s quad true)

/-- After 1 µs without a trip the quad's sag stretch is released (R393). -/
def execSagRelease (quad : Nat) (s : State) : Host.Outcome State Fault Refusal :=
  if quad ≥ 32 then .fault .noTarget else .next (setSag s quad false)

/-- A die's share of PLIM in percent of a quarter (R395). -/
def dieShare (s : State) (d : Nat) : Nat := 100 - 5 * ((dieState s d).tj - 100)

/-- 400 times the module's power limit with every die at its share. -/
def powerLimit (s : State) : Nat := s.plim * (dieShare s 0 + dieShare s 1 + dieShare s 2 + dieShare s 3)

/-- Every 10 µs the site processors measure power and step the power period (R394): `watt` is the 50 µs average. -/
def execPowerSample (watt : Nat) (s : State) : Host.Outcome State Fault Refusal :=
  let s := { s with watt := watt }
  if 400 * watt > powerLimit s then .next { s with pstep := min 16 (s.pstep + 1), pover := 0 }
  else if 40000 * watt < 95 * powerLimit s then
    (if s.pover + 1 ≥ 10 then .next { s with pstep := max 8 (s.pstep - 1), pover := 0 } else .next { s with pover := s.pover + 1 })
  else .next { s with pover := 0 }

/-! ### Heat (R395) -/

def setTj (s : State) (die tj : Nat) : State := modDie s die (fun d => { d with tj := tj })

/-- What a die's junction temperature does (R395): above 100 °C its share of PLIM falls, by `dieShare`; at 115 °C every brick on the die is
killed by a machine check, and the die takes no walls until it is below 90 °C. -/
def heat (s : State) (die tj : Nat) : State :=
  let was := (dieState s die).hot
  let s := setTj s die tj
  if tj < 90 then modDie s die (fun d => { d with hot := false })
  else if tj < 115 || was then s
  else
    checkKill (modDie (logFault s die 7 31 none) die (fun d => { d with hot := true })) 31
      ((s.bricks.filter (fun x => x.2.alive && dieOfCore x.2.core == die)).map (·.1))

/-- Above 100 °C a die's share of PLIM is lowered by 5% per degree (R395). -/
def execThermalThrottle (die : Nat) (tj : Nat) (s : State) : Host.Outcome State Fault Refusal :=
  if die ≥ 4 then .fault .noTarget else .next (heat s die tj)

/-- At 115 °C every brick on the die is killed by a machine check (R395). -/
def execThermalShutdown (die : Nat) (tj : Nat) (s : State) : Host.Outcome State Fault Refusal :=
  if die ≥ 4 then .fault .noTarget else .next (heat s die tj)

/-- A die below 90 °C takes walls again (R395). -/
def execThermalRecover (die : Nat) (tj : Nat) (s : State) : Host.Outcome State Fault Refusal :=
  if die ≥ 4 then .fault .noTarget else .next (heat s die tj)

end Sys2Proof.Machine
end

