-- ==== Sys2Proof/Machine/UniInt.lean ====
section
/-!
DEFINITION. The integer forms of the uniform set (R117).
-/
namespace Sys2Proof.Machine


/-- SCMP: 1 when the condition holds. -/
def uniCmp (cc : Cond) (d a b : Reg) (w : Bool) (st : BitVec 3) (s : State) : Host.Outcome State Fault Refusal :=
  let f := uniForm false st [a, b] d
  issueForm s f (fun c => fixed s c f 1
    [c.putU d (if (if w then condHolds cc (c.u a) (c.u b) else condHolds cc ((c.u a).setWidth 32) ((c.u b).setWidth 32))
      then 1#64 else 0#64) (c.uG a || c.uG b)])

/-- Adds two uniform registers (R117). -/
def execSadd (d : Reg) (a : Reg) (b : Reg) (w : Bool) (st : BitVec 3) (s : State) :
    Host.Outcome State Fault Refusal :=
  uniBin .add 1 d a b w st s

/-- Subtracts two uniform registers (R117). -/
def execSsub (d : Reg) (a : Reg) (b : Reg) (w : Bool) (st : BitVec 3) (s : State) :
    Host.Outcome State Fault Refusal :=
  uniBin .sub 1 d a b w st s

/-- Multiplies two uniform registers, low bits (R117). -/
def execSmul (d : Reg) (a : Reg) (b : Reg) (w : Bool) (st : BitVec 3) (s : State) :
    Host.Outcome State Fault Refusal :=
  uniBin .mul 3 d a b w st s

/-- ANDs two uniform registers (R117). -/
def execSand (d : Reg) (a : Reg) (b : Reg) (w : Bool) (st : BitVec 3) (s : State) :
    Host.Outcome State Fault Refusal :=
  uniBin .and 1 d a b w st s

/-- ORs two uniform registers (R117). -/
def execSor (d : Reg) (a : Reg) (b : Reg) (w : Bool) (st : BitVec 3) (s : State) :
    Host.Outcome State Fault Refusal :=
  uniBin .or 1 d a b w st s

/-- XORs two uniform registers (R117). -/
def execSxor (d : Reg) (a : Reg) (b : Reg) (w : Bool) (st : BitVec 3) (s : State) :
    Host.Outcome State Fault Refusal :=
  uniBin .xor 1 d a b w st s

/-- Shifts a uniform register left (R117). -/
def execSshl (d : Reg) (a : Reg) (b : Reg) (w : Bool) (st : BitVec 3) (s : State) :
    Host.Outcome State Fault Refusal :=
  uniBin .shl 1 d a b w st s

/-- Shifts a uniform register logically right (R117). -/
def execSshr (d : Reg) (a : Reg) (b : Reg) (w : Bool) (st : BitVec 3) (s : State) :
    Host.Outcome State Fault Refusal :=
  uniBin .shr 1 d a b w st s

/-- Shifts a uniform register arithmetically right (R117). -/
def execSsar (d : Reg) (a : Reg) (b : Reg) (w : Bool) (st : BitVec 3) (s : State) :
    Host.Outcome State Fault Refusal :=
  uniBin .sar 1 d a b w st s

/-- Writes the signed smaller of two uniform registers (R117). -/
def execSmin (d : Reg) (a : Reg) (b : Reg) (w : Bool) (st : BitVec 3) (s : State) :
    Host.Outcome State Fault Refusal :=
  uniBin .minS 1 d a b w st s

/-- Writes the signed larger of two uniform registers (R117). -/
def execSmax (d : Reg) (a : Reg) (b : Reg) (w : Bool) (st : BitVec 3) (s : State) :
    Host.Outcome State Fault Refusal :=
  uniBin .maxS 1 d a b w st s

/-- Writes the unsigned smaller of two uniform registers (R117). -/
def execSminUnsigned (d : Reg) (a : Reg) (b : Reg) (w : Bool) (st : BitVec 3) (s : State) :
    Host.Outcome State Fault Refusal :=
  uniBin .minU 1 d a b w st s

/-- Writes the unsigned larger of two uniform registers (R117). -/
def execSmaxUnsigned (d : Reg) (a : Reg) (b : Reg) (w : Bool) (st : BitVec 3) (s : State) :
    Host.Outcome State Fault Refusal :=
  uniBin .maxU 1 d a b w st s

/-- Writes a when d is non-zero on entry, else b (R117). -/
def execSsel (d : Reg) (a : Reg) (b : Reg) (w : Bool) (st : BitVec 3) (s : State) :
    Host.Outcome State Fault Refusal :=
  let f := uniForm false st [a, b, d] d
  issueForm s f (fun c =>
    let r := if (if w then c.u d != 0#64 else (c.u d).setWidth 32 != 0#32) then a else b
    fixed s c f 1 [c.putU d (uniApply w (fun x _ => x) (fun x _ => x) (c.u r) 0) (c.uG d || c.uG r)])

/-- Copies a uniform register (R117). -/
def execSmov (d : Reg) (a : Reg) (w : Bool) (st : BitVec 3) (s : State) :
    Host.Outcome State Fault Refusal :=
  let f := uniForm false st [a] d
  issueForm s f (fun c => fixed s c f 1 [c.putU d (uniApply w (fun x _ => x) (fun x _ => x) (c.u a) 0) (c.uG a)])

/-- Writes a plus a scaled b (R117). -/
def execSlea (d : Reg) (a : Reg) (b : Reg) (w : Bool) (st : BitVec 3) (s : State) :
    Host.Outcome State Fault Refusal :=
  let f := uniForm false st [a, b] d
  issueForm s f (fun c => fixed s c f 1
    [c.putU d (uniApply w (fun x y => x + (y <<< 3)) (fun x y => x + (y <<< 2)) (c.u a) (c.u b)) (c.uG a || c.uG b)])

/-- Writes 1 when two uniform registers are equal (R117). -/
def execScmpEq (d : Reg) (a : Reg) (b : Reg) (w : Bool) (st : BitVec 3) (s : State) :
    Host.Outcome State Fault Refusal :=
  uniCmp .eq d a b w st s

/-- Writes 1 when two uniform registers differ (R117). -/
def execScmpNe (d : Reg) (a : Reg) (b : Reg) (w : Bool) (st : BitVec 3) (s : State) :
    Host.Outcome State Fault Refusal :=
  uniCmp .ne d a b w st s

/-- Writes 1 when a is signed-less than b (R117). -/
def execScmpLt (d : Reg) (a : Reg) (b : Reg) (w : Bool) (st : BitVec 3) (s : State) :
    Host.Outcome State Fault Refusal :=
  uniCmp .lt d a b w st s

/-- Writes 1 when a is signed-less or equal to b (R117). -/
def execScmpLe (d : Reg) (a : Reg) (b : Reg) (w : Bool) (st : BitVec 3) (s : State) :
    Host.Outcome State Fault Refusal :=
  uniCmp .le d a b w st s

/-- Writes 1 when a is unsigned-less than b (R117). -/
def execScmpLtu (d : Reg) (a : Reg) (b : Reg) (w : Bool) (st : BitVec 3) (s : State) :
    Host.Outcome State Fault Refusal :=
  uniCmp .ltu d a b w st s

/-- Writes 1 when a is unsigned-less or equal to b (R117). -/
def execScmpLeu (d : Reg) (a : Reg) (b : Reg) (w : Bool) (st : BitVec 3) (s : State) :
    Host.Outcome State Fault Refusal :=
  uniCmp .leu d a b w st s

/-- Adds a 9-bit immediate to a uniform register (R117). -/
def execSaddI64Imm9 (d : Reg) (a : Reg) (imm : BitVec 9) (st : BitVec 3) (s : State) :
    Host.Outcome State Fault Refusal :=
  uniImm .add 1 false d a (immS imm) st s

/-- Multiplies a uniform register by a 9-bit immediate (R117). -/
def execSmulI64Imm9 (d : Reg) (a : Reg) (imm : BitVec 9) (st : BitVec 3) (s : State) :
    Host.Outcome State Fault Refusal :=
  uniImm .mul 3 false d a (immS imm) st s

/-- ANDs a uniform register with a 9-bit immediate (R117). -/
def execSandB64Imm9 (d : Reg) (a : Reg) (imm : BitVec 9) (st : BitVec 3) (s : State) :
    Host.Outcome State Fault Refusal :=
  uniImm .and 1 false d a (immS imm) st s

/-- ORs a uniform register with a 9-bit immediate (R117). -/
def execSorB64Imm9 (d : Reg) (a : Reg) (imm : BitVec 9) (st : BitVec 3) (s : State) :
    Host.Outcome State Fault Refusal :=
  uniImm .or 1 false d a (immS imm) st s

/-- XORs a uniform register with a 9-bit immediate (R117). -/
def execSxorB64Imm9 (d : Reg) (a : Reg) (imm : BitVec 9) (st : BitVec 3) (s : State) :
    Host.Outcome State Fault Refusal :=
  uniImm .xor 1 false d a (immS imm) st s

/-- Shifts a uniform register left by an immediate (R117). -/
def execSshlB64Imm9 (d : Reg) (a : Reg) (imm : BitVec 9) (st : BitVec 3) (s : State) :
    Host.Outcome State Fault Refusal :=
  uniImm .shl 1 false d a (immS imm) st s

/-- Shifts a uniform register logically right by an immediate (R117). -/
def execSshrN64Imm9 (d : Reg) (a : Reg) (imm : BitVec 9) (st : BitVec 3) (s : State) :
    Host.Outcome State Fault Refusal :=
  uniImm .shr 1 false d a (immU imm) st s

/-- Shifts a uniform register arithmetically right by an immediate (R117). -/
def execSsarI64Imm9 (d : Reg) (a : Reg) (imm : BitVec 9) (st : BitVec 3) (s : State) :
    Host.Outcome State Fault Refusal :=
  uniImm .sar 1 false d a (immS imm) st s

/-- Writes the signed smaller of a and an immediate (R117). -/
def execSminI64Imm9 (d : Reg) (a : Reg) (imm : BitVec 9) (st : BitVec 3) (s : State) :
    Host.Outcome State Fault Refusal :=
  uniImm .minS 1 false d a (immS imm) st s

/-- Writes the signed larger of a and an immediate (R117). -/
def execSmaxI64Imm9 (d : Reg) (a : Reg) (imm : BitVec 9) (st : BitVec 3) (s : State) :
    Host.Outcome State Fault Refusal :=
  uniImm .maxS 1 false d a (immS imm) st s

/-- Writes the unsigned smaller of a and an immediate (R117). -/
def execSminN64Imm9 (d : Reg) (a : Reg) (imm : BitVec 9) (st : BitVec 3) (s : State) :
    Host.Outcome State Fault Refusal :=
  uniImm .minU 1 false d a (immU imm) st s

/-- Writes the unsigned larger of a and an immediate (R117). -/
def execSmaxN64Imm9 (d : Reg) (a : Reg) (imm : BitVec 9) (st : BitVec 3) (s : State) :
    Host.Outcome State Fault Refusal :=
  uniImm .maxU 1 false d a (immU imm) st s

/-- Writes a sign-extended immediate to a uniform register (R117). -/
def execSmoviI64 (d : Reg) (imm : BitVec 9) (st : BitVec 3) (s : State) :
    Host.Outcome State Fault Refusal :=
  uniMovi false d (immS imm) st s

/-- Writes a zero-extended immediate to a uniform register (R117). -/
def execSmoviN64 (d : Reg) (imm : BitVec 9) (st : BitVec 3) (s : State) :
    Host.Outcome State Fault Refusal :=
  uniMovi false d (immU imm) st s

/-- Adds a 32-bit immediate to a uniform register (R117). -/
def execSaddI64Imm32 (d : Reg) (a : Reg) (imm : BitVec 32) (st : BitVec 3) (s : State) :
    Host.Outcome State Fault Refusal :=
  uniImm .add 1 true d a (immS imm) st s

/-- Multiplies a uniform register by a 32-bit immediate (R117). -/
def execSmulI64Imm32 (d : Reg) (a : Reg) (imm : BitVec 32) (st : BitVec 3) (s : State) :
    Host.Outcome State Fault Refusal :=
  uniImm .mul 3 true d a (immS imm) st s

/-- ANDs a uniform register with a 32-bit immediate (R117). -/
def execSandB64Imm32 (d : Reg) (a : Reg) (imm : BitVec 32) (st : BitVec 3) (s : State) :
    Host.Outcome State Fault Refusal :=
  uniImm .and 1 true d a (immS imm) st s

/-- ORs a uniform register with a 32-bit immediate (R117). -/
def execSorB64Imm32 (d : Reg) (a : Reg) (imm : BitVec 32) (st : BitVec 3) (s : State) :
    Host.Outcome State Fault Refusal :=
  uniImm .or 1 true d a (immS imm) st s

/-- XORs a uniform register with a 32-bit immediate (R117). -/
def execSxorB64Imm32 (d : Reg) (a : Reg) (imm : BitVec 32) (st : BitVec 3) (s : State) :
    Host.Outcome State Fault Refusal :=
  uniImm .xor 1 true d a (immS imm) st s

/-- Shifts a uniform register left by a 32-bit immediate (R117). -/
def execSshlB64Imm32 (d : Reg) (a : Reg) (imm : BitVec 32) (st : BitVec 3) (s : State) :
    Host.Outcome State Fault Refusal :=
  uniImm .shl 1 true d a (immS imm) st s

/-- Shifts a uniform register logically right by a 32-bit immediate (R117). -/
def execSshrN64Imm32 (d : Reg) (a : Reg) (imm : BitVec 32) (st : BitVec 3) (s : State) :
    Host.Outcome State Fault Refusal :=
  uniImm .shr 1 true d a (immU imm) st s

/-- Shifts a uniform register arithmetically right by a 32-bit immediate (R117). -/
def execSsarI64Imm32 (d : Reg) (a : Reg) (imm : BitVec 32) (st : BitVec 3) (s : State) :
    Host.Outcome State Fault Refusal :=
  uniImm .sar 1 true d a (immS imm) st s

/-- Writes the signed smaller of a and a 32-bit immediate (R117). -/
def execSminI64Imm32 (d : Reg) (a : Reg) (imm : BitVec 32) (st : BitVec 3) (s : State) :
    Host.Outcome State Fault Refusal :=
  uniImm .minS 1 true d a (immS imm) st s

/-- Writes the signed larger of a and a 32-bit immediate (R117). -/
def execSmaxI64Imm32 (d : Reg) (a : Reg) (imm : BitVec 32) (st : BitVec 3) (s : State) :
    Host.Outcome State Fault Refusal :=
  uniImm .maxS 1 true d a (immS imm) st s

/-- Writes the unsigned smaller of a and a 32-bit immediate (R117). -/
def execSminN64Imm32 (d : Reg) (a : Reg) (imm : BitVec 32) (st : BitVec 3) (s : State) :
    Host.Outcome State Fault Refusal :=
  uniImm .minU 1 true d a (immU imm) st s

/-- Writes the unsigned larger of a and a 32-bit immediate (R117). -/
def execSmaxN64Imm32 (d : Reg) (a : Reg) (imm : BitVec 32) (st : BitVec 3) (s : State) :
    Host.Outcome State Fault Refusal :=
  uniImm .maxU 1 true d a (immU imm) st s

/-- Writes a sign-extended 32-bit immediate to a uniform register (R117). -/
def execSmoviI64Imm32 (d : Reg) (imm : BitVec 32) (st : BitVec 3) (s : State) :
    Host.Outcome State Fault Refusal :=
  uniMovi true d (immS imm) st s

/-- Writes a zero-extended 32-bit immediate to a uniform register (R117). -/
def execSmoviN64Imm32 (d : Reg) (imm : BitVec 32) (st : BitVec 3) (s : State) :
    Host.Outcome State Fault Refusal :=
  uniMovi true d (immU imm) st s

end Sys2Proof.Machine
end

