-- ==== Sys2Proof/Machine/Dispatch.lean ====
section
/-!
DEFINITION. The one dispatch: every instruction and step of the opcode table to its meaning.
-/
namespace Sys2Proof.Machine

def exec (i : Instr) (s : State) : Host.Outcome State Fault Refusal :=
  match i with
  | .iadd d a b w st => Sys2Proof.Machine.execIadd d a b w st s
  | .isub d a b w st => Sys2Proof.Machine.execIsub d a b w st s
  | .imul d a b w st => Sys2Proof.Machine.execImul d a b w st s
  | .imulh d a b w st => Sys2Proof.Machine.execImulh d a b w st s
  | .imad d a b w st => Sys2Proof.Machine.execImad d a b w st s
  | .iaddc d a b w st => Sys2Proof.Machine.execIaddc d a b w st s
  | .imin d a b w st => Sys2Proof.Machine.execImin d a b w st s
  | .imax d a b w st => Sys2Proof.Machine.execImax d a b w st s
  | .iabs d a w st => Sys2Proof.Machine.execIabs d a w st s
  | .ineg d a w st => Sys2Proof.Machine.execIneg d a w st s
  | .and d a b w st => Sys2Proof.Machine.execAnd d a b w st s
  | .or d a b w st => Sys2Proof.Machine.execOr d a b w st s
  | .xor d a b w st => Sys2Proof.Machine.execXor d a b w st s
  | .andn d a b w st => Sys2Proof.Machine.execAndn d a b w st s
  | .not d a w st => Sys2Proof.Machine.execNot d a w st s
  | .shl d a b w st => Sys2Proof.Machine.execShl d a b w st s
  | .shr d a b w st => Sys2Proof.Machine.execShr d a b w st s
  | .sar d a b w st => Sys2Proof.Machine.execSar d a b w st s
  | .rot d a b w st => Sys2Proof.Machine.execRot d a b w st s
  | .popc d a w st => Sys2Proof.Machine.execPopc d a w st s
  | .clz d a w st => Sys2Proof.Machine.execClz d a w st s
  | .brev d a w st => Sys2Proof.Machine.execBrev d a w st s
  | .mov d a w st => Sys2Proof.Machine.execMov d a w st s
  | .iminUnsigned d a b w st => Sys2Proof.Machine.execIminUnsigned d a b w st s
  | .imaxUnsigned d a b w st => Sys2Proof.Machine.execImaxUnsigned d a b w st s
  | .imulhUnsigned d a b w st => Sys2Proof.Machine.execImulhUnsigned d a b w st s
  | .iaddI64Imm9 d a imm st => Sys2Proof.Machine.execIaddI64Imm9 d a imm st s
  | .iaddI32Imm9 d a imm st => Sys2Proof.Machine.execIaddI32Imm9 d a imm st s
  | .imulI64Imm9 d a imm st => Sys2Proof.Machine.execImulI64Imm9 d a imm st s
  | .imulI32Imm9 d a imm st => Sys2Proof.Machine.execImulI32Imm9 d a imm st s
  | .andB64Imm9 d a imm st => Sys2Proof.Machine.execAndB64Imm9 d a imm st s
  | .orB64Imm9 d a imm st => Sys2Proof.Machine.execOrB64Imm9 d a imm st s
  | .xorB64Imm9 d a imm st => Sys2Proof.Machine.execXorB64Imm9 d a imm st s
  | .shlB64Imm9 d a imm st => Sys2Proof.Machine.execShlB64Imm9 d a imm st s
  | .shrN64Imm9 d a imm st => Sys2Proof.Machine.execShrN64Imm9 d a imm st s
  | .sarI64Imm9 d a imm st => Sys2Proof.Machine.execSarI64Imm9 d a imm st s
  | .moviI64 d imm st => Sys2Proof.Machine.execMoviI64 d imm st s
  | .moviN64 d imm st => Sys2Proof.Machine.execMoviN64 d imm st s
  | .moviI32 d imm st => Sys2Proof.Machine.execMoviI32 d imm st s
  | .iminI64Imm9 d a imm st => Sys2Proof.Machine.execIminI64Imm9 d a imm st s
  | .imaxI64Imm9 d a imm st => Sys2Proof.Machine.execImaxI64Imm9 d a imm st s
  | .iaddI64Imm32 d a imm st => Sys2Proof.Machine.execIaddI64Imm32 d a imm st s
  | .iaddI32Imm32 d a imm st => Sys2Proof.Machine.execIaddI32Imm32 d a imm st s
  | .imulI64Imm32 d a imm st => Sys2Proof.Machine.execImulI64Imm32 d a imm st s
  | .imulI32Imm32 d a imm st => Sys2Proof.Machine.execImulI32Imm32 d a imm st s
  | .andB64Imm32 d a imm st => Sys2Proof.Machine.execAndB64Imm32 d a imm st s
  | .orB64Imm32 d a imm st => Sys2Proof.Machine.execOrB64Imm32 d a imm st s
  | .xorB64Imm32 d a imm st => Sys2Proof.Machine.execXorB64Imm32 d a imm st s
  | .shlB64Imm32 d a imm st => Sys2Proof.Machine.execShlB64Imm32 d a imm st s
  | .shrN64Imm32 d a imm st => Sys2Proof.Machine.execShrN64Imm32 d a imm st s
  | .sarI64Imm32 d a imm st => Sys2Proof.Machine.execSarI64Imm32 d a imm st s
  | .moviI64Imm32 d imm st => Sys2Proof.Machine.execMoviI64Imm32 d imm st s
  | .moviN64Imm32 d imm st => Sys2Proof.Machine.execMoviN64Imm32 d imm st s
  | .moviI32Imm32 d imm st => Sys2Proof.Machine.execMoviI32Imm32 d imm st s
  | .iminI64Imm32 d a imm st => Sys2Proof.Machine.execIminI64Imm32 d a imm st s
  | .imaxI64Imm32 d a imm st => Sys2Proof.Machine.execImaxI64Imm32 d a imm st s
  | .faddF32 d a b rm st => Sys2Proof.Machine.execFaddF32 d a b rm st s
  | .fsubF32 d a b rm st => Sys2Proof.Machine.execFsubF32 d a b rm st s
  | .fmulF32 d a b rm st => Sys2Proof.Machine.execFmulF32 d a b rm st s
  | .ffmaF32 d a b rm st => Sys2Proof.Machine.execFfmaF32 d a b rm st s
  | .ffmsF32 d a b rm st => Sys2Proof.Machine.execFfmsF32 d a b rm st s
  | .fnmaF32 d a b rm st => Sys2Proof.Machine.execFnmaF32 d a b rm st s
  | .fminF32 d a b rm st => Sys2Proof.Machine.execFminF32 d a b rm st s
  | .fmaxF32 d a b rm st => Sys2Proof.Machine.execFmaxF32 d a b rm st s
  | .fdivF32 d a b rm st => Sys2Proof.Machine.execFdivF32 d a b rm st s
  | .fsqrtF32 d a rm st => Sys2Proof.Machine.execFsqrtF32 d a rm st s
  | .frcpF32 d a rm st => Sys2Proof.Machine.execFrcpF32 d a rm st s
  | .frsqF32 d a rm st => Sys2Proof.Machine.execFrsqF32 d a rm st s
  | .fexpF32 d a rm st => Sys2Proof.Machine.execFexpF32 d a rm st s
  | .fex2F32 d a rm st => Sys2Proof.Machine.execFex2F32 d a rm st s
  | .flogF32 d a rm st => Sys2Proof.Machine.execFlogF32 d a rm st s
  | .ferfF32 d a rm st => Sys2Proof.Machine.execFerfF32 d a rm st s
  | .faddF64 d a b rm st => Sys2Proof.Machine.execFaddF64 d a b rm st s
  | .fsubF64 d a b rm st => Sys2Proof.Machine.execFsubF64 d a b rm st s
  | .fmulF64 d a b rm st => Sys2Proof.Machine.execFmulF64 d a b rm st s
  | .ffmaF64 d a b rm st => Sys2Proof.Machine.execFfmaF64 d a b rm st s
  | .ffmsF64 d a b rm st => Sys2Proof.Machine.execFfmsF64 d a b rm st s
  | .fnmaF64 d a b rm st => Sys2Proof.Machine.execFnmaF64 d a b rm st s
  | .fminF64 d a b rm st => Sys2Proof.Machine.execFminF64 d a b rm st s
  | .fmaxF64 d a b rm st => Sys2Proof.Machine.execFmaxF64 d a b rm st s
  | .fdivF64 d a b rm st => Sys2Proof.Machine.execFdivF64 d a b rm st s
  | .fsqrtF64 d a rm st => Sys2Proof.Machine.execFsqrtF64 d a rm st s
  | .frcpF64 d a rm st => Sys2Proof.Machine.execFrcpF64 d a rm st s
  | .frsqF64 d a rm st => Sys2Proof.Machine.execFrsqF64 d a rm st s
  | .fexpF64 d a rm st => Sys2Proof.Machine.execFexpF64 d a rm st s
  | .fex2F64 d a rm st => Sys2Proof.Machine.execFex2F64 d a rm st s
  | .flogF64 d a rm st => Sys2Proof.Machine.execFlogF64 d a rm st s
  | .ferfF64 d a rm st => Sys2Proof.Machine.execFerfF64 d a rm st s
  | .ldB64 d x sb sc st => Sys2Proof.Machine.execLdB64 d x sb sc st s
  | .stB64 d x sb sc st => Sys2Proof.Machine.execStB64 d x sb sc st s
  | .ldt d x sb sc q st => Sys2Proof.Machine.execLdt d x sb sc q st s
  | .stt d x sb sc st => Sys2Proof.Machine.execStt d x sb sc st s
  | .sttAon d x sb sc st => Sys2Proof.Machine.execSttAon d x sb sc st s
  | .ldgB64 d x sb sc st => Sys2Proof.Machine.execLdgB64 d x sb sc st s
  | .stgB64 d x sb sc st => Sys2Proof.Machine.execStgB64 d x sb sc st s
  | .ldtv d x sb sc st => Sys2Proof.Machine.execLdtv d x sb sc st s
  | .stp d x sb sc st => Sys2Proof.Machine.execStp d x sb sc st s
  | .tst m d x sb st => Sys2Proof.Machine.execTst m d x sb st s
  | .tcom m x sb st => Sys2Proof.Machine.execTcom m x sb st s
  | .retr m x sb st => Sys2Proof.Machine.execRetr m x sb st s
  | .pref x sb sc st => Sys2Proof.Machine.execPref x sb sc st s
  | .stc d x sb sc q st => Sys2Proof.Machine.execStc d x sb sc q st s
  | .lea d x sb sc q st => Sys2Proof.Machine.execLea d x sb sc q st s
  | .ldB32 d x sb sc st => Sys2Proof.Machine.execLdB32 d x sb sc st s
  | .ldgB32 d x sb sc st => Sys2Proof.Machine.execLdgB32 d x sb sc st s
  | .stB32 d x sb sc st => Sys2Proof.Machine.execStB32 d x sb sc st s
  | .stgB32 d x sb sc st => Sys2Proof.Machine.execStgB32 d x sb sc st s
  | .ldB64Disp d x sb sc disp st => Sys2Proof.Machine.execLdB64Disp d x sb sc disp st s
  | .stB64Disp d x sb sc disp st => Sys2Proof.Machine.execStB64Disp d x sb sc disp st s
  | .ldtDisp d x sb sc disp q st => Sys2Proof.Machine.execLdtDisp d x sb sc disp q st s
  | .sttDisp d x sb sc disp st => Sys2Proof.Machine.execSttDisp d x sb sc disp st s
  | .sttAonDisp d x sb sc disp st => Sys2Proof.Machine.execSttAonDisp d x sb sc disp st s
  | .ldgB64Disp d x sb sc disp st => Sys2Proof.Machine.execLdgB64Disp d x sb sc disp st s
  | .stgB64Disp d x sb sc disp st => Sys2Proof.Machine.execStgB64Disp d x sb sc disp st s
  | .ldtvDisp d x sb sc disp st => Sys2Proof.Machine.execLdtvDisp d x sb sc disp st s
  | .stpDisp d x sb sc disp st => Sys2Proof.Machine.execStpDisp d x sb sc disp st s
  | .tstDisp m d x sb disp st => Sys2Proof.Machine.execTstDisp m d x sb disp st s
  | .tcomDisp m x sb disp st => Sys2Proof.Machine.execTcomDisp m x sb disp st s
  | .retrDisp m x sb disp st => Sys2Proof.Machine.execRetrDisp m x sb disp st s
  | .prefDisp x sb sc disp st => Sys2Proof.Machine.execPrefDisp x sb sc disp st s
  | .stcDisp d x sb sc disp q st => Sys2Proof.Machine.execStcDisp d x sb sc disp q st s
  | .leaDisp d x sb sc disp q st => Sys2Proof.Machine.execLeaDisp d x sb sc disp q st s
  | .ldB32Disp d x sb sc disp st => Sys2Proof.Machine.execLdB32Disp d x sb sc disp st s
  | .ldgB32Disp d x sb sc disp st => Sys2Proof.Machine.execLdgB32Disp d x sb sc disp st s
  | .stB32Disp d x sb sc disp st => Sys2Proof.Machine.execStB32Disp d x sb sc disp st s
  | .stgB32Disp d x sb sc disp st => Sys2Proof.Machine.execStgB32Disp d x sb sc disp st s
  | .icmpEq m a b q st => Sys2Proof.Machine.execIcmpEq m a b q st s
  | .icmpNe m a b q st => Sys2Proof.Machine.execIcmpNe m a b q st s
  | .icmpLt m a b q st => Sys2Proof.Machine.execIcmpLt m a b q st s
  | .icmpLe m a b q st => Sys2Proof.Machine.execIcmpLe m a b q st s
  | .icmpLtu m a b q st => Sys2Proof.Machine.execIcmpLtu m a b q st s
  | .icmpLeu m a b q st => Sys2Proof.Machine.execIcmpLeu m a b q st s
  | .fcmpEq m a b q st => Sys2Proof.Machine.execFcmpEq m a b q st s
  | .fcmpNe m a b q st => Sys2Proof.Machine.execFcmpNe m a b q st s
  | .fcmpLt m a b q st => Sys2Proof.Machine.execFcmpLt m a b q st s
  | .fcmpLe m a b q st => Sys2Proof.Machine.execFcmpLe m a b q st s
  | .fcmpUn m a b q st => Sys2Proof.Machine.execFcmpUn m a b q st s
  | .fclass d a q st => Sys2Proof.Machine.execFclass d a q st s
  | .fabs d a q st => Sys2Proof.Machine.execFabs d a q st s
  | .fneg d a q st => Sys2Proof.Machine.execFneg d a q st s
  | .vfroms d a q st => Sys2Proof.Machine.execVfroms d a q st s
  | .vfromsIdx d a q st => Sys2Proof.Machine.execVfromsIdx d a q st s
  | .sfromv d a lane q st => Sys2Proof.Machine.execSfromv d a lane q st s
  | .lshfl d a b q st => Sys2Proof.Machine.execLshfl d a b q st s
  | .lpush d a b q st => Sys2Proof.Machine.execLpush d a b q st s
  | .lbcst d a lane q st => Sys2Proof.Machine.execLbcst d a lane q st s
  | .lvoteBallot d m st => Sys2Proof.Machine.execLvoteBallot d m st s
  | .lvoteAny d m st => Sys2Proof.Machine.execLvoteAny d m st s
  | .lvoteAll d m st => Sys2Proof.Machine.execLvoteAll d m st s
  | .lfirst d m q st => Sys2Proof.Machine.execLfirst d m q st s
  | .mopAnd m ma mb st => Sys2Proof.Machine.execMopAnd m ma mb st s
  | .mopOr m ma mb st => Sys2Proof.Machine.execMopOr m ma mb st s
  | .mopXor m ma mb st => Sys2Proof.Machine.execMopXor m ma mb st s
  | .mopAndn m ma mb st => Sys2Proof.Machine.execMopAndn m ma mb st s
  | .mopNot m ma st => Sys2Proof.Machine.execMopNot m ma st s
  | .mpop d m q st => Sys2Proof.Machine.execMpop d m q st s
  | .tagset d b q st => Sys2Proof.Machine.execTagset d b q st s
  | .tagrd m a st => Sys2Proof.Machine.execTagrd m a st s
  | .tagrdLine m a g st => Sys2Proof.Machine.execTagrdLine m a g st s
  | .cureRst st => Sys2Proof.Machine.execCureRst st s
  | .cureRstRdlast d st => Sys2Proof.Machine.execCureRstRdlast d st s
  | .cureRstRdcnt d st => Sys2Proof.Machine.execCureRstRdcnt d st s
  | .fxrd d st => Sys2Proof.Machine.execFxrd d st s
  | .fxclr k st => Sys2Proof.Machine.execFxclr k st s
  | .accz k st => Sys2Proof.Machine.execAccz k st s
  | .mmaC k a b st => Sys2Proof.Machine.execMmaC k a b st s
  | .mmaQ k a b st => Sys2Proof.Machine.execMmaQ k a b st s
  | .mmas k a b st => Sys2Proof.Machine.execMmas k a b st s
  | .dist k a b st => Sys2Proof.Machine.execDist k a b st s
  | .topk k d n max st => Sys2Proof.Machine.execTopk k d n max st s
  | .accrd k d a st => Sys2Proof.Machine.execAccrd k d a st s
  | .accwb k a st => Sys2Proof.Machine.execAccwb k a st s
  | .accadj k v a st => Sys2Proof.Machine.execAccadj k v a st s
  | .accchk k d v st => Sys2Proof.Machine.execAccchk k d v st s
  | .tapeRec a n lbl st => Sys2Proof.Machine.execTapeRec a n lbl st s
  | .tapeBr m lbl st => Sys2Proof.Machine.execTapeBr m lbl st s
  | .tapePop d n lbl st => Sys2Proof.Machine.execTapePop d n lbl st s
  | .tapePopbr m lbl st => Sys2Proof.Machine.execTapePopbr m lbl st s
  | .bfx d a pos len1 ty st => Sys2Proof.Machine.execBfx d a pos len1 ty st s
  | .bfi d a pos len1 ty st => Sys2Proof.Machine.execBfi d a pos len1 ty st s
  | .sel d a b m ty st => Sys2Proof.Machine.execSel d a b m ty st s
  | .cvt d a c rm t1 t2 hi st => Sys2Proof.Machine.execCvt d a c rm t1 t2 hi st s
  | .cvtn d a b rm t1 t2 hi st => Sys2Proof.Machine.execCvtn d a b rm t1 t2 hi st s
  | .packhb d a sb rm t1 t2 given gap st => Sys2Proof.Machine.execPackhb d a sb rm t1 t2 given gap st s
  | .flg2 d a rm ty st => Sys2Proof.Machine.execFlg2 d a rm ty st s
  | .fscale d a b rm ty st => Sys2Proof.Machine.execFscale d a b rm ty st s
  | .ftwos d a b c ty st => Sys2Proof.Machine.execFtwos d a b c ty st s
  | .ftwop d a b c ty st => Sys2Proof.Machine.execFtwop d a b c ty st s
  | .frnd d a rm ty st => Sys2Proof.Machine.execFrnd d a rm ty st s
  | .lred d a op rm ty st => Sys2Proof.Machine.execLred d a op rm ty st s
  | .lscan d a op excl rm ty st => Sys2Proof.Machine.execLscan d a op excl rm ty st s
  | .atom d x sb c op ty rm sc sp st => Sys2Proof.Machine.execAtom d x sb c op ty rm sc sp st s
  | .red x sb c op ty rm sc sp st => Sys2Proof.Machine.execRed x sb c op ty rm sc sp st s
  | .cure d a b g rm ty hi sp st => Sys2Proof.Machine.execCure d a b g rm ty hi sp st s
  | .sadd d a b w st => Sys2Proof.Machine.execSadd d a b w st s
  | .ssub d a b w st => Sys2Proof.Machine.execSsub d a b w st s
  | .smul d a b w st => Sys2Proof.Machine.execSmul d a b w st s
  | .sand d a b w st => Sys2Proof.Machine.execSand d a b w st s
  | .sor d a b w st => Sys2Proof.Machine.execSor d a b w st s
  | .sxor d a b w st => Sys2Proof.Machine.execSxor d a b w st s
  | .sshl d a b w st => Sys2Proof.Machine.execSshl d a b w st s
  | .sshr d a b w st => Sys2Proof.Machine.execSshr d a b w st s
  | .ssar d a b w st => Sys2Proof.Machine.execSsar d a b w st s
  | .smin d a b w st => Sys2Proof.Machine.execSmin d a b w st s
  | .smax d a b w st => Sys2Proof.Machine.execSmax d a b w st s
  | .sminUnsigned d a b w st => Sys2Proof.Machine.execSminUnsigned d a b w st s
  | .smaxUnsigned d a b w st => Sys2Proof.Machine.execSmaxUnsigned d a b w st s
  | .ssel d a b w st => Sys2Proof.Machine.execSsel d a b w st s
  | .smov d a w st => Sys2Proof.Machine.execSmov d a w st s
  | .slea d a b w st => Sys2Proof.Machine.execSlea d a b w st s
  | .scmpEq d a b w st => Sys2Proof.Machine.execScmpEq d a b w st s
  | .scmpNe d a b w st => Sys2Proof.Machine.execScmpNe d a b w st s
  | .scmpLt d a b w st => Sys2Proof.Machine.execScmpLt d a b w st s
  | .scmpLe d a b w st => Sys2Proof.Machine.execScmpLe d a b w st s
  | .scmpLtu d a b w st => Sys2Proof.Machine.execScmpLtu d a b w st s
  | .scmpLeu d a b w st => Sys2Proof.Machine.execScmpLeu d a b w st s
  | .saddI64Imm9 d a imm st => Sys2Proof.Machine.execSaddI64Imm9 d a imm st s
  | .smulI64Imm9 d a imm st => Sys2Proof.Machine.execSmulI64Imm9 d a imm st s
  | .sandB64Imm9 d a imm st => Sys2Proof.Machine.execSandB64Imm9 d a imm st s
  | .sorB64Imm9 d a imm st => Sys2Proof.Machine.execSorB64Imm9 d a imm st s
  | .sxorB64Imm9 d a imm st => Sys2Proof.Machine.execSxorB64Imm9 d a imm st s
  | .sshlB64Imm9 d a imm st => Sys2Proof.Machine.execSshlB64Imm9 d a imm st s
  | .sshrN64Imm9 d a imm st => Sys2Proof.Machine.execSshrN64Imm9 d a imm st s
  | .ssarI64Imm9 d a imm st => Sys2Proof.Machine.execSsarI64Imm9 d a imm st s
  | .sminI64Imm9 d a imm st => Sys2Proof.Machine.execSminI64Imm9 d a imm st s
  | .smaxI64Imm9 d a imm st => Sys2Proof.Machine.execSmaxI64Imm9 d a imm st s
  | .sminN64Imm9 d a imm st => Sys2Proof.Machine.execSminN64Imm9 d a imm st s
  | .smaxN64Imm9 d a imm st => Sys2Proof.Machine.execSmaxN64Imm9 d a imm st s
  | .smoviI64 d imm st => Sys2Proof.Machine.execSmoviI64 d imm st s
  | .smoviN64 d imm st => Sys2Proof.Machine.execSmoviN64 d imm st s
  | .saddI64Imm32 d a imm st => Sys2Proof.Machine.execSaddI64Imm32 d a imm st s
  | .smulI64Imm32 d a imm st => Sys2Proof.Machine.execSmulI64Imm32 d a imm st s
  | .sandB64Imm32 d a imm st => Sys2Proof.Machine.execSandB64Imm32 d a imm st s
  | .sorB64Imm32 d a imm st => Sys2Proof.Machine.execSorB64Imm32 d a imm st s
  | .sxorB64Imm32 d a imm st => Sys2Proof.Machine.execSxorB64Imm32 d a imm st s
  | .sshlB64Imm32 d a imm st => Sys2Proof.Machine.execSshlB64Imm32 d a imm st s
  | .sshrN64Imm32 d a imm st => Sys2Proof.Machine.execSshrN64Imm32 d a imm st s
  | .ssarI64Imm32 d a imm st => Sys2Proof.Machine.execSsarI64Imm32 d a imm st s
  | .sminI64Imm32 d a imm st => Sys2Proof.Machine.execSminI64Imm32 d a imm st s
  | .smaxI64Imm32 d a imm st => Sys2Proof.Machine.execSmaxI64Imm32 d a imm st s
  | .sminN64Imm32 d a imm st => Sys2Proof.Machine.execSminN64Imm32 d a imm st s
  | .smaxN64Imm32 d a imm st => Sys2Proof.Machine.execSmaxN64Imm32 d a imm st s
  | .smoviI64Imm32 d imm st => Sys2Proof.Machine.execSmoviI64Imm32 d imm st s
  | .smoviN64Imm32 d imm st => Sys2Proof.Machine.execSmoviN64Imm32 d imm st s
  | .bra off st => Sys2Proof.Machine.execBra off st s
  | .brc z a off st => Sys2Proof.Machine.execBrc z a off st s
  | .brl neg m off st => Sys2Proof.Machine.execBrl neg m off st s
  | .call off st => Sys2Proof.Machine.execCall off st s
  | .ret st => Sys2Proof.Machine.execRet st s
  | .join st => Sys2Proof.Machine.execJoin st s
  | .yield st => Sys2Proof.Machine.execYield st s
  | .exit st => Sys2Proof.Machine.execExit st s
  | .land st => Sys2Proof.Machine.execLand st s
  | .jmpiUniform a st => Sys2Proof.Machine.execJmpiUniform a st s
  | .jmpiLane a st => Sys2Proof.Machine.execJmpiLane a st s
  | .barInit d a k sp st => Sys2Proof.Machine.execBarInit d a k sp st s
  | .barArr a k sp st => Sys2Proof.Machine.execBarArr a k sp st s
  | .barWait d a k sp st => Sys2Proof.Machine.execBarWait d a k sp st s
  | .barSync cum r a k sp st => Sys2Proof.Machine.execBarSync cum r a k sp st s
  | .barQ d a k sp st => Sys2Proof.Machine.execBarQ d a k sp st s
  | .semInit d a k st => Sys2Proof.Machine.execSemInit d a k st s
  | .semAcq d a k sp st => Sys2Proof.Machine.execSemAcq d a k sp st s
  | .semRel a k sp st => Sys2Proof.Machine.execSemRel a k sp st s
  | .semTry d a k sp st => Sys2Proof.Machine.execSemTry d a k sp st s
  | .hodInit a k st => Sys2Proof.Machine.execHodInit a k st s
  | .hodPut d a k st => Sys2Proof.Machine.execHodPut d a k st s
  | .hodGet d a k st => Sys2Proof.Machine.execHodGet d a k st s
  | .hodTry d a k st => Sys2Proof.Machine.execHodTry d a k st s
  | .hodClose a k st => Sys2Proof.Machine.execHodClose a k st s
  | .fence cum kind sp st => Sys2Proof.Machine.execFence cum kind sp st s
  | .wait n a k st => Sys2Proof.Machine.execWait n a k st s
  | .accalloc d a k st => Sys2Proof.Machine.execAccalloc d a k st s
  | .accfree a k st => Sys2Proof.Machine.execAccfree a k st s
  | .lds d sb imm st => Sys2Proof.Machine.execLds d sb imm st s
  | .sts d sb imm st => Sys2Proof.Machine.execSts d sb imm st s
  | .bind d sb imm st => Sys2Proof.Machine.execBind d sb imm st s
  | .unbind d st => Sys2Proof.Machine.execUnbind d st s
  | .ldsDisp d sb disp st => Sys2Proof.Machine.execLdsDisp d sb disp st s
  | .stsDisp d sb disp st => Sys2Proof.Machine.execStsDisp d sb disp st s
  | .bindDisp d sb disp st => Sys2Proof.Machine.execBindDisp d sb disp st s
  | .unbindDisp d st => Sys2Proof.Machine.execUnbindDisp d st s
  | .nop st => Sys2Proof.Machine.execNop st s
  | .sysr d y st => Sys2Proof.Machine.execSysr d y st s
  | .sysw a y st => Sys2Proof.Machine.execSysw a y st s
  | .modeRm d code st => Sys2Proof.Machine.execModeRm d code st s
  | .modeTenSet d mask st => Sys2Proof.Machine.execModeTenSet d mask st s
  | .modeTenClr d mask st => Sys2Proof.Machine.execModeTenClr d mask st s
  | .modeReg d a st => Sys2Proof.Machine.execModeReg d a st s
  | .srseed a st => Sys2Proof.Machine.execSrseed a st s
  | .splitq d st => Sys2Proof.Machine.execSplitq d st s
  | .trap n st => Sys2Proof.Machine.execTrap n st s
  | .rte st => Sys2Proof.Machine.execRte st s
  | .rteKill st => Sys2Proof.Machine.execRteKill st s
  | .bkpt n st => Sys2Proof.Machine.execBkpt n st s
  | .halt st => Sys2Proof.Machine.execHalt st s
  | .copyq d a st => Sys2Proof.Machine.execCopyq d a st s
  | .copyqBytes d a st => Sys2Proof.Machine.execCopyqBytes d a st s
  | .tlbiRange a sp st => Sys2Proof.Machine.execTlbiRange a sp st s
  | .tlbiAll a sp st => Sys2Proof.Machine.execTlbiAll a sp st s
  | .tapeOpen d a br st => Sys2Proof.Machine.execTapeOpen d a br st s
  | .tapeSeal d st => Sys2Proof.Machine.execTapeSeal d st s
  | .tapeRev st => Sys2Proof.Machine.execTapeRev st s
  | .tapeClose st => Sys2Proof.Machine.execTapeClose st s
  | .launch d a st => Sys2Proof.Machine.execLaunch d a st s
  | .prio d a k st => Sys2Proof.Machine.execPrio d a k st s
  | .courseRd d st => Sys2Proof.Machine.execCourseRd d st s
  | .courseEnd d st => Sys2Proof.Machine.execCourseEnd d st s
  | .roleq d a k st => Sys2Proof.Machine.execRoleq d a k st s
  | .rqmovGive d a role st => Sys2Proof.Machine.execRqmovGive d a role st s
  | .rqmovTake d a st => Sys2Proof.Machine.execRqmovTake d a st s
  | .collRed d a bin n st => Sys2Proof.Machine.execCollRed d a bin n st s
  | .collMaxe d a st => Sys2Proof.Machine.execCollMaxe d a st s
  | .collBcst d a st => Sys2Proof.Machine.execCollBcst d a st s
  | .putw d a st => Sys2Proof.Machine.execPutw d a st s
  | .sigwSet d a st => Sys2Proof.Machine.execSigwSet d a st s
  | .sigwAdd d a st => Sys2Proof.Machine.execSigwAdd d a st s
  | .rfenceRel st => Sys2Proof.Machine.execRfenceRel st s
  | .copy d a b c chain ck cmp hod st => Sys2Proof.Machine.execCopy d a b c chain ck cmp hod st s
  | .fltrecClaim d st => Sys2Proof.Machine.execFltrecClaim d st s
  | .fltdoneAnswer a st => Sys2Proof.Machine.execFltdoneAnswer a st s
  | .rlogClaim d st => Sys2Proof.Machine.execRlogClaim d st s
  | .tapesegAppend a st => Sys2Proof.Machine.execTapesegAppend a st s
  | .injectDisarm => Sys2Proof.Machine.execInjectDisarm s
  | .injectAccEntry bank row col bit => Sys2Proof.Machine.execInjectAccEntry bank row col bit s
  | .injectLaneReg r t bit => Sys2Proof.Machine.execInjectLaneReg r t bit s
  | .injectLocalLine line bit => Sys2Proof.Machine.execInjectLocalLine line bit s
  | .injectCopyArm byte bit => Sys2Proof.Machine.execInjectCopyArm byte bit s
  | .injectFpArm t => Sys2Proof.Machine.execInjectFpArm t s
  | .injectMatrixArm col twice => Sys2Proof.Machine.execInjectMatrixArm col twice s
  | .injectLocalDouble line bit => Sys2Proof.Machine.execInjectLocalDouble line bit s
  | .injectAddrLine bit => Sys2Proof.Machine.execInjectAddrLine bit s
  | .attestRequest a st => Sys2Proof.Machine.execAttestRequest a st s
  | .attestQuote => Sys2Proof.Machine.execAttestQuote s
  | .lrecSubmit v => Sys2Proof.Machine.execLrecSubmit v s
  | .wstatClear v => Sys2Proof.Machine.execWstatClear v s
  | .hostWrite pa bytes => Sys2Proof.Machine.execHostWrite pa bytes s
  | .hostRead pa n => Sys2Proof.Machine.execHostRead pa n s
  | .loadComplete b => Sys2Proof.Machine.execLoadComplete b s
  | .storePerformed b => Sys2Proof.Machine.execStorePerformed b s
  | .fxFlagWrite b => Sys2Proof.Machine.execFxFlagWrite b s
  | .collectionWindowClose b => Sys2Proof.Machine.execCollectionWindowClose b s
  | .shadowDivergence b => Sys2Proof.Machine.execShadowDivergence b s
  | .trapSlotEntry b => Sys2Proof.Machine.execTrapSlotEntry b s
  | .debugStep b k => Sys2Proof.Machine.execDebugStep b k s
  | .haltResume b => Sys2Proof.Machine.execHaltResume b s
  | .arrayRun core => Sys2Proof.Machine.execArrayRun core s
  | .quadRendezvous quad => Sys2Proof.Machine.execQuadRendezvous quad s
  | .accallocGrant core => Sys2Proof.Machine.execAccallocGrant core s
  | .ldtvAttempt b => Sys2Proof.Machine.execLdtvAttempt b s
  | .arrivalCounted b => Sys2Proof.Machine.execArrivalCounted b s
  | .hodSlotPerformed b => Sys2Proof.Machine.execHodSlotPerformed b s
  | .copyHodAccept b => Sys2Proof.Machine.execCopyHodAccept b s
  | .copySpan b => Sys2Proof.Machine.execCopySpan b s
  | .tlbiComplete b => Sys2Proof.Machine.execTlbiComplete b s
  | .tapeSealComplete b => Sys2Proof.Machine.execTapeSealComplete b s
  | .sigwFlagUpdate b => Sys2Proof.Machine.execSigwFlagUpdate b s
  | .rfenceMarkerDone b => Sys2Proof.Machine.execRfenceMarkerDone b s
  | .collectiveComplete inst remote => Sys2Proof.Machine.execCollectiveComplete inst remote s
  | .negativeResponse b revoked => Sys2Proof.Machine.execNegativeResponse b revoked s
  | .flitCrcRetry link => Sys2Proof.Machine.execFlitCrcRetry link s
  | .keyRevoke key => Sys2Proof.Machine.execKeyRevoke key s
  | .keyAssign key part => Sys2Proof.Machine.execKeyAssign key part s
  | .launchAccept die => Sys2Proof.Machine.execLaunchAccept die s
  | .launchAdmit lid => Sys2Proof.Machine.execLaunchAdmit lid s
  | .wallPlace die => Sys2Proof.Machine.execWallPlace die s
  | .preempt die => Sys2Proof.Machine.execPreempt die s
  | .wallRestore wall => Sys2Proof.Machine.execWallRestore wall s
  | .launchDone lid => Sys2Proof.Machine.execLaunchDone lid s
  | .courseCommit lid => Sys2Proof.Machine.execCourseCommit lid s
  | .syncOpEvaluate b k => Sys2Proof.Machine.execSyncOpEvaluate b k s
  | .brickKill b => Sys2Proof.Machine.execBrickKill b s
  | .controlScrub => Sys2Proof.Machine.execControlScrub s
  | .machineCheck what => Sys2Proof.Machine.execMachineCheck what s
  | .powerOnBoot => Sys2Proof.Machine.execPowerOnBoot s
  | .sagTrip quad => Sys2Proof.Machine.execSagTrip quad s
  | .sagRelease quad => Sys2Proof.Machine.execSagRelease quad s
  | .powerSample watt => Sys2Proof.Machine.execPowerSample watt s
  | .thermalThrottle die tj => Sys2Proof.Machine.execThermalThrottle die tj s
  | .thermalShutdown die tj => Sys2Proof.Machine.execThermalShutdown die tj s
  | .thermalRecover die tj => Sys2Proof.Machine.execThermalRecover die tj s
  | .unassignedEncoding cause two => Sys2Proof.Machine.execUnassignedEncoding cause two s
  | .linkRestore link => Sys2Proof.Machine.execLinkRestore link s
  | .debugResume b => Sys2Proof.Machine.execDebugResume b s
  | .tapeRecordComplete b => Sys2Proof.Machine.execTapeRecordComplete b s
  | .fabricRequestArrival req => Sys2Proof.Machine.execFabricRequestArrival req s

end Sys2Proof.Machine
end

