-- ==== Sys2Proof/Machine/Fetch.lean ====
section
/-!
DEFINITION. Fetching an instruction (R51, R334, R335): the bytes at a split's program counter, as the die's variant patches
them (R48, R290), one word or two.
-/
namespace Sys2Proof.Machine

/-- What a fetch gives: the words (the second is zero for a one-word instruction), a page whose translation faults, or a
cause with its data and the length of the instruction as far as it is known, or nothing while a link on the way is out of service
(R368). -/
inductive Fetched where
  | words (w p : IWord)
  | fault (va : Nat)
  | cause (c : BitVec 9) (two : Bool) (aux0 aux1 : W64)
  | held
  deriving DecidableEq, Repr

/-- A byte of code: what a relocation of the die's variant put there, else what memory holds. -/
def codeByte (s : State) (br : Brick) (va pa : Nat) : Byte :=
  match (launchOf s br).bind (fun l => tabGet? l.patch (2 ^ 57 * dieOfCore br.core + va)) with
  | some x => x
  | none => byteAt s (.phys pa)

/-- One word of code at a virtual address, translated with the execute kind (R334) and read through the check of its line; on another
module, over the fabric (R370, R374, log 121). -/
def fetchWord (s : State) (c : Ctx) (two : Bool) (va : Nat) : State × Except Fetched IWord :=
  match brickTranslate s c kExec va with
  | (s, .absent) => (s, .error (.fault va))
  | (s, .cause x) => (s, .error (.cause x two (BitVec.ofNat 64 va) 0))
  | (s, .ok pa) =>
    let l := Loc.phys pa
    if locDown s l then (s, .error .held)
    else match outCheck s l with
    | some x => (s, .error (.cause x two (BitVec.ofNat 64 va) 0))
    | none =>
    let (s, psn) := checkLine (noteRead s l 4) l.line
    let s := observe s (some c.b) l 4
    if psn then (s, .error (.cause 0x146#9 two (BitVec.ofNat 64 (structOf l)) (BitVec.ofNat 64 l.line.report)))
    else (s, .ok (wordOfBytes (codeByte s c.br va pa) (codeByte s c.br (va + 1) (pa + 1)) (codeByte s c.br (va + 2) (pa + 2))
            (codeByte s c.br (va + 3) (pa + 3))))

/-- The instruction's words at an address: the payload is fetched together with the first word (R51). -/
def fetchAt (s : State) (c : Ctx) (pc : Nat) : State × Fetched :=
  match fetchWord s c false (pc % 2 ^ 57) with
  | (s, .error e) => (s, e)
  | (s, .ok w) =>
    if !isTwoWord w then (s, .words w 0#32)
    else match fetchWord s c true ((pc + 4) % 2 ^ 57) with
      | (s, .error e) => (s, e)
      | (s, .ok p) => (s, .words w p)

/-- The slot that an instruction uses: the lane slot for a word of the lane set (R27, R146). -/
def laneWord (w : IWord) : Bool := !w.getLsbD 31

/-- A fetch that gives no instruction: a fault parks the brick, a cause is a precise trap of the instruction, reported at
its own address. -/
def fetchFails (s : State) (c : Ctx) : Fetched → State
  | .words _ _ => s
  | .held => holdForm s c
  | .fault va => brickFault s c kExec va
  | .cause x two a0 a1 =>
    if flagHold c then holdForm s c
    else raiseTrap s c (bareForm two false 0 .vec) { trapOf c x with aux0 := a0, aux1 := a1 }

end Sys2Proof.Machine
end

