-- ==== Sys2Proof/Machine/Sched.lean ====
section
/-!
DEFINITION. What happens next: inputs from outside, the steps that the part takes outside the issue slots, the choice of
what issues in each slot (R146–R149), and the passing of one clock.
-/
namespace Sys2Proof.Machine

/-- A step that the machine takes of itself. -/
inductive Ev where
  | powerOnBoot | attestQuote
  | brickKill (b : Nat)
  | fxFlagWrite (b : Nat) | collectionWindowClose (b : Nat) | shadowDivergence (b : Nat) | trapSlotEntry (b : Nat)
  | loadComplete (b : Nat) | storePerformed (b : Nat) | ldtvAttempt (b : Nat) | hodSlotPerformed (b : Nat)
  | sigwFlagUpdate (b : Nat) | tapeRecordComplete (b : Nat) | tapeSealComplete (b : Nat)
  | copyHodAccept (b : Nat) | copySpan (b : Nat) | tlbiComplete (b : Nat) | rfenceMarkerDone (b : Nat)
  | arrivalCounted (b : Nat) | syncOpEvaluate (b k : Nat)
  | arrayRun (core : Nat) | quadRendezvous (quad : Nat) | accallocGrant (core : Nat)
  | collectiveComplete (inst : Nat)
  | launchAccept (die : Nat) | launchAdmit (lid : Nat) | wallPlace (die : Nat) | preempt (die : Nat) | wallRestore (wall : Nat)
  | courseCommit (lid : Nat) | launchDone (lid : Nat)
  deriving DecidableEq, Repr

/-- The meaning of each. -/
def Ev.run (s : State) : Ev → Host.Outcome State Fault Refusal
  | .powerOnBoot => execPowerOnBoot s
  | .attestQuote => execAttestQuote s
  | .brickKill b => execBrickKill b s
  | .fxFlagWrite b => execFxFlagWrite b s
  | .collectionWindowClose b => execCollectionWindowClose b s
  | .shadowDivergence b => execShadowDivergence b s
  | .trapSlotEntry b => execTrapSlotEntry b s
  | .loadComplete b => execLoadComplete b s
  | .storePerformed b => execStorePerformed b s
  | .ldtvAttempt b => execLdtvAttempt b s
  | .hodSlotPerformed b => execHodSlotPerformed b s
  | .sigwFlagUpdate b => execSigwFlagUpdate b s
  | .tapeRecordComplete b => execTapeRecordComplete b s
  | .tapeSealComplete b => execTapeSealComplete b s
  | .copyHodAccept b => execCopyHodAccept b s
  | .copySpan b => execCopySpan b s
  | .tlbiComplete b => execTlbiComplete b s
  | .rfenceMarkerDone b => execRfenceMarkerDone b s
  | .arrivalCounted b => execArrivalCounted b s
  | .syncOpEvaluate b k => execSyncOpEvaluate b k s
  | .arrayRun core => execArrayRun core s
  | .quadRendezvous quad => execQuadRendezvous quad s
  | .accallocGrant core => execAccallocGrant core s
  | .collectiveComplete inst => execCollectiveComplete inst [] s
  | .launchAccept die => execLaunchAccept die s
  | .launchAdmit lid => execLaunchAdmit lid s
  | .wallPlace die => execWallPlace die s
  | .preempt die => execPreempt die s
  | .wallRestore wall => execWallRestore wall s
  | .courseCommit lid => execCourseCommit lid s
  | .launchDone lid => execLaunchDone lid s

/-- What the outside of the module can do to it: the host, the fabric and its manager, a debugger, the site processor's own
acts, faults, power and heat. -/
def isInput : Instr → Bool
  | .lrecSubmit _ | .wstatClear _ | .hostWrite _ _ | .hostRead _ _ | .debugStep _ _ | .haltResume _ | .debugResume _
  | .collectiveComplete _ _ | .negativeResponse _ _ | .flitCrcRetry _ | .linkRestore _ | .keyRevoke _ | .keyAssign _ _
  | .fabricRequestArrival _ | .brickKill _ | .controlScrub | .machineCheck _ | .sagTrip _ | .sagRelease _ | .powerSample _
  | .thermalThrottle _ _ | .thermalShutdown _ _ | .thermalRecover _ _ => true
  | _ => false

/-- What the next step does. -/
inductive Move where
  | input (i : Instr) (rest : List (Nat × Instr))
  | event (e : Ev)
  /-- a deterministic brick takes the trap that a commit owes it -/
  | owe (b : Nat)
  | wake (b k : Nat)
  | issue (b k : Nat)
  | tick
  deriving DecidableEq, Repr

/-! ### Inputs -/

/-- The first input that is due, with the others. -/
def dueInput (clk : Nat) : List (Nat × Instr) → Option (Instr × List (Nat × Instr))
  | [] => none
  | x :: l => if x.1 ≤ clk then some (x.2, l) else (dueInput clk l).map (fun y => (y.1, x :: y.2))

/-! ### The module's own steps -/

/-- A split is parked on RFENCE with nothing left that it waits for. -/
def fenceDone (br : Brick) : Bool :=
  br.splits.any (fun x => match x.2.wait with
    | some w => (match w.op with
      | .rfence seqs => !br.flights.any (fun f => seqs.contains f.seq && !f.done)
      | _ => false)
    | none => false)

/-- The first split whose synchronising operation can be evaluated now: while the brick has a trap pending or runs its handler,
only the handler's own. -/
def syncSplit (s : State) (b : Nat) (br : Brick) : Option Nat :=
  (br.splits.find? (fun x => match x.2.syncAt, x.2.wait with
    | some T, some w => !br.frozen x.1 && br.trap.isNone && decide (x.2.held ≤ s.clk) &&
        ((deadlocked s br.launch && isLastBrick s br) || syncReady s (waitCtx b x.1 br x.2 w) T)
    | _, _ => false)).map (·.1)

/-- Trap-pending bricks of a partition enter its slot by the cycle of their trap, then by brick slot (R350). -/
def entersBefore (x y : Brick) : Bool :=
  match x.trap, y.trap with
  | some p, some q => decide (p.cycle < q.cycle) || (p.cycle == q.cycle && decide (x.slot < y.slot))
  | _, _ => false

/-- A brick can enter the slot now: its handler's page, or a link to it, is not waited for. -/
def canEnter (s : State) (br : Brick) : Bool :=
  br.alive && slotReady s br && !savedBrick s br && !stopsHere s br && br.tfault.all (·.refused) &&
    (landing s ⟨0, handlerSplit, br, handlerOf s br⟩ br.vec).2 != .held

/-- The brick is the next one of its partition to enter the slot. -/
def entersNow (s : State) (b : Nat) (br : Brick) : Bool :=
  br.trap.isSome && canEnter s br &&
    s.bricks.all (fun y => y.1 == b || y.2.core != br.core || y.2.part != br.part || !canEnter s y.2 || !entersBefore y.2 br)

/-- The first of some cases that holds. -/
def firstCase {α : Type} : List (Bool × α) → Option α
  | [] => none
  | (true, x) :: _ => some x
  | (false, _) :: l => firstCase l

/-- What happens next to one brick. -/
def brickEvent (s : State) (x : Nat × Brick) : Option Ev :=
  let (b, br) := x
  if savedBrick s br then none
  else firstCase [
    (br.alive && br.inSlot && br.trap.isSome, .brickKill b),
    (br.window.any (fun w => decide (w + 16 ≤ s.clk)), .collectionWindowClose b),
    (br.fxq.any (fun p => decide (p.due ≤ s.clk)), .fxFlagWrite b),
    (br.divq.any (fun d => decide (d.due ≤ s.clk)), .shadowDivergence b),
    ((readyFlight s br FlightKind.loads).isSome, .loadComplete b),
    ((readyFlight s br FlightKind.stores).isSome, .storePerformed b),
    ((readyFlight s br FlightKind.attempts).isSome, .ldtvAttempt b),
    ((readyFlight s br FlightKind.fills).isSome, .hodSlotPerformed b),
    ((readyFlight s br FlightKind.signals).isSome, .sigwFlagUpdate b),
    (if bufferOver s br then !spillBlocked s br else (openFlight br .tapeRec).isSome, .tapeRecordComplete b),
    ((openFlight br .tapeSeal).any (fun f => tapeQuiet br f.seq) && !spillBlocked s br, .tapeSealComplete b),
    ((acceptableCopy s b).isSome, .copyHodAccept b),
    ((nextCopy s b).isSome, .copySpan b),
    ((firstStep (tlbiStep s b br) br.flights).isSome, .tlbiComplete b),
    (fenceDone br, .rfenceMarkerDone b),
    (br.alive && countable s b br, .arrivalCounted b),
    (br.alive && !stopsHere s br && (syncSplit s b br).isSome, .syncOpEvaluate b ((syncSplit s b br).getD 0)),
    (entersNow s b br, .trapSlotEntry b)]

/-- What happens next on a core. -/
def coreEvent (s : State) (x : Nat × Core) : Option Ev :=
  firstCase [
    (x.2.queue.head?.any (fun e => !e.isQuad) && decide (x.2.busy ≤ s.clk), .arrayRun x.1),
    ((nextGrant s x.1).isSome, .accallocGrant x.1)]

/-- The quad's rendezvous comes about, or cannot. -/
def quadReady (s : State) (quad : Nat) : Bool :=
  let hs := quadHeads s quad
  !hs.isEmpty && ((owedHead s quad).isSome || quadBroken s quad || (hs.length == 4 && hs.all (fun x => decide ((coreOf s x.1).busy ≤ s.clk))))

/-- The participant's operation stands, and time enough has passed. -/
def partyDue (s : State) (p : Party) : Bool := (flightOf s p.brick p.seq).all (fun f => decide (f.due ≤ s.clk))

/-- An instance whose participants are all bricks of this module can complete, or its result can be written. -/
def collReady (s : State) (x : Coll) : Bool :=
  let mine := x.parties.filter (·.joined)
  x.failed.isNone && !mine.isEmpty &&
    (match x.result with
     | some _ => mine.any (fun p => !partyAway s p)
     | none =>
       let all := mine.map (fun p => p.contrib s.module)
       !agreeAll all || (decide (all.length = ((all.head?).map (fun y => ctrlP y.ctrl)).getD 0) && mine.all (partyDue s)))

/-- What happens next to one launch. -/
def launchEvent (s : State) (x : Nat × Launch) : Option Ev :=
  firstCase [
    (admissible s x.2, .launchAdmit x.1),
    ((nextCommit s x.1).any (commitReady s x.1), .courseCommit x.1),
    (launchOver s x.1 x.2, .launchDone x.1)]

/-- A wall is stopping, its bricks stand still and their tapes can be written, or victims are to be stopped. -/
def preemptReady (s : State) (die : Nat) : Bool :=
  match savable s die with
  | some (w, _) => s.bricks.all (fun x => x.2.wall != w || !spillBlocked s x.2)
  | none => (nextVictims s die).isSome

/-- What a die's site processor does next. -/
def dieEvent (s : State) (die : Nat) : Option Ev :=
  firstCase [
    ((dieState s die).booted && (takeSubmit s.clk die s.submits).isSome, .launchAccept die),
    (!s.launches.isEmpty && (placeable s die).isSome, .wallPlace die),
    (!s.launches.isEmpty && preemptReady s die, .preempt die)]

/-- The module's next own step. -/
def nextEvent (s : State) : Option Ev :=
  if !(dieState s 0).booted && (dieState s 0).ok then some .powerOnBoot
  else if s.attest.isSome && quoteReady s then some .attestQuote
  else
    (s.bricks.findSome? (brickEvent s)).or
    ((s.cores.findSome? (coreEvent s)).or
    ((((s.cores.map (fun x => quadOfCore x.1)).eraseDups.find? (quadReady s)).map Ev.quadRendezvous).or
    (((s.colls.find? (fun x => collReady s x.2)).map (fun x => Ev.collectiveComplete x.1)).or
    ((s.launches.findSome? (launchEvent s)).or
    (([0, 1, 2, 3].findSome? (dieEvent s)).or
    ((s.walls.find? (fun x => restorable s x.1 x.2)).map (fun x => Ev.wallRestore x.1)))))))

/-! ### Owed traps -/

/-- The brick's clock has reached the course end at which it takes a trap of a commit. -/
def owedNow (s : State) (br : Brick) : Bool :=
  br.alive && br.trap.isNone && !br.inSlot && !savedBrick s br && br.owed.head?.any (fun r => decide (r.cycle ≤ br.L))

/-- It takes the first. -/
def takeOwed (s : State) (b : Nat) : State :=
  match tabGet? s.bricks b with
  | none => s
  | some br =>
    match br.owed with
    | [] => s
    | r :: l => takeTrap (modBrick s b (fun br => { br with owed := l })) b { r with cycle := s.clk }

/-! ### What issues (R146–R149) -/

/-- Nothing keeps the brick from issuing. A brick that has raised a precise trap at issue in this cycle, or opened its window
in it, may still raise another one (R143, R351). -/
def mayIssue (s : State) (br : Brick) : Bool :=
  let alsoTraps : Bool := match br.trap with
    | none => true
    | some r => !br.det && !br.inSlot && r.prec && r.cycle == s.clk &&
        (tabGet? br.splits r.split).any (fun sp => sp.pc == r.addr && sp.wait.isNone)
  br.alive && alsoTraps && (br.window.isNone || (!br.det && br.window == some s.clk)) && !br.halted && br.tfault.all (·.refused) &&
    !savedBrick s br && !stopsHere s br

/-- The split is live and not parked, and its stall count has elapsed (R146). -/
def splitStands (s : State) (br : Brick) (k : Nat) : Bool :=
  (tabGet? br.splits k).any (fun sp => sp.wait.isNone && decide (sp.ready ≤ s.clk) && sp.mask != 0#32)

/-- The split can issue as far as its own state says: a form of it that had to wait is tried again in the next cycle. -/
def splitReady (s : State) (br : Brick) (k : Nat) : Bool :=
  splitStands s br k && (tabGet? br.splits k).any (fun sp => decide (sp.held ≤ s.clk))

/-- The splits after k in ascending order, wrapping from 3 to 0, k itself last. -/
def splitsAfter (k : Nat) : List Nat := [k + 1, k + 2, k + 3, k + 4].map (· % 4)

/-- The split is parked at JOIN. -/
def atJoin (sp : Split) : Bool := sp.wait.any (fun w => match w.op with
  | .join _ => true
  | _ => false)

/-- The split whose turn it is in a deterministic launch (R149). -/
def turnOf (br : Brick) : Option Nat := (splitsAfter br.cur).find? (fun k => (tabGet? br.splits k).any (fun sp => !atJoin sp))

/-- The flight counter that a form raises, where it raises one at its issue (R198); `u` reads the uniform registers, which choose
the space of LDS and STS (R204). -/
noncomputable def counterOf (u : Reg → W64) : Instr → Option Nat
  | .ldB64 _ _ _ _ _ | .ldB32 _ _ _ _ _ | .ldB64Disp _ _ _ _ _ _ | .ldB32Disp _ _ _ _ _ _ => some 0
  | .ldt _ _ _ _ q _ | .ldtDisp _ _ _ _ _ q _ => some (if q then 1 else 0)
  | .lds _ sb imm _ => some (if ebit (u sb + imm8 imm) 63 then 1 else 0)
  | .ldsDisp _ sb disp _ => some (if ebit (u sb + immS disp) 63 then 1 else 0)
  | .sts _ sb imm _ => if ebit (u sb + imm8 imm) 63 then some 2 else none
  | .stsDisp _ sb disp _ => if ebit (u sb + immS disp) 63 then some 2 else none
  | .tagrdLine _ _ g _ => some (if g then 1 else 0)
  | .ldgB64 _ _ _ _ _ | .ldgB32 _ _ _ _ _ | .ldgB64Disp _ _ _ _ _ _ | .ldgB32Disp _ _ _ _ _ _
  | .ldtv _ _ _ _ _ | .ldtvDisp _ _ _ _ _ _ | .atom _ _ _ _ _ _ _ _ _ _
  | .tst _ _ _ _ _ | .tcom _ _ _ _ | .retr _ _ _ _ | .tstDisp _ _ _ _ _ _ | .tcomDisp _ _ _ _ _ | .retrDisp _ _ _ _ _ => some 1
  | .stgB64 _ _ _ _ _ | .stgB32 _ _ _ _ _ | .stgB64Disp _ _ _ _ _ _ | .stgB32Disp _ _ _ _ _ _ | .red _ _ _ _ _ _ _ _ _
  | .sttAon _ _ _ _ _ | .sttAonDisp _ _ _ _ _ _ | .stp _ _ _ _ _ | .stpDisp _ _ _ _ _ _ => some 2
  | .stc _ _ _ _ q _ | .stcDisp _ _ _ _ _ q _ => if q then some 2 else none
  | .copy _ _ _ _ _ _ _ _ _ => some 3
  | .tapeRec _ _ _ _ | .tapeBr _ _ _ | .tapePop _ _ _ _ | .tapePopbr _ _ _ | .tapeSeal _ _ => some 4
  | .putw _ _ _ | .sigwSet _ _ _ | .sigwAdd _ _ _ | .collRed _ _ _ _ _ | .collMaxe _ _ _ | .collBcst _ _ _ => some 5
  | .hodPut _ _ _ _ => some 6
  | .tlbiRange _ _ _ | .tlbiAll _ _ _ => some 7
  | _ => none

/-- A counter of the brick stands at its limit. -/
def Brick.counterFull (br : Brick) : Bool := (List.range 8).any (fcFull br)

/-- A form that enters the array queue at its issue (R212). -/
noncomputable def entersQueue (s : State) (c : Ctx) : Instr → Bool
  | .accz k _ => !c.br.det || (physBank s c.br k.toNat).any (fun p => (bankAt s c.br.core p).own == some c.b)
  | .mmaC _ _ _ _ | .mmaQ _ _ _ _ | .mmas _ _ _ _ | .dist _ _ _ _ | .topk _ _ _ _ _ | .accrd _ _ _ _ | .accwb _ _ _ | .accadj _ _ _ _
  | .accchk _ _ _ _ => true
  | _ => false

/-- The flight counters, or a full array queue, keep the split's next instruction from issuing (R146, R198, R212). -/
noncomputable def counterHolds (s : State) (b k : Nat) (br : Brick) : Bool :=
  (br.counterFull || queueFull s br.core) && (match tabGet? br.splits k with
    | none => false
    | some sp =>
      let c : Ctx := ⟨b, k, br, sp⟩
      match (fetchAt s c sp.pc).2 with
      | .words w p =>
        (match decodeWords w p with
         | .instr i => (counterOf c.u i).any (fcFull br) || (queueFull s br.core && entersQueue s c i)
         | .bad _ _ => false)
      | _ => false)

/-- The splits of a brick that may issue, in the order in which they are tried (R148, R149, R160, R352). -/
def splitOrder (br : Brick) : List Nat :=
  if br.debug then (if br.stepping then [br.focusSp] else [])
  else if br.inSlot then [handlerSplit]
  else if br.det then (turnOf br).toList
  else br.cur :: (splitsAfter br.cur).take 3

/-- The slot that the split's next instruction uses: none when the fetch gives no instruction. -/
def slotOf (s : State) (b k : Nat) (br : Brick) : Option Bool :=
  match tabGet? br.splits k with
  | none => none
  | some sp => match (fetchAt s ⟨b, k, br, sp⟩ sp.pc).2 with
    | .words w _ => some (laneWord w)
    | _ => none

/-- The split that the brick offers for a slot. -/
noncomputable def offers (s : State) (lane : Bool) (x : Nat × Brick) : Option (Nat × Nat) :=
  if mayIssue s x.2 then
    ((splitOrder x.2).find? (fun k => splitReady s x.2 k && (slotOf s x.1 k x.2).getD lane == lane && !counterHolds s x.1 k x.2)).map
      (fun k => (x.1, k))
  else none

/-- Eligible for 256 cycles without an issue (R147). -/
def starved (s : State) (br : Brick) : Bool := decide (max br.eligible (br.since + 1) + 256 ≤ s.clk)

/-- The priority of step 3 (R147, R294). -/
def issuePrio (s : State) (br : Brick) : Nat :=
  16 * (launchOf s br).elim 0 (·.pri) + rolePrio br.bprio ((wallOf s br).elim 0 (fun w => tabGetD w.adj br.role 0))

/-- Brick x comes before brick y (R147). -/
def comesFirst (s : State) (x y : Brick) : Bool :=
  if x.inSlot != y.inSlot then x.inSlot
  else
    let sx := starved s x
    let sy := starved s y
    if sx != sy then sx
    else if !sx && issuePrio s x != issuePrio s y then decide (issuePrio s x > issuePrio s y)
    else decide (x.age ≤ y.age)

def insertBrick (s : State) (x : Nat × Brick) : List (Nat × Brick) → List (Nat × Brick)
  | [] => [x]
  | y :: l => if comesFirst s x.2 y.2 then x :: y :: l else y :: insertBrick s x l

/-- The bricks of a partition in the order of R147. -/
def partBricks (s : State) (key : Nat) : List (Nat × Brick) :=
  (s.bricks.filter (fun x => x.2.alive && partKey x.2.core x.2.part == key)).foldl (fun t x => insertBrick s x t) []

/-- What a partition issues next in this cycle: its uniform slot, then its lane slot. Of the accesses that a brick issues in one
clock, the uniform form's comes first (R195, R232). -/
noncomputable def partIssue (s : State) (key : Nat) : Option (Nat × Nat) :=
  let p := partOf s key
  (if p.uniAt == some s.clk then none else (partBricks s key).findSome? (offers s false)).or
    (if p.laneAt == some s.clk then none else (partBricks s key).findSome? (offers s true))

/-- Puts a number into an ascending list without repeats. -/
def insertNat (x : Nat) : List Nat → List Nat
  | [] => [x]
  | y :: l => if x < y then x :: y :: l else if x == y then y :: l else y :: insertNat x l

/-- The partitions with live bricks, in ascending order (R212). -/
def partsInUse (s : State) : List Nat :=
  ((s.bricks.filter (fun x => x.2.alive)).map (fun x => partKey x.2.core x.2.part)).foldl (fun t x => insertNat x t) []

noncomputable def nextIssue (s : State) : Option (Nat × Nat) := (partsInUse s).findSome? (partIssue s)

/-! ### One clock -/

/-- Accesses that waited for an entry of the fault buffer walk again when one is free (R335). -/
def retryFaults (s : State) : State :=
  let room (core : Nat) : Bool := decide (faultsHeld s (dieOfCore core) < 1024)
  { s with
    bricks := s.bricks.map (fun x => (x.1, match x.2.tfault with
      | some f => if !f.entry && !f.refused && room x.2.core then { x.2 with tfault := none } else x.2
      | none => x.2))
    copies := s.copies.map (fun x => (x.1,
      match x.2.page, tabGet? s.walls x.2.wall with
      | some _, some w =>
        if !x.2.refused && !x.2.entry && room w.core then { x.2 with page := none } else x.2
      | _, _ => x.2)) }

/-- The brick is eligible: one of its splits is (R146). -/
noncomputable def eligible (s : State) (b : Nat) (br : Brick) : Bool :=
  mayIssue s br && (splitOrder br).any (fun k => splitStands s br k && !counterHolds s b k br)

/-- Since when the brick is eligible, its base priority from now on, and the stall counts of the splits that a debugger keeps standing
(R147, R160, R303). -/
noncomputable def clockBrick (s : State) (b : Nat) (br : Brick) : Brick :=
  let stands := eligible s b br
  { br with
    eligible := (if stands then br.eligible else s.clk + 1), bprio := br.prio
    splits := (if br.debug then br.splits.map (fun x =>
      (x.1, if x.1 != br.focusSp && decide (s.clk < x.2.ready) then { x.2 with ready := x.2.ready + 1 } else x.2)) else br.splits) }

/-- Lands what is due in every brick. -/
def landBricks (s : State) : List Nat → State
  | [] => s
  | b :: l => match tabGet? s.bricks b with
    | some br => landBricks (landAll s b br) l
    | none => landBricks s l

/-- What a wall's hods add to each role's priority in the next cycle (R294). -/
def noteAdjust (w : Wall) : Wall :=
  { w with adj := ((List.range 4).map (fun r => (r, hodAdjust w r))).filter (fun x => x.2 != 0) }

/-- One clock passes. -/
noncomputable def tick (s : State) : State :=
  let s := { s with bricks := s.bricks.map (fun x => (x.1, clockBrick s x.1 x.2)), walls := s.walls.map (fun x => (x.1, noteAdjust x.2))
                    clk := s.clk + 1 }
  endWalls (reap (retryFaults (landBricks s (tabKeys s.bricks))))

/-! ### The next move -/

/-- The first parked split that can go on. -/
def nextWake (s : State) : Option (Nat × Nat) :=
  s.bricks.findSome? (fun x => (x.2.splits.find? (fun y => y.2.wait.isSome && (wakeSplit s x.1 y.1).isSome)).map (fun y => (x.1, y.1)))

/-- What the next step does: all that is due in this cycle comes before the clock. -/
noncomputable def nextMove (s : State) : Move :=
  match dueInput s.clk s.inputs with
  | some (i, rest) => .input i rest
  | none =>
    match nextEvent s with
    | some e => .event e
    | none =>
      match s.bricks.find? (fun x => owedNow s x.2) with
      | some x => .owe x.1
      | none =>
        match nextWake s with
        | some (b, k) => .wake b k
        | none =>
          match nextIssue s with
          | some (b, k) => .issue b k
          | none => .tick

/-- The focus of an issue. -/
def focusOn (s : State) (b k : Nat) : State := { s with focus := some (b, k) }

/-- The split's form has trapped as it came to issue: it has not issued, and it is not held. -/
def trapsHere (s s' : State) (b k : Nat) : Bool :=
  (tabGet? s.bricks b).any (fun x => (tabGet? s'.bricks b).any (fun y =>
    y.trap.any (fun r => r.prec && r.cycle == s.clk) && y.since == x.since && (tabGet? y.splits k).any (fun sp => decide (s.clk < sp.ready))))

/-- In the cycle in which the brick's window opened only a precise trap is still taken (R143): any other form does not
issue. -/
def windowGate (s : State) (b k : Nat) (o : Host.Outcome State Fault Refusal) : Host.Outcome State Fault Refusal :=
  if !(tabGet? s.bricks b).any (fun br => br.window.isSome) then o
  else match o with
    | .next s' => if trapsHere s s' b k then .next s' else .next (modSplit s b k (fun sp => { sp with held := s.clk + 1 }))
    | o => o

end Sys2Proof.Machine
end

