-- ==== Sys2Proof/Machine/Issue.lean ====
section
/-!
DEFINITION. Running what comes next: an input, a step of the machine itself, or the instruction that a split fetches; and
the state in which a given word is the next instruction.
-/
namespace Sys2Proof.Machine

/-- What fetched words do: the instruction that they decode to is executed; words that name none take the trap of their
first failing check (R52); a fetch that gave no words faults or traps. -/
noncomputable def runFetched (s : State) (c : Ctx) (r : Fetched) : Host.Outcome State Fault Refusal :=
  match r with
  | .words w p =>
    (match decodeWords w p with
     | .instr i => exec i s
     | .bad cause two => exec (.unassignedEncoding cause two) s)
  | _ => .next (fetchFails s c r)

/-- A split has the issue slot: it fetches and runs its next instruction. -/
noncomputable def issueAt (s : State) (b k : Nat) : Host.Outcome State Fault Refusal :=
  let s := focusOn s b k
  match focusOf s with
  | none => .fault .noIssuer
  | some c => windowGate s b k (runFetched (fetchAt s c c.sp.pc).1 c (fetchAt s c c.sp.pc).2)

/-- Carries out a move. -/
noncomputable def runMove (s : State) (m : Move) : Host.Outcome State Fault Refusal :=
  match m with
  | .input i rest => if isInput i then exec i { s with inputs := rest } else .next { s with inputs := rest }
  | .event e => Ev.run s e
  | .owe b => .next (takeOwed s b)
  | .wake b k => .next ((wakeSplit s b k).getD s)
  | .issue b k => issueAt s b k
  | .tick => .next (tick s)

/-! ### A machine about to issue a given word

A program is loaded from outside: by a launch record that the host or a brick submits, whose acceptance, admission and
placement take several steps. These definitions stand for that load: one booted module, one launch of one wall with one
brick, whose next instruction stands at address 0x10000. -/

/-- The launch of the load. -/
def loadLaunch : Launch where
  lid := 0
  asid := 0
  recAsid := 0
  pri := 0
  prv := true
  dies := [0]
  walls := 1
  mwin := 0
  mbase := 0
  nsem := 16
  semb := 0
  args := []
  nets := []
  done := 0
  donePrv := true
  det := false
  q := 0
  accDyn := false
  nacc := 1
  bars := [1]
  hods := [(2, 64)]
  lbytes := 4096
  roles := [⟨0, 8, 64, 1, 31, 0⟩]
  binds := []
  text := 0x10000
  patch := []
  wins := []
  placed := [(0, 1)]
  admitted := true
  order := 0
  debugger := false

/-- Its role, wall and brick. -/
def loadRole : Role := ⟨0, 8, 64, 1, 31, 0⟩

def loadWall : Wall where
  launch := 0
  wid := 0
  die := 0
  core := 0
  lbase := 0
  banks := [0]
  pools := []
  bars := [(0, Barrier.start 1)]
  hods := [(0, ⟨2, 64, 3968, 0, 0, [], false, [], [], [], [], [], [], []⟩)]
  bricks := [(0, 0, 0)]
  stop := false
  saved := false
  sBytes := []
  sMeta := []
  sBanks := []
  ended := false
  adj := []

def loadBrick : Brick := Brick.start 0 loadLaunch loadRole ⟨0, 0, 0, 0, 0, 0, 0, 0⟩

/-- The tables of address space 0, which map its first 2 MiB to the lowest 2 MiB of near memory with all rights, and bytes
of code at 0x10000. -/
def loadBytes (code : List Byte) : State → State := fun s =>
  let put (s : State) (pa v : Nat) : State := putBytes s (.phys pa) (leBytes 8 v)
  putBytes (put (put (put (put (put s 0 0x1001) 0x1000 0x2001) 0x2000 0x3001) 0x3000 0x4001) 0x4000 0x1F) (.phys 0x10000) code

/-- The machine whose next step issues the code's first instruction. -/
def loadCode (s : State) (code : List Byte) : State :=
  loadBytes code
    { s with
      focus := none, inputs := [], mem := [], mmeta := [], pairs := [], tlb := [], asidTab := 0
      bricks := [(0, loadBrick)], nextB := 1, walls := [(0, loadWall)], nextW := 1, launches := [(0, loadLaunch)], nextL := 1
      submits := [], cores := [], parts := [], copies := [], colls := [], attest := none
      dies := [(0, { Die.start with booted := true }), (1, { Die.start with booted := true }), (2, { Die.start with booted := true }),
               (3, { Die.start with booted := true })] }

end Sys2Proof.Machine
end

