-- ==== Sys2Proof/Machine/Step.lean ====
section
/-!
DEFINITION. The step of the machine, and the state in which a given word is the next instruction.
-/
namespace Sys2Proof.Machine

/-- One step: the next move is carried out. -/
noncomputable def step (s : State) : Host.Outcome State Fault Refusal := runMove s (nextMove s)

/-- The state with the instruction of an opcode-table word where the next step fetches: its first word in bits 31 to 0, its
payload, if it has one, in bits 63 to 32, both stored lowest byte first (R67). -/
def State.withFetchWord (s : State) (_nbits w : Nat) : State :=
  loadCode s (wordBytes (BitVec.ofNat 32 w) ++ wordBytes (BitVec.ofNat 32 (w / 2 ^ 32)))

end Sys2Proof.Machine
end

