-- ==== Sys2Proof/Safety.lean ====
section
/-!
DEFINITION. The terms that claims use: memory in canonical form, when a form issues, what the register files read as
after its results land, and the frames of the shared operations.
-/
namespace Sys2Proof.Machine

/-! ### Memory -/

/-- The bytes and the line state of memory, local and physical, are in canonical form. -/
def Memory.wf (s : State) : Bool :=
  tabWf unlistedByte s.mem && tabWf LineMeta.start s.mmeta && tabWf unlistedByte s.lmem && tabWf LineMeta.start s.lmeta

/-- No memory changes: bytes, line state, tentative cells. -/
abbrev SameMemory (s t : State) : Prop :=
  t.mem = s.mem ∧ t.mmeta = s.mmeta ∧ t.lmem = s.lmem ∧ t.lmeta = s.lmeta ∧ t.pairs = s.pairs

/-- Where a place's byte is held: which memory, and its key there. -/
def placeOf : Loc → Bool × Nat
  | .loc core off => (false, lKey core off)
  | .phys pa => (true, pa)

/-- What looking up translations and reading lines may change: the caches, a corrected or newly poisoned line with its log
entry, the observed bits of tentative cells, what has left for other modules (R18, R246, R334, R374). No byte, no register, no
brick. -/
def Walked (s t : State) : Prop :=
  t = { s with tlb := t.tlb, free := t.free, pairs := t.pairs, mmeta := t.mmeta, lmeta := t.lmeta, dies := t.dies, sent := t.sent }

/-- The lines of some accesses are whole and not poisoned. -/
abbrev Clean (s : State) (accs : List Acc) : Prop :=
  ∀ a ∈ accs, (metaAt s a.loc.line).err = [] ∧ (metaAt s a.loc.line).psn = false

/-! ### Issue -/

/-- Split c.k of brick c.b holds the issue slot, and form f passes every check that comes before its own part. -/
abbrev Issues (s : State) (c : Ctx) (f : Form) : Prop := focusOf s = some c ∧ precheck c f = .go

/-- Instruction i has the effect e on s and retires as form f: the program counter of the split moves past it. -/
def Retires (i : Instr) (s : State) (c : Ctx) (f : Form) (e : State → Prop) : Prop :=
  ∃ s', e s' ∧ exec i s = .next (retire s' c f)

/-- The same at a switch point (R148). -/
def RetiresTurn (i : Instr) (s : State) (c : Ctx) (f : Form) (e : State → Prop) : Prop :=
  ∃ s', e s' ∧ exec i s = .next (switchTurn (retire s' c f) c)

/-- Instruction i sets the program counters itself (e) and retires as form f. -/
def RetiresJump (i : Instr) (s : State) (c : Ctx) (f : Form) (e : State → Prop) : Prop :=
  ∃ s', e s' ∧ exec i s = .next (retireJump s' c f)

def RetiresJumpTurn (i : Instr) (s : State) (c : Ctx) (f : Form) (e : State → Prop) : Prop :=
  ∃ s', e s' ∧ exec i s = .next (switchTurn (retireJump s' c f) c)

/-- Instruction i has the effect e on s, has issued, and its split parks on w. -/
def Parks (i : Instr) (s : State) (c : Ctx) (f : Form) (w : WaitOp) (sync : Option Nat) (e : State → Prop) : Prop :=
  ∃ s', e s' ∧ exec i s = .next (parkOn s' c f w sync false)

/-- Instruction i takes the trap t precisely and has no other effect. -/
def Traps (i : Instr) (s : State) (c : Ctx) (f : Form) (t : TrapReq) : Prop := exec i s = .next (raiseTrap s c f t)

/-- Instruction i takes the trap t precisely; of what it did before, s' stays, where the trap is the one that its brick reports
(R351). -/
def TrapsWith (i : Instr) (s : State) (c : Ctx) (f : Form) (s' : State) (t : TrapReq) : Prop :=
  exec i s = .next (raiseTrap (trapState s s' c f t) c f t)

/-! ### The register files as they read -/

/-- What the register files read as: the lane halves by physical register, thread and half; the uniform registers; the
bits of the mask registers with their tags. -/
structure Regs where
  half : Nat → Nat → Nat → Half
  uni  : Nat → UReg
  msk  : Nat → Nat → Bool × Bool

def regsOf (br : Brick) : Regs :=
  ⟨br.half, br.uniR, fun m i => ((br.mskR m).v.getLsbD i, (br.mskR m).g.getLsbD i)⟩

/-- Register writes leave the register files reading as r, and nothing else of the brick changes. -/
def LandsAs (br : Brick) (ws : List RegWrite) (r : Regs) : Prop :=
  (∀ p t e, t < 32 → e < 2 → (regsOf (applyWrites br ws)).half p t e = r.half p t e) ∧
  (∀ p, (regsOf (applyWrites br ws)).uni p = r.uni p) ∧
  (∀ m i, i < 64 → (regsOf (applyWrites br ws)).msk m i = r.msk m i) ∧
  applyWrites br ws =
    { br with lane := (applyWrites br ws).lane, uni := (applyWrites br ws).uni, msk := (applyWrites br ws).msk }

/-- A half of a register written: cured unless the split is governed or g says green, written, not poisoned. -/
def Ctx.newHalf (c : Ctx) (v : W32) (g : Bool) : Half := ⟨v, c.gov || g, false, false⟩

/-- Half e of a 64-bit value. -/
def halfOf (v : W64) (e : Nat) : W32 := v.extractLsb' (32 * e) 32

/-- Lane register d receives h t e in half e of every active thread t; the rest is as r. -/
def Regs.putHalves (r : Regs) (c : Ctx) (d : Reg) (h : Nat → Nat → Half) : Regs :=
  { r with half := fun p t e => if p = physReg c.k d.toNat ∧ c.act t = true then h t e else r.half p t e }

/-- Lane register d receives the 64-bit value v t with tag g t in every active thread. -/
def Regs.put64 (r : Regs) (c : Ctx) (d : Reg) (v : Nat → W64) (g : Nat → Bool) : Regs :=
  r.putHalves c d (fun t e => c.newHalf (halfOf (v t) e) (g t))

/-- Lane register d receives v t e with tag g t e in half e of every active thread. -/
def Regs.put32 (r : Regs) (c : Ctx) (d : Reg) (v : Nat → Nat → W32) (g : Nat → Nat → Bool) : Regs :=
  r.putHalves c d (fun t e => c.newHalf (v t e) (g t e))

/-- Uniform register d receives v with tag g; s0 discards. -/
def Regs.putUni (r : Regs) (c : Ctx) (d : Reg) (v : W64) (g : Bool) : Regs :=
  { r with uni := fun p => if p = physReg c.k d.toNat ∧ p ≠ 0 then ⟨v, c.gov || g⟩ else r.uni p }

/-- Bits 2t and 2t+1 of mask register d receive v t 0 and v t 1 with tags g t 0 and g t 1 for every active thread t. -/
def Regs.putMask (r : Regs) (c : Ctx) (d : BitVec 3) (v g : Nat → Nat → Bool) : Regs :=
  { r with msk := fun m i =>
      if m = d.toNat ∧ c.act (i / 2) = true then (v (i / 2) (i % 2), c.gov || g (i / 2) (i % 2)) else r.msk m i }

/-- s' is s with one more result of the form pending: it lands lat cycles after issue, when the register files become
those of r, and raises the flags fx. Nothing else changes. -/
def Delivers (s : State) (c : Ctx) (f : Form) (lat : Nat) (fx : List (Nat × Flags)) (isFp : Bool) (r : Regs) (s' : State) : Prop :=
  ∃ ws, LandsAs c.br ws r ∧
    s' = modBrick s c.b (fun br => { br with
      pend := br.pend ++ [{ owners := [c.k], writer := c.k, lands := s.clk + lat, seq := br.seq, reads := f.rd.map (physName c.k)
                            names := f.wr.map (physName c.k), writes := ws, fx := fx, split := c.k, pc := c.sp.pc
                            two := f.two, ten := tenOf c, isFp := isFp }]
      seq := br.seq + 1 })

/-! ### Exact results of the integer operations (R112), at any width -/

def exAdd (n : Nat) (x y : BitVec n) : BitVec n := BitVec.ofNat n (x.toNat + y.toNat)
def exSub (n : Nat) (x y : BitVec n) : BitVec n := BitVec.ofInt n (x.toInt - y.toInt)
def exMul (n : Nat) (x y : BitVec n) : BitVec n := BitVec.ofInt n (x.toInt * y.toInt)
def exMulHigh (n : Nat) (x y : BitVec n) : BitVec n := BitVec.ofInt n (x.toInt * y.toInt / 2 ^ n)
def exMulHighU (n : Nat) (x y : BitVec n) : BitVec n := BitVec.ofNat n (x.toNat * y.toNat / 2 ^ n)
def exCarry (n : Nat) (x y : BitVec n) : BitVec n := BitVec.ofNat n ((x.toNat + y.toNat) / 2 ^ n)
def exMin (n : Nat) (x y : BitVec n) : BitVec n := if x.toInt ≤ y.toInt then x else y
def exMax (n : Nat) (x y : BitVec n) : BitVec n := if x.toInt ≤ y.toInt then y else x
def exMinU (n : Nat) (x y : BitVec n) : BitVec n := if x.toNat ≤ y.toNat then x else y
def exMaxU (n : Nat) (x y : BitVec n) : BitVec n := if x.toNat ≤ y.toNat then y else x
def exAnd (n : Nat) (x y : BitVec n) : BitVec n := x &&& y
def exOr (n : Nat) (x y : BitVec n) : BitVec n := x ||| y
def exXor (n : Nat) (x y : BitVec n) : BitVec n := x ^^^ y
def exAndn (n : Nat) (x y : BitVec n) : BitVec n := x &&& ~~~y
def exShl (n : Nat) (x y : BitVec n) : BitVec n := BitVec.ofNat n (x.toNat * 2 ^ (y.toNat % n))
def exShr (n : Nat) (x y : BitVec n) : BitVec n := BitVec.ofNat n (x.toNat / 2 ^ (y.toNat % n))
def exSar (n : Nat) (x y : BitVec n) : BitVec n := BitVec.ofInt n (x.toInt / 2 ^ (y.toNat % n))
def exRot (n : Nat) (x y : BitVec n) : BitVec n := BitVec.ofNat n (x.toNat * 2 ^ (y.toNat % n) % 2 ^ n + x.toNat / 2 ^ (n - y.toNat % n))
def exAbs (n : Nat) (x : BitVec n) : BitVec n := BitVec.ofNat n x.toInt.natAbs
def exNeg (n : Nat) (x : BitVec n) : BitVec n := BitVec.ofInt n (0 - x.toInt)
def exNot (n : Nat) (x : BitVec n) : BitVec n := ~~~x
def exPopc (n : Nat) (x : BitVec n) : BitVec n := BitVec.ofNat n ((List.range n).countP (fun i => x.getLsbD i))
def exClz (n : Nat) (x : BitVec n) : BitVec n := BitVec.ofNat n (if x = 0#n then n else n - 1 - Nat.log2 x.toNat)
def exBrev (n : Nat) (x : BitVec n) : BitVec n := x.reverse
/-- The field of `len` bits from `pos` on, as a signed or an unsigned number (R115). -/
def exBfx (n : Nat) (signed : Bool) (pos len : Nat) (x : BitVec n) : BitVec n :=
  let v := x.toNat / 2 ^ pos % 2 ^ len
  if signed && decide (2 ^ (len - 1) ≤ v) then BitVec.ofInt n ((v : Int) - 2 ^ len) else BitVec.ofNat n v
/-- y with the field of `len` bits from `pos` on replaced by the low bits of x. -/
def exBfi (n pos len : Nat) (x y : BitVec n) : BitVec n :=
  BitVec.ofNat n (y.toNat / 2 ^ (pos + len) * 2 ^ (pos + len) + x.toNat % 2 ^ len * 2 ^ pos + y.toNat % 2 ^ pos)

/-! ### Tables of results at a fixed latency

Each table gives, for an instruction, its form, its latency (R99) and what the register files read as when its result has
landed. -/

/-- A result at a fixed latency. -/
structure FixedSpec where
  form : Form
  lat  : Nat
  regs : Ctx → Regs

/-- Instruction i of a table completes on every state in which its form issues. -/
def Completes (table : Instr → FixedSpec → Prop) : Prop :=
  ∀ i x, table i x → ∀ s c, Issues s c x.form → c.br.dpFault = none →
    Retires i s c x.form (Delivers s c x.form x.lat [] false (x.regs c))

/-- A lane result of width W per element from a and b (R111). -/
def lane2 (o : (n : Nat) → BitVec n → BitVec n → BitVec n) (lat : Nat) (d a b : Reg) (w : Bool) (st : BitVec 3) : FixedSpec :=
  ⟨laneForm false st [a, b] d, lat, fun c =>
    if w then (regsOf c.br).put64 c d (fun t => o 64 (c.w a t) (c.w b t)) (fun t => c.wG a t || c.wG b t)
    else (regsOf c.br).put32 c d (fun t e => o 32 (c.h a t e) (c.h b t e)) (fun t e => c.hG a t e || c.hG b t e)⟩

/-- The same from a alone. -/
def lane1 (o : (n : Nat) → BitVec n → BitVec n) (lat : Nat) (d a : Reg) (w : Bool) (st : BitVec 3) : FixedSpec :=
  ⟨laneForm false st [a] d, lat, fun c =>
    if w then (regsOf c.br).put64 c d (fun t => o 64 (c.w a t)) (fun t => c.wG a t)
    else (regsOf c.br).put32 c d (fun t e => o 32 (c.h a t e)) (fun t e => c.hG a t e)⟩

/-- A 64-bit lane result from a and an immediate. -/
def laneK64 (o : (n : Nat) → BitVec n → BitVec n → BitVec n) (lat : Nat) (two : Bool) (d a : Reg) (k : W64) (st : BitVec 3) :
    FixedSpec :=
  ⟨laneForm two st [a] d, lat, fun c => (regsOf c.br).put64 c d (fun t => o 64 (c.w a t) k) (fun t => c.wG a t)⟩

/-- A result in each half from a and an immediate. -/
def laneK32 (o : (n : Nat) → BitVec n → BitVec n → BitVec n) (lat : Nat) (two : Bool) (d a : Reg) (k : W32) (st : BitVec 3) :
    FixedSpec :=
  ⟨laneForm two st [a] d, lat, fun c => (regsOf c.br).put32 c d (fun t e => o 32 (c.h a t e) k) (fun t e => c.hG a t e)⟩

/-- An immediate in every active thread, cured. -/
def laneI64 (two : Bool) (d : Reg) (k : W64) (st : BitVec 3) : FixedSpec :=
  ⟨laneForm two st [] d, 1, fun c => (regsOf c.br).put64 c d (fun _ => k) (fun _ => false)⟩
def laneI32 (two : Bool) (d : Reg) (k : W32) (st : BitVec 3) : FixedSpec :=
  ⟨laneForm two st [] d, 1, fun c => (regsOf c.br).put32 c d (fun _ _ => k) (fun _ _ => false)⟩

/-- A uniform result: of 64 bits, or of bits 31:0 zero-extended (R117). -/
def uni2 (o : (n : Nat) → BitVec n → BitVec n → BitVec n) (lat : Nat) (d a b : Reg) (w : Bool) (st : BitVec 3) : FixedSpec :=
  ⟨uniForm false st [a, b] d, lat, fun c =>
    (regsOf c.br).putUni c d
      (if w then o 64 (c.u a) (c.u b) else (o 32 ((c.u a).setWidth 32) ((c.u b).setWidth 32)).setWidth 64)
      (c.uG a || c.uG b)⟩

/-- A uniform result from a and an immediate. -/
def uniK (o : (n : Nat) → BitVec n → BitVec n → BitVec n) (lat : Nat) (two : Bool) (d a : Reg) (k : W64) (st : BitVec 3) :
    FixedSpec :=
  ⟨uniForm two st [a] d, lat, fun c => (regsOf c.br).putUni c d (o 64 (c.u a) k) (c.uG a)⟩

def uniI (two : Bool) (d : Reg) (k : W64) (st : BitVec 3) : FixedSpec :=
  ⟨uniForm two st [] d, 1, fun c => (regsOf c.br).putUni c d k false⟩

/-- The lane register forms of class 0 but MOV (R112), and BFX and BFI (R115). -/
inductive LaneInt : Instr → FixedSpec → Prop
  | iadd d a b w st : LaneInt (.iadd d a b w st) (lane2 exAdd 2 d a b w st)
  | isub d a b w st : LaneInt (.isub d a b w st) (lane2 exSub 2 d a b w st)
  | imul d a b w st : LaneInt (.imul d a b w st) (lane2 exMul 4 d a b w st)
  | imulh d a b w st : LaneInt (.imulh d a b w st) (lane2 exMulHigh 4 d a b w st)
  | imulhUnsigned d a b w st : LaneInt (.imulhUnsigned d a b w st) (lane2 exMulHighU 4 d a b w st)
  | iaddc d a b w st : LaneInt (.iaddc d a b w st) (lane2 exCarry 2 d a b w st)
  | imin d a b w st : LaneInt (.imin d a b w st) (lane2 exMin 2 d a b w st)
  | imax d a b w st : LaneInt (.imax d a b w st) (lane2 exMax 2 d a b w st)
  | iminUnsigned d a b w st : LaneInt (.iminUnsigned d a b w st) (lane2 exMinU 2 d a b w st)
  | imaxUnsigned d a b w st : LaneInt (.imaxUnsigned d a b w st) (lane2 exMaxU 2 d a b w st)
  | and d a b w st : LaneInt (.and d a b w st) (lane2 exAnd 2 d a b w st)
  | or d a b w st : LaneInt (.or d a b w st) (lane2 exOr 2 d a b w st)
  | xor d a b w st : LaneInt (.xor d a b w st) (lane2 exXor 2 d a b w st)
  | andn d a b w st : LaneInt (.andn d a b w st) (lane2 exAndn 2 d a b w st)
  | shl d a b w st : LaneInt (.shl d a b w st) (lane2 exShl 2 d a b w st)
  | shr d a b w st : LaneInt (.shr d a b w st) (lane2 exShr 2 d a b w st)
  | sar d a b w st : LaneInt (.sar d a b w st) (lane2 exSar 2 d a b w st)
  | rot d a b w st : LaneInt (.rot d a b w st) (lane2 exRot 2 d a b w st)
  | iabs d a w st : LaneInt (.iabs d a w st) (lane1 exAbs 2 d a w st)
  | ineg d a w st : LaneInt (.ineg d a w st) (lane1 exNeg 2 d a w st)
  | not d a w st : LaneInt (.not d a w st) (lane1 exNot 2 d a w st)
  | popc d a w st : LaneInt (.popc d a w st) (lane1 exPopc 2 d a w st)
  | clz d a w st : LaneInt (.clz d a w st) (lane1 exClz 2 d a w st)
  | brev d a w st : LaneInt (.brev d a w st) (lane1 exBrev 2 d a w st)
  | imad d a b w st : LaneInt (.imad d a b w st)
      ⟨laneForm false st [a, b, d] d, 4, fun c =>
        if w then (regsOf c.br).put64 c d (fun t => exAdd 64 (c.w d t) (exMul 64 (c.w a t) (c.w b t)))
          (fun t => c.wG a t || c.wG b t || c.wG d t)
        else (regsOf c.br).put32 c d (fun t e => exAdd 32 (c.h d t e) (exMul 32 (c.h a t e) (c.h b t e)))
          (fun t e => c.hG a t e || c.hG b t e || c.hG d t e)⟩
  | bfx d a pos len1 ty st : LaneInt (.bfx d a pos len1 ty st)
      ⟨laneForm true st [a] d, 2, fun c =>
        if ty.width = 64 then (regsOf c.br).put64 c d (fun t => exBfx 64 (ty == .i32 || ty == .i64) pos.toNat (len1.toNat + 1) (c.w a t))
          (fun t => c.wG a t)
        else (regsOf c.br).put32 c d (fun t e => exBfx 32 (ty == .i32 || ty == .i64) pos.toNat (len1.toNat + 1) (c.h a t e))
          (fun t e => c.hG a t e)⟩
  | bfi d a pos len1 ty st : LaneInt (.bfi d a pos len1 ty st)
      ⟨laneForm true st [a, d] d, 2, fun c =>
        if ty.width = 64 then (regsOf c.br).put64 c d (fun t => exBfi 64 pos.toNat (len1.toNat + 1) (c.w a t) (c.w d t))
          (fun t => c.wG a t || c.wG d t)
        else (regsOf c.br).put32 c d (fun t e => exBfi 32 pos.toNat (len1.toNat + 1) (c.h a t e) (c.h d t e))
          (fun t e => c.hG a t e || c.hG d t e)⟩

/-- The lane forms with an immediate of 9 or 32 bits (R113, R32). -/
inductive LaneImm : Instr → FixedSpec → Prop
  | iaddI64Imm9 d a imm st : LaneImm (.iaddI64Imm9 d a imm st) (laneK64 exAdd 2 false d a (immS imm) st)
  | iaddI32Imm9 d a imm st : LaneImm (.iaddI32Imm9 d a imm st) (laneK32 exAdd 2 false d a (immHalf imm) st)
  | imulI64Imm9 d a imm st : LaneImm (.imulI64Imm9 d a imm st) (laneK64 exMul 4 false d a (immS imm) st)
  | imulI32Imm9 d a imm st : LaneImm (.imulI32Imm9 d a imm st) (laneK32 exMul 4 false d a (immHalf imm) st)
  | andB64Imm9 d a imm st : LaneImm (.andB64Imm9 d a imm st) (laneK64 exAnd 2 false d a (immS imm) st)
  | orB64Imm9 d a imm st : LaneImm (.orB64Imm9 d a imm st) (laneK64 exOr 2 false d a (immS imm) st)
  | xorB64Imm9 d a imm st : LaneImm (.xorB64Imm9 d a imm st) (laneK64 exXor 2 false d a (immS imm) st)
  | shlB64Imm9 d a imm st : LaneImm (.shlB64Imm9 d a imm st) (laneK64 exShl 2 false d a (immS imm) st)
  | shrN64Imm9 d a imm st : LaneImm (.shrN64Imm9 d a imm st) (laneK64 exShr 2 false d a (immU imm) st)
  | sarI64Imm9 d a imm st : LaneImm (.sarI64Imm9 d a imm st) (laneK64 exSar 2 false d a (immS imm) st)
  | iminI64Imm9 d a imm st : LaneImm (.iminI64Imm9 d a imm st) (laneK64 exMin 2 false d a (immS imm) st)
  | imaxI64Imm9 d a imm st : LaneImm (.imaxI64Imm9 d a imm st) (laneK64 exMax 2 false d a (immS imm) st)
  | moviI64 d imm st : LaneImm (.moviI64 d imm st) (laneI64 false d (immS imm) st)
  | moviN64 d imm st : LaneImm (.moviN64 d imm st) (laneI64 false d (immU imm) st)
  | moviI32 d imm st : LaneImm (.moviI32 d imm st) (laneI32 false d (immHalf imm) st)
  | iaddI64Imm32 d a imm st : LaneImm (.iaddI64Imm32 d a imm st) (laneK64 exAdd 2 true d a (immS imm) st)
  | iaddI32Imm32 d a imm st : LaneImm (.iaddI32Imm32 d a imm st) (laneK32 exAdd 2 true d a (immHalf imm) st)
  | imulI64Imm32 d a imm st : LaneImm (.imulI64Imm32 d a imm st) (laneK64 exMul 4 true d a (immS imm) st)
  | imulI32Imm32 d a imm st : LaneImm (.imulI32Imm32 d a imm st) (laneK32 exMul 4 true d a (immHalf imm) st)
  | andB64Imm32 d a imm st : LaneImm (.andB64Imm32 d a imm st) (laneK64 exAnd 2 true d a (immS imm) st)
  | orB64Imm32 d a imm st : LaneImm (.orB64Imm32 d a imm st) (laneK64 exOr 2 true d a (immS imm) st)
  | xorB64Imm32 d a imm st : LaneImm (.xorB64Imm32 d a imm st) (laneK64 exXor 2 true d a (immS imm) st)
  | shlB64Imm32 d a imm st : LaneImm (.shlB64Imm32 d a imm st) (laneK64 exShl 2 true d a (immS imm) st)
  | shrN64Imm32 d a imm st : LaneImm (.shrN64Imm32 d a imm st) (laneK64 exShr 2 true d a (immU imm) st)
  | sarI64Imm32 d a imm st : LaneImm (.sarI64Imm32 d a imm st) (laneK64 exSar 2 true d a (immS imm) st)
  | iminI64Imm32 d a imm st : LaneImm (.iminI64Imm32 d a imm st) (laneK64 exMin 2 true d a (immS imm) st)
  | imaxI64Imm32 d a imm st : LaneImm (.imaxI64Imm32 d a imm st) (laneK64 exMax 2 true d a (immS imm) st)
  | moviI64Imm32 d imm st : LaneImm (.moviI64Imm32 d imm st) (laneI64 true d (immS imm) st)
  | moviN64Imm32 d imm st : LaneImm (.moviN64Imm32 d imm st) (laneI64 true d (immU imm) st)
  | moviI32Imm32 d imm st : LaneImm (.moviI32Imm32 d imm st) (laneI32 true d (immHalf imm) st)

/-- The uniform integer forms (R117, R57). -/
inductive UniInt : Instr → FixedSpec → Prop
  | sadd d a b w st : UniInt (.sadd d a b w st) (uni2 exAdd 1 d a b w st)
  | ssub d a b w st : UniInt (.ssub d a b w st) (uni2 exSub 1 d a b w st)
  | smul d a b w st : UniInt (.smul d a b w st) (uni2 exMul 3 d a b w st)
  | sand d a b w st : UniInt (.sand d a b w st) (uni2 exAnd 1 d a b w st)
  | sor d a b w st : UniInt (.sor d a b w st) (uni2 exOr 1 d a b w st)
  | sxor d a b w st : UniInt (.sxor d a b w st) (uni2 exXor 1 d a b w st)
  | sshl d a b w st : UniInt (.sshl d a b w st) (uni2 exShl 1 d a b w st)
  | sshr d a b w st : UniInt (.sshr d a b w st) (uni2 exShr 1 d a b w st)
  | ssar d a b w st : UniInt (.ssar d a b w st) (uni2 exSar 1 d a b w st)
  | smin d a b w st : UniInt (.smin d a b w st) (uni2 exMin 1 d a b w st)
  | smax d a b w st : UniInt (.smax d a b w st) (uni2 exMax 1 d a b w st)
  | sminUnsigned d a b w st : UniInt (.sminUnsigned d a b w st) (uni2 exMinU 1 d a b w st)
  | smaxUnsigned d a b w st : UniInt (.smaxUnsigned d a b w st) (uni2 exMaxU 1 d a b w st)
  | scmpEq d a b w st : UniInt (.scmpEq d a b w st) (uni2 (fun n x y => if x = y then BitVec.ofNat n 1 else 0#n) 1 d a b w st)
  | scmpNe d a b w st : UniInt (.scmpNe d a b w st) (uni2 (fun n x y => if x ≠ y then BitVec.ofNat n 1 else 0#n) 1 d a b w st)
  | scmpLt d a b w st : UniInt (.scmpLt d a b w st) (uni2 (fun n x y => if x.toInt < y.toInt then BitVec.ofNat n 1 else 0#n) 1 d a b w st)
  | scmpLe d a b w st : UniInt (.scmpLe d a b w st) (uni2 (fun n x y => if x.toInt ≤ y.toInt then BitVec.ofNat n 1 else 0#n) 1 d a b w st)
  | scmpLtu d a b w st : UniInt (.scmpLtu d a b w st) (uni2 (fun n x y => if x.toNat < y.toNat then BitVec.ofNat n 1 else 0#n) 1 d a b w st)
  | scmpLeu d a b w st : UniInt (.scmpLeu d a b w st) (uni2 (fun n x y => if x.toNat ≤ y.toNat then BitVec.ofNat n 1 else 0#n) 1 d a b w st)
  | smov d a w st : UniInt (.smov d a w st)
      ⟨uniForm false st [a] d, 1, fun c =>
        (regsOf c.br).putUni c d (if w then c.u a else ((c.u a).setWidth 32).setWidth 64) (c.uG a)⟩
  | slea d a b w st : UniInt (.slea d a b w st)
      (uni2 (fun n x y => BitVec.ofNat n (x.toNat + (n / 8) * y.toNat)) 1 d a b w st)
  | ssel d a b w st : UniInt (.ssel d a b w st)
      ⟨uniForm false st [a, b, d] d, 1, fun c =>
        let r := if (if w then c.u d else ((c.u d).setWidth 32).setWidth 64) ≠ 0#64 then a else b
        (regsOf c.br).putUni c d (if w then c.u r else ((c.u r).setWidth 32).setWidth 64) (c.uG d || c.uG r)⟩
  | saddI64Imm9 d a imm st : UniInt (.saddI64Imm9 d a imm st) (uniK exAdd 1 false d a (immS imm) st)
  | smulI64Imm9 d a imm st : UniInt (.smulI64Imm9 d a imm st) (uniK exMul 3 false d a (immS imm) st)
  | sandB64Imm9 d a imm st : UniInt (.sandB64Imm9 d a imm st) (uniK exAnd 1 false d a (immS imm) st)
  | sorB64Imm9 d a imm st : UniInt (.sorB64Imm9 d a imm st) (uniK exOr 1 false d a (immS imm) st)
  | sxorB64Imm9 d a imm st : UniInt (.sxorB64Imm9 d a imm st) (uniK exXor 1 false d a (immS imm) st)
  | sshlB64Imm9 d a imm st : UniInt (.sshlB64Imm9 d a imm st) (uniK exShl 1 false d a (immS imm) st)
  | sshrN64Imm9 d a imm st : UniInt (.sshrN64Imm9 d a imm st) (uniK exShr 1 false d a (immU imm) st)
  | ssarI64Imm9 d a imm st : UniInt (.ssarI64Imm9 d a imm st) (uniK exSar 1 false d a (immS imm) st)
  | sminI64Imm9 d a imm st : UniInt (.sminI64Imm9 d a imm st) (uniK exMin 1 false d a (immS imm) st)
  | smaxI64Imm9 d a imm st : UniInt (.smaxI64Imm9 d a imm st) (uniK exMax 1 false d a (immS imm) st)
  | sminN64Imm9 d a imm st : UniInt (.sminN64Imm9 d a imm st) (uniK exMinU 1 false d a (immU imm) st)
  | smaxN64Imm9 d a imm st : UniInt (.smaxN64Imm9 d a imm st) (uniK exMaxU 1 false d a (immU imm) st)
  | smoviI64 d imm st : UniInt (.smoviI64 d imm st) (uniI false d (immS imm) st)
  | smoviN64 d imm st : UniInt (.smoviN64 d imm st) (uniI false d (immU imm) st)
  | saddI64Imm32 d a imm st : UniInt (.saddI64Imm32 d a imm st) (uniK exAdd 1 true d a (immS imm) st)
  | smulI64Imm32 d a imm st : UniInt (.smulI64Imm32 d a imm st) (uniK exMul 3 true d a (immS imm) st)
  | sandB64Imm32 d a imm st : UniInt (.sandB64Imm32 d a imm st) (uniK exAnd 1 true d a (immS imm) st)
  | sorB64Imm32 d a imm st : UniInt (.sorB64Imm32 d a imm st) (uniK exOr 1 true d a (immS imm) st)
  | sxorB64Imm32 d a imm st : UniInt (.sxorB64Imm32 d a imm st) (uniK exXor 1 true d a (immS imm) st)
  | sshlB64Imm32 d a imm st : UniInt (.sshlB64Imm32 d a imm st) (uniK exShl 1 true d a (immS imm) st)
  | sshrN64Imm32 d a imm st : UniInt (.sshrN64Imm32 d a imm st) (uniK exShr 1 true d a (immU imm) st)
  | ssarI64Imm32 d a imm st : UniInt (.ssarI64Imm32 d a imm st) (uniK exSar 1 true d a (immS imm) st)
  | sminI64Imm32 d a imm st : UniInt (.sminI64Imm32 d a imm st) (uniK exMin 1 true d a (immS imm) st)
  | smaxI64Imm32 d a imm st : UniInt (.smaxI64Imm32 d a imm st) (uniK exMax 1 true d a (immS imm) st)
  | sminN64Imm32 d a imm st : UniInt (.sminN64Imm32 d a imm st) (uniK exMinU 1 true d a (immU imm) st)
  | smaxN64Imm32 d a imm st : UniInt (.smaxN64Imm32 d a imm st) (uniK exMaxU 1 true d a (immU imm) st)
  | smoviI64Imm32 d imm st : UniInt (.smoviI64Imm32 d imm st) (uniI true d (immS imm) st)
  | smoviN64Imm32 d imm st : UniInt (.smoviN64Imm32 d imm st) (uniI true d (immU imm) st)

/-! ### Moves, masks and uniform reads of lanes (R112, R114–R122, R183–R185) -/

/-- A half copied with its U bit; g is what the form ORs into its tag (R103). -/
def Ctx.copied (c : Ctx) (h : Half) (g : Bool) : Half := ⟨if h.u then 0 else h.bits, c.gov || g, h.u, false⟩

/-- Half e of thread t of a form that moves whole lanes: lane `src` of a, a half (q) or a whole register; g is ORed in. -/
def Ctx.moved (c : Ctx) (q : Bool) (a : Reg) (src e : Nat) (g : Bool) : Half :=
  if q then c.copied (c.half a (src / 2) (src % 2)) (c.hG a (src / 2) (src % 2) || g)
  else c.copied (c.half a src e) (c.wG a src || g)

/-- The lane that half e of thread t belongs to: the half, or the thread (R121). -/
def laneAt (q : Bool) (t e : Nat) : Nat := if q then 2 * t + e else t

/-- A lane read through an index: itself when the lane named is not active (R122). -/
def Ctx.actOr (c : Ctx) (q : Bool) (src j : Nat) : Nat := if c.laneAct q src then src else j

def Regs.withHalf (r : Regs) (h : Nat → Nat → Nat → Half) : Regs := { r with half := h }
def Regs.withMsk (r : Regs) (m : Nat → Nat → Bool × Bool) : Regs := { r with msk := m }

/-- The forms that copy lane elements (R112, R115, R118, R122) and the reads of the cure state (R183). -/
inductive LaneMove : Instr → FixedSpec → Prop
  | mov d a w st : LaneMove (.mov d a w st)
      ⟨{ laneForm false st [a] d with chk := [] }, 1, fun c =>
        (regsOf c.br).putHalves c d (fun t e => c.moved (!w) a (laneAt (!w) t e) e false)⟩
  | sel d a b m ty st : LaneMove (.sel d a b m ty st)
      ⟨{ laneForm true st [a, b] d with rd := [nLane a, nLane b, nMsk m], chk := [] }, 2, fun c =>
        (regsOf c.br).putHalves c d (fun t e =>
          let q := ty.width == 32
          let i := if q then 2 * t + e else 2 * t
          c.moved q (if (c.m m).v.getLsbD i then a else b) (laneAt q t e) e ((c.m m).g.getLsbD i))⟩
  | lshfl d a b q st : LaneMove (.lshfl d a b q st)
      ⟨{ laneForm false st [a, b] d with chk := [] }, 6, fun c =>
        (regsOf c.br).putHalves c d (fun t e =>
          let j := laneAt q t e
          c.moved q a (c.actOr q (c.laneIdx q b j) j) e (c.laneIdxG q b j))⟩
  | lpush d a b q st : LaneMove (.lpush d a b q st)
      ⟨{ laneForm false st [a, b] d with chk := [] }, 6, fun c =>
        (regsOf c.br).withHalf (fun p t e =>
          if p = physReg c.k d.toNat ∧ c.act t = true then
            match ((c.lanes q).filter (fun j => c.laneIdx q b j == laneAt q t e)).getLast? with
            | some j => c.moved q a j e (c.laneIdxG q b j)
            | none => c.br.half p t e
          else c.br.half p t e)⟩
  | lbcst d a lane q st : LaneMove (.lbcst d a lane q st)
      ⟨{ laneForm false st [a] d with chk := [], only := some (elemOf q lane) }, 4, fun c =>
        (regsOf c.br).putHalves c d (fun t e =>
          c.moved q a (c.actOr q (if q then lane.toNat else lane.toNat % 32) (laneAt q t e)) e false)⟩
  | vfroms d a q st : LaneMove (.vfroms d a q st)
      ⟨{ laneForm false st [] d with unis := [a.toNat], rd := [nUni a] }, 2, fun c =>
        if q then (regsOf c.br).put32 c d (fun _ _ => (c.u a).setWidth 32) (fun _ _ => c.uG a)
        else (regsOf c.br).put64 c d (fun _ => c.u a) (fun _ => c.uG a)⟩
  | vfromsIdx d a q st : LaneMove (.vfromsIdx d a q st)
      ⟨{ laneForm false st [] d with unis := [a.toNat], rd := [nUni a] }, 2, fun c =>
        if q then (regsOf c.br).put32 c d (fun t e => (c.u a).setWidth 32 + BitVec.ofNat 32 (2 * t + e)) (fun _ _ => c.uG a)
        else (regsOf c.br).put64 c d (fun t => c.u a + BitVec.ofNat 64 t) (fun _ => c.uG a)⟩
  | rdlast d st : LaneMove (.cureRstRdlast d st)
      ⟨laneForm false st [] d, 1, fun c => (regsOf c.br).put64 c d (fun t => (c.br.cstOf t).last) (fun _ => false)⟩
  | rdcnt d st : LaneMove (.cureRstRdcnt d st)
      ⟨laneForm false st [] d, 1, fun c =>
        (regsOf c.br).put64 c d (fun t => let x := c.br.cstOf t
          BitVec.ofNat 64 (x.pass + x.fail * 2 ^ 17 + (if x.v then 2 ^ 25 else 0))) (fun _ => false)⟩

/-- A comparison of W-bit elements into a mask (R114). -/
def cmpSpec (v : (n : Nat) → BitVec n → BitVec n → Bool) (m : BitVec 3) (a b : Reg) (q : Bool) (st : BitVec 3) : FixedSpec :=
  ⟨{ laneForm false st [a, b] 0#6 with lanes := [a.toNat, b.toNat], wr := [nMsk m] }, 2, fun c =>
    (regsOf c.br).putMask c m
      (fun t e => if q then v 64 (c.w a t) (c.w b t) else v 32 (c.h a t e) (c.h b t e))
      (fun t e => if q then c.wG a t || c.wG b t else c.hG a t e || c.hG b t e)⟩

/-- A bitwise operation on two masks (R120). -/
def mopSpec (v : Bool → Bool → Bool) (m ma mb : BitVec 3) (st : BitVec 3) : FixedSpec :=
  ⟨{ bareForm false true st .vec with rd := [nMsk ma, nMsk mb], wr := [nMsk m] }, 1, fun c =>
    (regsOf c.br).putMask c m
      (fun t e => v ((c.m ma).v.getLsbD (2 * t + e)) ((c.m mb).v.getLsbD (2 * t + e)))
      (fun t e => (c.m ma).g.getLsbD (2 * t + e) || (c.m mb).g.getLsbD (2 * t + e))⟩

/-- The forms that write mask registers at a fixed latency and raise no flags. -/
inductive ToMask : Instr → FixedSpec → Prop
  | icmpEq m a b q st : ToMask (.icmpEq m a b q st) (cmpSpec (fun _ x y => x == y) m a b q st)
  | icmpNe m a b q st : ToMask (.icmpNe m a b q st) (cmpSpec (fun _ x y => x != y) m a b q st)
  | icmpLt m a b q st : ToMask (.icmpLt m a b q st) (cmpSpec (fun _ x y => decide (x.toInt < y.toInt)) m a b q st)
  | icmpLe m a b q st : ToMask (.icmpLe m a b q st) (cmpSpec (fun _ x y => decide (x.toInt ≤ y.toInt)) m a b q st)
  | icmpLtu m a b q st : ToMask (.icmpLtu m a b q st) (cmpSpec (fun _ x y => decide (x.toNat < y.toNat)) m a b q st)
  | icmpLeu m a b q st : ToMask (.icmpLeu m a b q st) (cmpSpec (fun _ x y => decide (x.toNat ≤ y.toNat)) m a b q st)
  | mopAnd m ma mb st : ToMask (.mopAnd m ma mb st) (mopSpec (fun x y => x && y) m ma mb st)
  | mopOr m ma mb st : ToMask (.mopOr m ma mb st) (mopSpec (fun x y => x || y) m ma mb st)
  | mopXor m ma mb st : ToMask (.mopXor m ma mb st) (mopSpec (fun x y => x != y) m ma mb st)
  | mopAndn m ma mb st : ToMask (.mopAndn m ma mb st) (mopSpec (fun x y => x && !y) m ma mb st)
  | mopNot m ma st : ToMask (.mopNot m ma st)
      ⟨{ bareForm false true st .vec with rd := [nMsk ma], wr := [nMsk m] }, 1, fun c =>
        (regsOf c.br).putMask c m (fun t e => !(c.m ma).v.getLsbD (2 * t + e)) (fun t e => (c.m ma).g.getLsbD (2 * t + e))⟩
  | tagrd m a st : ToMask (.tagrd m a st)
      ⟨{ laneForm false st [a] 0#6 with lanes := [a.toNat], wr := [nMsk m], chk := [] }, 1, fun c =>
        (regsOf c.br).putMask c m (fun t e => c.hG a t e) (fun _ _ => false)⟩
  | tagsetMask d b st : ToMask (.tagset d b true st)
      ⟨{ bareForm false true st .vec with priv := b.getLsbD 2, wr := [nMsk (d.setWidth 3)] }, 1, fun c =>
        (regsOf c.br).withMsk (fun m i =>
          if m = (d.setWidth 3).toNat ∧ c.act (i / 2) = true then (((regsOf c.br).msk m i).1, c.gov || !b.getLsbD 2)
          else (regsOf c.br).msk m i)⟩
  | tagsetLane d b st : ToMask (.tagset d b false st)
      ⟨{ laneForm false st [] d with priv := b.getLsbD 2 }, 1, fun c =>
        (regsOf c.br).withHalf (fun p t e =>
          if p = physReg c.k d.toNat ∧ c.act t = true ∧ b.getLsbD e = true then
            { c.br.half p t e with g := c.gov || !b.getLsbD 2 }
          else c.br.half p t e)⟩

/-- The forms that read a mask and write a uniform register (R120, R122): lanes are threads, or halves with q. -/
inductive MaskToUni : Instr → FixedSpec → Prop
  | ballot d m st : MaskToUni (.lvoteBallot d m st)
      ⟨maskToUni st d m, 4, fun c =>
        (regsOf c.br).putUni c d ((c.m m).v &&& c.sel) ((c.lanes true).any (fun j => (c.m m).g.getLsbD j))⟩
  | any d m st : MaskToUni (.lvoteAny d m st)
      ⟨maskToUni st d m, 4, fun c =>
        (regsOf c.br).putUni c d (if ∃ t ∈ c.ts, (c.m m).v.getLsbD (2 * t) = true then 1#64 else 0#64)
          (c.ts.any (fun t => (c.m m).g.getLsbD (2 * t)))⟩
  | all d m st : MaskToUni (.lvoteAll d m st)
      ⟨maskToUni st d m, 4, fun c =>
        (regsOf c.br).putUni c d (if ∀ t ∈ c.ts, (c.m m).v.getLsbD (2 * t) = true then 1#64 else 0#64)
          (c.ts.any (fun t => (c.m m).g.getLsbD (2 * t)))⟩
  | first d m q st : MaskToUni (.lfirst d m q st)
      ⟨maskToUni st d m, 4, fun c =>
        (regsOf c.br).putUni c d
          (BitVec.ofNat 64 (((c.lanes q).find? (fun j => (c.m m).v.getLsbD (if q then j else 2 * j))).getD (if q then 64 else 32)))
          ((c.lanes q).any (fun j => (c.m m).g.getLsbD (if q then j else 2 * j)))⟩
  | mpop d m q st : MaskToUni (.mpop d m q st)
      ⟨maskToUni st d m, 2, fun c =>
        (regsOf c.br).putUni c d
          (BitVec.ofNat 64 ((c.lanes q).countP (fun j => (c.m m).v.getLsbD (if q then j else 2 * j))))
          ((c.lanes q).any (fun j => (c.m m).g.getLsbD (if q then j else 2 * j)))⟩

/-! ### Floating-point results (R129–R133, R139) -/

/-- A floating-point result at a fixed latency, with the flags of each thread, and whether the form can raise any (R145). -/
structure FpSpec where
  form   : Form
  lat    : Nat
  regs   : Ctx → Regs
  flags  : Ctx → Nat → Flags
  raises : Bool

/-- No fault of a datapath or of its shadow is armed for the brick's next result (R360, R366). -/
def Healthy (c : Ctx) : Prop := c.br.dpFault = none ∧ ∀ t, c.br.armed ≠ some (.fp t)

/-- Instruction i of a table completes on every state in which its form issues and no fault is armed for it: the flags that
its threads raise follow the result. -/
def CompletesFp (table : Instr → FpSpec → Prop) : Prop :=
  ∀ i x, table i x → ∀ s c, Issues s c x.form → Healthy c →
    Retires i s c x.form (Delivers s c x.form x.lat (flagList c.ts (x.flags c)) x.raises (x.regs c))

/-- A result whose elements are halves: bits, flags and tag of half e of thread t. -/
def fp32 (d : Reg) (r : Ctx → Nat → Nat → Nat × Flags) (g : Ctx → Nat → Nat → Bool) : (Ctx → Regs) × (Ctx → Nat → Flags) :=
  (fun c => (regsOf c.br).put32 c d (fun t e => BitVec.ofNat 32 (r c t e).1) (g c),
   fun c t => (r c t 0).2 ||| (r c t 1).2)

/-- A result whose elements are whole registers. -/
def fp64 (d : Reg) (r : Ctx → Nat → Nat × Flags) (g : Ctx → Nat → Bool) : (Ctx → Regs) × (Ctx → Nat → Flags) :=
  (fun c => (regsOf c.br).put64 c d (fun t => BitVec.ofNat 64 (r c t).1) (g c), fun c t => (r c t).2)

/-- A form of class 2 (FP32 pairs). -/
def fpSpec32 (o : Fop) (lat : Nat) (two : Bool) (d a b : Reg) (rm : Rm) (st : BitVec 3) : FpSpec :=
  let x := fp32 d (fun c t e => fop fmtF32 (c.rnd rm) o (c.h a t e).toNat (c.h b t e).toNat (c.h d t e).toNat)
    (fun c t e => (o.reads d a b).any (fun r => c.hG r t e))
  ⟨laneForm two st (o.reads d a b) d, lat, x.1, x.2, true⟩

/-- A form of class 3 (FP64). -/
def fpSpec64 (o : Fop) (lat : Nat) (two : Bool) (d a b : Reg) (rm : Rm) (st : BitVec 3) : FpSpec :=
  let x := fp64 d (fun c t => fop fmtF64 (c.rnd rm) o (c.w a t).toNat (c.w b t).toNat (c.w d t).toNat)
    (fun c t => (o.reads d a b).any (fun r => c.wG r t))
  ⟨laneForm two st (o.reads d a b) d, lat, x.1, x.2, true⟩

/-- A form with one operand, on FP64 registers or FP32 pairs. -/
def fpUn (dbl two : Bool) (lat : Nat) (d a : Reg) (st : BitVec 3) (raises : Bool) (g : Ctx → Fmt → Nat → Nat × Flags) : FpSpec :=
  let x := if dbl then fp64 d (fun c t => g c fmtF64 (c.w a t).toNat) (fun c t => c.wG a t)
    else fp32 d (fun c t e => g c fmtF32 (c.h a t e).toNat) (fun c t e => c.hG a t e)
  ⟨laneForm two st [a] d, lat, x.1, x.2, raises⟩

/-- FTWOS and FTWOP: d receives the rounded result and v the remainder; v wins where they are one register. -/
def fpTwoSpec (g : Fmt → Nat → Nat → Nat × Nat × Flags) (d a b v : Reg) (ty : Ty) (st : BitVec 3) : FpSpec :=
  ⟨{ laneForm true st [a, b] d with lanes := [d.toNat, a.toNat, b.toNat, v.toNat], wr := [nLane d, nLane v] },
   if ty = .f64 then 8 else 6,
   fun c =>
     if ty = .f64 then
       ((regsOf c.br).put64 c d (fun t => BitVec.ofNat 64 (g fmtF64 (c.w a t).toNat (c.w b t).toNat).1)
         (fun t => c.wG a t || c.wG b t)).put64 c v
           (fun t => BitVec.ofNat 64 (g fmtF64 (c.w a t).toNat (c.w b t).toNat).2.1) (fun t => c.wG a t || c.wG b t)
     else
       ((regsOf c.br).put32 c d (fun t e => BitVec.ofNat 32 (g fmtF32 (c.h a t e).toNat (c.h b t e).toNat).1)
         (fun t e => c.hG a t e || c.hG b t e)).put32 c v
           (fun t e => BitVec.ofNat 32 (g fmtF32 (c.h a t e).toNat (c.h b t e).toNat).2.1) (fun t e => c.hG a t e || c.hG b t e),
   fun c t =>
     if ty = .f64 then (g fmtF64 (c.w a t).toNat (c.w b t).toNat).2.2
     else (g fmtF32 (c.h a t 0).toNat (c.h b t 0).toNat).2.2 ||| (g fmtF32 (c.h a t 1).toNat (c.h b t 1).toNat).2.2,
   true⟩

/-- FCMP: mask bits placed as those of ICMP (R114, R131). -/
def fcmpSpec (cc : FCond) (m : BitVec 3) (a b : Reg) (q : Bool) (st : BitVec 3) : FpSpec :=
  let r (c : Ctx) (t e : Nat) : Bool × Flags :=
    if q then fcond cc (fUnpack fmtF64 (c.w a t).toNat) (fUnpack fmtF64 (c.w b t).toNat)
    else fcond cc (fUnpack fmtF32 (c.h a t e).toNat) (fUnpack fmtF32 (c.h b t e).toNat)
  ⟨{ laneForm false st [a, b] 0#6 with lanes := [a.toNat, b.toNat], wr := [nMsk m] }, 2,
   fun c => (regsOf c.br).putMask c m (fun t e => (r c t e).1)
     (fun t e => if q then c.wG a t || c.wG b t else c.hG a t e || c.hG b t e),
   fun c t => (r c t 0).2 ||| (r c t 1).2, true⟩

/-- The floating-point lane forms of classes 2, 3 and 5 and the OPX forms of R132 and R133. -/
inductive LaneFp : Instr → FpSpec → Prop
  | faddF32 d a b rm st : LaneFp (.faddF32 d a b rm st) (fpSpec32 .add 4 false d a b rm st)
  | fsubF32 d a b rm st : LaneFp (.fsubF32 d a b rm st) (fpSpec32 .sub 4 false d a b rm st)
  | fmulF32 d a b rm st : LaneFp (.fmulF32 d a b rm st) (fpSpec32 .mul 4 false d a b rm st)
  | ffmaF32 d a b rm st : LaneFp (.ffmaF32 d a b rm st) (fpSpec32 .fma 4 false d a b rm st)
  | ffmsF32 d a b rm st : LaneFp (.ffmsF32 d a b rm st) (fpSpec32 .fms 4 false d a b rm st)
  | fnmaF32 d a b rm st : LaneFp (.fnmaF32 d a b rm st) (fpSpec32 .nma 4 false d a b rm st)
  | fminF32 d a b rm st : LaneFp (.fminF32 d a b rm st) (fpSpec32 .min 2 false d a b rm st)
  | fmaxF32 d a b rm st : LaneFp (.fmaxF32 d a b rm st) (fpSpec32 .max 2 false d a b rm st)
  | fdivF32 d a b rm st : LaneFp (.fdivF32 d a b rm st) (fpSpec32 .div 14 false d a b rm st)
  | fsqrtF32 d a rm st : LaneFp (.fsqrtF32 d a rm st) (fpSpec32 .sqrt 14 false d a 0#6 rm st)
  | frcpF32 d a rm st : LaneFp (.frcpF32 d a rm st) (fpSpec32 .rcp 10 false d a 0#6 rm st)
  | frsqF32 d a rm st : LaneFp (.frsqF32 d a rm st) (fpSpec32 .rsq 12 false d a 0#6 rm st)
  | fexpF32 d a rm st : LaneFp (.fexpF32 d a rm st) (fpSpec32 .exp 20 false d a 0#6 rm st)
  | fex2F32 d a rm st : LaneFp (.fex2F32 d a rm st) (fpSpec32 .ex2 16 false d a 0#6 rm st)
  | flogF32 d a rm st : LaneFp (.flogF32 d a rm st) (fpSpec32 .log 22 false d a 0#6 rm st)
  | ferfF32 d a rm st : LaneFp (.ferfF32 d a rm st) (fpSpec32 .erf 28 false d a 0#6 rm st)
  | faddF64 d a b rm st : LaneFp (.faddF64 d a b rm st) (fpSpec64 .add 6 false d a b rm st)
  | fsubF64 d a b rm st : LaneFp (.fsubF64 d a b rm st) (fpSpec64 .sub 6 false d a b rm st)
  | fmulF64 d a b rm st : LaneFp (.fmulF64 d a b rm st) (fpSpec64 .mul 6 false d a b rm st)
  | ffmaF64 d a b rm st : LaneFp (.ffmaF64 d a b rm st) (fpSpec64 .fma 6 false d a b rm st)
  | ffmsF64 d a b rm st : LaneFp (.ffmsF64 d a b rm st) (fpSpec64 .fms 6 false d a b rm st)
  | fnmaF64 d a b rm st : LaneFp (.fnmaF64 d a b rm st) (fpSpec64 .nma 6 false d a b rm st)
  | fminF64 d a b rm st : LaneFp (.fminF64 d a b rm st) (fpSpec64 .min 2 false d a b rm st)
  | fmaxF64 d a b rm st : LaneFp (.fmaxF64 d a b rm st) (fpSpec64 .max 2 false d a b rm st)
  | fdivF64 d a b rm st : LaneFp (.fdivF64 d a b rm st) (fpSpec64 .div 24 false d a b rm st)
  | fsqrtF64 d a rm st : LaneFp (.fsqrtF64 d a rm st) (fpSpec64 .sqrt 26 false d a 0#6 rm st)
  | frcpF64 d a rm st : LaneFp (.frcpF64 d a rm st) (fpSpec64 .rcp 18 false d a 0#6 rm st)
  | frsqF64 d a rm st : LaneFp (.frsqF64 d a rm st) (fpSpec64 .rsq 20 false d a 0#6 rm st)
  | fexpF64 d a rm st : LaneFp (.fexpF64 d a rm st) (fpSpec64 .exp 36 false d a 0#6 rm st)
  | fex2F64 d a rm st : LaneFp (.fex2F64 d a rm st) (fpSpec64 .ex2 30 false d a 0#6 rm st)
  | flogF64 d a rm st : LaneFp (.flogF64 d a rm st) (fpSpec64 .log 40 false d a 0#6 rm st)
  | ferfF64 d a rm st : LaneFp (.ferfF64 d a rm st) (fpSpec64 .erf 48 false d a 0#6 rm st)
  | fcmpEq m a b q st : LaneFp (.fcmpEq m a b q st) (fcmpSpec .eq m a b q st)
  | fcmpNe m a b q st : LaneFp (.fcmpNe m a b q st) (fcmpSpec .ne m a b q st)
  | fcmpLt m a b q st : LaneFp (.fcmpLt m a b q st) (fcmpSpec .lt m a b q st)
  | fcmpLe m a b q st : LaneFp (.fcmpLe m a b q st) (fcmpSpec .le m a b q st)
  | fcmpUn m a b q st : LaneFp (.fcmpUn m a b q st) (fcmpSpec .un m a b q st)
  | fclass d a q st : LaneFp (.fclass d a q st) (fpUn q false 2 d a st false (fun _ f x => (fClass f x, flagNone)))
  | fabs d a q st : LaneFp (.fabs d a q st) (fpUn q false 1 d a st false
      (fun _ f x => (if isNaN (fUnpack f x) then f.nanBits else x % 2 ^ (f.ebits + f.fbits), flagNone)))
  | fneg d a q st : LaneFp (.fneg d a q st) (fpUn q false 1 d a st false
      (fun _ f x => (if isNaN (fUnpack f x) then f.nanBits else x + 2 ^ (f.ebits + f.fbits), flagNone)))
  | flg2F64 d a rm st : LaneFp (.flg2 d a rm .f64 st) (fpSpec64 .lg2 34 true d a 0#6 rm st)
  | flg2F32 d a rm ty st (h : ty ≠ .f64) : LaneFp (.flg2 d a rm ty st) (fpSpec32 .lg2 18 true d a 0#6 rm st)
  | frnd d a rm ty st : LaneFp (.frnd d a rm ty st)
      (fpUn (ty == .f64) true 4 d a st true (fun c f x => fRnd f (c.rnd rm) (fUnpack f x)))
  | fscaleF64 d a b rm st : LaneFp (.fscale d a b rm .f64 st)
      (let x := fp64 d (fun c t => fScale fmtF64 (c.rnd rm) (fUnpack fmtF64 (c.w a t).toNat) (c.w b t).toInt)
        (fun c t => c.wG a t || c.wG b t)
       ⟨laneForm true st [a, b] d, 4, x.1, x.2, true⟩)
  | fscaleF32 d a b rm ty st (h : ty ≠ .f64) : LaneFp (.fscale d a b rm ty st)
      (let x := fp32 d (fun c t e => fScale fmtF32 (c.rnd rm) (fUnpack fmtF32 (c.h a t e).toNat) (c.h b t e).toInt)
        (fun c t e => c.hG a t e || c.hG b t e)
       ⟨laneForm true st [a, b] d, 4, x.1, x.2, true⟩)
  | ftwos d a b v ty st : LaneFp (.ftwos d a b v ty st) (fpTwoSpec fTwoSum d a b v ty st)
  | ftwop d a b v ty st : LaneFp (.ftwop d a b v ty st) (fpTwoSpec fTwoProd d a b v ty st)

/-! ### Operations in flight (R198, R200) -/

/-- s' is s with one operation of the form in flight: it takes the brick's next sequence number and the next place on
counter fc, which thereby counts one more, is due at a later cycle, and leaves a mark on its destination. -/
def Flies (s : State) (c : Ctx) (f : Form) (fc tEnd : Option Nat) (mark : Option RName) (kind : FlightKind) (s' : State) : Prop :=
  ∃ due, s.clk < due ∧ s' = { modBrick s c.b (fun br => { br with
    flights := br.flights ++ [{ seq := br.seq, fc := fc, ord := (match fc with
                                  | some n => issuedOn br n + 1
                                  | none => 0)
                                split := c.k, pc := c.sp.pc, two := f.two, due := due, tEnd := tEnd, done := false, kind := kind }]
    seq := br.seq + 1
    issued := (match fc with
      | some n => tabSet br.issued n 0 (issuedOn br n + 1)
      | none => br.issued)
    marks := br.marks ++ (match mark, fc with
      | some n, some k => [⟨n, (match n with
          | .uni _ => 0xFFFFFFFF#32
          | _ => c.sp.mask), c.k, br.seq, k, issuedOn br k + 1⟩]
      | _, _ => []) }) with free := s.free + 1 }

/-! ### Loads and stores (R190, R202–R204, R231, R233) -/

/-- A load: its form, whether its address lies in the launch's space, its checked accesses, where the data go. -/
structure LoadSpec where
  form : Form
  glob : Ctx → Bool
  accs : State → Ctx → AccRes
  dst  : Ctx → LoadDst
  mark : Ctx → RName

/-- The fabric lets every access through: none names a home on another module that it refuses (R370–R372). -/
def Admitted (s : State) (accs : List Acc) : Prop := ∀ a ∈ accs, outCheck s a.loc = none

/-- What a load has in flight: outside a deterministic launch a global one is performed later; any other one has read the
lines already (where they are whole), over the brick's own buffered writes (R195, R259). -/
def LoadKind (s : State) (c : Ctx) (x : LoadSpec) (accs : List Acc) (kind : FlightKind) : Prop :=
  if c.br.det = false ∧ x.glob c = true then kind = .load accs (x.dst c) c.gov
  else
    let view := if c.br.det then ownView s c.b c.br else s
    Clean view accs → Admitted view accs → kind = .regs (accs.flatMap (loadWrite view (x.dst c) c.gov)) none

/-- A load completes when its form issues, its counter can count one more, no earlier access has to come first, every
active thread's address passes its checks, and a way leads to each home where a deterministic launch reads it now. -/
def CompletesLoad (table : Instr → LoadSpec → Prop) : Prop :=
  ∀ i x, table i x → ∀ s c s1 accs, Issues s c x.form → loadHold s c (if x.glob c then 1 else 0) = false →
    x.accs s c = .ok s1 accs → (c.br.det = true → ∀ a ∈ accs, locDown s1 a.loc = false) →
    Retires i s c x.form (fun s' => ∃ s2 kind, Walked s s2 ∧ LoadKind s1 c x accs kind ∧
      Flies s2 c x.form (some (if x.glob c then 1 else 0)) none (some (x.mark c)) kind s')

/-- Accesses of n bytes of a lane form, one for each active thread. -/
def laneAccs (glob : Bool) (kind n : Nat) (x sb : Reg) (sc : BitVec 2) (disp : BitVec 30) (bad : Ctx → (Nat → W64) → Nat → Bool)
    (s : State) (c : Ctx) : AccRes :=
  let addr := c.addr x sb sc disp
  if glob then globalAccs s c kind anyHome addr (c.addrG x sb) n (bad c addr)
  else localAccs s c addr (c.addrG x sb) n (bad c addr)

def byMultiple (n : Nat) (_ : Ctx) (addr : Nat → W64) : Nat → Bool := misaligned addr n
def byGroup (loc full : Bool) (c : Ctx) (addr : Nat → W64) : Nat → Bool := groupBad c addr loc full

def laneLoadSpec (glob : Bool) (n : Nat) (two : Bool) (d x sb : Reg) (sc : BitVec 2) (disp : BitVec 30) (st : BitVec 3) : LoadSpec :=
  ⟨memForm two st (some d) x sb false true, fun _ => glob, laneAccs glob kRead n x sb sc disp (byMultiple n),
   fun c => if n = 8 then .lane64 (physReg c.k d.toNat) else .lane32 (physReg c.k d.toNat), fun c => .lane (physReg c.k d.toNat)⟩

def lineLoadSpec (q two : Bool) (d x sb : Reg) (sc : BitVec 2) (disp : BitVec 30) (st : BitVec 3) : LoadSpec :=
  ⟨memForm two st (some d) x sb false true, fun _ => q, laneAccs q kRead 8 x sb sc disp (byGroup (!q) false),
   fun c => .lane64 (physReg c.k d.toNat), fun c => .lane (physReg c.k d.toNat)⟩

def uniLoadSpec (two : Bool) (d sb : Reg) (disp : W64) (st : BitVec 3) : LoadSpec :=
  ⟨uniForm two st [sb] d, fun c => (c.u sb + disp).getLsbD 63, fun s c => uniformAcc s c kRead (c.u sb + disp) (c.uG sb),
   fun c => .uni (physReg c.k d.toNat), fun c => .uni (physReg c.k d.toNat)⟩

/-- The loads of local memory, of the launch's space, and of either (LDT, LDS, TAGRD.line). -/
inductive Load : Instr → LoadSpec → Prop
  | ldB64 d x sb sc st : Load (.ldB64 d x sb sc st) (laneLoadSpec false 8 false d x sb sc 0 st)
  | ldB64Disp d x sb sc disp st : Load (.ldB64Disp d x sb sc disp st) (laneLoadSpec false 8 true d x sb sc disp st)
  | ldB32 d x sb sc st : Load (.ldB32 d x sb sc st) (laneLoadSpec false 4 false d x sb sc 0 st)
  | ldB32Disp d x sb sc disp st : Load (.ldB32Disp d x sb sc disp st) (laneLoadSpec false 4 true d x sb sc disp st)
  | ldgB64 d x sb sc st : Load (.ldgB64 d x sb sc st) (laneLoadSpec true 8 false d x sb sc 0 st)
  | ldgB64Disp d x sb sc disp st : Load (.ldgB64Disp d x sb sc disp st) (laneLoadSpec true 8 true d x sb sc disp st)
  | ldgB32 d x sb sc st : Load (.ldgB32 d x sb sc st) (laneLoadSpec true 4 false d x sb sc 0 st)
  | ldgB32Disp d x sb sc disp st : Load (.ldgB32Disp d x sb sc disp st) (laneLoadSpec true 4 true d x sb sc disp st)
  | ldt d x sb sc q st : Load (.ldt d x sb sc q st) (lineLoadSpec q false d x sb sc 0 st)
  | ldtDisp d x sb sc disp q st : Load (.ldtDisp d x sb sc disp q st) (lineLoadSpec q true d x sb sc disp st)
  | lds d sb imm st : Load (.lds d sb imm st) (uniLoadSpec false d sb (immS imm <<< 3) st)
  | ldsDisp d sb disp st : Load (.ldsDisp d sb disp st) (uniLoadSpec true d sb (immS disp) st)
  | tagrdLine m a g st : Load (.tagrdLine m a g st)
      ⟨{ laneForm false st [a] 0#6 with lanes := [a.toNat], wr := [nMsk m] }, fun _ => g,
       fun s c => if g then globalAccs s c kRead anyHome (c.w a) (c.wG a) 1 (fun _ => false)
         else localAccs s c (c.w a) (c.wG a) 1 (fun _ => false),
       fun _ => .lineG m.toNat, fun _ => .msk m.toNat⟩

/-- A store: its form, whether its address lies in the launch's space, its checked accesses, what each one puts there, and
which threads a settled-only store turns away. -/
structure StoreSpec where
  form  : Form
  glob  : Ctx → Bool
  accs  : State → Ctx → AccRes
  puts  : Ctx → List Acc → List Put
  green : Ctx → Bool

/-- A store completes when its form issues, no earlier access has to come first, every active thread's address passes its
checks, a settled-only store meets no green value, and no green byte is bound for host memory. A local store outside a
deterministic launch is performed at once; any other one is in flight, in a deterministic launch until its course's end. -/
def CompletesStore (table : Instr → StoreSpec → Prop) : Prop :=
  ∀ i x, table i x → ∀ s c s1 accs, Issues s c x.form → storeHold s c (x.glob c) = false → x.green c = false →
    x.accs s c = .ok s1 accs → (∀ p ∈ x.puts c accs, (p.acc.loc.isHost && (p.dG || p.acc.aG || c.gov)) = false) →
    Retires i s c x.form (fun s' => Walked s s1 ∧
      if c.br.det then
        Flies s1 c x.form (if x.glob c then some 2 else none) (some (courseEndOf (qOf s c.br) c.br.L)) none
          (.store (x.puts c accs) c.gov) s'
      else if x.glob c then Flies s1 c x.form (some 2) none none (.store (x.puts c accs) c.gov) s'
      else s' = performStore s1 c.b (x.puts c accs) c.gov)

/-- What each active thread stores: the low n bytes of d, lowest first, with its tag. -/
def lanePuts (d : Reg) (n : Nat) (c : Ctx) (accs : List Acc) : List Put :=
  accs.map (fun a => ⟨a, leBytes n (c.w d a.t).toNat, if n = 8 then c.wG d a.t else c.hG d a.t 0⟩)

def laneStoreSpec (glob : Bool) (n : Nat) (two : Bool) (d x sb : Reg) (sc : BitVec 2) (disp : BitVec 30) (st : BitVec 3) : StoreSpec :=
  ⟨{ memForm two st (some d) x sb true false with half0 := if n = 8 then [] else [d.toNat] }, fun _ => glob, laneAccs glob kWrite n x sb sc disp (byMultiple n), lanePuts d n,
   fun _ => false⟩

/-- STC: every value, address and the split itself must be cured (R186). -/
def settledSpec (q two : Bool) (d x sb : Reg) (sc : BitVec 2) (disp : BitVec 30) (st : BitVec 3) : StoreSpec :=
  ⟨{ memForm two st (some d) x sb true false with chk := [chkBoth d, chkBoth x] }, fun _ => q,
   laneAccs q kWrite 8 x sb sc disp (byMultiple 8), lanePuts d 8,
   fun c => c.gov || c.ts.any (fun t => c.wG d t || c.addrG x sb t)⟩

def lineStoreSpec (two : Bool) (d x sb : Reg) (sc : BitVec 2) (disp : BitVec 30) (st : BitVec 3) : StoreSpec :=
  ⟨memForm two st (some d) x sb true false, fun _ => false, laneAccs false kWrite 8 x sb sc disp (byGroup true true), lanePuts d 8,
   fun _ => false⟩

def uniStoreSpec (two : Bool) (d sb : Reg) (disp : W64) (st : BitVec 3) : StoreSpec :=
  ⟨{ uniForm two st [sb, d] d with wr := [] }, fun c => (c.u sb + disp).getLsbD 63,
   fun s c => uniformAcc s c kWrite (c.u sb + disp) (c.uG sb),
   fun c accs => accs.map (fun a => ⟨a, leBytes 8 (c.u d).toNat, c.uG d⟩), fun _ => false⟩

/-- The stores to local memory and to the launch's space. -/
inductive Store : Instr → StoreSpec → Prop
  | stB64 d x sb sc st : Store (.stB64 d x sb sc st) (laneStoreSpec false 8 false d x sb sc 0 st)
  | stB64Disp d x sb sc disp st : Store (.stB64Disp d x sb sc disp st) (laneStoreSpec false 8 true d x sb sc disp st)
  | stB32 d x sb sc st : Store (.stB32 d x sb sc st) (laneStoreSpec false 4 false d x sb sc 0 st)
  | stB32Disp d x sb sc disp st : Store (.stB32Disp d x sb sc disp st) (laneStoreSpec false 4 true d x sb sc disp st)
  | stgB64 d x sb sc st : Store (.stgB64 d x sb sc st) (laneStoreSpec true 8 false d x sb sc 0 st)
  | stgB64Disp d x sb sc disp st : Store (.stgB64Disp d x sb sc disp st) (laneStoreSpec true 8 true d x sb sc disp st)
  | stgB32 d x sb sc st : Store (.stgB32 d x sb sc st) (laneStoreSpec true 4 false d x sb sc 0 st)
  | stgB32Disp d x sb sc disp st : Store (.stgB32Disp d x sb sc disp st) (laneStoreSpec true 4 true d x sb sc disp st)
  | stc d x sb sc q st : Store (.stc d x sb sc q st) (settledSpec q false d x sb sc 0 st)
  | stcDisp d x sb sc disp q st : Store (.stcDisp d x sb sc disp q st) (settledSpec q true d x sb sc disp st)
  | stt d x sb sc st : Store (.stt d x sb sc st) (lineStoreSpec false d x sb sc 0 st)
  | sttDisp d x sb sc disp st : Store (.sttDisp d x sb sc disp st) (lineStoreSpec true d x sb sc disp st)
  | sts d sb imm st : Store (.sts d sb imm st) (uniStoreSpec false d sb (immS imm <<< 3) st)
  | stsDisp d sb disp st : Store (.stsDisp d sb disp st) (uniStoreSpec true d sb (immS disp) st)

/-! ### Versioned tiles (R239–R243) -/

/-- The head that governs a tile, as the brick sees it behind its own writes: its own, or the one that a linked head names;
both must be well formed (R239, R240). -/
inductive Governs (c : Ctx) (kind : Nat) : State → Nat → State → Nat → Nat → Head → Prop
  | own {s va s' pa h} : headAddr s c kind va = .ok s' pa h → h.good = true → h.lnk = false → Governs c kind s va s' pa va h
  | link {s va s' pa h s'' pa' h'} : headAddr s c kind va = .ok s' pa h → h.good = true → h.lnk = true →
      headAddr s' c kind h.peer = .ok s'' pa' h' → h'.good = true → Governs c kind s va s'' pa' h.peer h'

/-- A versioned form: index, base, scale, displacement. -/
structure TileSpec where
  form : Form
  addr : Ctx → Nat → W64
  accs : State → Ctx → AccRes

def tileSpec (load two : Bool) (kind : Nat) (full : Bool) (lines : Nat) (d x sb : Reg) (sc : BitVec 2) (disp : BitVec 30) (st : BitVec 3) :
    TileSpec :=
  ⟨memForm two st (some d) x sb (!load) load, fun c => c.addr x sb sc disp,
   fun s c => globalAccs s c kind ownHome (c.addr x sb sc disp) (c.addrG x sb) 8 (tileBad c (c.addr x sb sc disp) full lines)⟩

inductive VersionedLoad : Instr → Reg → TileSpec → Prop
  | ldtv d x sb sc st : VersionedLoad (.ldtv d x sb sc st) d (tileSpec true false kRead false 63 d x sb sc 0 st)
  | ldtvDisp d x sb sc disp st : VersionedLoad (.ldtvDisp d x sb sc disp st) d (tileSpec true true kRead false 63 d x sb sc disp st)

inductive AonStore : Instr → Reg → TileSpec → Prop
  | sttAon d x sb sc st : AonStore (.sttAon d x sb sc st) d (tileSpec false false kRw true 63 d x sb sc 0 st)
  | sttAonDisp d x sb sc disp st : AonStore (.sttAonDisp d x sb sc disp st) d (tileSpec false true kRw true 63 d x sb sc disp st)

inductive PairedStore : Instr → Reg → TileSpec → Prop
  | stp d x sb sc st : PairedStore (.stp d x sb sc st) d (tileSpec false false kRw true 32 d x sb sc 0 st)
  | stpDisp d x sb sc disp st : PairedStore (.stpDisp d x sb sc disp st) d (tileSpec false true kRw true 32 d x sb sc disp st)

/-! ### Tentative cells (R244–R247) -/

/-- A form on tentative cells: its form, its addresses, what it has in flight, its result mask. -/
structure CellSpec where
  form : Form
  addr : Ctx → Nat → W64
  aG   : Ctx → Nat → Bool
  kind : Ctx → List Acc → FlightKind
  mask : BitVec 2

def cellSpec (two : Bool) (m : BitVec 2) (d : Option Reg) (x sb : Reg) (disp : BitVec 30) (st : BitVec 3)
    (kind : Ctx → List Acc → FlightKind) : CellSpec :=
  ⟨{ memForm two st d x sb true false with wr := [nMsk m] }, fun c => c.addr x sb 3 disp, fun c => c.addrG x sb, kind, m⟩

inductive CellForm : Instr → CellSpec → Prop
  | tst m d x sb st : CellForm (.tst m d x sb st)
      (cellSpec false m (some d) x sb 0 st (fun c accs => .tst (lanePuts d 8 c accs) m.toNat c.gov))
  | tstDisp m d x sb disp st : CellForm (.tstDisp m d x sb disp st)
      (cellSpec true m (some d) x sb disp st (fun c accs => .tst (lanePuts d 8 c accs) m.toNat c.gov))
  | tcom m x sb st : CellForm (.tcom m x sb st) (cellSpec false m none x sb 0 st (fun c accs => .tcom accs m.toNat c.gov))
  | tcomDisp m x sb disp st : CellForm (.tcomDisp m x sb disp st)
      (cellSpec true m none x sb disp st (fun c accs => .tcom accs m.toNat c.gov))
  | retr m x sb st : CellForm (.retr m x sb st) (cellSpec false m none x sb 0 st (fun c accs => .retr accs m.toNat c.gov))
  | retrDisp m x sb disp st : CellForm (.retrDisp m x sb disp st)
      (cellSpec true m none x sb disp st (fun c accs => .retr accs m.toNat c.gov))

/-! ### Conversions (R80, R84, R86, R134–R138) -/

/-- A converting form: its form, whether it draws, whether its zero points fit, its latency, what it leaves and the flags
of each thread, on the state and context after the draw. -/
structure ConvSpec where
  form  : Form
  rsr   : Bool
  ok    : Ctx → Bool
  lat   : Nat
  regs  : State → Ctx → Regs
  flags : State → Ctx → Nat → Flags

/-- A converting form completes; an `.rsr` one first advances the stochastic generator once. -/
def CompletesConv (table : Instr → ConvSpec → Prop) : Prop :=
  ∀ i x, table i x → ∀ s c, Issues s c x.form → x.ok c = true → Healthy c →
    let next := srStep (srOf s c.br)
    let s1 := if x.rsr then srWrite s c.b c.br next else s
    let c1 := if x.rsr then { c with br := { c.br with sr := next } } else c
    Retires i s c x.form (Delivers s1 c1 x.form x.lat (flagList c.ts (x.flags s1 c1)) true (x.regs s1 c1))

/-- Lane register d receives h t e in the chosen halves of every active thread. -/
def Regs.putChosen (r : Regs) (c : Ctx) (d : Reg) (chosen : Nat → Bool) (h : Nat → Nat → Half) : Regs :=
  { r with half := fun p t e => if p = physReg c.k d.toNat ∧ c.act t = true ∧ chosen e = true then h t e else r.half p t e }

/-- The element of CVT for lane i = 2t + e: a 64-bit source, or the narrow one in half e of a. -/
def cvtFrom64 (s : State) (c : Ctx) (a : Reg) (rm : Rm) (t1 t2 : Ty) (i t : Nat) : Nat × Flags :=
  cvtElem t1 (roundingOf rm c.br.rm (srDraw (srOf s c.br) i)) (elemVal t2 (c.w a t).toNat)
def cvtFrom32 (s : State) (c : Ctx) (a v : Reg) (rm : Rm) (t1 t2 : Ty) (t e : Nat) : Nat × Flags :=
  cvtElem t1 (roundingOf rm c.br.rm (srDraw (srOf s c.br) (2 * t + e))) (narrowVal t2 (c.h a t e).toNat (c.h v t e).toNat)

def cvtSpec (d a v : Reg) (rm : Rm) (t1 t2 : Ty) (hi : Bool) (st : BitVec 3) : ConvSpec :=
  let e := if hi then 1 else 0
  let sides := if t1.width = 64 && t2.width ≠ 64 then (!hi, hi) else (true, true)
  let regs := if t2.isBlock then [a, v] else [a]
  { form := { laneForm true st regs d with chk := regs.map (fun r => (r.toNat, sides.1, sides.2)) }
    rsr := rm == .rsr
    ok := fun c => !t2.isBlock || c.ts.all (fun t => !((sides.1 && zeroPointBad t2 (c.h v t 0).toNat) || (sides.2 && zeroPointBad t2 (c.h v t 1).toNat)))
    lat := 4
    regs := fun s c =>
      if t1.width = 64 then
        (if t2.width = 64 then
          (regsOf c.br).put64 c d (fun t => BitVec.ofNat 64 (cvtFrom64 s c a rm t1 t2 (2 * t) t).1)
            (fun t => cvtTag t1 t2 (cvtFrom64 s c a rm t1 t2 (2 * t) t).2 (c.wG a t))
        else
          (regsOf c.br).put64 c d (fun t => BitVec.ofNat 64 (cvtFrom32 s c a v rm t1 t2 t e).1)
            (fun t => cvtTag t1 t2 (cvtFrom32 s c a v rm t1 t2 t e).2 (c.hG a t e)))
      else if t2.width = 64 then
        (regsOf c.br).putChosen c d (fun x => x == e)
          (fun t _ => c.newHalf (BitVec.ofNat 32 (cvtFrom64 s c a rm t1 t2 (2 * t + e) t).1)
            (cvtTag t1 t2 (cvtFrom64 s c a rm t1 t2 (2 * t + e) t).2 (c.wG a t)))
      else
        (regsOf c.br).put32 c d (fun t x => BitVec.ofNat 32 (cvtFrom32 s c a v rm t1 t2 t x).1)
          (fun t x => cvtTag t1 t2 (cvtFrom32 s c a v rm t1 t2 t x).2 (c.hG a t x))
    flags := fun s c t =>
      if t1.width = 64 then
        (if t2.width = 64 then (cvtFrom64 s c a rm t1 t2 (2 * t) t).2 else (cvtFrom32 s c a v rm t1 t2 t e).2)
      else if t2.width = 64 then (cvtFrom64 s c a rm t1 t2 (2 * t + e) t).2
      else (cvtFrom32 s c a v rm t1 t2 t 0).2 ||| (cvtFrom32 s c a v rm t1 t2 t 1).2 }

/-- CVTN: result k of a thread fills bits w·k and up of d, or of one half of it (R136). -/
def cvtnSpec (d a b : Reg) (rm : Rm) (t1 t2 : Ty) (hi : Bool) (st : BitVec 3) : ConvSpec :=
  let n := if t2 == .f64 then 2 else 4
  let w := t1.width
  { form := laneForm true st [a, b] d
    rsr := rm == .rsr
    ok := fun _ => true
    lat := 6
    regs := fun s c =>
      let el := cvtnElem s c a b rm t1 t2
      let bits (t : Nat) : Nat := (List.range n).foldl (fun acc k => acc + (el t k).1 * 2 ^ (k * w)) 0
      if n * w = 64 then
        (regsOf c.br).put32 c d (fun t e => BitVec.ofNat 32 (bits t / 2 ^ (32 * e)))
          (fun t e => (List.range (n / 2)).any (fun k => (el t (k + n / 2 * e)).2.2))
      else
        (regsOf c.br).putChosen c d (fun x => x == if hi then 1 else 0)
          (fun t _ => c.newHalf (BitVec.ofNat 32 (bits t)) ((List.range n).any (fun k => (el t k).2.2)))
    flags := fun s c t => (List.range n).foldl (fun acc k => acc ||| (cvtnElem s c a b rm t1 t2 t k).2.1) flagNone }

/-- PACKHB: elements always green; without given scales, the computed pairs go to sb (R137, R138). -/
def packhbSpec (d a sb : Reg) (rm : Rm) (t1 t2 : Ty) (given : Bool) (gap : BitVec 4) (st : BitVec 3) : ConvSpec :=
  let f0 := laneForm true st [a] d
  let el (s : State) (c : Ctx) (t e : Nat) : Nat × Flags :=
    packElem t1 ((packPairs c a sb t1 t2 given gap.toNat).getD (packBlock t1 t2 t e) 0) given
      (roundingOf rm c.br.rm (srDraw (srOf s c.br) (2 * t + e))) (packVal c a t2 t e)
  { form := { f0 with unis := [sb.toNat], rd := (if given then f0.rd ++ [nUni sb] else f0.rd)
                      wr := (if given then f0.wr else f0.wr ++ [nUni sb]) }
    rsr := rm == .rsr
    ok := fun c => !given || (packPairs c a sb t1 t2 given gap.toNat).all (fun p => !zeroPointBad t1 p)
    lat := 12
    regs := fun s c =>
      let r := if t2 == .f64 then (regsOf c.br).put64 c d (fun t => BitVec.ofNat 64 (el s c t 0).1) (fun _ => true)
        else (regsOf c.br).put32 c d (fun t e => BitVec.ofNat 32 (el s c t e).1) (fun _ _ => true)
      if given then r
      else r.putUni c sb
        (BitVec.ofNat 64 ((List.range (packBlocks t1 t2)).foldl
          (fun acc j => acc + (packPairs c a sb t1 t2 given gap.toNat).getD j 0 * 2 ^ (16 * j)) 0))
        (c.ts.any (fun t => if t2 == .f64 then c.wG a t else (c.hG a t 0 || c.hG a t 1)))
    flags := fun s c t => if t2 == .f64 then (el s c t 0).2 else (el s c t 0).2 ||| (el s c t 1).2 }

inductive Conv : Instr → ConvSpec → Prop
  | cvt d a v rm t1 t2 hi st : Conv (.cvt d a v rm t1 t2 hi st) (cvtSpec d a v rm t1 t2 hi st)
  | cvtn d a b rm t1 t2 hi st : Conv (.cvtn d a b rm t1 t2 hi st) (cvtnSpec d a b rm t1 t2 hi st)
  | packhb d a sb rm t1 t2 given gap st : Conv (.packhb d a sb rm t1 t2 given gap st) (packhbSpec d a sb rm t1 t2 given gap st)

/-! ### Reductions across lanes (R88, R123–R125) -/

/-- LRED or LSCAN: its form and latency; the value and tag that lane j receives; the flags of its combinations. -/
structure ReduceSpec where
  form : Form
  lat  : Nat
  ty   : Ty
  d    : Reg
  val  : Ctx → Nat → Nat
  tag  : Ctx → Nat → Bool
  fl   : Ctx → Flags

/-- The number of levels of the tree: one leaf for each half or each thread. -/
def treeLevels (ty : Ty) : Nat := if ty.width = 32 then 6 else 5

inductive Reduce : Instr → ReduceSpec → Prop
  | lred d a op rm ty st : Reduce (.lred d a op rm ty st)
      { form := laneForm true st [a] d, lat := 12, ty := ty, d := d
        val := fun c _ => redDeliver op ty (treeNode (redCombine op ty (c.rnd rm)) (redLeaf c (ty.width == 32) a) (treeLevels ty) 0).1
        tag := fun c _ => (c.lanes (ty.width == 32)).any (laneElemG c (ty.width == 32) a)
        fl := fun c => (treeNode (redCombine op ty (c.rnd rm)) (redLeaf c (ty.width == 32) a) (treeLevels ty) 0).2 }
  | lscan d a op excl rm ty st : Reduce (.lscan d a op excl rm ty st)
      { form := laneForm true st [a] d, lat := 14, ty := ty, d := d
        val := fun c j => redDeliver op ty (treePrefix (redCombine op ty (c.rnd rm)) (redLeaf c (ty.width == 32) a)
          (if excl then j else j + 1) 7 0 (none, flagNone)).1
        tag := fun c j => (c.lanes (ty.width == 32)).any
          (fun i => decide (i < (if excl then j else j + 1)) && laneElemG c (ty.width == 32) a i)
        fl := fun c => (c.lanes (ty.width == 32)).foldl (fun fl j => fl ||| (treePrefix (redCombine op ty (c.rnd rm))
          (redLeaf c (ty.width == 32) a) (if excl then j else j + 1) 7 0 (none, flagNone)).2) flagNone }

/-- Every active lane receives its value and tag; a floating-point form raises its flags in every active thread. -/
def CompletesReduce : Prop :=
  ∀ i x, Reduce i x → ∀ s c, Issues s c x.form → Healthy c →
    Retires i s c x.form (Delivers s c x.form x.lat (if x.ty.isFloat then flagList c.ts (fun _ => x.fl c) else []) x.ty.isFloat
      (if x.ty.width = 32 then
        (regsOf c.br).put32 c x.d (fun t e => BitVec.ofNat 32 (x.val c (2 * t + e))) (fun t e => x.tag c (2 * t + e))
       else (regsOf c.br).put64 c x.d (fun t => BitVec.ofNat 64 (x.val c t)) (x.tag c)))

/-! ### Exact arithmetic: what the model's roundings are compared with (R68–R70, R78, R81, R84, R129, R130) -/

/-- The number that an encoding of a format stands for, read off its sign, exponent and fraction (R68, R69). -/
noncomputable def Fmt.num (f : Fmt) (x : Nat) : ℝ :=
  let ex := x / 2 ^ f.fbits % 2 ^ f.ebits
  let m : Nat := x % 2 ^ f.fbits + (if ex = 0 then 0 else 2 ^ f.fbits)
  (if x / 2 ^ (f.fbits + f.ebits) % 2 = 1 then -1 else 1) * (m : ℝ) * (2 : ℝ) ^ (f.qmin + ((ex - 1 : Nat) : Int))

/-- An encoding of a finite number, and one with its sign bit set. -/
abbrev Fmt.finite (f : Fmt) (x : Nat) : Prop := x % 2 ^ (f.fbits + f.ebits) ≤ f.maxBits
abbrev Fmt.neg (f : Fmt) (x : Nat) : Prop := x / 2 ^ (f.fbits + f.ebits) % 2 = 1

/-- The number of an exact value; an infinity and a NaN have none. -/
noncomputable def FVal.num : FVal → ℝ
  | .fin n m e => (if n then -1 else 1) * (m : ℝ) * (2 : ℝ) ^ e
  | _ => 0

def Rounding.draws : Rounding → Bool
  | .stoch _ => true
  | .det _ => false

/-- k is the magnitude that a mode picks for the magnitude a of a number of sign `neg`, among the finite ones and the one above the
largest, which stands for an overflow (R78, R81). -/
noncomputable def Fmt.picks (f : Fmt) (rd : Rounding) (neg : Bool) (a : ℝ) (k : Nat) : Prop :=
  let low (k : Nat) := k ≤ f.maxBits ∧ f.num k ≤ a ∧ ∀ j, j ≤ f.maxBits → f.num j ≤ a → j ≤ k
  let high := k ≤ f.maxBits + 1 ∧ (a ≤ f.num k ∨ k = f.maxBits + 1) ∧ ∀ j, j ≤ f.maxBits → a ≤ f.num j → k ≤ j
  let near (tie : Nat → Prop) := k ≤ f.maxBits + 1 ∧ ∀ j, j ≤ f.maxBits + 1 → j ≠ k →
    |a - f.num k| < |a - f.num j| ∨ |a - f.num k| = |a - f.num j| ∧ tie j
  match rd with
  | .det .rtz => low k
  | .det .rup => if neg then low k else high
  | .det .rdn => if neg then high else low k
  | .det .rna => near (fun j => j < k)
  | .det _ => near (fun _ => k % 2 = 0)
  | .stoch r => ∃ j, low j ∧ ((f.num (f.maxBits + 1) ≤ a ∨ 65536 ≤ ⌊(a - f.num j) / (f.num (j + 1) - f.num j) * 65536⌋ + (r : Int)) → k = j + 1) ∧
      (¬(f.num (f.maxBits + 1) ≤ a ∨ 65536 ≤ ⌊(a - f.num j) / (f.num (j + 1) - f.num j) * 65536⌋ + (r : Int)) → k = j)

/-- A magnitude is tiny after it has been rounded as if exponents had no lower bound: below the least normal number (R70, R81). -/
noncomputable def Fmt.tiny (f : Fmt) (rd : Rounding) (neg : Bool) (a : ℝ) : Prop :=
  let b : ℝ := (2 : ℝ) ^ (f.qmin + (f.fbits : Int))
  let u : ℝ := (2 : ℝ) ^ (f.qmin - 1)
  let away := a ≤ b - u
  match rd with
  | .det .rtz => a < b
  | .det .rup => if neg then a < b else away
  | .det .rdn => if neg then away else a < b
  | .det _ => a < b - u / 2
  | .stoch r => a < b ∧ ¬(b - u ≤ a ∧ 65536 ≤ ⌊(a - (b - u)) / u * 65536⌋ + (r : Int))

/-- r holds the encoding of the number v rounded once to the format, and its flags: overflow beyond the largest finite number,
inexact where the delivered result differs from v, underflow where it is both tiny and inexact. -/
noncomputable def Fmt.rounded (f : Fmt) (rd : Rounding) (v : ℝ) (r : Nat × Flags) : Prop :=
  ∃ k, f.picks rd (decide (v < 0)) |v| k ∧
    let big := k = f.maxBits + 1 ∨ f.num (f.maxBits + 1) ≤ |v|
    let inexact := big ∨ f.num r.1 ≠ v
    r.1 % 2 ^ (f.fbits + f.ebits) =
      (if k ≤ f.maxBits then k else if f.hasInf && !rd.draws then f.maxBits + 1 else f.maxBits) ∧
    r.1 < 2 ^ f.width ∧ (v ≠ 0 → (f.neg r.1 ↔ v < 0)) ∧
    r.2.getLsbD 0 = false ∧ r.2.getLsbD 1 = false ∧ (r.2.getLsbD 2 = true ↔ big) ∧ (r.2.getLsbD 4 = true ↔ inexact) ∧
    (r.2.getLsbD 3 = true ↔ inexact ∧ f.tiny rd (decide (v < 0)) |v|)

/-- k is the integer that a mode rounds v to (R78, R81, R84). -/
noncomputable def roundsInt (rd : Rounding) (v : ℝ) (k : Int) : Prop :=
  match rd with
  | .det .rtz => k = if 0 ≤ v then ⌊v⌋ else ⌈v⌉
  | .det .rup => k = ⌈v⌉
  | .det .rdn => k = ⌊v⌋
  | .det .rna => |v - k| < 1 / 2 ∨ |v - k| = 1 / 2 ∧ |v| < |(k : ℝ)|
  | .det _ => |v - k| < 1 / 2 ∨ |v - k| = 1 / 2 ∧ k % 2 = 0
  | .stoch r => k = (if v < 0 then -1 else 1) * (⌊|v|⌋ + if 65536 ≤ ⌊Int.fract |v| * 65536⌋ + (r : Int) then 1 else 0)

/-- How many operands an operation of R129 reads. -/
def Fop.arity : Fop → Nat
  | .add | .sub | .mul | .div | .min | .max => 2
  | .fma | .fms | .nma => 3
  | _ => 1

/-- v is the exact result of one of the ten algebraic operations of R129 on numbers x, y and z, where it has one (R130). -/
noncomputable def Fop.isExact : Fop → ℝ → ℝ → ℝ → ℝ → Prop
  | .add, x, y, _, v => v = x + y
  | .sub, x, y, _, v => v = x - y
  | .mul, x, y, _, v => v = x * y
  | .fma, x, y, z, v => v = x * y + z
  | .fms, x, y, z, v => v = x * y - z
  | .nma, x, y, z, v => v = z - x * y
  | .div, x, y, _, v => y ≠ 0 ∧ v = x / y
  | .sqrt, x, _, _, v => 0 ≤ x ∧ v = Real.sqrt x
  | .rcp, x, _, _, v => x ≠ 0 ∧ v = 1 / x
  | .rsq, x, _, _, v => 0 < x ∧ v = 1 / Real.sqrt x
  | _, _, _, _, _ => False

/-- The sign of an exact zero (R78, R87, R129): that of both addends where they have one, else +0 but for rounding down; that of the
quotient or product; that of the operand. -/
def Fop.zeroNeg (o : Fop) (down sx sy sz : Bool) : Bool :=
  let sum (a b : Bool) : Bool := if a == b then a else down
  match o with
  | .add => sum sx sy
  | .sub => sum sx (!sy)
  | .fma => sum (sx != sy) sz
  | .fms => sum (sx != sy) (!sz)
  | .nma => sum (sx == sy) sz
  | .mul | .div => sx != sy
  | _ => sx

/-! ### Control and objects -/

/-- Instruction i sets the program counters (e), retires as form f, and is a switch point when `back` holds (R148). -/
def RetiresBranch (i : Instr) (s : State) (c : Ctx) (f : Form) (back : Bool) (e : State → Prop) : Prop :=
  ∃ s', e s' ∧ exec i s = .next (if back then switchTurn (retireJump s' c f) c else retireJump s' c f)

/-- s' is s with uniform register d of the issuing brick written at once; s0 discards (R100, R101). -/
def Gives (s : State) (c : Ctx) (d : Reg) (v : W64) (g : Bool) (s' : State) : Prop :=
  ∃ u : Brick → Tab UReg, s' = modBrick s c.b (fun br => { br with uni := u br }) ∧
    ∀ (br : Brick) p, Brick.uniR { br with uni := u br } p =
      if p = physReg c.k d.toNat ∧ p ≠ 0 then ⟨v, c.gov || g⟩ else br.uniR p

/-- Brick b of s is br, as the rest of a statement sees it. -/
abbrev HasBrick (s : State) (b : Nat) (br : Brick) : Prop := tabGet? s.bricks b = some br

/-- A synchronising operation of a deterministic launch parks until time T, the brick's clock padded to it unless a handler
issued it (R299). -/
def ParksSync (i : Instr) (s : State) (c : Ctx) (f : Form) (s1 : State) (w : WaitOp) : Prop :=
  Parks i s c f w (some (syncTime s1 c))
    (fun s' => s' = if c.inHandler then s1 else modBrick s1 c.b (fun br => { br with L := syncTime s1 c }))

/-- A form of a deterministic launch is buffered until its course's end and retires (R259, R282). -/
def Buffers (i : Instr) (s : State) (c : Ctx) (f : Form) (kind : FlightKind) : Prop :=
  Retires i s c f (Flies s c f none (some (courseEndOf (qOf s c.br) c.br.L)) none kind)

/-! ### The matrix engine (R207–R227) -/

/-- Logical bank k of the brick is physical bank p, which reads as bk once the instructions accepted before have run, is not
poisoned, and in a deterministic launch belongs to the brick (R217). -/
abbrev BankReady (s : State) (c : Ctx) (k : BitVec 4) (p : Nat) (bk : Bank) : Prop :=
  physBank s c.br k.toNat = some p ∧ bankAhead s c.br.core p = bk ∧ bk.psn = false ∧ (c.br.det = true → bk.own = some c.b)

/-- s' is s with one more instruction at the end of the core's array queue, its destinations interlocked (R212). -/
def Queued (s : State) (c : Ctx) (p : Nat) (k : BitVec 4) (names : List RName) (tEnd : Option Nat) (op : ArrOp) (s' : State) : Prop :=
  s' = modBrick (modCore s c.br.core (fun x => { x with
    queue := x.queue ++ [{ brick := c.b, seq := c.br.seq, split := c.k, pc := c.sp.pc, gov := c.gov, ten := tenOf c
                           mask := c.sp.mask, bank := p, lbank := k.toNat, names := names.map (physName c.k), tEnd := tEnd
                           op := op }] })) c.b (fun br => { br with
      ilock := br.ilock ++ names.map (physName c.k)
      readouts := if op.readsOut then br.readouts ++ [c.br.seq] else br.readouts })

/-- The instruction has entered the queue and retires. -/
def Enqueues (i : Instr) (s : State) (c : Ctx) (f : Form) (s1 : State) (p : Nat) (k : BitVec 4) (names : List RName) (op : ArrOp) : Prop :=
  Retires i s c f (fun s' => ∃ s2, Queued s1 c p k names none op s2 ∧ s' = modBrick s2 c.b (fun br => { br with seq := br.seq + 1 }))

/-- The product forms: whether they form checksums, take distances, meet partners; bank, operand word, first register of B. -/
inductive ProductForm : Instr → Bool → Bool → Bool → BitVec 4 → Reg → Reg → BitVec 3 → Prop
  | mmaC k a b st : ProductForm (.mmaC k a b st) false false false k a b st
  | mmaQ k a b st : ProductForm (.mmaQ k a b st) false false true k a b st
  | mmas k a b st : ProductForm (.mmas k a b st) true false false k a b st
  | dist k a b st : ProductForm (.dist k a b st) false true false k a b st

/-! ### What the array does with an instruction (R213, R221–R227) -/

/-- How long an instruction occupies the array, without a retry. -/
def ArrOp.cycles : ArrOp → Nat
  | .accz => 16
  | .mma _ dist _ _ _ _ _ _ _ _ _ _ _ _ => if dist then 64 else 32
  | .topk _ _ _ => 32
  | .accrd _ _ _ _ _ _ dd _ _ _ _ => if dd then 8 else 4
  | .accwb _ _ _ _ _ _ ty => 128 * (ty.width / 8)
  | .accadj _ _ _ _ _ => 2
  | .accchk _ _ _ => 16

/-- bk' is bk with an instruction's terms placed as R91 places them (AccumulationIsExact says when that is exact); N stands where a
term is special, and an entry of `green` is green. -/
def PlacesTerms (bk bk' : Bank) (w : Nat) (terms : Nat → Nat → List FVal) (green : Nat → Nat → Bool) : Prop :=
  let pl := placeProducts bk w (fun k => termsOf (terms (k / 128) (k % 128)))
  bk'.A = pl.A ∧ bk'.lb = pl.lb ∧ bk'.tb = pl.tb ∧ bk'.anchored = pl.anchored ∧ bk'.revent = pl.revent ∧ bk'.psn = bk.psn ∧ bk'.own = bk.own ∧
  ∀ i n, i < 64 → n < 128 → (bk'.at i n).f = (pl.at i n).f ∧ (bk'.at i n).v = (pl.at i n).v ∧
    (bk'.at i n).n = ((bk.at i n).n || (terms i n).any isSpecial) ∧ (bk'.at i n).g = ((pl.at i n).g || green i n)

/-- The values of a row and of a column of a bank. -/
def Bank.rowVals (bk : Bank) (i : Nat) : List FVal := (List.range 128).map (fun n => entryVal bk.A (bk.at i n))
def Bank.colVals (bk : Bank) (n : Nat) : List FVal := (List.range 64).map (fun i => entryVal bk.A (bk.at i n))

/-- l holds the indices of the j entries of a row that come first in the order of R224. -/
def Chosen (bk : Bank) (big : Bool) (i j : Nat) (l : List Nat) : Prop :=
  let before (a b : Nat) := topkBefore big bk.A (a, bk.at i a) (b, bk.at i b) = true
  l.length = j ∧ l.Nodup ∧ (∀ a ∈ l, a < 128) ∧ l.Pairwise before ∧ ∀ a ∈ l, ∀ b, b < 128 → b ∉ l → before a b

/-- The registers of r' are those of r, but for the halves of the lane registers `lanes` and the uniform registers `unis`. -/
def Regs.onlyChanged (r r' : Regs) (lanes unis : List Nat) : Prop :=
  (∀ p t e, p ∉ lanes → t < 32 → e < 2 → r'.half p t e = r.half p t e) ∧ (∀ p, p ∉ unis → r'.uni p = r.uni p) ∧
  ∀ m i, i < 64 → r'.msk m i = r.msk m i

/-- What an entry e of the array's queue does to its bank (bk to bk'), to the registers of its brick (r to r') and to memory; a product
form with sound metadata of its own type and no fault armed. -/
def ArrayEffect (s t : State) (e : ArrEntry) (br : Brick) (bk bk' : Bank) (r r' : Regs) : Prop :=
  let reg (v : Nat) := physReg e.split v
  match e.op with
  | .accz => SameMemory s t ∧ r.onlyChanged r' [] [] ∧ (∀ i n, i < 64 → n < 128 → bk'.at i n = { AccEntry.zero with g := e.gov }) ∧
      (e.gov = false → bk' = { Bank.zero with own := bk.own })
  | .mma checks dist _ ty col al aG am amG b bG bm bmG none =>
    (∀ m ∈ am ++ bm, metaFails m = false ∧ metaWrong ty m = false) →
      let rows := tileRows ty col al am
      let cols := bColumns ty b bm
      let terms (i n : Nat) := ((rows.getD i []).zip (cols.getD n [])).flatMap (fun p => if dist
        then [(mulExact p.1 p.1).1, negTwice (mulExact p.1 p.2).1, (mulExact p.2 p.2).1] else [(mulExact p.1 p.2).1])
      SameMemory s t ∧ r.onlyChanged r' [] [] ∧
      PlacesTerms bk bk' (productWidth ty) terms (fun i n => e.gov || ty.width ≤ 8 || amG.any id || bmG.any id || tileRowG ty col aG i ||
        (bG.getD n []).any id) ∧
      (checks = false → bk'.ckv = false) ∧
      (checks = true → bk'.ckv = bk.ckv ∧
        (∀ i, i < 64 → tabGetD bk'.rs i 0 = addChecksum (tabGetD bk.rs i 0) ((List.range 128).flatMap (fun n => terms i n))) ∧
        (∀ n, n < 128 → tabGetD bk'.cs n 0 = addChecksum (tabGetD bk.cs n 0) ((List.range 64).flatMap (fun i => terms i n))))
  | .mma _ _ _ _ _ _ _ _ _ _ _ _ _ _ => True
  | .topk vd j big => SameMemory s t ∧ bk' = bk ∧ r.onlyChanged r' [reg vd] [] ∧ ∀ i, i < 64 → ∃ l, Chosen bk big i j l ∧
      r'.half (reg vd) (i / 2) (i % 2) =
        ⟨BitVec.ofNat 32 (leNat (l.map (BitVec.ofNat 8))), e.gov || (List.range 128).any (fun n => (bk.at i n).g), false, false⟩
  | .accrd vd sc bd sG clp tr dd rm ty row col =>
    let en (x : Nat) := if tr then bk.at (row + x) col else bk.at row (col + x)
    let one (x : Nat) := readOut ((fmtOf ty).getD fmtF32) rm clp (entryVal bk.A (en x)) (fUnpack fmtF32 sc.toNat) (fUnpack fmtF32 bd.toNat)
    let green (x : Nat) := e.gov || cvtTag ty .f64 (one x).2 ((en x).g || sG)
    let pair (x : Nat) := readDd (entryVal bk.A (en x))
    SameMemory s t ∧ bk' = bk ∧ ((dd = true → ty = .f64) → r.onlyChanged r' (if dd then [reg vd, reg (vd + 1)] else [reg vd]) []) ∧
      (dd = false → ty ≠ .f64 → ∀ x, x < 64 → r'.half (reg vd) (x / 2) (x % 2) = ⟨BitVec.ofNat 32 (one x).1, green x, false, false⟩) ∧
      (dd = false → ty = .f64 → ∀ x h, x < 32 → h < 2 →
        r'.half (reg vd) x h = ⟨halfOf (BitVec.ofNat 64 (one x).1) h, green x, false, false⟩) ∧
      (dd = true → ty = .f64 → ∀ x h, x < 32 → h < 2 →
        r'.half (reg vd) x h = ⟨halfOf (BitVec.ofNat 64 (pair x).1) h, e.gov || (en x).g, false, false⟩ ∧
        r'.half (reg (vd + 1)) x h = ⟨halfOf (BitVec.ofNat 64 (pair x).2.1) h, e.gov || (en x).g, false, false⟩)
  | .accwb base sc bd sG clp rm ty =>
    let sz := ty.width / 8
    let one (k : Nat) := readOut ((fmtOf ty).getD fmtF32) rm clp (entryVal bk.A (bk.at (k / 128) (k % 128))) (fUnpack fmtF32 sc.toNat)
      (fUnpack fmtF32 bd.toNat)
    let green (k : Nat) := cvtTag ty .f64 (one k).2 ((bk.at (k / 128) (k % 128)).g || sG)
    bk' = bk ∧ r.onlyChanged r' [] [] ∧ t.mem = s.mem ∧ t.mmeta = s.mmeta ∧
      (e.tEnd ≠ none → SameMemory s t) ∧
      (e.tEnd = none → base % 64 = 0 → (wallOf s br).all (fun w => w.lbase % 64 == 0) = true → (fmtOf ty).isSome = true → (∃ f ∈ br.flights, f.seq = e.seq ∧ f.kind = .accwb ∧ f.done = false) →
        (∀ k, k < 8192 → leNat (readBytes t (localLoc s br (base + sz * k)) sz) = (one k).1) ∧
        (∀ j, j < 128 * sz → lineG t (localLoc s br (base + 64 * j)).line =
          (e.gov || sG || (List.range (64 / sz)).any (fun i => green (64 / sz * j + i)))) ∧
        (∀ l, (∀ i, i < 8192 * sz → placeOf l ≠ placeOf (localLoc s br (base + i))) → byteAt t l = byteAt s l))
  | .accadj row col dbl v g =>
    let x := if dbl then fUnpack fmtF64 v.toNat else fUnpack fmtF32 (v.toNat % 2 ^ 32)
    let here (i n : Nat) := i == row && n == col
    SameMemory s t ∧ r.onlyChanged r' [] [] ∧ (row < 64 → col < 128 →
      PlacesTerms bk bk' (if dbl then 53 else 24) (fun i n => if here i n then [x] else []) (fun i n => here i n && (e.gov || g)) ∧
      bk'.rs = bk.rs ∧ bk'.cs = bk.cs ∧ bk'.ckv = bk.ckv)
  | .accchk sd vd tol =>
    let cap := fUnpack fmtF32 tol.toNat
    let rs (i : Nat) := fUnpack fmtF32 (tabGetD bk.rs i 0).toNat
    let cs (n : Nat) := fUnpack fmtF32 (tabGetD bk.cs n 0).toNat
    let any := e.gov || bk.e.any (fun x => x.2.g)
    SameMemory s t ∧ bk' = bk ∧ (0 < sd → sd ≤ 61 → vd ≤ 61 →
      r.onlyChanged r' [reg vd, reg (vd + 1), reg (vd + 2)] [reg sd, reg (sd + 1), reg (sd + 2)] ∧
      (∀ i, i < 64 → (r'.uni (reg sd)).v.getLsbD i = mismatch cap (exactSum (bk.rowVals i)) (rs i) ∧
        r'.half (reg vd) (i / 2) (i % 2) = ⟨checkDiff (exactSum (bk.rowVals i)) (rs i),
          e.gov || (List.range 128).any (fun n => (bk.at i n).g), false, false⟩) ∧
      (∀ n, n < 128 → (r'.uni (reg (sd + 1 + n / 64))).v.getLsbD (n % 64) = mismatch cap (exactSum (bk.colVals n)) (cs n) ∧
        r'.half (reg (vd + 1 + n / 64)) (n % 64 / 2) (n % 2) = ⟨checkDiff (exactSum (bk.colVals n)) (cs n),
          e.gov || (List.range 64).any (fun i => (bk.at i n).g), false, false⟩) ∧
      ∀ i, i < 3 → (r'.uni (reg (sd + i))).g = any)

/-- A product form whose sums will come out wrong (R366). -/
def ArrOp.faulted : ArrOp → Bool
  | .mma _ _ _ _ _ _ _ _ _ _ _ _ _ fault => fault.isSome
  | _ => false

/-- The metadata words of a product form. -/
def ArrOp.metas : ArrOp → Option Ty × List (BitVec 128)
  | .mma _ _ _ ty _ _ _ am _ _ _ bm _ _ => (some ty, am ++ bm)
  | _ => (none, [])

/-- The brick of an entry takes a cause at the entry's form, where it is live and takes no other trap. -/
def Takes (e : ArrEntry) (br br' : Brick) (cause : BitVec 9) : Prop :=
  br.killed = false → br.threads ≠ 0#32 → br.trap = none → br.inSlot = false → ∃ r, br'.trap = some r ∧ r.cause = cause ∧ r.addr = e.pc ∧
    r.ret = if cause = 0x140#9 then e.pc + 4 else e.pc

/-- The array runs an entry: what becomes of the bank, of the brick's registers and of memory, how long it takes, and its causes. -/
def RunsEntry (s : State) (core : Nat) (e : ArrEntry) : Prop :=
  ∀ br, HasBrick s e.brick br →
  let bk := bankAt s core e.bank
  let t := runEntry s core e
  let bk' := bankAt t core e.bank
  tabSorted bk.e = true → (∀ x ∈ bk.e, x.1 < 8192) → ∃ br', HasBrick t e.brick br' ∧
    (e.op ≠ .accz → bk.psn = true → bk' = bk ∧ SameMemory s t ∧ Takes e br br' 0x146#9) ∧
    (bk.psn = false ∨ e.op = .accz → ArrayEffect s t e br bk bk' (regsOf br) (regsOf br') ∧
      br'.ilock = e.names.foldl (fun l n => l.erase n) br.ilock ∧
      (e.op.faulted = false → (coreOf t core).busy = s.clk + e.op.cycles)) ∧
    (bk.psn = false → ∀ ty ms, e.op.metas = (some ty, ms) →
      ((∃ m ∈ ms, metaFails m = true) → bk' = { bk with psn := true } ∧ Takes e br br' 0x141#9) ∧
      ((∀ m ∈ ms, metaFails m = false) → (∃ m ∈ ms, metaWrong ty m = true) → bk' = bk ∧ Takes e br br' 0x142#9)) ∧
    (bk.psn = false → e.op.faulted = false → (∀ m ∈ e.op.metas.2, metaFails m = false ∧ metaWrong (e.op.metas.1.getD .f32) m = false) →
      (∃ i n, i < 64 ∧ n < 128 ∧ (bk.at i n).v = false ∧ (bk'.at i n).v = true) → Takes e br br' 0x140#9)

/-- What the array computes with, against exact arithmetic: a read-out is the entry's value times the scale, clipped, rounded once; a
pair is the value rounded, then its rest; sums of finite values are exact and a checksum rounds once; ACCCHK compares exactly. -/
def ArrayArithmetic : Prop :=
  (∀ ty f, fmtOf ty = some f → ∀ (rm : Rm) n m e n' m' e' c,
    let v := FVal.fin n m e
    let sc := FVal.fin n' m' e'
    f.rounded (.det rm) (v.num * sc.num) (readOut f rm false v sc c) ∧
    (∀ nc mc ec, c = .fin nc mc ec → isNeg c = false →
      f.rounded (.det rm) (max (-c.num) (min c.num (v.num * sc.num))) (readOut f rm true v sc c))) ∧
  (∀ n m e, let v := FVal.fin n m e
    let r := readDd v
    ∃ fl fl', fmtF64.rounded (.det .rne) v.num (r.1, fl) ∧
      (fmtF64.finite r.1 → fmtF64.rounded (.det .rne) (v.num - fmtF64.num r.1) (r.2.1, fl') ∧ r.2.2 = fl ||| fl') ∧
      (¬fmtF64.finite r.1 → r.2.1 = 0 ∧ r.2.2 = fl)) ∧
  (∀ l : List FVal, (∀ x ∈ l, isSpecial x = false) → isSpecial (exactSum l) = false ∧ (exactSum l).num = (l.map FVal.num).sum ∧
    ∀ old : W32, fmtF32.finite old.toNat →
      ∃ fl, fmtF32.rounded (.det .rne) (fmtF32.num old.toNat + (l.map FVal.num).sum) ((addChecksum old l).toNat, fl)) ∧
  (∀ cap e r, isSpecial e = false → isSpecial r = false → isSpecial cap = false → isNeg cap = false →
    (mismatch cap e r = true ↔ cap.num < |e.num - r.num|) ∧ ∃ fl, fmtF32.rounded (.det .rne) (e.num - r.num) ((checkDiff e r).toNat, fl)) ∧
  (∀ cap e r, isSpecial e = true ∨ isSpecial r = true → mismatch cap e r = true)

/-! ### System registers (R105, R106, R310, R359, R373, R389, R396) -/

/-- What a system register holds, by its number, field by field. -/
inductive SysReg (s : State) (c : Ctx) : BitVec 7 → W64 → Prop
  | mode : SysReg s c 0x00#7 (BitVec.ofNat 64 ((if c.br.det then 2 ^ 10 else 0) + (if c.br.prv then 2 ^ 9 else 0) + 16 * c.br.ten.toNat +
      (if c.br.sbc || c.br.det then 2 ^ 3 else 0) + c.br.rm.code.toNat))
  | brick : SysReg s c 0x01#7 (BitVec.ofNat 64 (c.br.id % 2 ^ 32))
  | wall w (h : tabGet? s.walls c.br.wall = some w) : SysReg s c 0x02#7 (BitVec.ofNat 64 w.wid)
  | core : SysReg s c 0x03#7 (BitVec.ofNat 64 c.br.core)
  | part : SysReg s c 0x04#7 (BitVec.ofNat 64 (2 ^ 4 * c.br.part + c.br.slot))
  | launch l (h : launchOf s c.br = some l) : SysReg s c 0x05#7 (BitVec.ofNat 64 (l.lid % 2 ^ 32))
  | course : SysReg s c 0x06#7 (BitVec.ofNat 64 c.br.L)
  | lane v (h : ∀ i, i < 64 → v.getLsbD i = c.act (i / 2)) : SysReg s c 0x07#7 v
  | role : SysReg s c 0x08#7 (BitVec.ofNat 64 (2 ^ 8 * (8 * c.br.granNow) + c.br.role))
  | tapeSegNone (h : c.br.tape.segs = []) : SysReg s c 0x09#7 0
  | tapeSeg l g (h : c.br.tape.segs = l ++ [g]) : SysReg s c 0x09#7 (BitVec.ofNat 64 g.base)
  | tapeLen : SysReg s c 0x0A#7 c.br.tapeLen
  | tapeSt : SysReg s c 0x0B#7 (BitVec.ofNat 64 (2 ^ 32 * (c.br.tape.lines % 2 ^ 32) + 2 ^ 26 * (c.br.tape.need % 2 ^ 6) +
      2 ^ 11 * c.br.tape.segs.length + (if c.br.tape.br then 2 ^ 5 else 0) + c.br.tape.state))
  | asidTab : SysReg s c 0x0E#7 s.asidTab
  | mwinNone l (h : launchOf s c.br = some l) (h' : l.mwin = 0) : SysReg s c 0x0F#7 0
  | mwin l pre post (h : launchOf s c.br = some l) (h' : l.mwin ≠ 0) (hd : l.dies = pre ++ dieOfCore c.br.core :: post)
      (hp : dieOfCore c.br.core ∉ pre) : SysReg s c 0x0F#7 (BitVec.ofNat 64 (l.mbase + pre.length * l.mwin * 2 ^ 21))
  | trapInfo : SysReg s c 0x10#7 c.br.info
  | trapAddr : SysReg s c 0x11#7 c.br.addr
  | trapMask : SysReg s c 0x12#7 c.br.tmask
  | trapAux0 : SysReg s c 0x13#7 c.br.aux0
  | trapAux1 : SysReg s c 0x14#7 c.br.aux1
  | trapVec : SysReg s c 0x15#7 c.br.vec
  | trapRet : SysReg s c 0x16#7 c.br.ret
  | inject : SysReg s c 0x17#7 c.br.inject
  | injAddr : SysReg s c 0x18#7 c.br.injAddr
  | fabId : SysReg s c 0x1A#7 (BitVec.ofNat 64 (2 ^ 33 * s.module.toNat + (if keyValid s then 2 ^ 32 else 0) +
      2 ^ 16 * s.keyPart.toNat + s.key.toNat))
  | version : SysReg s c 0x20#7 (BitVec.ofNat 64 (2 ^ 16 * 0x2400 + 2 ^ 8 * Config.stepping.toNat + Config.firmware.toNat))
  | hkctl : SysReg s c 0x21#7 (BitVec.ofNat 64 (2 * s.plim + (if s.reqSig then 1 else 0)))
  | power : SysReg s c 0x22#7 (BitVec.ofNat 64 (2 ^ 40 * ((dieState s (dieOfCore c.br.core)).tj % 2 ^ 8) + 2 ^ 36 * (s.pstep % 2 ^ 4) +
      (if (tabGetD s.quads (quadOfCore c.br.core) ⟨false⟩).sag then 2 ^ 35 else 0) + s.watt % 2 ^ 12))
  | attest : SysReg s c 0x24#7 0
  | defects : SysReg s c 0x23#7 (BitVec.ofNat 64 (defSig (dieOfCore c.br.core)))

/-- Numbers that no register has. -/
def Unassigned (y : BitVec 7) : Prop := 0x1B#7 ≤ y ∧ y ≤ 0x1F#7 ∨ 0x25#7 ≤ y

end Sys2Proof.Machine
end

