-- ==== Sys2Proof/Certificates/Slice0/Obligations.lean ====
section
/-!
DEFINITION. The statements for the provers. What they are stated in terms of stands in Safety.lean.
-/
open Sys2Proof Sys2Proof.Machine

/-- Decoding what the encoder wrote gives the instruction back, for every instruction with an encoding. -/
def Obligations.DecodeEncodeRoundTrip : Prop :=
  ∀ i w, wellFormed i = true → encode i = some w →
    decodeWords w.first (w.second.getD 0#32) = .instr i ∧ w.second.isSome = isTwoWord w.first

/-- No decoded word has a bit that the decoder ignores. -/
def Obligations.EncodeDecodeExact : Prop :=
  ∀ w p i, decodeWords w p = .instr i →
    wellFormed i = true ∧ encode i = some ⟨w, if isTwoWord w then some p else none⟩

/-- Words of the manual's examples (chapter 5, tables under R113, R115 and R117). -/
def Obligations.WordsFromTheTables : Prop :=
  decodeWords 0x1A040FF8#32 0#32 = .instr (.moviI64 1#6 0x1FF#9 0#3) ∧
  decodeWords 0x00450438#32 0#32 = .instr (.iadd 5#6 1#6 3#6 true 0#3) ∧
  decodeWords 0x01870438#32 0#32 = .instr (.iaddc 7#6 1#6 3#6 true 0#3) ∧
  decodeWords 0x78030400#32 0x000C020B#32 = .instr (.bfx 3#6 1#6 8#6 11#6 .n64 0#3) ∧
  decodeWords 0x84C70838#32 0#32 = .instr (.scmpLt 7#6 2#6 3#6 true 0#3)

/-- The word that a split fetches is what memory holds at its address. That a refused fetch takes the cause of R372, which lists no
fetch, is the model's choice (log 121). -/
def Obligations.FetchReadsTheWord : Prop :=
  ∀ s c two va s' pa, brickTranslate s c kExec va = (s', .ok pa) → locDown s' (.phys pa) = false →
    (∀ x, outCheck s' (.phys pa) = some x → fetchWord s c two va = (s', .error (.cause x two (BitVec.ofNat 64 va) 0))) ∧
    (outCheck s' (.phys pa) = none → (metaAt s' (.phys (pa / 64 * 64))).err = [] →
      ((metaAt s' (.phys (pa / 64 * 64))).psn = true →
        ∃ t a0 a1, fetchWord s c two va = (t, .error (.cause 0x146#9 two a0 a1)) ∧ t.mem = s'.mem ∧ t.bricks = s'.bricks) ∧
      ((metaAt s' (.phys (pa / 64 * 64))).psn = false →
        (∀ l, launchOf s' c.br = some l → ∀ i, i < 4 → tabGet? l.patch (2 ^ 57 * dieOfCore c.br.core + (va + i)) = none) →
        ∃ t, fetchWord s c two va = (t, .ok (byteAt s' (.phys (pa + 3)) ++ (byteAt s' (.phys (pa + 2)) ++
            (byteAt s' (.phys (pa + 1)) ++ byteAt s' (.phys pa))))) ∧ t.mem = s'.mem ∧ t.bricks = s'.bricks))

/-- The step of an issue is exec of the decoded instruction. -/
def Obligations.StepRunsTheDecodedInstruction : Prop :=
  ∀ s b k c w p i, nextMove s = .issue b k → focusOf (focusOn s b k) = some c → c.br.window = none →
    (fetchAt (focusOn s b k) c c.sp.pc).2 = .words w p → decodeWords w p = .instr i →
    step s = exec i (fetchAt (focusOn s b k) c c.sp.pc).1

/-- A word that names no instruction traps. -/
def Obligations.UnassignedWordsTrap : Prop :=
  (∀ s b k c w p cause two, nextMove s = .issue b k → focusOf (focusOn s b k) = some c → c.br.window = none →
    (fetchAt (focusOn s b k) c c.sp.pc).2 = .words w p → decodeWords w p = .bad cause two →
    (cause = 0x001#9 ∨ cause = 0x002#9) ∧
    step s = exec (.unassignedEncoding cause two) (fetchAt (focusOn s b k) c c.sp.pc).1) ∧
  (∀ s c cause two, focusOf s = some c → flagHold c = false →
    ∃ f, f.two = two ∧
      Traps (.unassignedEncoding cause two) s c f (trapOf c (if c.sp.tapeFault then 0x144#9 else cause)))

/-- The reset state, and what it does first. The spec gives LASID and WSTAT their reset values. That memory reads 0 and its lines
are whole, that the queues are empty and that SY_ASIDTAB is 0 are the model's choices: log 4, 5 and 6. -/
def Obligations.ResetState : Prop :=
  State.reset.bricks = [] ∧ State.reset.walls = [] ∧ State.reset.launches = [] ∧ State.reset.copies = [] ∧
  State.reset.colls = [] ∧ State.reset.mem = [] ∧ State.reset.lmem = [] ∧ State.reset.asidTab = 0 ∧
  State.reset.lasid = 0 ∧ State.reset.acc = 0 ∧ State.reset.lost = false ∧ State.reset.bad = false ∧
  State.reset.inputs = [] ∧ Memory.wf State.reset = true ∧ nextMove State.reset = .event .powerOnBoot

/-- The canonical form of memory is an invariant of the step. -/
def Obligations.StepKeepsMemoryCanonical : Prop :=
  ∀ s s', Memory.wf s = true → step s = .next s' → Memory.wf s' = true

/-- One byte of memory: a read after a write, and its frame. -/
def Obligations.ReadAfterWrite : Prop :=
  ∀ s l x, byteAt (putByte s l x) l = x ∧ (∀ l', placeOf l' ≠ placeOf l → byteAt (putByte s l x) l' = byteAt s l') ∧
    ∀ l', metaAt (putByte s l x) l' = metaAt s l'

/-- The frame and the result of a store, by places: of the stores to one place the last one wins. -/
def Obligations.StoreWritesItsBytesOnly : Prop :=
  (∀ s b puts gov l, (∀ p ∈ puts, ∀ i, i < p.bytes.length → placeOf (p.acc.loc.add i) ≠ placeOf l) →
    byteAt (performStore s b puts gov) l = byteAt s l) ∧
  (∀ s b (before : List Put) (p : Put) (after : List Put) gov i, i < p.bytes.length →
    (∀ q ∈ before ++ p :: after, q.acc.loc.inLine + q.bytes.length ≤ 64 ∧ ∀ core off, q.acc.loc = .loc core off → off < 2 ^ 20) →
    (∀ q ∈ after, ∀ j, j < q.bytes.length → placeOf (q.acc.loc.add j) ≠ placeOf (p.acc.loc.add i)) →
    outCheck s p.acc.loc = none → (metaAt s p.acc.loc.line).err = [] → (metaAt s p.acc.loc.line).psn = false →
    byteAt (performStore s b (before ++ p :: after) gov) (p.acc.loc.add i) = p.bytes.getD i 0)

/-! ### Arithmetic: every form completes with its result -/

/-- The lane integer forms complete with the results of the tables LaneInt and LaneImm. -/
def Obligations.LaneIntegerResults : Prop := Completes LaneInt ∧ Completes LaneImm

/-- The uniform integer forms complete with the results of the table UniInt. -/
def Obligations.UniformIntegerResults : Prop := Completes UniInt

/-- The moves complete with the results of the table LaneMove. The model's choices: the bits behind a copied U bit are 0, and the half
reads the marker of the register that it was copied to (log 9 and 10); MOV with w = 1 gives both halves the OR of the tags (log 12). -/
def Obligations.LaneMoves : Prop := Completes LaneMove

/-- The forms that write masks or tags, and those that read a mask, complete with the results of their tables. That TAGRD reports the
stored tag of an unwritten half is the model's choice (log 110). -/
def Obligations.MaskForms : Prop := Completes ToMask ∧ Completes MaskToUni

/-- The floating-point forms complete with the results of the table LaneFp; and what its operations compute on finite operands is the
exact result, rounded once. -/
def Obligations.FloatingPointResults : Prop :=
  CompletesFp LaneFp ∧
  ∀ f, f = fmtF32 ∨ f = fmtF64 → ∀ (m : Rm) x y z,
    (∀ o v, (∀ w ∈ [x, y, z].take o.arity, f.finite w) → o.isExact (f.num x) (f.num y) (f.num z) v →
      let r := fop f (.det m) o x y z
      f.rounded (.det m) v r ∧
      (v = 0 → (f.neg r.1 ↔ o.zeroNeg (m == .rdn) (decide (f.neg x)) (decide (f.neg y)) (decide (f.neg z)) = true))) ∧
    (f.finite x → f.finite y →
      (∃ r, fop f (.det m) .min x y z = (r, flagNone) ∧ (r = x ∨ r = y) ∧ f.num r = min (f.num x) (f.num y) ∧
        (f.num x = f.num y → (f.neg r ↔ f.neg x ∨ f.neg y))) ∧
      (∃ r, fop f (.det m) .max x y z = (r, flagNone) ∧ (r = x ∨ r = y) ∧ f.num r = max (f.num x) (f.num y) ∧
        (f.num x = f.num y → (f.neg r ↔ f.neg x ∧ f.neg y))) ∧
      (∀ cc, ∃ b, fcond cc (fUnpack f x) (fUnpack f y) = (b, flagNone) ∧ (b = true ↔ match cc with
        | .eq => f.num x = f.num y
        | .ne => f.num x ≠ f.num y
        | .lt => f.num x < f.num y
        | .le => f.num x ≤ f.num y
        | .un => False))) ∧
    (f.finite x → (∀ n : Int, f.rounded (.det m) (f.num x * 2 ^ n) (fScale f (.det m) (fUnpack f x) n)) ∧
      ∃ k : Int, roundsInt (.det m) (f.num x) k ∧ f.num (fRnd f (.det m) (fUnpack f x)).1 = k ∧
        (fRnd f (.det m) (fUnpack f x)).2 = if (k : ℝ) = f.num x then flagNone else flagInexact)

/-- The converting forms complete with the results of the table Conv; and a converted element is the exact value, rounded once. That
PACKHB of an FP64 source draws for lane 2t is the model's choice (log 18). -/
def Obligations.ConversionResults : Prop :=
  CompletesConv Conv ∧
  ∀ rd n m e, (∀ r, rd = .stoch r → r < 65536) →
    let v := (FVal.fin n m e).num
    let exact (k : Int) (w : ℝ) : Flags := if (k : ℝ) = w then flagNone else flagInexact
    (∀ ty f, fmtOf ty = some f → f.rounded rd v (cvtElem ty rd (.fin n m e)) ∧ (m = 0 → (f.neg (cvtElem ty rd (.fin n m e)).1 ↔ n = true))) ∧
    (∀ ty (lo hi : Int), (ty = .i32 ∧ lo = -2 ^ 31 ∧ hi = 2 ^ 31 - 1) ∨ (ty = .i64 ∧ lo = -2 ^ 63 ∧ hi = 2 ^ 63 - 1) ∨
        (ty = .n32 ∧ lo = 0 ∧ hi = 2 ^ 32 - 1) ∨ (ty = .n64 ∧ lo = 0 ∧ hi = 2 ^ 64 - 1) →
      ∃ k, roundsInt rd v k ∧ cvtElem ty rd (.fin n m e) = ((max lo (min hi k) % 2 ^ ty.width).toNat,
        if lo ≤ k ∧ k ≤ hi then exact k v else flagInvalid)) ∧
    (∀ ty mw given pair, (ty = .hb8 ∧ mw = 6) ∨ (ty = .hb4 ∧ mw = 2) → ¬(pair % 256 = 255 ∧ pair / 256 % 256 = 255) →
      let x0 : Nat := pair % 256
      let x1 : Nat := pair / 256 % 256
      let top : Nat := 2 ^ mw - 1
      let x : Nat := if min x0 x1 ≠ 255 ∧ |v| ≤ top * (2 : ℝ) ^ ((min x0 x1 : Int) - 127) then min x0 x1 else max x0 x1
      let sel : Nat := if x = x0 then 0 else 2 ^ (mw + 1)
      let r := packElem ty pair given rd (.fin n m e)
      (x = 255 → r = (sel, flagNone)) ∧
      (x ≠ 255 → ∃ k, roundsInt rd (v * (2 : ℝ) ^ (127 - (x : Int))) k ∧
        r.1 = sel + (if n then 2 ^ mw else 0) + min top k.natAbs ∧
        r.2 = if k.natAbs ≤ top then exact k (v * (2 : ℝ) ^ (127 - (x : Int))) else flagOverflow ||| flagInexact)) ∧
    (∀ ty given pair, ty = .q8 ∨ ty = .q4 ∨ ty = .q2 → pair % 256 ≠ 255 →
      let w := v * (2 : ℝ) ^ (127 - ((pair % 256 : Nat) : Int))
      let top : Int := 2 ^ ty.width - 1
      ∃ k, roundsInt rd w k ∧ let code : Int := ((pair / 256 % 256 : Nat) : Int) + k
        packElem ty pair given rd (.fin n m e) = ((max 0 (min top code)).toNat,
          if 0 ≤ code ∧ code ≤ top then exact k w else flagOverflow ||| flagInexact))

/-- The reductions complete with the results of the table Reduce; and each node combines two elements exactly, rounding a
floating-point sum once. -/
def Obligations.ReductionResults : Prop :=
  CompletesReduce ∧
  (∀ ty f, (ty = .f32 ∧ f = fmtF32) ∨ (ty = .f64 ∧ f = fmtF64) → ∀ (m : Rm) x y, f.finite x → f.finite y →
    (let r := redCombine .add ty (.det m) x y
     f.rounded (.det m) (f.num x + f.num y) r ∧ (f.num x + f.num y = 0 → (f.neg r.1 ↔ f.neg x ∧ f.neg y))) ∧
    redCombine .min ty (.det m) x y = fop f (.det m) .min x y 0 ∧ redCombine .max ty (.det m) x y = fop f (.det m) .max x y 0) ∧
  (∀ ty w, w = ty.width → ty = .i32 ∨ ty = .i64 ∨ ty = .n32 ∨ ty = .n64 ∨ ty = .b32 ∨ ty = .b64 → ∀ op rd x y, x < 2 ^ w → y < 2 ^ w →
    ∃ r, redCombine op ty rd x y = (r, flagNone) ∧ r < 2 ^ w ∧ match op with
      | .add => r = (x + y) % 2 ^ w
      | .min => if ty = .i32 ∨ ty = .i64 then asSigned w r = min (asSigned w x) (asSigned w y) else r = min x y
      | .max => if ty = .i32 ∨ ty = .i64 then asSigned w r = max (asSigned w x) (asSigned w y) else r = max x y
      | .and => ∀ i, r.testBit i = (x.testBit i && y.testBit i)
      | .or => ∀ i, r.testBit i = (x.testBit i || y.testBit i)
      | .xor => ∀ i, r.testBit i = (x.testBit i != y.testBit i))

/-! ### Cure and the flags registers -/

/-- CURE, by the pass of each active thread, and what a pass computes; FXRD, FXCLR and CURE.RST. -/
def Obligations.CureAndFlagForms : Prop :=
  (∀ f (m : Rm) p0 p1 p cst x r g, policyOf p0 p1 = some p →
    let q := curePass f (.det m) p cst x r g
    let tol := fmtF64.num p0.toNat
    let cf := fmtF32.num (p1.toNat % 2 ^ 32)
    let last := fmtF64.num cst.last.toNat
    let finite := isSpecial x = false ∧ isSpecial r = false ∧ isSpecial g = false
    let stuck := cst.v = true ∧ (finite → fmtF64.finite cst.last.toNat ∧ cf * |last| < |r.num|)
    (q.pass = true ↔ finite ∧ |r.num| ≤ (if x.num = 0 then tol else tol * |x.num|)) ∧
    (finite → f = fmtF32 ∨ f = fmtF64 → f.rounded (.det m) (x.num - r.num * g.num) (q.bits, q.fl) ∧
      ∃ fl, fmtF64.rounded (.det .rne) |r.num| (q.cst.last.toNat, fl)) ∧
    (¬ finite → q.bits = f.nanBits ∧ q.fl = flagInvalid ∧ q.cst.last = 0x7FF0000000000000#64) ∧
    q.cst.v = true ∧ q.cst.pass = (if q.pass then cst.pass else min 131071 (cst.pass + 1)) ∧
    (q.pass = false → stuck → q.cst.fail = min 255 (cst.fail + 1)) ∧ (q.pass = true ∨ ¬ stuck → q.cst.fail = 0) ∧
    q.fail = decide (p1.toNat / 2 ^ 32 % 256 < q.cst.fail) ∧
    (q.trip = true ↔ q.pass = false ∧ (p1.toNat / 2 ^ 32 % 256 < q.cst.fail ∨ p1.toNat / 2 ^ 40 % 65536 < q.cst.pass))) ∧
  (∀ d a b g rm ty hi sp st s c, let i := Instr.cure d a b g rm ty hi sp st
    let e := if hi then 1 else 0
    let rs := if ty == .f64 then [b, nxt b] else [b]
    let f : Form := { laneForm true st (a :: rs ++ [g]) d with
      unis := [sp.toNat, (nxt sp).toNat], rd := (a :: rs ++ [g]).map nLane ++ [nUni sp, nUni (nxt sp)]
      chk := (a.toNat, ty == .f64 || !hi, ty == .f64 || hi) :: (rs ++ [g]).map chkBoth }
    Issues s c f →
    (policyOf (c.u sp) (c.u (nxt sp)) = none → Traps i s c f (trapOf c 0x083#9)) ∧
    ∀ p, policyOf (c.u sp) (c.u (nxt sp)) = some p →
      let r := cureThread c a b g rm ty e p
      ∃ m, (∀ t, tabGetD m t Cst.start = if t ∈ c.ts then (r t).cst else c.br.cstOf t) ∧
        let s1 := modBrick s c.b (fun br => { br with cst := m })
        (∀ t n, (c.ts.filter (fun t => (r t).trip)).head? = some t → (c.ts.filter (fun t => (r t).trip)).length = n →
          TrapsWith i s c f s1 (trapThread (if (r t).fail then 0x080#9 else 0x081#9) t n 0)) ∧
        ((∀ t ∈ c.ts, (r t).trip = false) → Healthy c →
          Retires i s c f (Delivers s1 c f (if ty == .f64 then 16 else 12) (flagList c.ts (fun t => (r t).fl)) true
            (if ty == .f64 then (regsOf c.br).put64 c d (fun t => BitVec.ofNat 64 (r t).bits) (fun t => !(r t).pass)
             else (regsOf c.br).putChosen c d (fun x => x == e)
               (fun t _ => c.newHalf (BitVec.ofNat 32 (r t).bits) (!(r t).pass)))))) ∧
  (∀ d st s c, Issues s c (laneForm false st [] d) → fxPendingFor s c = false → c.br.dpFault = none →
    Retires (.fxrd d st) s c (laneForm false st [] d) (Delivers s c (laneForm false st [] d) 2 [] false
      ((regsOf c.br).put64 c d (fun t => (c.br.fxOf t).setWidth 64) (fun _ => false)))) ∧
  (∀ k st s c, Issues s c (bareForm false true st .vec) → fxPendingFor s c = false →
    Retires (.fxclr k st) s c (bareForm false true st .vec) (fun s' => ∃ m, s' = modBrick s c.b (fun br => { br with fx := m }) ∧
      ∀ t, tabGetD m t flagNone = if t ∈ c.ts then c.br.fxOf t &&& ~~~k else c.br.fxOf t)) ∧
  (∀ st s c, Issues s c (bareForm false true st .vec) →
    Retires (.cureRst st) s c (bareForm false true st .vec) (fun s' => ∃ m, s' = modBrick s c.b (fun br => { br with cst := m }) ∧
      ∀ t, tabGetD m t Cst.start = if t ∈ c.ts then Cst.start else c.br.cstOf t)) ∧
  (∀ st s c, Issues s c (bareForm false true st .vec) →
    ∃ t br sp, exec (.cureRst st) s = .next t ∧ HasBrick t c.b br ∧ tabGet? br.splits c.k = some sp ∧ sp.pc = c.sp.pc + 4) ∧
  (∀ d st s c, Issues s c (laneForm false st [] d) → fxPendingFor s c = false →
    ∃ t br sp, exec (.fxrd d st) s = .next t ∧ HasBrick t c.b br ∧ tabGet? br.splits c.k = some sp ∧ sp.pc = c.sp.pc + 4) ∧
  (∀ k st s c, Issues s c (bareForm false true st .vec) → fxPendingFor s c = false →
    ∃ t br sp, exec (.fxclr k st) s = .next t ∧ HasBrick t c.b br ∧ tabGet? br.splits c.k = some sp ∧ sp.pc = c.sp.pc + 4) ∧
  (∀ d a b g rm ty hi x st s c p,
    let rs := if ty == .f64 then [b, nxt b] else [b]
    let f : Form := { laneForm true st (a :: rs ++ [g]) d with
      unis := [x.toNat, (nxt x).toNat], rd := (a :: rs ++ [g]).map nLane ++ [nUni x, nUni (nxt x)]
      chk := (a.toNat, ty == .f64 || !hi, ty == .f64 || hi) :: (rs ++ [g]).map chkBoth }
    Issues s c f → policyOf (c.u x) (c.u (nxt x)) = some p →
    (∀ t ∈ c.ts, (cureThread c a b g rm ty (if hi then 1 else 0) p t).trip = false) →
    ∃ t br sp, exec (.cure d a b g rm ty hi x st) s = .next t ∧ HasBrick t c.b br ∧ tabGet? br.splits c.k = some sp ∧
      sp.pc = c.sp.pc + 8)

/-! ### Memory: loads, stores, atomics, the facilities of the mortar banks -/

/-- The checks of local and of global addresses. -/
def Obligations.AddressChecks : Prop :=
  (∀ s c addr g n bad, let off := fun t => (addr t).toNat % 2 ^ 20
    let fails := fun t => bad t = true ∨ off t + n > localSize s c.br
    ((∀ t ∈ c.ts, ¬ fails t) →
      localAccs s c addr g n bad = .ok s (c.ts.map (fun t => ⟨t, localLoc s c.br (off t), (addr t).toNat, n, g t⟩))) ∧
    ∀ t, t ∈ c.ts → fails t → (∀ t' ∈ c.ts, t' < t → ¬ fails t') →
      localAccs s c addr g n bad = .trap s (trapThread (if bad t then 0x0C1#9 else 0x0C6#9) t
        ((c.ts.filter (fun t' => if bad t then bad t' else !bad t' && decide (off t' + n > localSize s c.br))).length)
        (addr t))) ∧
  (∀ s c kind avail va n bad t aG,
    (2 ^ 57 ≤ va → globalThread s c kind avail va n bad t aG = (s, .cause 0x0C6#9 va)) ∧
    (va < 2 ^ 57 → bad = true → globalThread s c kind avail va n bad t aG = (s, .cause 0x0C1#9 va)) ∧
    (va < 2 ^ 57 → bad = false → ∀ s',
      (brickTranslate s c kind va = (s', .absent) → globalThread s c kind avail va n bad t aG = (s', .fault va)) ∧
      (∀ x, brickTranslate s c kind va = (s', .cause x) → globalThread s c kind avail va n bad t aG = (s', .cause x va)) ∧
      (∀ pa, brickTranslate s c kind va = (s', .ok pa) → globalThread s c kind avail va n bad t aG =
        (s', if avail (homeOf pa) then .ok ⟨t, .phys pa, va, n, aG⟩ else .cause 0x0C7#9 va))))

/-- What a translation can do. -/
def Obligations.TranslationOutcomes : Prop :=
  ∀ s cache die asid prv kind va s' r, translate s cache die asid prv kind va = (s', r) →
    Walked s s' ∧
    (∀ pa, r = .ok pa → paExists s' pa = true ∧ ∃ root s1 e p, rootOf s asid = (s1, some root) ∧
      walkFrom s1 cache die asid va walkLevels root = (s', .leaf e p) ∧ pa = ownPa s' p ∧ leafAllows e kind prv = true) ∧
    (∀ root s1 e p, rootOf s asid = (s1, some root) → walkFrom s1 cache die asid va walkLevels root = (s', .leaf e p) →
      paExists s' (ownPa s' p) = true → leafAllows e kind prv = false → r = .cause 0x0C2#9) ∧
    (∀ root s1, rootOf s asid = (s1, some root) → walkFrom s1 cache die asid va walkLevels root = (s', .revoked) → r = .cause 0x0C5#9) ∧
    (∀ root s1, rootOf s asid = (s1, some root) → walkFrom s1 cache die asid va walkLevels root = (s', .absent) → r = .absent)

/-- The loads of the table Load complete. -/
def Obligations.LoadsComplete : Prop := CompletesLoad Load

/-- The data and tags of a load, as the register files read afterwards. -/
def Obligations.LoadDeliversMemory : Prop :=
  ∀ s br a gov, a.t < 32 → let v := leNat (readBytes s a.loc a.n)
    let g := gov || a.aG || lineG s a.loc
    (∀ p, LandsAs br (loadWrite s (.lane64 p) gov a) ((regsOf br).withHalf (fun q t e =>
      if q = p ∧ t = a.t then ⟨BitVec.ofNat 32 (v / 2 ^ (32 * e)), g, false, false⟩ else br.half q t e))) ∧
    (∀ p, LandsAs br (loadWrite s (.lane32 p) gov a) ((regsOf br).withHalf (fun q t e =>
      if q = p ∧ t = a.t then (if e = 0 then ⟨BitVec.ofNat 32 v, g, false, false⟩ else ⟨0, g, false, false⟩) else br.half q t e))) ∧
    (∀ p, LandsAs br (loadWrite s (.uni p) gov a)
      { regsOf br with uni := fun q => if q = p ∧ q ≠ 0 then ⟨BitVec.ofNat 64 v, g⟩ else br.uniR q }) ∧
    (∀ m, LandsAs br (loadWrite s (.lineG m) gov a) ((regsOf br).withMsk (fun q i =>
      if q = m ∧ i / 2 = a.t then (lineG s a.loc, gov || a.aG) else (regsOf br).msk q i)))

/-- The stores of the table Store complete. -/
def Obligations.StoresComplete : Prop := CompletesStore Store

/-- ATOM and RED. The model's choices: a deterministic ATOM counts on fc1 with its mark from its issue (log 29); a BF16 atomic takes
four bytes (log 89). -/
def Obligations.AtomicsComplete : Prop :=
  (∀ dst x sb v op ty rm sc sp st s c s1 accs,
    let data := if op == .cas then [v, nxt v] else [v]
    let i : Instr := match dst with
      | some d => .atom d x sb v op ty rm sc sp st
      | none => .red x sb v op ty rm sc sp st
    let f0 := memForm true st dst x sb false true
    let f := { f0 with lanes := f0.lanes ++ data.map BitVec.toNat, rd := f0.rd ++ data.map nLane, chk := f0.chk ++ data.map (atomChk ty) }
    let addr := c.addr x sb sc 0
    let mode := if rm == .dyn then c.br.rm else rm
    Issues s c f → globHold s c (if dst.isSome then 1 else 2) = false →
    globalAccs s c kRw (fun h => h != .host) addr (c.addrG x sb) (atomBytes ty) (misaligned addr (atomBytes ty)) = .ok s1 accs →
    let reqs := atomReqs c v op (atomBytes ty) accs
    let s2 := modBrick s1 c.b (fun br => { br with cumRel := false })
    match dst with
    | none => RetiresTurn i s c f (Flies s2 c f (some 2) (if c.br.det then some (courseEndOf (qOf s2 c.br) c.br.L) else none) none
        (.atom reqs op ty mode none c.gov))
    | some d =>
      if c.br.det then
        Parks i s c f (.atom c.br.seq reqs op ty mode (physReg c.k d.toNat) c.gov) (some (syncTime s2 c))
          (fun s' => ∃ s3, Flies s2 c f (some 1) none (some (.lane (physReg c.k d.toNat))) .syncAtom s3 ∧
            s' = if c.inHandler then s3 else modBrick s3 c.b (fun br => { br with L := syncTime s2 c }))
      else RetiresTurn i s c f (Flies s2 c f (some 1) none (some (.lane (physReg c.k d.toNat)))
        (.atom reqs op ty mode (some (physReg c.k d.toNat)) c.gov))) ∧
  (∀ s b r op ty rd p gov, r.acc.n ≤ 8 → r.acc.loc.inLine % 64 + r.acc.n ≤ 64 →
    (metaAt s r.acc.loc.line).err = [] → outCheck s r.acc.loc = none →
    let old := leNat (readBytes s r.acc.loc r.acc.n)
    let res := performAtom1 s b r op ty rd (some p) gov
    let new := atomNew op ty rd old (r.v.toNat % 2 ^ (8 * r.acc.n)) (r.v2.toNat % 2 ^ (8 * r.acc.n))
    if (metaAt s r.acc.loc.line).psn then
      SameMemory s res.1 ∧ res.2.writes = [] ∧ ∃ t, res.2.late = some t ∧ t.cause = 0x146#9 ∧ t.thread = r.acc.t
    else
      res.2.late = none ∧ res.2.fx = (if new.2 = flagNone then [] else [(r.acc.t, new.2)]) ∧
      (∀ i, i < r.acc.n → byteAt res.1 (r.acc.loc.add i) = BitVec.ofNat 8 (new.1 / 256 ^ i)) ∧
      (∀ l, (∀ i, i < r.acc.n → placeOf (r.acc.loc.add i) ≠ placeOf l) → byteAt res.1 l = byteAt s l) ∧
      res.2.writes = (let g := gov || r.acc.aG || lineG s r.acc.loc
        if r.acc.n = 8 then wLane64 p r.acc.t (BitVec.ofNat 64 old) g
        else [wHalf p r.acc.t 0 (BitVec.ofNat 32 old) g, wHalf p r.acc.t 1 0 g])) ∧
  (∀ s b r op ty rd dst gov x, outCheck s r.acc.loc = some x →
    performAtom1 s b r op ty rd dst gov = (s, ⟨[], [], some ⟨x, r.acc.t, 1, BitVec.ofNat 64 r.acc.va, 0⟩⟩))

/-- The versioned forms of the tables VersionedLoad, AonStore and PairedStore. That a deterministic LDTV under an even head reads
its lines at issue, behind the brick's own writes, is the model's choice (log 24). -/
def Obligations.VersionedFormsComplete : Prop :=
  (∀ i d x, VersionedLoad i d x → ∀ s c s1 accs s2 pa va h, Issues s c x.form → loadHold s c 1 = false →
    x.accs s c = .ok s1 accs → accs ≠ [] → Governs c kRead s1 ((x.addr c (c.ts.headD 0)).toNat / 4096 * 4096) s2 pa va h →
    let p := physReg c.k d.toNat
    (c.br.det = false ∨ h.ver % 2 = 1 →
      Retires i s c x.form (Flies s2 c x.form (some 1) none (some (.lane p)) (.ldtv pa va accs p c.gov 0))) ∧
    (c.br.det = true → h.ver % 2 = 0 → (∀ a ∈ accs, locDown s2 a.loc = false) →
      let view := ownView s2 c.b c.br
      Retires i s c x.form (fun s' => ∃ s3 kind, Walked s2 s3 ∧
        (Clean view accs → Admitted view accs → kind = .regs (accs.flatMap (loadWrite view (.lane64 p) c.gov)) none) ∧
        Flies s3 c x.form (some 1) none (some (.lane p)) kind s'))) ∧
  (∀ i d x, AonStore i d x → ∀ s c s1 accs s2 pa h, Issues s c x.form → globHold s c 2 = false → x.accs s c = .ok s1 accs →
    accs ≠ [] →
    let va := (x.addr c (c.ts.headD 0)).toNat / 4096 * 4096
    headAddr s1 c kRw va = .ok s2 pa h → h.good = true → h.lnk = false →
    Retires i s c x.form (Flies s2 c x.form (some 2) (if c.br.det then some (courseEndOf (qOf s2 c.br) c.br.L) else none) none
      (.aon pa va none (lanePuts d 8 c accs) [] c.gov 0 0))) ∧
  (∀ i d x, PairedStore i d x → ∀ s c s1 accs s2 pa h s3 twin h', Issues s c x.form → globHold s c 2 = false →
    x.accs s c = .ok s1 accs → accs ≠ [] →
    let va := (x.addr c (c.ts.headD 0)).toNat / 4096 * 4096
    headAddr s1 c kRw va = .ok s2 pa h → h.good = true → h.twn = true →
    headAddr s2 c kRw h.peer = .ok s3 twin h' → h'.good = true → h'.lnk = true → h'.peer = va →
    Retires i s c x.form (Flies s3 c x.form (some 2) (if c.br.det then some (courseEndOf (qOf s3 c.br) c.br.L) else none) none
      (.aon pa va (some (twin, h.peer)) (lanePuts d 8 c accs) (twinPuts twin h.peer va (lanePuts d 8 c accs)) c.gov 0 0)))

/-- The forms of the table CellForm; TCOM and RETR at a cell; what the end of a brick and pre-emption do to its pending cells (R247).
The model's choices: an exit waits for its arrivals (log entry 35) and, in a deterministic launch, takes effect at its commit (133). -/
def Obligations.TentativeFormsComplete : Prop :=
  (∀ i x, CellForm i x → ∀ s c, Issues s c x.form →
    (c.br.det = true → Traps i s c x.form (trapOf c 0x103#9)) ∧
    ∀ s1 accs, c.br.det = false → fcFull c.br 1 = false →
      globalAccs s c kRw (fun h => h == .own) (x.addr c) (x.aG c) 8 (misaligned (x.addr c) 8) = .ok s1 accs →
      Retires i s c x.form (Flies s1 c x.form (some 1) none (some (.msk x.mask.toNat)) (x.kind c accs))) ∧
  (∀ s b m gov undo t pa va n aG, let a : Acc := ⟨t, .phys pa, va, n, aG⟩
    let r := performCell1 s b m gov undo a
    let bits := fun (fail : Bool) => r.2.writes = [cellBits m t fail gov aG] ∧ r.2.late = none ∧ r.2.fx = []
    let freed := fun (s1 s' : State) => s' = { s1 with pairs := s'.pairs, mem := s'.mem } ∧
      tabGet? s'.pairs (pa / 8) = none ∧ ∀ k, k ≠ pa / 8 → tabGet? s'.pairs k = tabGet? s.pairs k
    let chk := checkLine s (Loc.phys (pa / 8 * 8)).line
    (∀ slot, tabGet? s.pairs (pa / 8) = some slot → slot.writer = b →
      (undo = false ∨ slot.observed = true → freed s r.1 ∧ r.1.mem = s.mem ∧ bits undo) ∧
      (undo = true → slot.observed = false → freed chk.1 r.1 ∧ bits false ∧ (∀ l, lineG r.1 l = lineG s l) ∧
        (chk.2 = true → r.1.mem = s.mem) ∧
        (chk.2 = false → leNat (readBytes r.1 (.phys (pa / 8 * 8)) 8) = slot.old.toNat ∧
          ∀ l, (∀ i, i < 8 → l ≠ .phys (pa / 8 * 8 + i)) → byteAt r.1 l = byteAt s l))) ∧
    ((tabGet? s.pairs (pa / 8) = none ∨ ∃ slot, tabGet? s.pairs (pa / 8) = some slot ∧ slot.writer ≠ b) →
      r.1 = s ∧ bits true)) ∧
  (let kept := fun (s s' : State) => s'.mem = s.mem ∧ s'.mmeta = s.mmeta ∧ s'.pairs = s.pairs
   let frees := fun (s s' : State) b => s'.mem = s.mem ∧ s'.mmeta = s.mmeta ∧
     ∀ k slot, (k, slot) ∈ s'.pairs ↔ (k, slot) ∈ s.pairs ∧ slot.writer ≠ b
   let ends := fun (s : State) b killed T => ∃ br fl, HasBrick s b br ∧ fl ∈ br.flights ∧ fl.kind = .gone killed ∧ fl.tEnd = some T
   (∀ st s c, let f := bareForm false false st .vec
     Issues s c f → c.br.threads &&& ~~~c.sp.mask = 0 →
     (c.br.det = false → c.br.arrMarks = [] → RetiresJump (.exit st) s c f (fun s' => frees s s' c.b)) ∧
     (c.br.det = false → c.br.arrMarks ≠ [] → Parks (.exit st) s c f .exit none (fun s' => s' = s)) ∧
     (c.br.det = true → RetiresJump (.exit st) s c f (fun s' => kept s s' ∧ ends s' c.b false (courseEndOf (qOf s c.br) c.br.L)))) ∧
   (∀ s b k br sp w, HasBrick s b br → tabGet? br.splits k = some sp → sp.wait = some w → w.op = .exit → w.sync = none →
     (tabGet? s.walls br.wall).any (·.saved) = false → br.frozen k = false → br.det = false → br.arrMarks = [] →
     ∃ t, runMove s (.wake b k) = .next t ∧ frees s t b) ∧
   (∀ s b br cause strct, tabGet? s.bricks b = some br → br.alive = true →
     let t := killBrick s b cause strct
     (br.det = false → frees s t b) ∧ (br.det = true → kept s t ∧ ends t b true (courseEndOf (qOf s br) br.L))) ∧
   (∀ s b br f killed, HasBrick s b br → f.kind = .gone killed → br.flights.any Flight.waitsPhase = false → frees s (commitFlight s b br f) b) ∧
   (∀ s b br f killed bs n, HasBrick s b br → nextWaiting s bs = none → nextGone s bs = some (b, f, killed) →
     ∃ t, frees s t b ∧ countAll s bs (n + 1) = countAll t bs n)) ∧
  (∀ s die t, exec (.preempt die) s = .next t → ∀ k slot, tabGet? s.pairs k = some slot →
    ∃ o, tabGet? t.pairs k = some { slot with observed := o })

/-! ### Branches, splits and the control forms -/

/-- The control forms that keep the split whole. That CALL and RET retire without a turn whatever their target is the model's choice
(log 16), as are SPLITQ's split number 0 in a handler (log 130) and the cause of a JMPI whose target's word cannot be read (log 124). -/
def Obligations.ControlFormsComplete : Prop :=
  ∀ st s c, let f := bareForm false false st .vec
    let pc := c.sp.pc
    (∀ i, i = .nop st ∨ i = .land st → Issues s c f → Retires i s c f (fun s' => s' = s)) ∧
    (Issues s c f → RetiresTurn (.yield st) s c f (fun s' => s' = s)) ∧
    (∀ x sb sc, Issues s c (memForm false st none x sb false false) →
      Retires (.pref x sb sc st) s c (memForm false st none x sb false false) (fun s' => s' = s)) ∧
    (∀ x sb sc disp, Issues s c (memForm true st none x sb false false) →
      Retires (.prefDisp x sb sc disp st) s c (memForm true st none x sb false false) (fun s' => s' = s)) ∧
    (∀ off, Issues s c f → RetiresBranch (.bra off st) s c f (decide (targetOf pc off < pc))
      (fun s' => s' = modSplit s c.b c.k (fun sp => { sp with pc := targetOf pc off }))) ∧
    (∀ z (a : BitVec 5) off, let r : Reg := a.setWidth 6
      let f := { bareForm false false st .vec with unis := [r.toNat], rd := [nUni r] }
      let taken := if z then c.u r == 0 else c.u r != 0
      Issues s c f → RetiresBranch (.brc z a off st) s c f (taken && decide (targetOf pc off < pc))
        (fun s' => s' = modSplit s c.b c.k (fun sp => { governTop sp (c.uG r) with pc := if taken then targetOf pc off else pc + 4 }))) ∧
    (∀ off, Issues s c f →
      (c.sp.stack.length < 16 → RetiresJump (.call off st) s c f (fun s' => s' = modSplit s c.b c.k (fun sp =>
        { sp with pc := targetOf pc off, stack := .ret (pc + 4) false :: sp.stack }))) ∧
      (16 ≤ c.sp.stack.length → Traps (.call off st) s c f (trapOf c 0x008#9))) ∧
    (Issues s c f →
      (∀ ra g l, c.sp.stack = .ret ra g :: l → RetiresJump (.ret st) s c f (fun s' => s' = modSplit s c.b c.k (fun sp =>
        { sp with pc := ra, stack := l }))) ∧
      ((∀ ra g l, c.sp.stack ≠ .ret ra g :: l) → Traps (.ret st) s c f (trapOf c 0x009#9))) ∧
    (∀ a : Reg, let f := { bareForm false false st .vec with unis := [a.toNat], rd := [nUni a] }
      Issues s c f → ∀ s1, (landing s c (c.u a) = (s1, .ok) →
        RetiresBranch (.jmpiUniform a st) s c f (decide ((c.u a).toNat < pc)) (fun s' => s' = modSplit s1 c.b c.k (fun sp =>
          { governTop sp (c.uG a) with pc := (c.u a).toNat }))) ∧
        (landing s c (c.u a) = (s1, .bad) → TrapsWith (.jmpiUniform a st) s c f s1 (badTarget c.sp.mask)) ∧
        (∀ x, landing s c (c.u a) = (s1, .cause x) → TrapsWith (.jmpiUniform a st) s c f s1 (trapAux c x (c.u a))) ∧
        (landing s c (c.u a) = (s1, .fault) → exec (.jmpiUniform a st) s = .next (brickFault s1 c kExec (c.u a).toNat)) ∧
        (landing s c (c.u a) = (s1, .held) → exec (.jmpiUniform a st) s = .next (holdForm s1 c))) ∧
    (∀ d, Issues s c (uniForm false st [] d) → Retires (.splitq d st) s c (uniForm false st [] d)
      (Gives s c d (BitVec.ofNat 64 (c.sp.mask.toNat * 2 ^ 32 + (if c.sp.redisp then 2 ^ 14 else 0) + (if c.gov then 2 ^ 13 else 0) +
        c.sp.stack.length * 2 ^ 8 + (List.range 4).foldl (fun n k => if (tabGet? c.br.splits k).isSome then n + 2 ^ (4 + k) else n) 0 +
        c.k % 4)) false))

/-- The check of an indirect target. The model's choices: it reads memory, not the die's relocated bytes (log 63); a poisoned line gives
0x146, and a home that the switches refuse the cause of the refusal (log 124). -/
def Obligations.LandingPoints : Prop :=
  ∀ s c (v : W64),
    (2 ^ 57 ≤ v.toNat ∨ v.toNat % 4 ≠ 0 → landing s c v = (s, .bad)) ∧
    (v.toNat < 2 ^ 57 → v.toNat % 4 = 0 → ∀ s1,
      (brickTranslate s c kExec v.toNat = (s1, .absent) → landing s c v = (s1, .fault)) ∧
      (∀ x, brickTranslate s c kExec v.toNat = (s1, .cause x) → x ≠ 0x0C9#9 → landing s c v = (s1, .bad)) ∧
      (∀ pa, brickTranslate s c kExec v.toNat = (s1, .ok pa) → locDown s1 (.phys pa) = true → landing s c v = (s1, .held)) ∧
      (∀ pa x, brickTranslate s c kExec v.toNat = (s1, .ok pa) → locDown s1 (.phys pa) = false → outCheck s1 (.phys pa) = some x →
        landing s c v = (s1, .cause x)) ∧
      (∀ pa, brickTranslate s c kExec v.toNat = (s1, .ok pa) → locDown s1 (.phys pa) = false → outCheck s1 (.phys pa) = none →
        (metaAt s1 (Loc.phys pa).line).err = [] → (metaAt s1 (Loc.phys pa).line).psn = true →
        landing s c v = (noteRead s1 (.phys pa) 4, .cause 0x146#9)) ∧
      (∀ pa, brickTranslate s c kExec v.toNat = (s1, .ok pa) → locDown s1 (.phys pa) = false → outCheck s1 (.phys pa) = none →
        (metaAt s1 (Loc.phys pa).line).err = [] → (metaAt s1 (Loc.phys pa).line).psn = false →
        landing s c v = (noteRead s1 (.phys pa) 4, if ∃ k : BitVec 3, decodeWords (BitVec.ofNat 32 (leNat (readBytes s1 (.phys pa) 4))) 0 = .instr (.land k)
          then .ok else .bad)))

/-- BRL, by what the tape asks of it. That a full stack (0x008) comes before the tape's 0x143 and 0x144 is the model's choice (log
15). -/
def Obligations.BranchDivides : Prop :=
  ∀ neg (m : BitVec 3) off st s c, let f := { bareForm false false st .vec with rd := [nMsk m] }
    let i := Instr.brl neg m off st
    let taken := maskOf (c.ts.filter (fun t => (c.m m).v.getLsbD (2 * t) != neg))
    let stay := c.sp.mask &&& ~~~taken
    let green := c.ts.any (fun t => (c.m m).g.getLsbD (2 * t))
    let target := targetOf c.sp.pc off
    let both := taken != 0#32 && stay != 0#32
    Issues s c f →
    (16 ≤ c.sp.stack.length → Traps i s c f (trapOf c 0x008#9)) ∧
    (c.sp.stack.length < 16 →
      let divided (s1 : State) (frame : Option Nat) (p0 p1 : Nat) (rev : Bool) : Prop :=
        let a0 : Arm := ⟨stay, c.sp.pc + 4, p0, false⟩
        let a1 : Arm := ⟨taken, target, p1, false⟩
        let first := if taken = 0#32 then a0 else if stay = 0#32 then a1 else if rev then a1 else a0
        let second := if rev then a0 else a1
        RetiresBranch i s c f (taken != 0#32 && decide (target < c.sp.pc)) (fun s' => ∀ br0, HasBrick s1 c.b br0 →
          ∃ br' sp' gr pm pa path, HasBrick s' c.b br' ∧ tabGet? br'.splits c.k = some sp' ∧
            sp'.pc = first.pc ∧ sp'.mask = first.mask ∧ sp'.path = first.path ∧
            sp'.stack = .dvg c.sp.mask pm pa false none gr green frame path :: c.sp.stack ∧
            (both = false → gr = none ∧ pm = 0#32) ∧
            (both = true → match freeSplits c with
              | n :: _ => gr = some c.br.nextGr ∧ pm = 0#32 ∧ ∃ sp2, tabGet? br'.splits n = some sp2 ∧ sp2.pc = second.pc ∧
                  sp2.mask = second.mask ∧ sp2.path = second.path ∧
                  sp2.stack = .dvg c.sp.mask 0#32 pa false none gr green frame path :: c.sp.stack
              | [] => gr = none ∧ pm = second.mask ∧ pa = second.pc ∧ path = second.path))
      match tapeBranch c taken both green with
      | .plain => divided s none c.sp.path c.sp.path false
      | .record t fr p0 p1 => divided (setTape s c.b t) (some fr) p0 p1 false
      | .replay t fr p0 p1 => divided (setTape s c.b t) (some fr) p0 p1 true
      | .trap cause t => TrapsWith i s c f (setTape s c.b t) (trapOf c cause))

/-- The lane JMPI. The model's choices: 0x008 before the targets are looked up, 0x144 for a pending frame and before 0x005 (log 15); the
cause of a target whose word cannot be read (log 124). -/
def Obligations.LaneJumpDivides : Prop :=
  ∀ (a : Reg) st s c, let f := { bareForm false false st .vec with lanes := [a.toNat], rd := [nLane a], chk := [chkBoth a] }
    let i := Instr.jmpiLane a st
    Issues s c f →
    (c.sp.redisp = false → 16 ≤ c.sp.stack.length → Traps i s c f (trapOf c 0x008#9)) ∧
    (c.sp.redisp = true ∨ c.sp.stack.length < 16 → ∀ s1 l, laneTargets s c a c.ts = (s1, l) →
      (∀ x, l.find? (fun x => x.2.2 == .fault) = some x → exec i s = .next (brickFault s1 c kExec x.2.1)) ∧
      ((∀ x ∈ l, x.2.2 ≠ .fault) →
        ((∃ x ∈ l, x.2.2 = .held) → exec i s = .next (holdForm s1 c)) ∧
        ((∀ x ∈ l, x.2.2 ≠ .held) → ∀ t v y, l.find? (fun x => x.2.2 != .ok && x.2.2 != .bad) = some (t, v, .cause y) →
          TrapsWith i s c f s1 (trapThread y t 1 (BitVec.ofNat 64 v)))) ∧
      ((∀ x ∈ l, x.2.2 = .ok ∨ x.2.2 = .bad) → ∀ arms inv, jumpGroups c l = (arms, inv) →
        let green := c.ts.any (fun t => c.wG a t)
        let free := freeSplits c
        let merged (l : List Arm) (m : BitVec 32) : BitVec 32 := l.foldl (fun m x => m ||| x.mask) m
        let entry gr path (pm : BitVec 32) : Entry := .dvg c.sp.mask pm c.sp.pc true none gr green none path
        let bad := jumpTapeBad c (arms.length + if inv = 0#32 then 0 else 1)
        (bad = true → TrapsWith i s c f s1 (trapOf c 0x144#9)) ∧
        (bad = false → arms = [] → l ≠ [] → TrapsWith i s c f s1 ⟨0x005#9, 0, lowThread inv, (threadsOf inv).length, some inv, 0, 0⟩) ∧
        (bad = false → ∀ first rest, arms = first :: rest →
          let back := (first :: rest).any (fun x => decide (x.pc < c.sp.pc))
          let kept (s' : State) (pm : BitVec 32) (more : Brick → Option Nat → Nat → Prop) : Prop := ∀ br0, HasBrick s1 c.b br0 →
            ∃ br' sp' gr path, HasBrick s' c.b br' ∧ tabGet? br'.splits c.k = some sp' ∧ sp'.pc = first.pc ∧ sp'.mask = first.mask ∧
              sp'.stack = entry gr path pm :: c.sp.stack ∧ more br' gr path
          let others (free : List Nat) (br' : Brick) (gr : Option Nat) (path : Nat) : Prop :=
            ∀ n arm, (n, arm) ∈ free.zip rest → ∃ sp2, tabGet? br'.splits n = some sp2 ∧ sp2.pc = arm.pc ∧ sp2.mask = arm.mask ∧
              sp2.stack = entry gr path 0#32 :: c.sp.stack
          (c.sp.redisp = false → inv = 0#32 →
            RetiresBranch i s c f back (fun s' => kept s' (merged (rest.drop free.length) 0#32) (others free))) ∧
          (c.sp.redisp = false → inv ≠ 0#32 → free = [] → RetiresBranch i s c f back (fun s' => kept s' (merged rest inv) (fun _ _ _ => True))) ∧
          (c.sp.redisp = false → inv ≠ 0#32 → ∀ n ns, free = n :: ns →
            RetiresBranch i s c f back (fun s' => kept s' (merged (rest.drop ns.length) 0#32) (fun br' gr path => others ns br' gr path ∧
              ∃ sp2, tabGet? br'.splits n = some sp2 ∧ sp2.pc = c.sp.pc ∧ sp2.mask = inv ∧ sp2.redisp = true ∧
                sp2.stack = entry gr path 0#32 :: c.sp.stack ∧
                ((∀ br0, HasBrick s1 c.b br0 → br0.trap = none) → ∃ r, br'.trap = some r ∧ r.cause = 0x005#9 ∧ r.prec = true ∧
                  r.split = n ∧ r.mask = inv ∧ r.addr = c.sp.pc ∧ r.thread = lowThread inv ∧ r.count = (threadsOf inv).length)))) ∧
          (c.sp.redisp = true → RetiresBranch i s c f (decide (first.pc < c.sp.pc)) (fun s' => s' = modSplit s1 c.b c.k (fun sp => governTop
            { setTopPm sp (merged rest inv) c.sp.pc with pc := first.pc, mask := first.mask, redisp := false } green))))))

/-- JOIN. That it retires without a turn, also where it goes to a lower address, is the model's choice (log 16). -/
def Obligations.JoinCloses : Prop :=
  ∀ st s c, let f := bareForm false false st .vec
    let pc := c.sp.pc
    Issues s c f →
    ((∀ e pm pa rd ja gr g fr pp l, c.sp.stack ≠ .dvg e pm pa rd ja gr g fr pp :: l) → Traps (.join st) s c f (trapOf c 0x009#9)) ∧
    ∀ e pm pa rd ja gr g fr pp l, c.sp.stack = .dvg e pm pa rd ja gr g fr pp :: l →
      let live := c.br.threads
      let arms := (match fr with
        | some n => armsOpen c.br.tape live n
        | none => false)
      (∀ x, ja = some x → x ≠ pc → Traps (.join st) s c f (trapOf c 0x00A#9)) ∧
      (ja = none ∨ ja = some pc →
        (pm &&& live ≠ 0#32 → RetiresJump (.join st) s c f (fun s' => s' = modSplit s c.b c.k (fun sp =>
          { sp with mask := pm &&& live, pc := pa, redisp := rd, path := pp, stack := .dvg e 0 pa rd (some pc) gr g fr pp :: l }))) ∧
        (pm &&& live = 0#32 → gr = none → arms = true → Traps (.join st) s c f (trapOf c 0x144#9)) ∧
        (pm &&& live = 0#32 → gr = none → arms = false → RetiresJump (.join st) s c f (fun s' => ∃ br' sp',
          HasBrick s' c.b br' ∧ tabGet? br'.splits c.k = some sp' ∧ sp'.mask = e &&& live ∧ sp'.pc = pc + 4 ∧ sp'.stack = l ∧
          (∀ k, k ≠ c.k → tabGet? br'.splits k = tabGet? c.br.splits k))) ∧
        (pm &&& live = 0#32 → ∀ n, gr = some n →
          let parked := c.br.setSplit c.k { c.sp with stack := .dvg e 0 pa rd (some pc) gr g fr pp :: l
                                                      wait := some ⟨.join n, none, pc, false, true⟩ }
          let parked := { parked with groups := tabMod parked.groups n (fun x => { x with order := x.order.filter (· != c.k) ++ [c.k] }) }
          (groupReady parked n = false → RetiresJump (.join st) s c f (fun s' => s' = setBrick s c.b parked)) ∧
          (groupReady parked n = true → 1 < (groupAddrs parked n).length → Traps (.join st) s c f (trapOf c 0x00A#9)) ∧
          (groupReady parked n = true → (groupAddrs parked n).length ≤ 1 → arms = true → Traps (.join st) s c f (trapOf c 0x144#9)) ∧
          (groupReady parked n = true → groupAddrs parked n = [pc] → arms = false →
            ∀ grp o e' pm' pa' rd' ja' gr' g' pp' l', tabGet? parked.groups n = some grp → tabGet? parked.splits grp.owner = some o →
            o.stack = .dvg e' pm' pa' rd' ja' gr' g' fr pp' :: l' →
            RetiresJump (.join st) s c f (fun s' => ∃ br' o', HasBrick s' c.b br' ∧ tabGet? br'.splits grp.owner = some o' ∧
              o'.mask = e' &&& live ∧ o'.wait = none ∧
              ((∀ x ∈ groupMembers parked n, x.1 ≠ grp.owner → ∀ j y, tabGet? parked.groups j = some y → y.owner ≠ x.1) →
                o'.stack = l') ∧ o'.pc = (o.wait.map (·.pc)).getD o.pc + 4 ∧
              ∀ x ∈ groupMembers parked n, x.1 ≠ grp.owner → tabGet? br'.splits x.1 = none))))

/-- EXIT. The model's choices: it waits for the arrivals that the brick has made (log 35), and neither for queued array work nor for
exceptions that are still to come (log 47). -/
def Obligations.ExitEndsThreads : Prop :=
  let ended (s : State) (b : Nat) (br : Brick) (s' : State) : Prop := ∃ br', HasBrick s' b br' ∧ br'.threads = 0#32 ∧ br'.splits = [] ∧
    br'.lane = br.lane ∧ br'.uni = br.uni ∧ br'.msk = br.msk ∧ br'.fx = br.fx ∧ br'.killed = br.killed ∧
    ((tabGet? s.walls br.wall).isSome = true → poolOf s' br br.role = poolOf s br br.role + 8 * br.gran)
  (∀ st s c, let f := bareForm false false st .vec
    Issues s c f →
    (c.br.threads &&& ~~~c.sp.mask ≠ 0#32 → RetiresJump (.exit st) s c f (fun s' =>
      ∃ br', HasBrick s' c.b br' ∧ br'.threads = c.br.threads &&& ~~~c.sp.mask ∧ br'.lane = c.br.lane ∧ br'.uni = c.br.uni ∧
        br'.msk = c.br.msk ∧ br'.fx = c.br.fx ∧ s'.mem = s.mem ∧ s'.lmem = s.lmem)) ∧
    (c.br.threads &&& ~~~c.sp.mask = 0#32 → c.br.det = false →
      (c.br.arrMarks = [] → RetiresJump (.exit st) s c f (ended s c.b c.br)) ∧
      (c.br.arrMarks ≠ [] → Parks (.exit st) s c f .exit none (fun s' => s' = s))) ∧
    (c.br.threads &&& ~~~c.sp.mask = 0#32 → c.br.det = true → RetiresJump (.exit st) s c f (fun s' =>
      ∃ br' fl, HasBrick s' c.b br' ∧ br'.threads = 0#32 ∧ br'.splits = [] ∧ fl ∈ br'.flights ∧ fl.kind = .gone false ∧
        fl.tEnd = some (courseEndOf (qOf s c.br) c.br.L)))) ∧
  (∀ s b k br sp w, HasBrick s b br → tabGet? br.splits k = some sp → sp.wait = some w → w.op = .exit → w.sync = none →
    (tabGet? s.walls br.wall).any (·.saved) = false → br.frozen k = false → br.det = false →
    (br.arrMarks ≠ [] → runMove s (.wake b k) = .next s) ∧
    (br.arrMarks = [] → ∃ t, runMove s (.wake b k) = .next t ∧ ended s b br t))

/-! ### Waiting, fences, bindings and the synchronisation objects -/

/-- WAIT and FENCE. What the spec leaves open is the model's choice: a deterministic WAIT over operations that stay buffered (log
entry 39), and what FENCE.acq and .cum do in one memory (log entry 33). -/
def Obligations.WaitAndFenceComplete : Prop :=
  (∀ n a k st s c, let f := syncForm false st [a] none
    let i := Instr.wait n a k st
    let t := if a = 0#6 then k.toNat else (c.u a).toNat
    let upTo := issuedOn c.br n.toNat - t
    Issues s c f →
    (c.br.det = true ∧ coversUncommitted c.br n.toNat upTo = true →
      (c.inHandler = true → Traps i s c f (trapOf c 0x108#9)) ∧
      (c.inHandler = false → ∃ s1, s1 = modBrick s c.b (fun br => { br with L := courseEndOf (qOf s br) br.L }) ∧
        exec i s = .next (parkOn s1 c f (.fc n.toNat t upTo) none true))) ∧
    (¬(c.br.det = true ∧ coversUncommitted c.br n.toNat upTo = true) →
      (fcValue c.br n.toNat ≤ t → Retires i s c f (fun s' => s' = modBrick s c.b (fun br =>
        { br with marks := br.marks.filter (fun m => !(m.fc == n.toNat && decide (m.ord ≤ upTo))) }))) ∧
      (t < fcValue c.br n.toNat → Parks i s c f (.fc n.toNat t upTo) none (fun s' => s' = s)))) ∧
  (∀ cum kind sp st s c, let f := bareForm false false st .vec
    let i := Instr.fence cum kind sp st
    let s1 := if kind.getLsbD 0 then modBrick s c.b (fun br => { br with acqs := br.acqs ++ [c.br.seq] }) else s
    Issues s c f →
    (c.br.det = true → Retires i s c f (fun s' => s' = s)) ∧
    (c.br.det = false → kind.getLsbD 1 = false → Retires i s c f (fun s' => s' = s1)) ∧
    (c.br.det = false → kind.getLsbD 1 = true → accessesDone c.br c.br.seq = true →
      Retires i s c f (fun s' => s' = modBrick s1 c.b (fun br => { br with cumRel := br.cumRel || cum }))) ∧
    (c.br.det = false → kind.getLsbD 1 = true → accessesDone c.br c.br.seq = false →
      Parks i s c f (.fence c.br.seq cum) none (fun s' => s' = s1)))

/-- BIND and UNBIND. The model's choice (log entry 34): the green operand is tested before 0x104, and outside a deterministic launch
the effect comes at issue. -/
def Obligations.BindingsComplete : Prop :=
  (∀ d sb st s c imm disp, ∀ i e two, (i = .bind d sb imm st ∧ e = c.u sb + (immS imm <<< 3) ∧ two = false) ∨
      (i = Instr.bindDisp d sb disp st ∧ e = c.u sb + immS disp ∧ two = true) →
    let f := syncForm two st [d, sb] none
    Issues s c f →
    ((c.gov || c.uG d || c.uG sb) = true → Traps i s c f (trapOf c 0x084#9)) ∧
    ((c.gov || c.uG d || c.uG sb) = false → ∀ slot x l, bindOf c e (c.u d) = some (slot, x) → launchOf s c.br = some l →
      (c.br.det = false → bindFree l slot x = true →
        Retires i s c f (fun s' => s' = modLaunch s c.br.launch (fun l => { l with binds := tabPut l.binds slot x }))) ∧
      (c.br.det = false → bindFree l slot x = false → Traps i s c f (trapOf c 0x104#9)) ∧
      (c.br.det = true → ParksSync i s c f s (.bind slot x))) ∧
    ((c.gov || c.uG d || c.uG sb) = false → bindOf c e (c.u d) = none → Traps i s c f (trapOf c 0x104#9))) ∧
  (∀ d st s c, ∀ i two, (i = .unbind d st ∧ two = false) ∨ (i = Instr.unbindDisp d st ∧ two = true) →
    let f := syncForm two st [d] none
    let slot := (c.u d).toNat % 256
    Issues s c f →
    ((c.gov || c.uG d) = true → Traps i s c f (trapOf c 0x084#9)) ∧
    ((c.gov || c.uG d) = false → c.br.det = true → ParksSync i s c f s (.unbind slot)) ∧
    ((c.gov || c.uG d) = false → c.br.det = false → ∀ l, launchOf s c.br = some l →
      (∀ x, tabGet? l.binds slot = some x →
        Retires i s c f (fun s' => s' = modLaunch s c.br.launch (fun l => { l with binds := tabDel l.binds slot }))) ∧
      (tabGet? l.binds slot = none → Traps i s c f (trapOf c 0x104#9))))

/-- The barrier forms. The model's choices: a second arrival of a split is held behind its own mark, and BAR.INIT clears the
arrivals not counted (log entry 35); a deterministic wait is answered at its evaluation (log entry 36). -/
def Obligations.BarrierFormsComplete : Prop :=
  (∀ (a : Reg) (k : BitVec 5) sp st s c, barName s c a k sp = .bad → ∀ (d : Reg) cum (r : BitVec 5),
    (Issues s c (syncForm false st [d, a] none) → Traps (.barInit d a k sp st) s c (syncForm false st [d, a] none) (trapOf c 0x105#9)) ∧
    (Issues s c (syncForm false st [a] none) → Traps (.barArr a k sp st) s c (syncForm false st [a] none) (trapOf c 0x105#9)) ∧
    (Issues s c (syncForm false st [a] (some d)) →
      Traps (.barWait d a k sp st) s c (syncForm false st [a] (some d)) (trapOf c 0x105#9) ∧
      Traps (.barQ d a k sp st) s c (syncForm false st [a] (some d)) (trapOf c 0x105#9)) ∧
    (Issues s c (syncForm false st [a] (some (r.setWidth 6))) →
      Traps (.barSync cum r a k sp st) s c (syncForm false st [a] (some (r.setWidth 6))) (trapOf c 0x105#9))) ∧
  (∀ (a : Reg) (k : BitVec 5) sp st s c o rem, barName s c a k sp = .ok o rem →
    let x := barAt s o
    let g := c.gov || (a != 0#6 && c.uG a)
    (∀ d, let f := syncForm false st [d, a] none
      let i := Instr.barInit d a k sp st
      let e := (c.u d).toNat % 2 ^ 26
      Issues s c f → (c.gov || c.uG d) = false →
      (0 < e → e ≤ maxE sp → (c.br.det = false → Retires i s c f (fun s' => s' = initBar s o e)) ∧ (c.br.det = true → Buffers i s c f (.barInit o e))) ∧
      (e = 0 ∨ maxE sp < e → Traps i s c f (trapOf c 0x105#9))) ∧
    (x.psn = false → x.odd = [] →
    (let f := syncForm false st [a] none
     let i := Instr.barArr a k sp st
     Issues s c f →
      (c.br.det = true → Retires i s c f (fun s' => s' = modBrick s c.b (fun br =>
        bufferMarks (courseEndOf (qOf s br) br.L) (markArrival br o c.k c.sp.pc false)))) ∧
      (c.br.det = false → x.ab = false → x.e ≠ 0 → arrivalHeld x c o = false → Retires i s c f (fun s' =>
        s' = modBrick s c.b (fun br => { markArrival br o c.k c.sp.pc br.cumRel with cumRel := false }))) ∧
      (c.br.det = false → x.ab = true → Retires i s c f (fun s' => s' = s)) ∧
      (c.br.det = false → x.ab = false → x.e = 0 → Traps i s c f (trapOf c 0x105#9))) ∧
    (∀ d, let f := syncForm false st [a] (some d)
      let i := Instr.barWait d a k sp st
      let w ph n := WaitOp.barWait o ph n (physReg c.k d.toNat) g
      Issues s c f →
      (rem = true → Traps i s c f (trapOf c 0x101#9)) ∧
      (rem = false → c.br.det = true → ParksSync i s c f s (w (detWait c.br o).1 (detWait c.br o).2)) ∧
      (rem = false → c.br.det = false →
        (x.ab = true → d ≠ 0#6 → Retires i s c f (Gives s c d 0x100#64 g)) ∧
        (x.ab = true → d = 0#6 → Traps i s c f (trapOf c 0x100#9)) ∧
        (x.ab = false → c.br.ahead o ≠ 0 → Parks i s c f (w none (c.br.ahead o)) none (fun s' => s' = s)) ∧
        (x.ab = false → c.br.ahead o = 0 → c.br.lastArr.find? (fun m => m.1 == o) = none →
          Parks i s c f (w (some x.phase) 0) none (fun s' => s' = s)) ∧
        (x.ab = false → c.br.ahead o = 0 → ∀ n, c.br.lastArr.find? (fun m => m.1 == o) = some (o, n) →
          (n < x.phase → Retires i s c f (Gives s c d 0 g)) ∧ (x.phase ≤ n → Parks i s c f (w (some n) 0) none (fun s' => s' = s))))) ∧
    (∀ cum (r : BitVec 5), let d : Reg := r.setWidth 6
      let f := syncForm false st [a] (some d)
      let i := Instr.barSync cum r a k sp st
      let w := WaitOp.barWait o none (arrivesAt c o) (physReg c.k d.toNat) g
      Issues s c f →
      (rem = true → Traps i s c f (trapOf c 0x101#9)) ∧
      (rem = false →
      (c.br.det = false → x.ab = false → x.e = 0 → Traps i s c f (trapOf c 0x105#9)) ∧
      (c.br.det = false → x.ab = false → x.e ≠ 0 → arrivalHeld x c o = false → Parks i s c f w none (fun s' =>
        s' = modBrick s c.b (fun br => { markArrival br o c.k c.sp.pc (cum || br.cumRel) with cumRel := false }))) ∧
      (c.br.det = false → x.ab = true → d ≠ 0#6 → Retires i s c f (Gives s c d 0x100#64 g)) ∧
      (c.br.det = false → x.ab = true → d = 0#6 → Traps i s c f (trapOf c 0x100#9)) ∧
      (c.br.det = true → ParksSync i s c f (modBrick s c.b (fun br =>
        bufferMarks (courseEndOf (qOf s br) br.L) (markArrival br o c.k c.sp.pc cum))) w))) ∧
    (∀ d, let f := syncForm false st [a] (some d)
      let i := Instr.barQ d a k sp st
      Issues s c f →
      (rem = true → Traps i s c f (trapOf c 0x101#9)) ∧
      (rem = false → c.br.det = false → Retires i s c f (Gives s c d (barWord x c.b) g)) ∧
      (rem = false → c.br.det = true → ParksSync i s c f s (.barQ o (physReg c.k d.toNat) g)))))

/-- The semaphore forms. -/
def Obligations.SemaphoreFormsComplete : Prop :=
  ∀ (a : Reg) (k : BitVec 5) sp st s c o rem, semName s c a k = .ok o rem → (semAt s o).psn = false → (semAt s o).odd = [] →
    let x := semAt s o
    let g := c.gov || (a != 0#6 && c.uG a)
    (∀ d, let f := syncForm false st [d, a] none
      let i := Instr.semInit d a k st
      Issues s c f →
      ((c.gov || c.uG d) = true → Traps i s c f (trapOf c 0x084#9)) ∧
      ((c.gov || c.uG d) = false →
        (c.br.det = false → Retires i s c f (fun s' => s' = serveQueue (putSem s o { x with count := (c.u d).toNat % 2 ^ 32 }) o)) ∧
        (c.br.det = true → Buffers i s c f (.semInit o ((c.u d).toNat % 2 ^ 32))))) ∧
    (∀ d, let f := syncForm false st [a] (some d)
      let i := Instr.semAcq d a k sp st
      Issues s c f →
      (c.br.det = false → x.queue = [] → 1 ≤ x.count → Retires i s c f (fun s' => ∃ s1, s1 = putSem s o { x with count := x.count - 1 } ∧
        Gives s1 c d (BitVec.ofNat 64 (x.count - 1)) g s')) ∧
      (c.br.det = false → x.queue ≠ [] ∨ x.count = 0 → Parks i s c f (.semAcq o (physReg c.k d.toNat) g) none
        (fun s' => s' = putSem s o { x with queue := x.queue ++ [(c.b, c.k)] })) ∧
      (c.br.det = true → ParksSync i s c f s (.semAcq o (physReg c.k d.toNat) g))) ∧
    (∀ d, let f := syncForm false st [a] (some d)
      let i := Instr.semTry d a k sp st
      Issues s c f →
      (c.br.det = false → x.queue = [] → 1 ≤ x.count → Retires i s c f (fun s' => ∃ s1, s1 = putSem s o { x with count := x.count - 1 } ∧
        Gives s1 c d 1 g s')) ∧
      (c.br.det = false → x.queue ≠ [] ∨ x.count = 0 → Retires i s c f (Gives s c d 0 g)) ∧
      (c.br.det = true → ParksSync i s c f s (.semTry o (physReg c.k d.toNat) g))) ∧
    (let f := syncForm false st [a] none
     let i := Instr.semRel a k sp st
     Issues s c f →
      let s1 := modBrick s c.b (fun br => { br with cumRel := false })
      (c.br.det = true → Buffers i s c f (.semRel o)) ∧
      (c.br.det = false → writesDone c.br c.br.seq = false → Parks i s c f (.semRel o c.br.seq) none (fun s' => s' = s1)) ∧
      (c.br.det = false → writesDone c.br c.br.seq = true → x.count < 2 ^ 32 - 1 →
        Retires i s c f (fun s' => s' = serveQueue (putSem s1 o { x with count := x.count + 1 }) o)) ∧
      (c.br.det = false → writesDone c.br c.br.seq = true → 2 ^ 32 - 1 ≤ x.count → TrapsWith i s c f s1 (trapOf c 0x106#9)))

/-- The hod forms. The model's choices: the source is checked before the closed bit, and room is counted literally (log entry 38); a
green descriptor register leaves the slot's tag (log entry 111). -/
def Obligations.HodFormsComplete : Prop :=
  ∀ (a : Reg) (k : BitVec 5) st s c o rem, hodName s c a k = .ok o rem →
    let h := hodAt s o
    let g := c.gov || (a != 0#6 && c.uG a)
    (let f := syncForm false st [a] none
     let i := Instr.hodInit a k st
     Issues s c f → rem = false →
      (c.br.det = true → Buffers i s c f (.hodInit o)) ∧
      (c.br.det = false → h.tail = h.head → h.heldBy = [] → h.prods = [] → h.cons = [] →
        Retires i s c f (fun s' => s' = putHod s o { h with head := 0, tail := 0, filled := [], closed := false })) ∧
      (c.br.det = false → (h.tail ≠ h.head ∨ h.heldBy ≠ [] ∨ h.prods ≠ [] ∨ h.cons ≠ []) → Traps i s c f (trapOf c 0x107#9))) ∧
    (let f := syncForm false st [a] none
     let i := Instr.hodClose a k st
     Issues s c f →
      (c.br.det = true → Buffers i s c f (.hodClose o)) ∧
      (c.br.det = false → Retires i s c f (fun s' => s' = serveHod (putHod s o { h with closed := true }) o)) ∧
      (c.br.det = false → h.prods = [] → h.cons = [] → Retires i s c f (fun s' => s' = putHod s o { h with closed := true }))) ∧
    (∀ d s1 src, let f := syncForm false st [d, a] none
      let i := Instr.hodPut d a k st
      let green := c.gov || c.uG d
      let fill (s0 : State) (n : Option Nat) (s' : State) : Prop := Flies s0 c f (some 6) none none (.hodPut o n src green) s'
      Issues s c f → fcFull c.br 6 = false → ((c.u d).getLsbD 63 = true → detReadHold s c = false) →
      ((c.u d).getLsbD 63 = false → wbBusy c.br = false) → srcBad c (c.u d) = none →
      srcLines s c (c.u d) (h.s / 64) = .ok s1 src →
      let s2 := markRole s1 c o true
      (c.br.det = true → ∃ s3, fill s2 none s3 ∧ ParksSync i s c f s3 (.hodPut o c.br.seq)) ∧
      (c.br.det = false → h.closed = true → TrapsWith i s c f s1 (trapOf c 0x102#9)) ∧
      (c.br.det = false → h.closed = false → h.prods = [] → h.room = true → Retires i s c f
        (fill (putHod s2 o { hodAt s2 o with tail := (hodAt s2 o).tail + 1 }) (some (hodAt s2 o).tail))) ∧
      (c.br.det = false → h.closed = false → (h.prods ≠ [] ∨ h.room = false) → Parks i s c f (.hodPut o c.br.seq) none
        (fill (putHod s2 o { hodAt s2 o with prods := h.prods ++ [(c.b, c.k)] }) none))) ∧
    (∀ d, let f := syncForm false st [a] (some d)
      let sm := markRole s c o false
      let s2 := freeHeld sm o c.b
      let h2 := hodAt s2 o
      let lines := (List.range (h2.s / 64)).map (fun i => (hodSlotLoc s2 o h2.head).add (64 * i))
      Issues s c f → rem = false →
      (c.br.det = true → ParksSync (.hodGet d a k st) s c f sm (.hodGet o (physReg c.k d.toNat) g none) ∧
        ParksSync (.hodTry d a k st) s c f sm (.hodTry o (physReg c.k d.toNat) g)) ∧
      (c.br.det = false →
        (h2.cons.length < h2.c → ∀ i, i = .hodGet d a k st ∨ i = .hodTry d a k st →
          ((∀ l ∈ lines, (metaAt s2 l.line).err = [] ∧ (metaAt s2 l.line).psn = false) → Retires i s c f (fun s' => ∃ s3,
            s3 = putHod s2 o { h2 with head := h2.head + 1, filled := h2.filled.filter (· != h2.head)
                                       heldBy := h2.heldBy.filter (fun x => x.1 != c.b) ++ [(c.b, h2.head)] } ∧
            Gives s3 c d (hodWord h2 h2.head) g s')) ∧
          (∀ s3 l ls, checkLines s2 lines = (s3, l :: ls) → TrapsWith i s c f s3 (lineTrap c l))) ∧
        (h2.c = 0 → h2.closed = true →
          Retires (.hodTry d a k st) s c f (Gives s2 c d hodClosedWord g) ∧
          (d ≠ 0#6 → Retires (.hodGet d a k st) s c f (Gives s2 c d hodClosedWord g)) ∧
          (d = 0#6 → TrapsWith (.hodGet d a k st) s c f s2 (trapOf c 0x102#9))) ∧
        (h2.c ≤ h2.cons.length → ¬(h2.c = 0 ∧ h2.closed = true) →
          Retires (.hodTry d a k st) s c f (Gives s2 c d hodEmptyWord g) ∧
          Parks (.hodGet d a k st) s c f (.hodGet o (physReg c.k d.toNat) g none) none
            (fun s' => s' = putHod s2 o { h2 with cons := h2.cons ++ [(c.b, c.k)] }))))

/-! ### The matrix engine -/

/-- The forms of the array queue. ACCCHK takes 0x142 for a bad T and 0x149 where the bank's checksums are not valid. The model's
choices: operands are captured at issue (log entry 40), the order of a control word's faults (112), T before the checksums and the A
tile before B's metadata (132). -/
def Obligations.MatrixFormsComplete : Prop :=
  ∀ k st s c p bk, let room := (coreOf s c.br.core).queue.length < 4
    (let f := arrForm st [] [] [] [] []
     let i := Instr.accz k st
     Issues s c f → physBank s c.br k.toNat = some p →
      (c.br.det = false ∨ (bankAt s c.br.core p).own = some c.b → room → Retires i s c f (fun s' => ∃ s2, Queued s c p k [] none .accz s2 ∧
        s' = putBank (modBrick s2 c.b (fun br => { br with seq := br.seq + 1 })) c.br.core p { bankAt s c.br.core p with own := some c.b })) ∧
      (c.br.det = true → (bankAt s c.br.core p).own ≠ some c.b → ParksSync i s c f s (.accz k.toNat))) ∧
    (∀ i checks dist quad a b, ProductForm i checks dist quad k a b st →
      let regs := (List.range (if quad then 8 else 32)).map (fun i => b.toNat + i)
      let nb := if quad then 32 else 128
      let f := arrForm st regs [a.toNat] (nUni a :: regs.map RName.lane) [] (regs.map (fun r => (r, true, true)))
      ∀ o s1, Issues s c f → BankReady s c k p bk → room → operandWord dist (c.u a) = some o →
      operandAddr (localSize s c.br) nb o = none → wbBusy c.br = false → detReadHold s c = false →
      checkLines s (operandLines s c.br nb o) = (s1, []) →
      let v := if c.br.det then ownView s1 c.b c.br else s1
      let am := if o.ty.isBlock then readMetas v c.br (o.tile + 4096) 64 else ([], [])
      let bm := if o.ty.isBlock then readMetas v c.br o.bm nb else ([], [])
      let tile := (List.range 64).map (fun i => localLoc s1 c.br (o.tile + 64 * i))
      Enqueues i s c f (modBrick s1 c.b spendMatrix) p k []
        (.mma checks dist quad o.ty o.col (tile.map (fun l => readBytes v l 64)) (tile.map (lineG v)) am.1 am.2
          ((List.range nb).map (fun j => (bColumn c b j).1)) ((List.range nb).map (fun j => (bColumn c b j).2)) bm.1 bm.2
          (armedColumn c.br))) ∧
    (∀ d n big, let f := arrForm st [d.toNat] [] [] [nLane d] []
      Issues s c f → BankReady s c k p bk → room → Enqueues (.topk k d n big st) s c f s p k [nLane d] (.topk d.toNat (n.toNat + 1) big)) ∧
    (∀ d a w, let f := arrForm st [d.toNat] [a.toNat, (nxt a).toNat] [nUni a, nUni (nxt a)] [nLane d] []
      Issues s c f → BankReady s c k p bk → room →
      readWord false d.toNat (c.u (nxt a)) (fUnpack fmtF32 (readBound (c.u a)).toNat) c.br.rm = .ok w →
      (w.dd = true → staticCheck c { f with lanes := [d.toNat + 1] } = none ∧ interlocked c (physName c.k (nLane (nxt d))) = false ∧
        (sbcOn c.br && pendingOn c (physName c.k (nLane (nxt d)))) = false) →
      Enqueues (.accrd k d a st) s c f s p k (if w.dd then [nLane d, nLane (nxt d)] else [nLane d])
        (.accrd d.toNat (readScale (c.u a)) (readBound (c.u a)) (c.uG a) w.clp w.tr w.dd w.rm w.ty w.row w.col)) ∧
    (∀ a w, let f := arrForm st [] [a.toNat, (nxt a).toNat] [nUni a, nUni (nxt a)] [] []
      Issues s c f → BankReady s c k p bk → room → acqBlocked c.br = false →
      readWord true 0 (c.u (nxt a)) (fUnpack fmtF32 (readBound (c.u a)).toNat) c.br.rm = .ok w →
      w.base % 64 = 0 → w.base + 1024 * w.ty.width ≤ localSize s c.br →
      let tEnd := if c.br.det then some (courseEndOf (qOf s c.br) c.br.L) else none
      Retires (.accwb k a st) s c f (fun s' => ∃ s2,
        Queued s c p k [] tEnd (.accwb w.base (readScale (c.u a)) (readBound (c.u a)) (c.uG a) w.clp w.rm w.ty) s2 ∧
        Flies s2 c f none tEnd none .accwb s')) ∧
    (∀ v a, let f := { arrForm st [v.toNat] [a.toNat] [nLane v, nUni a] [] [] with ownPsn := true }
      let w := c.u a
      let t := w.toNat / 2 ^ 16 % 32
      let dbl := w.getLsbD 24
      Issues s c f → BankReady s c k p bk → room → w &&& ~~~0x11F3F7F#64 = 0 →
      (c.half v t 0).u = false → (c.half v t 0).p = false → (dbl = true → (c.half v t 1).u = false ∧ (c.half v t 1).p = false) →
      Enqueues (.accadj k v a st) s c f s p k []
        (.accadj (w.toNat / 256 % 64) (w.toNat % 128) dbl (c.w v t) (if dbl then c.wG v t else c.hG v t 0))) ∧
    (∀ d v, let us := [d.toNat, d.toNat + 1, d.toNat + 2]
      let vs := [v.toNat, v.toNat + 1, v.toNat + 2]
      let names := us.map RName.uni ++ vs.map RName.lane
      let f := arrForm st vs us [nUni d] names []
      let tol := fUnpack fmtF32 ((c.u d).toNat % 2 ^ 32)
      Issues s c f → BankReady s c k p bk →
      ((isSpecial tol || isNeg tol) = true → Traps (.accchk k d v st) s c f (trapOf c 0x142#9)) ∧
      ((isSpecial tol || isNeg tol) = false → bk.ckv = false → Traps (.accchk k d v st) s c f (trapOf c 0x149#9)) ∧
      ((isSpecial tol || isNeg tol) = false → bk.ckv = true → room →
        Enqueues (.accchk k d v st) s c f s p k names (.accchk d.toNat v.toNat ((c.u d).setWidth 32))))

/-- ACCALLOC and ACCFREE. The model's choices: ACCFREE takes effect at its turn in a deterministic launch too (log entry 47), and
the banks granted come cured and zeroed to a governed split as well (log entry 131). -/
def Obligations.BankPoolForms : Prop :=
  ∀ (a : Reg) (k : BitVec 5) st s c l, launchOf s c.br = some l →
    (∀ d, let f := bankForm st a (some d)
      let i := Instr.accalloc d a k st
      let n := if a = 0#6 then k.toNat else (c.u a).toNat
      let g := c.gov || (a != 0#6 && c.uG a)
      Issues s c f →
      (l.accDyn = false → Traps i s c f (trapOf c 0x14A#9)) ∧
      (l.accDyn = true → (n = 0 ∨ (freeNumbers c.br 16).length < n ∨ 16 - (staticBanks s c.br.core).length < n) →
        Traps i s c f (trapOf c 0x14A#9)) ∧
      (l.accDyn = true → 0 < n → n ≤ (freeNumbers c.br 16).length → n ≤ 16 - (staticBanks s c.br.core).length →
        (c.br.det = true → ParksSync i s c f s (.accalloc n (physReg c.k d.toNat) g)) ∧
        (c.br.det = false → (coreOf s c.br.core).reqs = [] → n ≤ (poolBanks s c.br.core).length →
          let ks := freeNumbers c.br n
          let ps := (poolBanks s c.br.core).take n
          Retires i s c f (fun s' => ∃ s1, s1 = modBrick (ps.foldl (fun s p => putBank s c.br.core p { Bank.zero with own := some c.b }) s) c.b
              (fun br => { br with banks := (ks.zip ps).foldl (fun t x => tabPut t x.1 x.2) c.br.banks }) ∧
            Gives s1 c d (BitVec.ofNat 64 (ks.foldl (fun a k => a + 2 ^ k) 0)) g s')) ∧
        (c.br.det = false → ((coreOf s c.br.core).reqs ≠ [] ∨ (poolBanks s c.br.core).length < n) →
          Parks i s c f (.accalloc n (physReg c.k d.toNat) g) none
            (fun s' => s' = modCore s c.br.core (fun x => { x with reqs := x.reqs ++ [⟨c.b, c.k, n⟩] }))))) ∧
    (let f := bankForm st a none
     let i := Instr.accfree a k st
     let ks := if a = 0#6 then [k.toNat] else (List.range 16).filter (fun i => (c.u a).getLsbD i)
     Issues s c f →
      (l.accDyn = false → Traps i s c f (trapOf c 0x14A#9)) ∧
      (l.accDyn = true → (∃ j ∈ ks, tabGet? c.br.banks j = none) → Traps i s c f (trapOf c 0x148#9)) ∧
      (l.accDyn = true → (∀ j ∈ ks, (tabGet? c.br.banks j).isSome = true) →
        let busy := ∃ e ∈ (coreOf s c.br.core).queue, e.brick = c.b ∧ ∃ j ∈ ks, tabGet? c.br.banks j = some e.bank
        (¬busy → Retires i s c f (fun s' => s' = modBrick s c.b (fun br => { br with banks := ks.foldl (fun t k => tabDel t k) br.banks }))) ∧
        (busy → Parks i s c f (.accfree ks) none (fun s' => s' = s))))

/-- R91 with the consequence that R92 draws. Values are compared as integers, in units of 2 to the power Lb − 64. -/
def Obligations.AccumulationIsExact : Prop :=
  ∀ (bk : Bank) w ts k ql qt, k < 8192 → tabSorted bk.e = true → (∀ x ∈ bk.e, x.1 < 8192) →
    spanOf w ((List.range 8192).flatMap ts) = some (ql, qt) →
    let lb := if bk.anchored then min bk.lb ql else ql
    let tb := if bk.anchored then max bk.tb qt else qt
    tb - lb ≤ 64 →
    (bk.anchored = true → bk.A = bk.tb ∧ bk.lb ≤ bk.tb ∧ ∀ j, (2 : Int) ^ (bk.lb - (bk.tb - 64)).toNat ∣ (tabGetD bk.e j AccEntry.zero).f) →
    (bk.anchored = false → ∀ j, (tabGetD bk.e j AccEntry.zero).f = 0) →
    let new := placeProducts bk w ts
    let x := tabGetD bk.e k AccEntry.zero
    let y := tabGetD new.e k AccEntry.zero
    let old : Int := if bk.anchored then x.f * 2 ^ (bk.A - lb).toNat else 0
    let sum : Int := ((ts k).map (fun t => t.m * 2 ^ (t.q - lb + 64).toNat)).foldl (· + ·) old
    sum.natAbs ≤ accLimit.natAbs * 2 ^ (tb - lb).toNat →
    new.A = tb ∧ new.lb = lb ∧ new.tb = tb ∧ y.f * 2 ^ (tb - lb).toNat = sum ∧ y.g = x.g ∧ y.v = x.v ∧ y.n = x.n ∧
      (2 : Int) ^ (lb - (tb - 64)).toNat ∣ y.f

/-! ### The tape engine -/

/-- The forms of the tape engine. The model's choices (log entry 26): lines stay in the buffer until the seal, the close or a full
buffer writes them, and a segment is checked after the state. -/
def Obligations.TapeFormsComplete : Prop :=
  ∀ st s c, (∀ g ∈ c.br.tape.segs, g.stale = false) →
  let t := c.br.tape
  let placed (i : Instr) (f : Form) (n : Nat) (lines : List (List Byte × Bool)) : Prop :=
    (t.state ≠ 1 → Traps i s c f (trapOf c 0x14C#9)) ∧
    (t.state = 1 → t.place n = none → TrapsWith i s c f (setTape s c.b { t with need := n }) (trapOf c 0x143#9)) ∧
    (t.state = 1 → ∀ at0, t.place n = some at0 → Retires i s c f (fun s' => ∃ s1,
      s1 = setTape s c.b (({ t with lines := at0 + n }.setPtr c.sp.path (at0 + n)).putLines at0 lines c.gov) ∧
      Flies s1 c f (some 4) none none .tapeRec s'))
  let popped (i : Instr) (f : Form) (branch : Bool) (lbl cnt : Nat) (frame : THead → List Byte → Option PendFrame)
      (ws : THead → List Byte → Bool → List RegWrite) : Prop :=
    (t.state ≠ 3 → Traps i s c f (trapOf c 0x14C#9)) ∧
    (t.state = 3 → c.sp.pendFrame.isSome = true → Traps i s c f (trapOf c 0x144#9)) ∧
    (t.state = 3 → c.sp.pendFrame = none → ∀ h, peekHead s c (t.ptr c.sp.path) = some h → popMatches c h branch lbl cnt = false →
      Traps i s c f (trapOf c 0x144#9)) ∧
    (t.state = 3 → c.sp.pendFrame = none → ∀ s1 h bytes g, topEntry s c branch lbl cnt = (s1, .ok h bytes g) →
      popMatches c h branch lbl cnt = true ∧ Retires i s c f (fun s' => ∃ s2 s3,
        s2 = modBrick (if branch then modSplit s1 c.b c.k (fun sp => { sp with pendFrame := frame h bytes }) else s1) c.b
          (fun br => { br with tape := br.tape.setPtr c.sp.path h.prev }) ∧
        s3 = modBrick s2 c.b (fun br => (f.wr.map (physName c.k)).tail.foldl (fun br n => addMark br c (some n) (some 4)) br) ∧
        Flies s3 c f (some 4) none (f.wr.map (physName c.k)).head? (.regs (ws h bytes g) none) s')) ∧
    (t.state = 3 → c.sp.pendFrame = none → ∀ s1, topEntry s c branch lbl cnt = (s1, .bad) →
      TrapsWith i s c f s1 (trapOf c 0x144#9))
  (fcFull c.br 4 = false →
    (∀ a n lbl, let rs := regRun a n
      let f := { tapeLane st rs with rd := rs.map nLane, chk := rs.map chkBoth }
      let e := entryLines (rs.map (recValues c)) (fun len =>
        { prev := t.ptr c.sp.path, mask := c.sp.mask, lbl := lbl.toNat, nline := len, cnt := n.toNat, depth := frameDepth t c.sp
          kind := 0, grn := false })
      Issues s c f → placed (.tapeRec a n lbl st) f e.1 e.2) ∧
    (∀ m lbl, let f := { tapeLane st [] with rd := [nMsk m] }
      let green := c.ts.any (fun i => mbit (c.m m).g i 0)
      Issues s c f → placed (.tapeBr m lbl st) f 1 [(branchLine (maskOf (c.ts.filter (fun i => mbit (c.m m).v i 0))) 0 0
        { prev := t.ptr c.sp.path, mask := c.sp.mask, lbl := lbl.toNat, nline := 1, cnt := 0, depth := frameDepth t c.sp, kind := 2
          grn := green }, green)]) ∧
    (∀ d n lbl, let rs := regRun d n
      let f := { tapeLane st rs with wr := rs.map nLane }
      Issues s c f → popped (.tapePop d n lbl st) f false lbl.toNat n.toNat (fun _ _ => none) (fun h bytes g =>
        (rs.zip (decodeRegs h.mask (n.toNat + 1) bytes)).flatMap (fun x => (x.2.filter (fun v => c.act v.t)).flatMap (fun v =>
          [c.putH x.1 v.t 0 (halfOf v.v 0) (g || v.g % 2 != 0), c.putH x.1 v.t 1 (halfOf v.v 1) (g || v.g / 2 % 2 != 0)])))) ∧
    (∀ m lbl, let f := { tapeLane st [] with wr := [nMsk m] }
      let word (bytes : List Byte) (i : Nat) : Nat := leNat ((bytes.drop i).take 4)
      Issues s c f → popped (.tapePopbr m lbl st) f true lbl.toNat 0
        (fun h bytes => if h.kind = 1 then some ⟨BitVec.ofNat 32 (word bytes 0), word bytes 4, word bytes 8⟩ else none)
        (fun h bytes g => [maskWrite c m (fun t _ => tbit (BitVec.ofNat 32 (word bytes 0)) t) (fun _ _ => g || h.grn)])) ∧
    (∀ d, let f := tapeUni st [] (some d)
      Issues s c f →
      (t.state ≠ 1 ∨ t.frames ≠ [] → Traps (.tapeSeal d st) s c f (trapOf c 0x14C#9)) ∧
      (t.state = 1 → t.frames = [] → Retires (.tapeSeal d st) s c f (fun s' => ∃ s1,
        Flies (setTape s c.b { t with state := 2, sealPtr := t.ptr 0 }) c f (some 4) none none .tapeSeal s1 ∧
        Gives s1 c d (BitVec.ofNat 64 t.lines) false s')))) ∧
  (∀ d a rev, let f := tapeUni st [a, nxt a] (some d)
    let i := Instr.tapeOpen d a rev st
    let base := (c.u a).toNat
    let green := c.uG a || c.uG (nxt a)
    let len := (c.u (nxt a)).toNat
    Issues s c f →
    (t.state ≠ 0 → Traps i s c f (trapOf c 0x14C#9)) ∧
    (t.state = 0 → 4 ≤ tapesOpen s c.br.core → Retires i s c f (Gives s c d 0 green)) ∧
    (t.state = 0 → tapesOpen s c.br.core < 4 → base % 64 ≠ 0 ∨ len % 64 ≠ 0 → Traps i s c f (segTrap c 0x0C1#9 base)) ∧
    (t.state = 0 → tapesOpen s c.br.core < 4 → base % 64 = 0 → len % 64 = 0 → base < 2 ^ 57 → 2048 ≤ len → len ≤ 2 ^ 31 →
      base + len ≤ 2 ^ 57 → ∀ s1, walkPages s c (pagesOf base len) = (s1, .ok) → Retires i s c f (fun s' => ∃ s2,
        s2 = modBrick s1 c.b (fun br => { br with
          tape := { t with state := 1, br := rev, buf := [], lines := 0, need := 0, paths := [], frames := [], sealPtr := 0, heads := []
                           segs := [{ base := base, len := len, stale := false, first := 0 }] }
          splits := br.splits.map (fun x => (x.1, x.2.onRoot)) }) ∧
        Gives s2 c d 1 green s'))) ∧
  (let f := tapeUni st [] none
   Issues s c f →
    (t.state ≠ 2 → Traps (.tapeRev st) s c f (trapOf c 0x14C#9)) ∧
    (t.state = 2 → tapeQuiet c.br c.br.seq = true → Retires (.tapeRev st) s c f (fun s' => s' = startReplay s c.b)) ∧
    (t.state = 2 → tapeQuiet c.br c.br.seq = false → Parks (.tapeRev st) s c f (.tapeRev c.br.seq) none (fun s' => s' = s)) ∧
    (t.state = 0 → Traps (.tapeClose st) s c f (trapOf c 0x14C#9)) ∧
    (t.state ≠ 0 → tapeQuiet c.br c.br.seq = true → ∀ s1, spillTape s c.b = (s1, .all) →
      Retires (.tapeClose st) s c f (fun s' => s' = freeTape s1 c.b)) ∧
    (t.state ≠ 0 → tapeQuiet c.br c.br.seq = true → ∀ s1 cause va, spillTape s c.b = (s1, .refused cause va) →
      TrapsWith (.tapeClose st) s c f s1 (segTrap c cause va)) ∧
    (t.state ≠ 0 → tapeQuiet c.br c.br.seq = true → ∀ s1, spillTape s c.b = (s1, .waits) →
      Parks (.tapeClose st) s c f (.tapeClose c.br.seq) none (fun s' => s' = s1)) ∧
    (t.state ≠ 0 → tapeQuiet c.br c.br.seq = false → Parks (.tapeClose st) s c f (.tapeClose c.br.seq) none (fun s' => s' = s)))

/-- Decoding an entry's payloads gives back what was recorded. -/
def Obligations.TapeValuesRoundTrip : Prop :=
  ∀ (mask : BitVec 32) (regs : List (List TVal)) (rest : List Byte),
    (∀ vs ∈ regs, vs.map (·.t) = threadsOf mask ∧ ∀ v ∈ vs, v.g < 4) →
    decodeRegs mask regs.length ((regs.flatMap payload).map (·.1) ++ rest) = regs

/-! ### Copies, invalidations, the fabric -/

/-- COPY, COPYQ and TLBI. The model's choice (log entry 57): COPY checks the source's alignment, then the destination's, then the
length's, and reports the address checked. -/
def Obligations.CopyAndInvalidateForms : Prop :=
  (∀ d a b e chain ck cmp st s c, let f := copyForm true st [a, b, e] (some d)
    let va := c.u a
    let vb := c.u b
    let ve := c.u e
    let len := ve.toNat % 2 ^ 32
    let green := c.gov || c.uG d || c.uG a || c.uG b || c.uG e
    let submitted (x : Copy) : State := modBrick { (freeDue s).2 with copies := tabPut s.copies s.nextC x, nextC := s.nextC + 1 } c.b (fun br =>
      { br with copies := br.copies + 1, armed := (if x.flip.isSome then none else br.armed) })
    Issues s c f → fcFull c.br 3 = false →
    (∀ hod, (chain || cmp) = true → ck = false → Traps (.copy d a b e chain ck cmp hod st) s c f (trapOf c 0x001#9)) ∧
    (((chain || cmp) = true → ck = true) →
      (∀ hod, (descAddr va).2 % 2 = 1 → Traps (.copy d a b e chain ck cmp hod st) s c f
        (trapThread 0x0C1#9 (lowThread c.sp.mask) 1 (BitVec.ofNat 64 (descAddr va).2))) ∧
      ((descAddr va).2 % 2 = 0 → len % 2 = 0 → 0 < len → len ≤ 2 ^ 31 → descOut s c.br va len = false →
        ((descAddr vb).2 % 2 = 0 → descOut s c.br vb len = false →
          let x := newCopy (freeDue s).2 c va vb ve chain ck cmp green none (freeDue s).1
          Retires (.copy d a b e chain ck cmp false st) s c f (fun s' => ∃ s1, Gives (submitted x) c d (BitVec.ofNat 64 (x.num % 64)) false s1 ∧
            Flies s1 c f (some 3) (if c.br.det then some (courseEndOf (qOf s c.br) c.br.L) else none) none (.copy s.nextC) s')) ∧
        (∀ o rem, hodName s c b 0#5 = .ok o rem → len = (hodAt s o).s →
          let x := newCopy (freeDue s).2 c va vb ve chain ck cmp green (some o) (freeDue s).1
          (c.br.det = false → Retires (.copy d a b e chain ck cmp true st) s c f (fun s' => ∃ s1,
            Gives (markRole (submitted x) c o true) c d (BitVec.ofNat 64 (x.num % 64)) false s1 ∧
            Flies s1 c f (some 3) none none (.copy s.nextC) s')) ∧
          (c.br.det = true → ∃ s1, Flies (markRole (submitted x) c o true) c f (some 3) none none (.copyWait s.nextC) s1 ∧
            ParksSync (.copy d a b e chain ck cmp true st) s c f s1 (.hodCopy s.nextC (physReg c.k d.toNat))))))) ∧
  (∀ d a st s c, let f := copyForm false st [a] (some d)
    let ticket := (c.u a).toNat % 64
    Issues s c f → ∀ i bytes, (i = .copyq d a st ∧ bytes = false) ∨ (i = Instr.copyqBytes d a st ∧ bytes = true) →
      (c.br.det = false → Retires i s c f (Gives s c d (copyAnswer s c.b c.br ticket bytes) (c.uG a))) ∧
      (c.br.det = true → ParksSync i s c f s (.copyq ticket bytes (physReg c.k d.toNat) (c.gov || c.uG a)))) ∧
  (∀ a sp st s c, let f := { syncForm false st [a, nxt a] none with priv := true }
    let base := (c.u a).toNat
    let hi := (c.u (nxt a)).toNat
    let len := hi % 2 ^ 48
    let green := c.gov || c.uG a || c.uG (nxt a)
    let tEnd := if c.br.det then some (courseEndOf (qOf s c.br) c.br.L) else none
    let bad (x : BitVec 9) := trapThread x (lowThread c.sp.mask) 1 (BitVec.ofNat 64 base)
    Issues s c f →
    (green = true → Traps (.tlbiRange a sp st) s c f (trapOf c 0x084#9) ∧ Traps (.tlbiAll a sp st) s c f (trapOf c 0x084#9)) ∧
    (green = false → fcFull c.br 7 = false →
      (base % 65536 ≠ 0 ∨ len % 65536 ≠ 0 → Traps (.tlbiRange a sp st) s c f (bad 0x0C1#9)) ∧
      (base % 65536 = 0 → len = 0 → Traps (.tlbiRange a sp st) s c f (bad 0x0C6#9)) ∧
      (base % 65536 = 0 → len % 65536 = 0 → 0 < len → base < 2 ^ 57 → base + len ≤ 2 ^ 57 →
        Retires (.tlbiRange a sp st) s c f (Flies s c f (some 7) tEnd none (.tlbi false base len (hi / 2 ^ 48) sp false []))) ∧
      (len ≠ 0 → Traps (.tlbiAll a sp st) s c f (trapOf c 0x001#9)) ∧
      (len = 0 → Retires (.tlbiAll a sp st) s c f (Flies s c f (some 7) tEnd none (.tlbi true 0 (2 ^ 57) (hi / 2 ^ 48) sp false [])))))

/-- PUTW, SIGW, RFENCE and the collectives. The model's choices: the source of a collective is read at issue (log entry 67), rank 0
alone has its source checked and reserved fields precede rounding codes (68), SIGW's payload tag (71), and RFENCE always parks (75). -/
def Obligations.FabricForms : Prop :=
  (∀ d a st s c s1 s2 src dst, let f := collEngine st [d, a, nxt a]
    let i := Instr.putw d a st
    let n := (c.u (nxt a)).toNat
    let va := (c.u d).toNat
    Issues s c f →
    (2 ^ 32 ≤ n → Traps i s c f (trapOf c 0x001#9)) ∧
    (n < 2 ^ 32 → globHold s c 5 = false → sourceBusy c (c.u a) = false →
    (va % 64 ≠ 0 → Traps i s c f (collTrap c 0x0C1#9 (c.u d))) ∧
    (va % 64 = 0 → (c.u a).toNat % 64 = 0 → n % 64 = 0 → 0 < n → n ≤ 2 ^ 20 → va < 2 ^ 57 → va + n ≤ 2 ^ 57 →
      rangeOut s c.br (c.u a) n = false → rangePieces s c kRead (c.u a) n = .ok s1 src →
      virtPieces s1 c kWrite va n (n / 64 + 1) = .ok s2 dst →
      (hostAt va dst = none → Retires i s c f (Flies s2 c f (some 5) (bufferEnd s2 c) none
        (.putw (pairLines va (src.map (·.1)) dst) none (c.gov || c.uG d || c.uG a || c.uG (nxt a))))) ∧
      (∀ x, hostAt va dst = some x → TrapsWith i s c f s2 (collTrap c 0x0C7#9 (BitVec.ofNat 64 x)))))) ∧
  (∀ d a st s c s1 s2 src dst s3 acc, ∀ i add, (i = .sigwSet d a st ∧ add = false) ∨ (i = Instr.sigwAdd d a st ∧ add = true) →
    let f := collEngine st [d, nxt d, a, nxt a]
    let n := (c.u (nxt a)).toNat % 2 ^ 32
    let va := (c.u d).toNat
    let flag := (c.u (nxt d)).toNat
    let green := c.gov || c.uG d || c.uG a || c.uG (nxt a)
    Issues s c f → globHold s c 5 = false → sourceBusy c (c.u a) = false → va % 64 = 0 → flag % 8 = 0 → (c.u a).toNat % 64 = 0 → n % 64 = 0 → n ≤ 2 ^ 20 →
    va < 2 ^ 57 → va + n ≤ 2 ^ 57 → flag < 2 ^ 57 → rangeOut s c.br (c.u a) n = false →
    rangePieces s c kRead (c.u a) n = .ok s1 src → virtPieces s1 c kWrite va n (n / 64 + 1) = .ok s2 dst → hostAt va dst = none →
    globalThread s2 c (if add then kRw else kWrite) anyHome flag 8 false (lowThread c.sp.mask) false = (s3, .ok acc) → acc.loc.isHost = false →
    Retires i s c f (Flies (useCum s3 c.b) c f (some 5) (bufferEnd s3 c) none
      (.sigw (pairLines va (src.map (·.1)) dst) none flag acc.loc add ((c.u (nxt a)).extractLsb' 32 32) green (green || c.uG (nxt d))))) ∧
  (∀ st s c, let f := bareForm false false st .coll
    Issues s c f →
    (c.br.det = true → Retires (.rfenceRel st) s c f (fun s' => s' = s)) ∧
    (c.br.det = false → ∃ seqs, (∀ n, n ∈ seqs ↔ ∃ x ∈ c.br.flights, x.seq = n ∧ x.done = false ∧
        ((∃ l d g, x.kind = .putw l d g) ∨ x.fc = some 0 ∨ x.fc = some 1 ∨ x.fc = some 2)) ∧
      Parks (.rfenceRel st) s c f (.rfence seqs) none (fun s' => s' = s))) ∧
  (∀ d a bin (n0 : BitVec 2) st s c s1 s2 src dst, ∀ i form (k : BitVec 4), (i = .collRed d a bin n0 st ∧ form = .red ∧ k = 0#1 ++ (BitVec.ofBool bin ++ n0)) ∨
      (i = .collMaxe d a st ∧ form = .maxe ∧ k = 0#4) ∨ (i = Instr.collBcst d a st ∧ form = CollForm.bcst ∧ k = 0#4) →
    let f := collEngine st [d, nxt d, a, nxt a]
    let ctrl := ctrlMode c form k (c.u (nxt a))
    let n := (c.u (nxt d)).toNat % 2 ^ 32
    let reads := form != .bcst || ctrlRank ctrl == 0
    let sz := collSizes form ctrl
    Issues s c f → globHold s c 5 = false → (c.br.det = false → writesDone c.br c.br.seq = true ∧ workingPlanes s ≠ []) →
    (∀ x, collReserved form k (c.u (nxt d)) (c.u (nxt a)) = some x → Traps i s c f (trapOf c x)) ∧
    (collReserved form k (c.u (nxt d)) (c.u (nxt a)) = none → collBad s c form (c.u d) (c.u a) ctrl n reads = none →
      (if reads then rangePieces s c kRead (c.u a) (n * sz.1) else .ok s []) = .ok s1 src →
      rangePieces s1 c kWrite (c.u d) (n * sz.2) = .ok s2 dst → hostAt (descAddr (c.u d)).2 dst = none →
      let g := ctrlGroup ctrl
      let m := tabGetD s2.collIdx (c.b * 256 + g) 0
      let key := collKey s2.keyPart.toNat g m
      let p : Party :=
        { brick := c.b, seq := c.br.seq, split := c.k, mask := c.sp.mask, rank := ctrlRank ctrl, form := form, k := k, ctrl := ctrl
          n := n, src := src, dst := dst, dstVa := (descAddr (c.u d)).2
          green := c.gov || c.uG d || c.uG (nxt d) || c.uG a || c.uG (nxt a), gov := c.gov, joined := false, bytes := [], greens := [] }
      let opened (s : State) : State := openColl { s with collIdx := tabSet s.collIdx (c.b * 256 + g) 0 (m + 1) } s.keyPart.toNat g m
      (c.br.det = false → (∀ x ∈ src, locDown s2 x.1 = false) → piecesDenied s2 src = none →
        (∀ s3 cells, readPieces s2 c.b src = (s3, .ok cells) → Retires i s c f (fun s' => ∃ s4,
          Flies (opened s3) c f (some 5) none none (.coll key) s4 ∧ s' = joinColl s4 key (p.fill cells))) ∧
        (∀ s3 l, readPieces s2 c.b src = (s3, .error l) → TrapsWith i s c f s3 { trapOf c 0x146#9 with
          aux0 := BitVec.ofNat 64 (structOf l), aux1 := BitVec.ofNat 64 l.line.report })) ∧
      (c.br.det = false → (∀ x ∈ src, locDown s2 x.1 = false) → ∀ cause, piecesDenied s2 src = some cause →
        Retires i s c f (fun s' => ∃ s4, Flies (opened s2) c f (some 5) none none (.coll key) s4 ∧ s' = denyParty s4 key p cause)) ∧
      (c.br.det = true → Retires i s c f (fun s' => ∃ s4, Flies (opened s2) c f (some 5) (bufferEnd s2 c) none (.coll key) s4 ∧
        s' = { s4 with colls := tabMod s4.colls key (fun x => { x with parties := x.parties ++ [p] }) }))))

/-- The forms on launches, priorities, clocks and rows. The model's choices: RQMOV.give waits for results on the way and its rows
reach the pool at the commit (log entry 76), and COURSE.end pads nothing in a handler (77). -/
def Obligations.LaunchAndCourseForms : Prop :=
  (∀ d a st s c, let f := syncForm false st [a] (some d)
    let i := Instr.launch d a st
    let w := WaitOp.launch (c.u a).toNat (physReg c.k d.toNat) none
    Issues s c f →
    ((c.gov || c.uG a) = true → Traps i s c f (trapOf c 0x084#9)) ∧
    ((c.gov || c.uG a) = false → (c.br.det = false → Parks i s c f w none (fun s' => s' = s)) ∧ (c.br.det = true → ParksSync i s c f s w))) ∧
  (∀ s b k br sp w, HasBrick s b br → tabGet? br.splits k = some sp → sp.wait = some w → w.sync = none →
    (tabGet? s.walls br.wall).any (·.saved) = false → br.frozen k = false →
    (∀ va d, w.op = .launch va d none → writesDone br br.seq = true → runMove s (.wake b k) =
      .next (modSplit (submitLaunch s b k br va) b k (fun sp => { sp with wait := some { w with op := .launch va d (some 0) } }))) ∧
    (∀ d v g, w.op = .give d v g → ∃ u : Brick → Tab UReg,
      (∀ (x : Brick) p, Brick.uniR { x with uni := u x } p = if p = d ∧ p ≠ 0 then ⟨v, sp.governed || g⟩ else x.uniR p) ∧
      runMove s (.wake b k) = .next (modBrick s b (fun x =>
        { Brick.modSplit { x with uni := u x } k (fun y =>
            { y with pc := w.pc + (if w.two then 8 else 4), wait := none, ready := max y.ready (s.clk + 1) }) with
          L := if k == handlerSplit || w.counted then x.L else x.L + 1 })))) ∧
  (∀ d a k st s c, let f := syncForm false st [a] (some d)
    let i := Instr.prio d a k st
    Issues s c f →
    (a ≠ 0#6 → c.uG a = true → Traps i s c f (trapOf c 0x084#9)) ∧
    ((a = 0#6 ∨ c.uG a = false) → Retires i s c f (Gives (modBrick s c.b (fun br =>
      { br with prio := if a = 0#6 then k.toNat else (c.u a).toNat % 16 })) c d (BitVec.ofNat 64 c.br.prio) false))) ∧
  (∀ d st s c, let f := syncForm false st [] (some d)
    let q := qOf s c.br
    let after := if c.inHandler then c.br.L else c.br.L + 1
    let endL := (c.br.L + 1 + q - 1) / q * q
    Issues s c f →
    Retires (.courseRd d st) s c f (Gives s c d (BitVec.ofNat 64 after) false) ∧
    ((c.br.det = false ∨ c.inHandler = true) → Retires (.courseEnd d st) s c f (Gives s c d (BitVec.ofNat 64 after) false)) ∧
    (c.br.det = true → c.inHandler = false → Retires (.courseEnd d st) s c f
      (Gives (modBrick s c.b (fun br => { br with L := endL - 1 })) c d (BitVec.ofNat 64 endL) false))) ∧
  (∀ d a (k : BitVec 2) st s c, let f := syncForm false st [a] (some d)
    let role := if a = 0#6 then k.toNat else (c.u a).toNat % 4
    let g := a != 0#6 && c.uG a
    Issues s c f →
    (c.br.det = false → Retires (.roleq d a k st) s c f (Gives s c d (roleWord s c.br role) g)) ∧
    (c.br.det = true → ParksSync (.roleq d a k st) s c f s (.roleq role (physReg c.k d.toNat) (c.gov || g)))) ∧
  (∀ d a (role : BitVec 2) st s c, let f := syncForm false st [a] (some d)
    let i := Instr.rqmovGive d a role st
    let n := (c.u a).toNat
    let own := c.br.granNow
    let left := own - n
    Issues s c f →
    (n = 0 ∨ own - 1 < n ∨ roleAt s c.br role.toNat = none → Traps i s c f (trapOf c 0x007#9)) ∧
    (1 ≤ n → n ≤ own - 1 → roleAt s c.br role.toNat ≠ none → givenBusy c.br (8 * left) = false →
      (c.br.det = false → Retires i s c f (Gives (setPool (modBrick s c.b (fun br => { discardFrom br (8 * left) with gran := br.gran - n }))
        c.br role.toNat (poolOf s c.br role.toNat + 8 * n)) c d (BitVec.ofNat 64 (8 * left)) false)) ∧
      (c.br.det = true → Retires i s c f (fun s' => ∃ s2, Flies (modBrick s c.b (fun br => discardFrom br (8 * left))) c f none (bufferEnd s c) none
        (.give role.toNat (8 * n)) s2 ∧ Gives s2 c d (BitVec.ofNat 64 (8 * left)) false s')))) ∧
  (∀ d a st s c, let f := syncForm false st [a] (some d)
    let i := Instr.rqmovTake d a st
    let n := (c.u a).toNat
    let pool := poolOf s c.br c.br.role
    let own := c.br.granNow
    let m := min (min n (pool / 8)) (8 - own)
    Issues s c f →
    (n = 0 ∨ 7 < n → Traps i s c f (trapOf c 0x007#9)) ∧
    (1 ≤ n → n ≤ 7 →
      (c.br.det = true → ParksSync i s c f s (.take n (physReg c.k d.toNat))) ∧
      (c.br.det = false → Retires i s c f (Gives (modBrick (setPool s c.br c.br.role (pool - 8 * m)) c.b (fun br =>
        { br with gran := c.br.gran + m
                  lane := br.lane.filter (fun y => !(decide (8 * own ≤ y.1 / 64) && decide (y.1 / 64 < 64))) })) c d (BitVec.ofNat 64 (8 * (own + m))) false))))

/-! ### System registers, modes, traps -/

/-- The accesses to system registers. The model's choices: the bits of SY_INJECT that a KIND uses (log entry 53), and read-only
numbers before privilege before tags (log entry 56). -/
def Obligations.SystemRegisterForms : Prop :=
  (∀ d y st s c, let f := sysForm st (sysReadPriv y) [] (some d)
    Issues s c f → (∀ v, SysReg s c y v → Retires (.sysr d y st) s c f (Gives s c d v false)) ∧
      (Unassigned y → Retires (.sysr d y st) s c f (Gives s c d 0 false))) ∧
  (∀ a y st s c, let f := sysForm st false [a] none
    Issues s c f → Unassigned y → (c.gov || c.uG a) = false → Retires (.sysw a y st) s c f (fun s' => s' = s)) ∧
  (∀ a y st s c, focusOf s = some c → sysReadOnly y = true → c.sp.tapeFault = false → flagHold c = false →
    Traps (.sysw a y st) s c (bareForm false false st .vec) (trapOf c 0x001#9)) ∧
  (∀ a (y : BitVec 7) st s c, let f := sysForm st (sysWritePriv y (issuerReads s a)) [a] none
    let i := Instr.sysw a y st
    let v := c.u a
    sysReadOnly y = false → Issues s c f →
    ((c.gov || c.uG a) = true → Traps i s c f (trapOf c 0x084#9)) ∧
    ((c.gov || c.uG a) = false →
      (y = 0x00#7 →
        (2 ^ 11 ≤ v.toNat → Traps i s c f (trapOf c 0x001#9)) ∧
        (v.toNat < 2 ^ 11 → 5 ≤ v.toNat % 8 → Traps i s c f (trapOf c 0x002#9)) ∧
        (v.toNat < 2 ^ 11 → ∀ m : Rm, m.code = v.extractLsb' 0 3 → v.toNat % 8 < 5 → Retires i s c f (fun s' =>
          s' = modBrick s c.b (fun br => { br with rm := m, sbc := v.getLsbD 3, ten := v.extractLsb' 4 5 })))) ∧
      (y = 0x0A#7 → (c.br.tape.state = 0 → Traps i s c f (trapOf c 0x14C#9)) ∧
        (c.br.tape.state ≠ 0 → Retires i s c f (fun s' => s' = modBrick s c.b (fun br => { br with tapeLen := (v.extractLsb' 0 32).setWidth 64 })))) ∧
      (y = 0x0E#7 → (v.toNat % 4096 = 0 → v.toNat < 2 ^ 56 → Retires i s c f (fun s' => s' = { s with asidTab := v })) ∧
        (v.toNat % 4096 ≠ 0 ∨ 2 ^ 56 ≤ v.toNat → Traps i s c f (trapOf c 0x001#9))) ∧
      (y = 0x15#7 → Retires i s c f (fun s' => s' = modBrick s c.b (fun br => { br with vec := v }))) ∧
      (y = 0x16#7 → (c.inHandler = true → Retires i s c f (fun s' => s' = modBrick s c.b (fun br => { br with ret := v }))) ∧
        (c.inHandler = false → Traps i s c f (trapOf c 0x00D#9))) ∧
      (y = 0x17#7 →
        (9 ≤ v.toNat / 2 ^ 60 → Traps i s c f (trapOf c 0x001#9)) ∧
        (v.toNat / 2 ^ 60 = 0 → Retires i s c f (fun s' => s' = modBrick s c.b (fun br => { br with armed := none, inject := v }))) ∧
        (v.toNat / 2 ^ 60 < 9 →
          (∀ s1, injectValue s c v = some s1 → Retires i s c f (fun s' => s' = modBrick s1 c.b (fun br => { br with inject := v }))) ∧
          (injectValue s c v = none → Traps i s c f (trapOf c 0x001#9)))) ∧
      (y = 0x18#7 → Retires i s c f (fun s' => s' = modBrick s c.b (fun br => { br with injAddr := v }))) ∧
      (y = 0x21#7 → let plim := v.toNat / 2
        (1000 ≤ plim → plim ≤ 2900 → Retires i s c f (fun s' => s' = { s with plim := plim, reqSig := v.getLsbD 0 })) ∧
        (plim < 1000 ∨ 2900 < plim → Traps i s c f (trapOf c 0x001#9))))) ∧
  (∀ a (y : BitVec 7) st s c, focusOf s = some c → flagHold c = false → c.sp.tapeFault = false → c.br.prv = false → sysReadOnly y = false →
    sysWritePriv y (issuerReads s a) = true → Traps (.sysw a y st) s c (sysForm st true [a] none) (trapOf c 0x006#9)) ∧
  (∀ d st s c, let f := sysForm st true [] (some d)
    let die := dieOfCore c.br.core
    Issues s c f →
    ((∀ r ∈ (dieState s die).faults, r.claimed = true) → Retires (.fltrecClaim d st) s c f (Gives s c d 0 false)) ∧
    (∀ pre r post, (dieState s die).faults = pre ++ r :: post → (∀ x ∈ pre, x.claimed = true) → r.claimed = false →
      Retires (.fltrecClaim d st) s c f (Gives (modDie s die (fun x => { x with faults := pre ++ { r with claimed := true } :: post })) c d
        (BitVec.ofNat 64 (2 ^ 63 + r.kind * 2 ^ 61 + (if r.eng then 2 ^ 60 else 0) + r.asid * 2 ^ 41 + r.vpn)) false)) ∧
    ((dieState s die).rlog = [] → Retires (.rlogClaim d st) s c f (Gives s c d 0 false)) ∧
    (∀ e l, (dieState s die).rlog = e :: l →
      Retires (.rlogClaim d st) s c f (Gives (modDie s die (fun x => { x with rlog := l })) c d e false))) ∧
  (∀ a st s c, let v := c.u a
    let green := c.gov || c.uG a
    let fp := sysForm st true [a] none
    let f := sysForm st false [a] none
    (Issues s c fp → (green = true → Traps (.fltdoneAnswer a st) s c fp (trapOf c 0x084#9) ∧ Traps (.attestRequest a st) s c fp (trapOf c 0x084#9)) ∧
      (green = false →
        Retires (.fltdoneAnswer a st) s c fp (fun s' => s' = answerFault s (dieOfCore c.br.core) (v.toNat / 2 ^ 41 % 2 ^ 16) (v.toNat % 2 ^ 41) (v.getLsbD 63)) ∧
        (v.toNat % 4096 ≠ 0 ∨ 2 ^ 57 ≤ v.toNat → Traps (.attestRequest a st) s c fp (trapOf c 0x001#9)) ∧
        (v.toNat % 4096 = 0 → v.toNat < 2 ^ 57 → Retires (.attestRequest a st) s c fp (fun s' =>
          s' = { s with attest := some (s.attest.getD (asidOf s c.br, v.toNat)) })))) ∧
    (Issues s c f → (green = true → Traps (.tapesegAppend a st) s c f (trapOf c 0x084#9)) ∧
      (green = false →
        let t := c.br.tape
        (t.state = 0 → Traps (.tapesegAppend a st) s c f (trapOf c 0x14C#9)) ∧
        (t.state ≠ 0 → 16 ≤ t.segs.length → Retires (.tapesegAppend a st) s c f (fun s' => s' = setTape s c.b t)) ∧
        (t.state ≠ 0 → t.segs.length < 16 → v.toNat % 64 ≠ 0 → Traps (.tapesegAppend a st) s c f (segTrap c 0x0C1#9 v.toNat)) ∧
        (t.state ≠ 0 → t.segs.length < 16 → v.toNat % 64 = 0 → c.br.tapeLen.toNat % 64 = 0 → v.toNat < 2 ^ 57 → 2048 ≤ c.br.tapeLen.toNat →
          c.br.tapeLen.toNat ≤ 2 ^ 31 → v.toNat + c.br.tapeLen.toNat ≤ 2 ^ 57 → ∀ s1, walkPages s c (pagesOf v.toNat c.br.tapeLen.toNat) = (s1, .ok) →
          Retires (.tapesegAppend a st) s c f (fun s' => s' = setTape s1 c.b { t with segs := t.segs ++
            [{ base := v.toNat, len := c.br.tapeLen.toNat, stale := false
               first := (t.segs.getLast?.map (fun g => g.first + g.len / 64)).getD 0 }] })))))

/-- MODE and SRSEED. The model's choice (log entry 128): SRSEED takes effect at its issue. -/
def Obligations.ModeForms : Prop :=
  (∀ d st s c, let f0 := syncForm false st [] (some d)
    let old (c : Ctx) : W64 := BitVec.ofNat 64 (c.br.ten.toNat * 16 + (if c.br.sbc || c.br.det then 8 else 0) + c.br.rm.code.toNat)
    let sets (i : Instr) (f : Form) (g : Brick → Brick) : Prop :=
      Retires i s c f (Delivers (modBrick s c.b g) c f 2 [] false ((regsOf c.br).putUni c d (old c) false))
    (Issues s c f0 →
      (∀ m : Rm, m ≠ .rsr → m ≠ .dyn → sets (.modeRm d m st) f0 (fun br => { br with rm := m })) ∧
      (∀ m : Rm, m = .rsr ∨ m = .dyn → Traps (.modeRm d m st) s c f0 (trapOf c 0x002#9)) ∧
      (∀ k, sets (.modeTenSet d k st) f0 (fun br => { br with ten := br.ten ||| k }) ∧
        sets (.modeTenClr d k st) f0 (fun br => { br with ten := br.ten &&& ~~~k }))) ∧
    (∀ a, let f := syncForm false st [a] (some d)
      let v := c.u a
      Issues s c f →
      ((c.gov || c.uG a) = true → Traps (.modeReg d a st) s c f (trapOf c 0x084#9)) ∧
      ((c.gov || c.uG a) = false → 5 ≤ v.toNat % 8 → Traps (.modeReg d a st) s c f (trapOf c 0x002#9)) ∧
      ((c.gov || c.uG a) = false → ∀ m : Rm, m.code = v.extractLsb' 0 3 → v.toNat % 8 < 5 →
        sets (.modeReg d a st) f (fun br => { br with rm := m, ten := v.extractLsb' 4 5 })))) ∧
  (∀ a st s c, let f := syncForm false st [a] none
    let x := if c.u a = 0#64 then 0x5A17C3E90B6D24F1#64 else c.u a
    Issues s c f →
    ((c.gov || c.uG a) = true → Traps (.srseed a st) s c f (trapOf c 0x084#9)) ∧
    ((c.gov || c.uG a) = false →
      (c.br.det = true → Retires (.srseed a st) s c f (fun s' => s' = modBrick s c.b (fun br => { br with sr := x }))) ∧
      (c.br.det = false → Retires (.srseed a st) s c f (fun s' =>
        s' = modPart s (16 * c.br.core + c.br.part) (fun p => { p with sr := some x })))))

/-- The forms that enter, stop or leave. The model's choices: the bits of SY_TRAPRET that are used (log entry 51), structure 31 in
the log of RTE.kill (52), and that a launch has a debugger or none by a free choice (55). -/
def Obligations.TrapAndReturnForms : Prop :=
  ∀ st s c, let f := bareForm false false st .vec
    (∀ n : BitVec 7, Issues s c f → Traps (.trap n st) s c f (trapAux c 0x00C#9 (n.setWidth 64)) ∧
      ((launchOf s c.br).any (·.debugger) = false → Traps (.bkpt n st) s c f (trapAux c 0x00B#9 (n.setWidth 64))) ∧
      ((launchOf s c.br).any (·.debugger) = true →
        Retires (.bkpt n st) s c f (fun s' => s' = modBrick s c.b (fun br => { br with debug := true })))) ∧
    (Issues s c { f with priv := true } → Retires (.halt st) s c { f with priv := true } (fun s' => ∃ loc,
      s' = modBrick (logAdd { s with free := s.free + 1 } (dieOfCore c.br.core) 7 31 (some c.br.core) loc) c.b (fun br => { br with halted := true }))) ∧
    (Issues s c f → ∀ i, i = .rte st ∨ i = .rteKill st → c.inHandler = false →
      Traps i s c f (trapOf c (if c.br.prv then 0x00D#9 else 0x006#9))) ∧
    (Issues s c f → c.inHandler = true →
      exec (.rteKill st) s = .next (killBrick (stampSlot s c f) c.b (c.br.info.extractLsb' 55 9) 31) ∧
      (c.br.info.getLsbD 51 = true → exec (.rte st) s = .next (killBrick (stampSlot s c f) c.b (c.br.info.extractLsb' 55 9)
        (faultStruct (c.br.info.extractLsb' 55 9) c.br.aux0))) ∧
      (c.br.info.getLsbD 51 = false → ∃ s' br', exec (.rte st) s = .next s' ∧ HasBrick s' c.b br' ∧
        s'.mem = s.mem ∧ s'.lmem = s.lmem ∧ s'.mmeta = s.mmeta ∧ s'.lmeta = s.lmeta ∧
        br'.inSlot = false ∧ tabGet? br'.splits handlerSplit = none ∧
        (partOf s' (partKey c.br.core c.br.part)).slot ≠ some c.b ∧
        (∀ p t e, p < 64 → t < 32 → e < 2 → br'.half p t e = c.br.half p t e) ∧
        (∀ p t e, 64 ≤ p → t < 32 → e < 2 → br'.half p t e = Half.start) ∧
        (∀ p, p < 64 → br'.uniR p = c.br.uniR p) ∧ (∀ p, 64 ≤ p → br'.uniR p = UReg.start) ∧ br'.msk = c.br.msk ∧
        (∀ k, k ≠ handlerSplit → k ≠ c.br.repSplit → tabGet? br'.splits k = tabGet? c.br.splits k) ∧
        (c.br.repSplit ≠ handlerSplit → ∀ sp, tabGet? c.br.splits c.br.repSplit = some sp → sp.wait = none →
          tabGet? br'.splits c.br.repSplit = some { sp with pc := c.br.ret.toNat % 2 ^ 57 / 4 * 4 }) ∧
        br'.trap.isSome = !c.br.late.isEmpty ∧ br'.late = c.br.late.drop 1))

/-! ### Operations in flight, traps, waits and commits -/

/-- How operations in flight complete. The model's choices: lines stay in the tape's buffer until a spill (log entry 26), an access
is denied as it is performed (72), and all threads of one access in one step (22). -/
def Obligations.OperationsComplete : Prop :=
  ∀ s b br, HasBrick s b br →
  let ready (sel : FlightKind → Bool) := readyFlight s br sel
  let ended (f : Flight) : List Flight := dropDone (br.flights.map (fun g => if g.seq == f.seq then { g with done := true } else g)) []
  -- delivery
  (∀ f (d : Done), (d.late = none → HasBrick (deliver s b f d) b
      (finishFlight (orFxAll (applyWrites br d.writes) d.fx) f.seq) ∧
      ∀ ws fx, (finishFlight (orFxAll (applyWrites br ws) fx) f.seq).flights = ended f) ∧
    (∀ t, d.late = some t → ∃ br', HasBrick (deliver s b f d) b br' ∧
      (t.cause ≠ 0x147#9 → t.cause ≠ 0x14E#9 → br'.lane = br.lane ∧ br'.uni = br.uni ∧ br'.msk = br.msk ∧ br'.fx = br.fx) ∧
      (t.cause = 0x147#9 ∨ t.cause = 0x14E#9 → let x := orFxAll (applyWrites br d.writes) d.fx
        br'.lane = x.lane ∧ br'.uni = x.uni ∧ br'.msk = x.msk ∧ br'.fx = x.fx))) ∧
  -- loads
  (ready FlightKind.loads = none → exec (.loadComplete b) s = .next s) ∧
  (∀ f, ready FlightKind.loads = some f →
    (∀ ws late, f.kind = .regs ws late → exec (.loadComplete b) s = .next (deliver s b f ⟨ws, [], late⟩)) ∧
    (∀ accs dst gov, f.kind = .load accs dst gov → exec (.loadComplete b) s =
      .next (deliver (performLoad s b accs dst gov).1 b f (performLoad s b accs dst gov).2)) ∧
    (∀ reqs op ty rm p gov, f.kind = .atom reqs op ty rm (some p) gov → exec (.loadComplete b) s =
      .next (deliver (performAtom s b op ty (.det rm) (some p) gov reqs).1 b f (performAtom s b op ty (.det rm) (some p) gov reqs).2)) ∧
    (∀ puts m gov, f.kind = .tst puts m gov → exec (.loadComplete b) s =
      .next (deliver (performTst s b m gov puts).1 b f (performTst s b m gov puts).2)) ∧
    (∀ accs m gov retr, f.kind = (if retr then .retr accs m gov else .tcom accs m gov) → exec (.loadComplete b) s =
      .next (deliver (performCells s b m gov retr accs).1 b f (performCells s b m gov retr accs).2))) ∧
  -- stores and posted lines
  (ready FlightKind.stores = none → exec (.storePerformed b) s = .next s) ∧
  (∀ f, ready FlightKind.stores = some f →
    (∀ puts gov, f.kind = .store puts gov → exec (.storePerformed b) s =
      .next (deliver (performStore s b puts gov) b f { Done.empty with late := denial s (puts.map (·.acc)) })) ∧
    (∀ reqs op ty rm gov, f.kind = .atom reqs op ty rm none gov → exec (.storePerformed b) s =
      .next (deliver (performAtom s b op ty (.det rm) none gov reqs).1 b f { (performAtom s b op ty (.det rm) none gov reqs).2 with writes := [], fx := [] })) ∧
    (∀ lines green, let src := lines.map (·.1)
      deniedLines s lines true = [] →
      (∀ s1 d, readSource s b green src = (s1, some d) →
        (f.kind = .putw lines none green → exec (.storePerformed b) s = .next (setKind s1 b f.seq (.putw lines (some d) green) f.due)) ∧
        (∀ fva flag add v anyG, f.kind = .sigw lines none fva flag add v green anyG →
          exec (.storePerformed b) s = .next (setKind s1 b f.seq (.sigw lines (some d) fva flag add v green anyG) f.due))) ∧
      (∀ s1, readSource s b green src = (s1, none) →
        (f.kind = .putw lines none green ∨ ∃ fva flag add v anyG, f.kind = .sigw lines none fva flag add v green anyG) →
        exec (.storePerformed b) s = .next (endFlight (reportTrap s1 b f (poisonOf (poisonedSource s1 src))) b f.seq))) ∧
    (∀ l rest x xs green, deniedLines s (l :: rest) false = [] → let s1 := putLine s b x l.2.2
      (f.kind = .putw (l :: rest) (some (x :: xs)) green → exec (.storePerformed b) s =
        .next (if rest = [] then endFlight s1 b f.seq else setKind s1 b f.seq (.putw rest (some xs) green) f.due)) ∧
      (∀ fva flag add v anyG, f.kind = .sigw (l :: rest) (some (x :: xs)) fva flag add v green anyG → exec (.storePerformed b) s =
        .next (setKind s1 b f.seq (.sigw rest (some xs) fva flag add v green (anyG || x.2)) f.due)))) ∧
  -- versioned attempts
  (ready FlightKind.attempts = none → exec (.ldtvAttempt b) s = .next s) ∧
  (∀ f, ready FlightKind.attempts = some f →
    (∀ pa va accs p gov n, f.kind = .ldtv pa va accs p gov n → exec (.ldtvAttempt b) s =
      .next (afterAttempt b f s.clk (attemptLdtv s b (fun s => applyOwn s b (br.flights.filter (fun g => decide (g.seq < f.seq)))) pa va accs p gov n))) ∧
    (∀ pa va twin puts tw gov n stage, f.kind = .aon pa va twin puts tw gov n stage → exec (.ldtvAttempt b) s =
      .next (afterAttempt b f s.clk (attemptAon s b br pa va twin puts tw gov n stage)))) ∧
  -- fills and flags
  (ready FlightKind.fills = none → exec (.hodSlotPerformed b) s = .next s) ∧
  (∀ f, ready FlightKind.fills = some f → ∀ o n src green, f.kind = .hodPut o (some n) src green → src ≠ [] → (∀ l ∈ src, outCheck s l = none) →
    ∀ s1 lines, readSource s b green src = (s1, some lines) →
      exec (.hodSlotPerformed b) s = .next (endFlight (fillSlot s1 o n lines) b f.seq)) ∧
  (ready FlightKind.signals = none → exec (.sigwFlagUpdate b) s = .next s) ∧
  (∀ f, ready FlightKind.signals = some f → ∀ data va flag add v green anyG, f.kind = .sigw [] data va flag add v green anyG → outCheck s flag = none →
    let r := signalFlag s b flag add v anyG
    let t := endFlight r.1 b f.seq
    (r.2 = none → exec (.sigwFlagUpdate b) s = .next t) ∧
    (∀ x, r.2 = some x → x.cause = 0x146#9 ∧ exec (.sigwFlagUpdate b) s = .next (endFlight (reportTrap r.1 b f x) b f.seq)) ∧
    ((metaAt s flag.line).psn = true → r.2 ≠ none ∧ r.1.mem = s.mem ∧ r.1.lmem = s.lmem) ∧
    ((metaAt s flag.line).err = [] → (metaAt s flag.line).psn = false → flag.inLine % 8 = 0 → r.2 = none ∧
      leNat (readBytes t flag 8) = (if add then (leNat (readBytes s flag 8) + v.toNat) % 2 ^ 64 else v.toNat))) ∧
  -- the tape
  (bufferOver s br = false →
    (openFlight br .tapeRec = none → exec (.tapeRecordComplete b) s = .next s) ∧
    (∀ f, openFlight br .tapeRec = some f → exec (.tapeRecordComplete b) s = .next (endFlight s b f.seq))) ∧
  (bufferOver s br = true → ∀ s1 x, spillFirst s b br = (s1, x) → (∀ cause va, x ≠ .refused cause va) → exec (.tapeRecordComplete b) s = .next s1) ∧
  (bufferOver s br = true → ∀ s1 cause va, spillFirst s b br = (s1, .refused cause va) →
    exec (.tapeRecordComplete b) s = .next (refuseLine s1 b (openFlight br .tapeRec) cause va)) ∧
  (openFlight br .tapeSeal = none → exec (.tapeSealComplete b) s = .next s) ∧
  (∀ f, openFlight br .tapeSeal = some f → tapeQuiet br f.seq = true → ∀ s1, spillTape s b = (s1, .all) →
    exec (.tapeSealComplete b) s = .next (endFlight s1 b f.seq)) ∧
  -- arrivals
  (br.arrMarks = [] → exec (.arrivalCounted b) s = .next s) ∧
  (∀ m, br.arrMarks = [m] → br.det = false → countable s b br = true → (barAt s m.bar).ab = false → (barAt s m.bar).odd = [] → (∀ x, barAt (putBar s m.bar x) m.bar = x) →
    let x := barAt s m.bar
    ∃ t, exec (.arrivalCounted b) s = .next t ∧
      (x.a + 1 < x.e → (barAt t m.bar).a = x.a + 1 ∧ (barAt t m.bar).p = x.p ∧ (barAt t m.bar).phase = x.phase) ∧
      (x.e ≤ x.a + 1 → (barAt t m.bar).a = 0 ∧ (barAt t m.bar).p = !x.p ∧ (barAt t m.bar).phase = x.phase + 1 ∧
        (barAt t m.bar).e = x.e - x.exits))

/-- The steps of traps. The model's choices: a vector of 0 is no handler (log entry 54), the window opens with the flag's write
(78), what the slot waits for (31), and the faults that a scrub meets (119). -/
def Obligations.TrapStepsComplete : Prop :=
  ∀ s b br, HasBrick s b br →
  ((∀ p ∈ br.fxq, s.clk < p.due) → exec (.fxFlagWrite b) s = .next s) ∧
  (∀ p, br.fxq.find? (fun p => decide (p.due ≤ s.clk)) = some p → (∀ w, br.window = some w → s.clk < w + 16) → ∃ t br', exec (.fxFlagWrite b) s = .next t ∧ HasBrick t b br' ∧
    SameMemory s t ∧ br'.fxq = br.fxq.erase p ∧
    (∀ i, br'.fxOf i = p.fx.foldl (fun fl x => if x.1 = i then fl ||| x.2 else fl) (br.fxOf i)) ∧
    ((∀ x ∈ p.fx, x.2 &&& p.ten = flagNone) → br'.window = br.window ∧ br'.winExc = br.winExc ∧ br'.trap = br.trap) ∧
    ((∃ x ∈ p.fx, x.2 &&& p.ten ≠ flagNone) →
      let e : WinExc := { pc := p.pc, two := p.two, split := p.split, fx := p.fx, ten := p.ten, seq := p.seq }
      (br.window = none → br.trap = none → br'.window = some s.clk ∧ br'.winExc = [e]) ∧
      (∀ w, br.window = some w → br'.window = some w ∧ br'.winExc = br.winExc ++ [e]))) ∧
  ((br.window = none ∨ ∃ w, br.window = some w ∧ s.clk < w + 16) → exec (.collectionWindowClose b) s = .next s) ∧
  (∀ w, br.window = some w → w + 16 ≤ s.clk → br.trap = none → br.inSlot = false →
    (∃ e ∈ br.winExc, e.pc = (br.winExc.map (·.pc)).foldl min ((br.winExc.map (·.pc)).headD 0) ∧ ∃ x ∈ e.fx, x.2 &&& e.ten ≠ flagNone) →
    ∃ t br' r, exec (.collectionWindowClose b) s = .next t ∧ HasBrick t b br' ∧ br'.window = none ∧ br'.winExc = [] ∧
      br'.trap = some r ∧ r.cycle = s.clk ∧ r.prec = false ∧ r.fatal = false ∧ 0x040#9 ≤ r.cause ∧ r.cause ≤ 0x044#9 ∧
      (∃ e ∈ br.winExc, e.pc = r.addr) ∧ (∀ e ∈ br.winExc, r.addr ≤ e.pc) ∧
      (r.more = true ↔ ∃ e ∈ br.winExc, e.pc ≠ r.addr)) ∧
  ((∀ d ∈ br.divq, s.clk < d.due) → exec (.shadowDivergence b) s = .next s) ∧
  (∀ write bit rest, s.faultsIn = [.datapath b write bit] :: rest →
    exec .controlScrub s = .next (modBrick { s with faultsIn := rest } b (fun br => { br with dpFault := some (write, bit) }))) ∧
  (∀ d, br.divq.find? (fun d => decide (d.due ≤ s.clk)) = some d → br.inSlot = false → br.trap = none → br.killed = false → br.threads ≠ 0#32 →
    ∃ t br' r, exec (.shadowDivergence b) s = .next t ∧ HasBrick t b br' ∧ br'.divq = br.divq.erase d ∧ br'.trap = some r ∧
      r.cause = 0x04A#9 ∧ r.prec = false ∧ r.fatal = d.fatal ∧ r.addr = d.pc ∧ r.ret = d.pc ∧ r.thread = d.thread ∧ r.aux0 = d.main ∧
      r.aux1 = d.shadow.setWidth 64) ∧
  (br.trap = none → exec (.trapSlotEntry b) s = .next s) ∧
  (∀ r, br.trap = some r → slotReady s br = false → exec (.trapSlotEntry b) s = .next s) ∧
  (∀ r, br.trap = some r → slotReady s br = true → br.vec = 0 →
    exec (.trapSlotEntry b) s = .next (killBrick s b r.cause (faultStruct r.cause r.aux0))) ∧
  (∀ r s1, br.trap = some r → slotReady s br = true → br.vec ≠ 0 →
    landing s ⟨b, handlerSplit, br, handlerOf s br⟩ br.vec = (s1, .ok) →
    ∃ t br' sp, exec (.trapSlotEntry b) s = .next t ∧ HasBrick t b br' ∧ Walked s { t with bricks := s.bricks, parts := s.parts } ∧
      (partOf t (partKey br.core br.part)).slot = some b ∧ br'.inSlot = true ∧ br'.trap = none ∧
      br'.info.extractLsb' 55 9 = r.cause ∧ br'.info.getLsbD 54 = r.two ∧ br'.info.getLsbD 53 = r.prec ∧ br'.info.getLsbD 52 = r.more ∧
      br'.info.getLsbD 51 = r.fatal ∧ br'.info.extractLsb' 45 6 = r.reg ∧
      br'.addr = BitVec.ofNat 64 r.addr ∧ br'.tmask = r.mask.setWidth 64 ∧ br'.aux0 = r.aux0 ∧ br'.aux1 = r.aux1 ∧
      (r.prec = true → br'.ret = BitVec.ofNat 64 r.ret) ∧
      (∀ p i e, p < 64 → i < 32 → e < 2 → br'.half p i e = br.half p i e) ∧
      (∀ p i e, 64 ≤ p → i < 32 → e < 2 → br'.half p i e = Half.start) ∧
      tabGet? br'.splits handlerSplit = some sp ∧ sp.pc = br.vec.toNat ∧ sp.mask = br.threads ∧ sp.stack = [] ∧ sp.governed = false ∧
      (∀ k, k ≠ handlerSplit → tabGet? br'.splits k = (tabGet? br.splits k).map (fun sp =>
        if k = r.split ∧ r.atIssue = true ∧ r.cause = 0x144#9 then { sp with tapeFault := false } else sp)) ∧
      br'.tfault = (if r.atIssue then spendAnswer r.split br.tfault else br.tfault)) ∧
  (br.alive = false → exec (.brickKill b) s = .next s) ∧
  (br.alive = true → ∃ t br', exec (.brickKill b) s = .next t ∧
    t = killBrick s b ((br.trap.map (·.cause)).getD 0) 31 ∧ HasBrick t b br' ∧ br'.killed = true ∧ br'.alive = false ∧
    br'.splits = [] ∧ br'.pend = [] ∧ br'.marks = [] ∧ br'.trap = none)

/-- Waits, commits and queues. What an entry of the array's queue does is RunsEntry and ArrayArithmetic (R213, R219, R221,
R223–R227). The model's choices: the order at one time T (log entry 80), the effect as the array takes an entry (43), and the
rendezvous that fails (45). -/
def Obligations.WaitsCommitsAndArray : Prop :=
  (∀ s b br k sp, HasBrick s b br → tabGet? br.splits k = some sp →
    (sp.wait.bind (·.sync) = none → exec (.syncOpEvaluate b k) s = .next s) ∧
    (∀ w T, sp.wait = some w → w.sync = some T → (deadlocked s br.launch && isLastBrick s br) = false →
      let c := waitCtx b k br sp w
      (syncReady s c T = false → exec (.syncOpEvaluate b k) s = .next s) ∧
      (syncReady s c T = true →
        (∀ s1 ws, syncTry s c w = .done s1 ws → exec (.syncOpEvaluate b k) s = .next (finishWait s1 c w ws)) ∧
        (∀ s1, syncTry s c w = .sent s1 → exec (.syncOpEvaluate b k) s = .next s1) ∧
        (∀ s1 op, syncTry s c w = .again s1 op true → exec (.syncOpEvaluate b k) s = .next (modSplit s b k (fun sp => { sp with held := s.clk + 1 }))) ∧
        (∀ s1 t, syncTry s c w = .trap s1 t → exec (.syncOpEvaluate b k) s = .next (trapWait s1 c w t)) ∧
        (∀ s1 op br1, k ≠ handlerSplit → syncTry s c w = .again s1 op false → HasBrick s1 b br1 → tabGet? br1.splits k = some sp →
          ∃ t br' sp', exec (.syncOpEvaluate b k) s = .next t ∧ HasBrick t b br' ∧ br'.L = max br1.L (T + qOf s br) ∧
            tabGet? br'.splits k = some sp' ∧ sp'.pc = sp.pc ∧ sp'.wait = some { w with op := op, sync := some (T + qOf s br) })))) ∧
  (∀ s key l, tabGet? s.launches key = some l →
    (nextCommit s key = none → exec (.courseCommit key) s = .next s) ∧
    (∀ T, nextCommit s key = some T → (∀ e ∈ pendingEnds s key, T ≤ e) ∧
      (commitReady s key T = false → exec (.courseCommit key) s = .next s) ∧
      (commitReady s key T = true → exec (.courseCommit key) s = .next (commitBricks s T (bricksById s key))))) ∧
  (∀ s b br f puts gov, HasBrick s b br → f.kind = .store puts gov → denial s (puts.map (·.acc)) = none → commitFlight s b br f = endFlight (performStore s b puts gov) b f.seq) ∧
  (∀ s core, core < 128 →
    ((coreOf s core).queue = [] → exec (.arrayRun core) s = .next s) ∧
    (∀ e l, (coreOf s core).queue = e :: l →
      ((e.isQuad = true ∨ s.clk < (coreOf s core).busy) → exec (.arrayRun core) s = .next s) ∧
      (e.isQuad = false → (coreOf s core).busy ≤ s.clk → exec (.arrayRun core) s = .next (runEntry (popQueue s core) core e) ∧
        (coreOf (runEntry (popQueue s core) core e) core).queue = l)) ∧
    ((coreOf s core).reqs = [] → exec (.accallocGrant core) s = .next s) ∧
    (∀ r l, (coreOf s core).reqs = r :: l →
      (canGrant s r.brick r.n = false → exec (.accallocGrant core) s = .next s) ∧
      ((waitOf s r.brick r.split).any (·.sync.isSome) = true → exec (.accallocGrant core) s = .next s) ∧
      (canGrant s r.brick r.n = true → (waitOf s r.brick r.split).all (·.sync.isNone) = true → exec (.accallocGrant core) s = .next (serveBanks (modCore s core (fun x => { x with reqs := l })) r)))) ∧
  (∀ s quad, quad < 32 →
    let hs := quadHeads s quad
    (hs = [] → exec (.quadRendezvous quad) s = .next s) ∧
    (∀ x, owedHead s quad = some x → exec (.quadRendezvous quad) s = .next (failOwed s x)) ∧
    (owedHead s quad = none → hs ≠ [] → quadBroken s quad = true → exec (.quadRendezvous quad) s = .next (failQuad (oweQuad s quad hs) 0x100#9 hs)) ∧
    (owedHead s quad = none → quadBroken s quad = false → hs.length = 4 → (∀ x ∈ hs, (coreOf s x.1).busy ≤ s.clk) →
      ((∀ x ∈ hs, x.2.ty = (hs.head?.bind (fun y => y.2.ty))) → exec (.quadRendezvous quad) s =
        .next (hs.foldl (fun s x => runEntry (popQueue s x.1) x.1 (joinB (hs.map (·.2)) x.2)) s)) ∧
      ((∃ x ∈ hs, x.2.ty ≠ (hs.head?.bind (fun y => y.2.ty))) → exec (.quadRendezvous quad) s = .next (failQuad s 0x142#9 hs)))) ∧
  (∀ s core e, RunsEntry s core e) ∧ ArrayArithmetic

/-! ### Engines, launches, the outside, the module's services -/

/-- The steps of the engines. The model's choices: the order and checksum of a command's spans (log entry 58), the lanes (59), what
an invalidation waits for (61), refused places (121). -/
def Obligations.EngineStepsComplete : Prop :=
  (∀ s b, (nextCopy s b = none → exec (.copySpan b) s = .next s) ∧
    (∀ id x0 w, nextCopy s b = some (id, x0) → tabGet? s.walls x0.wall = some w →
      let x := if x0.ck && x0.sum.isNone then { x0 with sum := some (((tabGet? s.bricks x0.brick).bind (·.chain)).getD 0) } else x0
      let k := min (64 - (x.dst.2 + x.pos) % 64) (x.len - x.pos)
      let i := Instr.copySpan b
      (∀ s1, copyPlaces s x w kRead x.src.1 (x.src.2 + x.pos) k 3 = .bad s1 → exec i s = .next (endCopy s1 id x 3)) ∧
      (∀ s1 va, copyPlaces s x w kRead x.src.1 (x.src.2 + x.pos) k 3 = .fault s1 va → exec i s = .next (copyFault s1 id x w.die kRead va)) ∧
      (∀ s1 src, copyPlaces s x w kRead x.src.1 (x.src.2 + x.pos) k 3 = .ok s1 src →
        let out := if x.hod.isSome then Pieces.ok s1 [] else copyPlaces s1 x w kWrite x.dst.1 (x.dst.2 + x.pos) k 3
        (∀ s2, out = .bad s2 → exec i s = .next (endCopy s2 id x 4)) ∧
        (∀ s2 va, out = .fault s2 va → exec i s = .next (copyFault s2 id x w.die kWrite va)) ∧
        (∀ s2 dst, out = .ok s2 dst →
          let refused := fun (l : List Loc) => ∃ p ∈ l, outCheck s2 p ≠ none
          ((src ++ dst).any (locDown s2) = true → exec i s = .next { s2 with copies := tabPut s2.copies id { x with due := s2.clk + 1 } }) ∧
          ((src ++ dst).any (locDown s2) = false →
            (refused src → exec i s = .next (endCopy s2 id x 3)) ∧
            (¬ refused src → refused dst → exec i s = .next (endCopy s2 id x 4)) ∧
            (¬ refused src → ¬ refused dst →
              (∀ s3, copyRead s2 x.brick src = (s3, none) → exec i s = .next (endCopy s3 id x 6)) ∧
              (∀ s3 bytes g, copyRead s2 x.brick src = (s3, some (bytes, g)) →
                (2 ≤ x.lane → ∃ s4, crossLanes s3 x w.die src = (s4, false) ∧ s4.bricks = s3.bricks ∧ s4.mem = s3.mem ∧
                  exec i s = .next (endCopy s4 id x 8)) ∧
                (x.lane ≤ 1 → ∃ s4, crossLanes s3 x w.die src = (s4, true) ∧ s4.bricks = s3.bricks ∧ s4.mem = s3.mem ∧ (x.lane = 0 → s4 = s3) ∧
                  ((g || x.green) = true → dst.any Loc.isHost = true → exec i s = .next (endCopy s4 id x 5)) ∧
                  ((g || x.green) = false ∨ dst.any Loc.isHost = false → exec i s = .next (copyWrite s4 id x dst bytes (g || x.green))))))))))) ∧
  (∀ s id x dst bytes green, x.hod = none → x.flip = none →
    let t := copyWrite s id x dst bytes green
    (x.pos + bytes.length < x.len → ∃ y, tabGet? t.copies id = some y ∧ y.pos = x.pos + bytes.length ∧
      y.sum = (if x.ck then some (fletcherSum (x.sum.getD 0) bytes) else x.sum)) ∧
    (x.len ≤ x.pos + bytes.length → tabGet? t.copies id = none ∧ ∀ br, HasBrick s x.brick br → ∃ br' st, HasBrick t x.brick br' ∧
      br'.cstats.head? = some st ∧ st.num = x.num ∧ st.bytes = x.pos + bytes.length ∧
      st.code = (if x.cmp = true ∧ (if x.ck then fletcherSum (x.sum.getD 0) bytes else x.sum.getD 0) ≠ x.expect then 2 else 1))) ∧
  (∀ s b, (acceptableCopy s b = none → exec (.copyHodAccept b) s = .next s) ∧
    (∀ id x o n, acceptableCopy s b = some (id, x) → x.hod = some (o, n) →
      ((hodAt s o).closed = false → exec (.copyHodAccept b) s =
        .next { putHod s o { hodAt s o with tail := (hodAt s o).tail + 1 } with
          copies := tabPut s.copies id { x with hod := some (o, some (hodAt s o).tail), started := true } }) ∧
      ((hodAt s o).closed = true → exec (.copyHodAccept b) s = .next (endCopy s id
        { x with hod := none, sum := (if x.ck then some (((tabGet? s.bricks x.brick).bind (·.chain)).getD 0) else none) } 7)))) ∧
  (∀ s b br, HasBrick s b br →
    (br.flights = [] → exec (.tlbiComplete b) s = .next s) ∧
    (∀ f l all base len asid sp removed waits, br.flights = f :: l → f.done = false → f.kind = .tlbi all base len asid sp removed waits →
      (removed = false → f.tEnd = none → br.flights.all (fun g => decide (g.seq ≥ f.seq) || g.done || !g.kind.isEngineWrite) = true →
        ∃ t, exec (.tlbiComplete b) s = .next t ∧ t.mem = s.mem ∧
          ∀ e ∈ t.tlb, e ∈ s.tlb ∧ ¬(e.asid = asid ∧ dieInScope sp (dieOfCore br.core) (cacheDie e.cache) = true ∧
            (all = true ∨ e.meets base len = true))) ∧
      (removed = true → waits.all (drained s) = true → ∃ t br', exec (.tlbiComplete b) s = .next t ∧ HasBrick t b br' ∧
        t.tlb = s.tlb ∧ t.mem = s.mem ∧ br'.flights = dropDone (br.flights.map (fun g => if g.seq == f.seq then { g with done := true } else g)) [])) ∧
    (∃ t br', exec (.rfenceMarkerDone b) s = .next t ∧ HasBrick t b br' ∧ SameMemory s t ∧
      ∀ k sp w seqs, tabGet? br.splits k = some sp → sp.wait = some w → w.op = .rfence seqs →
        tabGet? br'.splits k = some (if ∀ f ∈ br.flights, f.seq ∈ seqs → f.done = true then { sp with wait := some { w with op := .give 0 0 false } } else sp)) ∧
    (∀ r, br.flights.find? (answerable s b r) = none → exec (.negativeResponse b r) s = .next s) ∧
    (∀ r f, br.flights.find? (answerable s b r) = some f → ∃ s1 bad, s1 = { s with free := s1.free } ∧
      (∀ a ∈ bad, a ∈ f.kind.accs ∧ a.loc.isRemote = true) ∧ (f.kind.remote = true → bad ≠ []) ∧
      exec (.negativeResponse b r) s = .next (denyFlight s1 b f (if r then 0x147#9 else 0x14E#9) bad))) ∧
  (∀ s inst x remote, tabGet? s.colls inst = some x →
    let all := (x.parties.filter (·.joined)).map (fun p => p.contrib s.module) ++ remote
    (x.failed ≠ none → exec (.collectiveComplete inst remote) s = .next s) ∧
    (x.failed = none → x.result = none →
      (agreeAll all = false → exec (.collectiveComplete inst remote) s = .next (failColl s inst x 0x14D#9 (fun _ => false))) ∧
      (∀ y l, all = y :: l → agreeAll all = true →
        (all.length ≠ ctrlP y.ctrl → exec (.collectiveComplete inst remote) s = .next s) ∧
        (all.length = ctrlP y.ctrl → exec (.collectiveComplete inst remote) s = .next (deliverColl s inst x (collOut all))))))

/-- The steps of launches and walls. The model's choices: a saved wall returns to its own core and base (log entry 66), the status
of a badly placed record (64), the free delay (90). -/
def Obligations.LaunchStepsComplete : Prop :=
  (∀ s die, (takeSubmit s.clk die s.submits = none → exec (.launchAccept die) s = .next s) ∧
    (∀ sub l, takeSubmit s.clk die s.submits = some (sub, l) → sub.die = die ∧ sub.due ≤ s.clk ∧
      exec (.launchAccept die) s = .next (acceptSubmit { s with submits := l } sub) ∧
      (sub.va % 64 ≠ 0 → exec (.launchAccept die) s = .next (tellLauncher { s with submits := l } sub 0x105#64)))) ∧
  (∀ s sub s1 s2 bytes l, sub.va % 64 = 0 → siteRead ⟨sub.die, sub.asid, sub.prv⟩ stMalformed sub.va 64 s = .ok bytes s1 →
    acceptRecord sub (recOf bytes) s1 = .ok l s2 → tabGet? (acceptSubmit s sub).launches s2.nextL = some l) ∧
  (∀ s key l, tabGet? s.launches key = some l →
    (admissible s l = false → exec (.launchAdmit key) s = .next s) ∧
    (admissible s l = true → ∃ t l', exec (.launchAdmit key) s = .next t ∧ tabGet? t.launches key = some l' ∧
      l' = { l with admitted := true, wins := l'.wins } ∧ t.bricks = s.bricks) ∧
    (launchOver s key l = false → exec (.launchDone key) s = .next s) ∧
    (launchOver s key l = true → ∃ t, exec (.launchDone key) s = .next t ∧ tabGet? t.launches key = none ∧
      (∀ x ∈ t.walls, x ∈ s.walls ∧ x.2.launch ≠ key) ∧ (∀ x ∈ t.bricks, x ∈ s.bricks ∧ x.2.launch ≠ key))) ∧
  (∀ s die, (placeable s die = none → exec (.wallPlace die) s = .next s) ∧
    (∀ key l wid core base ps, placeable s die = some (key, l, wid, core, base, ps) → ∃ t w, exec (.wallPlace die) s = .next t ∧
      tabGet? t.walls s.nextW = some w ∧ w.launch = key ∧ w.wid = wid ∧ w.core = core ∧ w.lbase = base ∧ w.stop = false ∧ w.saved = false ∧
      w.ended = false ∧ t.mem = s.mem ∧
      (base + l.lbytes ≤ 2 ^ 20 → ∀ off, off < l.lbytes → byteAt t (.loc core (base + off)) = 0))) ∧
  (∀ launch l r x, let br := Brick.start launch l r x
    br.threads = 0xFFFFFFFF#32 ∧ br.L = 0 ∧ br.tape.state = 0 ∧ br.flights = [] ∧ br.trap = none ∧
    (∃ sp, br.splits = [(0, sp)] ∧ sp.pc = l.text + r.entry ∧ sp.mask = 0xFFFFFFFF#32 ∧ sp.stack = [] ∧ sp.governed = false) ∧
    (∀ p t e, (br.half p t e).u = true ∧ (br.half p t e).g = false) ∧ (∀ p, (br.uniR p).g = false) ∧ (∀ m, (br.mskR m).g = 0) ∧
    (∀ i, i < l.args.length → br.uniR (i + 1) = ⟨l.args.getD i 0, false⟩) ∧ (∀ i, l.args.length < i → br.uniR i = ⟨0, false⟩)) ∧
  (∀ s die, (savable s die = none → nextVictims s die = none → exec (.preempt die) s = .next s) ∧
    (∀ vs, savable s die = none → nextVictims s die = some vs → exec (.preempt die) s =
      .next { s with walls := s.walls.map (fun w => if vs.contains w.1 then (w.1, { w.2 with stop := true }) else w) }) ∧
    (∀ k w s1 w1, savable s die = some (k, w) → spillWall s (wallBricks s k) = (s1, true) → tabGet? s1.walls k = some w1 →
      ∃ t w', exec (.preempt die) s = .next t ∧ tabGet? t.walls k = some w' ∧ w'.saved = true ∧ w'.stop = false ∧ w'.core = w1.core ∧ w'.lbase = w1.lbase)) ∧
  (∀ s wall w, tabGet? s.walls wall = some w →
    (restorable s wall w = false → exec (.wallRestore wall) s = .next s) ∧
    (restorable s wall w = true → ∃ t w', exec (.wallRestore wall) s = .next t ∧ tabGet? t.walls wall = some w' ∧ w'.saved = false ∧
      w'.stop = false ∧ w'.core = w.core ∧ w'.lbase = w.lbase))

/-- The steps that come from outside. The model's choices: LOST alone while busy (log entry 74), the key check in one step (72), the
retries in a row (73), the other modules' keys (117). -/
def Obligations.OutsideStepsComplete : Prop :=
  (∀ s, hostCut s = true → (∀ v, exec (.lrecSubmit v) s = .next s) ∧ (∀ v, exec (.wstatClear v) s = .next s) ∧
    (∀ pa bytes, exec (.hostWrite pa bytes) s = .next s) ∧ (∀ pa n, exec (.hostRead pa n) s = .next s)) ∧
  (∀ s (v : BitVec 64), hostCut s = false →
    (hostBusy s = true → exec (.lrecSubmit v) s = .next { s with lost := true }) ∧
    (hostBusy s = false → 2 ^ 57 ≤ v.toNat → exec (.lrecSubmit v) s = .next { s with bad := true }) ∧
    (hostBusy s = false → v.toNat < 2 ^ 57 → ∃ t sub, exec (.lrecSubmit v) s = .next t ∧ t.acc = s.acc + 1 ∧ t.lost = s.lost ∧ t.bad = s.bad ∧
      t.submits = s.submits ++ [sub] ∧ sub.va = v.toNat ∧ sub.asid = s.lasid.toNat ∧ sub.die = 0 ∧ sub.prv = true ∧ sub.by_ = none ∧ s.clk < sub.due)) ∧
  (∀ s (v : BitVec 3), hostCut s = false → exec (.wstatClear v) s = .next { s with lost := s.lost && !v.getLsbD 1, bad := s.bad && !v.getLsbD 2 }) ∧
  (∀ s (pa : BitVec 56) bytes, hostCut s = false → inHostWindow pa.toNat = false → (∀ i, i < bytes.length → isNearPa (pa.toNat + i) = true ∨ isFarPa (pa.toNat + i) = true) →
    pa.toNat % 64 + bytes.length ≤ 64 → (metaAt s (Loc.phys pa.toNat).line).err = [] → (metaAt s (Loc.phys pa.toNat).line).psn = false →
    ∃ t, exec (.hostWrite pa bytes) s = .next t ∧ t.bricks = s.bricks ∧ readBytes t (.phys pa.toNat) bytes.length = bytes ∧
      (∀ a, (∀ i, i < bytes.length → a ≠ pa.toNat + i) → byteAt t (.phys a) = byteAt s (.phys a))) ∧
  (∀ s (pa : BitVec 56) n, hostCut s = false → (∀ i, i < n → isNearPa (pa.toNat + i) = true ∨ isFarPa (pa.toNat + i) = true) →
    (∀ i, i < n → (metaAt s (Loc.phys (pa.toNat + i)).line).err = [] ∧ (metaAt s (Loc.phys (pa.toNat + i)).line).psn = false) →
    ∃ t, exec (.hostRead pa n) s = .next t ∧ t.mem = s.mem ∧ t.bricks = s.bricks ∧
      t.sent = s.sent ++ [.hostData pa.toNat (readBytes s (.phys pa.toNat) n)]) ∧
  (∀ s link, link < 19 → let x := tabGetD s.links link ⟨0, false⟩
    (∃ t y, exec (.flitCrcRetry link) s = .next t ∧ tabGetD t.links link ⟨0, false⟩ = y ∧ t.bricks = s.bricks ∧ SameMemory s t ∧
      (y = ⟨0, true⟩ ∧ 15 ≤ x.retries ∨ y.out = x.out ∧ (y.retries = 1 ∨ y.retries = x.retries + 1) ∧ y.retries < 16)) ∧
    (∃ t, exec (.linkRestore link) s = .next t ∧ tabGetD t.links link ⟨0, false⟩ = ⟨0, false⟩)) ∧
  (∀ s key, ∃ t, exec (.keyRevoke key) s = .next t ∧ t.badKeys.contains key = true ∧ (∀ k, k ≠ key → t.badKeys.contains k = s.badKeys.contains k) ∧
    t.key = s.key ∧ t.keyPart = s.keyPart) ∧
  (∀ s key part, ∃ t, exec (.keyAssign key part) s = .next t ∧ partitionOf t key = some part ∧ moduleKey t s.module.toNat = key ∧
    t.key = key ∧ t.keyPart = part ∧ keyValid t = true) ∧
  (∀ s (req : RemoteReq) part, req.kind = .assigned part → ∃ t, exec (.fabricRequestArrival req) s = .next t ∧
    partitionOf t req.key = some part ∧ moduleKey t req.module.toNat = req.key ∧ (req.module ≠ s.module → t.key = s.key ∧ t.keyPart = s.keyPart)) ∧
  (∀ s (req : RemoteReq), let pa := ownPa s req.pa.toNat
    let i := Instr.fabricRequestArrival req
    let sent (x : Sent) : State := { s with sent := s.sent ++ [x] }
    (∀ bytes bad, req.kind ≠ .theirs bytes bad) → (∀ part, req.kind ≠ .assigned part) →
    (req.key ≠ moduleKey s req.module.toNat ∨ partitionOf s req.key = none → exec i s = .next (sent (.fabricRefused req.module true))) ∧
    (req.key = moduleKey s req.module.toNat → partitionOf s req.key ≠ none → keyValid s = false ∨ partitionOf s req.key ≠ partitionOf s s.key →
      exec i s = .next (sent (.fabricRefused req.module false))) ∧
    (req.key = moduleKey s req.module.toNat → keyValid s = true → partitionOf s req.key = partitionOf s s.key →
      (isNearPa pa || isFarPa pa || inWindow s pa) = true →
      exec i s = .next (performRemote s req pa) ∧
      (∀ n, req.kind = .load n → (metaAt s (Loc.phys pa).line).err = [] → (metaAt s (Loc.phys pa).line).psn = false →
        ∃ t, exec i s = .next t ∧ t.mem = s.mem ∧ t.bricks = s.bricks ∧
          t.sent = s.sent ++ [.fabricData req.module pa (readBytes s (.phys pa) n) (req.green || lineG s (.phys pa))])))

/-- The steps of the module's services. The model's choices: the quote on pages without access (log entry 81), all dies in reset
when die 0 fails (82), the scrub's list of faults (119). -/
def Obligations.ServiceStepsComplete : Prop :=
  (∀ s, ((dieState s 0).booted = true → exec .powerOnBoot s = .next s) ∧
    ((dieState s 0).booted = false → dieVerifies 0 = true → ∃ t, exec .powerOnBoot s = .next t ∧
      (∀ d, d < 4 → (dieState t d).booted = dieVerifies d ∧ (dieState t d).ok = dieVerifies d) ∧ t.bricks = s.bricks ∧ t.mem = s.mem) ∧
    ((dieState s 0).booted = false → dieVerifies 0 = false → ∃ t, exec .powerOnBoot s = .next t ∧
      (∀ d, d < 4 → (dieState t d).ok = false)) ∧
    (s.faultsIn = [] → exec .controlScrub s = .next s) ∧
    (∀ core bank rest, s.faultsIn = [.bank core bank true] :: rest →
      ∃ t, exec .controlScrub s = .next t ∧ (bankAt t core bank).psn = true ∧ t.faultsIn = rest ∧ t.bricks = s.bricks ∧ t.mem = s.mem) ∧
    (∀ core bank rest, s.faultsIn = [.bank core bank false] :: rest →
      ∃ t, exec .controlScrub s = .next t ∧ t.cores = s.cores ∧ t.faultsIn = rest ∧ t.bricks = s.bricks ∧ t.mem = s.mem) ∧
    (s.attest = none → exec .attestQuote s = .next s) ∧
    (quoteReady s = false → exec .attestQuote s = .next s) ∧
    (∀ asid va s1 pa, s.attest = some (asid, va) → quoteReady s = true → translate s 128 0 asid true kRw va = (s1, .ok pa) → pa % 4096 = 0 →
      (∀ k, k < 64 → (metaAt s1 (.phys (pa + 64 * k))).err = [] ∧ (metaAt s1 (.phys (pa + 64 * k))).psn = false) →
      ∃ t, exec .attestQuote s = .next t ∧ t.attest = none ∧ t.bricks = s.bricks ∧
        readBytes t (.phys pa) 64 = readBytes s1 (.phys pa) 64 ∧ leNat (readBytes t (.phys (pa + 0xE70)) 8) = 1) ∧
    (∀ asid va s1, s.attest = some (asid, va) → quoteReady s = true →
      (translate s 128 0 asid true kRw va = (s1, .absent) → exec .attestQuote s = .next (addFault s1 0 asid va kRw true)) ∧
      (∀ x, translate s 128 0 asid true kRw va = (s1, .cause x) → exec .attestQuote s = .next { s1 with attest := none }))) ∧
  (∀ s what, ∃ t, exec (.machineCheck what) s = .next t ∧ ∀ b ∈ heldBricks s what, ∃ br', HasBrick t b br' ∧ br'.alive = false) ∧
  (∀ s quad, quad < 32 → (∃ t, exec (.sagTrip quad) s = .next t ∧ (tabGetD t.quads quad ⟨false⟩).sag = true ∧ t.bricks = s.bricks) ∧
    (∃ t, exec (.sagRelease quad) s = .next t ∧ (tabGetD t.quads quad ⟨false⟩).sag = false ∧ t.bricks = s.bricks)) ∧
  (∀ s watt, ∃ t, exec (.powerSample watt) s = .next t ∧ t.watt = watt ∧ t.bricks = s.bricks ∧ t.plim = s.plim ∧
    (powerLimit s < 400 * watt → t.pstep = min 16 (s.pstep + 1)) ∧
    (400 * watt ≤ powerLimit s → 95 * powerLimit s ≤ 40000 * watt → t.pstep = s.pstep ∧ t.pover = 0) ∧
    (40000 * watt < 95 * powerLimit s → 400 * watt ≤ powerLimit s →
      (s.pover < 9 → t.pstep = s.pstep ∧ t.pover = s.pover + 1) ∧ (9 ≤ s.pover → t.pstep = max 8 (s.pstep - 1) ∧ t.pover = 0))) ∧
  (∀ s die tj, die < 4 → ∀ i, i = .thermalThrottle die tj ∨ i = .thermalShutdown die tj ∨ i = Instr.thermalRecover die tj →
    (tj < 90 → ∃ t, exec i s = .next t ∧ dieState t die = { dieState s die with tj := tj, hot := false } ∧ t.bricks = s.bricks) ∧
    (90 ≤ tj → tj < 115 ∨ (dieState s die).hot = true → ∃ t, exec i s = .next t ∧ dieState t die = { dieState s die with tj := tj } ∧ t.bricks = s.bricks) ∧
    (115 ≤ tj → (dieState s die).hot = false → ∃ t, exec i s = .next t ∧ (dieState t die).hot = true ∧ (dieState t die).tj = tj ∧
      ∀ b br, HasBrick s b br → dieOfCore br.core = die → ∃ br', HasBrick t b br' ∧ br'.alive = false))

/-- Injections and the debugger. The model's choice: the rows that act on the focus brick, and the physical SY_INJADDR (log entry
53). -/
def Obligations.InjectionAndDebugSteps : Prop :=
  (∀ s c, focusOf s = some c →
    let arms (i : Instr) (a : Option Armed) : Prop := exec i s = .next (modBrick s c.b (fun br => { br with armed := a }))
    arms .injectDisarm none ∧
    (∀ byte bit, bit.toNat < 8 → arms (.injectCopyArm byte bit) (some (.copy byte.toNat bit.toNat))) ∧
    (∀ byte bit, 8 ≤ bit.toNat → exec (.injectCopyArm byte bit) s = .next s) ∧
    (∀ t : BitVec 5, arms (.injectFpArm t) (some (.fp t.toNat))) ∧
    (∀ (col : BitVec 7) twice, arms (.injectMatrixArm col twice) (some (.matrix col.toNat twice))) ∧
    (∀ bank row col bit p, physBank s c.br bank.toNat = some p → bit.toNat < 96 →
      let key := 128 * row.toNat + col.toNat
      ∃ t, exec (.injectAccEntry bank row col bit) s = .next t ∧ SameMemory s t ∧ t.bricks = s.bricks ∧
        (∀ k, k ≠ key → tabGetD (bankAt t c.br.core p).e k AccEntry.zero = tabGetD (bankAt s c.br.core p).e k AccEntry.zero) ∧
        let x := tabGetD (bankAt s c.br.core p).e key AccEntry.zero
        tabGetD (bankAt t c.br.core p).e key AccEntry.zero = { x with f := flipAcc x.f bit.toNat }) ∧
    (∀ bank row col bit, physBank s c.br bank.toNat = none ∨ 96 ≤ bit.toNat → exec (.injectAccEntry bank row col bit) s = .next s) ∧
    (∀ r t (bit : BitVec 9), bit.toNat < 64 → r.toNat < 8 * c.br.granNow ∨ c.inHandler = true ∧ 56 ≤ r.toNat →
      ∃ s' br', exec (.injectLaneReg r t bit) s = .next s' ∧ HasBrick s' c.b br' ∧ SameMemory s s' ∧ br'.uni = c.br.uni ∧
        ∀ p i e, i < 32 → e < 2 → br'.half p i e = (if p = physReg c.k r.toNat ∧ i = t.toNat ∧ e = bit.toNat / 32
          then { c.br.half p i e with bits := (c.br.half p i e).bits ^^^ (1#32 <<< (bit.toNat % 32)) } else c.br.half p i e)) ∧
    (∀ r t (bit : BitVec 9), 64 ≤ bit.toNat ∨ 8 * c.br.granNow ≤ r.toNat ∧ ¬ (c.inHandler = true ∧ 56 ≤ r.toNat) →
      exec (.injectLaneReg r t bit) s = .next s) ∧
    (∀ line (bit : BitVec 9), 64 * line.toNat + 64 ≤ localSize s c.br → let l := localLoc s c.br (64 * line.toNat)
      (∃ t, exec (.injectLocalLine line bit) s = .next t ∧ t.lmeta = s.lmeta ∧ t.bricks = s.bricks ∧
        byteAt t (l.add (bit.toNat / 8)) = byteAt s (l.add (bit.toNat / 8)) ^^^ (1#8 <<< (bit.toNat % 8)) ∧
        ∀ l', placeOf l' ≠ placeOf (l.add (bit.toNat / 8)) → byteAt t l' = byteAt s l') ∧
      (bit.toNat < 511 → (metaAt s l).err = [] → ∃ t, exec (.injectLocalDouble line bit) s = .next t ∧ t.lmem = s.lmem ∧ t.bricks = s.bricks ∧
        metaAt t l = { metaAt s l with err := [bit.toNat, bit.toNat + 1] })) ∧
    (∀ line (bit : BitVec 9), localSize s c.br < 64 * line.toNat + 64 →
      exec (.injectLocalLine line bit) s = .next s ∧ exec (.injectLocalDouble line bit) s = .next s) ∧
    (∀ bit : BitVec 9, let pa := ownPa s c.br.injAddr.toNat
      (paExists s pa = true → isRemotePa pa = false → isHostPa pa = false → (metaAt s (.phys pa)).err = [] →
        ∃ t, exec (.injectAddrLine bit) s = .next t ∧ t.mem = s.mem ∧ t.bricks = s.bricks ∧
          metaAt t (.phys pa) = { metaAt s (.phys pa) with err := [bit.toNat] }) ∧
      (paExists s pa = false → exec (.injectAddrLine bit) s = .next s))) ∧
  (∀ s b br, HasBrick s b br →
    (br.halted = true → exec (.haltResume b) s = .next (modBrick s b (fun br => { br with halted := false }))) ∧
    (br.halted = false → exec (.haltResume b) s = .next s) ∧
    (br.debug = true → exec (.debugResume b) s = .next (modBrick s b (fun br => { br with debug := false, stepping := false })) ∧
      (∀ k sp, tabGet? br.splits k = some sp → exec (.debugStep b k) s = .next (modBrick s b (fun br => { br with focusSp := k, stepping := true }))) ∧
      (∀ k, tabGet? br.splits k = none → exec (.debugStep b k) s = .next s)) ∧
    (br.debug = false → exec (.debugResume b) s = .next s ∧ ∀ k, exec (.debugStep b k) s = .next s))

/-! ### What every form shares: the checks, the issue, the retirement, the trap -/

/-- The checks that come before a form's own part. The model's choice: 0x048 names the first register in the order of the form's
operands (log entry 11). -/
def Obligations.ChecksBeforeEveryForm : Prop :=
  ∀ c f,
    let priv := f.priv = true ∧ c.br.prv = false
    let engine := c.br.emask.getLsbD f.engine.bit = false
    let wide := f.wide = true ∧ c.sp.mask ≠ c.br.threads
    let own := fun (r : Nat) => c.k = handlerSplit ∧ 56 ≤ r ∧ r < 64
    let outside := (∃ r ∈ f.lanes, 8 * c.br.granNow ≤ r ∧ ¬ own r) ∨ (∃ r ∈ f.unis, r ≠ 0 ∧ c.br.unis ≤ r ∧ ¬ own r)
    let names := (f.rd ++ f.wr).map (physName c.k)
    let waits := ∃ n ∈ names, interlocked c n = true
    let pending := (f.rd.map (physName c.k)).filter (pendingFor c (f.readers c)) ++ (f.wr.map (physName c.k)).filter (pendingFor c c.sp.mask)
    let stalls := sbcOn c.br = true ∧ pending ≠ []
    let in32 := fun (p : Nat → Bool) => ((List.range 32).filter p).length
    let raw := fun (x : Nat × Bool × Bool) t => tbit c.sp.mask t && (x.2.1 && (c.br.half (physReg c.k x.1) t 0).u ||
      x.2.2 && (c.br.half (physReg c.k x.1) t 1).u)
    let psn := fun (r : Nat) t => tbit (f.readers c) t && ((f.halves c r).1 && (c.br.half (physReg c.k r) t 0).p ||
      (f.halves c r).2 && (c.br.half (physReg c.k r) t 1).p)
    let lowest := fun (p : Nat → Bool) t => t < 32 ∧ p t = true ∧ ∀ t', t' < t → p t' = false
    let unwritten := ∃ x ∈ f.chk, ∃ t, t < 32 ∧ raw x t = true
    let poisoned := f.ownPsn = false ∧ ∃ r, RName.lane r ∈ f.rd ∧ ∃ t, t < 32 ∧ psn r t = true
    (∀ ts n, pendingFor c ts n = true ↔ n ≠ .uni 0 ∧
      ((∃ p ∈ c.br.pend, n ∈ p.names ∧ (∀ u, n = .uni u → p.writer = c.k) ∧ ((∀ u, n ≠ .uni u) → c.k ∈ p.owners)) ∨
       (∃ m ∈ c.br.marks, m.name = n ∧ (∀ u, n = .uni u → m.split = c.k) ∧ ((∀ u, n ≠ .uni u) → m.threads &&& ts ≠ 0)))) ∧
    (f.only = none → f.readers c = c.sp.mask) ∧
    (∀ e, f.only = some e → e.always = true ∨ tbit c.sp.mask e.thread = true → f.readers c = 1#32 <<< e.thread ∧ ∀ r, f.halves c r = (e.h0, e.h1)) ∧
    (flagHold c = true → precheck c f = .hold) ∧
    (flagHold c = false → c.sp.tapeFault = true → precheck c f = .trap (trapOf c 0x144#9)) ∧
    (flagHold c = false → c.sp.tapeFault = false →
      (priv → precheck c f = .trap (trapOf c 0x006#9)) ∧
      (¬ priv → engine → precheck c f = .trap (trapOf c 0x003#9)) ∧
      (¬ priv → ¬ engine → wide → precheck c f = .trap (trapOf c 0x004#9)) ∧
      (¬ priv → ¬ engine → ¬ wide → outside → precheck c f = .trap (trapOf c 0x007#9)) ∧
      (¬ priv → ¬ engine → ¬ wide → ¬ outside →
        (waits → precheck c f = .hold) ∧
        (¬ waits → stalls → ∃ n l, pending = n :: l ∧ precheck c f = .trap { trapOf c 0x049#9 with reg := regNumber n }) ∧
        (¬ waits → ¬ stalls → unwritten → ∃ l x l' t, f.chk = l ++ x :: l' ∧ (∀ y ∈ l, ∀ t, t < 32 → raw y t = false) ∧ lowest (raw x) t ∧
          precheck c f = .trap ⟨0x048#9, x.1, t, in32 (raw x), none, 0, 0⟩) ∧
        (¬ waits → ¬ stalls → ¬ unwritten → poisoned → ∃ l r l' t, f.rd = l ++ .lane r :: l' ∧
          (∀ q, RName.lane q ∈ l → ∀ t, t < 32 → psn q t = false) ∧ lowest (psn r) t ∧
          precheck c f = .trap ⟨0x146#9, 0, t, in32 (psn r), none, 0, BitVec.ofNat 64 r⟩) ∧
        (¬ waits → ¬ stalls → ¬ unwritten → ¬ poisoned → precheck c f = .go)))

/-- The frames of issue, retirement, parking and the precise trap. The model's choices: a refused answer is spent by the next issue
of its split (log entry 84), a trapping form uses the issue slot (31). -/
def Obligations.IssueAndRetire : Prop :=
  ∀ s c f br sp, tabGet? s.bricks c.b = some br → tabGet? br.splits c.k = some sp →
    let only := fun (t : State) (br' : Brick) (sp' : Split) =>
      tabGet? t.bricks c.b = some br' ∧ tabGet? br'.splits c.k = some sp' ∧
      (∀ k, k ≠ c.k → tabGet? br'.splits k = tabGet? br.splits k) ∧
      (∀ b, b ≠ c.b → tabGet? t.bricks b = tabGet? s.bricks b) ∧
      t = { s with bricks := t.bricks, parts := t.parts } ∧
      (let key := partKey c.br.core c.br.part
       partOf t key = (if f.lane then { partOf s key with laneAt := some s.clk } else { partOf s key with uniAt := some s.clk }) ∧
       ∀ p, p ≠ key → partOf t p = partOf s p)
    let issued := fun (br' : Brick) =>
      { br with splits := br'.splits, stepping := false, since := s.clk, cur := (if c.k = handlerSplit then br.cur else c.k)
                divq := br.divq.map (markFatal s c f), tfault := spendAnswer c.k br.tfault }
    (∃ br', only (retire s c f) br' { sp with pc := c.sp.pc + (if f.two then 8 else 4), ready := s.clk + 1 + f.st.toNat } ∧
      br' = { issued br' with L := if c.k = handlerSplit then br.L else br.L + 1 }) ∧
    (∃ br', only (retireJump s c f) br' { sp with ready := s.clk + 1 + f.st.toNat } ∧
      br' = { issued br' with L := if c.k = handlerSplit then br.L else br.L + 1 }) ∧
    (∀ op sync n, ∃ br', only (parkOn s c f op sync n) br'
        { sp with wait := some ⟨op, sync, c.sp.pc, f.two, n⟩, ready := s.clk + 1 + f.st.toNat } ∧ br' = issued br') ∧
    (∀ t, br.trap = none → ∃ br' r, only (raiseTrap s c f t) br' { sp with ready := max sp.ready (s.clk + 1 + (if t.cause = 0x00B#9 ∨ t.cause = 0x00C#9 then f.st.toNat else 0)) } ∧
      br' = { br with splits := br'.splits, trap := some r, stepping := false } ∧
      r.cause = t.cause ∧ r.prec = true ∧ r.atIssue = true ∧ r.two = f.two ∧ r.addr = c.sp.pc ∧ r.thread = t.thread ∧ r.count = t.count ∧
      r.split = c.k % 4 ∧ r.aux0 = t.aux0 ∧ r.aux1 = t.aux1 ∧ r.mask = t.mask.getD c.sp.mask ∧
      r.ret = (if t.cause = 0x00B#9 ∨ t.cause = 0x00C#9 then c.sp.pc + (if f.two then 8 else 4) else c.sp.pc))

/-- LEA and its displaced form (R116): the sum, and that a load with the same operand uses the same address. -/
def Obligations.LeaWritesTheAddress : Prop :=
  (∀ d x sb sc q st s c, let f := memForm false st (some d) x sb false true
    let sum := fun t => BitVec.ofInt 64 ((c.u sb).toInt + (c.w x t).toInt * 2 ^ sc.toNat)
    Issues s c f → Retires (.lea d x sb sc q st) s c f (fun s' => SameMemory s s' ∧ Delivers s c f 2 [] false
      ((regsOf c.br).put64 c d (fun t => if q then sum t else BitVec.ofNat 64 ((sum t).toNat % 2 ^ 20))
        (fun t => c.uG sb || c.wG x t)) s')) ∧
  (∀ d x sb sc (disp : BitVec 30) q st s c, let f := memForm true st (some d) x sb false true
    let sum := fun t => BitVec.ofInt 64 ((c.u sb).toInt + (c.w x t).toInt * 2 ^ sc.toNat + disp.toInt)
    Issues s c f → Retires (.leaDisp d x sb sc disp q st) s c f (fun s' => SameMemory s s' ∧ Delivers s c f 2 [] false
      ((regsOf c.br).put64 c d (fun t => if q then sum t else BitVec.ofNat 64 ((sum t).toNat % 2 ^ 20))
        (fun t => c.uG sb || c.wG x t)) s')) ∧
  (∀ glob n two d x sb sc (disp : BitVec 30) st s c s' accs,
    (laneLoadSpec glob n two d x sb sc disp st).accs s c = .ok s' accs → ∀ a ∈ accs,
      a.va = (BitVec.ofInt 64 ((c.u sb).toInt + (c.w x a.t).toInt * 2 ^ sc.toNat + disp.toInt)).toNat ∧
      (glob = false → a.loc = localLoc s c.br (a.va % 2 ^ 20)))

/-- SFROMV (R119): its words, and its one element. -/
def Obligations.SfromvCopiesOneElement : Prop :=
  (∀ (d a lane : Reg) (q : Bool) (st : BitVec 3) next,
    decodeWords (0#1 ++ (5#3 ++ (16#6 ++ (d ++ (a ++ (lane ++ (BitVec.ofBool q ++ st))))))) next =
      if q = false ∧ lane.getLsbD 5 = true then .bad 0x001#9 false else .instr (.sfromv d a lane q st)) ∧
  (∀ d a lane q st s c, let f := { laneForm false st [a] d with lanes := [a.toNat], unis := [d.toNat], wr := [nUni d], chk := [], only := some { elemOf q lane with always := true } }
    let t := if q then lane.toNat / 2 else lane.toNat % 32
    let e := lane.toNat % 2
    Issues s c f → c.br.dpFault = none →
    Retires (.sfromv d a lane q st) s c f
      (Delivers s c f 4 [] false ((regsOf c.br).putUni c d (if q then (c.h a t e).setWidth 64 else c.w a t)
        (if q then c.hG a t e else c.wG a t))))
end

