-- ==== Sys2Proof/Laws/Encode.lean ====
section
/-!
SUPPORT. The fields of an instruction word: packing and reading back agree.
-/
namespace Sys2Proof

theorem take_top {m n : Nat} (x : BitVec m) (y : BitVec n) : (x ++ y).extractLsb' n m = x := by
  apply BitVec.eq_of_getLsbD_eq
  intro i hi
  have h1 : ¬ n + i < n := by omega
  simp [BitVec.getLsbD_append, hi, h1]

theorem take_all {n : Nat} (x : BitVec n) : x.extractLsb' 0 n = x := by
  apply BitVec.eq_of_getLsbD_eq
  intro i hi
  simp [hi]

theorem take_within {m n k w : Nat} (x : BitVec m) (y : BitVec n) (h : k + w ≤ n) :
    (x ++ y).extractLsb' k w = y.extractLsb' k w := by
  apply BitVec.eq_of_getLsbD_eq
  intro i hi
  have h1 : k + i < n := by omega
  simp [BitVec.getLsbD_extractLsb', BitVec.getLsbD_append, h1]

@[simp] theorem RawA.ofBits_toBits (r : RawA) : RawA.ofBits r.toBits = r := by
  cases r
  simp only [RawA.ofBits, RawA.toBits, RawA.mk.injEq]
  exact ⟨take_top _ _,
    (take_within _ _ (by decide)).trans <| take_top _ _,
    (take_within _ _ (by decide)).trans <| (take_within _ _ (by decide)).trans <| take_top _ _,
    (take_within _ _ (by decide)).trans <| (take_within _ _ (by decide)).trans <| (take_within _ _ (by decide)).trans <| take_top _ _,
    (take_within _ _ (by decide)).trans <| (take_within _ _ (by decide)).trans <| (take_within _ _ (by decide)).trans <| (take_within _ _ (by decide)).trans <| take_all _⟩
@[simp] theorem RawK.ofBits_toBits (r : RawK) : RawK.ofBits r.toBits = r := by
  cases r
  simp only [RawK.ofBits, RawK.toBits, RawK.mk.injEq]
  exact ⟨take_top _ _,
    (take_within _ _ (by decide)).trans <| take_top _ _,
    (take_within _ _ (by decide)).trans <| (take_within _ _ (by decide)).trans <| take_top _ _,
    (take_within _ _ (by decide)).trans <| (take_within _ _ (by decide)).trans <| (take_within _ _ (by decide)).trans <| take_all _⟩
@[simp] theorem RawF.ofBits_toBits (r : RawF) : RawF.ofBits r.toBits = r := by
  cases r
  simp only [RawF.ofBits, RawF.toBits, RawF.mk.injEq]
  exact ⟨take_top _ _,
    (take_within _ _ (by decide)).trans <| take_top _ _,
    (take_within _ _ (by decide)).trans <| (take_within _ _ (by decide)).trans <| take_top _ _,
    (take_within _ _ (by decide)).trans <| (take_within _ _ (by decide)).trans <| (take_within _ _ (by decide)).trans <| take_top _ _,
    (take_within _ _ (by decide)).trans <| (take_within _ _ (by decide)).trans <| (take_within _ _ (by decide)).trans <| (take_within _ _ (by decide)).trans <| take_all _⟩
@[simp] theorem RawM.ofBits_toBits (r : RawM) : RawM.ofBits r.toBits = r := by
  cases r
  simp only [RawM.ofBits, RawM.toBits, RawM.mk.injEq]
  exact ⟨take_top _ _,
    (take_within _ _ (by decide)).trans <| take_top _ _,
    (take_within _ _ (by decide)).trans <| (take_within _ _ (by decide)).trans <| take_top _ _,
    (take_within _ _ (by decide)).trans <| (take_within _ _ (by decide)).trans <| (take_within _ _ (by decide)).trans <| take_top _ _,
    (take_within _ _ (by decide)).trans <| (take_within _ _ (by decide)).trans <| (take_within _ _ (by decide)).trans <| (take_within _ _ (by decide)).trans <| take_top _ _,
    (take_within _ _ (by decide)).trans <| (take_within _ _ (by decide)).trans <| (take_within _ _ (by decide)).trans <| (take_within _ _ (by decide)).trans <| (take_within _ _ (by decide)).trans <| take_all _⟩
@[simp] theorem RawB.ofBits_toBits (r : RawB) : RawB.ofBits r.toBits = r := by
  cases r
  simp only [RawB.ofBits, RawB.toBits, RawB.mk.injEq]
  exact ⟨take_top _ _,
    (take_within _ _ (by decide)).trans <| take_top _ _,
    (take_within _ _ (by decide)).trans <| (take_within _ _ (by decide)).trans <| take_all _⟩
@[simp] theorem RawS.ofBits_toBits (r : RawS) : RawS.ofBits r.toBits = r := by
  cases r
  simp only [RawS.ofBits, RawS.toBits, RawS.mk.injEq]
  exact ⟨take_top _ _,
    (take_within _ _ (by decide)).trans <| take_top _ _,
    (take_within _ _ (by decide)).trans <| (take_within _ _ (by decide)).trans <| take_top _ _,
    (take_within _ _ (by decide)).trans <| (take_within _ _ (by decide)).trans <| (take_within _ _ (by decide)).trans <| take_top _ _,
    (take_within _ _ (by decide)).trans <| (take_within _ _ (by decide)).trans <| (take_within _ _ (by decide)).trans <| (take_within _ _ (by decide)).trans <| take_all _⟩
@[simp] theorem RawY.ofBits_toBits (r : RawY) : RawY.ofBits r.toBits = r := by
  cases r
  simp only [RawY.ofBits, RawY.toBits, RawY.mk.injEq]
  exact ⟨take_top _ _,
    (take_within _ _ (by decide)).trans <| take_top _ _,
    (take_within _ _ (by decide)).trans <| (take_within _ _ (by decide)).trans <| take_top _ _,
    (take_within _ _ (by decide)).trans <| (take_within _ _ (by decide)).trans <| (take_within _ _ (by decide)).trans <| take_all _⟩
@[simp] theorem RawL.ofBits_toBits (r : RawL) : RawL.ofBits r.toBits = r := by
  cases r
  simp only [RawL.ofBits, RawL.toBits, RawL.mk.injEq]
  exact ⟨take_top _ _,
    (take_within _ _ (by decide)).trans <| take_top _ _,
    (take_within _ _ (by decide)).trans <| (take_within _ _ (by decide)).trans <| take_top _ _,
    (take_within _ _ (by decide)).trans <| (take_within _ _ (by decide)).trans <| (take_within _ _ (by decide)).trans <| take_top _ _,
    (take_within _ _ (by decide)).trans <| (take_within _ _ (by decide)).trans <| (take_within _ _ (by decide)).trans <| (take_within _ _ (by decide)).trans <| take_all _⟩
@[simp] theorem RawE.ofBits_toBits (r : RawE) : RawE.ofBits r.toBits = r := by
  cases r
  simp only [RawE.ofBits, RawE.toBits, RawE.mk.injEq]
  exact ⟨take_top _ _,
    (take_within _ _ (by decide)).trans <| take_all _⟩
@[simp] theorem RawEm.ofBits_toBits (r : RawEm) : RawEm.ofBits r.toBits = r := by
  cases r
  simp only [RawEm.ofBits, RawEm.toBits, RawEm.mk.injEq]
  exact ⟨take_top _ _,
    (take_within _ _ (by decide)).trans <| take_top _ _,
    (take_within _ _ (by decide)).trans <| (take_within _ _ (by decide)).trans <| take_top _ _,
    (take_within _ _ (by decide)).trans <| (take_within _ _ (by decide)).trans <| (take_within _ _ (by decide)).trans <| take_all _⟩
@[simp] theorem RawEt.ofBits_toBits (r : RawEt) : RawEt.ofBits r.toBits = r := by
  cases r
  simp only [RawEt.ofBits, RawEt.toBits, RawEt.mk.injEq]
  exact ⟨take_top _ _,
    (take_within _ _ (by decide)).trans <| take_top _ _,
    (take_within _ _ (by decide)).trans <| (take_within _ _ (by decide)).trans <| take_top _ _,
    (take_within _ _ (by decide)).trans <| (take_within _ _ (by decide)).trans <| (take_within _ _ (by decide)).trans <| take_all _⟩
@[simp] theorem RawEb.ofBits_toBits (r : RawEb) : RawEb.ofBits r.toBits = r := by
  cases r
  simp only [RawEb.ofBits, RawEb.toBits, RawEb.mk.injEq]
  exact ⟨take_top _ _,
    (take_within _ _ (by decide)).trans <| take_top _ _,
    (take_within _ _ (by decide)).trans <| (take_within _ _ (by decide)).trans <| take_top _ _,
    (take_within _ _ (by decide)).trans <| (take_within _ _ (by decide)).trans <| (take_within _ _ (by decide)).trans <| take_all _⟩
@[simp] theorem PayMem.ofBits_toBits (r : PayMem) : PayMem.ofBits r.toBits = r := by
  cases r
  simp only [PayMem.ofBits, PayMem.toBits, PayMem.mk.injEq]
  exact ⟨take_top _ _,
    (take_within _ _ (by decide)).trans <| take_all _⟩
@[simp] theorem PayOpx.ofBits_toBits (r : PayOpx) : PayOpx.ofBits r.toBits = r := by
  cases r
  simp only [PayOpx.ofBits, PayOpx.toBits, PayOpx.mk.injEq]
  exact ⟨take_top _ _,
    (take_within _ _ (by decide)).trans <| take_top _ _,
    (take_within _ _ (by decide)).trans <| (take_within _ _ (by decide)).trans <| take_top _ _,
    (take_within _ _ (by decide)).trans <| (take_within _ _ (by decide)).trans <| (take_within _ _ (by decide)).trans <| take_top _ _,
    (take_within _ _ (by decide)).trans <| (take_within _ _ (by decide)).trans <| (take_within _ _ (by decide)).trans <| (take_within _ _ (by decide)).trans <| take_all _⟩

@[simp] theorem wordClass_mkWord (c : BitVec 4) (b : BitVec 25) (st : BitVec 3) : wordClass (mkWord c b st) = c :=
  take_top _ _
@[simp] theorem wordBody_mkWord (c : BitVec 4) (b : BitVec 25) (st : BitVec 3) : wordBody (mkWord c b st) = b :=
  (take_within _ _ (by decide)).trans (take_top _ _)
@[simp] theorem wordSt_mkWord (c : BitVec 4) (b : BitVec 25) (st : BitVec 3) : wordSt (mkWord c b st) = st :=
  (take_within _ _ (by decide)).trans <| (take_within _ _ (by decide)).trans (take_all _)

@[simp] theorem Rm.ofCode_code (x : Rm) : Rm.ofCode x.code = some x := by cases x <;> rfl
@[simp] theorem Ty.ofCode_code (x : Ty) : Ty.ofCode x.code = some x := by cases x <;> rfl
@[simp] theorem Scope.ofCode_code (x : Scope) : Scope.ofCode x.code = some x := by cases x <;> rfl
@[simp] theorem RedOp.ofCode_code (x : RedOp) : RedOp.ofCode x.code = some x := by cases x <;> rfl
@[simp] theorem AtomOp.ofCode_code (x : AtomOp) : AtomOp.ofCode x.code = some x := by cases x <;> rfl
@[simp] theorem bitB_ofBool (b : Bool) : bitB (BitVec.ofBool b) = b := by cases b <;> rfl

end Sys2Proof
end

