-- ==== Sys2Proof/Laws/Tab.lean ====
section
/-!
SUPPORT. Tables: a read after a write, and that every operation keeps the canonical form.
-/
namespace Sys2Proof.Machine

section
variable {α : Type}

@[simp] theorem tabGet?_nil (i : Nat) : tabGet? ([] : Tab α) i = none := rfl

theorem tabGet?_cons (k : Nat) (v : α) (t : Tab α) (i : Nat) :
    tabGet? ((k, v) :: t) i = if i = k then some v else tabGet? t i := rfl

/-- A read of the key just listed gives its value. -/
@[simp] theorem tabGet?_put_self (t : Tab α) (i : Nat) (x : α) : tabGet? (tabPut t i x) i = some x := by
  induction t with
  | nil => simp [tabPut, tabGet?]
  | cons p t ih =>
    obtain ⟨k, v⟩ := p
    by_cases h : i < k
    · simp [tabPut, h, tabGet?]
    · by_cases h' : i = k
      · simp [tabPut, h', tabGet?]
      · simp [tabPut, h, h', tabGet?, ih]

/-- Listing a key leaves every other alone. -/
theorem tabGet?_put_ne (t : Tab α) {i j : Nat} (x : α) (h : j ≠ i) : tabGet? (tabPut t i x) j = tabGet? t j := by
  induction t with
  | nil => simp [tabPut, tabGet?, h]
  | cons p t ih =>
    obtain ⟨k, v⟩ := p
    by_cases hk : i < k
    · simp [tabPut, hk, tabGet?_cons, h]
    · by_cases h' : i = k
      · subst h'
        simp [tabPut, tabGet?_cons, h]
      · simp [tabPut, hk, h', tabGet?_cons, ih]

theorem tabGet?_put (t : Tab α) (i j : Nat) (x : α) :
    tabGet? (tabPut t i x) j = if j = i then some x else tabGet? t j := by
  by_cases h : j = i
  · simp [h]
  · simp [h, tabGet?_put_ne t x h]

/-- A key taken out is not listed. -/
@[simp] theorem tabGet?_del_self (t : Tab α) (i : Nat) : tabGet? (tabDel t i) i = none := by
  induction t with
  | nil => rfl
  | cons p t ih =>
    obtain ⟨k, v⟩ := p
    by_cases h : i = k
    · subst h
      simpa [tabDel] using ih
    · simp [tabDel, h, tabGet?_cons, ih]

theorem tabGet?_del_ne (t : Tab α) {i j : Nat} (h : j ≠ i) : tabGet? (tabDel t i) j = tabGet? t j := by
  induction t with
  | nil => rfl
  | cons p t ih =>
    obtain ⟨k, v⟩ := p
    by_cases hk : i = k
    · subst hk
      simp [tabDel, tabGet?_cons, h, ih]
    · simp [tabDel, hk, tabGet?_cons, ih]

theorem tabGet?_del (t : Tab α) (i j : Nat) : tabGet? (tabDel t i) j = if j = i then none else tabGet? t j := by
  by_cases h : j = i
  · simp [h]
  · simp [h, tabGet?_del_ne t h]

/-- Writing what an unlisted key reads as and reading it back agree. -/
theorem tabGetD_set [DecidableEq α] (t : Tab α) (i j : Nat) (d x : α) :
    tabGetD (tabSet t i d x) j d = if j = i then x else tabGetD t j d := by
  unfold tabGetD tabSet
  by_cases hx : x = d
  · rw [if_pos hx, tabGet?_del]
    split
    · simp [hx]
    · rfl
  · rw [if_neg hx, tabGet?_put]
    split <;> simp

@[simp] theorem tabGetD_set_self [DecidableEq α] (t : Tab α) (i : Nat) (d x : α) : tabGetD (tabSet t i d x) i d = x := by
  simp [tabGetD_set]

theorem tabGet?_mod (t : Tab α) (i j : Nat) (f : α → α) :
    tabGet? (tabMod t i f) j = if j = i then (tabGet? t i).map f else tabGet? t j := by
  unfold tabMod
  cases h : tabGet? t i with
  | none =>
    by_cases hj : j = i
    · simp [hj, h]
    · simp [hj]
  | some x => simp [tabGet?_put]

/-! ### The canonical form -/

theorem tabSorted_cons (k : Nat) (v : α) (t : Tab α) :
    tabSorted ((k, v) :: t) = true ↔ (∀ p ∈ t, k < p.1) ∧ tabSorted t = true := by
  induction t generalizing k v with
  | nil => simp [tabSorted]
  | cons p t ih =>
    obtain ⟨k', v'⟩ := p
    simp only [tabSorted, Bool.and_eq_true, decide_eq_true_eq, List.mem_cons, forall_eq_or_imp]
    constructor
    · rintro ⟨h, h'⟩
      exact ⟨⟨h, fun q hq => Nat.lt_trans h (((ih k' v').1 h').1 q hq)⟩, h'⟩
    · rintro ⟨⟨h, -⟩, h'⟩
      exact ⟨h, h'⟩

theorem mem_tabPut {t : Tab α} {i : Nat} {x : α} {p : Nat × α} (h : p ∈ tabPut t i x) : p = (i, x) ∨ p ∈ t := by
  induction t with
  | nil => simpa [tabPut] using h
  | cons q t ih =>
    obtain ⟨k, v⟩ := q
    unfold tabPut at h
    split at h
    · simpa using h
    · split at h
      · simp only [List.mem_cons] at h ⊢
        tauto
      · simp only [List.mem_cons] at h ⊢
        rcases h with h | h
        · exact .inr (.inl h)
        · rcases ih h with h | h
          · exact .inl h
          · exact .inr (.inr h)

theorem mem_tabDel {t : Tab α} {i : Nat} {p : Nat × α} (h : p ∈ tabDel t i) : p ∈ t := by
  induction t with
  | nil => simpa [tabDel] using h
  | cons q t ih =>
    obtain ⟨k, v⟩ := q
    unfold tabDel at h
    split at h
    · exact List.mem_cons_of_mem _ (ih h)
    · simp only [List.mem_cons] at h ⊢
      exact h.imp id ih

theorem tabPut_sorted {t : Tab α} (h : tabSorted t = true) (i : Nat) (x : α) : tabSorted (tabPut t i x) = true := by
  induction t with
  | nil => rfl
  | cons q t ih =>
    obtain ⟨k, v⟩ := q
    obtain ⟨hk, ht⟩ := (tabSorted_cons k v t).1 h
    by_cases h1 : i < k
    · simp only [tabPut, h1, if_true, tabSorted, decide_true, Bool.true_and]
      exact h
    · by_cases h2 : i = k
      · subst h2
        simp only [tabPut, Nat.lt_irrefl, if_false, if_true]
        exact (tabSorted_cons i x t).2 ⟨hk, ht⟩
      · simp only [tabPut, h1, h2, if_false]
        refine (tabSorted_cons k v _).2 ⟨fun p hp => ?_, ih ht⟩
        rcases mem_tabPut hp with rfl | hp
        · exact Nat.lt_of_le_of_ne (Nat.le_of_not_lt h1) (Ne.symm h2)
        · exact hk p hp

theorem tabDel_sorted {t : Tab α} (h : tabSorted t = true) (i : Nat) : tabSorted (tabDel t i) = true := by
  induction t with
  | nil => rfl
  | cons q t ih =>
    obtain ⟨k, v⟩ := q
    obtain ⟨hk, ht⟩ := (tabSorted_cons k v t).1 h
    unfold tabDel
    split
    · exact ih ht
    · exact (tabSorted_cons k v _).2 ⟨fun p hp => hk p (mem_tabDel hp), ih ht⟩

theorem filter_sorted {t : Tab α} (h : tabSorted t = true) (q : Nat × α → Bool) : tabSorted (t.filter q) = true := by
  induction t with
  | nil => rfl
  | cons p t ih =>
    obtain ⟨k, v⟩ := p
    obtain ⟨hk, ht⟩ := (tabSorted_cons k v t).1 h
    rw [List.filter_cons]
    split
    · exact (tabSorted_cons k v _).2 ⟨fun p hp => hk p (List.mem_of_mem_filter hp), ih ht⟩
    · exact ih ht

theorem tabWf_iff [DecidableEq α] (d : α) (t : Tab α) :
    tabWf d t = true ↔ tabSorted t = true ∧ ∀ p ∈ t, p.2 ≠ d := by
  simp [tabWf]

/-- A write keeps the canonical form. -/
theorem tabSet_wf [DecidableEq α] {d : α} {t : Tab α} (h : tabWf d t = true) (i : Nat) (x : α) :
    tabWf d (tabSet t i d x) = true := by
  rw [tabWf_iff] at h ⊢
  unfold tabSet
  split
  · exact ⟨tabDel_sorted h.1 i, fun p hp => h.2 p (mem_tabDel hp)⟩
  · rename_i hx
    refine ⟨tabPut_sorted h.1 i x, fun p hp => ?_⟩
    rcases mem_tabPut hp with rfl | hp
    · exact hx
    · exact h.2 p hp

theorem filter_wf [DecidableEq α] {d : α} {t : Tab α} (h : tabWf d t = true) (q : Nat × α → Bool) :
    tabWf d (t.filter q) = true := by
  rw [tabWf_iff] at h ⊢
  exact ⟨filter_sorted h.1 q, fun p hp => h.2 p (List.mem_of_mem_filter hp)⟩

theorem nil_wf [DecidableEq α] (d : α) : tabWf d ([] : Tab α) = true := rfl

end

end Sys2Proof.Machine
end

