-- ==== Sys2Proof/Laws/Regs.lean ====
section
/-!
SUPPORT. The register files after register writes: what each kind of write does, and what the writes of a form over its
active threads leave.
-/
namespace Sys2Proof.Machine

/-! ### Threads -/

theorem mem_threadsOf (m : BitVec 32) (t : Nat) : t ∈ threadsOf m ↔ t < 32 ∧ tbit m t = true := by
  simp [threadsOf]

theorem threadsOf_lt {m : BitVec 32} {t : Nat} (h : t ∈ threadsOf m) : t < 32 := ((mem_threadsOf m t).1 h).1

theorem threadsOf_nodup (m : BitVec 32) : (threadsOf m).Nodup := List.nodup_range.filter _

theorem Ctx.mem_ts (c : Ctx) (t : Nat) (h : t < 32) : t ∈ c.ts ↔ c.act t = true := by
  simp [Ctx.ts, Ctx.act, mem_threadsOf, h]

theorem Ctx.ts_lt {c : Ctx} {t : Nat} (h : t ∈ c.ts) : t < 32 := threadsOf_lt h

/-! ### Keys of halves -/

theorem halfKey_inj {p t e p' t' e' : Nat} (h : t < 32) (h' : t' < 32) (he : e < 2) (he' : e' < 2) :
    halfKey p t e = halfKey p' t' e' ↔ p = p' ∧ t = t' ∧ e = e' := by
  unfold halfKey
  omega

/-! ### One write -/

theorem half_lane (br : Brick) {p t e p' t' e' : Nat} (x : Half) (h : t < 32) (h' : t' < 32) (he : e < 2) (he' : e' < 2) :
    (applyWrite br (.lane (halfKey p' t' e') x)).half p t e = if p = p' ∧ t = t' ∧ e = e' then x else br.half p t e := by
  simp [Brick.half, applyWrite, tabGetD_set, halfKey_inj h h' he he']

theorem half_tag (br : Brick) {p t e p' t' e' : Nat} (g : Bool) (h : t < 32) (h' : t' < 32) (he : e < 2) (he' : e' < 2) :
    (applyWrite br (.tag (halfKey p' t' e') g)).half p t e =
      if p = p' ∧ t = t' ∧ e = e' then { br.half p t e with g := g } else br.half p t e := by
  simp only [Brick.half, applyWrite, tabGetD_set, halfKey_inj h h' he he']
  split
  · rename_i h; obtain ⟨rfl, rfl, rfl⟩ := h; rfl
  · rfl

/-- A list of writes that touch lane registers only. -/
def laneOnly : List RegWrite → Bool
  | [] => true
  | .lane _ _ :: l => laneOnly l
  | .tag _ _ :: l => laneOnly l
  | _ :: _ => false

theorem applyWrites_nil (br : Brick) : applyWrites br [] = br := rfl
theorem applyWrites_cons (br : Brick) (w : RegWrite) (ws : List RegWrite) :
    applyWrites br (w :: ws) = applyWrites (applyWrite br w) ws := rfl
theorem applyWrites_append (br : Brick) (a b : List RegWrite) :
    applyWrites br (a ++ b) = applyWrites (applyWrites br a) b := by simp [applyWrites]

/-- Register writes change the register files alone. -/
theorem applyWrites_frame (ws : List RegWrite) : ∀ br : Brick, applyWrites br ws =
    { br with lane := (applyWrites br ws).lane, uni := (applyWrites br ws).uni, msk := (applyWrites br ws).msk } := by
  induction ws with
  | nil => intro br; rfl
  | cons w ws ih =>
    intro br
    rw [applyWrites_cons]
    conv_lhs => rw [ih]
    cases w <;> simp only [applyWrite]
    split <;> rfl

theorem laneOnly_append (a b : List RegWrite) : laneOnly (a ++ b) = (laneOnly a && laneOnly b) := by
  induction a with
  | nil => simp [laneOnly]
  | cons w a ih => cases w <;> simp [laneOnly, ih]

theorem laneOnly_flatMap {ι : Type} (l : List ι) (F : ι → List RegWrite) (h : ∀ i ∈ l, laneOnly (F i) = true) :
    laneOnly (l.flatMap F) = true := by
  induction l with
  | nil => rfl
  | cons a l ih =>
    rw [List.flatMap_cons, laneOnly_append, h a (by simp), ih (fun i hi => h i (by simp [hi])), Bool.and_true]

theorem laneOnly_keeps (ws : List RegWrite) (h : laneOnly ws = true) : ∀ br : Brick,
    (applyWrites br ws).uni = br.uni ∧ (applyWrites br ws).msk = br.msk := by
  induction ws with
  | nil => intro br; exact ⟨rfl, rfl⟩
  | cons w ws ih =>
    intro br
    rw [applyWrites_cons]
    cases w <;> simp only [laneOnly, Bool.false_eq_true] at h <;> exact ih h _

/-- A thread's writes touch that thread's halves alone, and what they leave there is g. -/
def ThreadWrites (F : Nat → List RegWrite) (g : Nat → Nat → Nat → Half → Half) (t : Nat) : Prop :=
  laneOnly (F t) = true ∧ ∀ (br : Brick) (p t' e : Nat), t' < 32 → e < 2 →
    (applyWrites br (F t)).half p t' e = if t' = t then g p t e (br.half p t' e) else br.half p t' e

theorem half_threads {F : Nat → List RegWrite} {g : Nat → Nat → Nat → Half → Half} (l : List Nat) (nd : l.Nodup)
    (hF : ∀ t ∈ l, ThreadWrites F g t) : ∀ (br : Brick) (p t e : Nat), t < 32 → e < 2 →
    (applyWrites br (l.flatMap F)).half p t e = if t ∈ l then g p t e (br.half p t e) else br.half p t e := by
  induction l with
  | nil => intros; simp [applyWrites_nil]
  | cons a l ih =>
    intro br p t e ht he
    rw [List.flatMap_cons, applyWrites_append,
      ih (List.nodup_cons.1 nd).2 (fun x hx => hF x (List.mem_cons_of_mem _ hx)) _ p t e ht he,
      (hF a (by simp)).2 br p t e ht he]
    by_cases hta : t = a
    · subst hta
      simp [(List.nodup_cons.1 nd).1]
    · simp [hta]

/-- The writes of a form over its active threads. -/
theorem landsAs_threads (c : Ctx) (br : Brick) {F : Nat → List RegWrite} {g : Nat → Nat → Nat → Half → Half}
    (hF : ∀ t ∈ c.ts, ThreadWrites F g t) (h : Nat → Nat → Nat → Half)
    (hh : ∀ p t e, t < 32 → e < 2 → h p t e = if c.act t = true then g p t e (br.half p t e) else br.half p t e) :
    LandsAs br (c.ts.flatMap F) { regsOf br with half := h } := by
  have hl : laneOnly (c.ts.flatMap F) = true := laneOnly_flatMap _ _ (fun t ht => (hF t ht).1)
  have hk := laneOnly_keeps _ hl br
  refine ⟨fun p t e ht he => ?_, fun p => ?_, fun m i _ => ?_, applyWrites_frame _ _⟩
  · show (applyWrites br (c.ts.flatMap F)).half p t e = h p t e
    rw [half_threads c.ts (threadsOf_nodup _) hF br p t e ht he, hh p t e ht he]
    simp [c.mem_ts t ht]
  · simp [regsOf, Brick.uniR, hk.1]
  · simp [regsOf, Brick.mskR, hk.2]

/-- A pair of half writes of one register in one thread. -/
theorem threadWrites_pair {P : Nat} (x : Nat → Nat → Half) {t : Nat} (ht : t < 32) :
    ThreadWrites (fun t => [.lane (halfKey P t 0) (x t 0), .lane (halfKey P t 1) (x t 1)])
      (fun p t e old => if p = P then x t e else old) t := by
  refine ⟨rfl, fun br p t' e ht' he => ?_⟩
  rw [applyWrites_cons, applyWrites_cons, applyWrites_nil, half_lane _ _ ht' ht he (by omega),
    half_lane _ _ ht' ht he (by omega)]
  have : e = 0 ∨ e = 1 := by omega
  by_cases hp : p = P <;> by_cases htt : t' = t <;> rcases this with rfl | rfl <;> simp [hp, htt]

/-- Both halves of one register in every active thread. -/
theorem landsAs_halves (c : Ctx) (d : Reg) (x : Nat → Nat → Half) :
    LandsAs c.br (c.ts.flatMap (fun t => [.lane (halfKey (physReg c.k d.toNat) t 0) (x t 0),
      .lane (halfKey (physReg c.k d.toNat) t 1) (x t 1)])) ((regsOf c.br).putHalves c d x) := by
  refine landsAs_threads c c.br (fun t ht => threadWrites_pair x (Ctx.ts_lt ht)) _ (fun p t e _ _ => ?_)
  simp only [regsOf]
  by_cases hp : p = physReg c.k d.toNat <;> by_cases ha : c.act t = true <;> simp [hp, ha]

theorem landsAs_laneWrites64 (c : Ctx) (d : Reg) (v : Nat → W64) (g : Nat → Bool) :
    LandsAs c.br (laneWrites64 c d v g) ((regsOf c.br).put64 c d v g) :=
  landsAs_halves c d (fun t e => c.newHalf (halfOf (v t) e) (g t))

theorem landsAs_laneWrites32 (c : Ctx) (d : Reg) (v : Nat → Nat → W32) (g : Nat → Nat → Bool) :
    LandsAs c.br (laneWrites32 c d v g) ((regsOf c.br).put32 c d v g) :=
  landsAs_halves c d (fun t e => c.newHalf (v t e) (g t e))

/-- The forms that copy a lane to each active lane. -/
theorem landsAs_copy (c : Ctx) (q : Bool) (d : Reg) (a : Nat → Reg) (src : Nat → Nat) (g : Nat → Bool) :
    LandsAs c.br ((c.lanes q).flatMap (fun j => c.copyLane q d (a j) j (src j) (g j)))
      ((regsOf c.br).putHalves c d (fun t e => c.moved q (a (laneAt q t e)) (src (laneAt q t e)) e (g (laneAt q t e)))) := by
  cases q
  · exact landsAs_halves c d (fun t e => c.copied (c.half (a t) (src t) e) (c.wG (a t) (src t) || g t))
  · have e : (c.lanes true).flatMap (fun j => c.copyLane true d (a j) j (src j) (g j)) =
        c.ts.flatMap (fun t => [.lane (halfKey (physReg c.k d.toNat) t 0) (c.moved true (a (2 * t)) (src (2 * t)) 0 (g (2 * t))),
          .lane (halfKey (physReg c.k d.toNat) t 1) (c.moved true (a (2 * t + 1)) (src (2 * t + 1)) 1 (g (2 * t + 1)))]) := by
      simp only [Ctx.lanes, if_true, List.flatMap_assoc]
      congr 1
      funext t
      have h1 : (2 * t + 1) / 2 = t := by omega
      have h2 : 2 * t / 2 = t := by omega
      have h3 : (2 * t + 1) % 2 = 1 := by omega
      have h4 : 2 * t % 2 = 0 := by omega
      simp [Ctx.copyLane, Ctx.copyH, Ctx.moved, Ctx.copied, h1, h2, h3, h4]
    rw [e]
    have := landsAs_halves c d (fun t e => c.moved true (a (2 * t + e)) (src (2 * t + e)) e (g (2 * t + e)))
    exact this

/-- One write of a uniform register. -/
theorem landsAs_uni (c : Ctx) (d : Reg) (v : W64) (g : Bool) :
    LandsAs c.br [c.putU d v g] ((regsOf c.br).putUni c d v g) := by
  refine ⟨fun p t e _ _ => ?_, fun p => ?_, fun m i _ => ?_, applyWrites_frame _ _⟩
  · simp only [Ctx.putU, applyWrites_cons, applyWrites_nil, applyWrite, Regs.putUni, regsOf]
    split <;> rfl
  · simp only [Ctx.putU, applyWrites_cons, applyWrites_nil, applyWrite, Regs.putUni, regsOf, Brick.uniR]
    by_cases hd : physReg c.k d.toNat = 0
    · by_cases hp : p = 0 <;> simp [hd, hp]
    · by_cases hp : p = 0
      · simp [hp]
      · by_cases he : p = physReg c.k d.toNat <;> simp [hd, hp, he, tabGetD_set]
  · simp only [Ctx.putU, applyWrites_cons, applyWrites_nil, applyWrite, Regs.putUni, regsOf]
    split <;> rfl

/-! ### Masks -/

theorem getLsbD_bitsOf (f : Nat → Bool) (n i : Nat) (hi : i < 64) :
    (bitsOf f n).getLsbD i = (decide (i < n) && f i) := by
  induction n with
  | zero => simp [bitsOf]
  | succ n ih =>
    rw [bitsOf, BitVec.getLsbD_or, ih]
    by_cases hn : i = n
    · subst hn
      cases hf : f i <;> simp [hi]
    · have : (if f n = true then 1#64 <<< n else 0#64).getLsbD i = false := by
        split
        · rw [BitVec.getLsbD_shiftLeft]
          by_cases h : i < n
          · simp [h]
          · have h2 : i - n ≠ 0 := by omega
            simp [BitVec.getLsbD_one, h2]
        · simp
      rw [this, Bool.or_false]
      by_cases h : i < n
      · simp [h, Nat.lt_succ_of_lt h]
      · have h2 : ¬ i < n + 1 := by omega
        simp [h, h2]

theorem getLsbD_pairBits_aux (l : List Nat) (hl : ∀ t ∈ l, t < 32) (a : W64) (i : Nat) (hi : i < 64) :
    (l.foldl (fun m t => m ||| (3#64 <<< (2 * t))) a).getLsbD i = (a.getLsbD i || decide (i / 2 ∈ l)) := by
  induction l generalizing a with
  | nil => simp
  | cons t l ih =>
    rw [List.foldl_cons, ih (fun x hx => hl x (List.mem_cons_of_mem _ hx)), BitVec.getLsbD_or, BitVec.getLsbD_shiftLeft]
    have h3 : (3#64).getLsbD (i - 2 * t) = decide (i - 2 * t < 2) := by
      have : ∀ k, k < 64 → (3#64).getLsbD k = decide (k < 2) := by decide
      exact this _ (by omega)
    rw [h3]
    by_cases hit : i / 2 = t
    · have h1 : ¬ i < 2 * t := by omega
      have h2 : i - 2 * t < 2 := by omega
      simp [hit, hi, h1, h2]
    · by_cases h1 : i < 2 * t
      · simp [h1, hit]
      · have h2 : ¬ i - 2 * t < 2 := by omega
        simp [h2, hit]

/-- The bits of the active threads. -/
theorem getLsbD_sel (c : Ctx) (i : Nat) (hi : i < 64) : c.sel.getLsbD i = c.act (i / 2) := by
  rw [Ctx.sel, pairBits, getLsbD_pairBits_aux _ (fun _ h => Ctx.ts_lt h) _ _ hi]
  have := c.mem_ts (i / 2) (by omega)
  cases h : c.act (i / 2) <;> simp [h] at this <;> simp [this]

/-- One write of the selected bits of a mask register. -/
theorem landsAs_msk (c : Ctx) (br : Brick) (d : BitVec 3) (sel v g : W64) (n : Nat → Nat → Bool × Bool)
    (hn : ∀ m i, i < 64 → n m i = if m = d.toNat ∧ sel.getLsbD i = true then
      (v.getLsbD i, (if c.gov then sel else g).getLsbD i) else (regsOf br).msk m i) :
    LandsAs br [c.putM d sel v g] { regsOf br with msk := n } := by
  refine ⟨fun _ _ _ _ _ => rfl, fun _ => rfl, fun m i hi => ?_, applyWrites_frame _ _⟩
  show _ = n m i
  rw [hn m i hi]
  simp only [Ctx.putM, applyWrites_cons, applyWrites_nil, applyWrite, regsOf, Brick.mskR, tabGetD_set]
  by_cases hm : m = d.toNat
  · subst hm
    cases hs : sel.getLsbD i <;> cases hg : c.gov <;> simp [-BitVec.getLsbD_eq_getElem, hs, hi]
  · simp [hm]

theorem landsAs_maskWrite (c : Ctx) (d : BitVec 3) (v g : Nat → Nat → Bool) :
    LandsAs c.br [maskWrite c d v g] ((regsOf c.br).putMask c d v g) := by
  refine landsAs_msk c c.br d _ _ _ _ (fun m i hi => ?_)
  simp only [BitVec.getLsbD_and, getLsbD_bitsOf _ _ _ hi, getLsbD_sel c i hi, hi, decide_true, Bool.true_and]
  by_cases hm : m = d.toNat
  · cases ha : c.act (i / 2) <;> cases hg : c.gov <;>
      simp [-BitVec.getLsbD_eq_getElem, hm, getLsbD_sel c i hi, getLsbD_bitsOf _ _ _ hi, ha, hi]
  · simp [hm]

end Sys2Proof.Machine
end

