-- ==== Sys2Proof/Laws/Issue.lean ====
section
/-!
SUPPORT. The issue of a form: the meanings answer through these.
-/
namespace Sys2Proof.Machine

/-- A form that passes its checks settles as its own part answers. -/
theorem issueForm_go {s : State} {c : Ctx} {f : Form} (h : Issues s c f) (body : Ctx → Res) :
    issueForm s f body = .next (settle s c f (body c)) := by
  simp [issueForm, h.1, h.2]

/-- A form whose checks trap takes that trap. -/
theorem issueForm_trap {s : State} {c : Ctx} {f : Form} {t : TrapReq} (h : focusOf s = some c) (h' : precheck c f = .trap t)
    (body : Ctx → Res) : issueForm s f body = .next (raiseTrap s c f t) := by
  simp [issueForm, h, h']

theorem issueForm_hold {s : State} {c : Ctx} {f : Form} (h : focusOf s = some c) (h' : precheck c f = .hold)
    (body : Ctx → Res) : issueForm s f body = .next (holdForm s c) := by
  simp [issueForm, h, h']

/-- With no datapath fault armed a result is pending as computed (R360). -/
theorem pushPend_sound {s : State} {c : Ctx} {f : Form} {lat : Nat} {ws : List RegWrite} {fx : List (Nat × Flags)} {isFp : Bool}
    (h : c.br.dpFault = none) : pushPend s c f lat ws fx isFp = addPend s c f lat ws fx isFp := by
  simp [pushPend, h]

/-- A form at a fixed latency completes. -/
theorem retires_fixed {i : Instr} {s : State} {c : Ctx} {f : Form} {lat : Nat} {ws : List RegWrite} {r : Regs}
    {body : Ctx → Res} (hi : Issues s c f) (hd : c.br.dpFault = none) (he : exec i s = issueForm s f body)
    (hb : body c = fixed s c f lat ws) (h : LandsAs c.br ws r) : Retires i s c f (Delivers s c f lat [] false r) :=
  ⟨_, ⟨ws, h, rfl⟩, by rw [he, issueForm_go hi, hb, fixed, pushPend_sound hd]; rfl⟩

/-- No fault is armed for the brick's next floating-point form. -/
theorem pushFp_healthy {s : State} {c : Ctx} {f : Form} {lat : Nat} {ws : List RegWrite} {fx : List (Nat × Flags)}
    {m : Nat → W64} {fm : Option Fmt} {raises : Bool} (h : Healthy c) :
    pushFp s c f lat ws fx m fm raises = addPend s c f lat ws fx raises := by
  unfold pushFp
  split
  · rename_i t he; exact absurd he (h.2 t)
  · exact pushPend_sound h.1

/-- A floating-point form completes. -/
theorem retires_fp {i : Instr} {s : State} {c : Ctx} {f : Form} {lat : Nat} {ws : List RegWrite} {r : Regs}
    {fx : List (Nat × Flags)} {m : Nat → W64} {fm : Option Fmt} {raises : Bool} {body : Ctx → Res} (hi : Issues s c f)
    (hh : Healthy c) (he : exec i s = issueForm s f body) (hb : body c = .done (pushFp s c f lat ws fx m fm raises))
    (h : LandsAs c.br ws r) : Retires i s c f (Delivers s c f lat fx raises r) :=
  ⟨_, ⟨ws, h, rfl⟩, by rw [he, issueForm_go hi, hb, pushFp_healthy hh]; rfl⟩

/-! ### What a form can do (R52) -/

/-- The focus names a brick and a split that exist. -/
theorem focusOf_eq_some {s : State} {c : Ctx} : focusOf s = some c ↔
    s.focus = some (c.b, c.k) ∧ tabGet? s.bricks c.b = some c.br ∧ tabGet? c.br.splits c.k = some c.sp := by
  constructor
  · intro h
    unfold focusOf at h
    split at h
    · cases h
    · split at h
      · cases h
      · split at h
        · cases h
        · cases h; exact ⟨‹_›, ‹_›, ‹_›⟩
  · rintro ⟨h, h', h''⟩
    simp [focusOf, h, h', h'']

/-- A form that issues traps, waits, or settles as its own part answers; without an issuer it is a fault; it never refuses. -/
theorem issueForm_cases (s : State) (f : Form) (body : Ctx → Res) :
    (focusOf s = none ∧ issueForm s f body = .fault .noIssuer) ∨
    ∃ c, focusOf s = some c ∧
      ((∃ t, precheck c f = .trap t ∧ issueForm s f body = .next (raiseTrap s c f t)) ∨
       (precheck c f = .hold ∧ issueForm s f body = .next (holdForm s c)) ∨
       (Issues s c f ∧ issueForm s f body = .next (settle s c f (body c)))) := by
  cases h : focusOf s with
  | none => exact .inl ⟨rfl, by simp [issueForm, h]⟩
  | some c =>
    refine .inr ⟨c, rfl, ?_⟩
    cases h' : precheck c f with
    | trap t => exact .inl ⟨t, rfl, issueForm_trap h h' body⟩
    | hold => exact .inr (.inl ⟨rfl, issueForm_hold h h' body⟩)
    | go => exact .inr (.inr ⟨⟨h, h'⟩, issueForm_go ⟨h, h'⟩ body⟩)

/-! ### Bricks and splits after an update -/

theorem tabGet?_modBrick (s : State) (b j : Nat) (f : Brick → Brick) :
    tabGet? (modBrick s b f).bricks j = if j = b then (tabGet? s.bricks b).map f else tabGet? s.bricks j :=
  tabGet?_mod s.bricks b j f

theorem tabGet?_modSplit (br : Brick) (k j : Nat) (f : Split → Split) :
    tabGet? (br.modSplit k f).splits j = if j = k then (tabGet? br.splits k).map f else tabGet? br.splits j :=
  tabGet?_mod br.splits k j f

end Sys2Proof.Machine
end

