-- ==== Sys2Proof/Laws/Flights.lean ====
section
/-!
SUPPORT. Operations in flight: what issuing one leaves behind (R198, R200).
-/
namespace Sys2Proof.Machine

/-- Issuing an operation is the effect that claims call Flies. -/
theorem flies_pushFlight (s : State) (c : Ctx) (f : Form) (fc tEnd : Option Nat) (mark : Option RName) (kind : FlightKind) :
    Flies s c f fc tEnd mark kind (pushFlight s c f fc tEnd mark kind) := by
  refine ⟨s.clk + 1 + Config.latency s.free, by omega, ?_⟩
  simp only [pushFlight, freeDue, modBrick]
  congr 2
  funext br
  cases mark with
  | none => cases fc <;> simp [addFlight, addMark, issuedOn]
  | some n => cases fc <;> cases n <;> simp [addFlight, addMark, issuedOn]

/-- A form that answers with one operation in flight completes. -/
theorem retires_flight {i : Instr} {s s1 : State} {c : Ctx} {f : Form} {fc tEnd : Option Nat} {mark : Option RName}
    {kind : FlightKind} {body : Ctx → Res} (hi : Issues s c f) (he : exec i s = issueForm s f body)
    (hb : body c = .done (pushFlight s1 c f fc tEnd mark kind)) :
    Retires i s c f (Flies s1 c f fc tEnd mark kind) :=
  ⟨_, flies_pushFlight s1 c f fc tEnd mark kind, by rw [he, issueForm_go hi, hb]; rfl⟩

end Sys2Proof.Machine
end

