-- ==== Sys2Proof/Laws/Int.lean ====
section
/-!
SUPPORT. The integer operations compute the exact results of Safety.lean.
-/
namespace Sys2Proof.Machine

variable {n : Nat}

theorem exAdd_eq (x y : BitVec n) : exAdd n x y = x + y := by
  apply BitVec.eq_of_toNat_eq
  simp [exAdd, BitVec.toNat_add]

theorem exSub_eq (x y : BitVec n) : exSub n x y = x - y := by
  apply BitVec.eq_of_toInt_eq
  simp [exSub, BitVec.toInt_sub]

theorem exMul_eq (x y : BitVec n) : exMul n x y = x * y := by
  apply BitVec.eq_of_toInt_eq
  simp [exMul, BitVec.toInt_mul]

theorem exMulHigh_eq (x y : BitVec n) : exMulHigh n x y = mulHighS x y := by
  have hz : x.signExtend (2 * n) * y.signExtend (2 * n) = BitVec.ofInt (2 * n) (x.toInt * y.toInt) := by
    apply BitVec.eq_of_toInt_eq
    rw [BitVec.toInt_mul, BitVec.toInt_signExtend_of_le (by omega), BitVec.toInt_signExtend_of_le (by omega),
      BitVec.toInt_ofInt]
  apply BitVec.eq_of_toNat_eq
  rw [mulHighS, hz, exMulHigh]
  apply Int.ofNat.inj
  simp only [BitVec.extractLsb'_toNat, BitVec.toNat_ofInt, Int.ofNat_eq_natCast, Nat.shiftRight_eq_div_pow]
  generalize x.toInt * y.toInt = p
  have h1 : (0 : Int) < 2 ^ n := by positivity
  have h2 : (2 : Int) ^ (2 * n) = 2 ^ n * 2 ^ n := by rw [two_mul, pow_add]
  push_cast
  rw [Int.toNat_of_nonneg (Int.emod_nonneg _ (by positivity)), Int.toNat_of_nonneg (Int.emod_nonneg _ (by positivity)), h2]
  have h3 : p % (2 ^ n * 2 ^ n) / 2 ^ n = p / 2 ^ n % 2 ^ n := by
    rw [Int.emod_def, Int.emod_def, Int.mul_assoc, Int.sub_eq_add_neg, ← Int.mul_neg, Int.add_mul_ediv_left _ _ (ne_of_gt h1)]
    rw [← Int.ediv_ediv_of_nonneg h1.le]
    ring
  rw [h3, Int.emod_emod_of_dvd _ (dvd_refl _)]

theorem exMulHighU_eq (x y : BitVec n) : exMulHighU n x y = mulHighU x y := by
  apply BitVec.eq_of_toNat_eq
  have hx := x.isLt
  have hy := y.isLt
  have h2 : 2 ^ (2 * n) = 2 ^ n * 2 ^ n := by rw [two_mul, pow_add]
  have h4 : x.toNat * y.toNat < 2 ^ (2 * n) := by rw [h2]; exact Nat.mul_lt_mul'' hx hy
  have h5 : 2 ^ n ≤ 2 ^ (2 * n) := Nat.pow_le_pow_right (by omega) (by omega)
  simp only [mulHighU, exMulHighU, BitVec.extractLsb'_toNat, BitVec.toNat_mul, BitVec.toNat_setWidth, BitVec.toNat_ofNat,
    Nat.shiftRight_eq_div_pow]
  rw [Nat.mod_eq_of_lt (lt_of_lt_of_le hx h5), Nat.mod_eq_of_lt (lt_of_lt_of_le hy h5), Nat.mod_eq_of_lt h4]

theorem exCarry_eq (x y : BitVec n) : exCarry n x y = addCarry x y := by
  unfold exCarry addCarry
  have hx := x.isLt
  have hy := y.isLt
  have hp : 0 < 2 ^ n := by positivity
  split
  · rename_i h
    rw [Nat.div_eq_of_lt_le (k := 1) (by omega) (by omega)]
  · rename_i h
    rw [Nat.div_eq_of_lt (by omega)]; rfl

theorem exMin_eq (x y : BitVec n) : exMin n x y = minS x y := by simp [exMin, minS, BitVec.sle_eq_decide]
theorem exMax_eq (x y : BitVec n) : exMax n x y = maxS x y := by simp [exMax, maxS, BitVec.sle_eq_decide]
theorem exMinU_eq (x y : BitVec n) : exMinU n x y = minU x y := by simp [exMinU, minU, BitVec.ule_eq_decide]
theorem exMaxU_eq (x y : BitVec n) : exMaxU n x y = maxU x y := by simp [exMaxU, maxU, BitVec.ule_eq_decide]

theorem exShl_eq (x y : BitVec n) : exShl n x y = shlW x y := by
  apply BitVec.eq_of_toNat_eq
  simp [exShl, shlW, shiftCount, Nat.shiftLeft_eq]

theorem exShr_eq (x y : BitVec n) : exShr n x y = shrW x y := by
  apply BitVec.eq_of_toNat_eq
  simp only [exShr, shrW, shiftCount, BitVec.toNat_ofNat, BitVec.toNat_ushiftRight, Nat.shiftRight_eq_div_pow]
  exact Nat.mod_eq_of_lt (lt_of_le_of_lt (Nat.div_le_self _ _) x.isLt)

theorem exSar_eq (x y : BitVec n) : exSar n x y = sarW x y := by
  apply BitVec.eq_of_toInt_eq
  rw [sarW, shiftCount, BitVec.toInt_sshiftRight, exSar, BitVec.toInt_ofInt, Int.shiftRight_eq_div_pow]
  have h : (x.toInt / (2 ^ (y.toNat % n) : Nat) : Int) = (BitVec.sshiftRight x (y.toNat % n)).toInt := by
    rw [BitVec.toInt_sshiftRight, Int.shiftRight_eq_div_pow]
  have h' : (x.toInt / 2 ^ (y.toNat % n) : Int) = (BitVec.sshiftRight x (y.toNat % n)).toInt := by
    rw [← h]; push_cast; rfl
  push_cast
  rw [h', BitVec.toInt_bmod_cancel]

theorem exRot_eq (hn : 0 < n) (x y : BitVec n) : exRot n x y = rotW x y := by
  unfold rotW shiftCount exRot
  have hk : y.toNat % n < n := Nat.mod_lt _ hn
  rw [BitVec.rotateLeft_def, Nat.mod_eq_of_lt hk]
  generalize y.toNat % n = k at hk
  apply BitVec.eq_of_toNat_eq
  have hx := x.isLt
  have e : 2 ^ n = 2 ^ (n - k) * 2 ^ k := by rw [← pow_add]; congr 1; omega
  have h1 : x.toNat * 2 ^ k % 2 ^ n = x.toNat % 2 ^ (n - k) * 2 ^ k := by rw [e, Nat.mul_mod_mul_right]
  have h2 : x.toNat / 2 ^ (n - k) < 2 ^ k := by
    apply Nat.div_lt_of_lt_mul
    rwa [← e]
  rw [BitVec.toNat_or, BitVec.toNat_shiftLeft, BitVec.toNat_ushiftRight, BitVec.toNat_ofNat, Nat.shiftLeft_eq,
    Nat.shiftRight_eq_div_pow, h1, ← Nat.shiftLeft_eq, ← Nat.shiftLeft_add_eq_or_of_lt h2, Nat.shiftLeft_eq]
  apply Nat.mod_eq_of_lt
  have h3 : x.toNat % 2 ^ (n - k) + 1 ≤ 2 ^ (n - k) := Nat.mod_lt _ (by positivity)
  calc x.toNat % 2 ^ (n - k) * 2 ^ k + x.toNat / 2 ^ (n - k)
      < x.toNat % 2 ^ (n - k) * 2 ^ k + 2 ^ k := by omega
    _ = (x.toNat % 2 ^ (n - k) + 1) * 2 ^ k := by ring
    _ ≤ 2 ^ (n - k) * 2 ^ k := Nat.mul_le_mul_right _ h3
    _ = 2 ^ n := e.symm

theorem exAbs_eq (x : BitVec n) : exAbs n x = absW x := by
  unfold exAbs absW
  cases h : x.msb
  · rw [BitVec.toInt_eq_msb_cond, h]
    simp
  · rw [BitVec.toInt_eq_msb_cond, h]
    apply BitVec.eq_of_toNat_eq
    have hx := x.isLt
    have : ((x.toNat : Int) - (2 ^ n : Nat)).natAbs = 2 ^ n - x.toNat := by omega
    push_cast at this
    simp [this, BitVec.toNat_neg]

theorem exNeg_eq (x : BitVec n) : exNeg n x = -x := by
  apply BitVec.eq_of_toInt_eq
  simp [exNeg, BitVec.toInt_neg]

theorem popCount_eq (x : BitVec n) (k : Nat) : popCount x k = (List.range k).countP (fun i => x.getLsbD i) := by
  induction k with
  | zero => rfl
  | succ k ih => simp [popCount, List.range_succ, List.countP_append, ih, List.countP_singleton]

theorem exPopc_eq (x : BitVec n) : exPopc n x = popW x := by simp only [exPopc, popW, popCount_eq]

theorem leadZeros_eq (x : BitVec n) (k : Nat) (hk : x.toNat < 2 ^ k) :
    leadZeros x k = if x.toNat = 0 then k else k - 1 - Nat.log2 x.toNat := by
  induction k with
  | zero =>
    have : x.toNat = 0 := by simpa using hk
    simp [leadZeros, this]
  | succ k ih =>
    unfold leadZeros
    rw [← BitVec.testBit_toNat]
    by_cases hx : x.toNat < 2 ^ k
    · rw [Nat.testBit_lt_two_pow hx, ih hx]
      simp only [Bool.false_eq_true, if_false]
      by_cases h0 : x.toNat = 0
      · simp [h0]
      · have := (Nat.log2_lt h0).2 hx
        simp only [h0, if_false]
        omega
    · have h0 : x.toNat ≠ 0 := by
        intro h; rw [h] at hx; exact hx (by positivity)
      have hl : Nat.log2 x.toNat = k := by
        have h1 := (Nat.log2_lt h0).2 hk
        have h2 := (Nat.le_log2 h0).2 (Nat.le_of_not_lt hx)
        omega
      have ht : x.toNat.testBit k = true := by
        rw [Nat.testBit_eq_decide_div_mod_eq]
        have : x.toNat / 2 ^ k = 1 := by
          apply Nat.div_eq_of_lt_le <;> rw [pow_succ] at * <;> omega
        simp [this]
      simp [ht, h0, hl]

theorem exClz_eq (x : BitVec n) : exClz n x = clzW x := by
  unfold exClz clzW
  rw [leadZeros_eq x n x.isLt]
  by_cases h : x = 0#n
  · simp [h]
  · have : x.toNat ≠ 0 := fun h' => h (BitVec.eq_of_toNat_eq (by simpa using h'))
    simp [h, this]

theorem exBfx_eq (sg : Bool) (pos len : Nat) (hl : 0 < len) (x : BitVec n) : exBfx n sg pos len x = bfxW sg pos len x := by
  have hf : (x.extractLsb' pos len).toNat = x.toNat / 2 ^ pos % 2 ^ len := by
    simp [BitVec.extractLsb'_toNat, Nat.shiftRight_eq_div_pow]
  cases sg
  · apply BitVec.eq_of_toNat_eq
    simp [exBfx, bfxW, BitVec.toNat_setWidth, hf]
  · have h2 : 2 ^ len = 2 * 2 ^ (len - 1) := by rw [← pow_succ']; congr 1; omega
    have hs : bfxW true pos len x = BitVec.ofInt n (x.extractLsb' pos len).toInt := by
      simp [bfxW, BitVec.signExtend]
    rw [hs, BitVec.toInt_eq_toNat_cond, hf]
    simp only [exBfx, Bool.true_and, decide_eq_true_eq]
    generalize x.toNat / 2 ^ pos % 2 ^ len = v
    by_cases h : 2 ^ (len - 1) ≤ v
    · rw [if_pos h, if_neg (by omega)]
      push_cast
      rfl
    · rw [if_neg h, if_pos (by omega)]
      simp

theorem exBfi_eq (pos len : Nat) (x y : BitVec n) : exBfi n pos len x y = bfiW pos len x y := by
  apply BitVec.eq_of_toNat_eq
  have hb : ∀ i, (bfiW pos len x y).getLsbD i =
      (decide (i < n) && if pos ≤ i ∧ i < pos + len then x.getLsbD (i - pos) else y.getLsbD i) := by
    intro i
    simp only [bfiW, BitVec.getLsbD_or, BitVec.getLsbD_and, BitVec.getLsbD_not, BitVec.getLsbD_shiftLeft, BitVec.getLsbD_ofNat,
      Nat.mul_comm (2 ^ len - 1), Nat.testBit_two_pow_mul, Nat.testBit_two_pow_sub_one]
    by_cases h2 : pos ≤ i
    · by_cases h3 : i < pos + len
      · have h4 : i - pos < len := by omega
        have h5 : ¬ i < pos := by omega
        by_cases h1 : i < n <;> simp [h1, h2, h3, h4, h5]
      · have h4 : ¬ i - pos < len := by omega
        by_cases h1 : i < n <;> simp [h1, h2, h3, h4]
    · by_cases h1 : i < n <;> simp [h1, h2]
  apply Nat.eq_of_testBit_eq
  intro i
  rw [BitVec.testBit_toNat (bfiW pos len x y), hb, exBfi, BitVec.toNat_ofNat, Nat.testBit_mod_two_pow]
  congr 1
  have e1 : y.toNat / 2 ^ (pos + len) * 2 ^ (pos + len) + x.toNat % 2 ^ len * 2 ^ pos + y.toNat % 2 ^ pos =
      (y.toNat / 2 ^ (pos + len) * 2 ^ len + x.toNat % 2 ^ len) * 2 ^ pos + y.toNat % 2 ^ pos := by
    rw [Nat.add_mul, Nat.mul_assoc, ← pow_add, Nat.add_comm len pos]
  rw [e1, Nat.mul_comm _ (2 ^ pos), Nat.testBit_two_pow_mul_add _ (Nat.mod_lt _ (by positivity)), Nat.mul_comm _ (2 ^ len)]
  by_cases h2 : i < pos
  · have : ¬ (pos ≤ i ∧ i < pos + len) := by omega
    rw [if_pos h2, if_neg this, Nat.testBit_mod_two_pow, BitVec.testBit_toNat]
    simp [h2]
  · rw [if_neg h2, Nat.testBit_two_pow_mul_add _ (Nat.mod_lt _ (by positivity))]
    by_cases h3 : i < pos + len
    · rw [if_pos (by omega : i - pos < len), if_pos ⟨by omega, h3⟩, Nat.testBit_mod_two_pow, BitVec.testBit_toNat]
      have : i - pos < len := by omega
      simp [this]
    · rw [if_neg (by omega : ¬ i - pos < len), if_neg (by omega), Nat.testBit_div_two_pow, BitVec.testBit_toNat]
      congr 1
      omega

end Sys2Proof.Machine
end

