-- ==== Sys2Proof/Laws/State.lean ====
section
/-!
SUPPORT. What each update of the state leaves in each field: no proof has to unfold a record update.
-/
namespace Sys2Proof.Machine

variable (s : State) (n : Nat)

/-! #### setBrick -/

@[simp] theorem setBrick_clk (br : Brick) : (setBrick s n br).clk = s.clk := rfl
@[simp] theorem setBrick_free (br : Brick) : (setBrick s n br).free = s.free := rfl
@[simp] theorem setBrick_focus (br : Brick) : (setBrick s n br).focus = s.focus := rfl
@[simp] theorem setBrick_inputs (br : Brick) : (setBrick s n br).inputs = s.inputs := rfl
@[simp] theorem setBrick_faultsIn (br : Brick) : (setBrick s n br).faultsIn = s.faultsIn := rfl
@[simp] theorem setBrick_sent (br : Brick) : (setBrick s n br).sent = s.sent := rfl
@[simp] theorem setBrick_mem (br : Brick) : (setBrick s n br).mem = s.mem := rfl
@[simp] theorem setBrick_mmeta (br : Brick) : (setBrick s n br).mmeta = s.mmeta := rfl
@[simp] theorem setBrick_lmem (br : Brick) : (setBrick s n br).lmem = s.lmem := rfl
@[simp] theorem setBrick_lmeta (br : Brick) : (setBrick s n br).lmeta = s.lmeta := rfl
@[simp] theorem setBrick_pairs (br : Brick) : (setBrick s n br).pairs = s.pairs := rfl
@[simp] theorem setBrick_tlb (br : Brick) : (setBrick s n br).tlb = s.tlb := rfl
@[simp] theorem setBrick_asidTab (br : Brick) : (setBrick s n br).asidTab = s.asidTab := rfl
@[simp] theorem setBrick_plim (br : Brick) : (setBrick s n br).plim = s.plim := rfl
@[simp] theorem setBrick_reqSig (br : Brick) : (setBrick s n br).reqSig = s.reqSig := rfl
@[simp] theorem setBrick_bricks (br : Brick) : (setBrick s n br).bricks = tabPut s.bricks n br := rfl
@[simp] theorem setBrick_nextB (br : Brick) : (setBrick s n br).nextB = s.nextB := rfl
@[simp] theorem setBrick_walls (br : Brick) : (setBrick s n br).walls = s.walls := rfl
@[simp] theorem setBrick_nextW (br : Brick) : (setBrick s n br).nextW = s.nextW := rfl
@[simp] theorem setBrick_launches (br : Brick) : (setBrick s n br).launches = s.launches := rfl
@[simp] theorem setBrick_nextL (br : Brick) : (setBrick s n br).nextL = s.nextL := rfl
@[simp] theorem setBrick_submits (br : Brick) : (setBrick s n br).submits = s.submits := rfl
@[simp] theorem setBrick_cores (br : Brick) : (setBrick s n br).cores = s.cores := rfl
@[simp] theorem setBrick_parts (br : Brick) : (setBrick s n br).parts = s.parts := rfl
@[simp] theorem setBrick_sems (br : Brick) : (setBrick s n br).sems = s.sems := rfl
@[simp] theorem setBrick_nets (br : Brick) : (setBrick s n br).nets = s.nets := rfl
@[simp] theorem setBrick_copies (br : Brick) : (setBrick s n br).copies = s.copies := rfl
@[simp] theorem setBrick_nextC (br : Brick) : (setBrick s n br).nextC = s.nextC := rfl
@[simp] theorem setBrick_colls (br : Brick) : (setBrick s n br).colls = s.colls := rfl
@[simp] theorem setBrick_collIdx (br : Brick) : (setBrick s n br).collIdx = s.collIdx := rfl
@[simp] theorem setBrick_dies (br : Brick) : (setBrick s n br).dies = s.dies := rfl
@[simp] theorem setBrick_links (br : Brick) : (setBrick s n br).links = s.links := rfl
@[simp] theorem setBrick_quads (br : Brick) : (setBrick s n br).quads = s.quads := rfl
@[simp] theorem setBrick_pstep (br : Brick) : (setBrick s n br).pstep = s.pstep := rfl
@[simp] theorem setBrick_pover (br : Brick) : (setBrick s n br).pover = s.pover := rfl
@[simp] theorem setBrick_watt (br : Brick) : (setBrick s n br).watt = s.watt := rfl
@[simp] theorem setBrick_module (br : Brick) : (setBrick s n br).module = s.module := rfl
@[simp] theorem setBrick_key (br : Brick) : (setBrick s n br).key = s.key := rfl
@[simp] theorem setBrick_keyPart (br : Brick) : (setBrick s n br).keyPart = s.keyPart := rfl
@[simp] theorem setBrick_badKeys (br : Brick) : (setBrick s n br).badKeys = s.badKeys := rfl
@[simp] theorem setBrick_keyMap (br : Brick) : (setBrick s n br).keyMap = s.keyMap := rfl
@[simp] theorem setBrick_modKeys (br : Brick) : (setBrick s n br).modKeys = s.modKeys := rfl
@[simp] theorem setBrick_lasid (br : Brick) : (setBrick s n br).lasid = s.lasid := rfl
@[simp] theorem setBrick_acc (br : Brick) : (setBrick s n br).acc = s.acc := rfl
@[simp] theorem setBrick_bad (br : Brick) : (setBrick s n br).bad = s.bad := rfl
@[simp] theorem setBrick_lost (br : Brick) : (setBrick s n br).lost = s.lost := rfl
@[simp] theorem setBrick_attest (br : Brick) : (setBrick s n br).attest = s.attest := rfl

/-! #### modBrick -/

@[simp] theorem modBrick_clk (f : Brick → Brick) : (modBrick s n f).clk = s.clk := rfl
@[simp] theorem modBrick_free (f : Brick → Brick) : (modBrick s n f).free = s.free := rfl
@[simp] theorem modBrick_focus (f : Brick → Brick) : (modBrick s n f).focus = s.focus := rfl
@[simp] theorem modBrick_inputs (f : Brick → Brick) : (modBrick s n f).inputs = s.inputs := rfl
@[simp] theorem modBrick_faultsIn (f : Brick → Brick) : (modBrick s n f).faultsIn = s.faultsIn := rfl
@[simp] theorem modBrick_sent (f : Brick → Brick) : (modBrick s n f).sent = s.sent := rfl
@[simp] theorem modBrick_mem (f : Brick → Brick) : (modBrick s n f).mem = s.mem := rfl
@[simp] theorem modBrick_mmeta (f : Brick → Brick) : (modBrick s n f).mmeta = s.mmeta := rfl
@[simp] theorem modBrick_lmem (f : Brick → Brick) : (modBrick s n f).lmem = s.lmem := rfl
@[simp] theorem modBrick_lmeta (f : Brick → Brick) : (modBrick s n f).lmeta = s.lmeta := rfl
@[simp] theorem modBrick_pairs (f : Brick → Brick) : (modBrick s n f).pairs = s.pairs := rfl
@[simp] theorem modBrick_tlb (f : Brick → Brick) : (modBrick s n f).tlb = s.tlb := rfl
@[simp] theorem modBrick_asidTab (f : Brick → Brick) : (modBrick s n f).asidTab = s.asidTab := rfl
@[simp] theorem modBrick_plim (f : Brick → Brick) : (modBrick s n f).plim = s.plim := rfl
@[simp] theorem modBrick_reqSig (f : Brick → Brick) : (modBrick s n f).reqSig = s.reqSig := rfl
@[simp] theorem modBrick_bricks (f : Brick → Brick) : (modBrick s n f).bricks = tabMod s.bricks n f := rfl
@[simp] theorem modBrick_nextB (f : Brick → Brick) : (modBrick s n f).nextB = s.nextB := rfl
@[simp] theorem modBrick_walls (f : Brick → Brick) : (modBrick s n f).walls = s.walls := rfl
@[simp] theorem modBrick_nextW (f : Brick → Brick) : (modBrick s n f).nextW = s.nextW := rfl
@[simp] theorem modBrick_launches (f : Brick → Brick) : (modBrick s n f).launches = s.launches := rfl
@[simp] theorem modBrick_nextL (f : Brick → Brick) : (modBrick s n f).nextL = s.nextL := rfl
@[simp] theorem modBrick_submits (f : Brick → Brick) : (modBrick s n f).submits = s.submits := rfl
@[simp] theorem modBrick_cores (f : Brick → Brick) : (modBrick s n f).cores = s.cores := rfl
@[simp] theorem modBrick_parts (f : Brick → Brick) : (modBrick s n f).parts = s.parts := rfl
@[simp] theorem modBrick_sems (f : Brick → Brick) : (modBrick s n f).sems = s.sems := rfl
@[simp] theorem modBrick_nets (f : Brick → Brick) : (modBrick s n f).nets = s.nets := rfl
@[simp] theorem modBrick_copies (f : Brick → Brick) : (modBrick s n f).copies = s.copies := rfl
@[simp] theorem modBrick_nextC (f : Brick → Brick) : (modBrick s n f).nextC = s.nextC := rfl
@[simp] theorem modBrick_colls (f : Brick → Brick) : (modBrick s n f).colls = s.colls := rfl
@[simp] theorem modBrick_collIdx (f : Brick → Brick) : (modBrick s n f).collIdx = s.collIdx := rfl
@[simp] theorem modBrick_dies (f : Brick → Brick) : (modBrick s n f).dies = s.dies := rfl
@[simp] theorem modBrick_links (f : Brick → Brick) : (modBrick s n f).links = s.links := rfl
@[simp] theorem modBrick_quads (f : Brick → Brick) : (modBrick s n f).quads = s.quads := rfl
@[simp] theorem modBrick_pstep (f : Brick → Brick) : (modBrick s n f).pstep = s.pstep := rfl
@[simp] theorem modBrick_pover (f : Brick → Brick) : (modBrick s n f).pover = s.pover := rfl
@[simp] theorem modBrick_watt (f : Brick → Brick) : (modBrick s n f).watt = s.watt := rfl
@[simp] theorem modBrick_module (f : Brick → Brick) : (modBrick s n f).module = s.module := rfl
@[simp] theorem modBrick_key (f : Brick → Brick) : (modBrick s n f).key = s.key := rfl
@[simp] theorem modBrick_keyPart (f : Brick → Brick) : (modBrick s n f).keyPart = s.keyPart := rfl
@[simp] theorem modBrick_badKeys (f : Brick → Brick) : (modBrick s n f).badKeys = s.badKeys := rfl
@[simp] theorem modBrick_keyMap (f : Brick → Brick) : (modBrick s n f).keyMap = s.keyMap := rfl
@[simp] theorem modBrick_modKeys (f : Brick → Brick) : (modBrick s n f).modKeys = s.modKeys := rfl
@[simp] theorem modBrick_lasid (f : Brick → Brick) : (modBrick s n f).lasid = s.lasid := rfl
@[simp] theorem modBrick_acc (f : Brick → Brick) : (modBrick s n f).acc = s.acc := rfl
@[simp] theorem modBrick_bad (f : Brick → Brick) : (modBrick s n f).bad = s.bad := rfl
@[simp] theorem modBrick_lost (f : Brick → Brick) : (modBrick s n f).lost = s.lost := rfl
@[simp] theorem modBrick_attest (f : Brick → Brick) : (modBrick s n f).attest = s.attest := rfl

/-! #### modSplit -/

@[simp] theorem modSplit_clk (k : Nat) (f : Split → Split) : (modSplit s n k f).clk = s.clk := rfl
@[simp] theorem modSplit_free (k : Nat) (f : Split → Split) : (modSplit s n k f).free = s.free := rfl
@[simp] theorem modSplit_focus (k : Nat) (f : Split → Split) : (modSplit s n k f).focus = s.focus := rfl
@[simp] theorem modSplit_inputs (k : Nat) (f : Split → Split) : (modSplit s n k f).inputs = s.inputs := rfl
@[simp] theorem modSplit_faultsIn (k : Nat) (f : Split → Split) : (modSplit s n k f).faultsIn = s.faultsIn := rfl
@[simp] theorem modSplit_sent (k : Nat) (f : Split → Split) : (modSplit s n k f).sent = s.sent := rfl
@[simp] theorem modSplit_mem (k : Nat) (f : Split → Split) : (modSplit s n k f).mem = s.mem := rfl
@[simp] theorem modSplit_mmeta (k : Nat) (f : Split → Split) : (modSplit s n k f).mmeta = s.mmeta := rfl
@[simp] theorem modSplit_lmem (k : Nat) (f : Split → Split) : (modSplit s n k f).lmem = s.lmem := rfl
@[simp] theorem modSplit_lmeta (k : Nat) (f : Split → Split) : (modSplit s n k f).lmeta = s.lmeta := rfl
@[simp] theorem modSplit_pairs (k : Nat) (f : Split → Split) : (modSplit s n k f).pairs = s.pairs := rfl
@[simp] theorem modSplit_tlb (k : Nat) (f : Split → Split) : (modSplit s n k f).tlb = s.tlb := rfl
@[simp] theorem modSplit_asidTab (k : Nat) (f : Split → Split) : (modSplit s n k f).asidTab = s.asidTab := rfl
@[simp] theorem modSplit_plim (k : Nat) (f : Split → Split) : (modSplit s n k f).plim = s.plim := rfl
@[simp] theorem modSplit_reqSig (k : Nat) (f : Split → Split) : (modSplit s n k f).reqSig = s.reqSig := rfl
@[simp] theorem modSplit_bricks (k : Nat) (f : Split → Split) : (modSplit s n k f).bricks = tabMod s.bricks n (fun br => br.modSplit k f) := rfl
@[simp] theorem modSplit_nextB (k : Nat) (f : Split → Split) : (modSplit s n k f).nextB = s.nextB := rfl
@[simp] theorem modSplit_walls (k : Nat) (f : Split → Split) : (modSplit s n k f).walls = s.walls := rfl
@[simp] theorem modSplit_nextW (k : Nat) (f : Split → Split) : (modSplit s n k f).nextW = s.nextW := rfl
@[simp] theorem modSplit_launches (k : Nat) (f : Split → Split) : (modSplit s n k f).launches = s.launches := rfl
@[simp] theorem modSplit_nextL (k : Nat) (f : Split → Split) : (modSplit s n k f).nextL = s.nextL := rfl
@[simp] theorem modSplit_submits (k : Nat) (f : Split → Split) : (modSplit s n k f).submits = s.submits := rfl
@[simp] theorem modSplit_cores (k : Nat) (f : Split → Split) : (modSplit s n k f).cores = s.cores := rfl
@[simp] theorem modSplit_parts (k : Nat) (f : Split → Split) : (modSplit s n k f).parts = s.parts := rfl
@[simp] theorem modSplit_sems (k : Nat) (f : Split → Split) : (modSplit s n k f).sems = s.sems := rfl
@[simp] theorem modSplit_nets (k : Nat) (f : Split → Split) : (modSplit s n k f).nets = s.nets := rfl
@[simp] theorem modSplit_copies (k : Nat) (f : Split → Split) : (modSplit s n k f).copies = s.copies := rfl
@[simp] theorem modSplit_nextC (k : Nat) (f : Split → Split) : (modSplit s n k f).nextC = s.nextC := rfl
@[simp] theorem modSplit_colls (k : Nat) (f : Split → Split) : (modSplit s n k f).colls = s.colls := rfl
@[simp] theorem modSplit_collIdx (k : Nat) (f : Split → Split) : (modSplit s n k f).collIdx = s.collIdx := rfl
@[simp] theorem modSplit_dies (k : Nat) (f : Split → Split) : (modSplit s n k f).dies = s.dies := rfl
@[simp] theorem modSplit_links (k : Nat) (f : Split → Split) : (modSplit s n k f).links = s.links := rfl
@[simp] theorem modSplit_quads (k : Nat) (f : Split → Split) : (modSplit s n k f).quads = s.quads := rfl
@[simp] theorem modSplit_pstep (k : Nat) (f : Split → Split) : (modSplit s n k f).pstep = s.pstep := rfl
@[simp] theorem modSplit_pover (k : Nat) (f : Split → Split) : (modSplit s n k f).pover = s.pover := rfl
@[simp] theorem modSplit_watt (k : Nat) (f : Split → Split) : (modSplit s n k f).watt = s.watt := rfl
@[simp] theorem modSplit_module (k : Nat) (f : Split → Split) : (modSplit s n k f).module = s.module := rfl
@[simp] theorem modSplit_key (k : Nat) (f : Split → Split) : (modSplit s n k f).key = s.key := rfl
@[simp] theorem modSplit_keyPart (k : Nat) (f : Split → Split) : (modSplit s n k f).keyPart = s.keyPart := rfl
@[simp] theorem modSplit_badKeys (k : Nat) (f : Split → Split) : (modSplit s n k f).badKeys = s.badKeys := rfl
@[simp] theorem modSplit_keyMap (k : Nat) (f : Split → Split) : (modSplit s n k f).keyMap = s.keyMap := rfl
@[simp] theorem modSplit_modKeys (k : Nat) (f : Split → Split) : (modSplit s n k f).modKeys = s.modKeys := rfl
@[simp] theorem modSplit_lasid (k : Nat) (f : Split → Split) : (modSplit s n k f).lasid = s.lasid := rfl
@[simp] theorem modSplit_acc (k : Nat) (f : Split → Split) : (modSplit s n k f).acc = s.acc := rfl
@[simp] theorem modSplit_bad (k : Nat) (f : Split → Split) : (modSplit s n k f).bad = s.bad := rfl
@[simp] theorem modSplit_lost (k : Nat) (f : Split → Split) : (modSplit s n k f).lost = s.lost := rfl
@[simp] theorem modSplit_attest (k : Nat) (f : Split → Split) : (modSplit s n k f).attest = s.attest := rfl

/-! #### modLaunch -/

@[simp] theorem modLaunch_clk (f : Launch → Launch) : (modLaunch s n f).clk = s.clk := rfl
@[simp] theorem modLaunch_free (f : Launch → Launch) : (modLaunch s n f).free = s.free := rfl
@[simp] theorem modLaunch_focus (f : Launch → Launch) : (modLaunch s n f).focus = s.focus := rfl
@[simp] theorem modLaunch_inputs (f : Launch → Launch) : (modLaunch s n f).inputs = s.inputs := rfl
@[simp] theorem modLaunch_faultsIn (f : Launch → Launch) : (modLaunch s n f).faultsIn = s.faultsIn := rfl
@[simp] theorem modLaunch_sent (f : Launch → Launch) : (modLaunch s n f).sent = s.sent := rfl
@[simp] theorem modLaunch_mem (f : Launch → Launch) : (modLaunch s n f).mem = s.mem := rfl
@[simp] theorem modLaunch_mmeta (f : Launch → Launch) : (modLaunch s n f).mmeta = s.mmeta := rfl
@[simp] theorem modLaunch_lmem (f : Launch → Launch) : (modLaunch s n f).lmem = s.lmem := rfl
@[simp] theorem modLaunch_lmeta (f : Launch → Launch) : (modLaunch s n f).lmeta = s.lmeta := rfl
@[simp] theorem modLaunch_pairs (f : Launch → Launch) : (modLaunch s n f).pairs = s.pairs := rfl
@[simp] theorem modLaunch_tlb (f : Launch → Launch) : (modLaunch s n f).tlb = s.tlb := rfl
@[simp] theorem modLaunch_asidTab (f : Launch → Launch) : (modLaunch s n f).asidTab = s.asidTab := rfl
@[simp] theorem modLaunch_plim (f : Launch → Launch) : (modLaunch s n f).plim = s.plim := rfl
@[simp] theorem modLaunch_reqSig (f : Launch → Launch) : (modLaunch s n f).reqSig = s.reqSig := rfl
@[simp] theorem modLaunch_bricks (f : Launch → Launch) : (modLaunch s n f).bricks = s.bricks := rfl
@[simp] theorem modLaunch_nextB (f : Launch → Launch) : (modLaunch s n f).nextB = s.nextB := rfl
@[simp] theorem modLaunch_walls (f : Launch → Launch) : (modLaunch s n f).walls = s.walls := rfl
@[simp] theorem modLaunch_nextW (f : Launch → Launch) : (modLaunch s n f).nextW = s.nextW := rfl
@[simp] theorem modLaunch_launches (f : Launch → Launch) : (modLaunch s n f).launches = tabMod s.launches n f := rfl
@[simp] theorem modLaunch_nextL (f : Launch → Launch) : (modLaunch s n f).nextL = s.nextL := rfl
@[simp] theorem modLaunch_submits (f : Launch → Launch) : (modLaunch s n f).submits = s.submits := rfl
@[simp] theorem modLaunch_cores (f : Launch → Launch) : (modLaunch s n f).cores = s.cores := rfl
@[simp] theorem modLaunch_parts (f : Launch → Launch) : (modLaunch s n f).parts = s.parts := rfl
@[simp] theorem modLaunch_sems (f : Launch → Launch) : (modLaunch s n f).sems = s.sems := rfl
@[simp] theorem modLaunch_nets (f : Launch → Launch) : (modLaunch s n f).nets = s.nets := rfl
@[simp] theorem modLaunch_copies (f : Launch → Launch) : (modLaunch s n f).copies = s.copies := rfl
@[simp] theorem modLaunch_nextC (f : Launch → Launch) : (modLaunch s n f).nextC = s.nextC := rfl
@[simp] theorem modLaunch_colls (f : Launch → Launch) : (modLaunch s n f).colls = s.colls := rfl
@[simp] theorem modLaunch_collIdx (f : Launch → Launch) : (modLaunch s n f).collIdx = s.collIdx := rfl
@[simp] theorem modLaunch_dies (f : Launch → Launch) : (modLaunch s n f).dies = s.dies := rfl
@[simp] theorem modLaunch_links (f : Launch → Launch) : (modLaunch s n f).links = s.links := rfl
@[simp] theorem modLaunch_quads (f : Launch → Launch) : (modLaunch s n f).quads = s.quads := rfl
@[simp] theorem modLaunch_pstep (f : Launch → Launch) : (modLaunch s n f).pstep = s.pstep := rfl
@[simp] theorem modLaunch_pover (f : Launch → Launch) : (modLaunch s n f).pover = s.pover := rfl
@[simp] theorem modLaunch_watt (f : Launch → Launch) : (modLaunch s n f).watt = s.watt := rfl
@[simp] theorem modLaunch_module (f : Launch → Launch) : (modLaunch s n f).module = s.module := rfl
@[simp] theorem modLaunch_key (f : Launch → Launch) : (modLaunch s n f).key = s.key := rfl
@[simp] theorem modLaunch_keyPart (f : Launch → Launch) : (modLaunch s n f).keyPart = s.keyPart := rfl
@[simp] theorem modLaunch_badKeys (f : Launch → Launch) : (modLaunch s n f).badKeys = s.badKeys := rfl
@[simp] theorem modLaunch_keyMap (f : Launch → Launch) : (modLaunch s n f).keyMap = s.keyMap := rfl
@[simp] theorem modLaunch_modKeys (f : Launch → Launch) : (modLaunch s n f).modKeys = s.modKeys := rfl
@[simp] theorem modLaunch_lasid (f : Launch → Launch) : (modLaunch s n f).lasid = s.lasid := rfl
@[simp] theorem modLaunch_acc (f : Launch → Launch) : (modLaunch s n f).acc = s.acc := rfl
@[simp] theorem modLaunch_bad (f : Launch → Launch) : (modLaunch s n f).bad = s.bad := rfl
@[simp] theorem modLaunch_lost (f : Launch → Launch) : (modLaunch s n f).lost = s.lost := rfl
@[simp] theorem modLaunch_attest (f : Launch → Launch) : (modLaunch s n f).attest = s.attest := rfl

/-! #### modWall -/

@[simp] theorem modWall_clk (f : Wall → Wall) : (modWall s n f).clk = s.clk := rfl
@[simp] theorem modWall_free (f : Wall → Wall) : (modWall s n f).free = s.free := rfl
@[simp] theorem modWall_focus (f : Wall → Wall) : (modWall s n f).focus = s.focus := rfl
@[simp] theorem modWall_inputs (f : Wall → Wall) : (modWall s n f).inputs = s.inputs := rfl
@[simp] theorem modWall_faultsIn (f : Wall → Wall) : (modWall s n f).faultsIn = s.faultsIn := rfl
@[simp] theorem modWall_sent (f : Wall → Wall) : (modWall s n f).sent = s.sent := rfl
@[simp] theorem modWall_mem (f : Wall → Wall) : (modWall s n f).mem = s.mem := rfl
@[simp] theorem modWall_mmeta (f : Wall → Wall) : (modWall s n f).mmeta = s.mmeta := rfl
@[simp] theorem modWall_lmem (f : Wall → Wall) : (modWall s n f).lmem = s.lmem := rfl
@[simp] theorem modWall_lmeta (f : Wall → Wall) : (modWall s n f).lmeta = s.lmeta := rfl
@[simp] theorem modWall_pairs (f : Wall → Wall) : (modWall s n f).pairs = s.pairs := rfl
@[simp] theorem modWall_tlb (f : Wall → Wall) : (modWall s n f).tlb = s.tlb := rfl
@[simp] theorem modWall_asidTab (f : Wall → Wall) : (modWall s n f).asidTab = s.asidTab := rfl
@[simp] theorem modWall_plim (f : Wall → Wall) : (modWall s n f).plim = s.plim := rfl
@[simp] theorem modWall_reqSig (f : Wall → Wall) : (modWall s n f).reqSig = s.reqSig := rfl
@[simp] theorem modWall_bricks (f : Wall → Wall) : (modWall s n f).bricks = s.bricks := rfl
@[simp] theorem modWall_nextB (f : Wall → Wall) : (modWall s n f).nextB = s.nextB := rfl
@[simp] theorem modWall_walls (f : Wall → Wall) : (modWall s n f).walls = tabMod s.walls n f := rfl
@[simp] theorem modWall_nextW (f : Wall → Wall) : (modWall s n f).nextW = s.nextW := rfl
@[simp] theorem modWall_launches (f : Wall → Wall) : (modWall s n f).launches = s.launches := rfl
@[simp] theorem modWall_nextL (f : Wall → Wall) : (modWall s n f).nextL = s.nextL := rfl
@[simp] theorem modWall_submits (f : Wall → Wall) : (modWall s n f).submits = s.submits := rfl
@[simp] theorem modWall_cores (f : Wall → Wall) : (modWall s n f).cores = s.cores := rfl
@[simp] theorem modWall_parts (f : Wall → Wall) : (modWall s n f).parts = s.parts := rfl
@[simp] theorem modWall_sems (f : Wall → Wall) : (modWall s n f).sems = s.sems := rfl
@[simp] theorem modWall_nets (f : Wall → Wall) : (modWall s n f).nets = s.nets := rfl
@[simp] theorem modWall_copies (f : Wall → Wall) : (modWall s n f).copies = s.copies := rfl
@[simp] theorem modWall_nextC (f : Wall → Wall) : (modWall s n f).nextC = s.nextC := rfl
@[simp] theorem modWall_colls (f : Wall → Wall) : (modWall s n f).colls = s.colls := rfl
@[simp] theorem modWall_collIdx (f : Wall → Wall) : (modWall s n f).collIdx = s.collIdx := rfl
@[simp] theorem modWall_dies (f : Wall → Wall) : (modWall s n f).dies = s.dies := rfl
@[simp] theorem modWall_links (f : Wall → Wall) : (modWall s n f).links = s.links := rfl
@[simp] theorem modWall_quads (f : Wall → Wall) : (modWall s n f).quads = s.quads := rfl
@[simp] theorem modWall_pstep (f : Wall → Wall) : (modWall s n f).pstep = s.pstep := rfl
@[simp] theorem modWall_pover (f : Wall → Wall) : (modWall s n f).pover = s.pover := rfl
@[simp] theorem modWall_watt (f : Wall → Wall) : (modWall s n f).watt = s.watt := rfl
@[simp] theorem modWall_module (f : Wall → Wall) : (modWall s n f).module = s.module := rfl
@[simp] theorem modWall_key (f : Wall → Wall) : (modWall s n f).key = s.key := rfl
@[simp] theorem modWall_keyPart (f : Wall → Wall) : (modWall s n f).keyPart = s.keyPart := rfl
@[simp] theorem modWall_badKeys (f : Wall → Wall) : (modWall s n f).badKeys = s.badKeys := rfl
@[simp] theorem modWall_keyMap (f : Wall → Wall) : (modWall s n f).keyMap = s.keyMap := rfl
@[simp] theorem modWall_modKeys (f : Wall → Wall) : (modWall s n f).modKeys = s.modKeys := rfl
@[simp] theorem modWall_lasid (f : Wall → Wall) : (modWall s n f).lasid = s.lasid := rfl
@[simp] theorem modWall_acc (f : Wall → Wall) : (modWall s n f).acc = s.acc := rfl
@[simp] theorem modWall_bad (f : Wall → Wall) : (modWall s n f).bad = s.bad := rfl
@[simp] theorem modWall_lost (f : Wall → Wall) : (modWall s n f).lost = s.lost := rfl
@[simp] theorem modWall_attest (f : Wall → Wall) : (modWall s n f).attest = s.attest := rfl

/-! #### modCore -/

@[simp] theorem modCore_clk (f : Core → Core) : (modCore s n f).clk = s.clk := rfl
@[simp] theorem modCore_free (f : Core → Core) : (modCore s n f).free = s.free := rfl
@[simp] theorem modCore_focus (f : Core → Core) : (modCore s n f).focus = s.focus := rfl
@[simp] theorem modCore_inputs (f : Core → Core) : (modCore s n f).inputs = s.inputs := rfl
@[simp] theorem modCore_faultsIn (f : Core → Core) : (modCore s n f).faultsIn = s.faultsIn := rfl
@[simp] theorem modCore_sent (f : Core → Core) : (modCore s n f).sent = s.sent := rfl
@[simp] theorem modCore_mem (f : Core → Core) : (modCore s n f).mem = s.mem := rfl
@[simp] theorem modCore_mmeta (f : Core → Core) : (modCore s n f).mmeta = s.mmeta := rfl
@[simp] theorem modCore_lmem (f : Core → Core) : (modCore s n f).lmem = s.lmem := rfl
@[simp] theorem modCore_lmeta (f : Core → Core) : (modCore s n f).lmeta = s.lmeta := rfl
@[simp] theorem modCore_pairs (f : Core → Core) : (modCore s n f).pairs = s.pairs := rfl
@[simp] theorem modCore_tlb (f : Core → Core) : (modCore s n f).tlb = s.tlb := rfl
@[simp] theorem modCore_asidTab (f : Core → Core) : (modCore s n f).asidTab = s.asidTab := rfl
@[simp] theorem modCore_plim (f : Core → Core) : (modCore s n f).plim = s.plim := rfl
@[simp] theorem modCore_reqSig (f : Core → Core) : (modCore s n f).reqSig = s.reqSig := rfl
@[simp] theorem modCore_bricks (f : Core → Core) : (modCore s n f).bricks = s.bricks := rfl
@[simp] theorem modCore_nextB (f : Core → Core) : (modCore s n f).nextB = s.nextB := rfl
@[simp] theorem modCore_walls (f : Core → Core) : (modCore s n f).walls = s.walls := rfl
@[simp] theorem modCore_nextW (f : Core → Core) : (modCore s n f).nextW = s.nextW := rfl
@[simp] theorem modCore_launches (f : Core → Core) : (modCore s n f).launches = s.launches := rfl
@[simp] theorem modCore_nextL (f : Core → Core) : (modCore s n f).nextL = s.nextL := rfl
@[simp] theorem modCore_submits (f : Core → Core) : (modCore s n f).submits = s.submits := rfl
@[simp] theorem modCore_cores (f : Core → Core) : (modCore s n f).cores = tabSet s.cores n Core.start (f (coreOf s n)) := rfl
@[simp] theorem modCore_parts (f : Core → Core) : (modCore s n f).parts = s.parts := rfl
@[simp] theorem modCore_sems (f : Core → Core) : (modCore s n f).sems = s.sems := rfl
@[simp] theorem modCore_nets (f : Core → Core) : (modCore s n f).nets = s.nets := rfl
@[simp] theorem modCore_copies (f : Core → Core) : (modCore s n f).copies = s.copies := rfl
@[simp] theorem modCore_nextC (f : Core → Core) : (modCore s n f).nextC = s.nextC := rfl
@[simp] theorem modCore_colls (f : Core → Core) : (modCore s n f).colls = s.colls := rfl
@[simp] theorem modCore_collIdx (f : Core → Core) : (modCore s n f).collIdx = s.collIdx := rfl
@[simp] theorem modCore_dies (f : Core → Core) : (modCore s n f).dies = s.dies := rfl
@[simp] theorem modCore_links (f : Core → Core) : (modCore s n f).links = s.links := rfl
@[simp] theorem modCore_quads (f : Core → Core) : (modCore s n f).quads = s.quads := rfl
@[simp] theorem modCore_pstep (f : Core → Core) : (modCore s n f).pstep = s.pstep := rfl
@[simp] theorem modCore_pover (f : Core → Core) : (modCore s n f).pover = s.pover := rfl
@[simp] theorem modCore_watt (f : Core → Core) : (modCore s n f).watt = s.watt := rfl
@[simp] theorem modCore_module (f : Core → Core) : (modCore s n f).module = s.module := rfl
@[simp] theorem modCore_key (f : Core → Core) : (modCore s n f).key = s.key := rfl
@[simp] theorem modCore_keyPart (f : Core → Core) : (modCore s n f).keyPart = s.keyPart := rfl
@[simp] theorem modCore_badKeys (f : Core → Core) : (modCore s n f).badKeys = s.badKeys := rfl
@[simp] theorem modCore_keyMap (f : Core → Core) : (modCore s n f).keyMap = s.keyMap := rfl
@[simp] theorem modCore_modKeys (f : Core → Core) : (modCore s n f).modKeys = s.modKeys := rfl
@[simp] theorem modCore_lasid (f : Core → Core) : (modCore s n f).lasid = s.lasid := rfl
@[simp] theorem modCore_acc (f : Core → Core) : (modCore s n f).acc = s.acc := rfl
@[simp] theorem modCore_bad (f : Core → Core) : (modCore s n f).bad = s.bad := rfl
@[simp] theorem modCore_lost (f : Core → Core) : (modCore s n f).lost = s.lost := rfl
@[simp] theorem modCore_attest (f : Core → Core) : (modCore s n f).attest = s.attest := rfl

/-! #### modPart -/

@[simp] theorem modPart_clk (f : Part → Part) : (modPart s n f).clk = s.clk := rfl
@[simp] theorem modPart_free (f : Part → Part) : (modPart s n f).free = s.free := rfl
@[simp] theorem modPart_focus (f : Part → Part) : (modPart s n f).focus = s.focus := rfl
@[simp] theorem modPart_inputs (f : Part → Part) : (modPart s n f).inputs = s.inputs := rfl
@[simp] theorem modPart_faultsIn (f : Part → Part) : (modPart s n f).faultsIn = s.faultsIn := rfl
@[simp] theorem modPart_sent (f : Part → Part) : (modPart s n f).sent = s.sent := rfl
@[simp] theorem modPart_mem (f : Part → Part) : (modPart s n f).mem = s.mem := rfl
@[simp] theorem modPart_mmeta (f : Part → Part) : (modPart s n f).mmeta = s.mmeta := rfl
@[simp] theorem modPart_lmem (f : Part → Part) : (modPart s n f).lmem = s.lmem := rfl
@[simp] theorem modPart_lmeta (f : Part → Part) : (modPart s n f).lmeta = s.lmeta := rfl
@[simp] theorem modPart_pairs (f : Part → Part) : (modPart s n f).pairs = s.pairs := rfl
@[simp] theorem modPart_tlb (f : Part → Part) : (modPart s n f).tlb = s.tlb := rfl
@[simp] theorem modPart_asidTab (f : Part → Part) : (modPart s n f).asidTab = s.asidTab := rfl
@[simp] theorem modPart_plim (f : Part → Part) : (modPart s n f).plim = s.plim := rfl
@[simp] theorem modPart_reqSig (f : Part → Part) : (modPart s n f).reqSig = s.reqSig := rfl
@[simp] theorem modPart_bricks (f : Part → Part) : (modPart s n f).bricks = s.bricks := rfl
@[simp] theorem modPart_nextB (f : Part → Part) : (modPart s n f).nextB = s.nextB := rfl
@[simp] theorem modPart_walls (f : Part → Part) : (modPart s n f).walls = s.walls := rfl
@[simp] theorem modPart_nextW (f : Part → Part) : (modPart s n f).nextW = s.nextW := rfl
@[simp] theorem modPart_launches (f : Part → Part) : (modPart s n f).launches = s.launches := rfl
@[simp] theorem modPart_nextL (f : Part → Part) : (modPart s n f).nextL = s.nextL := rfl
@[simp] theorem modPart_submits (f : Part → Part) : (modPart s n f).submits = s.submits := rfl
@[simp] theorem modPart_cores (f : Part → Part) : (modPart s n f).cores = s.cores := rfl
@[simp] theorem modPart_parts (f : Part → Part) : (modPart s n f).parts = tabSet s.parts n Part.start (f (partOf s n)) := rfl
@[simp] theorem modPart_sems (f : Part → Part) : (modPart s n f).sems = s.sems := rfl
@[simp] theorem modPart_nets (f : Part → Part) : (modPart s n f).nets = s.nets := rfl
@[simp] theorem modPart_copies (f : Part → Part) : (modPart s n f).copies = s.copies := rfl
@[simp] theorem modPart_nextC (f : Part → Part) : (modPart s n f).nextC = s.nextC := rfl
@[simp] theorem modPart_colls (f : Part → Part) : (modPart s n f).colls = s.colls := rfl
@[simp] theorem modPart_collIdx (f : Part → Part) : (modPart s n f).collIdx = s.collIdx := rfl
@[simp] theorem modPart_dies (f : Part → Part) : (modPart s n f).dies = s.dies := rfl
@[simp] theorem modPart_links (f : Part → Part) : (modPart s n f).links = s.links := rfl
@[simp] theorem modPart_quads (f : Part → Part) : (modPart s n f).quads = s.quads := rfl
@[simp] theorem modPart_pstep (f : Part → Part) : (modPart s n f).pstep = s.pstep := rfl
@[simp] theorem modPart_pover (f : Part → Part) : (modPart s n f).pover = s.pover := rfl
@[simp] theorem modPart_watt (f : Part → Part) : (modPart s n f).watt = s.watt := rfl
@[simp] theorem modPart_module (f : Part → Part) : (modPart s n f).module = s.module := rfl
@[simp] theorem modPart_key (f : Part → Part) : (modPart s n f).key = s.key := rfl
@[simp] theorem modPart_keyPart (f : Part → Part) : (modPart s n f).keyPart = s.keyPart := rfl
@[simp] theorem modPart_badKeys (f : Part → Part) : (modPart s n f).badKeys = s.badKeys := rfl
@[simp] theorem modPart_keyMap (f : Part → Part) : (modPart s n f).keyMap = s.keyMap := rfl
@[simp] theorem modPart_modKeys (f : Part → Part) : (modPart s n f).modKeys = s.modKeys := rfl
@[simp] theorem modPart_lasid (f : Part → Part) : (modPart s n f).lasid = s.lasid := rfl
@[simp] theorem modPart_acc (f : Part → Part) : (modPart s n f).acc = s.acc := rfl
@[simp] theorem modPart_bad (f : Part → Part) : (modPart s n f).bad = s.bad := rfl
@[simp] theorem modPart_lost (f : Part → Part) : (modPart s n f).lost = s.lost := rfl
@[simp] theorem modPart_attest (f : Part → Part) : (modPart s n f).attest = s.attest := rfl

/-! #### modDie -/

@[simp] theorem modDie_clk (f : Die → Die) : (modDie s n f).clk = s.clk := rfl
@[simp] theorem modDie_free (f : Die → Die) : (modDie s n f).free = s.free := rfl
@[simp] theorem modDie_focus (f : Die → Die) : (modDie s n f).focus = s.focus := rfl
@[simp] theorem modDie_inputs (f : Die → Die) : (modDie s n f).inputs = s.inputs := rfl
@[simp] theorem modDie_faultsIn (f : Die → Die) : (modDie s n f).faultsIn = s.faultsIn := rfl
@[simp] theorem modDie_sent (f : Die → Die) : (modDie s n f).sent = s.sent := rfl
@[simp] theorem modDie_mem (f : Die → Die) : (modDie s n f).mem = s.mem := rfl
@[simp] theorem modDie_mmeta (f : Die → Die) : (modDie s n f).mmeta = s.mmeta := rfl
@[simp] theorem modDie_lmem (f : Die → Die) : (modDie s n f).lmem = s.lmem := rfl
@[simp] theorem modDie_lmeta (f : Die → Die) : (modDie s n f).lmeta = s.lmeta := rfl
@[simp] theorem modDie_pairs (f : Die → Die) : (modDie s n f).pairs = s.pairs := rfl
@[simp] theorem modDie_tlb (f : Die → Die) : (modDie s n f).tlb = s.tlb := rfl
@[simp] theorem modDie_asidTab (f : Die → Die) : (modDie s n f).asidTab = s.asidTab := rfl
@[simp] theorem modDie_plim (f : Die → Die) : (modDie s n f).plim = s.plim := rfl
@[simp] theorem modDie_reqSig (f : Die → Die) : (modDie s n f).reqSig = s.reqSig := rfl
@[simp] theorem modDie_bricks (f : Die → Die) : (modDie s n f).bricks = s.bricks := rfl
@[simp] theorem modDie_nextB (f : Die → Die) : (modDie s n f).nextB = s.nextB := rfl
@[simp] theorem modDie_walls (f : Die → Die) : (modDie s n f).walls = s.walls := rfl
@[simp] theorem modDie_nextW (f : Die → Die) : (modDie s n f).nextW = s.nextW := rfl
@[simp] theorem modDie_launches (f : Die → Die) : (modDie s n f).launches = s.launches := rfl
@[simp] theorem modDie_nextL (f : Die → Die) : (modDie s n f).nextL = s.nextL := rfl
@[simp] theorem modDie_submits (f : Die → Die) : (modDie s n f).submits = s.submits := rfl
@[simp] theorem modDie_cores (f : Die → Die) : (modDie s n f).cores = s.cores := rfl
@[simp] theorem modDie_parts (f : Die → Die) : (modDie s n f).parts = s.parts := rfl
@[simp] theorem modDie_sems (f : Die → Die) : (modDie s n f).sems = s.sems := rfl
@[simp] theorem modDie_nets (f : Die → Die) : (modDie s n f).nets = s.nets := rfl
@[simp] theorem modDie_copies (f : Die → Die) : (modDie s n f).copies = s.copies := rfl
@[simp] theorem modDie_nextC (f : Die → Die) : (modDie s n f).nextC = s.nextC := rfl
@[simp] theorem modDie_colls (f : Die → Die) : (modDie s n f).colls = s.colls := rfl
@[simp] theorem modDie_collIdx (f : Die → Die) : (modDie s n f).collIdx = s.collIdx := rfl
@[simp] theorem modDie_dies (f : Die → Die) : (modDie s n f).dies = tabSet s.dies n Die.start (f (dieState s n)) := rfl
@[simp] theorem modDie_links (f : Die → Die) : (modDie s n f).links = s.links := rfl
@[simp] theorem modDie_quads (f : Die → Die) : (modDie s n f).quads = s.quads := rfl
@[simp] theorem modDie_pstep (f : Die → Die) : (modDie s n f).pstep = s.pstep := rfl
@[simp] theorem modDie_pover (f : Die → Die) : (modDie s n f).pover = s.pover := rfl
@[simp] theorem modDie_watt (f : Die → Die) : (modDie s n f).watt = s.watt := rfl
@[simp] theorem modDie_module (f : Die → Die) : (modDie s n f).module = s.module := rfl
@[simp] theorem modDie_key (f : Die → Die) : (modDie s n f).key = s.key := rfl
@[simp] theorem modDie_keyPart (f : Die → Die) : (modDie s n f).keyPart = s.keyPart := rfl
@[simp] theorem modDie_badKeys (f : Die → Die) : (modDie s n f).badKeys = s.badKeys := rfl
@[simp] theorem modDie_keyMap (f : Die → Die) : (modDie s n f).keyMap = s.keyMap := rfl
@[simp] theorem modDie_modKeys (f : Die → Die) : (modDie s n f).modKeys = s.modKeys := rfl
@[simp] theorem modDie_lasid (f : Die → Die) : (modDie s n f).lasid = s.lasid := rfl
@[simp] theorem modDie_acc (f : Die → Die) : (modDie s n f).acc = s.acc := rfl
@[simp] theorem modDie_bad (f : Die → Die) : (modDie s n f).bad = s.bad := rfl
@[simp] theorem modDie_lost (f : Die → Die) : (modDie s n f).lost = s.lost := rfl
@[simp] theorem modDie_attest (f : Die → Die) : (modDie s n f).attest = s.attest := rfl

/-! #### The two writes of memory -/

@[simp] theorem putByte_clk (l : Loc) (x : Byte) : (putByte s l x).clk = s.clk := by cases l <;> rfl
@[simp] theorem putByte_free (l : Loc) (x : Byte) : (putByte s l x).free = s.free := by cases l <;> rfl
@[simp] theorem putByte_focus (l : Loc) (x : Byte) : (putByte s l x).focus = s.focus := by cases l <;> rfl
@[simp] theorem putByte_inputs (l : Loc) (x : Byte) : (putByte s l x).inputs = s.inputs := by cases l <;> rfl
@[simp] theorem putByte_faultsIn (l : Loc) (x : Byte) : (putByte s l x).faultsIn = s.faultsIn := by cases l <;> rfl
@[simp] theorem putByte_sent (l : Loc) (x : Byte) : (putByte s l x).sent = s.sent := by cases l <;> rfl
@[simp] theorem putByte_mmeta (l : Loc) (x : Byte) : (putByte s l x).mmeta = s.mmeta := by cases l <;> rfl
@[simp] theorem putByte_lmeta (l : Loc) (x : Byte) : (putByte s l x).lmeta = s.lmeta := by cases l <;> rfl
@[simp] theorem putByte_pairs (l : Loc) (x : Byte) : (putByte s l x).pairs = s.pairs := by cases l <;> rfl
@[simp] theorem putByte_tlb (l : Loc) (x : Byte) : (putByte s l x).tlb = s.tlb := by cases l <;> rfl
@[simp] theorem putByte_asidTab (l : Loc) (x : Byte) : (putByte s l x).asidTab = s.asidTab := by cases l <;> rfl
@[simp] theorem putByte_plim (l : Loc) (x : Byte) : (putByte s l x).plim = s.plim := by cases l <;> rfl
@[simp] theorem putByte_reqSig (l : Loc) (x : Byte) : (putByte s l x).reqSig = s.reqSig := by cases l <;> rfl
@[simp] theorem putByte_bricks (l : Loc) (x : Byte) : (putByte s l x).bricks = s.bricks := by cases l <;> rfl
@[simp] theorem putByte_nextB (l : Loc) (x : Byte) : (putByte s l x).nextB = s.nextB := by cases l <;> rfl
@[simp] theorem putByte_walls (l : Loc) (x : Byte) : (putByte s l x).walls = s.walls := by cases l <;> rfl
@[simp] theorem putByte_nextW (l : Loc) (x : Byte) : (putByte s l x).nextW = s.nextW := by cases l <;> rfl
@[simp] theorem putByte_launches (l : Loc) (x : Byte) : (putByte s l x).launches = s.launches := by cases l <;> rfl
@[simp] theorem putByte_nextL (l : Loc) (x : Byte) : (putByte s l x).nextL = s.nextL := by cases l <;> rfl
@[simp] theorem putByte_submits (l : Loc) (x : Byte) : (putByte s l x).submits = s.submits := by cases l <;> rfl
@[simp] theorem putByte_cores (l : Loc) (x : Byte) : (putByte s l x).cores = s.cores := by cases l <;> rfl
@[simp] theorem putByte_parts (l : Loc) (x : Byte) : (putByte s l x).parts = s.parts := by cases l <;> rfl
@[simp] theorem putByte_sems (l : Loc) (x : Byte) : (putByte s l x).sems = s.sems := by cases l <;> rfl
@[simp] theorem putByte_nets (l : Loc) (x : Byte) : (putByte s l x).nets = s.nets := by cases l <;> rfl
@[simp] theorem putByte_copies (l : Loc) (x : Byte) : (putByte s l x).copies = s.copies := by cases l <;> rfl
@[simp] theorem putByte_nextC (l : Loc) (x : Byte) : (putByte s l x).nextC = s.nextC := by cases l <;> rfl
@[simp] theorem putByte_colls (l : Loc) (x : Byte) : (putByte s l x).colls = s.colls := by cases l <;> rfl
@[simp] theorem putByte_collIdx (l : Loc) (x : Byte) : (putByte s l x).collIdx = s.collIdx := by cases l <;> rfl
@[simp] theorem putByte_dies (l : Loc) (x : Byte) : (putByte s l x).dies = s.dies := by cases l <;> rfl
@[simp] theorem putByte_links (l : Loc) (x : Byte) : (putByte s l x).links = s.links := by cases l <;> rfl
@[simp] theorem putByte_quads (l : Loc) (x : Byte) : (putByte s l x).quads = s.quads := by cases l <;> rfl
@[simp] theorem putByte_pstep (l : Loc) (x : Byte) : (putByte s l x).pstep = s.pstep := by cases l <;> rfl
@[simp] theorem putByte_pover (l : Loc) (x : Byte) : (putByte s l x).pover = s.pover := by cases l <;> rfl
@[simp] theorem putByte_watt (l : Loc) (x : Byte) : (putByte s l x).watt = s.watt := by cases l <;> rfl
@[simp] theorem putByte_module (l : Loc) (x : Byte) : (putByte s l x).module = s.module := by cases l <;> rfl
@[simp] theorem putByte_key (l : Loc) (x : Byte) : (putByte s l x).key = s.key := by cases l <;> rfl
@[simp] theorem putByte_keyPart (l : Loc) (x : Byte) : (putByte s l x).keyPart = s.keyPart := by cases l <;> rfl
@[simp] theorem putByte_badKeys (l : Loc) (x : Byte) : (putByte s l x).badKeys = s.badKeys := by cases l <;> rfl
@[simp] theorem putByte_keyMap (l : Loc) (x : Byte) : (putByte s l x).keyMap = s.keyMap := by cases l <;> rfl
@[simp] theorem putByte_modKeys (l : Loc) (x : Byte) : (putByte s l x).modKeys = s.modKeys := by cases l <;> rfl
@[simp] theorem putByte_lasid (l : Loc) (x : Byte) : (putByte s l x).lasid = s.lasid := by cases l <;> rfl
@[simp] theorem putByte_acc (l : Loc) (x : Byte) : (putByte s l x).acc = s.acc := by cases l <;> rfl
@[simp] theorem putByte_bad (l : Loc) (x : Byte) : (putByte s l x).bad = s.bad := by cases l <;> rfl
@[simp] theorem putByte_lost (l : Loc) (x : Byte) : (putByte s l x).lost = s.lost := by cases l <;> rfl
@[simp] theorem putByte_attest (l : Loc) (x : Byte) : (putByte s l x).attest = s.attest := by cases l <;> rfl

@[simp] theorem putMeta_clk (l : Loc) (m : LineMeta) : (putMeta s l m).clk = s.clk := by
  cases l with
  | loc _ _ => rfl
  | phys pa => simp only [putMeta]; split <;> rfl
@[simp] theorem putMeta_free (l : Loc) (m : LineMeta) : (putMeta s l m).free = s.free := by
  cases l with
  | loc _ _ => rfl
  | phys pa => simp only [putMeta]; split <;> rfl
@[simp] theorem putMeta_focus (l : Loc) (m : LineMeta) : (putMeta s l m).focus = s.focus := by
  cases l with
  | loc _ _ => rfl
  | phys pa => simp only [putMeta]; split <;> rfl
@[simp] theorem putMeta_inputs (l : Loc) (m : LineMeta) : (putMeta s l m).inputs = s.inputs := by
  cases l with
  | loc _ _ => rfl
  | phys pa => simp only [putMeta]; split <;> rfl
@[simp] theorem putMeta_faultsIn (l : Loc) (m : LineMeta) : (putMeta s l m).faultsIn = s.faultsIn := by
  cases l with
  | loc _ _ => rfl
  | phys pa => simp only [putMeta]; split <;> rfl
@[simp] theorem putMeta_sent (l : Loc) (m : LineMeta) : (putMeta s l m).sent = s.sent := by
  cases l with
  | loc _ _ => rfl
  | phys pa => simp only [putMeta]; split <;> rfl
@[simp] theorem putMeta_mem (l : Loc) (m : LineMeta) : (putMeta s l m).mem = s.mem := by
  cases l with
  | loc _ _ => rfl
  | phys pa => simp only [putMeta]; split <;> rfl
@[simp] theorem putMeta_lmem (l : Loc) (m : LineMeta) : (putMeta s l m).lmem = s.lmem := by
  cases l with
  | loc _ _ => rfl
  | phys pa => simp only [putMeta]; split <;> rfl
@[simp] theorem putMeta_pairs (l : Loc) (m : LineMeta) : (putMeta s l m).pairs = s.pairs := by
  cases l with
  | loc _ _ => rfl
  | phys pa => simp only [putMeta]; split <;> rfl
@[simp] theorem putMeta_tlb (l : Loc) (m : LineMeta) : (putMeta s l m).tlb = s.tlb := by
  cases l with
  | loc _ _ => rfl
  | phys pa => simp only [putMeta]; split <;> rfl
@[simp] theorem putMeta_asidTab (l : Loc) (m : LineMeta) : (putMeta s l m).asidTab = s.asidTab := by
  cases l with
  | loc _ _ => rfl
  | phys pa => simp only [putMeta]; split <;> rfl
@[simp] theorem putMeta_plim (l : Loc) (m : LineMeta) : (putMeta s l m).plim = s.plim := by
  cases l with
  | loc _ _ => rfl
  | phys pa => simp only [putMeta]; split <;> rfl
@[simp] theorem putMeta_reqSig (l : Loc) (m : LineMeta) : (putMeta s l m).reqSig = s.reqSig := by
  cases l with
  | loc _ _ => rfl
  | phys pa => simp only [putMeta]; split <;> rfl
@[simp] theorem putMeta_bricks (l : Loc) (m : LineMeta) : (putMeta s l m).bricks = s.bricks := by
  cases l with
  | loc _ _ => rfl
  | phys pa => simp only [putMeta]; split <;> rfl
@[simp] theorem putMeta_nextB (l : Loc) (m : LineMeta) : (putMeta s l m).nextB = s.nextB := by
  cases l with
  | loc _ _ => rfl
  | phys pa => simp only [putMeta]; split <;> rfl
@[simp] theorem putMeta_walls (l : Loc) (m : LineMeta) : (putMeta s l m).walls = s.walls := by
  cases l with
  | loc _ _ => rfl
  | phys pa => simp only [putMeta]; split <;> rfl
@[simp] theorem putMeta_nextW (l : Loc) (m : LineMeta) : (putMeta s l m).nextW = s.nextW := by
  cases l with
  | loc _ _ => rfl
  | phys pa => simp only [putMeta]; split <;> rfl
@[simp] theorem putMeta_launches (l : Loc) (m : LineMeta) : (putMeta s l m).launches = s.launches := by
  cases l with
  | loc _ _ => rfl
  | phys pa => simp only [putMeta]; split <;> rfl
@[simp] theorem putMeta_nextL (l : Loc) (m : LineMeta) : (putMeta s l m).nextL = s.nextL := by
  cases l with
  | loc _ _ => rfl
  | phys pa => simp only [putMeta]; split <;> rfl
@[simp] theorem putMeta_submits (l : Loc) (m : LineMeta) : (putMeta s l m).submits = s.submits := by
  cases l with
  | loc _ _ => rfl
  | phys pa => simp only [putMeta]; split <;> rfl
@[simp] theorem putMeta_cores (l : Loc) (m : LineMeta) : (putMeta s l m).cores = s.cores := by
  cases l with
  | loc _ _ => rfl
  | phys pa => simp only [putMeta]; split <;> rfl
@[simp] theorem putMeta_parts (l : Loc) (m : LineMeta) : (putMeta s l m).parts = s.parts := by
  cases l with
  | loc _ _ => rfl
  | phys pa => simp only [putMeta]; split <;> rfl
@[simp] theorem putMeta_sems (l : Loc) (m : LineMeta) : (putMeta s l m).sems = s.sems := by
  cases l with
  | loc _ _ => rfl
  | phys pa => simp only [putMeta]; split <;> rfl
@[simp] theorem putMeta_nets (l : Loc) (m : LineMeta) : (putMeta s l m).nets = s.nets := by
  cases l with
  | loc _ _ => rfl
  | phys pa => simp only [putMeta]; split <;> rfl
@[simp] theorem putMeta_copies (l : Loc) (m : LineMeta) : (putMeta s l m).copies = s.copies := by
  cases l with
  | loc _ _ => rfl
  | phys pa => simp only [putMeta]; split <;> rfl
@[simp] theorem putMeta_nextC (l : Loc) (m : LineMeta) : (putMeta s l m).nextC = s.nextC := by
  cases l with
  | loc _ _ => rfl
  | phys pa => simp only [putMeta]; split <;> rfl
@[simp] theorem putMeta_colls (l : Loc) (m : LineMeta) : (putMeta s l m).colls = s.colls := by
  cases l with
  | loc _ _ => rfl
  | phys pa => simp only [putMeta]; split <;> rfl
@[simp] theorem putMeta_collIdx (l : Loc) (m : LineMeta) : (putMeta s l m).collIdx = s.collIdx := by
  cases l with
  | loc _ _ => rfl
  | phys pa => simp only [putMeta]; split <;> rfl
@[simp] theorem putMeta_dies (l : Loc) (m : LineMeta) : (putMeta s l m).dies = s.dies := by
  cases l with
  | loc _ _ => rfl
  | phys pa => simp only [putMeta]; split <;> rfl
@[simp] theorem putMeta_links (l : Loc) (m : LineMeta) : (putMeta s l m).links = s.links := by
  cases l with
  | loc _ _ => rfl
  | phys pa => simp only [putMeta]; split <;> rfl
@[simp] theorem putMeta_quads (l : Loc) (m : LineMeta) : (putMeta s l m).quads = s.quads := by
  cases l with
  | loc _ _ => rfl
  | phys pa => simp only [putMeta]; split <;> rfl
@[simp] theorem putMeta_pstep (l : Loc) (m : LineMeta) : (putMeta s l m).pstep = s.pstep := by
  cases l with
  | loc _ _ => rfl
  | phys pa => simp only [putMeta]; split <;> rfl
@[simp] theorem putMeta_pover (l : Loc) (m : LineMeta) : (putMeta s l m).pover = s.pover := by
  cases l with
  | loc _ _ => rfl
  | phys pa => simp only [putMeta]; split <;> rfl
@[simp] theorem putMeta_watt (l : Loc) (m : LineMeta) : (putMeta s l m).watt = s.watt := by
  cases l with
  | loc _ _ => rfl
  | phys pa => simp only [putMeta]; split <;> rfl
@[simp] theorem putMeta_module (l : Loc) (m : LineMeta) : (putMeta s l m).module = s.module := by
  cases l with
  | loc _ _ => rfl
  | phys pa => simp only [putMeta]; split <;> rfl
@[simp] theorem putMeta_key (l : Loc) (m : LineMeta) : (putMeta s l m).key = s.key := by
  cases l with
  | loc _ _ => rfl
  | phys pa => simp only [putMeta]; split <;> rfl
@[simp] theorem putMeta_keyPart (l : Loc) (m : LineMeta) : (putMeta s l m).keyPart = s.keyPart := by
  cases l with
  | loc _ _ => rfl
  | phys pa => simp only [putMeta]; split <;> rfl
@[simp] theorem putMeta_badKeys (l : Loc) (m : LineMeta) : (putMeta s l m).badKeys = s.badKeys := by
  cases l with
  | loc _ _ => rfl
  | phys pa => simp only [putMeta]; split <;> rfl
@[simp] theorem putMeta_keyMap (l : Loc) (m : LineMeta) : (putMeta s l m).keyMap = s.keyMap := by
  cases l with
  | loc _ _ => rfl
  | phys pa => simp only [putMeta]; split <;> rfl
@[simp] theorem putMeta_modKeys (l : Loc) (m : LineMeta) : (putMeta s l m).modKeys = s.modKeys := by
  cases l with
  | loc _ _ => rfl
  | phys pa => simp only [putMeta]; split <;> rfl
@[simp] theorem putMeta_lasid (l : Loc) (m : LineMeta) : (putMeta s l m).lasid = s.lasid := by
  cases l with
  | loc _ _ => rfl
  | phys pa => simp only [putMeta]; split <;> rfl
@[simp] theorem putMeta_acc (l : Loc) (m : LineMeta) : (putMeta s l m).acc = s.acc := by
  cases l with
  | loc _ _ => rfl
  | phys pa => simp only [putMeta]; split <;> rfl
@[simp] theorem putMeta_bad (l : Loc) (m : LineMeta) : (putMeta s l m).bad = s.bad := by
  cases l with
  | loc _ _ => rfl
  | phys pa => simp only [putMeta]; split <;> rfl
@[simp] theorem putMeta_lost (l : Loc) (m : LineMeta) : (putMeta s l m).lost = s.lost := by
  cases l with
  | loc _ _ => rfl
  | phys pa => simp only [putMeta]; split <;> rfl
@[simp] theorem putMeta_attest (l : Loc) (m : LineMeta) : (putMeta s l m).attest = s.attest := by
  cases l with
  | loc _ _ => rfl
  | phys pa => simp only [putMeta]; split <;> rfl

/-! #### The splits of a brick -/

@[simp] theorem Brick.setSplit_id (br : Brick) (sp : Split) : (br.setSplit n sp).id = br.id := rfl
@[simp] theorem Brick.setSplit_launch (br : Brick) (sp : Split) : (br.setSplit n sp).launch = br.launch := rfl
@[simp] theorem Brick.setSplit_wall (br : Brick) (sp : Split) : (br.setSplit n sp).wall = br.wall := rfl
@[simp] theorem Brick.setSplit_role (br : Brick) (sp : Split) : (br.setSplit n sp).role = br.role := rfl
@[simp] theorem Brick.setSplit_core (br : Brick) (sp : Split) : (br.setSplit n sp).core = br.core := rfl
@[simp] theorem Brick.setSplit_part (br : Brick) (sp : Split) : (br.setSplit n sp).part = br.part := rfl
@[simp] theorem Brick.setSplit_slot (br : Brick) (sp : Split) : (br.setSplit n sp).slot = br.slot := rfl
@[simp] theorem Brick.setSplit_age (br : Brick) (sp : Split) : (br.setSplit n sp).age = br.age := rfl
@[simp] theorem Brick.setSplit_placed (br : Brick) (sp : Split) : (br.setSplit n sp).placed = br.placed := rfl
@[simp] theorem Brick.setSplit_gran (br : Brick) (sp : Split) : (br.setSplit n sp).gran = br.gran := rfl
@[simp] theorem Brick.setSplit_unis (br : Brick) (sp : Split) : (br.setSplit n sp).unis = br.unis := rfl
@[simp] theorem Brick.setSplit_emask (br : Brick) (sp : Split) : (br.setSplit n sp).emask = br.emask := rfl
@[simp] theorem Brick.setSplit_bprio (br : Brick) (sp : Split) : (br.setSplit n sp).bprio = br.bprio := rfl
@[simp] theorem Brick.setSplit_prio (br : Brick) (sp : Split) : (br.setSplit n sp).prio = br.prio := rfl
@[simp] theorem Brick.setSplit_det (br : Brick) (sp : Split) : (br.setSplit n sp).det = br.det := rfl
@[simp] theorem Brick.setSplit_prv (br : Brick) (sp : Split) : (br.setSplit n sp).prv = br.prv := rfl
@[simp] theorem Brick.setSplit_threads (br : Brick) (sp : Split) : (br.setSplit n sp).threads = br.threads := rfl
@[simp] theorem Brick.setSplit_lane (br : Brick) (sp : Split) : (br.setSplit n sp).lane = br.lane := rfl
@[simp] theorem Brick.setSplit_uni (br : Brick) (sp : Split) : (br.setSplit n sp).uni = br.uni := rfl
@[simp] theorem Brick.setSplit_msk (br : Brick) (sp : Split) : (br.setSplit n sp).msk = br.msk := rfl
@[simp] theorem Brick.setSplit_fx (br : Brick) (sp : Split) : (br.setSplit n sp).fx = br.fx := rfl
@[simp] theorem Brick.setSplit_cst (br : Brick) (sp : Split) : (br.setSplit n sp).cst = br.cst := rfl
@[simp] theorem Brick.setSplit_rm (br : Brick) (sp : Split) : (br.setSplit n sp).rm = br.rm := rfl
@[simp] theorem Brick.setSplit_ten (br : Brick) (sp : Split) : (br.setSplit n sp).ten = br.ten := rfl
@[simp] theorem Brick.setSplit_sbc (br : Brick) (sp : Split) : (br.setSplit n sp).sbc = br.sbc := rfl
@[simp] theorem Brick.setSplit_sr (br : Brick) (sp : Split) : (br.setSplit n sp).sr = br.sr := rfl
@[simp] theorem Brick.setSplit_L (br : Brick) (sp : Split) : (br.setSplit n sp).L = br.L := rfl
@[simp] theorem Brick.setSplit_splits (br : Brick) (sp : Split) : (br.setSplit n sp).splits = tabPut br.splits n sp := rfl
@[simp] theorem Brick.setSplit_cur (br : Brick) (sp : Split) : (br.setSplit n sp).cur = br.cur := rfl
@[simp] theorem Brick.setSplit_groups (br : Brick) (sp : Split) : (br.setSplit n sp).groups = br.groups := rfl
@[simp] theorem Brick.setSplit_nextGr (br : Brick) (sp : Split) : (br.setSplit n sp).nextGr = br.nextGr := rfl
@[simp] theorem Brick.setSplit_pend (br : Brick) (sp : Split) : (br.setSplit n sp).pend = br.pend := rfl
@[simp] theorem Brick.setSplit_fxq (br : Brick) (sp : Split) : (br.setSplit n sp).fxq = br.fxq := rfl
@[simp] theorem Brick.setSplit_divq (br : Brick) (sp : Split) : (br.setSplit n sp).divq = br.divq := rfl
@[simp] theorem Brick.setSplit_marks (br : Brick) (sp : Split) : (br.setSplit n sp).marks = br.marks := rfl
@[simp] theorem Brick.setSplit_issued (br : Brick) (sp : Split) : (br.setSplit n sp).issued = br.issued := rfl
@[simp] theorem Brick.setSplit_ilock (br : Brick) (sp : Split) : (br.setSplit n sp).ilock = br.ilock := rfl
@[simp] theorem Brick.setSplit_flights (br : Brick) (sp : Split) : (br.setSplit n sp).flights = br.flights := rfl
@[simp] theorem Brick.setSplit_seq (br : Brick) (sp : Split) : (br.setSplit n sp).seq = br.seq := rfl
@[simp] theorem Brick.setSplit_cumRel (br : Brick) (sp : Split) : (br.setSplit n sp).cumRel = br.cumRel := rfl
@[simp] theorem Brick.setSplit_acqs (br : Brick) (sp : Split) : (br.setSplit n sp).acqs = br.acqs := rfl
@[simp] theorem Brick.setSplit_tape (br : Brick) (sp : Split) : (br.setSplit n sp).tape = br.tape := rfl
@[simp] theorem Brick.setSplit_tapeLen (br : Brick) (sp : Split) : (br.setSplit n sp).tapeLen = br.tapeLen := rfl
@[simp] theorem Brick.setSplit_chain (br : Brick) (sp : Split) : (br.setSplit n sp).chain = br.chain := rfl
@[simp] theorem Brick.setSplit_copies (br : Brick) (sp : Split) : (br.setSplit n sp).copies = br.copies := rfl
@[simp] theorem Brick.setSplit_readouts (br : Brick) (sp : Split) : (br.setSplit n sp).readouts = br.readouts := rfl
@[simp] theorem Brick.setSplit_cstats (br : Brick) (sp : Split) : (br.setSplit n sp).cstats = br.cstats := rfl
@[simp] theorem Brick.setSplit_banks (br : Brick) (sp : Split) : (br.setSplit n sp).banks = br.banks := rfl
@[simp] theorem Brick.setSplit_held (br : Brick) (sp : Split) : (br.setSplit n sp).held = br.held := rfl
@[simp] theorem Brick.setSplit_arrMarks (br : Brick) (sp : Split) : (br.setSplit n sp).arrMarks = br.arrMarks := rfl
@[simp] theorem Brick.setSplit_lastArr (br : Brick) (sp : Split) : (br.setSplit n sp).lastArr = br.lastArr := rfl
@[simp] theorem Brick.setSplit_window (br : Brick) (sp : Split) : (br.setSplit n sp).window = br.window := rfl
@[simp] theorem Brick.setSplit_winExc (br : Brick) (sp : Split) : (br.setSplit n sp).winExc = br.winExc := rfl
@[simp] theorem Brick.setSplit_trap (br : Brick) (sp : Split) : (br.setSplit n sp).trap = br.trap := rfl
@[simp] theorem Brick.setSplit_late (br : Brick) (sp : Split) : (br.setSplit n sp).late = br.late := rfl
@[simp] theorem Brick.setSplit_owed (br : Brick) (sp : Split) : (br.setSplit n sp).owed = br.owed := rfl
@[simp] theorem Brick.setSplit_inSlot (br : Brick) (sp : Split) : (br.setSplit n sp).inSlot = br.inSlot := rfl
@[simp] theorem Brick.setSplit_info (br : Brick) (sp : Split) : (br.setSplit n sp).info = br.info := rfl
@[simp] theorem Brick.setSplit_addr (br : Brick) (sp : Split) : (br.setSplit n sp).addr = br.addr := rfl
@[simp] theorem Brick.setSplit_tmask (br : Brick) (sp : Split) : (br.setSplit n sp).tmask = br.tmask := rfl
@[simp] theorem Brick.setSplit_aux0 (br : Brick) (sp : Split) : (br.setSplit n sp).aux0 = br.aux0 := rfl
@[simp] theorem Brick.setSplit_aux1 (br : Brick) (sp : Split) : (br.setSplit n sp).aux1 = br.aux1 := rfl
@[simp] theorem Brick.setSplit_vec (br : Brick) (sp : Split) : (br.setSplit n sp).vec = br.vec := rfl
@[simp] theorem Brick.setSplit_ret (br : Brick) (sp : Split) : (br.setSplit n sp).ret = br.ret := rfl
@[simp] theorem Brick.setSplit_repSplit (br : Brick) (sp : Split) : (br.setSplit n sp).repSplit = br.repSplit := rfl
@[simp] theorem Brick.setSplit_inject (br : Brick) (sp : Split) : (br.setSplit n sp).inject = br.inject := rfl
@[simp] theorem Brick.setSplit_injAddr (br : Brick) (sp : Split) : (br.setSplit n sp).injAddr = br.injAddr := rfl
@[simp] theorem Brick.setSplit_armed (br : Brick) (sp : Split) : (br.setSplit n sp).armed = br.armed := rfl
@[simp] theorem Brick.setSplit_dpFault (br : Brick) (sp : Split) : (br.setSplit n sp).dpFault = br.dpFault := rfl
@[simp] theorem Brick.setSplit_halted (br : Brick) (sp : Split) : (br.setSplit n sp).halted = br.halted := rfl
@[simp] theorem Brick.setSplit_debug (br : Brick) (sp : Split) : (br.setSplit n sp).debug = br.debug := rfl
@[simp] theorem Brick.setSplit_focusSp (br : Brick) (sp : Split) : (br.setSplit n sp).focusSp = br.focusSp := rfl
@[simp] theorem Brick.setSplit_stepping (br : Brick) (sp : Split) : (br.setSplit n sp).stepping = br.stepping := rfl
@[simp] theorem Brick.setSplit_since (br : Brick) (sp : Split) : (br.setSplit n sp).since = br.since := rfl
@[simp] theorem Brick.setSplit_eligible (br : Brick) (sp : Split) : (br.setSplit n sp).eligible = br.eligible := rfl
@[simp] theorem Brick.setSplit_killed (br : Brick) (sp : Split) : (br.setSplit n sp).killed = br.killed := rfl
@[simp] theorem Brick.setSplit_tfault (br : Brick) (sp : Split) : (br.setSplit n sp).tfault = br.tfault := rfl

@[simp] theorem Brick.modSplit_id (br : Brick) (f : Split → Split) : (br.modSplit n f).id = br.id := rfl
@[simp] theorem Brick.modSplit_launch (br : Brick) (f : Split → Split) : (br.modSplit n f).launch = br.launch := rfl
@[simp] theorem Brick.modSplit_wall (br : Brick) (f : Split → Split) : (br.modSplit n f).wall = br.wall := rfl
@[simp] theorem Brick.modSplit_role (br : Brick) (f : Split → Split) : (br.modSplit n f).role = br.role := rfl
@[simp] theorem Brick.modSplit_core (br : Brick) (f : Split → Split) : (br.modSplit n f).core = br.core := rfl
@[simp] theorem Brick.modSplit_part (br : Brick) (f : Split → Split) : (br.modSplit n f).part = br.part := rfl
@[simp] theorem Brick.modSplit_slot (br : Brick) (f : Split → Split) : (br.modSplit n f).slot = br.slot := rfl
@[simp] theorem Brick.modSplit_age (br : Brick) (f : Split → Split) : (br.modSplit n f).age = br.age := rfl
@[simp] theorem Brick.modSplit_placed (br : Brick) (f : Split → Split) : (br.modSplit n f).placed = br.placed := rfl
@[simp] theorem Brick.modSplit_gran (br : Brick) (f : Split → Split) : (br.modSplit n f).gran = br.gran := rfl
@[simp] theorem Brick.modSplit_unis (br : Brick) (f : Split → Split) : (br.modSplit n f).unis = br.unis := rfl
@[simp] theorem Brick.modSplit_emask (br : Brick) (f : Split → Split) : (br.modSplit n f).emask = br.emask := rfl
@[simp] theorem Brick.modSplit_bprio (br : Brick) (f : Split → Split) : (br.modSplit n f).bprio = br.bprio := rfl
@[simp] theorem Brick.modSplit_prio (br : Brick) (f : Split → Split) : (br.modSplit n f).prio = br.prio := rfl
@[simp] theorem Brick.modSplit_det (br : Brick) (f : Split → Split) : (br.modSplit n f).det = br.det := rfl
@[simp] theorem Brick.modSplit_prv (br : Brick) (f : Split → Split) : (br.modSplit n f).prv = br.prv := rfl
@[simp] theorem Brick.modSplit_threads (br : Brick) (f : Split → Split) : (br.modSplit n f).threads = br.threads := rfl
@[simp] theorem Brick.modSplit_lane (br : Brick) (f : Split → Split) : (br.modSplit n f).lane = br.lane := rfl
@[simp] theorem Brick.modSplit_uni (br : Brick) (f : Split → Split) : (br.modSplit n f).uni = br.uni := rfl
@[simp] theorem Brick.modSplit_msk (br : Brick) (f : Split → Split) : (br.modSplit n f).msk = br.msk := rfl
@[simp] theorem Brick.modSplit_fx (br : Brick) (f : Split → Split) : (br.modSplit n f).fx = br.fx := rfl
@[simp] theorem Brick.modSplit_cst (br : Brick) (f : Split → Split) : (br.modSplit n f).cst = br.cst := rfl
@[simp] theorem Brick.modSplit_rm (br : Brick) (f : Split → Split) : (br.modSplit n f).rm = br.rm := rfl
@[simp] theorem Brick.modSplit_ten (br : Brick) (f : Split → Split) : (br.modSplit n f).ten = br.ten := rfl
@[simp] theorem Brick.modSplit_sbc (br : Brick) (f : Split → Split) : (br.modSplit n f).sbc = br.sbc := rfl
@[simp] theorem Brick.modSplit_sr (br : Brick) (f : Split → Split) : (br.modSplit n f).sr = br.sr := rfl
@[simp] theorem Brick.modSplit_L (br : Brick) (f : Split → Split) : (br.modSplit n f).L = br.L := rfl
@[simp] theorem Brick.modSplit_splits (br : Brick) (f : Split → Split) : (br.modSplit n f).splits = tabMod br.splits n f := rfl
@[simp] theorem Brick.modSplit_cur (br : Brick) (f : Split → Split) : (br.modSplit n f).cur = br.cur := rfl
@[simp] theorem Brick.modSplit_groups (br : Brick) (f : Split → Split) : (br.modSplit n f).groups = br.groups := rfl
@[simp] theorem Brick.modSplit_nextGr (br : Brick) (f : Split → Split) : (br.modSplit n f).nextGr = br.nextGr := rfl
@[simp] theorem Brick.modSplit_pend (br : Brick) (f : Split → Split) : (br.modSplit n f).pend = br.pend := rfl
@[simp] theorem Brick.modSplit_fxq (br : Brick) (f : Split → Split) : (br.modSplit n f).fxq = br.fxq := rfl
@[simp] theorem Brick.modSplit_divq (br : Brick) (f : Split → Split) : (br.modSplit n f).divq = br.divq := rfl
@[simp] theorem Brick.modSplit_marks (br : Brick) (f : Split → Split) : (br.modSplit n f).marks = br.marks := rfl
@[simp] theorem Brick.modSplit_issued (br : Brick) (f : Split → Split) : (br.modSplit n f).issued = br.issued := rfl
@[simp] theorem Brick.modSplit_ilock (br : Brick) (f : Split → Split) : (br.modSplit n f).ilock = br.ilock := rfl
@[simp] theorem Brick.modSplit_flights (br : Brick) (f : Split → Split) : (br.modSplit n f).flights = br.flights := rfl
@[simp] theorem Brick.modSplit_seq (br : Brick) (f : Split → Split) : (br.modSplit n f).seq = br.seq := rfl
@[simp] theorem Brick.modSplit_cumRel (br : Brick) (f : Split → Split) : (br.modSplit n f).cumRel = br.cumRel := rfl
@[simp] theorem Brick.modSplit_acqs (br : Brick) (f : Split → Split) : (br.modSplit n f).acqs = br.acqs := rfl
@[simp] theorem Brick.modSplit_tape (br : Brick) (f : Split → Split) : (br.modSplit n f).tape = br.tape := rfl
@[simp] theorem Brick.modSplit_tapeLen (br : Brick) (f : Split → Split) : (br.modSplit n f).tapeLen = br.tapeLen := rfl
@[simp] theorem Brick.modSplit_chain (br : Brick) (f : Split → Split) : (br.modSplit n f).chain = br.chain := rfl
@[simp] theorem Brick.modSplit_copies (br : Brick) (f : Split → Split) : (br.modSplit n f).copies = br.copies := rfl
@[simp] theorem Brick.modSplit_readouts (br : Brick) (f : Split → Split) : (br.modSplit n f).readouts = br.readouts := rfl
@[simp] theorem Brick.modSplit_cstats (br : Brick) (f : Split → Split) : (br.modSplit n f).cstats = br.cstats := rfl
@[simp] theorem Brick.modSplit_banks (br : Brick) (f : Split → Split) : (br.modSplit n f).banks = br.banks := rfl
@[simp] theorem Brick.modSplit_held (br : Brick) (f : Split → Split) : (br.modSplit n f).held = br.held := rfl
@[simp] theorem Brick.modSplit_arrMarks (br : Brick) (f : Split → Split) : (br.modSplit n f).arrMarks = br.arrMarks := rfl
@[simp] theorem Brick.modSplit_lastArr (br : Brick) (f : Split → Split) : (br.modSplit n f).lastArr = br.lastArr := rfl
@[simp] theorem Brick.modSplit_window (br : Brick) (f : Split → Split) : (br.modSplit n f).window = br.window := rfl
@[simp] theorem Brick.modSplit_winExc (br : Brick) (f : Split → Split) : (br.modSplit n f).winExc = br.winExc := rfl
@[simp] theorem Brick.modSplit_trap (br : Brick) (f : Split → Split) : (br.modSplit n f).trap = br.trap := rfl
@[simp] theorem Brick.modSplit_late (br : Brick) (f : Split → Split) : (br.modSplit n f).late = br.late := rfl
@[simp] theorem Brick.modSplit_owed (br : Brick) (f : Split → Split) : (br.modSplit n f).owed = br.owed := rfl
@[simp] theorem Brick.modSplit_inSlot (br : Brick) (f : Split → Split) : (br.modSplit n f).inSlot = br.inSlot := rfl
@[simp] theorem Brick.modSplit_info (br : Brick) (f : Split → Split) : (br.modSplit n f).info = br.info := rfl
@[simp] theorem Brick.modSplit_addr (br : Brick) (f : Split → Split) : (br.modSplit n f).addr = br.addr := rfl
@[simp] theorem Brick.modSplit_tmask (br : Brick) (f : Split → Split) : (br.modSplit n f).tmask = br.tmask := rfl
@[simp] theorem Brick.modSplit_aux0 (br : Brick) (f : Split → Split) : (br.modSplit n f).aux0 = br.aux0 := rfl
@[simp] theorem Brick.modSplit_aux1 (br : Brick) (f : Split → Split) : (br.modSplit n f).aux1 = br.aux1 := rfl
@[simp] theorem Brick.modSplit_vec (br : Brick) (f : Split → Split) : (br.modSplit n f).vec = br.vec := rfl
@[simp] theorem Brick.modSplit_ret (br : Brick) (f : Split → Split) : (br.modSplit n f).ret = br.ret := rfl
@[simp] theorem Brick.modSplit_repSplit (br : Brick) (f : Split → Split) : (br.modSplit n f).repSplit = br.repSplit := rfl
@[simp] theorem Brick.modSplit_inject (br : Brick) (f : Split → Split) : (br.modSplit n f).inject = br.inject := rfl
@[simp] theorem Brick.modSplit_injAddr (br : Brick) (f : Split → Split) : (br.modSplit n f).injAddr = br.injAddr := rfl
@[simp] theorem Brick.modSplit_armed (br : Brick) (f : Split → Split) : (br.modSplit n f).armed = br.armed := rfl
@[simp] theorem Brick.modSplit_dpFault (br : Brick) (f : Split → Split) : (br.modSplit n f).dpFault = br.dpFault := rfl
@[simp] theorem Brick.modSplit_halted (br : Brick) (f : Split → Split) : (br.modSplit n f).halted = br.halted := rfl
@[simp] theorem Brick.modSplit_debug (br : Brick) (f : Split → Split) : (br.modSplit n f).debug = br.debug := rfl
@[simp] theorem Brick.modSplit_focusSp (br : Brick) (f : Split → Split) : (br.modSplit n f).focusSp = br.focusSp := rfl
@[simp] theorem Brick.modSplit_stepping (br : Brick) (f : Split → Split) : (br.modSplit n f).stepping = br.stepping := rfl
@[simp] theorem Brick.modSplit_since (br : Brick) (f : Split → Split) : (br.modSplit n f).since = br.since := rfl
@[simp] theorem Brick.modSplit_eligible (br : Brick) (f : Split → Split) : (br.modSplit n f).eligible = br.eligible := rfl
@[simp] theorem Brick.modSplit_killed (br : Brick) (f : Split → Split) : (br.modSplit n f).killed = br.killed := rfl
@[simp] theorem Brick.modSplit_tfault (br : Brick) (f : Split → Split) : (br.modSplit n f).tfault = br.tfault := rfl

end Sys2Proof.Machine
end

