-- ==== Sys2Proof/Laws/Memory.lean ====
section
/-!
SUPPORT. The operations over memory: each keeps the canonical form, and what a byte reads as after it.
-/
namespace Sys2Proof.Machine

/-! ### The canonical form -/

theorem Memory.wf_iff (s : State) : Memory.wf s = true ↔
    tabWf unlistedByte s.mem = true ∧ tabWf LineMeta.start s.mmeta = true ∧ tabWf unlistedByte s.lmem = true ∧
      tabWf LineMeta.start s.lmeta = true := by
  simp [Memory.wf, and_assoc]

/-- What leaves the four tables alone keeps their form. -/
theorem Memory.wf_congr {s t : State} (h : t.mem = s.mem ∧ t.mmeta = s.mmeta ∧ t.lmem = s.lmem ∧ t.lmeta = s.lmeta) :
    Memory.wf t = Memory.wf s := by
  simp [Memory.wf, h.1, h.2.1, h.2.2.1, h.2.2.2]

theorem Memory.wf_same {s t : State} (h : SameMemory s t) : Memory.wf t = Memory.wf s :=
  Memory.wf_congr ⟨h.1, h.2.1, h.2.2.1, h.2.2.2.1⟩

theorem reset_memory_wf : Memory.wf State.reset = true := rfl

@[simp] theorem logAdd_wf (s : State) (die k st : Nat) (core : Option Nat) (loc : Nat) :
    Memory.wf (logAdd s die k st core loc) = Memory.wf s := Memory.wf_congr ⟨rfl, rfl, rfl, rfl⟩

theorem putByte_wf {s : State} (h : Memory.wf s = true) (l : Loc) (x : Byte) : Memory.wf (putByte s l x) = true := by
  rw [Memory.wf_iff] at h ⊢
  obtain ⟨h1, h2, h3, h4⟩ := h
  cases l
  · exact ⟨h1, h2, tabSet_wf h3 _ _, h4⟩
  · exact ⟨tabSet_wf h1 _ _, h2, h3, h4⟩

theorem putMeta_wf {s : State} (h : Memory.wf s = true) (l : Loc) (m : LineMeta) : Memory.wf (putMeta s l m) = true := by
  cases l with
  | loc c o =>
    rw [Memory.wf_iff] at h ⊢
    exact ⟨h.1, h.2.1, h.2.2.1, tabSet_wf h.2.2.2 _ _⟩
  | phys pa =>
    simp only [putMeta]
    split
    · exact h
    · rw [Memory.wf_iff] at h ⊢
      exact ⟨h.1, tabSet_wf h.2.1 _ _, h.2.2.1, h.2.2.2⟩

theorem putBytes_wf (xs : List Byte) : ∀ {s : State} (l : Loc), Memory.wf s = true → Memory.wf (putBytes s l xs) = true := by
  induction xs with
  | nil => exact fun _ h => h
  | cons x xs ih => exact fun l h => ih _ (putByte_wf h l x)

theorem checkLine_wf {s : State} (h : Memory.wf s = true) (l : Loc) : Memory.wf (checkLine s l).1 = true := by
  unfold checkLine
  dsimp only
  split
  · exact h
  · simpa using putMeta_wf h l _
  · split
    · exact putMeta_wf h l _
    · simpa using putMeta_wf h l _

theorem foldl_putByte_wf (ws : List WByte) : ∀ {s : State}, Memory.wf s = true →
    Memory.wf (ws.foldl (fun s w => putByte s w.loc w.x) s) = true := by
  induction ws with
  | nil => exact fun h => h
  | cons w ws ih => exact fun h => ih (putByte_wf h w.loc w.x)

theorem writeLine_wf {s : State} (h : Memory.wf s = true) (l : Loc) (ws : List WByte) (gov atomic : Bool) :
    Memory.wf (writeLine s l ws gov atomic) = true := by
  unfold writeLine
  extract_lets _ whole greenIn
  split
  rename_i s' psn heq
  have h' : Memory.wf s' = true := by
    revert heq
    cases whole
    · intro heq
      have : s' = (checkLine s l).1 := by rw [if_neg (by simp)] at heq; rw [heq]
      exact this ▸ checkLine_wf h l
    · intro heq
      have : s' = s := by rw [if_pos rfl] at heq; exact (congrArg Prod.fst heq).symm
      exact this ▸ h
  dsimp only
  split
  · exact h'
  · exact putMeta_wf (foldl_putByte_wf ws h') _ _

theorem writeAll_wf {s : State} (h : Memory.wf s = true) (ws : List WByte) (gov atomic : Bool) :
    Memory.wf (writeAll s ws gov atomic) = true := by
  unfold writeAll
  generalize linesOf ws = ls
  induction ls generalizing s with
  | nil => exact h
  | cons l ls ih => exact ih (writeLine_wf h l _ gov atomic)

/-- Observing pending cells changes their slots alone (R246). -/
theorem observe_eq (s : State) (who : Option Nat) (l : Loc) (n : Nat) :
    observe s who l n = { s with pairs := (observe s who l n).pairs } := by
  cases l with
  | loc _ _ => rfl
  | phys pa =>
    simp only [observe]
    generalize cellsOf pa n = cs
    induction cs generalizing s with
    | nil => rfl
    | cons c cs ih =>
      simp only [List.foldl_cons]
      split
      · split
        · exact ih s
        · exact ih _
      · exact ih s

@[simp] theorem observe_wf (s : State) (who : Option Nat) (l : Loc) (n : Nat) :
    Memory.wf (observe s who l n) = Memory.wf s := by
  rw [observe_eq]; exact Memory.wf_congr ⟨rfl, rfl, rfl, rfl⟩

/-- What leaves the module changes the record of it alone (R374). -/
theorem sendOut_eq (s : State) (l : Loc) (x : Nat → Nat → Sent) : sendOut s l x = { s with sent := (sendOut s l x).sent } := by
  cases l with
  | loc _ _ => rfl
  | phys pa => simp only [sendOut]; split <;> rfl

@[simp] theorem sendOut_wf (s : State) (l : Loc) (x : Nat → Nat → Sent) : Memory.wf (sendOut s l x) = Memory.wf s := by
  rw [sendOut_eq]; exact Memory.wf_congr ⟨rfl, rfl, rfl, rfl⟩

@[simp] theorem noteRead_wf (s : State) (l : Loc) (n : Nat) : Memory.wf (noteRead s l n) = Memory.wf s := sendOut_wf s l _
@[simp] theorem noteWrite_wf (s : State) (l : Loc) (bs : List Byte) (g : Bool) : Memory.wf (noteWrite s l bs g) = Memory.wf s :=
  sendOut_wf s l _

/-- A fold of steps that keep the form keeps it. -/
theorem foldl_wf {α : Type} (f : State → α → State) (hf : ∀ s x, Memory.wf s = true → Memory.wf (f s x) = true) (xs : List α) :
    ∀ {s : State}, Memory.wf s = true → Memory.wf (xs.foldl f s) = true := by
  induction xs with
  | nil => exact fun h => h
  | cons x xs ih => exact fun h => ih (hf _ x h)

theorem performStore_wf {s : State} (h : Memory.wf s = true) (b : Nat) (puts : List Put) (gov : Bool) :
    Memory.wf (performStore s b puts gov) = true :=
  writeAll_wf (foldl_wf _ (fun _ _ h => by simpa using h) _ (foldl_wf _ (fun _ _ h => by simpa using h) _ h)) _ gov false

theorem writeSlot_wf (lines : List (List Byte × Bool)) : ∀ {s : State} (l : Loc), Memory.wf s = true →
    Memory.wf (writeSlot s l lines) = true := by
  induction lines with
  | nil => exact fun _ h => h
  | cons x xs ih => exact fun l h => ih _ (writeAll_wf h _ _ _)

theorem scrubPhys_wf {s : State} (h : Memory.wf s = true) (lo n : Nat) : Memory.wf (scrubPhys s lo n) = true := by
  rw [Memory.wf_iff] at h ⊢
  exact ⟨filter_wf h.1 _, filter_wf h.2.1 _, h.2.2.1, h.2.2.2⟩

theorem scrubLocal_wf {s : State} (h : Memory.wf s = true) (core lo n : Nat) : Memory.wf (scrubLocal s core lo n) = true := by
  rw [Memory.wf_iff] at h ⊢
  exact ⟨h.1, h.2.1, filter_wf h.2.2.1 _, filter_wf h.2.2.2 _⟩

/-! ### Reading what was written -/

theorem byteAt_logAdd (s : State) (die k st : Nat) (core : Option Nat) (loc : Nat) (l : Loc) :
    byteAt (logAdd s die k st core loc) l = byteAt s l := by cases l <;> rfl

theorem byteAt_putMeta (s : State) (l l' : Loc) (m : LineMeta) : byteAt (putMeta s l m) l' = byteAt s l' := by
  cases l' <;> simp [byteAt]

/-- Checking a line changes no byte (R18). -/
theorem byteAt_checkLine (s : State) (l l' : Loc) : byteAt (checkLine s l).1 l' = byteAt s l' := by
  unfold checkLine
  dsimp only
  split
  · rfl
  · rw [byteAt_logAdd, byteAt_putMeta]
  · split
    · exact byteAt_putMeta _ _ _ _
    · rw [byteAt_logAdd, byteAt_putMeta]

/-- A clean line passes its check with nothing changed. -/
theorem checkLine_clean {s : State} {l : Loc} (h : (metaAt s l).err = []) : checkLine s l = (s, (metaAt s l).psn) := by
  unfold checkLine; simp only [h]

@[simp] theorem leBytes_length (n v : Nat) : (leBytes n v).length = n := by
  induction n generalizing v with
  | zero => rfl
  | succ n ih => simp [leBytes, ih]

@[simp] theorem readBytes_length (s : State) (n : Nat) (l : Loc) : (readBytes s l n).length = n := by
  induction n generalizing l with
  | zero => rfl
  | succ n ih => simp [readBytes, ih]

/-- The number that n little-endian bytes make (R67). -/
theorem leNat_leBytes (n v : Nat) : leNat (leBytes n v) = v % 256 ^ n := by
  induction n generalizing v with
  | zero => simp [leBytes, leNat, Nat.mod_one]
  | succ n ih =>
    simp only [leBytes, leNat, ih, BitVec.toNat_ofNat]
    rw [show 256 ^ (n + 1) = 256 * 256 ^ n from Nat.pow_succ', Nat.mod_mul]

end Sys2Proof.Machine
end

