-- ==== Sys2Proof/Tests/Slice0.lean ====
section
/-!
SUPPORT. Tests: ill-formed terms, words written out from the encoding tables, witnesses for the hypotheses of the
statements, and single steps on small states. A theorem wit_<Name> meets the hypotheses of Obligations.<Name>.
-/
open Sys2Proof Sys2Proof.Machine
namespace Sys2Proof.Tests
set_option Elab.async false

/-! ### Small states -/

/-- A brick of n threads with some lane and uniform registers written, cured. -/
def tBrick (n : Nat) (lanes : List (Nat × (Nat → W64))) (unis : List (Nat × W64)) : Brick :=
  let br := applyWrites loadBrick (lanes.flatMap (fun x => (List.range n).flatMap (fun t => wLane64 x.1 t (x.2 t) false)) ++
    unis.map (fun x => RegWrite.uni x.1 x.2 false))
  let m := maskOf (List.range n)
  { br with threads := m, splits := br.splits.map (fun x => (x.1, { x.2 with mask := m })) }

/-- The loaded module, its launch deterministic with courses of 100. -/
def tDet (s : State) : State := modLaunch s 0 (fun l => { l with det := true, q := 100 })
/-- A brick on a state, in focus with its split 0. -/
def tPut (br : Brick) (s : State) : State := { s with focus := some (0, 0), bricks := [(0, br)] }
def tBase : State := loadCode State.reset []
def tOn (br : Brick) : State := tPut br tBase
/-- The brick in a deterministic launch. -/
def dt (br : Brick) : Brick := { br with det := true }
def tOnDet (br : Brick) : State := tPut (dt br) (tDet tBase)

/-- The context of the brick's split k. -/
def tCtxK (k : Nat) (br : Brick) : Ctx := ⟨0, k, br, (tabGet? br.splits k).getD (Split.start 0)⟩
def tCtx (br : Brick) : Ctx := tCtxK 0 br

/-- Two threads: v1 holds 40, v2 holds 3; s1 holds 7, s2 holds 0x20000. -/
def bA : Brick := tBrick 2 [(1, fun _ => 40#64), (2, fun _ => 3#64)] [(1, 7#64), (2, 0x20000#64)]
/-- Eight threads: v1 holds the addresses of one line's eight parts, from 64 on; v2 holds 3. -/
def bG : Brick := tBrick 8 [(1, fun t => BitVec.ofNat 64 (64 + 8 * t)), (2, fun _ => 3#64)] [(2, 0x20000#64)]
/-- The brick with its split 0 changed. -/
def sp0 (br : Brick) (f : Split → Split) : Brick := br.modSplit 0 f

/-- Whether a result of an address check, a page walk or another lookup is the good one. -/
def accOk : AccRes → Bool
  | .ok _ l => !l.isEmpty
  | _ => false

/-! ### WellFormed refuses an ill-formed term of each check -/

theorem test_illFormed_lane : [
    Instr.faddF32 1#6 2#6 3#6 .rsr 0#3, .fdivF64 1#6 2#6 3#6 .rsr 0#3, .sfromv 1#6 2#6 32#6 false 0#3, .lbcst 1#6 2#6 32#6 false 0#3,
    .tagset 4#6 0b001000#6 false 0#3, .tagset 4#6 0b000000#6 false 0#3, .tagset 4#6 0b000001#6 true 0#3, .tagset 8#6 0#6 true 0#3,
    .accrd 0#4 1#6 9#6 0#3, .accrd 0#4 1#6 0#6 0#3, .accwb 0#4 9#6 0#3, .accchk 0#4 0#6 1#6 0#3, .accchk 0#4 62#6 1#6 0#3,
    .accchk 0#4 1#6 62#6 0#3, .tapeRec 61#6 3#2 0#8 0#3, .tapePop 63#6 1#2 0#8 0#3].all (fun i => !wellFormed i) = true := by
  decide +kernel

theorem test_illFormed_opx : [
    Instr.bfx 1#6 2#6 8#6 11#6 .b64 0#3, .bfx 1#6 2#6 20#6 12#6 .n32 0#3, .bfi 1#6 2#6 8#6 11#6 .n64 0#3, .bfi 1#6 2#6 60#6 4#6 .b64 0#3,
    .sel 1#6 2#6 3#6 0#3 .f32 0#3, .cvt 1#6 2#6 0#6 .rne .b32 .f32 false 0#3, .cvt 1#6 2#6 0#6 .rne .hb8 .f32 false 0#3,
    .cvt 1#6 2#6 3#6 .rne .f32 .f64 false 0#3, .cvt 1#6 2#6 0#6 .rne .f32 .i32 true 0#3, .cvtn 1#6 2#6 3#6 .rne .f32 .f32 false 0#3,
    .cvtn 1#6 2#6 3#6 .rne .bf16 .f32 true 0#3, .packhb 1#6 2#6 2#6 .rne .f32 .f32 false 0#4 0#3, .flg2 1#6 2#6 .rne .i32 0#3,
    .flg2 1#6 2#6 .rsr .f32 0#3, .fscale 1#6 2#6 3#6 .rne .b32 0#3, .ftwos 1#6 2#6 3#6 4#6 .i64 0#3, .ftwop 1#6 2#6 3#6 4#6 .b64 0#3,
    .frnd 1#6 2#6 .rne .n32 0#3, .lred 1#6 2#6 .and .rne .f32 0#3, .lred 1#6 2#6 .add .rup .i32 0#3, .lscan 1#6 2#6 .add false .rsr .f32 0#3,
    .atom 1#6 2#6 3#6 4#6 .min .f32 .rne 0#2 .core 0#3, .atom 1#6 2#6 3#6 63#6 .cas .b64 .rne 0#2 .core 0#3,
    .atom 1#6 2#6 3#6 4#6 .add .i64 .rup 0#2 .core 0#3, .atom 1#6 2#6 3#6 4#6 .add .i64 .rne 0#2 .lane 0#3,
    .red 2#6 3#6 4#6 .exch .b64 .rne 0#2 .core 0#3, .cure 1#6 2#6 63#6 4#6 .rne .f64 false 6#6 0#3,
    .cure 1#6 2#6 3#6 4#6 .rne .f64 true 6#6 0#3, .cure 1#6 2#6 3#6 4#6 .rne .f32 false 7#6 0#3].all (fun i => !wellFormed i) = true := by
  decide +kernel

theorem test_illFormed_uniform : [
    Instr.barInit 1#6 2#6 3#5 .core 0#3, .barArr 0#6 3#5 .lane 0#3, .barWait 1#6 2#6 3#5 .core 0#3, .barSync false 0#5 2#6 3#5 .core 0#3,
    .barQ 1#6 2#6 3#5 .core 0#3, .semInit 1#6 2#6 3#5 0#3, .semAcq 1#6 0#6 3#5 .pkg 0#3, .semRel 0#6 3#5 .pod 0#3,
    .semTry 1#6 2#6 3#5 .die 0#3, .hodInit 2#6 3#5 0#3, .hodPut 1#6 2#6 3#5 0#3, .hodGet 1#6 2#6 3#5 0#3, .hodTry 1#6 2#6 3#5 0#3,
    .hodClose 2#6 3#5 0#3, .fence false 0#2 .core 0#3, .fence true 1#2 .core 0#3, .fence false 2#2 .lane 0#3, .wait 0#3 2#6 3#5 0#3,
    .accalloc 1#6 2#6 3#5 0#3, .accfree 2#6 3#5 0#3, .accfree 0#6 16#5 0#3, .sysr 1#6 0x0C#7 0#3, .sysw 1#6 0x0D#7 0#3,
    .modeRm 1#6 .dyn 0#3, .modeRm 1#6 .rsr 0#3, .tlbiRange 3#6 .die 0#3, .tlbiAll 4#6 .core 0#3, .tapeOpen 1#6 0#6 false 0#3,
    .prio 1#6 2#6 3#4 0#3, .roleq 1#6 2#6 3#2 0#3, .collRed 3#6 4#6 false 0#2 0#3, .collRed 2#6 4#6 false 3#2 0#3,
    .collRed 2#6 4#6 true 1#2 0#3, .collMaxe 2#6 5#6 0#3, .collBcst 0#6 4#6 0#3, .putw 0#6 4#6 0#3, .sigwSet 3#6 4#6 0#3,
    .sigwAdd 2#6 5#6 0#3].all (fun i => !wellFormed i) = true := by
  decide +kernel

/-! ### Words written out from the encoding tables (the sources stand beside the words in the manual's examples) -/

theorem test_words_integer :
    decodeWords 0x00430428#32 0#32 = .instr (.iadd 3#6 1#6 2#6 true 0#3) ∧
    decodeWords 0x00430420#32 0#32 = .instr (.iadd 3#6 1#6 2#6 false 0#3) ∧
    decodeWords 0x100C1320#32 0#32 = .instr (.iaddI64Imm9 3#6 1#6 100#9 0#3) ∧
    decodeWords 0x74030400#32 0x00011170#32 = .instr (.iaddI64Imm32 3#6 1#6 70000#32 0#3) ∧
    decodeWords 0x90145320#32 0#32 = .instr (.saddI64Imm9 5#6 5#6 100#9 0#3) ∧
    decodeWords 0xF0051400#32 0xFFFFFED4#32 = .instr (.saddI64Imm32 5#6 5#6 0xFFFFFED4#32 0#3) ∧
    decodeWords 0x50C10830#32 0#32 = .instr (.icmpLt 1#3 2#6 3#6 false 0#3) ∧
    decodeWords 0x53C00018#32 0#32 = .instr (.vfromsIdx 0#6 0#6 true 0#3) ∧
    decodeWords 0x7AC80800#32 0x001C0000#32 = .instr (.lred 8#6 2#6 .add .rne .f64 0#3) := by decide +kernel

theorem test_words_float :
    decodeWords 0x23101083#32 0#32 = .instr (.ffmaF32 4#6 1#6 2#6 .rne 3#3) ∧
    decodeWords 0x3310108D#32 0#32 = .instr (.ffmaF64 4#6 1#6 2#6 .rtz 5#3) ∧
    decodeWords 0x39086000#32 0#32 = .instr (.fsqrtF64 2#6 6#6 .rne 0#3) ∧
    decodeWords 0x38284190#32 0#32 = .instr (.fdivF64 10#6 4#6 6#6 .rup 0#3) ∧
    decodeWords 0x52421050#32 0#32 = .instr (.fcmpLt 2#3 4#6 5#6 false 0#3) ∧
    decodeWords 0x7A0A0840#32 0x2C1C0000#32 = .instr (.ftwos 10#6 2#6 4#6 11#6 .f64 0#3) ∧
    decodeWords 0x79490CC0#32 0x0034C200#32 = .instr (.packhb 9#6 3#6 12#6 .rne .hb4 .f32 false 2#4 0#3) ∧
    decodeWords 0x78C50400#32 0x0819A000#32 = .instr (.cvt 5#6 1#6 2#6 .rne .f32 .hb4 false 0#3) ∧
    decodeWords 0xD0C00010#32 0#32 = .instr (.modeRm 0#6 .rup 0#3) ∧
    decodeWords 0xD0C00118#32 0#32 = .instr (.modeTenSet 0#6 3#5 0#3) ∧
    decodeWords 0xD1001400#32 0#32 = .instr (.srseed 5#6 0#3) ∧
    decodeWords 0x580001F0#32 0#32 = .instr (.fxclr 31#5 0#3) ∧
    decodeWords 0x7BC30C80#32 0x24181280#32 = .instr (.cure 3#6 3#6 8#6 9#6 .rne .f32 true 10#6 0#3) ∧
    decodeWords 0x57040070#32 0#32 = .instr (.tagset 4#6 7#6 false 0#3) := by decide +kernel

theorem test_words_control :
    decodeWords 0xA003FFE0#32 0#32 = .instr (.bra 0x7FFC#15 0#3) ∧
    decodeWords 0xA2240040#32 0#32 = .instr (.brl true 1#3 8#15 0#3) ∧
    decodeWords 0xA1940018#32 0#32 = .instr (.brc true 5#5 3#15 0#3) ∧
    decodeWords 0xA3000200#32 0#32 = .instr (.call 64#15 0#3) ∧
    decodeWords 0xAA300000#32 0#32 = .instr (.jmpiLane 12#6 0#3) ∧
    decodeWords 0xD1490000#32 0#32 = .instr (.splitq 9#6 0#3) ∧
    decodeWords 0xD0450080#32 0#32 = .instr (.sysr 5#6 0x10#7 0#3) ∧
    decodeWords 0xD0801CB0#32 0#32 = .instr (.sysw 7#6 0x16#7 0#3) ∧
    decodeWords 0xD1800028#32 0#32 = .instr (.trap 5#7 0#3) ∧
    decodeWords 0xD1C00008#32 0#32 = .instr (.rteKill 0#3) := by decide +kernel

theorem test_words_memory :
    decodeWords 0x40242130#32 0#32 = .instr (.ldB64 9#6 2#6 4#6 3#2 0#3) ∧
    decodeWords 0x70090840#32 0xC0000010#32 = .instr (.ldB64Disp 9#6 2#6 4#6 3#2 16#30 0#3) ∧
    decodeWords 0x4E1411A8#32 0#32 = .instr (.ldgB32 5#6 1#6 6#6 2#2 0#3) ∧
    decodeWords 0x73060888#32 0xC0000040#32 = .instr (.stcDisp 6#6 2#6 8#6 3#2 64#30 true 0#3) ∧
    decodeWords 0x422000F8#32 0#32 = .instr (.ldt 8#6 0#6 3#6 3#2 true 0#3) ∧
    decodeWords 0xC11C2FF8#32 0#32 = .instr (.sts 7#6 2#6 0x1FF#9 0#3) ∧
    decodeWords 0xF4070800#32 0x00001000#32 = .instr (.ldsDisp 7#6 2#6 4096#30 0#3) ∧
    decodeWords 0x7B540840#32 0x30140FC0#32 = .instr (.atom 20#6 2#6 4#6 12#6 .cas .b64 .rne 3#2 .pkg 0#3) ∧
    decodeWords 0x7B800840#32 0x30080190#32 = .instr (.red 2#6 4#6 12#6 .add .i64 .rne 3#2 .core 0#3) ∧
    decodeWords 0x462000F8#32 0#32 = .instr (.ldtv 8#6 0#6 3#6 3#2 0#3) ∧
    decodeWords 0x432000F8#32 0#32 = .instr (.sttAon 8#6 0#6 3#6 3#2 0#3) ∧
    decodeWords 0x48182218#32 0#32 = .instr (.tst 1#2 6#6 2#6 8#6 0#3) ∧
    decodeWords 0xC21C4040#32 0#32 = .instr (.bind 7#6 4#6 8#9 0#3) := by decide +kernel

theorem test_words_sync :
    decodeWords 0xB8066000#32 0#32 = .instr (.wait 3#3 12#6 0#5 0#3) ∧
    decodeWords 0xB7800198#32 0#32 = .instr (.fence true 2#2 .die 0#3) ∧
    decodeWords 0xB08E0110#32 0#32 = .instr (.barInit 7#6 0#6 4#5 .quad 0#3) ∧
    decodeWords 0xB2460098#32 0#32 = .instr (.barSync true 3#5 0#6 2#5 .die 0#3) ∧
    decodeWords 0xB2883008#32 0#32 = .instr (.barQ 4#6 6#6 0#5 .core 0#3) ∧
    decodeWords 0xB38A0318#32 0#32 = .instr (.semAcq 5#6 0#6 12#5 .die 0#3) ∧
    decodeWords 0xB59400C0#32 0#32 = .instr (.hodPut 10#6 0#6 3#5 0#3) ∧
    decodeWords 0xE0491000#32 0#32 = .instr (.launch 9#6 4#6 0#3) ∧
    decodeWords 0xE0C00008#32 0#32 = .instr (.courseEnd 0#6 0#3) ∧
    decodeWords 0xE1491010#32 0#32 = .instr (.rqmovGive 9#6 4#6 2#2 0#3) := by decide +kernel

theorem test_words_engines :
    decodeWords 0x608C8820#32 0#32 = .instr (.mmaQ 3#4 8#6 32#6 0#3) ∧
    decodeWords 0x6146C400#32 0#32 = .instr (.topk 1#4 44#6 1#2 false 0#3) ∧
    decodeWords 0x62003000#32 0#32 ≠ .instr (.accadj 0#4 6#6 12#6 0#3) ∧
    decodeWords 0x62006300#32 0#32 = .instr (.accadj 0#4 6#6 12#6 0#3) ∧
    decodeWords 0x62414C80#32 0#32 = .instr (.accchk 0#4 20#6 50#6 0#3) ∧
    decodeWords 0xB9000040#32 0#32 = .instr (.accfree 0#6 1#5 0#3) ∧
    decodeWords 0x628441C0#32 0#32 = .instr (.tapeRec 4#6 1#2 7#8 0#3) ∧
    decodeWords 0x635000C0#32 0#32 = .instr (.tapePopbr 2#3 3#8 0#3) ∧
    decodeWords 0xD3091008#32 0#32 = .instr (.tapeOpen 9#6 4#6 true 0#3) ∧
    decodeWords 0xF8091050#32 0x18001800#32 = .instr (.copy 9#6 4#6 5#6 6#6 true true false false 0#3) ∧
    decodeWords 0xD2872408#32 0#32 = .instr (.copyqBytes 7#6 9#6 0#3) ∧
    decodeWords 0xD2C01060#32 0#32 = .instr (.tlbiAll 4#6 .pkg 0#3) ∧
    decodeWords 0xE2942808#32 0#32 = .instr (.sigwAdd 20#6 10#6 0#3) := by decide +kernel

/-- Words that no form owns: the all-zero word, all ones, a reserved bit, a reserved rounding code (R52, R60, R65). -/
theorem test_words_bad :
    decodeWords 0x00000000#32 0#32 = .bad 0x001#9 false ∧ decodeWords 0xFFFFFFFF#32 0xFFFFFFFF#32 = .bad 0x001#9 true ∧
    decodeWords 0xD0000008#32 0#32 = .bad 0x001#9 false ∧ decodeWords 0x231010BB#32 0#32 = .bad 0x002#9 false := by decide +kernel

/-! ### One step on a small state; the results are worked out by hand from the rules named -/

/-- The focus brick after the instruction has issued and its results have landed. -/
noncomputable def tRun (i : Instr) (br : Brick) : Brick :=
  match exec i (tOn br) with
  | .next s => (match tabGet? s.bricks 0 with
    | some b => applyWrites b (b.pend.flatMap (·.writes))
    | none => br)
  | _ => br
noncomputable def tLane (i : Instr) (br : Brick) (r : Nat) : W64 :=
  ((tRun i br).half r 0 1).bits ++ ((tRun i br).half r 0 0).bits
noncomputable def tUni (i : Instr) (br : Brick) (r : Nat) : W64 := ((tRun i br).uniR r).v
/-- One thread with v1 and v2, s1 and s2. -/
def b2 (x y : W64) : Brick := tBrick 1 [(1, fun _ => x), (2, fun _ => y)] [(1, x), (2, y)]

/-- R111, R112: a 64-bit sum wraps; 32-bit elements do not carry into each other. -/
theorem test_iadd : tLane (.iadd 3#6 1#6 2#6 true 0#3) (b2 0xFFFFFFFFFFFFFFFF#64 1#64) 3 = 0#64 ∧
    tLane (.iadd 3#6 1#6 2#6 false 0#3) (b2 0x1FFFFFFFF#64 1#64) 3 = 0x100000000#64 := by decide +kernel
/-- R112: the upper half of a product, signed and unsigned, of −1 by −1. -/
theorem test_imulh : tLane (.imulh 3#6 1#6 2#6 true 0#3) (b2 0xFFFFFFFFFFFFFFFF#64 0xFFFFFFFFFFFFFFFF#64) 3 = 0#64 ∧
    tLane (.imulhUnsigned 3#6 1#6 2#6 true 0#3) (b2 0xFFFFFFFFFFFFFFFF#64 0xFFFFFFFFFFFFFFFF#64) 3 = 0xFFFFFFFFFFFFFFFE#64 := by
  decide +kernel
/-- R112: shift amounts count modulo the element's width; the source may be the destination. -/
theorem test_shift : tLane (.sar 1#6 1#6 2#6 true 0#3) (b2 0x8000000000000000#64 65#64) 1 = 0xC000000000000000#64 ∧
    tLane (.shl 3#6 1#6 2#6 false 0#3) (b2 0x100000001#64 0x2000000021#64) 3 = 0x100000002#64 := by decide +kernel
/-- R115: a signed field of four bits whose top bit is set. -/
theorem test_bfx : tLane (.bfx 3#6 1#6 4#6 3#6 .i64 0#3) (b2 0x80#64 0#64) 3 = 0xFFFFFFFFFFFFFFF8#64 ∧
    tLane (.bfx 3#6 1#6 4#6 3#6 .n64 0#3) (b2 0x80#64 0#64) 3 = 8#64 := by decide +kernel
/-- R117: a 32-bit uniform result is zero-extended; writes to s0 are discarded (R101). -/
theorem test_sadd : tUni (.sadd 3#6 1#6 2#6 false 0#3) (b2 0xFFFFFFFF#64 2#64) 3 = 1#64 ∧
    tUni (.sadd 0#6 1#6 2#6 true 0#3) (b2 5#64 2#64) 0 = 0#64 := by decide +kernel
/-- IEEE addition: 1 + 2^-24 is a tie, to even at .rne, up at .rup. -/
theorem test_fadd : tLane (.faddF32 3#6 1#6 2#6 .rne 0#3) (b2 0x3F8000003F800000#64 0x3380000033800000#64) 3 = 0x3F8000003F800000#64 ∧
    tLane (.faddF32 3#6 1#6 2#6 .rup 0#3) (b2 0x3F8000003F800000#64 0x3380000033800000#64) 3 = 0x3F8000013F800001#64 := by decide +kernel
/-- IEEE division: 1 / 3 to nearest, in FP32; fused multiply-add keeps the exact product: (1 + 2^-12)^2 − 1. -/
theorem test_fdiv_ffma : tLane (.fdivF32 3#6 1#6 2#6 .rne 0#3) (b2 0x3F8000003F800000#64 0x4040000040400000#64) 3 = 0x3EAAAAAB3EAAAAAB#64 ∧
    tLane (.ffmaF32 3#6 1#6 1#6 .rne 0#3) (tBrick 1 [(1, fun _ => 0x3F8008003F800800#64), (3, fun _ => 0xBF800000BF800000#64)] []) 3 =
      0x3A0004003A000400#64 := by decide +kernel
/-- The counter moves past the form's one word or two; a branch counts its offset in words. -/
theorem test_pc : (tRun (.iadd 3#6 1#6 2#6 true 0#3) (b2 1#64 1#64)).splits.map (·.2.pc) = [0x10004] ∧
    (tRun (.bfx 3#6 1#6 4#6 3#6 .i64 0#3) (b2 1#64 1#64)).splits.map (·.2.pc) = [0x10008] ∧
    (tRun (.bra 0x7FFF#15 0#3) (b2 1#64 1#64)).splits.map (·.2.pc) = [0xFFFC] := by decide +kernel
/-- A result that depends on a green value is green (R169, R117). -/
theorem test_tag : ((tRun (.sadd 3#6 1#6 2#6 true 0#3) { b2 1#64 1#64 with uni := [(1, ⟨1#64, true⟩)] }).uniR 3).g = true ∧
    ((tRun (.sadd 3#6 1#6 2#6 true 0#3) (b2 1#64 1#64)).uniR 3).g = false := by decide +kernel
/-- R116: base, scaled index and displacement. -/
theorem test_leaDisp : tLane (.leaDisp 3#6 1#6 2#6 3#2 16#30 false 0#3) (b2 0x20#64 0x1000#64) 3 = 0x1110#64 := by decide +kernel

/-! ### Witnesses: encoding, fetch, memory -/

theorem wit_DecodeEncodeRoundTrip :
    (wellFormed (.bfx 63#6 63#6 63#6 0#6 .n64 7#3) = true ∧ (encode (.bfx 63#6 63#6 63#6 0#6 .n64 7#3)).isSome = true) ∧
    (wellFormed (.nop 0#3) = true ∧ (encode (.nop 0#3)).isSome = true) := by decide +kernel

theorem wit_EncodeDecodeExact :
    decodeWords 0x78030400#32 0x000C020B#32 = .instr (.bfx 3#6 1#6 8#6 11#6 .n64 0#3) ∧
    decodeWords 0xD0000005#32 0#32 = .instr (.nop 5#3) := by decide +kernel

/-- The module about to issue a word. -/
def sW (w : Nat) : State := State.reset.withFetchWord 32 w

def fetchOk (s : State) (c : Ctx) (va : Nat) : Bool :=
  match brickTranslate s c kExec va with
  | (s', .ok pa) => (metaAt s' (.phys (pa / 64 * 64))).err == [] && !(metaAt s' (.phys (pa / 64 * 64))).psn &&
      (launchOf s' c.br).any (fun l => l.patch == [])
  | _ => false
theorem wit_FetchReadsTheWord : fetchOk (tOn bA) (tCtx bA) 0x10000 = true ∧ fetchOk (tOn bA) (tCtx bA) 0x1FFFFC = true := by
  decide +kernel

/-- The next move issues the word w of split 0 of brick 0, and nothing comes before its decoding. -/
noncomputable def issuesWord (s : State) (w : BitVec 32) : Bool :=
  decide (nextMove s = .issue 0 0) &&
  (match focusOf (focusOn s 0 0) with
   | some c => c.br.window.isNone && !c.sp.tapeFault && !flagHold c &&
      decide ((fetchAt (focusOn s 0 0) c c.sp.pc).2 = .words w 0) &&
      (focusOf (fetchAt (focusOn s 0 0) c c.sp.pc).1).any (fun c' => !c'.sp.tapeFault && !flagHold c')
   | none => false)
theorem wit_StepRunsTheDecodedInstruction :
    issuesWord (sW 0x00430428) 0x00430428#32 = true ∧ decodeWords 0x00430428#32 0#32 = .instr (.iadd 3#6 1#6 2#6 true 0#3) := by
  decide +kernel
theorem wit_UnassignedWordsTrap :
    (issuesWord (sW 0) 0#32 = true ∧ decodeWords 0#32 0#32 = .bad 0x001#9 false) ∧
    (issuesWord (sW 0x231010BB) 0x231010BB#32 = true ∧ decodeWords 0x231010BB#32 0#32 = .bad 0x002#9 false) := by decide +kernel

noncomputable def isNext (o : Host.Outcome State Fault Refusal) : Bool :=
  match o with
  | .next _ => true
  | _ => false
theorem wit_StepKeepsMemoryCanonical : Memory.wf (sW 0x00430428) = true ∧ isNext (step (sW 0x00430428)) = true ∧
    isNext (step (sW 0xD0000000)) = true := by decide +kernel

theorem wit_ReadAfterWrite : placeOf (.loc 0 0) ≠ placeOf (.loc 0 (2 ^ 20 - 1)) ∧ placeOf (.loc 1 0) ≠ placeOf (.phys 0) ∧
    placeOf (.phys 0) ≠ placeOf (.phys 1) := by decide +kernel

def tPutAt (n : Nat) (pa : Nat) : Put := ⟨⟨0, .phys pa, pa, n, false⟩, leBytes n 0x1122334455667788, false⟩
theorem wit_StoreWritesItsBytesOnly :
    (∀ p ∈ [tPutAt 8 48, tPutAt 8 56], ∀ i, i < p.bytes.length → placeOf (p.acc.loc.add i) ≠ placeOf (.phys 64)) ∧
    (7 < (tPutAt 8 56).bytes.length ∧ (∀ q ∈ [tPutAt 8 56] ++ tPutAt 8 56 :: [tPutAt 8 48], q.acc.loc.inLine + q.bytes.length ≤ 64) ∧
      (∀ q ∈ [tPutAt 8 48], ∀ j, j < q.bytes.length → placeOf (q.acc.loc.add j) ≠ placeOf ((tPutAt 8 56).acc.loc.add 7)) ∧
      outCheck tBase (tPutAt 8 56).acc.loc = none ∧
      (metaAt tBase (tPutAt 8 56).acc.loc.line).err = [] ∧ (metaAt tBase (tPutAt 8 56).acc.loc.line).psn = false) := by decide +kernel

/-! ### Witnesses: arithmetic -/

/-- An issue that nothing stops, of a form on the state where brick br has the focus. -/
def iss (br : Brick) (f : Form) : Prop := Issues (tOn br) (tCtx br) f

theorem wit_LaneIntegerResults :
    (∃ i x, LaneInt i x ∧ Issues (tOn bA) (tCtx bA) x.form) ∧ (∃ i x, LaneImm i x ∧ Issues (tOn bA) (tCtx bA) x.form) :=
  ⟨⟨_, _, .imad 2#6 1#6 2#6 true 0#3, by decide +kernel⟩, ⟨_, _, .iaddI64Imm32 3#6 1#6 7#32 0#3, by decide +kernel⟩⟩

theorem wit_UniformIntegerResults : ∃ i x, UniInt i x ∧ Issues (tOn bA) (tCtx bA) x.form :=
  ⟨_, _, .ssel 3#6 1#6 2#6 true 0#3, by decide +kernel⟩
theorem wit_SfromvCopiesOneElement : bA.dpFault = none ∧
    (∀ lane ∈ [0#6, 63#6], Issues (tOn bA) (tCtx bA) { laneForm false 0#3 [1#6] 3#6 with
      lanes := [1], unis := [3], wr := [nUni 3#6], chk := [], only := some { elemOf true lane with always := true } }) := by decide +kernel
/-- The example's neighbour: bit 5 of b with q = 0, and with q = 1. -/
theorem test_sfromv_words : decodeWords 0x54030610#32 0#32 = .bad 0x001#9 false ∧
    decodeWords 0x54030618#32 0#32 = .instr (.sfromv 3#6 1#6 33#6 true 0#3) := by decide +kernel

theorem wit_LaneMoves : ∃ i x, LaneMove i x ∧ Issues (tOn bA) (tCtx bA) x.form :=
  ⟨_, _, .sel 3#6 1#6 2#6 7#3 .b32 0#3, by decide +kernel⟩

theorem wit_MaskForms :
    (∃ i x, ToMask i x ∧ Issues (tOn bA) (tCtx bA) x.form) ∧ (∃ i x, MaskToUni i x ∧ Issues (tOn bA) (tCtx bA) x.form) :=
  ⟨⟨_, _, .tagsetLane 1#6 7#6 0#3, by decide +kernel⟩, ⟨_, _, .mpop 3#6 1#3 true 0#3, by decide +kernel⟩⟩

theorem wit_FloatingPointResults : ∃ i x, LaneFp i x ∧ Issues (tOn bA) (tCtx bA) x.form ∧ bA.dpFault = none ∧ bA.armed = none :=
  ⟨_, _, .ffmaF32 1#6 1#6 2#6 .dyn 0#3, by decide +kernel⟩

theorem wit_ConversionResults :
    (∃ i x, Conv i x ∧ Issues (tOn bA) (tCtx bA) x.form ∧ x.ok (tCtx bA) = true ∧ bA.dpFault = none ∧ bA.armed = none) ∧
    (∃ i x, Conv i x ∧ Issues (tOn bA) (tCtx bA) x.form ∧ x.ok (tCtx bA) = true ∧ bA.dpFault = none ∧ bA.armed = none) :=
  ⟨⟨_, _, .cvt 3#6 1#6 2#6 .rsr .f32 .q8 false 0#3, by decide +kernel⟩, ⟨_, _, .packhb 3#6 1#6 2#6 .rne .hb8 .f32 true 0#4 0#3, by decide +kernel⟩⟩

theorem wit_ReductionResults : ∃ i x, Reduce i x ∧ Issues (tOn bA) (tCtx bA) x.form ∧ bA.dpFault = none ∧ bA.armed = none :=
  ⟨_, _, .lscan 3#6 1#6 .add true .rne .f64 0#3, by decide +kernel⟩

theorem wit_LeaWritesTheAddress :
    Issues (tOn bA) (tCtx bA) (memForm false 0#3 (some 3#6) 1#6 2#6 false true) ∧
    Issues (tOn bA) (tCtx bA) (memForm true 0#3 (some 3#6) 1#6 2#6 false true) ∧
    accOk ((laneLoadSpec true 8 false 3#6 1#6 0#6 0#2 0#30 0#3).accs (tOn bA) (tCtx bA)) = true ∧
    accOk ((laneLoadSpec false 8 false 3#6 1#6 0#6 0#2 0x3FFFFFF8#30 0#3).accs (tOn bA) (tCtx bA)) = true := by decide +kernel

theorem wit_ChecksBeforeEveryForm :
    let f := laneForm false 0#3 [1#6, 2#6] 3#6
    let p := fun br f => precheck (tCtx br) f
    (flagHold (tCtx bA) = false ∧ p bA f = .go) ∧
    (let br := { dt bA with ten := 1, fxq := [⟨100, 0, [], 0, 0x10000, false, 1⟩] }
     flagHold (tCtx br) = true ∧ p br f = .hold) ∧
    p (sp0 bA (fun sp => { sp with tapeFault := true })) f = .trap (trapOf (tCtx (sp0 bA (fun sp => { sp with tapeFault := true }))) 0x144#9) ∧
    p { bA with prv := false } { f with priv := true } = .trap (trapOf (tCtx { bA with prv := false }) 0x006#9) ∧
    p { bA with emask := 0 } f = .trap (trapOf (tCtx { bA with emask := 0 }) 0x003#9) ∧
    p { bA with threads := 7#32 } { f with wide := true } = .trap (trapOf (tCtx { bA with threads := 7#32 }) 0x004#9) ∧
    p { bA with gran := 1 } (laneForm false 0#3 [7#6] 8#6) = .trap (trapOf (tCtx { bA with gran := 1 }) 0x007#9) ∧
    p { bA with unis := 4 } (uniForm false 0#3 [4#6] 1#6) = .trap (trapOf (tCtx { bA with unis := 4 }) 0x007#9) ∧
    p { bA with ilock := [.lane 2] } f = .hold ∧
    (sbcOn bA = true ∧ p { bA with marks := [⟨.lane 3, 1#32, 0, 0, 1, 1⟩] } f =
      .trap { trapOf (tCtx { bA with marks := [⟨.lane 3, 1#32, 0, 0, 1, 1⟩] }) 0x049#9 with reg := 3 }) ∧
    p bA (laneForm false 0#3 [1#6, 4#6] 3#6) = .trap ⟨0x048#9, 4, 0, 2, none, 0, 0⟩ ∧
    p { bA with lane := tabPut bA.lane (halfKey 2 1 1) ⟨3#32, false, false, true⟩ } f = .trap ⟨0x146#9, 0, 1, 1, none, 0, 2⟩ := by
  decide +kernel

theorem wit_IssueAndRetire : HasBrick (tOn bA) 0 bA ∧ (tabGet? bA.splits 0).isSome = true ∧ bA.trap = none := by decide +kernel

/-! ### Witnesses: cure, memory accesses -/

/-- One thread: v1 holds 2.0, v2 and v3 hold 1.0 and 0, v4 holds 1.0; s6 and s7 hold a policy with tolerance t. -/
def bC (tol p1 : W64) : Brick :=
  tBrick 1 [(1, fun _ => 0x4000000000000000#64), (2, fun _ => 0x3FF0000000000000#64), (3, fun _ => 0#64),
    (4, fun _ => 0x3FF0000000000000#64)] [(6, tol), (7, p1)]
def fC : Form := { laneForm true 0#3 [1#6, 2#6, 3#6, 4#6] 5#6 with
  unis := [6, 7], rd := [nLane 1#6, nLane 2#6, nLane 3#6, nLane 4#6, nUni 6#6, nUni 7#6]
  chk := [(1, true, true), (2, true, true), (3, true, true), (4, true, true)] }
def pC (br : Brick) : Option CurePass :=
  let c := tCtx br
  (policyOf (c.u 6#6) (c.u 7#6)).map (fun p => cureThread c 1#6 2#6 4#6 .rne .f64 0 p 0)
theorem wit_CureAndFlagForms :
    (Issues (tOn (bC 0 0)) (tCtx (bC 0 0)) fC ∧ pC (bC 0 0) = none) ∧
    (let br := bC 0x3FF0000000000000 0x000001003F800000
     Issues (tOn br) (tCtx br) fC ∧ br.dpFault = none ∧ br.armed = none ∧ (pC br).any (fun r => r.pass && !r.trip) = true) ∧
    (let br := { bC 0 0x000001003F800000 with cst := [(0, { Cst.start with pass := 1 })] }
     Issues (tOn br) (tCtx br) fC ∧ (pC br).any (fun r => !r.pass && r.trip && !r.fail) = true) ∧
    (let br := { bC 0 0x000001003F800000 with cst := [(0, ⟨0, 0, 0, true⟩)] }
     Issues (tOn br) (tCtx br) fC ∧ (pC br).any (fun r => !r.pass && r.trip && r.fail) = true) ∧
    (Issues (tOn bA) (tCtx bA) (laneForm false 0#3 [] 1#6) ∧ Issues (tOn bA) (tCtx bA) (bareForm false true 0#3 .vec) ∧
      fxPendingFor (tOn bA) (tCtx bA) = false ∧ bA.dpFault = none) := by decide +kernel

/-- The module with the leaf of its first 2 MiB changed. -/
def tLeaf (e : Nat) (s : State) : State := putBytes s (.phys 0x4000) (leBytes 8 e)

theorem wit_AddressChecks :
    (let c := tCtx bA
     let off := fun (a : W64) => a.toNat % 2 ^ 20
     (∀ t ∈ c.ts, off 4088#64 + 8 ≤ localSize (tOn bA) bA) ∧
     (0 ∈ c.ts ∧ localSize (tOn bA) bA < off 4089#64 + 8 ∧ ∀ t' ∈ c.ts, ¬ t' < 0)) ∧
    (2 ^ 57 ≤ 2 ^ 57 ∧ 2 ^ 57 - 8 < 2 ^ 57 ∧
      (brickTranslate (tOn bA) (tCtx bA) kRead 0x1FFFF8).2 = .ok 0x1FFFF8 ∧
      (brickTranslate (tLeaf 0 (tOn bA)) (tCtx bA) kRead 0x100).2 = .absent ∧
      (brickTranslate (tLeaf 0x20 (tOn bA)) (tCtx bA) kRead 0x100).2 = .cause 0x0C5#9) := by decide +kernel

/-- What a walk of address space 0 for 0x100 ends in. -/
def walkEnd (s : State) : Option Walk :=
  match rootOf s 0 with
  | (s1, some root) => some (walkFrom s1 0 0 0 0x100 walkLevels root).2
  | _ => none
theorem wit_TranslationOutcomes :
    (translate (tOn bA) 0 0 0 true kRead 0x100).2 = .ok 0x100 ∧
    (match walkEnd (tLeaf 0x13 (tOn bA)) with
     | some (.leaf e p) => paExists (tOn bA) (ownPa (tOn bA) p) && !leafAllows e kWrite true
     | _ => false) = true ∧
    walkEnd (tLeaf 0x20 (tOn bA)) = some .revoked ∧ walkEnd (tLeaf 0 (tOn bA)) = some .absent := by decide +kernel

/-- A load of a table that issues, whose accesses are found. -/
def loadOk (br : Brick) (s : State) (x : LoadSpec) : Prop :=
  Issues (tPut br s) (tCtx br) x.form ∧ loadHold (tPut br s) (tCtx br) (if x.glob (tCtx br) then 1 else 0) = false ∧
  accOk (x.accs (tPut br s) (tCtx br)) = true
theorem wit_LoadsComplete :
    (∃ i x, Load i x ∧ x.glob (tCtx bA) = false ∧ loadOk bA tBase x) ∧
    (∃ i x, Load i x ∧ x.glob (tCtx bA) = true ∧ loadOk bA tBase x) ∧
    (∃ i x, Load i x ∧ loadOk (dt bA) (tDet tBase) x) ∧
    (∃ i x, Load i x ∧ loadOk bG tBase x) :=
  ⟨⟨_, _, .ldB64 3#6 1#6 0#6 0#2 0#3, by simp only [loadOk]; decide +kernel⟩,
   ⟨_, _, .ldgB32Disp 3#6 1#6 2#6 0#2 4#30 0#3, by simp only [loadOk]; decide +kernel⟩,
   ⟨_, _, .ldgB64 3#6 1#6 2#6 0#2 0#3, by simp only [loadOk]; decide +kernel⟩,
   ⟨_, _, .ldt 3#6 1#6 2#6 0#2 true 0#3, by simp only [loadOk]; decide +kernel⟩⟩

/-- A store of a table that issues, whose accesses are found. -/
def storeOk (br : Brick) (s : State) (x : StoreSpec) : Prop :=
  Issues (tPut br s) (tCtx br) x.form ∧ storeHold (tPut br s) (tCtx br) (x.glob (tCtx br)) = false ∧ x.green (tCtx br) = false ∧
  (match x.accs (tPut br s) (tCtx br) with
   | .ok _ accs => (x.puts (tCtx br) accs).all (fun p => !(p.acc.loc.isHost && (p.dG || p.acc.aG || (tCtx br).gov)))
   | _ => false) = true
theorem wit_StoresComplete :
    (∃ i x, Store i x ∧ x.glob (tCtx bA) = false ∧ storeOk bA tBase x) ∧
    (∃ i x, Store i x ∧ x.glob (tCtx bA) = true ∧ storeOk bA tBase x) ∧
    (∃ i x, Store i x ∧ storeOk (dt bA) (tDet tBase) x) :=
  ⟨⟨_, _, .stB32 2#6 1#6 0#6 0#2 0#3, by simp only [storeOk]; decide +kernel⟩,
   ⟨_, _, .stcDisp 2#6 1#6 2#6 0#2 8#30 true 0#3, by simp only [storeOk]; decide +kernel⟩,
   ⟨_, _, .stgB64 2#6 1#6 2#6 0#2 0#3, by simp only [storeOk]; decide +kernel⟩⟩

def fAt (dst : Option Reg) (data : List Reg) : Form :=
  let f0 := memForm true 0#3 dst 1#6 2#6 false true
  { f0 with lanes := f0.lanes ++ data.map BitVec.toNat, rd := f0.rd ++ data.map nLane, chk := f0.chk ++ data.map (atomChk .i64) }
def atomAt (br : Brick) (s : State) : AccRes :=
  let c := tCtx br
  globalAccs (tPut br s) c kRw (fun h => h != .host) (c.addr 1#6 2#6 0#2 0) (c.addrG 1#6 2#6) (atomBytes .i64)
    (misaligned (c.addr 1#6 2#6 0#2 0) (atomBytes .i64))
/-- A place in the memory of module 1. -/
def tRemote : Nat := 0x80000000000000 + 2 ^ 44
def rAtom (off : Nat) : AtomReq := ⟨⟨0, .phys (0x20000 + off), 0x20000 + off, 8, false⟩, 1#64, 0#64, false, false⟩
theorem wit_AtomicsComplete :
    (Issues (tOn bA) (tCtx bA) (fAt none [2#6]) ∧ globHold (tOn bA) (tCtx bA) 2 = false ∧ accOk (atomAt bA tBase) = true) ∧
    (Issues (tOn bA) (tCtx bA) (fAt (some 3#6) [1#6, 2#6]) ∧ globHold (tOn bA) (tCtx bA) 1 = false) ∧
    (Issues (tOnDet bA) (tCtx (dt bA)) (fAt (some 3#6) [2#6]) ∧ globHold (tOnDet bA) (tCtx (dt bA)) 1 = false ∧ accOk (atomAt (dt bA) (tDet tBase)) = true) ∧
    ((rAtom 56).acc.n ≤ 8 ∧ (rAtom 56).acc.loc.inLine % 64 + (rAtom 56).acc.n ≤ 64 ∧
      outCheck tBase (rAtom 56).acc.loc = none ∧ outCheck { tBase with badKeys := [tBase.key] } (.phys tRemote) = some 0x147#9 ∧
      outCheck { tBase with modKeys := [(1, 7#16)] } (.phys tRemote) = some 0x14E#9 ∧
      (metaAt tBase (rAtom 56).acc.loc.line) = LineMeta.start ∧ LineMeta.start.err = [] ∧ LineMeta.start.psn = false ∧
      (metaAt (putMeta tBase (rAtom 56).acc.loc.line { LineMeta.start with psn := true }) (rAtom 56).acc.loc.line).psn = true) := by
  decide +kernel

/-- A tile at 0x20000 whose own head is all zeros; with `twin`, its twin at 0x21000. -/
def tTwin (s : State) : State :=
  putBytes (putBytes s (.phys 0x20000) (leBytes 64 (2 ^ 33 + 0x21000 * 2 ^ 128))) (.phys 0x21000) (leBytes 64 (2 ^ 32 + 0x20000 * 2 ^ 128))
def tileOk (br : Brick) (s : State) (x : TileSpec) : Prop :=
  Issues (tPut br s) (tCtx br) x.form ∧ accOk (x.accs (tPut br s) (tCtx br)) = true ∧
  (x.addr (tCtx br) ((tCtx br).ts.headD 0)).toNat / 4096 * 4096 = 0x20000
def headOk (r : HeadRes) (p : State → Head → Bool) : Bool :=
  match r with
  | .ok s _ h => h.good && p s h
  | _ => false
theorem wit_VersionedFormsComplete :
    (∃ i d x, VersionedLoad i d x ∧ tileOk bG tBase x ∧ loadHold (tOn bG) (tCtx bG) 1 = false ∧
      headOk (headAddr (tOn bG) (tCtx bG) kRead 0x20000) (fun _ h => !h.lnk && h.ver % 2 == 0) = true) ∧
    (∃ i d x, VersionedLoad i d x ∧ tileOk (dt bG) (tDet tBase) x ∧ loadHold (tOnDet bG) (tCtx (dt bG)) 1 = false ∧
      headOk (headAddr (tOnDet bG) (tCtx (dt bG)) kRead 0x20000) (fun _ h => !h.lnk && h.ver % 2 == 0) = true) ∧
    (∃ i d x, AonStore i d x ∧ tileOk bG tBase x ∧ globHold (tOn bG) (tCtx bG) 2 = false ∧
      headOk (headAddr (tOn bG) (tCtx bG) kRw 0x20000) (fun _ h => !h.lnk) = true) ∧
    (∃ i d x, PairedStore i d x ∧ tileOk bG (tTwin tBase) x ∧
      headOk (headAddr (tPut bG (tTwin tBase)) (tCtx bG) kRw 0x20000) (fun s h => h.twn && h.peer == 0x21000 &&
        headOk (headAddr s (tCtx bG) kRw 0x21000) (fun _ h' => h'.lnk && h'.peer == 0x20000)) = true) :=
  ⟨⟨_, _, _, .ldtv 3#6 1#6 2#6 0#2 0#3, by simp only [tileOk]; decide +kernel⟩,
   ⟨_, _, _, .ldtvDisp 3#6 1#6 2#6 0#2 0#30 0#3, by simp only [tileOk]; decide +kernel⟩,
   ⟨_, _, _, .sttAon 2#6 1#6 2#6 0#2 0#3, by simp only [tileOk]; decide +kernel⟩,
   ⟨_, _, _, .stp 2#6 1#6 2#6 0#2 0#3, by simp only [tileOk]; decide +kernel⟩⟩

theorem wit_TentativeFormsComplete :
    (∃ i x, CellForm i x ∧ Issues (tOnDet bA) (tCtx (dt bA)) x.form) ∧
    (∃ i x, CellForm i x ∧ Issues (tOn bA) (tCtx bA) x.form ∧ globHold (tOn bA) (tCtx bA) 1 = false ∧
      accOk (globalAccs (tOn bA) (tCtx bA) kRw (fun h => h == .own) (x.addr (tCtx bA)) (x.aG (tCtx bA)) 8
        (misaligned (x.addr (tCtx bA)) 8)) = true) :=
  ⟨⟨_, _, .retr 0#2 1#6 2#6 0#3, by decide +kernel⟩, ⟨_, _, .tst 0#2 2#6 1#6 2#6 0#3, by decide +kernel⟩⟩

/-- A cell pending at 0x20000 for brick b. -/
def tPair (b : Nat) (obs : Bool) (s : State) : State := { s with pairs := [(0x4000, ⟨17#64, false, b, obs⟩)] }
theorem wit_TentativeFormsComplete_cells :
    tabGet? (tPair 0 false tBase).pairs (0x20000 / 8) = some ⟨17#64, false, 0, false⟩ ∧
    tabGet? (tPair 0 true tBase).pairs (0x20000 / 8) = some ⟨17#64, false, 0, true⟩ ∧
    ((metaAt tBase (Loc.phys (0x20000 / 8 * 8)).line).err = [] ∧ (metaAt tBase (Loc.phys (0x20000 / 8 * 8)).line).psn = false) ∧
    tabGet? (tPair 1 true tBase).pairs (0x20000 / 8) = some ⟨17#64, false, 1, true⟩ ∧ tabGet? tBase.pairs (0x20000 / 8) = none ∧
    (Issues (tOn bA) (tCtx bA) (bareForm false false 0#3 .vec) ∧ bA.threads &&& ~~~(tCtx bA).sp.mask = 0 ∧ bA.det = false ∧ bA.arrMarks = []) ∧
    (HasBrick (tOn bA) 0 bA ∧ bA.alive = true) ∧ isNext (exec (.preempt 0) (tPair 0 false (tOn bA))) = true := by decide +kernel

/-! ### Witnesses: control -/

theorem wit_LoadDeliversMemory : (⟨31, .phys 0x20000, 0x20000, 8, false⟩ : Acc).t < 32 := by decide

/-- The loaded module with code at 0x10000. -/
def tCode (code : List Byte) : State := loadCode State.reset code
/-- Two threads; s1 holds 0x10000, where a LAND stands, s2 holds 0x10004. -/
def bJ : Brick := tBrick 2 [(1, fun _ => 0x10000#64)] [(1, 0x10000#64), (2, 0x10004#64)]
def sJ (br : Brick) : State := tPut br (tCode (wordBytes 0xA8000000#32))
def fV : Form := bareForm false false 0#3 .vec
def stk (l : List Entry) (br : Brick) : Brick := sp0 br (fun sp => { sp with stack := l })
def dvg (pm : BitVec 32) (ja gr : Option Nat) : Entry := .dvg 3#32 pm 0x10010 false ja gr false none 0

theorem wit_ControlFormsComplete :
    Issues (tOn bA) (tCtx bA) fV ∧
    Issues (tOn bA) (tCtx bA) (memForm false 0#3 none 1#6 2#6 false false) ∧
    Issues (tOn bA) (tCtx bA) (memForm true 0#3 none 1#6 2#6 false false) ∧
    Issues (tOn bA) (tCtx bA) { fV with unis := [31], rd := [nUni 31#6] } ∧
    (let br := stk (List.replicate 15 (.ret 0 false)) bA
     Issues (tOn br) (tCtx br) fV ∧ (tCtx br).sp.stack.length < 16) ∧
    (let br := stk (List.replicate 16 (.ret 0 false)) bA
     Issues (tOn br) (tCtx br) fV ∧ 16 ≤ (tCtx br).sp.stack.length) ∧
    (let br := stk [dvg 0 none none] bA
     Issues (tOn br) (tCtx br) fV ∧ (tCtx br).sp.stack.head? = some (dvg 0 none none)) ∧
    (Issues (sJ bJ) (tCtx bJ) { fV with unis := [1], rd := [nUni 1#6] } ∧ (landing (sJ bJ) (tCtx bJ) ((tCtx bJ).u 1#6)).2 = .ok ∧
      Issues (sJ bJ) (tCtx bJ) { fV with unis := [2], rd := [nUni 2#6] } ∧ (landing (sJ bJ) (tCtx bJ) ((tCtx bJ).u 2#6)).2 = .bad) ∧
    Issues (tOn bA) (tCtx bA) (uniForm false 0#3 [] 3#6) := by decide +kernel

theorem wit_LandingPoints :
    2 ^ 57 ≤ (0x0200000000000000#64).toNat ∧ (0x10002#64).toNat % 4 ≠ 0 ∧
    ((0x01FFFFFFFFFFFFFC#64).toNat < 2 ^ 57 ∧ (0x01FFFFFFFFFFFFFC#64).toNat % 4 = 0 ∧
      (brickTranslate (sJ bJ) (tCtx bJ) kExec 0x01FFFFFFFFFFFFFC).2 = .absent) ∧
    (brickTranslate (tLeaf 0x07 (sJ bJ)) (tCtx bJ) kExec 0x10000).2 = .cause 0x0C2#9 ∧
    fetchOk (sJ bJ) (tCtx bJ) 0x10000 = true := by decide +kernel

/-- The brick with a tape in a state. -/
def bTape (st : Nat) (br : Bool) (segs : List Seg) (b : Brick) : Brick :=
  { b with tape := { Tape.closed with state := st, br := br, segs := segs } }
def seg1 : Seg := ⟨0x20000, 4096, 0, false⟩
def mBits (v : W64) (b : Brick) : Brick := { b with msk := [(1, ⟨v, 0⟩)] }
def fB : Form := { fV with rd := [nMsk 1#3] }
/-- What the tape asks of a BRL on mask m1. -/
def brOf (br : Brick) : TapeBr :=
  let c := tCtx br
  let taken := maskOf (c.ts.filter (fun t => (c.m 1#3).v.getLsbD (2 * t) != false))
  tapeBranch c taken (taken != 0#32 && c.sp.mask &&& ~~~taken != 0#32) (c.ts.any (fun t => (c.m 1#3).g.getLsbD (2 * t)))
def isRec : TapeBr → Bool
  | .record _ _ _ _ => true
  | _ => false
def isRep : TapeBr → Bool
  | .replay _ _ _ _ => true
  | _ => false
def isTrap : TapeBr → Bool
  | .trap _ _ => true
  | _ => false
theorem wit_BranchDivides :
    (let br := stk (List.replicate 16 (.ret 0 false)) bA
     Issues (tOn br) (tCtx br) fB ∧ 16 ≤ (tCtx br).sp.stack.length) ∧
    (let br := mBits 0#64 bA
     Issues (tOn br) (tCtx br) fB ∧ (tCtx br).sp.stack.length < 16 ∧ brOf br = .plain) ∧
    (let br := mBits 1#64 bA
     Issues (tOn br) (tCtx br) fB ∧ (tCtx br).sp.stack.length < 16 ∧ brOf br = .plain) ∧
    (let br := mBits 0xF#64 bA
     Issues (tOn br) (tCtx br) fB ∧ (tCtx br).sp.stack.length < 16 ∧ brOf br = .plain) ∧
    (let br := { mBits 1#64 bA with splits := (mBits 1#64 bA).splits ++ [(1, Split.start 0), (2, Split.start 0), (3, Split.start 0)] }
     Issues (tOn br) (tCtx br) fB ∧ freeSplits (tCtx br) = []) ∧
    (let br := mBits 1#64 (bTape 1 true [seg1] bA)
     Issues (tOn br) (tCtx br) fB ∧ isRec (brOf br) = true) ∧
    (let br := sp0 (mBits 1#64 (bTape 3 true [seg1] bA)) (fun sp => { sp with pendFrame := some ⟨1#32, 0, 0⟩ })
     Issues (tOn br) (tCtx br) fB ∧ isRep (brOf br) = true) ∧
    (let br := mBits 1#64 (bTape 1 false [seg1] bA)
     Issues (tOn br) (tCtx br) fB ∧ isTrap (brOf br) = true) := by decide +kernel

def fL : Form := { fV with lanes := [1], rd := [nLane 1#6], chk := [chkBoth 1#6] }
def jumps (br : Brick) : List Arm × BitVec 32 := jumpGroups (tCtx br) (laneTargets (sJ br) (tCtx br) 1#6 (tCtx br).ts).2
def allOk (br : Brick) : Bool := (laneTargets (sJ br) (tCtx br) 1#6 (tCtx br).ts).2.all (fun x => x.2.2 == .ok)
theorem wit_LaneJumpDivides :
    (Issues (sJ bJ) (tCtx bJ) fL ∧ allOk bJ = true ∧ (jumps bJ).1.length = 1 ∧ (jumps bJ).2 = 0#32 ∧
      (tCtx bJ).sp.redisp = false ∧ (tCtx bJ).sp.stack.length < 16 ∧ jumpTapeBad (tCtx bJ) 1 = false) ∧
    (let br := sp0 bJ (fun sp => { sp with redisp := true })
     Issues (sJ br) (tCtx br) fL ∧ allOk br = true ∧ (jumps br).2 = 0#32 ∧ (jumps br).1.length = 1 ∧ (tCtx br).sp.redisp = true ∧
      jumpTapeBad (tCtx br) 1 = false) ∧
    (let br := sp0 bJ (fun sp => { sp with pendFrame := some ⟨1#32, 0, 0⟩ })
     Issues (sJ br) (tCtx br) fL ∧ allOk br = true ∧ (jumps br).2 = 0#32 ∧ (jumps br).1.length = 1 ∧
      (tCtx br).sp.stack.length < 16 ∧ jumpTapeBad (tCtx br) 1 = true) ∧
    (let br := tBrick 2 [(1, fun _ => 0x10002#64)] []
     Issues (sJ br) (tCtx br) fL ∧ (laneTargets (sJ br) (tCtx br) 1#6 (tCtx br).ts).2.map (fun x => x.2.2) = [.bad, .bad] ∧
      (tCtx br).sp.stack.length < 16 ∧ jumpTapeBad (tCtx br) 1 = false) := by decide +kernel

/-- A group of splits 0 and 1, split 1 parked at the JOIN at 0x10000; the entries of both are on top. -/
def bGroup (pc1 : Nat) : Brick :=
  let br := stk [dvg 0 none (some 7)] bA
  { br with
    groups := [(7, ⟨0, [1], none⟩)]
    splits := br.splits ++ [(1, { Split.start pc1 with mask := 2#32, stack := [dvg 0 (some pc1) (some 7)]
                                                       wait := some ⟨.join 7, none, pc1, false, true⟩ })] }
def parkedIn (br : Brick) : Brick :=
  let p := br.setSplit 0 { (tCtx br).sp with stack := [dvg 0 (some 0x10000) (some 7)], wait := some ⟨.join 7, none, 0x10000, false, true⟩ }
  { p with groups := tabMod p.groups 7 (fun x => { x with order := x.order.filter (· != 0) ++ [0] }) }
theorem wit_JoinCloses :
    (Issues (tOn bA) (tCtx bA) fV ∧ (tCtx bA).sp.stack = [] ∧ (tCtx bA).sp.pc = 0x10000) ∧
    (let br := stk [dvg 0 (some 4) none] bA
     Issues (tOn br) (tCtx br) fV ∧ (4 : Nat) ≠ (tCtx br).sp.pc) ∧
    (let br := stk [dvg 2#32 none none] bA
     Issues (tOn br) (tCtx br) fV ∧ 2#32 &&& br.threads ≠ 0#32) ∧
    (let br := stk [dvg 4#32 (some 0x10000) none] bA
     Issues (tOn br) (tCtx br) fV ∧ 4#32 &&& br.threads = 0#32) ∧
    (let br := { bGroup 0x10000 with splits := (bGroup 0x10000).splits.map (fun x => (x.1, { x.2 with wait := none })) }
     Issues (tOn br) (tCtx br) fV ∧ groupReady (parkedIn br) 7 = false) ∧
    (Issues (tOn (bGroup 0x10000)) (tCtx (bGroup 0x10000)) fV ∧ groupReady (parkedIn (bGroup 0x10000)) 7 = true ∧
      groupAddrs (parkedIn (bGroup 0x10000)) 7 = [0x10000] ∧ tabGet? (parkedIn (bGroup 0x10000)).groups 7 = some ⟨0, [1, 0], none⟩ ∧
      (tabGet? (parkedIn (bGroup 0x10000)).splits 0).isSome = true) := by decide +kernel

theorem wit_ExitEndsThreads :
    (let br := { bA with threads := 7#32 }
     Issues (tOn br) (tCtx br) fV ∧ br.threads &&& ~~~(tCtx br).sp.mask ≠ 0#32) ∧
    (Issues (tOn bA) (tCtx bA) fV ∧ bA.threads &&& ~~~(tCtx bA).sp.mask = 0#32 ∧ bA.det = false ∧ bA.arrMarks = []) ∧
    (Issues (tOnDet bA) (tCtx (dt bA)) fV ∧ (dt bA).threads &&& ~~~(tCtx (dt bA)).sp.mask = 0#32) := by decide +kernel

/-! ### Witnesses: waits, bindings, synchronisation objects -/

/-- An operation in flight on counter 1. -/
def fl1 (tEnd : Option Nat) (kind : FlightKind) : Flight := ⟨0, some 1, 1, 0, 0x10000, false, 1, tEnd, false, kind⟩
def flying (f : Flight) (br : Brick) : Brick := { br with flights := [f], seq := 1, issued := [(1, 1)] }
/-- The brick's handler split, in focus. -/
def bH (br : Brick) : Brick := { br with splits := br.splits ++ [(4, { Split.start 0x10000 with mask := br.threads })], inSlot := true }
def tPutH (br : Brick) (s : State) : State := { tPut (bH br) s with focus := some (0, 4) }
def cH (br : Brick) : Ctx := tCtxK 4 (bH br)
def greenU (r : Nat) (br : Brick) : Brick := { br with uni := tabPut br.uni r ⟨(br.uniR r).v, true⟩ }

theorem wit_WaitAndFenceComplete :
    (let br := flying (fl1 (some 100) (.regs [] none)) (dt bA)
     coversUncommitted br 1 1 = true ∧ Issues (tPutH br (tDet tBase)) (cH br) (syncForm false 0#3 [0#6] none) ∧ (cH br).inHandler = true ∧
       Issues (tPut br (tDet tBase)) (tCtx br) (syncForm false 0#3 [0#6] none) ∧ (tCtx br).inHandler = false) ∧
    (let br := flying (fl1 none (.regs [] none)) bA
     Issues (tOn br) (tCtx br) (syncForm false 0#3 [0#6] none) ∧ coversUncommitted br 1 1 = false ∧ fcValue br 1 ≤ 1 ∧ 0 < fcValue br 1) ∧
    (Issues (tOn bA) (tCtx bA) fV ∧ Issues (tOnDet bA) (tCtx (dt bA)) fV ∧ accessesDone bA bA.seq = true ∧
      (2#2).getLsbD 0 = false ∧ (1#2).getLsbD 0 = true ∧ (1#2).getLsbD 1 = false ∧ (2#2).getLsbD 1 = true) ∧
    (let br := flying (fl1 none (.regs [] none)) bA
     Issues (tOn br) (tCtx br) fV ∧ accessesDone br br.seq = false) := by decide +kernel

/-- s5 holds a word that binds slot 3 to semaphore 0 over 64 bytes; s6 one of length 0. -/
def bB : Brick := tBrick 2 [] [(2, 0x20000#64), (5, 0x0301000000000040#64), (6, 0x0301000000000000#64)]
def fBd (d : Reg) : Form := syncForm false 0#3 [d, 2#6] none
def theBind : Option (Nat × Binding) := bindOf (tCtx bB) ((tCtx bB).u 2#6 + (immS (0#9) <<< 3)) ((tCtx bB).u 5#6)
theorem wit_BindingsComplete :
    (Issues (tOn (greenU 5 bB)) (tCtx (greenU 5 bB)) (fBd 5#6) ∧ (tCtx (greenU 5 bB)).uG 5#6 = true) ∧
    (Issues (tOn bB) (tCtx bB) (fBd 5#6) ∧ (tCtx bB).gov = false ∧ theBind = some (3, ⟨0x20000, 64, 0, 0, .core⟩) ∧
      bindFree loadLaunch 3 ⟨0x20000, 64, 0, 0, .core⟩ = true ∧
      bindFree { loadLaunch with binds := [(3, ⟨0, 64, 0, 0, .core⟩)] } 3 ⟨0x20000, 64, 0, 0, .core⟩ = false ∧
      bindFree { loadLaunch with binds := [(4, ⟨0x1FFC0, 128, 0, 0, .core⟩)] } 3 ⟨0x20000, 64, 0, 0, .core⟩ = false) ∧
    (Issues (tOnDet bB) (tCtx (dt bB)) (fBd 5#6)) ∧
    bindOf (tCtx bB) ((tCtx bB).u 2#6 + (immS (0#9) <<< 3)) ((tCtx bB).u 6#6) = none ∧
    (Issues (tOn bB) (tCtx bB) (syncForm true 0#3 [5#6] none) ∧ Issues (tOn (greenU 5 bB)) (tCtx (greenU 5 bB)) (syncForm true 0#3 [5#6] none) ∧
      Issues (tOnDet bB) (tCtx (dt bB)) (syncForm true 0#3 [5#6] none) ∧ launchOf (tOn bB) bB = some loadLaunch ∧
      tabGet? ({ loadLaunch with binds := [(3, ⟨0, 64, 0, 0, .core⟩)] } : Launch).binds (((tCtx bB).u 5#6).toNat / 2 ^ 56) =
        some ⟨0, 64, 0, 0, .core⟩ ∧ tabGet? loadLaunch.binds 0 = none) := by decide +kernel

/-- The wall's objects changed. -/
def tBar (x : Barrier) (s : State) : State := modWall s 0 (fun w => { w with bars := [(0, x)] })
def tHod (h : Hod) (s : State) : State := modWall s 0 (fun w => { w with hods := [(0, h)] })
def tSem (x : Sem) (s : State) : State := { s with sems := [(0, x)] }
def ob : ObjRef := .coreBar 0 0
def b1 : Barrier := Barrier.start 1
/-- The barrier form issues on barrier 0 in a state. -/
def barIss (br : Brick) (s : State) (f : Form) : Prop :=
  Issues (tPut br s) (tCtx br) f ∧ barName (tPut br s) (tCtx br) 0#6 0#5 .core = .ok ob false ∧ (barAt (tPut br s) ob).psn = false ∧ (barAt (tPut br s) ob).odd = []

/-- One thread; s1 holds 32, s2 0, s3 33, s4 the largest count: the boundaries of a core barrier's count. -/
def bE : Brick := tBrick 1 [] [(1, 1#64), (2, 0#64), (3, BitVec.ofNat 64 (maxE .core)), (4, BitVec.ofNat 64 (maxE .core + 1))]
theorem wit_BarrierFormsComplete_init :
    (barIss bE tBase (syncForm false 0#3 [1#6, 0#6] none) ∧ barIss (dt bE) (tDet tBase) (syncForm false 0#3 [1#6, 0#6] none)) ∧
    (Issues (tOn bE) (tCtx bE) (syncForm false 0#3 [3#6, 0#6] none) ∧ ((tCtx bE).u 3#6).toNat % 2 ^ 26 = maxE .core ∧ 0 < maxE .core) ∧
    (Issues (tOn bE) (tCtx bE) (syncForm false 0#3 [2#6, 0#6] none) ∧ ((tCtx bE).u 2#6).toNat % 2 ^ 26 = 0) ∧
    (Issues (tOn bE) (tCtx bE) (syncForm false 0#3 [4#6, 0#6] none) ∧ maxE .core < ((tCtx bE).u 4#6).toNat % 2 ^ 26) := by
  simp only [barIss]; decide +kernel
theorem wit_BarrierFormsComplete_arrive :
    let f := syncForm false 0#3 [0#6] none
    (barIss bA tBase f ∧ b1.ab = false ∧ b1.e ≠ 0 ∧ arrivalHeld b1 (tCtx bA) ob = false) ∧ barIss (dt bA) (tDet tBase) f ∧
    (barIss bA (tBar { b1 with ab := true } tBase) f) ∧ barIss bA (tBar { b1 with e := 0 } tBase) f := by
  simp only [barIss]; decide +kernel
/-- A core-barrier name that reaches another wall of the quad: wall 1 of core 1. -/
def tRem : State := { tBase with walls := [(0, loadWall), (1, { loadWall with wid := 1, core := 1 })] }
def bRem : Brick := tBrick 1 [] [(1, BitVec.ofNat 64 (2 ^ 12 + 2 ^ 13 + 2 ^ 16))]
theorem wit_BarrierFormsComplete_wait :
    let f := syncForm false 0#3 [0#6] (some 3#6)
    let f0 := syncForm false 0#3 [0#6] (some 0#6)
    let arr : ArrMark := ⟨ob, [0], 0, 0, 0, false⟩
    (barIss bA (tBar { b1 with ab := true } tBase) f ∧ barIss bA (tBar { b1 with ab := true } tBase) f0) ∧
    barIss (dt bA) (tDet tBase) f ∧ (barIss { bA with arrMarks := [arr] } tBase f ∧
      Brick.ahead { bA with arrMarks := [arr] } ob ≠ 0) ∧ (barIss bA tBase f ∧ bA.ahead ob = 0 ∧ bA.lastArr = []) ∧
    (barIss { bA with lastArr := [(ob, 0)] } (tBar { b1 with phase := 1 } tBase) f ∧ Brick.ahead { bA with lastArr := [(ob, 0)] } ob = 0) ∧
    barIss { bA with lastArr := [(ob, 1)] } (tBar { b1 with phase := 1 } tBase) f ∧
    (Issues (tPut bRem tRem) (tCtx bRem) (syncForm false 0#3 [1#6] (some 3#6)) ∧
      barName (tPut bRem tRem) (tCtx bRem) 1#6 0#5 .core = .ok (.coreBar 1 0) true) := by
  simp only [barIss]; decide +kernel

def semIss (br : Brick) (s : State) (f : Form) : Prop :=
  Issues (tPut br s) (tCtx br) f ∧ semName (tPut br s) (tCtx br) 0#6 0#5 = .ok (.sem 0 0) false ∧ (semAt (tPut br s) (.sem 0 0)).psn = false ∧ (semAt (tPut br s) (.sem 0 0)).odd = []
theorem wit_SemaphoreFormsComplete :
    let fi := syncForm false 0#3 [1#6, 0#6] none
    let fa := syncForm false 0#3 [0#6] (some 3#6)
    let fr := syncForm false 0#3 [0#6] none
    (semIss bA tBase fi ∧ semIss (greenU 1 bA) tBase fi ∧ (tCtx (greenU 1 bA)).uG 1#6 = true ∧ semIss (dt bA) (tDet tBase) fi) ∧
    (semIss bA (tSem ⟨1, [], false, []⟩ tBase) fa ∧ (semAt (tPut bA (tSem ⟨1, [], false, []⟩ tBase)) (.sem 0 0)) = ⟨1, [], false, []⟩) ∧
    semIss bA (tSem ⟨0, [], false, []⟩ tBase) fa ∧ semIss bA (tSem ⟨1, [(1, 0)], false, []⟩ tBase) fa ∧ semIss (dt bA) (tDet tBase) fa ∧
    (semIss bA (tSem ⟨2 ^ 32 - 2, [], false, []⟩ tBase) fr ∧ semIss bA (tSem ⟨2 ^ 32 - 1, [], false, []⟩ tBase) fr ∧ writesDone bA bA.seq = true) ∧
    (let br := flying (fl1 none (.store [] false)) bA
     semIss br tBase fr ∧ writesDone br br.seq = false) := by
  simp only [semIss]; decide +kernel

def h0 : Hod := ⟨2, 64, 3968, 0, 0, [], false, [], [], [], [], [], [], []⟩
def oh : ObjRef := .hod 0 0
def hodIss (br : Brick) (s : State) (f : Form) : Prop :=
  Issues (tPut br s) (tCtx br) f ∧ hodName (tPut br s) (tCtx br) 0#6 0#5 = .ok oh false
def srcIs (r : SrcRes) : Bool :=
  match r with
  | .ok _ l => !l.isEmpty
  | _ => false
/-- s1 names the local line at 64, s2 the line at 0x20000 of the launch's space. -/
def bP : Brick := tBrick 2 [] [(1, 64#64), (2, 0x8000000000020000#64)]
theorem wit_HodFormsComplete_put :
    let f := syncForm false 0#3 [0#6] none
    let fp := syncForm false 0#3 [1#6, 0#6] none
    let fq := syncForm false 0#3 [2#6, 0#6] none
    (hodIss bA tBase f ∧ hodIss (dt bA) (tDet tBase) f ∧ h0.tail = h0.head) ∧
    (hodIss bA (tHod { h0 with tail := 1 } tBase) f ∧ hodIss bA (tHod { h0 with cons := [(1, 0)] } tBase) f) ∧
    (hodIss bP tBase fp ∧ fcFull bP 6 = false ∧ wbBusy bP = false ∧ srcBad (tCtx bP) 64#64 = none ∧
      srcIs (srcLines (tOn bP) (tCtx bP) 64#64 1) = true ∧ h0.prods = [] ∧ h0.room = true) ∧
    (hodIss bP tBase fq ∧ (0x8000000000020000#64).getLsbD 63 = true ∧ srcBad (tCtx bP) 0x8000000000020000#64 = none ∧
      srcIs (srcLines (tOn bP) (tCtx bP) 0x8000000000020000#64 1) = true) ∧
    (hodIss (dt bP) (tDet tBase) fq ∧ detReadHold (tPut (dt bP) (tDet tBase)) (tCtx (dt bP)) = false ∧ fcFull (dt bP) 6 = false ∧
      srcIs (srcLines (tPut (dt bP) (tDet tBase)) (tCtx (dt bP)) 0x8000000000020000#64 1) = true) ∧
    (hodIss (dt bP) (tDet tBase) fp ∧ hodIss bP (tHod { h0 with closed := true } tBase) fp) ∧
    (hodIss bP (tHod { h0 with tail := 2 } tBase) fp ∧ { h0 with tail := 2 }.room = false ∧
      hodIss bP (tHod { h0 with prods := [(1, 0)] } tBase) fp) := by
  simp only [hodIss]; decide +kernel
/-- The hod as a HOD.GET or HOD.TRY finds it, its own slot freed. -/
def h2Of (br : Brick) (s : State) : Hod := hodAt (freeHeld (markRole (tPut br s) (tCtx br) oh false) oh 0) oh
theorem wit_HodFormsComplete_get :
    let f := syncForm false 0#3 [0#6] (some 3#6)
    let f0 := syncForm false 0#3 [0#6] (some 0#6)
    let ready := tHod { h0 with tail := 1, filled := [0] } tBase
    let closed := tHod { h0 with closed := true } tBase
    let waiting := tHod { h0 with tail := 1, closed := true } tBase
    (hodIss bA ready f ∧ (h2Of bA ready).cons.length < (h2Of bA ready).c) ∧
    (hodIss bA closed f ∧ hodIss bA closed f0 ∧ (h2Of bA closed).c = 0 ∧ (h2Of bA closed).closed = true ∧ (h2Of bA closed).reserved = 0) ∧
    (hodIss bA waiting f ∧ (h2Of bA waiting).c ≤ (h2Of bA waiting).cons.length ∧ (h2Of bA waiting).reserved ≠ 0) ∧
    hodIss (dt bA) (tDet tBase) f := by
  simp only [hodIss]; decide +kernel

/-! ### Witnesses: the matrix engine -/

/-- The queue's room, the bank and the form of a matrix instruction on logical bank k. -/
def arrIss (br : Brick) (s : State) (f : Form) (k : BitVec 4) : Prop :=
  Issues (tPut br s) (tCtx br) f ∧ BankReady (tPut br s) (tCtx br) k 0 (bankAt (tPut br s) br.core 0) ∧
    (coreOf (tPut br s) br.core).queue.length < 4
def tOwn (x : Option Nat) (bk : Bank) (s : State) : State := putBank s 0 0 { bk with own := x }
/-- s2 names a FP16 tile at local 0, s3 a HB8 tile at 64 with B's metadata at 6144; v16–v47 hold B. -/
def bM : Brick := tBrick 1 ((List.range 32).map (fun r => (16 + r, fun t => BitVec.ofNat 64 (r + t))))
  [(2, 9#64 <<< 40), (3, (12#64 <<< 40) + (6144#64 <<< 20) + 64#64)]
def tWide : State := modLaunch tBase 0 (fun l => { l with lbytes := 8192 })
/-- What a product form of FP16 (a = 2) or HB8 (a = 3) needs on a state. -/
def prodIss (br : Brick) (s : State) (dist quad : Bool) (a : Reg) : Prop :=
  let regs := (List.range (if quad then 8 else 32)).map (fun i => 16 + i)
  let f := arrForm 0#3 regs [a.toNat] (nUni a :: regs.map RName.lane) [] (regs.map (fun r => (r, true, true)))
  let nb := if quad then 32 else 128
  let s := tPut br s
  let c := tCtx br
  Issues s c f ∧ BankReady s c 0#4 0 (bankAt s br.core 0) ∧ (coreOf s br.core).queue.length < 4 ∧ wbBusy br = false ∧
    detReadHold s c = false ∧
    (match operandWord dist (c.u a) with
     | none => false
     | some o =>
       let am := if o.ty.isBlock then readMetas s br (o.tile + 4096) 64 else ([], [])
       let bm := if o.ty.isBlock then readMetas s br o.bm nb else ([], [])
       decide (operandAddr (localSize s br) nb o = none) && (checkLines s (operandLines s br nb o)).2.isEmpty &&
         ((am.1 ++ bm.1).any metaFails || !(am.1 ++ bm.1).any (metaWrong o.ty))) = true

theorem wit_MatrixFormsComplete_products : prodIss bM tBase false false 2#6 ∧ prodIss bM tBase true false 2#6 := by
  simp only [prodIss]; decide +kernel
theorem wit_MatrixFormsComplete_products_block : prodIss bM tWide false true 3#6 := by
  simp only [prodIss]; decide +kernel
theorem wit_MatrixFormsComplete_products_det : prodIss (dt bM) (tOwn (some 0) Bank.zero (tDet tBase)) false false 2#6 := by
  simp only [prodIss]; decide +kernel

/-- s2, s3: scale and bound, and a read-out word of FP32 at column 0; s5: one of FP64 with the exact pair; s7: an ACCWB word;
s8: entry (63, 127) of one FP64 value of thread 31. -/
def bR : Brick := tBrick 32 [(1, fun t => BitVec.ofNat 64 t)]
  [(2, 0x3F800000#64), (3, 6#64 <<< 33), (4, 0x3F800000#64), (5, (1#64 <<< 41) + (7#64 <<< 33)), (6, 0x3F800000#64),
   (7, 9#64 <<< 33), (8, 0x11F3F7F#64), (9, 0x3A83126F#64), (10, 0#64), (11, 0#64)]
def tWb : State := modLaunch tBase 0 (fun l => { l with lbytes := 16384 })
theorem wit_MatrixFormsComplete_accz :
    (Issues (tOn bA) (tCtx bA) (arrForm 0#3 [] [] [] [] []) ∧ physBank (tOn bA) bA 0 = some 0 ∧ bA.det = false) ∧
    (Issues (tOnDet bA) (tCtx (dt bA)) (arrForm 0#3 [] [] [] [] []) ∧ (bankAt (tOnDet bA) 0 0).own ≠ some 0) ∧
    (bankAt (tPut (dt bA) (tOwn (some 0) Bank.zero (tDet tBase))) 0 0).own = some 0 := by decide +kernel
theorem wit_MatrixFormsComplete_topk : arrIss bA tBase (arrForm 0#3 [3] [] [] [nLane 3#6] []) 0#4 := by
  simp only [arrIss]; decide +kernel
theorem wit_MatrixFormsComplete_accrd :
    let f (a : Reg) := arrForm 0#3 [2] [a.toNat, (nxt a).toNat] [nUni a, nUni (nxt a)] [nLane 2#6] []
    let w (a : Reg) := readWord false 2 (bR.uniR (nxt a).toNat).v (fUnpack fmtF32 (readBound (bR.uniR a.toNat).v).toNat) bR.rm
    (arrIss bR tBase (f 2#6) 0#4 ∧ (match w 2#6 with | .ok x => !x.dd | .error _ => false) = true) ∧
    (arrIss bR tBase (f 4#6) 0#4 ∧ (match w 4#6 with | .ok x => x.dd | .error _ => false) = true ∧
      staticCheck (tCtx bR) { f 4#6 with lanes := [3] } = none ∧ interlocked (tCtx bR) (physName 0 (nLane 3#6)) = false ∧
      (sbcOn bR && pendingOn (tCtx bR) (physName 0 (nLane 3#6))) = false) := by
  simp only [arrIss]; decide +kernel
theorem wit_MatrixFormsComplete_accwb :
    arrIss bR tWb (arrForm 0#3 [] [6, 7] [nUni 6#6, nUni 7#6] [] []) 0#4 ∧ acqBlocked bR = false ∧
    (match readWord true 0 (bR.uniR 7).v (fUnpack fmtF32 (readBound (bR.uniR 6).v).toNat) bR.rm with
     | .ok w => decide (w.base % 64 = 0) && decide (w.base + 1024 * w.ty.width ≤ localSize (tPut bR tWb) bR)
     | .error _ => false) = true := by simp only [arrIss]; decide +kernel
theorem wit_MatrixFormsComplete_accadj :
    arrIss bR tBase { arrForm 0#3 [1] [8] [nLane 1#6, nUni 8#6] [] [] with ownPsn := true } 0#4 ∧
    ((tCtx bR).u 8#6) &&& ~~~0x11F3F7F#64 = 0 ∧ ((tCtx bR).u 8#6).toNat / 2 ^ 16 % 32 = 31 ∧
    ((tCtx bR).half 1#6 31 0).u = false ∧ ((tCtx bR).half 1#6 31 1).u = false ∧ ((tCtx bR).half 1#6 31 1).p = false := by
  simp only [arrIss]; decide +kernel
theorem wit_MatrixFormsComplete_accchk :
    let f := arrForm 0#3 [1, 2, 3] [9, 10, 11] [nUni 9#6] ([9, 10, 11].map RName.uni ++ [1, 2, 3].map RName.lane) []
    let tol := fUnpack fmtF32 (((tCtx bR).u 9#6).toNat % 2 ^ 32)
    (arrIss bR tBase f 0#4 ∧ isSpecial tol = false ∧ isNeg tol = false ∧ (bankAt (tOn bR) 0 0).ckv = true) ∧
    (arrIss bR (tOwn none { Bank.zero with ckv := false } tBase) f 0#4 ∧
      (bankAt (tPut bR (tOwn none { Bank.zero with ckv := false } tBase)) 0 0).ckv = false) := by
  simp only [arrIss]; decide +kernel

/-- A launch with dynamic banks; the wall has no banks of its own. -/
def dynL : Launch := { loadLaunch with accDyn := true }
def tDyn (s : State) : State := modWall (modLaunch s 0 (fun l => { l with accDyn := true })) 0 (fun w => { w with banks := [] })
/-- s1: the mask of banks 0 and 15. -/
def bBk : Brick := { tBrick 1 [] [(1, 0x8001#64), (2, 16#64), (3, 1#64)] with banks := [(0, 3), (15, 4)] }
def bNo : Brick := { bBk with banks := [] }
def qe (b p : Nat) : ArrEntry := ⟨b, 0, 0, 0x10000, false, 0, 1#32, p, 0, [], none, .accz⟩
theorem wit_BankPoolForms_alloc :
    let f (a : Reg) := bankForm 0#3 a (some 4#6)
    (Issues (tOn bA) (tCtx bA) (f 1#6) ∧ launchOf (tOn bA) bA = some loadLaunch ∧ loadLaunch.accDyn = false) ∧
    (Issues (tPut bNo (tDyn tBase)) (tCtx bNo) (f 2#6) ∧ launchOf (tPut bNo (tDyn tBase)) bNo = some dynL ∧
      16 ≤ (freeNumbers bNo 16).length ∧ 16 ≤ 16 - (staticBanks (tPut bNo (tDyn tBase)) 0).length ∧
      (coreOf (tPut bNo (tDyn tBase)) 0).reqs = [] ∧ 16 ≤ (poolBanks (tPut bNo (tDyn tBase)) 0).length) ∧
    (Issues (tPut bBk (tDyn tBase)) (tCtx bBk) (f 0#6) ∧ (poolBanks (tPut bBk (tDyn tBase)) 0).length = 14 ∧
      (freeNumbers bBk 16).length = 14) ∧
    (coreOf (modCore (tPut bBk (tDyn tBase)) 0 (fun x => { x with reqs := [⟨1, 0, 16⟩] })) 0).reqs ≠ [] ∧
    (let s := modCore (tPut bBk (tDyn tBase)) 0 (fun x => { x with reqs := [⟨1, 0, 16⟩] })
     Issues s (tCtx bBk) (f 3#6)) ∧
    Issues (tPut (dt bNo) (tDyn (tDet tBase))) (tCtx (dt bNo)) (f 3#6) := by decide +kernel
theorem wit_BankPoolForms_free :
    let f := bankForm 0#3 1#6 none
    let s := tPut bBk (tDyn tBase)
    let busy := modCore s 0 (fun x => { x with queue := [qe 0 4] })
    Issues (tOn bBk) (tCtx bBk) f ∧
    (Issues (tPut bNo (tDyn tBase)) (tCtx bNo) f ∧ tabGet? bNo.banks 15 = none) ∧
    (Issues s (tCtx bBk) f ∧ (coreOf s 0).queue = [] ∧ (tabGet? bBk.banks 0).isSome = true ∧ (tabGet? bBk.banks 15).isSome = true) ∧
    (Issues busy (tCtx bBk) f ∧ ∃ e ∈ (coreOf busy 0).queue, e.brick = 0 ∧ tabGet? bBk.banks 15 = some e.bank) := by
  decide +kernel

def ts3 (k : Nat) : List Term := if k = 3 then [⟨1, -60⟩] else []
def bkA : Bank := { Bank.zero with e := [(3, ⟨5, false, false, false⟩)], A := 1, lb := -63, tb := 1, anchored := true }
theorem span_ts3 : spanOf 0 ((List.range 8192).flatMap ts3) = some (-60, -60) := by decide +kernel
theorem wit_AccumulationIsExact :
    (tabSorted bkA.e = true ∧ (∀ x ∈ bkA.e, x.1 < 8192) ∧ bkA.A = bkA.tb ∧ bkA.lb ≤ bkA.tb ∧ max bkA.tb (-60) - min bkA.lb (-60) = 64 ∧
      (∀ j, (2 : Int) ^ (bkA.lb - (bkA.tb - 64)).toNat ∣ (tabGetD bkA.e j AccEntry.zero).f) ∧
      (((ts3 3).map (fun t => t.m * 2 ^ (t.q - -63 + 64).toNat)).foldl (· + ·) ((5 : Int) * 2 ^ (1 - -63 : Int).toNat)).natAbs
        ≤ accLimit.natAbs * 2 ^ (1 - -63 : Int).toNat) ∧
    (Bank.zero.anchored = false ∧ (∀ j, (tabGetD Bank.zero.e j AccEntry.zero).f = 0) ∧
      (((ts3 3).map (fun t => t.m * 2 ^ (t.q - -60 + 64).toNat)).foldl (· + ·) (0 : Int)).natAbs ≤ accLimit.natAbs) :=
  ⟨⟨by decide +kernel, by decide +kernel, rfl, by decide +kernel, by decide +kernel, fun _ => ⟨_, (Int.one_mul _).symm⟩, by decide +kernel⟩,
    rfl, fun _ => rfl, by decide +kernel⟩

/-! ### Witnesses: the tape engine -/

/-- A tape in a state, with one segment of 64 lines at 0x20000 and the pointer of path 0. -/
def tTape (state lines ptr : Nat) : Tape :=
  { Tape.closed with state := state, lines := lines, paths := (if ptr = 0 then [] else [(0, ptr)])
                     segs := [{ base := 0x20000, len := 4096, stale := false, first := 0 }] }
/-- Brick bT with a tape; s2, s3: a segment of the smallest size, s4, s5: one at an odd place. -/
def bT (t : Tape) : Brick :=
  { tBrick 2 [(1, fun t => BitVec.ofNat 64 (40 + t)), (2, fun _ => 3#64)] [(2, 0x20000#64), (3, 2048#64), (4, 0x20020#64), (5, 2048#64)]
    with tape := t }
def tapeIss (t : Tape) (f : Form) : Prop :=
  Issues (tOn (bT t)) (tCtx (bT t)) f ∧ (bT t).tape.segs.all (fun g => !g.stale) = true ∧ fcFull (bT t) 4 = false
/-- The head of a value entry of one register and of a frame entry, both one line long, for the two threads, label 9. -/
def hVal : THead := ⟨0, 3#32, 9, 1, 0, 0, 0, false⟩
def hBr (kind : Nat) : THead := ⟨0, 3#32, 9, 1, 0, 0, kind, false⟩
def eVal : List Byte := ((entryLines [recValues (tCtx (bT Tape.closed)) 1#6] (fun _ => hVal)).2.headD ([], false)).1
def eBr (kind : Nat) : List Byte := branchLine 2#32 0x10040 0x10080 (hBr kind)
/-- A tape that replays, its newest entry the given line. -/
def tReplay (l : List Byte) : Tape := { tTape 3 1 1 with buf := [(0, l, false)] }
def topOk (t : Tape) (branch : Bool) (lbl cnt : Nat) : Bool :=
  match (topEntry (tOn (bT t)) (tCtx (bT t)) branch lbl cnt).2 with
  | .ok h _ _ => popMatches (tCtx (bT t)) h branch lbl cnt
  | _ => false

def fRec (a : Reg) (n : BitVec 2) : Form :=
  { tapeLane 0#3 (regRun a n) with rd := (regRun a n).map nLane, chk := (regRun a n).map chkBoth }
theorem wit_TapeFormsComplete_rec :
    (tapeIss (tTape 1 0 0) (fRec 1#6 1#2) ∧ (tTape 1 0 0).place 2 = some 0) ∧
    (tapeIss (tTape 1 63 63) (fRec 1#6 0#2) ∧ (tTape 1 63 63).place 1 = some 63) ∧
    (tapeIss (tTape 1 64 64) (fRec 1#6 0#2) ∧ (tTape 1 64 64).place 1 = none) ∧
    tapeIss (tTape 0 0 0) (fRec 1#6 0#2) ∧
    (tapeIss (tTape 1 0 0) { tapeLane 0#3 [] with rd := [nMsk 1#3] }) := by simp only [tapeIss]; decide +kernel
theorem wit_TapeFormsComplete_pop :
    let f := { tapeLane 0#3 (regRun 3#6 0#2) with wr := (regRun 3#6 0#2).map nLane }
    let fb := { tapeLane 0#3 [] with wr := [nMsk 1#3] }
    (tapeIss (tReplay eVal) f ∧ topOk (tReplay eVal) false 9 0 = true) ∧
    (tapeIss (tReplay (eBr 1)) fb ∧ topOk (tReplay (eBr 1)) true 9 0 = true) ∧ topOk (tReplay (eBr 2)) true 9 0 = true ∧
    (match peekHead (tOn (bT (tReplay eVal))) (tCtx (bT (tReplay eVal))) 1 with
     | some h => !popMatches (tCtx (bT (tReplay eVal))) h false 8 0
     | none => false) = true ∧
    (match (topEntry (tOn (bT (tTape 3 1 0))) (tCtx (bT (tTape 3 1 0))) false 9 0).2 with
     | .bad => true
     | _ => false) = true ∧
    (tapeIss (tTape 3 1 0) f ∧ tapeIss (tTape 1 0 0) f ∧ tapeIss (tTape 3 1 0) fb) ∧
    (let br := sp0 (bT (tReplay eVal)) (fun sp => { sp with pendFrame := some ⟨0, 0, 0⟩ })
     Issues (tOn br) (tCtx br) f ∧ (tCtx br).sp.pendFrame.isSome = true) := by simp only [tapeIss]; decide +kernel
theorem wit_TapeFormsComplete_seal_open :
    let fs := tapeUni 0#3 [] (some 6#6)
    let fo (a : Reg) := tapeUni 0#3 [a, nxt a] (some 6#6)
    (tapeIss (tTape 1 5 5) fs ∧ (tTape 1 5 5).frames = []) ∧ tapeIss (tTape 2 5 5) fs ∧
    (tapeIss Tape.closed (fo 2#6) ∧ tapesOpen (tOn (bT Tape.closed)) 0 = 0 ∧ Tape.closed.segs = [] ∧
      ((walkPages (tOn (bT Tape.closed)) (tCtx (bT Tape.closed)) (pagesOf 0x20000 2048)).2 = .ok)) ∧
    tapeIss Tape.closed (fo 4#6) ∧ tapeIss (tTape 1 0 0) (fo 2#6) ∧
    (let s := { tOn (bT Tape.closed) with bricks := (0, bT Tape.closed) :: (List.range 4).map (fun i => (i + 1, bT (tTape 1 0 0))) }
     Issues s (tCtx (bT Tape.closed)) (fo 2#6) ∧ 4 ≤ tapesOpen s 0) := by simp only [tapeIss]; decide +kernel
theorem wit_TapeFormsComplete_rev_close :
    let f := tapeUni 0#3 [] none
    (tapeIss (tTape 2 1 1) f ∧ tapeQuiet (bT (tTape 2 1 1)) (bT (tTape 2 1 1)).seq = true) ∧
    (spillTape (tOn (bT (tTape 2 1 1))) 0).2 = .all ∧ tapeIss (tTape 0 0 0) f ∧
    (let br := flying ⟨0, some 4, 1, 0, 0x10000, false, 1, none, false, .tapeRec⟩ (bT (tTape 2 1 1))
     Issues (tOn br) (tCtx br) f ∧ tapeQuiet br br.seq = false) ∧
    (let t := { tReplay eVal with segs := [{ base := 0x200000, len := 4096, stale := false, first := 0 }] }
     tapeIss t f ∧ (spillTape (tOn (bT t)) 0).2 = .waits) := by simp only [tapeIss]; decide +kernel

theorem wit_TapeValuesRoundTrip :
    let l : List TVal := [⟨0, 5#64, 3⟩, ⟨31, 5#64, 3⟩]
    l.map (·.t) = threadsOf 0x80000001#32 ∧ ∀ v ∈ l, v.g < 4 := by decide +kernel

/-! ### Witnesses: copies, invalidations, the fabric, launches -/

/-- s1: the launch's address 0x20000; s2: local 0x100; s3: 64 bytes; s4: 2 bytes; s5: 2^31 bytes; s6: an odd local address;
s7: ticket 63; s8: the last 64 bytes of local memory. -/
def bCp : Brick := tBrick 2 [] [(1, 0x8000000000020000#64), (2, 0x100#64), (3, 64#64), (4, 2#64), (5, 0x80000000#64), (6, 0x101#64),
  (7, 63#64), (8, 4032#64)]
def fCp (a b e : Reg) : Form := copyForm true 0#3 [a, b, e] (some 9#6)
theorem wit_CopyAndInvalidateForms_copy :
    let s := tOn bCp
    (Issues s (tCtx bCp) (fCp 1#6 2#6 3#6) ∧ fcFull bCp 3 = false ∧ descOut s bCp 0x8000000000020000 64 = false ∧
      descOut s bCp 0x100 64 = false ∧ descOut s bCp 4032 64 = false ∧ descOut s bCp 0x8000000000020000 (2 ^ 31) = false ∧
      (descAddr 0x100).2 % 2 = 0 ∧ (descAddr 0x101).2 % 2 = 1) ∧
    (Issues s (tCtx bCp) (fCp 1#6 8#6 4#6) ∧ Issues s (tCtx bCp) (fCp 1#6 1#6 5#6) ∧ Issues s (tCtx bCp) (fCp 6#6 2#6 3#6)) ∧
    Issues (tOnDet bCp) (tCtx (dt bCp)) (fCp 1#6 2#6 3#6) ∧
    (Issues s (tCtx bCp) (fCp 1#6 0#6 3#6) ∧ hodName s (tCtx bCp) 0#6 0#5 = .ok (.hod 0 0) false ∧ 64 = (hodAt s (.hod 0 0)).s) ∧
    (Issues (tOnDet bCp) (tCtx (dt bCp)) (fCp 1#6 0#6 3#6) ∧ hodName (tOnDet bCp) (tCtx (dt bCp)) 0#6 0#5 = .ok (.hod 0 0) false) := by
  decide +kernel
theorem wit_CopyAndInvalidateForms_copyq :
    let f := copyForm false 0#3 [7#6] (some 9#6)
    Issues (tOn bCp) (tCtx bCp) f ∧ Issues (tOnDet bCp) (tCtx (dt bCp)) f := by decide +kernel

/-- s2, s3: 64 KiB from 0x10000; s4, s5: all of the space, length 0; s6, s7: a base between pages; s8, s9: the last page. -/
def bTl : Brick := tBrick 1 [] [(2, 0x10000#64), (3, 0x10000#64), (4, 0#64), (5, 0#64), (6, 0x10040#64), (7, 0x10000#64),
  (8, BitVec.ofNat 64 (2 ^ 57 - 65536)), (9, 0x10000#64)]
def fTl (a : Reg) : Form := { syncForm false 0#3 [a, nxt a] none with priv := true }
theorem wit_CopyAndInvalidateForms_tlbi :
    (∀ a ∈ [2#6, 4#6, 6#6, 8#6], Issues (tOn bTl) (tCtx bTl) (fTl a)) ∧ fcFull bTl 7 = false ∧
    (bTl.uni.all (fun x => !x.2.g) = true) ∧ (2 ^ 57 - 65536 + 65536 ≤ 2 ^ 57) ∧
    (Issues (tOn (greenU 2 bTl)) (tCtx (greenU 2 bTl)) (fTl 2#6) ∧ (tCtx (greenU 2 bTl)).uG 2#6 = true) ∧
    Issues (tOnDet bTl) (tCtx (dt bTl)) (fTl 2#6) := by decide +kernel

/-- s2, s3: PUTW of 64 bytes; s4: local source 0; s6, s7: SIGW with a flag at 0x30000; s8, s9: no payload; s10: a place
between lines; s12: the host's window. -/
def bF : Brick := tBrick 1 [] [(2, 0x20000#64), (3, 0x30000#64), (4, 0#64), (5, 64#64), (6, 0#64), (7, 0#64), (10, 0x20020#64),
  (12, 0x8000000000020000#64), (13, 4#64), (14, 0x8000000000030000#64), (15, BitVec.ofNat 64 (2 ^ 48 + 0x60000)),
  (16, BitVec.ofNat 64 (2 ^ 48)), (17, 64#64), (18, 0x8000000000030000#64), (19, BitVec.ofNat 64 (2 ^ 48 + 1)), (20, 128#64)]
def piecesOk (r : PieceRes) : Bool :=
  match r with
  | .ok _ l => hostAt 0x20000 l == none
  | _ => false
def fSend (reads : List Reg) : Form := collEngine 0#3 reads
theorem wit_FabricForms_putw :
    let s := tOn bF
    (Issues s (tCtx bF) (fSend [2#6, 4#6, 5#6]) ∧ globHold s (tCtx bF) 5 = false ∧ rangeOut s bF 0 64 = false ∧
      piecesOk (rangePieces s (tCtx bF) kRead 0 64) = true ∧ piecesOk (virtPieces s (tCtx bF) kWrite 0x20000 64 2) = true) ∧
    Issues s (tCtx bF) (fSend [10#6, 4#6, 5#6]) ∧ Issues (tOnDet bF) (tCtx (dt bF)) (fSend [2#6, 4#6, 5#6]) := by decide +kernel
/-- The first 2 MiB mapped to the host's window. -/
def tHost : State := putBytes tBase (.phys 0x4000) (leBytes 8 (0x1F + 2 ^ 54))
theorem wit_FabricForms_putw_host :
    Issues (tPut bF tHost) (tCtx bF) (fSend [2#6, 4#6, 5#6]) ∧
    (match virtPieces (tPut bF tHost) (tCtx bF) kWrite 0x20000 64 2 with
     | .ok _ l => hostAt 0x20000 l == some 0x20000
     | _ => false) = true := by decide +kernel
theorem wit_FabricForms_sigw :
    let s := tOn bF
    (Issues s (tCtx bF) (fSend [2#6, 3#6, 4#6, 5#6]) ∧
      (match globalThread s (tCtx bF) kRw anyHome 0x30000 8 false 0 false with
       | (_, .ok a) => !a.loc.isHost
       | _ => false) = true) ∧
    (Issues s (tCtx bF) (fSend [2#6, 3#6, 6#6, 7#6]) ∧ piecesOk (rangePieces s (tCtx bF) kRead 0 0) = true ∧
      piecesOk (virtPieces s (tCtx bF) kWrite 0x20000 0 1) = true) := by decide +kernel
theorem wit_FabricForms_rfence :
    let f := bareForm false false 0#3 .coll
    let br := flying ⟨0, some 5, 1, 0, 0x10000, false, 1, none, false, .putw [] none false⟩ bF
    Issues (tOn br) (tCtx br) f ∧ Issues (tOn bF) (tCtx bF) f ∧ Issues (tOnDet bF) (tCtx (dt bF)) f := by decide +kernel
def collOk (s : State) (c : Ctx) (form : CollForm) (k : BitVec 4) (d a : Reg) : Bool :=
  let ctrl := ctrlMode c form k (c.u (nxt a))
  let n := (c.u (nxt d)).toNat % 2 ^ 32
  let reads := form != .bcst || ctrlRank ctrl == 0
  let sz := collSizes form ctrl
  (collReserved form k (c.u (nxt d)) (c.u (nxt a))).isNone && (collBad s c form (c.u d) (c.u a) ctrl n reads).isNone &&
    (match (if reads then rangePieces s c kRead (c.u a) (n * sz.1) else .ok s []) with
     | .ok s1 src =>
       (match rangePieces s1 c kWrite (c.u d) (n * sz.2) with
        | .ok s2 dst => hostAt (descAddr (c.u d)).2 dst == none &&
            (match (readPieces s2 c.b src).2 with
             | .ok _ => true
             | .error _ => false)
        | _ => false)
     | _ => false)
theorem wit_FabricForms_collectives :
    let f (d a : Reg) := collEngine 0#3 [d, nxt d, a, nxt a]
    let s := tOn bF
    (Issues s (tCtx bF) (f 12#6 14#6) ∧ writesDone bF bF.seq = true ∧ workingPlanes s ≠ [] ∧ collOk s (tCtx bF) .red 0#4 12#6 14#6 = true) ∧
    (collOk s (tCtx bF) .red 4#4 12#6 14#6 = true ∧ collOk s (tCtx bF) .maxe 0#4 12#6 14#6 = true) ∧
    (Issues s (tCtx bF) (f 12#6 18#6) ∧ collReserved .red 0#4 4 (bF.uniR 19).v = some 0x001#9) ∧
    (let br := tBrick 1 [] [(2, 0x8000000000020000#64), (3, 64#64), (4, 0#64), (5, BitVec.ofNat 64 (2 ^ 49 + 2 ^ 32 + 255 * 2 ^ 24))]
     Issues (tOn br) (tCtx br) (f 2#6 4#6) ∧ collOk (tOn br) (tCtx br) .bcst 0#4 2#6 4#6 = true ∧
       Issues (tOnDet br) (tCtx (dt br)) (f 2#6 4#6) ∧ globHold (tOnDet br) (tCtx (dt br)) 5 = false) := by decide +kernel

theorem wit_LaunchAndCourseForms_launch :
    let f := syncForm false 0#3 [2#6] (some 3#6)
    (Issues (tOn bA) (tCtx bA) f ∧ (tCtx bA).gov = false ∧ (tCtx bA).uG 2#6 = false ∧ Issues (tOnDet bA) (tCtx (dt bA)) f) ∧
    (Issues (tOn (greenU 2 bA)) (tCtx (greenU 2 bA)) f ∧ (tCtx (greenU 2 bA)).uG 2#6 = true) := by decide +kernel
/-- Split 0 parked on an operation. -/
def parkedOn (op : WaitOp) (br : Brick) : Brick :=
  sp0 br (fun sp => { sp with wait := some { pc := 0x10000, two := false, op := op, sync := none, counted := false } })
theorem wit_LaunchAndCourseForms_wake :
    ∀ op ∈ [WaitOp.launch 0x20000 3 none, .give 3 7 true, .give 0 7 false],
      let br := parkedOn op bA
      HasBrick (tOn br) 0 br ∧ (tabGet? (tOn br).walls 0).any (·.saved) = false ∧ br.frozen 0 = false ∧ writesDone br br.seq = true ∧
        (match tabGet? br.splits 0 with
         | some sp => (match sp.wait with
           | some w => decide (w.sync = none) && decide (w.op = op)
           | none => false)
         | none => false) = true := by decide +kernel
theorem wit_LaunchAndCourseForms_clocks :
    (let f := syncForm false 0#3 [1#6] (some 3#6)
     (Issues (tOn bA) (tCtx bA) f ∧ (tCtx bA).uG 1#6 = false) ∧
     (Issues (tOn (greenU 1 bA)) (tCtx (greenU 1 bA)) f ∧ (1#6 ≠ 0#6 ∧ (tCtx (greenU 1 bA)).uG 1#6 = true)) ∧
     Issues (tOnDet bA) (tCtx (dt bA)) f) ∧
    (let f := syncForm false 0#3 [] (some 3#6)
     Issues (tOn bA) (tCtx bA) f ∧ (Issues (tOnDet bA) (tCtx (dt bA)) f ∧ (tCtx (dt bA)).inHandler = false) ∧
       (Issues (tPutH (dt bA) (tDet tBase)) (cH (dt bA)) f ∧ (cH (dt bA)).inHandler = true)) := by decide +kernel
def bQ : Brick := tBrick 1 [] [(1, 1#64), (2, 7#64), (3, 8#64), (4, 0#64)]
theorem wit_LaunchAndCourseForms_rows :
    let f (a : Reg) := syncForm false 0#3 [a] (some 5#6)
    (∀ a ∈ [1#6, 2#6, 3#6, 4#6], Issues (tOn bQ) (tCtx bQ) (f a) ∧ Issues (tOnDet bQ) (tCtx (dt bQ)) (f a)) ∧
    (bQ.gran = 8 ∧ bQ.granNow = 8 ∧ roleAt (tOn bQ) bQ 0 ≠ none ∧ roleAt (tOn bQ) bQ 3 = none ∧ givenBusy bQ (8 * 1) = false ∧
      givenBusy bQ (8 * 7) = false) := by decide +kernel

/-! ### Witnesses: system registers, modes, traps -/

/-- s1: the largest mode; s2: rounding code 5; s3: a bit above the modes; s4: a page below 2^56; s5: a place between pages;
s6: a limit of 2900; s7: one of 999; s8: KIND 9; s9: KIND 8 with line 0x300; s10: KIND 2 of (bank 0, entry 0). -/
def bS : Brick := tBrick 1 [] [(1, 0x7FC#64), (2, 5#64), (3, 0x800#64), (4, BitVec.ofNat 64 (2 ^ 56 - 4096)), (5, 0x1040#64),
  (6, 5800#64), (7, 1998#64), (8, 9#64 <<< 60), (9, 8#64 <<< 60), (10, 2#64 <<< 60), (11, 0#64)]
theorem wit_SystemRegisterForms_read :
    (∀ y : BitVec 7, Issues (tOn bS) (tCtx bS) (sysForm 0#3 (sysReadPriv y) [] (some 20#6))) ∧
    (sysReadOnly 0x01#7 = true ∧ focusOf (tOn bS) = some (tCtx bS) ∧ (tCtx bS).sp.tapeFault = false ∧ flagHold (tCtx bS) = false) := by
  decide +kernel
/-- A register written with the value of a uniform register. -/
def sysw (y : BitVec 7) (a : Reg) (br : Brick) (s : State) (c : Ctx) : Prop :=
  sysReadOnly y = false ∧ Issues (tPut br s) c (sysForm 0#3 (sysWritePriv y (c.u a)) [a] none) ∧ (c.gov || c.uG a) = false
theorem wit_SystemRegisterForms_write :
    (∀ a ∈ [1#6, 2#6, 3#6], sysw 0x00#7 a bS tBase (tCtx bS)) ∧
    (sysw 0x0A#7 1#6 bS tBase (tCtx bS) ∧ (let br := { bS with tape := tTape 1 0 0 }
      sysw 0x0A#7 1#6 br tBase (tCtx br) ∧ br.tape.state ≠ 0) ∧ bS.tape.state = 0) ∧
    (sysw 0x0E#7 4#6 bS tBase (tCtx bS) ∧ sysw 0x0E#7 5#6 bS tBase (tCtx bS)) ∧ sysw 0x15#7 5#6 bS tBase (tCtx bS) ∧
    (sysw 0x16#7 5#6 bS tBase (tCtx bS) ∧ (tCtx bS).inHandler = false) ∧
    (sysReadOnly 0x16#7 = false ∧ Issues (tPutH bS tBase) (cH bS) (sysForm 0#3 (sysWritePriv 0x16#7 ((cH bS).u 5#6)) [5#6] none) ∧ (cH bS).inHandler = true) ∧
    sysw 0x18#7 5#6 bS tBase (tCtx bS) ∧ (sysw 0x21#7 6#6 bS tBase (tCtx bS) ∧ sysw 0x21#7 7#6 bS tBase (tCtx bS)) := by
  simp only [sysw]; decide +kernel
theorem wit_SystemRegisterForms_inject :
    (∀ a ∈ [8#6, 9#6, 10#6, 11#6], sysw 0x17#7 a bS tBase (tCtx bS)) ∧
    ((injectValue (tOn bS) (tCtx bS) ((tCtx bS).u 10#6)).isSome = true ∧ bS.prv = true) ∧
    (injectValue (tOn bS) (tCtx bS) (2#64 <<< 60 + 64#64)).isNone = true ∧
    (let br := { bS with prv := false }
     focusOf (tOn br) = some (tCtx br) ∧ flagHold (tCtx br) = false ∧ (tCtx br).sp.tapeFault = false ∧ br.prv = false ∧
       sysReadOnly 0x17#7 = false ∧ sysWritePriv 0x17#7 ((tCtx br).u 9#6) = true ∧ sysWritePriv 0x17#7 ((tCtx br).u 8#6) = false) ∧
    (sysReadOnly 0x17#7 = false ∧ Issues (tOn (greenU 10 bS)) (tCtx (greenU 10 bS)) (sysForm 0#3 (sysWritePriv 0x17#7 ((tCtx (greenU 10 bS)).u 10#6)) [10#6] none) ∧
      (tCtx (greenU 10 bS)).uG 10#6 = true) := by simp only [sysw]; decide +kernel

def rec0 (claimed : Bool) : FaultRec := { asid := 0, vpn := 2, kind := 1, eng := false, claimed := claimed }
def tDie (f : Die → Die) (s : State) : State := modDie s 0 f
theorem wit_SystemRegisterForms_claims :
    let f := sysForm 0#3 true [] (some 20#6)
    (Issues (tOn bS) (tCtx bS) f ∧ (dieState (tOn bS) 0).faults = [] ∧ (dieState (tOn bS) 0).rlog = []) ∧
    (let s := tDie (fun d => { d with faults := [rec0 true, rec0 false], rlog := [7#64, 8#64] }) tBase
     Issues (tPut bS s) (tCtx bS) f ∧ (dieState (tPut bS s) 0).faults = [rec0 true] ++ rec0 false :: [] ∧ (rec0 true).claimed = true ∧
       (rec0 false).claimed = false ∧ (dieState (tPut bS s) 0).rlog = 7#64 :: [8#64]) := by decide +kernel
theorem wit_SystemRegisterForms_answers :
    let fp := sysForm 0#3 true [4#6] none
    let f (a : Reg) := sysForm 0#3 false [a] none
    let g := greenU 4 bS
    (Issues (tOn bS) (tCtx bS) fp ∧ Issues (tOn g) (tCtx g) fp ∧ (tCtx g).uG 4#6 = true ∧ Issues (tOn bS) (tCtx bS) (f 5#6)) ∧
    (let br := { bS with tape := tTape 1 0 0, tapeLen := 2048#64 }
     Issues (tOn br) (tCtx br) (f 5#6) ∧ br.tape.state ≠ 0 ∧ br.tape.segs.length < 16 ∧
       (walkPages (tOn br) (tCtx br) (pagesOf 0x1040 2048)).2 = .ok) ∧
    (let br := { bS with tape := { tTape 1 0 0 with segs := List.replicate 16 { base := 0x20000, len := 2048, stale := false, first := 0 } } }
     Issues (tOn br) (tCtx br) (f 5#6) ∧ 16 ≤ br.tape.segs.length) ∧
    (let br := { bS with tape := tTape 1 0 0 }
     Issues (tOn br) (tCtx br) (f 2#6) ∧ ((tCtx br).u 2#6).toNat % 64 ≠ 0) := by decide +kernel

theorem wit_ModeForms :
    (Issues (tOn bS) (tCtx bS) (syncForm false 0#3 [] (some 20#6)) ∧ Rm.rne ≠ Rm.rsr ∧ Rm.rne ≠ Rm.dyn) ∧
    (∀ a ∈ [1#6, 2#6], Issues (tOn bS) (tCtx bS) (syncForm false 0#3 [a] (some 20#6)) ∧ (tCtx bS).uG a = false) ∧
    ((bS.uniR 1).v.toNat % 8 = 4 ∧ (bS.uniR 2).v.toNat % 8 = 5) ∧
    (let br := greenU 1 bS
     Issues (tOn br) (tCtx br) (syncForm false 0#3 [1#6] (some 20#6)) ∧ Issues (tOn br) (tCtx br) (syncForm false 0#3 [1#6] none) ∧
       (tCtx br).uG 1#6 = true) ∧
    (Issues (tOn bS) (tCtx bS) (syncForm false 0#3 [11#6] none) ∧ Issues (tOnDet bS) (tCtx (dt bS)) (syncForm false 0#3 [11#6] none) ∧
      (tCtx bS).uG 11#6 = false ∧ (tCtx bS).u 11#6 = 0) := by decide +kernel

theorem wit_TrapAndReturnForms :
    let f := bareForm false false 0#3 .vec
    (Issues (tOn bS) (tCtx bS) f ∧ (launchOf (tOn bS) bS).any (·.debugger) = false ∧ (tCtx bS).inHandler = false) ∧
    (let s := tPut bS (modLaunch tBase 0 (fun l => { l with debugger := true }))
     Issues s (tCtx bS) f ∧ (launchOf s bS).any (·.debugger) = true) ∧
    Issues (tOn bS) (tCtx bS) { f with priv := true } ∧
    (Issues (tPutH bS tBase) (cH bS) f ∧ (cH bS).inHandler = true ∧ (cH bS).br.info.getLsbD 51 = false ∧
      (tabGet? (bH bS).splits (bH bS).repSplit).any (fun sp => decide (sp.wait = none)) = true ∧ (bH bS).repSplit ≠ handlerSplit) ∧
    (let br := { bS with info := 1#64 <<< 51 }
     Issues (tPutH br tBase) (cH br) f ∧ (cH br).br.info.getLsbD 51 = true) := by decide +kernel

/-! ### Witnesses: operations in flight, traps, waits and commits -/

def pa0 : Loc := .phys 0x20000
def acc0 : Acc := ⟨0, pa0, 0x20000, 8, false⟩
def put0 : Put := ⟨acc0, leBytes 8 7, false⟩
/-- A flight of a kind is the first that can be performed. -/
def readyOn (kind : FlightKind) (sel : FlightKind → Bool) : Bool :=
  let br := flying (fl1 none kind) bA
  let s := { tOn br with clk := 1 }
  decide (HasBrick s 0 br) && decide (readyFlight s br sel = some (fl1 none kind))
theorem wit_OperationsComplete_loads :
    readyOn (.regs [] none) FlightKind.loads = true ∧ readyOn (.regs [] (some ⟨0x146#9, 0, 1, 0, 0⟩)) FlightKind.loads = true ∧
    readyOn (.load [acc0] (.lane64 3) false) FlightKind.loads = true ∧
    readyOn (.atom [⟨acc0, 1, 0, false, false⟩] .add .i64 .rne (some 3) false) FlightKind.loads = true ∧
    readyOn (.tst [put0] 1 false) FlightKind.loads = true ∧ readyOn (.tcom [acc0] 1 false) FlightKind.loads = true ∧
    readyOn (.retr [acc0] 1 false) FlightKind.loads = true ∧ readyFlight (tOn bA) bA FlightKind.loads = none := by decide +kernel
/-- Two lines on their way. -/
def sent2 : List (Loc × Nat × Loc) := [(pa0, 0x30000, .phys 0x30000), (pa0.add 64, 0x30040, .phys 0x30040)]
theorem wit_OperationsComplete_stores :
    readyOn (.store [put0] false) FlightKind.stores = true ∧
    readyOn (.atom [⟨acc0, 1, 0, false, false⟩] .add .i64 .rne none false) FlightKind.stores = true ∧
    (readyOn (.putw sent2 none false) FlightKind.stores = true ∧
      readyOn (.sigw sent2 none 0x40000 (.phys 0x40000) true 1#32 false false) FlightKind.stores = true ∧
      deniedLines (tOn bA) sent2 true = [] ∧ (readSource (tOn bA) 0 false (sent2.map (·.1))).2.isSome = true ∧
      (readSource (putMeta (tOn bA) pa0 { LineMeta.start with psn := true }) 0 false (sent2.map (·.1))).2 = none) ∧
    (∀ l ∈ [sent2, sent2.drop 1], let data := some (l.map (fun _ => (List.replicate 64 0#8, false)))
      readyOn (.putw l data false) FlightKind.stores = true ∧
      readyOn (.sigw l data 0x40000 (.phys 0x40000) true 1#32 false false) FlightKind.stores = true ∧
      deniedLines (tOn bA) l false = []) ∧
    readyFlight (tOn bA) bA FlightKind.stores = none := by decide +kernel
theorem wit_OperationsComplete_others :
    readyOn (.ldtv 0x20000 0x20000 [acc0] 3 false 0) FlightKind.attempts = true ∧
    readyOn (.aon 0x20000 0x20000 none [put0] [] false 0 0) FlightKind.attempts = true ∧
    (readyOn (.hodPut (.hod 0 0) (some 0) [pa0] false) FlightKind.fills = true ∧ ((readSource (tOn bA) 0 false [pa0]).2).isSome = true) ∧
    (readyOn (.sigw [] (some []) 0x40000 (.phys 0x40000) true 1#32 false false) FlightKind.signals = true ∧
      outCheck (tOn bA) (.phys 0x40000) = none ∧
      (metaAt (tOn bA) (.phys 0x40000)).err = [] ∧ (metaAt (tOn bA) (.phys 0x40000)).psn = false) ∧
    openFlight (flying (fl1 none .tapeRec) bA) .tapeRec = some (fl1 none .tapeRec) ∧
    (let br := flying (fl1 none .tapeSeal) (bT (tTape 2 1 1))
     openFlight br .tapeSeal = some (fl1 none .tapeSeal) ∧ tapeQuiet br 0 = true ∧ (spillTape (tOn br) 0).2 = .all ∧ bufferOver (tOn br) br = false) ∧
    (let t := { tTape 1 1025 1025 with buf := (List.range 1025).map (fun i => (i % 64, [], false)) }
     bufferOver (tOn (bT t)) (bT t) = true ∧ (match (spillFirst (tOn (bT t)) 0 (bT t)).2 with | .refused _ _ => false | _ => true) = true) := by decide +kernel
def arr0 : ArrMark := ⟨ob, [0, 1], 0, 0, 0, false⟩
theorem wit_OperationsComplete_arrivals :
    (let br := { bA with arrMarks := [⟨ob, [0], 0, 0, 0, false⟩] }
     HasBrick (tOn br) 0 br ∧ br.det = false ∧ countable (tOn br) 0 br = true ∧ (barAt (tOn br) ob).odd = [] ∧ (barAt (tOn br) ob).ab = false ∧
       (barAt (tOn br) ob).e ≤ (barAt (tOn br) ob).a + 1) ∧
    (let br := { bA with arrMarks := [⟨ob, [0], 0, 0, 0, false⟩] }
     let s := tPut br (tBar (Barrier.start 2) tBase)
     countable s 0 br = true ∧ (barAt s ob).a + 1 < (barAt s ob).e) ∧
    (∀ x, barAt (putBar (tOn bA) ob x) ob = x) := ⟨by decide +kernel, by decide +kernel, fun _ => rfl⟩

/-- Two checks whose flags are due: one with the division flag enabled, one without. -/
def fx0 (ten : Flags) (pc : Nat) : FxPend := { due := 0, seq := 0, fx := [(0, 2#5)], split := 0, pc := pc, two := false, ten := ten }
def we (pc : Nat) : WinExc := ⟨pc, false, 0, [(0, 2#5)], 2#5, 0⟩
def dv : Diverged := ⟨0, 0, 0, 1, 0, 0x10000, false, 5, 6, 3#32, [], [], false⟩
theorem wit_TrapStepsComplete_flags :
    (let br := { bA with fxq := [fx0 2#5 0x10000] }
     HasBrick (tOn br) 0 br ∧ br.fxq.find? (fun p => decide (p.due ≤ (tOn br).clk)) = some (fx0 2#5 0x10000) ∧
       (∃ x ∈ (fx0 2#5 0x10000).fx, x.2 &&& (fx0 2#5 0x10000).ten ≠ flagNone) ∧ br.window = none ∧ br.trap = none) ∧
    (let br := { bA with fxq := [fx0 2#5 0x10000], window := some 0 }
     br.window = some 0 ∧ (tOn br).clk < 0 + 16) ∧
    (∀ x ∈ (fx0 0#5 0x10000).fx, x.2 &&& (fx0 0#5 0x10000).ten = flagNone) ∧ (∀ p ∈ bA.fxq, (tOn bA).clk < p.due) := by decide +kernel
theorem wit_TrapStepsComplete_window :
    (let br := { bA with window := some 0, winExc := [we 0x10004, we 0x10000] }
     let s := { tOn br with clk := 16 }
     HasBrick s 0 br ∧ 0 + 16 ≤ s.clk ∧ br.trap = none ∧ br.inSlot = false ∧
       (∃ e ∈ br.winExc, e.pc = (br.winExc.map (·.pc)).foldl min ((br.winExc.map (·.pc)).headD 0) ∧ ∃ x ∈ e.fx, x.2 &&& e.ten ≠ flagNone)) ∧
    (let br := { bA with divq := [dv] }
     HasBrick (tOn br) 0 br ∧ br.divq.find? (fun d => decide (d.due ≤ (tOn br).clk)) = some dv ∧ br.killed = false ∧ br.threads ≠ 0#32 ∧ br.inSlot = false ∧ br.trap = none) := by
  decide +kernel
def tr0 : TrapRec := ⟨0, 0x00C#9, false, true, false, false, 0, 0, 2, 0, 0x10000, 3#32, 5, 0, 0x10000, true⟩
/-- A landing word at 0x10100. -/
def tLand : State := putBytes tBase (.phys 0x10100) (leBytes 4 0xA8000000)
def landOk (r : State × Land) : Bool :=
  match r.2 with
  | .ok => true
  | _ => false
theorem wit_TrapStepsComplete_entry :
    (let br := { bA with trap := some tr0, vec := 0x10100#64 }
     HasBrick (tPut br tLand) 0 br ∧ br.trap = some tr0 ∧ slotReady (tPut br tLand) br = true ∧ br.vec ≠ 0 ∧ tr0.prec = true ∧
       landOk (landing (tPut br tLand) ⟨0, handlerSplit, br, handlerOf (tPut br tLand) br⟩ br.vec) = true) ∧
    (let br := { bA with trap := some tr0 }
     slotReady (tOn br) br = true ∧ br.vec = 0) ∧
    (let br := flying (fl1 none (.regs [] none)) { bA with trap := some tr0 }
     slotReady (tOn br) br = false) ∧
    (bA.trap = none ∧ bA.alive = true ∧ ({ bA with splits := [], killed := true } : Brick).alive = false) := by decide +kernel

/-- Split 0 parked on a synchronising operation of time T, its brick's clock there. -/
def syncOn (op : WaitOp) (T : Nat) (br : Brick) : Brick :=
  { sp0 (dt br) (fun sp => { sp with wait := some ⟨op, some T, 0x10000, false, false⟩ }) with L := T }
/-- Its context and its wait, and whether its turn has come. -/
def waitOf (br : Brick) : Ctx × Wait :=
  let sp := (tabGet? br.splits 0).getD (Split.start 0)
  let w := sp.wait.getD ⟨.join 0, none, 0, false, false⟩
  (waitCtx 0 0 br sp w, w)
def turnOf (br : Brick) : Bool :=
  let s := tPut br (tDet tBase)
  !(deadlocked s br.launch && isLastBrick s br) && syncReady s (waitOf br).1 100
def tryOf (br : Brick) : SyncRes := syncTry (tPut br (tDet tBase)) (waitOf br).1 (waitOf br).2
/-- A brick with a second split that can run. -/
def more1 (br : Brick) : Brick := { br with splits := br.splits ++ [(1, { Split.start 0x10000 with mask := 2#32 })] }
def tQueue (q : List ArrEntry) (s : State) : State := modCore s 0 (fun x => { x with queue := q })
theorem wit_WaitsCommitsAndArray_sync :
    (let br := syncOn (.give 3 7 true) 100 bA
     turnOf br = true ∧ (match tryOf br with | .done _ _ => true | _ => false) = true) ∧
    (let br := syncOn (.fail 0x102#9) 100 bA
     turnOf br = true ∧ (match tryOf br with | .trap _ _ => true | _ => false) = true) ∧
    (let br := more1 (syncOn (.semAcq (.sem 0 0) 3 false) 100 bA)
     turnOf br = true ∧ (match tryOf br with | .again s1 _ same => !same && (tabGet? s1.bricks 0).isSome | _ => false) = true) ∧
    (let br := { syncOn (.give 3 7 true) 100 bA with L := 50 }
     turnOf br = false ∧ deadlocked (tPut br (tDet tBase)) 0 = false) ∧
    (let br := syncOn (.accz 0) 100 bA
     let s := tQueue (List.replicate 4 (qe 0 0)) (tPut br (tDet tBase))
     syncReady s (waitOf br).1 100 = true ∧
       (match syncTry s (waitOf br).1 (waitOf br).2 with | .again _ _ same => same | _ => false) = true) ∧
    (let br := syncOn (.launch 0x20000 3 none) 100 bA
     turnOf br = true ∧ (match tryOf br with | .sent _ => true | _ => false) = true) ∧
    ((tabGet? bA.splits 0).any (fun sp => (sp.wait.bind (·.sync)).isNone)) = true := by decide +kernel
theorem wit_WaitsCommitsAndArray_commit :
    (let br := { flying (fl1 (some 100) (.store [put0] false)) (dt bA) with L := 100 }
     let s := tPut br (tDet tBase)
     HasBrick s 0 br ∧ (tabGet? s.launches 0).isSome = true ∧ nextCommit s 0 = some 100 ∧ commitReady s 0 100 = true) ∧
    (let br := { flying (fl1 (some 100) (.store [put0] false)) (dt bA) with L := 99 }
     let s := tPut br (tDet tBase)
     nextCommit s 0 = some 100 ∧ commitReady s 0 100 = false) ∧ nextCommit (tOn bA) 0 = none ∧ denial (tPut bA (tDet tBase)) [acc0] = none := by decide +kernel
def mq (b : Nat) (ty : Ty) : ArrEntry :=
  ⟨b, 0, 0, 0x10000, false, 0, 1#32, 0, 0, [], none, .mma false false true ty false [] [] [] [] [] [] [] [] none⟩
theorem wit_WaitsCommitsAndArray_array :
    (let s := tQueue [qe 0 0] (tOn bA)
     (coreOf s 0).queue = qe 0 0 :: [] ∧ (qe 0 0).isQuad = false ∧ (coreOf s 0).busy ≤ s.clk ∧ (qe 0 0).op = .accz) ∧
    (coreOf (tOn bA) 0).queue = [] ∧ (coreOf (tOn bA) 0).reqs = [] ∧
    (let s := modCore (tQueue [qe 0 0] (tOn bA)) 0 (fun x => { x with busy := 1 })
     s.clk < (coreOf s 0).busy) ∧
    (let s := modCore (tPut bNo (tDyn tBase)) 0 (fun x => { x with reqs := [⟨0, 0, 16⟩] })
     (coreOf s 0).reqs = ⟨0, 0, 16⟩ :: [] ∧ canGrant s 0 16 = true ∧ (Sys2Proof.Machine.waitOf s 0 0).all (·.sync.isNone) = true) ∧
    (Sys2Proof.Machine.waitOf (tPut (syncOn (.accalloc 16 3 false) 100 bA) (tDet tBase)) 0 0).any (·.sync.isSome) = true ∧
    (let s := modCore (tPut bBk (tDyn tBase)) 0 (fun x => { x with reqs := [⟨0, 0, 15⟩] })
     canGrant s 0 15 = false) := by decide +kernel
/-- Four cores of a quad whose arrays each hold an MMA.q of a live brick. -/
def tQuad (tys : List Ty) : State :=
  let s := (List.range 4).foldl (fun s i => modCore s i (fun x => { x with queue := (tys[i]?).toList.map (mq i) })) tBase
  { s with bricks := (List.range 4).map (fun i => (i, { bA with core := i, id := i })) }
theorem wit_WaitsCommitsAndArray_quad :
    (let s := tQuad [.f16, .f16, .f16, .f16]
     quadHeads s 0 ≠ [] ∧ quadBroken s 0 = false ∧ (quadHeads s 0).length = 4 ∧ (∀ x ∈ quadHeads s 0, (coreOf s x.1).busy ≤ s.clk) ∧
       (∀ x ∈ quadHeads s 0, x.2.ty = ((quadHeads s 0).head?.bind (fun y => y.2.ty)))) ∧
    (let s := tQuad [.f16, .f16, .f16, .bf16]
     quadBroken s 0 = false ∧ (quadHeads s 0).length = 4 ∧
       (∃ x ∈ quadHeads s 0, x.2.ty ≠ ((quadHeads s 0).head?.bind (fun y => y.2.ty)))) ∧
    (let s := { tQuad [.f16, .f16, .f16] with bricks := [(0, bA)] }
     quadHeads s 0 ≠ [] ∧ quadBroken s 0 = true) ∧ quadHeads (tOn bA) 0 = [] := by decide +kernel

/-! ### Witnesses: engines, launches, the outside, services -/

/-- A copy command of brick 0 from 0x20000 to local 0x100, ready, with some bytes of its range still to write. -/
def cp (len pos : Nat) (cmp green : Bool) : Copy :=
  ⟨0, 0, 0, true, 0, 0, (true, 0x20000), (false, 0x100), none, len, pos, false, cmp, cmp, 0, none, green, [], none, true, none, false, false, 0, 0⟩
def tCopy (x : Copy) (s : State) : State := { tPut { bA with copies := 1 } s with copies := [(0, x)], nextC := 1 }
def copyParts (s : State) (x : Copy) : Bool × Bool × Bool :=
  let k := min (64 - (x.dst.2 + x.pos) % 64) (x.len - x.pos)
  match tabGet? s.walls 0 with
  | none => (false, false, false)
  | some w =>
    match copyPlaces s x w kRead x.src.1 (x.src.2 + x.pos) k 3 with
    | .ok s1 src =>
      (match copyPlaces s1 x w kWrite x.dst.1 (x.dst.2 + x.pos) k 3 with
       | .ok s2 dst => (true, (copyRead s2 x.brick src).2.isSome, dst.any Loc.isHost)
       | _ => (true, false, false))
    | _ => (false, false, false)
/-- An access that the tables refuse, and one that they leave open. -/
def copySrc (s : State) (x : Copy) : Nat :=
  match tabGet? s.walls 0 with
  | none => 9
  | some w => match copyPlaces s x w kRead x.src.1 (x.src.2 + x.pos) 2 3 with
    | .ok _ _ => 0
    | .fault _ _ => 1
    | .bad _ => 2
/-- The line at 0x20000 is poisoned. -/
def tPoison (s : State) : State := putMeta s pa0 { LineMeta.start with psn := true }
theorem wit_EngineStepsComplete_span :
    (nextCopy (tCopy (cp 64 0 false false) tBase) 0 = some (0, cp 64 0 false false) ∧
      copyParts (tCopy (cp 64 0 false false) tBase) (cp 64 0 false false) = (true, true, false)) ∧
    (nextCopy (tCopy (cp 2 0 true true) tBase) 0 = some (0, cp 2 0 true true) ∧
      copyParts (tCopy (cp 2 0 true true) tBase) (cp 2 0 true true) = (true, true, false)) ∧
    (copyParts (tCopy (cp 64 0 false true) tBase) { cp 64 0 false true with dst := (true, 0x30000) } = (true, true, false)) ∧
    (copyParts (tPoison (tCopy (cp 64 0 false false) tBase)) (cp 64 0 false false) = (true, false, false)) ∧
    (copySrc (tCopy (cp 64 0 false false) tBase) { cp 64 0 false false with src := (true, 0x200000) } = 1 ∧
      copySrc (tCopy (cp 64 0 false false) (tLeaf 0 tBase)) (cp 64 0 false false) = 1 ∧
      copySrc (tCopy (cp 64 0 false false) (tLeaf 0x11 tBase)) (cp 64 0 false false) = 2) ∧
    (let x := { cp 64 0 false true with dst := (true, 0x30000), src := (false, 0x100) }
     copyParts (tCopy x (tLeaf (0x1F + 2 ^ 54) tBase)) x = (true, true, true)) ∧
    (let x := { cp 64 0 false false with lane := 2 }
     nextCopy (tCopy x tBase) 0 = some (0, x) ∧ copyParts (tCopy x tBase) x = (true, true, false)) ∧
    ((cp 64 0 false false).hod = none ∧ (cp 64 0 false false).flip = none ∧ (cp 64 0 false false).lane = 0 ∧ nextCopy (tOn bA) 0 = none) := by decide +kernel
theorem wit_EngineStepsComplete_accept :
    let x := { cp 64 0 false false with hod := some (oh, none), started := false }
    (acceptableCopy (tCopy x tBase) 0 = some (0, x) ∧ (hodAt (tCopy x tBase) oh).closed = false) ∧
    (acceptableCopy (tCopy x (tHod { h0 with closed := true } tBase)) 0 = some (0, x) ∧
      (hodAt (tCopy x (tHod { h0 with closed := true } tBase)) oh).closed = true) ∧ acceptableCopy (tOn bA) 0 = none := by decide +kernel
def wR : Wait := { pc := 0x10000, two := false, op := .rfence [0], sync := none, counted := false }
theorem wit_EngineStepsComplete_others :
    (let f := fl1 none (.tlbi false 0x10000 0x10000 0 .die false [])
     let br := flying f bA
     HasBrick (tOn br) 0 br ∧ br.flights = f :: [] ∧ f.done = false ∧ f.tEnd = none ∧
       br.flights.all (fun g => decide (g.seq ≥ f.seq) || g.done || !g.kind.isEngineWrite) = true) ∧
    (([] : List (Nat × Nat)).all (drained (tOn bA)) = true) ∧
    (let br := sp0 (flying (fl1 none (.putw [] none false)) bA) (fun sp => { sp with wait := some wR })
     HasBrick (tOn br) 0 br ∧ (tabGet? br.splits 0).any (fun sp => decide (sp.wait = some wR)) = true ∧ wR.op = .rfence [0]) ∧
    (let f := fl1 none (.load [⟨0, .phys (2 ^ 55 + 2 ^ 44), 0x20000, 8, false⟩] (.lane64 3) false)
     let br := flying f bA
     HasBrick (tOn br) 0 br ∧ br.flights.find? (answerable (tOn br) 0 true) = some f ∧ f.kind.remote = true) ∧
    bA.flights.find? (answerable (tOn bA) 0 true) = none := by decide +kernel
def party0 (n p : Nat) : Party :=
  ⟨0, 0, 0, 3#32, 0, .red, 0#4, BitVec.ofNat 64 (p * 2 ^ 48 + 0x60000), n, [(pa0, 4)], [(.phys 0x30000, 4)], 0x30000, false, false, true,
    [0, 0, 0, 0], [false]⟩
def tColl (ps : List Party) : State := { tOn bA with colls := [(0, ⟨0, 0, 0, ps, none, none⟩)] }
def contribs (ps : List Party) : List Contribution := (ps.filter (·.joined)).map (fun p => p.contrib 0)
theorem wit_EngineStepsComplete_collective :
    (tabGet? (tColl [party0 1 1]).colls 0 = some ⟨0, 0, 0, [party0 1 1], none, none⟩ ∧ agreeAll (contribs [party0 1 1]) = true ∧
      (contribs [party0 1 1]).length = ctrlP (party0 1 1).ctrl) ∧
    (agreeAll (contribs [party0 1 2]) = true ∧ (contribs [party0 1 2]).length ≠ ctrlP (party0 1 2).ctrl) ∧
    agreeAll (contribs [party0 1 2, { party0 2 2 with rank := 1 }]) = false := by decide +kernel

/-- A record at 0x20000 that launches one wall of kernel 0 of an object at 0x21000: a text section, a launch header with one
role, a symbol. -/
def tRecord : State :=
  let w (a n v : Nat) (s : State) : State := putBytes s (.phys a) (leBytes n v)
  let rec' (s : State) := w 0x20000 8 0x21000 (w 0x2000C 4 1 (w 0x20010 1 1 (w 0x2001C 4 7 s)))
  let head (s : State) := w 0x21000 4 0x1A4F4649 (w 0x21004 2 1 (w 0x21008 4 3 (w 0x2100C 4 64 (w 0x21010 4 1 (w 0x21014 4 128 s)))))
  let sect (i kind off size : Nat) (s : State) := w (0x21040 + 16 * i) 4 kind (w (0x21048 + 16 * i) 4 off (w (0x2104C + 16 * i) 4 size s))
  let kern (s : State) := w 0x21084 4 0xFFFFFFFF s
  let lhead (s : State) := w 0x21140 2 1 (w 0x21142 1 1 (w 0x21164 1 8 (w 0x21165 1 64 (w 0x21166 1 1 (w 0x21167 1 31 s)))))
  let sym (s : State) := w 0x211C0 4 1 s
  { sym (lhead (kern (sect 0 1 256 4 (sect 1 7 320 48 (sect 2 4 448 24 (head (rec' tBase))))))) with reqSig := false }
def sub0 : Submit := ⟨0x20000, 0, none, 0, true, 3, 0⟩
def accepts (s : State) (sub : Submit) : Bool :=
  match siteRead ⟨sub.die, sub.asid, sub.prv⟩ stMalformed sub.va 64 s with
  | .ok bytes s1 => (match acceptRecord sub (recOf bytes) s1 with
    | .ok _ _ => true
    | .error _ _ => false)
  | .error _ _ => false
theorem wit_LaunchStepsComplete_accept :
    takeSubmit 0 0 [sub0] = some (sub0, []) ∧ accepts tRecord sub0 = true ∧ takeSubmit 0 1 [sub0] = none ∧
    (takeSubmit 0 0 [{ sub0 with va := 0x20008 }]).any (fun x => x.1.va % 64 != 0) = true := by decide +kernel
/-- A launch that is accepted and not yet admitted; one of a single wall that is admitted and not placed. -/
def nl (admitted : Bool) : Launch := { loadLaunch with admitted := admitted, placed := [], wins := [], order := 1, lid := 1 }
def tL (l : Launch) (s : State) : State := { s with launches := [(1, l)], bricks := [], walls := [] }
theorem wit_LaunchStepsComplete_place :
    (tabGet? (tL (nl false) tBase).launches 1 = some (nl false) ∧ admissible (tL (nl false) tBase) (nl false) = true) ∧
    admissible (tL (nl true) tBase) (nl true) = false ∧
    ((placeable (tL (nl true) tBase) 0).any (fun x => x.1 == 1) = true ∧ placeable (tL (nl true) tBase) 1 = none) ∧
    (let l := { nl true with placed := [(0, 1)] }
     launchOver (tL l tBase) 1 l = true ∧ launchOver (tL (nl true) tBase) 1 (nl true) = false) := by decide +kernel
/-- The wall at rest while it stops; saved. -/
def tStop (stop saved : Bool) : State := modWall (tOn bA) 0 (fun w => { w with stop := stop, saved := saved })
/-- A launch of higher priority that needs all the local memory of every core, which the wall of launch 0 stands in. -/
def tWant : State :=
  { tOn bA with launches := [(0, loadLaunch), (1, { nl true with pri := 3 })], nextL := 2
                walls := (List.range 32).map (fun i => (i, { loadWall with core := i, wid := i, banks := List.range 16 })) }
theorem wit_LaunchStepsComplete_preempt :
    ((savable (tStop true false) 0).any (fun x => x.1 == 0) = true ∧ (spillWall (tStop true false) (wallBricks (tStop true false) 0)).2 = true) ∧
    (savable (tStop false false) 0 = none ∧ nextVictims (tStop false false) 0 = none) ∧
    (savable tWant 0 = none ∧ (nextVictims tWant 0).isSome = true) ∧
    ((tabGet? (tStop false true).walls 0).any (fun w => restorable (tStop false true) 0 w) = true ∧
      (tabGet? (tStop false false).walls 0).any (fun w => !restorable (tStop false false) 0 w) = true) := by decide +kernel

theorem wit_OutsideStepsComplete :
    (hostCut { tBase with links := tabPut tBase.links 18 ⟨0, true⟩ } = true ∧ hostCut tBase = false ∧ hostCut State.reset = false) ∧
    (hostBusy tBase = false ∧ hostBusy State.reset = true ∧ (0x1FFFFFFFFFFFFFF#64).toNat < 2 ^ 57 ∧ 2 ^ 57 ≤ (0x200000000000000#64).toNat) ∧
    (inHostWindow 0x20000 = false ∧ (isNearPa 0x20000 = true ∨ isFarPa 0x20000 = true) ∧ (isNearPa 0x20007 = true ∨ isFarPa 0x20007 = true) ∧
      (metaAt tBase (Loc.phys 0x20000).line).err = [] ∧ (metaAt tBase (Loc.phys 0x20000).line).psn = false) := by decide +kernel
def rq0 : RemoteReq := ⟨1, 0, 0x20000#56, false, .load 8⟩
theorem wit_OutsideStepsComplete_fabric :
    (rq0.kind = .load 8 ∧ rq0.key = moduleKey tBase rq0.module.toNat ∧ keyValid tBase = true ∧
      partitionOf tBase rq0.key = partitionOf tBase tBase.key ∧ (metaAt tBase (.phys (ownPa tBase rq0.pa.toNat))).err = [] ∧
      (metaAt tBase (.phys (ownPa tBase rq0.pa.toNat))).psn = false ∧
      (isNearPa (ownPa tBase rq0.pa.toNat) || isFarPa (ownPa tBase rq0.pa.toNat) || inWindow tBase (ownPa tBase rq0.pa.toNat)) = true) ∧
    (partitionOf { tBase with badKeys := [0] } rq0.key = none ∧ rq0.key ≠ moduleKey { tBase with modKeys := [(1, 5)] } rq0.module.toNat) ∧
    (let s := { tBase with key := 1, badKeys := [1] }
     rq0.key = moduleKey s rq0.module.toNat ∧ partitionOf s rq0.key ≠ none ∧ keyValid s = false) ∧
    (let s := { tBase with key := 1, keyMap := [(1, 3)] }
     rq0.key = moduleKey s rq0.module.toNat ∧ partitionOf s rq0.key ≠ none ∧ keyValid s = true ∧
       partitionOf s rq0.key ≠ partitionOf s s.key) := by decide +kernel

theorem wit_ServiceStepsComplete :
    (dieState State.reset 0).booted = false ∧ (dieState tBase 0).booted = true ∧
    (let s := { tBase with attest := some (0, 0x20000) }
     quoteReady s = true ∧ quoteReady { s with attest := none } = false ∧
     (match translate s 128 0 0 true kRw 0x20000 with
      | (s1, .ok pa) => pa % 4096 == 0 && (List.range 64).all (fun k => (metaAt s1 (.phys (pa + 64 * k))).err.isEmpty &&
          !(metaAt s1 (.phys (pa + 64 * k))).psn)
      | _ => false) = true ∧
     (match (translate (tLeaf 0x07 s) 128 0 0 true kRw 0x20000).2 with
      | .cause _ => true
      | _ => false) = true ∧
     (match (translate s 128 0 0 true kRw 0x200000).2 with
      | .absent => true
      | _ => false) = true) ∧
    (dieState tBase 0).hot = false ∧ (dieState (modDie tBase 0 (fun d => { d with hot := true })) 0).hot = true ∧
    (0 ∈ heldBricks (tOn bA) (.brickState 0) ∧ dieOfCore bA.core = 0) ∧
    (powerLimit tBase < 400 * 100000 ∧ 400 * 0 ≤ powerLimit tBase ∧ (powerLimit tBase ≠ 0 → 40000 * 0 < 95 * powerLimit tBase)) := by
  decide +kernel
theorem wit_ServiceStepsComplete_boot : dieVerifies 0 = true ∨ dieVerifies 0 = false := (dieVerifies 0).eq_false_or_eq_true
theorem wit_InjectionAndDebugSteps :
    (focusOf (tOn bA) = some (tCtx bA) ∧ physBank (tOn bA) bA 0 = some 0 ∧ physBank (tOn bA) bA 1 = none ∧ bA.gran = 8 ∧
      (7 : BitVec 3).toNat < 8 ∧ 64 * 63 + 64 ≤ localSize (tOn bA) bA ∧ localSize (tOn bA) bA < 64 * 64 + 64 ∧
      (metaAt (tOn bA) (localLoc (tOn bA) bA (64 * 63))).err = []) ∧
    (let br := { bA with injAddr := 0x20000#64 }
     focusOf (tOn br) = some (tCtx br) ∧ paExists (tOn br) (ownPa (tOn br) 0x20000) = true ∧ isRemotePa (ownPa (tOn br) 0x20000) = false ∧
       isHostPa (ownPa (tOn br) 0x20000) = false ∧ (metaAt (tOn br) (.phys (ownPa (tOn br) 0x20000))).err = [] ∧
       paExists (tOn br) (2 ^ 43) = false) ∧
    (let br := { bA with halted := true, debug := true }
     HasBrick (tOn br) 0 br ∧ br.halted = true ∧ br.debug = true ∧ (tabGet? br.splits 0).isSome = true ∧ tabGet? br.splits 3 = none) ∧
    (bA.halted = false ∧ bA.debug = false) := by decide +kernel

/-- Faults that the checks meet at the next scrub (R363). -/
def tFaults (fs : List StorageFault) : State := { tOn bA with faultsIn := [fs] }
theorem wit_ServiceStepsComplete_scrub : (tOn bA).faultsIn = [] ∧ (tFaults [.bank 0 3 true]).faultsIn = [.bank 0 3 true] :: [] ∧
    (tFaults [.bank 0 3 false]).faultsIn = [.bank 0 3 false] :: [] ∧ (tFaults [.datapath 0 0 5]).faultsIn = [.datapath 0 0 5] :: [] := by
  decide +kernel
theorem wit_OutsideStepsComplete_assigned : ∃ req : RemoteReq, req.kind = .assigned 3 ∧ req.module ≠ tBase.module := ⟨⟨1, 7, 0, false, .assigned 3⟩, by decide +kernel⟩

/-! ### Witnesses: further clauses, in the order of the statements -/

/-- The first 2 MiB lie on module 1: reached, refused by this module's switches, refused by the other's. -/
def tFar (s : State) : State := tLeaf (tRemote + 0x1F) s
def tRefused (s : State) : State := { s with badKeys := [s.key] }
def tApart (s : State) : State := { s with modKeys := [(1, 7#16)] }
/-- No plane works. -/
def tCut (s : State) : State := { s with links := (List.range 19).map (fun i => (i, ⟨0, true⟩)) }
/-- The line at 0x10000 is poisoned, has one wrong bit, or two. -/
def tBadLine (err : List Nat) (psn : Bool) (s : State) : State := putMeta s (.phys 0x10000) { LineMeta.start with err := err, psn := psn }

theorem wit_FetchReadsTheWord_refused :
    let at_ (s : State) := brickTranslate s (tCtx bA) kExec 0x10000
    ((at_ (tFar (tOn bA))).2 = .ok (tRemote + 0x10000) ∧ locDown (at_ (tFar (tOn bA))).1 (.phys (tRemote + 0x10000)) = false ∧
      outCheck (at_ (tFar (tOn bA))).1 (.phys (tRemote + 0x10000)) = none) ∧
    outCheck (at_ (tRefused (tFar (tOn bA)))).1 (.phys (tRemote + 0x10000)) = some 0x147#9 ∧
    outCheck (at_ (tApart (tFar (tOn bA)))).1 (.phys (tRemote + 0x10000)) = some 0x14E#9 ∧
    ((at_ (tBadLine [] true (tOn bA))).2 = .ok 0x10000 ∧ (metaAt (at_ (tBadLine [] true (tOn bA))).1 (.phys 0x10000)).psn = true) := by
  decide +kernel

/-- 1.0 and 4.0 in FP32 and in FP64. -/
theorem wit_FloatingPointResults_exact :
    fmtF32.finite 0x3F800000 ∧ fmtF64.finite 0x3FF0000000000000 ∧ ¬ fmtF32.finite 0x7F800000 ∧
    Fop.isExact .add 1 2 0 3 ∧ Fop.isExact .sub 1 1 0 0 ∧ Fop.isExact .mul 2 3 0 6 ∧ Fop.isExact .fma 2 3 1 7 ∧ Fop.isExact .fms 2 3 1 5 ∧
    Fop.isExact .nma 2 3 7 1 ∧ Fop.isExact .div 6 3 0 2 ∧ Fop.isExact .sqrt 4 0 0 2 ∧ Fop.isExact .rcp 2 0 0 (1 / 2) ∧
    Fop.isExact .rsq 4 0 0 (1 / 2) := by
  have h : Real.sqrt 4 = 2 := by rw [show (4 : ℝ) = 2 ^ 2 by norm_num]; exact Real.sqrt_sq (by norm_num)
  refine ⟨by decide +kernel, by decide +kernel, by decide +kernel, ?_⟩
  simp only [Fop.isExact, h]; norm_num
theorem wit_ConversionResults_exact :
    (∀ r, Rounding.stoch 65535 = .stoch r → r < 65536) ∧ (∀ r, Rounding.det .rne = .stoch r → r < 65536) ∧
    (fmtOf .f32).isSome = true ∧ (fmtOf .e4m3).isSome = true ∧ Ty.width .i32 = 32 ∧
    ¬(0x7F80 % 256 = 255 ∧ 0x7F80 / 256 % 256 = 255) ∧ ¬(0xFF80 % 256 = 255 ∧ 0xFF80 / 256 % 256 = 255) ∧ 0x80FF / 256 % 256 ≠ 255 := by
  refine ⟨fun r h => ?_, fun r h => ?_, by decide⟩
  · cases h; decide
  · cases h
theorem wit_ReductionResults_exact : fmtF32.finite 0x3F800000 ∧ fmtF64.finite 0x3FF0000000000000 ∧ 2 ^ 32 - 1 < 2 ^ Ty.width .i32 ∧
    2 ^ 64 - 1 < 2 ^ Ty.width .b64 := by decide +kernel

/-- A policy of tolerance 1.0, one failure and one pass allowed, and start states of CST. -/
theorem wit_CureAndFlagForms_exact :
    policyOf 0x3FF0000000000000#64 0x000001003F800000#64 ≠ none ∧ policyOf 0#64 0#64 = none ∧
    isSpecial (.fin false 1 0) = false ∧ isSpecial (.inf false) = true ∧ Cst.start.v = false ∧ (⟨0, 0, 0, true⟩ : Cst).v = true ∧
    fmtF64.finite (⟨0, 0, 0, true⟩ : Cst).last.toNat := by decide +kernel

/-- The value of a lane register that differs: thread 0 goes to 0x10000, thread 1 to an odd place; 0x10000 holds a LAND. -/
def bMix (n : Nat) : Brick := tBrick n [(1, fun t => if t = 0 then 0x10000#64 else 0x10002#64)] [(1, 0x10000#64)]
/-- A brick with all four splits in use. -/
def full (br : Brick) : Brick := { br with splits := br.splits ++ [1, 2, 3].map (fun k => (k, { Split.start 0x10000 with mask := 0x100#32 <<< k })) }
def lands (s : State) (br : Brick) : List Land := (laneTargets s (tCtx br) 1#6 (tCtx br).ts).2.map (fun x => x.2.2)
theorem wit_ControlFormsComplete_unread :
    let f : Form := { fV with unis := [1], rd := [nUni 1#6] }
    let land (s : State) := (landing s (tCtx bJ) ((tCtx bJ).u 1#6)).2
    (∀ s ∈ [tBadLine [] true (sJ bJ), tRefused (tFar (sJ bJ)), tLeaf 0 (sJ bJ), tCut (tFar (sJ bJ)), tLeaf 7 (sJ bJ)], Issues s (tCtx bJ) f) ∧
    land (tBadLine [] true (sJ bJ)) = .cause 0x146#9 ∧ land (tRefused (tFar (sJ bJ))) = .cause 0x147#9 ∧ land (tLeaf 0 (sJ bJ)) = .fault ∧
    land (tCut (tFar (sJ bJ))) = .held := by decide +kernel
theorem wit_LandingPoints_unread :
    let at_ (s : State) := brickTranslate s (tCtx bJ) kExec 0x10000
    let far : Loc := .phys (tRemote + 0x10000)
    (locDown (at_ (tCut (tFar (sJ bJ)))).1 far = true) ∧
    (locDown (at_ (tRefused (tFar (sJ bJ)))).1 far = false ∧ outCheck (at_ (tRefused (tFar (sJ bJ)))).1 far = some 0x147#9) ∧
    ((at_ (tBadLine [] true (sJ bJ))).2 = .ok 0x10000 ∧ (metaAt (at_ (tBadLine [] true (sJ bJ))).1 (.phys 0x10000)).err = [] ∧
      (metaAt (at_ (tBadLine [] true (sJ bJ))).1 (.phys 0x10000)).psn = true) := by decide +kernel
theorem wit_LaneJumpDivides_full :
    let br := stk (List.replicate 16 (.ret 0 false)) bJ
    Issues (sJ br) (tCtx br) fL ∧ (tCtx br).sp.redisp = false ∧ 16 ≤ (tCtx br).sp.stack.length := by decide +kernel
theorem wit_LaneJumpDivides_unread :
    (Issues (tLeaf 0 (sJ bJ)) (tCtx bJ) fL ∧ lands (tLeaf 0 (sJ bJ)) bJ = [.fault, .fault]) ∧
    (Issues (tCut (tFar (sJ bJ))) (tCtx bJ) fL ∧ lands (tCut (tFar (sJ bJ))) bJ = [.held, .held]) ∧
    (let br := bMix 2
     let s := tBadLine [] true (sJ br)
     Issues s (tCtx br) fL ∧ lands s br = [.cause 0x146#9, .bad]) := by decide +kernel
theorem wit_LaneJumpDivides_mixed :
    (let br := bMix 2
     Issues (sJ br) (tCtx br) fL ∧ lands (sJ br) br = [.ok, .bad] ∧ (jumps br).1.length = 1 ∧ (jumps br).2 = 2#32 ∧
       freeSplits (tCtx br) = 1 :: [2, 3] ∧ jumpTapeBad (tCtx br) 2 = false ∧ br.trap = none) ∧
    (let br := full (bMix 2)
     Issues (sJ br) (tCtx br) fL ∧ (jumps br).2 = 2#32 ∧ freeSplits (tCtx br) = [] ∧ jumpTapeBad (tCtx br) 2 = false) ∧
    (let br := sp0 (bMix 2) (fun sp => { sp with redisp := true, stack := [dvg 0 none none] })
     Issues (sJ br) (tCtx br) fL ∧ (jumps br).2 = 2#32 ∧ (jumps br).1.length = 1 ∧ (tCtx br).sp.redisp = true) := by decide +kernel

/-- A replayed frame whose taken arm still has entries. -/
def tArm : Tape := { tTape 3 1 1 with paths := [(1, 1)], frames := [(0, ⟨0, 0, 0, 1, 1#32, 3#32, 0, 0, false, false, true⟩)] }
def dvgF (pm : BitVec 32) (ja gr : Option Nat) : Entry := .dvg 3#32 pm 0x10010 false ja gr false (some 0) 0
theorem wit_JoinCloses_open :
    (let br := { stk [dvgF 0 none none] bA with tape := tArm }
     Issues (tOn br) (tCtx br) fV ∧ armsOpen br.tape br.threads 0 = true) ∧
    (let br := bGroup 0x10004
     Issues (tOn br) (tCtx br) fV ∧ groupReady (parkedIn br) 7 = true ∧ 1 < (groupAddrs (parkedIn br) 7).length) ∧
    (let br := { sp0 (bGroup 0x10000) (fun sp => { sp with stack := [dvgF 0 none (some 7)] }) with tape := tArm }
     Issues (tOn br) (tCtx br) fV ∧ groupReady (parkedIn br) 7 = true ∧ (groupAddrs (parkedIn br) 7).length = 1) := by decide +kernel

/-- The exit that waits. -/
def bExit : Brick := sp0 bA (fun sp => { sp with wait := some ⟨.exit, none, 0x10000, false, true⟩ })
theorem wit_ExitEndsThreads_waits :
    (let br := { bA with arrMarks := [⟨.coreBar 0 0, [0], 0, 0, 0, false⟩] }
     Issues (tOn br) (tCtx br) fV ∧ br.threads &&& ~~~(tCtx br).sp.mask = 0#32 ∧ br.det = false ∧ br.arrMarks ≠ []) ∧
    (HasBrick (tOn bExit) 0 bExit ∧ (tabGet? bExit.splits 0).any (fun sp => sp.wait.any (fun w => w.op == .exit && w.sync.isNone)) = true ∧
      (tabGet? (tOn bExit).walls bExit.wall).any (·.saved) = false ∧ bExit.frozen 0 = false ∧ bExit.det = false ∧ bExit.arrMarks = []) ∧
    (Issues (tOnDet bA) (tCtx (dt bA)) fV ∧ (dt bA).threads &&& ~~~(tCtx (dt bA)).sp.mask = 0#32) := by decide +kernel

theorem wit_BarrierFormsComplete_names :
    let f (rd : List Reg) (d : Option Reg) := syncForm false 0#3 rd d
    (barName (tOn bA) (tCtx bA) 0#6 31#5 .core = .bad ∧ Issues (tOn bA) (tCtx bA) (f [2#6, 0#6] none) ∧
      Issues (tOn bA) (tCtx bA) (f [0#6] none) ∧ Issues (tOn bA) (tCtx bA) (f [0#6] (some 3#6))) ∧
    (barName (tPut bRem tRem) (tCtx bRem) 1#6 0#5 .core = .ok (.coreBar 1 0) true ∧ (barAt (tPut bRem tRem) (.coreBar 1 0)).psn = false ∧
      (barAt (tPut bRem tRem) (.coreBar 1 0)).odd = [] ∧ Issues (tPut bRem tRem) (tCtx bRem) (f [1#6] none)) := by decide +kernel

/-- The lines of the slot that a HOD.GET finds. -/
def slotLines (br : Brick) (s : State) : List Loc := [hodSlotLoc (freeHeld (markRole (tPut br s) (tCtx br) oh false) oh 0) oh (h2Of br s).head]
theorem wit_HodFormsComplete_slot :
    let ready := tHod { h0 with tail := 1, filled := [0] } tBase
    let poisoned := putMeta ready (hodSlotLoc ready oh 0) { LineMeta.start with psn := true }
    let s2 (s : State) := freeHeld (markRole (tPut bA s) (tCtx bA) oh false) oh 0
    (hodIss bA ready (syncForm false 0#3 [0#6] (some 3#6)) ∧ (h2Of bA ready).s = 64 ∧
      (∀ l ∈ slotLines bA ready, (metaAt (s2 ready) l.line).err = [] ∧ (metaAt (s2 ready) l.line).psn = false)) ∧
    (hodIss bA poisoned (syncForm false 0#3 [0#6] (some 3#6)) ∧ (h2Of bA poisoned).cons.length < (h2Of bA poisoned).c ∧
      (checkLines (s2 poisoned) (slotLines bA poisoned)).2 ≠ []) := by
  simp only [hodIss]; decide +kernel

theorem wit_MatrixFormsComplete_accchk_order :
    let f := arrForm 0#3 [1, 2, 3] [8, 10, 11] [nUni 8#6] ([8, 10, 11].map RName.uni ++ [1, 2, 3].map RName.lane) []
    let tol (v : W64) := fUnpack fmtF32 (v.toNat % 2 ^ 32)
    isSpecial (tol 0x7F800000#64) = true ∧ isNeg (tol 0xBF800000#64) = true ∧ isSpecial (tol 0x3F800000#64) = false ∧
      isNeg (tol 0x3F800000#64) = false ∧ arrIss bR tBase f 0#4 := by simp only [arrIss]; decide +kernel
theorem wit_BankPoolForms_bad :
    let f (a : Reg) := bankForm 0#3 a (some 4#6)
    let br := tBrick 1 [] [(1, 0#64), (2, 17#64)]
    (Issues (tPut br (tDyn tBase)) (tCtx br) (f 1#6) ∧ ((tCtx br).u 1#6).toNat = 0) ∧
    (Issues (tPut br (tDyn tBase)) (tCtx br) (f 2#6) ∧ (freeNumbers br 16).length < ((tCtx br).u 2#6).toNat) := by decide +kernel

/-- An odd base; lengths of 2048, and one that is no multiple of 64. -/
theorem wit_TapeFormsComplete_lengths :
    0x20020 % 64 ≠ 0 ∧ 2049 % 64 ≠ 0 ∧ 0x20000 % 64 = 0 ∧ 2048 % 64 = 0 ∧ 0x20000 < 2 ^ 57 ∧ 2048 ≤ 2048 ∧ 2048 ≤ 2 ^ 31 ∧ 0x20000 + 2048 ≤ 2 ^ 57 := by
  decide
/-- A tape whose oldest line's page is absent and has been answered with FAIL. -/
def tFail : Tape := { tReplay eVal with state := 2, denied := [2] }
theorem wit_TapeFormsComplete_refused :
    let s := tPut (bT tFail) (tLeaf 0 tBase)
    Issues s (tCtx (bT tFail)) (tapeUni 0#3 [] none) ∧ tapeQuiet (bT tFail) (bT tFail).seq = true ∧ (spillTape s 0).2 = .refused 0x0C9#9 0x20000 := by
  decide +kernel

/-- s4, s5: 2^32 bytes. -/
def bFar : Brick := tBrick 1 [] [(2, 0x20000#64), (4, 0#64), (5, BitVec.ofNat 64 (2 ^ 32)), (12, 0x8000000000020000#64), (13, 4#64),
  (14, 0x8000000000030000#64), (15, BitVec.ofNat 64 (2 ^ 48 + 0x60000))]
/-- The source of the collective of wit_FabricForms_collectives on a state. -/
def srcOf (s : State) : State × List (Loc × Nat) :=
  match rangePieces s (tCtx bF) kRead ((tCtx bF).u 14#6) 16 with
  | .ok s1 l => (s1, l)
  | _ => (s, [])
theorem wit_FabricForms_source :
    (Issues (tOn bFar) (tCtx bFar) (fSend [2#6, 4#6, 5#6]) ∧ 2 ^ 32 ≤ ((tCtx bFar).u 5#6).toNat) ∧
    (sourceBusy (tCtx bF) ((tCtx bF).u 4#6) = false ∧ ((tCtx bF).u 5#6).toNat < 2 ^ 32) ∧
    (let x := srcOf (tOn bF)
     x.2 ≠ [] ∧ (∀ y ∈ x.2, locDown x.1 y.1 = false) ∧ piecesDenied x.1 x.2 = none ∧
       (match (readPieces (putMeta x.1 (.phys 0x30000) { LineMeta.start with psn := true }) 0 x.2).2 with | .error _ => true | .ok _ => false) = true) ∧
    (let x := srcOf (tRefused (tFar (tOn bF)))
     (∀ y ∈ x.2, locDown x.1 y.1 = false) ∧ piecesDenied x.1 x.2 = some 0x147#9) := by decide +kernel

theorem wit_LaunchAndCourseForms_shared :
    let f (a : Reg) := syncForm false 0#3 [a] (some 5#6)
    (1 ≤ ((tCtx bQ).u 2#6).toNat ∧ ((tCtx bQ).u 2#6).toNat ≤ (dt bQ).granNow - 1 ∧ Issues (tOnDet bQ) (tCtx (dt bQ)) (f 2#6)) ∧
    ((dt bQ).granNow - 1 < ((tCtx bQ).u 3#6).toNat ∧ ((tCtx bQ).u 4#6).toNat = 0) := by decide +kernel

theorem wit_SystemRegisterForms_values :
    (∃ v, SysReg (tOn bS) (tCtx bS) 0x00#7 v) ∧ Unassigned 0x7F#7 ∧
    (Issues (tOn bS) (tCtx bS) (sysForm 0#3 false [1#6] none) ∧ ((tCtx bS).gov || (tCtx bS).uG 1#6) = false) :=
  ⟨⟨_, .mode⟩, Or.inr (by decide +kernel), by decide +kernel⟩

theorem wit_OperationsComplete_refused :
    (let s := { tPut (flying (fl1 none (.sigw [] (some []) 0x40000 (.phys 0x40000) true 1#32 false false)) bA)
        (putMeta tBase (.phys 0x40000) { LineMeta.start with psn := true }) with clk := 1 }
     (readyFlight s (flying (fl1 none (.sigw [] (some []) 0x40000 (.phys 0x40000) true 1#32 false false)) bA) FlightKind.signals).isSome = true ∧
       outCheck s (.phys 0x40000) = none ∧ (metaAt s (Loc.phys 0x40000).line).psn = true ∧ (Loc.phys 0x40000).inLine % 8 = 0 ∧
       (signalFlag s 0 (.phys 0x40000) true 1#32 false).2.isSome = true) ∧
    outCheck (tOn bA) pa0 = none ∧
    (let t := { tTape 1 1025 1025 with buf := (List.range 1025).map (fun i => (i % 64, [], false)), denied := [2] }
     let s := tPut (bT t) (tLeaf 0 tBase)
     HasBrick s 0 (bT t) ∧ bufferOver s (bT t) = true ∧ (spillFirst s 0 (bT t)).2 = .refused 0x0C9#9 0x20000) := by decide +kernel

theorem wit_TrapStepsComplete_owed :
    tr0.atIssue = true ∧ ({ tr0 with cause := 0x144#9 } : TrapRec).cause = 0x144#9 ∧ tr0.split = 0 := by decide +kernel

/-- One entry of the quad is owed 0x100. -/
def tOwed : State := modCore (tQuad [.f16]) 0 (fun x => { x with qfail := [0] })
theorem wit_WaitsCommitsAndArray_owed :
    (owedHead tOwed 0).isSome = true ∧ owedHead (tQuad [.f16]) 0 = none ∧
    (let s := tQueue [qe 0 0] (tOn bA)
     (coreOf s 0).queue = qe 0 0 :: [] ∧ (qe 0 0).isQuad = false ∧ (coreOf s 0).busy ≤ s.clk) := by decide +kernel

/-- An entry of the queue with an operation. -/
def ae (op : ArrOp) (tEnd : Option Nat) : ArrEntry := ⟨0, 0, 0, 0x10000, false, 0, 1#32, 0, 0, [], tEnd, op⟩
/-- A sound metadata word of HB8. -/
def mHb : BitVec 128 := 6#128 <<< 64 ||| 12#128 <<< 72
def mm (ty : Ty) (ms : List (BitVec 128)) : ArrOp := .mma false false false ty false [] [] ms [] [] [] [] [] none
def bkTop : Bank := { Bank.zero with e := [(0, ⟨accLimit, false, false, false⟩)], A := 1, lb := -63, tb := 1, anchored := true }
def accOne : ArrOp := .accadj 0 0 false 0x3F800000#64 false
def topState : State := putBank (tOn bA) 0 0 bkTop
theorem wit_WaitsCommitsAndArray_entries :
    (HasBrick (tOn bA) 0 bA ∧ tabSorted Bank.zero.e = true ∧ (∀ x ∈ Bank.zero.e, x.1 < 8192) ∧ Bank.zero.psn = false ∧
      bA.killed = false ∧ bA.threads ≠ 0#32 ∧ bA.trap = none ∧ bA.inSlot = false) ∧
    ((mm .hb8 [mHb]).metas = (some .hb8, [mHb]) ∧ metaFails mHb = false ∧ metaWrong .hb8 mHb = false ∧ metaWrong .hb4 mHb = true ∧
      metaFails 0 = true ∧ (mm .f16 []).faulted = false) ∧
    (wallOf (tOn bA) bA).all (fun w => w.lbase % 64 == 0) = true ∧ (fmtOf .f32).isSome = true ∧
    (let f : Flight := ⟨0, some 2, 1, 0, 0x10000, false, 1, none, false, .accwb⟩
     ∃ g ∈ (flying f bA).flights, g.seq = (ae (.accwb 0 0 0 false false .rne .f32) none).seq ∧ g.kind = .accwb ∧ g.done = false) := by
  decide +kernel
theorem wit_WaitsCommitsAndArray_overflow :
    (bkTop.at 0 0).v = false ∧ ((bankAt (runEntry topState 0 (ae accOne none)) 0 0).at 0 0).v = true := by decide +kernel
theorem wit_WaitsCommitsAndArray_arithmetic :
    fmtOf .f32 = some fmtF32 ∧ isNeg (.fin false 1 0) = false ∧ isSpecial (.fin false 1 0) = false ∧ isSpecial (.nan false) = true ∧
    fmtF32.finite (0x3F800000#32).toNat ∧ ¬ fmtF64.finite 0x7FF0000000000000 := by decide +kernel

/-- What a span of command x meets on state s: whether a link is down, whether the source, the destination is refused. -/
def copyOut (s : State) (x : Copy) : Bool × Bool × Bool :=
  match (tabGet? s.walls 0).map (fun w => copyPlaces s x w kRead x.src.1 x.src.2 64 3) with
  | some (.ok s1 src) =>
    (match (tabGet? s.walls 0).map (fun w => copyPlaces s1 x w kWrite x.dst.1 x.dst.2 64 3) with
     | some (.ok s2 dst) => ((src ++ dst).any (locDown s2), src.any (fun p => (outCheck s2 p).isSome), dst.any (fun p => (outCheck s2 p).isSome))
     | _ => (false, false, false))
  | _ => (false, false, false)
/-- The same command the other way round. -/
def cpBack : Copy := { cp 64 0 false false with dst := (true, 0x20000), src := (false, 0x100) }
def cpHod : Copy := { cp 64 0 false false with hod := some (oh, some 0) }
theorem wit_EngineStepsComplete_refused :
    copyOut (tCopy (cp 64 0 false false) tBase) (cp 64 0 false false) = (false, false, false) ∧
    copyOut (tCopy (cp 64 0 false false) (tCut (tFar tBase))) (cp 64 0 false false) = (true, false, false) ∧
    copyOut (tCopy (cp 64 0 false false) (tApart (tFar tBase))) (cp 64 0 false false) = (false, true, false) ∧
    copyOut (tCopy cpBack (tApart (tFar tBase))) cpBack = (false, false, true) ∧
    (nextCopy (tCopy cpBack tBase) 0 = some (0, cpBack) ∧ nextCopy (tCopy cpHod tBase) 0 = some (0, cpHod)) ∧
    ({ cp 64 0 false false with lane := 1 } : Copy).lane ≤ 1 ∧
    (∀ e ∈ [0, 0x11], nextCopy (tCopy cpBack (tLeaf e tBase)) 0 = some (0, cpBack)) := by decide +kernel

/-- A lane register beyond the allotment of two granules; a handler's banked one. -/
theorem wit_InjectionAndDebugSteps_lane :
    (let br := { bA with gran := 2 }
     focusOf (tOn br) = some (tCtx br) ∧ 8 * br.granNow ≤ (16#6).toNat ∧ (tCtx br).inHandler = false ∧ (15#6).toNat < 8 * br.granNow) ∧
    (focusOf (tPutH bA tBase) = some (cH bA) ∧ (cH bA).inHandler = true ∧ 56 ≤ (56#6).toNat) := by decide +kernel

/-- A form that reads thread 1's element of v1, active or not. -/
def fOne (always : Bool) : Form := { laneForm false 0#3 [1#6] 3#6 with chk := [], only := some ⟨1, always, true, true⟩ }
theorem wit_ChecksBeforeEveryForm_elements :
    ((laneForm false 0#3 [1#6] 3#6).only = none) ∧
    ((fOne true).only = some ⟨1, true, true, true⟩ ∧ (⟨1, true, true, true⟩ : Elem).always = true) ∧
    ((fOne false).only = some ⟨1, false, true, true⟩ ∧ tbit (tCtx bA).sp.mask 1 = true) ∧
    (let br := { bA with marks := [⟨.lane 1, 1#32, 0, 0, 1, 1⟩] }
     precheck (tCtx br) (fOne true) = .go ∧ precheck (tCtx br) (laneForm false 0#3 [1#6] 3#6) =
       .trap { trapOf (tCtx br) 0x049#9 with reg := 1 }) ∧
    (let br := { bA with lane := tabPut bA.lane (halfKey 1 0 0) ⟨3#32, false, false, true⟩ }
     precheck (tCtx br) (fOne true) = .go ∧ precheck (tCtx br) (laneForm false 0#3 [1#6] 3#6) = .trap ⟨0x146#9, 0, 0, 1, none, 0, 1⟩) := by
  decide +kernel

/-- The end of a brick, buffered. -/
def fGone (tEnd : Option Nat) : Flight := fl1 tEnd (.gone false)
theorem wit_TentativeFormsComplete_ends :
    (let s := { tBase with pairs := [(0x20000 / 8, ⟨5#64, false, 0, false⟩)] }
     (checkLine s (Loc.phys (0x20000 / 8 * 8)).line).2 = false ∧
       (checkLine (putMeta s pa0 { LineMeta.start with err := [3] }) (Loc.phys (0x20000 / 8 * 8)).line).2 = false ∧
       (checkLine (putMeta s pa0 { LineMeta.start with err := [3, 4] }) (Loc.phys (0x20000 / 8 * 8)).line).2 = true) ∧
    (Issues (tOnDet bA) (tCtx (dt bA)) fV ∧ (dt bA).threads &&& ~~~(tCtx (dt bA)).sp.mask = 0#32 ∧ (dt bA).alive = true) ∧
    (let br := { bA with arrMarks := [⟨ob, [0], 0, 0, 0, false⟩] }
     Issues (tOn br) (tCtx br) fV ∧ br.arrMarks ≠ []) ∧
    (HasBrick (tOn bExit) 0 bExit ∧ bExit.frozen 0 = false ∧ bExit.arrMarks = []) ∧
    (let br := flying (fGone (some 100)) { dt bA with threads := 0#32, splits := [] }
     HasBrick (tPut br (tDet tBase)) 0 br ∧ (fGone (some 100)).kind = .gone false ∧ br.flights.any Flight.waitsPhase = false) ∧
    (let br := flying (fGone none) { dt bA with threads := 0#32, splits := [] }
     let s := tPut br (tDet tBase)
     HasBrick s 0 br ∧ nextWaiting s [0] = none ∧ nextGone s [0] = some (0, 0, false)) := by decide +kernel

end Sys2Proof.Tests
end

