-- ==== Sys2Proof/Proofs/FormatsBits.lean ====
section
/-!
Bit fields: a word and its parts. The lemmas of Sys2Proof/Laws/Encode.lean read back what was packed; these pack again what was read.
-/
namespace Sys2Proof

theorem eq_ofNat_of_toNat {n k : Nat} {x : BitVec n} (h : x.toNat = k) : x = BitVec.ofNat n k :=
  h ▸ (BitVec.ofNat_toNat n x ▸ BitVec.setWidth_eq x).symm

@[simp] theorem ofBool_bitB (x : BitVec 1) : BitVec.ofBool (bitB x) = x := by
  have h : ∀ y : BitVec 1, BitVec.ofBool (bitB y) = y := by decide
  exact h x

/-- Two fields of a vector, the one above the other, hold its lowest bits. -/
theorem toNat_extract_append {w k m n : Nat} {v : BitVec w} {y : BitVec n} (hy : y.toNat = v.toNat % 2 ^ n) (hk : k = n) :
    (v.extractLsb' k m ++ y).toNat = v.toNat % 2 ^ (m + n) := by
  subst hk
  rw [BitVec.toNat_append, BitVec.extractLsb'_toNat, hy, ← Nat.shiftLeft_add_eq_or_of_lt (Nat.mod_lt _ (by positivity)),
    Nat.shiftLeft_eq, Nat.shiftRight_eq_div_pow, Nat.add_comm m, pow_add, Nat.mod_mul, Nat.mul_comm, Nat.add_comm]

theorem toNat_extract_zero {w n : Nat} (v : BitVec w) : (v.extractLsb' 0 n).toNat = v.toNat % 2 ^ n := by
  simp

/-- A vector whose fields hold its lowest bits, all of them, is that vector. -/
theorem eq_of_toNat_mod {n : Nat} {x v : BitVec n} (h : x.toNat = v.toNat % 2 ^ n) : x = v :=
  BitVec.eq_of_toNat_eq (h.trans (Nat.mod_eq_of_lt v.isLt))

theorem extract_append_extract {w m n : Nat} (v : BitVec w) : v.extractLsb' n m ++ v.extractLsb' 0 n = v.extractLsb' 0 (m + n) :=
  BitVec.eq_of_toNat_eq ((toNat_extract_append (toNat_extract_zero v) rfl).trans (toNat_extract_zero v).symm)

theorem append_low {w m n : Nat} {v : BitVec w} {c : BitVec m} (h : v.extractLsb' n m = c) :
    c ++ v.extractLsb' 0 n = v.extractLsb' 0 (m + n) := h ▸ extract_append_extract v

theorem append_high {w m n : Nat} {v : BitVec w} {c : BitVec n} (h : v.extractLsb' 0 n = c) :
    v.extractLsb' n m ++ c = v.extractLsb' 0 (m + n) := h ▸ extract_append_extract v

@[simp] theorem RawA.toBits_ofBits (v : BitVec 25) : (RawA.ofBits v).toBits = v :=
  eq_of_toNat_mod <| toNat_extract_append (toNat_extract_append (toNat_extract_append (
    toNat_extract_append (toNat_extract_zero v) rfl) rfl) rfl) rfl
@[simp] theorem RawK.toBits_ofBits (v : BitVec 25) : (RawK.ofBits v).toBits = v :=
  eq_of_toNat_mod <| toNat_extract_append (toNat_extract_append (
    toNat_extract_append (toNat_extract_zero v) rfl) rfl) rfl
@[simp] theorem RawF.toBits_ofBits (v : BitVec 25) : (RawF.ofBits v).toBits = v :=
  eq_of_toNat_mod <| toNat_extract_append (toNat_extract_append (toNat_extract_append (
    toNat_extract_append (toNat_extract_zero v) rfl) rfl) rfl) rfl
@[simp] theorem RawM.toBits_ofBits (v : BitVec 25) : (RawM.ofBits v).toBits = v :=
  eq_of_toNat_mod <| toNat_extract_append (toNat_extract_append (toNat_extract_append (
    toNat_extract_append (toNat_extract_append (toNat_extract_zero v) rfl) rfl) rfl) rfl) rfl
@[simp] theorem RawB.toBits_ofBits (v : BitVec 25) : (RawB.ofBits v).toBits = v :=
  eq_of_toNat_mod <| toNat_extract_append (toNat_extract_append (toNat_extract_zero v) rfl) rfl
@[simp] theorem RawS.toBits_ofBits (v : BitVec 25) : (RawS.ofBits v).toBits = v :=
  eq_of_toNat_mod <| toNat_extract_append (toNat_extract_append (toNat_extract_append (
    toNat_extract_append (toNat_extract_zero v) rfl) rfl) rfl) rfl
@[simp] theorem RawY.toBits_ofBits (v : BitVec 25) : (RawY.ofBits v).toBits = v :=
  eq_of_toNat_mod <| toNat_extract_append (toNat_extract_append (
    toNat_extract_append (toNat_extract_zero v) rfl) rfl) rfl
@[simp] theorem RawL.toBits_ofBits (v : BitVec 25) : (RawL.ofBits v).toBits = v :=
  eq_of_toNat_mod <| toNat_extract_append (toNat_extract_append (toNat_extract_append (
    toNat_extract_append (toNat_extract_zero v) rfl) rfl) rfl) rfl
@[simp] theorem RawE.toBits_ofBits (v : BitVec 25) : (RawE.ofBits v).toBits = v :=
  eq_of_toNat_mod <| toNat_extract_append (toNat_extract_zero v) rfl
@[simp] theorem RawEm.toBits_ofBits (v : BitVec 19) : (RawEm.ofBits v).toBits = v :=
  eq_of_toNat_mod <| toNat_extract_append (toNat_extract_append (
    toNat_extract_append (toNat_extract_zero v) rfl) rfl) rfl
@[simp] theorem RawEt.toBits_ofBits (v : BitVec 19) : (RawEt.ofBits v).toBits = v :=
  eq_of_toNat_mod <| toNat_extract_append (toNat_extract_append (
    toNat_extract_append (toNat_extract_zero v) rfl) rfl) rfl
@[simp] theorem RawEb.toBits_ofBits (v : BitVec 19) : (RawEb.ofBits v).toBits = v :=
  eq_of_toNat_mod <| toNat_extract_append (toNat_extract_append (
    toNat_extract_append (toNat_extract_zero v) rfl) rfl) rfl
@[simp] theorem PayMem.toBits_ofBits (v : BitVec 32) : (PayMem.ofBits v).toBits = v :=
  eq_of_toNat_mod <| toNat_extract_append (toNat_extract_zero v) rfl
@[simp] theorem PayOpx.toBits_ofBits (v : BitVec 32) : (PayOpx.ofBits v).toBits = v :=
  eq_of_toNat_mod <| toNat_extract_append (toNat_extract_append (toNat_extract_append (
    toNat_extract_append (toNat_extract_zero v) rfl) rfl) rfl) rfl

/-! ### The payloads and the rest of an LE word, from their fields -/

theorem PayMem.toBits_eq (p : BitVec 32) (o : PayMem) (hsc : (PayMem.ofBits p).sc = o.sc) (hdisp : (PayMem.ofBits p).disp = o.disp) :
    o.toBits = p := by
  rw [← PayMem.toBits_ofBits p, PayMem.toBits, PayMem.toBits, hsc, hdisp]

theorem PayOpx.toBits_eq (p : BitVec 32) (o : PayOpx) (hc : (PayOpx.ofBits p).c = o.c) (hrm : (PayOpx.ofBits p).rm = o.rm)
    (ht1 : (PayOpx.ofBits p).t1 = o.t1) (ht2 : (PayOpx.ofBits p).t2 = o.t2) (hlo : (PayOpx.ofBits p).lo = o.lo) : o.toBits = p := by
  rw [← PayOpx.toBits_ofBits p, PayOpx.toBits, PayOpx.toBits, hc, hrm, ht1, ht2, hlo]

theorem RawEm.toBits_eq (v : BitVec 19) (e : RawEm) (hbank : (RawEm.ofBits v).bank = e.bank) (hx : (RawEm.ofBits v).x = e.x)
    (hy : (RawEm.ofBits v).y = e.y) (hz : (RawEm.ofBits v).z = e.z) : e.toBits = v := by
  rw [← RawEm.toBits_ofBits v, RawEm.toBits, RawEm.toBits, hbank, hx, hy, hz]

theorem RawEt.toBits_eq (v : BitVec 19) (e : RawEt) (hfirst : (RawEt.ofBits v).first = e.first) (hn : (RawEt.ofBits v).n = e.n)
    (hlbl : (RawEt.ofBits v).lbl = e.lbl) (hz : (RawEt.ofBits v).z = e.z) : e.toBits = v := by
  rw [← RawEt.toBits_ofBits v, RawEt.toBits, RawEt.toBits, hfirst, hn, hlbl, hz]

theorem RawEb.toBits_eq (v : BitVec 19) (e : RawEb) (hm : (RawEb.ofBits v).m = e.m) (hr : (RawEb.ofBits v).r = e.r)
    (hlbl : (RawEb.ofBits v).lbl = e.lbl) (hz : (RawEb.ofBits v).z = e.z) : e.toBits = v := by
  rw [← RawEb.toBits_ofBits v, RawEb.toBits, RawEb.toBits, hm, hr, hlbl, hz]

/-! ### The word -/

theorem isTwoWord_eq (w : IWord) : isTwoWord w = ((wordClass w).extractLsb' 0 3 == 7#3) := by
  have h : w.extractLsb' 28 3 = (wordClass w).extractLsb' 0 3 := by
    apply BitVec.eq_of_getLsbD_eq
    intro i hi
    have h1 : i < 4 := by omega
    simp [wordClass, h1, hi]
  rw [isTwoWord, h]

theorem mkWord_fields (w : IWord) : mkWord (wordClass w) (wordBody w) (wordSt w) = w :=
  eq_of_toNat_mod <| toNat_extract_append (toNat_extract_append (toNat_extract_zero w) rfl) rfl

/-! ### Codes -/

theorem Rm.ofCode_eq_some (c : BitVec 3) (x : Rm) : Rm.ofCode c = some x ↔ x.code = c := by
  refine ⟨fun h => ?_, fun h => h ▸ Rm.ofCode_code x⟩
  unfold Rm.ofCode at h
  split at h <;> cases h
  all_goals exact (eq_ofNat_of_toNat ‹_›).symm

theorem Ty.ofCode_eq_some (c : BitVec 5) (x : Ty) : Ty.ofCode c = some x ↔ x.code = c := by
  refine ⟨fun h => ?_, fun h => h ▸ Ty.ofCode_code x⟩
  unfold Ty.ofCode at h
  split at h <;> cases h
  all_goals exact (eq_ofNat_of_toNat ‹_›).symm

theorem Scope.ofCode_eq_some (c : BitVec 3) (x : Scope) : Scope.ofCode c = some x ↔ x.code = c := by
  refine ⟨fun h => ?_, fun h => h ▸ Scope.ofCode_code x⟩
  unfold Scope.ofCode at h
  split at h <;> cases h
  all_goals exact (eq_ofNat_of_toNat ‹_›).symm

theorem RedOp.ofCode_eq_some (c : BitVec 3) (x : RedOp) : RedOp.ofCode c = some x ↔ x.code = c := by
  refine ⟨fun h => ?_, fun h => h ▸ RedOp.ofCode_code x⟩
  unfold RedOp.ofCode at h
  split at h <;> cases h
  all_goals exact (eq_ofNat_of_toNat ‹_›).symm

theorem AtomOp.ofCode_eq_some (c : BitVec 4) (x : AtomOp) : AtomOp.ofCode c = some x ↔ x.code = c := by
  refine ⟨fun h => ?_, fun h => h ▸ AtomOp.ofCode_code x⟩
  unfold AtomOp.ofCode at h
  split at h <;> cases h
  all_goals exact (eq_ofNat_of_toNat ‹_›).symm

end Sys2Proof
end
-- ==== Sys2Proof/Proofs/DecodeExact.lean ====
section
/-!
O2. A decoder is exact when every instruction it answers is well-formed and has the words that were read. The connectives of the decoders
(a condition, a code that may be reserved) keep this, so for each class only its rows remain: the fields of a row, packed again, are the
body of the word.
-/
namespace Sys2Proof

/-- The instruction is well-formed and its words are w. -/
structure Instr.HasWords (i : Instr) (w : Words) : Prop where
  wf    : wellFormed i = true
  words : encode i = some w

/-- What a decoder's answer names, if it names an instruction, is well-formed and has the words w. -/
def Decoded.Exact (D : Decoded) (w : Words) : Prop := ∀ i, D = .instr i → i.HasWords w

theorem exact_bad (c : BitVec 9) (two : Bool) (w : Words) : (Decoded.bad c two).Exact w ↔ True := by
  simp [Decoded.Exact]

theorem exact_instr (i : Instr) (w : Words) : (Decoded.instr i).Exact w ↔ i.HasWords w := by
  simp [Decoded.Exact]

theorem exact_ite (P : Prop) [Decidable P] (D E : Decoded) (w : Words) :
    (if P then D else E).Exact w ↔ (P → D.Exact w) ∧ (¬P → E.Exact w) := by
  split <;> simp [*]

theorem exact_rmCheck (c : BitVec 3) (two : Bool) (k : Rm → Decoded) (w : Words) :
    (rmCheck c two k).Exact w ↔ ∀ rm, rm.code = c → (k rm).Exact w := by
  unfold rmCheck
  constructor
  · rintro h rm rfl
    simpa using h
  · intro h
    cases hc : Rm.ofCode c with
    | none => exact (exact_bad _ _ _).2 trivial
    | some rm => exact h rm ((Rm.ofCode_eq_some c rm).1 hc)

theorem exact_codeCheck {α : Type} (c : Option α) (two : Bool) (k : α → Decoded) (w : Words) :
    (codeCheck c two k).Exact w ↔ ∀ x, c = some x → (k x).Exact w := by
  cases c <;> simp [codeCheck, exact_bad]

theorem hasWords {i : Instr} {w w' : Words} (hw : wellFormed i = true) (he : encode i = some w') (h : w' = w) : i.HasWords w :=
  ⟨hw, h ▸ he⟩

theorem Rm.beq_rne (x : Rm) : (x == .rne) = (x.code == 0#3) := by cases x <;> rfl

/-!
### The classes

For each class alike: the row is found by its opcode; what the row checks turns into premises; with these the instruction is well-formed,
and the row's fields, packed again, are the body.
-/

theorem exact_LI (r : RawA) (st : BitVec 3) : (decLI r st).Exact ⟨mkWord 0#4 r.toBits st, none⟩ := by
  obtain ⟨op, d, a, b, x⟩ := r
  unfold decLI
  split
  all_goals
    rename_i hop
    simp only [exact_ite, exact_instr, exact_bad, beq_iff_eq, implies_true, and_true]
  all_goals
    obtain rfl := eq_ofNat_of_toNat hop
    intros
    subst_vars
    exact hasWords rfl rfl (by simp only [ofBool_bitB])

theorem exact_LK (r : RawK) (st : BitVec 3) : (decLK r st).Exact ⟨mkWord 1#4 r.toBits st, none⟩ := by
  obtain ⟨op, d, a, imm⟩ := r
  unfold decLK
  split
  all_goals
    rename_i hop
    simp only [exact_ite, exact_instr, exact_bad, beq_iff_eq, implies_true, and_true]
  all_goals
    obtain rfl := eq_ofNat_of_toNat hop
    intros
    subst_vars
    exact hasWords rfl rfl rfl

theorem exact_LF (r : RawF) (st : BitVec 3) : (decLF r st).Exact ⟨mkWord 2#4 r.toBits st, none⟩ := by
  obtain ⟨op, d, a, b, m⟩ := r
  unfold decLF
  split
  all_goals
    rename_i hop
    simp only [exact_rmCheck, exact_ite, exact_instr, exact_bad, beq_iff_eq, implies_true, and_true]
  all_goals
    obtain rfl := eq_ofNat_of_toNat hop
    intros
    subst_vars
    exact hasWords ‹_› rfl rfl

theorem exact_LD (r : RawF) (st : BitVec 3) : (decLD r st).Exact ⟨mkWord 3#4 r.toBits st, none⟩ := by
  obtain ⟨op, d, a, b, m⟩ := r
  unfold decLD
  split
  all_goals
    rename_i hop
    simp only [exact_rmCheck, exact_ite, exact_instr, exact_bad, beq_iff_eq, implies_true, and_true]
  all_goals
    obtain rfl := eq_ofNat_of_toNat hop
    intros
    subst_vars
    exact hasWords ‹_› rfl rfl

theorem exact_LM (r : RawM) (st : BitVec 3) : (decLM r st).Exact ⟨mkWord 4#4 r.toBits st, none⟩ := by
  obtain ⟨op, d, x, sb, sc, q⟩ := r
  unfold decLM
  split
  all_goals
    rename_i hop
    simp only [exact_ite, exact_instr, exact_bad, beq_iff_eq, Bool.and_eq_true, and_imp, implies_true, and_true]
  all_goals
    obtain rfl := eq_ofNat_of_toNat hop
    and_intros
  all_goals
    intros
    subst_vars
    refine hasWords ?_ rfl ?_
    · unfold wellFormed
      simp only [*]
    · simp only [ofBool_bitB, *]

theorem exact_LX (r : RawA) (st : BitVec 3) : (decLX r st).Exact ⟨mkWord 5#4 r.toBits st, none⟩ := by
  obtain ⟨op, d, a, b, x⟩ := r
  unfold decLX
  split
  all_goals
    rename_i hop
    simp only [exact_ite, exact_instr, exact_bad, beq_iff_eq, Bool.and_eq_true, and_imp, imp_and, implies_true, and_true]
  all_goals
    obtain rfl := eq_ofNat_of_toNat hop
    and_intros
  all_goals
    intros
    subst_vars
    refine hasWords ?_ rfl ?_
    · unfold wellFormed
      simp only [*]
    · simp only [append_low, take_all, ofBool_bitB, *]

theorem exact_LE (r : RawE) (st : BitVec 3) : (decLE r st).Exact ⟨mkWord 6#4 r.toBits st, none⟩ := by
  obtain ⟨op, rest⟩ := r
  unfold decLE
  split
  all_goals
    rename_i hop
    simp only [exact_ite, exact_instr, exact_bad, beq_iff_eq, Bool.and_eq_true, and_imp, implies_true, and_true]
  all_goals
    obtain rfl := eq_ofNat_of_toNat hop
    and_intros
  all_goals
    intros
    refine hasWords ?_ rfl ?_
    · unfold wellFormed
      simp only [*, Bool.and_self]
    · simp only [append_low, append_high, take_all, ofBool_bitB, RawEm.toBits_eq rest, RawEt.toBits_eq rest,
        RawEb.toBits_eq rest, *]

theorem exact_LW (r : RawA) (p : IWord) (st : BitVec 3) : (decLW r p st).Exact ⟨mkWord 7#4 r.toBits st, some p⟩ := by
  obtain ⟨op, d, a, b, x⟩ := r
  unfold decLW
  split
  all_goals
    rename_i hop
    simp only [exact_rmCheck, exact_codeCheck, Ty.ofCode_eq_some, Scope.ofCode_eq_some, RedOp.ofCode_eq_some, AtomOp.ofCode_eq_some,
      exact_ite, exact_instr, exact_bad, beq_iff_eq, Bool.and_eq_true, and_imp, implies_true, and_true, decLW00, decLW01,
      decLW02, decLW03, decLW04, decLW05, decLW06, decLW07, decLW08, decLW09, decLW0A, decLW0B, decLW0C, decLW0D, decLW0E,
      decLW0F, decLW10, decLW11, decLW12, decLW13, decLW14, decLW15, decLW16, decLW17, decLW18, decLW19, decLW1A, decLW1B,
      decLW1C, decLW1D, decLW1E, decLW20, decLW21, decLW22, decLW23, decLW24, decLW25, decLW26, decLW27, decLW28, decLW29,
      decLW2A, decLW2B, decLW2C, decLW2D, decLW2E, decLW2F]
  all_goals
    obtain rfl := eq_ofNat_of_toNat hop
    and_intros
  all_goals
    intros
    subst_vars
    refine hasWords ?_ rfl ?_
    · unfold wellFormed
      simp only [*, Bool.and_self, Rm.beq_rne]
    · simp only [append_low, append_high, take_all, ofBool_bitB, PayMem.toBits_eq p, PayOpx.toBits_eq p, *]

theorem exact_UI (r : RawA) (st : BitVec 3) : (decUI r st).Exact ⟨mkWord 8#4 r.toBits st, none⟩ := by
  obtain ⟨op, d, a, b, x⟩ := r
  unfold decUI
  split
  all_goals
    rename_i hop
    simp only [exact_ite, exact_instr, exact_bad, beq_iff_eq, implies_true, and_true]
  all_goals
    obtain rfl := eq_ofNat_of_toNat hop
    intros
    subst_vars
    exact hasWords rfl rfl (by simp only [ofBool_bitB])

theorem exact_UK (r : RawK) (st : BitVec 3) : (decUK r st).Exact ⟨mkWord 9#4 r.toBits st, none⟩ := by
  obtain ⟨op, d, a, imm⟩ := r
  unfold decUK
  split
  all_goals
    rename_i hop
    simp only [exact_ite, exact_instr, exact_bad, beq_iff_eq, implies_true, and_true]
  all_goals
    obtain rfl := eq_ofNat_of_toNat hop
    intros
    subst_vars
    exact hasWords rfl rfl rfl

theorem exact_UB (r : RawB) (st : BitVec 3) : (decUB r st).Exact ⟨mkWord 10#4 r.toBits st, none⟩ := by
  obtain ⟨op, c, off⟩ := r
  unfold decUB
  split
  all_goals
    rename_i hop
    simp only [exact_ite, exact_instr, exact_bad, beq_iff_eq, Bool.and_eq_true, and_imp, implies_true, and_true]
  all_goals
    obtain rfl := eq_ofNat_of_toNat hop
    intros
    subst_vars
    refine hasWords ?_ rfl ?_
    · unfold wellFormed
      simp only [*]
    · simp only [append_low, take_all, ofBool_bitB, *]

theorem exact_US (r : RawS) (st : BitVec 3) : (decUS r st).Exact ⟨mkWord 11#4 r.toBits st, none⟩ := by
  obtain ⟨op, d, a, k, sp⟩ := r
  unfold decUS
  split
  all_goals
    rename_i hop
    simp only [exact_codeCheck, Scope.ofCode_eq_some, exact_ite, exact_instr, exact_bad, beq_iff_eq, Bool.and_eq_true, and_imp,
      implies_true, and_true]
  all_goals
    obtain rfl := eq_ofNat_of_toNat hop
    intros
    subst_vars
    refine hasWords ?_ rfl ?_
    · unfold wellFormed
      simp only [*, Bool.and_self]
    · simp only [append_low, take_all, ofBool_bitB, *]

theorem exact_UM (r : RawK) (st : BitVec 3) : (decUM r st).Exact ⟨mkWord 12#4 r.toBits st, none⟩ := by
  obtain ⟨op, d, a, imm⟩ := r
  unfold decUM
  split
  all_goals
    rename_i hop
    simp only [exact_ite, exact_instr, exact_bad, beq_iff_eq, Bool.and_eq_true, and_imp, implies_true, and_true]
  all_goals
    obtain rfl := eq_ofNat_of_toNat hop
    intros
    subst_vars
    refine hasWords ?_ rfl ?_
    · unfold wellFormed
      simp only [*]
    · simp only [*]

theorem exact_UY (r : RawY) (st : BitVec 3) : (decUY r st).Exact ⟨mkWord 13#4 r.toBits st, none⟩ := by
  obtain ⟨op, d, a, y⟩ := r
  unfold decUY
  split
  all_goals
    rename_i hop
    simp only [exact_rmCheck, exact_codeCheck, Scope.ofCode_eq_some, exact_ite, exact_instr, exact_bad, beq_iff_eq, Bool.and_eq_true,
      and_imp, imp_and, implies_true, and_true]
  all_goals
    obtain rfl := eq_ofNat_of_toNat hop
    and_intros
  all_goals
    intros
    subst_vars
    refine hasWords ?_ rfl ?_
    · unfold wellFormed
      simp only [*, Bool.and_self]
    · simp only [append_low, take_all, ofBool_bitB, *]

theorem exact_UL (r : RawL) (st : BitVec 3) : (decUL r st).Exact ⟨mkWord 14#4 r.toBits st, none⟩ := by
  obtain ⟨op, d, a, sp, k⟩ := r
  unfold decUL
  split
  all_goals
    rename_i hop
    simp only [exact_ite, exact_instr, exact_bad, beq_iff_eq, Bool.and_eq_true, and_imp, implies_true, and_true]
  all_goals
    obtain rfl := eq_ofNat_of_toNat hop
    and_intros
  all_goals
    intros
    subst_vars
    refine hasWords ?_ rfl ?_
    · unfold wellFormed
      simp only [*, Bool.and_self]
    · simp only [append_low, take_all, ofBool_bitB, *]

theorem exact_UW (r : RawA) (p : IWord) (st : BitVec 3) : (decUW r p st).Exact ⟨mkWord 15#4 r.toBits st, some p⟩ := by
  obtain ⟨op, d, a, b, x⟩ := r
  unfold decUW
  split
  all_goals
    rename_i hop
    simp only [exact_ite, exact_instr, exact_bad, beq_iff_eq, Bool.and_eq_true, and_imp, implies_true, and_true, decUW00, decUW01,
      decUW02, decUW03, decUW04, decUW05, decUW06, decUW07, decUW08, decUW09, decUW0A, decUW0B, decUW0C, decUW0D, decUW10,
      decUW11, decUW12, decUW13, decUW20]
  all_goals
    obtain rfl := eq_ofNat_of_toNat hop
    intros
    subst_vars
    refine hasWords ?_ rfl ?_
    · unfold wellFormed
      simp only [*]
    · simp only [append_low, append_high, take_all, ofBool_bitB, PayMem.toBits_eq p, PayOpx.toBits_eq p, *]

/-! ### Any two words -/

theorem exact_decodeWords (w p : IWord) : (decodeWords w p).Exact ⟨w, if isTwoWord w then some p else none⟩ := by
  have hw := mkWord_fields w
  rw [isTwoWord_eq]
  unfold decodeWords
  split
  case h_17 =>
    have hlt := (wordClass w).isLt
    grind
  all_goals
    rename_i hc
    obtain hc := eq_ofNat_of_toNat hc
    rw [hc] at hw ⊢
  · simpa [hw] using exact_LI (RawA.ofBits (wordBody w)) (wordSt w)
  · simpa [hw] using exact_LK (RawK.ofBits (wordBody w)) (wordSt w)
  · simpa [hw] using exact_LF (RawF.ofBits (wordBody w)) (wordSt w)
  · simpa [hw] using exact_LD (RawF.ofBits (wordBody w)) (wordSt w)
  · simpa [hw] using exact_LM (RawM.ofBits (wordBody w)) (wordSt w)
  · simpa [hw] using exact_LX (RawA.ofBits (wordBody w)) (wordSt w)
  · simpa [hw] using exact_LE (RawE.ofBits (wordBody w)) (wordSt w)
  · simpa [hw] using exact_LW (RawA.ofBits (wordBody w)) p (wordSt w)
  · simpa [hw] using exact_UI (RawA.ofBits (wordBody w)) (wordSt w)
  · simpa [hw] using exact_UK (RawK.ofBits (wordBody w)) (wordSt w)
  · simpa [hw] using exact_UB (RawB.ofBits (wordBody w)) (wordSt w)
  · simpa [hw] using exact_US (RawS.ofBits (wordBody w)) (wordSt w)
  · simpa [hw] using exact_UM (RawK.ofBits (wordBody w)) (wordSt w)
  · simpa [hw] using exact_UY (RawY.ofBits (wordBody w)) (wordSt w)
  · simpa [hw] using exact_UL (RawL.ofBits (wordBody w)) (wordSt w)
  · simpa [hw] using exact_UW (RawA.ofBits (wordBody w)) p (wordSt w)

/-- Settles O2: every class's decoder is exact, and a word is its class, body and stall count. -/
theorem encodeDecodeExact : Obligations.EncodeDecodeExact := by
  unfold Obligations.EncodeDecodeExact
  intro w p i h
  obtain ⟨hwf, he⟩ := exact_decodeWords w p i h
  exact ⟨hwf, he⟩

end Sys2Proof
end
-- ==== Sys2Proof/Proofs/RoundTrip.lean ====
section
/-!
O1. An instruction's words name the class by their top bits, so the decoder reaches the decoder of that class with the fields that the
encoder packed. For each class there remain its rows: where a row packs nothing into a field, the row is found by computation; where it
packs a mask, a flag or a code into one, or where it is well-formed on a condition, the fields are read back one by one. There `simp` must
not add up the width 3 + 3 of two fields, by which `take_top` and `take_within` find them.
-/
namespace Sys2Proof

/-- Decoding the instruction's words gives it back, and its first word says how many they are. -/
def Instr.RoundTrips (i : Instr) : Prop := ∀ w, wellFormed i = true → encode i = some w →
  decodeWords w.first (w.second.getD 0#32) = .instr i ∧ w.second.isSome = isTwoWord w.first

theorem roundTrips_of_encode_none {i : Instr} (h : encode i = none) : i.RoundTrips := by
  intro w _ he
  rw [h] at he
  cases he

theorem roundTrips_of_encode {i : Instr} {c : BitVec 4} {b : BitVec 25} {st : BitVec 3} {p : Option IWord}
    (he : encode i = some ⟨mkWord c b st, p⟩) (hp : p.isSome = (c.extractLsb' 0 3 == 7#3))
    (hd : wellFormed i = true → decodeWords (mkWord c b st) (p.getD 0#32) = .instr i) : i.RoundTrips := by
  intro w hw h
  obtain rfl : _ = w := Option.some.inj (he.symm.trans h)
  exact ⟨hd hw, by rw [isTwoWord_eq, wordClass_mkWord, hp]⟩

/-! ### The classes -/

theorem decodeWords_LI (r : RawA) (st : BitVec 3) (p : IWord) : decodeWords (mkWord 0#4 r.toBits st) p = decLI r st := by
  simp [decodeWords]
theorem decodeWords_LK (r : RawK) (st : BitVec 3) (p : IWord) : decodeWords (mkWord 1#4 r.toBits st) p = decLK r st := by
  simp [decodeWords]
theorem decodeWords_LF (r : RawF) (st : BitVec 3) (p : IWord) : decodeWords (mkWord 2#4 r.toBits st) p = decLF r st := by
  simp [decodeWords]
theorem decodeWords_LD (r : RawF) (st : BitVec 3) (p : IWord) : decodeWords (mkWord 3#4 r.toBits st) p = decLD r st := by
  simp [decodeWords]
theorem decodeWords_LM (r : RawM) (st : BitVec 3) (p : IWord) : decodeWords (mkWord 4#4 r.toBits st) p = decLM r st := by
  simp [decodeWords]
theorem decodeWords_LX (r : RawA) (st : BitVec 3) (p : IWord) : decodeWords (mkWord 5#4 r.toBits st) p = decLX r st := by
  simp [decodeWords]
theorem decodeWords_LE (r : RawE) (st : BitVec 3) (p : IWord) : decodeWords (mkWord 6#4 r.toBits st) p = decLE r st := by
  simp [decodeWords]
theorem decodeWords_LW (r : RawA) (st : BitVec 3) (p : IWord) : decodeWords (mkWord 7#4 r.toBits st) p = decLW r p st := by
  simp [decodeWords]
theorem decodeWords_UI (r : RawA) (st : BitVec 3) (p : IWord) : decodeWords (mkWord 8#4 r.toBits st) p = decUI r st := by
  simp [decodeWords]
theorem decodeWords_UK (r : RawK) (st : BitVec 3) (p : IWord) : decodeWords (mkWord 9#4 r.toBits st) p = decUK r st := by
  simp [decodeWords]
theorem decodeWords_UB (r : RawB) (st : BitVec 3) (p : IWord) : decodeWords (mkWord 10#4 r.toBits st) p = decUB r st := by
  simp [decodeWords]
theorem decodeWords_US (r : RawS) (st : BitVec 3) (p : IWord) : decodeWords (mkWord 11#4 r.toBits st) p = decUS r st := by
  simp [decodeWords]
theorem decodeWords_UM (r : RawK) (st : BitVec 3) (p : IWord) : decodeWords (mkWord 12#4 r.toBits st) p = decUM r st := by
  simp [decodeWords]
theorem decodeWords_UY (r : RawY) (st : BitVec 3) (p : IWord) : decodeWords (mkWord 13#4 r.toBits st) p = decUY r st := by
  simp [decodeWords]
theorem decodeWords_UL (r : RawL) (st : BitVec 3) (p : IWord) : decodeWords (mkWord 14#4 r.toBits st) p = decUL r st := by
  simp [decodeWords]
theorem decodeWords_UW (r : RawA) (st : BitVec 3) (p : IWord) : decodeWords (mkWord 15#4 r.toBits st) p = decUW r p st := by
  simp [decodeWords]

theorem roundTrips_LI {i : Instr} {r : RawA} {st : BitVec 3} (he : encode i = some ⟨mkWord 0#4 r.toBits st, none⟩)
    (hd : wellFormed i = true → decLI r st = .instr i) : i.RoundTrips :=
  roundTrips_of_encode he rfl fun hw => (decodeWords_LI r st _).trans (hd hw)
theorem roundTrips_LK {i : Instr} {r : RawK} {st : BitVec 3} (he : encode i = some ⟨mkWord 1#4 r.toBits st, none⟩)
    (hd : wellFormed i = true → decLK r st = .instr i) : i.RoundTrips :=
  roundTrips_of_encode he rfl fun hw => (decodeWords_LK r st _).trans (hd hw)
theorem roundTrips_LF {i : Instr} {r : RawF} {st : BitVec 3} (he : encode i = some ⟨mkWord 2#4 r.toBits st, none⟩)
    (hd : wellFormed i = true → decLF r st = .instr i) : i.RoundTrips :=
  roundTrips_of_encode he rfl fun hw => (decodeWords_LF r st _).trans (hd hw)
theorem roundTrips_LD {i : Instr} {r : RawF} {st : BitVec 3} (he : encode i = some ⟨mkWord 3#4 r.toBits st, none⟩)
    (hd : wellFormed i = true → decLD r st = .instr i) : i.RoundTrips :=
  roundTrips_of_encode he rfl fun hw => (decodeWords_LD r st _).trans (hd hw)
theorem roundTrips_LM {i : Instr} {r : RawM} {st : BitVec 3} (he : encode i = some ⟨mkWord 4#4 r.toBits st, none⟩)
    (hd : wellFormed i = true → decLM r st = .instr i) : i.RoundTrips :=
  roundTrips_of_encode he rfl fun hw => (decodeWords_LM r st _).trans (hd hw)
theorem roundTrips_LX {i : Instr} {r : RawA} {st : BitVec 3} (he : encode i = some ⟨mkWord 5#4 r.toBits st, none⟩)
    (hd : wellFormed i = true → decLX r st = .instr i) : i.RoundTrips :=
  roundTrips_of_encode he rfl fun hw => (decodeWords_LX r st _).trans (hd hw)
theorem roundTrips_LE {i : Instr} {r : RawE} {st : BitVec 3} (he : encode i = some ⟨mkWord 6#4 r.toBits st, none⟩)
    (hd : wellFormed i = true → decLE r st = .instr i) : i.RoundTrips :=
  roundTrips_of_encode he rfl fun hw => (decodeWords_LE r st _).trans (hd hw)
theorem roundTrips_LW {i : Instr} {r : RawA} {st : BitVec 3} {p : IWord}
    (he : encode i = some ⟨mkWord 7#4 r.toBits st, some p⟩) (hd : wellFormed i = true → decLW r p st = .instr i) : i.RoundTrips :=
  roundTrips_of_encode he rfl fun hw => (decodeWords_LW r st p).trans (hd hw)
theorem roundTrips_UI {i : Instr} {r : RawA} {st : BitVec 3} (he : encode i = some ⟨mkWord 8#4 r.toBits st, none⟩)
    (hd : wellFormed i = true → decUI r st = .instr i) : i.RoundTrips :=
  roundTrips_of_encode he rfl fun hw => (decodeWords_UI r st _).trans (hd hw)
theorem roundTrips_UK {i : Instr} {r : RawK} {st : BitVec 3} (he : encode i = some ⟨mkWord 9#4 r.toBits st, none⟩)
    (hd : wellFormed i = true → decUK r st = .instr i) : i.RoundTrips :=
  roundTrips_of_encode he rfl fun hw => (decodeWords_UK r st _).trans (hd hw)
theorem roundTrips_UB {i : Instr} {r : RawB} {st : BitVec 3} (he : encode i = some ⟨mkWord 10#4 r.toBits st, none⟩)
    (hd : wellFormed i = true → decUB r st = .instr i) : i.RoundTrips :=
  roundTrips_of_encode he rfl fun hw => (decodeWords_UB r st _).trans (hd hw)
theorem roundTrips_US {i : Instr} {r : RawS} {st : BitVec 3} (he : encode i = some ⟨mkWord 11#4 r.toBits st, none⟩)
    (hd : wellFormed i = true → decUS r st = .instr i) : i.RoundTrips :=
  roundTrips_of_encode he rfl fun hw => (decodeWords_US r st _).trans (hd hw)
theorem roundTrips_UM {i : Instr} {r : RawK} {st : BitVec 3} (he : encode i = some ⟨mkWord 12#4 r.toBits st, none⟩)
    (hd : wellFormed i = true → decUM r st = .instr i) : i.RoundTrips :=
  roundTrips_of_encode he rfl fun hw => (decodeWords_UM r st _).trans (hd hw)
theorem roundTrips_UY {i : Instr} {r : RawY} {st : BitVec 3} (he : encode i = some ⟨mkWord 13#4 r.toBits st, none⟩)
    (hd : wellFormed i = true → decUY r st = .instr i) : i.RoundTrips :=
  roundTrips_of_encode he rfl fun hw => (decodeWords_UY r st _).trans (hd hw)
theorem roundTrips_UL {i : Instr} {r : RawL} {st : BitVec 3} (he : encode i = some ⟨mkWord 14#4 r.toBits st, none⟩)
    (hd : wellFormed i = true → decUL r st = .instr i) : i.RoundTrips :=
  roundTrips_of_encode he rfl fun hw => (decodeWords_UL r st _).trans (hd hw)
theorem roundTrips_UW {i : Instr} {r : RawA} {st : BitVec 3} {p : IWord}
    (he : encode i = some ⟨mkWord 15#4 r.toBits st, some p⟩) (hd : wellFormed i = true → decUW r p st = .instr i) : i.RoundTrips :=
  roundTrips_of_encode he rfl fun hw => (decodeWords_UW r st p).trans (hd hw)

/-! ### The rows -/

theorem take_above {m n k w : Nat} (x : BitVec m) (y : BitVec n) (h : n ≤ k) :
    (x ++ y).extractLsb' k w = x.extractLsb' (k - n) w := by
  apply BitVec.eq_of_getLsbD_eq
  intro i hi
  have h1 : ¬ k + i < n := by omega
  simp [BitVec.getLsbD_extractLsb', BitVec.getLsbD_append, h1, Nat.sub_add_comm h]

theorem bitB_zero : bitB 0#1 = false := rfl
theorem bitB_one : bitB 1#1 = true := rfl
theorem Rm.code_eq_zero (x : Rm) : x.code = 0#3 ↔ x = .rne := by cases x <;> decide

theorem rmCheck_code_of_isDet {f : Rm → Instr} {rm : Rm} {two : Bool} (h : rm.isDet = true) :
    rmCheck rm.code two (fun rm => if rm.isDet then .instr (f rm) else .bad 0x002#9 two) = .instr (f rm) := by
  simp [rmCheck, h]

theorem Instr.roundTrips (i : Instr) : i.RoundTrips := by
  cases i
  case iadd | isub | imul | imulh | imad | iaddc | imin | imax | iabs | ineg | and | or | xor | andn | not | shl | shr | sar
    | rot | popc | clz | brev | mov | iminUnsigned | imaxUnsigned | imulhUnsigned =>
    rename_i w st
    exact roundTrips_LI rfl fun _ => by cases w <;> rfl
  case iaddI64Imm9 | iaddI32Imm9 | imulI64Imm9 | imulI32Imm9 | andB64Imm9 | orB64Imm9 | xorB64Imm9 | shlB64Imm9 | shrN64Imm9
    | sarI64Imm9 | moviI64 | moviN64 | moviI32 | iminI64Imm9 | imaxI64Imm9 =>
    exact roundTrips_LK rfl fun _ => rfl
  case faddF32 | fsubF32 | fmulF32 | ffmaF32 | ffmsF32 | fnmaF32 | fminF32 | fmaxF32 | fdivF32 | fsqrtF32 | frcpF32 | frsqF32
    | fexpF32 | fex2F32 | flogF32 | ferfF32 =>
    exact roundTrips_LF rfl fun hw => rmCheck_code_of_isDet hw
  case faddF64 | fsubF64 | fmulF64 | ffmaF64 | ffmsF64 | fnmaF64 | fminF64 | fmaxF64 | fdivF64 | fsqrtF64 | frcpF64 | frsqF64
    | fexpF64 | fex2F64 | flogF64 | ferfF64 =>
    exact roundTrips_LD rfl fun hw => rmCheck_code_of_isDet hw
  case ldB64 | stB64 | stt | sttAon | ldgB64 | stgB64 | ldtv | stp | tst | tcom | retr | pref | ldB32 | ldgB32 | stB32 | stgB32 =>
    exact roundTrips_LM rfl fun _ => rfl
  case ldt | stc | lea =>
    rename_i q st
    exact roundTrips_LM rfl fun _ => by cases q <;> rfl
  case cureRst | cureRstRdlast | cureRstRdcnt | fxrd =>
    exact roundTrips_LX rfl fun _ => rfl
  case fclass | fabs | fneg | vfroms | vfromsIdx | lshfl | lpush =>
    rename_i q st
    exact roundTrips_LX rfl fun _ => by cases q <;> rfl
  case icmpEq | icmpNe | icmpLt | icmpLe | icmpLtu | icmpLeu | fcmpEq | fcmpNe | fcmpLt | fcmpLe | fcmpUn | lvoteBallot
    | lvoteAny | lvoteAll | lfirst | mopAnd | mopOr | mopXor | mopAndn | mopNot | mpop | tagrd | tagrdLine | fxclr =>
    exact roundTrips_LX rfl fun _ => by simp [-Nat.reduceAdd, decLX, take_top, take_within, bitB_zero, bitB_one]
  case sfromv | lbcst | tagset =>
    refine roundTrips_LX rfl ?_
    unfold wellFormed
    simp +contextual [-Nat.reduceAdd, decLX]
  case accz | mmaC | mmaQ | mmas | dist | topk | accadj | tapeBr | tapePopbr =>
    exact roundTrips_LE rfl fun _ => by simp [-Nat.reduceAdd, decLE, take_top, take_within]
  case accrd | accwb | accchk | tapeRec | tapePop =>
    refine roundTrips_LE rfl ?_
    unfold wellFormed
    simp +contextual [-Nat.reduceAdd, decLE]
  case iaddI64Imm32 | iaddI32Imm32 | imulI64Imm32 | imulI32Imm32 | andB64Imm32 | orB64Imm32 | xorB64Imm32 | shlB64Imm32
    | shrN64Imm32 | sarI64Imm32 | moviI64Imm32 | moviN64Imm32 | moviI32Imm32 | iminI64Imm32 | imaxI64Imm32 =>
    exact roundTrips_LW rfl fun _ => rfl
  case ldB64Disp | stB64Disp | ldtDisp | sttDisp | sttAonDisp | ldgB64Disp | stgB64Disp | ldtvDisp | stpDisp | tstDisp
    | tcomDisp | retrDisp | prefDisp | stcDisp | leaDisp | ldB32Disp | ldgB32Disp | stB32Disp | stgB32Disp =>
    exact roundTrips_LW rfl fun _ => by simp [-Nat.reduceAdd, decLW, decLW00, decLW01, decLW02, decLW03, decLW04, decLW05,
      decLW06, decLW07, decLW08, decLW09, decLW0A, decLW0B, decLW0C, decLW0D, decLW0E, decLW0F]
  case bfx | bfi | sel | cvt | cvtn | packhb | flg2 | fscale | ftwos | ftwop | frnd | lred | lscan | atom | red | cure =>
    refine roundTrips_LW rfl ?_
    unfold wellFormed
    simp +contextual [-Nat.reduceAdd, decLW, take_top, take_within, Rm.code_eq_zero, rmCheck, codeCheck, decLW20, decLW21,
      decLW22, decLW23, decLW24, decLW25, decLW26, decLW27, decLW28, decLW29, decLW2A, decLW2B, decLW2C, decLW2D, decLW2E,
      decLW2F]
  case sadd | ssub | smul | sand | sor | sxor | sshl | sshr | ssar | smin | smax | sminUnsigned | smaxUnsigned | ssel | smov
    | slea | scmpEq | scmpNe | scmpLt | scmpLe | scmpLtu | scmpLeu =>
    rename_i w st
    exact roundTrips_UI rfl fun _ => by cases w <;> rfl
  case saddI64Imm9 | smulI64Imm9 | sandB64Imm9 | sorB64Imm9 | sxorB64Imm9 | sshlB64Imm9 | sshrN64Imm9 | ssarI64Imm9
    | sminI64Imm9 | smaxI64Imm9 | sminN64Imm9 | smaxN64Imm9 | smoviI64 | smoviN64 =>
    exact roundTrips_UK rfl fun _ => rfl
  case bra | call | ret | join | yield | exit | land | jmpiUniform | jmpiLane =>
    exact roundTrips_UB rfl fun _ => rfl
  case brc | brl =>
    exact roundTrips_UB rfl fun _ => by simp [-Nat.reduceAdd, decUB, take_top, take_within]
  case barInit | barArr | barWait | barSync | barQ | semInit | semAcq | semRel | semTry | hodInit | hodPut | hodGet | hodTry
    | hodClose | fence | wait | accalloc | accfree =>
    refine roundTrips_US rfl ?_
    unfold wellFormed
    simp +contextual [-Nat.reduceAdd, decUS, take_top, take_within, codeCheck]
  case lds | sts | bind | unbind =>
    exact roundTrips_UM rfl fun _ => rfl
  case nop | srseed | splitq | trap | rte | rteKill | bkpt | halt | copyq | copyqBytes | tapeSeal | tapeRev | tapeClose
    | fltrecClaim | rlogClaim | fltdoneAnswer | tapesegAppend | attestRequest =>
    exact roundTrips_UY rfl fun _ => rfl
  case modeTenSet | modeTenClr | modeReg =>
    exact roundTrips_UY rfl fun _ => by simp [-Nat.reduceAdd, decUY, take_top, take_within]
  case sysr | sysw | modeRm | tlbiRange | tlbiAll | tapeOpen =>
    refine roundTrips_UY rfl ?_
    unfold wellFormed
    simp +contextual [-Nat.reduceAdd, decUY, take_top, take_within, take_above, rmCheck, codeCheck]
  case launch | courseRd | courseEnd | rfenceRel =>
    exact roundTrips_UL rfl fun _ => rfl
  case rqmovGive | rqmovTake =>
    exact roundTrips_UL rfl fun _ => by simp [-Nat.reduceAdd, decUL, take_top, take_within, take_above]
  case prio | roleq | collRed | collMaxe | collBcst | putw | sigwSet | sigwAdd =>
    refine roundTrips_UL rfl ?_
    unfold wellFormed
    simp +contextual [-Nat.reduceAdd, decUL, take_top, take_within]
  case saddI64Imm32 | smulI64Imm32 | sandB64Imm32 | sorB64Imm32 | sxorB64Imm32 | sshlB64Imm32 | sshrN64Imm32 | ssarI64Imm32
    | sminI64Imm32 | smaxI64Imm32 | sminN64Imm32 | smaxN64Imm32 | smoviI64Imm32 | smoviN64Imm32 =>
    exact roundTrips_UW rfl fun _ => rfl
  case ldsDisp | stsDisp | bindDisp | unbindDisp | copy =>
    exact roundTrips_UW rfl fun _ => by simp [-Nat.reduceAdd, decUW, take_top, take_within, decUW10, decUW11, decUW12,
      decUW13, decUW20]
  case injectDisarm | injectAccEntry | injectLaneReg | injectLocalLine | injectCopyArm | injectFpArm | injectMatrixArm
    | injectLocalDouble | injectAddrLine | attestQuote | lrecSubmit | wstatClear | hostWrite | hostRead | loadComplete
    | storePerformed | fxFlagWrite | collectionWindowClose | shadowDivergence | trapSlotEntry | debugStep | haltResume
    | arrayRun | quadRendezvous | accallocGrant | ldtvAttempt | arrivalCounted | hodSlotPerformed | copyHodAccept | copySpan
    | tlbiComplete | tapeSealComplete | sigwFlagUpdate | rfenceMarkerDone | collectiveComplete | negativeResponse
    | flitCrcRetry | keyRevoke | keyAssign | launchAccept | launchAdmit | wallPlace | preempt | wallRestore | launchDone
    | courseCommit | syncOpEvaluate | brickKill | controlScrub | machineCheck | powerOnBoot | sagTrip | sagRelease
    | powerSample | thermalThrottle | thermalShutdown | thermalRecover | unassignedEncoding | linkRestore | debugResume
    | tapeRecordComplete | fabricRequestArrival =>
    exact roundTrips_of_encode_none rfl

/-- Settles O1: the words of every row decode to that row, class by class. -/
theorem decodeEncodeRoundTrip : Obligations.DecodeEncodeRoundTrip := by
  unfold Obligations.DecodeEncodeRoundTrip
  intro i w hw he
  exact i.roundTrips w hw he

end Sys2Proof
end
-- ==== Sys2Proof/Proofs/Fetch.lean ====
section
/-!
O3 and O4. Words that the encoder gives some instructions, and the word that a fetch reads.
-/
namespace Sys2Proof

/-- An instruction's words decode to it. -/
theorem decodeWords_of_encode {i : Instr} {w : IWord} {p : Option IWord} (hw : wellFormed i = true) (he : encode i = some ⟨w, p⟩) :
    decodeWords w (p.getD 0#32) = .instr i := (i.roundTrips _ hw he).1

/-- Settles O3: each word is the encoder's for its instruction. -/
theorem wordsFromTheTables : Obligations.WordsFromTheTables := by
  unfold Obligations.WordsFromTheTables
  refine ⟨?_, ?_, ?_, ?_, ?_⟩
  · exact decodeWords_of_encode (i := .moviI64 1#6 0x1FF#9 0#3) (p := none) rfl (by decide)
  · exact decodeWords_of_encode (i := .iadd 5#6 1#6 3#6 true 0#3) (p := none) rfl (by decide)
  · exact decodeWords_of_encode (i := .iaddc 7#6 1#6 3#6 true 0#3) (p := none) rfl (by decide)
  · exact decodeWords_of_encode (i := .bfx 3#6 1#6 8#6 11#6 .n64 0#3) (p := some 0x000C020B#32) (by decide) (by decide)
  · exact decodeWords_of_encode (i := .scmpLt 7#6 2#6 3#6 true 0#3) (p := none) rfl (by decide)

namespace Machine

/-- What a fetch's read leaves behind: its mark on pending cells, and the record of what left the module. -/
def fetchRead (s : State) (b pa : Nat) : State := observe (noteRead s (.phys pa) 4) (some b) (.phys pa) 4

theorem fetchRead_eq (s : State) (b pa : Nat) :
    fetchRead s b pa = { s with sent := (noteRead s (.phys pa) 4).sent, pairs := (fetchRead s b pa).pairs } := by
  rw [fetchRead, observe_eq, noteRead, sendOut_eq]

@[simp] theorem fetchRead_mem (s : State) (b pa : Nat) : (fetchRead s b pa).mem = s.mem := by rw [fetchRead_eq]
@[simp] theorem fetchRead_bricks (s : State) (b pa : Nat) : (fetchRead s b pa).bricks = s.bricks := by rw [fetchRead_eq]
@[simp] theorem byteAt_fetchRead (s : State) (b pa : Nat) (l : Loc) : byteAt (fetchRead s b pa) l = byteAt s l := by
  rw [fetchRead_eq]; rfl
@[simp] theorem launchOf_fetchRead (s : State) (b pa : Nat) (br : Brick) : launchOf (fetchRead s b pa) br = launchOf s br := by
  rw [fetchRead_eq]; rfl

/-- Where no relocation of the variant stands, a byte of code is the byte in memory (R290). -/
theorem codeByte_of_not_patched {s : State} {br : Brick} {va : Nat} (pa : Nat)
    (h : ∀ l, launchOf s br = some l → tabGet? l.patch (2 ^ 57 * dieOfCore br.core + va) = none) :
    codeByte s br va pa = byteAt s (.phys pa) := by
  unfold codeByte
  cases hl : launchOf s br with
  | none => rfl
  | some l => rw [Option.bind_some, h l hl]

/-- A fetch from a line that is whole: the poison mark decides. -/
theorem fetchWord_whole {s s' : State} {c : Ctx} {va pa : Nat} (two : Bool) (ht : brickTranslate s c kExec va = (s', .ok pa))
    (hd : locDown s' (.phys pa) = false) (ho : outCheck s' (.phys pa) = none)
    (he : (metaAt s' (.phys (pa / 64 * 64))).err = []) :
    fetchWord s c two va = (fetchRead s' c.b pa,
      if (metaAt s' (.phys (pa / 64 * 64))).psn
      then .error (.cause 0x146#9 two (BitVec.ofNat 64 (structOf (.phys pa))) (BitVec.ofNat 64 (Loc.phys pa).line.report))
      else .ok (wordOfBytes (codeByte (fetchRead s' c.b pa) c.br va pa) (codeByte (fetchRead s' c.b pa) c.br (va + 1) (pa + 1))
        (codeByte (fetchRead s' c.b pa) c.br (va + 2) (pa + 2)) (codeByte (fetchRead s' c.b pa) c.br (va + 3) (pa + 3)))) := by
  have hc : checkLine (noteRead s' (.phys pa) 4) (.phys (pa / 64 * 64)) =
      (noteRead s' (.phys pa) 4, (metaAt s' (.phys (pa / 64 * 64))).psn) := by
    rw [noteRead, sendOut_eq]
    exact checkLine_clean he
  simp only [fetchWord, ht, hd, ho, Bool.false_eq_true, if_false, Loc.line, hc, apply_ite (Prod.mk _)]
  rfl

/-- Settles O4: past the translation and the checks of the way there is the read of one whole line. -/
theorem fetchReadsTheWord : Obligations.FetchReadsTheWord := by
  unfold Obligations.FetchReadsTheWord
  intro s c two va s' pa ht hd
  refine ⟨fun x hx => by simp [fetchWord, ht, hd, hx], fun ho he => ?_⟩
  rw [fetchWord_whole two ht hd ho he]
  refine ⟨fun hp => ?_, fun hp hpatch => ?_⟩
  · exact ⟨fetchRead s' c.b pa, _, _, by rw [if_pos hp], fetchRead_mem .., fetchRead_bricks ..⟩
  · refine ⟨fetchRead s' c.b pa, ?_, fetchRead_mem .., fetchRead_bricks ..⟩
    have hb : ∀ i, i < 4 → codeByte (fetchRead s' c.b pa) c.br (va + i) (pa + i) = byteAt s' (.phys (pa + i)) := fun i hi => by
      rw [codeByte_of_not_patched (pa + i) fun l hl => hpatch l (by simpa using hl) i hi, byteAt_fetchRead]
    have h0 : codeByte _ c.br va pa = byteAt s' (.phys pa) := hb 0 (by omega)
    rw [if_neg (by simp [hp]), h0, hb 1 (by omega), hb 2 (by omega), hb 3 (by omega)]
    rfl

end Machine
end Sys2Proof
end
-- ==== Sys2Proof/Proofs/IntegerResults.lean ====
section
/-!
O11 and O12. A form at a fixed latency meets its row of a table when its own part delivers writes that land as the row says
(`meetsRow_of_fixed`). The forms have a few shapes; for each shape what is left of a row is that the operation computes the exact
result, and the tables are run through with that.
-/
namespace Sys2Proof.Machine

/-- Instruction i completes as a row x of a table says. -/
def MeetsRow (i : Instr) (x : FixedSpec) : Prop :=
  ∀ s c, Issues s c x.form → c.br.dpFault = none → Retires i s c x.form (Delivers s c x.form x.lat [] false (x.regs c))

theorem completes_iff (table : Instr → FixedSpec → Prop) : Completes table ↔ ∀ i x, table i x → MeetsRow i x := Iff.rfl

theorem meetsRow_of_fixed {i : Instr} {x : FixedSpec} {ws : Ctx → List RegWrite}
    (he : ∀ s, exec i s = issueForm s x.form (fun c => fixed s c x.form x.lat (ws c)))
    (h : ∀ c, LandsAs c.br (ws c) (x.regs c)) : MeetsRow i x :=
  fun s c hi hd => retires_fixed hi hd (he s) rfl (h c)

/-! ### The operations compute the exact results -/

/-- Operation o computes ex at every width. -/
def IOp.Computes (o : IOp) (ex : (n : Nat) → BitVec n → BitVec n → BitVec n) : Prop := ∀ n, 0 < n → ∀ x y, ex n x y = iop o x y
def UOp.Computes (o : UOp) (ex : (n : Nat) → BitVec n → BitVec n) : Prop := ∀ n x, ex n x = uop o x
/-- Condition cc decides R at every width. -/
def Cond.Decides (cc : Cond) (R : (n : Nat) → BitVec n → BitVec n → Prop) : Prop := ∀ n x y, R n x y ↔ condHolds cc x y = true

theorem computes_add : IOp.Computes .add exAdd := fun _ _ => exAdd_eq
theorem computes_sub : IOp.Computes .sub exSub := fun _ _ => exSub_eq
theorem computes_mul : IOp.Computes .mul exMul := fun _ _ => exMul_eq
theorem computes_mulHigh : IOp.Computes .mulhS exMulHigh := fun _ _ => exMulHigh_eq
theorem computes_mulHighU : IOp.Computes .mulhU exMulHighU := fun _ _ => exMulHighU_eq
theorem computes_carry : IOp.Computes .addc exCarry := fun _ _ => exCarry_eq
theorem computes_min : IOp.Computes .minS exMin := fun _ _ => exMin_eq
theorem computes_max : IOp.Computes .maxS exMax := fun _ _ => exMax_eq
theorem computes_minU : IOp.Computes .minU exMinU := fun _ _ => exMinU_eq
theorem computes_maxU : IOp.Computes .maxU exMaxU := fun _ _ => exMaxU_eq
theorem computes_and : IOp.Computes .and exAnd := fun _ _ _ _ => rfl
theorem computes_or : IOp.Computes .or exOr := fun _ _ _ _ => rfl
theorem computes_xor : IOp.Computes .xor exXor := fun _ _ _ _ => rfl
theorem computes_andn : IOp.Computes .andn exAndn := fun _ _ _ _ => rfl
theorem computes_shl : IOp.Computes .shl exShl := fun _ _ => exShl_eq
theorem computes_shr : IOp.Computes .shr exShr := fun _ _ => exShr_eq
theorem computes_sar : IOp.Computes .sar exSar := fun _ _ => exSar_eq
theorem computes_rot : IOp.Computes .rot exRot := fun _ => exRot_eq

theorem computes_abs : UOp.Computes .abs exAbs := fun _ => exAbs_eq
theorem computes_neg : UOp.Computes .neg exNeg := fun _ => exNeg_eq
theorem computes_not : UOp.Computes .not exNot := fun _ _ => rfl
theorem computes_popc : UOp.Computes .popc exPopc := fun _ => exPopc_eq
theorem computes_clz : UOp.Computes .clz exClz := fun _ => exClz_eq
theorem computes_brev : UOp.Computes .brev exBrev := fun _ _ => rfl

theorem decides_eq : Cond.Decides .eq (fun _ x y => x = y) := fun _ _ _ => by simp [condHolds]
theorem decides_ne : Cond.Decides .ne (fun _ x y => x ≠ y) := fun _ _ _ => by simp [condHolds]
theorem decides_lt : Cond.Decides .lt (fun _ x y => x.toInt < y.toInt) := fun _ _ _ => by simp [condHolds, BitVec.slt_eq_decide]
theorem decides_le : Cond.Decides .le (fun _ x y => x.toInt ≤ y.toInt) := fun _ _ _ => by simp [condHolds, BitVec.sle_eq_decide]
theorem decides_ltu : Cond.Decides .ltu (fun _ x y => x.toNat < y.toNat) := fun _ _ _ => by simp [condHolds, BitVec.ult_eq_decide]
theorem decides_leu : Cond.Decides .leu (fun _ x y => x.toNat ≤ y.toNat) := fun _ _ _ => by simp [condHolds, BitVec.ule_eq_decide]

/-! ### Shapes of lane forms -/

/-- The writes of a form that works on whole registers (P) or on halves. -/
theorem landsAs_lanes (P : Prop) [Decidable P] (c : Ctx) (d : Reg) (v : Nat → W64) (g : Nat → Bool) (v' : Nat → Nat → W32)
    (g' : Nat → Nat → Bool) : LandsAs c.br (if P then laneWrites64 c d v g else laneWrites32 c d v' g')
      (if P then (regsOf c.br).put64 c d v g else (regsOf c.br).put32 c d v' g') := by
  split
  · exact landsAs_laneWrites64 c d v g
  · exact landsAs_laneWrites32 c d v' g'

section
variable {i : Instr} {o : IOp} {ex : (n : Nat) → BitVec n → BitVec n → BitVec n} {lat : Nat} {two w : Bool} {d a b : Reg}
  {st : BitVec 3}

theorem meets_lane2 (ho : o.Computes ex) (he : ∀ s, exec i s = laneBin o lat d a b w st s) :
    MeetsRow i (lane2 ex lat d a b w st) := by
  refine meetsRow_of_fixed he fun c => ?_
  simp only [lane2, ho 64 (by decide), ho 32 (by decide)]
  exact landsAs_lanes _ c d _ _ _ _

theorem meets_lane1 {o : UOp} {ex : (n : Nat) → BitVec n → BitVec n} (ho : o.Computes ex)
    (he : ∀ s, exec i s = laneUn o lat d a w st s) : MeetsRow i (lane1 ex lat d a w st) := by
  refine meetsRow_of_fixed he fun c => ?_
  simp only [lane1, ho 64, ho 32]
  exact landsAs_lanes _ c d _ _ _ _

theorem meets_laneK64 {k : W64} (ho : o.Computes ex) (he : ∀ s, exec i s = laneImm64 o lat two d a k st s) :
    MeetsRow i (laneK64 ex lat two d a k st) := by
  refine meetsRow_of_fixed he fun c => ?_
  simp only [laneK64, ho 64 (by decide)]
  exact landsAs_laneWrites64 c d _ _

theorem meets_laneK32 {k : W32} (ho : o.Computes ex) (he : ∀ s, exec i s = laneImm32 o lat two d a k st s) :
    MeetsRow i (laneK32 ex lat two d a k st) := by
  refine meetsRow_of_fixed he fun c => ?_
  simp only [laneK32, ho 32 (by decide)]
  exact landsAs_laneWrites32 c d _ _

theorem meets_laneI64 {k : W64} (he : ∀ s, exec i s = laneMovi64 two d k st s) : MeetsRow i (laneI64 two d k st) :=
  meetsRow_of_fixed he fun c => landsAs_laneWrites64 c d _ _

theorem meets_laneI32 {k : W32} (he : ∀ s, exec i s = laneMovi32 two d k st s) : MeetsRow i (laneI32 two d k st) :=
  meetsRow_of_fixed he fun c => landsAs_laneWrites32 c d _ _

end

/-! ### The lane forms -/

theorem completes_laneInt : Completes LaneInt := by
  rw [completes_iff]
  intro i x h
  cases h
  case iadd => exact meets_lane2 computes_add fun _ => rfl
  case isub => exact meets_lane2 computes_sub fun _ => rfl
  case imul => exact meets_lane2 computes_mul fun _ => rfl
  case imulh => exact meets_lane2 computes_mulHigh fun _ => rfl
  case imulhUnsigned => exact meets_lane2 computes_mulHighU fun _ => rfl
  case iaddc => exact meets_lane2 computes_carry fun _ => rfl
  case imin => exact meets_lane2 computes_min fun _ => rfl
  case imax => exact meets_lane2 computes_max fun _ => rfl
  case iminUnsigned => exact meets_lane2 computes_minU fun _ => rfl
  case imaxUnsigned => exact meets_lane2 computes_maxU fun _ => rfl
  case and => exact meets_lane2 computes_and fun _ => rfl
  case or => exact meets_lane2 computes_or fun _ => rfl
  case xor => exact meets_lane2 computes_xor fun _ => rfl
  case andn => exact meets_lane2 computes_andn fun _ => rfl
  case shl => exact meets_lane2 computes_shl fun _ => rfl
  case shr => exact meets_lane2 computes_shr fun _ => rfl
  case sar => exact meets_lane2 computes_sar fun _ => rfl
  case rot => exact meets_lane2 computes_rot fun _ => rfl
  case iabs => exact meets_lane1 computes_abs fun _ => rfl
  case ineg => exact meets_lane1 computes_neg fun _ => rfl
  case not => exact meets_lane1 computes_not fun _ => rfl
  case popc => exact meets_lane1 computes_popc fun _ => rfl
  case clz => exact meets_lane1 computes_clz fun _ => rfl
  case brev => exact meets_lane1 computes_brev fun _ => rfl
  case imad d a b w st =>
    refine meetsRow_of_fixed (fun _ => rfl) fun c => ?_
    simp only [exAdd_eq, exMul_eq]
    exact landsAs_lanes _ c d _ _ _ _
  case bfx d a pos len1 ty st =>
    refine meetsRow_of_fixed (fun _ => rfl) fun c => ?_
    simp only [exBfx_eq _ _ _ (Nat.succ_pos len1.toNat)]
    exact landsAs_lanes _ c d _ _ _ _
  case bfi d a pos len1 ty st =>
    refine meetsRow_of_fixed (fun _ => rfl) fun c => ?_
    simp only [exBfi_eq]
    exact landsAs_lanes _ c d _ _ _ _

theorem completes_laneImm : Completes LaneImm := by
  rw [completes_iff]
  intro i x h
  cases h
  case iaddI64Imm9 | iaddI64Imm32 => exact meets_laneK64 computes_add fun _ => rfl
  case iaddI32Imm9 | iaddI32Imm32 => exact meets_laneK32 computes_add fun _ => rfl
  case imulI64Imm9 | imulI64Imm32 => exact meets_laneK64 computes_mul fun _ => rfl
  case imulI32Imm9 | imulI32Imm32 => exact meets_laneK32 computes_mul fun _ => rfl
  case andB64Imm9 | andB64Imm32 => exact meets_laneK64 computes_and fun _ => rfl
  case orB64Imm9 | orB64Imm32 => exact meets_laneK64 computes_or fun _ => rfl
  case xorB64Imm9 | xorB64Imm32 => exact meets_laneK64 computes_xor fun _ => rfl
  case shlB64Imm9 | shlB64Imm32 => exact meets_laneK64 computes_shl fun _ => rfl
  case shrN64Imm9 | shrN64Imm32 => exact meets_laneK64 computes_shr fun _ => rfl
  case sarI64Imm9 | sarI64Imm32 => exact meets_laneK64 computes_sar fun _ => rfl
  case iminI64Imm9 | iminI64Imm32 => exact meets_laneK64 computes_min fun _ => rfl
  case imaxI64Imm9 | imaxI64Imm32 => exact meets_laneK64 computes_max fun _ => rfl
  case moviI64 | moviN64 | moviI64Imm32 | moviN64Imm32 => exact meets_laneI64 fun _ => rfl
  case moviI32 | moviI32Imm32 => exact meets_laneI32 fun _ => rfl

/-- Settles O11: the two tables, row by row. -/
theorem laneIntegerResults : Obligations.LaneIntegerResults := by
  unfold Obligations.LaneIntegerResults
  exact ⟨completes_laneInt, completes_laneImm⟩

/-! ### Shapes of uniform forms -/

section
variable {i : Instr} {o : IOp} {ex : (n : Nat) → BitVec n → BitVec n → BitVec n} {lat : Nat} {two w : Bool} {d a b : Reg}
  {st : BitVec 3}

/-- A uniform form that applies f64 to whole registers or f32 to their low halves. -/
theorem meets_uni2 {f64 : W64 → W64 → W64} {f32 : W32 → W32 → W32} (h64 : ∀ x y, ex 64 x y = f64 x y)
    (h32 : ∀ x y, ex 32 x y = f32 x y)
    (he : ∀ s, exec i s = issueForm s (uniForm false st [a, b] d) (fun c => fixed s c (uniForm false st [a, b] d) lat
      [c.putU d (uniApply w f64 f32 (c.u a) (c.u b)) (c.uG a || c.uG b)])) : MeetsRow i (uni2 ex lat d a b w st) := by
  refine meetsRow_of_fixed he fun c => ?_
  simp only [uni2, h64, h32]
  exact landsAs_uni c d _ _

theorem meets_uniBin (ho : o.Computes ex) (he : ∀ s, exec i s = uniBin o lat d a b w st s) :
    MeetsRow i (uni2 ex lat d a b w st) :=
  meets_uni2 (ho 64 (by decide)) (ho 32 (by decide)) he

/-- The 0 or 1 of a comparison of whole registers or of their low halves. -/
theorem uniApply_cond (cc : Cond) (w : Bool) (x y : W64) :
    (if (if w then condHolds cc x y else condHolds cc (x.setWidth 32) (y.setWidth 32)) then 1#64 else 0#64) =
      uniApply w (fun x y => if condHolds cc x y then 1#64 else 0#64) (fun x y => if condHolds cc x y then 1#32 else 0#32) x y := by
  cases w
  · cases h : condHolds cc (x.setWidth 32) (y.setWidth 32) <;> simp [uniApply, h]
  · rfl

theorem meets_uniCmp {cc : Cond} {R : (n : Nat) → BitVec n → BitVec n → Prop} [∀ n x y, Decidable (R n x y)] (hR : cc.Decides R)
    (he : ∀ s, exec i s = uniCmp cc d a b w st s) :
    MeetsRow i (uni2 (fun n x y => if R n x y then BitVec.ofNat n 1 else 0#n) 1 d a b w st) := by
  refine meets_uni2 (fun x y => if_congr (hR 64 x y) rfl rfl) (fun x y => if_congr (hR 32 x y) rfl rfl) fun s => ?_
  simp only [he, uniCmp, uniApply_cond]

theorem meets_uniK {k : W64} (ho : o.Computes ex) (he : ∀ s, exec i s = uniImm o lat two d a k st s) :
    MeetsRow i (uniK ex lat two d a k st) := by
  refine meetsRow_of_fixed he fun c => ?_
  simp only [uniK, ho 64 (by decide)]
  exact landsAs_uni c d _ _

theorem meets_uniI {k : W64} (he : ∀ s, exec i s = uniMovi two d k st s) : MeetsRow i (uniI two d k st) :=
  meetsRow_of_fixed he fun c => landsAs_uni c d _ _

end

/-- A sum with a count scaled by a power of two. -/
theorem ofNat_add_scaled {n : Nat} (k : Nat) (x y : BitVec n) : BitVec.ofNat n (x.toNat + 2 ^ k * y.toNat) = x + (y <<< k) := by
  apply BitVec.eq_of_toNat_eq
  simp [BitVec.toNat_add, Nat.shiftLeft_eq, Nat.mul_comm]

/-- The low half of a register widened is zero when that half is. -/
theorem setWidth_setWidth_ne_zero (x : W64) : (x.setWidth 32).setWidth 64 ≠ 0#64 ↔ x.setWidth 32 ≠ 0#32 := by
  rw [not_iff_not, ← BitVec.toNat_inj, ← BitVec.toNat_inj]
  simp only [BitVec.toNat_setWidth, BitVec.toNat_ofNat]
  omega

/-! ### The uniform forms -/

theorem completes_uniInt : Completes UniInt := by
  rw [completes_iff]
  intro i x h
  cases h
  case sadd => exact meets_uniBin computes_add fun _ => rfl
  case ssub => exact meets_uniBin computes_sub fun _ => rfl
  case smul => exact meets_uniBin computes_mul fun _ => rfl
  case sand => exact meets_uniBin computes_and fun _ => rfl
  case sor => exact meets_uniBin computes_or fun _ => rfl
  case sxor => exact meets_uniBin computes_xor fun _ => rfl
  case sshl => exact meets_uniBin computes_shl fun _ => rfl
  case sshr => exact meets_uniBin computes_shr fun _ => rfl
  case ssar => exact meets_uniBin computes_sar fun _ => rfl
  case smin => exact meets_uniBin computes_min fun _ => rfl
  case smax => exact meets_uniBin computes_max fun _ => rfl
  case sminUnsigned => exact meets_uniBin computes_minU fun _ => rfl
  case smaxUnsigned => exact meets_uniBin computes_maxU fun _ => rfl
  case scmpEq => exact meets_uniCmp decides_eq fun _ => rfl
  case scmpNe => exact meets_uniCmp decides_ne fun _ => rfl
  case scmpLt => exact meets_uniCmp decides_lt fun _ => rfl
  case scmpLe => exact meets_uniCmp decides_le fun _ => rfl
  case scmpLtu => exact meets_uniCmp decides_ltu fun _ => rfl
  case scmpLeu => exact meets_uniCmp decides_leu fun _ => rfl
  case smov d a w st => exact meetsRow_of_fixed (fun _ => rfl) fun c => landsAs_uni c d _ _
  case slea => exact meets_uni2 (ofNat_add_scaled 3) (ofNat_add_scaled 2) fun _ => rfl
  case ssel d a b w st =>
    refine meetsRow_of_fixed (fun _ => rfl) fun c => ?_
    cases w
    · simp only [Bool.false_eq_true, if_false, setWidth_setWidth_ne_zero, bne_iff_ne]
      exact landsAs_uni c d _ _
    · simp only [if_true, bne_iff_ne]
      exact landsAs_uni c d _ _
  case saddI64Imm9 | saddI64Imm32 => exact meets_uniK computes_add fun _ => rfl
  case smulI64Imm9 | smulI64Imm32 => exact meets_uniK computes_mul fun _ => rfl
  case sandB64Imm9 | sandB64Imm32 => exact meets_uniK computes_and fun _ => rfl
  case sorB64Imm9 | sorB64Imm32 => exact meets_uniK computes_or fun _ => rfl
  case sxorB64Imm9 | sxorB64Imm32 => exact meets_uniK computes_xor fun _ => rfl
  case sshlB64Imm9 | sshlB64Imm32 => exact meets_uniK computes_shl fun _ => rfl
  case sshrN64Imm9 | sshrN64Imm32 => exact meets_uniK computes_shr fun _ => rfl
  case ssarI64Imm9 | ssarI64Imm32 => exact meets_uniK computes_sar fun _ => rfl
  case sminI64Imm9 | sminI64Imm32 => exact meets_uniK computes_min fun _ => rfl
  case smaxI64Imm9 | smaxI64Imm32 => exact meets_uniK computes_max fun _ => rfl
  case sminN64Imm9 | sminN64Imm32 => exact meets_uniK computes_minU fun _ => rfl
  case smaxN64Imm9 | smaxN64Imm32 => exact meets_uniK computes_maxU fun _ => rfl
  case smoviI64 | smoviN64 | smoviI64Imm32 | smoviN64Imm32 => exact meets_uniI fun _ => rfl

/-- Settles O12: the table, row by row. -/
theorem uniformIntegerResults : Obligations.UniformIntegerResults := by
  unfold Obligations.UniformIntegerResults
  exact completes_uniInt

end Sys2Proof.Machine
end
-- ==== Sys2Proof/Proofs/Checks.lean ====
section
/-!
O57. The checks before a form's own part, one after the other. Each check is given by what makes it fire and what it then reports; the
statement runs down the chain of `precheck`. The two checks of halves, for unwritten and for poisoned ones, look for the first register
of a list with a thread in which a condition holds (`firstThread`).
-/
namespace Sys2Proof.Machine

/-! ### The lowest thread -/

/-- The lowest of 32 threads for which p holds. -/
def Lowest (p : Nat → Bool) (t : Nat) : Prop := t < 32 ∧ p t = true ∧ ∀ t', t' < t → p t' = false

/-- The report of a check that p fails in some threads: from the lowest of them and their number. -/
def firstThread (p : Nat → Bool) (report : Nat → Nat → TrapReq) : Option TrapReq :=
  ((List.range 32).find? p).map (fun t => report t ((List.range 32).filter p).length)

theorem firstThread_eq_none {p : Nat → Bool} {report : Nat → Nat → TrapReq} :
    firstThread p report = none ↔ ∀ t, t < 32 → p t = false := by
  simp [firstThread]

theorem firstThread_eq_some {p : Nat → Bool} {report : Nat → Nat → TrapReq} {q : TrapReq} :
    firstThread p report = some q ↔ ∃ t, Lowest p t ∧ q = report t ((List.range 32).filter p).length := by
  rw [firstThread, Option.map_eq_some_iff]
  refine exists_congr fun t => and_congr ?_ eq_comm
  rw [List.find?_range_eq_some, List.mem_range, and_left_comm]
  simp [Lowest]

/-- A list of threads that satisfy p, taken apart. -/
theorem firstThread_eq_match (p : Nat → Bool) (report : Nat → Nat → TrapReq) :
    firstThread p report = match (List.range 32).filter p with
      | [] => none
      | t :: ts => some (report t (ts.length + 1)) := by
  rw [firstThread, ← List.head?_filter]
  cases (List.range 32).filter p <;> rfl

/-! ### Unwritten and poisoned halves (R103, R362) -/

/-- Thread t is active and has an unwritten half among those that an entry of a form's list has checked. -/
def rawIn (c : Ctx) (x : Nat × Bool × Bool) (t : Nat) : Bool :=
  tbit c.sp.mask t && (x.2.1 && (c.br.half (physReg c.k x.1) t 0).u || x.2.2 && (c.br.half (physReg c.k x.1) t 1).u)

/-- The form reads a poisoned half of lane register r in thread t. -/
def poisonedIn (c : Ctx) (f : Form) (r t : Nat) : Bool :=
  tbit (f.readers c) t && ((f.halves c r).1 && (c.br.half (physReg c.k r) t 0).p || (f.halves c r).2 && (c.br.half (physReg c.k r) t 1).p)

theorem unwrittenThreads_eq (c : Ctx) (x : Nat × Bool × Bool) :
    unwrittenThreads c (physReg c.k x.1) x.2.1 x.2.2 = (List.range 32).filter (rawIn c x) := by
  rw [unwrittenThreads, threadsOf, List.filter_filter]
  exact List.filter_congr fun t _ => Bool.and_comm _ _

theorem poisonedThreads_eq (c : Ctx) (f : Form) (r : Nat) :
    poisonedThreads c (f.readers c) (physReg c.k r) (f.halves c r).1 (f.halves c r).2 = (List.range 32).filter (poisonedIn c f r) := by
  rw [poisonedThreads, threadsOf, List.filter_filter]
  exact List.filter_congr fun t _ => Bool.and_comm _ _

/-- The report of unwritten halves of one register. -/
def rawReport (c : Ctx) (x : Nat × Bool × Bool) : Option TrapReq :=
  firstThread (rawIn c x) fun t n => ⟨0x048#9, x.1, t, n, none, 0, 0⟩

/-- The report of poisoned halves of lane register r in n threads, t the lowest. -/
def poisonRec (r t n : Nat) : TrapReq := ⟨0x146#9, 0, t, n, none, 0, BitVec.ofNat 64 r⟩

/-- The report of poisoned halves of one register, for a lane register. -/
def poisonReport (c : Ctx) (f : Form) : RName → Option TrapReq
  | .lane r => firstThread (poisonedIn c f r) (poisonRec r)
  | _ => none

theorem poisonReport_lane (c : Ctx) (f : Form) (r : Nat) :
    poisonReport c f (.lane r) = firstThread (poisonedIn c f r) (poisonRec r) := rfl

theorem unwrittenTrap_eq (c : Ctx) (l : List (Nat × Bool × Bool)) : unwrittenTrap c l = l.findSome? (rawReport c) := by
  induction l with
  | nil => rfl
  | cons x l ih =>
    simp only [unwrittenTrap, unwrittenThreads_eq, ih, List.findSome?_cons, rawReport, firstThread_eq_match]
    cases (List.range 32).filter (rawIn c x) <;> rfl

theorem poisonTrap_eq (c : Ctx) (f : Form) (l : List RName) : poisonTrap c f l = l.findSome? (poisonReport c f) := by
  induction l with
  | nil => rfl
  | cons n l ih =>
    cases n with
    | lane r =>
      simp only [poisonTrap, poisonedThreads_eq, ih, List.findSome?_cons, poisonReport_lane, firstThread_eq_match]
      cases (List.range 32).filter (poisonedIn c f r) <;> rfl
    | uni _ => exact ih
    | msk _ => exact ih

theorem unwrittenTrap_eq_none {c : Ctx} {l : List (Nat × Bool × Bool)} :
    unwrittenTrap c l = none ↔ ¬ ∃ x ∈ l, ∃ t, t < 32 ∧ rawIn c x t = true := by
  simp [unwrittenTrap_eq, rawReport, firstThread_eq_none]

theorem poisonTrap_eq_none {c : Ctx} {f : Form} {l : List RName} :
    poisonTrap c f l = none ↔ ¬ ∃ r, RName.lane r ∈ l ∧ ∃ t, t < 32 ∧ poisonedIn c f r t = true := by
  rw [poisonTrap_eq, List.findSome?_eq_none_iff]
  constructor
  · rintro h ⟨r, hr, t, ht, hp⟩
    have hn := h _ hr
    rw [poisonReport_lane, firstThread_eq_none] at hn
    simp [hn t ht] at hp
  · intro h n hn
    cases n with
    | lane r =>
      rw [poisonReport_lane, firstThread_eq_none]
      exact fun t ht => by simpa using fun hp => h ⟨r, hn, t, ht, hp⟩
    | uni _ => rfl
    | msk _ => rfl

/-- The unwritten check reports the first register of its list that has an unwritten half in an active thread. -/
theorem unwrittenTrap_of_exists {c : Ctx} {chk : List (Nat × Bool × Bool)} (h : ∃ x ∈ chk, ∃ t, t < 32 ∧ rawIn c x t = true) :
    ∃ l x l' t, chk = l ++ x :: l' ∧ (∀ y ∈ l, ∀ t, t < 32 → rawIn c y t = false) ∧ Lowest (rawIn c x) t ∧
      unwrittenTrap c chk = some ⟨0x048#9, x.1, t, ((List.range 32).filter (rawIn c x)).length, none, 0, 0⟩ := by
  obtain ⟨q, hq⟩ := Option.ne_none_iff_exists'.1 fun hn => unwrittenTrap_eq_none.1 hn h
  obtain ⟨l, x, l', he, hx, hl⟩ := List.findSome?_eq_some_iff.1 ((unwrittenTrap_eq c chk).symm.trans hq)
  obtain ⟨t, ht, rfl⟩ := firstThread_eq_some.1 hx
  exact ⟨l, x, l', t, he, fun y hy => firstThread_eq_none.1 (hl y hy), ht, hq⟩

/-- The poison check reports the first lane register that the form reads a poisoned half of. -/
theorem poisonTrap_of_exists {c : Ctx} {f : Form} {rd : List RName} (h : ∃ r, RName.lane r ∈ rd ∧ ∃ t, t < 32 ∧ poisonedIn c f r t = true) :
    ∃ l r l' t, rd = l ++ .lane r :: l' ∧ (∀ q, RName.lane q ∈ l → ∀ t, t < 32 → poisonedIn c f q t = false) ∧
      Lowest (poisonedIn c f r) t ∧
      poisonTrap c f rd = some ⟨0x146#9, 0, t, ((List.range 32).filter (poisonedIn c f r)).length, none, 0, BitVec.ofNat 64 r⟩ := by
  obtain ⟨q, hq⟩ := Option.ne_none_iff_exists'.1 fun hn => poisonTrap_eq_none.1 hn h
  obtain ⟨l, n, l', he, hn, hl⟩ := List.findSome?_eq_some_iff.1 ((poisonTrap_eq c f rd).symm.trans hq)
  cases n with
  | lane r =>
    rw [poisonReport_lane, firstThread_eq_some] at hn
    obtain ⟨t, ht, rfl⟩ := hn
    refine ⟨l, r, l', t, he, fun q hq => ?_, ht, hq⟩
    have hn := hl _ hq
    rwa [poisonReport_lane, firstThread_eq_none] at hn
  | uni _ => cases hn
  | msk _ => cases hn

/-! ### Pending results and marks (R35, R200) -/

theorem pendingFor_iff (c : Ctx) (ts : BitVec 32) (n : RName) : pendingFor c ts n = true ↔ n ≠ .uni 0 ∧
    ((∃ p ∈ c.br.pend, n ∈ p.names ∧ (∀ u, n = .uni u → p.writer = c.k) ∧ ((∀ u, n ≠ .uni u) → c.k ∈ p.owners)) ∨
     (∃ m ∈ c.br.marks, m.name = n ∧ (∀ u, n = .uni u → m.split = c.k) ∧ ((∀ u, n ≠ .uni u) → m.threads &&& ts ≠ 0))) := by
  cases n <;> simp [pendingFor]

/-- The registers with a result or a mark pending, those read before those written. -/
def pendings (c : Ctx) (f : Form) : List RName :=
  (f.rd.map (physName c.k)).filter (pendingFor c (f.readers c)) ++ (f.wr.map (physName c.k)).filter (pendingFor c c.sp.mask)

theorem stalled_eq (c : Ctx) (f : Form) : stalled c f = (pendings c f).head? := by
  rw [pendings, List.head?_append, List.head?_filter, List.head?_filter]
  rfl

/-! ### The checks that need no register's contents (R52, R108) -/

/-- A register number of the word that names one of the handler's own (R352). -/
def ownReg (c : Ctx) (r : Nat) : Prop := c.k = handlerSplit ∧ 56 ≤ r ∧ r < 64

/-- The form names a register outside the allotment. -/
def outsideAllotment (c : Ctx) (f : Form) : Prop :=
  (∃ r ∈ f.lanes, 8 * c.br.granNow ≤ r ∧ ¬ ownReg c r) ∨ (∃ r ∈ f.unis, r ≠ 0 ∧ c.br.unis ≤ r ∧ ¬ ownReg c r)

open Classical in
theorem staticCheck_eq (c : Ctx) (f : Form) : staticCheck c f =
    if f.priv = true ∧ c.br.prv = false then some 0x006#9
    else if c.br.emask.getLsbD f.engine.bit = false then some 0x003#9
    else if f.wide = true ∧ c.sp.mask ≠ c.br.threads then some 0x004#9
    else if outsideAllotment c f then some 0x007#9
    else none := by
  have ho : (f.lanes.any (fun r => decide (r ≥ 8 * c.br.granNow) && !(c.inHandler && decide (r ≥ 56) && decide (r < 64))) ||
      f.unis.any (fun r => decide (r ≥ c.br.unis) && r != 0 && !(c.inHandler && decide (r ≥ 56) && decide (r < 64)))) = true ↔
      outsideAllotment c f := by
    have hb : ∀ r, (c.inHandler && decide (r ≥ 56) && decide (r < 64)) = decide (ownReg c r) := fun r => by
      rw [Bool.eq_iff_iff, decide_eq_true_iff]
      simp [ownReg, Ctx.inHandler, and_assoc]
    simp [hb, outsideAllotment, and_assoc, and_left_comm]
  simp only [staticCheck, Bool.and_eq_true, Bool.not_eq_true', bne_iff_ne, ho]

/-! ### The chain -/

section
variable {c : Ctx} {f : Form}

theorem precheck_flagHold (h : flagHold c = true) : precheck c f = .hold := by
  simp [precheck, h]

theorem precheck_tapeFault (hf : flagHold c = false) (h : c.sp.tapeFault = true) : precheck c f = .trap (trapOf c 0x144#9) := by
  simp [precheck, hf, h]

variable (hf : flagHold c = false) (ht : c.sp.tapeFault = false)
include hf ht

theorem precheck_static {x : BitVec 9} (h : staticCheck c f = some x) : precheck c f = .trap (trapOf c x) := by
  simp [precheck, hf, ht, h]

variable (hs : staticCheck c f = none)
include hs

theorem precheck_waits (h : ∃ n ∈ (f.rd ++ f.wr).map (physName c.k), interlocked c n = true) : precheck c f = .hold := by
  simp only [precheck, hf, ht, hs, List.any_eq_true.2 h, Bool.false_eq_true, if_false, if_true]

variable (hw : ¬ ∃ n ∈ (f.rd ++ f.wr).map (physName c.k), interlocked c n = true)
include hw

theorem precheck_stalls {n : RName} {l : List RName} (h : sbcOn c.br = true) (hp : pendings c f = n :: l) :
    precheck c f = .trap { trapOf c 0x049#9 with reg := regNumber n } := by
  simp only [precheck, hf, ht, hs, mt List.any_eq_true.1 hw, h, stalled_eq, hp, Bool.false_eq_true, if_false, if_true, List.head?_cons]

variable (hp : ¬ (sbcOn c.br = true ∧ pendings c f ≠ []))
include hp

omit hf ht hs hw in
theorem no_stall : (if sbcOn c.br then stalled c f else none) = none := by
  simp_all [stalled_eq]

theorem precheck_unwritten {t : TrapReq} (h : unwrittenTrap c f.chk = some t) : precheck c f = .trap t := by
  simp only [precheck, hf, ht, hs, mt List.any_eq_true.1 hw, no_stall hp, h, Bool.false_eq_true, if_false]

variable (hu : unwrittenTrap c f.chk = none)
include hu

theorem precheck_poisoned {t : TrapReq} (ho : f.ownPsn = false) (h : poisonTrap c f f.rd = some t) : precheck c f = .trap t := by
  simp only [precheck, hf, ht, hs, mt List.any_eq_true.1 hw, no_stall hp, hu, ho, h, Bool.false_eq_true, if_false]

theorem precheck_go (h : f.ownPsn = true ∨ poisonTrap c f f.rd = none) : precheck c f = .go := by
  have h' : (if f.ownPsn then none else poisonTrap c f f.rd) = none := by
    rcases h with h | h <;> simp [h]
  simp only [precheck, hf, ht, hs, mt List.any_eq_true.1 hw, no_stall hp, hu, h', Bool.false_eq_true, if_false]

end

/-! ### The threads and halves that a form reads -/

theorem readers_of_only_none {c : Ctx} {f : Form} (h : f.only = none) : f.readers c = c.sp.mask := by
  simp [Form.readers, Form.one, h]

/-- A form that reads one element reads its halves in its thread. -/
theorem readers_halves_of_only {c : Ctx} {f : Form} {e : Elem} (h : f.only = some e) (ha : e.always = true ∨ tbit c.sp.mask e.thread = true) :
    f.readers c = 1#32 <<< e.thread ∧ ∀ r, f.halves c r = (e.h0, e.h1) := by
  have ho : f.one c = some e := by rcases ha with ha | ha <;> simp [Form.one, h, ha]
  simp [Form.readers, Form.halves, ho]

/-- Settles O57: down the chain of the checks. -/
theorem checksBeforeEveryForm : Obligations.ChecksBeforeEveryForm := by
  unfold Obligations.ChecksBeforeEveryForm
  intro c f priv engine wide own outside names waits pending stalls in32 raw psn lowest unwritten poisoned
  refine ⟨pendingFor_iff c, readers_of_only_none, fun e => readers_halves_of_only, precheck_flagHold, precheck_tapeFault, fun hf ht => ?_⟩
  have hx := staticCheck_eq c f
  refine ⟨fun hp => ?_, fun hp he => ?_, fun hp he hw => ?_, fun hp he hw ho => ?_, fun hp he hw ho => ?_⟩
  · exact precheck_static hf ht (hx.trans (if_pos hp))
  · exact precheck_static hf ht ((hx.trans (if_neg hp)).trans (if_pos he))
  · exact precheck_static hf ht (((hx.trans (if_neg hp)).trans (if_neg he)).trans (if_pos hw))
  · exact precheck_static hf ht ((((hx.trans (if_neg hp)).trans (if_neg he)).trans (if_neg hw)).trans (if_pos ho))
  have hs : staticCheck c f = none := (((hx.trans (if_neg hp)).trans (if_neg he)).trans (if_neg hw)).trans (if_neg ho)
  refine ⟨fun hi => ?_, fun hi hp => ?_, fun hi hp hu => ?_, fun hi hp hu hq => ?_, fun hi hp hu hq => ?_⟩
  · exact precheck_waits hf ht hs hi
  · obtain ⟨n, l, hl⟩ := List.exists_cons_of_ne_nil hp.2
    exact ⟨n, l, hl, precheck_stalls hf ht hs hi hp.1 hl⟩
  · obtain ⟨l, x, l', t, hl, hraw, hlow, ht'⟩ := unwrittenTrap_of_exists hu
    exact ⟨l, x, l', t, hl, hraw, hlow, precheck_unwritten hf ht hs hi hp ht'⟩
  · obtain ⟨l, r, l', t, hl, hpsn, hlow, ht'⟩ := poisonTrap_of_exists hq.2
    exact ⟨l, r, l', t, hl, hpsn, hlow, precheck_poisoned hf ht hs hi hp (unwrittenTrap_eq_none.2 hu) hq.1 ht'⟩
  · refine precheck_go hf ht hs hi hp (unwrittenTrap_eq_none.2 hu) ?_
    cases h : f.ownPsn
    · exact .inr (poisonTrap_eq_none.2 fun hq' => hq ⟨h, hq'⟩)
    · exact .inl rfl

end Sys2Proof.Machine
end
-- ==== Sys2Proof/Proofs/Issue.lean ====
section
/-!
O58. What an issue leaves behind is built up from the operations that `retire`, `retireJump`, `parkOn` and `raiseTrap` are made of: the
slot's stamp, and updates of the issuing brick. `OnlyIssue` is the frame that each of them keeps.
-/
namespace Sys2Proof.Machine

/-- State t differs from s in the issuing brick, which is br' with split sp' in place of br, and in the slot that form f used; of br' no
other split differs from br's. -/
def OnlyIssue (s : State) (c : Ctx) (f : Form) (br : Brick) (t : State) (br' : Brick) (sp' : Split) : Prop :=
  tabGet? t.bricks c.b = some br' ∧ tabGet? br'.splits c.k = some sp' ∧
    (∀ k, k ≠ c.k → tabGet? br'.splits k = tabGet? br.splits k) ∧
    (∀ b, b ≠ c.b → tabGet? t.bricks b = tabGet? s.bricks b) ∧
    t = { s with bricks := t.bricks, parts := t.parts } ∧
    (partOf t (partKey c.br.core c.br.part) =
        (if f.lane then { partOf s (partKey c.br.core c.br.part) with laneAt := some s.clk }
         else { partOf s (partKey c.br.core c.br.part) with uniAt := some s.clk }) ∧
      ∀ p, p ≠ partKey c.br.core c.br.part → partOf t p = partOf s p)

section
variable {s t : State} {c : Ctx} {f : Form} {br br' : Brick} {sp sp' : Split}

theorem partOf_modPart (s : State) (p q : Nat) (g : Part → Part) :
    partOf (modPart s p g) q = if q = p then g (partOf s p) else partOf s q := by
  rw [partOf, modPart, tabGetD_set]
  rfl

theorem stampSlot_onlyIssue (hb : tabGet? s.bricks c.b = some br) (hk : tabGet? br.splits c.k = some sp) :
    OnlyIssue s c f br (stampSlot s c f) br sp := by
  refine ⟨hb, hk, fun _ _ => rfl, fun _ _ => rfl, rfl, ?_, fun p hp => ?_⟩
  · rw [stampSlot, partOf_modPart, if_pos rfl]
  · rw [stampSlot, partOf_modPart, if_neg hp]

/-- An update of the issuing brick that leaves its other splits alone keeps the frame. -/
theorem OnlyIssue.modBrick {g : Brick → Brick} {br'' : Brick} {sp'' : Split} (h : OnlyIssue s c f br t br' sp') (hg : g br' = br'')
    (hk : tabGet? br''.splits c.k = some sp'') (ho : ∀ k, k ≠ c.k → tabGet? br''.splits k = tabGet? br'.splits k) :
    OnlyIssue s c f br (modBrick t c.b g) br'' sp'' := by
  obtain ⟨hb, -, hsplits, hbricks, hs, hparts⟩ := h
  refine ⟨?_, hk, fun k hne => (ho k hne).trans (hsplits k hne), fun b hne => ?_, ?_, hparts⟩
  · rw [tabGet?_modBrick, if_pos rfl, hb, Option.map_some, hg]
  · rw [tabGet?_modBrick, if_neg hne, hbricks b hne]
  · rw [Machine.modBrick, hs]

theorem OnlyIssue.modSplit {g : Split → Split} (h : OnlyIssue s c f br t br' sp') :
    OnlyIssue s c f br (modSplit t c.b c.k g) (br'.modSplit c.k g) (g sp') := by
  refine h.modBrick rfl ?_ fun k hne => ?_
  · rw [tabGet?_modSplit, if_pos rfl, h.2.1, Option.map_some]
  · rw [tabGet?_modSplit, if_neg hne]

/-- An issue of form f has left split sp' and clock L, and in the brick what every issue leaves (R34, R148). -/
def LeftByIssue (s : State) (c : Ctx) (f : Form) (br : Brick) (t : State) (sp' : Split) (L : Nat) : Prop :=
  ∃ br', OnlyIssue s c f br t br' sp' ∧
    br' = { br with splits := br'.splits, stepping := false, since := s.clk, cur := (if c.k = handlerSplit then br.cur else c.k)
                    divq := br.divq.map (markFatal s c f), tfault := spendAnswer c.k br.tfault, L := L }

theorem noteIssue_left (hb : tabGet? s.bricks c.b = some br) (hk : tabGet? br.splits c.k = some sp) :
    LeftByIssue s c f br (noteIssue s c f) { sp with ready := s.clk + 1 + f.st.toNat } br.L := by
  refine ⟨_, (stampSlot_onlyIssue hb hk).modBrick rfl ?_ fun k hne => ?_, ?_⟩
  · rw [tabGet?_modSplit, if_pos rfl, hk, Option.map_some]
  · rw [tabGet?_modSplit, if_neg hne]
  · simp only [Ctx.inHandler, beq_iff_eq]
    rfl

theorem LeftByIssue.countRetired {L : Nat} (h : LeftByIssue s c f br t sp' L) :
    LeftByIssue s c f br (countRetired t c) sp' (if c.k = handlerSplit then L else L + 1) := by
  obtain ⟨br', ho, he⟩ := h
  by_cases hk : c.k = handlerSplit
  · rw [Machine.countRetired, if_pos (by simpa [Ctx.inHandler] using hk), if_pos hk]
    exact ⟨br', ho, he⟩
  · rw [Machine.countRetired, if_neg (by simpa [Ctx.inHandler] using hk), if_neg hk]
    exact ⟨_, ho.modBrick rfl ho.2.1 fun _ _ => rfl, by rw [he]⟩

theorem LeftByIssue.modSplit {L : Nat} {g : Split → Split} (h : LeftByIssue s c f br t sp' L) :
    LeftByIssue s c f br (modSplit t c.b c.k g) (g sp') L := by
  obtain ⟨br', ho, he⟩ := h
  exact ⟨_, ho.modSplit, by rw [he]; rfl⟩

theorem retireJump_left (hb : tabGet? s.bricks c.b = some br) (hk : tabGet? br.splits c.k = some sp) :
    LeftByIssue s c f br (retireJump s c f) { sp with ready := s.clk + 1 + f.st.toNat }
      (if c.k = handlerSplit then br.L else br.L + 1) :=
  (noteIssue_left hb hk).countRetired

theorem retire_left (hb : tabGet? s.bricks c.b = some br) (hk : tabGet? br.splits c.k = some sp) :
    LeftByIssue s c f br (retire s c f) { sp with pc := c.sp.pc + f.len, ready := s.clk + 1 + f.st.toNat }
      (if c.k = handlerSplit then br.L else br.L + 1) :=
  (retireJump_left hb hk).modSplit

theorem parkOn_left (hb : tabGet? s.bricks c.b = some br) (hk : tabGet? br.splits c.k = some sp) (op : WaitOp) (sync : Option Nat)
    (n : Bool) : LeftByIssue s c f br (parkOn s c f op sync n)
      { sp with wait := some ⟨op, sync, c.sp.pc, f.two, n⟩, ready := s.clk + 1 + f.st.toNat } br.L :=
  (noteIssue_left hb hk).modSplit

/-- A brick with no trap pending reports the trap that a form raises. -/
theorem raiseTrap_left (hb : tabGet? s.bricks c.b = some br) (hk : tabGet? br.splits c.k = some sp) (hn : br.trap = none) (q : TrapReq) :
    ∃ br', OnlyIssue s c f br (raiseTrap s c f q) br'
        { sp with ready := max sp.ready (s.clk + 1 + (if resumesBehind q.cause then f.st.toNat else 0)) } ∧
      br' = { br with splits := br'.splits, trap := some (preciseRec s c f q true), stepping := false } := by
  have hr : br.reports (preciseRec s c f q true) = true := by simp [Brick.reports, hn]
  have ht : OnlyIssue s c f br (takeTrap (stampSlot s c f) c.b (preciseRec s c f q true))
      { br with trap := some (preciseRec s c f q true) } sp :=
    (stampSlot_onlyIssue hb hk).modBrick ((if_pos rfl).trans (if_pos hr)) hk fun _ _ => rfl
  refine ⟨_, ht.modBrick rfl ?_ fun k hne => ?_, rfl⟩
  · rw [tabGet?_modSplit, if_pos rfl]
    exact congrArg (Option.map _) hk
  · rw [tabGet?_modSplit, if_neg hne]

theorem resumesBehind_iff (x : BitVec 9) : resumesBehind x = true ↔ x = 0x00B#9 ∨ x = 0x00C#9 := by simp [resumesBehind]

end

/-- Settles O58: each of the four is made of operations that keep the frame. -/
theorem issueAndRetire : Obligations.IssueAndRetire := by
  unfold Obligations.IssueAndRetire
  intro s c f br sp hb hk only issued
  refine ⟨retire_left hb hk, retireJump_left hb hk, parkOn_left hb hk, fun q hn => ?_⟩
  obtain ⟨br', ho, he⟩ := raiseTrap_left (f := f) hb hk hn q
  simp only [resumesBehind_iff] at ho
  exact ⟨br', _, ho, he, rfl, rfl, rfl, rfl, rfl, rfl, rfl, rfl, rfl, rfl, rfl, by simp only [preciseRec, resumesBehind_iff]⟩

end Sys2Proof.Machine
end
-- ==== Sys2Proof/Proofs/Control.lean ====
section
/-!
O27. A form that passes its checks settles as its own part answers; each control form's part is one of the answers below.
-/
namespace Sys2Proof.Machine

/-! ### What an answer of a form's own part makes of its instruction -/

section
variable {i : Instr} {s s' : State} {c : Ctx} {f : Form} {body : Ctx → Res} (hi : Issues s c f) (he : exec i s = issueForm s f body)
include hi he

theorem exec_eq_settle : exec i s = .next (settle s c f (body c)) := he.trans (issueForm_go hi body)

theorem retires_of_done {e : State → Prop} (hb : body c = .done s') (h : e s') : Retires i s c f e :=
  ⟨s', h, by rw [exec_eq_settle hi he, hb]; rfl⟩

theorem retiresTurn_of_doneTurn (hb : body c = .doneTurn s') : RetiresTurn i s c f (fun t => t = s') :=
  ⟨s', rfl, by rw [exec_eq_settle hi he, hb]; rfl⟩

theorem retiresJump_of_jump (hb : body c = .jump s') : RetiresJump i s c f (fun t => t = s') :=
  ⟨s', rfl, by rw [exec_eq_settle hi he, hb]; rfl⟩

theorem retiresBranch_of_branch {back : Bool} (hb : body c = if back then .jumpTurn s' else .jump s') :
    RetiresBranch i s c f back (fun t => t = s') :=
  ⟨s', rfl, by rw [exec_eq_settle hi he, hb]; cases back <;> rfl⟩

theorem trapsWith_of_trap {t : TrapReq} (hb : body c = .trap s' t) : TrapsWith i s c f s' t := by
  rw [TrapsWith, exec_eq_settle hi he, hb]; rfl

theorem traps_of_trap {t : TrapReq} (hb : body c = .trap s t) : Traps i s c f t := by
  rw [Traps, exec_eq_settle hi he, hb, settle, trapState, ite_self]

theorem exec_of_stay (hb : body c = .stay s') : exec i s = .next s' := by
  rw [exec_eq_settle hi he, hb]; rfl

end

/-- The form of BRC, which names register r. -/
def brcForm (r : Reg) (st : BitVec 3) : Form := { bareForm false false st .vec with unis := [r.toNat], rd := [nUni r] }

/-- BRC, by whether it is taken (R163). -/
theorem retiresBranch_brc {s : State} {c : Ctx} {z taken : Bool} {a : BitVec 5} {off : BitVec 15} {st : BitVec 3}
    (ht : ((c.u (a.setWidth 6) == 0#64) == z) = taken) (hi : Issues s c (brcForm (a.setWidth 6) st)) :
    RetiresBranch (.brc z a off st) s c (brcForm (a.setWidth 6) st) (taken && decide (targetOf c.sp.pc off < c.sp.pc)) (fun s' =>
      s' = modSplit s c.b c.k (fun sp =>
        { governTop sp (c.uG (a.setWidth 6)) with pc := if taken then targetOf c.sp.pc off else c.sp.pc + 4 })) := by
  subst ht
  exact retiresBranch_of_branch hi rfl rfl

/-- One uniform register written at once. -/
theorem gives_putU (s : State) (c : Ctx) (d : Reg) (v : W64) (g : Bool) :
    Gives s c d v g (modBrick s c.b (fun br => applyWrites br [c.putU d v g])) := by
  refine ⟨fun br => (applyWrites br [c.putU d v g]).uni, congrArg (modBrick s c.b) (funext fun br => ?_), fun br p => ?_⟩
  · by_cases hd : physReg c.k d.toNat = 0 <;> simp [Ctx.putU, applyWrites, applyWrite, hd]
  · by_cases hd : physReg c.k d.toNat = 0
    · have h : ¬ (p = physReg c.k d.toNat ∧ p ≠ 0) := fun h => h.2 (h.1.trans hd)
      rw [if_neg h]
      simp [Ctx.putU, applyWrites, applyWrite, hd]
    · by_cases hp : p = 0
      · simp [Brick.uniR, hp]
      · simp [Ctx.putU, applyWrites, applyWrite, hd, Brick.uniR, hp, tabGetD_set]

/-! ### The forms -/

/-- Settles O27: form by form, by what its own part answers. -/
theorem controlFormsComplete : Obligations.ControlFormsComplete := by
  unfold Obligations.ControlFormsComplete
  intro st s c f pc
  refine ⟨?_, ?_, ?_, ?_, ?_, ?_, ?_, ?_, ?_, ?_⟩
  · rintro i (rfl | rfl) hi
    · exact retires_of_done hi rfl rfl rfl
    · exact retires_of_done hi rfl rfl rfl
  · exact fun hi => retiresTurn_of_doneTurn hi rfl rfl
  · exact fun x sb sc hi => retires_of_done hi rfl rfl rfl
  · exact fun x sb sc disp hi => retires_of_done hi rfl rfl rfl
  · exact fun off hi => retiresBranch_of_branch hi rfl rfl
  · intro z a off r f taken hi
    exact retiresBranch_brc (by cases z <;> simp [taken, r, bne]) hi
  · intro off hi
    refine ⟨fun hl => retiresJump_of_jump hi rfl ?_, fun hl => traps_of_trap hi rfl ?_⟩
    · exact if_neg (by omega)
    · exact if_pos hl
  · intro hi
    refine ⟨fun ra g l hs => retiresJump_of_jump hi rfl ?_, fun hs => traps_of_trap hi rfl ?_⟩
    · simp only [hs]
    · split
      · exact absurd ‹_› (hs _ _ _)
      · rfl
  · intro a f hi s1
    refine ⟨fun h => retiresBranch_of_branch hi rfl ?_, fun h => trapsWith_of_trap hi rfl ?_,
      fun x h => trapsWith_of_trap hi rfl ?_, fun h => exec_of_stay hi rfl ?_, fun h => exec_of_stay hi rfl ?_⟩
    · simp only [h]
      rfl
    all_goals simp only [h]
  · exact fun d hi => retires_of_done hi rfl rfl (gives_putU s c d _ _)

end Sys2Proof.Machine
end

/-!
O5 and O6. A step that issues runs what its words decode to; words that name no instruction have a cause, which is 0x001 or 0x002, and
run UNASSIGNED_ENCODING with it. Each class's decoder answers causes through the connectives of the decoders (a condition, a code that may
be reserved), so for each class only its rows remain.
-/
namespace Sys2Proof

/-- The cause of an answer that names no instruction is one of checks 1 and 2 of R52. -/
def Decoded.FirstChecks (D : Decoded) : Prop := ∀ cause two, D = .bad cause two → cause = 0x001#9 ∨ cause = 0x002#9

theorem firstChecks_instr (i : Instr) : (Decoded.instr i).FirstChecks ↔ True := by
  simp [Decoded.FirstChecks]

theorem firstChecks_bad (c : BitVec 9) (two : Bool) : (Decoded.bad c two).FirstChecks ↔ c = 0x001#9 ∨ c = 0x002#9 := by
  simp [Decoded.FirstChecks]

theorem firstChecks_ite (P : Prop) [Decidable P] (D E : Decoded) :
    (if P then D else E).FirstChecks ↔ (P → D.FirstChecks) ∧ (¬P → E.FirstChecks) := by
  split <;> simp [*]

theorem firstChecks_rmCheck (c : BitVec 3) (two : Bool) (k : Rm → Decoded) :
    (rmCheck c two k).FirstChecks ↔ ∀ rm, Rm.ofCode c = some rm → (k rm).FirstChecks := by
  unfold rmCheck
  split <;> simp [*, firstChecks_bad]

theorem firstChecks_codeCheck {α : Type} (c : Option α) (two : Bool) (k : α → Decoded) :
    (codeCheck c two k).FirstChecks ↔ ∀ x, c = some x → (k x).FirstChecks := by
  cases c <;> simp [codeCheck, firstChecks_bad]

/-- Class by class, row by row: the connectives reach answers that are instructions, 0x001 or 0x002. -/
theorem firstChecks_decodeWords (w p : IWord) : (decodeWords w p).FirstChecks := by
  unfold decodeWords
  split
  case h_17 => exact (firstChecks_bad _ _).2 (.inl rfl)
  all_goals
    simp only [decLI, decLK, decLF, decLD, decLM, decLX, decLE, decLW, decUI, decUK, decUB, decUS, decUM, decUY, decUL, decUW]
    split
  all_goals
    simp only [firstChecks_rmCheck, firstChecks_codeCheck, firstChecks_ite, firstChecks_instr, firstChecks_bad, implies_true, and_true,
      true_or, or_true, decLW00, decLW01, decLW02, decLW03, decLW04, decLW05, decLW06, decLW07, decLW08, decLW09, decLW0A, decLW0B,
      decLW0C, decLW0D, decLW0E, decLW0F, decLW10, decLW11, decLW12, decLW13, decLW14, decLW15, decLW16, decLW17, decLW18, decLW19,
      decLW1A, decLW1B, decLW1C, decLW1D, decLW1E, decLW20, decLW21, decLW22, decLW23, decLW24, decLW25, decLW26, decLW27, decLW28,
      decLW29, decLW2A, decLW2B, decLW2C, decLW2D, decLW2E, decLW2F, decUW00, decUW01, decUW02, decUW03, decUW04, decUW05, decUW06,
      decUW07, decUW08, decUW09, decUW0A, decUW0B, decUW0C, decUW0D, decUW10, decUW11, decUW12, decUW13, decUW20]

namespace Machine

/-! ### The step of an issue -/

/-- A brick whose window is closed lets a split's form do what it does. -/
theorem windowGate_closed {s : State} {b k : Nat} {c : Ctx} (hc : focusOf (focusOn s b k) = some c)
    (hw : c.br.window = none) (o : Host.Outcome State Fault Refusal) :
    windowGate (focusOn s b k) b k o = o := by
  obtain ⟨hf, hb, -⟩ := focusOf_eq_some.1 hc
  obtain ⟨rfl, rfl⟩ : b = c.b ∧ k = c.k := by simpa [focusOn] using hf
  exact if_pos (by simp [hb, hw])

theorem step_issue {s : State} {b k : Nat} {c : Ctx} (hm : nextMove s = .issue b k) (hc : focusOf (focusOn s b k) = some c)
    (hw : c.br.window = none) :
    step s = runFetched (fetchAt (focusOn s b k) c c.sp.pc).1 c (fetchAt (focusOn s b k) c c.sp.pc).2 := by
  rw [step, hm, runMove, issueAt]
  simp only [hc]
  exact windowGate_closed hc hw _

/-- Settles O5: a closed window leaves the fetched words' own effect, and these decode to i. -/
theorem stepRunsTheDecodedInstruction : Obligations.StepRunsTheDecodedInstruction := by
  unfold Obligations.StepRunsTheDecodedInstruction
  intro s b k c w p i hm hc hw hf hd
  rw [step_issue hm hc hw, hf, runFetched, hd]

/-! ### UNASSIGNED_ENCODING -/

/-- A word that fails check 1 or 2 of R52 traps, with the tape's own report first, and has no other effect. -/
theorem trapEncoding_eq {s : State} {c : Ctx} (hc : focusOf s = some c) (hh : flagHold c = false) (two : Bool) (st : BitVec 3)
    (cause : BitVec 9) : trapEncoding s two st cause =
      .next (raiseTrap s c (bareForm two false st .vec) (trapOf c (if c.sp.tapeFault then 0x144#9 else cause))) := by
  simp only [trapEncoding, hc, hh]
  cases c.sp.tapeFault <;> rfl

/-- Settles O6: the decoder's causes are those of checks 1 and 2, and the trap is the encoding's own. -/
theorem unassignedWordsTrap : Obligations.UnassignedWordsTrap := by
  unfold Obligations.UnassignedWordsTrap
  refine ⟨fun s b k c w p cause two hm hc hw hf hd => ⟨firstChecks_decodeWords w p cause two hd, ?_⟩, fun s c cause two hc hh => ?_⟩
  · rw [step_issue hm hc hw, hf, runFetched, hd]
  · exact ⟨bareForm two false 0 .vec, rfl, trapEncoding_eq hc hh two 0 cause⟩

end Machine
end Sys2Proof

/-!
O46. A read of a system register gives what `SysReg` says of it field by field; a write answers by its number. What an answer makes of
its instruction stands in the lemmas of O27.
-/
namespace Sys2Proof.Machine

/-! ### Answers that several of the forms share -/

section
variable {i : Instr} {s s1 : State} {c : Ctx} {f : Form} (hi : Issues s c f)
include hi

theorem retires_of_giveNow {body : Ctx → Res} (he : exec i s = issueForm s f body) {d : Reg} {v : W64} {g : Bool}
    (hb : body c = giveNow s1 c d v g) : Retires i s c f (Gives s1 c d v g) :=
  retires_of_done hi he hb (gives_putU s1 c d v g)

variable {a : Reg} {r : Ctx → Res} (he : exec i s = issueForm s f (fun c => untagged s c a (r c)))
include he

/-- A green value takes 0x084, whatever the register would do with it (R178). -/
theorem traps_of_green (hg : (c.gov || c.uG a) = true) : Traps i s c f (trapOf c 0x084#9) :=
  traps_of_trap hi he (if_pos hg)

variable (hg : (c.gov || c.uG a) = false)
include hg

theorem retires_of_cured (hr : r c = .done s1) : Retires i s c f (fun t => t = s1) :=
  retires_of_done hi he ((if_neg (by simp [hg])).trans hr) rfl

theorem traps_of_cured {t : TrapReq} (hr : r c = .trap s t) : Traps i s c f t :=
  traps_of_trap hi he ((if_neg (by simp [hg])).trans hr)

end

/-! ### Reading (R105, R359, R396) -/

/-- A word whose bits are those of the active threads. -/
theorem eq_sel {c : Ctx} {v : W64} (h : ∀ i, i < 64 → v.getLsbD i = c.act (i / 2)) : c.sel = v :=
  BitVec.eq_of_getLsbD_eq fun i hi => (getLsbD_sel c i hi).trans (h i hi).symm

/-- The index of a member is the number of members before it. -/
theorem findIdx_eq_length {x : Nat} {pre post : List Nat} (h : x ∉ pre) : (pre ++ x :: post).findIdx (· == x) = pre.length :=
  (List.idxOf_append_of_notMem h).trans (by simp)

theorem sysRead_eq {s : State} {c : Ctx} {y : BitVec 7} {v : W64} (h : SysReg s c y v) : sysRead s c y = v := by
  cases h
  case brick | core | course | tapeLen | asidTab | trapInfo | trapAddr | trapMask | trapAux0 | trapAux1 | trapVec | trapRet | inject |
    injAddr | attest | defects => rfl
  case mode => simp [sysRead, modeWord, sbcOn, Nat.mul_comm]
  case part | role | hkctl | version => simp [sysRead, Nat.mul_comm]
  case tapeSt => simp [sysRead, tapeStatus, Nat.mul_comm]
  case fabId => simp [sysRead, fabId, Nat.mul_comm]
  case power => simp [sysRead, powerWord, Nat.mul_comm]
  case lane h => exact eq_sel h
  case wall w h => simp [sysRead, wallOf, h]
  case launch l h => simp [sysRead, h]
  case tapeSegNone h => simp [sysRead, h]
  case tapeSeg l g h => simp [sysRead, h]
  case mwinNone l h h' => simp [sysRead, mwinBase, h, h']
  case mwin l pre post h h' hd hp => simp [sysRead, mwinBase, h, h', hd, findIdx_eq_length hp]

/-! ### Numbers that no register has -/

theorem unassigned_iff (y : BitVec 7) : Unassigned y ↔ 0x1B ≤ y.toNat ∧ y.toNat ≤ 0x1F ∨ 0x25 ≤ y.toNat := by
  simp [Unassigned, BitVec.le_def]

section
variable {s : State} {c : Ctx} {y : BitVec 7} (h : Unassigned y)
include h

theorem sysRead_unassigned : sysRead s c y = 0 := by
  rw [unassigned_iff] at h
  unfold sysRead
  split
  case h_29 => rfl
  all_goals omega

theorem sysWrite_unassigned (v : W64) : sysWrite s c y v = .done s := by
  rw [unassigned_iff] at h
  unfold sysWrite
  split
  case h_9 => rfl
  all_goals omega

theorem sysReadOnly_unassigned : sysReadOnly y = false := by
  revert y
  unfold Unassigned
  decide

theorem sysWritePriv_unassigned (v : Option W64) : sysWritePriv y v = false := by
  rw [unassigned_iff] at h
  have hy : y ≠ 0x17#7 := by
    rintro rfl
    exact absurd h (by decide)
  simp [sysWritePriv, hy]
  omega

end

/-! ### Writing (R59, R106, R178, R359, R366, R396) -/

theorem exec_sysw {a : Reg} {y : BitVec 7} (st : BitVec 3) (s : State) (h : sysReadOnly y = false) :
    exec (.sysw a y st) s = issueForm s (sysForm st (sysWritePriv y (issuerReads s a)) [a] none)
      (fun c => untagged s c a (sysWrite s c y (c.u a))) :=
  if_neg (by simp [h])

theorem exec_sysw_readOnly {a : Reg} {y : BitVec 7} (st : BitVec 3) (s : State) (h : sysReadOnly y = true) :
    exec (.sysw a y st) s = trapEncoding s false st 0x001#9 :=
  if_pos h

section
variable {s s1 : State} {c : Ctx} {v : W64}

theorem writeMode_above (h : 2 ^ 11 ≤ v.toNat) : writeMode s c v = .trap s (trapOf c 0x001#9) :=
  if_pos (by simp; omega)

theorem writeMode_reserved (h : v.toNat < 2 ^ 11) (h5 : 5 ≤ v.toNat % 8) : writeMode s c v = .trap s (trapOf c 0x002#9) := by
  rw [writeMode, if_neg (by simp; omega), if_pos (by simpa using h5)]

theorem writeMode_code (h : v.toNat < 2 ^ 11) {m : Rm} (hm : m.code = v.extractLsb' 0 3) (h5 : v.toNat % 8 < 5) :
    writeMode s c v = .done (modBrick s c.b (fun br => { br with rm := m, sbc := v.getLsbD 3, ten := v.extractLsb' 4 5 })) := by
  rw [writeMode, if_neg (by simp; omega), if_neg (by simpa using h5), (Rm.ofCode_eq_some _ m).2 hm]
  rfl

theorem writeHkctl_within (h : 1000 ≤ v.toNat / 2) (h' : v.toNat / 2 ≤ 2900) :
    writeHkctl s c v = .done { s with plim := v.toNat / 2, reqSig := v.getLsbD 0 } := by
  have hp : v.toNat / 2 % 2 ^ 12 = v.toNat / 2 := by omega
  simp only [writeHkctl, hp]
  exact if_neg (by simp; omega)

theorem writeHkctl_outside (h : v.toNat / 2 < 1000 ∨ 2900 < v.toNat / 2) : writeHkctl s c v = .trap s (trapOf c 0x001#9) :=
  if_pos (by simp; omega)

theorem writeInject_kind (h : 9 ≤ v.toNat / 2 ^ 60) : writeInject s c v = .trap s (trapOf c 0x001#9) :=
  if_pos (by simpa using h)

theorem writeInject_some (h : v.toNat / 2 ^ 60 < 9) (hv : injectValue s c v = some s1) :
    writeInject s c v = .done (modBrick s1 c.b (fun br => { br with inject := v })) := by
  rw [writeInject, if_neg (by simpa using h), hv]

theorem writeInject_none (h : v.toNat / 2 ^ 60 < 9) (hv : injectValue s c v = none) :
    writeInject s c v = .trap s (trapOf c 0x001#9) := by
  rw [writeInject, if_neg (by simpa using h), hv]

end

theorem tabPut_put {α : Type} (t : Tab α) (i : Nat) (x y : α) : tabPut (tabPut t i x) i y = tabPut t i y := by
  induction t with
  | nil => simp [tabPut]
  | cons p t ih =>
    obtain ⟨k, v⟩ := p
    by_cases h : i < k
    · simp [tabPut, h]
    · by_cases h' : i = k <;> simp [tabPut, h, h', ih]

theorem modBrick_modBrick (s : State) (b : Nat) (f g : Brick → Brick) : modBrick (modBrick s b f) b g = modBrick s b (g ∘ f) := by
  cases h : tabGet? s.bricks b <;> simp [modBrick, tabMod, h, tabPut_put]

/-- KIND 0 disarms (R366). -/
theorem writeInject_disarm {s : State} {c : Ctx} {v : W64} (h : v.toNat / 2 ^ 60 = 0) :
    writeInject s c v = .done (modBrick s c.b (fun br => { br with armed := none, inject := v })) := by
  rw [writeInject_some (s1 := arm s c none) (by omega) (if_pos h), arm, modBrick_modBrick]
  rfl

theorem staticCheck_unprivileged {c : Ctx} {f : Form} (hf : f.priv = true) (hp : c.br.prv = false) :
    staticCheck c f = some 0x006#9 := by
  rw [staticCheck_eq, if_pos ⟨hf, hp⟩]

/-! ### Claims (R336, R365) -/

theorem claimFirst_claimed {l : List FaultRec} (h : ∀ r ∈ l, r.claimed = true) : claimFirst l = (none, l) := by
  induction l with
  | nil => rfl
  | cons r l ih =>
    rw [List.forall_mem_cons] at h
    simp [claimFirst, h.1, ih h.2]

theorem claimFirst_append {pre post : List FaultRec} {r : FaultRec} (h : ∀ x ∈ pre, x.claimed = true) (hr : r.claimed = false) :
    claimFirst (pre ++ r :: post) = (some r, pre ++ { r with claimed := true } :: post) := by
  induction pre with
  | nil => simp [claimFirst, hr]
  | cons x pre ih =>
    rw [List.forall_mem_cons] at h
    simp [claimFirst, h.1, ih h.2]

section
variable {d : Reg} {st : BitVec 3} {s : State} {c : Ctx} (hi : Issues s c (sysForm st true [] (some d)))
include hi

theorem fltrecClaim_none (h : ∀ r ∈ (dieState s (dieOfCore c.br.core)).faults, r.claimed = true) :
    Retires (.fltrecClaim d st) s c (sysForm st true [] (some d)) (Gives s c d 0 false) :=
  retires_of_giveNow hi rfl (by simp only [claimFirst_claimed h])

theorem fltrecClaim_oldest {pre post : List FaultRec} {r : FaultRec}
    (hl : (dieState s (dieOfCore c.br.core)).faults = pre ++ r :: post) (h : ∀ x ∈ pre, x.claimed = true) (hr : r.claimed = false) :
    Retires (.fltrecClaim d st) s c (sysForm st true [] (some d))
      (Gives (modDie s (dieOfCore c.br.core) (fun x => { x with faults := pre ++ { r with claimed := true } :: post })) c d r.word false) :=
  retires_of_giveNow hi rfl (by simp only [hl, claimFirst_append h hr])

theorem rlogClaim_none (h : (dieState s (dieOfCore c.br.core)).rlog = []) :
    Retires (.rlogClaim d st) s c (sysForm st true [] (some d)) (Gives s c d 0 false) :=
  retires_of_giveNow hi rfl (by simp only [h])

theorem rlogClaim_oldest {e : W64} {l : List W64} (h : (dieState s (dieOfCore c.br.core)).rlog = e :: l) :
    Retires (.rlogClaim d st) s c (sysForm st true [] (some d))
      (Gives (modDie s (dieOfCore c.br.core) (fun x => { x with rlog := l })) c d e false) :=
  retires_of_giveNow hi rfl (by simp only [h])

end

/-! ### Requests of a quote (R391) -/

/-- A request that is already there stays. -/
theorem attest_kept (s : State) (x : Nat × Nat) :
    (if s.attest.isSome then s else { s with attest := some x }) = { s with attest := some (s.attest.getD x) } := by
  cases h : s.attest with
  | none => rfl
  | some y =>
    show s = { s with attest := some y }
    rw [← h]

section
variable {a : Reg} {st : BitVec 3} {s : State} {c : Ctx} (hi : Issues s c (sysForm st true [a] none)) (hg : (c.gov || c.uG a) = false)
include hi hg

theorem attestRequest_bad (h : (c.u a).toNat % 4096 ≠ 0 ∨ 2 ^ 57 ≤ (c.u a).toNat) :
    Traps (.attestRequest a st) s c (sysForm st true [a] none) (trapOf c 0x001#9) :=
  traps_of_cured hi rfl hg (if_pos (by simp; omega))

theorem attestRequest_good (h : (c.u a).toNat % 4096 = 0) (h' : (c.u a).toNat < 2 ^ 57) :
    Retires (.attestRequest a st) s c (sysForm st true [a] none) (fun t =>
      t = { s with attest := some (s.attest.getD (asidOf s c.br, (c.u a).toNat)) }) :=
  retires_of_cured hi rfl hg ((if_neg (by simp; omega)).trans (congrArg Res.done (attest_kept s _)))

end

/-! ### Segments of the tape (R309, R310) -/

section
variable {s s1 : State} {c : Ctx} {t : Tape} {base len : W64}

theorem addSegment_full (h : 16 ≤ t.segs.length) : addSegment s c t base len = .ok s t := if_pos h

theorem addSegment_unaligned (h : t.segs.length < 16) (hb : base.toNat % 64 ≠ 0) :
    addSegment s c t base len = .trap s (segTrap c 0x0C1#9 base.toNat) := by
  rw [addSegment, if_neg (by omega), if_pos (by simp [hb])]

theorem addSegment_sound (h : t.segs.length < 16) (hb : base.toNat % 64 = 0) (hl : len.toNat % 64 = 0) (hb' : base.toNat < 2 ^ 57)
    (hmin : 2048 ≤ len.toNat) (hmax : len.toNat ≤ 2 ^ 31) (hend : base.toNat + len.toNat ≤ 2 ^ 57)
    (hw : walkPages s c (pagesOf base.toNat len.toNat) = (s1, .ok)) :
    addSegment s c t base len = .ok s1 { t with segs := t.segs ++
      [{ base := base.toNat, len := len.toNat, stale := false
         first := (t.segs.getLast?.map (fun g => g.first + g.len / 64)).getD 0 }] } := by
  rw [addSegment, if_neg (by omega), if_neg (by simp [hb, hl]), if_neg (by simp; omega), hw]
  cases t.segs.getLast? <;> rfl

end

/-! ### The forms -/

/-- Settles O46: form by form, and for a write number by number, by what the form's own part answers. -/
theorem systemRegisterForms : Obligations.SystemRegisterForms := by
  unfold Obligations.SystemRegisterForms
  refine ⟨?_, ?_, ?_, ?_, ?_, ?_, ?_⟩
  · intro d y st s c f hi
    refine ⟨fun v hv => retires_of_giveNow hi rfl ?_, fun hy => retires_of_giveNow hi rfl ?_⟩
    · rw [sysRead_eq hv]
    · rw [sysRead_unassigned hy]
  · intro a y st s c f hi hy hg
    refine retires_of_cured (r := fun c => sysWrite s c y (c.u a)) hi ?_ hg (sysWrite_unassigned hy _)
    rw [exec_sysw st s (sysReadOnly_unassigned hy), sysWritePriv_unassigned hy]
  · intro a y st s c hc hy ht hh
    rw [Traps, exec_sysw_readOnly st s hy, trapEncoding_eq hc hh, ht]
    rfl
  · intro a y st s c f i v hro hi
    have he := exec_sysw (a := a) st s hro
    refine ⟨traps_of_green hi he, fun hg => ?_⟩
    have retires {s1 : State} (h : sysWrite s c y v = .done s1) := retires_of_cured hi he hg h
    have traps {q : TrapReq} (h : sysWrite s c y v = .trap s q) := traps_of_cured hi he hg h
    -- SY_MODE, SY_TAPELEN, SY_ASIDTAB, SY_TRAPVEC, SY_TRAPRET, SY_INJECT, SY_INJADDR, SY_HKCTL
    refine ⟨?_, ?_, ?_, ?_, ?_, ?_, ?_, ?_⟩
    · rintro rfl
      exact ⟨fun h => traps (writeMode_above h), fun h h5 => traps (writeMode_reserved h h5),
        fun h m hm h5 => retires (writeMode_code h hm h5)⟩
    · rintro rfl
      exact ⟨fun h => traps (if_pos h), fun h => retires (if_neg h)⟩
    · rintro rfl
      exact ⟨fun h h' => retires (if_neg (by simp; omega)), fun h => traps (if_pos (by simp; omega))⟩
    · rintro rfl
      exact retires rfl
    · rintro rfl
      exact ⟨fun h => retires (if_pos h), fun h => traps (if_neg (by simp [h]))⟩
    · rintro rfl
      exact ⟨fun h => traps (writeInject_kind h), fun h => retires (writeInject_disarm h),
        fun h => ⟨fun s1 hs => retires (writeInject_some h hs), fun hn => traps (writeInject_none h hn)⟩⟩
    · rintro rfl
      exact retires rfl
    · rintro rfl
      exact ⟨fun h h' => retires (writeHkctl_within h h'), fun h => traps (writeHkctl_outside h)⟩
  · intro a y st s c hc hh ht hp hro hw
    rw [Traps, exec_sysw st s hro, hw]
    exact issueForm_trap hc (precheck_static hh ht (staticCheck_unprivileged rfl hp)) _
  · intro d st s c f die hi
    exact ⟨fltrecClaim_none hi, fun pre r post => fltrecClaim_oldest hi, rlogClaim_none hi, fun e l => rlogClaim_oldest hi⟩
  · intro a st s c v green fp f
    refine ⟨fun hi => ⟨fun hg => ⟨traps_of_green hi rfl hg, traps_of_green hi rfl hg⟩, fun hg =>
      ⟨retires_of_cured hi rfl hg rfl, attestRequest_bad hi hg, attestRequest_good hi hg⟩⟩,
      fun hi => ⟨traps_of_green hi rfl, fun hg => ?_⟩⟩
    refine ⟨fun h => traps_of_cured hi rfl hg (if_pos h), fun h hl => retires_of_cured hi rfl hg ((if_neg h).trans ?_),
      fun h hl hb => traps_of_cured hi rfl hg ((if_neg h).trans ?_),
      fun h hl hb hn hb' hmin hmax hend s1 hw => retires_of_cured hi rfl hg ((if_neg h).trans ?_)⟩
    · rw [addSegment_full hl]
    · rw [addSegment_unaligned hl hb]
    · rw [addSegment_sound hl hb hn hb' hmin hmax hend hw]

end Sys2Proof.Machine

/-!
O9 and O22. A byte's place is the key of one table, so a write at it is read back and leaves every other key alone. The register writes
of one access of a load are a pair of half writes, one uniform write, or one write of two mask bits.
-/
namespace Sys2Proof.Machine

/-! ### One byte of memory -/

theorem byteAt_putByte_self (s : State) (l : Loc) (x : Byte) : byteAt (putByte s l x) l = x := by
  cases l <;> exact tabGetD_set_self _ _ _ _

theorem byteAt_putByte_ne (s : State) {l l' : Loc} (x : Byte) (h : placeOf l' ≠ placeOf l) :
    byteAt (putByte s l x) l' = byteAt s l' := by
  cases l <;> cases l' <;> simp only [placeOf, ne_eq, Prod.mk.injEq, true_and, reduceCtorEq, false_and, not_false_eq_true] at h
  case loc.loc => exact (tabGetD_set _ _ _ _ _).trans (if_neg h)
  case phys.phys => exact (tabGetD_set _ _ _ _ _).trans (if_neg h)
  all_goals rfl

theorem metaAt_putByte (s : State) (l l' : Loc) (x : Byte) : metaAt (putByte s l x) l' = metaAt s l' := by
  cases l <;> cases l' <;> rfl

/-- Settles O9. -/
theorem readAfterWrite : Obligations.ReadAfterWrite := by
  unfold Obligations.ReadAfterWrite
  exact fun s l x => ⟨byteAt_putByte_self s l x, fun _ => byteAt_putByte_ne s x, fun l' => metaAt_putByte s l l' x⟩

/-! ### What a load writes -/

/-- Register files that read alike where registers exist are landed on by the same writes. -/
theorem landsAs_congr {br : Brick} {ws : List RegWrite} {r r' : Regs} (h : LandsAs br ws r)
    (hh : ∀ p t e, t < 32 → e < 2 → r.half p t e = r'.half p t e) (hu : ∀ p, r.uni p = r'.uni p)
    (hm : ∀ m i, i < 64 → r.msk m i = r'.msk m i) : LandsAs br ws r' := by
  obtain ⟨h1, h2, h3, h4⟩ := h
  exact ⟨fun p t e ht he => (h1 p t e ht he).trans (hh p t e ht he), fun p => (h2 p).trans (hu p),
    fun m i hi => (h3 m i hi).trans (hm m i hi), h4⟩

/-- Writes of lane registers land as the halves that they leave. -/
theorem landsAs_withHalf {br : Brick} {ws : List RegWrite} {h : Nat → Nat → Nat → Half} (hl : laneOnly ws = true)
    (hh : ∀ p t e, t < 32 → e < 2 → (applyWrites br ws).half p t e = h p t e) : LandsAs br ws ((regsOf br).withHalf h) := by
  obtain ⟨hu, hm⟩ := laneOnly_keeps ws hl br
  refine ⟨hh, fun p => ?_, fun m i _ => ?_, applyWrites_frame _ _⟩
  · simp [regsOf, Regs.withHalf, Brick.uniR, hu]
  · simp [regsOf, Regs.withHalf, Brick.mskR, hm]

/-- Both halves of one register in one thread. -/
theorem landsAs_pair (br : Brick) {t : Nat} (ht : t < 32) (p : Nat) (x : Nat → Half) :
    LandsAs br [.lane (halfKey p t 0) (x 0), .lane (halfKey p t 1) (x 1)]
      ((regsOf br).withHalf (fun q t' e => if q = p ∧ t' = t then x e else br.half q t' e)) := by
  refine landsAs_withHalf rfl fun q t' e ht' he => ?_
  rw [(threadWrites_pair (P := p) (fun _ => x) ht).2 br q t' e ht' he]
  by_cases hq : q = p <;> by_cases h : t' = t <;> simp [hq, h]

/-- A uniform register written whatever governs; s0 discards (R101). -/
theorem landsAs_uniWrite (br : Brick) (p : Nat) (v : W64) (g : Bool) : LandsAs br [.uni p v g]
    { regsOf br with uni := fun q => if q = p ∧ q ≠ 0 then ⟨v, g⟩ else br.uniR q } := by
  refine ⟨fun q t e _ _ => ?_, fun q => ?_, fun m i _ => ?_, applyWrites_frame _ _⟩
  · simp only [applyWrites_cons, applyWrites_nil, applyWrite, regsOf]
    split <;> rfl
  · simp only [applyWrites_cons, applyWrites_nil, applyWrite, regsOf, Brick.uniR]
    by_cases hp : p = 0 <;> by_cases hq : q = 0 <;> by_cases he : q = p <;> simp_all [tabGetD_set]
  · simp only [applyWrites_cons, applyWrites_nil, applyWrite, regsOf]
    split <;> rfl

/-- The two mask bits of thread t. -/
theorem getLsbD_pairOf (t : Nat) {i : Nat} (ht : t < 32) (hi : i < 64) : (3#64 <<< (2 * t)).getLsbD i = decide (i / 2 = t) := by
  have h := getLsbD_pairBits_aux [t] (by simpa using ht) 0#64 i hi
  simpa using h

/-- A mask written whatever governs. -/
theorem landsAs_mskWrite (br : Brick) (m : Nat) (sel v g : W64) : LandsAs br [.msk m sel v g]
    ((regsOf br).withMsk (fun q i => if q = m ∧ sel.getLsbD i = true then (v.getLsbD i, g.getLsbD i) else (regsOf br).msk q i)) := by
  refine ⟨fun _ _ _ _ _ => rfl, fun _ => rfl, fun q i hi => ?_, applyWrites_frame _ _⟩
  simp only [applyWrites_cons, applyWrites_nil, applyWrite, regsOf, Regs.withMsk, Brick.mskR, tabGetD_set]
  by_cases hq : q = m
  · cases hs : sel.getLsbD i <;> simp [-BitVec.getLsbD_eq_getElem, hq, hs, hi]
  · simp [hq]

/-- A half of a number of 64 bits. -/
theorem halfOf_ofNat (v : Nat) {e : Nat} (he : e < 2) : halfOf (BitVec.ofNat 64 v) e = BitVec.ofNat 32 (v / 2 ^ (32 * e)) := by
  apply BitVec.eq_of_toNat_eq
  have : e = 0 ∨ e = 1 := by omega
  rcases this with rfl | rfl
  · simp [halfOf]
  · simp [halfOf, BitVec.extractLsb'_toNat, Nat.shiftRight_eq_div_pow]
    omega

/-- Settles O22: the writes of each destination, as the register files read after them. -/
theorem loadDeliversMemory : Obligations.LoadDeliversMemory := by
  unfold Obligations.LoadDeliversMemory
  intro s br a gov ht v g
  refine ⟨fun p => ?_, fun p => ?_, fun p => landsAs_uniWrite br p _ _, fun m => ?_⟩
  · refine landsAs_congr (landsAs_pair br ht p (fun e => ⟨halfOf (BitVec.ofNat 64 v) e, g, false, false⟩)) (fun q t e _ he => ?_)
      (fun _ => rfl) fun _ _ _ => rfl
    simp only [Regs.withHalf, halfOf_ofNat v he]
  · exact landsAs_pair br ht p (fun e => if e = 0 then ⟨BitVec.ofNat 32 v, g, false, false⟩ else ⟨0, g, false, false⟩)
  · refine landsAs_congr (landsAs_mskWrite br m _ _ _) (fun _ _ _ _ _ => rfl) (fun _ => rfl) fun q i hi => ?_
    have h := getLsbD_pairOf a.t ht hi
    generalize 3#64 <<< (2 * a.t) = sel at h ⊢
    by_cases hi' : i / 2 = a.t
    · cases hg : lineG s a.loc <;> cases hd : gov || a.aG <;> simp [-BitVec.getLsbD_eq_getElem, Regs.withMsk, h, hi']
    · simp [-BitVec.getLsbD_eq_getElem, Regs.withMsk, h, hi']

end Sys2Proof.Machine

/-!
O13 and O14. A move writes a copy of a half, or none, to each half of its destination in each active thread (`landsAs_putSome`); a mask
form writes the selected bits of its destination (`landsAs_msk`), and a vote reads the bits of the active lanes.
-/
namespace Sys2Proof.Machine

/-! ### Halves that are written and halves that are not -/

/-- Writes of x t e to half e of register d in every active thread t, where there is one. -/
def Ctx.putSome (c : Ctx) (d : Reg) (x : Nat → Nat → Option Half) : List RegWrite :=
  c.ts.flatMap (fun t => ((x t 0).map (RegWrite.lane (halfKey (physReg c.k d.toNat) t 0))).toList ++
    ((x t 1).map (RegWrite.lane (halfKey (physReg c.k d.toNat) t 1))).toList)

theorem threadWrites_append {F F' : Nat → List RegWrite} {g g' : Nat → Nat → Nat → Half → Half} {t : Nat} (h : ThreadWrites F g t)
    (h' : ThreadWrites F' g' t) : ThreadWrites (fun t => F t ++ F' t) (fun p t e old => g' p t e (g p t e old)) t := by
  refine ⟨by rw [laneOnly_append, h.1, h'.1]; rfl, fun br p t' e ht he => ?_⟩
  rw [applyWrites_append, h'.2 _ p t' e ht he, h.2 br p t' e ht he]
  by_cases htt : t' = t <;> simp [htt]

/-- At most one write of a half. -/
theorem threadWrites_someHalf {P e' : Nat} (x : Nat → Option Half) {t : Nat} (ht : t < 32) (he' : e' < 2) :
    ThreadWrites (fun t => ((x t).map (RegWrite.lane (halfKey P t e'))).toList)
      (fun p t e old => if p = P ∧ e = e' then (x t).getD old else old) t := by
  cases hx : x t with
  | none => exact ⟨by simp [hx, laneOnly], fun br p t' e _ _ => by simp [hx, applyWrites_nil]⟩
  | some h =>
    refine ⟨by simp [hx, laneOnly], fun br p t' e ht' he => ?_⟩
    simp only [hx, Option.map_some, Option.toList_some, applyWrites_cons, applyWrites_nil, half_lane _ _ ht' ht he he', Option.getD_some]
    by_cases htt : t' = t <;> simp [htt]

theorem landsAs_putSome (c : Ctx) (d : Reg) (x : Nat → Nat → Option Half) : LandsAs c.br (c.putSome d x)
    ((regsOf c.br).withHalf (fun p t e =>
      if p = physReg c.k d.toNat ∧ c.act t = true then (x t e).getD (c.br.half p t e) else c.br.half p t e)) := by
  refine landsAs_threads c c.br (fun t ht => threadWrites_append 
    (threadWrites_someHalf (fun t => x t 0) (Ctx.ts_lt ht) (by decide))
    (threadWrites_someHalf (fun t => x t 1) (Ctx.ts_lt ht) (by decide))) _ fun p t e ht he => ?_
  have : e = 0 ∨ e = 1 := by omega
  rcases this with rfl | rfl <;> by_cases hp : p = physReg c.k d.toNat <;> by_cases ha : c.act t = true <;> simp [hp, ha]

/-! ### The moves -/

/-- The lane that LPUSH copies to lane i: the last active one whose index names i. -/
def Ctx.pusher (c : Ctx) (q : Bool) (b : Reg) (i : Nat) : Option Nat :=
  ((c.lanes q).filter (fun j => c.laneIdx q b j == i)).getLast?

/-- A lane's copy from the lane that o names, where it names one, as writes of halves. -/
theorem lanes_copy_eq_putSome (c : Ctx) (q : Bool) (d a : Reg) (o : Nat → Option Nat) (g : Nat → Bool) :
    (c.lanes q).flatMap (fun i => (o i).elim [] (fun j => c.copyLane q d a i j (g j))) =
      c.putSome d (fun t e => (o (laneAt q t e)).map (fun j => c.moved q a j e (g j))) := by
  cases q
  · refine congrArg c.ts.flatMap (funext fun t => ?_)
    cases h : o t <;> simp [laneAt, h, Ctx.copyLane, Ctx.copyH, Ctx.moved, Ctx.copied]
  · simp only [Ctx.putSome, Ctx.lanes, if_true, List.flatMap_assoc]
    refine congrArg c.ts.flatMap (funext fun t => ?_)
    have h1 : (2 * t + 1) / 2 = t := by omega
    have h2 : 2 * t / 2 = t := by omega
    have h3 : (2 * t + 1) % 2 = 1 := by omega
    have h4 : 2 * t % 2 = 0 := by omega
    cases h : o (2 * t) <;> cases h' : o (2 * t + 1) <;> simp [laneAt, h, h', Ctx.copyLane, Ctx.copyH, Ctx.moved, Ctx.copied, h1, h2, h3, h4]

/-- The writes of LPUSH. -/
theorem landsAs_push (c : Ctx) (q : Bool) (d a b : Reg) :
    LandsAs c.br ((c.lanes q).flatMap (fun i => (c.pusher q b i).elim [] (fun j => c.copyLane q d a i j (c.laneIdxG q b j))))
      ((regsOf c.br).withHalf (fun p t e => if p = physReg c.k d.toNat ∧ c.act t = true then
        (c.pusher q b (laneAt q t e)).elim (c.br.half p t e) (fun j => c.moved q a j e (c.laneIdxG q b j))
        else c.br.half p t e)) := by
  rw [lanes_copy_eq_putSome c q d a (c.pusher q b)]
  refine landsAs_congr (landsAs_putSome c d _) (fun p t e _ _ => ?_) (fun _ => rfl) fun _ _ _ => rfl
  cases h : c.pusher q b (laneAt q t e) <;> simp [Regs.withHalf, h]

/-- The writes of a form that works on halves (P) or on whole registers. -/
theorem landsAs_halves_or_whole (P : Prop) [Decidable P] (c : Ctx) (d : Reg) (v : Nat → Nat → W32) (g : Nat → Nat → Bool)
    (v' : Nat → W64) (g' : Nat → Bool) : LandsAs c.br (if P then laneWrites32 c d v g else laneWrites64 c d v' g')
      (if P then (regsOf c.br).put32 c d v g else (regsOf c.br).put64 c d v' g') := by
  split
  · exact landsAs_laneWrites32 c d v g
  · exact landsAs_laneWrites64 c d v' g'

theorem completes_laneMove : Completes LaneMove := by
  rw [completes_iff]
  intro i x h
  cases h
  case mov d a w st => exact meetsRow_of_fixed (fun _ => rfl) fun c => landsAs_copy c (!w) d (fun _ => a) (fun j => j) (fun _ => false)
  case lshfl d a b q st =>
    exact meetsRow_of_fixed (fun _ => rfl) fun c => landsAs_copy c q d (fun _ => a) _ (c.laneIdxG q b)
  case lbcst d a lane q st =>
    exact meetsRow_of_fixed (fun _ => rfl) fun c => landsAs_copy c q d (fun _ => a) _ (fun _ => false)
  case sel d a b m ty st =>
    refine meetsRow_of_fixed (fun _ => rfl) fun c => ?_
    have hb (v : W64) (q : Bool) (j : Nat) : mbit v (if q then j / 2 else j) (if q then j % 2 else 0) = v.getLsbD (if q then j else 2 * j) := by
      cases q
      · rfl
      · exact congrArg v.getLsbD (Nat.div_add_mod j 2)
    simp only [hb]
    refine landsAs_congr (landsAs_copy c _ d _ _ _) (fun p t e _ _ => ?_) (fun _ => rfl) fun _ _ _ => rfl
    simp only [Regs.putHalves]
    cases ty.width == 32 <;> rfl
  case lpush d a b q st =>
    refine meetsRow_of_fixed (fun _ => rfl) fun c => ?_
    convert landsAs_push c q d a b using 2
    · funext i
      split <;> rename_i h <;> simp only [Ctx.pusher, h, Option.elim]
    · refine funext fun p => funext fun t => funext fun e => if_congr Iff.rfl ?_ rfl
      split <;> rename_i h <;> simp only [Ctx.pusher, h, Option.elim]
  case vfroms | vfromsIdx => exact meetsRow_of_fixed (fun _ => rfl) fun c => landsAs_halves_or_whole _ c _ _ _ _ _
  case rdlast d st => exact meetsRow_of_fixed (fun _ => rfl) fun c => landsAs_laneWrites64 c d _ _
  case rdcnt d st =>
    refine meetsRow_of_fixed (fun _ => rfl) fun c => ?_
    have h (x : Cst) : x.counts = BitVec.ofNat 64 (x.pass + x.fail * 2 ^ 17 + (if x.v then 2 ^ 25 else 0)) :=
      congrArg (BitVec.ofNat 64) (by omega)
    simp only [h]
    exact landsAs_laneWrites64 c d _ _

/-- Settles O13: the moves, row by row. -/
theorem laneMoves : Obligations.LaneMoves := by
  unfold Obligations.LaneMoves
  exact completes_laneMove

/-! ### Masks -/

section
variable {i : Instr} {m : BitVec 3} {st : BitVec 3}

theorem meets_cmp {cc : Cond} {v : (n : Nat) → BitVec n → BitVec n → Bool} (hv : ∀ n (x y : BitVec n), v n x y = true ↔ condHolds cc x y = true) {a b : Reg} {q : Bool} (he : ∀ s, exec i s = laneCmp cc m a b q st s) : MeetsRow i (cmpSpec v m a b q st) := by
  refine meetsRow_of_fixed he fun c => ?_
  simp only [cmpSpec, fun n x y => Bool.eq_iff_iff.2 (hv n x y)]
  cases q
  · exact landsAs_maskWrite c m (fun t e => condHolds cc (c.h a t e) (c.h b t e)) (fun t e => c.hG a t e || c.hG b t e)
  · exact landsAs_maskWrite c m (fun t _ => condHolds cc (c.w a t) (c.w b t)) (fun t _ => c.wG a t || c.wG b t)

/-- A mask operation writes the selected bits of its destination, each from the bits of its operands at that place. -/
theorem landsAs_maskOp (c : Ctx) (v : Bool → Bool → Bool) (x y : MReg) (w : W64)
    (hw : ∀ i, i < 64 → w.getLsbD i = v (x.v.getLsbD i) (y.v.getLsbD i)) :
    LandsAs c.br [c.putM m c.sel (w &&& c.sel) ((x.g ||| y.g) &&& c.sel)]
      ((regsOf c.br).putMask c m (fun t e => v (x.v.getLsbD (2 * t + e)) (y.v.getLsbD (2 * t + e)))
        (fun t e => x.g.getLsbD (2 * t + e) || y.g.getLsbD (2 * t + e))) := by
  refine landsAs_msk c c.br m _ _ _ _ fun q i hi => ?_
  have hs := getLsbD_sel c i hi
  have hi' : 2 * (i / 2) + i % 2 = i := Nat.div_add_mod i 2
  cases ha : c.act (i / 2) <;> cases hg : c.gov <;>
    simp [-BitVec.getLsbD_eq_getElem, hi', hs, hw i hi, ha]

theorem meets_mop {g : W64 → W64 → W64} {v : Bool → Bool → Bool} {ma mb : BitVec 3}
    (hg : ∀ x y i, i < 64 → (g x y).getLsbD i = v (x.getLsbD i) (y.getLsbD i)) (he : ∀ s, exec i s = maskOp g m ma mb false st s) :
    MeetsRow i (mopSpec v m ma mb st) :=
  meetsRow_of_fixed he fun c => landsAs_maskOp c v (c.m ma) (c.m mb) _ (hg _ _)

end

/-- The tags of the bits of the active threads, set or cleared together. -/
theorem landsAs_mtag (c : Ctx) (m : BitVec 3) (g : Bool) : LandsAs c.br [.mtag m.toNat c.sel (if g then c.sel else 0)]
    ((regsOf c.br).withMsk (fun q i => if q = m.toNat ∧ c.act (i / 2) = true then (((regsOf c.br).msk q i).1, g)
      else (regsOf c.br).msk q i)) := by
  refine ⟨fun _ _ _ _ _ => rfl, fun _ => rfl, fun q i hi => ?_, applyWrites_frame _ _⟩
  simp only [applyWrites_cons, applyWrites_nil, applyWrite, regsOf, Regs.withMsk, Brick.mskR, tabGetD_set]
  by_cases hq : q = m.toNat
  · have hs := getLsbD_sel c i hi
    cases ha : c.act (i / 2) <;> cases g <;> simp [-BitVec.getLsbD_eq_getElem, hq, hs, ha, hi]
  · simp [hq]

/-- The tag of half e of register P in thread t, where k holds. -/
theorem threadWrites_someTag {P e' : Nat} (k g : Bool) {t : Nat} (ht : t < 32) (he' : e' < 2) :
    ThreadWrites (fun t => if k then [.tag (halfKey P t e') g] else [])
      (fun p _ e old => if p = P ∧ e = e' ∧ k = true then { old with g := g } else old) t := by
  cases k
  · exact ⟨rfl, fun br p t' e _ _ => by simp [applyWrites_nil]⟩
  · refine ⟨rfl, fun br p t' e ht' he => ?_⟩
    simp only [if_true, applyWrites_cons, applyWrites_nil, half_tag _ _ ht' ht he he', and_true]
    by_cases htt : t' = t <;> simp [htt]

theorem landsAs_tags (c : Ctx) (d : Reg) (k : Nat → Bool) (g : Bool) :
    LandsAs c.br (c.ts.flatMap (fun t => (if k 0 then [RegWrite.tag (halfKey (physReg c.k d.toNat) t 0) g] else []) ++
        (if k 1 then [RegWrite.tag (halfKey (physReg c.k d.toNat) t 1) g] else [])))
      ((regsOf c.br).withHalf (fun p t e => if p = physReg c.k d.toNat ∧ c.act t = true ∧ k e = true then
        { c.br.half p t e with g := g } else c.br.half p t e)) := by
  refine landsAs_threads c c.br (fun t ht => threadWrites_append (threadWrites_someTag (k 0) g (Ctx.ts_lt ht) (by decide))
    (threadWrites_someTag (k 1) g (Ctx.ts_lt ht) (by decide))) _ fun p t e ht he => ?_
  have : e = 0 ∨ e = 1 := by omega
  rcases this with rfl | rfl <;> by_cases hp : p = physReg c.k d.toNat <;> by_cases ha : c.act t = true <;> simp [hp, ha]

theorem completes_toMask : Completes ToMask := by
  rw [completes_iff]
  intro i x h
  cases h
  case icmpEq => exact meets_cmp (cc := .eq) (fun _ _ _ => Iff.rfl) fun _ => rfl
  case icmpNe => exact meets_cmp (cc := .ne) (fun _ _ _ => Iff.rfl) fun _ => rfl
  case icmpLt => exact meets_cmp (fun n x y => decide_eq_true_iff.trans (decides_lt n x y)) fun _ => rfl
  case icmpLe => exact meets_cmp (fun n x y => decide_eq_true_iff.trans (decides_le n x y)) fun _ => rfl
  case icmpLtu => exact meets_cmp (fun n x y => decide_eq_true_iff.trans (decides_ltu n x y)) fun _ => rfl
  case icmpLeu => exact meets_cmp (fun n x y => decide_eq_true_iff.trans (decides_leu n x y)) fun _ => rfl
  case mopAnd => exact meets_mop (fun x y i _ => BitVec.getLsbD_and) fun _ => rfl
  case mopOr => exact meets_mop (fun x y i _ => BitVec.getLsbD_or) fun _ => rfl
  case mopXor => exact meets_mop (fun x y i _ => BitVec.getLsbD_xor) fun _ => rfl
  case mopAndn => exact meets_mop (g := fun x y => x &&& ~~~y) (fun x y i hi => by simp [-BitVec.getLsbD_eq_getElem, hi]) fun _ => rfl
  case mopNot m ma st =>
    refine meetsRow_of_fixed (fun _ => rfl) fun c => ?_
    refine landsAs_congr (landsAs_maskOp c (fun x _ => !x) (c.m ma) MReg.start _ fun i hi => ?_) (fun _ _ _ _ _ => rfl) (fun _ => rfl)
      fun q i hi => ?_
    · simp [-BitVec.getLsbD_eq_getElem, hi]
    · simp [-BitVec.getLsbD_eq_getElem, Regs.putMask, MReg.start]
  case tagrd m a st => exact meetsRow_of_fixed (fun _ => rfl) fun c => landsAs_maskWrite c m (fun t e => c.hG a t e) (fun _ _ => false)
  case tagsetMask d b st => exact meetsRow_of_fixed (fun _ => rfl) fun c => landsAs_mtag c _ _
  case tagsetLane d b st => exact meetsRow_of_fixed (fun _ => rfl) fun c => landsAs_tags c d b.getLsbD _

/-! ### Votes and counts -/

/-- The active halves are those of the active threads. -/
theorem Ctx.mem_lanes_halves (c : Ctx) (j : Nat) : j ∈ c.lanes true ↔ j / 2 ∈ c.ts := by
  simp only [Ctx.lanes, if_true, List.mem_flatMap, List.mem_cons, List.not_mem_nil, or_false]
  constructor
  · rintro ⟨t, ht, h⟩
    rwa [show j / 2 = t by omega]
  · exact fun h => ⟨j / 2, h, by omega⟩

/-- A bit of a mask among the selected ones is a bit of an active half. -/
theorem ne_zero_and_sel (c : Ctx) (g : W64) : (g &&& c.sel != 0#64) = (c.lanes true).any (fun j => g.getLsbD j) := by
  rw [Bool.eq_iff_iff, bne_iff_ne, List.any_eq_true, ← not_iff_not, ne_eq, not_not]
  have hbit (i : Nat) (hi : i < 64) : (g &&& c.sel).getLsbD i = true ↔ i ∈ c.lanes true ∧ g.getLsbD i = true := by
    rw [BitVec.getLsbD_and, Bool.and_eq_true, getLsbD_sel c i hi, c.mem_lanes_halves, c.mem_ts _ (by omega), and_comm]
  constructor
  · rintro h ⟨j, hj, hb⟩
    have hlt := Ctx.ts_lt ((c.mem_lanes_halves j).1 hj)
    have := (hbit j (by omega)).2 ⟨hj, hb⟩
    simp [h] at this
  · refine fun h => BitVec.eq_of_getLsbD_eq fun i hi => ?_
    rw [BitVec.getLsbD_zero, Bool.eq_false_iff]
    exact fun hb => h ⟨i, (hbit i hi).1 hb⟩

theorem completes_maskToUni : Completes MaskToUni := by
  rw [completes_iff]
  intro i x h
  cases h
  case ballot d m st =>
    refine meetsRow_of_fixed (fun _ => rfl) fun c => ?_
    rw [ne_zero_and_sel]
    exact landsAs_uni c d _ _
  case any d m st =>
    refine meetsRow_of_fixed (fun _ => rfl) fun c => ?_
    simp only [List.any_eq_true]
    exact landsAs_uni c d _ _
  case all d m st =>
    refine meetsRow_of_fixed (fun _ => rfl) fun c => ?_
    simp only [List.all_eq_true]
    exact landsAs_uni c d _ _
  case first d m q st => exact meetsRow_of_fixed (fun _ => rfl) fun c => landsAs_uni c d _ _
  case mpop d m q st =>
    refine meetsRow_of_fixed (fun _ => rfl) fun c => ?_
    rw [← List.countP_eq_length_filter]
    exact landsAs_uni c d _ _

/-- Settles O14: the two tables, row by row. -/
theorem maskForms : Obligations.MaskForms := by
  unfold Obligations.MaskForms
  exact ⟨completes_toMask, completes_maskToUni⟩

end Sys2Proof.Machine

/-!
The one rounding (R70, R78, R81, R84). A format's magnitudes are a grid: from a power of two on, steps of one size. `roundAt` finds the
step that an exact magnitude lies in and goes to its far end or not (`roundAt_eq`), and `fRound` packs that as `Fmt.rounded` asks.
-/
namespace Sys2Proof.Machine

/-! ### The grid of a format's magnitudes -/

/-- The magnitude that code k stands for, for every k: the codes of a format are the first of them. -/
noncomputable def Fmt.grid (f : Fmt) (k : Nat) : ℝ :=
  ((k % 2 ^ f.fbits + (if k / 2 ^ f.fbits = 0 then 0 else 2 ^ f.fbits) : Nat) : ℝ) *
    (2 : ℝ) ^ (f.qmin + ((k / 2 ^ f.fbits - 1 : Nat) : Int))

theorem Fmt.num_eq_grid (f : Fmt) (x : Nat) :
    f.num x = (if f.neg x then -1 else 1) * f.grid (x % 2 ^ (f.fbits + f.ebits)) := by
  have hd : x % 2 ^ (f.fbits + f.ebits) / 2 ^ f.fbits = x / 2 ^ f.fbits % 2 ^ f.ebits := by
    rw [pow_add, Nat.mod_mul_right_div_self]
  have hm : x % 2 ^ (f.fbits + f.ebits) % 2 ^ f.fbits = x % 2 ^ f.fbits :=
    Nat.mod_mod_of_dvd _ (pow_dvd_pow 2 (Nat.le_add_right _ _))
  simp only [Fmt.num, Fmt.grid, hd, hm, mul_assoc]

/-- A code below the sign bit stands for its magnitude. -/
theorem Fmt.num_of_lt (f : Fmt) {x : Nat} (h : x < 2 ^ (f.fbits + f.ebits)) : f.num x = f.grid x := by
  have hn : ¬f.neg x := by simp [Nat.div_eq_of_lt h]
  rw [f.num_eq_grid, if_neg hn, one_mul, Nat.mod_eq_of_lt h]

section
variable (f : Fmt)

/-- The codes of one power of two lie one step apart, up to the first code of the next one. -/
theorem Fmt.grid_eq {k s : Nat} (hk : k ≤ 2 ^ (f.fbits + 1)) (hs : s = 0 ∨ 2 ^ f.fbits ≤ k) :
    f.grid (k + s * 2 ^ f.fbits) = (k : ℝ) * (2 : ℝ) ^ (f.qmin + (s : Int)) := by
  have hp : 0 < 2 ^ f.fbits := by positivity
  rw [pow_succ] at hk
  unfold Fmt.grid
  rw [Nat.add_mul_mod_self_right, Nat.add_mul_div_right _ _ hp]
  by_cases h : k < 2 ^ f.fbits
  · obtain rfl := hs.resolve_right (by omega)
    simp [Nat.mod_eq_of_lt h, Nat.div_eq_of_lt h]
  · by_cases h' : k = 2 ^ f.fbits * 2
    · have hd : k / 2 ^ f.fbits = 2 := by rw [h', Nat.mul_div_cancel_left _ hp]
      have hm : k % 2 ^ f.fbits = 0 := by rw [h', Nat.mul_mod_right]
      rw [hd, hm, if_neg (by omega), h', show f.qmin + ((2 + s - 1 : Nat) : Int) = f.qmin + s + 1 by omega,
        zpow_add_one₀ two_ne_zero]
      push_cast
      ring
    · have hd : k / 2 ^ f.fbits = 1 := Nat.div_eq_of_lt_le (by omega) (by omega)
      have hm : k % 2 ^ f.fbits = k - 2 ^ f.fbits := by rw [Nat.mod_eq_sub_mod (by omega), Nat.mod_eq_of_lt (by omega)]
      rw [hd, hm, if_neg (by omega), show f.qmin + ((1 + s - 1 : Nat) : Int) = f.qmin + s by omega,
        Nat.sub_add_cancel (by omega)]

/-- Each code is a number of steps of its power of two. -/
theorem Fmt.exists_steps (k : Nat) :
    ∃ k0 s, k = k0 + s * 2 ^ f.fbits ∧ k0 < 2 ^ (f.fbits + 1) ∧ (s = 0 ∨ 2 ^ f.fbits ≤ k0) := by
  have hp : 0 < 2 ^ f.fbits := by positivity
  have hm := Nat.mod_lt k hp
  have hd := Nat.div_add_mod k (2 ^ f.fbits)
  rw [pow_succ]
  by_cases h : k / 2 ^ f.fbits = 0
  · exact ⟨k, 0, by omega, by rw [h] at hd; omega, .inl rfl⟩
  · obtain ⟨n, hn⟩ := Nat.exists_eq_succ_of_ne_zero h
    refine ⟨k % 2 ^ f.fbits + 2 ^ f.fbits, n, ?_, by omega, .inr (by omega)⟩
    rw [hn, Nat.mul_succ, Nat.mul_comm] at hd
    omega

theorem Fmt.grid_strictMono : StrictMono f.grid := by
  refine strictMono_nat_of_lt_succ fun k => ?_
  obtain ⟨k0, s, rfl, hk, hs⟩ := f.exists_steps k
  rw [f.grid_eq hk.le hs, show k0 + s * 2 ^ f.fbits + 1 = (k0 + 1) + s * 2 ^ f.fbits by omega,
    f.grid_eq hk (hs.imp_right (by omega))]
  exact mul_lt_mul_of_pos_right (by norm_cast; omega) (by positivity)

theorem Fmt.grid_zero : f.grid 0 = 0 := by simp [Fmt.grid]

theorem Fmt.grid_nonneg (k : Nat) : 0 ≤ f.grid k := by unfold Fmt.grid; positivity

end

/-! ### Where a magnitude lies -/

/-- The size of the step in which a magnitude from 2^top on lies, as an exponent (R70). -/
def Fmt.step (f : Fmt) (top : Int) : Int := max (top - f.fbits) f.qmin

section
variable (f : Fmt) {a : ℝ} {top : Int}

/-- A magnitude below 2^(top + 1) has at most the format's steps. -/
theorem Fmt.floor_steps_lt (ha : 0 ≤ a) (h : a < (2 : ℝ) ^ (top + 1)) : ⌊a / (2 : ℝ) ^ f.step top⌋₊ < 2 ^ (f.fbits + 1) := by
  rw [Nat.floor_lt (by positivity), div_lt_iff₀ (by positivity)]
  refine h.trans_le ?_
  push_cast
  rw [← zpow_natCast, ← zpow_add₀ two_ne_zero]
  exact zpow_le_zpow_right₀ one_le_two (by simp only [Fmt.step]; push_cast; omega)

theorem Fmt.le_floor_steps (h : (2 : ℝ) ^ top ≤ a) : (f.step top - f.qmin).toNat = 0 ∨ 2 ^ f.fbits ≤ ⌊a / (2 : ℝ) ^ f.step top⌋₊ := by
  by_cases hq : top - f.fbits ≤ f.qmin
  · exact .inl (by simp only [Fmt.step]; omega)
  · refine .inr (Nat.le_floor ?_)
    rw [le_div_iff₀ (by positivity)]
    refine le_trans ?_ h
    push_cast
    rw [← zpow_natCast, ← zpow_add₀ two_ne_zero]
    exact zpow_le_zpow_right₀ one_le_two (by simp only [Fmt.step]; omega)

/-- The code at or below a magnitude from 2^top on. -/
noncomputable def Fmt.below (f : Fmt) (top : Int) (a : ℝ) : Nat := ⌊a / (2 : ℝ) ^ f.step top⌋₊ + (f.step top - f.qmin).toNat * 2 ^ f.fbits

theorem Fmt.grid_below (ha : 0 ≤ a) (h : (2 : ℝ) ^ top ≤ a) (h' : a < (2 : ℝ) ^ (top + 1)) :
    f.grid (f.below top a) = ⌊a / (2 : ℝ) ^ f.step top⌋₊ * (2 : ℝ) ^ f.step top ∧
      f.grid (f.below top a + 1) = (⌊a / (2 : ℝ) ^ f.step top⌋₊ + 1) * (2 : ℝ) ^ f.step top := by
  have hlt := f.floor_steps_lt ha h'
  have hle := f.le_floor_steps h
  have hq : f.qmin + ((f.step top - f.qmin).toNat : Int) = f.step top := by
    have : f.qmin ≤ f.step top := le_max_right _ _
    omega
  constructor
  · rw [Fmt.below, f.grid_eq hlt.le hle, hq]
  · rw [Fmt.below, Nat.add_right_comm, f.grid_eq hlt (hle.imp_right (by omega)), hq]
    push_cast
    rfl

end

end Sys2Proof.Machine

namespace Sys2Proof.Machine

/-! ### Which end of a step a mode picks -/

/-- A magnitude that lies the part t into its step, from a code that is odd or not, goes to the step's far end (R78, R81). -/
noncomputable def Away (rd : Rounding) (neg odd : Bool) (t : ℝ) : Prop :=
  t ≠ 0 ∧ match rd with
  | .stoch r => 65536 ≤ ⌊t * 65536⌋ + (r : Int)
  | .det .rtz => False
  | .det .rup => neg = false
  | .det .rdn => neg = true
  | .det .rna => 1 / 2 ≤ t
  | .det _ => 1 / 2 < t ∨ t = 1 / 2 ∧ odd = true

/-- How the part t compares with a half. -/
def HalfIs (o : Ordering) (t : ℝ) : Prop := (o = .lt ↔ t < 1 / 2) ∧ (o = .gt ↔ 1 / 2 < t)

theorem HalfIs.eq_iff {o : Ordering} {t : ℝ} (h : HalfIs o t) : o = .eq ↔ t = 1 / 2 := by
  obtain ⟨hl, hg⟩ := h
  cases o
  · simp only [true_iff, reduceCtorEq, false_iff] at hl ⊢; exact hl.ne
  · simp only [reduceCtorEq, false_iff, not_lt, true_iff] at hl hg ⊢; exact le_antisymm hg hl
  · simp only [true_iff, reduceCtorEq, false_iff] at hg ⊢; exact hg.ne'

/-- The model's choice is Away, where it is given how the part compares with a half and its first 16 bits. -/
theorem roundsAway_iff {rd : Rounding} {neg odd : Bool} {half : Ordering} {n : Nat} {t : ℝ} (ht : t ≠ 0) (hh : HalfIs half t)
    (hn : rd.draws = true → (n : Int) = ⌊t * 65536⌋) : roundsAway rd neg odd half n = true ↔ Away rd neg odd t := by
  have he := hh.eq_iff
  obtain ⟨hl, hg⟩ := hh
  cases rd with
  | stoch r =>
    simp only [roundsAway, Away, ge_iff_le, decide_eq_true_eq, ← hn rfl, ht, ne_eq, not_false_eq_true, true_and]
    omega
  | det m => cases m <;> simp [roundsAway, Away, ht, hl, hg, he]

/-- An exact magnitude: m units of 2^e, or with more below the last of them. -/
def Magnitude (m : Nat) (e : Int) (sticky : Bool) (a : ℝ) : Prop :=
  if sticky then (m : ℝ) * (2 : ℝ) ^ e < a ∧ a < ((m : ℝ) + 1) * (2 : ℝ) ^ e else a = (m : ℝ) * (2 : ℝ) ^ e

theorem Magnitude.nonneg {m : Nat} {e : Int} {sticky : Bool} {a : ℝ} (h : Magnitude m e sticky a) : 0 ≤ a := by
  cases sticky
  · rw [show a = _ from h]; positivity
  · exact le_trans (by positivity) h.1.le

/-- A magnitude in steps of 2^(e + s), as its m units and a rest below one unit. -/
theorem Magnitude.exists_rest {m : Nat} {e : Int} {sticky : Bool} {a : ℝ} (h : Magnitude m e sticky a) (s : Nat) :
    ∃ δ : ℝ, 0 ≤ δ ∧ δ < 1 ∧ (sticky = false ↔ δ = 0) ∧ a / (2 : ℝ) ^ (e + s) = (m + δ) / 2 ^ s := by
  have hp : (0 : ℝ) < (2 : ℝ) ^ e := by positivity
  refine ⟨a / (2 : ℝ) ^ e - m, ?_, ?_, ?_, ?_⟩
  · cases sticky
    · simp [show a = _ from h, hp.ne']
    · rw [sub_nonneg, le_div_iff₀ hp]; exact h.1.le
  · cases sticky
    · simp [show a = _ from h, hp.ne']
    · rw [sub_lt_iff_lt_add', div_lt_iff₀ hp]; exact h.2
  · cases sticky
    · simp [show a = _ from h, hp.ne']
    · simp only [Bool.true_eq_false, false_iff, sub_eq_zero]
      rw [div_eq_iff hp.ne']; exact h.1.ne'
  · rw [zpow_add₀ two_ne_zero, zpow_natCast]
    field_simp
    ring

theorem floor_add_of_lt {k : Nat} {t : ℝ} (h : 0 ≤ t) (h' : t < 1) : ⌊(k : ℝ) + t⌋₊ = k ∧ Int.fract ((k : ℝ) + t) = t :=
  ⟨by rw [add_comm, Nat.floor_add_natCast h, Nat.floor_eq_zero.2 h', zero_add], by rw [Int.fract_natCast_add, Int.fract_eq_self.2 ⟨h, h'⟩]⟩

/-- The comparison with a half that `roundAt` makes of a rest below 2^s. -/
theorem halfIs_rest {rem s : Nat} {sticky : Bool} {δ : ℝ} (h0 : 0 ≤ δ) (h1 : δ < 1) (hδ : sticky = false ↔ δ = 0) (hs : 0 < s) :
    HalfIs (if 2 * rem < 2 ^ s then .lt else if 2 * rem == 2 ^ s && !sticky then .eq else .gt) (((rem : ℝ) + δ) / 2 ^ s) := by
  obtain ⟨h, hh⟩ : ∃ h, 2 ^ s = 2 * h := ⟨2 ^ (s - 1), by rw [← pow_succ']; congr 1; omega⟩
  have hhr : (2 : ℝ) ^ s = 2 * h := by exact_mod_cast hh
  have hpos : 0 < h := by have : 0 < 2 ^ s := by positivity
                          omega
  have hpos' : (0 : ℝ) < h := by exact_mod_cast hpos
  have hlt : ((rem : ℝ) + δ) / 2 ^ s < 1 / 2 ↔ (rem : ℝ) + δ < h := by
    rw [hhr, div_lt_div_iff₀ (by positivity) two_pos]; constructor <;> intro h <;> linarith
  have hgt : 1 / 2 < ((rem : ℝ) + δ) / 2 ^ s ↔ (h : ℝ) < rem + δ := by
    rw [hhr, div_lt_div_iff₀ two_pos (by positivity)]; constructor <;> intro h <;> linarith
  rw [HalfIs, hlt, hgt, hh]
  rcases lt_trichotomy rem h with hr | hr | hr
  · have hr' : (rem : ℝ) + 1 ≤ h := by exact_mod_cast hr
    have hx : (rem : ℝ) + δ < h := by linarith
    simp [show 2 * rem < 2 * h by omega, hx, hx.le]
  · subst hr
    by_cases hd : δ = 0
    · simp [hδ.2 hd, hd]
    · have hp : 0 < δ := lt_of_le_of_ne h0 (Ne.symm hd)
      have hst : sticky = true := by simpa using mt hδ.1 hd
      simp [hst, hp, h0]
  · have hr' : (h : ℝ) + 1 ≤ rem := by exact_mod_cast hr
    have hx : (h : ℝ) < rem + δ := by linarith
    simp [show ¬ 2 * rem < 2 * h by omega, show ¬ rem = h by omega, hx, hx.le]

open Classical in
/-- A magnitude of x steps rounded to a whole number of them, and whether that changes it. -/
noncomputable def stepsOf (rd : Rounding) (neg : Bool) (x : ℝ) : Nat × Bool :=
  (⌊x⌋₊ + (if Away rd neg (⌊x⌋₊ % 2 == 1) (Int.fract x) then 1 else 0), decide (Int.fract x ≠ 0))

/-- A whole number of steps stays. -/
theorem stepsOf_natCast (rd : Rounding) (neg : Bool) (k : Nat) : stepsOf rd neg k = (k, false) := by
  simp [stepsOf, Away]

open Classical in
/-- A number of steps and a part of one. -/
theorem stepsOf_add (rd : Rounding) (neg : Bool) (k : Nat) {t : ℝ} (h : 0 < t) (h' : t < 1) :
    stepsOf rd neg (k + t) = (k + (if Away rd neg (k % 2 == 1) t then 1 else 0), true) := by
  obtain ⟨hf, ht⟩ := floor_add_of_lt (k := k) h.le h'
  simp [stepsOf, hf, ht, h.ne']

/-- With the choice that the model makes. -/
theorem stepsOf_roundsAway {rd : Rounding} {neg : Bool} {k n : Nat} {half : Ordering} {t : ℝ} (h : 0 < t) (h' : t < 1)
    (hh : HalfIs half t) (hn : rd.draws = true → (n : Int) = ⌊t * 65536⌋) :
    stepsOf rd neg (k + t) = ((if roundsAway rd neg (k % 2 == 1) half n then k + 1 else k), true) := by
  rw [stepsOf_add rd neg k h h']
  simp only [← roundsAway_iff h.ne' hh hn]
  split <;> rfl

section
variable {rd : Rounding} {neg : Bool} {m s : Nat} {e : Int} {sticky : Bool} {δ : ℝ}

/-- A magnitude far below its step. -/
theorem roundAt_far (h0 : 0 ≤ δ) (h1 : δ < 1) (hδ : sticky = false ↔ δ = 0) (hs : m.log2 + 20 < s) :
    roundAt rd neg m e sticky (e + s) = stepsOf rd neg ((m + δ) / 2 ^ s) := by
  have hm : (m : ℝ) + δ < 2 ^ (s - 20) := by
    have : m + 1 ≤ 2 ^ (s - 20) := (Nat.lt_log2_self).trans_le (Nat.pow_le_pow_right (by decide) (by omega))
    have : (m : ℝ) + 1 ≤ 2 ^ (s - 20) := by exact_mod_cast this
    linarith
  have hsmall : (m + δ) / 2 ^ s * 65536 < 1 := by
    have : (2 : ℝ) ^ s = 2 ^ (s - 20) * 2 ^ 20 := by rw [← pow_add]; congr 1; omega
    rw [this, div_mul_eq_mul_div, div_lt_one (by positivity)]
    nlinarith [hm, show (0 : ℝ) < 2 ^ (s - 20) by positivity]
  have hx : roundAt rd neg m e sticky (e + s) =
      if m == 0 && !sticky then (0, false) else ((if roundsAway rd neg false .lt 0 then 1 else 0), true) := by
    simp only [roundAt, show ¬ (e + s ≤ e) by omega, show (e + s - e).toNat = s by omega, hs, if_true, if_false]
  rw [hx]
  by_cases hz : m = 0 ∧ sticky = false
  · obtain ⟨rfl, hst⟩ := hz
    simpa [hst, hδ.1 hst] using (stepsOf_natCast rd neg 0).symm
  · have hpos : 0 < (m + δ) / 2 ^ s := by
      rcases Nat.eq_zero_or_pos m with hm0 | hm0
      · have : δ ≠ 0 := fun hd => hz ⟨hm0, hδ.2 hd⟩
        have : 0 < δ := lt_of_le_of_ne h0 (Ne.symm this)
        positivity
      · have : (0 : ℝ) < m := by exact_mod_cast hm0
        positivity
    have hst := stepsOf_roundsAway (rd := rd) (neg := neg) (k := 0) (n := 0) (half := .lt) hpos (by linarith)
      ⟨by simp only [true_iff]; linarith, by simp only [reduceCtorEq, false_iff]; linarith⟩
      (fun _ => (Int.floor_eq_zero_iff.2 ⟨by positivity, hsmall⟩).symm)
    rw [Nat.cast_zero, zero_add] at hst
    have hz' : (m == 0 && !sticky) = false := by simpa using hz
    rw [hst, hz']
    rfl

/-- A magnitude near its step: the quotient and the rest. -/
theorem roundAt_near (h0 : 0 ≤ δ) (h1 : δ < 1) (hδ : sticky = false ↔ δ = 0) (hs0 : 0 < s) (hs : s ≤ m.log2 + 20)
    (hd : sticky = true → rd.draws = false) : roundAt rd neg m e sticky (e + s) = stepsOf rd neg ((m + δ) / 2 ^ s) := by
  have hrem : m % 2 ^ s < 2 ^ s := Nat.mod_lt _ (by positivity)
  have hsplit : ((m : ℝ) + δ) / 2 ^ s = ((m / 2 ^ s : Nat) : ℝ) + (((m % 2 ^ s : Nat) : ℝ) + δ) / 2 ^ s := by
    have : (m : ℝ) = 2 ^ s * ((m / 2 ^ s : Nat) : ℝ) + ((m % 2 ^ s : Nat) : ℝ) := by
      exact_mod_cast (Nat.div_add_mod m (2 ^ s)).symm
    conv_lhs => rw [this]
    field_simp
    ring
  have hx : roundAt rd neg m e sticky (e + s) =
      if m % 2 ^ s == 0 && !sticky then (m / 2 ^ s, false)
      else ((if roundsAway rd neg (m / 2 ^ s % 2 == 1)
        (if 2 * (m % 2 ^ s) < 2 ^ s then .lt else if 2 * (m % 2 ^ s) == 2 ^ s && !sticky then .eq else .gt)
        (m % 2 ^ s * 2 ^ 16 / 2 ^ s) then m / 2 ^ s + 1 else m / 2 ^ s), true) := by
    simp only [roundAt, show ¬ (e + s ≤ e) by omega, show (e + s - e).toNat = s by omega, show ¬ (s > m.log2 + 20) by omega,
      if_false, Nat.shiftRight_eq_div_pow, Nat.shiftLeft_eq]
  rw [hx, hsplit]
  generalize m % 2 ^ s = rem at hrem ⊢
  have hrem' : (rem : ℝ) + 1 ≤ 2 ^ s := by exact_mod_cast hrem
  by_cases hz : rem = 0 ∧ sticky = false
  · obtain ⟨rfl, hst⟩ := hz
    simpa [hst, hδ.1 hst] using (stepsOf_natCast rd neg (m / 2 ^ s)).symm
  · have hz' : (rem == 0 && !sticky) = false := by simpa using hz
    have hpos : 0 < ((rem : ℝ) + δ) / 2 ^ s := by
      rcases Nat.eq_zero_or_pos rem with hm0 | hm0
      · have : δ ≠ 0 := fun hd => hz ⟨hm0, hδ.2 hd⟩
        have : 0 < δ := lt_of_le_of_ne h0 (Ne.symm this)
        positivity
      · have : (0 : ℝ) < rem := by exact_mod_cast hm0
        positivity
    have hone : ((rem : ℝ) + δ) / 2 ^ s < 1 := by rw [div_lt_one (by positivity)]; linarith
    rw [hz', stepsOf_roundsAway hpos hone (halfIs_rest h0 h1 hδ hs0) (n := rem * 2 ^ 16 / 2 ^ s) fun hdr => ?_]
    · rfl
    · have hst : sticky = false := by
        by_contra h
        rw [hd (by simpa using h)] at hdr
        cases hdr
      have := Nat.floor_div_eq_div (K := ℝ) (rem * 2 ^ 16) (2 ^ s)
      rw [hδ.1 hst, add_zero, ← Int.natCast_floor_eq_floor (by positivity), ← this]
      push_cast
      congr 2
      ring

end

/-- `roundAt` counts a magnitude in steps of 2^q and rounds that once. -/
theorem roundAt_eq {rd : Rounding} {neg : Bool} {m : Nat} {e q : Int} {sticky : Bool} {a : ℝ} (ha : Magnitude m e sticky a)
    (hs : sticky = true → e < q ∧ rd.draws = false) : roundAt rd neg m e sticky q = stepsOf rd neg (a / (2 : ℝ) ^ q) := by
  by_cases hq : q ≤ e
  · have hst : sticky = false := by
      by_contra h
      have := (hs (by simpa using h)).1
      omega
    subst hst
    have hx : a / (2 : ℝ) ^ q = (m <<< (e - q).toNat : Nat) := by
      simp only [show a = _ from ha, mul_div_assoc, ← zpow_sub₀ (two_ne_zero' ℝ), Nat.shiftLeft_eq]
      push_cast
      rw [← zpow_natCast, Int.toNat_of_nonneg (by omega)]
    rw [hx, stepsOf_natCast, roundAt, if_pos hq]
    rfl
  · obtain ⟨s, rfl⟩ : ∃ s : Nat, q = e + s := ⟨(q - e).toNat, by omega⟩
    obtain ⟨δ, h0, h1, hδ, hx⟩ := ha.exists_rest s
    rw [hx]
    by_cases hfar : m.log2 + 20 < s
    · exact roundAt_far h0 h1 hδ hfar
    · exact roundAt_near h0 h1 hδ (by omega) (by omega) fun h => (hs h).2

end Sys2Proof.Machine

namespace Sys2Proof.Machine

/-! ### The code that a mode picks -/

/-- What the codes of a format must be for its grid to be theirs: the code above the largest finite one is no other sign's. -/
structure Fmt.Sound (f : Fmt) : Prop where
  fbits_pos : 0 < f.fbits
  top_lt : f.maxBits + 1 < 2 ^ (f.fbits + f.ebits)
  normal_le : 2 ^ f.fbits ≤ f.maxBits

theorem Fmt.sound_of_fmtOf {ty : Ty} {f : Fmt} (h : fmtOf ty = some f) : f.Sound := by
  cases ty <;> simp only [fmtOf, Option.some.injEq, reduceCtorEq] at h <;> subst h <;> exact ⟨by decide, by decide, by decide⟩

section
variable {f : Fmt} (hf : f.Sound) {rd : Rounding} {neg : Bool} {a : ℝ} {j : Nat}

include hf in
theorem Fmt.num_le_top {k : Nat} (hk : k ≤ f.maxBits + 1) : f.num k = f.grid k := f.num_of_lt (by have := hf.top_lt; omega)

/-- k is the greatest finite code at or below a. -/
def Fmt.Low (f : Fmt) (a : ℝ) (k : Nat) : Prop := k ≤ f.maxBits ∧ f.num k ≤ a ∧ ∀ j, j ≤ f.maxBits → f.num j ≤ a → j ≤ k

/-- k is the least code at or above a; beyond the finite ones, the one above them. -/
def Fmt.High (f : Fmt) (a : ℝ) (k : Nat) : Prop :=
  k ≤ f.maxBits + 1 ∧ (a ≤ f.num k ∨ k = f.maxBits + 1) ∧ ∀ j, j ≤ f.maxBits → a ≤ f.num j → k ≤ j

/-- k is nearest to a, and where another code is as near, tie holds of that one. -/
def Fmt.Near (f : Fmt) (a : ℝ) (tie : Nat → Prop) (k : Nat) : Prop :=
  k ≤ f.maxBits + 1 ∧ ∀ j, j ≤ f.maxBits + 1 → j ≠ k → |a - f.num k| < |a - f.num j| ∨ |a - f.num k| = |a - f.num j| ∧ tie j

include hf

theorem Fmt.low_within (hj : j ≤ f.maxBits) (h : f.grid j ≤ a) (h' : a < f.grid (j + 1)) : f.Low a j := by
  refine ⟨hj, by rwa [f.num_le_top hf (by omega)], fun i hi hia => ?_⟩
  rw [f.num_le_top hf (by omega)] at hia
  exact Nat.lt_succ_iff.1 (f.grid_strictMono.lt_iff_lt.1 (hia.trans_lt h'))

theorem Fmt.low_beyond (h : f.grid (f.maxBits + 1) ≤ a) : f.Low a f.maxBits := by
  refine ⟨le_rfl, ?_, fun i hi _ => hi⟩
  rw [f.num_le_top hf (by omega)]
  exact (f.grid_strictMono (Nat.lt_succ_self _)).le.trans h

theorem Fmt.high_within (hj : j ≤ f.maxBits) (h : f.grid j < a) (h' : a < f.grid (j + 1)) : f.High a (j + 1) := by
  refine ⟨by omega, .inl ?_, fun i hi hia => ?_⟩
  · rw [f.num_le_top hf (by omega)]; exact h'.le
  · rw [f.num_le_top hf (by omega)] at hia
    exact f.grid_strictMono.lt_iff_lt.1 (h.trans_le hia)

theorem Fmt.high_exact (hj : j ≤ f.maxBits) (h : f.grid j = a) : f.High a j := by
  refine ⟨by omega, .inl ?_, fun i hi hia => ?_⟩
  · rw [f.num_le_top hf (by omega)]; exact h.ge
  · rw [f.num_le_top hf (by omega), ← h] at hia
    exact f.grid_strictMono.le_iff_le.1 hia

theorem Fmt.high_beyond (h : f.grid (f.maxBits + 1) ≤ a) : f.High a (f.maxBits + 1) := by
  refine ⟨le_rfl, .inr rfl, fun i hi hia => ?_⟩
  rw [f.num_le_top hf (by omega)] at hia
  exact f.grid_strictMono.le_iff_le.1 (h.trans hia)

theorem Fmt.near_beyond {tie : Nat → Prop} (h : f.grid (f.maxBits + 1) ≤ a) : f.Near a tie (f.maxBits + 1) := by
  refine ⟨le_rfl, fun i hi hne => .inl ?_⟩
  have := f.grid_strictMono (show i < f.maxBits + 1 by omega)
  rw [f.num_le_top hf hi, f.num_le_top hf le_rfl, abs_of_nonneg (by linarith), abs_of_nonneg (by linarith)]
  linarith

/-- The near end of a step is nearest in its first half. -/
theorem Fmt.near_lower {tie : Nat → Prop} (hj : j ≤ f.maxBits) (h : f.grid j ≤ a) (h' : a < f.grid (j + 1))
    (ht : a - f.grid j < f.grid (j + 1) - a ∨ a - f.grid j = f.grid (j + 1) - a ∧ tie (j + 1)) : f.Near a tie j := by
  refine ⟨by omega, fun i hi hne => ?_⟩
  rw [f.num_le_top hf hi, f.num_le_top hf (by omega), abs_of_nonneg (sub_nonneg.2 h)]
  rcases lt_or_ge i j with hij | hij
  · have := f.grid_strictMono hij
    rw [abs_of_nonneg (by linarith)]
    exact .inl (by linarith)
  · rcases (show j + 1 ≤ i by omega).eq_or_lt with rfl | hij
    · rw [abs_of_neg (by linarith), neg_sub]
      exact ht
    · have := f.grid_strictMono hij
      rw [abs_of_neg (by linarith)]
      rcases ht with ht | ht
      · exact .inl (by linarith)
      · exact .inl (by linarith [ht.1])

/-- The far end of a step is nearest in its second half. -/
theorem Fmt.near_upper {tie : Nat → Prop} (hj : j ≤ f.maxBits) (h : f.grid j ≤ a) (h' : a < f.grid (j + 1))
    (ht : f.grid (j + 1) - a < a - f.grid j ∨ f.grid (j + 1) - a = a - f.grid j ∧ tie j) : f.Near a tie (j + 1) := by
  refine ⟨by omega, fun i hi hne => ?_⟩
  rw [f.num_le_top hf hi, f.num_le_top hf (by omega), abs_of_neg (sub_neg.2 h'), neg_sub]
  rcases lt_or_ge (j + 1) i with hij | hij
  · have := f.grid_strictMono hij
    rw [abs_of_neg (by linarith)]
    exact .inl (by linarith)
  · rcases (show i ≤ j by omega).eq_or_lt with rfl | hij
    · rw [abs_of_nonneg (sub_nonneg.2 h)]
      exact ht
    · have := f.grid_strictMono hij
      rw [abs_of_nonneg (by linarith)]
      rcases ht with ht | ht
      · exact .inl (by linarith)
      · exact .inl (by linarith [ht.1])

omit hf in
/-- The part of a step that a magnitude lies into it, against none and a half. -/
theorem part_iff {u v : ℝ} (h : u ≤ a) (h' : a < v) : ((a - u) / (v - u) = 0 ↔ u = a) ∧ ((a - u) / (v - u) < 1 / 2 ↔ a - u < v - a) ∧
    (1 / 2 < (a - u) / (v - u) ↔ v - a < a - u) := by
  have hp : 0 < v - u := by linarith
  refine ⟨by rw [div_eq_zero_iff, or_iff_left hp.ne', sub_eq_zero, eq_comm], ?_, ?_⟩
  · rw [div_lt_div_iff₀ hp two_pos]; constructor <;> intro h <;> linarith
  · rw [div_lt_div_iff₀ two_pos hp]; constructor <;> intro h <;> linarith

section
variable (hj : j ≤ f.maxBits) (h : f.grid j ≤ a) (h' : a < f.grid (j + 1)) {t : ℝ}
  (ht : t = (a - f.grid j) / (f.grid (j + 1) - f.grid j))
include hj h h' ht

/-- Away from zero. -/
theorem Fmt.high_part : f.High a (j + if t ≠ 0 then 1 else 0) := by
  obtain ⟨h0, -, -⟩ := part_iff h h'
  rw [← ht] at h0
  by_cases he : t = 0
  · rw [if_neg (not_not.2 he)]; exact f.high_exact hf hj (h0.1 he)
  · rw [if_pos he]; exact f.high_within hf hj (lt_of_le_of_ne h (mt h0.2 he)) h'

/-- To the nearest, where k says to which end a tie goes and tie holds of the other. -/
theorem Fmt.near_part {tie : Nat → Prop} {k : Prop} [Decidable k] (hk : t = 1 / 2 → k → tie j)
    (hnk : t = 1 / 2 → ¬k → tie (j + 1)) :
    f.Near a tie (j + if 1 / 2 < t ∨ t = 1 / 2 ∧ k then 1 else 0) := by
  obtain ⟨-, hlt, hgt⟩ := part_iff h h'
  rw [← ht] at hlt hgt
  rcases lt_trichotomy t (1 / 2) with hh | hh | hh
  · rw [if_neg (by simp only [hh.not_gt, hh.ne, false_and, or_self, not_false_eq_true])]
    exact f.near_lower hf hj h h' (.inl (hlt.1 hh))
  · have hmid : a - f.grid j = f.grid (j + 1) - a :=
      le_antisymm (not_lt.1 fun hc => (hgt.2 hc).ne' hh) (not_lt.1 fun hc => (hlt.2 hc).ne hh)
    by_cases hk' : k
    · rw [if_pos (.inr ⟨hh, hk'⟩)]
      exact f.near_upper hf hj h h' (.inr ⟨hmid.symm, hk hh hk'⟩)
    · rw [if_neg (by simp only [hh, hk', lt_self_iff_false, and_false, or_self, not_false_eq_true])]
      exact f.near_lower hf hj h h' (.inr ⟨hmid, hnk hh hk'⟩)
  · rw [if_pos (.inl hh)]
    exact f.near_upper hf hj h h' (.inl (hgt.1 hh))

open Classical in
theorem Fmt.picks_stoch {r : Nat} (hr : r < 65536) :
    f.picks (.stoch r) neg a (j + if Away (.stoch r) neg (j % 2 == 1) t then 1 else 0) := by
  have htop : ¬ f.num (f.maxBits + 1) ≤ a := by
    rw [f.num_le_top hf le_rfl, not_le]
    exact h'.trans_le (f.grid_strictMono.monotone (by omega))
  have hc : (f.num (f.maxBits + 1) ≤ a ∨ 65536 ≤ ⌊(a - f.num j) / (f.num (j + 1) - f.num j) * 65536⌋ + (r : Int)) ↔
      Away (.stoch r) neg (j % 2 == 1) t := by
    rw [f.num_le_top hf (by omega : j ≤ _), f.num_le_top hf (by omega : j + 1 ≤ _), ← ht, Away, or_iff_right htop, iff_and_self]
    rintro hc rfl
    simp only [zero_mul, Int.floor_zero] at hc
    omega
  refine ⟨j, f.low_within hf hj h h', fun h => ?_, fun h => ?_⟩
  · rw [if_pos (hc.1 h)]
  · rw [if_neg (mt hc.2 h), add_zero]

end

omit hf in
theorem away_even (neg odd : Bool) (t : ℝ) : Away (.det .rne) neg odd t ↔ 1 / 2 < t ∨ t = 1 / 2 ∧ odd = true := by
  refine and_iff_right_of_imp ?_
  rintro (h | ⟨h, -⟩)
  · exact (lt_trans (by norm_num) h).ne'
  · rw [h]; norm_num

omit hf in
theorem away_rna (neg odd : Bool) (t : ℝ) : Away (.det .rna) neg odd t ↔ 1 / 2 < t ∨ t = 1 / 2 ∧ True := by
  rw [and_true, or_comm, eq_comm, ← le_iff_eq_or_lt]
  exact and_iff_right_of_imp fun h => (lt_of_lt_of_le (by norm_num) h).ne'

open Classical in
/-- In the step from code j on. -/
theorem Fmt.picks_within (hr : ∀ r, rd = .stoch r → r < 65536) (hj : j ≤ f.maxBits) (h : f.grid j ≤ a) (h' : a < f.grid (j + 1)) :
    f.picks rd neg a (j + if Away rd neg (j % 2 == 1) ((a - f.grid j) / (f.grid (j + 1) - f.grid j)) then 1 else 0) := by
  obtain ⟨t, ht⟩ : ∃ t, t = (a - f.grid j) / (f.grid (j + 1) - f.grid j) := ⟨_, rfl⟩
  rw [← ht]
  have hlow : f.Low a (j + if False then 1 else 0) := by rw [if_neg id]; exact f.low_within hf hj h h'
  have hhigh := f.high_part hf hj h h' ht
  have heven : f.Near a (fun _ => (j + if Away (.det .rne) neg (j % 2 == 1) t then 1 else 0) % 2 = 0)
      (j + if Away (.det .rne) neg (j % 2 == 1) t then 1 else 0) := by
    simp only [away_even, beq_iff_eq]
    refine f.near_part hf hj h h' ht (fun hh hk => ?_) (fun hh hk => ?_)
    · simp only [hh, hk, and_self, or_true, if_true]; omega
    · simp only [hh, hk, lt_self_iff_false, and_false, or_self, if_false]; omega
  cases rd with
  | stoch r => exact f.picks_stoch hf hj h h' ht (hr r rfl)
  | det m =>
    cases m with
    | rtz => simp only [Away, and_false]; exact hlow
    | rup =>
      cases neg
      · simp only [Away, and_true]; exact hhigh
      · simp only [Away, Bool.true_eq_false, and_false]; exact hlow
    | rdn =>
      cases neg
      · simp only [Away, Bool.false_eq_true, and_false]; exact hlow
      · simp only [Away, and_true]; exact hhigh
    | rna =>
      simp only [away_rna]
      refine f.near_part hf hj h h' ht (fun hh _ => ?_) fun _ hk => absurd trivial hk
      simp [hh]
    | rne => exact heven
    | rsr => exact heven
    | dyn => exact heven

open Classical in
/-- From the code above the largest finite one on. -/
theorem Fmt.picks_beyond (h : f.grid (f.maxBits + 1) ≤ a) :
    f.picks rd neg a (match rd with
      | .det .rtz => f.maxBits
      | .det .rup => if neg then f.maxBits else f.maxBits + 1
      | .det .rdn => if neg then f.maxBits + 1 else f.maxBits
      | _ => f.maxBits + 1) := by
  have hlow := f.low_beyond hf h
  have hhigh := f.high_beyond hf h
  cases rd with
  | stoch r =>
    have hn : f.num (f.maxBits + 1) ≤ a := by rwa [f.num_le_top hf le_rfl]
    exact ⟨f.maxBits, hlow, fun _ => rfl, fun hc => absurd (.inl hn) hc⟩
  | det m =>
    cases m with
    | rtz => exact hlow
    | rup => cases neg <;> assumption
    | rdn => cases neg <;> assumption
    | rna => exact f.near_beyond hf h
    | rne => exact f.near_beyond hf h
    | rsr => exact f.near_beyond hf h
    | dyn => exact f.near_beyond hf h
end
end Sys2Proof.Machine

namespace Sys2Proof.Machine

/-! ### Tiny after rounding (R70, R81) -/

section
variable {f : Fmt} {rd : Rounding} {neg : Bool} {a : ℝ}

theorem Fmt.tiny_lt (h : f.tiny rd neg a) : a < (2 : ℝ) ^ (f.qmin + (f.fbits : Int)) := by
  have hu : (0 : ℝ) < (2 : ℝ) ^ (f.qmin - 1) := by positivity
  cases rd with
  | stoch r => exact h.1
  | det m => cases m <;> cases neg <;> simp only [Fmt.tiny, if_true, if_false, Bool.false_eq_true] at h <;> linarith

/-- More than a step of 2^(qmin − 1) below the least normal number, or that step below it. -/
theorem Fmt.tiny_of_lt (h : a < (2 : ℝ) ^ (f.qmin + (f.fbits : Int)) - (2 : ℝ) ^ (f.qmin - 1)) : f.tiny rd neg a := by
  have hu : (0 : ℝ) < (2 : ℝ) ^ (f.qmin - 1) := by positivity
  cases rd with
  | stoch r => exact ⟨by linarith, fun hc => by linarith [hc.1]⟩
  | det m => cases m <;> cases neg <;> simp only [Fmt.tiny, if_true, if_false, Bool.false_eq_true] <;> linarith

/-- In the last step of 2^(qmin − 1) below the least normal number. -/
theorem Fmt.tiny_last {t : ℝ} (h0 : 0 ≤ t) (h1 : t < 1) (hr : ∀ r, rd = .stoch r → r < 65536)
    (ha : a = (2 : ℝ) ^ (f.qmin + (f.fbits : Int)) - (2 : ℝ) ^ (f.qmin - 1) + t * (2 : ℝ) ^ (f.qmin - 1)) :
    f.tiny rd neg a ↔ ¬ Away rd neg true t := by
  have hu : (0 : ℝ) < (2 : ℝ) ^ (f.qmin - 1) := by positivity
  have hb : a < (2 : ℝ) ^ (f.qmin + (f.fbits : Int)) := by nlinarith
  have hge : (2 : ℝ) ^ (f.qmin + (f.fbits : Int)) - (2 : ℝ) ^ (f.qmin - 1) ≤ a := by nlinarith
  have hle : a ≤ (2 : ℝ) ^ (f.qmin + (f.fbits : Int)) - (2 : ℝ) ^ (f.qmin - 1) ↔ t = 0 := by
    rw [ha, add_le_iff_nonpos_right]
    exact ⟨fun h => le_antisymm (nonpos_of_mul_nonpos_left h hu) h0, fun h => by rw [h, zero_mul]⟩
  have hhalf : a < (2 : ℝ) ^ (f.qmin + (f.fbits : Int)) - (2 : ℝ) ^ (f.qmin - 1) / 2 ↔ t < 1 / 2 := by
    rw [ha]; constructor <;> intro h <;> nlinarith
  have hpart : (a - ((2 : ℝ) ^ (f.qmin + (f.fbits : Int)) - (2 : ℝ) ^ (f.qmin - 1))) / (2 : ℝ) ^ (f.qmin - 1) = t := by
    rw [ha, add_sub_cancel_left, mul_div_assoc, div_self hu.ne', mul_one]
  have heven : t < 1 / 2 ↔ ¬ Away (.det .rne) neg true t := by
    rw [away_even, and_iff_left rfl, or_comm, eq_comm, ← le_iff_eq_or_lt, not_le]
  cases rd with
  | stoch r =>
    simp only [Fmt.tiny, hb, hge, hpart, true_and, Away]
    refine not_congr ⟨fun h => ⟨?_, h⟩, And.right⟩
    rintro rfl
    have := hr r rfl
    simp only [zero_mul, Int.floor_zero] at h
    omega
  | det m =>
    cases m with
    | rtz => exact iff_of_true hb fun hc => hc.2
    | rup => cases neg <;> simp [Fmt.tiny, Away, hb, hle]
    | rdn => cases neg <;> simp [Fmt.tiny, Away, hb, hle]
    | rna =>
      rw [away_rna, and_true, or_comm, eq_comm, ← le_iff_eq_or_lt, not_le]
      exact hhalf
    | rne => exact hhalf.trans heven
    | rsr => exact hhalf.trans heven
    | dyn => exact hhalf.trans heven

/-- The model's test: a magnitude from 2^top on is below the normal ones, and does not reach them when it is rounded in steps of
2^(top − fbits). -/
theorem Fmt.tiny_iff (hr : ∀ r, rd = .stoch r → r < 65536) {top : Int} (h : (2 : ℝ) ^ top ≤ a) (h' : a < (2 : ℝ) ^ (top + 1)) :
    f.tiny rd neg a ↔ top < f.qmin + (f.fbits : Int) ∧ ¬ (top + 1 = f.qmin + (f.fbits : Int) ∧
      2 ^ (f.fbits + 1) ≤ (stepsOf rd neg (a / (2 : ℝ) ^ (top - (f.fbits : Int)))).1) := by
  have hu : (0 : ℝ) < (2 : ℝ) ^ (f.qmin - 1) := by positivity
  rcases lt_trichotomy (top + 1) (f.qmin + (f.fbits : Int)) with ht | ht | ht
  · refine iff_of_true (Fmt.tiny_of_lt ?_) ⟨by omega, fun hc => ht.ne hc.1⟩
    have h1 : (2 : ℝ) ^ (top + 1) ≤ (2 : ℝ) ^ (f.qmin + (f.fbits : Int) - 1) := zpow_le_zpow_right₀ one_le_two (by omega)
    have h2 : (2 : ℝ) ^ (f.qmin - 1) ≤ (2 : ℝ) ^ (f.qmin + (f.fbits : Int) - 1) := zpow_le_zpow_right₀ one_le_two (by omega)
    have h3 : (2 : ℝ) ^ (f.qmin + (f.fbits : Int)) = 2 * (2 : ℝ) ^ (f.qmin + (f.fbits : Int) - 1) := by
      rw [← zpow_one_add₀ two_ne_zero]; congr 1; ring
    linarith
  · have hq : top - (f.fbits : Int) = f.qmin - 1 := by omega
    have hb : (2 : ℝ) ^ (f.qmin + (f.fbits : Int)) = 2 ^ (f.fbits + 1) * (2 : ℝ) ^ (f.qmin - 1) := by
      rw [← zpow_natCast, ← zpow_add₀ two_ne_zero]; congr 1; push_cast; ring
    have ha0 : 0 ≤ a := le_trans (by positivity) h
    rw [hq]
    generalize hx : a / (2 : ℝ) ^ (f.qmin - 1) = x
    have hax : a = x * (2 : ℝ) ^ (f.qmin - 1) := by rw [← hx, div_mul_cancel₀ _ hu.ne']
    have hx0 : 0 ≤ x := by rw [← hx]; positivity
    have hxN : x < 2 ^ (f.fbits + 1) := by
      rw [ht, hb, hax] at h'
      exact lt_of_mul_lt_mul_right h' hu.le
    have hfl : ⌊x⌋₊ < 2 ^ (f.fbits + 1) := (Nat.floor_lt hx0).2 (by exact_mod_cast hxN)
    have hsplit : x = ⌊x⌋₊ + Int.fract x := by rw [natCast_floor_eq_intCast_floor hx0, Int.floor_add_fract]
    by_cases hlast : ⌊x⌋₊ + 1 = 2 ^ (f.fbits + 1)
    · have hlast' : (2 : ℝ) ^ (f.fbits + 1) = ⌊x⌋₊ + 1 := by exact_mod_cast hlast.symm
      rw [Fmt.tiny_last (Int.fract_nonneg x) (Int.fract_lt_one x) hr (by rw [hb, hax, hlast', mul_comm]; conv_lhs => rw [hsplit]
                                                                         ring)]
      have hodd : (⌊x⌋₊ % 2 == 1) = true := by
        rw [beq_iff_eq]
        have := pow_succ 2 f.fbits
        omega
      have hiff : Away rd neg true (Int.fract x) ↔
          top + 1 = f.qmin + (f.fbits : Int) ∧ 2 ^ (f.fbits + 1) ≤ (stepsOf rd neg x).1 := by
        simp only [stepsOf]
        rw [hodd, ← hlast, and_iff_right ht]
        by_cases haway : Away rd neg true (Int.fract x) <;> simp [haway]
      rw [← hiff, and_iff_right (show top < _ by omega)]
    · refine iff_of_true (Fmt.tiny_of_lt ?_) ⟨by omega, fun hc => ?_⟩
      · have h2 : (⌊x⌋₊ : ℝ) + 1 + 1 ≤ 2 ^ (f.fbits + 1) := by exact_mod_cast (by omega : ⌊x⌋₊ + 1 + 1 ≤ 2 ^ (f.fbits + 1))
        have h3 := Nat.lt_floor_add_one x
        rw [hb, hax]
        nlinarith
      · have hN := hc.2
        simp only [stepsOf] at hN
        split at hN <;> omega
  · refine iff_of_false (fun hc => ?_) (fun hc => by omega)
    have := Fmt.tiny_lt hc
    have h1 : (2 : ℝ) ^ (f.qmin + (f.fbits : Int)) ≤ (2 : ℝ) ^ top := zpow_le_zpow_right₀ one_le_two (by omega)
    linarith

end

end Sys2Proof.Machine

namespace Sys2Proof.Machine

/-! ### The rounded encoding (R70, R78, R81, R84) -/

section
variable {f : Fmt} {rd : Rounding} {neg : Bool}

theorem Fmt.signedBits_lt {mag : Nat} (h : mag < 2 ^ (f.fbits + f.ebits)) : signedBits f neg mag < 2 ^ f.width := by
  rw [show f.width = (f.fbits + f.ebits) + 1 by rw [Fmt.width]; omega, pow_succ]
  unfold signedBits
  rw [Nat.add_comm f.ebits]
  split <;> omega

theorem Fmt.signedBits_mod {mag : Nat} (h : mag < 2 ^ (f.fbits + f.ebits)) : signedBits f neg mag % 2 ^ (f.fbits + f.ebits) = mag := by
  unfold signedBits
  rw [Nat.add_comm f.ebits]
  split
  · rw [Nat.add_mod_right, Nat.mod_eq_of_lt h]
  · exact Nat.mod_eq_of_lt h

theorem Fmt.neg_signedBits {mag : Nat} (h : mag < 2 ^ (f.fbits + f.ebits)) : f.neg (signedBits f neg mag) ↔ neg = true := by
  unfold signedBits Fmt.neg
  rw [Nat.add_comm f.ebits]
  cases neg
  · simp [Nat.div_eq_of_lt h]
  · simp [Nat.add_div_right _ (show 0 < 2 ^ (f.fbits + f.ebits) by positivity), Nat.div_eq_of_lt h]

theorem Fmt.num_signedBits {mag : Nat} (h : mag < 2 ^ (f.fbits + f.ebits)) :
    f.num (signedBits f neg mag) = if neg then -f.grid mag else f.grid mag := by
  rw [f.num_eq_grid, f.signedBits_mod h]
  simp only [f.neg_signedBits h]
  split <;> ring

/-- A magnitude of m units, m not zero, lies in the power of two of m's highest bit. -/
theorem Magnitude.within {m : Nat} {e : Int} {sticky : Bool} {a : ℝ} (h : Magnitude m e sticky a) (hm : m ≠ 0) :
    (2 : ℝ) ^ (e + m.log2) ≤ a ∧ a < (2 : ℝ) ^ (e + m.log2 + 1) := by
  have hp : (0 : ℝ) < (2 : ℝ) ^ e := by positivity
  have h1 : ((2 ^ m.log2 : Nat) : ℝ) ≤ m := by exact_mod_cast Nat.log2_self_le hm
  have h2 : (m : ℝ) + 1 ≤ ((2 ^ (m.log2 + 1) : Nat) : ℝ) := by exact_mod_cast Nat.lt_log2_self
  have e1 : (2 : ℝ) ^ (e + (m.log2 : Int)) = ((2 ^ m.log2 : Nat) : ℝ) * (2 : ℝ) ^ e := by
    rw [zpow_add₀ two_ne_zero, zpow_natCast, mul_comm]; push_cast; rfl
  have e2 : (2 : ℝ) ^ (e + (m.log2 : Int) + 1) = ((2 ^ (m.log2 + 1) : Nat) : ℝ) * (2 : ℝ) ^ e := by
    rw [add_assoc, zpow_add₀ two_ne_zero, mul_comm]; push_cast; rw [← Nat.cast_succ, zpow_natCast]
  have h1' := mul_le_mul_of_nonneg_right h1 hp.le
  have h2' := mul_le_mul_of_nonneg_right h2 hp.le
  rw [e1, e2]
  cases sticky
  · rw [show a = _ from h]
    exact ⟨h1', by nlinarith⟩
  · exact ⟨h1'.trans h.1.le, h.2.trans_le h2'⟩

/-- The part of its step that a magnitude lies into it. -/
theorem Fmt.fract_step {top : Int} {a : ℝ} (h : (2 : ℝ) ^ top ≤ a) (h' : a < (2 : ℝ) ^ (top + 1)) :
    Int.fract (a / (2 : ℝ) ^ f.step top) = (a - f.grid (f.below top a)) / (f.grid (f.below top a + 1) - f.grid (f.below top a)) := by
  have ha : 0 ≤ a := le_trans (by positivity) h
  have hp : (0 : ℝ) < (2 : ℝ) ^ f.step top := by positivity
  obtain ⟨g, g'⟩ := f.grid_below ha h h'
  rw [g, g', ← Int.self_sub_floor, ← natCast_floor_eq_intCast_floor (by positivity)]
  field_simp
  ring

/-- A magnitude lies from the code at or below it on, before the next. -/
theorem Fmt.below_le {top : Int} {a : ℝ} (h : (2 : ℝ) ^ top ≤ a) (h' : a < (2 : ℝ) ^ (top + 1)) :
    f.grid (f.below top a) ≤ a ∧ a < f.grid (f.below top a + 1) := by
  have ha : 0 ≤ a := le_trans (by positivity) h
  have hp : (0 : ℝ) < (2 : ℝ) ^ f.step top := by positivity
  obtain ⟨g, g'⟩ := f.grid_below ha h h'
  rw [g, g', ← le_div_iff₀ hp, ← div_lt_iff₀ hp]
  exact ⟨Nat.floor_le (by positivity), Nat.lt_floor_add_one _⟩

open Classical in
/-- The code that a magnitude from 2^top on is rounded to. -/
noncomputable def Fmt.code (f : Fmt) (rd : Rounding) (neg : Bool) (top : Int) (a : ℝ) : Nat :=
  f.below top a + if Away rd neg (f.below top a % 2 == 1)
    ((a - f.grid (f.below top a)) / (f.grid (f.below top a + 1) - f.grid (f.below top a))) then 1 else 0

theorem Fmt.code_eq (hf : f.Sound) {top : Int} {a : ℝ} (h : (2 : ℝ) ^ top ≤ a) (h' : a < (2 : ℝ) ^ (top + 1)) :
    (stepsOf rd neg (a / (2 : ℝ) ^ f.step top)).1 + (f.step top - f.qmin).toNat * 2 ^ f.fbits = f.code rd neg top a := by
  have hpar : f.below top a % 2 = ⌊a / (2 : ℝ) ^ f.step top⌋₊ % 2 := by
    obtain ⟨n, hn⟩ := Nat.exists_eq_succ_of_ne_zero hf.fbits_pos.ne'
    rw [Fmt.below, hn, pow_succ, ← mul_assoc]
    omega
  rw [Fmt.code, hpar, ← Fmt.fract_step h h', Fmt.below, stepsOf]
  omega

open Classical in
/-- The model's rounding, by the code. -/
theorem fRound_eq (hf : f.Sound) (hr : ∀ r, rd = .stoch r → r < 65536) {m : Nat} {e : Int} {sticky : Bool} {a : ℝ}
    (ha : Magnitude m e sticky a) (hm : m ≠ 0) (hs : sticky = true → rd.draws = false ∧ f.fbits < m.log2) :
    fRound f rd neg m e sticky =
      if f.maxBits < f.code rd neg (e + m.log2) a then (signedBits f neg (overflowMag f rd neg), flagOverflow ||| flagInexact)
      else (signedBits f neg (f.code rd neg (e + m.log2) a),
        (if f.grid (f.below (e + m.log2) a) ≠ a then flagInexact else flagNone) |||
          (if f.grid (f.below (e + m.log2) a) ≠ a ∧ f.tiny rd neg a then flagUnderflow else flagNone)) := by
  obtain ⟨h, h'⟩ := ha.within hm
  obtain ⟨hl, hl'⟩ := f.below_le h h'
  have hz : (m == 0 && !sticky) = false := by simp [hm]
  have hq : roundAt rd neg m e sticky (max (e + m.log2 - f.fbits) f.qmin) = stepsOf rd neg (a / (2 : ℝ) ^ f.step (e + m.log2)) :=
    roundAt_eq ha fun hst => ⟨lt_of_lt_of_le (by have := (hs hst).2; omega) (le_max_left _ _), (hs hst).1⟩
  have hqn : roundAt rd neg m e sticky (e + m.log2 - f.fbits) = stepsOf rd neg (a / (2 : ℝ) ^ (e + m.log2 - (f.fbits : Int))) :=
    roundAt_eq ha fun hst => ⟨by have := (hs hst).2; omega, (hs hst).1⟩
  have hin : (stepsOf rd neg (a / (2 : ℝ) ^ f.step (e + m.log2))).2 = decide (f.grid (f.below (e + m.log2) a) ≠ a) := by
    rw [stepsOf, Fmt.fract_step h h']
    exact decide_eq_decide.2 (not_congr (part_iff hl hl').1)
  have hti := Fmt.tiny_iff (f := f) (neg := neg) hr h h'
  have hcode := Fmt.code_eq (rd := rd) (neg := neg) hf h h'
  simp only [Fmt.step] at hcode hin hq
  simp only [fRound, hz, hq, hqn, hcode, hin, hti, Bool.false_eq_true, if_false]
  congr 3
  · simp only [decide_eq_true_eq]
  · simp only [Bool.and_eq_true, decide_eq_true_eq, Bool.not_eq_true', Bool.and_eq_false_iff, decide_eq_false_iff_not, not_and_or, ge_iff_le]

end

open Classical in
/-- What a magnitude's code leaves: no other number between the code below it and the one above. -/
theorem Fmt.grid_code_eq_iff {f : Fmt} {rd : Rounding} {neg : Bool} {top : Int} {a : ℝ} (hl : f.grid (f.below top a) ≤ a)
    (hl' : a < f.grid (f.below top a + 1)) : f.grid (f.code rd neg top a) = a ↔ f.grid (f.below top a) = a := by
  rw [Fmt.code, ← (part_iff hl hl').1]
  generalize ht : (a - f.grid (f.below top a)) / (f.grid (f.below top a + 1) - f.grid (f.below top a)) = t
  have hz := (part_iff hl hl').1
  rw [ht] at hz
  split
  next hc => exact iff_of_false hl'.ne' hc.1
  next => exact hz.symm

section
variable {f : Fmt} (hf : f.Sound) {rd : Rounding} {neg : Bool} {m : Nat} {e : Int} {sticky : Bool} {a : ℝ}
include hf

theorem Fmt.grid_qmin_le : (2 : ℝ) ^ (f.qmin + (f.fbits : Int)) ≤ f.grid f.maxBits := by
  have h : f.grid (2 ^ f.fbits) = (2 : ℝ) ^ (f.qmin + (f.fbits : Int)) := by
    have := f.grid_eq (k := 2 ^ f.fbits) (s := 0) (Nat.pow_le_pow_right (by decide) (by omega)) (.inl rfl)
    rw [zero_mul, add_zero, Nat.cast_zero, add_zero] at this
    rw [this, zpow_add₀ two_ne_zero, zpow_natCast, mul_comm]
    push_cast
    rfl
  rw [← h]
  exact f.grid_strictMono.monotone hf.normal_le

/-- A zero stays, with its sign. -/
theorem Fmt.rounded_zero (hr : ∀ r, rd = .stoch r → r < 65536) (e : Int) :
    f.rounded rd 0 (fRound f rd neg 0 e) ∧ (f.neg (fRound f rd neg 0 e).1 ↔ neg = true) := by
  have htop := hf.top_lt
  have h0 : (0 : Nat) < 2 ^ (f.fbits + f.ebits) := by positivity
  have hx : fRound f rd neg 0 e = (signedBits f neg 0, flagNone) := by simp [fRound]
  rw [hx]
  refine ⟨⟨0, ?_, ?_⟩, Fmt.neg_signedBits h0⟩
  · have hp := f.picks_within hf (neg := decide ((0 : ℝ) < 0)) (a := |0|) (j := 0) hr (Nat.zero_le _) (by simp [f.grid_zero])
      (by rw [abs_zero, ← f.grid_zero]; exact f.grid_strictMono Nat.zero_lt_one)
    simpa [f.grid_zero, Away] using hp
  · have hbig : ¬ (0 = f.maxBits + 1 ∨ f.num (f.maxBits + 1) ≤ |(0 : ℝ)|) := by
      rw [f.num_le_top hf le_rfl, abs_zero, ← f.grid_zero, not_or, not_le]
      exact ⟨by omega, f.grid_strictMono (Nat.succ_pos _)⟩
    have hnum : f.num (signedBits f neg 0) = 0 := by rw [f.num_signedBits h0, f.grid_zero]; simp
    simp only [hbig, hnum, f.signedBits_mod h0, Fmt.signedBits_lt h0, Nat.zero_le, if_true]
    simp [flagNone]

omit hf in
theorem Fmt.maxBits_le_below {top : Int} (hover : f.maxBits < f.code rd neg top a) : f.maxBits ≤ f.below top a := by
  unfold Fmt.code at hover
  split at hover <;> omega

/-- Beyond the finite codes: what the mode picks, and what the model delivers for it. -/
theorem Fmt.picks_over (hr : ∀ r, rd = .stoch r → r < 65536) {top : Int} (hl : f.grid (f.below top a) ≤ a)
    (hl' : a < f.grid (f.below top a + 1)) (hover : f.maxBits < f.code rd neg top a) :
    ∃ k, f.picks rd neg a k ∧ (k = f.maxBits + 1 ∨ f.grid (f.maxBits + 1) ≤ a) ∧
      overflowMag f rd neg = (if k ≤ f.maxBits then k else if f.hasInf && !rd.draws then f.maxBits + 1 else f.maxBits) := by
  rcases (Fmt.maxBits_le_below hover).eq_or_lt with hj | hj
  · have hp := f.picks_within hf (rd := rd) (neg := neg) hr hj.ge hl hl'
    rw [Fmt.code] at hover
    split at hover
    next hc =>
      rw [if_pos hc, ← hj] at hp
      refine ⟨_, hp, .inl rfl, ?_⟩
      obtain ⟨-, hc⟩ := hc
      cases rd with
      | stoch r => simp [overflowMag, Rounding.draws]
      | det m => cases m <;> cases hi : f.hasInf <;> simp_all [overflowMag, Rounding.draws]
    next => omega
  · have hge : f.grid (f.maxBits + 1) ≤ a := (f.grid_strictMono.monotone hj).trans hl
    refine ⟨_, f.picks_beyond hf hge, .inr hge, ?_⟩
    cases rd with
    | stoch r => simp [overflowMag, Rounding.draws]
    | det m => cases m <;> cases neg <;> cases hi : f.hasInf <;> simp [overflowMag, Rounding.draws, hi]

/-- The model's one rounding is `Fmt.rounded`, of the exact number, and keeps the sign. -/
theorem Fmt.rounded_fRound_pos (hr : ∀ r, rd = .stoch r → r < 65536) (ha : Magnitude m e sticky a) (hm : m ≠ 0)
    (hs : sticky = true → rd.draws = false ∧ f.fbits < m.log2) :
    f.rounded rd (if neg then -a else a) (fRound f rd neg m e sticky) ∧ (f.neg (fRound f rd neg m e sticky).1 ↔ neg = true) := by
  have htop := hf.top_lt
  obtain ⟨h, h'⟩ := ha.within hm
  have hpos : 0 < a := lt_of_lt_of_le (by positivity) h
  obtain ⟨hl, hl'⟩ := f.below_le h h'
  generalize hv : (if neg then -a else a) = v
  have habs : |v| = a := by cases neg <;> simp [← hv, hpos.le]
  have hlt : v < 0 ↔ neg = true := by cases neg <;> simp [← hv, hpos, hpos.le]
  have hsign : decide (v < 0) = neg := by cases neg <;> simp [hlt]
  rw [fRound_eq hf hr ha hm hs]
  have hcode := Fmt.grid_code_eq_iff (rd := rd) (neg := neg) hl hl'
  split
  next hover =>
    obtain ⟨k, hk, hbig, hmag⟩ := f.picks_over hf (rd := rd) (neg := neg) hr hl hl' hover
    have hok : overflowMag f rd neg < 2 ^ (f.fbits + f.ebits) := by rw [hmag]; split_ifs <;> omega
    have hbig' : k = f.maxBits + 1 ∨ f.num (f.maxBits + 1) ≤ a := by rwa [f.num_le_top hf le_rfl]
    have htiny : ¬ f.tiny rd neg a := fun hc => by
      have h1 := Fmt.grid_qmin_le hf
      have h2 := Fmt.tiny_lt hc
      have h3 := f.grid_strictMono.monotone (f.maxBits_le_below hover)
      linarith
    refine ⟨⟨k, by rwa [habs, hsign], f.signedBits_mod hok |>.trans hmag, Fmt.signedBits_lt hok,
      fun _ => (f.neg_signedBits hok).trans hlt.symm, ?_⟩, f.neg_signedBits hok⟩
    simp only [hbig', hsign, habs, htiny, true_or, and_false]
    decide
  next hfit =>
    have hmag : f.code rd neg (e + m.log2) a < 2 ^ (f.fbits + f.ebits) := by omega
    have hj : f.below (e + m.log2) a ≤ f.maxBits := le_trans (Nat.le_add_right _ _) (not_lt.1 hfit)
    have hbig : ¬ (f.code rd neg (e + m.log2) a = f.maxBits + 1 ∨ f.num (f.maxBits + 1) ≤ a) := by
      rw [f.num_le_top hf le_rfl, not_or, not_le]
      exact ⟨by omega, hl'.trans_le (f.grid_strictMono.monotone (by omega))⟩
    have hnum : f.num (signedBits f neg (f.code rd neg (e + m.log2) a)) = v ↔
        f.grid (f.below (e + m.log2) a) = a := by
      rw [f.num_signedBits hmag, ← hcode, ← hv]
      cases neg <;> simp
    refine ⟨⟨f.code rd neg (e + m.log2) a, ?_, ?_, Fmt.signedBits_lt hmag,
      fun _ => (f.neg_signedBits hmag).trans hlt.symm, ?_⟩, f.neg_signedBits hmag⟩
    · rw [habs, hsign]; exact f.picks_within hf hr hj hl hl'
    · rw [if_pos (not_lt.1 hfit)]; exact f.signedBits_mod hmag
    · simp only [hbig, hsign, habs, false_or, ne_eq, hnum]
      by_cases hx : f.grid (f.below (e + m.log2) a) = a <;> by_cases ht : f.tiny rd neg a <;>
        simp [hx, ht, flagNone, flagInexact, flagUnderflow]

/-- The same with a zero. -/
theorem Fmt.rounded_fRound (hr : ∀ r, rd = .stoch r → r < 65536) (ha : Magnitude m e sticky a)
    (hs : sticky = true → rd.draws = false ∧ f.fbits < m.log2) :
    f.rounded rd (if neg then -a else a) (fRound f rd neg m e sticky) ∧ (f.neg (fRound f rd neg m e sticky).1 ↔ neg = true) := by
  by_cases hm : m = 0
  · subst hm
    cases sticky
    · have h0 : a = 0 := by simpa [Magnitude] using ha
      simpa [h0] using Fmt.rounded_zero hf (neg := neg) hr e
    · simp at hs
  · exact Fmt.rounded_fRound_pos hf hr ha hm hs
end
end Sys2Proof.Machine

namespace Sys2Proof.Machine

/-! ### Finite values and their exact sum and product -/

theorem FVal.num_fin (n : Bool) (m : Nat) (e : Int) : (FVal.fin n m e).num = if n then -((m : ℝ) * (2 : ℝ) ^ e) else (m : ℝ) * (2 : ℝ) ^ e := by
  cases n <;> simp [FVal.num]

/-- A finite value rounded once. -/
theorem Fmt.rounded_fin {f : Fmt} (hf : f.Sound) {rd : Rounding} (hr : ∀ r, rd = .stoch r → r < 65536) (n : Bool) (m : Nat) (e : Int) :
    f.rounded rd (FVal.fin n m e).num (fRound f rd n m e) ∧ (f.neg (fRound f rd n m e).1 ↔ n = true) := by
  rw [FVal.num_fin]
  exact Fmt.rounded_fRound hf hr (show Magnitude m e false ((m : ℝ) * (2 : ℝ) ^ e) from rfl) (fun h => by cases h)

/-- The finite encodings lie below those of infinities and NaNs. -/
structure Fmt.Coded (f : Fmt) : Prop extends f.Sound where
  lt_inf : f.hasInf = true → f.maxBits < (2 ^ f.ebits - 1) * 2 ^ f.fbits
  lt_nan : f.maxBits < f.nanBits

theorem Fmt.coded_of_fmtOf {ty : Ty} {f : Fmt} (h : fmtOf ty = some f) : f.Coded := by
  refine ⟨Fmt.sound_of_fmtOf h, ?_, ?_⟩ <;>
    cases ty <;> simp only [fmtOf, Option.some.injEq, reduceCtorEq] at h <;> subst h <;> decide

/-- A finite encoding unpacks to its number, with the sign of its sign bit and a significand of the format's length. -/
theorem Fmt.fUnpack_finite {f : Fmt} (hf : f.Coded) {x : Nat} (hx : f.finite x) :
    ∃ m e, fUnpack f x = .fin (decide (f.neg x)) m e ∧ m < 2 ^ (f.fbits + 1) ∧ f.qmin ≤ e ∧ (FVal.fin (decide (f.neg x)) m e).num = f.num x := by
  have hp : 0 < 2 ^ f.fbits := by positivity
  have hm := Nat.mod_lt x hp
  have hex : x / 2 ^ f.fbits % 2 ^ f.ebits = x % 2 ^ (f.fbits + f.ebits) / 2 ^ f.fbits := by
    rw [pow_add, Nat.mod_mul_right_div_self]
  have hinf : (f.hasInf && x / 2 ^ f.fbits % 2 ^ f.ebits == 2 ^ f.ebits - 1) = false := by
    by_contra hc
    simp only [Bool.not_eq_false, Bool.and_eq_true, beq_iff_eq] at hc
    have h1 := hf.lt_inf hc.1
    rw [← hc.2, hex] at h1
    have := Nat.div_mul_le_self (x % 2 ^ (f.fbits + f.ebits)) (2 ^ f.fbits)
    unfold Fmt.finite at hx
    omega
  have hnan : (!f.hasInf && x % 2 ^ (f.fbits + f.ebits) == f.nanBits) = false := by
    have := hf.lt_nan
    unfold Fmt.finite at hx
    simp only [Bool.and_eq_false_iff, beq_eq_false_iff_ne]
    exact .inr (by omega)
  have hsign : (x / 2 ^ (f.fbits + f.ebits) % 2 == 1) = decide (f.neg x) := by rw [Bool.beq_eq_decide_eq]
  rw [pow_succ]
  simp only [fUnpack, hinf, hnan, hsign, Bool.false_eq_true, if_false, beq_iff_eq]
  by_cases h0 : x / 2 ^ f.fbits % 2 ^ f.ebits = 0
  · refine ⟨_, _, if_pos h0, by omega, le_rfl, ?_⟩
    simp [FVal.num, Fmt.num, h0]
  · refine ⟨_, _, if_neg h0, by omega, by omega, ?_⟩
    simp [FVal.num, Fmt.num, h0]

theorem scaledInt_cast (n : Bool) (m : Nat) {e e' : Int} (h : e' ≤ e) : (scaledInt n m e e' : ℝ) * (2 : ℝ) ^ e' = (FVal.fin n m e).num := by
  have hsplit : (2 : ℝ) ^ e = 2 ^ (e - e').toNat * (2 : ℝ) ^ e' := by
    rw [← zpow_natCast, ← zpow_add₀ two_ne_zero]; congr 1; omega
  rw [FVal.num_fin, hsplit, scaledInt, Nat.shiftLeft_eq]
  cases n <;> simp only [if_true, if_false, Bool.false_eq_true] <;> push_cast <;> ring

theorem FVal.num_eq_zero {n : Bool} {m : Nat} {e : Int} : (FVal.fin n m e).num = 0 ↔ m = 0 := by
  have : (2 : ℝ) ^ e ≠ 0 := by positivity
  rw [FVal.num_fin]
  cases n <;> simp [this]

/-- The exact sum, and the sign of one that is zero (R78, R87). -/
theorem addFin_num (n1 : Bool) (m1 : Nat) (e1 : Int) (n2 : Bool) (m2 : Nat) (e2 : Int) (z : Bool) :
    ∃ n m e, addFin n1 m1 e1 n2 m2 e2 z = (n, m, e) ∧
      (FVal.fin n m e).num = (FVal.fin n1 m1 e1).num + (FVal.fin n2 m2 e2).num ∧
      ((FVal.fin n m e).num = 0 → n = if n1 == n2 then n1 else z) := by
  have h1 := scaledInt_cast n1 m1 (min_le_left e1 e2)
  have h2 := scaledInt_cast n2 m2 (min_le_right e1 e2)
  unfold addFin
  by_cases hm1 : m1 = 0
  · subst hm1
    rw [show (FVal.fin n1 0 e1).num = 0 from FVal.num_eq_zero.2 rfl, zero_add]
    by_cases hm2 : m2 = 0
    · subst hm2
      exact ⟨_, 0, 0, rfl, by simp [FVal.num], fun _ => rfl⟩
    · exact ⟨n2, m2, e2, by simp [hm2], rfl, fun h => absurd (FVal.num_eq_zero.1 h) hm2⟩
  · by_cases hm2 : m2 = 0
    · subst hm2
      exact ⟨n1, m1, e1, by simp [hm1], by simp [FVal.num], fun h => absurd (FVal.num_eq_zero.1 h) hm1⟩
    · have hz1 : (m1 == 0) = false := by simpa using hm1
      have hz2 : (m2 == 0) = false := by simpa using hm2
      simp only [hz1, hz2, Bool.and_self, Bool.false_eq_true, if_false]
      rw [← h1, ← h2, ← add_mul, ← Int.cast_add]
      generalize hs : scaledInt n1 m1 e1 (min e1 e2) + scaledInt n2 m2 e2 (min e1 e2) = s
      by_cases h0 : s = 0
      · subst h0
        refine ⟨z, 0, 0, by simp, by simp [FVal.num], fun _ => ?_⟩
        have hne := mt (FVal.num_eq_zero (n := n1) (e := e1)).1 hm1
        have hsum : (FVal.fin n1 m1 e1).num + (FVal.fin n2 m2 e2).num = 0 := by
          rw [← h1, ← h2, ← add_mul, ← Int.cast_add, hs, Int.cast_zero, zero_mul]
        rw [if_neg]
        intro hn
        have h1' := FVal.num_fin n1 m1 e1
        have h2' := FVal.num_fin n2 m2 e2
        have p1 : 0 < (m1 : ℝ) * (2 : ℝ) ^ e1 := by positivity
        have p2 : 0 < (m2 : ℝ) * (2 : ℝ) ^ e2 := by positivity
        cases n1 <;> cases n2 <;> simp at hn h1' h2' <;> linarith
      · refine ⟨decide (s < 0), s.natAbs, min e1 e2, by simp [h0], ?_, fun h => absurd (FVal.num_eq_zero.1 h) (by simpa using h0)⟩
        rw [FVal.num_fin, Nat.cast_natAbs]
        by_cases hneg : s < 0
        · simp [hneg, abs_of_neg hneg]
        · simp [hneg, abs_of_nonneg (not_lt.1 hneg)]

end Sys2Proof.Machine

namespace Sys2Proof.Machine

/-! ### The operations on finite operands (R129, R130) -/

/-- r is v rounded once; z is the sign of a zero. -/
def Fmt.delivers (f : Fmt) (rd : Rounding) (v : ℝ) (z : Bool) (r : Nat × Flags) : Prop :=
  f.rounded rd v r ∧ (v = 0 → (f.neg r.1 ↔ z = true))

theorem FVal.num_negate (a : FVal) : (negate a).num = -a.num := by
  cases a with
  | nan s => exact neg_zero.symm
  | inf n => exact neg_zero.symm
  | fin n m e =>
    rw [negate, FVal.num_fin, FVal.num_fin]
    cases n <;> simp

/-- A quotient of natural numbers, by its integer part and whether it has a rest. -/
theorem magnitude_div (n : Nat) {d : Nat} (hd : 0 < d) (e : Int) : Magnitude (n / d) e (n % d != 0) ((n : ℝ) / d * (2 : ℝ) ^ e) := by
  have hp : (0 : ℝ) < (2 : ℝ) ^ e := by positivity
  have hd' : (0 : ℝ) < d := by exact_mod_cast hd
  have hsplit : (n : ℝ) = d * (n / d : Nat) + (n % d : Nat) := by exact_mod_cast (Nat.div_add_mod n d).symm
  have hmod : ((n % d : Nat) : ℝ) < d := by exact_mod_cast Nat.mod_lt n hd
  unfold Magnitude
  by_cases h0 : n % d = 0
  · rw [if_neg (by simp [h0]), hsplit, h0, Nat.cast_zero, add_zero, mul_div_cancel_left₀ _ hd'.ne']
  · have hpos : (0 : ℝ) < (n % d : Nat) := by exact_mod_cast Nat.pos_of_ne_zero h0
    rw [if_pos (by simpa using h0)]
    exact ⟨mul_lt_mul_of_pos_right (by rw [lt_div_iff₀ hd']; linarith) hp,
      mul_lt_mul_of_pos_right (by rw [div_lt_iff₀ hd']; linarith) hp⟩

section
variable {f : Fmt} (hf : f.Sound) {rd : Rounding} (hr : ∀ r, rd = .stoch r → r < 65536)
include hf hr

theorem Fmt.delivers_fin (n : Bool) (m : Nat) (e : Int) : f.delivers rd (FVal.fin n m e).num n (fRound f rd n m e) :=
  have ⟨h, hs⟩ := Fmt.rounded_fin hf hr n m e
  ⟨h, fun _ => hs⟩

theorem Fmt.delivers_fAdd (sums : Bool) (n1 : Bool) (m1 : Nat) (e1 : Int) (n2 : Bool) (m2 : Nat) (e2 : Int) :
    f.delivers rd ((FVal.fin n1 m1 e1).num + (FVal.fin n2 m2 e2).num) (if n1 == n2 then n1 else cancelNeg rd sums)
      (fAdd f rd sums (.fin n1 m1 e1) (.fin n2 m2 e2)) := by
  obtain ⟨n, m, e, hadd, hnum, hz⟩ := addFin_num n1 m1 e1 n2 m2 e2 (cancelNeg rd sums)
  obtain ⟨h, hs⟩ := Fmt.rounded_fin hf hr n m e
  simp only [fAdd, hadd]
  rw [← hnum]
  exact ⟨h, fun h0 => by rw [hs, hz h0]⟩

omit hf hr in
theorem mulExact_fin (n1 : Bool) (m1 : Nat) (e1 : Int) (n2 : Bool) (m2 : Nat) (e2 : Int) :
    mulExact (.fin n1 m1 e1) (.fin n2 m2 e2) = (.fin (n1 != n2) (m1 * m2) (e1 + e2), flagNone) ∧
      (FVal.fin (n1 != n2) (m1 * m2) (e1 + e2)).num = (FVal.fin n1 m1 e1).num * (FVal.fin n2 m2 e2).num := by
  refine ⟨rfl, ?_⟩
  rw [FVal.num_fin, FVal.num_fin, FVal.num_fin, zpow_add₀ two_ne_zero]
  cases n1 <;> cases n2 <;> simp <;> ring

theorem Fmt.delivers_fMul (n1 : Bool) (m1 : Nat) (e1 : Int) (n2 : Bool) (m2 : Nat) (e2 : Int) :
    f.delivers rd ((FVal.fin n1 m1 e1).num * (FVal.fin n2 m2 e2).num) (n1 != n2) (fMul f rd (.fin n1 m1 e1) (.fin n2 m2 e2)) := by
  obtain ⟨hmul, hnum⟩ := mulExact_fin n1 m1 e1 n2 m2 e2
  rw [← hnum, show fMul f rd (.fin n1 m1 e1) (.fin n2 m2 e2) = fRound f rd (n1 != n2) (m1 * m2) (e1 + e2) by
    simp only [fMul, hmul, fDeliver, flagNone, BitVec.zero_or]]
  exact Fmt.delivers_fin hf hr _ _ _

theorem Fmt.delivers_fFma (n1 : Bool) (m1 : Nat) (e1 : Int) (n2 : Bool) (m2 : Nat) (e2 : Int) (n3 : Bool) (m3 : Nat) (e3 : Int) :
    f.delivers rd ((FVal.fin n1 m1 e1).num * (FVal.fin n2 m2 e2).num + (FVal.fin n3 m3 e3).num)
      (if (n1 != n2) == n3 then n1 != n2 else cancelNeg rd false) (fFma f rd (.fin n1 m1 e1) (.fin n2 m2 e2) (.fin n3 m3 e3)) := by
  obtain ⟨hmul, hnum⟩ := mulExact_fin n1 m1 e1 n2 m2 e2
  rw [← hnum, show fFma f rd (.fin n1 m1 e1) (.fin n2 m2 e2) (.fin n3 m3 e3) =
      fAdd f rd false (.fin (n1 != n2) (m1 * m2) (e1 + e2)) (.fin n3 m3 e3) by
    simp only [fFma, hmul, sigInvalid, flagNone, BitVec.zero_or, BitVec.or_zero]]
  exact Fmt.delivers_fAdd hf hr _ _ _ _ _ _ _

/-- The quotient, by a quotient that is long enough and the rest. -/
theorem Fmt.delivers_fDiv (hd : rd.draws = false) (n1 : Bool) (m1 : Nat) (e1 : Int) (n2 : Bool) (m2 : Nat) (e2 : Int)
    (h2 : (FVal.fin n2 m2 e2).num ≠ 0) :
    f.delivers rd ((FVal.fin n1 m1 e1).num / (FVal.fin n2 m2 e2).num) (n1 != n2) (fDiv f rd (.fin n1 m1 e1) (.fin n2 m2 e2)) := by
  have hm2 : m2 ≠ 0 := mt FVal.num_eq_zero.2 h2
  have hz2 : (m2 == 0) = false := by simpa using hm2
  by_cases hm1 : m1 = 0
  · subst hm1
    rw [show (FVal.fin n1 0 e1).num = 0 from FVal.num_eq_zero.2 rfl, zero_div]
    have h0 := Fmt.rounded_zero hf (neg := n1 != n2) hr 0
    simp only [fDiv, hz2, Bool.false_eq_true, if_false, beq_self_eq_true, if_true]
    rw [show fRound f rd (n1 != n2) 0 0 = (signedBits f (n1 != n2) 0, flagNone) by simp [fRound]] at h0
    exact ⟨h0.1, fun _ => h0.2⟩
  · have hz1 : (m1 == 0) = false := by simpa using hm1
    simp only [fDiv, hz1, hz2, Bool.false_eq_true, if_false, Nat.shiftLeft_eq]
    generalize hs : f.fbits + 4 + m2.log2 = s
    have hv : (FVal.fin n1 m1 e1).num / (FVal.fin n2 m2 e2).num =
        if (n1 != n2) then -(((m1 * 2 ^ s : Nat) : ℝ) / m2 * (2 : ℝ) ^ (e1 - e2 - s)) else ((m1 * 2 ^ s : Nat) : ℝ) / m2 * (2 : ℝ) ^ (e1 - e2 - s) := by
      have hp : (m2 : ℝ) ≠ 0 := by exact_mod_cast hm2
      have hq : (m1 : ℝ) * (2 : ℝ) ^ e1 / ((m2 : ℝ) * (2 : ℝ) ^ e2) = ((m1 * 2 ^ s : Nat) : ℝ) / m2 * (2 : ℝ) ^ (e1 - e2 - s) := by
        rw [zpow_sub₀ two_ne_zero, zpow_sub₀ two_ne_zero, zpow_natCast]
        push_cast
        field_simp
      rw [← hq, FVal.num_fin, FVal.num_fin]
      cases n1 <;> cases n2 <;> simp [neg_div, div_neg]
    have hlong : 2 ^ (f.fbits + 1) ≤ m1 * 2 ^ s / m2 := by
      rw [Nat.le_div_iff_mul_le (by omega)]
      calc 2 ^ (f.fbits + 1) * m2 ≤ 2 ^ (f.fbits + 1) * 2 ^ (m2.log2 + 1) := Nat.mul_le_mul_left _ Nat.lt_log2_self.le
        _ = 2 ^ (f.fbits + m2.log2 + 2) := by rw [← pow_add]; congr 1; omega
        _ ≤ 2 ^ s := Nat.pow_le_pow_right (by decide) (by omega)
        _ ≤ m1 * 2 ^ s := Nat.le_mul_of_pos_left _ (by omega)
    have hmag : Magnitude (m1 * 2 ^ s / m2) (e1 - e2 - s) (m1 * 2 ^ s % m2 != 0) (((m1 * 2 ^ s : Nat) : ℝ) / m2 * (2 : ℝ) ^ (e1 - e2 - s)) :=
      magnitude_div _ (by omega) _
    obtain ⟨h, hs'⟩ := Fmt.rounded_fRound hf (neg := n1 != n2) hr hmag fun _ =>
      ⟨hd, (Nat.le_log2 (by have : 0 < 2 ^ (f.fbits + 1) := by positivity
                            omega)).2 hlong⟩
    rw [hv]
    exact ⟨h, fun _ => hs'⟩
end

end Sys2Proof.Machine

namespace Sys2Proof.Machine

/-! ### Square roots (R130) -/

theorem isqrtGo_spec (n : Nat) : ∀ k r, r * r ≤ n → n < (r + 2 ^ k) * (r + 2 ^ k) →
    isqrtGo n k r * isqrtGo n k r ≤ n ∧ n < (isqrtGo n k r + 1) * (isqrtGo n k r + 1)
  | 0, r, h, h' => ⟨h, h'⟩
  | k + 1, r, h, h' => by
    rw [pow_succ] at h'
    unfold isqrtGo isqrtStep
    split
    next hc => exact isqrtGo_spec n k _ hc (by rwa [add_assoc, ← mul_two])
    next hc => exact isqrtGo_spec n k _ h (not_le.1 hc)

theorem isqrt_eq_sqrt (n : Nat) : isqrt n = Nat.sqrt n := by
  have hlt : n < (0 + 2 ^ (n.log2 / 2 + 1)) * (0 + 2 ^ (n.log2 / 2 + 1)) := by
    rw [zero_add, ← pow_add]
    exact Nat.lt_log2_self.trans_le (Nat.pow_le_pow_right (by decide) (by omega))
  obtain ⟨h, h'⟩ := isqrtGo_spec n _ 0 (Nat.zero_le _) hlt
  exact Nat.eq_sqrt.2 ⟨h, h'⟩

/-- A root, by its integer part and whether that is less. -/
theorem magnitude_sqrt {x : ℝ} {r : Nat} {sticky : Bool} (h : (r : ℝ) ^ 2 ≤ x) (h' : x < ((r : ℝ) + 1) ^ 2)
    (hs : sticky = false ↔ (r : ℝ) ^ 2 = x) (e : Int) : Magnitude r e sticky (Real.sqrt x * (2 : ℝ) ^ e) := by
  have hp : (0 : ℝ) < (2 : ℝ) ^ e := by positivity
  unfold Magnitude
  cases sticky
  · rw [if_neg (by decide), ← hs.1 rfl, Real.sqrt_sq (by positivity)]
  · have hne : (r : ℝ) ^ 2 ≠ x := fun hc => by simpa using hs.2 hc
    rw [if_pos rfl]
    exact ⟨mul_lt_mul_of_pos_right (Real.lt_sqrt_of_sq_lt (lt_of_le_of_ne h hne)) hp,
      mul_lt_mul_of_pos_right ((Real.sqrt_lt' (by positivity)).2 h') hp⟩

section
variable {f : Fmt} (hf : f.Sound) {rd : Rounding} (hr : ∀ r, rd = .stoch r → r < 65536) (hd : rd.draws = false)
include hf hr hd

theorem Fmt.delivers_root {r : Nat} {e : Int} {sticky : Bool} {v : ℝ} (h : Magnitude r e sticky v) (hv : v ≠ 0)
    (hlong : 2 ^ (f.fbits + 1) ≤ r) (z : Bool) : f.delivers rd v z (fRound f rd false r e sticky) := by
  refine ⟨?_, fun h0 => absurd h0 hv⟩
  have hpos : 0 < 2 ^ (f.fbits + 1) := by positivity
  exact (Fmt.rounded_fRound hf (neg := false) hr h fun _ => ⟨hd, (Nat.le_log2 (by omega)).2 hlong⟩).1

theorem Fmt.delivers_fSqrt (n : Bool) (m : Nat) (e : Int) (h0 : 0 ≤ (FVal.fin n m e).num) :
    f.delivers rd (Real.sqrt (FVal.fin n m e).num) n (fSqrt f rd (.fin n m e)) := by
  by_cases hm : m = 0
  · subst hm
    rw [show (FVal.fin n 0 e).num = 0 from FVal.num_eq_zero.2 rfl, Real.sqrt_zero]
    have h0 := Fmt.rounded_zero hf (neg := n) hr 0
    rw [show fRound f rd n 0 0 = (signedBits f n 0, flagNone) by simp [fRound]] at h0
    exact ⟨h0.1, fun _ => h0.2⟩
  · have hp : 0 < (m : ℝ) * (2 : ℝ) ^ e := by positivity
    have hn : n = false := by
      rw [FVal.num_fin] at h0
      cases n
      · rfl
      · rw [if_pos rfl] at h0; linarith
    subst hn
    have hz : (m == 0) = false := by simpa using hm
    rw [FVal.num_fin, if_neg (by decide)]
    simp only [fSqrt, hz, Bool.false_eq_true, if_false, isqrt_eq_sqrt, Nat.shiftLeft_eq]
    generalize hs : 2 * (f.fbits + 4) = s
    generalize ht : (if (e % 2 != 0) = true then s + 1 else s) = t
    generalize he : (if (e % 2 != 0) = true then (e - 1 - s) / 2 else (e - s) / 2) = e'
    have hte : e = t + e' * (2 : Nat) := by
      simp only [bne_iff_ne] at ht he
      split at ht <;> split at he <;> omega
    have hts : s ≤ t := by split at ht <;> omega
    have hv : Real.sqrt ((m : ℝ) * (2 : ℝ) ^ e) = Real.sqrt ((m * 2 ^ t : Nat) : ℝ) * (2 : ℝ) ^ e' := by
      have hsq : (m : ℝ) * (2 : ℝ) ^ e = ((m * 2 ^ t : Nat) : ℝ) * ((2 : ℝ) ^ e') ^ 2 := by
        rw [hte, zpow_add₀ two_ne_zero, zpow_mul, zpow_natCast, zpow_natCast]
        push_cast
        ring
      rw [hsq, Real.sqrt_mul (by positivity), Real.sqrt_sq (by positivity)]
    have hmag : Magnitude (Nat.sqrt (m * 2 ^ t)) e' (Nat.sqrt (m * 2 ^ t) * Nat.sqrt (m * 2 ^ t) != m * 2 ^ t)
        (Real.sqrt ((m * 2 ^ t : Nat) : ℝ) * (2 : ℝ) ^ e') := by
      refine magnitude_sqrt ?_ ?_ ?_ e'
      · exact_mod_cast Nat.sqrt_le' _
      · exact_mod_cast Nat.lt_succ_sqrt' _
      · rw [bne_eq_false_iff_eq, ← sq]; norm_cast
    rw [hv]
    refine Fmt.delivers_root hf hr hd hmag (by rw [← hv]; positivity) (Nat.le_sqrt'.2 ?_) _
    calc (2 ^ (f.fbits + 1)) ^ 2 = 2 ^ (2 * (f.fbits + 1)) := by rw [← pow_mul, mul_comm]
      _ ≤ 2 ^ t := Nat.pow_le_pow_right (by decide) (by omega)
      _ ≤ m * 2 ^ t := Nat.le_mul_of_pos_left _ (by omega)

theorem Fmt.delivers_fRsqrt (n : Bool) (m : Nat) (e : Int) (h0 : 0 < (FVal.fin n m e).num) (z : Bool) :
    f.delivers rd (1 / Real.sqrt (FVal.fin n m e).num) z (fRsqrt f rd (.fin n m e)) := by
  have hm : m ≠ 0 := mt FVal.num_eq_zero.2 h0.ne'
  have hp : 0 < (m : ℝ) * (2 : ℝ) ^ e := by positivity
  have hn : n = false := by
    rw [FVal.num_fin] at h0
    cases n
    · rfl
    · rw [if_pos rfl] at h0; linarith
  subst hn
  have hz : (m == 0) = false := by simpa using hm
  rw [FVal.num_fin, if_neg (by decide)]
  simp only [fRsqrt, hz, Bool.false_eq_true, if_false, isqrt_eq_sqrt]
  generalize hm' : (if (e % 2 != 0) = true then 2 * m else m) = m'
  generalize hh : (if (e % 2 != 0) = true then e - 1 else e) / 2 = h
  generalize hk : f.fbits + 4 + m'.log2 = k
  have hm0 : m' ≠ 0 := by split at hm' <;> omega
  have hpos : (0 : ℝ) < m' := by exact_mod_cast Nat.pos_of_ne_zero hm0
  have hval : (m : ℝ) * (2 : ℝ) ^ e = (m' : ℝ) * ((2 : ℝ) ^ h) ^ 2 := by
    rw [← zpow_natCast, ← zpow_mul]
    simp only [bne_iff_ne] at hm' hh
    split at hm' <;> split at hh
    · rw [show e = 1 + h * (2 : Nat) by omega, zpow_add₀ two_ne_zero, ← hm', zpow_one]; push_cast; ring
    · contradiction
    · contradiction
    · rw [show e = h * (2 : Nat) by omega, ← hm']
  have hv : 1 / Real.sqrt ((m : ℝ) * (2 : ℝ) ^ e) = Real.sqrt (((2 ^ (2 * k) : Nat) : ℝ) / m') * (2 : ℝ) ^ (-h - k) := by
    have hk2 : ((2 ^ (2 * k) : Nat) : ℝ) = (2 ^ k) ^ 2 := by push_cast; ring
    rw [hval, hk2, Real.sqrt_mul hpos.le, Real.sqrt_sq (by positivity), Real.sqrt_div (by positivity), Real.sqrt_sq (by positivity),
      zpow_sub₀ two_ne_zero, zpow_neg, zpow_natCast]
    field_simp
  have hmag : Magnitude (Nat.sqrt (2 ^ (2 * k) / m')) (-h - k)
      (Nat.sqrt (2 ^ (2 * k) / m') * Nat.sqrt (2 ^ (2 * k) / m') * m' != 2 ^ (2 * k))
      (Real.sqrt (((2 ^ (2 * k) : Nat) : ℝ) / m') * (2 : ℝ) ^ (-h - k)) := by
    refine magnitude_sqrt ?_ ?_ ?_ _
    · rw [le_div_iff₀ hpos]
      exact_mod_cast (Nat.mul_le_mul_right m' (Nat.sqrt_le' _)).trans (Nat.div_mul_le_self _ _)
    · rw [div_lt_iff₀ hpos]
      exact_mod_cast (Nat.div_lt_iff_lt_mul (Nat.pos_of_ne_zero hm0)).1 (Nat.lt_succ_sqrt' (2 ^ (2 * k) / m'))
    · rw [bne_eq_false_iff_eq, eq_div_iff hpos.ne', ← sq]; norm_cast
  rw [hv]
  refine Fmt.delivers_root hf hr hd hmag (by positivity) (Nat.le_sqrt'.2 ?_) _
  rw [Nat.le_div_iff_mul_le (Nat.pos_of_ne_zero hm0)]
  calc (2 ^ (f.fbits + 1)) ^ 2 * m' ≤ (2 ^ (f.fbits + 1)) ^ 2 * 2 ^ (m'.log2 + 1) := Nat.mul_le_mul_left _ Nat.lt_log2_self.le
    _ = 2 ^ (2 * (f.fbits + 1) + (m'.log2 + 1)) := by rw [← pow_mul, ← pow_add, mul_comm 2]
    _ ≤ 2 ^ (2 * k) := Nat.pow_le_pow_right (by decide) (by omega)
end

end Sys2Proof.Machine

namespace Sys2Proof.Machine

/-! ### Integers picked by a mode (R78, R81, R84) -/

/-- The whole number nearest to a part t beyond another, with the tie to the even one. -/
theorem nearest_even {k b : Nat} {t : ℝ} (h0 : 0 ≤ t) (h1 : t < 1) (hb : b = 0 ∨ b = 1)
    (haway : b = 1 ↔ 1 / 2 < t ∨ t = 1 / 2 ∧ k % 2 = 1) : |t - b| < 1 / 2 ∨ |t - b| = 1 / 2 ∧ (k + b) % 2 = 0 := by
  rcases hb with rfl | rfl
  · have hnot := mt haway.2 zero_ne_one
    push Not at hnot
    rw [Nat.cast_zero, sub_zero, abs_of_nonneg h0]
    refine hnot.1.lt_or_eq.imp_right fun h => ⟨h, ?_⟩
    have := hnot.2 h
    omega
  · rw [Nat.cast_one, abs_of_neg (by linarith)]
    rcases haway.1 rfl with h | ⟨h, hk⟩
    · exact .inl (by linarith)
    · exact .inr ⟨by linarith, by omega⟩

/-- With the tie to the larger one. -/
theorem nearest_up {k b : Nat} {t : ℝ} (h0 : 0 ≤ t) (h1 : t < 1) (hb : b = 0 ∨ b = 1) (haway : b = 1 ↔ 1 / 2 ≤ t) :
    |t - b| < 1 / 2 ∨ |t - b| = 1 / 2 ∧ (k : ℝ) + t < ((k + b : Nat) : ℝ) := by
  rcases hb with rfl | rfl
  · rw [Nat.cast_zero, sub_zero, abs_of_nonneg h0]
    exact .inl (not_le.1 (mt haway.2 zero_ne_one))
  · have := haway.1 rfl
    rw [Nat.cast_one, abs_of_neg (by linarith)]
    rcases this.lt_or_eq with h | h
    · exact .inl (by linarith)
    · exact .inr ⟨by linarith, by push_cast; linarith⟩

/-- A whole number of steps of 1, with its sign, is what the mode picks. -/
theorem roundsInt_stepsOf {rd : Rounding} (hr : ∀ r, rd = .stoch r → r < 65536) (neg : Bool) {a : ℝ} (ha : 0 ≤ a) :
    roundsInt rd (if neg then -a else a) (if neg then -((stepsOf rd neg a).1 : Int) else (stepsOf rd neg a).1) := by
  classical
  obtain ⟨k, hk⟩ : ∃ k, k = ⌊a⌋₊ := ⟨_, rfl⟩
  obtain ⟨t, ht⟩ : ∃ t, t = Int.fract a := ⟨_, rfl⟩
  have h0 : 0 ≤ t := ht ▸ Int.fract_nonneg a
  have h1 : t < 1 := ht ▸ Int.fract_lt_one a
  have hsplit : a = k + t := by rw [hk, ht, natCast_floor_eq_intCast_floor ha, Int.floor_add_fract]
  have hfl : ⌊a⌋ = k := by rw [hk, Int.natCast_floor_eq_floor ha]
  have hceil : ⌈a⌉ = if t = 0 then (k : Int) else k + 1 := by
    split
    next h => rw [hsplit, h, add_zero, Int.ceil_natCast]
    next h => rw [← hfl, Int.ceil_eq_floor_add_one_iff_notMem, ← Int.fract_eq_zero_iff, ← ht]; exact h
  obtain ⟨b, hb⟩ : ∃ b, b = if Away rd neg (k % 2 == 1) t then 1 else 0 := ⟨_, rfl⟩
  have hb01 : b = 0 ∨ b = 1 := by rw [hb]; split <;> simp
  have hb1 : b = 1 ↔ Away rd neg (k % 2 == 1) t := by rw [hb]; split <;> simpa
  rw [show (stepsOf rd neg a).1 = k + b by rw [hb, hk, ht, stepsOf]]
  generalize hv : (if neg then -a else a) = v
  generalize hK : (if neg then -((k + b : Nat) : Int) else (k + b : Nat)) = K
  have hKr : (K : ℝ) = if neg then -((k : ℝ) + b) else k + b := by rw [← hK]; cases neg <;> simp
  have hvabs : |v| = a := by rw [← hv]; cases neg <;> simp [ha]
  have hdist : |v - K| = |t - b| := by
    rw [hKr, ← hv, hsplit]
    cases neg
    · congr 1; simp
    · rw [← abs_neg]; congr 1; simp; ring
  have heven (hm : Away rd neg (k % 2 == 1) t ↔ 1 / 2 < t ∨ t = 1 / 2 ∧ (k % 2 == 1) = true) :
      |v - K| < 1 / 2 ∨ |v - K| = 1 / 2 ∧ K % 2 = 0 := by
    rw [hdist]
    refine (nearest_even (k := k) h0 h1 hb01 (hb1.trans (hm.trans (by rw [beq_iff_eq])))).imp_right fun ⟨h, h'⟩ => ⟨h, ?_⟩
    cases neg <;> simp only [Bool.false_eq_true, if_true, if_false] at hK <;> omega
  cases rd with
  | stoch r =>
    have hc : 65536 ≤ ⌊Int.fract a * 65536⌋ + (r : Int) ↔ Away (.stoch r) neg (k % 2 == 1) t := by
      rw [← ht, Away, iff_and_self]
      rintro hc rfl
      have := hr r rfl
      simp only [zero_mul, Int.floor_zero] at hc
      omega
    have hbi : (if 65536 ≤ ⌊Int.fract a * 65536⌋ + (r : Int) then 1 else 0) = (b : Int) := by
      rw [hb]
      by_cases h : Away (.stoch r) neg (k % 2 == 1) t
      · rw [if_pos h, if_pos (hc.2 h), Nat.cast_one]
      · rw [if_neg h, if_neg (mt hc.1 h), Nat.cast_zero]
    simp only [roundsInt, hvabs, hfl, hbi]
    rw [← hK, ← hv]
    cases neg
    · simp [not_lt.2 ha]
    · rcases ha.eq_or_lt with h | h
      · have hk0 : k = 0 := by rw [hk, ← h, Nat.floor_zero]
        have hb0 : b = 0 := hb01.resolve_right fun hc => (hb1.1 hc).1 (by rw [ht, ← h, Int.fract_zero])
        simp [hk0, hb0]
      · rw [if_pos rfl, if_pos rfl, if_pos (by simpa using h)]; push_cast; ring
  | det m =>
    cases m with
    | rtz =>
      have hb0 : b = 0 := hb01.resolve_right fun hc => (hb1.1 hc).2
      simp only [roundsInt, ← hv, ← hK, hb0]
      cases neg
      · simp [ha, hfl]
      · rcases ha.eq_or_lt with h | h
        · simp [hk, ← h]
        · simp [not_le.2 h, Int.ceil_neg, hfl]
    | rup =>
      simp only [roundsInt, ← hv, ← hK]
      cases neg
      · have : b = if t = 0 then 0 else 1 := by rw [hb]; by_cases h : t = 0 <;> simp [Away, h]
        simp only [Bool.false_eq_true, if_false, hceil, this]
        split <;> simp
      · have hb0 : b = 0 := hb01.resolve_right fun hc => by simpa using (hb1.1 hc).2
        simp [Int.ceil_neg, hfl, hb0]
    | rdn =>
      simp only [roundsInt, ← hv, ← hK]
      cases neg
      · have hb0 : b = 0 := hb01.resolve_right fun hc => by simpa using (hb1.1 hc).2
        simp [hfl, hb0]
      · have : b = if t = 0 then 0 else 1 := by rw [hb]; by_cases h : t = 0 <;> simp [Away, h]
        simp only [if_true, Int.floor_neg, hceil, this]
        split <;> simp
    | rna =>
      refine (?_ : |v - K| < 1 / 2 ∨ |v - K| = 1 / 2 ∧ |v| < |(K : ℝ)|)
      have hKabs : |(K : ℝ)| = ((k + b : Nat) : ℝ) := by
        rw [hKr]
        cases neg
        · simp only [Bool.false_eq_true, if_false]; push_cast; rw [abs_of_nonneg (by positivity)]
        · simp only [if_true, abs_neg]; push_cast; rw [abs_of_nonneg (by positivity)]
      rw [hdist, hvabs, hKabs, hsplit]
      refine nearest_up h0 h1 hb01 (hb1.trans ((away_rna _ _ _).trans ?_))
      rw [and_true, or_comm, eq_comm, ← le_iff_eq_or_lt]
    | rne => exact heven (away_even _ _ _)
    | rsr => exact heven (away_even neg _ _)
    | dyn => exact heven (away_even neg _ _)

/-- And it differs where the model says so. -/
theorem stepsOf_inexact (rd : Rounding) (neg : Bool) {a : ℝ} (ha : 0 ≤ a) :
    (stepsOf rd neg a).2 = decide (((stepsOf rd neg a).1 : ℝ) ≠ a) := by
  have h1 := Int.fract_lt_one a
  have hsplit : a = (⌊a⌋₊ : ℝ) + Int.fract a := by rw [natCast_floor_eq_intCast_floor ha, Int.floor_add_fract]
  simp only [stepsOf]
  refine decide_eq_decide.2 (not_congr ?_)
  split
  next h =>
    refine iff_of_false h.1 fun hc => ?_
    push_cast at hc
    linarith
  next h =>
    rw [add_zero]
    constructor <;> intro hc <;> linarith

/-! ### Numbers that a format has -/

section
variable {f : Fmt} (hf : f.Sound) {rd : Rounding} (hr : ∀ r, rd = .stoch r → r < 65536) {neg : Bool}
include hf hr

/-- A number of the format's length, from its least step on, and below its largest, stays. -/
theorem Fmt.fRound_exact {m : Nat} {e : Int} (hm : m < 2 ^ (f.fbits + 1)) (he : f.qmin ≤ e)
    (hle : (m : ℝ) * (2 : ℝ) ^ e < f.grid (f.maxBits + 1)) :
    f.num (fRound f rd neg m e).1 = (FVal.fin neg m e).num ∧ (fRound f rd neg m e).2 = flagNone := by
  have htop := hf.top_lt
  by_cases h0 : m = 0
  · subst h0
    have hz : (0 : Nat) < 2 ^ (f.fbits + f.ebits) := by positivity
    simp only [fRound, beq_self_eq_true, Bool.not_false, Bool.and_self, if_true]
    rw [f.num_signedBits hz, f.grid_zero, FVal.num_eq_zero.2 rfl]
    exact ⟨by simp, trivial⟩
  · have hmag : Magnitude m e false ((m : ℝ) * (2 : ℝ) ^ e) := rfl
    obtain ⟨h, h'⟩ := hmag.within h0
    have hstep : f.step (e + m.log2) ≤ e := by
      have := (Nat.log2_lt h0).2 hm
      simp only [Fmt.step]
      omega
    have hint : (m : ℝ) * (2 : ℝ) ^ e / (2 : ℝ) ^ f.step (e + m.log2) = (m * 2 ^ (e - f.step (e + m.log2)).toNat : Nat) := by
      rw [mul_div_assoc, ← zpow_sub₀ two_ne_zero]
      push_cast
      rw [← zpow_natCast, Int.toNat_of_nonneg (by omega)]
    have hgrid : f.grid (f.below (e + m.log2) ((m : ℝ) * (2 : ℝ) ^ e)) = (m : ℝ) * (2 : ℝ) ^ e := by
      rw [(f.grid_below hmag.nonneg h h').1, hint, Nat.floor_natCast, ← hint, div_mul_cancel₀ _ (by positivity)]
    have hcode : f.code rd neg (e + m.log2) ((m : ℝ) * (2 : ℝ) ^ e) = f.below (e + m.log2) ((m : ℝ) * (2 : ℝ) ^ e) := by
      rw [Fmt.code, hgrid, if_neg, add_zero]
      exact fun hc => hc.1 (by rw [sub_self, zero_div])
    have hfit : f.below (e + m.log2) ((m : ℝ) * (2 : ℝ) ^ e) < f.maxBits + 1 := by
      rwa [← f.grid_strictMono.lt_iff_lt, hgrid]
    rw [fRound_eq hf hr hmag h0 (fun h => by cases h), hcode, if_neg (by omega)]
    simp only [hgrid, ne_eq, not_true_eq_false, false_and, if_false]
    rw [f.num_signedBits (by omega), hgrid, FVal.num_fin]
    exact ⟨rfl, rfl⟩
end

end Sys2Proof.Machine

namespace Sys2Proof.Machine

/-! ### Comparisons, scaling and rounding to an integral value (R129, R131, R132) -/

theorem fLess_fin (n1 : Bool) (m1 : Nat) (e1 : Int) (n2 : Bool) (m2 : Nat) (e2 : Int) :
    fLess (.fin n1 m1 e1) (.fin n2 m2 e2) = true ↔ (FVal.fin n1 m1 e1).num < (FVal.fin n2 m2 e2).num := by
  have hp : (0 : ℝ) < (2 : ℝ) ^ min e1 e2 := by positivity
  rw [← scaledInt_cast n1 m1 (min_le_left e1 e2), ← scaledInt_cast n2 m2 (min_le_right e1 e2), mul_lt_mul_iff_left₀ hp, Int.cast_lt]
  exact decide_eq_true_iff

theorem fEqual_fin (n1 : Bool) (m1 : Nat) (e1 : Int) (n2 : Bool) (m2 : Nat) (e2 : Int) :
    fEqual (.fin n1 m1 e1) (.fin n2 m2 e2) = true ↔ (FVal.fin n1 m1 e1).num = (FVal.fin n2 m2 e2).num := by
  have h := fLess_fin n1 m1 e1 n2 m2 e2
  have h' := fLess_fin n2 m2 e2 n1 m1 e1
  rw [← Bool.not_eq_false, not_iff_comm] at h h'
  simp only [fEqual, isNaN, Bool.not_false, Bool.true_and, Bool.and_eq_true, Bool.not_eq_true', ← h, ← h', not_lt]
  exact ⟨fun ⟨h, h'⟩ => le_antisymm h' h, fun h => ⟨h.ge, h.le⟩⟩

/-- FMIN and FMAX take the operand that is first, or the other one. -/
theorem fMinMax_fin {f : Fmt} (hf : f.Coded) {x y : Nat} (hx : f.finite x) (hy : f.finite y) (isMax : Bool) :
    ∃ first : Bool, fMinMax f isMax x y = ((if first != isMax then x else y), flagNone) ∧
      (first = true ↔ f.num x < f.num y ∨ f.num x = f.num y ∧ f.neg x ∧ ¬ f.neg y) := by
  obtain ⟨m1, e1, ux, -, -, nx⟩ := f.fUnpack_finite hf hx
  obtain ⟨m2, e2, uy, -, -, ny⟩ := f.fUnpack_finite hf hy
  refine ⟨_, by simp only [fMinMax, ux, uy, isNaN, sigInvalid, Bool.and_self, Bool.false_eq_true, if_false]; rfl, ?_⟩
  rw [Bool.or_eq_true, Bool.and_eq_true, Bool.and_eq_true, fLess_fin, fEqual_fin, nx, ny]
  simp only [signOf, decide_eq_true_eq, Bool.not_eq_true', decide_eq_false_iff_not, and_assoc]

theorem fMin_fin {f : Fmt} (hf : f.Coded) {x y : Nat} (hx : f.finite x) (hy : f.finite y) :
    ∃ r, fMinMax f false x y = (r, flagNone) ∧ (r = x ∨ r = y) ∧ f.num r = min (f.num x) (f.num y) ∧
      (f.num x = f.num y → (f.neg r ↔ f.neg x ∨ f.neg y)) := by
  obtain ⟨first, h, hfirst⟩ := fMinMax_fin hf hx hy false
  cases first
  · rw [Bool.false_eq_true, false_iff, not_or, not_lt] at hfirst
    exact ⟨y, h, .inr rfl, (min_eq_right hfirst.1).symm, fun he => by tauto⟩
  · have hc := hfirst.1 rfl
    refine ⟨x, h, .inl rfl, (min_eq_left ?_).symm, fun he => ?_⟩
    · exact hc.elim le_of_lt fun hc => hc.1.le
    · rw [or_iff_left_of_imp fun hy => absurd hy (hc.resolve_left he.not_lt).2.2]

theorem fMax_fin {f : Fmt} (hf : f.Coded) {x y : Nat} (hx : f.finite x) (hy : f.finite y) :
    ∃ r, fMinMax f true x y = (r, flagNone) ∧ (r = x ∨ r = y) ∧ f.num r = max (f.num x) (f.num y) ∧
      (f.num x = f.num y → (f.neg r ↔ f.neg x ∧ f.neg y)) := by
  obtain ⟨first, h, hfirst⟩ := fMinMax_fin hf hx hy true
  cases first
  · rw [Bool.false_eq_true, false_iff, not_or, not_lt] at hfirst
    exact ⟨x, h, .inl rfl, (max_eq_left hfirst.1).symm, fun he => by tauto⟩
  · have hc := hfirst.1 rfl
    refine ⟨y, h, .inr rfl, (max_eq_right ?_).symm, fun he => ?_⟩
    · exact hc.elim le_of_lt fun hc => hc.1.le
    · exact iff_of_false (hc.resolve_left he.not_lt).2.2 fun h => (hc.resolve_left he.not_lt).2.2 h.2

/-- FCMP's conditions compare the numbers. -/
theorem fcond_fin {f : Fmt} (hf : f.Coded) {x y : Nat} (hx : f.finite x) (hy : f.finite y) (cc : FCond) :
    ∃ b, fcond cc (fUnpack f x) (fUnpack f y) = (b, flagNone) ∧ (b = true ↔ match cc with
      | .eq => f.num x = f.num y
      | .ne => f.num x ≠ f.num y
      | .lt => f.num x < f.num y
      | .le => f.num x ≤ f.num y
      | .un => False) := by
  obtain ⟨m1, e1, ux, -, -, nx⟩ := f.fUnpack_finite hf hx
  obtain ⟨m2, e2, uy, -, -, ny⟩ := f.fUnpack_finite hf hy
  have hl := fLess_fin (decide (f.neg x)) m1 e1 (decide (f.neg y)) m2 e2
  have he := fEqual_fin (decide (f.neg x)) m1 e1 (decide (f.neg y)) m2 e2
  rw [nx, ny] at hl he
  have hq : flagNone ||| flagNone = flagNone := BitVec.or_self
  rw [ux, uy]
  cases cc with
  | eq => exact ⟨_, Prod.ext rfl hq, he⟩
  | ne => exact ⟨!fEqual _ _, Prod.ext rfl hq, by rw [Bool.not_eq_true', ← Bool.not_eq_true, he]⟩
  | lt => exact ⟨_, rfl, hl⟩
  | le => exact ⟨_, rfl, by rw [Bool.or_eq_true, hl, he, le_iff_lt_or_eq]⟩
  | un => exact ⟨false, Prod.ext rfl hq, by simp⟩

/-- The scaled number rounded once. -/
theorem rounded_fScale {f : Fmt} (hf : f.Coded) {rd : Rounding} (hr : ∀ r, rd = .stoch r → r < 65536) {x : Nat} (hx : f.finite x) (n : Int) :
    f.rounded rd (f.num x * (2 : ℝ) ^ n) (fScale f rd (fUnpack f x) n) := by
  obtain ⟨m, e, ux, -, -, nx⟩ := f.fUnpack_finite hf hx
  have hnum : f.num x * (2 : ℝ) ^ n = (FVal.fin (decide (f.neg x)) m (e + n)).num := by
    rw [← nx, FVal.num_fin, FVal.num_fin, zpow_add₀ two_ne_zero]
    split <;> ring
  rw [ux, hnum]
  exact (Fmt.rounded_fin hf.toSound hr _ _ _).1

/-- The format has every integer of its length. -/
structure Fmt.Wide (f : Fmt) : Prop extends f.Coded where
  qmin_le : f.qmin ≤ 0
  one_le : (1 + (-f.qmin).toNat) * 2 ^ f.fbits ≤ f.maxBits

theorem Fmt.wide_f32 : fmtF32.Wide := ⟨Fmt.coded_of_fmtOf (ty := .f32) rfl, by decide, by decide⟩
theorem Fmt.wide_f64 : fmtF64.Wide := ⟨Fmt.coded_of_fmtOf (ty := .f64) rfl, by decide, by decide⟩

theorem Fmt.Wide.le_grid {f : Fmt} (hf : f.Wide) : (2 : ℝ) ^ f.fbits < f.grid (f.maxBits + 1) := by
  have h := f.grid_eq (k := 2 ^ f.fbits) (s := (-f.qmin).toNat) (Nat.pow_le_pow_right (by decide) (by omega)) (.inr le_rfl)
  rw [Int.toNat_of_nonneg (by have := hf.qmin_le; omega), add_neg_cancel, zpow_zero, mul_one] at h
  push_cast at h
  rw [← h]
  refine f.grid_strictMono ?_
  have := hf.one_le
  rw [add_mul, one_mul] at this
  omega

theorem stepsOf_le (rd : Rounding) (neg : Bool) {a : ℝ} {n : Nat} (ha : 0 ≤ a) (h : a < n) : (stepsOf rd neg a).1 ≤ n := by
  have := (Nat.floor_lt ha).2 h
  simp only [stepsOf]
  split <;> omega

/-- FRND picks the integer of the mode, and says when that differs. -/
theorem fRnd_finite {f : Fmt} (hf : f.Wide) {rd : Rounding} (hr : ∀ r, rd = .stoch r → r < 65536) {x : Nat} (hx : f.finite x) :
    ∃ k : Int, roundsInt rd (f.num x) k ∧ f.num (fRnd f rd (fUnpack f x)).1 = k ∧
      (fRnd f rd (fUnpack f x)).2 = if (k : ℝ) = f.num x then flagNone else flagInexact := by
  obtain ⟨m, e, ux, hm, he, nx⟩ := f.fUnpack_finite hf.toCoded hx
  have hlt : (m : ℝ) * (2 : ℝ) ^ e < f.grid (f.maxBits + 1) := by
    have habs : (m : ℝ) * (2 : ℝ) ^ e = |f.num x| := by
      rw [← nx, FVal.num_fin]
      split <;> simp [abs_of_nonneg (show 0 ≤ (m : ℝ) * (2 : ℝ) ^ e by positivity)]
    rw [habs, f.num_eq_grid, abs_mul, abs_of_nonneg (f.grid_nonneg _)]
    refine lt_of_eq_of_lt ?_ (f.grid_strictMono (Nat.lt_succ_of_le hx))
    split <;> simp
  rw [ux, ← nx]
  generalize decide (f.neg x) = neg
  have ha : 0 ≤ (m : ℝ) * (2 : ℝ) ^ e := by positivity
  obtain ⟨k, hk⟩ : ∃ k, k = (stepsOf rd neg ((m : ℝ) * (2 : ℝ) ^ e)).1 := ⟨_, rfl⟩
  have hround := roundsInt_stepsOf hr neg ha
  have hin := stepsOf_inexact rd neg ha
  rw [← FVal.num_fin, ← hk] at hround
  rw [← hk] at hin
  have hkr : (((if neg then -(k : Int) else k) : Int) : ℝ) = (FVal.fin neg k 0).num := by rw [FVal.num_fin]; cases neg <;> simp
  have hkx : (((if neg then -(k : Int) else k) : Int) : ℝ) = (FVal.fin neg m e).num ↔ (k : ℝ) = (m : ℝ) * (2 : ℝ) ^ e := by
    rw [hkr, FVal.num_fin, FVal.num_fin]; cases neg <;> simp
  refine ⟨_, hround, ?_⟩
  by_cases h0 : 0 ≤ e
  · obtain ⟨s, rfl⟩ := Int.eq_ofNat_of_zero_le h0
    have hint : (k : ℝ) = (m : ℝ) * (2 : ℝ) ^ (s : Int) := by
      rw [hk, show (m : ℝ) * (2 : ℝ) ^ (s : Int) = ((m * 2 ^ s : Nat) : ℝ) by push_cast; rfl, stepsOf_natCast]
    obtain ⟨hnum, hfl⟩ := Fmt.fRound_exact hf.toSound hr (neg := neg) hm he hlt
    simp only [fRnd, if_pos h0]
    rw [if_pos (hkx.2 hint), hkx.2 hint]
    exact ⟨hnum, hfl⟩
  · have hat : roundAt rd neg m e false 0 = stepsOf rd neg ((m : ℝ) * (2 : ℝ) ^ e) := by
      rw [roundAt_eq (show Magnitude m e false _ from rfl) (fun h => by cases h), zpow_zero, div_one]
    have hkle : k ≤ 2 ^ f.fbits := by
      have hhalf : (2 : ℝ) ^ e ≤ (2 : ℝ) ^ (-1 : Int) := zpow_le_zpow_right₀ one_le_two (by omega)
      have hmr : (m : ℝ) < 2 ^ f.fbits * 2 := by exact_mod_cast (pow_succ 2 f.fbits) ▸ hm
      have hpos : (0 : ℝ) < (2 : ℝ) ^ e := by positivity
      rw [zpow_neg_one] at hhalf
      rw [hk]
      refine stepsOf_le rd neg ha ?_
      push_cast
      nlinarith
    have hkle' : (k : ℝ) ≤ 2 ^ f.fbits := by exact_mod_cast hkle
    obtain ⟨hnum, -⟩ := Fmt.fRound_exact hf.toSound hr (neg := neg) (m := k) (e := 0)
      (hkle.trans_lt (Nat.pow_lt_pow_right (by decide) (Nat.lt_succ_self _))) hf.qmin_le
      (by rw [zpow_zero, mul_one]; exact hkle'.trans_lt hf.le_grid)
    simp only [fRnd, if_neg h0, hat, hin, ← hk, hkx]
    exact ⟨hnum.trans hkr.symm, by simp only [ne_eq, decide_not, Bool.not_eq_true', decide_eq_false_iff_not, ite_not]⟩

end Sys2Proof.Machine

namespace Sys2Proof.Machine

/-! ### The floating-point forms deliver their results (R127, R129–R133) -/

/-- A row of CompletesFp. -/
def MeetsFp (i : Instr) (x : FpSpec) : Prop :=
  ∀ s c, Issues s c x.form → Healthy c → Retires i s c x.form (Delivers s c x.form x.lat (flagList c.ts (x.flags c)) x.raises (x.regs c))

theorem completesFp_iff (table : Instr → FpSpec → Prop) : CompletesFp table ↔ ∀ i x, table i x → MeetsFp i x := Iff.rfl

/-- A form whose threads compute their own writes and flags. -/
theorem meetsFp_of_threads {i : Instr} {x : FpSpec} (out : Ctx → Nat → ThreadOut) (fm : Option Fmt)
    (he : ∀ s, exec i s = issueForm s x.form (fun c => fpThreads s c x.form x.lat (out c) fm x.raises))
    (hl : ∀ c, LandsAs c.br (c.ts.flatMap (fun t => (out c t).1)) (x.regs c)) (hf : ∀ c t, (out c t).2 = x.flags c t) : MeetsFp i x :=
  fun s c hi hh => by
    rw [← show (fun t => (out c t).2) = x.flags c from funext (hf c)]
    exact retires_fp hi hh (he s) rfl (hl c)

section
variable {i : Instr} {o : Fop} {lat : Nat} {two : Bool} {d a b : Reg} {rm : Rm} {st : BitVec 3}

theorem meets_fpSpec32 (he : ∀ s, exec i s = fpForm o false lat two d a b rm st s) : MeetsFp i (fpSpec32 o lat two d a b rm st) :=
  meetsFp_of_threads (fun c t => out32 c d t (fun e => fop fmtF32 (c.rnd rm) o (c.h a t e).toNat (c.h b t e).toNat (c.h d t e).toNat)
    (fun e => (o.reads d a b).any (fun r => c.hG r t e))) (pairFmt false) he (fun c => landsAs_laneWrites32 c d
      (fun t e => BitVec.ofNat 32 (fop fmtF32 (c.rnd rm) o (c.h a t e).toNat (c.h b t e).toNat (c.h d t e).toNat).1)
      (fun t e => (o.reads d a b).any (fun r => c.hG r t e))) fun _ _ => rfl

theorem meets_fpSpec64 (he : ∀ s, exec i s = fpForm o true lat two d a b rm st s) : MeetsFp i (fpSpec64 o lat two d a b rm st) :=
  meetsFp_of_threads (fun c t => out64 c d t (fop fmtF64 (c.rnd rm) o (c.w a t).toNat (c.w b t).toNat (c.w d t).toNat)
    ((o.reads d a b).any (fun r => c.wG r t))) (pairFmt true) he (fun c => landsAs_laneWrites64 c d _ _) fun _ _ => rfl

theorem meets_fcmp {cc : FCond} {m : BitVec 3} {q : Bool} (he : ∀ s, exec i s = laneFcmp cc m a b q st s) :
    MeetsFp i (fcmpSpec cc m a b q st) :=
  fun s c hi hh => retires_fp hi hh (he s) rfl (landsAs_maskWrite c m
    (fun t e => (if q then fcond cc (fUnpack fmtF64 (c.w a t).toNat) (fUnpack fmtF64 (c.w b t).toNat)
      else fcond cc (fUnpack fmtF32 (c.h a t e).toNat) (fUnpack fmtF32 (c.h b t e).toNat)).1)
    (fun t e => if q then c.wG a t || c.wG b t else c.hG a t e || c.hG b t e))

/-- A form of one operand, which is g of that operand's bits as a register holds the result. -/
theorem meets_fpUn {dbl raises : Bool} {g : Ctx → Fmt → Nat → Nat × Flags} {fm : Option Fmt} (g' : Ctx → Fmt → Nat → Nat × Flags)
    (hg : ∀ c (w : W64), (BitVec.ofNat 64 (g' c fmtF64 w.toNat).1, (g' c fmtF64 w.toNat).2) =
      (BitVec.ofNat 64 (g c fmtF64 w.toNat).1, (g c fmtF64 w.toNat).2))
    (hg' : ∀ c (h : W32), (BitVec.ofNat 32 (g' c fmtF32 h.toNat).1, (g' c fmtF32 h.toNat).2) =
      (BitVec.ofNat 32 (g c fmtF32 h.toNat).1, (g c fmtF32 h.toNat).2))
    (he : ∀ s, exec i s = issueForm s (laneForm two st [a] d) (fun c => fpThreads s c (laneForm two st [a] d) lat (fun t =>
      if dbl then out64 c d t (g' c fmtF64 (c.w a t).toNat) (c.wG a t)
      else out32 c d t (fun e => g' c fmtF32 (c.h a t e).toNat) (fun e => c.hG a t e)) fm raises)) :
    MeetsFp i (fpUn dbl two lat d a st raises g) := by
  cases dbl
  · refine meetsFp_of_threads (fun c t => out32 c d t (fun e => g' c fmtF32 (c.h a t e).toNat) (fun e => c.hG a t e)) fm he
      (fun c => ?_) fun c t => congrArg₂ (· ||| ·) (Prod.ext_iff.1 (hg' c _)).2 (Prod.ext_iff.1 (hg' c _)).2
    have hv : (fun t e => BitVec.ofNat 32 (g c fmtF32 (c.h a t e).toNat).1) = fun t e => BitVec.ofNat 32 (g' c fmtF32 (c.h a t e).toNat).1 :=
      funext fun t => funext fun e => (Prod.ext_iff.1 (hg' c _)).1.symm
    show LandsAs c.br _ ((regsOf c.br).put32 c d (fun t e => BitVec.ofNat 32 (g c fmtF32 (c.h a t e).toNat).1) (fun t e => c.hG a t e))
    rw [hv]
    exact landsAs_laneWrites32 c d (fun t e => BitVec.ofNat 32 (g' c fmtF32 (c.h a t e).toNat).1) (fun t e => c.hG a t e)
  · refine meetsFp_of_threads (fun c t => out64 c d t (g' c fmtF64 (c.w a t).toNat) (c.wG a t)) fm he
      (fun c => ?_) fun c t => (Prod.ext_iff.1 (hg c _)).2
    have hv : (fun t => BitVec.ofNat 64 (g c fmtF64 (c.w a t).toNat).1) = fun t => BitVec.ofNat 64 (g' c fmtF64 (c.w a t).toNat).1 :=
      funext fun t => (Prod.ext_iff.1 (hg c _)).1.symm
    show LandsAs c.br _ ((regsOf c.br).put64 c d (fun t => BitVec.ofNat 64 (g c fmtF64 (c.w a t).toNat).1) (fun t => c.wG a t))
    rw [hv]
    exact landsAs_laneWrites64 c d _ _

end

/-- Two registers written in each active thread; the second wins. -/
theorem landsAs_two (c : Ctx) (d v : Reg) {F : Nat → List RegWrite} {x y : Nat → Nat → Half}
    (hF : F = fun t => [RegWrite.lane (halfKey (physReg c.k d.toNat) t 0) (x t 0),
        .lane (halfKey (physReg c.k d.toNat) t 1) (x t 1)] ++ [.lane (halfKey (physReg c.k v.toNat) t 0) (y t 0),
        .lane (halfKey (physReg c.k v.toNat) t 1) (y t 1)]) :
    LandsAs c.br (c.ts.flatMap F) (((regsOf c.br).putHalves c d x).putHalves c v y) := by
  subst hF
  refine landsAs_threads c c.br (fun t ht => threadWrites_append (threadWrites_pair x (Ctx.ts_lt ht)) (threadWrites_pair y (Ctx.ts_lt ht)))
    _ fun p t e _ _ => ?_
  by_cases ha : c.act t = true <;> by_cases hv : p = physReg c.k v.toNat <;> simp [Regs.putHalves, regsOf, ha, hv]

theorem meets_fpTwo {i : Instr} {g : Fmt → Nat → Nat → Nat × Nat × Flags} {d a b v : Reg} {ty : Ty} {st : BitVec 3}
    (he : ∀ s, exec i s = fpTwo g d a b v ty st s) : MeetsFp i (fpTwoSpec g d a b v ty st) := by
  by_cases hty : ty = .f64
  · subst hty
    exact meetsFp_of_threads (fun c t => (c.putW d t (BitVec.ofNat 64 (g fmtF64 (c.w a t).toNat (c.w b t).toNat).1) (c.wG a t || c.wG b t) ++
        c.putW v t (BitVec.ofNat 64 (g fmtF64 (c.w a t).toNat (c.w b t).toNat).2.1) (c.wG a t || c.wG b t),
        (g fmtF64 (c.w a t).toNat (c.w b t).toNat).2.2)) (pairFmt true) he (fun c => landsAs_two c d v rfl) fun _ _ => rfl
  · have hb : (ty == Ty.f64) = false := by simpa using hty
    refine meetsFp_of_threads (fun c t =>
      ((out32 c d t (fun e => ((g fmtF32 (c.h a t e).toNat (c.h b t e).toNat).1, flagNone)) (fun e => c.hG a t e || c.hG b t e)).1 ++
        (out32 c v t (fun e => ((g fmtF32 (c.h a t e).toNat (c.h b t e).toNat).2.1, flagNone)) (fun e => c.hG a t e || c.hG b t e)).1,
        (g fmtF32 (c.h a t 0).toNat (c.h b t 0).toNat).2.2 ||| (g fmtF32 (c.h a t 1).toNat (c.h b t 1).toNat).2.2)) (pairFmt false)
      (fun s => (he s).trans ?_) (fun c => ?_) fun c t => ?_
    · simp only [fpTwo, fpTwoSpec, hb, if_neg hty, Bool.false_eq_true, if_false]
    · simp only [fpTwoSpec, if_neg hty]
      exact landsAs_two c d v rfl
    · simp only [fpTwoSpec, if_neg hty]
end Sys2Proof.Machine

namespace Sys2Proof.Machine

/-- FNEG's subtraction of the sign bit is its addition, in the width of the register. -/
theorem ofNat_fNegBits (n : Nat) (f : Fmt) (hn : n = f.ebits + f.fbits + 1) (x : BitVec n) :
    BitVec.ofNat n (fNegBits f x.toNat) = BitVec.ofNat n (if isNaN (fUnpack f x.toNat) then f.nanBits else x.toNat + 2 ^ (f.ebits + f.fbits)) := by
  unfold fNegBits
  split
  · rfl
  · split
    next h =>
      apply BitVec.eq_of_toNat_eq
      have hp : 2 ^ n = 2 ^ (f.ebits + f.fbits) + 2 ^ (f.ebits + f.fbits) := by rw [hn, pow_succ, mul_two]
      have hx := x.isLt
      rw [BitVec.toNat_ofNat, BitVec.toNat_ofNat, Nat.mod_eq_of_lt (by omega), Nat.mod_eq_sub_mod (by omega), Nat.mod_eq_of_lt (by omega)]
      omega
    · rfl


theorem completes_laneFp : CompletesFp LaneFp := by
  rw [completesFp_iff]
  intro i x h
  cases h
  case fcmpEq | fcmpNe | fcmpLt | fcmpLe | fcmpUn => exact meets_fcmp fun _ => rfl
  case fclass => exact meets_fpUn (fun _ f x => (fClass f x, flagNone)) (fun _ _ => rfl) (fun _ _ => rfl) fun _ => rfl
  case fabs => exact meets_fpUn (fun _ f x => (fAbsBits f x, flagNone)) (fun _ _ => rfl) (fun _ _ => rfl) fun _ => rfl
  case fneg =>
    exact meets_fpUn (fun _ f x => (fNegBits f x, flagNone)) (fun _ w => Prod.ext (ofNat_fNegBits 64 fmtF64 rfl w) rfl)
      (fun _ w => Prod.ext (ofNat_fNegBits 32 fmtF32 rfl w) rfl) fun _ => rfl
  case frnd d a rm ty st => exact meets_fpUn (fun c f x => fRnd f (c.rnd rm) (fUnpack f x)) (fun _ _ => rfl) (fun _ _ => rfl) fun _ => rfl
  case flg2F64 => exact meets_fpSpec64 fun _ => rfl
  case flg2F32 d a rm ty st hty =>
    have hb : (ty == Ty.f64) = false := by simpa using hty
    exact meets_fpSpec32 fun s => show fpForm _ _ _ _ _ _ _ _ _ s = _ by rw [hb]; rfl
  case fscaleF64 d a b rm st =>
    exact meetsFp_of_threads (fun c t => out64 c d t (fScale fmtF64 (c.rnd rm) (fUnpack fmtF64 (c.w a t).toNat) (c.w b t).toInt)
      (c.wG a t || c.wG b t)) (pairFmt true) (fun _ => rfl) (fun c => landsAs_laneWrites64 c d _ _) fun _ _ => rfl
  case fscaleF32 d a b rm ty st hty =>
    have hb : (ty == Ty.f64) = false := by simpa using hty
    exact meetsFp_of_threads (fun c t => out32 c d t (fun e => fScale fmtF32 (c.rnd rm) (fUnpack fmtF32 (c.h a t e).toNat) (c.h b t e).toInt)
      (fun e => c.hG a t e || c.hG b t e)) (pairFmt false)
      (fun s => show execFscale d a b rm ty st s = _ by simp only [execFscale, hb, Bool.false_eq_true, if_false])
      (fun c => landsAs_laneWrites32 c d (fun t e => BitVec.ofNat 32 (fScale fmtF32 (c.rnd rm) (fUnpack fmtF32 (c.h a t e).toNat)
        (c.h b t e).toInt).1) (fun t e => c.hG a t e || c.hG b t e)) fun _ _ => rfl
  case ftwos | ftwop => exact meets_fpTwo fun _ => rfl
  case faddF64 | fsubF64 | fmulF64 | ffmaF64 | ffmsF64 | fnmaF64 | fminF64 | fmaxF64 | fdivF64 | fsqrtF64 | frcpF64 | frsqF64 | fexpF64 |
      fex2F64 | flogF64 | ferfF64 => exact meets_fpSpec64 fun _ => rfl
  all_goals exact meets_fpSpec32 fun _ => rfl

end Sys2Proof.Machine

namespace Sys2Proof.Machine

/-! ### The algebraic operations are exact, rounded once (R129, R130) -/

/-- The modes do not draw. -/
theorem det_draw (m : Rm) : ∀ r, Rounding.det m = .stoch r → r < 65536 := fun r h => by cases h

theorem cancelNeg_det (m : Rm) : cancelNeg (.det m) false = (m == .rdn) := by cases m <;> rfl

section
variable {f : Fmt} (hf : f.Coded) (m : Rm) {x y z : Nat}
include hf

/-- Each algebraic operation delivers its exact result. -/
theorem delivers_fop {o : Fop} {v : ℝ} (hfin : ∀ w ∈ [x, y, z].take o.arity, f.finite w)
    (hv : o.isExact (f.num x) (f.num y) (f.num z) v) :
    f.delivers (.det m) v (o.zeroNeg (m == .rdn) (decide (f.neg x)) (decide (f.neg y)) (decide (f.neg z))) (fop f (.det m) o x y z) := by
  have hs := hf.toSound
  have hr := det_draw m
  have hx : f.finite x := hfin x (by cases o <;> simp [Fop.arity])
  obtain ⟨m1, e1, ux, -, -, nx⟩ := f.fUnpack_finite hf hx
  have two (ho : 2 ≤ o.arity) : ∃ m e, fUnpack f y = .fin (decide (f.neg y)) m e ∧ (FVal.fin (decide (f.neg y)) m e).num = f.num y := by
    obtain ⟨m2, e2, uy, -, -, ny⟩ := f.fUnpack_finite hf (hfin y (by rw [List.mem_take_iff_getElem]; exact ⟨1, lt_min ho (by simp), rfl⟩))
    exact ⟨m2, e2, uy, ny⟩
  have three (ho : 3 ≤ o.arity) : ∃ m e, fUnpack f z = .fin (decide (f.neg z)) m e ∧ (FVal.fin (decide (f.neg z)) m e).num = f.num z := by
    obtain ⟨m3, e3, uz, -, -, nz⟩ := f.fUnpack_finite hf (hfin z (by rw [List.mem_take_iff_getElem]; exact ⟨2, lt_min ho (by simp), rfl⟩))
    exact ⟨m3, e3, uz, nz⟩
  have hneg (n : Bool) (m : Nat) (e : Int) : (FVal.fin (!n) m e).num = -(FVal.fin n m e).num := FVal.num_negate (.fin n m e)
  generalize decide (f.neg x) = sx at ux nx ⊢
  generalize decide (f.neg y) = sy at two ⊢
  generalize decide (f.neg z) = sz at three ⊢
  simp only [fop, ux]
  rw [← nx] at hv
  cases o with
  | add =>
    obtain ⟨m2, e2, uy, ny⟩ := two le_rfl
    rw [← ny] at hv
    rw [uy, show v = _ from hv, Fop.zeroNeg, ← cancelNeg_det]
    exact Fmt.delivers_fAdd hs hr _ _ _ _ _ _ _
  | sub =>
    obtain ⟨m2, e2, uy, ny⟩ := two le_rfl
    rw [← ny, Fop.isExact, sub_eq_add_neg, ← hneg] at hv
    rw [uy, hv, Fop.zeroNeg, ← cancelNeg_det]
    exact Fmt.delivers_fAdd hs hr _ _ _ _ _ _ _
  | mul =>
    obtain ⟨m2, e2, uy, ny⟩ := two le_rfl
    rw [← ny] at hv
    rw [uy, show v = _ from hv]
    exact Fmt.delivers_fMul hs hr _ _ _ _ _ _
  | fma =>
    obtain ⟨m2, e2, uy, ny⟩ := two (by decide)
    obtain ⟨m3, e3, uz, nz⟩ := three le_rfl
    rw [← ny, ← nz] at hv
    rw [uy, uz, show v = _ from hv, Fop.zeroNeg, ← cancelNeg_det]
    exact Fmt.delivers_fFma hs hr _ _ _ _ _ _ _ _ _
  | fms =>
    obtain ⟨m2, e2, uy, ny⟩ := two (by decide)
    obtain ⟨m3, e3, uz, nz⟩ := three le_rfl
    rw [← ny, ← nz, Fop.isExact, sub_eq_add_neg, ← hneg] at hv
    rw [uy, uz, hv, Fop.zeroNeg, ← cancelNeg_det]
    exact Fmt.delivers_fFma hs hr _ _ _ _ _ _ _ _ _
  | nma =>
    obtain ⟨m2, e2, uy, ny⟩ := two (by decide)
    obtain ⟨m3, e3, uz, nz⟩ := three le_rfl
    rw [← ny, ← nz, Fop.isExact, sub_eq_neg_add, ← neg_mul, ← hneg] at hv
    rw [uy, uz, hv, Fop.zeroNeg, ← cancelNeg_det, show (sx == sy) = ((!sx) != sy) by cases sx <;> cases sy <;> rfl]
    exact Fmt.delivers_fFma hs hr _ _ _ _ _ _ _ _ _
  | div =>
    obtain ⟨m2, e2, uy, ny⟩ := two le_rfl
    rw [← ny] at hv
    rw [uy, hv.2]
    exact Fmt.delivers_fDiv hs hr rfl _ _ _ _ _ _ hv.1
  | sqrt =>
    rw [hv.2]
    exact Fmt.delivers_fSqrt hs hr rfl _ _ _ hv.1
  | rcp =>
    have h1 : (FVal.fin false 1 0).num = 1 := by simp [FVal.num]
    rw [hv.2, ← h1, fRcp]
    simpa [Fop.zeroNeg] using Fmt.delivers_fDiv hs hr rfl false 1 0 sx m1 e1 hv.1
  | rsq =>
    rw [hv.2]
    exact Fmt.delivers_fRsqrt hs hr rfl _ _ _ hv.1 _
  | min | max | exp | ex2 | log | erf | lg2 => exact hv.elim
end

/-- Settles O15: each row of the table delivers its threads' elements, and one rounding lemma serves every operation. -/
theorem floatingPointResults : Obligations.FloatingPointResults := by
  unfold Obligations.FloatingPointResults
  refine ⟨completes_laneFp, fun f hf m x y z => ?_⟩
  have hw : f.Wide := by
    rcases hf with rfl | rfl
    · exact Fmt.wide_f32
    · exact Fmt.wide_f64
  exact ⟨fun o v hfin hv => delivers_fop hw.toCoded m hfin hv,
    fun hx hy => ⟨fMin_fin hw.toCoded hx hy, fMax_fin hw.toCoded hx hy, fcond_fin hw.toCoded hx hy⟩,
    fun hx => ⟨rounded_fScale hw.toCoded (det_draw m) hx, fRnd_finite hw (det_draw m) hx⟩⟩

end Sys2Proof.Machine


/-!
O17. LRED and LSCAN deliver the combination of the active lanes; a node's floating-point add is the one rounding of the exact sum, and
its integer operations are those of bit vectors.
-/
namespace Sys2Proof.Machine

/-- A reduction completes, with its flags where its type has any. -/
theorem retires_reduce {i : Instr} {s : State} {c : Ctx} {f : Form} {lat : Nat} {ty : Ty} {ws : Ctx → List RegWrite} {fl : Ctx → Flags}
    {r : Regs} (hi : Issues s c f) (hh : Healthy c) (he : exec i s = issueForm s f (fun c => redDone s c f lat ty (ws c) (fl c)))
    (h : LandsAs c.br (ws c) r) :
    Retires i s c f (Delivers s c f lat (if ty.isFloat then flagList c.ts (fun _ => fl c) else []) ty.isFloat r) := by
  cases hf : ty.isFloat
  · exact retires_fixed hi hh.1 he (by simp only [redDone, hf, Bool.false_eq_true, if_false]) h
  · exact retires_fp (raises := true) hi hh he (by simp only [redDone, hf, if_true]; rfl) h

theorem treeLevels_eq (ty : Ty) : treeLevels ty = if (ty.width == 32) = true then 6 else 5 := by
  simp only [treeLevels, beq_iff_eq]

theorem completesReduce : CompletesReduce := by
  intro i x h s c hi hh
  cases h with
  | lred d a op rm ty st =>
    refine retires_reduce hi hh (ws := fun c =>
      if ty.width == 32 then laneWrites32 c d (fun _ _ => BitVec.ofNat 32 (redDeliver op ty (treeNode (redCombine op ty (c.rnd rm))
          (redLeaf c (ty.width == 32) a) (treeLevels ty) 0).1)) (fun _ _ => (c.lanes (ty.width == 32)).any (laneElemG c (ty.width == 32) a))
      else laneWrites64 c d (fun _ => BitVec.ofNat 64 (redDeliver op ty (treeNode (redCombine op ty (c.rnd rm))
          (redLeaf c (ty.width == 32) a) (treeLevels ty) 0).1)) (fun _ => (c.lanes (ty.width == 32)).any (laneElemG c (ty.width == 32) a)))
      (by simp only [treeLevels_eq]; rfl) ?_
    by_cases hw : ty.width = 32
    · simp only [hw, beq_self_eq_true, if_true]
      exact landsAs_laneWrites32 c d _ _
    · have hb : (ty.width == 32) = false := by simpa using hw
      simp only [hw, hb, Bool.false_eq_true, if_false]
      exact landsAs_laneWrites64 c d _ _
  | lscan d a op excl rm ty st =>
    refine retires_reduce hi hh rfl ?_
    by_cases hw : ty.width = 32
    · simp only [hw, beq_self_eq_true, if_true]
      exact landsAs_laneWrites32 c d _ _
    · have hb : (ty.width == 32) = false := by simpa using hw
      simp only [hw, hb, Bool.false_eq_true, if_false]
      exact landsAs_laneWrites64 c d _ _

/-! ### One node of the tree -/

/-- A floating-point add is the exact sum rounded once; its zero is negative only where both addends are (R87). -/
theorem delivers_redAdd {f : Fmt} (hf : f.Coded) (m : Rm) {x y : Nat} (hx : f.finite x) (hy : f.finite y) :
    f.delivers (.det m) (f.num x + f.num y) (decide (f.neg x) && decide (f.neg y)) (fAdd f (.det m) true (fUnpack f x) (fUnpack f y)) := by
  obtain ⟨m1, e1, ux, -, -, nx⟩ := f.fUnpack_finite hf hx
  obtain ⟨m2, e2, uy, -, -, ny⟩ := f.fUnpack_finite hf hy
  have h := Fmt.delivers_fAdd hf.toSound (det_draw m) true (decide (f.neg x)) m1 e1 (decide (f.neg y)) m2 e2
  rw [nx, ny, ← ux, ← uy] at h
  rwa [show (if decide (f.neg x) == decide (f.neg y) then decide (f.neg x) else cancelNeg (.det m) true) =
    (decide (f.neg x) && decide (f.neg y)) by cases decide (f.neg x) <;> cases decide (f.neg y) <;> rfl] at h

theorem asSigned_toNat {w : Nat} (hw : 0 < w) (a : BitVec w) : asSigned w a.toNat = a.toInt := by
  have hp : 2 ^ w = 2 * 2 ^ (w - 1) := by rw [← pow_succ', Nat.sub_add_cancel hw]
  unfold asSigned BitVec.toInt
  rw [Nat.mod_eq_of_lt a.isLt]
  by_cases h : a.toNat < 2 ^ (w - 1)
  · rw [if_pos h, if_pos (by omega)]
  · rw [if_neg h, if_neg (by omega)]

/-- What an integer node computes, of bit vectors. -/
def redBits {w : Nat} (op : RedOp) (sg : Bool) (a b : BitVec w) : BitVec w :=
  match op with
  | .add => a + b
  | .min => if sg then minS a b else minU a b
  | .max => if sg then maxS a b else maxU a b
  | .and => a &&& b
  | .or => a ||| b
  | .xor => a ^^^ b

theorem redCombine_int {ty : Ty} (h : fmtOf ty = none) (op : RedOp) (rd : Rounding) (x y : Nat) :
    redCombine op ty rd x y = ((redBits op (ty == .i32 || ty == .i64) (BitVec.ofNat ty.width x) (BitVec.ofNat ty.width y)).toNat, flagNone) := by
  unfold redCombine
  rw [h]
  cases op <;> rfl

/-- And what that is, of numbers. -/
theorem redBits_spec {w : Nat} (hw : 0 < w) (op : RedOp) (sg : Bool) (a b : BitVec w) : match op with
    | .add => (redBits op sg a b).toNat = (a.toNat + b.toNat) % 2 ^ w
    | .min => if sg then asSigned w (redBits op sg a b).toNat = min (asSigned w a.toNat) (asSigned w b.toNat)
        else (redBits op sg a b).toNat = min a.toNat b.toNat
    | .max => if sg then asSigned w (redBits op sg a b).toNat = max (asSigned w a.toNat) (asSigned w b.toNat)
        else (redBits op sg a b).toNat = max a.toNat b.toNat
    | .and => ∀ i, (redBits op sg a b).toNat.testBit i = (a.toNat.testBit i && b.toNat.testBit i)
    | .or => ∀ i, (redBits op sg a b).toNat.testBit i = (a.toNat.testBit i || b.toNat.testBit i)
    | .xor => ∀ i, (redBits op sg a b).toNat.testBit i = (a.toNat.testBit i != b.toNat.testBit i) := by
  cases op with
  | add => exact BitVec.toNat_add a b
  | and => exact fun i => by rw [redBits, BitVec.toNat_and, Nat.testBit_and]
  | or => exact fun i => by rw [redBits, BitVec.toNat_or, Nat.testBit_or]
  | xor => exact fun i => by rw [redBits, BitVec.toNat_xor, Nat.testBit_xor]
  | min =>
    cases sg
    · simp only [redBits, minU, BitVec.ule_eq_decide, decide_eq_true_eq, Bool.false_eq_true, if_false]
      split <;> omega
    · simp only [redBits, minS, BitVec.sle_eq_decide, decide_eq_true_eq, asSigned_toNat hw, if_true]
      split <;> omega
  | max =>
    cases sg
    · simp only [redBits, maxU, BitVec.ule_eq_decide, decide_eq_true_eq, Bool.false_eq_true, if_false]
      split <;> omega
    · simp only [redBits, maxS, BitVec.sle_eq_decide, decide_eq_true_eq, asSigned_toNat hw, if_true]
      split <;> omega

/-- Settles O17: the forms deliver the tree's values by definition, and a node is the one rounding or an operation of bit vectors. -/
theorem reductionResults : Obligations.ReductionResults := by
  unfold Obligations.ReductionResults
  refine ⟨completesReduce, fun ty f hty m x y hx hy => ?_, fun ty w hw hty op rd x y hx hy => ?_⟩
  · have hf : fmtOf ty = some f := by rcases hty with ⟨rfl, rfl⟩ | ⟨rfl, rfl⟩ <;> rfl
    obtain ⟨h, hz⟩ := delivers_redAdd (Fmt.coded_of_fmtOf hf) m hx hy
    have hadd : redCombine .add ty (.det m) x y = fAdd f (.det m) true (fUnpack f x) (fUnpack f y) := by simp only [redCombine, hf]
    have hmin : redCombine .min ty (.det m) x y = fMinMax f false x y := by simp only [redCombine, hf]
    have hmax : redCombine .max ty (.det m) x y = fMinMax f true x y := by simp only [redCombine, hf]
    rw [hadd, hmin, hmax]
    exact ⟨⟨h, fun h0 => by simpa using hz h0⟩, rfl, rfl⟩
  · subst hw
    have hf : fmtOf ty = none := by rcases hty with rfl | rfl | rfl | rfl | rfl | rfl <;> rfl
    have hw : 0 < ty.width := by cases ty <;> decide
    have hsg : (ty == .i32 || ty == .i64) = true ↔ ty = .i32 ∨ ty = .i64 := by simp
    have h := redBits_spec hw op (ty == .i32 || ty == .i64) (BitVec.ofNat ty.width x) (BitVec.ofNat ty.width y)
    simp only [BitVec.toNat_ofNat, Nat.mod_eq_of_lt hx, Nat.mod_eq_of_lt hy, hsg] at h
    exact ⟨_, redCombine_int hf op rd x y, BitVec.isLt _, h⟩

end Sys2Proof.Machine

/-!
O16. A converting form delivers the elements of its threads on the state after the draw; a converted element is `roundAt` or `fRound` of
the exact value, which the rounding lemmas settle.
-/
namespace Sys2Proof.Machine

/-! ### What the converting forms write -/

/-- One half of a register in every active thread. -/
theorem landsAs_chosen (c : Ctx) (d : Reg) {e : Nat} (he : e < 2) (h : Nat → Half) :
    LandsAs c.br (c.ts.flatMap (fun t => [.lane (halfKey (physReg c.k d.toNat) t e) (h t)]))
      ((regsOf c.br).putChosen c d (fun x => x == e) (fun t _ => h t)) := by
  refine landsAs_threads c c.br (fun t ht => threadWrites_someHalf (fun t => some (h t)) (Ctx.ts_lt ht) he) _ fun p t x _ _ => ?_
  by_cases hp : p = physReg c.k d.toNat <;> by_cases ha : c.act t = true <;> by_cases hx : x = e <;> simp [regsOf, hp, ha, hx]

/-- A uniform register written after the others; s0 discards. -/
theorem landsAs_append_uni {c : Ctx} {ws : List RegWrite} {r : Regs} (h : LandsAs c.br ws r) (d : Reg) (v : W64) (g : Bool) :
    LandsAs c.br (ws ++ [c.putU d v g]) (r.putUni c d v g) := by
  obtain ⟨h1, h2, h3, -⟩ := h
  obtain ⟨u1, u2, u3, -⟩ := landsAs_uniWrite (applyWrites c.br ws) (physReg c.k d.toNat) v (c.gov || g)
  refine ⟨fun p t e ht he => ?_, fun p => ?_, fun m i hi => ?_, applyWrites_frame _ _⟩
  · rw [applyWrites_append]; exact (u1 p t e ht he).trans (h1 p t e ht he)
  · rw [applyWrites_append]
    refine (u2 p).trans ?_
    simp only [Regs.putUni]
    split
    · rfl
    · exact h2 p
  · rw [applyWrites_append]; exact (u3 m i hi).trans (h3 m i hi)

/-! ### The converting forms complete -/

/-- A row of CompletesConv. -/
def MeetsConv (i : Instr) (x : ConvSpec) : Prop :=
  ∀ s c, Issues s c x.form → x.ok c = true → Healthy c →
    let next := srStep (srOf s c.br)
    let s1 := if x.rsr then srWrite s c.b c.br next else s
    let c1 := if x.rsr then { c with br := { c.br with sr := next } } else c
    Retires i s c x.form (Delivers s1 c1 x.form x.lat (flagList c.ts (x.flags s1 c1)) true (x.regs s1 c1))

theorem completesConv_iff (table : Instr → ConvSpec → Prop) : CompletesConv table ↔ ∀ i x, table i x → MeetsConv i x := Iff.rfl

theorem issueConv_go {s : State} {c : Ctx} {f : Form} (h : Issues s c f) (rsr : Bool) (body : State → Ctx → Res) :
    issueConv s f rsr body = .next (settle s c f (body (if rsr then srWrite s c.b c.br (srStep (srOf s c.br)) else s)
      (if rsr then { c with br := { c.br with sr := srStep (srOf s c.br) } } else c))) := by
  simp [issueConv, h.1, h.2]

/-- A form whose body delivers what its table says, on the state after the draw. -/
theorem meetsConv_of_push {i : Instr} {x : ConvSpec} {body : State → Ctx → Res} (ws : State → Ctx → List RegWrite)
    (m : State → Ctx → Nat → W64) (fm : Option Fmt) (he : ∀ s, exec i s = issueConv s x.form x.rsr body)
    (hok : ∀ c v, x.ok { c with br := { c.br with sr := v } } = x.ok c)
    (hb : ∀ s c, x.ok c = true → body s c = .done (pushFp s c x.form x.lat (ws s c) (flagList c.ts (x.flags s c)) (m s c) fm true))
    (hl : ∀ s c, LandsAs c.br (ws s c) (x.regs s c)) : MeetsConv i x := by
  intro s c hi hx hh
  cases hr : x.rsr
  · exact ⟨_, ⟨ws s c, hl s c, rfl⟩, by rw [he, issueConv_go hi, hr, if_neg (by decide), if_neg (by decide), hb s c hx, pushFp_healthy hh]; rfl⟩
  · refine ⟨_, ⟨ws _ _, hl _ _, rfl⟩, ?_⟩
    rw [he, issueConv_go hi, hr, if_pos rfl, if_pos rfl, hb _ _ ((hok c _).trans hx),
      pushFp_healthy (c := { c with br := { c.br with sr := srStep (srOf s c.br) } }) hh]
    rfl

end Sys2Proof.Machine

namespace Sys2Proof.Machine

section
variable (d a v : Reg) (rm : Rm) (t1 t2 : Ty) (hi : Bool) (st : BitVec 3)

/-- No zero point that CVT reads is too large, when the table's check holds. -/
theorem badZeros_eq_nil {c : Ctx} {h0 h1 : Bool}
    (h : (!t2.isBlock || c.ts.all (fun t => !((h0 && zeroPointBad t2 (c.h v t 0).toNat) || (h1 && zeroPointBad t2 (c.h v t 1).toNat)))) = true) :
    (if t2.isBlock then badZeros c v t2 h0 h1 else []) = [] := by
  cases hb : t2.isBlock
  · rfl
  · rw [hb, Bool.not_true, Bool.false_or, List.all_eq_true] at h
    rw [if_pos rfl, badZeros, List.filter_eq_nil_iff]
    intro t ht hc
    have := h t ht
    rw [hc] at this
    cases this

theorem landsAs_cvt (s : State) (c : Ctx) : LandsAs c.br (c.ts.flatMap (fun t => (cvtThread s c d a v rm t1 t2 hi t).1))
    ((cvtSpec d a v rm t1 t2 hi st).regs s c) := by
  have he : (if hi then 1 else 0) < 2 := by cases hi <;> decide
  by_cases h1 : t1.width = 64 <;> by_cases h2 : t2.width = 64
  · simp only [cvtThread, cvtSpec, if_pos h1, if_pos h2]
    exact landsAs_laneWrites64 c d _ _
  · simp only [cvtThread, cvtSpec, if_pos h1, if_neg h2]
    exact landsAs_laneWrites64 c d _ _
  · simp only [cvtThread, cvtSpec, if_neg h1, if_pos h2]
    exact landsAs_chosen c d he _
  · simp only [cvtThread, cvtSpec, if_neg h1, if_neg h2]
    exact landsAs_laneWrites32 c d (fun t x => BitVec.ofNat 32 (cvtFrom32 s c a v rm t1 t2 t x).1)
      (fun t x => cvtTag t1 t2 (cvtFrom32 s c a v rm t1 t2 t x).2 (c.hG a t x))

theorem flags_cvt (s : State) (c : Ctx) (t : Nat) : (cvtThread s c d a v rm t1 t2 hi t).2 = (cvtSpec d a v rm t1 t2 hi st).flags s c t := by
  by_cases h1 : t1.width = 64 <;> by_cases h2 : t2.width = 64
  · simp only [cvtThread, cvtSpec, if_pos h1, if_pos h2]; rfl
  · simp only [cvtThread, cvtSpec, if_pos h1, if_neg h2]; rfl
  · simp only [cvtThread, cvtSpec, if_neg h1, if_pos h2]; rfl
  · simp only [cvtThread, cvtSpec, if_neg h1, if_neg h2]; rfl

theorem meets_cvt : MeetsConv (.cvt d a v rm t1 t2 hi st) (cvtSpec d a v rm t1 t2 hi st) := by
  refine meetsConv_of_push (body := fun s' cx =>
      match (if t2.isBlock then badZeros cx v t2 (cvtReads t1 t2 hi).1 (cvtReads t1 t2 hi).2 else []) with
      | t :: ts => .trap s' (trapThread 0x142#9 t (ts.length + 1) 0)
      | [] => fpThreads s' cx (cvtSpec d a v rm t1 t2 hi st).form 4 (cvtThread s' cx d a v rm t1 t2 hi) (fmtOf t1))
    (fun s c => c.ts.flatMap (fun t => (cvtThread s c d a v rm t1 t2 hi t).1))
    (fun s c t => mainOf (cvtThread s c d a v rm t1 t2 hi t).1) (fmtOf t1) (fun _ => rfl) (fun _ _ => rfl) (fun s c hx => ?_)
    (landsAs_cvt d a v rm t1 t2 hi st)
  rw [← show (fun t => (cvtThread s c d a v rm t1 t2 hi t).2) = (cvtSpec d a v rm t1 t2 hi st).flags s c from
    funext (flags_cvt d a v rm t1 t2 hi st s c)]
  have hz := badZeros_eq_nil v t2 hx
  split
  next h => exact absurd (hz.symm.trans h) (by simp)
  next => rfl

end

section
variable (d a b : Reg) (rm : Rm) (t1 t2 : Ty) (hi : Bool) (st : BitVec 3)

/-- The writes of a thread of CVTN: the halves of its bits, or one half. -/
theorem cvtnThread_writes (s : State) (c : Ctx) (t : Nat) : (cvtnThread s c d a b rm t1 t2 hi t).1 =
    let n := if t2 == .f64 then 2 else 4
    let el := cvtnElem s c a b rm t1 t2 t
    let bits : Nat := (List.range n).foldl (fun acc k => acc + (el k).1 * 2 ^ (k * t1.width)) 0
    if n * t1.width = 64 then
      [c.putH d t 0 (BitVec.ofNat 32 (bits / 2 ^ (32 * 0))) ((List.range (n / 2)).any (fun k => (el (k + n / 2 * 0)).2.2)),
        c.putH d t 1 (BitVec.ofNat 32 (bits / 2 ^ (32 * 1))) ((List.range (n / 2)).any (fun k => (el (k + n / 2 * 1)).2.2))]
    else [c.putH d t (if hi then 1 else 0) (BitVec.ofNat 32 bits) ((List.range n).any (fun k => (el k).2.2))] := by
  simp only [mul_zero, pow_zero, Nat.div_one, mul_one]
  cases h : t2 == .f64
  · by_cases hw : 4 * t1.width = 64
    · simp only [cvtnThread, h, Bool.false_eq_true, if_false, if_pos hw]; rfl
    · simp only [cvtnThread, h, Bool.false_eq_true, if_false, if_neg hw]; rfl
  · by_cases hw : 2 * t1.width = 64
    · simp only [cvtnThread, h, if_true, if_pos hw]; rfl
    · simp only [cvtnThread, h, if_true, if_neg hw]; rfl

theorem landsAs_cvtn (s : State) (c : Ctx) : LandsAs c.br (c.ts.flatMap (fun t => (cvtnThread s c d a b rm t1 t2 hi t).1))
    ((cvtnSpec d a b rm t1 t2 hi st).regs s c) := by
  have he : (if hi then 1 else 0) < 2 := by cases hi <;> decide
  simp only [cvtnThread_writes, cvtnSpec]
  generalize (if (t2 == .f64) = true then 2 else 4) = n
  by_cases hw : n * t1.width = 64
  · simp only [if_pos hw]
    exact landsAs_laneWrites32 c d
      (fun t e => BitVec.ofNat 32 ((List.range n).foldl (fun acc k => acc + (cvtnElem s c a b rm t1 t2 t k).1 * 2 ^ (k * t1.width)) 0 / 2 ^ (32 * e)))
      (fun t e => (List.range (n / 2)).any (fun k => (cvtnElem s c a b rm t1 t2 t (k + n / 2 * e)).2.2))
  · simp only [if_neg hw]
    exact landsAs_chosen c d he _

theorem flags_cvtn (s : State) (c : Ctx) (t : Nat) : (cvtnThread s c d a b rm t1 t2 hi t).2 = (cvtnSpec d a b rm t1 t2 hi st).flags s c t := by
  simp only [cvtnThread, cvtnSpec, apply_ite Prod.snd, ite_self, List.foldl_map]

theorem meets_cvtn : MeetsConv (.cvtn d a b rm t1 t2 hi st) (cvtnSpec d a b rm t1 t2 hi st) := by
  refine meetsConv_of_push (body := fun s' c => fpThreads s' c (laneForm true st [a, b] d) 6 (cvtnThread s' c d a b rm t1 t2 hi))
    (fun s c => c.ts.flatMap (fun t => (cvtnThread s c d a b rm t1 t2 hi t).1))
    (fun s c t => mainOf (cvtnThread s c d a b rm t1 t2 hi t).1) none (fun _ => rfl) (fun _ _ => rfl) (fun s c hx => ?_)
    (landsAs_cvtn d a b rm t1 t2 hi st)
  rw [← show (fun t => (cvtnThread s c d a b rm t1 t2 hi t).2) = (cvtnSpec d a b rm t1 t2 hi st).flags s c from
    funext (flags_cvtn d a b rm t1 t2 hi st s c)]
  rfl
end
end Sys2Proof.Machine

namespace Sys2Proof.Machine

section
variable (d a sb : Reg) (rm : Rm) (t1 t2 : Ty) (given : Bool) (gap : BitVec 4) (st : BitVec 3)

/-- The element of half e, or of the whole register, of a thread of PACKHB. -/
def packEl (s : State) (c : Ctx) (t e : Nat) : Nat × Flags :=
  packElem t1 ((packPairs c a sb t1 t2 given gap.toNat).getD (packBlock t1 t2 t e) 0) given (convRnd s c rm (2 * t + e) false)
    (packVal c a t2 t e)

/-- What PACKHB writes: its elements, and the pairs that it computed. -/
def packWrites (s : State) (c : Ctx) : List RegWrite :=
  c.ts.flatMap (fun t => (packThread s c d a rm t1 t2 given (packPairs c a sb t1 t2 given gap.toNat) t).1) ++
    (if given then [] else [c.putU sb (BitVec.ofNat 64 ((List.range (packBlocks t1 t2)).foldl
        (fun acc j => acc + (packPairs c a sb t1 t2 given gap.toNat).getD j 0 * 2 ^ (16 * j)) 0))
      (c.ts.any (fun t => if t2 == .f64 then c.wG a t else (c.hG a t 0 || c.hG a t 1)))])


theorem landsAs_pack (s : State) (c : Ctx) :
    LandsAs c.br (packWrites d a sb rm t1 t2 given gap s c) ((packhbSpec d a sb rm t1 t2 given gap st).regs s c) := by
  have hl : LandsAs c.br (c.ts.flatMap (fun t => (packThread s c d a rm t1 t2 given (packPairs c a sb t1 t2 given gap.toNat) t).1))
      (if t2 == .f64 then (regsOf c.br).put64 c d (fun t => BitVec.ofNat 64 (packEl a sb rm t1 t2 given gap s c t 0).1) (fun _ => true)
        else (regsOf c.br).put32 c d (fun t e => BitVec.ofNat 32 (packEl a sb rm t1 t2 given gap s c t e).1) (fun _ _ => true)) := by
    cases h : t2 == .f64
    · simp only [packThread, h, Bool.false_eq_true, if_false]
      exact landsAs_laneWrites32 c d (fun t e => BitVec.ofNat 32 (packEl a sb rm t1 t2 given gap s c t e).1) (fun _ _ => true)
    · simp only [packThread, h, if_true]
      exact landsAs_laneWrites64 c d (fun t => BitVec.ofNat 64 (packEl a sb rm t1 t2 given gap s c t 0).1) (fun _ => true)
  cases given
  · exact landsAs_append_uni hl sb _ _
  · rw [packWrites, if_pos rfl, List.append_nil]
    exact hl

theorem meets_packhb : MeetsConv (.packhb d a sb rm t1 t2 given gap st) (packhbSpec d a sb rm t1 t2 given gap st) := by
  refine meetsConv_of_push (body := fun s' c =>
      if given && (packPairs c a sb t1 t2 given gap.toNat).any (zeroPointBad t1) then .trap s' (trapOf c 0x142#9)
      else .done (pushFp s' c (packhbSpec d a sb rm t1 t2 given gap st).form 12
        (c.ts.flatMap (fun t => (packThread s' c d a rm t1 t2 given (packPairs c a sb t1 t2 given gap.toNat) t).1) ++
          (if given then [] else [c.putU sb (BitVec.ofNat 64 ((List.range (packPairs c a sb t1 t2 given gap.toNat).length).foldl
            (fun acc j => acc + (packPairs c a sb t1 t2 given gap.toNat).getD j 0 * 2 ^ (16 * j)) 0))
            (c.ts.any (fun t => if t2 == .f64 then c.wG a t else (c.hG a t 0 || c.hG a t 1)))]))
        (flagList c.ts (fun t => (packThread s' c d a rm t1 t2 given (packPairs c a sb t1 t2 given gap.toNat) t).2))
        (fun t => mainOf (packThread s' c d a rm t1 t2 given (packPairs c a sb t1 t2 given gap.toNat) t).1)))
    (packWrites d a sb rm t1 t2 given gap)
    (fun s c t => mainOf (packThread s c d a rm t1 t2 given (packPairs c a sb t1 t2 given gap.toNat) t).1) none (fun _ => rfl) (fun _ _ => rfl)
    (fun s c hx => ?_) (landsAs_pack d a sb rm t1 t2 given gap st)
  have hok : (given && (packPairs c a sb t1 t2 given gap.toNat).any (zeroPointBad t1)) = false := by
    have h : (!given || (packPairs c a sb t1 t2 given gap.toNat).all (fun p => !zeroPointBad t1 p)) = true := hx
    rw [← List.not_any_eq_all_not, ← Bool.not_and] at h
    rwa [Bool.not_eq_true'] at h
  have hlen : (packPairs c a sb t1 t2 given gap.toNat).length = packBlocks t1 t2 := by simp [packPairs]
  have hfl : (fun t => (packThread s c d a rm t1 t2 given (packPairs c a sb t1 t2 given gap.toNat) t).2) =
      (packhbSpec d a sb rm t1 t2 given gap st).flags s c := by
    funext t
    cases h : t2 == .f64
    · simp only [packThread, packhbSpec, h, Bool.false_eq_true, if_false]; rfl
    · simp only [packThread, packhbSpec, h, if_true]; rfl
  simp only [hok, hlen, hfl, Bool.false_eq_true, if_false]
  rfl
end

theorem completes_conv : CompletesConv Conv := by
  rw [completesConv_iff]
  intro i x h
  cases h with
  | cvt d a v rm t1 t2 hi st => exact meets_cvt d a v rm t1 t2 hi st
  | cvtn d a b rm t1 t2 hi st => exact meets_cvtn d a b rm t1 t2 hi st
  | packhb d a sb rm t1 t2 given gap st => exact meets_packhb d a sb rm t1 t2 given gap st
end Sys2Proof.Machine

namespace Sys2Proof.Machine

/-! ### A converted element is the exact value, rounded once (R81, R84, R85) -/

/-- k with a sign. -/
def signed (n : Bool) (k : Nat) : Int := if n then -(k : Int) else k

theorem natAbs_signed (n : Bool) (k : Nat) : (signed n k).natAbs = k := by cases n <;> simp [signed]

/-- A finite value counted in steps of 2^q is rounded to the integer that the mode picks; and whether that differs. -/
theorem roundAt_picks {rd : Rounding} (hr : ∀ r, rd = .stoch r → r < 65536) (n : Bool) (m : Nat) (e q : Int) :
    ∃ k b, roundAt rd n m e false q = (k, b) ∧ roundsInt rd ((FVal.fin n m e).num * (2 : ℝ) ^ (-q)) (signed n k) ∧
      b = decide (((signed n k : Int) : ℝ) ≠ (FVal.fin n m e).num * (2 : ℝ) ^ (-q)) := by
  have ha : 0 ≤ (m : ℝ) * (2 : ℝ) ^ e / (2 : ℝ) ^ q := by positivity
  have hnum : (FVal.fin n m e).num * (2 : ℝ) ^ (-q) =
      if n then -((m : ℝ) * (2 : ℝ) ^ e / (2 : ℝ) ^ q) else (m : ℝ) * (2 : ℝ) ^ e / (2 : ℝ) ^ q := by
    rw [FVal.num_fin, zpow_neg]
    cases n
    · rfl
    · simp only [if_true]; ring
  refine ⟨(stepsOf rd n ((m : ℝ) * (2 : ℝ) ^ e / (2 : ℝ) ^ q)).1, (stepsOf rd n ((m : ℝ) * (2 : ℝ) ^ e / (2 : ℝ) ^ q)).2,
    roundAt_eq (show Magnitude m e false _ from rfl) (fun h => by cases h), ?_, ?_⟩
  · rw [hnum]; exact roundsInt_stepsOf hr n ha
  · rw [hnum]
    refine (stepsOf_inexact rd n ha).trans ?_
    refine decide_eq_decide.2 (not_congr ?_)
    cases n <;> simp [signed]

/-! ### Integers -/

theorem toBits_eq (w : Nat) (v : Int) : toBits w v = (v % 2 ^ w).toNat := by simp [toBits]

/-- The flags of an exact or an inexact integer. -/
theorem inexact_flags {b : Bool} {P : Prop} [Decidable P] (h : b = decide (¬P)) :
    (if b = true then flagInexact else flagNone) = if P then flagNone else flagInexact := by
  subst h
  simp only [decide_eq_true_eq, ite_not]

/-- An integer as an integer type takes it: itself with the flags fl, or the limit beyond which it lies (R84). -/
def clipInt (w : Nat) (lo hi k : Int) (fl : Flags) : Nat × Flags :=
  ((max lo (min hi k) % 2 ^ w).toNat, if lo ≤ k ∧ k ≤ hi then fl else flagInvalid)

section
variable {w : Nat} {lo hi k : Int} {fl : Flags} (h : lo ≤ hi)
include h

theorem clipInt_low (hk : k < lo) : clipInt w lo hi k fl = (toBits w lo, flagInvalid) := by
  rw [clipInt, min_eq_right (hk.le.trans h), max_eq_left hk.le, if_neg (fun hc => absurd hc.1 (not_le.2 hk)), toBits_eq]

theorem clipInt_high (hk : hi < k) : clipInt w lo hi k fl = (toBits w hi, flagInvalid) := by
  rw [clipInt, min_eq_left hk.le, max_eq_right h, if_neg (fun hc => absurd hc.2 (not_le.2 hk)), toBits_eq]

omit h in
theorem clipInt_within (hk : lo ≤ k) (hk' : k ≤ hi) : clipInt w lo hi k fl = (toBits w k, fl) := by
  rw [clipInt, min_eq_right hk', max_eq_right hk, if_pos ⟨hk, hk'⟩, toBits_eq]

end

/-- A number of 2^81 or more is out of the range of every integer type. -/
theorem stepsOf_far (rd : Rounding) (n : Bool) {m : Nat} {e : Int} (hm : m ≠ 0) (he : 80 < e) :
    2 ^ 64 ≤ (roundAt rd n m e false 0).1 := by
  have h1 : (2 : ℝ) ^ (64 : Nat) ≤ (2 : ℝ) ^ e := by
    rw [← zpow_natCast]
    exact zpow_le_zpow_right₀ one_le_two (by omega)
  have h2 : (1 : ℝ) ≤ m := by exact_mod_cast Nat.one_le_iff_ne_zero.2 hm
  rw [roundAt_eq (show Magnitude m e false _ from rfl) (fun h => by cases h), zpow_zero, div_one]
  refine le_trans (Nat.le_floor ?_) (Nat.le_add_right _ _)
  push_cast
  nlinarith

open Classical in
theorem cvtInt_fin {ty : Ty} {lo hi : Int} (hty : intRange ty = (lo, hi)) (hlo : -2 ^ 63 ≤ lo) (hle : lo ≤ hi) (hhi : hi < 2 ^ 64)
    {rd : Rounding} (hr : ∀ r, rd = .stoch r → r < 65536) (n : Bool) (m : Nat) (e : Int) :
    ∃ k, roundsInt rd (FVal.fin n m e).num k ∧ cvtInt ty rd (.fin n m e) =
      clipInt ty.width lo hi k (if (k : ℝ) = (FVal.fin n m e).num then flagNone else flagInexact) := by
  obtain ⟨k, b, hround, hk, hb⟩ := roundAt_picks hr n m e 0
  rw [neg_zero, zpow_zero, mul_one] at hk hb
  refine ⟨signed n k, hk, ?_⟩
  rw [← inexact_flags hb]
  by_cases hfar : 0 ≤ e ∧ m ≠ 0 ∧ 80 < e
  · obtain ⟨h0, hm, he⟩ := hfar
    have hbig := stepsOf_far rd n hm he
    rw [hround] at hbig
    have hc : cvtInt ty rd (.fin n m e) = (toBits ty.width (if n then lo else hi), flagInvalid) := by
      simp only [cvtInt, hty]
      exact if_pos (by simp [h0, hm, he])
    rw [hc]
    cases n
    · exact (clipInt_high hle (by simp only [signed, Bool.false_eq_true, if_false]; omega)).symm
    · exact (clipInt_low hle (by simp only [signed, if_true]; omega)).symm
  · have hc : cvtInt ty rd (.fin n m e) = if signed n k < lo then (toBits ty.width lo, flagInvalid)
        else if signed n k > hi then (toBits ty.width hi, flagInvalid)
        else (toBits ty.width (signed n k), if b then flagInexact else flagNone) := by
      simp only [cvtInt, hty, hround]
      exact if_neg (by simpa using hfar)
    rw [hc]
    split
    next h => exact (clipInt_low hle h).symm
    next h =>
      split
      next h' => exact (clipInt_high hle h').symm
      next h' => exact (clipInt_within (not_lt.1 h) (not_lt.1 h')).symm

/-! ### Blocks -/

/-- The comparison of magnitudes is exact. -/
theorem magLe_iff (m : Nat) (e : Int) (c : Nat) (e' : Int) : magLe m e c e' = true ↔ (m : ℝ) * (2 : ℝ) ^ e ≤ (c : ℝ) * (2 : ℝ) ^ e' := by
  have hp : (0 : ℝ) < (2 : ℝ) ^ min e e' := by positivity
  have h1 := scaledInt_cast false m (min_le_left e e')
  have h2 := scaledInt_cast false c (min_le_right e e')
  rw [FVal.num_fin, if_neg (by decide)] at h1 h2
  rw [← h1, ← h2, mul_le_mul_iff_left₀ hp, Int.cast_le]
  simp only [magLe, scaledInt, decide_eq_true_eq, Bool.false_eq_true, if_false, Int.ofNat_le]

theorem abs_num (n : Bool) (m : Nat) (e : Int) : |(FVal.fin n m e).num| = (m : ℝ) * (2 : ℝ) ^ e := by
  have : 0 ≤ (m : ℝ) * (2 : ℝ) ^ e := by positivity
  rw [FVal.num_fin]
  cases n <;> simp

open Classical in
/-- An HB code with the given scales: the finer one where it is one and holds the value, else the coarser one (R85). -/
theorem hbEncode_spec {ty : Ty} {mw : Nat} (hty : (ty = .hb8 ∧ mw = 6) ∨ (ty = .hb4 ∧ mw = 2)) {rd : Rounding}
    (hr : ∀ r, rd = .stoch r → r < 65536) (x0 x1 : Nat) (n : Bool) (m : Nat) (e : Int) :
    let v := (FVal.fin n m e).num
    let top : Nat := 2 ^ mw - 1
    let x : Nat := if min x0 x1 ≠ 255 ∧ |v| ≤ top * (2 : ℝ) ^ ((min x0 x1 : Int) - 127) then min x0 x1 else max x0 x1
    let sel : Nat := if x = x0 then 0 else 2 ^ (mw + 1)
    let r := hbEncode ty x0 x1 rd n m e
    (x = 255 → r = (sel, flagNone)) ∧
    (x ≠ 255 → ∃ k, roundsInt rd (v * (2 : ℝ) ^ (127 - (x : Int))) k ∧
      r.1 = sel + (if n then 2 ^ mw else 0) + min top k.natAbs ∧
      r.2 = if k.natAbs ≤ top then (if (k : ℝ) = v * (2 : ℝ) ^ (127 - (x : Int)) then flagNone else flagInexact)
        else flagOverflow ||| flagInexact) := by
  intro v top x sel r
  have hmw : (if ty == .hb8 then 6 else 2) = mw := by rcases hty with ⟨rfl, rfl⟩ | ⟨rfl, rfl⟩ <;> rfl
  have hmax : hbMax ty = top := by rcases hty with ⟨rfl, rfl⟩ | ⟨rfl, rfl⟩ <;> rfl
  have huse : (min x0 x1 != 255 && magLe m e (hbMax ty) (((min x0 x1 : Nat) : Int) - 127)) = true ↔
      min x0 x1 ≠ 255 ∧ |v| ≤ top * (2 : ℝ) ^ ((min x0 x1 : Int) - 127) := by
    rw [Bool.and_eq_true, bne_iff_ne, magLe_iff, hmax, abs_num, Nat.cast_min]
  have hx : (if (min x0 x1 != 255 && magLe m e (hbMax ty) (((min x0 x1 : Nat) : Int) - 127)) = true then min x0 x1 else max x0 x1) = x := by
    simp only [huse, x]
  rw [hmax] at hx
  have hsel : (if (x == x0) = true then 0 else 1) * 2 ^ (mw + 1) = sel := by
    simp only [beq_iff_eq, sel]
    split <;> simp
  obtain ⟨k, b, hround, hk, hb⟩ := roundAt_picks hr n m e ((x : Int) - 127)
  rw [neg_sub] at hk hb
  have hr' : r = if (x == 255) = true then (sel, flagNone)
      else if k > top then (sel + (if n then 2 ^ mw else 0) + top, flagOverflow ||| flagInexact)
      else (sel + (if n then 2 ^ mw else 0) + k, if b then flagInexact else flagNone) := by
    simp only [r, hbEncode, hmw, hx, hsel, hround, hmax]
  refine ⟨fun h => by rw [hr', if_pos (beq_iff_eq.2 h)], fun h => ⟨signed n k, hk, ?_⟩⟩
  rw [hr', if_neg (by simpa using h), natAbs_signed, ← inexact_flags hb]
  split
  next h => exact ⟨by rw [min_eq_left (le_of_lt h)], by rw [if_neg (not_le.2 h)]⟩
  next h => exact ⟨by rw [min_eq_right (not_lt.1 h)], by rw [if_pos (not_lt.1 h)]⟩

/-- A Q code with the given scale and zero point (R85). -/
theorem qEncode_spec (ty : Ty) {rd : Rounding} (hr : ∀ r, rd = .stoch r → r < 65536) (x z : Nat) (n : Bool) (m : Nat) (e : Int) :
    ∃ k, roundsInt rd ((FVal.fin n m e).num * (2 : ℝ) ^ (127 - (x : Int))) k ∧
      qEncode ty x z rd n m e = ((max 0 (min (2 ^ ty.width - 1) ((z : Int) + k))).toNat,
        if 0 ≤ (z : Int) + k ∧ (z : Int) + k ≤ 2 ^ ty.width - 1 then
          (if (k : ℝ) = (FVal.fin n m e).num * (2 : ℝ) ^ (127 - (x : Int)) then flagNone else flagInexact)
        else flagOverflow ||| flagInexact) := by
  obtain ⟨k, b, hround, hk, hb⟩ := roundAt_picks hr n m e ((x : Int) - 127)
  rw [neg_sub] at hk hb
  have htop : (((2 ^ ty.width - 1 : Nat)) : Int) = 2 ^ ty.width - 1 := by
    rw [Nat.cast_sub Nat.one_le_two_pow]; simp
  have hpos : (1 : Int) ≤ 2 ^ ty.width := by exact_mod_cast Nat.one_le_two_pow
  refine ⟨signed n k, hk, ?_⟩
  rw [← inexact_flags hb]
  have hc : qEncode ty x z rd n m e = if (z : Int) + signed n k < 0 then (0, flagOverflow ||| flagInexact)
      else if (z : Int) + signed n k > 2 ^ ty.width - 1 then (2 ^ ty.width - 1, flagOverflow ||| flagInexact)
      else (((z : Int) + signed n k).toNat, if b then flagInexact else flagNone) := by
    simp only [qEncode, hround, htop]
    rfl
  rw [hc]
  generalize (z : Int) + signed n k = c
  split
  next h => rw [if_neg (by omega), min_eq_right (by omega), max_eq_left (by omega)]; rfl
  next h =>
    split
    next h' => rw [if_neg (by omega), min_eq_left (by omega), max_eq_right (by omega), ← htop]; rfl
    next h' => rw [if_pos (show 0 ≤ c ∧ c ≤ 2 ^ ty.width - 1 from ⟨not_lt.1 h, not_lt.1 h'⟩), min_eq_right (by omega), max_eq_right (by omega)]

end Sys2Proof.Machine

namespace Sys2Proof.Machine

/-- Settles O16: the forms deliver their elements on the state after the draw, and each element is the one rounding of the exact value. -/
theorem conversionResults : Obligations.ConversionResults := by
  unfold Obligations.ConversionResults
  refine ⟨completes_conv, fun rd n m e hr => ⟨fun ty f hf => ?_, fun ty lo hi hty => ?_, fun ty mw given pair hty hnan => ?_,
    fun ty given pair hty hnan => ?_⟩⟩
  · have hc : cvtElem ty rd (.fin n m e) = fRound f rd n m e := by simp only [cvtElem, hf, cvtFloat]
    obtain ⟨h, hs⟩ := Fmt.rounded_fin (Fmt.sound_of_fmtOf hf) hr n m e
    rw [hc]
    exact ⟨h, fun _ => hs⟩
  · have hf : fmtOf ty = none := by rcases hty with ⟨rfl, -⟩ | ⟨rfl, -⟩ | ⟨rfl, -⟩ | ⟨rfl, -⟩ <;> rfl
    have hrange : intRange ty = (lo, hi) := by rcases hty with ⟨rfl, rfl, rfl⟩ | ⟨rfl, rfl, rfl⟩ | ⟨rfl, rfl, rfl⟩ | ⟨rfl, rfl, rfl⟩ <;> rfl
    have hc : cvtElem ty rd (.fin n m e) = cvtInt ty rd (.fin n m e) := by simp only [cvtElem, hf]
    rw [hc]
    exact cvtInt_fin hrange (by omega) (by omega) (by omega) hr n m e
  · have hp : packElem ty pair given rd (.fin n m e) = hbEncode ty (pair % 256) (pair / 256 % 256) rd n m e := by
      have hn : (pair % 256 == 255 && pair / 256 % 256 == 255) = false := by
        rw [Bool.and_eq_false_iff, beq_eq_false_iff_ne, beq_eq_false_iff_ne]
        omega
      rcases hty with ⟨rfl, -⟩ | ⟨rfl, -⟩ <;> simp [packElem, hn]
    simp only [hp]
    exact hbEncode_spec hty hr (pair % 256) (pair / 256 % 256) n m e
  · have hp : packElem ty pair given rd (.fin n m e) = qEncode ty (pair % 256) (pair / 256 % 256) rd n m e := by
      rcases hty with rfl | rfl | rfl <;> simp [packElem, hnan]
    simp only [hp]
    exact qEncode_spec ty hr (pair % 256) (pair / 256 % 256) n m e

end Sys2Proof.Machine


/-!
O40. With a span of 64 bits every rounding of R91's placement is of a whole number of grid steps, so an entry's new value is the exact
sum; what the table of entries holds afterwards is `placeInto` of what it held (`tabGetD_mapEntries`).
-/
namespace Sys2Proof.Machine

/-! ### Rebuilding the entries of a bank -/

/-- A table with keys from i on alone has no entry below i. -/
theorem tabGet?_of_lt {α : Type} {t : Tab α} {i j : Nat} (h : ∀ p ∈ t, i ≤ p.1) (hj : j < i) : tabGet? t j = none := by
  induction t with
  | nil => rfl
  | cons p t ih =>
    obtain ⟨k, v⟩ := p
    have hk : i ≤ k := h _ List.mem_cons_self
    rw [tabGet?_cons, if_neg (by omega)]
    exact ih fun q hq => h q (List.mem_cons_of_mem _ hq)

/-- The entry of key i and those after it, of a table with keys from i on. -/
def headEntry (i : Nat) : Tab AccEntry → AccEntry × Tab AccEntry
  | [] => (AccEntry.zero, [])
  | (k, x) :: l => if k = i then (x, l) else (AccEntry.zero, (k, x) :: l)

theorem mapEntries_succ (f : Nat → AccEntry → AccEntry) (n i : Nat) (t : Tab AccEntry) : mapEntries f (n + 1) i t =
    if f i (headEntry i t).1 = AccEntry.zero then mapEntries f n (i + 1) (headEntry i t).2
    else (i, f i (headEntry i t).1) :: mapEntries f n (i + 1) (headEntry i t).2 := by
  cases t <;> rfl

theorem headEntry_spec {i : Nat} {t : Tab AccEntry} (hs : tabSorted t = true) (hi : ∀ p ∈ t, i ≤ p.1) :
    (headEntry i t).1 = tabGetD t i AccEntry.zero ∧ tabSorted (headEntry i t).2 = true ∧ (∀ p ∈ (headEntry i t).2, i + 1 ≤ p.1) ∧
      ∀ j, i < j → tabGetD (headEntry i t).2 j AccEntry.zero = tabGetD t j AccEntry.zero := by
  cases t with
  | nil => exact ⟨rfl, rfl, by simp [headEntry], fun _ _ => rfl⟩
  | cons p l =>
    obtain ⟨k, x⟩ := p
    obtain ⟨hk, hl⟩ := (tabSorted_cons k x l).1 hs
    have hik : i ≤ k := hi _ List.mem_cons_self
    by_cases h : k = i
    · subst h
      rw [headEntry, if_pos rfl]
      exact ⟨by simp [tabGetD, tabGet?_cons], hl, hk, fun j hj => by simp only [tabGetD, tabGet?_cons, if_neg hj.ne']⟩
    · rw [headEntry, if_neg h]
      have hlow : ∀ p ∈ (k, x) :: l, i + 1 ≤ p.1 := fun p hp => by
        rcases List.mem_cons.1 hp with rfl | hp
        · exact Nat.lt_of_le_of_ne hik (Ne.symm h)
        · have := hk p hp
          omega
      exact ⟨by rw [tabGetD, tabGet?_of_lt hlow (Nat.lt_succ_self i)]; rfl, hs, hlow, fun _ _ => rfl⟩

theorem mapEntries_keys (f : Nat → AccEntry → AccEntry) : ∀ n i t, ∀ p ∈ mapEntries f n i t, i ≤ p.1
  | 0, _, _, _, hp => by cases hp
  | n + 1, i, t, p, hp => by
    have ih := mapEntries_keys f n (i + 1) (headEntry i t).2 p
    rw [mapEntries_succ] at hp
    split at hp
    · exact (Nat.le_succ i).trans (ih hp)
    · rcases List.mem_cons.1 hp with rfl | hp
      · exact le_rfl
      · exact (Nat.le_succ i).trans (ih hp)

/-- The entry of each key is rebuilt from that key's entry. -/
theorem tabGetD_mapEntries (f : Nat → AccEntry → AccEntry) : ∀ n i (t : Tab AccEntry), tabSorted t = true → (∀ p ∈ t, i ≤ p.1) →
    ∀ k, i ≤ k → k < i + n → tabGetD (mapEntries f n i t) k AccEntry.zero = f k (tabGetD t k AccEntry.zero)
  | 0, i, t, _, _, k, hk, hk' => by omega
  | n + 1, i, t, hs, hi, k, hk, hk' => by
    obtain ⟨hx, hrest, hlow, hget⟩ := headEntry_spec hs hi
    have ih := tabGetD_mapEntries f n (i + 1) _ hrest hlow k
    rw [mapEntries_succ]
    rcases hk.eq_or_lt with rfl | hik
    · have hnone : tabGet? (mapEntries f n (i + 1) (headEntry i t).2) i = none :=
        tabGet?_of_lt (mapEntries_keys f n (i + 1) _) (Nat.lt_succ_self i)
      split
      next h => rw [tabGetD, hnone, ← hx, h]; rfl
      next h => rw [← hx]; simp [tabGetD, tabGet?_cons]
    · rw [hget k hik] at ih
      split
      · exact ih hik (by omega)
      · rw [tabGetD, tabGet?_cons, if_neg hik.ne']
        exact ih hik (by omega)

/-! ### The span of some products -/

theorem spanOf_bounds {w : Nat} : ∀ {l : List Term} {a b : Int}, spanOf w l = some (a, b) → a ≤ b ∧ ∀ t ∈ l, a ≤ t.q
  | [], _, _, h => by cases h
  | t :: l, a, b, h => by
    rw [spanOf] at h
    split at h
    next hn =>
      cases h
      refine ⟨by omega, fun u hu => ?_⟩
      rcases List.mem_cons.1 hu with rfl | hu
      · exact le_rfl
      · cases l with
        | nil => cases hu
        | cons v l => rw [spanOf] at hn; split at hn <;> cases hn
    next a' b' hs =>
      cases h
      obtain ⟨hab, hl⟩ := spanOf_bounds hs
      refine ⟨by omega, fun u hu => ?_⟩
      rcases List.mem_cons.1 hu with rfl | hu
      · exact min_le_right _ _
      · exact (min_le_left _ _).trans (hl u hu)

/-! ### A rounding that changes nothing -/

theorem rneTo_exact {m k : Int} {e q : Int} (h : (m : ℝ) * (2 : ℝ) ^ e = k * (2 : ℝ) ^ q) : rneTo m e q = (k, false) := by
  have hp : (0 : ℝ) < (2 : ℝ) ^ e := by positivity
  have hq : (0 : ℝ) < (2 : ℝ) ^ q := by positivity
  have habs : ((m.natAbs : Nat) : ℝ) * (2 : ℝ) ^ e / (2 : ℝ) ^ q = (k.natAbs : Nat) := by
    rw [div_eq_iff hq.ne', Nat.cast_natAbs, Nat.cast_natAbs, Int.cast_abs, Int.cast_abs,
      show |(m : ℝ)| * (2 : ℝ) ^ e = |(m : ℝ) * (2 : ℝ) ^ e| by rw [abs_mul, abs_of_pos hp], h, abs_mul, abs_of_pos hq]
  have hsign : m < 0 ↔ k < 0 := by
    rw [← Int.cast_lt_zero (R := ℝ), ← Int.cast_lt_zero (R := ℝ), ← mul_lt_mul_iff_left₀ hp, h, zero_mul, ← zero_mul ((2 : ℝ) ^ q),
      mul_lt_mul_iff_left₀ hq, zero_mul]
  rw [rneTo, roundAt_eq (show Magnitude m.natAbs e false _ from rfl) (fun h => by cases h), habs, stepsOf_natCast]
  simp only [hsign]
  split <;> simp only [Prod.mk.injEq, and_true] <;> omega

/-- Onto a finer grid. -/
theorem rneTo_of_le (m : Int) {e q : Int} (h : q ≤ e) : rneTo m e q = (m * 2 ^ (e - q).toNat, false) := by
  refine rneTo_exact ?_
  push_cast
  rw [mul_assoc, ← zpow_natCast, ← zpow_add₀ two_ne_zero, Int.toNat_of_nonneg (by omega), Int.sub_add_cancel]

/-- A whole number of coarser steps. -/
theorem rneTo_mul_two_pow (k : Int) {q : Int} (h : 0 ≤ q) : rneTo (k * 2 ^ q.toNat) 0 q = (k, false) := by
  refine rneTo_exact ?_
  push_cast
  rw [zpow_zero, mul_one, ← zpow_natCast, Int.toNat_of_nonneg h]

theorem rneTo_zero (e q : Int) : rneTo 0 e q = (0, false) := rneTo_exact (by simp)

/-! ### Sums -/

theorem foldl_add_mul (l : List Int) (a c : Int) : l.foldl (· + ·) a * c = (l.map (· * c)).foldl (· + ·) (a * c) := by
  induction l generalizing a with
  | nil => rfl
  | cons x l ih => simp only [List.foldl_cons, List.map_cons, ih, add_mul]

/-- A sum of products in finer units. -/
theorem foldl_terms_mul {ts : List Term} {grid : Int} (ht : ∀ t ∈ ts, grid ≤ t.q) (a : Int) (n : Nat) :
    (ts.map (fun t => t.m * 2 ^ (t.q - grid).toNat)).foldl (· + ·) a * 2 ^ n =
      (ts.map (fun t => t.m * 2 ^ (t.q - grid + n).toNat)).foldl (· + ·) (a * 2 ^ n) := by
  rw [foldl_add_mul, List.map_map]
  refine congrArg (List.foldl (· + ·) _) (List.map_congr_left fun t h => ?_)
  rw [Function.comp_apply, mul_assoc, ← pow_add, show (t.q - grid + n).toNat = (t.q - grid).toNat + n by have := ht t h; omega]

theorem dvd_foldl_add {l : List Int} {a d : Int} (ha : d ∣ a) (hl : ∀ x ∈ l, d ∣ x) : d ∣ l.foldl (· + ·) a := by
  induction l generalizing a with
  | nil => exact ha
  | cons x l ih => exact ih (dvd_add ha (hl x List.mem_cons_self)) fun y hy => hl y (List.mem_cons_of_mem _ hy)

/-- An entry takes its products exactly where each is a number of grid steps and the sum stays within the limit. -/
theorem placeInto_exact {shift grid : Int} {x : AccEntry} {ts : List Term} {f0 f : Int} (hx : rneTo x.f 0 shift = (f0, false))
    (ht : ∀ t ∈ ts, grid ≤ t.q) (hf : f = (ts.map (fun t => t.m * 2 ^ (t.q - grid).toNat)).foldl (· + ·) f0)
    (hlim : f.natAbs ≤ accLimit.natAbs) : placeInto shift grid x ts = { x with f := f } := by
  have hmap : ts.map (fun t => rneTo t.m t.q grid) = ts.map (fun t => (t.m * 2 ^ (t.q - grid).toNat, false)) :=
    List.map_congr_left fun t h => rneTo_of_le t.m (ht t h)
  have hsum : (ts.map (fun t => (t.m * 2 ^ (t.q - grid).toNat, false))).foldl (fun a p => a + p.1) f0 = f := by
    rw [hf, List.foldl_map, List.foldl_map]
  have hany : (ts.map (fun t => (t.m * 2 ^ (t.q - grid).toNat, false))).any (·.2) = false := by simp
  have hsat : decide (f.natAbs > accLimit.natAbs) = false := decide_eq_false (not_lt.2 hlim)
  simp only [placeInto, hx, hmap, hsum, hany, hsat, Bool.or_false, Bool.false_eq_true, if_false]

/-- Where the span stays within 64 bits an old entry is a whole number of steps of the new anchor's grid, and of the least step. -/
theorem exists_shifted {bk : Bank} {x ql qt : Int} (hq : ql ≤ qt)
    (hanch : bk.anchored = true → bk.A = bk.tb ∧ bk.lb ≤ bk.tb ∧ (2 : Int) ^ (bk.lb - (bk.tb - 64)).toNat ∣ x)
    (hfresh : bk.anchored = false → x = 0) :
    let lb := if bk.anchored then min bk.lb ql else ql
    let tb := if bk.anchored then max bk.tb qt else qt
    tb - lb ≤ 64 → ∃ f0, rneTo x 0 (tb - bk.A) = (f0, false) ∧
      f0 * 2 ^ (tb - lb).toNat = (if bk.anchored then x * 2 ^ (bk.A - lb).toNat else 0) ∧ (2 : Int) ^ (lb - (tb - 64)).toNat ∣ f0 := by
  intro lb tb hwide
  cases h : bk.anchored
  · rw [hfresh h]
    exact ⟨0, rneTo_zero _ _, by simp, dvd_zero _⟩
  · obtain ⟨hA, hle, c, hc⟩ := hanch h
    have hlb : lb = min bk.lb ql := if_pos h
    have htb : tb = max bk.tb qt := if_pos h
    have hx : x = c * 2 ^ ((bk.lb - (tb - 64)).toNat) * 2 ^ (tb - bk.A).toNat := by
      rw [hc, mul_assoc, ← pow_add, mul_comm]
      congr 2
      omega
    refine ⟨c * 2 ^ ((bk.lb - (tb - 64)).toNat), by rw [hx]; exact rneTo_mul_two_pow _ (by omega), ?_,
      Dvd.dvd.mul_left (pow_dvd_pow 2 (by omega)) _⟩
    rw [if_pos rfl, hx, mul_assoc _ _ (2 ^ (bk.A - lb).toNat), ← pow_add]
    congr 2
    omega

/-- What a placement without a rounding of the span leaves. -/
theorem placeProducts_eq {bk : Bank} {w : Nat} {ts : Nat → List Term} {ql qt : Int}
    (hspan : spanOf w ((List.range 8192).flatMap ts) = some (ql, qt)) :
    let lb := if bk.anchored then min bk.lb ql else ql
    let tb := if bk.anchored then max bk.tb qt else qt
    tb - lb ≤ 64 → (placeProducts bk w ts).A = tb ∧ (placeProducts bk w ts).lb = lb ∧ (placeProducts bk w ts).tb = tb ∧
      (placeProducts bk w ts).e = (bk.mapE (fun k x => placeInto (tb - bk.A) (tb - 64) x (ts k))).e := by
  intro lb tb hwide
  have hnot : ¬ decide (tb - lb > 64) = true := by rw [decide_eq_true_eq]; omega
  unfold placeProducts
  rw [hspan]
  dsimp only
  exact ⟨rfl, if_neg hnot, rfl, rfl⟩

/-- The entry of a place after a change of every entry. -/
theorem Bank.tabGetD_mapE {bk : Bank} (f : Nat → AccEntry → AccEntry) (hs : tabSorted bk.e = true) {k : Nat} (hk : k < 8192) :
    tabGetD (bk.mapE f).e k AccEntry.zero = f k (tabGetD bk.e k AccEntry.zero) :=
  tabGetD_mapEntries f 8192 0 bk.e hs (fun _ _ => Nat.zero_le _) k (Nat.zero_le _) (by omega)

/-- Settles O40: the grid is at or below every product and every entry's least step, so `placeInto` rounds nothing. -/
theorem accumulationIsExact : Obligations.AccumulationIsExact := by
  unfold Obligations.AccumulationIsExact
  intro bk w ts k ql qt hk hsorted hkeys hspan lb tb hwide hanch hfresh new x y old sum hlim
  obtain ⟨hqle, hq⟩ := spanOf_bounds hspan
  have hlb : lb ≤ ql := by simp only [lb]; split <;> omega
  have htb : qt ≤ tb := by simp only [tb]; split <;> omega
  have hterm : ∀ t ∈ ts k, ql ≤ t.q := fun t ht => hq t (List.mem_flatMap.2 ⟨k, List.mem_range.2 hk, ht⟩)
  obtain ⟨f0, hround, hold, hdvd⟩ := exists_shifted (x := x.f) (ql := ql) (qt := qt) hqle (fun h => ⟨(hanch h).1, (hanch h).2.1, (hanch h).2.2 k⟩)
    (fun h => hfresh h k) hwide
  generalize hf : ((ts k).map (fun t => t.m * 2 ^ (t.q - (tb - 64)).toNat)).foldl (· + ·) f0 = f
  have hsum : f * 2 ^ (tb - lb).toNat = sum := by
    rw [← hf, foldl_terms_mul (fun t ht => by have := hterm t ht; omega) f0 (tb - lb).toNat, hold]
    exact congrArg (List.foldl (· + ·) old) (List.map_congr_left fun t ht => by
      rw [show (t.q - (tb - 64) + (tb - lb).toNat).toNat = (t.q - lb + 64).toNat by omega])
  have hflim : f.natAbs ≤ accLimit.natAbs := by
    have h : sum.natAbs ≤ accLimit.natAbs * 2 ^ (tb - lb).toNat := hlim
    rw [← hsum, Int.natAbs_mul, Int.natAbs_pow] at h
    exact Nat.le_of_mul_le_mul_right h (by positivity)
  obtain ⟨hA, hl, ht, he⟩ := placeProducts_eq hspan hwide
  have hy : y = { x with f := f } := by
    refine Eq.trans (congrArg (fun e => tabGetD e k AccEntry.zero) he) (Eq.trans (Bank.tabGetD_mapE _ hsorted hk) ?_)
    exact placeInto_exact hround (fun t ht => by have := hterm t ht; omega) hf.symm hflim
  rw [hy]
  refine ⟨hA, hl, ht, hsum, rfl, rfl, rfl, ?_⟩
  rw [← hf]
  refine dvd_foldl_add hdvd fun z hz => ?_
  obtain ⟨t, ht, rfl⟩ := List.mem_map.1 hz
  exact Dvd.dvd.mul_left (pow_dvd_pow 2 (by have := hterm t ht; omega)) _

end Sys2Proof.Machine

/-!
O51 fails as stated: `RunsEntry` speaks of every `ArrEntry`, also of a TOPK of more indices than a row has entries, which no form queues
(`execTopk` asks for one to four, R224). No list holds 129 different indices below 128, so no run of such an entry writes a chosen one.
-/
namespace Sys2Proof.Machine

/-- A row has 128 entries, so at most 128 of them come first. -/
theorem Chosen.le_rowLength {bk : Bank} {big : Bool} {i j : Nat} {l : List Nat} (h : Chosen bk big i j l) : j ≤ 128 := by
  obtain ⟨hlen, hnodup, hlt, -, -⟩ := h
  have hsub : l ⊆ List.range 128 := fun a ha => List.mem_range.2 (hlt a ha)
  have := (hnodup.subperm hsub).length_le
  rwa [hlen, List.length_range] at this

/-- An entry of the queue of core 0 that asks for the 129 smallest of each row of bank 0. -/
def topkBeyondRow : ArrEntry := ⟨0, 0, 0, 0x10000, false, 0, 1#32, 0, 0, [], none, .topk 0 129 false⟩

/-- The module after reset with one brick on core 0, whose banks are clear. -/
def oneBrick : State := { State.reset with bricks := [(0, loadBrick)] }

/-- Refutes O51: on core 0 of `oneBrick`, `RunsEntry` asks of the entry `topkBeyondRow` 129 indices of row 0. -/
theorem not_waitsCommitsAndArray : ¬ Obligations.WaitsCommitsAndArray := by
  unfold Obligations.WaitsCommitsAndArray
  rintro ⟨-, -, -, -, -, hruns, -⟩
  have hbrick : HasBrick oneBrick 0 loadBrick := rfl
  have hbank : bankAt oneBrick 0 0 = Bank.zero := rfl
  obtain ⟨br', -, -, heffect, -, -⟩ := hruns oneBrick 0 topkBeyondRow loadBrick hbrick
    (show tabSorted (bankAt oneBrick 0 0).e = true by rw [hbank]; rfl)
    (show ∀ x ∈ (bankAt oneBrick 0 0).e, x.1 < 8192 by rw [hbank]; exact fun x hx => absurd hx List.not_mem_nil)
  obtain ⟨⟨-, -, -, hchosen⟩, -, -⟩ := heffect (.inl rfl)
  obtain ⟨l, hl, -⟩ := hchosen 0 (by decide)
  exact absurd hl.le_rowLength (by decide)

end Sys2Proof.Machine

/-!
O60 and O7. SFROMV's word is a word of class 5 with its one row, and the form writes one uniform register; what reset leaves is read off
its record, and the first event that the order of a step looks for is the power-on boot.
-/
namespace Sys2Proof

theorem append_assoc_word (c : BitVec 1) (cl : BitVec 3) (op d a b : BitVec 6) (x : BitVec 1) (st : BitVec 3) :
    (c ++ (cl ++ (op ++ (d ++ (a ++ (b ++ (x ++ st))))))) = mkWord (c ++ cl) (RawA.toBits ⟨op, d, a, b, x⟩) st := by
  refine BitVec.eq_of_toNat_eq ?_
  simp only [mkWord, RawA.toBits, BitVec.toNat_append, Nat.shiftLeft_or_distrib, ← Nat.shiftLeft_add, Nat.or_assoc]

namespace Machine

/-- Settles O60: the word is LX's, and its one row; the form writes one uniform register. -/
theorem sfromvCopiesOneElement : Obligations.SfromvCopiesOneElement := by
  unfold Obligations.SfromvCopiesOneElement
  constructor
  · intro d a lane q st next
    rw [append_assoc_word]
    refine (decodeWords_LX ⟨16#6, d, a, lane, BitVec.ofBool q⟩ st next).trans ?_
    cases q <;> cases h : lane.getLsbD 5 <;> simp [decLX, bitB, -BitVec.getLsbD_eq_getElem, h]
  · intro d a lane q st s c f t e hi hd
    refine retires_fixed hi hd rfl rfl ?_
    cases q
    · exact landsAs_uni c d _ _
    · exact landsAs_uni c d _ _

end Machine
end Sys2Proof

namespace Sys2Proof.Machine

theorem nextMove_reset : nextMove State.reset = .event .powerOnBoot := rfl

/-- Settles O7, by the record that reset is. -/
theorem resetState : Obligations.ResetState := by
  unfold Obligations.ResetState
  exact ⟨rfl, rfl, rfl, rfl, rfl, rfl, rfl, rfl, rfl, rfl, rfl, rfl, rfl, reset_memory_wf, nextMove_reset⟩

end Sys2Proof.Machine

/-!
O45. Each form's part gives a value at once, parks or traps; what a parked one does is what the look at it says.
-/
namespace Sys2Proof.Machine

/-! ### Forms that park -/

section
variable {i : Instr} {s s' : State} {c : Ctx} {f : Form} {body : Ctx → Res} (hi : Issues s c f) (he : exec i s = issueForm s f body)
include hi he

theorem parks_of_park {w : WaitOp} {sync : Option Nat} {e : State → Prop} (hb : body c = .park s' w sync) (h : e s') :
    Parks i s c f w sync e :=
  ⟨s', h, by rw [exec_eq_settle hi he, hb]; rfl⟩

theorem retiresJump_of {e : State → Prop} (hb : body c = .jump s') (h : e s') : RetiresJump i s c f e :=
  ⟨s', h, by rw [exec_eq_settle hi he, hb]; rfl⟩

theorem parksSync_of_parkSync {w : WaitOp} (hb : body c = parkSync s' c w) : ParksSync i s c f s' w :=
  parks_of_park hi he hb rfl

end

/-! ### A look at a parked split -/

section
variable {s : State} {b k : Nat} {br : Brick} {sp : Split} {w : Wait} (hb : HasBrick s b br) (hk : tabGet? br.splits k = some sp)
  (hw : sp.wait = some w) (hs : w.sync = none) (hsaved : (tabGet? s.walls br.wall).any (·.saved) = false) (hf : br.frozen k = false)
include hb hk hw hs hsaved hf

theorem runMove_wake {o : Option State} (h : (match evalWait s (waitCtx b k br sp w) w with
    | .still => none
    | .done s' ws => some (finishWait s' (waitCtx b k br sp w) w ws)
    | .trap s' t => if br.trap.isSome then none else some (trapWait s' (waitCtx b k br sp w) w t)
    | .turn s' => some s') = o) : runMove s (.wake b k) = .next (o.getD s) := by
  rw [runMove, wakeSplit, hb]
  simp only [hk, hw, hs, hsaved, hf, Option.isSome_none, Bool.or_self, Bool.false_eq_true, if_false]
  subst h
  rfl

theorem runMove_wake_still (h : evalWait s (waitCtx b k br sp w) w = .still) : runMove s (.wake b k) = .next s :=
  runMove_wake (o := none) hb hk hw hs hsaved hf (by simp only [h])

theorem runMove_wake_done {s' : State} {ws : List RegWrite} (h : evalWait s (waitCtx b k br sp w) w = .done s' ws) :
    runMove s (.wake b k) = .next (finishWait s' (waitCtx b k br sp w) w ws) :=
  runMove_wake (o := some (finishWait s' (waitCtx b k br sp w) w ws)) hb hk hw hs hsaved hf (by simp only [h])

theorem runMove_wake_turn {s' : State} (h : evalWait s (waitCtx b k br sp w) w = .turn s') : runMove s (.wake b k) = .next s' :=
  runMove_wake (o := some s') hb hk hw hs hsaved hf (by simp only [h])

end

/-- The uniform registers after one write; s0 discards. -/
theorem uniR_applyWrite (d : Nat) (v : W64) (g : Bool) (br : Brick) (p : Nat) :
    Brick.uniR { br with uni := (applyWrite br (.uni d v g)).uni } p = if p = d ∧ p ≠ 0 then ⟨v, g⟩ else br.uniR p := by
  by_cases hp : p = 0
  · simp [Brick.uniR, hp]
  · by_cases hd : d = 0
    · subst hd
      simp [applyWrite, hp]
    · simp [applyWrite, hd, Brick.uniR, hp, tabGetD_set]

theorem counted_eq (P : Prop) [Decidable P] (br : Brick) :
    (if P then br else { br with L := br.L + 1 }) = { br with L := if P then br.L else br.L + 1 } := by
  split <;> rfl

/-- A parked form that writes one uniform register retires. -/
theorem finishWait_waitWrite (s : State) (b k : Nat) (br : Brick) (sp : Split) (w : Wait) (d : Nat) (v : W64) (g : Bool) :
    finishWait s (waitCtx b k br sp w) w (waitWrite (waitCtx b k br sp w) d v g) =
      modBrick s b (fun x =>
        { Brick.modSplit { x with uni := (applyWrite x (.uni d v (sp.governed || g))).uni } k (fun y =>
            { y with pc := w.pc + (if w.two then 8 else 4), wait := none, ready := max y.ready (s.clk + 1) }) with
          L := if k == handlerSplit || w.counted then x.L else x.L + 1 }) := by
  refine congrArg (modBrick s b) (funext fun x => ?_)
  have hx : applyWrites x (waitWrite (waitCtx b k br sp w) d v g) =
      { x with uni := (applyWrite x (.uni d v (sp.governed || g))).uni } := by
    show applyWrite x (.uni d v (sp.governed || g)) = _
    by_cases hd : d = 0 <;> simp [applyWrite, hd]
  refine (counted_eq _ _).trans ?_
  rw [hx]
  rfl

theorem numOf_mod_four (c : Ctx) (a : Reg) (k : BitVec 2) : numOf c a k % 4 = if a = 0#6 then k.toNat else (c.u a).toNat % 4 := by
  unfold numOf
  split
  · exact Nat.mod_eq_of_lt k.isLt
  · rfl

theorem numG_eq (c : Ctx) (a : Reg) : numG c a = (a != 0#6 && c.uG a) := by
  by_cases h : a = 0#6 <;> simp [numG, h]

/-- Settles O45, form by form: what its part gives, parks on or traps with, and for LAUNCH the look at the parked split. -/
theorem launchAndCourseForms : Obligations.LaunchAndCourseForms := by
  unfold Obligations.LaunchAndCourseForms
  refine ⟨?_, ?_, ?_, ?_, ?_, ?_, ?_⟩
  · intro d a st s c f i w hi
    refine ⟨fun hg => traps_of_trap hi rfl (if_pos hg), fun hg => ⟨fun hd => parks_of_park hi rfl ?_ rfl,
      fun hd => parksSync_of_parkSync hi rfl ?_⟩⟩
    · exact (if_neg (by simp [hg])).trans (if_neg (by simp [hd]))
    · exact (if_neg (by simp [hg])).trans (if_pos hd)
  · intro s b k br sp w hb hk hw hs hsaved hf
    refine ⟨fun va d ho hwr => runMove_wake_turn hb hk hw hs hsaved hf ?_, fun d v g ho => ⟨_, uniR_applyWrite d v (sp.governed || g), ?_⟩⟩
    · rw [evalWait, ho]
      exact if_neg (by simp [waitCtx, hwr])
    · rw [runMove_wake_done hb hk hw hs hsaved hf (by rw [evalWait, ho]), finishWait_waitWrite]
  · intro d a k st s c f i hi
    refine ⟨fun ha hg => traps_of_trap hi rfl (if_pos (by simp [ha, hg])), fun h => retires_of_giveNow hi rfl ((if_neg ?_).trans rfl)⟩
    rcases h with rfl | h
    · simp
    · simp [h]
  · intro d st s c f q after endL hi
    refine ⟨retires_of_giveNow hi rfl rfl, fun h => retires_of_giveNow hi rfl ((if_neg ?_).trans rfl),
      fun hd hh => retires_of_giveNow hi rfl ((if_pos (by simp [hd, hh])).trans rfl)⟩
    rcases h with h | h <;> simp [h]
  · intro d a k st s c f role g hi
    have hr : numOf c a k % 4 = role := numOf_mod_four c a k
    refine ⟨fun hd => retires_of_giveNow hi rfl ?_, fun hd => parksSync_of_parkSync hi rfl ?_⟩
    · rw [show g = numG c a from (numG_eq c a).symm, ← hr]
      exact if_neg (by simp [hd])
    · rw [show g = numG c a from (numG_eq c a).symm, ← hr]
      exact if_pos hd
  · intro d a role st s c f i n own left hi
    have hbad : (decide (n < 1) || decide (n > own - 1) || (roleAt s c.br role.toNat).isNone) = true ↔
        n = 0 ∨ own - 1 < n ∨ roleAt s c.br role.toNat = none := by simp [or_assoc]
    refine ⟨fun h => traps_of_trap hi rfl (if_pos (hbad.2 h)), fun h1 hn hrole hbusy => ?_⟩
    have hok := mt hbad.1 (by simp only [hrole, or_false]; omega)
    have hbusy : ¬ givenBusy c.br (8 * left) = true := by simp [hbusy]
    refine ⟨fun hd => retires_of_giveNow hi rfl ?_, fun hd => ?_⟩
    · refine (if_neg hok).trans ((if_neg hbusy).trans ?_)
      simp only [hd, Bool.false_eq_true, if_false, modBrick_modBrick]
      rfl
    · refine retires_of_done hi rfl ((if_neg hok).trans ((if_neg hbusy).trans rfl)) ?_
      simp only [hd, if_true]
      exact ⟨_, flies_pushFlight _ _ _ _ _ _ _, gives_putU _ _ _ _ _⟩
  · intro d a st s c f i n pool own m hi
    have hbad : (decide (n < 1) || decide (n > 7)) = true ↔ n = 0 ∨ 7 < n := by simp
    refine ⟨fun h => traps_of_trap hi rfl (if_pos (hbad.2 h)), fun h1 h7 => ?_⟩
    have hok := mt hbad.1 (by omega)
    exact ⟨fun hd => parksSync_of_parkSync hi rfl ((if_neg hok).trans (if_pos hd)),
      fun hd => retires_of_giveNow hi rfl ((if_neg hok).trans (if_neg (by simp [hd])))⟩

end Sys2Proof.Machine

/-!
O32. An end of threads moves through operations on splits, stacks, groups, objects and pools: none of them writes a register file, a
flag or a thread mask (`Brick.files`), and the end of a brick gives the wall's pools its rows alone (`EndFrame`).
-/
namespace Sys2Proof.Machine

/-! ### What the operations on splits, stacks and groups leave of a brick -/

/-- The threads of a brick, its register files, its flags, and whether it is killed. -/
def Brick.files (br : Brick) : BitVec 32 × Tab Half × Tab UReg × Tab MReg × Tab Flags × Bool :=
  (br.threads, br.lane, br.uni, br.msk, br.fx, br.killed)

theorem leaveGroup_files (br : Brick) (k g : Nat) (ja : Option Nat) (below : List Entry) :
    (leaveGroup br k g ja below).files = br.files := by
  unfold leaveGroup
  split
  · rfl
  · simp only
    split
    · rfl
    · split <;> rfl

theorem leaveGroups_files (k : Nat) (l : List Entry) : ∀ br, (leaveGroups br k l).files = br.files := by
  induction l with
  | nil => exact fun _ => rfl
  | cons e l ih =>
    intro br
    cases e with
    | ret ra g => exact ih br
    | dvg e pm pa rd ja gr g fr pp =>
      cases gr with
      | none => exact ih br
      | some i => exact (ih _).trans (leaveGroup_files br k i ja l)

theorem retireMember_files (g : Nat) (br : Brick) (k : Nat) : (retireMember g br k).files = br.files := by
  unfold retireMember
  split
  · rfl
  · exact leaveGroups_files k _ _

theorem foldl_retireMember_files (g : Nat) (l : List Nat) : ∀ br, (l.foldl (retireMember g) br).files = br.files := by
  induction l with
  | nil => exact fun _ => rfl
  | cons k l ih => exact fun br => (ih _).trans (retireMember_files g br k)

theorem completeGroup_files (clk : Nat) (br : Brick) (g : Nat) (late : Bool) : (completeGroup clk br g late).files = br.files := by
  unfold completeGroup
  split
  · rfl
  · simp only
    split
    · exact foldl_retireMember_files g _ br
    · split <;> exact foldl_retireMember_files g _ br

/-- The brick that an unwinding leaves. -/
def Unwound.brick : Unwound → Brick
  | .gone br => br
  | .on br _ => br

theorem Unwound.files_ite {P : Prop} [Decidable P] {u v : Unwound} {br : Brick} (hu : u.brick.files = br.files)
    (hv : v.brick.files = br.files) : (if P then u else v).brick.files = br.files := by
  split
  · exact hu
  · exact hv

theorem unwind_files (k : Nat) (l : List Entry) : ∀ br sp, (unwind br k sp l).brick.files = br.files := by
  induction l with
  | nil => exact fun _ _ => rfl
  | cons e l ih =>
    intro br sp
    cases e with
    | ret ra g => exact ih br sp
    | dvg e pm pa rd ja gr g fr pp =>
      exact Unwound.files_ite rfl (Unwound.files_ite (leaveGroups_files k _ br) (Unwound.files_ite rfl (ih _ _)))

theorem unwindEmpty_files (ks : List Nat) : ∀ br, (unwindEmpty br ks).files = br.files := by
  induction ks with
  | nil => exact fun _ => rfl
  | cons k ks ih =>
    intro br
    unfold unwindEmpty
    split
    · exact ih br
    · rename_i sp _
      split
      · exact ih br
      · have hu := unwind_files k sp.stack br sp
        split <;> rename_i h <;> rw [h] at hu
        · exact (ih _).trans hu
        · exact (ih _).trans hu

/-! ### Groups that an exit completes -/

/-- Memory and the files of brick b are the same. -/
def SameFiles (b : Nat) (s t : State) : Prop :=
  (tabGet? t.bricks b).map Brick.files = (tabGet? s.bricks b).map Brick.files ∧ t.mem = s.mem ∧ t.lmem = s.lmem

theorem SameFiles.trans {b : Nat} {s t u : State} (h : SameFiles b s t) (h' : SameFiles b t u) : SameFiles b s u :=
  ⟨h'.1.trans h.1, h'.2.1.trans h.2.1, h'.2.2.trans h.2.2⟩

theorem modBrick_sameFiles (s : State) (b : Nat) {g : Brick → Brick} (h : ∀ br, (g br).files = br.files) : SameFiles b s (modBrick s b g) := by
  refine ⟨?_, rfl, rfl⟩
  rw [tabGet?_modBrick, if_pos rfl, Option.map_map]
  exact congrArg (Option.map · _) (funext h)

theorem modSplit_sameFiles (s : State) (b k : Nat) (g : Split → Split) : SameFiles b s (modSplit s b k g) :=
  modBrick_sameFiles s b fun _ => rfl

theorem takeTrap_sameFiles (s : State) (b : Nat) (r : TrapRec) : SameFiles b s (takeTrap s b r) := by
  refine modBrick_sameFiles s b fun br => ?_
  split <;> split <;> rfl

theorem settleGroups_sameFiles (b : Nat) (gs : List Nat) : ∀ s, SameFiles b s (settleGroups s b gs) := by
  induction gs with
  | nil => exact fun _ => ⟨rfl, rfl, rfl⟩
  | cons g gs ih =>
    intro s
    unfold settleGroups
    split
    · exact ⟨rfl, rfl, rfl⟩
    · split
      · split
        · split
          · refine SameFiles.trans ?_ (ih _)
            exact (modSplit_sameFiles s b _ _).trans (takeTrap_sameFiles _ b _)
          · exact ih s
        · exact (modBrick_sameFiles s b fun br => completeGroup_files s.clk br g true).trans (ih _)
      · exact ih s

/-- The brick without some threads, its emptied splits unwound. -/
def Brick.withoutThreads (gone : BitVec 32) (br : Brick) : Brick :=
  unwindEmpty { br with threads := br.threads &&& ~~~gone
                        splits := br.splits.map (fun x => (x.1, { x.2 with mask := x.2.mask &&& ~~~gone
                                                                           stack := x.2.stack.map (Entry.without gone) })) } [0, 1, 2, 3, 4]

theorem exitThreads_eq {s : State} {c : Ctx} (hb : HasBrick s c.b c.br) : exitThreads s c =
    settleGroups (modBrick s c.b (Brick.withoutThreads c.sp.mask)) c.b (tabKeys (c.br.withoutThreads c.sp.mask).groups) := by
  have h : tabGet? (modBrick s c.b (Brick.withoutThreads c.sp.mask)).bricks c.b = some (c.br.withoutThreads c.sp.mask) := by
    rw [tabGet?_modBrick, if_pos rfl, hb, Option.map_some]
  show (match tabGet? (modBrick s c.b (Brick.withoutThreads c.sp.mask)).bricks c.b with
    | none => modBrick s c.b (Brick.withoutThreads c.sp.mask)
    | some br => settleGroups (modBrick s c.b (Brick.withoutThreads c.sp.mask)) c.b (tabKeys br.groups)) = _
  rw [h]

/-- Exiting threads are gone from the brick; its register files, its flags and memory stay. -/
theorem exitThreads_files {s : State} {c : Ctx} (hb : HasBrick s c.b c.br) : ∃ br', HasBrick (exitThreads s c) c.b br' ∧
    br'.files = { c.br with threads := c.br.threads &&& ~~~c.sp.mask }.files ∧
    (exitThreads s c).mem = s.mem ∧ (exitThreads s c).lmem = s.lmem := by
  rw [exitThreads_eq hb]
  obtain ⟨hf, hm, hl⟩ := settleGroups_sameFiles c.b (tabKeys (c.br.withoutThreads c.sp.mask).groups)
    (modBrick s c.b (Brick.withoutThreads c.sp.mask))
  rw [tabGet?_modBrick, if_pos rfl, hb, Option.map_some, Option.map_some, Option.map_eq_some_iff] at hf
  obtain ⟨br', hb', hf⟩ := hf
  exact ⟨br', hb', hf.trans (unwindEmpty_files _ _), hm, hl⟩

/-! ### The end of a brick -/

theorem tabGet?_map {α β : Type} (t : Tab α) (f : Nat → α → β) (i : Nat) :
    tabGet? (t.map (fun x => (x.1, f x.1 x.2))) i = (tabGet? t i).map (f i) := by
  induction t with
  | nil => rfl
  | cons x t ih =>
    obtain ⟨k, v⟩ := x
    rw [List.map_cons, tabGet?_cons, tabGet?_cons, ih]
    by_cases h : i = k
    · rw [if_pos h, if_pos h, h, Option.map_some]
    · rw [if_neg h, if_neg h]

theorem isEmpty_tabMod {α : Type} (t : Tab α) (i : Nat) (f : α → α) : (tabMod t i f).isEmpty = t.isEmpty := by
  cases t with
  | nil => rfl
  | cons x t =>
    unfold tabMod
    split
    · rfl
    · simp only [tabPut]
      split
      · rfl
      · split <;> rfl

/-- What the end of a brick leaves of bricks: their files, and that one without splits has none. -/
def Brick.remains (br : Brick) : (BitVec 32 × Tab Half × Tab UReg × Tab MReg × Tab Flags × Bool) × Bool := (br.files, br.splits.isEmpty)

/-- Every brick's remains and every wall's pools are the same. -/
def EndFrame (s t : State) : Prop :=
  (∀ b, (tabGet? t.bricks b).map Brick.remains = (tabGet? s.bricks b).map Brick.remains) ∧
    ∀ k, (tabGet? t.walls k).map (·.pools) = (tabGet? s.walls k).map (·.pools)

theorem EndFrame.trans {s t u : State} (h : EndFrame s t) (h' : EndFrame t u) : EndFrame s u :=
  ⟨fun b => (h'.1 b).trans (h.1 b), fun k => (h'.2 k).trans (h.2 k)⟩

theorem endFrame_of_eq {s t : State} (hb : t.bricks = s.bricks) (hw : t.walls = s.walls) : EndFrame s t :=
  ⟨fun b => by rw [hb], fun k => by rw [hw]⟩

theorem EndFrame.refl (s : State) : EndFrame s s := endFrame_of_eq rfl rfl

theorem endFrame_foldl {α : Type} {f : State → α → State} (h : ∀ s x, EndFrame s (f s x)) (l : List α) : ∀ s, EndFrame s (l.foldl f s) := by
  induction l with
  | nil => exact EndFrame.refl
  | cons x l ih => exact fun s => (h s x).trans (ih _)

theorem endFrame_modBrick (s : State) (b : Nat) {g : Brick → Brick} (h : ∀ br, (g br).remains = br.remains) : EndFrame s (modBrick s b g) := by
  refine ⟨fun b' => ?_, fun _ => rfl⟩
  rw [tabGet?_modBrick]
  split
  · rename_i he
    rw [Option.map_map, he]
    exact congrArg (Option.map · _) (funext h)
  · rfl

theorem endFrame_mapBricks (s : State) {g : Nat → Brick → Brick} (h : ∀ b br, (g b br).remains = br.remains) : EndFrame s (mapBricks s g) := by
  refine ⟨fun b => ?_, fun _ => rfl⟩
  rw [mapBricks, tabGet?_map, Option.map_map]
  exact congrArg (Option.map · _) (funext (h b))

theorem endFrame_modWall (s : State) (k : Nat) {g : Wall → Wall} (h : ∀ w, (g w).pools = w.pools) : EndFrame s (modWall s k g) := by
  refine ⟨fun _ => rfl, fun k' => ?_⟩
  rw [modWall, tabGet?_mod]
  split
  · rename_i he
    rw [Option.map_map, he]
    exact congrArg (Option.map · _) (funext h)
  · rfl

theorem endFrame_setOp (s : State) (b k : Nat) (op : WaitOp) : EndFrame s (setOp s b k op) :=
  endFrame_modBrick s b fun br => congrArg (Prod.mk br.files) (isEmpty_tabMod br.splits k _)

theorem endFrame_putBar (s : State) (o : ObjRef) (x : Barrier) : EndFrame s (putBar s o x) := by
  cases o with
  | coreBar w k => exact endFrame_modWall s w fun _ => rfl
  | netBar sp p k => exact endFrame_of_eq rfl rfl
  | _ => exact EndFrame.refl s

theorem endFrame_putHod (s : State) (o : ObjRef) (x : Hod) : EndFrame s (putHod s o x) := by
  cases o with
  | hod w k => exact endFrame_modWall s w fun _ => rfl
  | _ => exact EndFrame.refl s

theorem endFrame_logAdd (s : State) (die kind strct : Nat) (core : Option Nat) (loc : Nat) : EndFrame s (logAdd s die kind strct core loc) :=
  endFrame_of_eq rfl rfl

theorem endFrame_putMeta (s : State) (l : Loc) (m : LineMeta) : EndFrame s (putMeta s l m) := endFrame_of_eq (by simp) (by simp)

theorem endFrame_checkLine (s : State) (l : Loc) : EndFrame s (checkLine s l).1 := by
  unfold checkLine
  simp only
  split
  · exact EndFrame.refl s
  · exact (endFrame_putMeta s l _).trans (endFrame_logAdd _ _ _ _ _ _)
  · split
    · exact endFrame_putMeta s l _
    · exact (endFrame_putMeta s l _).trans (endFrame_logAdd _ _ _ _ _ _)

theorem endFrame_checkLines (ls : List Loc) : ∀ s, EndFrame s (checkLines s ls).1 := by
  induction ls with
  | nil => exact EndFrame.refl
  | cons l ls ih => exact fun s => (endFrame_checkLine s l).trans (ih _)

theorem endFrame_takeSlot (s : State) (o : ObjRef) (b : Nat) : EndFrame s (takeSlot s o b).1 := by
  have hc := endFrame_checkLines ((List.range ((hodAt s o).s / 64)).map (fun i => (hodSlotLoc s o (hodAt s o).head).add (64 * i))) s
  unfold takeSlot
  simp only
  split <;> rename_i h <;> rw [h] at hc
  · exact hc
  · exact hc.trans (endFrame_putHod _ o _)

theorem endFrame_serveCons (o : ObjRef) (l : List (Nat × Nat)) : ∀ s, EndFrame s (serveCons o l s) := by
  induction l with
  | nil => exact EndFrame.refl
  | cons x l ih =>
    intro s
    unfold serveCons
    simp only
    split
    · split
      · have ht := (endFrame_putHod s o { hodAt s o with cons := l }).trans (endFrame_takeSlot _ o x.1)
        split <;> rename_i h <;> rw [h] at ht
        · exact (ht.trans (endFrame_setOp _ _ _ _)).trans (ih _)
        · exact (ht.trans (endFrame_setOp _ _ _ _)).trans (ih _)
      · split
        · exact ((endFrame_putHod s o _).trans (endFrame_setOp _ _ _ _)).trans (ih _)
        · exact EndFrame.refl s
    · exact EndFrame.refl s

theorem endFrame_reserveSlot (s : State) (o : ObjRef) : EndFrame s (reserveSlot s o).1 := endFrame_putHod s o _

theorem endFrame_giveSlot (s : State) (b seq n : Nat) (tEnd : Option Nat) : EndFrame s (giveSlot s b seq n tEnd) :=
  endFrame_modBrick s b fun _ => rfl

theorem endFrame_finishFlight (s : State) (b seq : Nat) : EndFrame s (modBrick s b (fun br => finishFlight br seq)) :=
  endFrame_modBrick s b fun _ => rfl

theorem endFrame_serveProds (o : ObjRef) (l : List (Nat × Nat)) : ∀ s, EndFrame s (serveProds o l s) := by
  induction l with
  | nil => exact EndFrame.refl
  | cons x l ih =>
    intro s
    unfold serveProds
    simp only
    split
    · split
      · exact (((endFrame_putHod s o _).trans (endFrame_finishFlight _ _ _)).trans (endFrame_setOp _ _ _ _)).trans (ih _)
      · split
        · exact ((((endFrame_putHod s o _).trans (endFrame_reserveSlot _ o)).trans (endFrame_giveSlot _ _ _ _ _)).trans
            (endFrame_setOp _ _ _ _)).trans (ih _)
        · exact EndFrame.refl s
    · exact EndFrame.refl s

theorem endFrame_serveHod (s : State) (o : ObjRef) : EndFrame s (serveHod s o) :=
  (endFrame_serveCons o _ s).trans (endFrame_serveProds o _ _)

/-- A wall whose hods know nothing of brick b. -/
def Wall.withoutBrick (b : Nat) (w : Wall) : Wall :=
  { w with hods := w.hods.map (fun h => (h.1,
      { h.2 with heldBy := h.2.heldBy.filter (fun x => x.1 != b), prods := h.2.prods.filter (fun x => x.1 != b)
                 cons := h.2.cons.filter (fun x => x.1 != b) })) }

theorem endFrame_leaveHods (s : State) (b : Nat) : EndFrame s (leaveHods s b) := by
  refine ⟨fun _ => rfl, fun k => ?_⟩
  rw [show (leaveHods s b).walls = s.walls.map (fun x => (x.1, Wall.withoutBrick b x.2)) from rfl,
    tabGet?_map s.walls (fun _ => Wall.withoutBrick b), Option.map_map]
  rfl

theorem endFrame_voteBar (s : State) (o : ObjRef) : EndFrame s (voteBar s o) := by
  unfold voteBar
  simp only
  split
  · exact EndFrame.refl s
  · split <;> exact (endFrame_putBar s o _).trans (endFrame_logAdd _ _ _ _ _ _)

theorem endFrame_releaseBar (s : State) (o : ObjRef) (sel : Option Nat → Bool) (cleared : Brick → Nat) (status : BitVec 9) :
    EndFrame s (releaseBar s o sel cleared status) :=
  endFrame_mapBricks s fun _ br => congrArg (Prod.mk br.files) List.isEmpty_map

theorem endFrame_tryComplete (s : State) (o : ObjRef) : EndFrame s (tryComplete s o) := by
  unfold tryComplete
  simp only
  split
  · exact (endFrame_putBar s o _).trans (endFrame_releaseBar _ o _ _ _)
  · exact EndFrame.refl s

theorem endFrame_exitBar (b : Nat) (s : State) (o : ObjRef) : EndFrame s (exitBar s b o) := by
  unfold exitBar
  simp only
  split
  · exact endFrame_voteBar s o
  · split
    · exact (endFrame_voteBar s o).trans (endFrame_putBar _ o _)
    · exact ((endFrame_voteBar s o).trans (endFrame_putBar _ o _)).trans (endFrame_tryComplete _ o)

theorem endFrame_commitCells (s : State) (b : Nat) : EndFrame s (commitCells s b) := endFrame_of_eq rfl rfl

/-- The end of a brick outside a deterministic launch, once its rows are back. -/
theorem endFrame_endObjects {s : State} {b : Nat} {br : Brick} (hb : HasBrick s b br) (hd : br.det = false) :
    EndFrame (returnRows s br) (endObjects s b false) := by
  unfold endObjects
  simp only [hb, hd, Bool.false_eq_true, if_false]
  exact (((endFrame_leaveHods _ b).trans (endFrame_commitCells _ b)).trans (endFrame_foldl endFrame_serveHod _ _)).trans
    (endFrame_foldl (endFrame_exitBar b) _ _)

theorem poolOf_congr {s t : State} {br : Brick} (role : Nat) (h : (tabGet? t.walls br.wall).map (·.pools) = (tabGet? s.walls br.wall).map (·.pools)) :
    poolOf t br role = poolOf s br role := by
  unfold poolOf wallOf
  cases hs : tabGet? s.walls br.wall <;> cases ht : tabGet? t.walls br.wall <;> simp [hs, ht] at h ⊢
  rw [h]

theorem poolOf_returnRows {s : State} {br : Brick} (h : (tabGet? s.walls br.wall).isSome = true) :
    poolOf (returnRows s br) br br.role = poolOf s br br.role + 8 * br.gran := by
  obtain ⟨w, hw⟩ := Option.isSome_iff_exists.1 h
  simp [poolOf, wallOf, returnRows, modWall, tabGet?_mod, hw]

/-- What is left of brick b, which was br in s, once its last threads have exited. -/
def Ended (s : State) (b : Nat) (br : Brick) (s' : State) : Prop :=
  ∃ br', HasBrick s' b br' ∧ br'.threads = 0#32 ∧ br'.splits = [] ∧
    br'.lane = br.lane ∧ br'.uni = br.uni ∧ br'.msk = br.msk ∧ br'.fx = br.fx ∧ br'.killed = br.killed ∧
    ((tabGet? s.walls br.wall).isSome = true → poolOf s' br br.role = poolOf s br br.role + 8 * br.gran)

/-- The state in which the last exit has freed the brick's tape, its slot and its places in queues. -/
def exitFreed (s : State) (c : Ctx) : State := leaveQueues (leaveSlot (freeTape s c.b) c.b c.br) c.b

/-- The brick without threads, splits and groups. -/
def Brick.emptied (br : Brick) : Brick := { br with threads := 0#32, splits := [], groups := [], inSlot := false }

theorem modBrick_brick {s : State} {b : Nat} {br : Brick} (hb : HasBrick s b br) (g : Brick → Brick) : HasBrick (modBrick s b g) b (g br) := by
  rw [HasBrick, tabGet?_modBrick, if_pos rfl, hb, Option.map_some]

theorem exitFreed_brick {s : State} {c : Ctx} (hb : HasBrick s c.b c.br) :
    ∃ t sps, HasBrick (exitFreed s c) c.b { c.br with tape := t, splits := sps } :=
  ⟨_, _, (modBrick_brick hb _ : HasBrick (freeTape s c.b) c.b _)⟩

theorem foldl_bufferMark_keeps (T : Nat) (l : List ArrMark) : ∀ br : Brick, (l.foldl (bufferMark T) br).threads = br.threads ∧
    (l.foldl (bufferMark T) br).splits = br.splits := by
  induction l with
  | nil => exact fun _ => ⟨rfl, rfl⟩
  | cons m l ih =>
    intro br
    rw [List.foldl_cons]
    refine ⟨(ih _).1.trans ?_, (ih _).2.trans ?_⟩ <;> unfold bufferMark <;> split <;> rfl

section
variable {s : State} {c : Ctx} (hb : HasBrick s c.b c.br)
include hb

/-- The last exit outside a deterministic launch. -/
theorem exitLast_ended (hd : c.br.det = false) : Ended s c.b c.br (exitLast s c) := by
  obtain ⟨t, sps, hfreed⟩ := exitFreed_brick hb
  have he : exitLast s c = endObjects (modBrick (exitFreed s c) c.b Brick.emptied) c.b false := by
    unfold exitLast
    simp only [hd, Bool.false_eq_true, if_false]
    rfl
  have hb1 := modBrick_brick hfreed Brick.emptied
  obtain ⟨hremains, hpools⟩ := endFrame_endObjects hb1 hd
  have hr := hremains c.b
  rw [show tabGet? (returnRows (modBrick (exitFreed s c) c.b Brick.emptied) _).bricks c.b = _ from hb1, Option.map_some,
    Option.map_eq_some_iff] at hr
  obtain ⟨br', hb', hr⟩ := hr
  simp only [Brick.remains, Brick.files, Brick.emptied, Prod.mk.injEq, List.isEmpty_nil, List.isEmpty_iff] at hr
  obtain ⟨⟨hthreads, hlane, huni, hmsk, hfx, hkilled⟩, hsplits⟩ := hr
  refine ⟨br', he ▸ hb', hthreads, hsplits, hlane, huni, hmsk, hfx, hkilled, fun hwall => ?_⟩
  rw [he, poolOf_congr (br := c.br) c.br.role (hpools c.br.wall)]
  exact poolOf_returnRows (s := modBrick (exitFreed s c) c.b Brick.emptied) (br := c.br) hwall

/-- The last exit of a deterministic launch buffers the brick's end until its course's. -/
theorem exitLast_buffered (hd : c.br.det = true) : ∃ br' fl, HasBrick (exitLast s c) c.b br' ∧ br'.threads = 0#32 ∧ br'.splits = [] ∧
    fl ∈ br'.flights ∧ fl.kind = .gone false ∧ fl.tEnd = some (courseEndOf (qOf s c.br) c.br.L) := by
  obtain ⟨t, sps, hfreed⟩ := exitFreed_brick hb
  have he : exitLast s c = modBrick (exitFreed s c) c.b (fun br =>
      { goneFlight (bufferMarks (courseEndOf (qOf s c.br) c.br.L) br.emptied) (courseEndOf (qOf s c.br) c.br.L) false with
        L := courseEndOf (qOf s c.br) c.br.L - 1 }) := by
    unfold exitLast
    simp only [hd, if_true]
    rfl
  rw [he]
  obtain ⟨hthreads, hsplits⟩ := foldl_bufferMark_keeps (courseEndOf (qOf s c.br) c.br.L) c.br.arrMarks
    (Brick.emptied { c.br with tape := t, splits := sps })
  exact ⟨_, _, modBrick_brick hfreed _, hthreads, hsplits, List.mem_append_right _ (List.mem_singleton_self _), rfl, rfl⟩

end

/-- Settles O32: an exit that leaves threads, the last exit, and the last exit of a split that has parked. -/
theorem exitEndsThreads : Obligations.ExitEndsThreads := by
  unfold Obligations.ExitEndsThreads
  intro ended
  refine ⟨?_, ?_⟩
  · intro st s c f hi
    obtain ⟨-, hb, -⟩ := focusOf_eq_some.1 hi.1
    refine ⟨fun hleft => ?_, fun hnone hd => ⟨fun hm => ?_, fun hm => ?_⟩, fun hnone hd => ?_⟩
    · obtain ⟨br', hb', hf, hmem, hlmem⟩ := exitThreads_files hb
      simp only [Brick.files, Prod.mk.injEq] at hf
      obtain ⟨hthreads, hlane, huni, hmsk, hfx, -⟩ := hf
      exact retiresJump_of hi rfl (if_pos (by simpa using hleft)) ⟨br', hb', hthreads, hlane, huni, hmsk, hfx, hmem, hlmem⟩
    · exact retiresJump_of hi rfl ((if_neg (by simp [hnone])).trans (if_neg (by simp [hm]))) (exitLast_ended hb hd)
    · exact parks_of_park hi rfl ((if_neg (by simp [hnone])).trans (if_pos (by simp [hd, hm]))) rfl
    · exact retiresJump_of hi rfl ((if_neg (by simp [hnone])).trans (if_neg (by simp [hd]))) (exitLast_buffered hb hd)
  · intro s b k br sp w hb hk hw ho hs hsaved hf hd
    refine ⟨fun hm => runMove_wake_still hb hk hw hs hsaved hf ?_, fun hm => ⟨_, runMove_wake_turn hb hk hw hs hsaved hf ?_,
      exitLast_ended (c := waitCtx b k br sp w) hb hd⟩⟩
    · rw [evalWait, ho]
      exact if_neg (by simpa [waitCtx] using hm)
    · rw [evalWait, ho]
      exact if_pos (by simp [waitCtx, hm])

end Sys2Proof.Machine

/-!
O18. A pass of CURE compares magnitudes exactly and rounds x − r × g once; its forms write what the passes give thread by thread.
-/
namespace Sys2Proof.Machine

/-! ### Finite encodings and exact comparisons -/

theorem isSpecial_eq_false {v : FVal} : isSpecial v = false ↔ ∃ n m e, v = .fin n m e := by
  cases v <;> simp [isSpecial]

/-- A format with infinities whose finite encodings reach up to them. -/
def Fmt.Ieee (f : Fmt) : Prop := f.hasInf = true ∧ f.maxBits + 1 = (2 ^ f.ebits - 1) * 2 ^ f.fbits

/-- An encoding that unpacks to a number is finite. -/
theorem Fmt.finite_of_fUnpack {f : Fmt} (hf : f.Ieee) {x : Nat} (h : isSpecial (fUnpack f x) = false) : f.finite x := by
  obtain ⟨hinf, htop⟩ := hf
  have hex : x / 2 ^ f.fbits % 2 ^ f.ebits = x % 2 ^ (f.fbits + f.ebits) / 2 ^ f.fbits := by
    rw [pow_add, Nat.mod_mul_right_div_self]
  have hne : x / 2 ^ f.fbits % 2 ^ f.ebits ≠ 2 ^ f.ebits - 1 := by
    intro he
    rw [fUnpack, if_pos (by simp [hinf, he])] at h
    split at h <;> cases h
  have hlt : x / 2 ^ f.fbits % 2 ^ f.ebits < 2 ^ f.ebits := Nat.mod_lt _ (by positivity)
  rw [hex] at hne hlt
  have := (Nat.div_lt_iff_lt_mul (by positivity : 0 < 2 ^ f.fbits)).1 (show x % 2 ^ (f.fbits + f.ebits) / 2 ^ f.fbits < 2 ^ f.ebits - 1 by omega)
  unfold Fmt.finite
  omega

theorem Fmt.isSpecial_of_finite {f : Fmt} (hf : f.Coded) {x : Nat} (h : f.finite x) : isSpecial (fUnpack f x) = false := by
  obtain ⟨m, e, hu, -⟩ := f.fUnpack_finite hf h
  rw [hu]; rfl

theorem Fmt.num_fUnpack {f : Fmt} (hf : f.Coded) {x : Nat} (h : f.finite x) : (fUnpack f x).num = f.num x := by
  obtain ⟨m, e, hu, -, -, hn⟩ := f.fUnpack_finite hf h
  rw [hu, hn]

theorem Fmt.ieee_f64 : fmtF64.Ieee := ⟨rfl, rfl⟩
theorem Fmt.ieee_f32 : fmtF32.Ieee := ⟨rfl, rfl⟩

theorem absLeMul_iff {a b c : FVal} (ha : isSpecial a = false) (hb : isSpecial b = false) (hc : isSpecial c = false) :
    absLeMul a b c = true ↔ |a.num| ≤ |b.num| * |c.num| := by
  obtain ⟨na, ma, ea, rfl⟩ := isSpecial_eq_false.1 ha
  obtain ⟨nb, mb, eb, rfl⟩ := isSpecial_eq_false.1 hb
  obtain ⟨nc, mc, ec, rfl⟩ := isSpecial_eq_false.1 hc
  rw [absLeMul, magLe_iff, abs_num, abs_num, abs_num, Nat.cast_mul, zpow_add₀ two_ne_zero, mul_mul_mul_comm]

theorem absLe_iff {a b : FVal} (ha : isSpecial a = false) (hb : isSpecial b = false) : absLe a b = true ↔ |a.num| ≤ |b.num| := by
  rw [absLe, absLeMul_iff ha hb rfl, abs_num, Nat.cast_one, zpow_zero, one_mul, mul_one]

theorem isZero_iff {v : FVal} (h : isSpecial v = false) : isZero v = true ↔ v.num = 0 := by
  obtain ⟨n, m, e, rfl⟩ := isSpecial_eq_false.1 h
  rw [FVal.num_eq_zero]
  cases m <;> simp [isZero]

/-! ### The policy (R179) -/

/-- A policy holds the values of its two words: TOL and CF are numbers that are not negative. -/
structure Policy.Holds (p : Policy) (p0 p1 : W64) : Prop where
  tol_finite : isSpecial p.tol = false
  tol_num : |p.tol.num| = fmtF64.num p0.toNat
  cf_finite : isSpecial p.cf = false
  cf_num : |p.cf.num| = fmtF32.num (p1.toNat % 2 ^ 32)
  grace : p.grace = p1.toNat / 2 ^ 32 % 256
  maxp : p.maxp = p1.toNat / 2 ^ 40 % 65536

/-- An encoding whose sign is plus, or that is a zero, stands for its own magnitude. -/
theorem Fmt.abs_num_fUnpack {f : Fmt} (hf : f.Coded) (hi : f.Ieee) {x : Nat} {n : Bool} {m : Nat} {e : Int} (h : fUnpack f x = .fin n m e)
    (hn : n = false ∨ m = 0) : |(FVal.fin n m e).num| = f.num x := by
  rw [← f.num_fUnpack hf (f.finite_of_fUnpack hi (by rw [h]; rfl)), h, abs_of_nonneg]
  rcases hn with rfl | rfl
  · rw [FVal.num_fin]
    simp only [Bool.false_eq_true, if_false]
    positivity
  · rw [FVal.num_eq_zero.2 rfl]

theorem policyOf_holds {p0 p1 : W64} {p : Policy} (h : policyOf p0 p1 = some p) : p.Holds p0 p1 := by
  cases ht : fUnpack fmtF64 p0.toNat with
  | nan _ | inf _ => simp only [policyOf, ht, Bool.not_false, Bool.or_true, Bool.true_or, if_true, reduceCtorEq] at h
  | fin n m e =>
    cases hf : fUnpack fmtF32 (p1.toNat % 2 ^ 32) with
    | nan _ | inf _ => simp only [policyOf, ht, hf, Bool.not_false, Bool.or_true, Bool.true_or, if_true, reduceCtorEq] at h
    | fin n' m' e' =>
      simp only [policyOf, ht, hf] at h
      split at h
      · cases h
      · rename_i hc
        cases h
        simp only [Bool.or_eq_true, not_or, Bool.not_eq_true', Bool.not_eq_false, beq_iff_eq, Bool.and_eq_true] at hc
        obtain ⟨⟨⟨-, htol⟩, ⟨hcf, -⟩⟩, -⟩ := hc
        exact ⟨rfl, Fmt.abs_num_fUnpack (Fmt.coded_of_fmtOf (ty := .f64) rfl) Fmt.ieee_f64 ht htol, rfl,
          Fmt.abs_num_fUnpack (Fmt.coded_of_fmtOf (ty := .f32) rfl) Fmt.ieee_f32 hf (.inl hcf), rfl, rfl⟩

/-! ### One pass (R181) -/

section
variable {f : Fmt} {m : Rm} {p0 p1 : W64} {p : Policy} (hp : p.Holds p0 p1) (cst : Cst) (x r g : FVal)

/-- The operands of a pass are numbers. -/
def FiniteOperands (x r g : FVal) : Prop := isSpecial x = false ∧ isSpecial r = false ∧ isSpecial g = false

theorem finiteOperands_iff : (isSpecial x || isSpecial r || isSpecial g) = false ↔ FiniteOperands x r g := by
  simp [FiniteOperands, and_assoc]

include hp in
theorem curePass_pass_iff : (curePass f (.det m) p cst x r g).pass = true ↔
    FiniteOperands x r g ∧ |r.num| ≤ (if x.num = 0 then fmtF64.num p0.toNat else fmtF64.num p0.toNat * |x.num|) := by
  simp only [curePass, Bool.and_eq_true, Bool.not_eq_true', finiteOperands_iff]
  refine and_congr_right fun ⟨hx, hr, _⟩ => ?_
  by_cases h0 : x.num = 0
  · rw [if_pos ((isZero_iff hx).2 h0), if_pos h0, absLe_iff hr hp.tol_finite, hp.tol_num]
  · rw [if_neg (mt (isZero_iff hx).1 h0), if_neg h0, absLeMul_iff hr hp.tol_finite hx, hp.tol_num]

/-- What makes a failing pass count in FAIL: after an earlier pass, no residual that is at most CF times the last one (R181). -/
def cureStuck (p : Policy) (cst : Cst) (x r g : FVal) : Bool :=
  cst.v && ((isSpecial x || isSpecial r || isSpecial g) || !(match fUnpack fmtF64 cst.last.toNat with
    | .fin _ _ _ => absLeMul r p.cf (fUnpack fmtF64 cst.last.toNat)
    | _ => true))

theorem curePass_fail_eq : (curePass f (.det m) p cst x r g).cst.fail =
    if (curePass f (.det m) p cst x r g).pass then 0 else if cureStuck p cst x r g then min 255 (cst.fail + 1) else 0 := rfl

theorem curePass_trip_eq : (curePass f (.det m) p cst x r g).trip = (!(curePass f (.det m) p cst x r g).pass &&
    (decide (p.grace < (curePass f (.det m) p cst x r g).cst.fail) || decide (p.maxp < (curePass f (.det m) p cst x r g).cst.pass))) := rfl

theorem finite_last_iff : fmtF64.finite cst.last.toNat ↔ isSpecial (fUnpack fmtF64 cst.last.toNat) = false :=
  ⟨Fmt.isSpecial_of_finite (Fmt.coded_of_fmtOf (ty := .f64) rfl), Fmt.finite_of_fUnpack Fmt.ieee_f64⟩

include hp in
theorem cureStuck_iff : cureStuck p cst x r g = true ↔ cst.v = true ∧ (FiniteOperands x r g → fmtF64.finite cst.last.toNat ∧
    fmtF32.num (p1.toNat % 2 ^ 32) * |fmtF64.num cst.last.toNat| < |r.num|) := by
  rw [cureStuck, Bool.and_eq_true]
  refine and_congr_right fun _ => ?_
  by_cases hfin : FiniteOperands x r g
  · rw [(finiteOperands_iff x r g).2 hfin, Bool.false_or, finite_last_iff]
    cases hl : fUnpack fmtF64 cst.last.toNat with
    | nan _ | inf _ => simp [hfin, isSpecial]
    | fin n k e =>
      have hf : isSpecial (fUnpack fmtF64 cst.last.toNat) = false := by rw [hl]; rfl
      have hn := Fmt.num_fUnpack (Fmt.coded_of_fmtOf (ty := .f64) rfl) ((finite_last_iff cst).2 hf)
      rw [← hn, hl, Bool.not_eq_true', ← Bool.not_eq_true, absLeMul_iff hfin.2.1 hp.cf_finite rfl, hp.cf_num, not_le]
      simp [hfin, isSpecial]
  · have hs : (isSpecial x || isSpecial r || isSpecial g) = true := by
      rw [← Bool.not_eq_false, finiteOperands_iff]; exact hfin
    simp [hs, hfin]

/-- On numbers the value is x − r × g rounded once, and LAST is |r| rounded to nearest. -/
theorem curePass_rounded (hfin : FiniteOperands x r g) (hf : f.Sound) :
    f.rounded (.det m) (x.num - r.num * g.num) ((curePass f (.det m) p cst x r g).bits, (curePass f (.det m) p cst x r g).fl) ∧
      ∃ fl, fmtF64.rounded (.det .rne) |r.num| ((curePass f (.det m) p cst x r g).cst.last.toNat, fl) := by
  obtain ⟨hx, hr, hg⟩ := hfin
  obtain ⟨nx, mx, ex, rfl⟩ := isSpecial_eq_false.1 hx
  obtain ⟨nr, mr, er, rfl⟩ := isSpecial_eq_false.1 hr
  obtain ⟨ng, mg, eg, rfl⟩ := isSpecial_eq_false.1 hg
  constructor
  · have h := (Fmt.delivers_fFma hf (det_draw m) (!nr) mr er ng mg eg nx mx ex).1
    rw [show (FVal.fin (!nr) mr er).num = -(FVal.fin nr mr er).num from FVal.num_negate (.fin nr mr er)] at h
    rw [show (FVal.fin nx mx ex).num - (FVal.fin nr mr er).num * (FVal.fin ng mg eg).num =
      -(FVal.fin nr mr er).num * (FVal.fin ng mg eg).num + (FVal.fin nx mx ex).num by ring]
    exact h
  · obtain ⟨h, -⟩ := Fmt.rounded_fin (Fmt.sound_of_fmtOf (ty := .f64) rfl) (det_draw .rne) false mr er
    rw [FVal.num_fin, if_neg Bool.false_ne_true, ← abs_num nr] at h
    have hlt : (fRound fmtF64 (.det .rne) false mr er).1 < 2 ^ 64 := by
      obtain ⟨k, -, -, hw, -⟩ := h
      exact hw
    have hlast : (curePass f (.det m) p cst (.fin nx mx ex) (.fin nr mr er) (.fin ng mg eg)).cst.last.toNat =
        (fRound fmtF64 (.det .rne) false mr er).1 := by
      simpa [curePass, hx, hr, hg] using Nat.mod_eq_of_lt hlt
    rw [hlast]
    exact ⟨_, h⟩

theorem curePass_invalid (hfin : ¬ FiniteOperands x r g) : (curePass f (.det m) p cst x r g).bits = f.nanBits ∧
    (curePass f (.det m) p cst x r g).fl = flagInvalid ∧ (curePass f (.det m) p cst x r g).cst.last = 0x7FF0000000000000#64 := by
  have hs : (isSpecial x || isSpecial r || isSpecial g) = true := by
    rw [← Bool.not_eq_false, finiteOperands_iff]; exact hfin
  simp only [curePass, hs, if_true, true_and]
  cases r <;> rfl

end

/-! ### Tables of the active threads -/

/-- Each of some threads' entries changed once. -/
theorem tabGetD_foldl_set {α : Type} [DecidableEq α] (d : α) (u : Nat → α → α) (ts : List Nat) (nd : ts.Nodup) : ∀ (t0 : Tab α) (t : Nat),
    tabGetD (ts.foldl (fun m t => tabSet m t d (u t (tabGetD m t d))) t0) t d = if t ∈ ts then u t (tabGetD t0 t d) else tabGetD t0 t d := by
  induction ts with
  | nil => intro t0 t; rfl
  | cons a ts ih =>
    intro t0 t
    obtain ⟨ha, nd⟩ := List.nodup_cons.1 nd
    rw [List.foldl_cons, ih nd, tabGetD_set]
    by_cases h : t = a
    · subst h
      simp [ha]
    · simp [h]

/-- Two updates that agree on the brick. -/
theorem modBrick_congr {s : State} {b : Nat} {br : Brick} {g h : Brick → Brick} (hb : HasBrick s b br) (he : g br = h br) :
    modBrick s b g = modBrick s b h := by
  simp [modBrick, tabMod, hb, he]

/-! ### Splits that an answer leaves -/

theorem modBrick_splits (s : State) (b : Nat) {g : Brick → Brick} (h : ∀ br, (g br).splits = br.splits) :
    (tabGet? (modBrick s b g).bricks b).map Brick.splits = (tabGet? s.bricks b).map Brick.splits := by
  rw [tabGet?_modBrick, if_pos rfl, Option.map_map]
  exact congrArg (Option.map · _) (funext h)

theorem addPend_splits (s : State) (c : Ctx) (f : Form) (lat : Nat) (ws : List RegWrite) (fx : List (Nat × Flags)) (isFp : Bool) :
    (tabGet? (addPend s c f lat ws fx isFp).bricks c.b).map Brick.splits = (tabGet? s.bricks c.b).map Brick.splits :=
  modBrick_splits s c.b (fun _ => by rfl)

theorem pushPend_splits (s : State) (c : Ctx) (f : Form) (lat : Nat) (ws : List RegWrite) (fx : List (Nat × Flags)) (isFp : Bool) :
    (tabGet? (pushPend s c f lat ws fx isFp).bricks c.b).map Brick.splits = (tabGet? s.bricks c.b).map Brick.splits := by
  unfold pushPend
  split
  · exact addPend_splits s c f lat ws fx isFp
  · split
    · exact (modBrick_splits _ c.b (fun _ => by rfl)).trans (addPend_splits s c f lat ws fx isFp)
    · exact (modBrick_splits _ c.b (fun _ => by rfl)).trans (addPend_splits (nextFree s).2 c f lat _ [] isFp)

theorem pushFp_splits (s : State) (c : Ctx) (f : Form) (lat : Nat) (ws : List RegWrite) (fx : List (Nat × Flags)) (m : Nat → W64)
    (fm : Option Fmt) (raises : Bool) :
    (tabGet? (pushFp s c f lat ws fx m fm raises).bricks c.b).map Brick.splits = (tabGet? s.bricks c.b).map Brick.splits := by
  unfold pushFp
  split
  · split
    · exact (modBrick_splits _ c.b (fun _ => by rfl)).trans (pushPend_splits (nextFree s).2 c f lat ws [] raises)
    · exact (modBrick_splits _ c.b (fun _ => by rfl)).trans (pushPend_splits s c f lat ws fx raises)
  · exact pushPend_splits s c f lat ws fx raises

/-- A form that is done, and has left the splits alone, stands behind itself. -/
theorem standsBehind_of_done {i : Instr} {s s' : State} {c : Ctx} {f : Form} {body : Ctx → Res} (hi : Issues s c f)
    (he : exec i s = issueForm s f body) (hb : body c = .done s')
    (hs : (tabGet? s'.bricks c.b).map Brick.splits = (tabGet? s.bricks c.b).map Brick.splits) :
    ∃ t br sp, exec i s = .next t ∧ HasBrick t c.b br ∧ tabGet? br.splits c.k = some sp ∧ sp.pc = c.sp.pc + f.len := by
  obtain ⟨-, hbrick, hsplit⟩ := focusOf_eq_some.1 hi.1
  rw [hbrick, Option.map_some, Option.map_eq_some_iff] at hs
  obtain ⟨br', hb', hsp⟩ := hs
  obtain ⟨br'', ⟨h1, h2, -⟩, -⟩ := retire_left (f := f) hb' (hsp ▸ hsplit)
  exact ⟨_, br'', _, by rw [exec_eq_settle hi he, hb]; rfl, h1, h2, rfl⟩

theorem diverging_of_healthy {c : Ctx} (h : Healthy c) : c.diverging = false := by
  unfold Ctx.diverging
  rw [h.1, Option.isSome_none, Bool.false_or]
  split
  · rename_i t he
    exact absurd he (h.2 t)
  · rfl

/-! ### The forms -/

section
variable {d a b g : Reg} {rm : Rm} {ty : Ty} {hi : Bool} {x : Reg} {st : BitVec 3}

/-- The form of CURE. -/
def cureForm (d a b g : Reg) (ty : Ty) (hi : Bool) (x : Reg) (st : BitVec 3) : Form :=
  let rs := if ty == .f64 then [b, nxt b] else [b]
  { laneForm true st (a :: rs ++ [g]) d with
    unis := [x.toNat, (nxt x).toNat], rd := (a :: rs ++ [g]).map nLane ++ [nUni x, nUni (nxt x)]
    chk := (a.toNat, ty == .f64 || !hi, ty == .f64 || hi) :: (rs ++ [g]).map chkBoth }

/-- What one thread of CURE writes and raises. -/
def cureOut (c : Ctx) (d : Reg) (ty : Ty) (hi : Bool) (r : Nat → CurePass) (t : Nat) : ThreadOut :=
  if ty == .f64 then out64 c d t ((r t).bits, (r t).fl) (!(r t).pass)
  else ([c.putH d t (if hi then 1 else 0) (BitVec.ofNat 32 (r t).bits) (!(r t).pass)], (r t).fl)

/-- The state of cure of the active threads after their passes. -/
def cureCsts (c : Ctx) (r : Nat → CurePass) : Tab Cst := c.ts.foldl (fun m t => tabSet m t Cst.start (r t).cst) c.br.cst

theorem tabGetD_cureCsts (c : Ctx) (r : Nat → CurePass) (t : Nat) :
    tabGetD (cureCsts c r) t Cst.start = if t ∈ c.ts then (r t).cst else c.br.cstOf t :=
  tabGetD_foldl_set Cst.start (fun t _ => (r t).cst) c.ts (threadsOf_nodup _) c.br.cst t

/-- CURE's own part: the policy, then the trips, then the values. -/
def cureBody (s : State) (d a b g : Reg) (rm : Rm) (ty : Ty) (hi : Bool) (x : Reg) (st : BitVec 3) (c : Ctx) : Res :=
  match policyOf (c.u x) (c.u (nxt x)) with
  | none => .trap s (trapOf c 0x083#9)
  | some p =>
    let r := cureThread c a b g rm ty (if hi then 1 else 0) p
    match c.ts.filter (fun t => (r t).trip) with
    | t :: ts => .trap (cureCst s c r) (trapThread (if (r t).fail then 0x080#9 else 0x081#9) t (ts.length + 1) 0)
    | [] => fpThreads (if c.diverging then s else cureCst s c r) c (cureForm d a b g ty hi x st) (if ty == .f64 then 16 else 12)
        (cureOut c d ty hi r) (pairFmt (ty == .f64))

theorem exec_cure (s : State) : exec (.cure d a b g rm ty hi x st) s = issueForm s (cureForm d a b g ty hi x st)
    (cureBody s d a b g rm ty hi x st) := rfl

section
variable {s : State} {c : Ctx} {p : Policy} (hpol : policyOf (c.u x) (c.u (nxt x)) = some p)
include hpol

/-- CURE without a trip. -/
theorem cureBody_pass (h : ∀ t ∈ c.ts, (cureThread c a b g rm ty (if hi then 1 else 0) p t).trip = false) :
    cureBody s d a b g rm ty hi x st c =
      fpThreads (if c.diverging then s else cureCst s c (cureThread c a b g rm ty (if hi then 1 else 0) p)) c (cureForm d a b g ty hi x st)
        (if ty == .f64 then 16 else 12) (cureOut c d ty hi (cureThread c a b g rm ty (if hi then 1 else 0) p)) (pairFmt (ty == .f64)) := by
  simp only [cureBody, hpol]
  rw [List.filter_eq_nil_iff.2 fun t ht => Bool.eq_false_iff.1 (h t ht)]

/-- CURE with a trip, of thread t at the lowest. -/
theorem cureBody_trip {t : Nat} (h : (c.ts.filter (fun t => (cureThread c a b g rm ty (if hi then 1 else 0) p t).trip)).head? = some t) :
    cureBody s d a b g rm ty hi x st c = .trap (cureCst s c (cureThread c a b g rm ty (if hi then 1 else 0) p))
      (trapThread (if (cureThread c a b g rm ty (if hi then 1 else 0) p t).fail then 0x080#9 else 0x081#9) t
        (c.ts.filter (fun t => (cureThread c a b g rm ty (if hi then 1 else 0) p t).trip)).length 0) := by
  obtain ⟨ts, hts⟩ := List.head?_eq_some_iff.1 h
  simp only [cureBody, hpol]
  rw [hts]
  rfl

end

theorem landsAs_cure (c : Ctx) (r : Nat → CurePass) : LandsAs c.br (c.ts.flatMap (fun t => (cureOut c d ty hi r t).1))
    (if ty == .f64 then (regsOf c.br).put64 c d (fun t => BitVec.ofNat 64 (r t).bits) (fun t => !(r t).pass)
     else (regsOf c.br).putChosen c d (fun y => y == if hi then 1 else 0)
       (fun t _ => c.newHalf (BitVec.ofNat 32 (r t).bits) (!(r t).pass))) := by
  unfold cureOut
  split
  · exact landsAs_laneWrites64 c d _ _
  · exact landsAs_chosen c d (by cases hi <;> decide) (fun t => c.newHalf (BitVec.ofNat 32 (r t).bits) (!(r t).pass))

theorem cureOut_flags (c : Ctx) (r : Nat → CurePass) : (fun t => (cureOut c d ty hi r t).2) = fun t => (r t).fl := by
  funext t
  unfold cureOut
  split <;> rfl

end

/-- Settles O18: what a pass computes, then form by form; with a fault armed the split still stands behind its form. -/
theorem cureAndFlagForms : Obligations.CureAndFlagForms := by
  unfold Obligations.CureAndFlagForms
  refine ⟨?_, ?_, ?_, ?_, ?_, ?_, ?_, ?_, ?_⟩
  · intro f m p0 p1 p cst x r g hpol q tol cf last finite stuck
    have hp := policyOf_holds hpol
    have hstuck : cureStuck p cst x r g = true ↔ stuck := cureStuck_iff hp cst x r g
    have hfail := curePass_fail_eq (f := f) (m := m) (p := p) cst x r g
    refine ⟨curePass_pass_iff hp cst x r g, fun hfin hf => curePass_rounded cst x r g hfin ?_, curePass_invalid cst x r g, rfl, rfl,
      fun hq hs => ?_, fun h => ?_, ?_, ?_⟩
    · rcases hf with rfl | rfl
      · exact Fmt.sound_of_fmtOf (ty := .f32) rfl
      · exact Fmt.sound_of_fmtOf (ty := .f64) rfl
    · rw [hfail, if_neg (Bool.eq_false_iff.1 hq), if_pos (hstuck.2 hs)]
    · rw [hfail]
      rcases h with h | h
      · exact if_pos h
      · rw [if_neg (mt hstuck.1 h), ite_self]
    · exact congrArg (fun n => decide (n < q.cst.fail)) hp.grace
    · rw [← hp.grace, ← hp.maxp, curePass_trip_eq, Bool.and_eq_true, Bool.not_eq_true', Bool.or_eq_true, decide_eq_true_eq,
        decide_eq_true_eq]
  · intro d a b g rm ty hi sp st s c i e rs f hIss
    obtain ⟨-, hb, -⟩ := focusOf_eq_some.1 hIss.1
    refine ⟨fun hnone => traps_of_trap hIss (exec_cure s) (by rw [cureBody, hnone]), ?_⟩
    intro p hpol r
    have hcst : cureCst s c r = modBrick s c.b (fun br => { br with cst := cureCsts c r }) := modBrick_congr hb rfl
    refine ⟨cureCsts c r, tabGetD_cureCsts c r, fun t n ht hn => ?_, fun htrip hh => ?_⟩
    · subst hn
      exact trapsWith_of_trap hIss (exec_cure s) (by rw [cureBody_trip hpol ht, hcst])
    · have hdiv : c.diverging = false := diverging_of_healthy hh
      refine retires_of_done hIss (exec_cure s) (cureBody_pass hpol htrip) ⟨_, landsAs_cure c r, ?_⟩
      rw [hdiv, if_neg Bool.false_ne_true, pushFp_healthy hh, hcst, cureOut_flags]
      rfl
  · intro d st s c hi hpend hd
    exact retires_fixed hi hd rfl (if_neg (by simp [hpend])) (landsAs_laneWrites64 c d _ _)
  · intro k st s c hi hpend
    obtain ⟨-, hb, -⟩ := focusOf_eq_some.1 hi.1
    refine retires_of_done hi rfl (if_neg (by simp [hpend])) ⟨_, modBrick_congr hb rfl, fun t => ?_⟩
    exact tabGetD_foldl_set flagNone (fun _ x => x &&& ~~~k) c.ts (threadsOf_nodup _) c.br.fx t
  · intro st s c hi
    obtain ⟨-, hb, -⟩ := focusOf_eq_some.1 hi.1
    refine retires_of_done hi rfl rfl ⟨_, modBrick_congr hb rfl, fun t => ?_⟩
    exact tabGetD_foldl_set Cst.start (fun _ _ => Cst.start) c.ts (threadsOf_nodup _) c.br.cst t
  · intro st s c hi
    exact standsBehind_of_done hi rfl rfl (modBrick_splits s c.b fun _ => rfl)
  · intro d st s c hi hpend
    exact standsBehind_of_done hi rfl (if_neg (by simp [hpend])) (pushPend_splits s c _ _ _ _ _)
  · intro k st s c hi hpend
    exact standsBehind_of_done hi rfl (if_neg (by simp [hpend])) (modBrick_splits s c.b fun _ => rfl)
  · intro d a b g rm ty hi x st s c p rs f hIss hpol htrip
    refine standsBehind_of_done hIss (exec_cure s) (cureBody_pass hpol htrip) ((pushFp_splits _ c _ _ _ _ _ _ _).trans ?_)
    split
    · rfl
    · exact modBrick_splits s c.b fun _ => rfl

end Sys2Proof.Machine

/-!
What looking up a landing point changes (O50): the search only walks, so that the brick that enters its slot is the one that looked.
-/
namespace Sys2Proof.Machine

theorem Walked.refl (s : State) : Walked s s := rfl

theorem Walked.trans {s t u : State} (h : Walked s t) (h' : Walked t u) : Walked s u :=
  Eq.trans h' (congrArg (fun x : State => { x with
    tlb := u.tlb, free := u.free, pairs := u.pairs, mmeta := u.mmeta, lmeta := u.lmeta, dies := u.dies, sent := u.sent }) h)

theorem Walked.bricks_eq {s t : State} (h : Walked s t) : t.bricks = s.bricks := by
  unfold Walked at h
  rw [h]

theorem putMeta_walked (s : State) (l : Loc) (m : LineMeta) : Walked s (putMeta s l m) := by
  unfold Walked
  cases l with
  | loc core off => rfl
  | phys pa =>
    simp only [putMeta]
    split <;> rfl

theorem logAdd_walked (s : State) (die kind strct : Nat) (core : Option Nat) (loc : Nat) : Walked s (logAdd s die kind strct core loc) := rfl

theorem checkLine_walked (s : State) (l : Loc) : Walked s (checkLine s l).1 := by
  unfold checkLine
  simp only
  split
  · exact Walked.refl s
  · exact (putMeta_walked s l _).trans (logAdd_walked _ _ _ _ _ _)
  · split
    · exact putMeta_walked s l _
    · exact (putMeta_walked s l _).trans (logAdd_walked _ _ _ _ _ _)

theorem observe_walked (s : State) (who : Option Nat) (l : Loc) (n : Nat) : Walked s (observe s who l n) := by
  rw [observe_eq]
  rfl

theorem noteRead_walked (s : State) (l : Loc) (n : Nat) : Walked s (noteRead s l n) := by
  rw [noteRead, sendOut_eq]
  rfl

theorem readTable_walked (s : State) (pa : Nat) : Walked s (readTable s pa).1 := by
  unfold readTable
  split
  · exact Walked.refl s
  · exact Walked.trans (u := observe (checkLine s (Loc.phys pa).line).1 none (.phys pa) 8) (checkLine_walked s _) (observe_walked _ none _ 8)

theorem tableEntry_walked (s : State) (cache die asid shift tag pa : Nat) : Walked s (tableEntry s cache die asid shift tag pa).1 := by
  have h := readTable_walked s pa
  unfold tableEntry
  split <;> rename_i hr <;> rw [hr] at h
  · exact h
  · simp only
    split
    · split <;> exact h.trans rfl
    · split
      · exact h.trans rfl
      · exact h

theorem walkFrom_walked (cache die asid va : Nat) (levels : List (Nat × Nat)) : ∀ s table,
    Walked s (walkFrom s cache die asid va levels table).1 := by
  induction levels with
  | nil => exact fun s _ => Walked.refl s
  | cons x levels ih =>
    intro s table
    have h := tableEntry_walked s cache die asid x.1 (va / 2 ^ x.1) (table + 8 * (va / 2 ^ x.1 % 2 ^ x.2))
    unfold walkFrom
    split <;> rename_i ht <;> rw [ht] at h
    · exact h
    · split
      · exact h
      · exact h
      · exact h
      · exact h
      · exact h.trans (ih _ _)

theorem rootOf_walked (s : State) (asid : Nat) : Walked s (rootOf s asid).1 := by
  have h := readTable_walked s (s.asidTab.toNat / 2 ^ 12 % 2 ^ 44 * 2 ^ 12 + 8 * asid)
  unfold rootOf
  split <;> rename_i hr <;> rw [hr] at h
  · exact h
  · split <;> exact h

theorem translate_walked (s : State) (cache die asid : Nat) (prv : Bool) (kind va : Nat) :
    Walked s (translate s cache die asid prv kind va).1 := by
  have hroot := rootOf_walked s asid
  unfold translate
  split <;> rename_i hr <;> rw [hr] at hroot
  · exact hroot
  · rename_i s1 root
    have hwalk := hroot.trans (walkFrom_walked cache die asid va walkLevels s1 root)
    split <;> rename_i hw <;> rw [hw] at hwalk
    · exact hwalk
    · exact hwalk
    · exact hwalk
    · simp only
      split
      · exact hwalk
      · split <;> exact hwalk

theorem brickTranslate_walked (s : State) (c : Ctx) (kind va : Nat) : Walked s (brickTranslate s c kind va).1 := by
  unfold brickTranslate
  split
  · split
    · exact Walked.refl s
    · exact translate_walked _ _ _ _ _ _ _
  · exact translate_walked _ _ _ _ _ _ _

theorem landing_walked (s : State) (c : Ctx) (v : W64) : Walked s (landing s c v).1 := by
  have h := brickTranslate_walked s c kExec v.toNat
  unfold landing
  split
  · exact Walked.refl s
  · split <;> rename_i ht <;> rw [ht] at h
    · exact h
    · exact h
    · rename_i s1 pa
      split
      · exact h
      · split
        · exact h
        · have hread := (h.trans (noteRead_walked s1 (.phys pa) 4)).trans (checkLine_walked _ (Loc.phys pa).line)
          simp only
          split <;> exact hread

end Sys2Proof.Machine

/-!
What the end of a killed brick leaves of bricks (O50). Objects that are served leave of a brick all but its flights and what its splits wait
for (`Serves`), so that nothing opens again what the kill has closed.
-/
namespace Sys2Proof.Machine

/-! ### Objects that are served -/

/-- What serving objects leaves of a brick: all but its flights and its splits, and whether it has splits. -/
def Brick.served (br : Brick) : Brick × Bool := ({ br with flights := [], splits := [] }, br.splits.isEmpty)

/-- Of every brick, t differs from s only in flights and in what splits wait for. -/
def Serves (s t : State) : Prop := ∀ b, (tabGet? t.bricks b).map Brick.served = (tabGet? s.bricks b).map Brick.served

theorem Serves.trans {s t u : State} (h : Serves s t) (h' : Serves t u) : Serves s u := fun b => (h' b).trans (h b)

theorem serves_of_bricks {s t : State} (h : t.bricks = s.bricks) : Serves s t := fun b => by rw [h]

theorem Walked.serves {s t : State} (h : Walked s t) : Serves s t := serves_of_bricks h.bricks_eq

theorem Serves.brick {s t : State} {b : Nat} {br : Brick} (h : Serves s t) (hb : HasBrick s b br) :
    ∃ br', HasBrick t b br' ∧ br'.served = br.served := by
  have := h b
  rwa [hb, Option.map_some, Option.map_eq_some_iff] at this

theorem serves_foldl {α : Type} {f : State → α → State} (h : ∀ s x, Serves s (f s x)) (l : List α) : ∀ s, Serves s (l.foldl f s) := by
  induction l with
  | nil => exact fun _ _ => rfl
  | cons x l ih => exact fun s => (h s x).trans (ih _)

theorem serves_modBrick (s : State) (b : Nat) {g : Brick → Brick} (h : ∀ br, (g br).served = br.served) : Serves s (modBrick s b g) := by
  intro b'
  rw [tabGet?_modBrick]
  split
  · rename_i he
    rw [Option.map_map, he]
    exact congrArg (Option.map · _) (funext h)
  · rfl

theorem serves_mapBricks (s : State) {g : Nat → Brick → Brick} (h : ∀ b br, (g b br).served = br.served) : Serves s (mapBricks s g) := by
  intro b
  rw [mapBricks, tabGet?_map, Option.map_map]
  exact congrArg (Option.map · _) (funext (h b))

theorem serves_setOp (s : State) (b k : Nat) (op : WaitOp) : Serves s (setOp s b k op) :=
  serves_modBrick s b fun br => congrArg (Prod.mk _) (isEmpty_tabMod br.splits k _)

@[simp] theorem putBar_bricks (s : State) (o : ObjRef) (x : Barrier) : (putBar s o x).bricks = s.bricks := by cases o <;> rfl

@[simp] theorem putHod_bricks (s : State) (o : ObjRef) (x : Hod) : (putHod s o x).bricks = s.bricks := by cases o <;> rfl

theorem serves_putHod (s : State) (o : ObjRef) (x : Hod) : Serves s (putHod s o x) := serves_of_bricks (putHod_bricks s o x)

theorem checkLines_walked (ls : List Loc) : ∀ s, Walked s (checkLines s ls).1 := by
  induction ls with
  | nil => exact Walked.refl
  | cons l ls ih => exact fun s => (checkLine_walked s l).trans (ih _)

theorem serves_takeSlot (s : State) (o : ObjRef) (b : Nat) : Serves s (takeSlot s o b).1 := by
  have hc := (checkLines_walked ((List.range ((hodAt s o).s / 64)).map (fun i => (hodSlotLoc s o (hodAt s o).head).add (64 * i))) s).serves
  unfold takeSlot
  simp only
  split <;> rename_i h <;> rw [h] at hc
  · exact hc
  · exact hc.trans (serves_putHod _ o _)

theorem serves_serveCons (o : ObjRef) (l : List (Nat × Nat)) : ∀ s, Serves s (serveCons o l s) := by
  induction l with
  | nil => exact fun _ _ => rfl
  | cons x l ih =>
    intro s
    have hput (h : Hod) := serves_putHod s o h
    unfold serveCons
    simp only
    split
    · split
      · have ht := (hput { hodAt s o with cons := l }).trans (serves_takeSlot _ o x.1)
        split <;> rename_i h <;> rw [h] at ht <;> exact (ht.trans (serves_setOp _ _ _ _)).trans (ih _)
      · split
        · exact ((hput _).trans (serves_setOp _ _ _ _)).trans (ih _)
        · exact fun _ => rfl
    · exact fun _ => rfl

theorem serves_finishFlight (s : State) (b seq : Nat) : Serves s (modBrick s b (fun br => finishFlight br seq)) :=
  serves_modBrick s b fun _ => rfl

theorem serves_giveSlot (s : State) (b seq n : Nat) (tEnd : Option Nat) : Serves s (giveSlot s b seq n tEnd) :=
  serves_modBrick s b fun _ => rfl

theorem serves_serveProds (o : ObjRef) (l : List (Nat × Nat)) : ∀ s, Serves s (serveProds o l s) := by
  induction l with
  | nil => exact fun _ _ => rfl
  | cons x l ih =>
    intro s
    have hput (h : Hod) := serves_putHod s o h
    unfold serveProds
    simp only
    split
    · split
      · exact (((hput _).trans (serves_finishFlight _ _ _)).trans (serves_setOp _ _ _ _)).trans (ih _)
      · split
        · exact ((((hput _).trans (serves_putHod _ o _)).trans (serves_giveSlot _ _ _ _ _)).trans (serves_setOp _ _ _ _)).trans (ih _)
        · exact fun _ => rfl
    · exact fun _ => rfl

theorem serves_serveHod (s : State) (o : ObjRef) : Serves s (serveHod s o) :=
  (serves_serveCons o _ s).trans (serves_serveProds o _ _)

@[simp] theorem voteBar_bricks (s : State) (o : ObjRef) : (voteBar s o).bricks = s.bricks := by
  unfold voteBar
  simp only
  split
  · rfl
  · split <;> exact putBar_bricks s o _

theorem serves_releaseBar (s : State) (o : ObjRef) (sel : Option Nat → Bool) (cleared : Brick → Nat) (status : BitVec 9) :
    Serves s (releaseBar s o sel cleared status) :=
  serves_mapBricks s fun _ _ => congrArg (Prod.mk _) List.isEmpty_map

theorem serves_killBar (b launch : Nat) (s : State) (o : ObjRef) : Serves s (killBar s b launch o) := by
  have hvote := serves_of_bricks (voteBar_bricks s o)
  unfold killBar
  simp only
  split
  · exact hvote
  · split
    · exact (hvote.trans (serves_of_bricks (putBar_bricks _ o _))).trans (serves_releaseBar _ o _ _ _)
    · exact hvote

/-- A kill takes effect on the objects of the brick. -/
theorem serves_endObjects (s : State) (b : Nat) : Serves s (endObjects s b true) := by
  unfold endObjects
  split
  · exact fun _ => rfl
  · rename_i br _
    have hrows : Serves s (commitCells (leaveHods (returnRows s br) b) b) := fun _ => rfl
    have hhods := hrows.trans (serves_foldl serves_serveHod (hodsOf (commitCells (leaveHods (returnRows s br) b) b) br.launch) _)
    simp only [if_true]
    refine Serves.trans ?_ (serves_foldl (serves_killBar b br.launch) _ _)
    split <;> exact hhods

/-! ### The flights of a killed brick -/

theorem foldl_putByte_bricks (ws : List WByte) : ∀ s, (ws.foldl (fun s w => putByte s w.loc w.x) s).bricks = s.bricks := by
  induction ws with
  | nil => exact fun _ => rfl
  | cons w ws ih => exact fun s => (ih _).trans (putByte_bricks _ w.loc w.x)

theorem writeLine_bricks (s : State) (line : Loc) (ws : List WByte) (gov atomic : Bool) :
    (writeLine s line ws gov atomic).bricks = s.bricks := by
  have hcheck := (checkLine_walked s line).bricks_eq
  unfold writeLine
  simp only
  split
  · exact (putMeta_bricks _ line _).trans (foldl_putByte_bricks ws s)
  · split
    · exact hcheck
    · exact (putMeta_bricks _ line _).trans ((foldl_putByte_bricks ws _).trans hcheck)

theorem writeAll_bricks (s : State) (ws : List WByte) (gov atomic : Bool) : (writeAll s ws gov atomic).bricks = s.bricks := by
  unfold writeAll
  generalize linesOf ws = ls
  induction ls generalizing s with
  | nil => rfl
  | cons l ls ih => exact (ih _).trans (writeLine_bricks s l _ gov atomic)

theorem writeSlot_bricks (lines : List (List Byte × Bool)) : ∀ s l, (writeSlot s l lines).bricks = s.bricks := by
  induction lines with
  | nil => exact fun _ _ => rfl
  | cons x lines ih => exact fun s l => (ih _ _).trans (writeAll_bricks s _ x.2 false)

theorem serves_fillSlot (s : State) (o : ObjRef) (n : Nat) (lines : List (List Byte × Bool)) : Serves s (fillSlot s o n lines) :=
  ((serves_of_bricks (writeSlot_bricks lines s (hodSlotLoc s o n))).trans (serves_putHod _ o _)).trans (serves_serveHod _ o)

theorem serves_zeroFill (s : State) (f : Flight) (o : ObjRef) (n : Nat) : Serves s (zeroFill s f o n).1 := by
  unfold zeroFill
  split
  · exact fun _ => rfl
  · exact serves_fillSlot s o n _

theorem serves_stopCopy (s : State) (f : Flight) (id : Nat) : Serves s (stopCopy s f id).1 := by
  unfold stopCopy
  split
  · exact fun _ => rfl
  · simp only
    split
    · exact Serves.trans (t := { s with copies := tabDel s.copies id }) (fun _ => rfl) (serves_zeroFill _ f _ _)
    · exact fun _ => rfl

theorem serves_killFlight (s : State) (f : Flight) : Serves s (killFlight s f).1 := by
  unfold killFlight
  simp only
  split
  · exact fun _ => rfl
  · split
    · cases f.kind with
      | copy id =>
        simp only
        split
        · split
          · exact serves_stopCopy s f id
          · split <;> exact fun _ => rfl
        · exact fun _ => rfl
      | hodPut o n src green => cases n <;> exact fun _ => rfl
      | _ => exact fun _ => rfl
    · cases f.kind with
      | copy id => exact serves_stopCopy s f id
      | copyWait id => exact serves_stopCopy s f id
      | hodPut o n src green =>
        cases n with
        | none => exact fun _ => rfl
        | some n => exact serves_zeroFill s f o n
      | aon pa va twin puts tw gov n stage =>
        simp only
        split <;> exact fun _ => rfl
      | tlbi all base len asid sp removed waits => cases removed <;> exact fun _ => rfl
      | _ => exact fun _ => rfl

theorem serves_killFlights (l : List Flight) : ∀ s, Serves s (killFlights s l).1 := by
  induction l with
  | nil => exact fun _ _ => rfl
  | cons f l ih => exact fun s => (serves_killFlight s f).trans (ih _)

/-! ### A killed brick -/

/-- A killed brick, of which nothing is left to issue, to land or to report. -/
def Brick.Over (br : Brick) : Prop :=
  br.killed = true ∧ br.alive = false ∧ br.splits = [] ∧ br.pend = [] ∧ br.marks = [] ∧ br.trap = none

theorem Brick.closeKilled_over (br : Brick) (kept : List Flight) : (br.closeKilled kept).Over := ⟨rfl, rfl, rfl, rfl, rfl, rfl⟩

theorem Brick.Over.of_served {br br' : Brick} (h : br.Over) (hs : br'.served = br.served) : br'.Over := by
  obtain ⟨hkilled, halive, hsplits, hpend, hmarks, htrap⟩ := h
  have hrest := congrArg Prod.fst hs
  refine ⟨(congrArg Brick.killed hrest).trans hkilled, (congrArg Brick.alive hrest).trans halive, ?_,
    (congrArg Brick.pend hrest).trans hpend, (congrArg Brick.marks hrest).trans hmarks, (congrArg Brick.trap hrest).trans htrap⟩
  have hempty : br'.splits.isEmpty = br.splits.isEmpty := congrArg Prod.snd hs
  rwa [hsplits, List.isEmpty_nil, List.isEmpty_iff] at hempty

theorem killBrick_over {s : State} {b : Nat} {br : Brick} (hb : HasBrick s b br) (halive : br.alive = true) (cause : BitVec 9) (strct : Nat) :
    ∃ br', HasBrick (killBrick s b cause strct) b br' ∧ br'.Over := by
  unfold killBrick
  simp only [hb, halive, Bool.not_true, Bool.false_eq_true, if_false]
  generalize hfreed : leaveQueues _ b = freed
  have hb1 : HasBrick freed b br := hfreed ▸ hb
  obtain ⟨br1, hb1, -⟩ := (serves_killFlights br.flights freed).brick hb1
  generalize killFlights freed br.flights = k at hb1 ⊢
  generalize hcopies : ({ k.1 with copies := _ } : State) = u
  have hb1 : HasBrick u b br1 := hcopies ▸ hb1
  have hclosed := modBrick_brick hb1 (fun br => br.closeKilled k.2)
  split
  · exact ⟨_, modBrick_brick hclosed _, br1.closeKilled_over k.2⟩
  · obtain ⟨br', hb', hs⟩ := (serves_endObjects _ b).brick hclosed
    exact ⟨br', hb', (br1.closeKilled_over k.2).of_served hs⟩

end Sys2Proof.Machine

/-!
O50. Flags and the window, a divergence, the words of a report, and the entry into the slot: each says what its brick becomes.
-/
namespace Sys2Proof.Machine

/-! ### The flags of a form -/

/-- The brick once the flags of a form are written: the form waits no more, and they are in FX. -/
def Brick.flagged (br : Brick) (p : FxPend) : Brick := orFxAll { br with fxq := br.fxq.erase p } p.fx

/-- What a form raises in a collection window. -/
def FxPend.exc (p : FxPend) : WinExc := { pc := p.pc, two := p.two, split := p.split, fx := p.fx, ten := p.ten, seq := p.seq }

theorem orFxAll_eq (l : List (Nat × Flags)) : ∀ br, orFxAll br l = { br with fx := (orFxAll br l).fx } := by
  induction l with
  | nil => exact fun _ => rfl
  | cons x l ih => exact fun br => ih (orFx br x.1 x.2)

theorem Brick.flagged_eq (br : Brick) (p : FxPend) : br.flagged p = { br with fxq := br.fxq.erase p, fx := (br.flagged p).fx } :=
  orFxAll_eq p.fx _

theorem fxOf_orFxAll (l : List (Nat × Flags)) (i : Nat) : ∀ br,
    (orFxAll br l).fxOf i = l.foldl (fun fl x => if x.1 = i then fl ||| x.2 else fl) (br.fxOf i) := by
  induction l with
  | nil => exact fun _ => rfl
  | cons x l ih =>
    intro br
    have hx : (orFx br x.1 x.2).fxOf i = if x.1 = i then br.fxOf i ||| x.2 else br.fxOf i := by
      rw [orFx, Brick.fxOf, tabGetD_set]
      by_cases h : x.1 = i
      · rw [if_pos h.symm, if_pos h, h]
      · rw [if_neg (Ne.symm h), if_neg h, Brick.fxOf]
    exact (ih _).trans (by rw [hx, List.foldl_cons])

theorem Brick.orFxAll_flagged (br : Brick) (p : FxPend) : orFxAll { br with fxq := br.fxq.erase p } p.fx = br.flagged p := rfl

@[simp] theorem Brick.flagged_fxq (br : Brick) (p : FxPend) : (br.flagged p).fxq = br.fxq.erase p := by rw [br.flagged_eq p]
@[simp] theorem Brick.flagged_window (br : Brick) (p : FxPend) : (br.flagged p).window = br.window := by rw [br.flagged_eq p]
@[simp] theorem Brick.flagged_winExc (br : Brick) (p : FxPend) : (br.flagged p).winExc = br.winExc := by rw [br.flagged_eq p]
@[simp] theorem Brick.flagged_trap (br : Brick) (p : FxPend) : (br.flagged p).trap = br.trap := by rw [br.flagged_eq p]

/-- A form's flags are enabled in some thread. -/
def FxPend.raises (p : FxPend) : Prop := ∃ x ∈ p.fx, x.2 &&& p.ten ≠ flagNone

theorem enabledFx_isEmpty_iff (p : FxPend) : (enabledFx p.ten p.fx).isEmpty = true ↔ ¬ p.raises := by
  simp [enabledFx, FxPend.raises]

section
variable {s : State} {b : Nat} {br : Brick} (hb : HasBrick s b br) {p : FxPend}
include hb

/-- Without an enabled exception the flags stand alone. -/
theorem writeFx_quiet (h : ¬ p.raises) : HasBrick (writeFx s b p) b (br.flagged p) := by
  refine (modBrick_brick hb _).trans (congrArg some ?_)
  exact if_pos ((enabledFx_isEmpty_iff p).2 h)

/-- An enabled exception joins the window that stands. -/
theorem writeFx_joins (h : p.raises) {w : Nat} (hw : br.window = some w) (hclk : s.clk < w + 16) :
    HasBrick (writeFx s b p) b { br.flagged p with winExc := br.winExc ++ [p.exc] } := by
  refine (modBrick_brick hb _).trans (congrArg some ?_)
  dsimp only
  rw [Brick.orFxAll_flagged]
  simp only [Brick.flagged_window, Brick.flagged_winExc, enabledFx_isEmpty_iff, h, hw, hclk, not_true, if_false, if_true]
  rfl

/-- It opens a window where the brick has neither one nor a trap. -/
theorem writeFx_opens (h : p.raises) (hw : br.window = none) (ht : br.trap = none) :
    HasBrick (writeFx s b p) b { br.flagged p with window := some s.clk, winExc := [p.exc] } := by
  refine (modBrick_brick hb _).trans (congrArg some ?_)
  dsimp only
  rw [Brick.orFxAll_flagged]
  simp only [Brick.flagged_window, Brick.flagged_trap, enabledFx_isEmpty_iff, h, hw, ht, not_true, if_false,
    Option.isSome_none, Bool.false_eq_true]
  rfl

/-- Behind another trap it only counts as another exception. -/
theorem writeFx_behind (h : p.raises) (hw : br.window = none) {r : TrapRec} (ht : br.trap = some r) :
    HasBrick (writeFx s b p) b
      { br.flagged p with trap := some (r.another p.pc), late := (br.flagged p).late.map (·.another p.pc) } := by
  refine (modBrick_brick hb _).trans (congrArg some ?_)
  dsimp only
  rw [Brick.orFxAll_flagged]
  simp only [Brick.flagged_window, Brick.flagged_trap, enabledFx_isEmpty_iff, h, hw, ht, not_true, if_false, if_true,
    Option.isSome_some, Option.map_some]

end

theorem closeDue_early {s : State} {b : Nat} {br : Brick} (hb : HasBrick s b br) (hw : ∀ w, br.window = some w → s.clk < w + 16) :
    closeDue s b = s := by
  have hearly : br.window.any (fun w => decide (w + 16 ≤ s.clk)) = false := by
    cases h : br.window with
    | none => rfl
    | some w => simpa using hw w h
  unfold closeDue
  simp only [hb, hearly, Bool.false_eq_true, if_false]

/-- FX_FLAG_WRITE of a form whose flags are due, before any window is. -/
theorem writeFx_spec {s : State} {b : Nat} {br : Brick} {p : FxPend} (hb : HasBrick s b br)
    (hw : ∀ w, br.window = some w → s.clk < w + 16) : ∃ br', HasBrick (writeFx s b p) b br' ∧
      br'.fxq = br.fxq.erase p ∧ br'.fx = (br.flagged p).fx ∧
      (¬ p.raises → br'.window = br.window ∧ br'.winExc = br.winExc ∧ br'.trap = br.trap) ∧
      (p.raises → (br.window = none → br.trap = none → br'.window = some s.clk ∧ br'.winExc = [p.exc]) ∧
        ∀ w, br.window = some w → br'.window = some w ∧ br'.winExc = br.winExc ++ [p.exc]) := by
  by_cases h : p.raises
  · cases hwin : br.window with
    | some w =>
      refine ⟨_, writeFx_joins hb h hwin (hw w hwin), br.flagged_fxq p, rfl, fun hn => absurd h hn, fun _ => ⟨nofun, fun v hv => ?_⟩⟩
      exact ⟨(br.flagged_window p).trans (hwin.trans hv), rfl⟩
    | none =>
      cases ht : br.trap with
      | none =>
        exact ⟨_, writeFx_opens hb h hwin ht, br.flagged_fxq p, rfl, fun hn => absurd h hn, fun _ => ⟨fun _ _ => ⟨rfl, rfl⟩, nofun⟩⟩
      | some r => exact ⟨_, writeFx_behind hb h hwin ht, br.flagged_fxq p, rfl, fun hn => absurd h hn, fun _ => ⟨nofun, nofun⟩⟩
  · exact ⟨_, writeFx_quiet hb h, br.flagged_fxq p, rfl, fun _ => ⟨br.flagged_window p, br.flagged_winExc p, br.flagged_trap p⟩,
      fun hr => absurd hr h⟩

/-! ### The report of a window -/

theorem flagCause_bounds (fl : Flags) : 0x040#9 ≤ flagCause fl ∧ flagCause fl ≤ 0x044#9 := by
  revert fl
  decide

/-- Some raised exceptions have a lowest one, whose cause is that of some flags. -/
theorem lowestPair_of_ne_nil {l : List (Nat × Flags × Nat)} (h : l ≠ []) : ∃ t fl k, lowestPair l = some (t, flagCause fl, k) := by
  cases l with
  | nil => exact absurd rfl h
  | cons x l => exact ⟨_, _, _, rfl⟩

/-- The lowest address of some exceptions. -/
def lowestPc (l : List WinExc) : Nat := (l.map (·.pc)).foldl min ((l.map (·.pc)).headD 0)

theorem lowestPc_le {l : List WinExc} {e : WinExc} (h : e ∈ l) : lowestPc l ≤ e.pc := by
  have hpc : e.pc ∈ l.map (·.pc) := List.mem_map_of_mem h
  rw [lowestPc, List.foldl_min_eq_min (List.ne_nil_of_mem hpc)]
  exact (min_le_right _ _).trans (List.min_le_of_mem hpc)

theorem windowRec_spec (s : State) (br : Brick) {l : List WinExc}
    (h : ∃ e ∈ l, e.pc = lowestPc l ∧ ∃ x ∈ e.fx, x.2 &&& e.ten ≠ flagNone) :
    ∃ r, windowRec s br l = some r ∧ r.cycle = s.clk ∧ r.prec = false ∧ r.fatal = false ∧ 0x040#9 ≤ r.cause ∧ r.cause ≤ 0x044#9 ∧
      r.addr = lowestPc l ∧ r.more = l.any (fun e => e.pc != lowestPc l) := by
  obtain ⟨e, he, hpc, x, hx, hen⟩ := h
  have hraised : (l.filter (fun e => e.pc == lowestPc l)).flatMap
      (fun e => (enabledFx e.ten e.fx).map (fun x => (x.1, x.2 &&& e.ten, e.split))) ≠ [] := by
    refine List.ne_nil_of_mem (a := (x.1, x.2 &&& e.ten, e.split)) (List.mem_flatMap.2 ⟨e, List.mem_filter.2 ⟨he, beq_iff_eq.2 hpc⟩, ?_⟩)
    exact List.mem_map.2 ⟨x, List.mem_filter.2 ⟨hx, bne_iff_ne.2 hen⟩, rfl⟩
  obtain ⟨t, fl, k, hlow⟩ := lowestPair_of_ne_nil hraised
  obtain ⟨hlo, hhi⟩ := flagCause_bounds fl
  unfold windowRec
  dsimp only
  rw [← lowestPc, hlow]
  exact ⟨_, rfl, rfl, rfl, rfl, hlo, hhi, rfl, rfl⟩

/-- The brick without its window. -/
def Brick.unwatched (br : Brick) : Brick := { br with window := none, winExc := [] }

theorem closeCollection_takes {s : State} {b : Nat} {br : Brick} {r : TrapRec} (hb : HasBrick s b br) (ht : br.trap = none)
    (hs : br.inSlot = false) (hr : windowRec s br br.winExc = some r) (hp : r.prec = false) :
    HasBrick (closeCollection s b br) b { br.unwatched with trap := some r } := by
  have hr : windowRec (modBrick s b fun br => { br with window := none, winExc := [] }) br br.winExc = some r := hr
  have he : closeCollection s b br = takeTrap (modBrick s b Brick.unwatched) b r := by
    unfold closeCollection
    simp only [ht, hr]
    rfl
  rw [he]
  refine (modBrick_brick (modBrick_brick hb _) _).trans (congrArg some ?_)
  simp [hp, ht, hs, Brick.unwatched]

/-! ### A divergence -/

theorem detect_takes {s : State} {b : Nat} {br : Brick} (hb : HasBrick s b br) (d : Diverged) (hs : br.inSlot = false) (ht : br.trap = none)
    (hk : br.killed = false) (hth : br.threads ≠ 0#32) :
    HasBrick (detect s b d) b { br with divq := br.divq.erase d, trap := some (divergenceRec s d) } := by
  have hb1 := modBrick_brick hb (fun br => { br with divq := br.divq.erase d })
  have he : detect s b d = queueTrap (modBrick s b (fun br => { br with divq := br.divq.erase d })) b (divergenceRec s d) := by
    unfold detect reportLate
    simp only
    rw [hb1]
    simp [hk, hs, hth]
    rfl
  rw [he]
  refine (modBrick_brick hb1 _).trans (congrArg some ?_)
  simp [ht, hs]

/-! ### The words of a report -/

theorem infoWord_toNat (r : TrapRec) : ∃ low < 2 ^ 45, (infoWord r).toNat = r.cause.toNat * 2 ^ 55 + r.two.toNat * 2 ^ 54 +
    r.prec.toNat * 2 ^ 53 + r.more.toNat * 2 ^ 52 + r.fatal.toNat * 2 ^ 51 + r.reg.toNat * 2 ^ 45 + low := by
  refine ⟨r.split % 4 * 2 ^ 43 + r.count % 64 * 2 ^ 37 + r.thread % 32 * 2 ^ 32, by omega, ?_⟩
  have hbit (x : Bool) (n : Nat) : (if x then n else 0) = x.toNat * n := by cases x <;> simp
  have hc := r.cause.isLt
  have hr := r.reg.isLt
  have h2 := r.two.toNat_le
  have hp := r.prec.toNat_le
  have hm := r.more.toNat_le
  have hf := r.fatal.toNat_le
  rw [infoWord, BitVec.toNat_ofNat, hbit, hbit, hbit, hbit, Nat.mod_eq_of_lt (by omega)]
  omega

theorem infoWord_fields (r : TrapRec) : (infoWord r).extractLsb' 55 9 = r.cause ∧ (infoWord r).getLsbD 54 = r.two ∧
    (infoWord r).getLsbD 53 = r.prec ∧ (infoWord r).getLsbD 52 = r.more ∧ (infoWord r).getLsbD 51 = r.fatal ∧
    (infoWord r).extractLsb' 45 6 = r.reg := by
  obtain ⟨low, hlow, hn⟩ := infoWord_toNat r
  have hc := r.cause.isLt
  have hr := r.reg.isLt
  have h2 := r.two.toNat_le
  have hp := r.prec.toNat_le
  have hm := r.more.toNat_le
  have hf := r.fatal.toNat_le
  have hget (i : Nat) (x : Bool) (h : (infoWord r).toNat / 2 ^ i % 2 = x.toNat) : (infoWord r).getLsbD i = x := by
    rw [← BitVec.testBit_toNat, Nat.testBit_eq_decide_div_mod_eq, h]
    cases x <;> rfl
  refine ⟨BitVec.eq_of_toNat_eq ?_, hget _ _ ?_, hget _ _ ?_, hget _ _ ?_, hget _ _ ?_, BitVec.eq_of_toNat_eq ?_⟩
  · rw [BitVec.extractLsb'_toNat, Nat.shiftRight_eq_div_pow, hn]; omega
  · rw [hn]; omega
  · rw [hn]; omega
  · rw [hn]; omega
  · rw [hn]; omega
  · rw [BitVec.extractLsb'_toNat, Nat.shiftRight_eq_div_pow, hn]; omega

/-! ### Entering the slot -/

theorem tabGet?_filter {α : Type} (q : Nat → Bool) (t : Tab α) (i : Nat) :
    tabGet? (t.filter (fun x => q x.1)) i = if q i then tabGet? t i else none := by
  induction t with
  | nil => simp
  | cons x t ih =>
    obtain ⟨k, v⟩ := x
    rw [tabGet?_cons]
    by_cases hk : i = k
    · subst hk
      cases hq : q i <;> simp [hq, ih, tabGet?_cons]
    · cases hq : q k <;> simp [hq, ih, tabGet?_cons, hk]

theorem half_dropBanked (br : Brick) {p i e : Nat} (hi : i < 32) (he : e < 2) :
    (dropBanked br).half p i e = if p < 64 then br.half p i e else Half.start := by
  have hkey : halfKey p i e < 64 * 64 ↔ p < 64 := by
    unfold halfKey
    omega
  rw [Brick.half, tabGetD, dropBanked, tabGet?_filter (fun k => decide (k < 64 * 64))]
  by_cases hp : p < 64
  · rw [if_pos hp, if_pos (decide_eq_true (hkey.2 hp))]
    rfl
  · rw [if_neg hp, if_neg (by simpa using mt hkey.1 hp)]
    rfl

/-- The splits of a brick that enters its slot, but for the handler's. -/
theorem tabGet?_entered (br : Brick) (r : TrapRec) (sp : Split) {k : Nat} (hk : k ≠ handlerSplit) :
    tabGet? (tabPut (tabMod br.splits r.split (spendFault r)) handlerSplit sp) k = (tabGet? br.splits k).map (fun sp =>
      if k = r.split ∧ r.atIssue = true ∧ r.cause = 0x144#9 then { sp with tapeFault := false } else sp) := by
  rw [tabGet?_put_ne _ _ hk, tabGet?_mod]
  by_cases h : k = r.split
  · rw [if_pos h, ← h]
    exact congrArg (Option.map · _) (funext fun sp => by simp [spendFault, h])
  · simp [h]

/-- A brick that enters its slot from a state that its look at the vector has left. -/
theorem enterSlot_spec {s s1 : State} {b : Nat} {br : Brick} (hb : HasBrick s b br) (hwalk : Walked s s1) (r : TrapRec) :
    ∃ br', HasBrick (enterSlot s1 b br r) b br' ∧
      Walked s { enterSlot s1 b br r with bricks := s.bricks, parts := s.parts } ∧
      (partOf (enterSlot s1 b br r) (partKey br.core br.part)).slot = some b ∧ br'.inSlot = true ∧ br'.trap = none ∧
      br'.info = infoWord r ∧ br'.addr = BitVec.ofNat 64 r.addr ∧ br'.tmask = r.mask.setWidth 64 ∧ br'.aux0 = r.aux0 ∧ br'.aux1 = r.aux1 ∧
      br'.ret = BitVec.ofNat 64 (resumeAt br r) ∧ br'.lane = (dropBanked br).lane ∧
      br'.splits = tabPut (tabMod br.splits r.split (spendFault r)) handlerSplit (handlerOf s1 br) ∧
      br'.tfault = if r.atIssue then spendAnswer r.split br.tfault else br.tfault := by
  have hb1 : HasBrick (modPart s1 (partKey br.core br.part) (fun p => { p with slot := some b })) b br :=
    (congrArg (tabGet? · b) hwalk.bricks_eq).trans hb
  refine ⟨_, modBrick_brick hb1 _, ?_, ?_, rfl, rfl, rfl, rfl, rfl, rfl, rfl, rfl, rfl, rfl, rfl⟩
  · exact congrArg (fun x : State => { x with bricks := s.bricks, parts := s.parts }) hwalk
  · have hpart := partOf_modPart s1 (partKey br.core br.part) (partKey br.core br.part) (fun p => { p with slot := some b })
    exact congrArg Part.slot (hpart.trans (if_pos rfl))

/-! ### The steps -/

section
variable {s : State} {b : Nat} {br : Brick} (hb : HasBrick s b br)
include hb

theorem exec_fxFlagWrite_idle (h : br.fxq.find? (fun p => decide (p.due ≤ s.clk)) = none) : exec (.fxFlagWrite b) s = .next s := by
  show execFxFlagWrite b s = _
  simp only [execFxFlagWrite, hb, h]

theorem exec_fxFlagWrite_due {p : FxPend} (h : br.fxq.find? (fun p => decide (p.due ≤ s.clk)) = some p)
    (hw : ∀ w, br.window = some w → s.clk < w + 16) : exec (.fxFlagWrite b) s = .next (writeFx s b p) := by
  show execFxFlagWrite b s = _
  simp only [execFxFlagWrite, hb, h, closeDue_early hb hw]

theorem exec_collectionWindowClose_idle (h : br.window = none ∨ ∃ w, br.window = some w ∧ s.clk < w + 16) :
    exec (.collectionWindowClose b) s = .next s := by
  show execCollectionWindowClose b s = _
  rcases h with h | ⟨w, h, hw⟩
  · simp only [execCollectionWindowClose, hb, h]
  · simp only [execCollectionWindowClose, hb, h, hw, if_true]

theorem exec_collectionWindowClose_due {w : Nat} (h : br.window = some w) (hw : w + 16 ≤ s.clk) :
    exec (.collectionWindowClose b) s = .next (closeCollection s b br) := by
  show execCollectionWindowClose b s = _
  simp only [execCollectionWindowClose, hb, h, Nat.not_lt.2 hw, if_false]

theorem exec_shadowDivergence_idle (h : br.divq.find? (fun d => decide (d.due ≤ s.clk)) = none) : exec (.shadowDivergence b) s = .next s := by
  show execShadowDivergence b s = _
  simp only [execShadowDivergence, hb, h]

theorem exec_shadowDivergence_due {d : Diverged} (h : br.divq.find? (fun d => decide (d.due ≤ s.clk)) = some d) :
    exec (.shadowDivergence b) s = .next (detect s b d) := by
  show execShadowDivergence b s = _
  simp only [execShadowDivergence, hb, h]

theorem exec_trapSlotEntry_none (h : br.trap = none) : exec (.trapSlotEntry b) s = .next s := by
  show execTrapSlotEntry b s = _
  simp only [execTrapSlotEntry, hb, h]

theorem exec_trapSlotEntry_some {r : TrapRec} (h : br.trap = some r) :
    exec (.trapSlotEntry b) s = .next (if slotReady s br then slotEntry s b br r else s) := by
  show execTrapSlotEntry b s = _
  simp only [execTrapSlotEntry, hb, h]

theorem exec_brickKill : exec (.brickKill b) s = .next (killBrick s b ((br.trap.map (·.cause)).getD 0) 31) := by
  show execBrickKill b s = _
  cases h : br.trap <;> simp only [execBrickKill, hb, h] <;> rfl

theorem killBrick_dead (h : br.alive = false) (cause : BitVec 9) (strct : Nat) : killBrick s b cause strct = s := by
  simp only [killBrick, hb, h, Bool.not_false, if_true]

end

/-- The entry of a brick whose vector is a landing point. -/
theorem slotEntry_lands {s s1 : State} {b : Nat} {br : Brick} {r : TrapRec} (hv : br.vec ≠ 0)
    (hl : landing s ⟨b, handlerSplit, br, handlerOf s br⟩ br.vec = (s1, .ok)) : slotEntry s b br r = enterSlot s1 b br r := by
  simp only [slotEntry, hv, if_false, hl]

theorem find?_due_eq_none {α : Type} {l : List α} {due : α → Nat} {clk : Nat} (h : ∀ x ∈ l, clk < due x) :
    l.find? (fun x => decide (due x ≤ clk)) = none :=
  List.find?_eq_none.2 fun x hx => by simpa using h x hx

/-- Settles O50, step by step: what each leaves of the brick is a lemma above. -/
theorem trapStepsComplete : Obligations.TrapStepsComplete := by
  unfold Obligations.TrapStepsComplete
  intro s b br hb
  refine ⟨?_, ?_, exec_collectionWindowClose_idle hb, ?_, ?_, ?_, ?_, exec_trapSlotEntry_none hb, ?_, ?_, ?_, ?_, ?_⟩
  · exact fun h => exec_fxFlagWrite_idle hb (find?_due_eq_none h)
  · intro p hp hw
    obtain ⟨br', hb', hfxq, hfx, hquiet, hraises⟩ := writeFx_spec hb hw
    refine ⟨_, br', exec_fxFlagWrite_due hb hp hw, hb', ⟨rfl, rfl, rfl, rfl, rfl⟩, hfxq, fun i => ?_, fun h => hquiet ?_, hraises⟩
    · exact (congrArg (tabGetD · i flagNone) hfx).trans (fxOf_orFxAll p.fx i _)
    · exact fun ⟨x, hx, hne⟩ => hne (h x hx)
  · intro w hw hclk ht hs hraised
    obtain ⟨r, hr, hcycle, hprec, hfatal, hlo, hhi, haddr, hmore⟩ := windowRec_spec s br hraised
    obtain ⟨e, he, hpc, -⟩ := hraised
    refine ⟨_, _, r, exec_collectionWindowClose_due hb hw hclk, closeCollection_takes hb ht hs hr hprec, rfl, rfl, rfl, hcycle, hprec, hfatal,
      hlo, hhi, ⟨e, he, hpc.trans haddr.symm⟩, fun e he => haddr ▸ lowestPc_le he, ?_⟩
    simp [hmore, haddr]
  · exact fun h => exec_shadowDivergence_idle hb (find?_due_eq_none h)
  · intro write bit rest hf
    show execControlScrub s = _
    rw [execControlScrub, hf]
    rfl
  · intro d hd hs ht hk hth
    exact ⟨_, _, divergenceRec s d, exec_shadowDivergence_due hb hd, detect_takes hb d hs ht hk hth, rfl, rfl, rfl, rfl, rfl, rfl, rfl, rfl,
      rfl, rfl⟩
  · intro r hr hready
    rw [exec_trapSlotEntry_some hb hr, hready]
    rfl
  · intro r hr hready hv
    rw [exec_trapSlotEntry_some hb hr, if_pos hready, slotEntry, if_pos hv]
  · intro r s1 hr hready hv hl
    have hwalk : Walked s s1 := by simpa only [hl] using landing_walked s ⟨b, handlerSplit, br, handlerOf s br⟩ br.vec
    obtain ⟨br', hb', hwalked, hslot, hin, htrap, hinfo, haddr, hmask, haux0, haux1, hret, hlane, hsplits, hanswer⟩ := enterSlot_spec hb hwalk r
    obtain ⟨hcause, htwo, hprec, hmore, hfatal, hreg⟩ := infoWord_fields r
    have hhalf (p i e : Nat) (hi : i < 32) (he : e < 2) : br'.half p i e = if p < 64 then br.half p i e else Half.start :=
      (congrArg (tabGetD · (halfKey p i e) Half.start) hlane).trans (half_dropBanked br hi he)
    rw [← hinfo] at hcause htwo hprec hmore hfatal hreg
    refine ⟨_, br', handlerOf s1 br, ?_, hb', hwalked, hslot, hin, htrap, hcause, htwo, hprec, hmore, hfatal, hreg, haddr, hmask, haux0,
      haux1, fun hp => ?_, fun p i e hp hi he => ?_, fun p i e hp hi he => ?_, ?_, rfl, rfl, rfl, rfl, fun k hk => ?_, hanswer⟩
    · rw [exec_trapSlotEntry_some hb hr, if_pos hready, slotEntry_lands hv hl]
    · rw [hret, resumeAt, hp]
      rfl
    · rw [hhalf p i e hi he, if_pos hp]
    · rw [hhalf p i e hi he, if_neg (Nat.not_lt.2 hp)]
    · rw [hsplits, tabGet?_put_self]
    · rw [hsplits, tabGet?_entered br r _ hk]
  · exact fun h => by rw [exec_brickKill hb, killBrick_dead hb h]
  · intro h
    obtain ⟨br', hb', hkilled, halive, hsplits, hpend, hmarks, htrap⟩ := killBrick_over hb h ((br.trap.map (·.cause)).getD 0) 31
    exact ⟨_, br', exec_brickKill hb, rfl, hb', hkilled, halive, hsplits, hpend, hmarks, htrap⟩

end Sys2Proof.Machine

/-!
O28. An indirect target: two conditions on the value, then one answer for each of what its translation and the line of its word can say.
-/
namespace Sys2Proof.Machine

/-! ### The word of a LAND (R164) -/

theorem isLandWord_iff_decode (w : IWord) : isLandWord w.toNat = true ↔ ∃ k, decodeWords w 0 = .instr (.land k) := by
  have hword : ∀ k : BitVec 3, (mkWord 10#4 (RawB.toBits ⟨8#4, 0#6, 0#15⟩) k).toNat = 0xA8000000 + k.toNat := by decide
  constructor
  · intro h
    have hw : w.toNat / 8 = 0xA8000000 / 8 := beq_iff_eq.1 h
    have he : w = mkWord 10#4 (RawB.toBits ⟨8#4, 0#6, 0#15⟩) (BitVec.ofNat 3 w.toNat) := by
      refine BitVec.eq_of_toNat_eq ?_
      rw [hword, BitVec.toNat_ofNat]
      omega
    exact ⟨_, (congrArg (decodeWords · 0) he).trans (decodeWords_UB _ _ _)⟩
  · rintro ⟨k, hk⟩
    have he := congrArg Words.first (Option.some.inj (exact_decodeWords w 0 _ hk).words)
    have hk8 := k.isLt
    rw [← show _ = w from he, hword]
    refine beq_iff_eq.2 ?_
    omega

theorem leNat_lt (l : List Byte) : leNat l < 256 ^ l.length := by
  induction l with
  | nil => decide
  | cons x l ih =>
    have hx := x.isLt
    rw [leNat, List.length_cons, Nat.pow_succ]
    omega

/-- A word in memory is a LAND when it decodes to one. -/
theorem isLandWord_readBytes (s : State) (l : Loc) : isLandWord (leNat (readBytes s l 4)) = true ↔
    ∃ k, decodeWords (BitVec.ofNat 32 (leNat (readBytes s l 4))) 0 = .instr (.land k) := by
  rw [← isLandWord_iff_decode, BitVec.toNat_ofNat, Nat.mod_eq_of_lt]
  simpa using leNat_lt (readBytes s l 4)

/-! ### A read that leaves the module -/

@[simp] theorem metaAt_noteRead (s : State) (l l' : Loc) (n : Nat) : metaAt (noteRead s l n) l' = metaAt s l' := by
  rw [noteRead, sendOut_eq]
  cases l' <;> rfl

@[simp] theorem byteAt_noteRead (s : State) (l l' : Loc) (n : Nat) : byteAt (noteRead s l n) l' = byteAt s l' := by
  rw [noteRead, sendOut_eq]
  cases l' <;> rfl

theorem readBytes_congr {s t : State} (h : ∀ l, byteAt t l = byteAt s l) (n : Nat) : ∀ l, readBytes t l n = readBytes s l n := by
  induction n with
  | zero => exact fun _ => rfl
  | succ n ih => exact fun l => by rw [readBytes, readBytes, h, ih]

/-! ### The check of a target -/

theorem landing_malformed (s : State) (c : Ctx) {v : W64} (h : 2 ^ 57 ≤ v.toNat ∨ v.toNat % 4 ≠ 0) : landing s c v = (s, .bad) := by
  refine if_pos ?_
  simp only [Bool.or_eq_true, bne_iff_ne]
  omega

section
variable {s s1 : State} {c : Ctx} {v : W64} (h57 : v.toNat < 2 ^ 57) (h4 : v.toNat % 4 = 0)
include h57 h4

omit s s1 c in
theorem wellFormed_target : ¬ (v.toNat / 2 ^ 57 != 0 || v.toNat % 4 != 0) = true := by
  simp only [Bool.or_eq_true, bne_iff_ne]
  omega

theorem landing_absent (h : brickTranslate s c kExec v.toNat = (s1, .absent)) : landing s c v = (s1, .fault) := by
  rw [landing, if_neg (wellFormed_target h57 h4), h]

theorem landing_refused {x : BitVec 9} (h : brickTranslate s c kExec v.toNat = (s1, .cause x)) (hx : x ≠ 0x0C9#9) :
    landing s c v = (s1, .bad) := by
  rw [landing, if_neg (wellFormed_target h57 h4), h]
  simp [hx]

variable {pa : Nat} (h : brickTranslate s c kExec v.toNat = (s1, .ok pa))
include h

theorem landing_held (hd : locDown s1 (.phys pa) = true) : landing s c v = (s1, .held) := by
  rw [landing, if_neg (wellFormed_target h57 h4), h]
  simp [hd]

variable (hd : locDown s1 (.phys pa) = false)
include hd

theorem landing_denied {x : BitVec 9} (ho : outCheck s1 (.phys pa) = some x) : landing s c v = (s1, .cause x) := by
  rw [landing, if_neg (wellFormed_target h57 h4), h]
  simp [hd, ho]

/-- What the target's line says, where it holds no wrong bits. -/
theorem landing_line (ho : outCheck s1 (.phys pa) = none) (he : (metaAt s1 (Loc.phys pa).line).err = []) :
    landing s c v = (noteRead s1 (.phys pa) 4, if (metaAt s1 (Loc.phys pa).line).psn then .cause 0x146#9
      else if isLandWord (leNat (readBytes s1 (.phys pa) 4)) then .ok else .bad) := by
  have hc : checkLine (noteRead s1 (.phys pa) 4) (Loc.phys pa).line =
      (noteRead s1 (.phys pa) 4, (metaAt s1 (Loc.phys pa).line).psn) := by
    rw [checkLine_clean (by rw [metaAt_noteRead, he]), metaAt_noteRead]
  rw [landing, if_neg (wellFormed_target h57 h4), h]
  simp only [hd, ho, hc, Bool.false_eq_true, if_false]
  rw [readBytes_congr fun l => byteAt_noteRead s1 (.phys pa) l 4]
  split <;> rfl

end

/-- Settles O28: in the order of the checks; the word's own question is the decoder's. -/
theorem landingPoints : Obligations.LandingPoints := by
  unfold Obligations.LandingPoints
  refine fun s c v => ⟨landing_malformed s c, fun h57 h4 s1 => ⟨landing_absent h57 h4, fun x => landing_refused h57 h4,
    fun pa => landing_held h57 h4, fun pa x h hd => landing_denied h57 h4 h hd, fun pa h hd ho he hp => ?_, fun pa h hd ho he hp => ?_⟩⟩
  · rw [landing_line h57 h4 h hd ho he, hp]
    rfl
  · rw [landing_line h57 h4 h hd ho he, hp]
    simp only [Bool.false_eq_true, if_false, isLandWord_readBytes]

end Sys2Proof.Machine

/-!
O29. Divergence (R151, R152): what `divide` leaves in the issuing split, in the splits that it creates, and in the rest of the brick; a
branch is one such division, by what the tape asks of it.
-/
namespace Sys2Proof.Machine

/-! ### Free numbers -/

theorem freeSplits_nodup (c : Ctx) : (freeSplits c).Nodup := by
  unfold freeSplits
  split
  · exact List.nodup_nil
  · exact List.Nodup.filter _ (by decide)

theorem not_mem_freeSplits {c : Ctx} (hk : tabGet? c.br.splits c.k = some c.sp) : c.k ∉ freeSplits c := by
  unfold freeSplits
  split
  · exact List.not_mem_nil
  · simp [hk]

/-! ### The splits that a division creates -/

/-- The split of a following group: a copy of the issuing one with the group's threads, destination and path. -/
def armSplit (c : Ctx) (ready : Nat) (stack : List Entry) (a : Arm) : Split :=
  { c.sp with pc := a.pc, mask := a.mask, stack := stack, redisp := a.re, ready := ready, path := a.path, pendFrame := none }

theorem spawnArms_nil_left (c : Ctx) (ready : Nat) (stack : List Entry) (free : List Nat) (br : Brick) :
    spawnArms c ready stack [] free br = (br, []) := by
  unfold spawnArms
  rfl

/-- Each following group with a number stands under it; other splits and the rest of the brick stay, but for what pends. -/
theorem spawnArms_spec (c : Ctx) (ready : Nat) (stack : List Entry) (l : List Arm) : ∀ (free : List Nat) (br : Brick), free.Nodup →
    ∃ br', (spawnArms c ready stack l free br).1 = br' ∧ br' = { br with splits := br'.splits, pend := br'.pend } ∧
      (∀ k, k ∉ free → tabGet? br'.splits k = tabGet? br.splits k) ∧
      ∀ n arm, (n, arm) ∈ free.zip l → tabGet? br'.splits n = some (armSplit c ready stack arm) := by
  induction l with
  | nil => exact fun free br _ => ⟨br, by rw [spawnArms_nil_left], rfl, fun _ _ => rfl, by simp⟩
  | cons a l ih =>
    intro free br hnd
    cases free with
    | nil => exact ⟨br, rfl, rfl, fun _ _ => rfl, by simp⟩
    | cons n ns =>
      obtain ⟨hn, hns⟩ := List.nodup_cons.1 hnd
      obtain ⟨br', he, hbr, hothers, harms⟩ := ih ns (inheritPend (br.setSplit n (armSplit c ready stack a)) c.k n) hns
      have hput (k : Nat) : tabGet? (inheritPend (br.setSplit n (armSplit c ready stack a)) c.k n).splits k =
          if k = n then some (armSplit c ready stack a) else tabGet? br.splits k := tabGet?_put _ _ _ _
      refine ⟨br', he, hbr.trans rfl, fun k hk => ?_, fun m arm h => ?_⟩
      · obtain ⟨hkn, hkns⟩ := not_or.1 (mt List.mem_cons.2 hk)
        rw [hothers k hkns, hput, if_neg hkn]
      · rcases List.mem_cons.1 h with h | h
        · obtain ⟨rfl, rfl⟩ := Prod.mk.inj h
          rw [hothers m hn, hput, if_pos rfl]
        · exact harms m arm h

/-! ### The entry that a division pushes -/

/-- The groups that find no free number. -/
def leftArms (c : Ctx) (others : List Arm) : List Arm := others.drop (freeSplits c).length

/-- The rejoin group of a division. -/
def divideGroup (c : Ctx) (others : List Arm) : Option Nat := if others.isEmpty || (freeSplits c).isEmpty then none else some c.br.nextGr

/-- Where the threads in PM go, and on which path. -/
def pendingPc (c : Ctx) (others : List Arm) (redo : Bool) : Nat := if redo then c.sp.pc else ((leftArms c others).map (·.pc)).headD 0
def pendingPath (c : Ctx) (others : List Arm) : Nat :=
  if (leftArms c others).isEmpty then c.sp.path else ((leftArms c others).map (·.path)).headD 0

/-- The threads of a list of groups, with those of m. -/
def mergedMask (l : List Arm) (m : BitVec 32) : BitVec 32 := l.foldl (fun m a => m ||| a.mask) m

def divideEntry (c : Ctx) (gov : Bool) (frame : Option Nat) (others : List Arm) (redo : Bool) (pm : BitVec 32) : Entry :=
  .dvg c.sp.mask pm (pendingPc c others redo) redo none (divideGroup c others) gov frame (pendingPath c others)

section
variable {s : State} {c : Ctx} {f : Form} {gov redo : Bool} {frame : Option Nat} {first x : Arm} {others : List Arm} {br : Brick}

/-- A division: the issuing split keeps the first group and the entry, each following group with a number has its own copy. -/
theorem divide_spec (hk : tabGet? c.br.splits c.k = some c.sp) (hb : HasBrick s c.b br) :
    ∃ br' sp', HasBrick (divide s c f gov frame first others redo) c.b br' ∧ br'.trap = br.trap ∧ tabGet? br'.splits c.k = some sp' ∧
      sp'.pc = first.pc ∧ sp'.mask = first.mask ∧ sp'.path = first.path ∧
      sp'.stack = divideEntry c gov frame others redo (mergedMask (leftArms c others) 0#32) :: c.sp.stack ∧
      ∀ n arm, (n, arm) ∈ (freeSplits c).zip others → tabGet? br'.splits n =
        some (armSplit c (s.clk + 1 + f.st.toNat) (divideEntry c gov frame others redo 0#32 :: c.sp.stack) arm) := by
  obtain ⟨br', he, hbr, -, harms⟩ := spawnArms_spec c (s.clk + 1 + f.st.toNat) (divideEntry c gov frame others redo 0#32 :: c.sp.stack)
    others (freeSplits c) { br with
      nextGr := br.nextGr + (if (divideGroup c others).isSome then 1 else 0)
      groups := (match divideGroup c others with
        | some g => tabPut br.groups g ⟨c.k, [], none⟩
        | none => br.groups) } (freeSplits_nodup c)
  refine ⟨_, _, modBrick_brick hb _, ?_, tabGet?_put_self _ _ _, rfl, rfl, rfl, rfl, fun n arm h => ?_⟩
  · refine (congrArg Brick.trap he).trans ?_
    rw [hbr]
  · have hne : n ≠ c.k := fun h' => not_mem_freeSplits hk (h' ▸ (List.of_mem_zip h).1)
    exact (tabGet?_put_ne _ _ hne).trans ((congrArg (fun x => tabGet? x.splits n) he).trans (harms n arm h))

/-- The one following group of a branch has a number or waits in PM. -/
theorem leftArms_group_of_free (h : freeSplits c ≠ []) : leftArms c [x] = [] ∧ divideGroup c [x] = some c.br.nextGr := by
  obtain ⟨n, l, hl⟩ := List.exists_cons_of_ne_nil h
  simp [leftArms, divideGroup, hl]

theorem leftArms_group_of_full (h : freeSplits c = []) : leftArms c others = others ∧ divideGroup c others = none := by
  simp [leftArms, divideGroup, h]

end

/-! ### BRL (R152, R316, R320) -/

/-- The state of a branch whose groups are a0 and a1, in the opposite order under a replayed frame. -/
def branchState (s : State) (c : Ctx) (f : Form) (green : Bool) (frame : Option Nat) (a0 a1 : Arm) (rev : Bool) : State :=
  if a1.mask = 0#32 then divide s c f green frame a0 [] false
  else if a0.mask = 0#32 then divide s c f green frame a1 [] false
  else if rev then divide s c f green frame a1 [a0] false
  else divide s c f green frame a0 [a1] false

/-- What a branch that has pushed its entry leaves: the split with its group, and the other group with a number of its own or in PM. -/
def Branched (c : Ctx) (green : Bool) (frame : Option Nat) (first second : Arm) (both : Bool) (s1 s' : State) : Prop :=
  ∀ br0, HasBrick s1 c.b br0 → ∃ br' sp' gr pm pa path, HasBrick s' c.b br' ∧ tabGet? br'.splits c.k = some sp' ∧
    sp'.pc = first.pc ∧ sp'.mask = first.mask ∧ sp'.path = first.path ∧
    sp'.stack = .dvg c.sp.mask pm pa false none gr green frame path :: c.sp.stack ∧
    (both = false → gr = none ∧ pm = 0#32) ∧
    (both = true → match freeSplits c with
      | n :: _ => gr = some c.br.nextGr ∧ pm = 0#32 ∧ ∃ sp2, tabGet? br'.splits n = some sp2 ∧ sp2.pc = second.pc ∧
          sp2.mask = second.mask ∧ sp2.path = second.path ∧ sp2.stack = .dvg c.sp.mask 0#32 pa false none gr green frame path :: c.sp.stack
      | [] => gr = none ∧ pm = second.mask ∧ pa = second.pc ∧ path = second.path)

section
variable {s : State} {c : Ctx} {f : Form} {green : Bool} {frame : Option Nat} {first second : Arm}

theorem branched_single (hk : tabGet? c.br.splits c.k = some c.sp) :
    Branched c green frame first second false s (divide s c f green frame first [] false) := by
  intro br0 hb
  obtain ⟨br', sp', hb', -, hsp, hpc, hmask, hpath, hstack, -⟩ := divide_spec (f := f) (gov := green) (frame := frame) (first := first)
    (others := []) (redo := false) hk hb
  exact ⟨br', sp', _, _, _, _, hb', hsp, hpc, hmask, hpath, hstack, fun _ => ⟨rfl, by simp [leftArms, mergedMask]⟩, nofun⟩

theorem branched_pair (hk : tabGet? c.br.splits c.k = some c.sp) :
    Branched c green frame first second true s (divide s c f green frame first [second] false) := by
  intro br0 hb
  obtain ⟨br', sp', hb', -, hsp, hpc, hmask, hpath, hstack, harms⟩ := divide_spec (f := f) (gov := green) (frame := frame) (first := first)
    (others := [second]) (redo := false) hk hb
  refine ⟨br', sp', _, _, _, _, hb', hsp, hpc, hmask, hpath, hstack, nofun, fun _ => ?_⟩
  split
  · rename_i n l hl
    obtain ⟨hleft, hgr⟩ := leftArms_group_of_free (x := second) (c := c) (by simp [hl])
    refine ⟨hgr, by rw [hleft]; rfl, _, harms n second (by simp [hl]), rfl, rfl, rfl, rfl⟩
  · rename_i hl
    obtain ⟨hleft, hgr⟩ := leftArms_group_of_full (others := [second]) hl
    exact ⟨hgr, by simp [hleft, mergedMask], by simp [pendingPc, hleft], by simp [pendingPath, hleft]⟩

/-- The group that stays goes on first, or the taken one where no thread stays or a frame is replayed. -/
theorem branched_branchState (hk : tabGet? c.br.splits c.k = some c.sp) (a0 a1 : Arm) (rev : Bool) :
    Branched c green frame (if a1.mask = 0#32 then a0 else if a0.mask = 0#32 then a1 else if rev then a1 else a0)
      (if rev then a0 else a1) (a1.mask != 0#32 && a0.mask != 0#32) s (branchState s c f green frame a0 a1 rev) := by
  unfold branchState
  by_cases h1 : a1.mask = 0#32
  · simpa [h1] using branched_single hk
  · by_cases h0 : a0.mask = 0#32
    · simpa [h1, h0] using branched_single hk
    · have hboth : (a1.mask != 0#32 && a0.mask != 0#32) = true := by simp [h1, h0]
      rw [hboth]
      cases rev
      · simpa only [h1, h0, Bool.false_eq_true, if_false] using branched_pair hk
      · simpa only [h1, h0, if_true, if_false] using branched_pair hk

end

/-- The two groups of a branch that takes the threads `taken` to `target`, on paths p0 and p1. -/
def stayArm (c : Ctx) (f : Form) (taken : BitVec 32) (p0 : Nat) : Arm := ⟨c.sp.mask &&& ~~~taken, c.sp.pc + f.len, p0, false⟩
def takenArm (taken : BitVec 32) (target p1 : Nat) : Arm := ⟨taken, target, p1, false⟩

/-- The answer of a branch that leaves state s: a switch point where a thread goes to a lower address. -/
def branchTurn (c : Ctx) (taken : BitVec 32) (target : Nat) (s : State) : Res :=
  if taken != 0#32 && decide (target < c.sp.pc) then .jumpTurn s else .jump s

/-- What the tape's answer makes of a branch. -/
def branchAnswer (s : State) (c : Ctx) (f : Form) (taken : BitVec 32) (target : Nat) (green : Bool) (x : TapeBr) : Res :=
  let go (s : State) (frame : Option Nat) (p0 p1 : Nat) (rev : Bool) : Res :=
    branchTurn c taken target (branchState s c f green frame (stayArm c f taken p0) (takenArm taken target p1) rev)
  match x with
  | .plain => go s none c.sp.path c.sp.path false
  | .record t i p0 p1 => go (setTape s c.b t) (some i) p0 p1 false
  | .replay t i p0 p1 => go (setTape s c.b t) (some i) p0 p1 true
  | .trap cause t => .trap (setTape s c.b t) (trapOf c cause)

/-- Each of the model's four divisions of a branch is that of `branchState`, whatever follows it. -/
theorem branchState_ite {α : Type} (k : State → α) (s : State) (c : Ctx) (f : Form) (green : Bool) (frame : Option Nat) (a0 a1 : Arm)
    (rev : Bool) :
    (if a1.mask == 0#32 then k (divide s c f green frame a0 [] false)
      else if a0.mask == 0#32 then k (divide s c f green frame a1 [] false)
      else if rev then k (divide s c f green frame a1 [a0] false)
      else k (divide s c f green frame a0 [a1] false)) = k (branchState s c f green frame a0 a1 rev) := by
  simp only [branchState, beq_iff_eq, apply_ite k]

theorem branchLanes_eq (s : State) (c : Ctx) (f : Form) (taken : BitVec 32) (target : Nat) (green : Bool) :
    branchLanes s c f taken target green = branchAnswer s c f taken target green
      (tapeBranch c taken (taken != 0#32 && (c.sp.mask &&& ~~~taken) != 0#32) green) := by
  unfold branchLanes branchAnswer
  dsimp only
  generalize tapeBranch c taken (taken != 0#32 && (c.sp.mask &&& ~~~taken) != 0#32) green = x
  cases x with
  | plain => exact branchState_ite (branchTurn c taken target) _ c f green _ (stayArm c f taken _) (takenArm taken target _) _
  | record t i p0 p1 => exact branchState_ite (branchTurn c taken target) _ c f green _ (stayArm c f taken _) (takenArm taken target _) _
  | replay t i p0 p1 => exact branchState_ite (branchTurn c taken target) _ c f green _ (stayArm c f taken _) (takenArm taken target _) _
  | trap cause t => rfl

theorem retiresBranch_of_effect {i : Instr} {s s' : State} {c : Ctx} {f : Form} {body : Ctx → Res} (hi : Issues s c f)
    (he : exec i s = issueForm s f body) {back : Bool} {e : State → Prop} (hb : body c = if back then .jumpTurn s' else .jump s')
    (h : e s') : RetiresBranch i s c f back e := by
  obtain ⟨_, rfl, hx⟩ := retiresBranch_of_branch hi he hb
  exact ⟨_, h, hx⟩

/-- Settles O29: by what the tape asks of the branch; each division that follows is that of `branched_branchState`. -/
theorem branchDivides : Obligations.BranchDivides := by
  unfold Obligations.BranchDivides
  intro neg m off st s c f i taken stay green target both hi
  obtain ⟨-, -, hk⟩ := focusOf_eq_some.1 hi.1
  have hexec : exec i s = issueForm s f _ := rfl
  refine ⟨fun hl => traps_of_trap hi hexec (if_pos hl), fun hl => ?_⟩
  intro divided
  have hpush : (if 16 ≤ c.sp.stack.length then .trap s (trapOf c 0x008#9) else branchLanes s c f taken target green) =
      branchAnswer s c f taken target green (tapeBranch c taken both green) := (if_neg (Nat.not_le.2 hl)).trans (branchLanes_eq _ _ _ _ _ _)
  have hgo (s1 : State) (frame : Option Nat) (p0 p1 : Nat) (rev : Bool) := branched_branchState (s := s1) (f := f) (green := green)
    (frame := frame) hk (stayArm c f taken p0) (takenArm taken target p1) rev
  cases ht : tapeBranch c taken both green with
  | plain => exact retiresBranch_of_effect hi hexec (hpush.trans (congrArg _ ht)) (hgo _ _ _ _ _)
  | record t fr p0 p1 => exact retiresBranch_of_effect hi hexec (hpush.trans (congrArg _ ht)) (hgo _ _ _ _ _)
  | replay t fr p0 p1 => exact retiresBranch_of_effect hi hexec (hpush.trans (congrArg _ ht)) (hgo _ _ _ _ _)
  | trap cause t => exact trapsWith_of_trap hi hexec (hpush.trans (congrArg _ ht))

end Sys2Proof.Machine

/-!
O30. The lane JMPI: its targets, looked up one after the other, then the groups that they form. A first issue divides the split as
`divide_spec` says; a further one replaces the threads in PM.
-/
namespace Sys2Proof.Machine

/-- The form of the lane JMPI. -/
def jmpiForm (a : Reg) (st : BitVec 3) : Form := { bareForm false false st .vec with lanes := [a.toNat], rd := [nLane a], chk := [chkBoth a] }

/-- What the groups of the targets answer. -/
def groupAnswer (s : State) (c : Ctx) (f : Form) (arms : List Arm) (inv : BitVec 32) (green : Bool) : Res :=
  if jumpTapeBad c (arms.length + (if inv == 0#32 then 0 else 1)) then .trap s (trapOf c 0x144#9)
  else if c.sp.redisp then jumpAgain s c arms inv green
  else jumpFirst s c f arms inv green

/-- What the targets of a lane JMPI answer, once they are looked up. -/
def targetAnswer (s : State) (c : Ctx) (f : Form) (a : Reg) (l : List (Nat × Nat × Land)) : Res :=
  match l.find? (fun x => x.2.2 == .fault) with
  | some x => .stay (brickFault s c kExec x.2.1)
  | none =>
    if l.any (fun x => x.2.2 == .held) then .stay (holdForm s c)
    else match l.find? (fun x => x.2.2 != .ok && x.2.2 != .bad) with
    | some (t, v, .cause x) => .trap s (trapThread x t 1 (BitVec.ofNat 64 v))
    | _ => groupAnswer s c f (jumpGroups c l).1 (jumpGroups c l).2 (c.ts.any (fun t => c.wG a t))

theorem exec_jmpiLane (a : Reg) (st : BitVec 3) (s : State) : exec (.jmpiLane a st) s = issueForm s (jmpiForm a st) (fun c =>
    if !c.sp.redisp && decide (c.sp.stack.length ≥ 16) then .trap s (trapOf c 0x008#9)
    else targetAnswer (laneTargets s c a c.ts).1 c (jmpiForm a st) a (laneTargets s c a c.ts).2) := rfl

/-! ### The targets (R164) -/

section
variable {s : State} {c : Ctx} {f : Form} {a : Reg} {l : List (Nat × Nat × Land)}

theorem targetAnswer_fault {x : Nat × Nat × Land} (h : l.find? (fun x => x.2.2 == .fault) = some x) :
    targetAnswer s c f a l = .stay (brickFault s c kExec x.2.1) := by
  simp only [targetAnswer, h]

variable (hf : ∀ x ∈ l, x.2.2 ≠ .fault)
include hf

omit s c f a in
theorem find?_fault_eq_none : l.find? (fun x => x.2.2 == .fault) = none :=
  List.find?_eq_none.2 fun x hx => by simpa using hf x hx

theorem targetAnswer_held (h : ∃ x ∈ l, x.2.2 = .held) : targetAnswer s c f a l = .stay (holdForm s c) := by
  have hany : l.any (fun x => x.2.2 == .held) = true := by simpa using h
  simp only [targetAnswer, find?_fault_eq_none hf, hany, if_true]

variable (hh : ∀ x ∈ l, x.2.2 ≠ .held)
include hh

omit s c f a hf in
theorem any_held_eq_false : l.any (fun x => x.2.2 == .held) = false :=
  List.any_eq_false.2 fun x hx => by simpa using hh x hx

theorem targetAnswer_cause {t v : Nat} {y : BitVec 9} (h : l.find? (fun x => x.2.2 != .ok && x.2.2 != .bad) = some (t, v, .cause y)) :
    targetAnswer s c f a l = .trap s (trapThread y t 1 (BitVec.ofNat 64 v)) := by
  simp only [targetAnswer, find?_fault_eq_none hf, any_held_eq_false hh, h, Bool.false_eq_true, if_false]

end

theorem targetAnswer_groups {s : State} {c : Ctx} {f : Form} {a : Reg} {l : List (Nat × Nat × Land)}
    (h : ∀ x ∈ l, x.2.2 = .ok ∨ x.2.2 = .bad) {arms : List Arm} {inv : BitVec 32} (hg : jumpGroups c l = (arms, inv)) :
    targetAnswer s c f a l = groupAnswer s c f arms inv (c.ts.any (fun t => c.wG a t)) := by
  have hf : ∀ x ∈ l, x.2.2 ≠ .fault := fun x hx => by rcases h x hx with h | h <;> simp [h]
  have hh : ∀ x ∈ l, x.2.2 ≠ .held := fun x hx => by rcases h x hx with h | h <;> simp [h]
  have hn : l.find? (fun x => x.2.2 != .ok && x.2.2 != .bad) = none :=
    List.find?_eq_none.2 fun x hx => by rcases h x hx with h | h <;> simp [h]
  simp only [targetAnswer, find?_fault_eq_none hf, any_held_eq_false hh, hn, hg, Bool.false_eq_true, if_false]

/-! ### The groups (R153) -/

section
variable {s : State} {c : Ctx} {f : Form} {green : Bool} {inv : BitVec 32}

theorem groupAnswer_tapeBad {arms : List Arm} (h : jumpTapeBad c (arms.length + if inv = 0#32 then 0 else 1) = true) :
    groupAnswer s c f arms inv green = .trap s (trapOf c 0x144#9) :=
  if_pos (by simpa using h)

theorem groupAnswer_none (h : jumpTapeBad c (0 + if inv = 0#32 then 0 else 1) = false) :
    groupAnswer s c f [] inv green = .trap s (badTarget inv) := by
  refine (if_neg (by simpa using h)).trans ?_
  cases c.sp.redisp <;> rfl

variable {first : Arm} {rest : List Arm} (hbad : jumpTapeBad c ((first :: rest).length + if inv = 0#32 then 0 else 1) = false)
include hbad

theorem groupAnswer_again (hr : c.sp.redisp = true) : groupAnswer s c f (first :: rest) inv green =
    let s' := modSplit s c.b c.k (fun sp => governTop
      { setTopPm sp (mergedMask rest inv) c.sp.pc with pc := first.pc, mask := first.mask, redisp := false } green)
    if decide (first.pc < c.sp.pc) then .jumpTurn s' else .jump s' :=
  (if_neg (by simpa using hbad)).trans (if_pos hr)

variable (hr : c.sp.redisp = false)
include hr

theorem groupAnswer_first : groupAnswer s c f (first :: rest) inv green = jumpFirst s c f (first :: rest) inv green :=
  (if_neg (by simpa using hbad)).trans (if_neg (by simp [hr]))

/-- All targets are valid. -/
theorem groupAnswer_valid (hinv : inv = 0#32) : groupAnswer s c f (first :: rest) inv green =
    let s' := divide s c f green none first rest true
    if (first :: rest).any (fun x => decide (x.pc < c.sp.pc)) then .jumpTurn s' else .jump s' :=
  (groupAnswer_first hbad hr).trans (if_pos (by simpa using hinv))

/-- The group of the invalid targets, which stays at the jump. -/
def invalidArm (c : Ctx) (inv : BitVec 32) : Arm := ⟨inv, c.sp.pc, c.sp.path, true⟩

/-- Threads with invalid targets wait in PM where no number is free. -/
theorem groupAnswer_full (hinv : inv ≠ 0#32) (hfree : freeSplits c = []) : groupAnswer s c f (first :: rest) inv green =
    let s' := divide s c f green none first (invalidArm c inv :: rest) true
    if (first :: rest).any (fun x => decide (x.pc < c.sp.pc)) then .jumpTurn s' else .jump s' := by
  refine (groupAnswer_first hbad hr).trans ((if_neg (by simpa using hinv)).trans ?_)
  simp only [hfree]
  rfl

/-- They trap under the lowest free number. -/
theorem groupAnswer_invalid (hinv : inv ≠ 0#32) {n : Nat} {ns : List Nat} (hfree : freeSplits c = n :: ns) :
    groupAnswer s c f (first :: rest) inv green =
    let s' := takeTrap (divide s c f green none first (invalidArm c inv :: rest) true) c.b
      { preciseRec s c f (badTarget inv) true with split := n }
    if (first :: rest).any (fun x => decide (x.pc < c.sp.pc)) then .jumpTurn s' else .jump s' := by
  refine (groupAnswer_first hbad hr).trans ((if_neg (by simpa using hinv)).trans ?_)
  simp only [hfree]
  rfl

end

/-! ### What the division leaves -/

theorem mergedMask_invalid (c : Ctx) (inv : BitVec 32) (rest : List Arm) : mergedMask (invalidArm c inv :: rest) 0#32 = mergedMask rest inv := by
  simp [mergedMask, invalidArm]

/-- A division at a jump: `divide_spec` with the entry spelled out. -/
theorem jump_divides {s : State} {c : Ctx} {br : Brick} (f : Form) (green : Bool) (first : Arm) (others : List Arm)
    (hk : tabGet? c.br.splits c.k = some c.sp) (hb : HasBrick s c.b br) {pm : BitVec 32} (hpm : mergedMask (leftArms c others) 0#32 = pm) :
    ∃ br' sp' gr path, HasBrick (divide s c f green none first others true) c.b br' ∧ br'.trap = br.trap ∧
      tabGet? br'.splits c.k = some sp' ∧ sp'.pc = first.pc ∧ sp'.mask = first.mask ∧
      sp'.stack = .dvg c.sp.mask pm c.sp.pc true none gr green none path :: c.sp.stack ∧
      ∀ n arm, (n, arm) ∈ (freeSplits c).zip others → ∃ sp2, tabGet? br'.splits n = some sp2 ∧ sp2.pc = arm.pc ∧ sp2.mask = arm.mask ∧
        sp2.redisp = arm.re ∧ sp2.stack = .dvg c.sp.mask 0#32 c.sp.pc true none gr green none path :: c.sp.stack := by
  subst hpm
  obtain ⟨br', sp', hb', htrap, hsp, hpc, hmask, -, hstack, harms⟩ := divide_spec (f := f) (gov := green) (frame := none) (first := first)
    (others := others) (redo := true) hk hb
  exact ⟨br', sp', _, _, hb', htrap, hsp, hpc, hmask, hstack, fun n arm h => ⟨_, harms n arm h, rfl, rfl, rfl, rfl⟩⟩

/-- A precise trap of a brick leaves its splits, and is reported where none was. -/
theorem takeTrap_precise {s : State} {b : Nat} {br : Brick} (hb : HasBrick s b br) {r : TrapRec} (hr : r.prec = true) :
    ∃ br', HasBrick (takeTrap s b r) b br' ∧ br'.splits = br.splits ∧ (br.trap = none → br'.trap = some r) := by
  refine ⟨_, modBrick_brick hb _, ?_, fun hn => ?_⟩
  · simp only [hr, if_true]
    split <;> rfl
  · simp [hr, Brick.reports, hn]

/-- Settles O30: target by target, then by the groups; the three divisions of a first issue differ in what follows the first group. -/
theorem laneJumpDivides : Obligations.LaneJumpDivides := by
  unfold Obligations.LaneJumpDivides
  intro a st s c f i hi
  obtain ⟨-, -, hk⟩ := focusOf_eq_some.1 hi.1
  have hexec := exec_jmpiLane a st s
  refine ⟨fun hr hl => traps_of_trap hi hexec (if_pos (by simp [hr, hl])), fun hl s1 l hs => ?_⟩
  have hbody : (if !c.sp.redisp && decide (c.sp.stack.length ≥ 16) then .trap s (trapOf c 0x008#9)
      else targetAnswer (laneTargets s c a c.ts).1 c (jmpiForm a st) a (laneTargets s c a c.ts).2) = targetAnswer s1 c (jmpiForm a st) a l := by
    rw [if_neg (by rcases hl with hl | hl <;> simp [hl]), hs]
  refine ⟨fun x hx => exec_of_stay hi hexec (hbody.trans (targetAnswer_fault hx)), fun hf => ⟨fun hh => ?_, fun hh t v y hy => ?_⟩,
    fun hok arms inv hg => ?_⟩
  · exact exec_of_stay hi hexec (hbody.trans (targetAnswer_held hf hh))
  · exact trapsWith_of_trap hi hexec (hbody.trans (targetAnswer_cause hf hh hy))
  intro green free merged entry bad
  have hgroups := hbody.trans (targetAnswer_groups hok hg)
  refine ⟨fun hbad => ?_, fun hbad ha hne => ?_, fun hbad first rest ha => ?_⟩
  · exact trapsWith_of_trap hi hexec (hgroups.trans (groupAnswer_tapeBad hbad))
  · subst ha
    exact trapsWith_of_trap hi hexec (hgroups.trans (groupAnswer_none hbad))
  subst ha
  intro back kept others
  refine ⟨fun hr hinv => ?_, fun hr hinv hfree => ?_, fun hr hinv n ns hfree => ?_, fun hr => ?_⟩
  · refine retiresBranch_of_effect hi hexec (hgroups.trans (groupAnswer_valid hbad hr hinv)) fun br0 hb => ?_
    obtain ⟨br', sp', gr, path, hb', -, hsp, hpc, hmask, hstack, harms⟩ := jump_divides (jmpiForm a st) green first rest hk hb rfl
    refine ⟨br', sp', gr, path, hb', hsp, hpc, hmask, hstack, fun n arm h => ?_⟩
    obtain ⟨sp2, hsp2, hpc2, hmask2, -, hstack2⟩ := harms n arm h
    exact ⟨sp2, hsp2, hpc2, hmask2, hstack2⟩
  · refine retiresBranch_of_effect hi hexec (hgroups.trans (groupAnswer_full hbad hr hinv hfree)) fun br0 hb => ?_
    obtain ⟨br', sp', gr, path, hb', -, hsp, hpc, hmask, hstack, -⟩ := jump_divides (jmpiForm a st) green first (invalidArm c inv :: rest) hk hb
      ((congrArg (mergedMask · 0#32) (leftArms_group_of_full hfree).1).trans (mergedMask_invalid c inv rest))
    exact ⟨br', sp', gr, path, hb', hsp, hpc, hmask, hstack, trivial⟩
  · change freeSplits c = n :: ns at hfree
    refine retiresBranch_of_effect hi hexec (hgroups.trans (groupAnswer_invalid hbad hr hinv hfree)) fun br0 hb => ?_
    obtain ⟨br1, sp', gr, path, hb1, htrap, hsp, hpc, hmask, hstack, harms⟩ := jump_divides (jmpiForm a st) green first
      (invalidArm c inv :: rest) hk hb (pm := mergedMask (rest.drop ns.length) 0#32) (by simp [leftArms, hfree])
    obtain ⟨br', hb', hsplits, hreport⟩ := takeTrap_precise hb1
      (r := { preciseRec s1 c (jmpiForm a st) (badTarget inv) true with split := n }) rfl
    rw [← hsplits] at hsp
    refine ⟨br', sp', gr, path, hb', hsp, hpc, hmask, hstack, fun m arm h => ?_, ?_⟩
    · obtain ⟨sp2, hsp2, hpc2, hmask2, -, hstack2⟩ := harms m arm (by rw [hfree]; exact List.mem_cons_of_mem _ h)
      exact ⟨sp2, by rw [hsplits, hsp2], hpc2, hmask2, hstack2⟩
    · obtain ⟨sp2, hsp2, hpc2, hmask2, hre2, hstack2⟩ := harms n (invalidArm c inv) (by rw [hfree]; exact List.mem_cons_self)
      exact ⟨sp2, by rw [hsplits, hsp2], hpc2, hmask2, hre2, hstack2,
        fun hn => ⟨_, hreport (htrap.trans (hn br0 hb)), rfl, rfl, rfl, rfl, rfl, rfl, rfl⟩⟩
  · exact retiresBranch_of_effect hi hexec (hgroups.trans (groupAnswer_again hbad hr)) rfl

end Sys2Proof.Machine

/-!
O31 fails as stated: it speaks of every brick, also of one whose table of splits lists a number twice. A member of a completing group that
owns an inner group passes it to the first other member in the table (`leaveGroup`), and puts that member back under its number; where an
earlier row of the table has the number, the group's owner is that row no longer, and goes on with another row's threads. In a table that
lists each number once, as every table that is written by `tabPut` does, a number has one row.
-/
namespace Sys2Proof.Machine

/-- A jump that retires leaves the brick's other splits. -/
theorem retireJump_other {s : State} {c : Ctx} {br : Brick} (hb : HasBrick s c.b br) (f : Form) {k : Nat} (hk : k ≠ c.k) :
    ∃ br', HasBrick (retireJump s c f) c.b br' ∧ tabGet? br'.splits k = tabGet? br.splits k := by
  have hb1 : HasBrick (stampSlot s c f) c.b br := hb
  have hsplits (g : Split → Split) : tabGet? (br.modSplit c.k g).splits k = tabGet? br.splits k := by
    rw [tabGet?_modSplit, if_neg hk]
  unfold retireJump countRetired
  split
  · exact ⟨_, modBrick_brick hb1 _, hsplits _⟩
  · exact ⟨_, modBrick_brick (modBrick_brick hb1 _) _, hsplits _⟩

/-- A divergence entry of group g that holds the threads e. -/
def groupEntry (e : BitVec 32) (g : Nat) : Entry := .dvg e 0#32 0 false none (some g) false none 0

/-- A brick with two rows for split 0: the first is parked on group 0, which it owns; the second holds group 5. Split 1 is in both groups
and owns group 5. -/
def twiceBrick : Brick :=
  { loadBrick with
    splits := [(0, { Split.start 0x10000 with stack := [groupEntry 1#32 0], wait := some ⟨.join 0, none, 0x10000, false, true⟩ }),
      (0, { Split.start 0x10000 with stack := [groupEntry 2#32 5] }),
      (1, { Split.start 0x10000 with stack := [groupEntry 1#32 0, groupEntry 2#32 5] })]
    groups := [(0, ⟨0, [], none⟩), (5, ⟨1, [], none⟩)] }

/-- The module with that brick, whose split 1 has the issue slot. -/
def twiceState : State := { State.reset with bricks := [(0, twiceBrick)], focus := some (0, 1) }

/-- What issues in it. -/
def twiceCtx : Ctx := ⟨0, 1, twiceBrick, { Split.start 0x10000 with stack := [groupEntry 1#32 0, groupEntry 2#32 5] }⟩

/-- The threads of split 0 of brick 0. -/
def ownerMask (s : State) : Option (BitVec 32) := ((tabGet? s.bricks 0).bind (fun br => tabGet? br.splits 0)).map (·.mask)

/-- The JOIN of split 1 as it runs: split 0 goes on with thread 1, which its second row's entry holds. -/
theorem ownerMask_join : ∃ t, exec (.join 0) twiceState = .next t ∧ ownerMask t = some 2#32 := ⟨_, rfl, by decide⟩

/-- Refutes O31: in `twiceState` the statement has split 0 go on with thread 0. -/
theorem not_joinCloses : ¬ Obligations.JoinCloses := by
  unfold Obligations.JoinCloses
  intro h
  have hissues : Issues twiceState twiceCtx (bareForm false false 0 .vec) := ⟨rfl, rfl⟩
  obtain ⟨-, hdvg⟩ := h 0 twiceState twiceCtx hissues
  obtain ⟨-, hmet⟩ := hdvg _ _ _ _ _ _ _ _ _ _ rfl
  obtain ⟨-, -, -, hgroup⟩ := hmet (.inl rfl)
  obtain ⟨-, -, -, hdone⟩ := hgroup rfl 0 rfl
  obtain ⟨s', ⟨br', o', hb', ho', hmask, -⟩, hexec⟩ := hdone (by decide) (by decide) rfl _ _ _ _ _ _ _ _ _ _ _ rfl rfl rfl
  obtain ⟨t, ht, howner⟩ := ownerMask_join
  obtain ⟨br'', hb'', hsplit⟩ := retireJump_other hb' (bareForm false false 0 .vec) (k := 0) (by decide)
  have htt : t = retireJump s' twiceCtx (bareForm false false 0 .vec) := by
    have := ht.symm.trans hexec
    injection this
  rw [htt, ownerMask, show tabGet? _ 0 = some br'' from hb'', Option.bind_some, hsplit, ho', Option.map_some, hmask] at howner
  exact absurd howner (by decide)

end Sys2Proof.Machine

/-!
O48. The forms that enter, stop or leave. The return from a trap is one update of the brick (`Brick.returned`) and what the reporting
split does then, which gives up at most the form on which it is parked (`GivesUp`).
-/
namespace Sys2Proof.Machine

/-! ### A split that goes on (R278, R299, R358) -/

/-- State t differs from s in no memory and no partition, and brick b in what a form that is given up has begun, and in its splits. -/
def GivesUp (s t : State) (b : Nat) (br br' : Brick) : Prop :=
  HasBrick t b br' ∧ (t.mem = s.mem ∧ t.lmem = s.lmem ∧ t.mmeta = s.mmeta ∧ t.lmeta = s.lmeta ∧ t.parts = s.parts) ∧
    br' = { br with flights := br'.flights, marks := br'.marks, copies := br'.copies, armed := br'.armed, splits := br'.splits }

section
variable {s t u : State} {b : Nat} {br br' br'' : Brick}

theorem GivesUp.trans (h : GivesUp s t b br br') (h' : GivesUp t u b br' br'') : GivesUp s u b br br'' := by
  obtain ⟨-, ⟨hmem, hlmem, hmmeta, hlmeta, hparts⟩, hbr⟩ := h
  obtain ⟨hb', ⟨hmem', hlmem', hmmeta', hlmeta', hparts'⟩, hbr'⟩ := h'
  refine ⟨hb', ⟨hmem'.trans hmem, hlmem'.trans hlmem, hmmeta'.trans hmmeta, hlmeta'.trans hlmeta, hparts'.trans hparts⟩, ?_⟩
  rw [hbr', hbr]

variable (hb : HasBrick s b br)
include hb

theorem givesUp_refl : GivesUp s s b br br := ⟨hb, ⟨rfl, rfl, rfl, rfl, rfl⟩, rfl⟩

theorem givesUp_modBrick {g : Brick → Brick} (hg : g br = { br with
      flights := (g br).flights, marks := (g br).marks, copies := (g br).copies, armed := (g br).armed, splits := (g br).splits }) :
    GivesUp s (modBrick s b g) b br (g br) :=
  ⟨modBrick_brick hb g, ⟨rfl, rfl, rfl, rfl, rfl⟩, hg⟩

theorem givesUp_dropCommand (id : Nat) : ∃ br', GivesUp s (dropCommand s b id) b br br' ∧ br'.splits = br.splits := by
  unfold dropCommand
  split
  · exact ⟨br, givesUp_refl hb, rfl⟩
  · refine ⟨_, ⟨modBrick_brick (s := { s with copies := tabDel s.copies id }) hb _, ⟨rfl, rfl, rfl, rfl, rfl⟩, ?_⟩, ?_⟩
    all_goals
      dsimp only
      split <;> rfl

theorem givesUp_dropBegun (op : Option WaitOp) : ∃ br', GivesUp s (dropBegun s b op) b br br' ∧ br'.splits = br.splits := by
  unfold dropBegun
  split
  · refine ⟨_, givesUp_modBrick hb ?_, ?_⟩
    · split <;> rfl
    · split <;> rfl
  · exact ⟨_, givesUp_modBrick hb rfl, rfl⟩
  · exact givesUp_dropCommand hb _
  · exact ⟨br, givesUp_refl hb, rfl⟩

theorem givesUp_leaveOne (k : Nat) : ∃ br', GivesUp s (leaveOne s b k) b br br' ∧ br'.splits = br.splits := by
  obtain ⟨br', ⟨hb', hmem, hbr⟩, hsplits⟩ := givesUp_dropBegun hb ((waitOf s b k).map (·.op))
  exact ⟨br', ⟨hb', hmem, hbr⟩, hsplits⟩

/-- The reporting split goes on, where there is one; every other split stays as it is. -/
theorem resumeSplit_spec (k ret : Nat) : ∃ br', GivesUp s (resumeSplit s b k ret) b br br' ∧
    (∀ j, j ≠ k → tabGet? br'.splits j = tabGet? br.splits j) ∧ (tabGet? br.splits k = none → tabGet? br'.splits k = none) ∧
    ∀ sp, tabGet? br.splits k = some sp → sp.wait = none → tabGet? br'.splits k = some { sp with pc := ret } := by
  cases hk : tabGet? br.splits k with
  | none =>
    refine ⟨br, ?_, fun _ _ => rfl, fun _ => hk, fun _ h => by cases h⟩
    simp only [resumeSplit, hb, hk]
    exact givesUp_refl hb
  | some sp =>
    cases hw : sp.wait with
    | none =>
      refine ⟨br.modSplit k (fun sp => { sp with pc := ret }), ?_, fun j hj => ?_, fun h => (by cases h), ?_⟩
      · simp only [resumeSplit, hb, hk, hw]
        exact givesUp_modBrick hb rfl
      · rw [tabGet?_modSplit, if_neg hj]
      · rintro _ ⟨⟩ -
        rw [tabGet?_modSplit, if_pos rfl, hk, Option.map_some]
    | some w =>
      have hparked : ∀ sp', some sp = some sp' → sp'.wait = none → ∀ x : Option Split, x = some { sp' with pc := ret } := by
        rintro _ ⟨⟩ h
        rw [hw] at h
        cases h
      by_cases hp : w.pc = ret
      · refine ⟨br, ?_, fun _ _ => rfl, fun h => (by cases h), fun sp' h h' => hparked sp' h h' _⟩
        simp only [resumeSplit, hb, hk, hw, hp, beq_self_eq_true, if_true]
        exact givesUp_refl hb
      · obtain ⟨br', hleft, hsplits⟩ := givesUp_leaveOne hb k
        refine ⟨br'.modSplit k (fun sp => { sp with pc := ret, wait := none }), ?_, fun j hj => ?_, fun h => (by cases h),
          fun sp' h h' => hparked sp' h h' _⟩
        · simp only [resumeSplit, hb, hk, hw, beq_eq_false_iff_ne.2 hp, Bool.false_eq_true, if_false]
          exact hleft.trans (givesUp_modBrick hleft.1 rfl)
        · rw [tabGet?_modSplit, if_neg hj, hsplits]

end

/-! ### The return from a trap (R358) -/

/-- The brick that has left its handler. -/
def Brick.returned (br : Brick) (rep clk : Nat) : Brick :=
  { dropBanked br with
    splits := tabDel br.splits handlerSplit, inSlot := false, stepping := false
    focusSp := (if br.focusSp == handlerSplit then rep else br.focusSp)
    trap := (match br.late with
      | r :: _ => some { r with cycle := clk }
      | [] => none)
    late := br.late.drop 1 }

theorem uniR_dropBanked (br : Brick) (p : Nat) : (dropBanked br).uniR p = if p < 64 then br.uniR p else UReg.start := by
  by_cases h0 : p = 0
  · simp [Brick.uniR, h0]
  · rw [Brick.uniR, if_neg h0, tabGetD, dropBanked, tabGet?_filter (fun k => decide (k < 64))]
    by_cases hp : p < 64
    · simp [hp, Brick.uniR, h0, tabGetD]
    · simp [hp]

theorem partOf_leaveSlot_ne (s : State) (b : Nat) (br : Brick) : (partOf (leaveSlot s b br) (partKey br.core br.part)).slot ≠ some b := by
  rw [leaveSlot, partOf_modPart, if_pos rfl]
  split
  · nofun
  · rename_i h
    simpa using h

/-- The state in which the reporting split goes on. -/
theorem leaveTrap_eq (s : State) (c : Ctx) : ∃ s1, leaveTrap s c =
      resumeSplit (modBrick s1 c.b fun br => br.returned c.br.repSplit s1.clk) c.b c.br.repSplit (c.br.ret.toNat % 2 ^ 57 / 4 * 4) ∧
    s1.bricks = s.bricks ∧ (s1.mem = s.mem ∧ s1.lmem = s.lmem ∧ s1.mmeta = s.mmeta ∧ s1.lmeta = s.lmeta) ∧
    s1.parts = (leaveSlot s c.b c.br).parts := by
  unfold leaveTrap
  dsimp only
  split
  · exact ⟨_, rfl, rfl, ⟨rfl, rfl, rfl, rfl⟩, rfl⟩
  · exact ⟨_, rfl, rfl, ⟨rfl, rfl, rfl, rfl⟩, rfl⟩

section
variable {st : BitVec 3} {s : State} {c : Ctx} (hi : Issues s c (bareForm false false st .vec)) (hh : c.inHandler = true)
include hi hh

theorem exec_rteKill_handler :
    exec (.rteKill st) s = .next (killBrick (stampSlot s c (bareForm false false st .vec)) c.b c.br.infoCause 31) :=
  exec_of_stay hi rfl (if_neg (by simp [hh]))

theorem exec_rte_handler : exec (.rte st) s = .next (if c.br.infoFatal then killBrick (stampSlot s c (bareForm false false st .vec)) c.b
    c.br.infoCause (faultStruct c.br.infoCause c.br.aux0) else leaveTrap (stampSlot s c (bareForm false false st .vec)) c) := by
  refine exec_of_stay hi rfl ((if_neg (by simp [hh])).trans ?_)
  cases c.br.infoFatal <;> rfl

end

theorem traps_return {kill : Bool} {i : Instr} {st : BitVec 3} {s : State} {c : Ctx} (he : exec i s = returnForm kill st s)
    (hi : Issues s c (bareForm false false st .vec)) (hh : c.inHandler = false) :
    Traps i s c (bareForm false false st .vec) (trapOf c (if c.br.prv then 0x00D#9 else 0x006#9)) :=
  traps_of_trap hi he (if_pos (by rw [hh]; rfl))

/-- Settles O48: each form by what its own part answers; RTE by the brick that has returned and its reporting split. -/
theorem trapAndReturnForms : Obligations.TrapAndReturnForms := by
  unfold Obligations.TrapAndReturnForms
  intro st s c f
  refine ⟨fun n hi => ⟨traps_of_trap hi rfl rfl, fun hd => traps_of_trap hi rfl ?_, fun hd => retires_of_done hi rfl ?_ rfl⟩,
    fun hi => retires_of_done hi rfl rfl ⟨_, rfl⟩, ?_, fun hi hh => ⟨exec_rteKill_handler hi hh, fun hf => ?_, fun hf => ?_⟩⟩
  · exact if_neg (by rw [hd]; exact Bool.false_ne_true)
  · exact if_pos hd
  · rintro hi i (rfl | rfl) hh
    · exact traps_return rfl hi hh
    · exact traps_return rfl hi hh
  · exact (exec_rte_handler hi hh).trans (congrArg _ (if_pos hf))
  · have hrte : exec (.rte st) s = .next (leaveTrap (stampSlot s c f) c) :=
      (exec_rte_handler hi hh).trans (congrArg _ (if_neg (ne_true_of_eq_false hf)))
    obtain ⟨-, hb, -⟩ := focusOf_eq_some.1 hi.1
    obtain ⟨s1, hleave, hbricks, ⟨hmem, hlmem, hmmeta, hlmeta⟩, hparts⟩ := leaveTrap_eq (stampSlot s c f) c
    have hb1 : HasBrick s1 c.b c.br := (congrArg (tabGet? · c.b) hbricks).trans hb
    obtain ⟨br', ⟨hb', ⟨hmem', hlmem', hmmeta', hlmeta', hparts'⟩, hbr⟩, hothers, hgone, hrep⟩ := resumeSplit_spec
      (modBrick_brick hb1 fun br => br.returned c.br.repSplit s1.clk) c.br.repSplit (c.br.ret.toNat % 2 ^ 57 / 4 * 4)
    have hdel (j : Nat) : tabGet? (c.br.returned c.br.repSplit s1.clk).splits j = if j = handlerSplit then none else tabGet? c.br.splits j :=
      tabGet?_del _ _ _
    have hhalf (p t e : Nat) (ht : t < 32) (he : e < 2) : br'.half p t e = if p < 64 then c.br.half p t e else Half.start := by
      rw [hbr]
      exact half_dropBanked c.br ht he
    have huni (p : Nat) : br'.uniR p = if p < 64 then c.br.uniR p else UReg.start := by
      rw [hbr]
      exact uniR_dropBanked c.br p
    refine ⟨_, br', hrte.trans (congrArg _ hleave), hb', hmem'.trans hmem, hlmem'.trans hlmem, hmmeta'.trans hmmeta, hlmeta'.trans hlmeta,
      ?_, ?_, ?_, fun p t e hp ht he => ?_, fun p t e hp ht he => ?_, fun p hp => ?_, fun p hp => ?_, ?_, fun k hk hr => ?_,
      fun hr sp hsp hw => ?_, ?_, ?_⟩
    · rw [hbr]; rfl
    · by_cases hr : c.br.repSplit = handlerSplit
      · rw [hr] at hgone
        exact hgone ((hdel _).trans (if_pos rfl))
      · rw [hothers _ (Ne.symm hr), hdel, if_pos rfl]
    · rw [partOf, hparts', modBrick_parts, hparts]
      exact partOf_leaveSlot_ne _ _ _
    · rw [hhalf p t e ht he, if_pos hp]
    · rw [hhalf p t e ht he, if_neg (Nat.not_lt.2 hp)]
    · rw [huni, if_pos hp]
    · rw [huni, if_neg (Nat.not_lt.2 hp)]
    · rw [hbr]; rfl
    · rw [hothers k hr, hdel, if_neg hk]
    · exact hrep sp ((hdel _).trans ((if_neg hr).trans hsp)) hw
    · rw [hbr, Brick.returned]
      cases c.br.late <;> rfl
    · rw [hbr]; rfl

end Sys2Proof.Machine

/-!
O56. The injector's step runs on the brick in focus; what each kind does is one update of a bank, a register half, a byte or the state of
a line. The debugger's steps are one update of the brick, where it is stopped.
-/
namespace Sys2Proof.Machine

section
variable {s t : State} {c : Ctx} {i : Instr} {f : Ctx → Option State} (hc : focusOf s = some c) (hi : exec i s = injectStep s f)
include hc hi

theorem exec_injectStep : exec i s = .next ((f c).getD s) := by
  simp only [hi, injectStep, hc]

theorem exec_injectStep_some (hf : f c = some t) : exec i s = .next t := by
  rw [exec_injectStep hc hi, hf, Option.getD_some]

theorem exec_injectStep_none (hf : f c = none) : exec i s = .next s := by
  rw [exec_injectStep hc hi, hf, Option.getD_none]

end

/-! ### What one update leaves -/

theorem bankAt_putBank (s : State) (core p : Nat) (bk : Bank) : bankAt (putBank s core p bk) core p = bk := by
  rw [bankAt, coreOf, putBank, modCore_cores, tabGetD_set_self, tabGetD_set_self]

theorem metaAt_putMeta_self (s : State) {l : Loc} (m : LineMeta) (h : l.isHost = false) : metaAt (putMeta s l m) l = m := by
  cases l with
  | loc core off => exact tabGetD_set_self _ _ _ _
  | phys pa =>
    have h : isHostPa pa = false := h
    simp [putMeta, metaAt, h]

/-- A line reads as each of its places does. -/
theorem metaAt_line (s : State) (l : Loc) (h : l.isHost = false) : metaAt s l.line = metaAt s l ∧ l.line.isHost = false := by
  cases l with
  | loc core off =>
    refine ⟨congrArg (tabGetD s.lmeta · LineMeta.start) ?_, rfl⟩
    simp only [lKey]
    omega
  | phys pa =>
    have h : isHostPa pa = false := h
    have hline : isHostPa (pa / 64 * 64) = false := by
      simp only [isHostPa, Bool.and_eq_false_iff, decide_eq_false_iff_not] at h ⊢
      omega
    have hkey : pa / 64 * 64 / 64 = pa / 64 := by omega
    exact ⟨by simp only [metaAt, Loc.line, h, hline, hkey], hline⟩

/-! ### The kinds (R366) -/

section
variable {s : State} {c : Ctx}

/-- The state with one bit of a bank's entry flipped. -/
def flipEntry (s : State) (core p key bit : Nat) : State :=
  putBank s core p { bankAt s core p with
    e := tabSet (bankAt s core p).e key AccEntry.zero { tabGetD (bankAt s core p).e key AccEntry.zero with
      f := flipAcc (tabGetD (bankAt s core p).e key AccEntry.zero).f bit } }

theorem injectEntry_held {bank row col bit p : Nat} (hp : physBank s c.br bank = some p) (hb : bit < 96) :
    injectEntry s c bank row col bit = some (flipEntry s c.br.core p (128 * row + col) bit) := by
  simp only [injectEntry, hp, Nat.not_le.2 hb, decide_false, Bool.false_eq_true, if_false]
  rfl

theorem injectEntry_outside {bank row col bit : Nat} (h : physBank s c.br bank = none ∨ 96 ≤ bit) :
    injectEntry s c bank row col bit = none := by
  unfold injectEntry
  split
  · rfl
  · rename_i p hp
    have hb : 96 ≤ bit := h.resolve_left (by simp [hp])
    exact if_pos (decide_eq_true hb)

theorem tabGetD_flipEntry (core p key bit k : Nat) : tabGetD (bankAt (flipEntry s core p key bit) core p).e k AccEntry.zero =
    if k = key then { tabGetD (bankAt s core p).e key AccEntry.zero with f := flipAcc (tabGetD (bankAt s core p).e key AccEntry.zero).f bit }
    else tabGetD (bankAt s core p).e k AccEntry.zero := by
  rw [flipEntry, bankAt_putBank, tabGetD_set]

/-- The brick with one bit of a half of a lane register flipped. -/
def Brick.flipHalf (br : Brick) (key bit : Nat) : Brick :=
  { br with lane := tabSet br.lane key Half.start { tabGetD br.lane key Half.start with
      bits := (tabGetD br.lane key Half.start).bits ^^^ (1#32 <<< bit) } }

theorem injectLane_within {r t bit : Nat} (hb : bit < 64) (hr : r < 8 * c.br.granNow ∨ c.inHandler = true ∧ 56 ≤ r) :
    injectLane s c r t bit = some (modBrick s c.b (fun br => br.flipHalf (halfKey (physReg c.k r) t (bit / 32)) (bit % 32))) := by
  refine if_neg ?_
  simp only [Bool.or_eq_true, Bool.and_eq_true, Bool.not_eq_true', decide_eq_true_eq, Bool.and_eq_false_iff, decide_eq_false_iff_not]
  rintro (h | ⟨h, h' | h'⟩)
  · omega
  · exact absurd (hr.resolve_left (by omega)).1 (by simp [h'])
  · omega

theorem injectLane_outside {r t bit : Nat} (h : 64 ≤ bit ∨ 8 * c.br.granNow ≤ r ∧ ¬ (c.inHandler = true ∧ 56 ≤ r)) :
    injectLane s c r t bit = none := by
  refine if_pos ?_
  cases hh : c.inHandler <;> simpa [hh] using h

theorem half_flipHalf (br : Brick) {q t e' bit p i e : Nat} (ht : t < 32) (he' : e' < 2) (hi : i < 32) (he : e < 2) :
    (br.flipHalf (halfKey q t e') bit).half p i e = if p = q ∧ i = t ∧ e = e'
      then { br.half p i e with bits := (br.half p i e).bits ^^^ (1#32 <<< bit) } else br.half p i e := by
  simp only [Brick.half, Brick.flipHalf, tabGetD_set, halfKey_inj hi ht he he']
  split
  · rename_i h
    obtain ⟨rfl, rfl, rfl⟩ := h
    rfl
  · rfl

theorem injectPlace_within {line : Nat} (h : 64 * line + 64 ≤ localSize s c.br) : injectPlace s c line = some (localLoc s c.br (64 * line)) :=
  if_neg (by simpa using h)

theorem injectPlace_outside {line : Nat} (h : localSize s c.br < 64 * line + 64) : injectPlace s c line = none :=
  if_pos (decide_eq_true h)

theorem injectLine_within {line bit : Nat} (h : 64 * line + 64 ≤ localSize s c.br) (hb : bit < 512) :
    injectLine s c line bit = some (putByte s ((localLoc s c.br (64 * line)).add (bit / 8))
      (byteAt s ((localLoc s c.br (64 * line)).add (bit / 8)) ^^^ (1#8 <<< (bit % 8)))) := by
  simp only [injectLine, injectPlace_within h, Nat.not_le.2 hb, decide_false, Bool.false_eq_true, if_false]

theorem injectDouble_within {line bit : Nat} (h : 64 * line + 64 ≤ localSize s c.br) (hb : bit < 511) :
    injectDouble s c line bit = some (injectErr s (localLoc s c.br (64 * line)) [bit, bit + 1]) := by
  simp only [injectDouble, injectPlace_within h, Nat.not_le.2 hb, decide_false, Bool.false_eq_true, if_false]

theorem injectLine_outside {line : Nat} (h : localSize s c.br < 64 * line + 64) (bit : Nat) :
    injectLine s c line bit = none ∧ injectDouble s c line bit = none := by
  simp only [injectLine, injectDouble, injectPlace_outside h, and_self]

theorem injectAt_within {bit : Nat} (he : paExists s (ownPa s c.br.injAddr.toNat) = true)
    (hr : isRemotePa (ownPa s c.br.injAddr.toNat) = false) (hb : bit < 512) :
    injectAt s c bit = some (injectErr s (Loc.phys (ownPa s c.br.injAddr.toNat)).line [bit]) := by
  simp [injectAt, he, hr, Nat.not_le.2 hb]

theorem injectAt_outside {bit : Nat} (he : paExists s (ownPa s c.br.injAddr.toNat) = false) : injectAt s c bit = none := by
  simp [injectAt, he]

/-- Flipped bits of a line that held none wrong. -/
theorem metaAt_injectErr {l : Loc} (h : l.isHost = false) (bits : List Nat) (he : (metaAt s l).err = []) :
    metaAt (injectErr s l bits) l = { metaAt s l with err := bits.foldl flipErr [] } := by
  rw [injectErr, metaAt_putMeta_self s _ h, he]

/-- The same for the line of a place. -/
theorem metaAt_injectErr_line {l : Loc} (h : l.isHost = false) (bits : List Nat) (he : (metaAt s l).err = []) :
    metaAt (injectErr s l.line bits) l = { metaAt s l with err := bits.foldl flipErr [] } := by
  obtain ⟨hline, hhost⟩ := metaAt_line s l h
  rw [← (metaAt_line (injectErr s l.line bits) l h).1, metaAt_injectErr hhost bits (hline ▸ he), hline]

end

/-! ### The debugger and the site processor (R160, R358) -/

section
variable {s : State} {b : Nat} {br : Brick} (hb : HasBrick s b br)
include hb

theorem exec_haltResume : exec (.haltResume b) s = .next (if br.halted then modBrick s b (fun br => { br with halted := false }) else s) := by
  show execHaltResume b s = _
  simp only [execHaltResume, hb]

theorem exec_debugResume :
    exec (.debugResume b) s = .next (if br.debug then modBrick s b (fun br => { br with debug := false, stepping := false }) else s) := by
  show execDebugResume b s = _
  simp only [execDebugResume, hb]

theorem exec_debugStep (k : Nat) : exec (.debugStep b k) s = .next (if br.debug && (tabGet? br.splits k).isSome
    then modBrick s b (fun br => { br with focusSp := k, stepping := true }) else s) := by
  show execDebugStep b k s = _
  simp only [execDebugStep, hb]

end

/-- Settles O56: kind by kind, from what the brick in focus is asked; then the three steps of a stopped brick. -/
theorem injectionAndDebugSteps : Obligations.InjectionAndDebugSteps := by
  unfold Obligations.InjectionAndDebugSteps
  refine ⟨fun s c hc => ?_, fun s b br hb => ?_⟩
  · obtain ⟨-, hb, -⟩ := focusOf_eq_some.1 hc
    refine ⟨exec_injectStep_some hc rfl rfl, fun byte bit h => exec_injectStep_some hc rfl (if_neg (by simpa using h)),
      fun byte bit h => exec_injectStep_none hc rfl (if_pos (by simpa using h)), fun t => exec_injectStep_some hc rfl rfl,
      fun col twice => exec_injectStep_some hc rfl rfl, fun bank row col bit p hp h => ?_,
      fun bank row col bit h => exec_injectStep_none hc rfl (injectEntry_outside h), fun r t bit h hr => ?_,
      fun r t bit h => exec_injectStep_none hc rfl (injectLane_outside h), fun line bit h => ⟨?_, fun h511 he => ?_⟩,
      fun line bit h => ⟨exec_injectStep_none hc rfl (injectLine_outside h _).1, exec_injectStep_none hc rfl (injectLine_outside h _).2⟩,
      fun bit => ⟨fun he hr hh herr => ?_, fun he => exec_injectStep_none hc rfl (injectAt_outside he)⟩⟩
    · refine ⟨_, exec_injectStep_some hc rfl (injectEntry_held hp h), ⟨rfl, rfl, rfl, rfl, rfl⟩, rfl, fun k hk => ?_, ?_⟩
      · rw [tabGetD_flipEntry, if_neg hk]
      · rw [tabGetD_flipEntry, if_pos rfl]
    · exact ⟨_, _, exec_injectStep_some hc rfl (injectLane_within h hr), modBrick_brick hb _, ⟨rfl, rfl, rfl, rfl, rfl⟩, rfl,
        fun q i e hi he => half_flipHalf c.br t.isLt (by omega) hi he⟩
    · exact ⟨_, exec_injectStep_some hc rfl (injectLine_within h bit.isLt), rfl, rfl, byteAt_putByte_self s _ _,
        fun l' hl => byteAt_putByte_ne s _ hl⟩
    · refine ⟨_, exec_injectStep_some hc rfl (injectDouble_within h h511), by simp [injectErr], by simp [injectErr],
        (metaAt_injectErr rfl _ he).trans ?_⟩
      simp [flipErr]
    · exact ⟨_, exec_injectStep_some hc rfl (injectAt_within he hr bit.isLt), by simp [injectErr], by simp [injectErr],
        metaAt_injectErr_line (l := .phys _) hh _ herr⟩
  · refine ⟨fun h => ?_, fun h => ?_, fun h => ⟨?_, fun k sp hk => ?_, fun k hk => ?_⟩, fun h => ⟨?_, fun k => ?_⟩⟩
    · rw [exec_haltResume hb, h, if_pos rfl]
    · rw [exec_haltResume hb, h, if_neg Bool.false_ne_true]
    · rw [exec_debugResume hb, h, if_pos rfl]
    · rw [exec_debugStep hb, h, hk]
      rfl
    · rw [exec_debugStep hb, h, hk]
      rfl
    · rw [exec_debugResume hb, h, if_neg Bool.false_ne_true]
    · rw [exec_debugStep hb, h]
      rfl

end Sys2Proof.Machine

/-!
O8. What a step does to memory it does by writes of single bytes and of the state of single lines, by zeroing ranges and by bringing a
saved wall back; each keeps the tables' canonical form (Laws/Memory.lean). The functions of the model are built of these, so each of them
keeps the form as well: first those that leave memory alone, then those that write it, then the forms and the other moves of a step.
-/
namespace Sys2Proof.Machine

/-- A fold of steps that each leave memory's form alone. -/
theorem foldl_wf_eq {α : Type} (f : State → α → State) (hf : ∀ s x, Memory.wf (f s x) = Memory.wf s) (xs : List α) :
    ∀ s, Memory.wf (xs.foldl f s) = Memory.wf s := by
  induction xs with
  | nil => exact fun _ => rfl
  | cons x xs ih => exact fun s => (ih _).trans (hf s x)


/-! ### Registers, traps, issue and retirement: what leaves memory alone -/

@[simp] theorem setBrick_wf (s : State) (b : Nat) (br : Brick) : Memory.wf (setBrick s b br) = Memory.wf s := rfl
@[simp] theorem modBrick_wf (s : State) (b : Nat) (f : Brick → Brick) : Memory.wf (modBrick s b f) = Memory.wf s := rfl
@[simp] theorem modSplit_wf (s : State) (b k : Nat) (f : Split → Split) : Memory.wf (modSplit s b k f) = Memory.wf s := rfl
@[simp] theorem modLaunch_wf (s : State) (l : Nat) (f : Launch → Launch) : Memory.wf (modLaunch s l f) = Memory.wf s := rfl
@[simp] theorem modWall_wf (s : State) (w : Nat) (f : Wall → Wall) : Memory.wf (modWall s w f) = Memory.wf s := rfl
@[simp] theorem modCore_wf (s : State) (c : Nat) (f : Core → Core) : Memory.wf (modCore s c f) = Memory.wf s := rfl
@[simp] theorem modDie_wf (s : State) (d : Nat) (f : Die → Die) : Memory.wf (modDie s d f) = Memory.wf s := rfl
@[simp] theorem nextFree_wf (s : State) : Memory.wf (nextFree s).2 = Memory.wf s := rfl
@[simp] theorem freeDue_wf (s : State) : Memory.wf (freeDue s).2 = Memory.wf s := rfl
@[simp] theorem takeTrap_wf (s : State) (b : Nat) (r : TrapRec) : Memory.wf (takeTrap s b r) = Memory.wf s := rfl
@[simp] theorem queueTrap_wf (s : State) (b : Nat) (r : TrapRec) : Memory.wf (queueTrap s b r) = Memory.wf s := rfl
@[simp] theorem handlerTrap_wf (s : State) (b : Nat) (r : TrapRec) : Memory.wf (handlerTrap s b r) = Memory.wf s := rfl
@[simp] theorem reportLate_wf (s : State) (b k : Nat) (r : TrapRec) : Memory.wf (reportLate s b k r) = Memory.wf s := by
  grind [reportLate, handlerTrap_wf, queueTrap_wf]
@[simp] theorem stampSlot_wf (s : State) (c : Ctx) (f : Form) : Memory.wf (stampSlot s c f) = Memory.wf s := rfl
@[simp] theorem raiseTrap_wf (s : State) (c : Ctx) (f : Form) (t : TrapReq) : Memory.wf (raiseTrap s c f t) = Memory.wf s := rfl
theorem trapState_wf {s s' : State} (h : Memory.wf s = true) (h' : Memory.wf s' = true) (c : Ctx) (f : Form) (t : TrapReq) :
    Memory.wf (trapState s s' c f t) = true := by
  unfold trapState
  split
  · exact h'
  · exact h
@[simp] theorem noteIssue_wf (s : State) (c : Ctx) (f : Form) : Memory.wf (noteIssue s c f) = Memory.wf s := rfl
@[simp] theorem countRetired_wf (s : State) (c : Ctx) : Memory.wf (countRetired s c) = Memory.wf s := by unfold countRetired; split <;> rfl
@[simp] theorem retire_wf (s : State) (c : Ctx) (f : Form) : Memory.wf (retire s c f) = Memory.wf s := by
  grind [retire, modSplit_wf, countRetired_wf, noteIssue_wf]
@[simp] theorem retireJump_wf (s : State) (c : Ctx) (f : Form) : Memory.wf (retireJump s c f) = Memory.wf s := by
  grind [retireJump, countRetired_wf, noteIssue_wf]
@[simp] theorem parkOn_wf (s : State) (c : Ctx) (f : Form) (op : WaitOp) (sync : Option Nat) (counted : Bool) :
    Memory.wf (parkOn s c f op sync counted) = Memory.wf s := rfl
@[simp] theorem holdForm_wf (s : State) (c : Ctx) : Memory.wf (holdForm s c) = Memory.wf s := rfl
@[simp] theorem switchTurn_wf (s : State) (c : Ctx) : Memory.wf (switchTurn s c) = Memory.wf s := by unfold switchTurn; split <;> rfl
@[simp] theorem addPend_wf (s : State) (c : Ctx) (f : Form) (lat : Nat) (writes : List RegWrite) (fx : List (Nat × Flags)) (isFp : Bool) :
    Memory.wf (addPend s c f lat writes fx isFp) = Memory.wf s := rfl
@[simp] theorem pushPend_wf (s : State) (c : Ctx) (f : Form) (lat : Nat) (writes : List RegWrite) (fx : List (Nat × Flags)) (isFp : Bool) :
    Memory.wf (pushPend s c f lat writes fx isFp) = Memory.wf s := by grind [pushPend, addPend_wf, modBrick_wf, nextFree_wf]
@[simp] theorem useCum_wf (s : State) (b : Nat) : Memory.wf (useCum s b) = Memory.wf s := rfl

/-! ### Flags: what leaves memory alone -/

@[simp] theorem pushFp_wf (s : State) (c : Ctx) (f : Form) (lat : Nat) (ws : List RegWrite) (fx : List (Nat × Flags)) (mainAt : Nat → W64)
    (fm : Option Fmt) (raises : Bool) : Memory.wf (pushFp s c f lat ws fx mainAt fm raises) = Memory.wf s := by
  grind [pushFp, nextFree_wf, modBrick_wf, pushPend_wf]
@[simp] theorem srWrite_wf (s : State) (b : Nat) (br : Brick) (x : W64) : Memory.wf (srWrite s b br x) = Memory.wf s := by
  unfold srWrite; split <;> rfl

/-! ### Semaphores, faults and operations in flight: what leaves memory alone -/

@[simp] theorem setOp_wf (s : State) (b k : Nat) (op : WaitOp) : Memory.wf (setOp s b k op) = Memory.wf s := rfl
@[simp] theorem putSem_wf (s : State) (o : ObjRef) (x : Sem) : Memory.wf (putSem s o x) = Memory.wf s := by unfold putSem; split <;> rfl
@[simp] theorem voteSem_wf (s : State) (o : ObjRef) : Memory.wf (voteSem s o) = Memory.wf s := by
  unfold voteSem
  grind [logAdd_wf, putSem_wf]
@[simp] theorem serveSem_wf (o : ObjRef) (q : List (Nat × Nat)) : ∀ (s : State) (n : Nat), Memory.wf (serveSem s o q n) = Memory.wf s := by
  induction q with
  | nil => exact fun s _ => putSem_wf s o _
  | cons x q ih =>
    intro s n
    cases n with
    | zero => exact putSem_wf s o _
    | succ n => grind [serveSem, putSem_wf, setOp_wf]
@[simp] theorem serveQueue_wf (s : State) (o : ObjRef) : Memory.wf (serveQueue s o) = Memory.wf s := by grind [serveQueue, serveSem_wf]
@[simp] theorem semBump_wf (s : State) (die n : Nat) : Memory.wf (semBump s die n) = Memory.wf s := by
  grind [semBump, voteSem_wf, serveQueue_wf, putSem_wf]
@[simp] theorem addFault_wf (s : State) (die asid va kind : Nat) (eng : Bool) :
    Memory.wf (addFault s die asid va kind eng) = Memory.wf s := by
  grind [addFault, semBump_wf, modDie_wf]
@[simp] theorem brickFault_wf (s : State) (c : Ctx) (kind va : Nat) : Memory.wf (brickFault s c kind va) = Memory.wf s := by
  grind [brickFault, addFault_wf, modBrick_wf]
@[simp] theorem pushFlight_wf (s : State) (c : Ctx) (f : Form) (fc tEnd : Option Nat) (mark : Option RName) (kind : FlightKind) :
    Memory.wf (pushFlight s c f fc tEnd mark kind) = Memory.wf s := rfl

/-! ### Cells: what leaves memory alone -/

@[simp] theorem commitCells_wf (s : State) (b : Nat) : Memory.wf (commitCells s b) = Memory.wf s := rfl

/-! ### The tape: what leaves memory alone -/

@[simp] theorem setTape_wf (s : State) (b : Nat) (t : Tape) : Memory.wf (setTape s b t) = Memory.wf s := rfl

/-! ### Control: what leaves memory alone -/

@[simp] theorem divide_wf (s : State) (c : Ctx) (f : Form) (gov : Bool) (frame : Option Nat) (first : Arm) (others : List Arm)
    (redo : Bool) : Memory.wf (divide s c f gov frame first others redo) = Memory.wf s := rfl
@[simp] theorem settleGroups_wf (b : Nat) (gs : List Nat) : ∀ s : State, Memory.wf (settleGroups s b gs) = Memory.wf s := by
  induction gs with
  | nil => exact fun _ => rfl
  | cons g gs ih => grind [settleGroups, takeTrap_wf, modSplit_wf, modBrick_wf]

/-! ### Objects: what leaves memory alone -/

@[simp] theorem putBar_wf (s : State) (o : ObjRef) (x : Barrier) : Memory.wf (putBar s o x) = Memory.wf s := by unfold putBar; split <;> rfl
@[simp] theorem putHod_wf (s : State) (o : ObjRef) (x : Hod) : Memory.wf (putHod s o x) = Memory.wf s := by unfold putHod; split <;> rfl
@[simp] theorem mapBricks_wf (s : State) (f : Nat → Brick → Brick) : Memory.wf (mapBricks s f) = Memory.wf s := rfl
@[simp] theorem voteBar_wf (s : State) (o : ObjRef) : Memory.wf (voteBar s o) = Memory.wf s := by grind [voteBar, logAdd_wf, putBar_wf]
@[simp] theorem releaseBar_wf (s : State) (o : ObjRef) (sel : Option Nat → Bool) (cleared : Brick → Nat) (status : BitVec 9) :
    Memory.wf (releaseBar s o sel cleared status) = Memory.wf s := rfl
@[simp] theorem completePhase_wf (s : State) (o : ObjRef) : Memory.wf (completePhase s o) = Memory.wf s := by
  grind [completePhase, releaseBar_wf, putBar_wf]
@[simp] theorem tryComplete_wf (s : State) (o : ObjRef) : Memory.wf (tryComplete s o) = Memory.wf s := by
  grind [tryComplete, completePhase_wf]
@[simp] theorem abandon_wf (s : State) (o : ObjRef) : Memory.wf (abandon s o) = Memory.wf s := by grind [abandon, releaseBar_wf, putBar_wf]
@[simp] theorem initBar_wf (s : State) (o : ObjRef) (e : Nat) : Memory.wf (initBar s o e) = Memory.wf s := by
  grind [initBar, putBar_wf, releaseBar_wf, mapBricks_wf]
@[simp] theorem countArrival_wf (s : State) (b : Nat) (o : ObjRef) : Memory.wf (countArrival s b o) = Memory.wf s := by
  grind [countArrival, voteBar_wf, modBrick_wf, putBar_wf, tryComplete_wf]
@[simp] theorem countMarks_wf (b : Nat) (ms : List ArrMark) : ∀ s : State, Memory.wf (countMarks s b ms) = Memory.wf s := by
  induction ms with
  | nil => exact fun _ => rfl
  | cons m ms ih => grind [countMarks, countArrival_wf, modBrick_wf]
@[simp] theorem exitBar_wf (s : State) (b : Nat) (o : ObjRef) : Memory.wf (exitBar s b o) = Memory.wf s := by
  grind [exitBar, voteBar_wf, putBar_wf, tryComplete_wf]
@[simp] theorem killBar_wf (s : State) (b launch : Nat) (o : ObjRef) : Memory.wf (killBar s b launch o) = Memory.wf s := by
  grind [killBar, voteBar_wf, abandon_wf]
@[simp] theorem takeHead_wf (s : State) (o : ObjRef) (b : Nat) : Memory.wf (takeHead s o b).1 = Memory.wf s := by
  grind [takeHead, putHod_wf]
@[simp] theorem reserveSlot_wf (s : State) (o : ObjRef) : Memory.wf (reserveSlot s o).1 = Memory.wf s := by grind [reserveSlot, putHod_wf]
@[simp] theorem giveSlot_wf (s : State) (b seq n : Nat) (tEnd : Option Nat) : Memory.wf (giveSlot s b seq n tEnd) = Memory.wf s := rfl
@[simp] theorem serveProds_wf (o : ObjRef) (l : List (Nat × Nat)) : ∀ s : State, Memory.wf (serveProds o l s) = Memory.wf s := by
  induction l with
  | nil => exact fun _ => rfl
  | cons x l ih => grind [serveProds, setOp_wf, modBrick_wf, putHod_wf, reserveSlot_wf, giveSlot_wf]

/-! ### Bindings and roles: what leaves memory alone -/

@[simp] theorem installBind_wf (s : State) (launch slot : Nat) (x : Binding) : Memory.wf (installBind s launch slot x) = Memory.wf s := rfl
@[simp] theorem removeBind_wf (s : State) (launch slot : Nat) : Memory.wf (removeBind s launch slot) = Memory.wf s := rfl
@[simp] theorem arrive_wf (s : State) (c : Ctx) (o : ObjRef) (cum : Bool) : Memory.wf (arrive s c o cum) = Memory.wf s := by
  grind [arrive, modBrick_wf]
@[simp] theorem markRole_wf (s : State) (c : Ctx) (o : ObjRef) (producer : Bool) : Memory.wf (markRole s c o producer) = Memory.wf s := by
  grind [markRole, putHod_wf]
@[simp] theorem commitRole_wf (s : State) (c : Ctx) (o : ObjRef) (producer : Bool) :
    Memory.wf (commitRole s c o producer) = Memory.wf s := by
  grind [commitRole, putHod_wf]

/-! ### Segments: what leaves memory alone -/

@[simp] theorem freeTape_wf (s : State) (b : Nat) : Memory.wf (freeTape s b) = Memory.wf s := rfl
@[simp] theorem dropLine_wf (s : State) (b : Nat) : Memory.wf (dropLine s b) = Memory.wf s := rfl
@[simp] theorem popFlight_wf (s : State) (c : Ctx) (f : Form) (ws : List RegWrite) (late : Option LateTrap) :
    Memory.wf (popFlight s c f ws late) = Memory.wf s := rfl
@[simp] theorem startReplay_wf (s : State) (b : Nat) : Memory.wf (startReplay s b) = Memory.wf s := rfl

/-! ### The matrix engine: what leaves memory alone -/

@[simp] theorem putBank_wf (s : State) (core p : Nat) (bk : Bank) : Memory.wf (putBank s core p bk) = Memory.wf s := rfl
@[simp] theorem accept_wf (s : State) (c : Ctx) (p : Nat) (k : BitVec 4) (names : List RName) (tEnd : Option Nat) (op : ArrOp) :
    Memory.wf (accept s c p k names tEnd op) = Memory.wf s := rfl
@[simp] theorem acceptZero_wf (s : State) (c : Ctx) (p : Nat) (k : BitVec 4) : Memory.wf (acceptZero s c p k) = Memory.wf s := by
  simp [acceptZero]
@[simp] theorem arrTrap_wf (s : State) (e : ArrEntry) (cause : BitVec 9) : Memory.wf (arrTrap s e cause) = Memory.wf s := by
  grind [arrTrap, reportLate_wf]
@[simp] theorem logArray_wf (s : State) (core kind strct : Nat) : Memory.wf (logArray s core kind strct) = Memory.wf s := rfl
@[simp] theorem popQueue_wf (s : State) (core : Nat) : Memory.wf (popQueue s core) = Memory.wf s := rfl
@[simp] theorem failQuad_wf (s : State) (cause : BitVec 9) (hs : List (Nat × ArrEntry)) :
    Memory.wf (failQuad s cause hs) = Memory.wf s := by
  unfold failQuad
  refine foldl_wf_eq _ (fun s x => ?_) hs s
  grind [popQueue_wf, arrTrap_wf]
@[simp] theorem oweQuad_wf (s : State) (quad : Nat) (hs : List (Nat × ArrEntry)) : Memory.wf (oweQuad s quad hs) = Memory.wf s := by
  unfold oweQuad
  split
  · rfl
  · rw [foldl_wf_eq]
    exact fun _ _ => rfl
@[simp] theorem failOwed_wf (s : State) (x : Nat × ArrEntry) : Memory.wf (failOwed s x) = Memory.wf s := by
  grind [failOwed, failQuad_wf, modCore_wf]
@[simp] theorem grantBanks_wf (s : State) (b n : Nat) : Memory.wf (grantBanks s b n).1 = Memory.wf s := by
  unfold grantBanks
  split
  · rfl
  · extract_lets
    simp only [modBrick_wf]
    rw [foldl_wf_eq]
    exact fun _ _ => rfl
@[simp] theorem queueReq_wf (s : State) (core : Nat) (r : AccReq) : Memory.wf (queueReq s core r) = Memory.wf s := rfl
@[simp] theorem serveBanks_wf (s : State) (r : AccReq) : Memory.wf (serveBanks s r) = Memory.wf s := by
  grind [serveBanks, grantBanks_wf, modSplit_wf]
@[simp] theorem freeBanks_wf (s : State) (b : Nat) (ks : List Nat) : Memory.wf (freeBanks s b ks) = Memory.wf s := rfl

/-! ### Ends: what leaves memory alone -/

@[simp] theorem leaveQueues_wf (s : State) (b : Nat) : Memory.wf (leaveQueues s b) = Memory.wf s := rfl
@[simp] theorem leaveSlot_wf (s : State) (b : Nat) (br : Brick) : Memory.wf (leaveSlot s b br) = Memory.wf s := rfl
@[simp] theorem exitThreads_wf (s : State) (c : Ctx) : Memory.wf (exitThreads s c) = Memory.wf s := by
  grind [exitThreads, modBrick_wf, settleGroups_wf]
@[simp] theorem reap_wf (s : State) : Memory.wf (reap s) = Memory.wf s := by
  rw [← foldl_wf_eq (fun s x => commitCells s x.1) (fun s x => commitCells_wf s x.1) (s.bricks.filter (reapable s)) s]
  exact Memory.wf_congr ⟨rfl, rfl, rfl, rfl⟩
@[simp] theorem endWalls_wf (s : State) : Memory.wf (endWalls s) = Memory.wf s := by
  unfold endWalls
  extract_lets
  split <;> rfl

/-! ### System registers and traps: what leaves memory alone -/

@[simp] theorem arm_wf (s : State) (c : Ctx) (a2 : Option Armed) : Memory.wf (arm s c a2) = Memory.wf s := rfl
@[simp] theorem answerFault_wf (s : State) (die asid vpn : Nat) (fail : Bool) :
    Memory.wf (answerFault s die asid vpn fail) = Memory.wf s := by
  unfold answerFault; split <;> rfl
@[simp] theorem withdraw_wf (s : State) (b k : Nat) : Memory.wf (withdraw s b k) = Memory.wf s := rfl
@[simp] theorem dropCommand_wf (s : State) (b id : Nat) : Memory.wf (dropCommand s b id) = Memory.wf s := by
  unfold dropCommand; split <;> rfl
@[simp] theorem dropBegun_wf (s : State) (b : Nat) (op : Option WaitOp) : Memory.wf (dropBegun s b op) = Memory.wf s := by
  unfold dropBegun
  split
  · rfl
  · rfl
  · exact dropCommand_wf s b _
  · rfl
@[simp] theorem leaveOne_wf (s : State) (b k : Nat) : Memory.wf (leaveOne s b k) = Memory.wf s := by
  grind [leaveOne, withdraw_wf, dropBegun_wf]
@[simp] theorem resumeSplit_wf (s : State) (b k ret : Nat) : Memory.wf (resumeSplit s b k ret) = Memory.wf s := by
  grind [resumeSplit, modSplit_wf, leaveOne_wf]
@[simp] theorem leaveTrap_wf (s : State) (c : Ctx) : Memory.wf (leaveTrap s c) = Memory.wf s := by
  grind [leaveTrap, leaveSlot_wf, logAdd_wf, modBrick_wf, resumeSplit_wf]

/-! ### Copies and invalidations: what leaves memory alone -/

@[simp] theorem copyFault_wf (s : State) (id : Nat) (x : Copy) (die kind va : Nat) :
    Memory.wf (copyFault s id x die kind va) = Memory.wf s := by
  show Memory.wf (if decide (faultsHeld s die < 1024) then addFault s die x.asid va kind true else s) = Memory.wf s
  split
  · exact addFault_wf ..
  · rfl
@[simp] theorem noteReads_wf (s : State) (l : List Loc) : Memory.wf (noteReads s l) = Memory.wf s :=
  foldl_wf_eq _ (by grind [noteRead_wf]) _ s
@[simp] theorem crossLanes_wf (s : State) (x : Copy) (die : Nat) (src : List Loc) : Memory.wf (crossLanes s x die src).1 = Memory.wf s := by
  unfold crossLanes; split <;> rfl
@[simp] theorem markStale_wf (s : State) (base len asid : Nat) (sp : Scope) (mine : Nat) :
    Memory.wf (markStale s base len asid sp mine) = Memory.wf s := rfl
@[simp] theorem removeStep_wf (s : State) (b : Nat) (br : Brick) (f : Flight) (all : Bool) (base len asid : Nat) (sp : Scope) :
    Memory.wf (removeStep s b br f all base len asid sp) = Memory.wf s := rfl

/-! ### Reports: what leaves memory alone -/

@[simp] theorem lateTrap_wf (s : State) (b : Nat) (f : Flight) (t : LateTrap) : Memory.wf (lateTrap s b f t) = Memory.wf s := by
  grind [lateTrap, reportLate_wf]
@[simp] theorem oweTrap_wf (s : State) (b : Nat) (f : Flight) (t : LateTrap) : Memory.wf (oweTrap s b f t) = Memory.wf s := by
  grind [oweTrap, modBrick_wf]
@[simp] theorem refuseLine_wf (s : State) (b : Nat) (f : Option Flight) (cause : BitVec 9) (va : Nat) :
    Memory.wf (refuseLine s b f cause va) = Memory.wf s := by grind [refuseLine, lateTrap_wf, dropLine_wf]
@[simp] theorem reportTrap_wf (s : State) (b : Nat) (f : Flight) (t : LateTrap) : Memory.wf (reportTrap s b f t) = Memory.wf s := by
  grind [reportTrap, oweTrap_wf, lateTrap_wf]
@[simp] theorem endFlight_wf (s : State) (b seq : Nat) : Memory.wf (endFlight s b seq) = Memory.wf s := rfl
@[simp] theorem setKind_wf (s : State) (b seq : Nat) (kind : FlightKind) (due : Nat) : Memory.wf (setKind s b seq kind due) = Memory.wf s :=
  rfl

/-! ### Launches: what leaves memory alone -/

@[simp] theorem tellLauncher_wf (s : State) (sub : Submit) (w : W64) : Memory.wf (tellLauncher s sub w) = Memory.wf s := by
  unfold tellLauncher; split <;> rfl
@[simp] theorem submitLaunch_wf (s : State) (b k : Nat) (br : Brick) (va : Nat) : Memory.wf (submitLaunch s b k br va) = Memory.wf s := rfl

/-! ### Placement: what leaves memory alone -/

@[simp] theorem startNets_wf (s : State) (l : Launch) : Memory.wf (startNets s l) = Memory.wf s := by
  unfold startNets
  refine foldl_wf_eq _ (fun s e => ?_) l.nets s
  rw [foldl_wf_eq]
  exact fun _ _ => rfl
@[simp] theorem startSems_wf (s : State) (l : Launch) : Memory.wf (startSems s l) = Memory.wf s := rfl
@[simp] theorem startBricks_wf (launch : Nat) (l : Launch) (wall core : Nat) (bs : List (Nat × Nat)) :
    ∀ (s : State) (id : Nat), Memory.wf (startBricks s launch l wall core id bs) = Memory.wf s := by
  induction bs with
  | nil => exact fun _ _ => rfl
  | cons x bs ih =>
    intro s id
    unfold startBricks
    split
    · rfl
    · exact ih _ _
@[simp] theorem dropFault_wf (s : State) (b : Nat) : Memory.wf (dropFault s b) = Memory.wf s := rfl
@[simp] theorem withdrawAtSave_wf (s : State) (b k : Nat) : Memory.wf (withdrawAtSave s b k) = Memory.wf s := by
  unfold withdrawAtSave; split <;> rfl
@[simp] theorem waitAgain_wf (s : State) (b k : Nat) (o : ObjRef) (d : Nat) (g : Bool) :
    Memory.wf (waitAgain s b k o d g) = Memory.wf s := by
  grind [waitAgain, setOp_wf]

/-! ### Rows: what leaves memory alone -/

@[simp] theorem setPool_wf (s : State) (br : Brick) (role rows : Nat) : Memory.wf (setPool s br role rows) = Memory.wf s := rfl
@[simp] theorem takeGranules_wf (s : State) (b : Nat) (br : Brick) (n : Nat) : Memory.wf (takeGranules s b br n).1 = Memory.wf s := rfl

/-! ### The fabric: what leaves memory alone -/

@[simp] theorem failParty_wf (s : State) (cause : BitVec 9) (p : Party) : Memory.wf (failParty s cause p) = Memory.wf s := by
  grind [failParty, endFlight_wf, reportTrap_wf]
@[simp] theorem failColl_wf (s : State) (key : Nat) (x : Coll) (cause : BitVec 9) (skip : Party → Bool) :
    Memory.wf (failColl s key x cause skip) = Memory.wf s :=
  foldl_wf_eq _ (fun s p => failParty_wf s cause p) _ _
@[simp] theorem denyParty_wf (s : State) (key : Nat) (p : Party) (cause : BitVec 9) :
    Memory.wf (denyParty s key p cause) = Memory.wf s := by
  grind [denyParty, failParty_wf, failColl_wf]
@[simp] theorem joinColl_wf (s : State) (key : Nat) (p : Party) : Memory.wf (joinColl s key p) = Memory.wf s := by
  have hput (t : Tab Coll) : Memory.wf { s with colls := t } = Memory.wf s := rfl
  grind [joinColl, failParty_wf, denyParty_wf, failColl_wf]
@[simp] theorem openColl_wf (s : State) (part group index : Nat) : Memory.wf (openColl s part group index) = Memory.wf s := by
  unfold openColl
  extract_lets
  split <;> rfl
@[simp] theorem writeRegs_wf (s : State) (b : Nat) (ws : List RegWrite) : Memory.wf (writeRegs s b ws) = Memory.wf s := rfl
@[simp] theorem pickFailing_wf (l : List Acc) : ∀ s : State, Memory.wf (pickFailing s l).1 = Memory.wf s := by
  induction l with
  | nil => exact fun _ => rfl
  | cons a l ih => exact fun s => ih (nextFree s).2
@[simp] theorem assignKey_wf (s : State) (module : BitVec 11) (key part : BitVec 16) :
    Memory.wf (assignKey s module key part) = Memory.wf s := by
  unfold assignKey
  extract_lets
  split <;> rfl
@[simp] theorem writeLrec_wf (s : State) (v : W64) : Memory.wf (writeLrec s v) = Memory.wf s := by
  unfold writeLrec
  split
  · rfl
  · split <;> rfl
@[simp] theorem clearWstat_wf (s : State) (lost bad : Bool) : Memory.wf (clearWstat s lost bad) = Memory.wf s := rfl
@[simp] theorem windowWrite_wf (s : State) (off : Nat) (bytes : List Byte) : Memory.wf (windowWrite s off bytes) = Memory.wf s := by
  have hlasid (v : BitVec 16) : Memory.wf { s with lasid := v } = Memory.wf s := rfl
  grind [windowWrite, writeLrec_wf, clearWstat_wf]

/-! ### Completion: what leaves memory alone -/

@[simp] theorem deliver_wf (s : State) (b : Nat) (f : Flight) (d : Done) : Memory.wf (deliver s b f d) = Memory.wf s := by
  grind [deliver, modBrick_wf, lateTrap_wf, endFlight_wf]

/-! ### Landing and the slot: what leaves memory alone -/

@[simp] theorem landOne_wf (s : State) (b : Nat) (p : Pend) : Memory.wf (landOne s b p) = Memory.wf s := by
  grind [landOne, nextFree_wf, modBrick_wf]
@[simp] theorem landAll_wf (s : State) (b : Nat) (br : Brick) : Memory.wf (landAll s b br) = Memory.wf s :=
  foldl_wf_eq _ (fun s p => landOne_wf s b p) _ s
@[simp] theorem writeFx_wf (s : State) (b : Nat) (p : FxPend) : Memory.wf (writeFx s b p) = Memory.wf s := rfl
@[simp] theorem closeCollection_wf (s : State) (b : Nat) (br : Brick) : Memory.wf (closeCollection s b br) = Memory.wf s := by
  grind [closeCollection, modBrick_wf, takeTrap_wf]
@[simp] theorem closeDue_wf (s : State) (b : Nat) : Memory.wf (closeDue s b) = Memory.wf s := by grind [closeDue, closeCollection_wf]
@[simp] theorem detect_wf (s : State) (b : Nat) (d : Diverged) : Memory.wf (detect s b d) = Memory.wf s := by
  grind [detect, modBrick_wf, reportLate_wf]
@[simp] theorem enterSlot_wf (s : State) (b : Nat) (br : Brick) (r : TrapRec) : Memory.wf (enterSlot s b br r) = Memory.wf s := rfl

/-! ### Waits: what leaves memory alone -/

@[simp] theorem finishWait_wf (s : State) (c : Ctx) (w : Wait) (ws : List RegWrite) : Memory.wf (finishWait s c w ws) = Memory.wf s := rfl
@[simp] theorem trapWait_wf (s : State) (c : Ctx) (w : Wait) (t : TrapReq) : Memory.wf (trapWait s c w t) = Memory.wf s := by
  grind [trapWait, leaveOne_wf, modSplit_wf, takeTrap_wf]
@[simp] theorem leaveHod_wf (s : State) (o : ObjRef) (b k : Nat) : Memory.wf (leaveHod s o b k) = Memory.wf s := by
  grind [leaveHod, putHod_wf]
@[simp] theorem parkProd_wf (s : State) (o : ObjRef) (c : Ctx) : Memory.wf (parkProd s o c) = Memory.wf s := by grind [parkProd, putHod_wf]
@[simp] theorem parkCons_wf (s : State) (o : ObjRef) (c : Ctx) : Memory.wf (parkCons s o c) = Memory.wf s := by grind [parkCons, putHod_wf]
@[simp] theorem submitHeld_wf (s : State) (b id : Nat) (tEnd : Option Nat) : Memory.wf (submitHeld s b id tEnd) = Memory.wf s := rfl
@[simp] theorem unfree_wf (s : State) (b : Nat) (w : Wait) : Memory.wf (unfree s b w) = Memory.wf s := by grind [unfree, putHod_wf]

/-! ### Commits: what leaves memory alone -/

@[simp] theorem commitFails_wf (s : State) (b : Nat) (f : Flight) (cause : BitVec 9) :
    Memory.wf (commitFails s b f cause) = Memory.wf s := by
  grind [commitFails, endFlight_wf, oweTrap_wf]
@[simp] theorem commitPoison_wf (s : State) (b : Nat) (f : Flight) (o : ObjRef) : Memory.wf (commitPoison s b f o) = Memory.wf s := by
  grind [commitPoison, endFlight_wf, oweTrap_wf]
@[simp] theorem commitWaits_wf (s : State) (b : Nat) (f : Flight) : Memory.wf (commitWaits s b f) = Memory.wf s := rfl
@[simp] theorem commitArrival_wf (s : State) (b : Nat) (f : Flight) (o : ObjRef) : Memory.wf (commitArrival s b f o) = Memory.wf s := by
  grind [commitArrival, voteBar_wf, commitPoison_wf, commitFails_wf, commitWaits_wf]

/-! ### Cure: what leaves memory alone -/

@[simp] theorem cureCst_wf (s : State) (c : Ctx) (r : Nat → CurePass) : Memory.wf (cureCst s c r) = Memory.wf s := rfl

/-! ### Services: what leaves memory alone -/

@[simp] theorem bootDie_wf (s : State) (d : Nat) : Memory.wf (bootDie s d) = Memory.wf s := by unfold bootDie; split <;> rfl
@[simp] theorem logFault_wf (s : State) (die kind strct : Nat) (core : Option Nat) :
    Memory.wf (logFault s die kind strct core) = Memory.wf s := rfl
@[simp] theorem faultBar_wf (s : State) (o : ObjRef) (copy : Nat) (w : BarWord) : Memory.wf (faultBar s o copy w) = Memory.wf s := by
  grind [faultBar, putBar_wf]
@[simp] theorem setSag_wf (s : State) (quad : Nat) (on : Bool) : Memory.wf (setSag s quad on) = Memory.wf s := rfl
@[simp] theorem setTj_wf (s : State) (die tj : Nat) : Memory.wf (setTj s die tj) = Memory.wf s := rfl

/-! ### Fetches: what leaves memory alone -/

@[simp] theorem fetchFails_wf (s : State) (c : Ctx) (x : Fetched) : Memory.wf (fetchFails s c x) = Memory.wf s := by
  cases x <;> grind [fetchFails, holdForm_wf, brickFault_wf, raiseTrap_wf]

/-! ### The clock: what leaves memory alone -/

@[simp] theorem takeOwed_wf (s : State) (b : Nat) : Memory.wf (takeOwed s b) = Memory.wf s := by grind [takeOwed, takeTrap_wf, modBrick_wf]
@[simp] theorem retryFaults_wf (s : State) : Memory.wf (retryFaults s) = Memory.wf s := rfl
@[simp] theorem landBricks_wf (l : List Nat) : ∀ s : State, Memory.wf (landBricks s l) = Memory.wf s := by
  induction l with
  | nil => exact fun _ => rfl
  | cons b l ih => grind [landBricks, landAll_wf]

end Sys2Proof.Machine

/-!
O8. What writes memory, from the walk of the translation tables to the versioned tiles.
-/
namespace Sys2Proof.Machine

/-! ### Answers that carry states in canonical form -/

def AccRes.Canonical : AccRes → Prop
  | .ok s _ | .trap s _ | .fault s _ _ => Memory.wf s = true

def HeadRes.Canonical : HeadRes → Prop
  | .ok s _ _ | .poison s _ | .trap s _ | .fault s _ => Memory.wf s = true
  | .hold => True

def Attempt.Canonical : Attempt → Prop
  | .done s _ | .again s _ _ | .trap s _ => Memory.wf s = true

def Res.Canonical : Res → Prop
  | .done s | .doneTurn s | .jump s | .jumpTurn s | .trap s _ | .park s _ _ | .parkCounted s _ | .stay s => Memory.wf s = true
  | .hold => True

/-- The state of a form that has answered. -/
theorem settle_wf {s : State} (h : Memory.wf s = true) (c : Ctx) (f : Form) {r : Res} (hr : r.Canonical) :
    Memory.wf (settle s c f r) = true := by
  cases r <;> grind [settle, Res.Canonical, retire_wf, switchTurn_wf, retireJump_wf, raiseTrap_wf, trapState_wf, holdForm_wf, parkOn_wf]

section
variable {s : State} (h : Memory.wf s = true)
include h

theorem fixed_wf (c : Ctx) (f : Form) (lat : Nat) (ws : List RegWrite) : (fixed s c f lat ws).Canonical :=
  (pushPend_wf s c f lat ws [] false).trans h

theorem fpThreads_wf (c : Ctx) (f : Form) (lat : Nat) (out : Nat → ThreadOut) (fm : Option Fmt) (raises : Bool) :
    (fpThreads s c f lat out fm raises).Canonical := (pushFp_wf s c f lat _ _ _ fm raises).trans h

/-! ### Translation -/

theorem readTable_wf (pa : Nat) : Memory.wf (readTable s pa).1 = true := by
  grind [readTable, checkLine_wf, observe_wf]

theorem tableEntry_wf (cache die asid shift tag pa : Nat) : Memory.wf (tableEntry s cache die asid shift tag pa).1 = true := by
  have htlb (s : State) (l : List TlbEntry) : Memory.wf { s with tlb := l } = Memory.wf s := rfl
  grind [tableEntry, readTable_wf, nextFree_wf]

theorem walkFrom_wf (cache die asid va : Nat) (levels : List (Nat × Nat)) (table : Nat) :
    Memory.wf (walkFrom s cache die asid va levels table).1 = true := by
  induction levels generalizing s table with
  | nil => exact h
  | cons l levels ih => grind [walkFrom, tableEntry_wf]

theorem rootOf_wf (asid : Nat) : Memory.wf (rootOf s asid).1 = true := by
  grind [rootOf, readTable_wf]

theorem translate_wf (cache die asid : Nat) (prv : Bool) (kind va : Nat) : Memory.wf (translate s cache die asid prv kind va).1 = true := by
  grind [translate, rootOf_wf, walkFrom_wf]

theorem brickTranslate_wf (c : Ctx) (kind va : Nat) : Memory.wf (brickTranslate s c kind va).1 = true := by
  grind [brickTranslate, translate_wf]

/-! ### The accesses of a form -/

theorem firstFail_wf (kind : Nat) (all l : List (Nat × ThreadAcc)) (acc : List Acc) : (firstFail s kind all l acc).Canonical := by
  induction l generalizing acc with
  | nil => exact h
  | cons x l ih =>
    obtain ⟨t, r⟩ := x
    cases r with
    | ok a => exact ih _
    | cause _ _ => exact h
    | fault _ => exact h

theorem localAccs_wf (c : Ctx) (addr : Nat → W64) (g : Nat → Bool) (n : Nat) (bad : Nat → Bool) :
    (localAccs s c addr g n bad).Canonical :=
  firstFail_wf h _ _ _ _

theorem globalThread_wf (c : Ctx) (kind : Nat) (avail : Home → Bool) (va n : Nat) (bad : Bool) (t : Nat) (aG : Bool) :
    Memory.wf (globalThread s c kind avail va n bad t aG).1 = true := by
  grind [globalThread, brickTranslate_wf]

theorem globalThreads_wf (c : Ctx) (kind : Nat) (avail : Home → Bool) (addr : Nat → W64) (g : Nat → Bool) (n : Nat) (bad : Nat → Bool)
    (ts : List Nat) : Memory.wf (globalThreads s c kind avail addr g n bad ts).1 = true := by
  induction ts generalizing s with
  | nil => exact h
  | cons t ts ih => exact ih (globalThread_wf h ..)

theorem globalAccs_wf (c : Ctx) (kind : Nat) (avail : Home → Bool) (addr : Nat → W64) (g : Nat → Bool) (n : Nat) (bad : Nat → Bool) :
    (globalAccs s c kind avail addr g n bad).Canonical := firstFail_wf (globalThreads_wf h ..) _ _ _ _

theorem uniformAcc_wf (c : Ctx) (kind : Nat) (e : W64) (g : Bool) : (uniformAcc s c kind e g).Canonical := by
  grind [uniformAcc, globalThread_wf, firstFail_wf, AccRes.Canonical]

omit h in
theorem withAccs_wf (c : Ctx) {r : AccRes} (hr : r.Canonical) {k : State → List Acc → Res}
    (hk : ∀ s accs, Memory.wf s = true → (k s accs).Canonical) : (withAccs c r k).Canonical := by
  cases r with
  | ok s accs => exact hk s accs hr
  | trap s t => exact hr
  | fault s va kind => exact (brickFault_wf s c kind va).trans hr

/-! ### Performing -/

theorem checkLines_wf (ls : List Loc) : Memory.wf (checkLines s ls).1 = true := by
  induction ls generalizing s with
  | nil => exact h
  | cons l ls ih => exact ih (checkLine_wf h l)

theorem performLoad_wf (b : Nat) (accs : List Acc) (dst : LoadDst) (gov : Bool) : Memory.wf (performLoad s b accs dst gov).1 = true := by
  have hread (s : State) (l : List Acc) : Memory.wf (l.foldl (fun s a => noteRead s a.loc a.n) s) = Memory.wf s :=
    foldl_wf_eq _ (fun s a => noteRead_wf s a.loc a.n) l s
  have hseen (s : State) (l : List Acc) : Memory.wf (l.foldl (fun s a => observe s (some b) a.loc a.n) s) = Memory.wf s :=
    foldl_wf_eq _ (fun s a => observe_wf s (some b) a.loc a.n) l s
  grind [performLoad, checkLines_wf]

theorem readThrough_wf (view : State) (b : Nat) (accs : List Acc) (dst : LoadDst) (gov : Bool) :
    Memory.wf (readThrough s view b accs dst gov).1 = true := performLoad_wf h b accs dst gov

theorem performAtom1_wf (b : Nat) (r : AtomReq) (op : AtomOp) (ty : Ty) (rd : Rounding) (dst : Option Nat) (gov : Bool) :
    Memory.wf (performAtom1 s b r op ty rd dst gov).1 = true := by
  grind [performAtom1, sendOut_wf, checkLine_wf, observe_wf, writeAll_wf]

theorem performAtom_wf (b : Nat) (op : AtomOp) (ty : Ty) (rd : Rounding) (dst : Option Nat) (gov : Bool) (l : List AtomReq) :
    Memory.wf (performAtom s b op ty rd dst gov l).1 = true := by
  induction l generalizing s with
  | nil => exact h
  | cons r l ih => exact ih (performAtom1_wf h ..)

theorem readSource_wf (b : Nat) (green : Bool) (ls : List Loc) : Memory.wf (readSource s b green ls).1 = true := by
  induction ls generalizing s with
  | nil => exact h
  | cons l ls ih => grind [readSource, checkLine_wf, noteRead_wf, observe_wf]

theorem putLine_wf (b : Nat) (x : List Byte × Bool) (dst : Loc) : Memory.wf (putLine s b x dst) = true :=
  writeAll_wf (by simpa using h) _ _ _

theorem signalFlag_wf (b : Nat) (flag : Loc) (add : Bool) (v : BitVec 32) (green : Bool) :
    Memory.wf (signalFlag s b flag add v green).1 = true := by
  grind [signalFlag, sendOut_wf, checkLine_wf, observe_wf, writeAll_wf]

theorem gatherOwn_wf (b : Nat) (green : Bool) (bad : List Acc) (ls : List (Loc × Nat × Loc)) (data : Option (List (List Byte × Bool))) :
    Memory.wf (gatherOwn s b green bad ls data).1 = true := by
  induction ls generalizing s data with
  | nil => exact h
  | cons l ls ih => cases data <;> grind [gatherOwn, readSource_wf]

theorem sendOwn_wf (b : Nat) (green : Bool) (bad : List Acc) (lines : List (Loc × Nat × Loc)) (data : Option (List (List Byte × Bool))) :
    Memory.wf (sendOwn s b green bad lines data) = true :=
  foldl_wf _ (fun _ x h => putLine_wf h b x.2 x.1) _ (gatherOwn_wf h b green bad lines data)

theorem putAll_wf (b : Nat) (ls : List (Loc × Nat × Loc)) (xs : List (List Byte × Bool)) : Memory.wf (putAll s b ls xs).1 = true := by
  induction ls generalizing s xs with
  | nil => exact h
  | cons l ls ih =>
    cases xs with
    | nil => exact h
    | cons x xs => exact ih (putLine_wf h b x l.2.2) xs

theorem issueLoad_wf (c : Ctx) (f : Form) (fc : Nat) (accs : List Acc) (dst : LoadDst) (name : RName) (now : Bool) :
    (issueLoad s c f fc accs dst name now).Canonical := by
  grind [issueLoad, Res.Canonical, readThrough_wf, pushFlight_wf, performLoad_wf]

theorem issueStore_wf (c : Ctx) (f : Form) (fc : Option Nat) (puts : List Put) : (issueStore s c f fc puts).Canonical := by
  grind [issueStore, Res.Canonical, pushFlight_wf, performStore_wf]

theorem storeAccs_wf (c : Ctx) (f : Form) (glob : Bool) (puts : List Put) : (storeAccs s c f glob puts).Canonical := by
  grind [storeAccs, Res.Canonical, issueStore_wf]

/-! ### Versioned tiles and tentative cells -/

theorem parkSync_wf (c : Ctx) (op : WaitOp) : (parkSync s c op).Canonical := by
  grind [parkSync, Res.Canonical, modBrick_wf]

theorem setVer_wf (pa ver wid : Nat) : Memory.wf (setVer s pa ver wid) = true := putBytes_wf _ _ (putBytes_wf _ _ h)

theorem headAddr_wf (c : Ctx) (kind va : Nat) : (headAddr s c kind va).Canonical := by
  grind [headAddr, HeadRes.Canonical, globalThread_wf, observe_wf, checkLine_wf]

omit h in
theorem withHead_wf (c : Ctx) (f : Form) (fc : Nat) (mark : Option RName) (kind : Nat) {r : HeadRes} (hr : r.Canonical)
    {k : State → Nat → Head → Res} (hk : ∀ s pa hd, Memory.wf s = true → (k s pa hd).Canonical) :
    (withHead c f fc mark kind r k).Canonical := by
  cases r with
  | ok s pa hd => exact hk s pa hd hr
  | hold => trivial
  | poison s l => exact (pushFlight_wf ..).trans hr
  | trap s t => exact hr
  | fault s va => exact (brickFault_wf s c kind va).trans hr

theorem withGoverning_wf (c : Ctx) (f : Form) (fc : Nat) (mark : Option RName) (kind va : Nat) {k : State → Nat → Nat → Head → Res}
    (hk : ∀ s pa va hd, Memory.wf s = true → (k s pa va hd).Canonical) : (withGoverning s c f fc mark kind va k).Canonical := by
  refine withHead_wf c f fc mark kind (headAddr_wf h c kind va) fun s pa hd hs => ?_
  split
  · exact hs
  · split
    · refine withHead_wf c f fc mark kind (headAddr_wf hs c kind hd.peer) fun s pa' hd' hs => ?_
      split
      · exact hs
      · exact hk _ _ _ _ hs
    · exact hk _ _ _ _ hs

theorem tstSlot_wf (b m : Nat) (gov : Bool) (p : Put) : Memory.wf (tstSlot s b m gov p).1 = true := by
  have hpairs (s : State) (t : Tab PairSlot) : Memory.wf { s with pairs := t } = Memory.wf s := rfl
  unfold tstSlot
  grind [checkLine_wf]

theorem tstSlots_wf (b m : Nat) (gov : Bool) (ps : List Put) : Memory.wf (tstSlots s b m gov ps).1 = true := by
  induction ps generalizing s with
  | nil => exact h
  | cons p ps ih => exact ih (tstSlot_wf h b m gov p)

theorem performTst_wf (b m : Nat) (gov : Bool) (puts : List Put) : Memory.wf (performTst s b m gov puts).1 = true :=
  writeAll_wf (tstSlots_wf h b m gov puts) _ _ _

theorem restoreCell_wf (key : Nat) (old : W64) : Memory.wf (restoreCell s key old) = true := by
  grind [restoreCell, checkLine_wf, putBytes_wf]

theorem performCell1_wf (b m : Nat) (gov undo : Bool) (a : Acc) : Memory.wf (performCell1 s b m gov undo a).1 = true := by
  have hpairs (t : Tab PairSlot) : Memory.wf { s with pairs := t } = true := h
  unfold performCell1
  grind [restoreCell_wf]

theorem performCells_wf (b m : Nat) (gov undo : Bool) (as : List Acc) : Memory.wf (performCells s b m gov undo as).1 = true := by
  induction as generalizing s with
  | nil => exact h
  | cons a as ih => exact ih (performCell1_wf h b m gov undo a)

theorem readHead_wf (who pa t n : Nat) : Memory.wf (readHead s who pa t n).1 = true := by
  grind [readHead, checkLine_wf, observe_wf]

theorem attemptLdtv_wf (b : Nat) (own : State → State) (pa va : Nat) (accs : List Acc) (p : Nat) (gov : Bool) (n : Nat) :
    (attemptLdtv s b own pa va accs p gov n).Canonical := by
  grind [attemptLdtv, Attempt.Canonical, readHead_wf, readThrough_wf]

theorem putsReach_wf (core asid : Nat) (prv : Bool) (ps : List Put) : Memory.wf (putsReach s core asid prv ps).1 = true := by
  induction ps generalizing s with
  | nil => exact h
  | cons p ps ih => grind [putsReach, translate_wf]

theorem attemptAon_wf (b : Nat) (br : Brick) (pa va : Nat) (twin : Option (Nat × Nat)) (puts tw : List Put) (gov : Bool) (n stage : Nat) :
    (attemptAon s b br pa va twin puts tw gov n stage).Canonical := by
  unfold attemptAon
  split <;> grind [Attempt.Canonical, readHead_wf, setVer_wf, putsReach_wf, performStore_wf, checkLines_wf]

theorem stepsAon_wf (b : Nat) (br : Brick) (pa va : Nat) (twin : Option (Nat × Nat)) (puts tw : List Put) (gov : Bool)
    (n stage fuel : Nat) : (stepsAon s b br pa va twin puts tw gov n stage fuel).Canonical := by
  induction fuel generalizing s stage with
  | zero => exact h
  | succ fuel ih =>
    have ha := attemptAon_wf h b br pa va twin puts tw gov n stage
    unfold stepsAon
    split
    · rename_i he
      rw [he] at ha
      exact ih ha _
    · exact ha

theorem commitAon_wf (b : Nat) (br : Brick) (pa va : Nat) (twin : Option (Nat × Nat)) (puts tw : List Put) (gov : Bool) (n : Nat) :
    (commitAon s b br pa va twin puts tw gov n).Canonical := stepsAon_wf h b br pa va twin puts tw gov n 0 4

end

end Sys2Proof.Machine

/-!
O8. What writes memory, from the tape and the branches to the matrix engine and the ends of bricks.
-/
namespace Sys2Proof.Machine

def SrcRes.Canonical : SrcRes → Prop
  | .ok s _ | .trap s _ | .fault s _ => Memory.wf s = true

def SegRes.Canonical : SegRes → Prop
  | .ok s _ | .trap s _ | .fault s _ => Memory.wf s = true

section
variable {s : State} (h : Memory.wf s = true)
include h

/-! ### Tapes as they are read, and branches -/

theorem readLine_wf (c : Ctx) (i : Nat) : Memory.wf (readLine s c i).1 = true := by
  grind [readLine, brickTranslate_wf, checkLine_wf, noteRead_wf]

theorem readLinesFrom_wf (c : Ctx) (i n : Nat) : Memory.wf (readLinesFrom s c i n).1 = true := by
  induction n generalizing s i with
  | zero => exact h
  | succ n ih => grind [readLinesFrom, readLine_wf]

theorem topEntry_wf (c : Ctx) (branch : Bool) (lbl cnt : Nat) : Memory.wf (topEntry s c branch lbl cnt).1 = true := by
  grind [topEntry, readLine_wf, readLinesFrom_wf]

theorem landing_wf (c : Ctx) (v : W64) : Memory.wf (landing s c v).1 = true := by
  grind [landing, brickTranslate_wf, checkLine_wf, noteRead_wf]

theorem branchLanes_wf (c : Ctx) (f : Form) (taken : BitVec 32) (target : Nat) (green : Bool) :
    (branchLanes s c f taken target green).Canonical := by
  unfold branchLanes
  grind [Res.Canonical, divide_wf, setTape_wf]

theorem laneTargets_wf (c : Ctx) (a : Reg) (ts : List Nat) : Memory.wf (laneTargets s c a ts).1 = true := by
  induction ts generalizing s with
  | nil => exact h
  | cons t ts ih => exact ih (landing_wf h c (c.w a t))

theorem jumpFirst_wf (c : Ctx) (f : Form) (arms : List Arm) (inv : BitVec 32) (green : Bool) :
    (jumpFirst s c f arms inv green).Canonical := by
  cases arms <;> grind [jumpFirst, Res.Canonical, divide_wf, takeTrap_wf]

theorem jumpAgain_wf (c : Ctx) (arms : List Arm) (inv : BitVec 32) (green : Bool) : (jumpAgain s c arms inv green).Canonical := by
  cases arms <;> grind [jumpAgain, Res.Canonical, modSplit_wf]

theorem joinTop_wf (c : Ctx) (e pm : BitVec 32) (pa : Nat) (rd : Bool) (gr : Option Nat) (gov : Bool) (frame : Option Nat) (pp : Nat)
    (l : List Entry) : (joinTop s c e pm pa rd gr gov frame pp l).Canonical := by
  unfold joinTop
  cases gr <;> grind [Res.Canonical, modSplit_wf, modBrick_wf, setBrick_wf]

/-! ### Hods -/

theorem takeSlot_wf (o : ObjRef) (b : Nat) : Memory.wf (takeSlot s o b).1 = true := by
  grind [takeSlot, checkLines_wf, takeHead_wf]

theorem serveCons_wf (o : ObjRef) (l : List (Nat × Nat)) : Memory.wf (serveCons o l s) = true := by
  induction l generalizing s with
  | nil => exact h
  | cons x l ih => grind [serveCons, takeSlot_wf, putHod_wf, setOp_wf]

theorem serveHod_wf (o : ObjRef) : Memory.wf (serveHod s o) = true := (serveProds_wf o _ _).trans (serveCons_wf h o _)

theorem freeHeld_wf (o : ObjRef) (b : Nat) : Memory.wf (freeHeld s o b) = true := by
  grind [freeHeld, serveHod_wf, putHod_wf]

theorem fillSlot_wf (o : ObjRef) (n : Nat) (lines : List (List Byte × Bool)) : Memory.wf (fillSlot s o n lines) = true := by
  grind [fillSlot, writeSlot_wf, serveHod_wf, putHod_wf]

theorem closeHod_wf (o : ObjRef) : Memory.wf (closeHod s o) = true := serveHod_wf ((putHod_wf s o _).trans h) o

omit h in
theorem initHod_wf {s t : State} (h : Memory.wf s = true) (o : ObjRef) (ht : initHod s o = some t) : Memory.wf t = true := by
  grind [initHod, putHod_wf]

omit h in
theorem releaseSem_wf {s t : State} (h : Memory.wf s = true) (o : ObjRef) (ht : releaseSem s o = some t) : Memory.wf t = true := by
  grind [releaseSem, voteSem_wf, serveQueue_wf, putSem_wf]

/-! ### Forms on objects -/

theorem giveNow_wf (c : Ctx) (d : Reg) (v : W64) (g : Bool) : (giveNow s c d v g).Canonical := h

theorem giveStatus_wf (c : Ctx) (d : Reg) (status : BitVec 9) (v : W64) (g : Bool) : (giveStatus s c d status v g).Canonical := by
  grind [giveStatus, Res.Canonical, giveNow_wf]

theorem badObject_wf (c : Ctx) : (badObject s c).Canonical := h

theorem bufferForm_wf (c : Ctx) (f : Form) (kind : FlightKind) : (bufferForm s c f kind).Canonical := (pushFlight_wf ..).trans h

theorem withBar_wf {n : Nat} (c : Ctx) (a : Reg) (k : BitVec n) (sp : Scope) {body : State → ObjRef → Bool → Res}
    (hb : ∀ s o rem, Memory.wf s = true → (body s o rem).Canonical) : (withBar s c a k sp body).Canonical := by
  grind [withBar, Res.Canonical, badObject_wf, voteBar_wf]

theorem withSem_wf {n : Nat} (c : Ctx) (a : Reg) (k : BitVec n) {body : State → ObjRef → Res}
    (hb : ∀ s o, Memory.wf s = true → (body s o).Canonical) : (withSem s c a k body).Canonical := by
  grind [withSem, Res.Canonical, badObject_wf, voteSem_wf]

theorem withHod_wf {n : Nat} (c : Ctx) (a : Reg) (k : BitVec n) {body : ObjRef → Bool → Res} (hb : ∀ o rem, (body o rem).Canonical) :
    (withHod s c a k body).Canonical := by
  grind [withHod, badObject_wf]

theorem virtLines_wf (c : Ctx) (kind : Nat) (avail : Home → Bool) (va n : Nat) : (virtLines s c kind avail va n).Canonical := by
  induction n generalizing s va with
  | zero => exact h
  | succ n ih => grind [virtLines, SrcRes.Canonical, globalThread_wf]

theorem srcLines_wf (c : Ctx) (v : W64) (n : Nat) : (srcLines s c v n).Canonical := by
  grind [srcLines, SrcRes.Canonical, virtLines_wf]

omit h in
theorem withLines_wf (c : Ctx) (kind : Nat) {r : SrcRes} (hr : r.Canonical) {body : State → List Loc → Res}
    (hb : ∀ s l, Memory.wf s = true → (body s l).Canonical) : (withLines c kind r body).Canonical := by
  cases r with
  | ok s l => exact hb s l hr
  | trap s t => exact hr
  | fault s va => exact (brickFault_wf s c kind va).trans hr

/-! ### Tapes as they are written -/

theorem walkPages_wf (c : Ctx) (l : List Nat) : Memory.wf (walkPages s c l).1 = true := by
  induction l generalizing s with
  | nil => exact h
  | cons va l ih => grind [walkPages, brickTranslate_wf]

theorem walkStale_wf (c : Ctx) (l : List Nat) : Memory.wf (walkStale s c l).1 = true := by
  induction l generalizing s with
  | nil => exact h
  | cons va l ih => grind [walkStale, brickTranslate_wf]

theorem addSegment_wf (c : Ctx) (t : Tape) (base len : W64) : (addSegment s c t base len).Canonical := by
  grind [addSegment, SegRes.Canonical, walkPages_wf]

theorem withTape_wf (c : Ctx) (ok : Nat → Bool) {body : State → Tape → Res} (hb : ∀ s t, Memory.wf s = true → (body s t).Canonical) :
    (withTape s c ok body).Canonical := by
  grind [withTape, Res.Canonical, walkStale_wf, brickFault_wf, freeTape_wf, setTape_wf]

theorem spillFirst_wf (b : Nat) (br : Brick) : Memory.wf (spillFirst s b br).1 = true := by
  grind [spillFirst, dropLine_wf, translate_wf, setTape_wf, addFault_wf, observe_wf, noteWrite_wf, putMeta_wf, writeSlot_wf]

theorem spillLines_wf (b n : Nat) : Memory.wf (spillLines s b n).1 = true := by
  induction n generalizing s with
  | zero => exact h
  | succ n ih => grind [spillLines, spillFirst_wf]

theorem spillTape_wf (b : Nat) : Memory.wf (spillTape s b).1 = true := by
  grind [spillTape, spillLines_wf]

theorem placeEntry_wf (c : Ctx) (f : Form) (t : Tape) (n : Nat) (lines : List (List Byte × Bool)) :
    (placeEntry s c f t n lines).Canonical := by
  grind [placeEntry, Res.Canonical, setTape_wf, pushFlight_wf]

theorem withEntry_wf (c : Ctx) (f : Form) (branch : Bool) (lbl cnt : Nat) {body : State → THead → List Byte → Bool → Res}
    (hb : ∀ s hd bytes g, Memory.wf s = true → (body s hd bytes g).Canonical) : (withEntry s c f branch lbl cnt body).Canonical := by
  have he := topEntry_wf h c branch lbl cnt
  unfold withEntry
  grind [Res.Canonical, brickFault_wf, holdForm_wf, popFlight_wf]

theorem popEntry_wf (c : Ctx) (f : Form) (hd : THead) (ws : List RegWrite) : (popEntry s c f hd ws).Canonical := (popFlight_wf ..).trans h

/-! ### The matrix engine -/

theorem withBank_wf (c : Ctx) (k : BitVec 4) {body : Nat → Bank → Res} (hb : ∀ p bk, (body p bk).Canonical) :
    (withBank s c k body).Canonical := by
  grind [withBank, Res.Canonical]

theorem acceptPlain_wf (c : Ctx) (p : Nat) (k : BitVec 4) (names : List RName) (op : ArrOp) : (acceptPlain s c p k names op).Canonical := h

theorem writeBack_wf (e : ArrEntry) (lines : List (List Byte × Bool)) : Memory.wf (writeBack s e lines) = true := by
  grind [writeBack, modBrick_wf, writeSlot_wf]

theorem runEntry_wf (core : Nat) (e : ArrEntry) : Memory.wf (runEntry s core e) = true := by
  grind [runEntry, logArray_wf, putBank_wf, modCore_wf, modBrick_wf, writeBack_wf, arrTrap_wf]

/-! ### Ends of bricks -/

theorem endObjects_wf (b : Nat) (killed : Bool) : Memory.wf (endObjects s b killed) = true := by
  unfold endObjects
  split
  · exact h
  · rename_i br _
    have hs : Memory.wf (commitCells (leaveHods (returnRows s br) b) b) = true := h
    have hserved := foldl_wf _ (fun _ o h => serveHod_wf h o) (hodsOf (commitCells (leaveHods (returnRows s br) b) b) br.launch) hs
    refine (foldl_wf_eq _ (fun s o => ?_) _ _).trans ?_
    · cases killed
      · exact exitBar_wf s b o
      · exact killBar_wf s b br.launch o
    · split <;> exact hserved

theorem countAll_wf (bs : List Nat) (n : Nat) : Memory.wf (countAll s bs n) = true := by
  induction n generalizing s with
  | zero => exact h
  | succ n ih => grind [countAll, countArrival_wf, modBrick_wf, endObjects_wf]

theorem countWaiting_wf (launch : Nat) : Memory.wf (countWaiting s launch) = true := countAll_wf h _ _

theorem exitLast_wf (c : Ctx) : Memory.wf (exitLast s c) = true := by
  grind [exitLast, leaveQueues_wf, leaveSlot_wf, freeTape_wf, modBrick_wf, endObjects_wf]

theorem zeroSlot_wf (o : ObjRef) (n : Nat) : Memory.wf (zeroSlot s o n) = true := fillSlot_wf h o n _

theorem zeroFill_wf (f : Flight) (o : ObjRef) (n : Nat) : Memory.wf (zeroFill s f o n).1 = true := by
  grind [zeroFill, zeroSlot_wf]

theorem stopCopy_wf (f : Flight) (id : Nat) : Memory.wf (stopCopy s f id).1 = true := by
  have hcopies (t : Tab Copy) : Memory.wf { s with copies := t } = true := h
  grind [stopCopy, zeroFill_wf]

theorem killFlight_wf (f : Flight) : Memory.wf (killFlight s f).1 = true := by
  have hcopies (t : Tab Copy) : Memory.wf { s with copies := t } = true := h
  unfold killFlight
  cases f.kind <;> grind [nextFree_wf, stopCopy_wf, zeroFill_wf]

theorem killFlights_wf (fs : List Flight) : Memory.wf (killFlights s fs).1 = true := by
  induction fs generalizing s with
  | nil => exact h
  | cons f fs ih => exact ih (killFlight_wf h f)

theorem killBrick_wf (b : Nat) (cause : BitVec 9) (strct : Nat) : Memory.wf (killBrick s b cause strct) = true := by
  have hcopies (s : State) (t : Tab Copy) : Memory.wf { s with copies := t } = Memory.wf s := rfl
  grind [killBrick, logAdd_wf, leaveQueues_wf, leaveSlot_wf, killFlights_wf, modBrick_wf, endObjects_wf]

end

end Sys2Proof.Machine

/-!
O8. What writes memory: the system registers, the copy and translation engines.
-/
namespace Sys2Proof.Machine

def Pieces.Canonical : Pieces → Prop
  | .ok s _ | .fault s _ | .bad s => Memory.wf s = true

theorem observeEach_wf (s : State) (b : Option Nat) (l : List Loc) : Memory.wf (l.foldl (fun s p => observe s b p 1) s) = Memory.wf s :=
  foldl_wf_eq _ (fun s p => observe_wf s b p 1) l s

section
variable {s : State} (h : Memory.wf s = true)
include h

/-! ### Injected faults and system registers -/

theorem injectEntry_wf {c : Ctx} {bank row col bit : Nat} {t : State} (ht : injectEntry s c bank row col bit = some t) :
    Memory.wf t = true := by
  grind [injectEntry, putBank_wf]

theorem injectLane_wf {c : Ctx} {r th bit : Nat} {t : State} (ht : injectLane s c r th bit = some t) : Memory.wf t = true := by
  grind [injectLane, modBrick_wf]

theorem injectLine_wf {c : Ctx} {line bit : Nat} {t : State} (ht : injectLine s c line bit = some t) : Memory.wf t = true := by
  grind [injectLine, putByte_wf]

theorem injectErr_wf (l : Loc) (bits : List Nat) : Memory.wf (injectErr s l bits) = true := putMeta_wf h l _

theorem injectDouble_wf {c : Ctx} {line bit : Nat} {t : State} (ht : injectDouble s c line bit = some t) : Memory.wf t = true := by
  grind [injectDouble, injectErr_wf]

theorem injectAt_wf {c : Ctx} {bit : Nat} {t : State} (ht : injectAt s c bit = some t) : Memory.wf t = true := by
  grind [injectAt, injectErr_wf]

theorem injectValue_wf {c : Ctx} {v : W64} {t : State} (ht : injectValue s c v = some t) : Memory.wf t = true := by
  grind [injectValue, arm_wf, injectEntry_wf, injectLane_wf, injectLine_wf, injectDouble_wf, injectAt_wf]

theorem writeMode_wf (c : Ctx) (v : W64) : (writeMode s c v).Canonical := by
  grind [writeMode, Res.Canonical, modBrick_wf]

theorem writeHkctl_wf (c : Ctx) (v : W64) : (writeHkctl s c v).Canonical := by
  have hp (n : Nat) (b : Bool) : Memory.wf { s with plim := n, reqSig := b } = true := h
  grind [writeHkctl, Res.Canonical]

theorem writeInject_wf (c : Ctx) (v : W64) : (writeInject s c v).Canonical := by
  grind [writeInject, Res.Canonical, injectValue_wf, modBrick_wf]

theorem sysWrite_wf (c : Ctx) (y : BitVec 7) (v : W64) : (sysWrite s c y v).Canonical := by
  have ht (v : W64) : Memory.wf { s with asidTab := v } = true := h
  unfold sysWrite
  split <;> grind [Res.Canonical, writeMode_wf, modBrick_wf, writeInject_wf, writeHkctl_wf]

theorem untagged_wf (c : Ctx) (a : Reg) {r : Res} (hr : r.Canonical) : (untagged s c a r).Canonical := by
  grind [untagged, Res.Canonical]

/-! ### The copy engine and TLBI -/

theorem copyTranslate_wf (x : Copy) (die kind va : Nat) : Memory.wf (copyTranslate s x die kind va).1 = true := by
  grind [copyTranslate, translate_wf]

theorem copyPlaces_wf (x : Copy) (w : Wall) (kind : Nat) (virt : Bool) (a n fuel : Nat) :
    (copyPlaces s x w kind virt a n fuel).Canonical := by
  induction fuel generalizing s a n with
  | zero => exact h
  | succ fuel ih => grind [copyPlaces, Pieces.Canonical, copyTranslate_wf]

theorem endCopy_wf (id : Nat) (x : Copy) (code : Nat) : Memory.wf (endCopy s id x code) = true := by
  have hc : Memory.wf { s with copies := tabDel s.copies id } = true := h
  unfold endCopy
  rw [modBrick_wf]
  grind [fillSlot_wf, zeroSlot_wf]

theorem copyRead_wf (b : Nat) (l : List Loc) : Memory.wf (copyRead s b l).1 = true :=
  (observeEach_wf ..).trans (checkLines_wf ((noteReads_wf ..).trans h) _)

theorem copyWrite_wf (id : Nat) (x : Copy) (dst : List Loc) (bytes : List Byte) (green : Bool) :
    Memory.wf (copyWrite s id x dst bytes green) = true := by
  have hcopies (s : State) (t : Tab Copy) : Memory.wf { s with copies := t } = Memory.wf s := rfl
  have hwritten (s : State) (h : Memory.wf s = true) (l : List WByte) :
      Memory.wf (writeAll (dst.foldl (fun s p => observe s (some x.brick) p 1) s) l green false) = true :=
    writeAll_wf ((observeEach_wf ..).trans h) l green false
  grind [copyWrite, noteWrite_wf, freeDue_wf, endCopy_wf]

theorem copySpan_wf (id : Nat) (x : Copy) (w : Wall) : Memory.wf (copySpan s id x w) = true := by
  have hcopies (s : State) (t : Tab Copy) : Memory.wf { s with copies := t } = Memory.wf s := rfl
  unfold copySpan
  extract_lets y k
  clear_value y k
  have hsrc := copyPlaces_wf h y w kRead y.src.1 (y.src.2 + y.pos) k 3
  split
  · grind [Pieces.Canonical, endCopy_wf]
  · grind [Pieces.Canonical, copyFault_wf]
  · grind [Pieces.Canonical, copyPlaces_wf, endCopy_wf, copyFault_wf, copyRead_wf, crossLanes_wf, copyWrite_wf]

theorem acceptCopy_wf (id : Nat) (x : Copy) (o : ObjRef) : Memory.wf (acceptCopy s id x o) = true := by
  have hcopies (s : State) (t : Tab Copy) : Memory.wf { s with copies := t } = Memory.wf s := rfl
  grind [acceptCopy, endCopy_wf, reserveSlot_wf]

theorem tlbiStep_wf {b : Nat} {br : Brick} {f : Flight} {t : State} (ht : tlbiStep s b br f = some t) : Memory.wf t = true := by
  grind [tlbiStep, removeStep_wf, modBrick_wf, markStale_wf]

end

end Sys2Proof.Machine

/-!
O8. What writes memory: the site processor that accepts a launch. Its programs end, or stop with a status, in a state in
canonical form when they start in one.
-/
namespace Sys2Proof.Machine

structure Site.Canonical {α : Type} (m : Site α) : Prop where
  keeps : ∀ s, Memory.wf s = true → match m s with | .ok _ t | .error _ t => Memory.wf t = true

theorem Site.Canonical.pure {α : Type} (x : α) : (pure x : Site α).Canonical := ⟨fun _ h => h⟩

theorem Site.Canonical.throw {α : Type} (st : Nat) : (throw st : Site α).Canonical := ⟨fun _ h => h⟩

theorem Site.need_wf (b : Bool) (st : Nat) : (Site.need b st).Canonical := by cases b <;> exact ⟨fun _ h => h⟩

theorem Site.Canonical.bind {α β : Type} {m : Site α} {f : α → Site β} (hm : m.Canonical) (hf : ∀ x, (f x).Canonical) :
    (m >>= f).Canonical := by
  refine ⟨fun s h => ?_⟩
  have hs := hm.keeps s h
  change match EStateM.bind m f s with | .ok _ t | .error _ t => Memory.wf t = true
  unfold EStateM.bind
  cases hr : m s with
  | ok x t => exact (hf x).keeps t (by simpa [hr] using hs)
  | error st t => simpa [hr] using hs

/-- The state that `get` answers is the one the program stands in. -/
theorem Site.Canonical.get_bind {β : Type} {f : State → Site β} (hf : ∀ t, Memory.wf t = true → (f t).Canonical) :
    (get >>= f : Site β).Canonical := ⟨fun s h => (hf s h).keeps s h⟩

theorem Site.Canonical.set {s : State} (h : Memory.wf s = true) : (set s : Site PUnit).Canonical := ⟨fun _ _ => h⟩

theorem Site.Canonical.modify {f : State → State} (hf : ∀ s, Memory.wf s = true → Memory.wf (f s) = true) :
    (modify f : Site PUnit).Canonical := ⟨hf⟩

theorem Site.Canonical.ite {α : Type} {p : Prop} [Decidable p] {m n : Site α} (hm : m.Canonical) (hn : n.Canonical) :
    (if p then m else n).Canonical := by
  split
  · exact hm
  · exact hn

/-- One of two steps, and what follows either of them. -/
theorem Site.Canonical.either {α β : Type} {p : Prop} [Decidable p] {m n : Site β} {k : β → Site α} (hm : m.Canonical)
    (hn : n.Canonical) (hk : ∀ x, (k x).Canonical) : (if p then m >>= k else n >>= k).Canonical :=
  .ite (hm.bind hk) (hn.bind hk)

/-- A step taken under a condition, and what follows in either case. -/
theorem Site.Canonical.when {α β : Type} {p : Prop} [Decidable p] {m : Site β} {k : Site α} (hm : m.Canonical)
    (hk : k.Canonical) : (if p then m >>= fun _ => k else k).Canonical :=
  .ite (hm.bind fun _ => hk) hk

/-! ### Reading and writing the record and the object -/

theorem siteWrite_wf {s : State} (h : Memory.wf s = true) (l : Loc) (bytes : List Byte) (atomic : Bool) :
    Memory.wf (siteWrite s l bytes atomic) = true :=
  writeAll_wf ((observe_wf ..).trans h) _ false atomic

theorem levelZero_wf {s : State} (h : Memory.wf s = true) (levels : List (Nat × Nat)) (va table : Nat) :
    Memory.wf (levelZero s levels va table).1 = true := by
  induction levels generalizing s table with
  | nil => exact h
  | cons l levels ih => grind [levelZero, readTable_wf]

theorem levelZeroOf_wf {s : State} (h : Memory.wf s = true) (asid va : Nat) : Memory.wf (levelZeroOf s asid va).1 = true := by
  grind [levelZeroOf, rootOf_wf, levelZero_wf]

theorem siteAddr_wf (sp : Space) (kind va st : Nat) : (siteAddr sp kind va st).Canonical := by
  refine ⟨fun s h => ?_⟩
  have ht := translate_wf h (128 + sp.die) sp.die sp.asid sp.prv kind va
  grind [siteAddr]

theorem sitePiece_wf (sp : Space) (st va n : Nat) : (sitePiece sp st va n).Canonical :=
  (siteAddr_wf ..).bind fun l => by
    refine ⟨fun s h => ?_⟩
    have hl := (observe_wf (checkLine s l.line).1 none l n).trans (checkLine_wf h l.line)
    grind

theorem siteLines_wf (sp : Space) (st va n fuel : Nat) : (siteLines sp st va n fuel).Canonical := by
  induction fuel generalizing va n with
  | zero => exact .pure []
  | succ fuel ih =>
    unfold siteLines
    split
    · exact .pure []
    · exact (sitePiece_wf ..).bind fun _ => (ih ..).bind fun _ => .pure _

theorem siteRead_wf (sp : Space) (st va n : Nat) : (siteRead sp st va n).Canonical := siteLines_wf ..

theorem sitePages_wf (sp : Space) (kind st : Nat) (l : List Nat) : (sitePages sp kind st l).Canonical := by
  induction l with
  | nil => exact .pure ()
  | cons va l ih => exact (siteAddr_wf ..).bind fun _ => ih

theorem siteReadable_wf (sp : Space) (st : Nat) (l : List Nat) : (siteReadable sp st l).Canonical := sitePages_wf ..

theorem windowReady_wf (asid : Nat) (l : List (Nat × Nat × Nat)) : (windowReady asid l).Canonical := by
  induction l with
  | nil => exact .pure ()
  | cons x l ih =>
    refine .bind ⟨fun s h => ?_⟩ fun _ => (Site.need_wf ..).bind fun _ => ih
    grind [levelZeroOf_wf, readTable_wf]

theorem checkRecord_wf (rs : Space) (asid : Nat) (r : LRec) : (checkRecord rs asid r).Canonical :=
  (Site.need_wf ..).bind fun _ => (siteRead_wf ..).bind fun _ => .when (sitePages_wf ..) <| (Site.need_wf ..).bind fun _ =>
    .when (siteAddr_wf ..) <| .when (siteAddr_wf ..) <| (windowReady_wf ..).bind fun _ => .pure _

theorem readObject_wf (sp : Space) (va : Nat) : (readObject sp va).Canonical :=
  (siteRead_wf ..).bind fun _ => (Site.need_wf ..).bind fun _ => (Site.need_wf ..).bind fun _ => (siteRead_wf ..).bind fun _ =>
    (siteRead_wf ..).bind fun _ => (Site.need_wf ..).bind fun _ => (Site.need_wf ..).bind fun _ => (siteReadable_wf ..).bind fun _ =>
    .pure _

theorem readSyms_wf (sp : Space) (o : Obj) : (readSyms sp o).Canonical := by
  unfold readSyms
  split
  · exact .pure _
  · exact (Site.need_wf ..).bind fun _ => (siteRead_wf ..).bind fun _ => (Site.need_wf ..).bind fun _ => (siteRead_wf ..).bind fun _ =>
      (Site.need_wf ..).bind fun _ => .pure _

theorem checkSignature_wf (sp : Space) (o : Obj) : (checkSignature sp o).Canonical := by
  unfold checkSignature
  split
  · exact ⟨fun s h => by grind⟩
  · refine (Site.need_wf ..).bind fun _ => (siteRead_wf ..).bind fun _ => (siteRead_wf ..).bind fun _ => (siteRead_wf ..).bind fun _ =>
      (siteRead_wf ..).bind fun _ => ?_
    split
    · exact .throw _
    · exact Site.need_wf ..

theorem readHeader_wf (sp : Space) (o : Obj) (kern : Nat) : (readHeader sp o kern).Canonical := by
  refine (Site.need_wf ..).bind fun _ => ?_
  split
  · exact (Site.need_wf ..).bind fun _ => (siteRead_wf ..).bind fun _ => (Site.need_wf ..).bind fun _ => (siteRead_wf ..).bind fun _ =>
      (Site.need_wf ..).bind fun _ => .pure _
  · exact .throw _

theorem chooseVariant_wf (sp : Space) (o : Obj) (kern die : Nat) : (chooseVariant sp o kern die).Canonical := by
  unfold chooseVariant
  split
  · refine .ite (.pure _) ((siteRead_wf ..).bind fun _ => ?_)
    split
    · exact .pure _
    · exact .throw _
  · exact .pure _

theorem readRelocs_wf (sp : Space) (o : Obj) : (readRelocs sp o).Canonical := by
  unfold readRelocs
  split
  · exact .pure _
  · exact (siteRead_wf ..).bind fun _ => .pure _

theorem relocOn_wf (sp : Space) (o : Obj) (syms : List Sym) (var : Variant) (r : Reloc) : (relocOn sp o syms var r).Canonical := by
  unfold relocOn
  split
  · extract_lets va value
    clear_value value
    split
    · exact .pure _
    · exact .throw _
    · refine (siteRead_wf ..).bind fun _ => .either (siteRead_wf ..) (.pure _) fun _ => ?_
      beta_reduce
      split
      · exact .throw _
      · exact .pure _
  · exact .throw _

theorem relocsOn_wf (sp : Space) (o : Obj) (syms : List Sym) (var : Variant) (rs : List Reloc) :
    (relocsOn sp o syms var rs).Canonical := by
  induction rs with
  | nil => exact .pure _
  | cons r rs ih => exact (relocOn_wf ..).bind fun _ => ih.bind fun _ => .pure _

theorem applyPatch_wf (sp : Space) (va : Nat) (bytes : List Byte) : (applyPatch sp va bytes).Canonical := by
  have hw (l : Loc) (bs : List Byte) : Site.Canonical (modify fun s => siteWrite s l bs false) :=
    .modify fun s h => siteWrite_wf h l bs false
  exact (siteAddr_wf ..).bind fun _ => (hw ..).bind fun _ => .ite ((siteAddr_wf ..).bind fun _ => hw ..) (.pure _)

theorem applyPatches_wf (sp : Space) (ps : List (Nat × List Byte)) : (applyPatches sp ps).Canonical := by
  induction ps with
  | nil => exact .pure ()
  | cons p ps ih => exact (applyPatch_wf ..).bind fun _ => ih

theorem relocDie_wf (sp : Space) (o : Obj) (syms : List Sym) (rs : List Reloc) (var : Variant) (die : Nat) :
    (relocDie sp o syms rs var die).Canonical :=
  (relocsOn_wf ..).bind fun _ => (relocsOn_wf ..).bind fun _ => .pure _

theorem chooseVariants_wf (sp : Space) (o : Obj) (kern : Nat) (ds : List Nat) : (chooseVariants sp o kern ds).Canonical := by
  induction ds with
  | nil => exact .pure _
  | cons d ds ih => exact (chooseVariant_wf ..).bind fun _ => ih.bind fun _ => .pure _

theorem relocDies_wf (sp : Space) (o : Obj) (syms : List Sym) (rs : List Reloc) (ds : List (Nat × Variant)) :
    (relocDies sp o syms rs ds).Canonical := by
  induction ds with
  | nil => exact .pure _
  | cons d ds ih => exact (relocDie_wf ..).bind fun _ => ih.bind fun _ => .pure _

theorem readBinds_wf (sp : Space) (o : Obj) (h : LHead) (ps : List (Nat × List Byte)) : (readBinds sp o h ps).Canonical :=
  (siteRead_wf ..).bind fun _ => (Site.need_wf ..).bind fun _ => .pure _

theorem acceptObject_wf (sp : Space) (r : LRec) (rec : Nat) (recPrv : Bool) (pri : Nat) (args : List W64) (nets : List NetEntry) :
    (acceptObject sp r rec recPrv pri args nets).Canonical :=
  (readObject_wf ..).bind fun _ => (checkSignature_wf ..).bind fun _ => (readSyms_wf ..).bind fun _ => (Site.need_wf ..).bind fun _ =>
    (readHeader_wf ..).bind fun _ => (chooseVariants_wf ..).bind fun _ => (readRelocs_wf ..).bind fun _ => (relocDies_wf ..).bind fun _ =>
    (readBinds_wf ..).bind fun _ => .get_bind fun _ _ => (Site.need_wf ..).bind fun _ => (applyPatches_wf ..).bind fun _ =>
    .get_bind fun t ht => .bind (.set ((nextFree_wf t).trans ht)) fun _ => .pure _

theorem acceptRecord_wf (sub : Submit) (r : LRec) : (acceptRecord sub r).Canonical :=
  (checkRecord_wf ..).bind fun _ => .get_bind fun _ _ => (Site.need_wf ..).bind fun _ => acceptObject_wf ..

theorem writeStatus_wf {s : State} (h : Memory.wf s = true) (sub : Submit) (r : LRec) (w : W64) :
    Memory.wf (writeStatus s sub r w) = true := by
  grind [writeStatus, translate_wf, siteWrite_wf]

theorem acceptSubmit_wf {s : State} (h : Memory.wf s = true) (sub : Submit) : Memory.wf (acceptSubmit s sub) = true := by
  have hl (s : State) (t : Tab Launch) (n : Nat) : Memory.wf { s with launches := t, nextL := n } = Memory.wf s := rfl
  have hread : ((if sub.va % 64 != 0 then throw stMalformed else siteRead ⟨sub.die, sub.asid, sub.prv⟩ stMalformed sub.va 64 :
      Site (List Byte))).Canonical := .ite (.throw _) (siteRead_wf ..)
  have hacc (r : LRec) := (acceptRecord_wf sub r).keeps
  have hs := hread.keeps s h
  unfold acceptSubmit
  grind [tellLauncher_wf, writeStatus_wf]

end Sys2Proof.Machine

/-!
O8. What writes memory: placing, saving and restoring walls, and the fabric.
-/
namespace Sys2Proof.Machine

def PieceRes.Canonical : PieceRes → Prop
  | .ok s _ | .trap s _ | .fault s _ => Memory.wf s = true

section
variable {s : State} (h : Memory.wf s = true)
include h

/-! ### Windows, walls and the ends of launches -/

theorem setWindowPage_wf (asid va e : Nat) : Memory.wf (setWindowPage s asid va e) = true := by
  have htlb (s : State) (l : List TlbEntry) : Memory.wf { s with tlb := l } = Memory.wf s := rfl
  grind [setWindowPage, levelZeroOf_wf, siteWrite_wf]

theorem openWindow_wf (asid : Nat) (wins : Tab (List Nat)) (l : List (Nat × Nat × Nat)) :
    Memory.wf (openWindow s asid wins l) = true := by
  induction l generalizing s with
  | nil => exact h
  | cons x l ih => exact ih (setWindowPage_wf (scrubPhys_wf h ..) ..)

theorem closeWindow_wf (asid : Nat) (l : List (Nat × Nat × Nat)) : Memory.wf (closeWindow s asid l) = true := by
  induction l generalizing s with
  | nil => exact h
  | cons x l ih => exact ih (setWindowPage_wf h ..)

theorem admitLaunch_wf (key : Nat) (l : Launch) : Memory.wf (admitLaunch s key l) = true := by
  grind [admitLaunch, modLaunch_wf, openWindow_wf, startNets_wf, startSems_wf]

theorem zeroBanks_wf (core : Nat) (banks : List Nat) :
    Memory.wf (banks.foldl (fun s p => putBank s core p Bank.zero) s) = true :=
  (foldl_wf_eq _ (fun s p => putBank_wf s core p Bank.zero) banks s).trans h

theorem placeWall_wf (launch : Nat) (l : Launch) (wid core base : Nat) (ps : List Nat) :
    Memory.wf (placeWall s launch l wid core base ps) = true := by
  unfold placeWall
  rw [startBricks_wf, modLaunch_wf]
  exact zeroBanks_wf (scrubLocal_wf h ..) ..

theorem countDone_wf (l : Launch) : Memory.wf (countDone s l) = true := by
  grind [countDone, translate_wf, checkLine_wf, siteWrite_wf]

theorem endLaunch_wf (key : Nat) (l : Launch) : Memory.wf (endLaunch s key l) = true := closeWindow_wf (countDone_wf h l) ..

theorem spillWall_wf (bs : List Nat) : Memory.wf (spillWall s bs).1 = true := by
  induction bs generalizing s with
  | nil => exact h
  | cons b bs ih => grind [spillWall, spillTape_wf, refuseLine_wf]

theorem saveWall_wf (wall : Nat) (w : Wall) : Memory.wf (saveWall s wall w) = true := by
  have hw (s : State) (b : Nat) : Memory.wf ([0, 1, 2, 3].foldl (fun s k => withdrawAtSave s b k) s) = Memory.wf s :=
    foldl_wf_eq _ (fun s k => withdrawAtSave_wf s b k) _ s
  unfold saveWall
  refine (foldl_wf_eq _ (fun s b => ?_) _ _).trans ?_
  · rw [modBrick_wf, dropFault_wf, hw]
  · rw [modCore_wf]
    exact scrubLocal_wf h ..

theorem requeue_wf (b k : Nat) (w : Wait) : Memory.wf (requeue s b k w) = true := by
  grind [requeue, waitAgain_wf, serveQueue_wf, putSem_wf, serveHod_wf, putHod_wf, modCore_wf]

theorem wakeBrick_wf (b : Nat) : Memory.wf (wakeBrick s b) = true := by
  unfold wakeBrick
  split
  · exact h
  · refine foldl_wf _ (fun s x hs => ?_) _ h
    grind [requeue_wf]

/-- Bytes of local memory brought back, each where it stood. -/
theorem restoreBytes_wf (l : Tab Byte) : Memory.wf (l.foldl (fun s x => { s with lmem := tabSet s.lmem x.1 unlistedByte x.2 }) s) = true :=
  foldl_wf _ (fun s x hs => by
    rw [Memory.wf_iff] at hs ⊢
    exact ⟨hs.1, hs.2.1, tabSet_wf hs.2.2.1 _ _, hs.2.2.2⟩) l h

/-- Tags of lines of local memory brought back. -/
theorem restoreMeta_wf (l : Tab LineMeta) :
    Memory.wf (l.foldl (fun s x => { s with lmeta := tabSet s.lmeta x.1 LineMeta.start x.2 }) s) = true :=
  foldl_wf _ (fun s x hs => by
    rw [Memory.wf_iff] at hs ⊢
    exact ⟨hs.1, hs.2.1, hs.2.2.1, tabSet_wf hs.2.2.2 _ _⟩) l h

theorem restoreWall_wf (wall : Nat) (w : Wall) : Memory.wf (restoreWall s wall w) = true := by
  unfold restoreWall
  refine countWaiting_wf (foldl_wf _ (fun _ b h => wakeBrick_wf h b) _ ((modWall_wf ..).trans ?_)) _
  refine (foldl_wf_eq _ (fun s (x : Nat × Bank) => putBank_wf s w.core x.1 x.2) _ _).trans ?_
  exact restoreMeta_wf (restoreBytes_wf (zeroBanks_wf (scrubLocal_wf h ..) ..) _) _

/-! ### The fabric -/

theorem redDone_wf (c : Ctx) (f : Form) (lat : Nat) (ty : Ty) (ws : List RegWrite) (fl : Flags) :
    (redDone s c f lat ty ws fl).Canonical := by
  grind [redDone, Res.Canonical, pushFp_wf, fixed_wf]

theorem virtPieces_wf (c : Ctx) (kind va len fuel : Nat) : (virtPieces s c kind va len fuel).Canonical := by
  induction fuel generalizing s va len with
  | zero => exact h
  | succ fuel ih =>
    have hg := globalThread_wf h c kind anyHome va (min (64 - va % 64) len) false (lowThread c.sp.mask) false
    grind [virtPieces, PieceRes.Canonical, AccRes.Canonical]

theorem rangePieces_wf (c : Ctx) (kind : Nat) (v : W64) (len : Nat) : (rangePieces s c kind v len).Canonical := by
  grind [rangePieces, PieceRes.Canonical, virtPieces_wf]

omit h in
theorem withPieces_wf (c : Ctx) (kind : Nat) {r : PieceRes} {body : State → List (Loc × Nat) → Res} (hr : r.Canonical)
    (hb : ∀ s l, Memory.wf s = true → (body s l).Canonical) : (withPieces c kind r body).Canonical := by
  cases r <;> grind [withPieces, PieceRes.Canonical, Res.Canonical, brickFault_wf]

theorem withSend_wf (c : Ctx) (dst src : W64) (len : Nat) (flag : Option (Nat × W64))
    {body : State → List (Loc × Nat × Loc) → List (Loc × Nat) → Res} (hb : ∀ s a l, Memory.wf s = true → (body s a l).Canonical) :
    (withSend s c dst src len flag body).Canonical := by
  refine withPieces_wf c _ (rangePieces_wf h ..) fun s from_ h => withPieces_wf c _ (virtPieces_wf h ..) fun s dsts h => ?_
  refine withPieces_wf c _ ?_ fun s fl h => ?_
  · cases flag with
    | none => exact h
    | some x => exact virtPieces_wf h ..
  · grind [Res.Canonical]

theorem writePiece_wf (b : Nat) (green : Bool) (x : Loc × List (Byte × Bool)) : Memory.wf (writePiece s b green x) = true := by
  grind [writePiece, observe_wf, noteWrite_wf, writeAll_wf]

theorem writeResult_wf (b : Nat) (dst : List (Loc × Nat)) (green : Bool) (out : CollOut) :
    Memory.wf (writeResult s b dst green out) = true :=
  foldl_wf _ (fun _ x h => writePiece_wf h b green x) _ h

theorem finishParty_wf (out : CollOut) (p : Party) : Memory.wf (finishParty s out p) = true := by
  grind [finishParty, writeResult_wf, reportTrap_wf, modBrick_wf]

theorem readPieces_wf (b : Nat) (l : List (Loc × Nat)) : Memory.wf (readPieces s b l).1 = true := by
  induction l generalizing s with
  | nil => exact h
  | cons x l ih => grind [readPieces, checkLine_wf, noteRead_wf, observe_wf]

theorem commitColl_wf (b : Nat) (f : Flight) (key : Nat) : Memory.wf (commitColl s b f key) = true := by
  unfold commitColl
  split
  · exact (endFlight_wf ..).trans h
  · split
    · exact (endFlight_wf ..).trans h
    · extract_lets t
      have ht : Memory.wf t = true := h
      clear_value t
      grind [endFlight_wf, denyParty_wf, readPieces_wf, oweTrap_wf, joinColl_wf]

theorem deliverColl_wf (inst : Nat) (x : Coll) (out : CollOut) : Memory.wf (deliverColl s inst x out) = true :=
  foldl_wf _ (fun _ p h => finishParty_wf h out p) _ h

theorem denySend_wf (b : Nat) (f : Flight) (cause : BitVec 9) (bad : List Acc) : Memory.wf (denySend s b f cause bad) = true := by
  grind [denySend, endFlight_wf, reportTrap_wf, sendOwn_wf]

theorem denyFlight_wf (b : Nat) (f : Flight) (cause : BitVec 9) (bad : List Acc) : Memory.wf (denyFlight s b f cause bad) = true := by
  unfold denyFlight
  cases f.kind <;> grind [endFlight_wf, reportTrap_wf, performLoad_wf, writeRegs_wf, performStore_wf, performAtom_wf, modBrick_wf,
    failColl_wf, denySend_wf]

theorem podAct_wf (module : BitVec 11) (k brick : Nat) (act : BarAct) : Memory.wf (podAct s module k brick act) = true := by
  unfold podAct
  split
  · exact h
  · refine foldl_wf _ (fun _ k h => countWaiting_wf h k) _ ?_
    grind [voteBar_wf, countArrival_wf, exitBar_wf, abandon_wf, initBar_wf]

theorem theirLine_wf (r : RemoteReq) (bytes : List Byte) (poison : Bool) : Memory.wf (theirLine s r bytes poison) = true := by
  grind [theirLine, putMeta_wf, putBytes_wf]

theorem performRemote_wf (r : RemoteReq) (pa : Nat) : Memory.wf (performRemote s r pa) = true := by
  have hsent (s : State) (l : List Sent) : Memory.wf { s with sent := l } = Memory.wf s := rfl
  unfold performRemote
  cases r.kind <;> grind [writeAll_wf, observe_wf, checkLine_wf, performAtom1_wf, podAct_wf, theirLine_wf, assignKey_wf]

theorem hostByte_wf (pa : Nat) : Memory.wf (hostByte s pa).1 = true := by
  grind [hostByte, checkLine_wf, observe_wf, nextFree_wf]

theorem hostBytes_wf (pa n : Nat) : Memory.wf (hostBytes s pa n).1 = true := by
  induction n generalizing s pa with
  | zero => exact h
  | succ n ih => exact ih (hostByte_wf h pa) _

end

end Sys2Proof.Machine

/-!
O8. What writes memory: operations in flight as they are performed or committed, the waits, the services of the chip, the
fetch and the clock.
-/
namespace Sys2Proof.Machine

def SendStep.Canonical : SendStep → Prop
  | .ended s | .read s _ | .sent s _ _ _ => Memory.wf s = true

def Wake.Canonical : Wake → Prop
  | .still => True
  | .done s _ | .trap s _ | .turn s => Memory.wf s = true

def SyncRes.Canonical : SyncRes → Prop
  | .done s _ | .trap s _ | .sent s | .again s _ _ => Memory.wf s = true

theorem afterAttempt_wf (b : Nat) (f : Flight) (clk : Nat) {a : Attempt} (ha : a.Canonical) :
    Memory.wf (afterAttempt b f clk a) = true := by
  cases a <;> grind [afterAttempt, Attempt.Canonical, deliver_wf, setKind_wf, endFlight_wf, lateTrap_wf]

theorem SyncRes.ofWake_wf {s : State} (h : Memory.wf s = true) (op : WaitOp) {w : Wake} (hw : w.Canonical) :
    (SyncRes.ofWake s op w).Canonical := by
  cases w
  · exact h
  all_goals exact hw

section
variable {s : State} (h : Memory.wf s = true)
include h

/-! ### Performing what is in flight -/

theorem performLoadFlight_wf (b : Nat) (f : Flight) : Memory.wf (performLoadFlight s b f) = true := by
  unfold performLoadFlight
  cases f.kind <;> grind [deliver_wf, performLoad_wf, performAtom_wf, performTst_wf, performCells_wf]

theorem sendStep_wf (b : Nat) (f : Flight) (green : Bool) (lines : List (Loc × Nat × Loc)) (data : Option (List (List Byte × Bool))) :
    (sendStep s b f green lines data).Canonical := by
  have hread := readSource_wf h b green (lines.map (·.1))
  unfold sendStep
  split
  · exact denySend_wf h ..
  · split
    · split <;> grind [SendStep.Canonical, endFlight_wf, reportTrap_wf]
    · exact putLine_wf h ..
    · exact h

theorem performStoreFlight_wf (b : Nat) (br : Brick) (f : Flight) : Memory.wf (performStoreFlight s b br f) = true := by
  unfold performStoreFlight
  cases f.kind <;> grind [deliver_wf, performStore_wf, performAtom_wf, afterAttempt_wf, attemptAon_wf, SendStep.Canonical, sendStep_wf,
    setKind_wf, endFlight_wf]

theorem performAttempt_wf (b : Nat) (br : Brick) (f : Flight) : Memory.wf (performAttempt s b br f) = true := by
  have hv (pa va : Nat) (accs : List Acc) (p : Nat) (gov : Bool) (n : Nat) := attemptLdtv_wf h b
    (fun s => applyOwn s b (br.flights.filter (fun g => decide (g.seq < f.seq)))) pa va accs p gov n
  unfold performAttempt
  cases f.kind <;> grind [afterAttempt_wf, attemptAon_wf]

theorem performFill_wf (b : Nat) (f : Flight) : Memory.wf (performFill s b f) = true := by
  grind [performFill, endFlight_wf, zeroSlot_wf, reportTrap_wf, readSource_wf, fillSlot_wf]

theorem performSignal_wf (b : Nat) (f : Flight) : Memory.wf (performSignal s b f) = true := by
  grind [performSignal, denySend_wf, signalFlag_wf, endFlight_wf, reportTrap_wf]

theorem slotEntry_wf (b : Nat) (br : Brick) (r : TrapRec) : Memory.wf (slotEntry s b br r) = true := by
  grind [slotEntry, killBrick_wf, landing_wf, enterSlot_wf, brickFault_wf]

/-! ### Waits -/

theorem wakeStatus_wf (c : Ctx) (d : Nat) (status : BitVec 9) (v : W64) (g : Bool) : (wakeStatus s c d status v g).Canonical := by
  grind [wakeStatus, Wake.Canonical]

theorem evalWait_wf (c : Ctx) (w : Wait) : (evalWait s c w).Canonical := by
  unfold evalWait
  cases w.op <;> grind [Wake.Canonical, modBrick_wf, releaseSem_wf, exitLast_wf, freeBanks_wf, modSplit_wf, submitLaunch_wf, startReplay_wf,
    spillTape_wf, freeTape_wf]

theorem syncHodCopy_wf (c : Ctx) (w : Wait) (id d : Nat) : (syncHodCopy s c w id d).Canonical := by
  have hcopies (s : State) (t : Tab Copy) : Memory.wf { s with copies := t } = Memory.wf s := rfl
  grind [syncHodCopy, SyncRes.Canonical, commitRole_wf, acceptCopy_wf, leaveHod_wf, submitHeld_wf, parkProd_wf, reserveSlot_wf]

theorem syncAccz_wf (c : Ctx) (w : Wait) (k : Nat) : (syncAccz s c w k).Canonical := by
  grind [syncAccz, SyncRes.Canonical, acceptZero_wf]

theorem syncBar_wf (c : Ctx) (o : ObjRef) (ph : Option Nat) (n d : Nat) (g : Bool) : (syncBar s c o ph n d g).Canonical := by
  have hv : Memory.wf (voteBar s o) = true := (voteBar_wf ..).trans h
  unfold syncBar
  extract_lets t x held
  clear_value held
  split
  · exact hv
  · cases held with
    | now status => exact SyncRes.ofWake_wf hv _ (wakeStatus_wf hv ..)
    | wait p m => exact hv

theorem syncHodGet_wf (c : Ctx) (o : ObjRef) (d : Nat) (g : Bool) (freed : Option Nat) : (syncHodGet s c o d g freed).Canonical := by
  grind [syncHodGet, SyncRes.Canonical, freeHeld_wf, commitRole_wf, takeSlot_wf, leaveHod_wf, SyncRes.ofWake_wf, wakeStatus_wf, parkCons_wf]

theorem syncHodTry_wf (c : Ctx) (o : ObjRef) (d : Nat) (g : Bool) : (syncHodTry s c o d g).Canonical := by
  grind [syncHodTry, SyncRes.Canonical, freeHeld_wf, commitRole_wf, takeSlot_wf]

theorem syncHodPut_wf (c : Ctx) (w : Wait) (o : ObjRef) (seq : Nat) : (syncHodPut s c w o seq).Canonical := by
  grind [syncHodPut, SyncRes.Canonical, commitRole_wf, parkProd_wf, reserveSlot_wf, leaveHod_wf, giveSlot_wf]

theorem syncSem_wf (c : Ctx) (w : Wait) (o : ObjRef) (d : Nat) (g tries : Bool) : (syncSem s c w o d g tries).Canonical := by
  grind [syncSem, SyncRes.Canonical, voteSem_wf, putSem_wf]

theorem syncTry_wf (c : Ctx) (w : Wait) : (syncTry s c w).Canonical := by
  unfold syncTry
  cases w.op <;> grind [SyncRes.Canonical, syncBar_wf, voteBar_wf, syncSem_wf, syncHodPut_wf, syncHodGet_wf, syncHodTry_wf, syncHodCopy_wf,
    grantBanks_wf, withdraw_wf, queueReq_wf, syncAccz_wf, installBind_wf, removeBind_wf, performAtom_wf, oweTrap_wf, modBrick_wf,
    takeGranules_wf, modSplit_wf, submitLaunch_wf]

theorem syncStep_wf (c : Ctx) (w : Wait) (T : Nat) : Memory.wf (syncStep s c w T) = true := by
  grind [syncStep, SyncRes.Canonical, trapWait_wf, unfree_wf, syncTry_wf, finishWait_wf, modSplit_wf, modBrick_wf]

theorem wakeSplit_wf {b k : Nat} {t : State} (ht : wakeSplit s b k = some t) : Memory.wf t = true := by
  unfold wakeSplit at ht
  split at ht
  · cases ht
  · split at ht
    · cases ht
    · split at ht
      · cases ht
      · split at ht
        · cases ht
        · extract_lets c at ht
          have hc := evalWait_wf h c
          clear_value c
          split at ht <;> grind [Wake.Canonical, finishWait_wf, trapWait_wf]

/-! ### The commits of a deterministic launch -/

theorem commitSend_wf (b : Nat) (f : Flight) (green : Bool) (lines : List (Loc × Nat × Loc)) (refused : List Acc)
    {next : State → Bool → State × Option LateTrap} (hn : ∀ s g, Memory.wf s = true → Memory.wf (next s g).1 = true) :
    Memory.wf (commitSend s b f green lines refused next) = true := by
  have hread := readSource_wf h b green (lines.map (·.1))
  unfold commitSend
  split
  · exact denySend_wf h ..
  · split <;> grind [endFlight_wf, oweTrap_wf, putAll_wf]

theorem commitFlight_wf (b : Nat) (br : Brick) (f : Flight) : Memory.wf (commitFlight s b br f) = true := by
  have hcopies (s : State) (t : Tab Copy) : Memory.wf { s with copies := t } = Memory.wf s := rfl
  have htlbi (s : State) (br : Brick) (f : Flight) (h : Memory.wf s = true) : Memory.wf ((tlbiStep s b br f).getD s) = true := by
    cases ht : tlbiStep s b br f with
    | none => exact h
    | some t => exact tlbiStep_wf h ht
  unfold commitFlight
  cases f.kind with
  | putw lines data green => exact commitSend_wf h b f green lines _ fun _ _ h => h
  | sigw lines data va flag add v green anyG =>
    exact commitSend_wf h b f green lines _ fun _ g h => signalFlag_wf h b flag add v (anyG || g)
  | _ =>
    grind [endFlight_wf, oweTrap_wf, performStore_wf, performAtom_wf, Attempt.Canonical, commitAon_wf, setKind_wf, performFill_wf,
      freeDue_wf, modBrick_wf, commitColl_wf, commitWaits_wf, initBar_wf, commitArrival_wf, serveQueue_wf, putSem_wf, voteSem_wf,
      commitPoison_wf, releaseSem_wf, commitFails_wf, initHod_wf, closeHod_wf, setPool_wf, endObjects_wf]

theorem commitSeqs_wf (b : Nat) (qs : List Nat) : Memory.wf (commitSeqs s b qs) = true := by
  induction qs generalizing s with
  | nil => exact h
  | cons q qs ih => grind [commitSeqs, countWaiting_wf, commitFlight_wf]

theorem commitBricks_wf (T : Nat) (bs : List Nat) : Memory.wf (commitBricks s T bs) = true := by
  induction bs generalizing s with
  | nil => exact h
  | cons b bs ih => grind [commitBricks, commitSeqs_wf]

/-! ### The services of the chip -/

theorem readNonce_wf (l : Loc) : Memory.wf (readNonce s l).1 = true := by
  rcases hc : checkLine s l with ⟨t, psn⟩
  have ht : Memory.wf (observe t none l 64) = true := (observe_wf ..).trans (by simpa [hc] using checkLine_wf h l)
  simp only [readNonce, hc]
  split <;> exact ht

theorem writeQuote_wf (l : Loc) : Memory.wf (writeQuote s l) = true := by
  have hn := readNonce_wf h l
  have hfree (s : State) (n : Nat) : Memory.wf { s with free := n } = Memory.wf s := rfl
  unfold writeQuote
  split
  rename_i t nonce hr
  rw [hr] at hn
  exact writeAll_wf (writeAll_wf ((observe_wf ..).trans ((hfree ..).trans hn)) ..) ..

theorem meetFault_wf (x : StorageFault) : Memory.wf (meetFault s x) = true := by
  have htlb (s : State) (l : List TlbEntry) : Memory.wf { s with tlb := l } = Memory.wf s := rfl
  have hcopies (s : State) (t : Tab Copy) : Memory.wf { s with copies := t } = Memory.wf s := rfl
  cases x <;> grind [meetFault, logFault_wf, modBrick_wf, putBank_wf, injectErr_wf, faultBar_wf, putSem_wf]

theorem checkKill_wf (strct : Nat) (l : List Nat) : Memory.wf (checkKill s strct l) = true :=
  foldl_wf _ (fun _ b h => killBrick_wf h b 0#9 strct) l h

theorem heat_wf (die tj : Nat) : Memory.wf (heat s die tj) = true := by
  grind [heat, setTj_wf, modDie_wf, checkKill_wf, logFault_wf]

/-! ### The fetch and the clock -/

theorem fetchWord_wf (c : Ctx) (two : Bool) (va : Nat) : Memory.wf (fetchWord s c two va).1 = true := by
  grind [fetchWord, brickTranslate_wf, checkLine_wf, noteRead_wf, observe_wf]

theorem fetchAt_wf (c : Ctx) (pc : Nat) : Memory.wf (fetchAt s c pc).1 = true := by
  grind [fetchAt, fetchWord_wf]

theorem tick_wf : Memory.wf (tick s) = true := by
  unfold tick
  rw [endWalls_wf, reap_wf, retryFaults_wf, landBricks_wf]
  exact h

end

end Sys2Proof.Machine

/-!
O8. The forms: whatever a form answers, the state that it leaves has its memory in canonical form.
-/
namespace Sys2Proof.Machine

/-- Memory is in canonical form in the state that an outcome gives, where it gives one. -/
def NextCanonical : Host.Outcome State Fault Refusal → Prop
  | .next t => Memory.wf t = true
  | .fault _ | .refused _ => True

section
variable {s : State} (h : Memory.wf s = true)
include h

theorem issueForm_wf {f : Form} {body : Ctx → Res} (hb : ∀ c, (body c).Canonical) : NextCanonical (issueForm s f body) := by
  unfold issueForm
  split
  · trivial
  · split
    · exact (raiseTrap_wf ..).trans h
    · exact (holdForm_wf ..).trans h
    · exact settle_wf h _ f (hb _)

theorem issueConv_wf {f : Form} {rsr : Bool} {body : State → Ctx → Res} (hb : ∀ s c, Memory.wf s = true → (body s c).Canonical) :
    NextCanonical (issueConv s f rsr body) := by
  have hsr (b : Nat) (br : Brick) (x : BitVec 64) (p : Bool) : Memory.wf (if p then srWrite s b br x else s) = true := by
    split
    · exact (srWrite_wf ..).trans h
    · exact h
  unfold issueConv
  split
  · trivial
  · split
    · exact (holdForm_wf ..).trans h
    · refine (raiseTrap_wf ..).trans ?_
      exact trapState_wf h (by split <;> simp [h]) ..
    · exact settle_wf h _ f (hb _ _ (hsr ..))

theorem trapEncoding_wf (two : Bool) (st : BitVec 3) (cause : BitVec 9) : NextCanonical (trapEncoding s two st cause) := by
  grind [trapEncoding, NextCanonical, holdForm_wf, raiseTrap_wf]

omit h in
theorem ite_wf {p : Prop} [Decidable p] {r r' : Res} (hr : r.Canonical) (hr' : r'.Canonical) : (if p then r else r').Canonical := by
  split
  · exact hr
  · exact hr'

omit h in
/-- A form that is held, or goes on. -/
theorem holdOr_wf {p : Prop} [Decidable p] {r : Res} (hr : r.Canonical) : (if p then .hold else r : Res).Canonical := ite_wf trivial hr

/-- The accesses of a form that reaches the launch's space or local memory. -/
theorem eitherAccs_wf (glob : Bool) (c : Ctx) (kind : Nat) (avail : Home → Bool) (addr : Nat → W64) (g : Nat → Bool) (n : Nat)
    (bad bad' : Nat → Bool) :
    (if glob then globalAccs s c kind avail addr g n bad else localAccs s c addr g n bad').Canonical := by
  split
  · exact globalAccs_wf h ..
  · exact localAccs_wf h ..

/-- Forms whose writes of registers are all they answer. -/
theorem issueFixed_wf (f : Form) (lat : Nat) (ws : Ctx → List RegWrite) :
    NextCanonical (issueForm s f fun c => fixed s c f lat (ws c)) :=
  issueForm_wf h fun c => fixed_wf h c f lat (ws c)

theorem issueFp_wf (f : Form) (lat : Nat) (out : Ctx → Nat → ThreadOut) (fm : Option Fmt) (raises : Bool) :
    NextCanonical (issueForm s f fun c => fpThreads s c f lat (out c) fm raises) :=
  issueForm_wf h fun c => fpThreads_wf h c f lat (out c) fm raises

/-! ### Loads, stores and atomics -/

theorem laneLoad_wf (glob : Bool) (n : Nat) (two : Bool) (d x sb : Reg) (sc : BitVec 2) (disp : BitVec 30) (st : BitVec 3) :
    NextCanonical (laneLoad glob n two d x sb sc disp st s) :=
  issueForm_wf h fun c => holdOr_wf <| withAccs_wf c (eitherAccs_wf h ..) fun _ _ h => issueLoad_wf h ..

theorem lineLoad_wf (q two : Bool) (d x sb : Reg) (sc : BitVec 2) (disp : BitVec 30) (st : BitVec 3) :
    NextCanonical (lineLoad q two d x sb sc disp st s) :=
  issueForm_wf h fun c => holdOr_wf <| withAccs_wf c (eitherAccs_wf h ..) fun _ _ h => issueLoad_wf h ..

theorem execTagrdLine_wf (m : BitVec 3) (a : Reg) (g : Bool) (st : BitVec 3) : NextCanonical (execTagrdLine m a g st s) :=
  issueForm_wf h fun c => holdOr_wf <| withAccs_wf c (eitherAccs_wf h ..) fun _ _ h => issueLoad_wf h ..

theorem uniLoad_wf (two : Bool) (d sb : Reg) (disp : W64) (st : BitVec 3) : NextCanonical (uniLoad two d sb disp st s) :=
  issueForm_wf h fun c => holdOr_wf <| withAccs_wf c (uniformAcc_wf h ..) fun _ _ h => issueLoad_wf h ..

theorem laneStore_wf (glob : Bool) (n : Nat) (settled two : Bool) (d x sb : Reg) (sc : BitVec 2) (disp : BitVec 30) (st : BitVec 3) :
    NextCanonical (laneStore glob n settled two d x sb sc disp st s) :=
  issueForm_wf h fun c => holdOr_wf <| ite_wf h <| withAccs_wf c (eitherAccs_wf h ..) fun _ _ h => storeAccs_wf h ..

theorem lineStore_wf (two : Bool) (d x sb : Reg) (sc : BitVec 2) (disp : BitVec 30) (st : BitVec 3) :
    NextCanonical (lineStore two d x sb sc disp st s) :=
  issueForm_wf h fun c => holdOr_wf <| withAccs_wf c (localAccs_wf h ..) fun _ _ h => storeAccs_wf h ..

theorem uniStore_wf (two : Bool) (d sb : Reg) (disp : W64) (st : BitVec 3) : NextCanonical (uniStore two d sb disp st s) :=
  issueForm_wf h fun c => holdOr_wf <| withAccs_wf c (uniformAcc_wf h ..) fun _ _ h => storeAccs_wf h ..

theorem prefetch_wf (two : Bool) (x sb : Reg) (st : BitVec 3) : NextCanonical (prefetch two x sb st s) :=
  issueForm_wf h fun _ => h

theorem atomForm_wf (dst : Option Reg) (x sb v : Reg) (op : AtomOp) (ty : Ty) (rm : Rm) (sc : BitVec 2) (st : BitVec 3) :
    NextCanonical (atomForm dst x sb v op ty rm sc st s) := by
  refine issueForm_wf h fun c => holdOr_wf <| withAccs_wf c (globalAccs_wf h ..) fun s accs h => ?_
  grind [Res.Canonical, useCum_wf, parkSync_wf, pushFlight_wf]

theorem versionedLoad_wf (two : Bool) (d x sb : Reg) (sc : BitVec 2) (disp : BitVec 30) (st : BitVec 3) :
    NextCanonical (versionedLoad two d x sb sc disp st s) := by
  refine issueForm_wf h fun c => holdOr_wf <| withAccs_wf c (globalAccs_wf h ..) fun s accs h => ite_wf h ?_
  refine withGoverning_wf h c _ _ _ _ _ fun s pa va hd h => ?_
  grind [Res.Canonical, issueLoad_wf, pushFlight_wf]

theorem aonStore_wf (two : Bool) (d x sb : Reg) (sc : BitVec 2) (disp : BitVec 30) (st : BitVec 3) :
    NextCanonical (aonStore two d x sb sc disp st s) := by
  refine issueForm_wf h fun c => holdOr_wf <| withAccs_wf c (globalAccs_wf h ..) fun s accs h => ite_wf h ?_
  exact withHead_wf c _ _ _ _ (headAddr_wf h ..) fun s pa hd h => ite_wf h <| (pushFlight_wf ..).trans h

theorem pairedStore_wf (two : Bool) (d x sb : Reg) (sc : BitVec 2) (disp : BitVec 30) (st : BitVec 3) :
    NextCanonical (pairedStore two d x sb sc disp st s) := by
  refine issueForm_wf h fun c => holdOr_wf <| withAccs_wf c (globalAccs_wf h ..) fun s accs h => ite_wf h ?_
  refine withHead_wf c _ _ _ _ (headAddr_wf h ..) fun s pa hd h => ite_wf h ?_
  exact withHead_wf c _ _ _ _ (headAddr_wf h ..) fun s twin hd h => ite_wf h <| (pushFlight_wf ..).trans h

theorem cellAccess_wf (two : Bool) (m : BitVec 2) (d : Option Reg) (x sb : Reg) (disp : BitVec 30) (st : BitVec 3)
    (kind : Ctx → List Acc → FlightKind) : NextCanonical (cellAccess two m d x sb disp st kind s) :=
  issueForm_wf h fun c => ite_wf h <| holdOr_wf <| withAccs_wf c (globalAccs_wf h ..) fun _ _ h => (pushFlight_wf ..).trans h

/-! ### Binding, modes, queries and the tables -/

theorem bindForm_wf (two : Bool) (d sb : Reg) (disp : W64) (st : BitVec 3) : NextCanonical (bindForm two d sb disp st s) := by
  refine issueForm_wf h fun c => ?_
  grind [Res.Canonical, parkSync_wf, installBind_wf]

theorem unbindForm_wf (two : Bool) (d : Reg) (st : BitVec 3) : NextCanonical (unbindForm two d st s) := by
  refine issueForm_wf h fun c => ?_
  grind [Res.Canonical, parkSync_wf, removeBind_wf]

theorem modeForm_wf (d : Reg) (reads : List Reg) (st : BitVec 3) (body : Ctx → Option TrapReq) (f : Ctx → Brick → Brick) :
    NextCanonical (modeForm d reads st body f s) := by
  refine issueForm_wf h fun c => ?_
  split
  · exact h
  · exact fixed_wf ((modBrick_wf ..).trans h) ..

theorem execModeTenSet_wf (d : Reg) (mask : BitVec 5) (st : BitVec 3) : NextCanonical (execModeTenSet d mask st s) :=
  modeForm_wf h d [] st (fun _ => none) fun _ br => { br with ten := br.ten ||| mask }

theorem execModeTenClr_wf (d : Reg) (mask : BitVec 5) (st : BitVec 3) : NextCanonical (execModeTenClr d mask st s) :=
  modeForm_wf h d [] st (fun _ => none) fun _ br => { br with ten := br.ten &&& ~~~mask }

theorem returnForm_wf (kill : Bool) (st : BitVec 3) : NextCanonical (returnForm kill st s) := by
  refine issueForm_wf h fun c => ?_
  grind [Res.Canonical, stampSlot_wf, killBrick_wf, leaveTrap_wf]

theorem copyQuery_wf (bytes : Bool) (d a : Reg) (st : BitVec 3) : NextCanonical (copyQuery bytes d a st s) := by
  refine issueForm_wf h fun c => ?_
  grind [Res.Canonical, parkSync_wf, giveNow_wf]

theorem tlbiForm_wf (all : Bool) (a : Reg) (sp : Scope) (st : BitVec 3) : NextCanonical (tlbiForm all a sp st s) := by
  refine issueForm_wf h fun c => ?_
  grind [Res.Canonical, pushFlight_wf]

theorem execFence_wf (cum : Bool) (kind : BitVec 2) (sp : Scope) (st : BitVec 3) : NextCanonical (execFence cum kind sp st s) := by
  refine issueForm_wf h fun c => ?_
  grind [Res.Canonical, modBrick_wf]

theorem execWait_wf (n : BitVec 3) (a : Reg) (k : BitVec 5) (st : BitVec 3) : NextCanonical (execWait n a k st s) := by
  refine issueForm_wf h fun c => ?_
  grind [Res.Canonical, modBrick_wf]

theorem laneFcmp_wf (cc : FCond) (m : BitVec 3) (a b : Reg) (q : Bool) (st : BitVec 3) : NextCanonical (laneFcmp cc m a b q st s) :=
  issueForm_wf h fun _ => (pushFp_wf ..).trans h

/-! ### Flow of control -/

theorem execBra_wf (off : BitVec 15) (st : BitVec 3) : NextCanonical (execBra off st s) := by
  refine issueForm_wf h fun c => ?_
  grind [Res.Canonical, modSplit_wf]

theorem execBrc_wf (z : Bool) (a : BitVec 5) (off : BitVec 15) (st : BitVec 3) : NextCanonical (execBrc z a off st s) := by
  refine issueForm_wf h fun c => ?_
  grind [Res.Canonical, modSplit_wf]

theorem execBrl_wf (neg : Bool) (m : BitVec 3) (off : BitVec 15) (st : BitVec 3) : NextCanonical (execBrl neg m off st s) := by
  refine issueForm_wf h fun c => ?_
  grind [Res.Canonical, branchLanes_wf]

theorem execCall_wf (off : BitVec 15) (st : BitVec 3) : NextCanonical (execCall off st s) := by
  refine issueForm_wf h fun c => ?_
  grind [Res.Canonical, modSplit_wf]

theorem execRet_wf (st : BitVec 3) : NextCanonical (execRet st s) := by
  refine issueForm_wf h fun c => ?_
  grind [Res.Canonical, modSplit_wf]

theorem execJoin_wf (st : BitVec 3) : NextCanonical (execJoin st s) := by
  refine issueForm_wf h fun c => ?_
  split
  · exact ite_wf h (joinTop_wf h ..)
  · exact h

theorem execJmpiUniform_wf (a : Reg) (st : BitVec 3) : NextCanonical (execJmpiUniform a st s) := by
  refine issueForm_wf h fun c => ?_
  grind [Res.Canonical, landing_wf, modSplit_wf, holdForm_wf, brickFault_wf]

theorem execJmpiLane_wf (a : Reg) (st : BitVec 3) : NextCanonical (execJmpiLane a st s) := by
  refine issueForm_wf h fun c => ?_
  split
  · exact h
  · rcases hl : laneTargets s c a c.ts with ⟨t, l⟩
    have ht : Memory.wf t = true := by simpa [hl] using laneTargets_wf h c a c.ts
    grind [Res.Canonical, brickFault_wf, holdForm_wf, jumpAgain_wf, jumpFirst_wf]

theorem execExit_wf (st : BitVec 3) : NextCanonical (execExit st s) := by
  refine issueForm_wf h fun c => ?_
  grind [Res.Canonical, exitThreads_wf, exitLast_wf]

theorem execBkpt_wf (n : BitVec 7) (st : BitVec 3) : NextCanonical (execBkpt n st s) := by
  refine issueForm_wf h fun c => ?_
  grind [Res.Canonical, modBrick_wf]

theorem execHalt_wf (st : BitVec 3) : NextCanonical (execHalt st s) := by
  refine issueForm_wf h fun c => ?_
  grind [Res.Canonical, nextFree_wf, logAdd_wf, modBrick_wf]

theorem execPrio_wf (d a : Reg) (k : BitVec 4) (st : BitVec 3) : NextCanonical (execPrio d a k st s) := by
  refine issueForm_wf h fun c => ?_
  grind [Res.Canonical, giveNow_wf, modBrick_wf]

theorem execCourseEnd_wf (d : Reg) (st : BitVec 3) : NextCanonical (execCourseEnd d st s) := by
  refine issueForm_wf h fun c => ?_
  grind [Res.Canonical, giveNow_wf, modBrick_wf]

theorem execRoleq_wf (d a : Reg) (k : BitVec 2) (st : BitVec 3) : NextCanonical (execRoleq d a k st s) := by
  refine issueForm_wf h fun c => ?_
  grind [Res.Canonical, parkSync_wf, giveNow_wf]

theorem execLaunch_wf (d a : Reg) (st : BitVec 3) : NextCanonical (execLaunch d a st s) := by
  refine issueForm_wf h fun c => ?_
  grind [Res.Canonical, parkSync_wf]

theorem execRqmovGive_wf (d a : Reg) (role : BitVec 2) (st : BitVec 3) : NextCanonical (execRqmovGive d a role st s) := by
  refine issueForm_wf h fun c => ?_
  grind [Res.Canonical, modBrick_wf, pushFlight_wf, setPool_wf, giveNow_wf]

theorem execRqmovTake_wf (d a : Reg) (st : BitVec 3) : NextCanonical (execRqmovTake d a st s) := by
  refine issueForm_wf h fun c => ?_
  grind [Res.Canonical, parkSync_wf, takeGranules_wf, giveNow_wf]

end

end Sys2Proof.Machine

/-!
O8. The forms on objects, the tape, the matrix engine, the copies, the fabric and the system registers.
-/
namespace Sys2Proof.Machine

section
variable {s : State} (h : Memory.wf s = true)
include h

/-! ### Barriers, semaphores and hods -/

theorem execBarInit_wf (d a : Reg) (k : BitVec 5) (sp : Scope) (st : BitVec 3) : NextCanonical (execBarInit d a k sp st s) := by
  refine issueForm_wf h fun c => ?_
  grind [Res.Canonical, badObject_wf, bufferForm_wf, initBar_wf]

theorem execBarArr_wf (a : Reg) (k : BitVec 5) (sp : Scope) (st : BitVec 3) : NextCanonical (execBarArr a k sp st s) := by
  refine issueForm_wf h fun c => withBar_wf h c a k sp fun s o rem h => ?_
  grind [Res.Canonical, badObject_wf, arrive_wf]

theorem execBarWait_wf (d a : Reg) (k : BitVec 5) (sp : Scope) (st : BitVec 3) : NextCanonical (execBarWait d a k sp st s) := by
  refine issueForm_wf h fun c => withBar_wf h c a k sp fun s o rem h => ?_
  grind [Res.Canonical, parkSync_wf, giveStatus_wf]

theorem execBarSync_wf (cum : Bool) (r : BitVec 5) (a : Reg) (k : BitVec 5) (sp : Scope) (st : BitVec 3) :
    NextCanonical (execBarSync cum r a k sp st s) := by
  refine issueForm_wf h fun c => withBar_wf h c a k sp fun s o rem h => ?_
  grind [Res.Canonical, parkSync_wf, arrive_wf, giveStatus_wf, badObject_wf]

theorem execBarQ_wf (d a : Reg) (k : BitVec 5) (sp : Scope) (st : BitVec 3) : NextCanonical (execBarQ d a k sp st s) := by
  refine issueForm_wf h fun c => withBar_wf h c a k sp fun s o rem h => ?_
  grind [Res.Canonical, parkSync_wf, giveNow_wf]

theorem execSemInit_wf (d a : Reg) (k : BitVec 5) (st : BitVec 3) : NextCanonical (execSemInit d a k st s) := by
  refine issueForm_wf h fun c => withSem_wf h c a k fun s o h => ?_
  grind [Res.Canonical, bufferForm_wf, serveQueue_wf, putSem_wf]

theorem execSemAcq_wf (d a : Reg) (k : BitVec 5) (sp : Scope) (st : BitVec 3) : NextCanonical (execSemAcq d a k sp st s) := by
  refine issueForm_wf h fun c => withSem_wf h c a k fun s o h => ?_
  grind [Res.Canonical, parkSync_wf, giveNow_wf, putSem_wf]

theorem execSemTry_wf (d a : Reg) (k : BitVec 5) (sp : Scope) (st : BitVec 3) : NextCanonical (execSemTry d a k sp st s) := by
  refine issueForm_wf h fun c => withSem_wf h c a k fun s o h => ?_
  grind [Res.Canonical, parkSync_wf, giveNow_wf, putSem_wf]

theorem execSemRel_wf (a : Reg) (k : BitVec 5) (sp : Scope) (st : BitVec 3) : NextCanonical (execSemRel a k sp st s) := by
  refine issueForm_wf h fun c => withSem_wf h c a k fun s o h => ?_
  grind [Res.Canonical, bufferForm_wf, useCum_wf, releaseSem_wf]

theorem execHodInit_wf (a : Reg) (k : BitVec 5) (st : BitVec 3) : NextCanonical (execHodInit a k st s) := by
  refine issueForm_wf h fun c => withHod_wf h c a k fun o rem => ?_
  grind [Res.Canonical, badObject_wf, bufferForm_wf, initHod_wf]

theorem execHodPut_wf (d a : Reg) (k : BitVec 5) (st : BitVec 3) : NextCanonical (execHodPut d a k st s) := by
  refine issueForm_wf h fun c => withHod_wf h c a k fun o _ => holdOr_wf ?_
  split
  · exact h
  · refine withLines_wf c kRead (srcLines_wf h ..) fun s src h => ?_
    grind [Res.Canonical, parkSync_wf, pushFlight_wf, markRole_wf, reserveSlot_wf, putHod_wf]

theorem execHodGet_wf (d a : Reg) (k : BitVec 5) (st : BitVec 3) : NextCanonical (execHodGet d a k st s) := by
  refine issueForm_wf h fun c => withHod_wf h c a k fun o rem => ite_wf (badObject_wf h c) ?_
  have hm : Memory.wf (markRole s c o false) = true := (markRole_wf ..).trans h
  have hf : Memory.wf (freeHeld (markRole s c o false) o c.b) = true := freeHeld_wf hm ..
  refine ite_wf (parkSync_wf hm ..) ?_
  grind [Res.Canonical, takeSlot_wf, giveNow_wf, giveStatus_wf, putHod_wf]

theorem execHodTry_wf (d a : Reg) (k : BitVec 5) (st : BitVec 3) : NextCanonical (execHodTry d a k st s) := by
  refine issueForm_wf h fun c => withHod_wf h c a k fun o rem => ite_wf (badObject_wf h c) ?_
  have hm : Memory.wf (markRole s c o false) = true := (markRole_wf ..).trans h
  have hf : Memory.wf (freeHeld (markRole s c o false) o c.b) = true := freeHeld_wf hm ..
  refine ite_wf (parkSync_wf hm ..) ?_
  grind [Res.Canonical, takeSlot_wf, giveNow_wf]

theorem execHodClose_wf (a : Reg) (k : BitVec 5) (st : BitVec 3) : NextCanonical (execHodClose a k st s) :=
  issueForm_wf h fun c => withHod_wf h c a k fun o _ => ite_wf (bufferForm_wf h ..) (closeHod_wf h o)

/-! ### The tape -/

theorem execTapeRec_wf (a : Reg) (n : BitVec 2) (lbl : BitVec 8) (st : BitVec 3) : NextCanonical (execTapeRec a n lbl st s) :=
  issueForm_wf h fun c => holdOr_wf <| withTape_wf h c _ fun _ _ h => placeEntry_wf h ..

theorem execTapeBr_wf (m : BitVec 3) (lbl : BitVec 8) (st : BitVec 3) : NextCanonical (execTapeBr m lbl st s) :=
  issueForm_wf h fun c => holdOr_wf <| withTape_wf h c _ fun _ _ h => placeEntry_wf h ..

theorem execTapePop_wf (d : Reg) (n : BitVec 2) (lbl : BitVec 8) (st : BitVec 3) : NextCanonical (execTapePop d n lbl st s) :=
  issueForm_wf h fun c => holdOr_wf <| withTape_wf h c _ fun _ _ h => withEntry_wf h c _ false _ _ fun _ _ _ _ h => popEntry_wf h ..

theorem execTapePopbr_wf (m : BitVec 3) (lbl : BitVec 8) (st : BitVec 3) : NextCanonical (execTapePopbr m lbl st s) :=
  issueForm_wf h fun c => holdOr_wf <| withTape_wf h c _ fun _ _ h => withEntry_wf h c _ true _ _ fun _ _ _ _ h =>
    popEntry_wf ((modSplit_wf ..).trans h) ..

theorem execTapeOpen_wf (d a : Reg) (br : Bool) (st : BitVec 3) : NextCanonical (execTapeOpen d a br st s) := by
  refine issueForm_wf h fun c => withTape_wf h c _ fun s t h => ite_wf (giveNow_wf h ..) ?_
  split <;> grind [Res.Canonical, SegRes.Canonical, addSegment_wf, brickFault_wf, giveNow_wf, modBrick_wf]

theorem execTapeSeal_wf (d : Reg) (st : BitVec 3) : NextCanonical (execTapeSeal d st s) := by
  refine issueForm_wf h fun c => holdOr_wf <| withTape_wf h c _ fun s t h => ?_
  grind [Res.Canonical, setTape_wf, giveNow_wf, pushFlight_wf]

theorem execTapeRev_wf (st : BitVec 3) : NextCanonical (execTapeRev st s) := by
  refine issueForm_wf h fun c => withTape_wf h c _ fun s t h => ?_
  grind [Res.Canonical, startReplay_wf]

theorem execTapeClose_wf (st : BitVec 3) : NextCanonical (execTapeClose st s) := by
  refine issueForm_wf h fun c => withTape_wf h c _ fun s t h => ?_
  grind [Res.Canonical, spillTape_wf, freeTape_wf]

/-! ### The matrix engine -/

theorem productForm_wf (checks dist quad : Bool) (k : BitVec 4) (a b : Reg) (st : BitVec 3) :
    NextCanonical (productForm checks dist quad k a b st s) := by
  refine issueForm_wf h fun c => withBank_wf h c k fun p _ => ?_
  split
  · exact h
  · split
    · exact h
    · refine holdOr_wf ?_
      grind [Res.Canonical, checkLines_wf, acceptPlain_wf, modBrick_wf]

theorem execAccz_wf (k : BitVec 4) (st : BitVec 3) : NextCanonical (execAccz k st s) := by
  refine issueForm_wf h fun c => ?_
  grind [Res.Canonical, parkSync_wf, acceptZero_wf]

theorem execTopk_wf (k : BitVec 4) (d : Reg) (n : BitVec 2) (max : Bool) (st : BitVec 3) :
    NextCanonical (execTopk k d n max st s) := by
  refine issueForm_wf h fun c => withBank_wf h c k fun p bk => ?_
  grind [Res.Canonical, acceptPlain_wf]

theorem execAccrd_wf (k : BitVec 4) (d a : Reg) (st : BitVec 3) : NextCanonical (execAccrd k d a st s) := by
  refine issueForm_wf h fun c => withBank_wf h c k fun p bk => ?_
  grind [Res.Canonical, acceptPlain_wf]

theorem execAccwb_wf (k : BitVec 4) (a : Reg) (st : BitVec 3) : NextCanonical (execAccwb k a st s) := by
  refine issueForm_wf h fun c => withBank_wf h c k fun p bk => ?_
  grind [Res.Canonical, pushFlight_wf, accept_wf]

theorem execAccadj_wf (k : BitVec 4) (v a : Reg) (st : BitVec 3) : NextCanonical (execAccadj k v a st s) := by
  refine issueForm_wf h fun c => withBank_wf h c k fun p bk => ?_
  grind [Res.Canonical, acceptPlain_wf]

theorem execAccchk_wf (k : BitVec 4) (d v : Reg) (st : BitVec 3) : NextCanonical (execAccchk k d v st s) := by
  refine issueForm_wf h fun c => withBank_wf h c k fun p bk => ?_
  grind [Res.Canonical, acceptPlain_wf]

theorem execAccalloc_wf (d a : Reg) (k : BitVec 5) (st : BitVec 3) : NextCanonical (execAccalloc d a k st s) := by
  refine issueForm_wf h fun c => ?_
  grind [Res.Canonical, parkSync_wf, grantBanks_wf, giveNow_wf, modCore_wf]

theorem execAccfree_wf (a : Reg) (k : BitVec 5) (st : BitVec 3) : NextCanonical (execAccfree a k st s) := by
  refine issueForm_wf h fun c => ?_
  grind [Res.Canonical, freeBanks_wf]

/-! ### System registers -/

theorem execFltrecClaim_wf (d : Reg) (st : BitVec 3) : NextCanonical (execFltrecClaim d st s) := by
  refine issueForm_wf h fun c => ?_
  grind [Res.Canonical, giveNow_wf, modDie_wf]

theorem execRlogClaim_wf (d : Reg) (st : BitVec 3) : NextCanonical (execRlogClaim d st s) := by
  refine issueForm_wf h fun c => ?_
  grind [Res.Canonical, giveNow_wf, modDie_wf]

theorem execSysw_wf (a : Reg) (y : BitVec 7) (st : BitVec 3) : NextCanonical (execSysw a y st s) := by
  unfold execSysw
  split
  · exact trapEncoding_wf h ..
  · exact issueForm_wf h fun c => untagged_wf h c a (sysWrite_wf h ..)

theorem execFltdoneAnswer_wf (a : Reg) (st : BitVec 3) : NextCanonical (execFltdoneAnswer a st s) :=
  issueForm_wf h fun c => untagged_wf h c a ((answerFault_wf ..).trans h)

theorem execTapesegAppend_wf (a : Reg) (st : BitVec 3) : NextCanonical (execTapesegAppend a st s) := by
  refine issueForm_wf h fun c => untagged_wf h c a (ite_wf h ?_)
  split <;> grind [Res.Canonical, SegRes.Canonical, addSegment_wf, brickFault_wf, setTape_wf]

theorem execAttestRequest_wf (a : Reg) (st : BitVec 3) : NextCanonical (execAttestRequest a st s) := by
  refine issueForm_wf h fun c => untagged_wf h c a (ite_wf h ?_)
  have hatt (x : Option (Nat × Nat)) : Memory.wf { s with attest := x } = Memory.wf s := rfl
  grind [Res.Canonical]

theorem execSrseed_wf (a : Reg) (st : BitVec 3) : NextCanonical (execSrseed a st s) :=
  issueForm_wf h fun c => untagged_wf h c a ((srWrite_wf ..).trans h)

/-! ### Conversions, CURE and the flags -/

theorem execCvt_wf (d a c : Reg) (rm : Rm) (t1 t2 : Ty) (hi : Bool) (st : BitVec 3) :
    NextCanonical (execCvt d a c rm t1 t2 hi st s) := by
  unfold execCvt
  split
  refine issueConv_wf h fun s c h => ?_
  split
  · exact h
  · exact fpThreads_wf h ..

theorem execCvtn_wf (d a b : Reg) (rm : Rm) (t1 t2 : Ty) (hi : Bool) (st : BitVec 3) :
    NextCanonical (execCvtn d a b rm t1 t2 hi st s) := by
  unfold execCvtn
  exact issueConv_wf h fun s c h => fpThreads_wf h ..

theorem execPackhb_wf (d a sb : Reg) (rm : Rm) (t1 t2 : Ty) (given : Bool) (gap : BitVec 4) (st : BitVec 3) :
    NextCanonical (execPackhb d a sb rm t1 t2 given gap st s) := by
  unfold execPackhb
  refine issueConv_wf h fun s c h => ?_
  grind [Res.Canonical, pushFp_wf]

theorem execCure_wf (d a b g : Reg) (rm : Rm) (ty : Ty) (hi : Bool) (sp : Reg) (st : BitVec 3) :
    NextCanonical (execCure d a b g rm ty hi sp st s) := by
  refine issueForm_wf h fun c => ?_
  grind [Res.Canonical, cureCst_wf, fpThreads_wf]

theorem execCureRst_wf (st : BitVec 3) : NextCanonical (execCureRst st s) := by
  refine issueForm_wf h fun c => ?_
  grind [Res.Canonical, modBrick_wf]

theorem execFxrd_wf (d : Reg) (st : BitVec 3) : NextCanonical (execFxrd d st s) :=
  issueForm_wf h fun _ => holdOr_wf (fixed_wf h ..)

theorem execFxclr_wf (k : BitVec 5) (st : BitVec 3) : NextCanonical (execFxclr k st s) := by
  refine issueForm_wf h fun c => ?_
  grind [Res.Canonical, modBrick_wf]

/-! ### Copies and the fabric -/

theorem execCopy_wf (d a b c : Reg) (chain ck cmp hod : Bool) (st : BitVec 3) :
    NextCanonical (execCopy d a b c chain ck cmp hod st s) := by
  have hnew (s : State) (t : Tab Copy) (n : Nat) : Memory.wf { s with copies := t, nextC := n } = Memory.wf s := rfl
  refine issueForm_wf h fun c => holdOr_wf ?_
  split
  · exact h
  · grind [Res.Canonical, freeDue_wf, modBrick_wf, markRole_wf, parkSync_wf, pushFlight_wf]

theorem execPutw_wf (d a : Reg) (st : BitVec 3) : NextCanonical (execPutw d a st s) := by
  refine issueForm_wf h fun c => ite_wf h <| holdOr_wf ?_
  split
  · exact h
  · exact withSend_wf h c _ _ _ _ fun _ _ _ h => (pushFlight_wf ..).trans h

theorem sigwForm_wf (add : Bool) (d a : Reg) (st : BitVec 3) : NextCanonical (sigwForm add d a st s) := by
  refine issueForm_wf h fun c => holdOr_wf ?_
  split
  · exact h
  · exact withSend_wf h c _ _ _ _ fun _ _ _ h => (pushFlight_wf ..).trans ((useCum_wf ..).trans h)

theorem collectiveForm_wf (form : CollForm) (k : BitVec 4) (d a : Reg) (st : BitVec 3) :
    NextCanonical (collectiveForm form k d a st s) := by
  refine issueForm_wf h fun c => holdOr_wf ?_
  split
  · exact h
  · split
    · exact h
    · refine withPieces_wf c kRead ?_ fun s src h => withPieces_wf c kWrite (rangePieces_wf h ..) fun s dst h => ?_
      · split
        · exact rangePieces_wf h ..
        · exact h
      · have henter (s : State) (t : Tab Nat) : Memory.wf { s with collIdx := t } = Memory.wf s := rfl
        have hcolls (s : State) (t : Tab Coll) : Memory.wf { s with colls := t } = Memory.wf s := rfl
        grind [Res.Canonical, pushFlight_wf, openColl_wf, denyParty_wf, readPieces_wf, joinColl_wf]

theorem execRfenceRel_wf (st : BitVec 3) : NextCanonical (execRfenceRel st s) := by
  refine issueForm_wf h fun c => ?_
  grind [Res.Canonical, modBrick_wf]

theorem execLred_wf (d a : Reg) (op : RedOp) (rm : Rm) (ty : Ty) (st : BitVec 3) : NextCanonical (execLred d a op rm ty st s) :=
  issueForm_wf h fun _ => redDone_wf h ..

theorem execLscan_wf (d a : Reg) (op : RedOp) (excl : Bool) (rm : Rm) (ty : Ty) (st : BitVec 3) :
    NextCanonical (execLscan d a op excl rm ty st s) :=
  issueForm_wf h fun _ => redDone_wf h ..

end

end Sys2Proof.Machine

/-!
O8. The steps that no instruction issues: what is performed, committed, scheduled, answered and met.
-/
namespace Sys2Proof.Machine

section
variable {s : State} (h : Memory.wf s = true)
include h

/-! ### Operations in flight -/

theorem execLoadComplete_wf (b : Nat) : NextCanonical (execLoadComplete b s) := by
  grind [execLoadComplete, NextCanonical, performLoadFlight_wf]

theorem execStorePerformed_wf (b : Nat) : NextCanonical (execStorePerformed b s) := by
  grind [execStorePerformed, NextCanonical, performStoreFlight_wf]

theorem execLdtvAttempt_wf (b : Nat) : NextCanonical (execLdtvAttempt b s) := by
  grind [execLdtvAttempt, NextCanonical, performAttempt_wf]

theorem execHodSlotPerformed_wf (b : Nat) : NextCanonical (execHodSlotPerformed b s) := by
  grind [execHodSlotPerformed, NextCanonical, performFill_wf]

theorem execSigwFlagUpdate_wf (b : Nat) : NextCanonical (execSigwFlagUpdate b s) := by
  grind [execSigwFlagUpdate, NextCanonical, performSignal_wf]

theorem execTapeSealComplete_wf (b : Nat) : NextCanonical (execTapeSealComplete b s) := by
  grind [execTapeSealComplete, NextCanonical, spillTape_wf, endFlight_wf, refuseLine_wf]

theorem execTapeRecordComplete_wf (b : Nat) : NextCanonical (execTapeRecordComplete b s) := by
  grind [execTapeRecordComplete, NextCanonical, spillFirst_wf, refuseLine_wf, endFlight_wf]

theorem execArrivalCounted_wf (b : Nat) : NextCanonical (execArrivalCounted b s) := by
  grind [execArrivalCounted, NextCanonical, modBrick_wf, countMarks_wf]

theorem execFxFlagWrite_wf (b : Nat) : NextCanonical (execFxFlagWrite b s) := by
  grind [execFxFlagWrite, NextCanonical, writeFx_wf, closeDue_wf]

theorem execShadowDivergence_wf (b : Nat) : NextCanonical (execShadowDivergence b s) := by
  grind [execShadowDivergence, NextCanonical, detect_wf]

omit h in
/-- The first step that an operation of a list can take is one that it takes. -/
theorem firstStep_eq {f : Flight → Option State} {l : List Flight} {t : State} (ht : firstStep f l = some t) : ∃ x, f x = some t := by
  induction l with
  | nil => cases ht
  | cons x l ih => grind [firstStep]

theorem execTlbiComplete_wf (b : Nat) : NextCanonical (execTlbiComplete b s) := by
  unfold execTlbiComplete
  split
  · trivial
  · rename_i br _
    cases ht : firstStep (tlbiStep s b br) br.flights with
    | none => exact h
    | some t =>
      obtain ⟨f, hf⟩ := firstStep_eq ht
      exact tlbiStep_wf h hf

theorem execCopySpan_wf (b : Nat) : NextCanonical (execCopySpan b s) := by
  grind [execCopySpan, NextCanonical, copySpan_wf]

theorem execCopyHodAccept_wf (b : Nat) : NextCanonical (execCopyHodAccept b s) := by
  grind [execCopyHodAccept, NextCanonical, acceptCopy_wf]

theorem execRfenceMarkerDone_wf (b : Nat) : NextCanonical (execRfenceMarkerDone b s) := by
  grind [execRfenceMarkerDone, NextCanonical, setBrick_wf]

theorem execCollectiveComplete_wf (inst : Nat) (remote : List Contribution) :
    NextCanonical (execCollectiveComplete inst remote s) := by
  grind [execCollectiveComplete, NextCanonical, deliverColl_wf, failColl_wf]

theorem execNegativeResponse_wf (b : Nat) (revoked : Bool) : NextCanonical (execNegativeResponse b revoked s) := by
  grind [execNegativeResponse, NextCanonical, pickFailing_wf, denyFlight_wf]

/-! ### Traps, waits and commits -/

theorem execCollectionWindowClose_wf (b : Nat) : NextCanonical (execCollectionWindowClose b s) := by
  grind [execCollectionWindowClose, NextCanonical, closeCollection_wf]

theorem execTrapSlotEntry_wf (b : Nat) : NextCanonical (execTrapSlotEntry b s) := by
  grind [execTrapSlotEntry, NextCanonical, slotEntry_wf]

theorem execSyncOpEvaluate_wf (b k : Nat) : NextCanonical (execSyncOpEvaluate b k s) := by
  unfold execSyncOpEvaluate
  split
  · trivial
  · split
    · trivial
    · split
      · exact h
      · split
        · exact h
        · exact syncStep_wf h ..

theorem execCourseCommit_wf (lid : Nat) : NextCanonical (execCourseCommit lid s) := by
  grind [execCourseCommit, NextCanonical, commitBricks_wf]

theorem execBrickKill_wf (b : Nat) : NextCanonical (execBrickKill b s) := by
  grind [execBrickKill, NextCanonical, killBrick_wf]

theorem execHaltResume_wf (b : Nat) : NextCanonical (execHaltResume b s) := by
  grind [execHaltResume, NextCanonical, modBrick_wf]

theorem execDebugResume_wf (b : Nat) : NextCanonical (execDebugResume b s) := by
  grind [execDebugResume, NextCanonical, modBrick_wf]

theorem execDebugStep_wf (b k : Nat) : NextCanonical (execDebugStep b k s) := by
  grind [execDebugStep, NextCanonical, modBrick_wf]

/-! ### The matrix engine -/

theorem execArrayRun_wf (core : Nat) : NextCanonical (execArrayRun core s) := by
  grind [execArrayRun, NextCanonical, runEntry_wf, popQueue_wf]

theorem execQuadRendezvous_wf (quad : Nat) : NextCanonical (execQuadRendezvous quad s) := by
  have hrun (hs : List (Nat × ArrEntry)) (g : ArrEntry → ArrEntry) :
      Memory.wf (hs.foldl (fun s x => runEntry (popQueue s x.1) x.1 (g x.2)) s) = true :=
    foldl_wf _ (fun _ x h => runEntry_wf ((popQueue_wf ..).trans h) x.1 (g x.2)) hs h
  unfold execQuadRendezvous
  split
  · trivial
  · extract_lets hs
    split
    · exact h
    · split
      · exact (failOwed_wf ..).trans h
      · split
        · exact (failQuad_wf ..).trans ((oweQuad_wf ..).trans h)
        · split
          · exact h
          · split
            · exact (failQuad_wf ..).trans h
            · exact hrun hs _

theorem execAccallocGrant_wf (core : Nat) : NextCanonical (execAccallocGrant core s) := by
  grind [execAccallocGrant, NextCanonical, serveBanks_wf, modCore_wf]

/-! ### Launches and walls -/

theorem execLaunchAccept_wf (die : Nat) : NextCanonical (execLaunchAccept die s) := by
  have hsub (l : List Submit) : Memory.wf { s with submits := l } = true := h
  grind [execLaunchAccept, NextCanonical, acceptSubmit_wf]

theorem execLaunchAdmit_wf (lid : Nat) : NextCanonical (execLaunchAdmit lid s) := by
  grind [execLaunchAdmit, NextCanonical, admitLaunch_wf]

theorem execWallPlace_wf (die : Nat) : NextCanonical (execWallPlace die s) := by
  grind [execWallPlace, NextCanonical, placeWall_wf]

theorem execLaunchDone_wf (lid : Nat) : NextCanonical (execLaunchDone lid s) := by
  grind [execLaunchDone, NextCanonical, endLaunch_wf]

theorem execPreempt_wf (die : Nat) : NextCanonical (execPreempt die s) := by
  have hwalls (t : Tab Wall) : Memory.wf { s with walls := t } = true := h
  grind [execPreempt, NextCanonical, spillWall_wf, saveWall_wf]

theorem execWallRestore_wf (wall : Nat) : NextCanonical (execWallRestore wall s) := by
  grind [execWallRestore, NextCanonical, restoreWall_wf]

/-! ### The services of the chip and the fabric -/

theorem execPowerOnBoot_wf : NextCanonical (execPowerOnBoot s) := by
  have hdies (s : State) : Memory.wf ([1, 2, 3].foldl (fun s d => modDie s d (fun x => { x with ok := false })) s) = Memory.wf s :=
    foldl_wf_eq _ (fun s d => modDie_wf s d _) _ s
  grind [execPowerOnBoot, NextCanonical, bootDie_wf]

theorem execAttestQuote_wf : NextCanonical (execAttestQuote s) := by
  have hatt (s : State) (x : Option (Nat × Nat)) : Memory.wf { s with attest := x } = Memory.wf s := rfl
  grind [execAttestQuote, NextCanonical, translate_wf, writeQuote_wf, addFault_wf]

theorem execControlScrub_wf : NextCanonical (execControlScrub s) := by
  unfold execControlScrub
  split
  · exact h
  · exact foldl_wf _ (fun _ x h => meetFault_wf h x) _ h

theorem execMachineCheck_wf (what : FaultyStructure) : NextCanonical (execMachineCheck what s) := by
  grind [execMachineCheck, NextCanonical, nextFree_wf, checkKill_wf, logAdd_wf]

theorem execSagTrip_wf (quad : Nat) : NextCanonical (execSagTrip quad s) := by
  grind [execSagTrip, NextCanonical, setSag_wf]

theorem execSagRelease_wf (quad : Nat) : NextCanonical (execSagRelease quad s) := by
  grind [execSagRelease, NextCanonical, setSag_wf]

theorem execPowerSample_wf (watt : Nat) : NextCanonical (execPowerSample watt s) := by
  have hpower (n p q : Nat) : Memory.wf { s with watt := n, pstep := p, pover := q } = true := h
  grind [execPowerSample, NextCanonical]

theorem execThermalThrottle_wf (die tj : Nat) : NextCanonical (execThermalThrottle die tj s) := by
  grind [execThermalThrottle, NextCanonical, heat_wf]

theorem execThermalShutdown_wf (die tj : Nat) : NextCanonical (execThermalShutdown die tj s) := by
  grind [execThermalShutdown, NextCanonical, heat_wf]

theorem execThermalRecover_wf (die tj : Nat) : NextCanonical (execThermalRecover die tj s) := by
  grind [execThermalRecover, NextCanonical, heat_wf]

theorem execFlitCrcRetry_wf (link : Nat) : NextCanonical (execFlitCrcRetry link s) := by
  have hlinks (s : State) (t : Tab Link) : Memory.wf { s with links := t } = Memory.wf s := rfl
  grind [execFlitCrcRetry, NextCanonical, nextFree_wf, logAdd_wf]

theorem execLinkRestore_wf (link : Nat) : NextCanonical (execLinkRestore link s) := by
  unfold execLinkRestore
  split
  · trivial
  · exact h

theorem execKeyRevoke_wf (key : BitVec 16) : NextCanonical (execKeyRevoke key s) :=
  h

theorem execKeyAssign_wf (key part : BitVec 16) : NextCanonical (execKeyAssign key part s) :=
  (assignKey_wf ..).trans h

theorem execFabricRequestArrival_wf (req : RemoteReq) : NextCanonical (execFabricRequestArrival req s) := by
  have hsent (l : List Sent) : Memory.wf { s with sent := l } = true := h
  unfold execFabricRequestArrival
  split <;> grind [NextCanonical, theirLine_wf, assignKey_wf, performRemote_wf]

theorem execLrecSubmit_wf (v : BitVec 64) : NextCanonical (execLrecSubmit v s) := by
  grind [execLrecSubmit, NextCanonical, writeLrec_wf]

theorem execWstatClear_wf (v : BitVec 3) : NextCanonical (execWstatClear v s) := by
  grind [execWstatClear, NextCanonical, clearWstat_wf]

theorem execHostWrite_wf (pa : BitVec 56) (bytes : List (BitVec 8)) : NextCanonical (execHostWrite pa bytes s) := by
  have hobs (p : Nat) (l : List Nat) : Memory.wf (l.foldl (fun s i => observe s none (.phys (p + i)) 1) s) = true :=
    (foldl_wf_eq _ (fun s i => observe_wf s none (.phys (p + i)) 1) l s).trans h
  unfold execHostWrite
  extract_lets p
  split
  · exact h
  · split
    · exact (windowWrite_wf ..).trans h
    · exact writeAll_wf (hobs ..) ..

theorem execHostRead_wf (pa : BitVec 56) (n : Nat) : NextCanonical (execHostRead pa n s) := by
  unfold execHostRead
  split
  · exact h
  · exact hostBytes_wf h ..

/-- An injection that succeeds leaves memory in canonical form, and one that does not changes nothing. -/
theorem injectStep_wf {f : Ctx → Option State} (hf : ∀ c t, f c = some t → Memory.wf t = true) : NextCanonical (injectStep s f) := by
  unfold injectStep
  split
  · trivial
  · rename_i c _
    cases ht : f c with
    | none => exact h
    | some t => exact hf c t ht

theorem armStep_wf (x : Ctx → Option Armed) :
    NextCanonical (injectStep s fun c => some (arm s c (x c))) :=
  injectStep_wf h fun c _ ht => Option.some.inj ht ▸ (arm_wf s c (x c)).trans h

theorem execInjectCopyArm_wf (byte : BitVec 31) (bit : BitVec 9) : NextCanonical (execInjectCopyArm byte bit s) :=
  injectStep_wf h fun c t ht => by grind [arm_wf]

end

end Sys2Proof.Machine

/-!
O8. Every instruction, every step of the machine's own and every move keeps the tables of memory in canonical form.
-/
namespace Sys2Proof.Machine

section
variable {s : State} (h : Memory.wf s = true)
include h

theorem exec_wf (i : Instr) : NextCanonical (exec i s) := by
  cases i with
  | iadd | isub | imul | imulh | imad | iaddc | imin | imax | iabs | ineg | and | or | xor | andn | not | shl | shr | sar | rot
  | popc | clz | brev | mov | iminUnsigned | imaxUnsigned | imulhUnsigned | iaddI64Imm9 | iaddI32Imm9 | imulI64Imm9 | imulI32Imm9
  | andB64Imm9 | orB64Imm9 | xorB64Imm9 | shlB64Imm9 | shrN64Imm9 | sarI64Imm9 | moviI64 | moviN64 | moviI32 | iminI64Imm9
  | imaxI64Imm9 | iaddI64Imm32 | iaddI32Imm32 | imulI64Imm32 | imulI32Imm32 | andB64Imm32 | orB64Imm32 | xorB64Imm32
  | shlB64Imm32 | shrN64Imm32 | sarI64Imm32 | moviI64Imm32 | moviN64Imm32 | moviI32Imm32 | iminI64Imm32 | imaxI64Imm32 | lea
  | leaDisp | icmpEq | icmpNe | icmpLt | icmpLe | icmpLtu | icmpLeu | vfroms | vfromsIdx | sfromv | lshfl | lpush | lbcst
  | lvoteBallot | lvoteAny | lvoteAll | lfirst | mopAnd | mopOr | mopXor | mopAndn | mopNot | mpop | tagrd | cureRstRdlast
  | cureRstRdcnt | bfx | bfi | sel | sadd | ssub | smul | sand | sor | sxor | sshl | sshr | ssar | smin | smax | sminUnsigned
  | smaxUnsigned | smov | slea | scmpEq | scmpNe | scmpLt | scmpLe | scmpLtu | scmpLeu | saddI64Imm9 | smulI64Imm9 | sandB64Imm9
  | sorB64Imm9 | sxorB64Imm9 | sshlB64Imm9 | sshrN64Imm9 | ssarI64Imm9 | sminI64Imm9 | smaxI64Imm9 | sminN64Imm9 | smaxN64Imm9
  | smoviI64 | smoviN64 | saddI64Imm32 | smulI64Imm32 | sandB64Imm32 | sorB64Imm32 | sxorB64Imm32 | sshlB64Imm32 | sshrN64Imm32
  | ssarI64Imm32 | sminI64Imm32 | smaxI64Imm32 | sminN64Imm32 | smaxN64Imm32 | smoviI64Imm32 | smoviN64Imm32 | tagset | ssel =>
    exact issueFixed_wf h ..
  | faddF32 | fsubF32 | fmulF32 | ffmaF32 | ffmsF32 | fnmaF32 | fminF32 | fmaxF32 | fdivF32 | fsqrtF32 | frcpF32 | frsqF32
  | fexpF32 | fex2F32 | flogF32 | ferfF32 | faddF64 | fsubF64 | fmulF64 | ffmaF64 | ffmsF64 | fnmaF64 | fminF64 | fmaxF64
  | fdivF64 | fsqrtF64 | frcpF64 | frsqF64 | fexpF64 | fex2F64 | flogF64 | ferfF64 | fclass | fabs | fneg | flg2 | fscale | ftwos
  | ftwop | frnd =>
    exact issueFp_wf h ..
  | stB64 | stgB64 | stc | stB32 | stgB32 | stB64Disp | stgB64Disp | stcDisp | stB32Disp | stgB32Disp => exact laneStore_wf h ..
  | ldB64 | ldgB64 | ldB32 | ldgB32 | ldB64Disp | ldgB64Disp | ldB32Disp | ldgB32Disp => exact laneLoad_wf h ..
  | tst | tcom | retr | tstDisp | tcomDisp | retrDisp => exact cellAccess_wf h ..
  | land | nop | sysr | splitq | trap | courseRd => exact issueForm_wf h fun _ => h
  | fcmpEq | fcmpNe | fcmpLt | fcmpLe | fcmpUn => exact laneFcmp_wf h ..
  | mmaC | mmaQ | mmas | dist => exact productForm_wf h ..
  | collRed | collMaxe | collBcst => exact collectiveForm_wf h ..
  | injectDisarm | injectFpArm | injectMatrixArm => exact armStep_wf h _
  | ldt | ldtDisp => exact lineLoad_wf h ..
  | stt | sttDisp => exact lineStore_wf h ..
  | sttAon | sttAonDisp => exact aonStore_wf h ..
  | ldtv | ldtvDisp => exact versionedLoad_wf h ..
  | stp | stpDisp => exact pairedStore_wf h ..
  | pref | prefDisp => exact prefetch_wf h ..
  | atom | red => exact atomForm_wf h ..
  | lds | ldsDisp => exact uniLoad_wf h ..
  | sts | stsDisp => exact uniStore_wf h ..
  | bind | bindDisp => exact bindForm_wf h ..
  | unbind | unbindDisp => exact unbindForm_wf h ..
  | modeRm | modeReg => exact modeForm_wf h ..
  | rte | rteKill => exact returnForm_wf h ..
  | copyq | copyqBytes => exact copyQuery_wf h ..
  | tlbiRange | tlbiAll => exact tlbiForm_wf h ..
  | sigwSet | sigwAdd => exact sigwForm_wf h ..
  | tagrdLine => exact execTagrdLine_wf h ..
  | cureRst => exact execCureRst_wf h ..
  | fxrd => exact execFxrd_wf h ..
  | fxclr => exact execFxclr_wf h ..
  | accz => exact execAccz_wf h ..
  | topk => exact execTopk_wf h ..
  | accrd => exact execAccrd_wf h ..
  | accwb => exact execAccwb_wf h ..
  | accadj => exact execAccadj_wf h ..
  | accchk => exact execAccchk_wf h ..
  | tapeRec => exact execTapeRec_wf h ..
  | tapeBr => exact execTapeBr_wf h ..
  | tapePop => exact execTapePop_wf h ..
  | tapePopbr => exact execTapePopbr_wf h ..
  | cvt => exact execCvt_wf h ..
  | cvtn => exact execCvtn_wf h ..
  | packhb => exact execPackhb_wf h ..
  | lred => exact execLred_wf h ..
  | lscan => exact execLscan_wf h ..
  | cure => exact execCure_wf h ..
  | bra => exact execBra_wf h ..
  | brc => exact execBrc_wf h ..
  | brl => exact execBrl_wf h ..
  | call => exact execCall_wf h ..
  | ret => exact execRet_wf h ..
  | join => exact execJoin_wf h ..
  | yield => exact issueForm_wf (body := fun _ => .doneTurn s) h fun _ => h
  | exit => exact execExit_wf h ..
  | jmpiUniform => exact execJmpiUniform_wf h ..
  | jmpiLane => exact execJmpiLane_wf h ..
  | barInit => exact execBarInit_wf h ..
  | barArr => exact execBarArr_wf h ..
  | barWait => exact execBarWait_wf h ..
  | barSync => exact execBarSync_wf h ..
  | barQ => exact execBarQ_wf h ..
  | semInit => exact execSemInit_wf h ..
  | semAcq d a k sp st => exact execSemAcq_wf h d a k sp st
  | semRel a k sp st => exact execSemRel_wf h a k sp st
  | semTry d a k sp st => exact execSemTry_wf h d a k sp st
  | hodInit => exact execHodInit_wf h ..
  | hodPut => exact execHodPut_wf h ..
  | hodGet => exact execHodGet_wf h ..
  | hodTry => exact execHodTry_wf h ..
  | hodClose => exact execHodClose_wf h ..
  | fence cum kind sp st => exact execFence_wf h cum kind sp st
  | wait => exact execWait_wf h ..
  | accalloc => exact execAccalloc_wf h ..
  | accfree => exact execAccfree_wf h ..
  | sysw => exact execSysw_wf h ..
  | modeTenSet => exact execModeTenSet_wf h ..
  | modeTenClr => exact execModeTenClr_wf h ..
  | srseed => exact execSrseed_wf h ..
  | bkpt => exact execBkpt_wf h ..
  | halt => exact execHalt_wf h ..
  | tapeOpen => exact execTapeOpen_wf h ..
  | tapeSeal => exact execTapeSeal_wf h ..
  | tapeRev => exact execTapeRev_wf h ..
  | tapeClose => exact execTapeClose_wf h ..
  | launch => exact execLaunch_wf h ..
  | prio => exact execPrio_wf h ..
  | courseEnd => exact execCourseEnd_wf h ..
  | roleq => exact execRoleq_wf h ..
  | rqmovGive => exact execRqmovGive_wf h ..
  | rqmovTake => exact execRqmovTake_wf h ..
  | putw => exact execPutw_wf h ..
  | rfenceRel => exact execRfenceRel_wf h ..
  | copy => exact execCopy_wf h ..
  | fltrecClaim => exact execFltrecClaim_wf h ..
  | fltdoneAnswer => exact execFltdoneAnswer_wf h ..
  | rlogClaim => exact execRlogClaim_wf h ..
  | tapesegAppend => exact execTapesegAppend_wf h ..
  | injectAccEntry => exact injectStep_wf h fun _ _ => injectEntry_wf h
  | injectLaneReg => exact injectStep_wf h fun _ _ => injectLane_wf h
  | injectLocalLine => exact injectStep_wf h fun _ _ => injectLine_wf h
  | injectCopyArm => exact execInjectCopyArm_wf h ..
  | injectLocalDouble => exact injectStep_wf h fun _ _ => injectDouble_wf h
  | injectAddrLine => exact injectStep_wf h fun _ _ => injectAt_wf h
  | attestRequest => exact execAttestRequest_wf h ..
  | attestQuote => exact execAttestQuote_wf h
  | lrecSubmit => exact execLrecSubmit_wf h ..
  | wstatClear => exact execWstatClear_wf h ..
  | hostWrite => exact execHostWrite_wf h ..
  | hostRead => exact execHostRead_wf h ..
  | loadComplete => exact execLoadComplete_wf h ..
  | storePerformed => exact execStorePerformed_wf h ..
  | fxFlagWrite => exact execFxFlagWrite_wf h ..
  | collectionWindowClose => exact execCollectionWindowClose_wf h ..
  | shadowDivergence => exact execShadowDivergence_wf h ..
  | trapSlotEntry => exact execTrapSlotEntry_wf h ..
  | debugStep => exact execDebugStep_wf h ..
  | haltResume => exact execHaltResume_wf h ..
  | arrayRun => exact execArrayRun_wf h ..
  | quadRendezvous => exact execQuadRendezvous_wf h ..
  | accallocGrant => exact execAccallocGrant_wf h ..
  | ldtvAttempt => exact execLdtvAttempt_wf h ..
  | arrivalCounted => exact execArrivalCounted_wf h ..
  | hodSlotPerformed => exact execHodSlotPerformed_wf h ..
  | copyHodAccept => exact execCopyHodAccept_wf h ..
  | copySpan => exact execCopySpan_wf h ..
  | tlbiComplete => exact execTlbiComplete_wf h ..
  | tapeSealComplete => exact execTapeSealComplete_wf h ..
  | sigwFlagUpdate => exact execSigwFlagUpdate_wf h ..
  | rfenceMarkerDone => exact execRfenceMarkerDone_wf h ..
  | collectiveComplete => exact execCollectiveComplete_wf h ..
  | negativeResponse => exact execNegativeResponse_wf h ..
  | flitCrcRetry => exact execFlitCrcRetry_wf h ..
  | keyRevoke => exact execKeyRevoke_wf h ..
  | keyAssign => exact execKeyAssign_wf h ..
  | launchAccept => exact execLaunchAccept_wf h ..
  | launchAdmit => exact execLaunchAdmit_wf h ..
  | wallPlace => exact execWallPlace_wf h ..
  | preempt => exact execPreempt_wf h ..
  | wallRestore => exact execWallRestore_wf h ..
  | launchDone => exact execLaunchDone_wf h ..
  | courseCommit => exact execCourseCommit_wf h ..
  | syncOpEvaluate => exact execSyncOpEvaluate_wf h ..
  | brickKill => exact execBrickKill_wf h ..
  | controlScrub => exact execControlScrub_wf h
  | machineCheck => exact execMachineCheck_wf h ..
  | powerOnBoot => exact execPowerOnBoot_wf h
  | sagTrip => exact execSagTrip_wf h ..
  | sagRelease => exact execSagRelease_wf h ..
  | powerSample => exact execPowerSample_wf h ..
  | thermalThrottle => exact execThermalThrottle_wf h ..
  | thermalShutdown => exact execThermalShutdown_wf h ..
  | thermalRecover => exact execThermalRecover_wf h ..
  | unassignedEncoding => exact trapEncoding_wf h ..
  | linkRestore => exact execLinkRestore_wf h ..
  | debugResume => exact execDebugResume_wf h ..
  | tapeRecordComplete => exact execTapeRecordComplete_wf h ..
  | fabricRequestArrival => exact execFabricRequestArrival_wf h ..

theorem Ev.run_wf (e : Ev) : NextCanonical (e.run s) := by
  cases e with
  | powerOnBoot => exact execPowerOnBoot_wf h
  | attestQuote => exact execAttestQuote_wf h
  | brickKill => exact execBrickKill_wf h ..
  | fxFlagWrite => exact execFxFlagWrite_wf h ..
  | collectionWindowClose => exact execCollectionWindowClose_wf h ..
  | shadowDivergence => exact execShadowDivergence_wf h ..
  | trapSlotEntry => exact execTrapSlotEntry_wf h ..
  | loadComplete => exact execLoadComplete_wf h ..
  | storePerformed => exact execStorePerformed_wf h ..
  | ldtvAttempt => exact execLdtvAttempt_wf h ..
  | hodSlotPerformed => exact execHodSlotPerformed_wf h ..
  | sigwFlagUpdate => exact execSigwFlagUpdate_wf h ..
  | tapeRecordComplete => exact execTapeRecordComplete_wf h ..
  | tapeSealComplete => exact execTapeSealComplete_wf h ..
  | copyHodAccept => exact execCopyHodAccept_wf h ..
  | copySpan => exact execCopySpan_wf h ..
  | tlbiComplete => exact execTlbiComplete_wf h ..
  | rfenceMarkerDone => exact execRfenceMarkerDone_wf h ..
  | arrivalCounted => exact execArrivalCounted_wf h ..
  | syncOpEvaluate => exact execSyncOpEvaluate_wf h ..
  | arrayRun => exact execArrayRun_wf h ..
  | quadRendezvous => exact execQuadRendezvous_wf h ..
  | accallocGrant => exact execAccallocGrant_wf h ..
  | collectiveComplete => exact execCollectiveComplete_wf h ..
  | launchAccept => exact execLaunchAccept_wf h ..
  | launchAdmit => exact execLaunchAdmit_wf h ..
  | wallPlace => exact execWallPlace_wf h ..
  | preempt => exact execPreempt_wf h ..
  | wallRestore => exact execWallRestore_wf h ..
  | courseCommit => exact execCourseCommit_wf h ..
  | launchDone => exact execLaunchDone_wf h ..

theorem windowGate_wf (b k : Nat) {o : Host.Outcome State Fault Refusal} (ho : NextCanonical o) : NextCanonical (windowGate s b k o) := by
  unfold windowGate
  split
  · exact ho
  · split
    · split
      · exact ho
      · exact (modSplit_wf ..).trans h
    · exact ho

theorem runFetched_wf (c : Ctx) (r : Fetched) : NextCanonical (runFetched s c r) := by
  unfold runFetched
  split
  · split <;> exact exec_wf h _
  · exact (fetchFails_wf ..).trans h

theorem issueAt_wf (b k : Nat) : NextCanonical (issueAt s b k) := by
  have hf : Memory.wf (focusOn s b k) = true := h
  unfold issueAt
  extract_lets t
  split
  · trivial
  · exact windowGate_wf hf b k (runFetched_wf (fetchAt_wf hf ..) ..)

theorem runMove_wf (m : Move) : NextCanonical (runMove s m) := by
  cases m with
  | input i rest =>
    have hr : Memory.wf { s with inputs := rest } = true := h
    by_cases hi : isInput i
    · simpa [runMove, hi] using exec_wf hr i
    · simpa [runMove, hi, NextCanonical] using hr
  | event e => exact Ev.run_wf h e
  | owe b => exact (takeOwed_wf ..).trans h
  | wake b k =>
    cases ht : wakeSplit s b k with
    | none => simpa [runMove, ht, NextCanonical] using h
    | some t => simpa [runMove, ht, NextCanonical] using wakeSplit_wf h ht
  | issue b k => exact issueAt_wf h b k
  | tick => exact tick_wf h

end

/-- Settles O8: whatever the next move is, it keeps the tables of memory in canonical form. -/
theorem stepKeepsMemoryCanonical : Obligations.StepKeepsMemoryCanonical := by
  unfold Obligations.StepKeepsMemoryCanonical
  intro s s' h hstep
  have hm := runMove_wf h (nextMove s)
  rw [show runMove s (nextMove s) = .next s' from hstep] at hm
  exact hm

end Sys2Proof.Machine

/-!
O21. A load's addresses and lines are looked up without a change of what memory reads as, so that a load over whole lines writes
what its state held.
-/
namespace Sys2Proof.Machine

/-! ### States in which memory reads alike -/

/-- Every byte, and the state of every line, is in t what it is in s. -/
structure ReadsAlike (s t : State) : Prop where
  byte : ∀ l, byteAt t l = byteAt s l
  line : ∀ l, metaAt t l = metaAt s l

theorem ReadsAlike.refl (s : State) : ReadsAlike s s := ⟨fun _ => rfl, fun _ => rfl⟩

theorem ReadsAlike.trans {s t u : State} (h : ReadsAlike s t) (h' : ReadsAlike t u) : ReadsAlike s u :=
  ⟨fun l => (h'.byte l).trans (h.byte l), fun l => (h'.line l).trans (h.line l)⟩

theorem ReadsAlike.lineG {s t : State} (h : ReadsAlike s t) (l : Loc) : lineG t l = lineG s l := congrArg LineMeta.g (h.line l)

theorem ReadsAlike.readBytes {s t : State} (h : ReadsAlike s t) (l : Loc) (n : Nat) : readBytes t l n = readBytes s l n :=
  readBytes_congr h.byte n l

theorem ReadsAlike.loadWrite {s t : State} (h : ReadsAlike s t) (dst : LoadDst) (gov : Bool) :
    loadWrite t dst gov = loadWrite s dst gov := by
  funext a
  simp only [Machine.loadWrite, h.readBytes, h.lineG]

theorem observe_readsAlike (s : State) (who : Option Nat) (l : Loc) (n : Nat) : ReadsAlike s (observe s who l n) := by
  rw [observe_eq]
  exact ⟨fun l => by cases l <;> rfl, fun l => by cases l <;> rfl⟩

theorem sendOut_readsAlike (s : State) (l : Loc) (x : Nat → Nat → Sent) : ReadsAlike s (sendOut s l x) := by
  rw [sendOut_eq]
  exact ⟨fun l => by cases l <;> rfl, fun l => by cases l <;> rfl⟩

theorem foldl_readsAlike {α : Type} (f : State → α → State) (hf : ∀ s x, ReadsAlike s (f s x)) (xs : List α) (s : State) :
    ReadsAlike s (xs.foldl f s) := by
  induction xs generalizing s with
  | nil => exact .refl s
  | cons x xs ih => exact (hf s x).trans (ih _)

/-! ### What looking up addresses and lines leaves -/

theorem foldl_walked {α : Type} (f : State → α → State) (hf : ∀ s x, Walked s (f s x)) (xs : List α) (s : State) :
    Walked s (xs.foldl f s) := by
  induction xs generalizing s with
  | nil => exact .refl s
  | cons x xs ih => exact (hf s x).trans (ih _)

theorem firstFail_ok {s t : State} {kind : Nat} {all l : List (Nat × ThreadAcc)} {acc accs : List Acc}
    (h : firstFail s kind all l acc = .ok t accs) : t = s := by
  induction l generalizing acc with
  | nil => exact (AccRes.ok.inj h).1.symm
  | cons x l ih =>
    obtain ⟨n, r⟩ := x
    cases r with
    | ok a => exact ih h
    | cause x va => cases h
    | fault va => cases h

theorem globalThread_walked (s : State) (c : Ctx) (kind : Nat) (avail : Home → Bool) (va n : Nat) (bad : Bool) (t : Nat) (aG : Bool) :
    Walked s (globalThread s c kind avail va n bad t aG).1 := by
  have hb := brickTranslate_walked s c kind va
  unfold globalThread
  split
  · exact .refl s
  · split
    · exact .refl s
    · split <;> rename_i hr <;> rw [hr] at hb
      · exact hb
      · exact hb
      · split <;> exact hb

theorem globalThreads_walked (s : State) (c : Ctx) (kind : Nat) (avail : Home → Bool) (addr : Nat → W64) (g : Nat → Bool) (n : Nat)
    (bad : Nat → Bool) (ts : List Nat) : Walked s (globalThreads s c kind avail addr g n bad ts).1 := by
  induction ts generalizing s with
  | nil => exact .refl s
  | cons t ts ih => exact (globalThread_walked s c kind avail _ n _ t _).trans (ih _)

theorem globalAccs_walked {s t : State} {c : Ctx} {kind : Nat} {avail : Home → Bool} {addr : Nat → W64} {g : Nat → Bool} {n : Nat}
    {bad : Nat → Bool} {accs : List Acc} (h : globalAccs s c kind avail addr g n bad = .ok t accs) : Walked s t :=
  firstFail_ok h ▸ globalThreads_walked s c kind avail addr g n bad c.ts

theorem localAccs_walked {s t : State} {c : Ctx} {addr : Nat → W64} {g : Nat → Bool} {n : Nat} {bad : Nat → Bool} {accs : List Acc}
    (h : localAccs s c addr g n bad = .ok t accs) : Walked s t := firstFail_ok h ▸ .refl s

theorem eitherAccs_walked {s t : State} {glob : Bool} {c : Ctx} {kind : Nat} {avail : Home → Bool} {addr : Nat → W64} {g : Nat → Bool}
    {n : Nat} {bad bad' : Nat → Bool} {accs : List Acc}
    (h : (if glob then globalAccs s c kind avail addr g n bad else localAccs s c addr g n bad') = .ok t accs) : Walked s t := by
  split at h
  · exact globalAccs_walked h
  · exact localAccs_walked h

theorem laneAccs_walked {s t : State} {c : Ctx} {accs : List Acc} {glob : Bool} {kind n : Nat} {x sb : Reg} {sc : BitVec 2}
    {disp : BitVec 30} {bad : Ctx → (Nat → W64) → Nat → Bool} (h : laneAccs glob kind n x sb sc disp bad s c = .ok t accs) :
    Walked s t := eitherAccs_walked h

theorem uniformAcc_walked {s t : State} {c : Ctx} {kind : Nat} {e : W64} {g : Bool} {accs : List Acc}
    (h : uniformAcc s c kind e g = .ok t accs) : Walked s t := by
  unfold uniformAcc at h
  extract_lets t0 at h
  split at h
  · split at h
    · cases h
    · have hg := globalThread_walked s c kind (fun _ => true) (e.toNat % 2 ^ 57) 8 (e.toNat % 8 != 0) t0 g
      generalize globalThread s c kind (fun _ => true) (e.toNat % 2 ^ 57) 8 (e.toNat % 8 != 0) t0 g = r at h hg
      exact firstFail_ok h ▸ hg
  · exact firstFail_ok h ▸ .refl s

/-! ### Performing a load -/

theorem performLoad_walked (s : State) (b : Nat) (accs : List Acc) (dst : LoadDst) (gov : Bool) :
    Walked s (performLoad s b accs dst gov).1 := by
  unfold performLoad
  extract_lets refused accs noted
  have hnoted : Walked s noted := foldl_walked _ (fun s (a : Acc) => noteRead_walked s a.loc a.n) _ s
  have hobserved (t : State) : Walked t (accs.foldl (fun s a => observe s (some b) a.loc a.n) t) :=
    foldl_walked _ (fun s (a : Acc) => observe_walked s (some b) a.loc a.n) _ t
  have hchecked := checkLines_walked (accs.map (fun a => a.loc.line)).eraseDups noted
  split
  rename_i t bad hr
  rw [hr] at hchecked
  split <;> exact hnoted.trans (hchecked.trans (hobserved t))

/-- Lines that are whole and not poisoned pass their checks with nothing changed. -/
theorem checkLines_clean {s : State} {ls : List Loc} (h : ∀ l ∈ ls, (metaAt s l).err = [] ∧ (metaAt s l).psn = false) :
    checkLines s ls = (s, []) := by
  induction ls with
  | nil => rfl
  | cons l ls ih =>
    obtain ⟨herr, hpsn⟩ := h l (List.mem_cons_self ..)
    rw [checkLines, checkLine_clean herr]
    simp [ih fun l hl => h l (List.mem_cons_of_mem _ hl), hpsn]

theorem denial_admitted {s : State} {accs : List Acc} (h : Admitted s accs) : denial s accs = none := by
  have : accs.filter (fun a => (outCheck s a.loc).isSome) = [] := List.filter_eq_nil_iff.2 fun a ha => by simp [h a ha]
  simp [denial, this]

theorem admitted_filter {s : State} {accs : List Acc} (h : Admitted s accs) :
    accs.filter (fun a => (outCheck s a.loc).isNone) = accs := List.filter_eq_self.2 fun a ha => by simp [h a ha]

/-- A load over whole lines that the fabric lets through gives what its state holds. -/
theorem performLoad_clean {s : State} {b : Nat} {accs : List Acc} {dst : LoadDst} {gov : Bool} (hc : Clean s accs) (ha : Admitted s accs) :
    (performLoad s b accs dst gov).2 = { Done.empty with writes := accs.flatMap (loadWrite s dst gov) } := by
  have hnoted : ReadsAlike s (accs.foldl (fun s a => noteRead s a.loc a.n) s) :=
    foldl_readsAlike _ (fun s (a : Acc) => sendOut_readsAlike s a.loc _) accs s
  have hlines : checkLines (accs.foldl (fun s a => noteRead s a.loc a.n) s) (accs.map (fun a => a.loc.line)).eraseDups =
      (accs.foldl (fun s a => noteRead s a.loc a.n) s, []) := checkLines_clean fun l hl => by
    obtain ⟨a, ha, rfl⟩ := List.mem_map.1 (List.mem_eraseDups.1 hl)
    rw [hnoted.line]
    exact hc a ha
  have hread := hnoted.trans (foldl_readsAlike _ (fun s (a : Acc) => observe_readsAlike s (some b) a.loc a.n) accs _)
  simp [performLoad, admitted_filter ha, hlines, poisonLate, denial_admitted ha, hread.loadWrite, Done.empty]

theorem performLoad_kind {s : State} {b : Nat} {accs : List Acc} {dst : LoadDst} {gov : Bool} (hc : Clean s accs) (ha : Admitted s accs) :
    FlightKind.regs (performLoad s b accs dst gov).2.writes (performLoad s b accs dst gov).2.late =
      .regs (accs.flatMap (loadWrite s dst gov)) none := by
  rw [performLoad_clean hc ha]
  rfl

/-! ### The loads of the table -/

/-- What a load answers, once its addresses are known. -/
theorem issueLoad_done {s : State} {c : Ctx} {x : LoadSpec} {accs : List Acc} (fc : Nat)
    (hd : c.br.det = true → ∀ a ∈ accs, locDown s a.loc = false) : ∃ t kind, Walked s t ∧ LoadKind s c x accs kind ∧
      issueLoad s c x.form fc accs (x.dst c) (x.mark c) (!x.glob c) =
        .done (pushFlight t c x.form (some fc) none (some (x.mark c)) kind) := by
  unfold issueLoad LoadKind
  cases hdet : c.br.det with
  | true =>
    have hup : (accs.any fun a => locDown s a.loc) = false := List.any_eq_false.2 fun a ha => by simp [hd hdet a ha]
    refine ⟨_, _, performLoad_walked s c.b accs (x.dst c) c.gov, ?_, by simp only [hup, readThrough]; rfl⟩
    exact fun hc ha => performLoad_kind hc ha
  | false =>
    cases hglob : x.glob c with
    | true => exact ⟨s, _, .refl s, by simp, rfl⟩
    | false =>
      exact ⟨_, _, performLoad_walked s c.b accs (x.dst c) c.gov, fun hc ha => performLoad_kind (b := c.b) hc ha, rfl⟩

/-- A load's own part: the waits before its checks, the checks of its addresses, its issue. -/
def LoadSpec.body (x : LoadSpec) (s : State) (c : Ctx) : Res :=
  let fc := if x.glob c then 1 else 0
  if loadHold s c fc then .hold
  else withAccs c (x.accs s c) (fun s accs => issueLoad s c x.form fc accs (x.dst c) (x.mark c) (!x.glob c))

/-- Every load of the table issues its form with that part. -/
theorem Load.exec_eq {i : Instr} {x : LoadSpec} (h : Load i x) (s : State) : exec i s = issueForm s x.form (x.body s) := by
  cases h with
  | ldt d x sb sc q | ldtDisp d x sb sc disp q => cases q <;> rfl
  | _ => rfl

theorem laneLoad_walked {s t : State} {c : Ctx} {accs : List Acc} {glob two : Bool} {n : Nat} {d x sb : Reg} {sc : BitVec 2}
    {disp : BitVec 30} {st : BitVec 3} (h : (laneLoadSpec glob n two d x sb sc disp st).accs s c = .ok t accs) : Walked s t := by
  unfold laneLoadSpec at h
  exact laneAccs_walked h

theorem Load.accs_walked {i : Instr} {x : LoadSpec} (h : Load i x) {s t : State} {c : Ctx} {accs : List Acc}
    (ha : x.accs s c = .ok t accs) : Walked s t := by
  cases h with
  | lds | ldsDisp => exact uniformAcc_walked ha
  | tagrdLine => exact eitherAccs_walked ha
  | ldt | ldtDisp => exact laneAccs_walked ha
  | _ => exact laneLoad_walked ha

/-- Settles O21: a load that passes its checks reads, or will read, the accesses that it has just looked up. -/
theorem loadsComplete : Obligations.LoadsComplete := by
  intro i x hx s c s1 accs hi hhold haccs hdown
  obtain ⟨s2, kind, hwalk, hkind, hissue⟩ := issueLoad_done (x := x) (if x.glob c then 1 else 0) hdown
  refine retires_of_done hi (hx.exec_eq s) ?_ ⟨s2, kind, (hx.accs_walked haccs).trans hwalk, hkind, flies_pushFlight ..⟩
  simp only [LoadSpec.body, hhold, haccs]
  exact hissue

end Sys2Proof.Machine

/-!
O23. A store that passes its checks is issued with the bytes that its table names.
-/
namespace Sys2Proof.Machine

/-- A store's own part, once it turns no green value away: the waits before its checks, the checks of its addresses, its issue. -/
def StoreSpec.body (x : StoreSpec) (s : State) (c : Ctx) : Res :=
  if storeHold s c (x.glob c) then .hold
  else withAccs c (x.accs s c) (fun s accs => storeAccs s c x.form (x.glob c) (x.puts c accs))

/-- A lane store that is not settled-only, or that meets no green value, does that part. -/
theorem laneStore_eq {s : State} {c : Ctx} {glob settled two : Bool} {n : Nat} {d x sb : Reg} {sc : BitVec 2} {disp : BitVec 30}
    {st : BitVec 3} {f : Form} (hf : f = (let f0 := memForm two st (some d) x sb true false
      if settled then { f0 with chk := [chkBoth d, chkBoth x] } else { f0 with half0 := if n = 8 then [] else [d.toNat] }))
    (hi : Issues s c f) (hg : settled = true → (c.gov || c.ts.any (fun t => c.wG d t || c.addrG x sb t)) = false) :
    laneStore glob n settled two d x sb sc disp st s = .next (settle s c f
      (StoreSpec.body ⟨f, fun _ => glob, laneAccs glob kWrite n x sb sc disp (byMultiple n), lanePuts d n, fun _ => false⟩ s c)) := by
  subst hf
  refine (issueForm_go hi _).trans ?_
  have hgreen : (settled && (c.gov || !(c.ts.filter (fun t => c.wG d t || c.addrG x sb t)).isEmpty)) = false := by
    cases settled with
    | false => rfl
    | true =>
      have := hg rfl
      simp_all [List.filter_eq_nil_iff]
  simp only [hgreen]
  rfl

theorem Store.exec_eq {i : Instr} {x : StoreSpec} (h : Store i x) {s : State} {c : Ctx} (hi : Issues s c x.form) (hg : x.green c = false) :
    exec i s = .next (settle s c x.form (x.body s c)) := by
  cases h with
  | stt | sttDisp | sts | stsDisp => exact issueForm_go hi _
  | stc | stcDisp => exact laneStore_eq rfl hi fun _ => hg
  | _ => exact laneStore_eq rfl hi fun h => nomatch h

theorem laneStore_walked {s t : State} {c : Ctx} {accs : List Acc} {glob two : Bool} {n : Nat} {d x sb : Reg} {sc : BitVec 2}
    {disp : BitVec 30} {st : BitVec 3} (h : (laneStoreSpec glob n two d x sb sc disp st).accs s c = .ok t accs) : Walked s t := by
  unfold laneStoreSpec at h
  exact laneAccs_walked h

theorem Store.accs_walked {i : Instr} {x : StoreSpec} (h : Store i x) {s t : State} {c : Ctx} {accs : List Acc}
    (ha : x.accs s c = .ok t accs) : Walked s t := by
  cases h with
  | sts | stsDisp => exact uniformAcc_walked ha
  | stc | stcDisp => exact laneAccs_walked ha
  | stt | sttDisp => exact localAccs_walked ha
  | _ => exact laneStore_walked ha

theorem Walked.qOf {s t : State} (h : Walked s t) (br : Brick) : qOf t br = qOf s br := by
  unfold Walked at h
  rw [h]
  rfl

/-- A store whose green bytes stay out of host memory is issued. -/
theorem storeAccs_eq {s : State} {c : Ctx} {f : Form} {glob : Bool} {puts : List Put}
    (h : ∀ p ∈ puts, (p.acc.loc.isHost && (p.dG || p.acc.aG || c.gov)) = false) :
    storeAccs s c f glob puts = issueStore s c f (if glob then some 2 else none) puts := by
  have hnone : puts.filter (fun p => p.acc.loc.isHost && (p.dG || p.acc.aG || c.gov)) = [] :=
    List.filter_eq_nil_iff.2 fun p hp => by simp [h p hp]
  simp [storeAccs, greenToHost, hnone]

/-- What issuing a store leaves: in a deterministic launch it waits for the end of its course, a global one is in flight, a local one
is performed. -/
theorem issueStore_done (s : State) (c : Ctx) (f : Form) (glob : Bool) (puts : List Put) :
    ∃ t, issueStore s c f (if glob then some 2 else none) puts = .done t ∧
      if c.br.det then
        Flies s c f (if glob then some 2 else none) (some (courseEndOf (qOf s c.br) c.br.L)) none (.store puts c.gov) t
      else if glob then Flies s c f (some 2) none none (.store puts c.gov) t
      else t = performStore s c.b puts c.gov := by
  unfold issueStore bufferEnd
  cases c.br.det with
  | true => exact ⟨_, rfl, flies_pushFlight ..⟩
  | false =>
    cases glob with
    | true => exact ⟨_, rfl, flies_pushFlight ..⟩
    | false => exact ⟨_, rfl, rfl⟩

/-- Settles O23: a store that passes its checks is performed, or in flight until it is. -/
theorem storesComplete : Obligations.StoresComplete := by
  intro i x hx s c s1 accs hi hhold hgreen haccs hhost
  have hwalk := hx.accs_walked haccs
  obtain ⟨t, ht, heffect⟩ := issueStore_done s1 c x.form (x.glob c) (x.puts c accs)
  have hbody : x.body s c = .done t := by
    simp only [StoreSpec.body, hhold, haccs]
    exact (storeAccs_eq hhost).trans ht
  rw [hwalk.qOf] at heffect
  exact ⟨t, ⟨hwalk, heffect⟩, by rw [hx.exec_eq hi hgreen, hbody]; rfl⟩

end Sys2Proof.Machine

/-!
O10. Performing stores writes each line once. What a line's writes leave at a place is the last of them there, and no write of another
line reaches the place or the state of its line.
-/
namespace Sys2Proof.Machine

/-! ### Places and lines -/

/-- Where the state of a place's line is held: which memory, and its key there. -/
def lineKey : Loc → Bool × Nat
  | .loc core off => (false, lKey core off / 64)
  | .phys pa => (true, pa / 64)

/-- An offset in local memory is within it. -/
def Loc.InMemory : Loc → Prop
  | .loc _ off => off < 2 ^ 20
  | .phys _ => True

theorem Loc.InMemory.line {l : Loc} (h : l.InMemory) : l.line.InMemory := by
  cases l with
  | loc core off => exact Nat.lt_of_le_of_lt (Nat.div_mul_le_self off 64) h
  | phys pa => trivial

/-- The places of one line. -/
theorem Loc.line_add {l : Loc} {i : Nat} (hi : l.inLine + i < 64) : (l.add i).line = l.line := by
  cases l <;> simp only [Loc.inLine, Loc.add, Loc.line, Loc.loc.injEq, Loc.phys.injEq, true_and] at *
  · omega
  · omega

/-- They are held apart. -/
theorem Loc.eq_of_placeOf_add {l : Loc} {i j : Nat} (hi : l.inLine + i < 64) (hj : l.inLine + j < 64)
    (h : placeOf (l.add i) = placeOf (l.add j)) : i = j := by
  cases l <;> simp only [Loc.inLine, Loc.add, placeOf, lKey, Prod.mk.injEq, true_and] at *
  · omega
  · omega

theorem Loc.InMemory.add {l : Loc} (h : l.InMemory) {i : Nat} (hi : l.inLine + i < 64) : (l.add i).InMemory := by
  cases l with
  | loc core off =>
    simp only [InMemory, Loc.inLine, Loc.add] at *
    omega
  | phys pa => trivial

/-- In memory, a place is held where no other is. -/
theorem Loc.eq_of_placeOf {l l' : Loc} (h : l.InMemory) (h' : l'.InMemory) (hp : placeOf l = placeOf l') : l = l' := by
  cases l <;> cases l' <;>
    simp only [InMemory, placeOf, lKey, Prod.mk.injEq, true_and, reduceCtorEq, false_and, Loc.loc.injEq, Loc.phys.injEq] at *
  · omega
  · exact hp

theorem Loc.line_eq_of_lineKey {l l' : Loc} (h : l.InMemory) (h' : l'.InMemory) (hk : lineKey l.line = lineKey l'.line) :
    l.line = l'.line := by
  cases l <;> cases l' <;>
    simp only [InMemory, lineKey, Loc.line, lKey, Prod.mk.injEq, true_and, reduceCtorEq, false_and, Loc.loc.injEq, Loc.phys.injEq] at *
  · omega
  · omega

/-! ### The state of a line -/

theorem metaAt_logAdd (s : State) (die k st : Nat) (core : Option Nat) (loc : Nat) (l : Loc) :
    metaAt (logAdd s die k st core loc) l = metaAt s l := by cases l <;> rfl

theorem metaAt_putMeta_ne (s : State) {l l' : Loc} (m : LineMeta) (h : lineKey l' ≠ lineKey l) :
    metaAt (putMeta s l m) l' = metaAt s l' := by
  cases l <;> cases l' <;> simp only [lineKey, ne_eq, Prod.mk.injEq, true_and, reduceCtorEq, false_and, not_false_eq_true] at h
  case loc.loc => exact (tabGetD_set _ _ _ _ _).trans (if_neg h)
  case loc.phys => rfl
  case phys.loc =>
    rw [putMeta]
    split <;> rfl
  case phys.phys =>
    rw [putMeta]
    split
    · rfl
    · simp only [metaAt, tabGetD_set, if_neg h]

theorem metaAt_checkLine_ne (s : State) {l l' : Loc} (h : lineKey l' ≠ lineKey l) : metaAt (checkLine s l).1 l' = metaAt s l' := by
  unfold checkLine
  dsimp only
  split
  · rfl
  · rw [metaAt_logAdd, metaAt_putMeta_ne _ _ h]
  · split
    · exact metaAt_putMeta_ne _ _ h
    · rw [metaAt_logAdd, metaAt_putMeta_ne _ _ h]

/-! ### The writes of one line -/

theorem byteAt_foldl_putByte_ne {ws : List WByte} {l : Loc} (h : ∀ w ∈ ws, placeOf w.loc ≠ placeOf l) (s : State) :
    byteAt (ws.foldl (fun s w => putByte s w.loc w.x) s) l = byteAt s l := by
  induction ws generalizing s with
  | nil => rfl
  | cons w ws ih =>
    have hw := byteAt_putByte_ne s w.x (h w (List.mem_cons_self ..)).symm
    exact (ih (fun v hv => h v (List.mem_cons_of_mem _ hv)) _).trans hw

/-- Of the writes to one place the last one stands. -/
theorem byteAt_foldl_putByte_last {before after : List WByte} {w : WByte} (h : ∀ v ∈ after, placeOf v.loc ≠ placeOf w.loc) (s : State) :
    byteAt ((before ++ w :: after).foldl (fun s w => putByte s w.loc w.x) s) w.loc = w.x := by
  rw [List.foldl_append, List.foldl_cons, byteAt_foldl_putByte_ne h, byteAt_putByte_self]

theorem metaAt_foldl_putByte (ws : List WByte) (s : State) (l : Loc) :
    metaAt (ws.foldl (fun s w => putByte s w.loc w.x) s) l = metaAt s l := by
  induction ws generalizing s with
  | nil => rfl
  | cons w ws ih => exact (ih _).trans (metaAt_putByte s w.loc l w.x)

/-- A line's writes leave every byte that they do not name. -/
theorem byteAt_writeLine_ne {ws : List WByte} {l : Loc} (h : ∀ w ∈ ws, placeOf w.loc ≠ placeOf l) (s : State) (line : Loc)
    (gov atomic : Bool) : byteAt (writeLine s line ws gov atomic) l = byteAt s l := by
  have hc := byteAt_checkLine s line l
  unfold writeLine
  extract_lets places whole greenIn
  split
  rename_i t psn hr
  have ht : byteAt t l = byteAt s l := by
    split at hr
    · exact congrArg (fun x : State × Bool => byteAt x.1 l) hr.symm
    · rwa [hr] at hc
  split
  · exact ht
  · rw [byteAt_putMeta, byteAt_foldl_putByte_ne h, ht]

/-- They leave the state of every other line. -/
theorem metaAt_writeLine_ne (s : State) {line l : Loc} (h : lineKey l ≠ lineKey line) (ws : List WByte) (gov atomic : Bool) :
    metaAt (writeLine s line ws gov atomic) l = metaAt s l := by
  have hc := metaAt_checkLine_ne s h
  unfold writeLine
  extract_lets places whole greenIn
  split
  rename_i t psn hr
  have ht : metaAt t l = metaAt s l := by
    split at hr
    · exact congrArg (fun x : State × Bool => metaAt x.1 l) hr.symm
    · rwa [hr] at hc
  split
  · exact ht
  · rw [metaAt_putMeta_ne _ _ h, metaAt_foldl_putByte, ht]

/-- On a line that is whole and not poisoned, the last write to a place stands. -/
theorem byteAt_writeLine_last {s : State} {line : Loc} (herr : (metaAt s line).err = []) (hpsn : (metaAt s line).psn = false)
    {before after : List WByte} {w : WByte} (h : ∀ v ∈ after, placeOf v.loc ≠ placeOf w.loc) (gov atomic : Bool) :
    byteAt (writeLine s line (before ++ w :: after) gov atomic) w.loc = w.x := by
  simp only [writeLine, checkLine_clean herr, hpsn, ite_self, Bool.false_eq_true, if_false]
  rw [byteAt_putMeta, byteAt_foldl_putByte_last h]

/-! ### The writes of an operation, line by line -/

theorem byteAt_writeAll_ne {ws : List WByte} {l : Loc} (h : ∀ w ∈ ws, placeOf w.loc ≠ placeOf l) (s : State) (gov atomic : Bool) :
    byteAt (writeAll s ws gov atomic) l = byteAt s l := by
  unfold writeAll
  generalize linesOf ws = ls
  induction ls generalizing s with
  | nil => rfl
  | cons line ls ih =>
    exact (ih _).trans (byteAt_writeLine_ne (fun w hw => h w (List.mem_of_mem_filter hw)) s line gov atomic)

/-- The writes of some lines, of those that an operation has. -/
def writeLines (ws : List WByte) (gov atomic : Bool) (ls : List Loc) (s : State) : State :=
  ls.foldl (fun s l => writeLine s l (ws.filter (fun w => w.loc.line == l)) gov atomic) s

theorem writeAll_eq (s : State) (ws : List WByte) (gov atomic : Bool) :
    writeAll s ws gov atomic = writeLines ws gov atomic (linesOf ws) s := rfl

section
variable {ws : List WByte} (hws : ∀ w ∈ ws, w.loc.InMemory) {l : Loc} (hl : l.InMemory)
include hws hl

/-- The writes of other lines leave a place and the state of its line. -/
theorem writeLines_others {ls : List Loc} (hls : ∀ m ∈ ls, ∃ w ∈ ws, w.loc.line = m) (hne : l.line ∉ ls) (s : State)
    (gov atomic : Bool) :
    byteAt (writeLines ws gov atomic ls s) l = byteAt s l ∧ metaAt (writeLines ws gov atomic ls s) l.line = metaAt s l.line := by
  induction ls generalizing s with
  | nil => exact ⟨rfl, rfl⟩
  | cons m ls ih =>
    have hm : l.line ≠ m := fun h => hne (h ▸ List.mem_cons_self ..)
    obtain ⟨hb, hmeta⟩ := ih (fun m' h => hls m' (List.mem_cons_of_mem _ h)) (fun h => hne (List.mem_cons_of_mem _ h))
      (writeLine s m (ws.filter (fun w => w.loc.line == m)) gov atomic)
    refine ⟨hb.trans (byteAt_writeLine_ne (fun w hw hp => hm ?_) s m gov atomic),
      hmeta.trans (metaAt_writeLine_ne s (fun hk => hm ?_) _ gov atomic)⟩
    · obtain ⟨hw, hline⟩ := List.mem_filter.1 hw
      rw [← Loc.eq_of_placeOf (hws w hw) hl hp]
      exact beq_iff_eq.1 hline
    · obtain ⟨w, hw, rfl⟩ := hls m (List.mem_cons_self ..)
      exact Loc.line_eq_of_lineKey hl (hws w hw) hk

end

theorem nodup_eraseDups {α : Type} [DecidableEq α] (l : List α) : l.eraseDups.Nodup := by
  generalize hn : l.length = n
  induction n using Nat.strong_induction_on generalizing l with
  | _ n ih =>
    cases l with
    | nil => exact List.nodup_nil
    | cons a l =>
      rw [List.eraseDups_cons, List.nodup_cons]
      refine ⟨fun h => ?_, ih _ (hn ▸ Nat.lt_succ_of_le (List.length_filter_le ..)) _ rfl⟩
      simpa using (List.mem_filter.1 (List.mem_eraseDups.1 h)).2

/-- Of all the writes of an operation to one place the last one stands, where the place's line is whole and not poisoned. -/
theorem byteAt_writeAll_last {s : State} {before after : List WByte} {w : WByte}
    (hws : ∀ v ∈ before ++ w :: after, v.loc.InMemory) (hlast : ∀ v ∈ after, placeOf v.loc ≠ placeOf w.loc)
    (herr : (metaAt s w.loc.line).err = []) (hpsn : (metaAt s w.loc.line).psn = false) (gov atomic : Bool) :
    byteAt (writeAll s (before ++ w :: after) gov atomic) w.loc = w.x := by
  rw [writeAll_eq]
  have hw : w ∈ before ++ w :: after := List.mem_append_right _ (List.mem_cons_self ..)
  have hmem : w.loc.line ∈ linesOf (before ++ w :: after) := List.mem_eraseDups.2 (List.mem_map.2 ⟨w, hw, rfl⟩)
  have hnodup : (linesOf (before ++ w :: after)).Nodup := nodup_eraseDups _
  have hls : ∀ m ∈ linesOf (before ++ w :: after), ∃ v ∈ before ++ w :: after, v.loc.line = m := fun m hm =>
    List.mem_map.1 (List.mem_eraseDups.1 hm)
  generalize linesOf (before ++ w :: after) = ls at hmem hnodup hls
  obtain ⟨ls₁, ls₂, rfl⟩ := List.append_of_mem hmem
  have hfirst : w.loc.line ∉ ls₁ := fun h => (List.nodup_append.1 hnodup).2.2 _ h _ (List.mem_cons_self ..) rfl
  have hrest : w.loc.line ∉ ls₂ := (List.nodup_cons.1 (List.nodup_append.1 hnodup).2.1).1
  obtain ⟨-, hline⟩ := writeLines_others hws (hws w hw) (fun m h => hls m (List.mem_append_left _ h)) hfirst s gov atomic
  have hfilter : (before ++ w :: after).filter (fun v => v.loc.line == w.loc.line) =
      before.filter (fun v => v.loc.line == w.loc.line) ++ w :: after.filter (fun v => v.loc.line == w.loc.line) := by simp
  rw [writeLines, List.foldl_append, List.foldl_cons, ← writeLines, ← writeLines]
  rw [(writeLines_others hws (hws w hw) (fun m h => hls m (List.mem_append_right _ (List.mem_cons_of_mem _ h))) hrest _ gov atomic).1,
    hfilter]
  exact byteAt_writeLine_last (hline ▸ herr) (hline ▸ hpsn) (fun v hv => hlast v (List.mem_of_mem_filter hv)) gov atomic

/-! ### The stores of a form -/

theorem mem_bytesOf {p : Put} {w : WByte} (h : w ∈ p.bytesOf) : ∃ i, i < p.bytes.length ∧ w.loc = p.acc.loc.add i := by
  obtain ⟨i, hi, rfl⟩ := List.mem_map.1 h
  exact ⟨i, List.mem_range.1 hi, rfl⟩

theorem mem_putsBytes {ps : List Put} {w : WByte} (h : w ∈ putsBytes ps) :
    ∃ p ∈ ps, ∃ i, i < p.bytes.length ∧ w.loc = p.acc.loc.add i := by
  obtain ⟨p, hp, hw⟩ := List.mem_flatMap.1 h
  exact ⟨p, hp, mem_bytesOf hw⟩

/-- A store's bytes around one of them: those that follow it lie behind it. -/
theorem bytesOf_split {p : Put} {i : Nat} (hi : i < p.bytes.length) : ∃ before after,
    p.bytesOf = before ++ ⟨p.acc.loc.add i, p.bytes.getD i 0, p.dG || p.acc.aG⟩ :: after ∧
      ∀ w ∈ after, ∃ j, i < j ∧ j < p.bytes.length ∧ w.loc = p.acc.loc.add j := by
  have hlen : i < p.bytesOf.length := by simpa [Put.bytesOf] using hi
  have hget : p.bytesOf[i] = ⟨p.acc.loc.add i, p.bytes.getD i 0, p.dG || p.acc.aG⟩ := by simp [Put.bytesOf]
  refine ⟨p.bytesOf.take i, p.bytesOf.drop (i + 1), ?_, fun w hw => ?_⟩
  · rw [← hget, ← List.drop_eq_getElem_cons hlen, List.take_append_drop]
  · obtain ⟨k, hk, rfl⟩ := List.mem_iff_getElem.1 hw
    simp only [Put.bytesOf, List.length_drop, List.length_map, List.length_range] at hk
    exact ⟨i + 1 + k, by omega, by omega, by simp [Put.bytesOf]⟩

/-- What performing stores records before it writes leaves memory as it reads. -/
theorem performStore_readsAlike (s : State) (b : Nat) (puts : List Put) (gov : Bool) :
    ∃ t, ReadsAlike s t ∧
      performStore s b puts gov = writeAll t (putsBytes (puts.filter fun p => (outCheck s p.acc.loc).isNone)) gov false :=
  ⟨_, (foldl_readsAlike _ (fun s (p : Put) => sendOut_readsAlike s p.acc.loc _) _ s).trans
    (foldl_readsAlike _ (fun s (p : Put) => observe_readsAlike s (some b) p.acc.loc p.acc.n) _ _), rfl⟩

/-- Settles O10: no byte is written but those of the stores, and what the last of them put at a place stands there. -/
theorem storeWritesItsBytesOnly : Obligations.StoreWritesItsBytesOnly := by
  unfold Obligations.StoreWritesItsBytesOnly
  refine ⟨fun s b puts gov l h => ?_, fun s b before p after gov i hi hin hlast hout herr hpsn => ?_⟩
  · obtain ⟨t, ht, heq⟩ := performStore_readsAlike s b puts gov
    rw [heq, byteAt_writeAll_ne (fun w hw => ?_), ht.byte]
    obtain ⟨p, hp, i, hi, hloc⟩ := mem_putsBytes hw
    exact hloc ▸ h p (List.mem_of_mem_filter hp) i hi
  · obtain ⟨t, ht, heq⟩ := performStore_readsAlike s b (before ++ p :: after) gov
    have hplace : ∀ q ∈ before ++ p :: after, ∀ j, j < q.bytes.length → (q.acc.loc.add j).InMemory := fun q hq j hj => by
      obtain ⟨hline, hoff⟩ := hin q hq
      refine Loc.InMemory.add ?_ (by omega)
      cases hloc : q.acc.loc with
      | loc core off => exact hoff core off hloc
      | phys pa => trivial
    have hp : p ∈ before ++ p :: after := List.mem_append_right _ (List.mem_cons_self ..)
    have hinline := (hin p hp).1
    have hline : (p.acc.loc.add i).line = p.acc.loc.line := Loc.line_add (by omega)
    obtain ⟨b₁, b₂, hsplit, hb₂⟩ := bytesOf_split hi
    have hall : ∀ w ∈ putsBytes ((before ++ p :: after).filter fun q => (outCheck s q.acc.loc).isNone), w.loc.InMemory := fun w hw => by
      obtain ⟨q, hq, j, hj, hloc⟩ := mem_putsBytes hw
      exact hloc ▸ hplace q (List.mem_of_mem_filter hq) j hj
    have hbytes : putsBytes ((before ++ p :: after).filter fun q => (outCheck s q.acc.loc).isNone) =
        (putsBytes (before.filter fun q => (outCheck s q.acc.loc).isNone) ++ b₁) ++
          ⟨p.acc.loc.add i, p.bytes.getD i 0, p.dG || p.acc.aG⟩ ::
            (b₂ ++ putsBytes (after.filter fun q => (outCheck s q.acc.loc).isNone)) := by
      simp [putsBytes, hout, hsplit]
    rw [heq, hbytes]
    rw [hbytes] at hall
    refine byteAt_writeAll_last (w := ⟨p.acc.loc.add i, p.bytes.getD i 0, p.dG || p.acc.aG⟩) hall (fun v hv hv' => ?_)
      (by rw [hline, ht.line, herr]) (by rw [hline, ht.line, hpsn]) gov false
    rcases List.mem_append.1 hv with hv | hv
    · obtain ⟨j, hij, hj, hloc⟩ := hb₂ v hv
      have := Loc.eq_of_placeOf_add (l := p.acc.loc) (i := j) (j := i) (by omega) (by omega) (hloc ▸ hv')
      omega
    · obtain ⟨q, hq, j, hj, hloc⟩ := mem_putsBytes hv
      exact hlast q (List.mem_of_mem_filter hq) j hj (hloc ▸ hv')

end Sys2Proof.Machine

/-!
O24. ATOM and RED are issued with one read-modify-write per active thread, and what performing one does.
-/
namespace Sys2Proof.Machine

/-! ### Issue -/

/-- The form of ATOM and RED. -/
def atomOwnForm (dst : Option Reg) (x sb v : Reg) (op : AtomOp) (ty : Ty) (st : BitVec 3) : Form :=
  let data := if op == .cas then [v, nxt v] else [v]
  let f0 := memForm true st dst x sb false true
  { f0 with lanes := f0.lanes ++ data.map BitVec.toNat, rd := f0.rd ++ data.map nLane, chk := f0.chk ++ data.map (atomChk ty) }

section
variable {s s1 : State} {c : Ctx} {d x sb v : Reg} {op : AtomOp} {ty : Ty} {rm : Rm} {sc : BitVec 2} {st : BitVec 3} {accs : List Acc}
  (haccs : globalAccs s c kRw atomHome (c.addr x sb sc 0) (c.addrG x sb) (atomBytes ty) (misaligned (c.addr x sb sc 0) (atomBytes ty)) =
    .ok s1 accs)
include haccs

/-- RED, past its checks and waits, puts its accesses in flight on fc2. -/
theorem atomForm_none (hi : Issues s c (atomOwnForm none x sb v op ty st)) (hhold : globHold s c 2 = false) :
    atomForm none x sb v op ty rm sc st s = .next (settle s c (atomOwnForm none x sb v op ty st)
      (.doneTurn (pushFlight (useCum s1 c.b) c (atomOwnForm none x sb v op ty st) (some 2) (bufferEnd s1 c) none
        (.atom (atomReqs c v op (atomBytes ty) accs) op ty (c.mode rm) none c.gov)))) := by
  refine (issueForm_go hi _).trans ?_
  simp only [Option.isSome_none, Bool.false_eq_true, if_false, hhold, haccs]
  rfl

/-- ATOM, past its checks and waits, puts its accesses in flight on fc1, or parks on them in a deterministic launch. -/
theorem atomForm_some (hi : Issues s c (atomOwnForm (some d) x sb v op ty st)) (hhold : globHold s c 1 = false) :
    atomForm (some d) x sb v op ty rm sc st s = .next (settle s c (atomOwnForm (some d) x sb v op ty st) (
      let flight := pushFlight (useCum s1 c.b) c (atomOwnForm (some d) x sb v op ty st) (some 1) none (some (.lane (physReg c.k d.toNat)))
      let reqs := atomReqs c v op (atomBytes ty) accs
      if c.br.det then parkSync (flight .syncAtom) c (.atom c.br.seq reqs op ty (c.mode rm) (physReg c.k d.toNat) c.gov)
      else .doneTurn (flight (.atom reqs op ty (c.mode rm) (some (physReg c.k d.toNat)) c.gov)))) := by
  refine (issueForm_go hi _).trans ?_
  simp only [Option.isSome_some, if_true, hhold, haccs]
  rfl

end

/-! ### Performing one -/

/-- An atomic that the fabric refuses changes nothing. -/
theorem performAtom1_refused {s : State} {r : AtomReq} {x : BitVec 9} (h : outCheck s r.acc.loc = some x) (b : Nat) (op : AtomOp) (ty : Ty)
    (rd : Rounding) (dst : Option Nat) (gov : Bool) :
    performAtom1 s b r op ty rd dst gov = (s, ⟨[], [], some ⟨x, r.acc.t, 1, BitVec.ofNat 64 r.acc.va, 0⟩⟩) := by
  have hd : denial s [r.acc] = some ⟨x, r.acc.t, 1, BitVec.ofNat 64 r.acc.va, 0⟩ := by simp [denial, h]
  simp [performAtom1, hd, Done.empty]

section
variable {s : State} {r : AtomReq} (herr : (metaAt s r.acc.loc.line).err = []) (hout : outCheck s r.acc.loc = none)
include herr hout

/-- On a poisoned line it writes nothing and owes the report of the line. -/
theorem performAtom1_poisoned (hpsn : (metaAt s r.acc.loc.line).psn = true) (b : Nat) (op : AtomOp) (ty : Ty) (rd : Rounding)
    (dst : Option Nat) (gov : Bool) : ∃ x, performAtom1 s b r op ty rd dst gov = (sendOut s r.acc.loc x, { Done.empty with
      late := some ⟨0x146#9, r.acc.t, 1, BitVec.ofNat 64 (structOf r.acc.loc), BitVec.ofNat 64 r.acc.loc.line.report⟩ }) := by
  have hd : denial s [r.acc] = none := by simp [denial, hout]
  refine ⟨fun p pa => .fabricAtomic p pa op ty r.v r.v2 (gov || r.dG || r.g2 || r.acc.aG), ?_⟩
  have hsent := sendOut_readsAlike s r.acc.loc fun p pa => .fabricAtomic p pa op ty r.v r.v2 (gov || r.dG || r.g2 || r.acc.aG)
  rw [← hsent.line] at herr hpsn
  simp [performAtom1, hd, checkLine_clean herr, hpsn]

/-- Elsewhere it writes the bytes of its new value and gives the old one. -/
theorem performAtom1_whole (hpsn : (metaAt s r.acc.loc.line).psn = false) (b : Nat) (op : AtomOp) (ty : Ty) (rd : Rounding) (p : Nat)
    (gov : Bool) : ∃ t dG, ReadsAlike s t ∧ performAtom1 s b r op ty rd (some p) gov =
      (let old := leNat (readBytes s r.acc.loc r.acc.n)
       let g := gov || r.acc.aG || lineG s r.acc.loc
       let new := atomNew op ty rd old (r.v.toNat % 2 ^ (8 * r.acc.n)) (r.v2.toNat % 2 ^ (8 * r.acc.n))
       (writeAll t (Put.bytesOf ⟨r.acc, leBytes r.acc.n new.1, dG⟩) gov true,
        { writes := (if r.acc.n = 8 then wLane64 p r.acc.t (BitVec.ofNat 64 old) g
                     else [wHalf p r.acc.t 0 (BitVec.ofNat 32 old) g, wHalf p r.acc.t 1 0 g])
          fx := (if new.2 == flagNone then [] else [(r.acc.t, new.2)]), late := none })) := by
  have hd : denial s [r.acc] = none := by simp [denial, hout]
  have hsent := sendOut_readsAlike s r.acc.loc fun p pa => .fabricAtomic p pa op ty r.v r.v2 (gov || r.dG || r.g2 || r.acc.aG)
  have hread := hsent.trans (observe_readsAlike _ (some b) r.acc.loc r.acc.n)
  rw [← hsent.line] at herr hpsn
  refine ⟨_, r.dG || (r.g2 && op == .cas && decide (leNat (readBytes s r.acc.loc r.acc.n) = r.v.toNat % 2 ^ (8 * r.acc.n))), hread, ?_⟩
  simp only [performAtom1, hd, Option.isSome_none, checkLine_clean herr, hpsn, hread.readBytes, hread.lineG, Bool.false_eq_true, if_false]

end

/-! ### The bytes of one line -/

theorem getD_leBytes {n i : Nat} (h : i < n) (v : Nat) : (leBytes n v).getD i 0 = BitVec.ofNat 8 (v / 256 ^ i) := by
  induction n generalizing v i with
  | zero => cases h
  | succ n ih =>
    cases i with
    | zero => simp [leBytes]
    | succ i =>
      rw [leBytes, List.getD_cons_succ, ih (by omega), Nat.div_div_eq_div_mul, pow_succ']

/-- Writes of one line are done at once. -/
theorem writeAll_oneLine {ws : List WByte} {line : Loc} (hne : ws ≠ []) (h : ∀ w ∈ ws, w.loc.line = line) (s : State) (gov atomic : Bool) :
    writeAll s ws gov atomic = writeLine s line ws gov atomic := by
  have hlines : linesOf ws = [line] := by
    cases ws with
    | nil => exact absurd rfl hne
    | cons w ws =>
      have hrest : (ws.map (fun v => v.loc.line)).filter (fun m => !(m == line)) = [] :=
        List.filter_eq_nil_iff.2 fun m hm => by
          obtain ⟨v, hv, rfl⟩ := List.mem_map.1 hm
          simp [h v (List.mem_cons_of_mem _ hv)]
      simp only [linesOf, List.map_cons, List.eraseDups_cons, h w (List.mem_cons_self ..), hrest, List.eraseDups_nil]
  have hall : ws.filter (fun w => w.loc.line == line) = ws := List.filter_eq_self.2 fun w hw => by simp [h w hw]
  simp [writeAll, hlines, hall]

/-- The bytes of a store within one line that is whole and not poisoned read back. -/
theorem byteAt_writeAll_bytesOf {s : State} {p : Put} (hin : p.acc.loc.inLine + p.bytes.length ≤ 64)
    (herr : (metaAt s p.acc.loc.line).err = []) (hpsn : (metaAt s p.acc.loc.line).psn = false) {i : Nat} (hi : i < p.bytes.length)
    (gov atomic : Bool) : byteAt (writeAll s p.bytesOf gov atomic) (p.acc.loc.add i) = p.bytes.getD i 0 := by
  obtain ⟨before, after, hsplit, hafter⟩ := bytesOf_split hi
  have hline : ∀ w ∈ p.bytesOf, w.loc.line = p.acc.loc.line := fun w hw => by
    obtain ⟨j, hj, hloc⟩ := mem_bytesOf hw
    exact hloc ▸ Loc.line_add (by omega)
  rw [writeAll_oneLine (by simp [hsplit]) hline, hsplit]
  refine byteAt_writeLine_last herr hpsn (w := ⟨p.acc.loc.add i, _, _⟩) (fun v hv hv' => ?_) gov atomic
  obtain ⟨j, hij, hj, hloc⟩ := hafter v hv
  have := Loc.eq_of_placeOf_add (l := p.acc.loc) (i := j) (j := i) (by omega) (by omega) (hloc ▸ hv')
  omega

/-- Settles O24: the form's own part names what is put in flight, and performing one atomic writes one line. -/
theorem atomicsComplete : Obligations.AtomicsComplete := by
  refine ⟨?_, ?_, fun s b r op ty rd dst gov x h => performAtom1_refused h b op ty rd dst gov⟩
  · intro dst x sb v op ty rm sc sp st s c s1 accs data i f0 f addr mode hi hhold haccs reqs s2
    cases dst with
    | none => exact ⟨_, flies_pushFlight .., atomForm_none haccs hi hhold⟩
    | some d =>
      have hexec := atomForm_some (rm := rm) haccs hi hhold
      cases hdet : c.br.det with
      | true =>
        simp only [hdet, if_true] at hexec
        exact ⟨_, ⟨_, flies_pushFlight .., rfl⟩, hexec⟩
      | false =>
        simp only [hdet, Bool.false_eq_true, if_false] at hexec
        exact ⟨_, flies_pushFlight .., hexec⟩
  · intro s b r op ty rd p gov hn hin herr hout old res new
    cases hpsn : (metaAt s r.acc.loc.line).psn with
    | true =>
      obtain ⟨x, hres⟩ := performAtom1_poisoned herr hout hpsn b op ty rd (some p) gov
      simp only [if_true, res, hres]
      refine ⟨?_, rfl, _, rfl, rfl, rfl⟩
      rw [sendOut_eq]
      exact ⟨rfl, rfl, rfl, rfl, rfl⟩
    | false =>
      obtain ⟨t, dG, hread, hres⟩ := performAtom1_whole herr hout hpsn b op ty rd p gov
      have hlen : (leBytes r.acc.n new.1).length = r.acc.n := leBytes_length ..
      have hmod : r.acc.loc.inLine % 64 = r.acc.loc.inLine := by cases r.acc.loc <;> simp [Loc.inLine]
      simp only [Bool.false_eq_true, if_false, res, hres]
      refine ⟨trivial, by simp [new, old], fun i hi => ?_, fun l hl => ?_, rfl⟩
      · refine (byteAt_writeAll_bytesOf (p := ⟨r.acc, leBytes r.acc.n new.1, dG⟩) (by simp only [hlen]; omega)
          (by rw [hread.line]; exact herr) (by rw [hread.line]; exact hpsn) (by simpa only [hlen]) gov true).trans ?_
        exact getD_leBytes hi _
      · refine (byteAt_writeAll_ne (fun w hw => ?_) t gov true).trans (hread.byte l)
        obtain ⟨i, hi, hloc⟩ := mem_bytesOf hw
        exact hloc ▸ hl i (by simpa using hi)

end Sys2Proof.Machine

/-!
O19. The threads are looked at in ascending order, so that the first one to fail its checks is the lowest.
-/
namespace Sys2Proof.Machine

/-! ### The first thread that fails -/

theorem Ctx.ts_ascending (c : Ctx) : c.ts.Pairwise (· < ·) := List.pairwise_lt_range.filter _

/-- An active thread among all of them: those before it are lower. -/
theorem Ctx.ts_split {c : Ctx} {t : Nat} (h : t ∈ c.ts) : ∃ lower higher, c.ts = lower ++ t :: higher ∧ ∀ t' ∈ lower, t' < t := by
  obtain ⟨lower, higher, hts⟩ := List.append_of_mem h
  have hsorted := c.ts_ascending
  rw [hts, List.pairwise_append] at hsorted
  exact ⟨lower, higher, hts, fun t' ht' => hsorted.2.2 t' ht' t (List.mem_cons_self ..)⟩

section
variable {r : Nat → ThreadAcc} {a : Nat → Acc}

theorem firstFail_passing {lower : List Nat} (h : ∀ t ∈ lower, r t = .ok (a t)) (s : State) (kind : Nat) (all rest : List (Nat × ThreadAcc))
    (acc : List Acc) : firstFail s kind all (lower.map (fun t => (t, r t)) ++ rest) acc =
      firstFail s kind all rest ((lower.map a).reverse ++ acc) := by
  induction lower generalizing acc with
  | nil => rfl
  | cons t lower ih =>
    simp only [List.map_cons, List.cons_append, h t (List.mem_cons_self ..), firstFail]
    rw [ih fun t' ht' => h t' (List.mem_cons_of_mem _ ht')]
    simp

theorem firstFail_ok_of_all {ts : List Nat} (h : ∀ t ∈ ts, r t = .ok (a t)) (s : State) (kind : Nat) (all : List (Nat × ThreadAcc)) :
    firstFail s kind all (ts.map (fun t => (t, r t))) [] = .ok s (ts.map a) := by
  have := firstFail_passing h s kind all [] []
  simpa [firstFail] using this

theorem firstFail_trap_of_lowest {lower higher : List Nat} {t va : Nat} {x : BitVec 9} (h : ∀ t' ∈ lower, r t' = .ok (a t'))
    (ht : r t = .cause x va) (s : State) (kind : Nat) (all : List (Nat × ThreadAcc)) :
    firstFail s kind all ((lower ++ t :: higher).map (fun t => (t, r t))) [] =
      .trap s (trapThread x t (countCause x all) (BitVec.ofNat 64 va)) := by
  rw [List.map_append, firstFail_passing h, List.map_cons, ht, firstFail]

end

/-- A thread's check raises a cause. -/
def ThreadAcc.raises (x : BitVec 9) : ThreadAcc → Bool
  | .cause c _ => c == x
  | _ => false

theorem countCause_map (x : BitVec 9) (r : Nat → ThreadAcc) (ts : List Nat) :
    countCause x (ts.map (fun t => (t, r t))) = (ts.filter (fun t => (r t).raises x)).length := by
  rw [countCause, List.filter_map, List.length_map]
  rfl

/-! ### A local access -/

section
variable (s : State) (br : Brick) (va n t : Nat) (aG : Bool)

/-- The cause of an access that fails its checks (R190). -/
def localCause (bad : Bool) : BitVec 9 := if bad then 0x0C1#9 else 0x0C6#9

theorem localThread_passes {bad : Bool} (h : ¬ (bad = true ∨ va % 2 ^ 20 + n > localSize s br)) :
    localThread s br va n bad t aG = .ok ⟨t, localLoc s br (va % 2 ^ 20), va, n, aG⟩ := by
  obtain ⟨hbad, hin⟩ := not_or.1 h
  simp only [localThread, hbad, hin, decide_false, Bool.false_eq_true, if_false]

theorem localThread_fails {bad : Bool} (h : bad = true ∨ va % 2 ^ 20 + n > localSize s br) :
    localThread s br va n bad t aG = .cause (localCause bad) va := by
  cases bad with
  | true => rfl
  | false => simp only [localThread, localCause, h.resolve_left Bool.false_ne_true, decide_true, Bool.false_eq_true, if_false, if_true]

/-- Which of its causes a failing access raises. -/
theorem localThread_raises (bad bad' : Bool) : (localThread s br va n bad t aG).raises (localCause bad') =
    if bad' then bad else !bad && decide (va % 2 ^ 20 + n > localSize s br) := by
  cases bad with
  | true => cases bad' <;> rfl
  | false =>
    by_cases hout : va % 2 ^ 20 + n > localSize s br
    · rw [localThread_fails s br va n t aG (.inr hout), decide_eq_true hout]
      cases bad' <;> rfl
    · rw [localThread_passes s br va n t aG (by simpa using hout), decide_eq_false hout]
      cases bad' <;> rfl

end

section
variable {s : State} {c : Ctx} {addr : Nat → W64} {g : Nat → Bool} {n : Nat} {bad : Nat → Bool}

theorem localAccs_passes (h : ∀ t ∈ c.ts, ¬ (bad t = true ∨ (addr t).toNat % 2 ^ 20 + n > localSize s c.br)) :
    localAccs s c addr g n bad =
      .ok s (c.ts.map (fun t => ⟨t, localLoc s c.br ((addr t).toNat % 2 ^ 20), (addr t).toNat, n, g t⟩)) :=
  firstFail_ok_of_all (fun t ht => localThread_passes s c.br _ n t (g t) (h t ht)) s kRead _

theorem localAccs_fails {t : Nat} (ht : t ∈ c.ts) (hfail : bad t = true ∨ (addr t).toNat % 2 ^ 20 + n > localSize s c.br)
    (hlow : ∀ t' ∈ c.ts, t' < t → ¬ (bad t' = true ∨ (addr t').toNat % 2 ^ 20 + n > localSize s c.br)) :
    localAccs s c addr g n bad = .trap s (trapThread (localCause (bad t)) t ((c.ts.filter (fun t' =>
      if bad t then bad t' else !bad t' && decide ((addr t').toNat % 2 ^ 20 + n > localSize s c.br))).length) (addr t)) := by
  obtain ⟨lower, higher, hts, hlower⟩ := Ctx.ts_split ht
  have hpass : ∀ t' ∈ lower, localThread s c.br (addr t').toNat n (bad t') t' (g t') = .ok _ := fun t' ht' =>
    localThread_passes s c.br _ n t' (g t') (hlow t' (hts ▸ List.mem_append_left _ ht') (hlower t' ht'))
  have htrap := firstFail_trap_of_lowest (higher := higher) hpass (localThread_fails s c.br _ n t (g t) hfail) s kRead
    (c.ts.map (fun t => (t, localThread s c.br (addr t).toNat n (bad t) t (g t))))
  rw [← hts, countCause_map] at htrap
  simp only [localThread_raises, BitVec.ofNat_toNat, BitVec.setWidth_eq] at htrap
  exact htrap

end

/-! ### A global access (R231) -/

section
variable {s s' : State} {c : Ctx} {kind : Nat} {avail : Home → Bool} {va n : Nat} {t : Nat} {aG : Bool}

theorem globalThread_wide (h : 2 ^ 57 ≤ va) (bad : Bool) : globalThread s c kind avail va n bad t aG = (s, .cause 0x0C6#9 va) := by
  rw [globalThread, if_pos (by simpa using h)]

theorem globalThread_misaligned (h : va < 2 ^ 57) : globalThread s c kind avail va n true t aG = (s, .cause 0x0C1#9 va) := by
  rw [globalThread, if_neg (by simpa using h), if_pos rfl]

theorem globalThread_absent (h : va < 2 ^ 57) (hr : brickTranslate s c kind va = (s', .absent)) :
    globalThread s c kind avail va n false t aG = (s', .fault va) := by
  rw [globalThread, if_neg (by simpa using h), if_neg Bool.false_ne_true, hr]

theorem globalThread_cause {x : BitVec 9} (h : va < 2 ^ 57) (hr : brickTranslate s c kind va = (s', .cause x)) :
    globalThread s c kind avail va n false t aG = (s', .cause x va) := by
  rw [globalThread, if_neg (by simpa using h), if_neg Bool.false_ne_true, hr]

theorem globalThread_translated {pa : Nat} (h : va < 2 ^ 57) (hr : brickTranslate s c kind va = (s', .ok pa)) :
    globalThread s c kind avail va n false t aG = (s', if avail (homeOf pa) then .ok ⟨t, .phys pa, va, n, aG⟩ else .cause 0x0C7#9 va) := by
  rw [globalThread, if_neg (by simpa using h), if_neg Bool.false_ne_true, hr]
  cases havail : avail (homeOf pa) <;> simp only [havail, Bool.false_eq_true, if_false, if_true]

end

/-- Settles O19: local accesses by the lowest thread that fails, a global one down the chain of its checks. -/
theorem addressChecks : Obligations.AddressChecks := by
  unfold Obligations.AddressChecks
  refine ⟨fun s c addr g n bad => ⟨localAccs_passes, fun t ht hfail hlow => localAccs_fails ht hfail hlow⟩,
    fun s c kind avail va n bad t aG => ⟨fun h => globalThread_wide h bad, ?_, ?_⟩⟩
  · rintro h rfl
    exact globalThread_misaligned h
  · rintro h rfl s'
    exact ⟨globalThread_absent h, fun x => globalThread_cause h, fun pa => globalThread_translated h⟩

end Sys2Proof.Machine

/-!
O25. Under a well-formed head a versioned form answers with one operation in flight.
-/
namespace Sys2Proof.Machine

/-! ### The heads -/

theorem withGoverning_of_governs {s s' : State} {c : Ctx} {f : Form} {fc : Nat} {mark : Option RName} {kind va pa va' : Nat} {h : Head}
    (hg : Governs c kind s va s' pa va' h) (k : State → Nat → Nat → Head → Res) :
    withGoverning s c f fc mark kind va k = k s' pa va' h := by
  cases hg with
  | own hread hgood hlnk => simp [withGoverning, withHead, hread, hgood, hlnk]
  | link hread hgood hlnk hread' hgood' => simp [withGoverning, withHead, hread, hgood, hlnk, hread', hgood']

/-! ### The forms' own parts -/

/-- LDTV's own part (R241). -/
def TileSpec.loadBody (x : TileSpec) (d : Reg) (s : State) (c : Ctx) : Res :=
  let p := physReg c.k d.toNat
  if loadHold s c 1 then .hold
  else withAccs c (x.accs s c) (fun s accs =>
    if accs.isEmpty then .done s
    else withGoverning s c x.form 1 (some (.lane p)) kRead (tileVa c (x.addr c)) (fun s pa va h =>
      if c.br.det && h.ver % 2 = 0 then issueLoad s c x.form 1 accs (.lane64 p) (.lane p) true
      else .done (pushFlight s c x.form (some 1) none (some (.lane p)) (.ldtv pa va accs p c.gov 0))))

/-- STT.aon's own part (R242). -/
def TileSpec.aonBody (x : TileSpec) (d : Reg) (s : State) (c : Ctx) : Res :=
  let tile := tileVa c (x.addr c)
  if globHold s c 2 then .hold
  else withAccs c (x.accs s c) (fun s accs =>
    if accs.isEmpty then .done s
    else withHead c x.form 2 none kRw (headAddr s c kRw tile) (fun s pa h =>
      if !h.good || h.lnk then .trap s (headTrap c tile)
      else .done (pushFlight s c x.form (some 2) (bufferEnd s c) none (.aon pa tile none (putsOf c d 8 accs) [] c.gov 0 0))))

/-- STP's own part (R243). -/
def TileSpec.pairBody (x : TileSpec) (d : Reg) (s : State) (c : Ctx) : Res :=
  let tile := tileVa c (x.addr c)
  if globHold s c 2 then .hold
  else withAccs c (x.accs s c) (fun s accs =>
    if accs.isEmpty then .done s
    else withHead c x.form 2 none kRw (headAddr s c kRw tile) (fun s pa h =>
      if !h.good || !h.twn then .trap s (headTrap c tile)
      else withHead c x.form 2 none kRw (headAddr s c kRw h.peer) (fun s twin h' =>
        if !h'.good || !h'.lnk || h'.peer != tile then .trap s (headTrap c tile)
        else .done (pushFlight s c x.form (some 2) (bufferEnd s c) none
          (.aon pa tile (some (twin, h.peer)) (putsOf c d 8 accs) (twinPuts twin h.peer tile (putsOf c d 8 accs)) c.gov 0 0)))))

section
variable {i : Instr} {d : Reg} {x : TileSpec}

theorem VersionedLoad.exec_eq (h : VersionedLoad i d x) (s : State) : exec i s = issueForm s x.form (x.loadBody d s) := by cases h <;> rfl
theorem AonStore.exec_eq (h : AonStore i d x) (s : State) : exec i s = issueForm s x.form (x.aonBody d s) := by cases h <;> rfl
theorem PairedStore.exec_eq (h : PairedStore i d x) (s : State) : exec i s = issueForm s x.form (x.pairBody d s) := by cases h <;> rfl

end

/-- A load of a deterministic launch has read its lines as it issues, behind the brick's own writes. -/
theorem issueLoad_det {s : State} {c : Ctx} {f : Form} {fc : Nat} {accs : List Acc} {dst : LoadDst} {name : RName} {now : Bool}
    (hdet : c.br.det = true) (hup : ∀ a ∈ accs, locDown s a.loc = false) : issueLoad s c f fc accs dst name now =
      .done (pushFlight (performLoad s c.b accs dst c.gov).1 c f (some fc) none (some name)
        (.regs (performLoad (ownView s c.b c.br) c.b accs dst c.gov).2.writes
          (performLoad (ownView s c.b c.br) c.b accs dst c.gov).2.late)) := by
  have : (accs.any fun a => locDown s a.loc) = false := List.any_eq_false.2 fun a ha => by simp [hup a ha]
  simp only [issueLoad, hdet, this, Bool.and_false, Bool.false_eq_true, if_false, if_true, readThrough]

section
variable {s s1 s2 : State} {c : Ctx} {d : Reg} {x : TileSpec} {accs : List Acc} (haccs : x.accs s c = .ok s1 accs) (hne : accs ≠ [])
include haccs hne

theorem TileSpec.loadBody_governed {pa va : Nat} {h : Head} (hhold : loadHold s c 1 = false)
    (hg : Governs c kRead s1 (tileVa c (x.addr c)) s2 pa va h) : x.loadBody d s c =
      if c.br.det && h.ver % 2 = 0 then issueLoad s2 c x.form 1 accs (.lane64 (physReg c.k d.toNat)) (.lane (physReg c.k d.toNat)) true
      else .done (pushFlight s2 c x.form (some 1) none (some (.lane (physReg c.k d.toNat)))
        (.ldtv pa va accs (physReg c.k d.toNat) c.gov 0)) := by
  simp [loadBody, hhold, haccs, withAccs, hne, withGoverning_of_governs hg]

variable (hhold : globHold s c 2 = false)
include hhold

theorem TileSpec.aonBody_plain {pa : Nat} {h : Head} (hread : headAddr s1 c kRw (tileVa c (x.addr c)) = .ok s2 pa h)
    (hgood : h.good = true) (hlnk : h.lnk = false) : x.aonBody d s c = .done (pushFlight s2 c x.form (some 2) (bufferEnd s2 c) none
      (.aon pa (tileVa c (x.addr c)) none (putsOf c d 8 accs) [] c.gov 0 0)) := by
  simp [aonBody, hhold, haccs, withAccs, hne, withHead, hread, hgood, hlnk]

theorem TileSpec.pairBody_twins {s3 : State} {pa twin : Nat} {h h' : Head} (hread : headAddr s1 c kRw (tileVa c (x.addr c)) = .ok s2 pa h)
    (hgood : h.good = true) (htwn : h.twn = true) (hread' : headAddr s2 c kRw h.peer = .ok s3 twin h') (hgood' : h'.good = true)
    (hlnk : h'.lnk = true) (hback : h'.peer = tileVa c (x.addr c)) :
    x.pairBody d s c = .done (pushFlight s3 c x.form (some 2) (bufferEnd s3 c) none (.aon pa (tileVa c (x.addr c)) (some (twin, h.peer))
      (putsOf c d 8 accs) (twinPuts twin h.peer (tileVa c (x.addr c)) (putsOf c d 8 accs)) c.gov 0 0)) := by
  simp [pairBody, hhold, haccs, withAccs, hne, withHead, hread, hgood, htwn, hread', hgood', hlnk, hback]

end

/-- Settles O25: past the heads each form's own part is one operation in flight. -/
theorem versionedFormsComplete : Obligations.VersionedFormsComplete := by
  refine ⟨?_, ?_, ?_⟩
  · intro i d x hx s c s1 accs s2 pa va h hi hhold haccs hne hg p
    have hbody := TileSpec.loadBody_governed (d := d) haccs hne hhold hg
    refine ⟨fun hlater => retires_flight hi (hx.exec_eq s) (hbody.trans (if_neg ?_)), fun hdet heven hup => ?_⟩
    · rcases hlater with hdet | hodd
      · simp [hdet]
      · simp [hodd]
    · rw [if_pos (by simp [hdet, heven]), issueLoad_det hdet hup] at hbody
      exact retires_of_done hi (hx.exec_eq s) hbody
        ⟨_, _, performLoad_walked .., fun hclean hadm => performLoad_kind hclean hadm, flies_pushFlight ..⟩
  · intro i d x hx s c s1 accs s2 pa h hi hhold haccs hne va hread hgood hlnk
    exact retires_flight hi (hx.exec_eq s) (TileSpec.aonBody_plain haccs hne hhold hread hgood hlnk)
  · intro i d x hx s c s1 accs s2 pa h s3 twin h' hi hhold haccs hne va hread hgood htwn hread' hgood' hlnk hback
    exact retires_flight hi (hx.exec_eq s) (TileSpec.pairBody_twins haccs hne hhold hread hgood htwn hread' hgood' hlnk hback)

end Sys2Proof.Machine

/-!
O33. WAIT by what it covers and by where its counter stands, FENCE by its kind.
-/
namespace Sys2Proof.Machine

theorem exec_of_parkCounted {i : Instr} {s s' : State} {c : Ctx} {f : Form} {body : Ctx → Res} {w : WaitOp} (hi : Issues s c f)
    (he : exec i s = issueForm s f body) (hb : body c = .parkCounted s' w) : exec i s = .next (parkOn s' c f w none true) := by
  rw [exec_eq_settle hi he, hb]
  rfl

/-- The state in which a FENCE with an acquire has put the brick's earlier accesses before its later ones (R260). -/
def acquired (s : State) (c : Ctx) (acq : Bool) : State :=
  if acq then modBrick s c.b (fun br => { br with acqs := br.acqs ++ [c.br.seq] }) else s

/-- FENCE's own part. -/
def fenceBody (s : State) (cum : Bool) (kind : BitVec 2) (c : Ctx) : Res :=
  if c.br.det then .done s
  else if !kind.getLsbD 1 then .done (acquired s c (kind.getLsbD 0))
  else if accessesDone c.br c.br.seq then
    .done (modBrick (acquired s c (kind.getLsbD 0)) c.b (fun br => { br with cumRel := br.cumRel || cum }))
  else .park (acquired s c (kind.getLsbD 0)) (.fence c.br.seq cum) none

/-- WAIT's own part: counter n, threshold t. -/
def waitBody (s : State) (n t : Nat) (c : Ctx) : Res :=
  let upTo := issuedOn c.br n - t
  if c.br.det && coversUncommitted c.br n upTo then
    (if c.inHandler then .trap s (trapOf c 0x108#9)
     else .parkCounted (modBrick s c.b (fun br => { br with L := courseEndOf (qOf s br) br.L })) (.fc n t upTo))
  else if decide (fcValue c.br n ≤ t) then .done (modBrick s c.b (fun br => coverMarks br n upTo))
  else .park s (.fc n t upTo) none

section
variable {s : State} {n t : Nat} {c : Ctx}

theorem waitBody_covers (h : c.br.det = true ∧ coversUncommitted c.br n (issuedOn c.br n - t) = true) : waitBody s n t c =
    if c.inHandler then .trap s (trapOf c 0x108#9)
    else .parkCounted (modBrick s c.b (fun br => { br with L := courseEndOf (qOf s br) br.L })) (.fc n t (issuedOn c.br n - t)) :=
  if_pos (by simpa using h)

theorem waitBody_counts (h : ¬ (c.br.det = true ∧ coversUncommitted c.br n (issuedOn c.br n - t) = true)) : waitBody s n t c =
    if fcValue c.br n ≤ t then .done (modBrick s c.b (fun br => coverMarks br n (issuedOn c.br n - t)))
    else .park s (.fc n t (issuedOn c.br n - t)) none := by
  refine (if_neg (by simpa using h)).trans ?_
  simp only [decide_eq_true_eq]

end

/-- Settles O33: the branches of the two forms' own parts. -/
theorem waitAndFenceComplete : Obligations.WaitAndFenceComplete := by
  refine ⟨?_, ?_⟩
  · intro n a k st s c f i t upTo hi
    have he : exec i s = issueForm s f (fun c => waitBody s n.toNat (numOf c a k) c) := rfl
    refine ⟨fun hcov => ⟨fun hh => traps_of_trap hi he ((waitBody_covers hcov).trans (if_pos hh)),
      fun hh => ⟨_, rfl, exec_of_parkCounted hi he ((waitBody_covers hcov).trans (if_neg (by simp [hh])))⟩⟩,
      fun hcov => ⟨fun hle => retires_of_done hi he ((waitBody_counts hcov).trans (if_pos hle)) rfl,
        fun hlt => parks_of_park hi he ((waitBody_counts hcov).trans (if_neg (Nat.not_le.2 hlt))) rfl⟩⟩
  · intro cum kind sp st s c f i s1 hi
    have he : exec i s = issueForm s f (fenceBody s cum kind) := rfl
    refine ⟨fun hdet => retires_of_done hi he (if_pos hdet) rfl, fun hdet hrel => ?_, fun hdet hrel hdone => ?_, fun hdet hrel hdone => ?_⟩
    · refine retires_of_done hi he (s' := s1) ?_ rfl
      simp only [fenceBody, hdet, hrel, Bool.false_eq_true, if_false, Bool.not_false, if_true]
      rfl
    · refine retires_of_done hi he (s' := modBrick s1 c.b _) ?_ rfl
      simp only [fenceBody, hdet, hrel, hdone, Bool.false_eq_true, if_false, Bool.not_true, if_true]
      rfl
    · refine parks_of_park hi he (s' := s1) ?_ rfl
      simp only [fenceBody, hdet, hrel, hdone, Bool.false_eq_true, if_false, Bool.not_true]
      rfl

end Sys2Proof.Machine

/-!
O38. A matrix form whose bank is ready and whose own checks pass enters the array queue.
-/
namespace Sys2Proof.Machine

/-! ### Acceptance (R212, R217) -/

theorem queued_accept (s : State) (c : Ctx) (p : Nat) (k : BitVec 4) (names : List RName) (tEnd : Option Nat) (op : ArrOp) :
    Queued s c p k names tEnd op (accept s c p k names tEnd op) := rfl

theorem withBank_ready {s : State} {c : Ctx} {k : BitVec 4} {p : Nat} {bk : Bank} (h : BankReady s c k p bk) (body : Nat → Bank → Res) :
    withBank s c k body = body p bk := by
  obtain ⟨hp, rfl, hpsn, hown⟩ := h
  have howned : (c.br.det && (bankAhead s c.br.core p).own != some c.b) = false := by
    cases hdet : c.br.det with
    | false => rfl
    | true => simp [hown hdet]
  simp [withBank, hp, hpsn, howned]

theorem enqueues_of_acceptPlain {i : Instr} {s s1 : State} {c : Ctx} {f : Form} {p : Nat} {k : BitVec 4} {body : Ctx → Res}
    {names : List RName} {op : ArrOp} (hi : Issues s c f) (he : exec i s = issueForm s f body)
    (hb : body c = acceptPlain s1 c p k names op) : Enqueues i s c f s1 p k names op :=
  retires_of_done hi he hb ⟨_, queued_accept .., rfl⟩

theorem queueFull_of_room {s : State} {core : Nat} (h : (coreOf s core).queue.length < 4) : queueFull s core = false := by
  simp [queueFull, h]

/-! ### ACCZ -/

/-- ACCZ's own part on its bank. -/
def acczOwn (s : State) (k : BitVec 4) (c : Ctx) (p : Nat) : Res :=
  if c.br.det && (bankAt s c.br.core p).own != some c.b then parkSync s c (.accz k.toNat)
  else if queueFull s c.br.core then .hold
  else .done (acceptZero s c p k)

theorem exec_accz {s : State} {c : Ctx} {k : BitVec 4} {st : BitVec 3} {p : Nat} (hp : physBank s c.br k.toNat = some p)
    (hi : Issues s c (arrForm st [] [] [] [] [])) :
    exec (.accz k st) s = .next (settle s c (arrForm st [] [] [] [] []) (acczOwn s k c p)) := by
  refine (issueForm_go hi _).trans ?_
  rw [hp]
  rfl

/-! ### The product forms -/

/-- The product forms share their meaning. -/
theorem ProductForm.exec_eq {i : Instr} {checks dist quad : Bool} {k : BitVec 4} {a b : Reg} {st : BitVec 3}
    (h : ProductForm i checks dist quad k a b st) (s : State) : exec i s = productForm checks dist quad k a b st s := by
  cases h <;> rfl

/-! ### ACCADJ -/

/-- ACCADJ's own part, once its bank is ready. -/
def accadjOwn (s : State) (k : BitVec 4) (v a : Reg) (c : Ctx) (p : Nat) : Res :=
  let t := (c.u a).toNat / 2 ^ 16 % 32
  let dbl := (c.u a).getLsbD 24
  if (c.u a &&& ~~~0x11F3F7F#64) != 0#64 then .trap s (trapOf c 0x142#9)
  else if (c.half v t 0).u || (dbl && (c.half v t 1).u) then .trap s ⟨0x048#9, v.toNat, t, 1, none, 0, 0⟩
  else if (c.half v t 0).p || (dbl && (c.half v t 1).p) then .trap s ⟨0x146#9, 0, t, 1, none, 0, v.setWidth 64⟩
  else if queueFull s c.br.core then .hold
  else acceptPlain s c p k []
    (.accadj ((c.u a).toNat / 256 % 64) ((c.u a).toNat % 128) dbl (c.w v t) (if dbl then c.wG v t else c.hG v t 0))

theorem exec_accadj (s : State) (k : BitVec 4) (v a : Reg) (st : BitVec 3) :
    exec (.accadj k v a st) s = issueForm s { arrForm st [v.toNat] [a.toNat] [nLane v, nUni a] [] [] with ownPsn := true }
      (fun c => withBank s c k (fun p _ => accadjOwn s k v a c p)) := rfl

/-- Settles O38: every form's own checks let it pass, and it stands last in the queue with what it read. -/
theorem matrixFormsComplete : Obligations.MatrixFormsComplete := by
  intro k st s c p bk room
  refine ⟨?_, ?_, ?_, ?_, ?_, ?_, ?_⟩
  · intro f i hi hp
    have he := exec_accz hp hi
    refine ⟨fun hown hroom => ⟨_, ⟨_, queued_accept .., rfl⟩, he.trans ?_⟩, fun hdet hown => ⟨_, rfl, he.trans ?_⟩⟩
    · have hmine : ¬ (c.br.det && (bankAt s c.br.core p).own != some c.b) = true := by
        rcases hown with h | h <;> simp [h]
      rw [acczOwn, if_neg hmine, queueFull_of_room hroom]
      rfl
    · rw [acczOwn, if_pos (by simp [hdet, hown])]
      rfl
  · intro i checks dist quad a b hx regs nb f o s1 hi hbank hroom hword haddr hwb hdet hlines v am bm tile
    refine enqueues_of_acceptPlain hi (hx.exec_eq s) ((withBank_ready hbank _).trans ?_)
    have hgo : (queueFull s c.br.core || wbBusy c.br || detReadHold s c) = false := by
      simp [queueFull_of_room hroom, hwb, hdet]
    simp only [hword, nb, haddr, hgo, hlines]
    cases hblk : o.ty.isBlock <;> simp [v, am, bm, tile, nb, hblk, List.map_map, Function.comp_def]
  · intro d n big f hi hbank hroom
    refine enqueues_of_acceptPlain hi rfl ((withBank_ready hbank _).trans (if_neg ?_))
    simp [queueFull_of_room hroom]
  · intro d a w f hi hbank hroom hword hpair
    refine enqueues_of_acceptPlain hi rfl ((withBank_ready hbank _).trans ?_)
    simp only [hword, queueFull_of_room hroom]
    cases hdd : w.dd with
    | false => simp
    | true =>
      obtain ⟨hstatic, hlock, hpend⟩ := hpair hdd
      simp [f, hstatic, hlock, hpend]
  · intro a w f hi hbank hroom hacq hword halign hin tEnd
    refine retires_of_done hi rfl ((withBank_ready hbank _).trans ?_) ⟨_, queued_accept .., flies_pushFlight ..⟩
    simp [hword, halign, Nat.not_lt.2 hin, queueFull_of_room hroom, hacq]
    rfl
  · intro v a f w t dbl hi hbank hroom hmask hu hp hdbl
    refine enqueues_of_acceptPlain hi (exec_accadj ..) ((withBank_ready hbank _).trans ?_)
    have hu : ((c.half v t 0).u || (dbl && (c.half v t 1).u)) = false := by
      cases hd : dbl <;> simp [hu, hd, hdbl]
    have hp : ((c.half v t 0).p || (dbl && (c.half v t 1).p)) = false := by
      cases hd : dbl <;> simp [hp, hd, hdbl]
    rw [accadjOwn, if_neg (by simpa using hmask), hu, hp, queueFull_of_room hroom]
    rfl
  · intro d v us vs names f tol hi hbank
    refine ⟨fun hT => traps_of_trap hi rfl ((withBank_ready hbank _).trans (if_pos hT)),
      fun hT hckv => traps_of_trap hi rfl ((withBank_ready hbank _).trans ((if_neg ?_).trans (if_pos ?_))),
      fun hT hckv hroom => enqueues_of_acceptPlain hi rfl ((withBank_ready hbank _).trans
        ((if_neg ?_).trans ((if_neg ?_).trans (if_neg ?_))))⟩
    · rw [hT]; simp
    · simp [hckv]
    · rw [hT]; simp
    · simp [hckv]
    · simp [queueFull_of_room hroom]

end Sys2Proof.Machine

/-!
O49. The steps that perform a brick's operations in flight: each is the step of the first operation of its kind that can be performed.
-/
namespace Sys2Proof.Machine

/-! ### What the steps do -/

section
variable {s : State} {b : Nat} {br : Brick} (hb : HasBrick s b br)
include hb

theorem exec_loadComplete_none (h : readyFlight s br FlightKind.loads = none) : exec (.loadComplete b) s = .next s := by
  show execLoadComplete b s = _
  simp only [execLoadComplete, hb, h]

theorem exec_loadComplete_some {f : Flight} (h : readyFlight s br FlightKind.loads = some f) :
    exec (.loadComplete b) s = .next (performLoadFlight s b f) := by
  show execLoadComplete b s = _
  simp only [execLoadComplete, hb, h]

theorem exec_storePerformed_none (h : readyFlight s br FlightKind.stores = none) : exec (.storePerformed b) s = .next s := by
  show execStorePerformed b s = _
  simp only [execStorePerformed, hb, h]

theorem exec_storePerformed_some {f : Flight} (h : readyFlight s br FlightKind.stores = some f) :
    exec (.storePerformed b) s = .next (performStoreFlight s b br f) := by
  show execStorePerformed b s = _
  simp only [execStorePerformed, hb, h]

theorem exec_ldtvAttempt_none (h : readyFlight s br FlightKind.attempts = none) : exec (.ldtvAttempt b) s = .next s := by
  show execLdtvAttempt b s = _
  simp only [execLdtvAttempt, hb, h]

theorem exec_ldtvAttempt_some {f : Flight} (h : readyFlight s br FlightKind.attempts = some f) :
    exec (.ldtvAttempt b) s = .next (performAttempt s b br f) := by
  show execLdtvAttempt b s = _
  simp only [execLdtvAttempt, hb, h]

theorem exec_hodSlotPerformed_none (h : readyFlight s br FlightKind.fills = none) : exec (.hodSlotPerformed b) s = .next s := by
  show execHodSlotPerformed b s = _
  simp only [execHodSlotPerformed, hb, h]

theorem exec_hodSlotPerformed_some {f : Flight} (h : readyFlight s br FlightKind.fills = some f) :
    exec (.hodSlotPerformed b) s = .next (performFill s b f) := by
  show execHodSlotPerformed b s = _
  simp only [execHodSlotPerformed, hb, h]

theorem exec_sigwFlagUpdate_none (h : readyFlight s br FlightKind.signals = none) : exec (.sigwFlagUpdate b) s = .next s := by
  show execSigwFlagUpdate b s = _
  simp only [execSigwFlagUpdate, hb, h]

theorem exec_sigwFlagUpdate_some {f : Flight} (h : readyFlight s br FlightKind.signals = some f) :
    exec (.sigwFlagUpdate b) s = .next (performSignal s b f) := by
  show execSigwFlagUpdate b s = _
  simp only [execSigwFlagUpdate, hb, h]

theorem exec_tapeRecordComplete_none (hover : bufferOver s br = false) (h : openFlight br .tapeRec = none) :
    exec (.tapeRecordComplete b) s = .next s := by
  show execTapeRecordComplete b s = _
  simp only [execTapeRecordComplete, hb, hover, h, Bool.false_eq_true, if_false]

theorem exec_tapeRecordComplete_some {f : Flight} (hover : bufferOver s br = false) (h : openFlight br .tapeRec = some f) :
    exec (.tapeRecordComplete b) s = .next (endFlight s b f.seq) := by
  show execTapeRecordComplete b s = _
  simp only [execTapeRecordComplete, hb, hover, h, Bool.false_eq_true, if_false]

theorem exec_tapeRecordComplete_spills {s1 : State} {x : Spill} (hover : bufferOver s br = true) (h : spillFirst s b br = (s1, x))
    (hx : ∀ cause va, x ≠ .refused cause va) : exec (.tapeRecordComplete b) s = .next s1 := by
  show execTapeRecordComplete b s = _
  cases x with
  | all | waits => simp only [execTapeRecordComplete, hb, hover, h, if_true]
  | refused cause va => exact absurd rfl (hx cause va)

theorem exec_tapeRecordComplete_refused {s1 : State} {cause : BitVec 9} {va : Nat} (hover : bufferOver s br = true)
    (h : spillFirst s b br = (s1, .refused cause va)) :
    exec (.tapeRecordComplete b) s = .next (refuseLine s1 b (openFlight br .tapeRec) cause va) := by
  show execTapeRecordComplete b s = _
  simp only [execTapeRecordComplete, hb, hover, h, if_true]

theorem exec_tapeSealComplete_none (h : openFlight br .tapeSeal = none) : exec (.tapeSealComplete b) s = .next s := by
  show execTapeSealComplete b s = _
  simp only [execTapeSealComplete, hb, h]

theorem exec_tapeSealComplete_all {s1 : State} {f : Flight} (h : openFlight br .tapeSeal = some f) (hquiet : tapeQuiet br f.seq = true)
    (hall : spillTape s b = (s1, .all)) : exec (.tapeSealComplete b) s = .next (endFlight s1 b f.seq) := by
  show execTapeSealComplete b s = _
  simp only [execTapeSealComplete, hb, h, hquiet, hall, Bool.not_true, Bool.false_eq_true, if_false]

theorem exec_arrivalCounted_none (h : br.arrMarks = []) : exec (.arrivalCounted b) s = .next s := by
  show execArrivalCounted b s = _
  simp only [execArrivalCounted, hb, h, List.isEmpty_nil, if_true]

theorem exec_arrivalCounted_marks (h : br.arrMarks ≠ []) (hdet : br.det = false) :
    exec (.arrivalCounted b) s = .next (countMarks s b br.arrMarks) := by
  show execArrivalCounted b s = _
  simp only [execArrivalCounted, hb, hdet, List.isEmpty_iff, h, Bool.false_eq_true, if_false]

end

/-! ### Delivery (R362, R372) -/

theorem Done.final_of_late_none {d : Done} (h : d.late = none) : d.final = d := by simp [Done.final, h]

/-- The fabric's refusals leave what the other threads deliver. -/
theorem Done.final_of_denied {d : Done} {t : LateTrap} (h : d.late = some t) (ht : t.cause = 0x147#9 ∨ t.cause = 0x14E#9) : d.final = d := by
  simpa [Done.final, h, LateTrap.denied] using fun h1 h2 => absurd ht (by simp [h1, h2])

theorem Done.final_of_traps {d : Done} {t : LateTrap} (h : d.late = some t) (h1 : t.cause ≠ 0x147#9) (h2 : t.cause ≠ 0x14E#9) :
    d.final = ⟨[], [], some t⟩ := by simp [Done.final, h, LateTrap.denied, h1, h2]

/-- Delivering writes leaves the operations in flight. -/
theorem flights_orFxAll_applyWrites (br : Brick) (ws : List RegWrite) (fx : List (Nat × Flags)) :
    (orFxAll (applyWrites br ws) fx).flights = br.flights := by
  rw [orFxAll_eq, applyWrites_frame]

/-- Reporting a trap changes a brick's reports alone. -/
theorem queueTrap_brick {s : State} {b : Nat} {br : Brick} (hb : HasBrick s b br) (r : TrapRec) :
    ∃ tr la, HasBrick (queueTrap s b r) b { br with trap := tr, late := la } := by
  cases hwait : br.trap.isSome || br.inSlot with
  | true => exact ⟨br.trap, _, (modBrick_brick hb _).trans (congrArg some (if_pos hwait))⟩
  | false => exact ⟨_, br.late, (modBrick_brick hb _).trans (congrArg some (if_neg (by simp [hwait])))⟩

theorem lateTrap_brick {s : State} {b : Nat} {br : Brick} (hb : HasBrick s b br) (f : Flight) (t : LateTrap) :
    ∃ tr la, HasBrick (lateTrap s b f t) b { br with trap := tr, late := la } := by
  simp only [lateTrap, hb, reportLate]
  split
  · exact ⟨br.trap, br.late, hb⟩
  · split
    · exact ⟨_, br.late, modBrick_brick hb _⟩
    · exact queueTrap_brick hb _

section
variable {s : State} {b : Nat} {br : Brick} (hb : HasBrick s b br)
include hb

theorem deliver_whole {d : Done} (h : d.late = none) (f : Flight) :
    HasBrick (deliver s b f d) b (finishFlight (orFxAll (applyWrites br d.writes) d.fx) f.seq) := by
  simp only [deliver, Done.final_of_late_none h, h]
  exact modBrick_brick (modBrick_brick hb _) _

/-- With a trap the registers and flags are those of what is still delivered. -/
theorem deliver_late {d : Done} {t : LateTrap} (h : d.final.late = some t) (f : Flight) : ∃ tr la,
    HasBrick (deliver s b f d) b (finishFlight { orFxAll (applyWrites br d.final.writes) d.final.fx with trap := tr, late := la } f.seq) := by
  obtain ⟨tr, la, hlate⟩ := lateTrap_brick (modBrick_brick hb fun br => orFxAll (applyWrites br d.final.writes) d.final.fx) f t
  refine ⟨tr, la, ?_⟩
  simp only [deliver, h]
  exact modBrick_brick hlate _

end

/-! ### Posted operations (R263, R375) -/

section
variable {s s1 : State} {b : Nat} {f : Flight} {green : Bool} {lines rest : List (Loc × Nat × Loc)}

theorem sendStep_read {d : List (List Byte × Bool)} (hout : deniedLines s lines true = [])
    (h : readSource s b green (lines.map (·.1)) = (s1, some d)) : sendStep s b f green lines none = .read s1 d := by
  simp only [sendStep, Option.isNone_none, hout, h]

theorem sendStep_poisoned (hout : deniedLines s lines true = []) (h : readSource s b green (lines.map (·.1)) = (s1, none)) :
    sendStep s b f green lines none =
      .ended (endFlight (reportTrap s1 b f (poisonOf (poisonedSource s1 (lines.map (·.1))))) b f.seq) := by
  simp only [sendStep, Option.isNone_none, hout, h]

theorem sendStep_sent {l : Loc × Nat × Loc} {x : List Byte × Bool} {xs : List (List Byte × Bool)}
    (hout : deniedLines s (l :: rest) false = []) :
    sendStep s b f green (l :: rest) (some (x :: xs)) = .sent (putLine s b x l.2.2) rest xs x.2 := by
  simp only [sendStep, Option.isNone_some, hout]

end

/-! ### The flag of a signal (R263) -/

theorem checkLine_poisoned {s : State} {l : Loc} (h : (metaAt s l).psn = true) : (checkLine s l).2 = true := by
  unfold checkLine
  dsimp only
  split <;> simp [h]

/-- The check of a line changes no byte. -/
theorem checkLine_bytes (s : State) (l : Loc) : (checkLine s l).1.mem = s.mem ∧ (checkLine s l).1.lmem = s.lmem := by
  unfold checkLine
  dsimp only
  split
  · exact ⟨rfl, rfl⟩
  · exact ⟨putMeta_mem .., putMeta_lmem ..⟩
  · split
    · exact ⟨putMeta_mem .., putMeta_lmem ..⟩
    · exact ⟨putMeta_mem .., putMeta_lmem ..⟩

/-- The state once the flag's atomic is on its way. -/
def signalSent (s : State) (flag : Loc) (add : Bool) (v : BitVec 32) (green : Bool) : State :=
  sendOut s flag (fun p pa => .fabricAtomic p pa (if add then .add else .exch) .b64 (v.setWidth 64) 0 green)

theorem signalSent_readsAlike (s : State) (flag : Loc) (add : Bool) (v : BitVec 32) (green : Bool) :
    ReadsAlike s (signalSent s flag add v green) := sendOut_readsAlike ..

theorem signalFlag_bad {s : State} {flag : Loc} {add : Bool} {v : BitVec 32} {green : Bool}
    (h : (checkLine (signalSent s flag add v green) flag.line).2 = true) (b : Nat) :
    signalFlag s b flag add v green = ((checkLine (signalSent s flag add v green) flag.line).1, some (poisonOf flag)) := if_pos h

theorem signalFlag_poisoned {s : State} {flag : Loc} (h : (metaAt s flag.line).psn = true) (b : Nat) (add : Bool) (v : BitVec 32)
    (green : Bool) : (signalFlag s b flag add v green).2 ≠ none ∧ (signalFlag s b flag add v green).1.mem = s.mem ∧
      (signalFlag s b flag add v green).1.lmem = s.lmem := by
  rw [signalFlag_bad (checkLine_poisoned (by rw [(signalSent_readsAlike ..).line, h]))]
  refine ⟨by simp, (checkLine_bytes ..).1.trans ?_, (checkLine_bytes ..).2.trans ?_⟩ <;> rw [signalSent, sendOut_eq]

/-- The value that the flag takes. -/
def signalValue (s : State) (flag : Loc) (add : Bool) (v : BitVec 32) : Nat :=
  if add then (leNat (readBytes s flag 8) + v.toNat) % 2 ^ 64 else v.toNat

theorem signalValue_lt (s : State) (flag : Loc) (add : Bool) (v : BitVec 32) : signalValue s flag add v < 256 ^ 8 := by
  have hv := v.isLt
  unfold signalValue
  split <;> omega

theorem signalFlag_good {s t : State} {flag : Loc} {add : Bool} {v : BitVec 32} {green : Bool}
    (h : checkLine (signalSent s flag add v green) flag.line = (t, false)) (b : Nat) : signalFlag s b flag add v green =
      (writeAll (observe t (some b) flag 8)
        (Put.bytesOf ⟨⟨0, flag, 0, 8, false⟩, leBytes 8 (signalValue (observe t (some b) flag 8) flag add v), false⟩) green true, none) := by
  rw [signalSent] at h
  simp only [signalFlag, h, Bool.false_eq_true, if_false]
  simp [Put.bytesOf, signalValue]

theorem signalFlag_cause {s : State} {b : Nat} {flag : Loc} {add : Bool} {v : BitVec 32} {green : Bool} {x : LateTrap}
    (h : (signalFlag s b flag add v green).2 = some x) : x.cause = 0x146#9 := by
  cases hpsn : (checkLine (signalSent s flag add v green) flag.line).2 with
  | true =>
    rw [signalFlag_bad hpsn] at h
    rw [← Option.some.inj h]
    rfl
  | false =>
    rw [signalFlag_good (Prod.ext rfl hpsn)] at h
    cases h

theorem byteAt_modBrick (s : State) (b : Nat) (g : Brick → Brick) (l : Loc) : byteAt (modBrick s b g) l = byteAt s l := by
  cases l <;> rfl

theorem Loc.add_add (l : Loc) (i j : Nat) : (l.add i).add j = l.add (i + j) := by cases l <;> simp [Loc.add, Nat.add_assoc]

theorem Loc.add_zero (l : Loc) : l.add 0 = l := by cases l <;> rfl

/-- Bytes that stand in a row are read as they stand. -/
theorem readBytes_eq_of_getD {s : State} : ∀ {xs : List Byte} {l : Loc}, (∀ i, i < xs.length → byteAt s (l.add i) = xs.getD i 0) →
    readBytes s l xs.length = xs
  | [], _, _ => rfl
  | x :: xs, l, h => by
    have hx : byteAt s l = x := by simpa [Loc.add_zero] using h 0 (by simp)
    have hxs : readBytes s (l.add 1) xs.length = xs := readBytes_eq_of_getD fun i hi => by
      simpa [Loc.add_add, Nat.add_comm] using h (i + 1) (by simpa using hi)
    simp only [List.length_cons, readBytes, hx, hxs]

/-- On a line that is whole and not poisoned the flag holds its new value. -/
theorem signalFlag_whole {s : State} {flag : Loc} (herr : (metaAt s flag.line).err = []) (hpsn : (metaAt s flag.line).psn = false)
    (hal : flag.inLine % 8 = 0) (b : Nat) (add : Bool) (v : BitVec 32) (green : Bool) : (signalFlag s b flag add v green).2 = none ∧
      readBytes (signalFlag s b flag add v green).1 flag 8 =
        leBytes 8 (signalValue s flag add v) := by
  have hsent := signalSent_readsAlike s flag add v green
  have hseen := observe_readsAlike (signalSent s flag add v green) (some b) flag 8
  have hread := hsent.trans hseen
  have hclean : checkLine (signalSent s flag add v green) flag.line = (signalSent s flag add v green, false) := by
    rw [checkLine_clean ((hsent.line _).symm ▸ herr), hsent.line, hpsn]
  have hin : flag.inLine < 64 := by cases flag <;> simp only [Loc.inLine] <;> omega
  rw [signalFlag_good hclean b]
  refine ⟨rfl, ?_⟩
  have hvalue : signalValue (observe (signalSent s flag add v green) (some b) flag 8) flag add v = signalValue s flag add v := by
    simp only [signalValue, hread.readBytes]
  rw [hvalue]
  have hlen : (leBytes 8 (signalValue s flag add v)).length = 8 := leBytes_length ..
  have hbytes := readBytes_eq_of_getD (l := flag) fun i hi =>
    byteAt_writeAll_bytesOf (p := ⟨⟨0, flag, 0, 8, false⟩, leBytes 8 (signalValue s flag add v), false⟩) (by simp only [hlen]; omega)
      (by rw [hread.line]; exact herr) (by rw [hread.line]; exact hpsn) hi green true
  rwa [hlen] at hbytes

/-! ### Barriers -/

/-- A place where a barrier can stand. -/
def BarStands (s : State) : ObjRef → Prop
  | .coreBar w _ => (tabGet? s.walls w).isSome = true
  | .netBar _ _ _ => True
  | _ => False

theorem barAt_congr {s t : State} (hw : t.walls = s.walls) (hn : t.nets = s.nets) (o : ObjRef) : barAt t o = barAt s o := by
  cases o <;> simp [barAt, hw, hn]

theorem BarStands.congr {s t : State} (hw : t.walls = s.walls) {o : ObjRef} (h : BarStands s o) : BarStands t o := by
  cases o <;> simp_all [BarStands]

theorem BarStands.putBar {s : State} {o : ObjRef} (h : BarStands s o) (x : Barrier) : BarStands (putBar s o x) o := by
  cases o with
  | coreBar w k => simp_all [BarStands, Machine.putBar, modWall, tabGet?_mod]
  | _ => exact h

theorem barAt_putBar {s : State} {o : ObjRef} (h : BarStands s o) (x : Barrier) : barAt (putBar s o x) o = x := by
  cases o with
  | coreBar w k =>
    obtain ⟨wl, hwl⟩ := Option.isSome_iff_exists.1 h
    simp [barAt, Machine.putBar, modWall, tabGet?_mod, hwl, tabGetD]
  | netBar sp place k => simp [barAt, Machine.putBar, tabGetD]
  | _ => exact h.elim

/-- Where what is put at a place is found there, a barrier can stand there. -/
theorem barStands_of_put {s : State} {o : ObjRef} (h : ∀ x, barAt (putBar s o x) o = x) : BarStands s o := by
  have h1 := h { Barrier.start 0 with a := 1 }
  cases o with
  | coreBar w k =>
    cases hw : tabGet? s.walls w with
    | none => simp [barAt, putBar, modWall, tabGet?_mod, hw, Barrier.start] at h1
    | some wl => simp [BarStands, hw]
  | netBar sp place k => trivial
  | _ => simp [barAt, Barrier.start] at h1

/-! ### Arrivals (R269, R270) -/

theorem barAt_completePhase {s : State} {o : ObjRef} (h : BarStands s o) : let x := barAt s o
    barAt (completePhase s o) o = { x with p := !x.p, a := 0, arrived := [], e := x.e - x.exits, exits := 0, phase := x.phase + 1 } :=
  (barAt_congr rfl rfl o : barAt (completePhase s o) o = barAt (putBar s o _) o).trans (barAt_putBar h _)

/-- The barrier with an arrival of brick b counted. -/
def Barrier.withArrival (b : Nat) (x : Barrier) : Barrier :=
  { x with a := x.a + 1, arrived := b :: x.arrived, members := (if x.members.contains b then x.members else b :: x.members) }

/-- The state in which the barrier and the brick hold the arrival, before the phase can complete. -/
def afterArrival (s : State) (b : Nat) (o : ObjRef) : State :=
  let ph := (barAt s o).phase
  modBrick (putBar s o ((barAt s o).withArrival b)) b
    (fun br => passArrival o (some ph) { br with lastArr := (o, ph) :: br.lastArr.filter (fun m => m.1 != o) })

theorem countArrival_eq {s : State} {o : ObjRef} (hab : (barAt s o).ab = false) (hodd : (barAt s o).odd = []) (b : Nat) :
    countArrival s b o = tryComplete (afterArrival s b o) o := by
  have hvote : voteBar s o = s := if_pos (by rw [hodd]; rfl)
  rw [countArrival, hvote]
  exact if_neg (by simp [hab])

theorem barAt_afterArrival {s : State} {o : ObjRef} (h : BarStands s o) (b : Nat) :
    barAt (afterArrival s b o) o = (barAt s o).withArrival b := (barAt_congr rfl rfl o).trans (barAt_putBar h _)

theorem BarStands.afterArrival {s : State} {o : ObjRef} (h : BarStands s o) (b : Nat) : BarStands (afterArrival s b o) o :=
  (h.putBar _).congr rfl

/-- An arrival at a barrier raises its count or completes its phase. -/
theorem barAt_countArrival {s : State} {o : ObjRef} (h : BarStands s o) (hab : (barAt s o).ab = false) (hodd : (barAt s o).odd = []) (b : Nat) :
    let x := barAt s o
    let y := barAt (countArrival s b o) o
    (x.a + 1 < x.e → y.a = x.a + 1 ∧ y.p = x.p ∧ y.phase = x.phase) ∧
    (x.e ≤ x.a + 1 → y.a = 0 ∧ y.p = !x.p ∧ y.phase = x.phase + 1 ∧ y.e = x.e - x.exits) := by
  intro x y
  have hheld := barAt_afterArrival h b
  have htry : y = barAt (tryComplete (afterArrival s b o) o) o := congrArg (barAt · o) (countArrival_eq hab hodd b)
  refine ⟨fun hlt => ?_, fun hle => ?_⟩
  · have hwait : tryComplete (afterArrival s b o) o = afterArrival s b o := if_neg (by
      simpa [hheld, Barrier.withArrival, hab] using hlt)
    rw [htry, hwait, hheld]
    exact ⟨rfl, rfl, rfl⟩
  · have hdone : tryComplete (afterArrival s b o) o = completePhase (afterArrival s b o) o := if_pos (by
      simpa [hheld, Barrier.withArrival, hab] using hle)
    rw [htry, hdone, barAt_completePhase (h.afterArrival b), hheld]
    exact ⟨rfl, rfl, rfl, rfl⟩

/-- A single arrival that can be counted is counted. -/
theorem countMarks_one {s : State} {b : Nat} {br : Brick} (hb : HasBrick s b br) {m : ArrMark} (hm : br.arrMarks = [m]) (hdet : br.det = false)
    (h : countable s b br = true) :
    countMarks s b [m] = countArrival (modBrick s b (fun br => { br with arrMarks := br.arrMarks.erase m })) b m.bar := by
  simp only [countable, hm, hdet, List.any_cons, List.any_nil, Bool.or_false, Bool.false_or] at h
  simp only [countMarks, hb]
  exact if_pos (by simpa [Bool.and_assoc] using h)

theorem performSignal_eq {s : State} {f : Flight} {lines : List (Loc × Nat × Loc)} {data : Option (List (List Byte × Bool))} {va : Nat}
    {flag : Loc} {add : Bool} {v : BitVec 32} {green anyG : Bool} (hk : f.kind = .sigw lines data va flag add v green anyG)
    (hout : outCheck s flag = none) (b : Nat) :
    ((signalFlag s b flag add v anyG).2 = none → performSignal s b f = endFlight (signalFlag s b flag add v anyG).1 b f.seq) ∧
    (∀ x, (signalFlag s b flag add v anyG).2 = some x →
      performSignal s b f = endFlight (reportTrap (signalFlag s b flag add v anyG).1 b f x) b f.seq) := by
  simp only [performSignal, hk, hout]
  generalize signalFlag s b flag add v anyG = r
  obtain ⟨t, x⟩ := r
  cases x <;> simp

/-- Settles O49: each step is that of the first operation that can be performed, and what it performs is read off its kind. -/
theorem operationsComplete : Obligations.OperationsComplete := by
  intro s b br hb ready ended
  refine ⟨?_, exec_loadComplete_none hb, ?_, exec_storePerformed_none hb, ?_, exec_ldtvAttempt_none hb, ?_,
    exec_hodSlotPerformed_none hb, ?_, exec_sigwFlagUpdate_none hb, ?_,
    fun hover => ⟨exec_tapeRecordComplete_none hb hover, fun f => exec_tapeRecordComplete_some hb hover⟩,
    fun hover s1 x => exec_tapeRecordComplete_spills hb hover, fun hover s1 cause va => exec_tapeRecordComplete_refused hb hover,
    exec_tapeSealComplete_none hb, fun f hf hquiet s1 => exec_tapeSealComplete_all hb hf hquiet, exec_arrivalCounted_none hb, ?_⟩
  · intro f d
    refine ⟨fun hd => ⟨deliver_whole hb hd f, fun ws fx => ?_⟩, fun t ht => ?_⟩
    · rw [finishFlight, flights_orFxAll_applyWrites]
    · by_cases hden : t.cause = 0x147#9 ∨ t.cause = 0x14E#9
      · have hfinal := Done.final_of_denied ht hden
        obtain ⟨tr, la, hbr⟩ := deliver_late hb (hfinal ▸ ht) f
        rw [hfinal] at hbr
        exact ⟨_, hbr, fun h1 h2 => absurd hden (by simp [h1, h2]), fun _ => ⟨rfl, rfl, rfl, rfl⟩⟩
      · obtain ⟨h1, h2⟩ := not_or.1 hden
        have hfinal := Done.final_of_traps ht h1 h2
        obtain ⟨tr, la, hbr⟩ := deliver_late hb (congrArg Done.late hfinal) f
        rw [hfinal] at hbr
        exact ⟨_, hbr, fun _ _ => ⟨rfl, rfl, rfl, rfl⟩, fun h => absurd h hden⟩
  · intro f hf
    rw [exec_loadComplete_some hb hf]
    refine ⟨fun ws late hk => ?_, fun accs dst gov hk => ?_, fun reqs op ty rm p gov hk => ?_, fun puts m gov hk => ?_,
      fun accs m gov retr hk => ?_⟩
    · rw [performLoadFlight, hk]
    · rw [performLoadFlight, hk]
    · rw [performLoadFlight, hk]
    · rw [performLoadFlight, hk]
    · cases retr <;> rw [performLoadFlight, hk] <;> rfl
  · intro f hf
    rw [exec_storePerformed_some hb hf]
    refine ⟨fun puts gov hk => ?_, fun reqs op ty rm gov hk => ?_, ?_, ?_⟩
    · rw [performStoreFlight, hk]
    · rw [performStoreFlight, hk]
    · intro lines green src hout
      refine ⟨fun s1 d hread => ⟨fun hk => ?_, fun fva flag add v anyG hk => ?_⟩, fun s1 hread hk => ?_⟩
      · simp only [performStoreFlight, hk, sendStep_read hout hread]
      · simp only [performStoreFlight, hk, sendStep_read hout hread]
      · rcases hk with hk | ⟨fva, flag, add, v, anyG, hk⟩ <;> simp only [performStoreFlight, hk, sendStep_poisoned hout hread, src]
    · intro l rest x xs green hout s1
      refine ⟨fun hk => ?_, fun fva flag add v anyG hk => ?_⟩
      · simp only [performStoreFlight, hk, sendStep_sent hout, List.isEmpty_iff, s1]
      · simp only [performStoreFlight, hk, sendStep_sent hout, s1]
  · intro f hf
    rw [exec_ldtvAttempt_some hb hf]
    exact ⟨fun pa va accs p gov n hk => by rw [performAttempt, hk], fun pa va twin puts tw gov n stage hk => by rw [performAttempt, hk]⟩
  · intro f hf o n src green hk hsrc hout s1 lines hread
    have hgo : src.findSome? (outCheck s) = none := List.findSome?_eq_none_iff.2 hout
    rw [exec_hodSlotPerformed_some hb hf]
    simp only [performFill, hk, List.isEmpty_iff, hsrc, if_false, hgo, hread]
  · intro f hf data va flag add v green anyG hk hout r t
    obtain ⟨hdone, htrap⟩ := performSignal_eq hk hout b
    rw [exec_sigwFlagUpdate_some hb hf]
    refine ⟨fun hr => congrArg _ (hdone hr), fun x hx => ⟨signalFlag_cause hx, congrArg _ (htrap x hx)⟩,
      fun hpsn => signalFlag_poisoned hpsn b add v anyG, fun herr hpsn hal => ?_⟩
    obtain ⟨hnone, hbytes⟩ := signalFlag_whole herr hpsn hal b add v anyG
    refine ⟨hnone, ?_⟩
    have hread : readBytes t flag 8 = leBytes 8 (signalValue s flag add v) :=
      (readBytes_congr (byteAt_modBrick r.1 b _) 8 flag).trans hbytes
    rw [hread, leNat_leBytes]
    exact Nat.mod_eq_of_lt (signalValue_lt s flag add v)
  · intro m hm hdet hcount hab hodd hput
    have hnow : ∀ g, barAt (modBrick s b g) m.bar = barAt s m.bar := fun g => barAt_congr rfl rfl _
    refine ⟨_, (exec_arrivalCounted_marks hb (by simp [hm]) hdet).trans (congrArg _ (hm ▸ countMarks_one hb hm hdet hcount)), ?_⟩
    have hcounted := barAt_countArrival (s := modBrick s b fun br => { br with arrMarks := br.arrMarks.erase m })
      ((barStands_of_put hput).congr rfl) ((hnow _).symm ▸ hab) ((hnow _).symm ▸ hodd) b
    simpa only [hnow] using hcounted

end Sys2Proof.Machine

/-!
O26. The forms on tentative cells, and what TCOM and RETR do to one cell.
-/
namespace Sys2Proof.Machine

/-! ### The forms (R244) -/

/-- The own part of a form on cells. -/
def CellSpec.body (x : CellSpec) (s : State) (c : Ctx) : Res :=
  if c.br.det then .trap s (trapOf c 0x103#9)
  else if globHold s c 1 then .hold
  else withAccs c (globalAccs s c kRw ownHome (x.addr c) (x.aG c) 8 (misaligned (x.addr c) 8)) (fun s accs =>
    .done (pushFlight s c x.form (some 1) none (some (.msk x.mask.toNat)) (x.kind c accs)))

theorem CellForm.exec_eq {i : Instr} {x : CellSpec} (h : CellForm i x) (s : State) : exec i s = issueForm s x.form (x.body s) := by
  cases h <;> rfl

theorem CellSpec.body_det {c : Ctx} (h : c.br.det = true) (x : CellSpec) (s : State) : x.body s c = .trap s (trapOf c 0x103#9) := if_pos h

/-- Outside a deterministic launch no read of a course keeps an access back. -/
theorem globHold_of_room {c : Ctx} {fc : Nat} (hdet : c.br.det = false) (hroom : fcFull c.br fc = false) (s : State) :
    globHold s c fc = false := by simp [globHold, detReadHold, hdet, hroom]

theorem CellSpec.body_accs {x : CellSpec} {s s1 : State} {c : Ctx} {accs : List Acc} (hdet : c.br.det = false)
    (hroom : fcFull c.br 1 = false)
    (haccs : globalAccs s c kRw ownHome (x.addr c) (x.aG c) 8 (misaligned (x.addr c) 8) = .ok s1 accs) :
    x.body s c = .done (pushFlight s1 c x.form (some 1) none (some (.msk x.mask.toNat)) (x.kind c accs)) := by
  simp only [body, hdet, globHold_of_room hdet hroom, haccs, withAccs, Bool.false_eq_true, if_false]

/-! ### Bytes put in a row -/

theorem byteAt_putBytes_ne {l : Loc} : ∀ {xs : List Byte} {l' : Loc} (s : State), (∀ i, i < xs.length → placeOf l ≠ placeOf (l'.add i)) →
    byteAt (putBytes s l' xs) l = byteAt s l
  | [], _, _, _ => rfl
  | x :: xs, l', s, h => by
    have hx : byteAt (putByte s l' x) l = byteAt s l := byteAt_putByte_ne s x (by simpa [Loc.add_zero] using h 0 (by simp))
    refine (byteAt_putBytes_ne (putByte s l' x) fun i hi => ?_).trans hx
    simpa [Loc.add_add, Nat.add_comm] using h (i + 1) (by simpa using hi)

/-- Bytes put at physical places are read there. -/
theorem readBytes_putBytes (pa : Nat) : ∀ (xs : List Byte) (s : State), readBytes (putBytes s (.phys pa) xs) (.phys pa) xs.length = xs := by
  intro xs
  induction xs generalizing pa with
  | nil => exact fun _ => rfl
  | cons x xs ih =>
    intro s
    have hx : byteAt (putBytes (putByte s (.phys pa) x) (.phys (pa + 1)) xs) (.phys pa) = x :=
      (byteAt_putBytes_ne _ fun i _ => by simp [placeOf, Loc.add]; omega).trans (byteAt_putByte_self ..)
    exact List.cons_eq_cons.2 ⟨hx, ih (pa + 1) _⟩

/-- They change physical memory alone. -/
theorem putBytes_phys_eq (pa : Nat) : ∀ (xs : List Byte) (s : State), putBytes s (.phys pa) xs = { s with mem := (putBytes s (.phys pa) xs).mem } := by
  intro xs
  induction xs generalizing pa with
  | nil => exact fun _ => rfl
  | cons x xs ih => exact fun s => ih (pa + 1) (putByte s (.phys pa) x)

/-! ### The check of a line -/

theorem placeOf_ne {l : Loc} {pa : Nat} (h : l ≠ .phys pa) : placeOf l ≠ placeOf (.phys pa) := by
  cases l with
  | loc core off => simp [placeOf]
  | phys pa' => simpa [placeOf] using h

theorem byteAt_setPairs (s : State) (ps : Tab PairSlot) (l : Loc) : byteAt { s with pairs := ps } l = byteAt s l := by cases l <;> rfl

theorem lineG_setPairs (s : State) (ps : Tab PairSlot) (l : Loc) : lineG { s with pairs := ps } l = lineG s l := by cases l <;> rfl

theorem lineG_setMem (s : State) (m : Tab Byte) (l : Loc) : lineG { s with mem := m } l = lineG s l := by cases l <;> rfl

theorem lineG_putMeta {s : State} {l : Loc} {m : LineMeta} (h : m.g = (metaAt s l).g) (l' : Loc) : lineG (putMeta s l m) l' = lineG s l' := by
  by_cases hk : lineKey l' = lineKey l
  · cases l with
    | loc core off =>
      cases l' with
      | loc core' off' =>
        have hkey : lKey core' off' / 64 = lKey core off / 64 := (Prod.mk.inj hk).2
        simp only [lineG, metaAt, putMeta, hkey, tabGetD_set_self] at h ⊢
        exact h
      | phys pa => cases hk
    | phys pa =>
      cases l' with
      | loc core off => cases hk
      | phys pa' =>
        have hkey : pa' / 64 = pa / 64 := (Prod.mk.inj hk).2
        cases hhost : isHostPa pa with
        | true => simp [putMeta, hhost]
        | false =>
          simp only [lineG, metaAt, putMeta, hhost, hkey, tabGetD_set_self, Bool.false_eq_true, if_false] at h ⊢
          split
          · rfl
          · exact h
  · exact congrArg LineMeta.g (metaAt_putMeta_ne s m hk)

/-- Checking a line leaves every tag. -/
theorem lineG_checkLine (s : State) (l l' : Loc) : lineG (checkLine s l).1 l' = lineG s l' := by
  have hput : ∀ m, m.g = (metaAt s l).g → ∀ die k st core loc, lineG (logAdd (putMeta s l m) die k st core loc) l' = lineG s l' :=
    fun m hm die k st core loc => (congrArg LineMeta.g (metaAt_logAdd _ die k st core loc l')).trans (lineG_putMeta hm l')
  unfold checkLine
  dsimp only
  split
  · rfl
  · exact hput { metaAt s l with err := [] } rfl ..
  · split
    · exact lineG_putMeta (m := { metaAt s l with err := [] }) rfl l'
    · exact hput { metaAt s l with err := [], psn := true } rfl ..

/-- The pairs are nothing to the check of a line. -/
theorem checkLine_setPairs (s : State) (l : Loc) (ps : Tab PairSlot) :
    checkLine { s with pairs := ps } l = ({ (checkLine s l).1 with pairs := ps }, (checkLine s l).2) := by
  have hmeta : metaAt { s with pairs := ps } l = metaAt s l := by cases l <;> rfl
  have hput : ∀ m, putMeta { s with pairs := ps } l m = { putMeta s l m with pairs := ps } := fun m => by
    cases l with
    | loc core off => rfl
    | phys pa => simp only [putMeta]; split <;> rfl
  simp only [checkLine, hmeta, hput]
  split
  · rfl
  · rfl
  · split <;> rfl

theorem checkLine_pairs (s : State) (l : Loc) : (checkLine s l).1.pairs = s.pairs := by
  unfold checkLine
  dsimp only
  split
  · rfl
  · exact putMeta_pairs ..
  · split
    · exact putMeta_pairs ..
    · exact putMeta_pairs ..

/-! ### One cell (R247) -/

/-- The state without the pair slot of a cell. -/
def freeSlot (s : State) (key : Nat) : State := { s with pairs := tabDel s.pairs key }

theorem restoreCell_poisoned {s : State} {key : Nat} {old : W64} (h : (checkLine s (Loc.phys (key * 8)).line).2 = true) :
    restoreCell s key old = (checkLine s (Loc.phys (key * 8)).line).1 := if_pos h

theorem restoreCell_good {s : State} {key : Nat} {old : W64} (h : (checkLine s (Loc.phys (key * 8)).line).2 = false) :
    restoreCell s key old = putBytes (checkLine s (Loc.phys (key * 8)).line).1 (.phys (key * 8)) (leBytes 8 old.toNat) :=
  if_neg (ne_true_of_eq_false h)

section
variable {s : State} {t pa va n : Nat} {aG : Bool}

theorem performCell1_none (h : tabGet? s.pairs (pa / 8) = none) (b m : Nat) (gov undo : Bool) :
    performCell1 s b m gov undo ⟨t, .phys pa, va, n, aG⟩ = (s, { Done.empty with writes := [cellBits m t true gov aG] }) := by
  simp only [performCell1, paOf, h]

theorem performCell1_other {slot : PairSlot} {b : Nat} (h : tabGet? s.pairs (pa / 8) = some slot) (hw : slot.writer ≠ b) (m : Nat)
    (gov undo : Bool) :
    performCell1 s b m gov undo ⟨t, .phys pa, va, n, aG⟩ = (s, { Done.empty with writes := [cellBits m t true gov aG] }) := by
  simp [performCell1, paOf, h, hw]

variable {slot : PairSlot} (h : tabGet? s.pairs (pa / 8) = some slot)
include h

/-- TCOM, and RETR of a cell that has been observed, free the slot alone. -/
theorem performCell1_frees {undo : Bool} (hkeep : undo = false ∨ slot.observed = true) (m : Nat) (gov : Bool) :
    performCell1 s slot.writer m gov undo ⟨t, .phys pa, va, n, aG⟩ =
      (freeSlot s (pa / 8), { Done.empty with writes := [cellBits m t undo gov aG] }) := by
  cases undo with
  | false => simp [performCell1, paOf, h, freeSlot]
  | true =>
    have hobs : slot.observed = true := by simpa using hkeep
    simp [performCell1, paOf, h, freeSlot, hobs]

theorem performCell1_restores (hobs : slot.observed = false) (m : Nat) (gov : Bool) :
    performCell1 s slot.writer m gov true ⟨t, .phys pa, va, n, aG⟩ =
      (restoreCell (freeSlot s (pa / 8)) (pa / 8) slot.old, { Done.empty with writes := [cellBits m t false gov aG] }) := by
  simp [performCell1, paOf, h, freeSlot, hobs]

end

theorem freeSlot_pairs (s : State) (key : Nat) : tabGet? (freeSlot s key).pairs key = none ∧
    ∀ k, k ≠ key → tabGet? (freeSlot s key).pairs k = tabGet? s.pairs k :=
  ⟨tabGet?_del_self .., fun _ h => tabGet?_del_ne _ h⟩

theorem checkLine_freeSlot (s : State) (key : Nat) (l : Loc) :
    checkLine (freeSlot s key) l = ({ (checkLine s l).1 with pairs := tabDel s.pairs key }, (checkLine s l).2) := checkLine_setPairs ..

/-- What putting back the old value leaves: the state after the check of the line, without the slot. -/
theorem restoreCell_freeSlot (s : State) (key : Nat) (old : W64) :
    let chk := checkLine s (Loc.phys (key * 8)).line
    let r := restoreCell (freeSlot s key) key old
    r = { chk.1 with pairs := r.pairs, mem := r.mem } ∧ r.pairs = tabDel s.pairs key ∧ (∀ l, lineG r l = lineG s l) ∧
    (chk.2 = true → r.mem = s.mem) ∧
    (chk.2 = false → readBytes r (.phys (key * 8)) 8 = leBytes 8 old.toNat ∧
      ∀ l, (∀ i, i < 8 → l ≠ .phys (key * 8 + i)) → byteAt r l = byteAt s l) := by
  intro chk r
  have hchk := checkLine_freeSlot s key (Loc.phys (key * 8)).line
  have hG : ∀ l, lineG { chk.1 with pairs := tabDel s.pairs key } l = lineG s l := fun l =>
    (lineG_setPairs ..).trans (lineG_checkLine ..)
  cases hpsn : chk.2 with
  | true =>
    have hr : r = { chk.1 with pairs := tabDel s.pairs key } := (restoreCell_poisoned (by rw [hchk]; exact hpsn)).trans (congrArg Prod.fst hchk)
    rw [hr]
    exact ⟨rfl, rfl, hG, fun _ => (checkLine_bytes ..).1, (nomatch ·)⟩
  | false =>
    have hr : r = putBytes { chk.1 with pairs := tabDel s.pairs key } (.phys (key * 8)) (leBytes 8 old.toNat) :=
      (restoreCell_good (by rw [hchk]; exact hpsn)).trans (by rw [hchk])
    have hmem := putBytes_phys_eq (key * 8) (leBytes 8 old.toNat) { chk.1 with pairs := tabDel s.pairs key }
    rw [← hr] at hmem
    have hlen : (leBytes 8 old.toNat).length = 8 := leBytes_length ..
    refine ⟨hmem.trans ?_, congrArg State.pairs hmem, fun l => ?_, (nomatch ·), fun _ => ⟨?_, fun l hl => ?_⟩⟩
    · rw [show r.pairs = tabDel s.pairs key from congrArg State.pairs hmem]
    · rw [hmem]
      exact (lineG_setMem ..).trans (hG l)
    · have := readBytes_putBytes (key * 8) (leBytes 8 old.toNat) { chk.1 with pairs := tabDel s.pairs key }
      rwa [hlen, ← hr] at this
    · rw [hr, byteAt_putBytes_ne _ fun i hi => ?_]
      · exact (byteAt_setPairs ..).trans (byteAt_checkLine ..)
      · exact placeOf_ne (hl i (hlen ▸ hi))

end Sys2Proof.Machine

/-!
O26. The end of a brick changes no byte of physical memory: what it does to objects stays in tables and in local memory.
-/
namespace Sys2Proof.Machine

/-! ### Physical memory and its cells -/

/-- Physical memory, the states of its lines, the pending cells, and the launches. -/
def physCells (s : State) : Tab Byte × Tab LineMeta × Tab PairSlot × Tab Launch := (s.mem, s.mmeta, s.pairs, s.launches)

theorem cells_foldl {α : Type} {f : State → α → State} (h : ∀ s x, physCells (f s x) = physCells s) (l : List α) (s : State) :
    physCells (l.foldl f s) = physCells s := by
  induction l generalizing s with
  | nil => rfl
  | cons x l ih => exact (ih _).trans (h s x)

theorem cells_modBrick (s : State) (b : Nat) (g : Brick → Brick) : physCells (modBrick s b g) = physCells s := rfl

theorem cells_putBar (s : State) (o : ObjRef) (x : Barrier) : physCells (putBar s o x) = physCells s := by cases o <;> rfl

theorem cells_putHod (s : State) (o : ObjRef) (x : Hod) : physCells (putHod s o x) = physCells s := by cases o <;> rfl

theorem cells_logAdd (s : State) (die kind strct : Nat) (core : Option Nat) (loc : Nat) :
    physCells (logAdd s die kind strct core loc) = physCells s := rfl

/-! ### Lines of local memory -/

/-- A place in a core's local memory. -/
def Loc.IsLocal (l : Loc) : Prop := ∃ core off, l = .loc core off

theorem Loc.IsLocal.add {l : Loc} (h : l.IsLocal) (n : Nat) : (l.add n).IsLocal := by
  obtain ⟨core, off, rfl⟩ := h
  exact ⟨core, off + n, rfl⟩

theorem Loc.IsLocal.line {l : Loc} (h : l.IsLocal) : l.line.IsLocal := by
  obtain ⟨core, off, rfl⟩ := h
  exact ⟨core, off / 64 * 64, rfl⟩

theorem cells_putMeta {l : Loc} (h : l.IsLocal) (s : State) (m : LineMeta) : physCells (putMeta s l m) = physCells s := by
  obtain ⟨core, off, rfl⟩ := h
  rfl

theorem cells_putByte {l : Loc} (h : l.IsLocal) (s : State) (x : Byte) : physCells (putByte s l x) = physCells s := by
  obtain ⟨core, off, rfl⟩ := h
  rfl

theorem cells_checkLine {l : Loc} (h : l.IsLocal) (s : State) : physCells (checkLine s l).1 = physCells s := by
  unfold checkLine
  dsimp only
  split
  · rfl
  · exact cells_putMeta h s _
  · split
    · exact cells_putMeta h s _
    · exact cells_putMeta h s _

theorem cells_checkLines {ls : List Loc} (h : ∀ l ∈ ls, l.IsLocal) (s : State) : physCells (checkLines s ls).1 = physCells s := by
  induction ls generalizing s with
  | nil => rfl
  | cons l ls ih =>
    exact (ih (fun m hm => h m (List.mem_cons_of_mem _ hm)) _).trans (cells_checkLine (h l (List.mem_cons_self ..)) s)

theorem cells_foldl_putByte {ws : List WByte} (h : ∀ w ∈ ws, w.loc.IsLocal) (s : State) :
    physCells (ws.foldl (fun s w => putByte s w.loc w.x) s) = physCells s := by
  induction ws generalizing s with
  | nil => rfl
  | cons w ws ih =>
    exact (ih (fun v hv => h v (List.mem_cons_of_mem _ hv)) _).trans (cells_putByte (h w (List.mem_cons_self ..)) s w.x)

theorem cells_writeLine {line : Loc} (hline : line.IsLocal) {ws : List WByte} (h : ∀ w ∈ ws, w.loc.IsLocal) (s : State) (gov atomic : Bool) :
    physCells (writeLine s line ws gov atomic) = physCells s := by
  have hcheck := cells_checkLine hline s
  unfold writeLine
  simp only
  split
  · exact (cells_putMeta hline _ _).trans (cells_foldl_putByte h s)
  · split
    · exact hcheck
    · exact (cells_putMeta hline _ _).trans ((cells_foldl_putByte h _).trans hcheck)

theorem cells_writeAll {ws : List WByte} (h : ∀ w ∈ ws, w.loc.IsLocal) (s : State) (gov atomic : Bool) :
    physCells (writeAll s ws gov atomic) = physCells s := by
  have hlines : ∀ l ∈ linesOf ws, l.IsLocal := fun l hl => by
    obtain ⟨w, hw, rfl⟩ := List.mem_map.1 (List.mem_eraseDups.1 hl)
    exact (h w hw).line
  unfold writeAll
  generalize linesOf ws = ls at hlines
  induction ls generalizing s with
  | nil => rfl
  | cons l ls ih =>
    exact (ih _ fun m hm => hlines m (List.mem_cons_of_mem _ hm)).trans
      (cells_writeLine (hlines l (List.mem_cons_self ..)) (fun w hw => h w (List.mem_of_mem_filter hw)) s gov atomic)

theorem cells_writeSlot {l : Loc} (h : l.IsLocal) (lines : List (List Byte × Bool)) (s : State) : physCells (writeSlot s l lines) = physCells s := by
  induction lines generalizing l s with
  | nil => rfl
  | cons x lines ih =>
    refine (ih (h.add 64) _).trans (cells_writeAll (fun w hw => ?_) s x.2 false)
    obtain ⟨i, -, rfl⟩ := List.mem_map.1 hw
    exact h.add i

/-! ### Hods -/

theorem hodSlotLoc_isLocal (s : State) (o : ObjRef) (n : Nat) : (hodSlotLoc s o n).IsLocal := by
  unfold hodSlotLoc
  dsimp only
  split
  · split <;> exact ⟨_, _, rfl⟩
  · exact ⟨_, _, rfl⟩

theorem cells_takeSlot (s : State) (o : ObjRef) (b : Nat) : physCells (takeSlot s o b).1 = physCells s := by
  have hc := cells_checkLines (ls := (List.range ((hodAt s o).s / 64)).map (fun i => (hodSlotLoc s o (hodAt s o).head).add (64 * i)))
    (fun l hl => by
      obtain ⟨i, -, rfl⟩ := List.mem_map.1 hl
      exact (hodSlotLoc_isLocal ..).add _) s
  unfold takeSlot
  simp only
  split <;> rename_i h <;> rw [h] at hc
  · exact hc
  · exact (cells_putHod _ o _).trans hc

theorem cells_serveCons (o : ObjRef) (l : List (Nat × Nat)) (s : State) : physCells (serveCons o l s) = physCells s := by
  induction l generalizing s with
  | nil => rfl
  | cons x l ih =>
    have hput (h : Hod) := cells_putHod s o h
    unfold serveCons
    simp only
    split
    · split
      · have ht := (cells_takeSlot _ o x.1).trans (hput { hodAt s o with cons := l })
        split <;> rename_i h <;> rw [h] at ht <;> exact (ih _).trans ht
      · split
        · exact (ih _).trans (hput _)
        · rfl
    · rfl

theorem cells_serveProds (o : ObjRef) (l : List (Nat × Nat)) (s : State) : physCells (serveProds o l s) = physCells s := by
  induction l generalizing s with
  | nil => rfl
  | cons x l ih =>
    have hput (h : Hod) := cells_putHod s o h
    unfold serveProds
    simp only
    split
    · split
      · exact (ih _).trans (hput _)
      · split
        · exact (ih _).trans ((cells_putHod _ o _).trans (hput _))
        · rfl
    · rfl

theorem cells_serveHod (s : State) (o : ObjRef) : physCells (serveHod s o) = physCells s :=
  (cells_serveProds o _ _).trans (cells_serveCons o _ s)

theorem cells_fillSlot (s : State) (o : ObjRef) (n : Nat) (lines : List (List Byte × Bool)) : physCells (fillSlot s o n lines) = physCells s :=
  (cells_serveHod _ o).trans ((cells_putHod _ o _).trans (cells_writeSlot (hodSlotLoc_isLocal ..) lines s))

/-! ### Barriers -/

theorem cells_voteBar (s : State) (o : ObjRef) : physCells (voteBar s o) = physCells s := by
  unfold voteBar
  simp only
  split
  · rfl
  · split <;> exact cells_putBar s o _

theorem cells_tryComplete (s : State) (o : ObjRef) : physCells (tryComplete s o) = physCells s := by
  unfold tryComplete
  simp only
  split
  · exact cells_putBar s o _
  · rfl

theorem cells_exitBar (b : Nat) (s : State) (o : ObjRef) : physCells (exitBar s b o) = physCells s := by
  have hvote := cells_voteBar s o
  unfold exitBar
  simp only
  split
  · exact hvote
  · split
    · exact (cells_putBar _ o _).trans hvote
    · exact (cells_tryComplete _ o).trans ((cells_putBar _ o _).trans hvote)

theorem cells_killBar (b launch : Nat) (s : State) (o : ObjRef) : physCells (killBar s b launch o) = physCells s := by
  have hvote := cells_voteBar s o
  unfold killBar
  simp only
  split
  · exact hvote
  · split
    · exact (cells_putBar _ o _).trans hvote
    · exact hvote

/-! ### The end of a brick (R247, R298) -/

theorem cells_dropOwner (s : State) (core b : Nat) : physCells (dropOwner s core b) = physCells s := rfl

theorem cells_returnRows (s : State) (br : Brick) : physCells (returnRows s br) = physCells s := rfl

theorem cells_leaveHods (s : State) (b : Nat) : physCells (leaveHods s b) = physCells s := rfl

/-- Committing cells is nothing but a change of cells. -/
theorem cells_commitCells {s t : State} (h : physCells t = physCells s) (b : Nat) : physCells (commitCells t b) = physCells (commitCells s b) := by
  simp only [physCells, Prod.mk.injEq] at h
  obtain ⟨hmem, hmeta, hpairs, hlaunches⟩ := h
  simp only [physCells, commitCells, hmem, hmeta, hpairs, hlaunches]

/-- The end of a brick frees its pending cells and touches nothing else of physical memory. -/
theorem cells_endObjects {s : State} {b : Nat} {br : Brick} (hb : HasBrick s b br) (killed : Bool) :
    physCells (endObjects s b killed) = physCells (commitCells s b) := by
  have hbars : ∀ (u : State) (l : List ObjRef),
      physCells (l.foldl (fun s o => if killed then killBar s b br.launch o else exitBar s b o) u) = physCells u := fun u l =>
    cells_foldl (fun s o => by
      cases killed with
      | true => exact cells_killBar b br.launch s o
      | false => exact cells_exitBar b s o) l u
  have hhods : ∀ (u : State) (l : List ObjRef), physCells (l.foldl serveHod u) = physCells u := fun u l => cells_foldl cells_serveHod l u
  unfold endObjects
  simp only [hb]
  have hfreed : physCells (commitCells (leaveHods (returnRows s br) b) b) = physCells (commitCells s b) :=
    cells_commitCells ((cells_leaveHods ..).trans (cells_returnRows ..)) b
  refine (hbars _ _).trans ?_
  split
  · exact (cells_dropOwner ..).trans ((hhods _ _).trans hfreed)
  · exact (hhods _ _).trans hfreed

/-- What is left of the pending cells when brick b ends. -/
def FreesCells (s : State) (b : Nat) (t : State) : Prop :=
  t.mem = s.mem ∧ t.mmeta = s.mmeta ∧ ∀ k slot, (k, slot) ∈ t.pairs ↔ (k, slot) ∈ s.pairs ∧ slot.writer ≠ b

def KeepsCells (s t : State) : Prop := t.mem = s.mem ∧ t.mmeta = s.mmeta ∧ t.pairs = s.pairs

theorem keepsCells_of {s t : State} (h : physCells t = physCells s) : KeepsCells s t := by
  simp only [physCells, Prod.mk.injEq] at h
  obtain ⟨hmem, hmeta, hpairs, -⟩ := h
  exact ⟨hmem, hmeta, hpairs⟩

/-- A state whose cells are those after the brick's end has freed them. -/
theorem freesCells_of {s t : State} {b : Nat} (h : physCells t = physCells (commitCells s b)) : FreesCells s b t := by
  obtain ⟨hmem, hmeta, hpairs⟩ := keepsCells_of h
  refine ⟨hmem, hmeta, fun k slot => ?_⟩
  rw [hpairs]
  simp [commitCells]

theorem freesCells_endObjects {s t : State} {b : Nat} {br : Brick} (hb : HasBrick t b br) (h : physCells t = physCells s) (killed : Bool) :
    FreesCells s b (endObjects t b killed) := freesCells_of ((cells_endObjects hb killed).trans (cells_commitCells h b))

/-! ### An exit -/

theorem cells_leaveSlot (s : State) (b : Nat) (br : Brick) : physCells (leaveSlot s b br) = physCells s := rfl

theorem cells_leaveQueues (s : State) (b : Nat) : physCells (leaveQueues s b) = physCells s := rfl

theorem cells_exitFreed (s : State) (c : Ctx) : physCells (exitFreed s c) = physCells s :=
  (cells_leaveQueues ..).trans ((cells_leaveSlot ..).trans (cells_modBrick s c.b _))

theorem exitLast_freesCells {s : State} {c : Ctx} (hb : HasBrick s c.b c.br) (hd : c.br.det = false) : FreesCells s c.b (exitLast s c) := by
  obtain ⟨t, sps, hfreed⟩ := exitFreed_brick hb
  have he : exitLast s c = endObjects (modBrick (exitFreed s c) c.b Brick.emptied) c.b false := if_neg (by simp [hd])
  rw [he]
  exact freesCells_endObjects (s := s) (modBrick_brick hfreed Brick.emptied) ((cells_modBrick ..).trans (cells_exitFreed s c)) false

theorem exitLast_keepsCells {s : State} {c : Ctx} (hd : c.br.det = true) : KeepsCells s (exitLast s c) := by
  have he : ∃ g, exitLast s c = modBrick (exitFreed s c) c.b g := ⟨_, if_pos hd⟩
  obtain ⟨g, he⟩ := he
  rw [he]
  exact keepsCells_of ((cells_modBrick ..).trans (cells_exitFreed s c))

/-! ### A kill -/

theorem cells_zeroFill (s : State) (f : Flight) (o : ObjRef) (n : Nat) : physCells (zeroFill s f o n).1 = physCells s := by
  unfold zeroFill
  split
  · rfl
  · exact cells_fillSlot s o n _

theorem cells_stopCopy (s : State) (f : Flight) (id : Nat) : physCells (stopCopy s f id).1 = physCells s := by
  unfold stopCopy
  split
  · rfl
  · simp only
    split
    · exact cells_zeroFill _ f _ _
    · rfl

theorem cells_killFlight (s : State) (f : Flight) : physCells (killFlight s f).1 = physCells s := by
  unfold killFlight
  simp only
  split
  · rfl
  · split
    · cases f.kind with
      | copy id =>
        simp only
        split
        · split
          · exact cells_stopCopy s f id
          · split <;> rfl
        · rfl
      | hodPut o n src green => cases n <;> rfl
      | _ => rfl
    · cases f.kind with
      | copy id => exact cells_stopCopy s f id
      | copyWait id => exact cells_stopCopy s f id
      | hodPut o n src green =>
        cases n with
        | none => rfl
        | some n => exact cells_zeroFill s f o n
      | aon pa va twin puts tw gov n stage =>
        simp only
        split <;> rfl
      | tlbi all base len asid sp removed waits => cases removed <;> rfl
      | _ => rfl

theorem cells_killFlights (l : List Flight) (s : State) : physCells (killFlights s l).1 = physCells s := by
  induction l generalizing s with
  | nil => rfl
  | cons f l ih => exact (ih _).trans (cells_killFlight s f)

theorem qOf_of_cells {s t : State} (h : physCells t = physCells s) (br : Brick) : qOf t br = qOf s br := by
  have hl : t.launches = s.launches := congrArg (fun x => x.2.2.2) h
  simp only [qOf, hl]

theorem leaveSlot_bricks (s : State) (b : Nat) (br : Brick) : (leaveSlot s b br).bricks = s.bricks := rfl

theorem leaveQueues_bricks (s : State) (b : Nat) : (leaveQueues s b).bricks = s.bricks := rfl

theorem cells_setCopies (s : State) (t : Tab Copy) : physCells { s with copies := t } = physCells s := rfl

/-- The end of a killed brick once its flights are stopped: at once, or buffered in a deterministic launch. -/
theorem killBrick_stopped {s : State} {b : Nat} {br : Brick} (hb : HasBrick s b br) (halive : br.alive = true) (cause : BitVec 9)
    (strct : Nat) : ∃ u br', HasBrick u b br' ∧ physCells u = physCells s ∧ killBrick s b cause strct =
      if br.det then modBrick u b (fun x => goneFlight x (courseEndOf (qOf u br) br.L) true) else endObjects u b true := by
  unfold killBrick
  simp only [hb, halive, Bool.not_true, Bool.false_eq_true, if_false]
  generalize hfreed : leaveQueues _ b = freed
  have hbricks : freed.bricks = s.bricks := by
    rw [← hfreed]
    exact (leaveQueues_bricks ..).trans (leaveSlot_bricks ..)
  have hb1 : HasBrick freed b br := (congrArg (tabGet? · b) hbricks).trans hb
  have hcells1 : physCells freed = physCells s := by
    rw [← hfreed]
    exact (cells_leaveQueues ..).trans ((cells_leaveSlot ..).trans (cells_logAdd ..))
  have hcells : physCells (killFlights freed br.flights).1 = physCells s := (cells_killFlights _ _).trans hcells1
  obtain ⟨br1, hb1, -⟩ := (serves_killFlights br.flights freed).brick hb1
  generalize killFlights freed br.flights = k at hb1 hcells ⊢
  generalize hcopies : ({ k.1 with copies := _ } : State) = u
  have hb1 : HasBrick u b br1 := hcopies ▸ hb1
  have hcells : physCells u = physCells s := by
    rw [← hcopies]
    exact (cells_setCopies k.1 _).trans hcells
  exact ⟨_, _, modBrick_brick hb1 (fun br => br.closeKilled k.2), (cells_modBrick ..).trans hcells, rfl⟩

/-- A buffered end stands among the brick's flights. -/
theorem goneFlight_mem (br : Brick) (T : Nat) (killed : Bool) :
    ∃ fl ∈ (goneFlight br T killed).flights, fl.kind = .gone killed ∧ fl.tEnd = some T :=
  ⟨_, List.mem_append_right _ (List.mem_singleton_self _), rfl, rfl⟩

theorem killBrick_freesCells {s : State} {b : Nat} {br : Brick} (hb : HasBrick s b br) (halive : br.alive = true) (hd : br.det = false)
    (cause : BitVec 9) (strct : Nat) : FreesCells s b (killBrick s b cause strct) := by
  obtain ⟨u, br', hu, hcells, he⟩ := killBrick_stopped hb halive cause strct
  rw [he, hd]
  exact freesCells_endObjects hu hcells true

theorem killBrick_buffered {s : State} {b : Nat} {br : Brick} (hb : HasBrick s b br) (halive : br.alive = true) (hd : br.det = true)
    (cause : BitVec 9) (strct : Nat) : KeepsCells s (killBrick s b cause strct) ∧ ∃ br' fl, HasBrick (killBrick s b cause strct) b br' ∧
      fl ∈ br'.flights ∧ fl.kind = .gone true ∧ fl.tEnd = some (courseEndOf (qOf s br) br.L) := by
  obtain ⟨u, br', hu, hcells, he⟩ := killBrick_stopped hb halive cause strct
  rw [he, hd, if_pos rfl, qOf_of_cells hcells]
  obtain ⟨fl, hfl, hkind, hend⟩ := goneFlight_mem br' (courseEndOf (qOf s br) br.L) true
  exact ⟨keepsCells_of ((cells_modBrick ..).trans hcells), _, fl, modBrick_brick hu _, hfl, hkind, hend⟩

/-! ### The commit of an end (R298) -/

theorem commitFlight_gone {s : State} {b : Nat} {br : Brick} {f : Flight} {killed : Bool} (hk : f.kind = .gone killed)
    (hwaits : br.flights.any Flight.waitsPhase = false) : commitFlight s b br f = endFlight (endObjects s b killed) b f.seq := by
  simp only [commitFlight, hk, hwaits, Bool.false_eq_true, if_false]

theorem commitFlight_freesCells {s : State} {b : Nat} {br : Brick} (hb : HasBrick s b br) {f : Flight} {killed : Bool}
    (hk : f.kind = .gone killed) (hwaits : br.flights.any Flight.waitsPhase = false) : FreesCells s b (commitFlight s b br f) := by
  rw [commitFlight_gone hk hwaits]
  exact freesCells_endObjects hb rfl killed

/-- Once its arrivals are counted, a brick's end reaches its objects. -/
theorem countAll_gone {s : State} {b f : Nat} {br : Brick} (hb : HasBrick s b br) {bs : List Nat} {killed : Bool}
    (hwait : nextWaiting s bs = none) (hgone : nextGone s bs = some (b, f, killed)) (n : Nat) :
    ∃ t, FreesCells s b t ∧ countAll s bs (n + 1) = countAll t bs n :=
  ⟨endObjects (modBrick s b (fun br => finishFlight br f)) b killed, freesCells_endObjects (modBrick_brick hb _) rfl killed, by
    simp only [countAll, hwait, hgone]⟩

end Sys2Proof.Machine

/-!
O26. Pre-emption keeps every pair slot: what it spills and what it looks up only marks cells as observed.
-/
namespace Sys2Proof.Machine

/-! ### Slots that stay -/

/-- Every pair slot of s stands in t, with its writer and its old value. -/
structure SlotsStay (s t : State) : Prop where
  slot : ∀ k slot, tabGet? s.pairs k = some slot → ∃ o, tabGet? t.pairs k = some { slot with observed := o }

theorem slotsStay_of_pairs {s t : State} (h : t.pairs = s.pairs) : SlotsStay s t := ⟨fun _ slot hk => ⟨slot.observed, h ▸ hk⟩⟩

theorem SlotsStay.refl (s : State) : SlotsStay s s := slotsStay_of_pairs rfl

theorem SlotsStay.trans {s t u : State} (h : SlotsStay s t) (h' : SlotsStay t u) : SlotsStay s u := ⟨fun k slot hk => by
  obtain ⟨o, ho⟩ := h.slot k slot hk
  obtain ⟨o', ho'⟩ := h'.slot k _ ho
  exact ⟨o', ho'⟩⟩

theorem SlotsStay.trans_pairs {s t u : State} (h : SlotsStay s t) (h' : u.pairs = t.pairs) : SlotsStay s u :=
  h.trans (slotsStay_of_pairs h')

/-- Marking one slot as observed keeps every slot. -/
theorem slotsStay_mark {s : State} {c : Nat} {p : PairSlot} (hp : tabGet? s.pairs c = some p) :
    SlotsStay s { s with pairs := tabPut s.pairs c { p with observed := true } } := ⟨fun k slot hk => by
  by_cases hkc : k = c
  · subst hkc
    rw [hp, Option.some.injEq] at hk
    exact ⟨true, by rw [tabGet?_put_self, hk]⟩
  · exact ⟨slot.observed, by rw [tabGet?_put_ne _ _ hkc, hk]⟩⟩

theorem slotsStay_observe (s : State) (who : Option Nat) (l : Loc) (n : Nat) : SlotsStay s (observe s who l n) := by
  cases l with
  | loc core off => exact .refl s
  | phys pa =>
    simp only [observe]
    generalize cellsOf pa n = cs
    induction cs generalizing s with
    | nil => exact .refl s
    | cons c cs ih =>
      refine SlotsStay.trans ?_ (ih _)
      dsimp only
      split
      · rename_i p hp
        split
        · exact .refl s
        · exact slotsStay_mark hp
      · exact .refl s

/-! ### What leaves the pairs as they are -/

theorem foldl_pairs {α : Type} {f : State → α → State} (h : ∀ s x, (f s x).pairs = s.pairs) (l : List α) (s : State) :
    (l.foldl f s).pairs = s.pairs := by
  induction l generalizing s with
  | nil => rfl
  | cons x l ih => exact (ih _).trans (h s x)

theorem putSem_pairs (s : State) (o : ObjRef) (x : Sem) : (putSem s o x).pairs = s.pairs := by cases o <;> rfl

theorem voteSem_pairs (s : State) (o : ObjRef) : (voteSem s o).pairs = s.pairs := by
  unfold voteSem
  dsimp only
  split
  · rfl
  · split
    · exact putSem_pairs ..
    · exact putSem_pairs ..
    · rfl

theorem serveSem_pairs (o : ObjRef) (q : List (Nat × Nat)) (n : Nat) (s : State) : (serveSem s o q n).pairs = s.pairs := by
  induction q generalizing s n with
  | nil => exact putSem_pairs ..
  | cons x q ih =>
    cases n with
    | zero => exact putSem_pairs ..
    | succ n =>
      unfold serveSem
      split
      · exact ih ..
      · exact putSem_pairs ..

theorem semBump_pairs (s : State) (die n : Nat) : (semBump s die n).pairs = s.pairs :=
  (serveSem_pairs ..).trans ((putSem_pairs ..).trans (voteSem_pairs ..))

theorem addFault_pairs (s : State) (die asid va kind : Nat) (eng : Bool) : (addFault s die asid va kind eng).pairs = s.pairs := by
  unfold addFault
  split
  · rfl
  · exact semBump_pairs ..

theorem sendOut_pairs (s : State) (l : Loc) (x : Nat → Nat → Sent) : (sendOut s l x).pairs = s.pairs := by rw [sendOut_eq]

theorem noteWrite_pairs (s : State) (l : Loc) (bytes : List Byte) (g : Bool) : (noteWrite s l bytes g).pairs = s.pairs := sendOut_pairs ..

theorem dropLine_pairs (s : State) (b : Nat) : (dropLine s b).pairs = s.pairs := rfl

theorem writeLine_pairs (s : State) (line : Loc) (ws : List WByte) (gov atomic : Bool) : (writeLine s line ws gov atomic).pairs = s.pairs := by
  have hcheck := checkLine_pairs s line
  have hput := foldl_pairs (fun s (w : WByte) => putByte_pairs (s := s) w.loc w.x) ws
  unfold writeLine
  simp only
  split
  · exact (putMeta_pairs ..).trans (hput s)
  · split
    · exact hcheck
    · exact (putMeta_pairs ..).trans ((hput _).trans hcheck)

theorem writeAll_pairs (s : State) (ws : List WByte) (gov atomic : Bool) : (writeAll s ws gov atomic).pairs = s.pairs :=
  foldl_pairs (fun s l => writeLine_pairs s l _ gov atomic) _ s

theorem writeSlot_pairs (lines : List (List Byte × Bool)) (s : State) (l : Loc) : (writeSlot s l lines).pairs = s.pairs := by
  induction lines generalizing s l with
  | nil => rfl
  | cons x lines ih => exact (ih _ _).trans (writeAll_pairs s _ x.2 false)

theorem lateTrap_pairs (s : State) (b : Nat) (f : Flight) (t : LateTrap) : (lateTrap s b f t).pairs = s.pairs := by
  unfold lateTrap
  split
  · rfl
  · unfold reportLate
    split
    · rfl
    · split
      · rfl
      · split <;> rfl

theorem refuseLine_pairs (s : State) (b : Nat) (f : Option Flight) (cause : BitVec 9) (va : Nat) :
    (refuseLine s b f cause va).pairs = s.pairs := by
  unfold refuseLine
  split
  · rfl
  · exact lateTrap_pairs ..

/-! ### Lookups (R246, R334) -/

theorem slotsStay_readTable (s : State) (pa : Nat) : SlotsStay s (readTable s pa).1 := by
  unfold readTable
  split
  · exact .refl s
  · exact (slotsStay_of_pairs (checkLine_pairs s (Loc.phys pa).line)).trans (slotsStay_observe _ none (.phys pa) 8)

theorem slotsStay_tableEntry (s : State) (cache die asid shift tag pa : Nat) : SlotsStay s (tableEntry s cache die asid shift tag pa).1 := by
  have h := slotsStay_readTable s pa
  unfold tableEntry
  split <;> rename_i hr <;> rw [hr] at h
  · exact h
  · simp only
    split
    · split <;> exact h.trans_pairs rfl
    · split
      · exact h.trans_pairs rfl
      · exact h

theorem slotsStay_walkFrom (cache die asid va : Nat) (levels : List (Nat × Nat)) (s : State) (table : Nat) :
    SlotsStay s (walkFrom s cache die asid va levels table).1 := by
  induction levels generalizing s table with
  | nil => exact .refl s
  | cons x levels ih =>
    have h := slotsStay_tableEntry s cache die asid x.1 (va / 2 ^ x.1) (table + 8 * (va / 2 ^ x.1 % 2 ^ x.2))
    unfold walkFrom
    split <;> rename_i ht <;> rw [ht] at h
    · exact h
    · split
      · exact h
      · exact h
      · exact h
      · exact h
      · exact h.trans (ih _ _)

theorem slotsStay_rootOf (s : State) (asid : Nat) : SlotsStay s (rootOf s asid).1 := by
  have h := slotsStay_readTable s (s.asidTab.toNat / 2 ^ 12 % 2 ^ 44 * 2 ^ 12 + 8 * asid)
  unfold rootOf
  split <;> rename_i hr <;> rw [hr] at h
  · exact h
  · split <;> exact h

theorem slotsStay_translate (s : State) (cache die asid : Nat) (prv : Bool) (kind va : Nat) :
    SlotsStay s (translate s cache die asid prv kind va).1 := by
  have hroot := slotsStay_rootOf s asid
  unfold translate
  split <;> rename_i hr <;> rw [hr] at hroot
  · exact hroot
  · rename_i s1 root
    have hwalk := hroot.trans (slotsStay_walkFrom cache die asid va walkLevels s1 root)
    split <;> rename_i hw <;> rw [hw] at hwalk
    · exact hwalk
    · exact hwalk
    · exact hwalk
    · simp only
      split
      · exact hwalk
      · split <;> exact hwalk

/-! ### Spilling the tape (R322) -/

theorem slotsStay_spillFirst (s : State) (b : Nat) (br : Brick) : SlotsStay s (spillFirst s b br).1 := by
  unfold spillFirst
  split
  · exact .refl s
  · exact slotsStay_of_pairs rfl
  · rename_i va bytes g _
    have htrans := slotsStay_translate s br.core (dieOfCore br.core) (asidOf s br) br.prv kLeaf va
    dsimp only
    split <;> rename_i ht <;> rw [ht] at htrans
    · split
      · exact htrans.trans_pairs rfl
      · split
        · exact htrans.trans_pairs (addFault_pairs ..)
        · exact htrans
    · exact htrans.trans_pairs rfl
    · rename_i s1 pa
      have hset : SlotsStay s (setTape s1 b { br.tape with waits := none }) := htrans.trans_pairs rfl
      split
      · exact hset
      · split
        · exact hset
        · have hseen : SlotsStay s (observe (noteWrite (dropLine (setTape s1 b { br.tape with waits := none }) b) (.phys pa) bytes g) (some b)
              (.phys pa) 64) :=
            (hset.trans_pairs ((noteWrite_pairs ..).trans (dropLine_pairs ..))).trans (slotsStay_observe ..)
          split
          · exact hseen.trans_pairs (putMeta_pairs ..)
          · exact hseen.trans_pairs (writeSlot_pairs ..)

theorem slotsStay_spillLines (b n : Nat) (s : State) : SlotsStay s (spillLines s b n).1 := by
  induction n generalizing s with
  | zero => exact .refl s
  | succ n ih =>
    unfold spillLines
    split
    · exact .refl s
    · rename_i br hb
      have hfirst := slotsStay_spillFirst s b br
      split
      · rename_i h
        rw [h] at hfirst
        exact hfirst.trans (ih _)
      · exact hfirst

theorem slotsStay_spillTape (s : State) (b : Nat) : SlotsStay s (spillTape s b).1 := by
  unfold spillTape
  split
  · exact .refl s
  · exact slotsStay_spillLines ..

theorem slotsStay_spillWall (bs : List Nat) (s : State) : SlotsStay s (spillWall s bs).1 := by
  induction bs generalizing s with
  | nil => exact .refl s
  | cons b bs ih =>
    have htape := slotsStay_spillTape s b
    unfold spillWall
    split <;> rename_i h <;> rw [h] at htape
    · exact htape.trans (ih _)
    · exact htape
    · exact htape.trans_pairs (refuseLine_pairs ..)

/-! ### Saving a wall (R283) -/

theorem withdrawAtSave_pairs (s : State) (b k : Nat) : (withdrawAtSave s b k).pairs = s.pairs := by
  unfold withdrawAtSave
  split <;> rfl

theorem dropFault_pairs (s : State) (b : Nat) : (dropFault s b).pairs = s.pairs := rfl

theorem scrubLocal_pairs (s : State) (core lo n : Nat) : (scrubLocal s core lo n).pairs = s.pairs := rfl

theorem saveWall_pairs (s : State) (wall : Nat) (w : Wall) : (saveWall s wall w).pairs = s.pairs := by
  have hsplits (s : State) (b : Nat) : ([0, 1, 2, 3].foldl (fun s k => withdrawAtSave s b k) s).pairs = s.pairs :=
    foldl_pairs (fun s k => withdrawAtSave_pairs s b k) _ s
  unfold saveWall
  refine (foldl_pairs (fun s b => ?_) _ _).trans ?_
  · rw [modBrick_pairs, dropFault_pairs, hsplits]
  · rw [modCore_pairs, scrubLocal_pairs]

theorem slotsStay_preempt {s t : State} {die : Nat} (h : exec (.preempt die) s = .next t) : SlotsStay s t := by
  change execPreempt die s = .next t at h
  unfold execPreempt at h
  split at h
  · rename_i k w hk
    have hspill := slotsStay_spillWall (wallBricks s k) s
    split at h <;> rename_i hw <;> rw [hw] at hspill <;> cases h
    · exact hspill
    · exact hspill.trans_pairs (saveWall_pairs ..)
  · split at h <;> cases h <;> exact slotsStay_of_pairs rfl

/-! ### The obligation -/

/-- The last exit of a deterministic launch leaves the brick's end among its flights. -/
theorem exitLast_ends {s : State} {c : Ctx} (hb : HasBrick s c.b c.br) (hd : c.br.det = true) : ∃ br fl, HasBrick (exitLast s c) c.b br ∧
    fl ∈ br.flights ∧ fl.kind = .gone false ∧ fl.tEnd = some (courseEndOf (qOf s c.br) c.br.L) := by
  obtain ⟨br', fl, hbr, -, -, hfl, hkind, hend⟩ := exitLast_buffered hb hd
  exact ⟨br', fl, hbr, hfl, hkind, hend⟩

/-- Settles O26: the forms by their own part, one cell by its slot, the end of a brick by what it leaves of physical memory, and
pre-emption by the slots that stay. -/
theorem tentativeFormsComplete : Obligations.TentativeFormsComplete := by
  refine ⟨?_, ?_, ⟨?_, ?_, ?_, ?_, ?_⟩, fun s die t h k slot => (slotsStay_preempt h).slot k slot⟩
  · intro i x hx s c hi
    refine ⟨fun hdet => traps_of_trap hi (hx.exec_eq s) (x.body_det hdet s), fun s1 accs hdet hroom haccs => ?_⟩
    exact retires_flight hi (hx.exec_eq s) (x.body_accs hdet hroom haccs)
  · intro s b m gov undo t pa va n aG a r bits freed chk
    refine ⟨fun slot hslot hw => ⟨fun hkeep => ?_, fun hundo hobs => ?_⟩, fun hother => ?_⟩
    · subst hw
      have hr : r = _ := performCell1_frees hslot hkeep m gov
      simp only [bits, freed, hr]
      exact ⟨⟨rfl, freeSlot_pairs s (pa / 8)⟩, rfl, trivial, rfl, rfl⟩
    · subst hw hundo
      have hr : r = _ := performCell1_restores hslot hobs m gov
      obtain ⟨hrest, hpairs, hG, hbad, hgood⟩ := restoreCell_freeSlot s (pa / 8) slot.old
      simp only [bits, freed, hr]
      refine ⟨⟨hrest, ?_⟩, ⟨trivial, rfl, rfl⟩, hG, hbad, fun hpsn => ?_⟩
      · rw [hpairs]
        exact freeSlot_pairs s (pa / 8)
      · obtain ⟨hread, hbytes⟩ := hgood hpsn
        refine ⟨?_, hbytes⟩
        rw [hread, leNat_leBytes]
        exact Nat.mod_eq_of_lt slot.old.isLt
    · have hr : r = (s, { Done.empty with writes := [cellBits m t true gov aG] }) := by
        rcases hother with hnone | ⟨slot, hslot, hw⟩
        · exact performCell1_none hnone ..
        · exact performCell1_other hslot hw ..
      simp only [bits, hr]
      exact ⟨trivial, trivial, rfl, rfl⟩
  · intro st s c f hi hlast
    obtain ⟨-, hb, -⟩ := focusOf_eq_some.1 hi.1
    refine ⟨fun hd hm => ?_, fun hd hm => ?_, fun hd => ?_⟩
    · exact retiresJump_of hi rfl ((if_neg (by simp [hlast])).trans (if_neg (by simp [hm]))) (exitLast_freesCells hb hd)
    · exact parks_of_park hi rfl ((if_neg (by simp [hlast])).trans (if_pos (by simp [hd, hm]))) rfl
    · exact retiresJump_of hi rfl ((if_neg (by simp [hlast])).trans (if_neg (by simp [hd])))
        ⟨exitLast_keepsCells hd, exitLast_ends hb hd⟩
  · intro s b k br sp w hb hk hw ho hs hsaved hf hd hm
    have heval : evalWait s (waitCtx b k br sp w) w = .turn (exitLast s (waitCtx b k br sp w)) := by
      rw [evalWait, ho]
      exact if_pos (by simp [waitCtx, hm])
    exact ⟨_, runMove_wake_turn hb hk hw hs hsaved hf heval, exitLast_freesCells (c := waitCtx b k br sp w) hb hd⟩
  · intro s b br cause strct hb halive t
    exact ⟨fun hd => killBrick_freesCells hb halive hd cause strct, fun hd => killBrick_buffered hb halive hd cause strct⟩
  · exact fun s b br f killed hb hk hwaits => commitFlight_freesCells hb hk hwaits
  · exact fun s b br f killed bs n hb hwait hgone => countAll_gone hb hwait hgone n

end Sys2Proof.Machine
